-- ==== Sys2Proof/Word.lean ====
section
/-! DEFINITION. The word types of the machine and the plainest reading of a bit field (R8). -/

namespace Sys2Proof

/-- A byte of memory (R8). -/
abbrev Byte := BitVec 8

/-- A 32-bit register word (R17). -/
abbrev Word := BitVec 32

/-- A 64-bit value: a register pair, a latch, an address (R8, R17, R55). -/
abbrev DWord := BitVec 64

/-- Bits `hi` down to `lo` of a natural number, as the spec writes `x[hi:lo]`. -/
def bitsOf (x hi lo : Nat) : Nat := (x >>> lo) % 2 ^ (hi + 1 - lo)

/-- Bit `k` of a natural number. -/
def bitOf (x k : Nat) : Bool := x.testBit k

/-- The number 1 for true and 0 for false. -/
def boolNat (b : Bool) : Nat := if b then 1 else 0

/-- A natural number read as an `n`-bit two's complement integer (R81). -/
def signedOf (n x : Nat) : Int :=
  let y := x % 2 ^ n
  if 2 * y < 2 ^ n then (y : Int) else (y : Int) - (2 ^ n : Nat)

/-- An integer kept modulo `2 ^ n` (R81: integer arithmetic wraps). -/
def wrapTo (n : Nat) (x : Int) : Nat := (x % ((2 ^ n : Nat) : Int)).toNat

/-- `x` rounded up to a multiple of `k`. -/
def roundUp (x k : Nat) : Nat := (x + k - 1) / k * k

/-- The quotient rounded up. -/
def ceilDiv (x k : Nat) : Nat := (x + k - 1) / k

end Sys2Proof
end

