-- ==== Sys2Proof/Syntax/Types.lean ====
section
/-! DEFINITION. The operand shapes of Mermos instructions: type codes, rounding, operand codes, and the shared
records that the constructors of Instr carry (R40, R45 to R53, R71). -/

namespace Sys2Proof

/-- The type codes of R71, in code order 0x00 to 0x11. -/
inductive Ty where
  | i8 | i16 | i32 | i64 | n8 | n16 | n32 | n64 | b32 | b64
  | f64 | f32 | bf16 | f16 | e4m3 | e5m2 | e2m1 | t3
  deriving DecidableEq, Repr

/-- The rounding field of R46. -/
inductive Rnd where
  | rn | rz | ru | rd | sr | dyn
  deriving DecidableEq, Repr

/-- The special-value reading of R78. -/
inductive Reading where
  | finiteOnly | nanOnly | ieee
  deriving DecidableEq, Repr

/-- An operand code of R52: the name a 9-bit field stands for. `invalid` holds a code that every use of an
operand refuses (0x144 to 0x147 and 0x160 to 0x1FF). -/
inductive Opnd where
  | v (n : BitVec 8)
  | s (n : BitVec 6)
  | latch (n : BitVec 2)
  | p (n : BitVec 3)
  | special (n : BitVec 4)
  | invalid (c : BitVec 9)
  deriving DecidableEq, Repr

/-- The code 0x150, zero: an absent operand or a discarded result. -/
abbrev Opnd.zero : Opnd := .special 0

/-- Guard and chain bit of the common fields (R40). -/
structure Com where
  guardNeg : Bool
  guardPred : BitVec 3
  chain : Bool
  deriving DecidableEq, Repr

/-- Result fields of a vector instruction: write-back suppress, destination, latch target (R45, R55). -/
structure Out where
  wbs : Bool
  dst : Opnd
  lt : BitVec 2
  deriving DecidableEq, Repr

/-- Operand B: an operand code in F64, or the immediate of F96-I (R47, R100). -/
inductive SrcB where
  | op (o : Opnd)
  | imm (w : Word)
  deriving DecidableEq, Repr

/-- A typed vector instruction of one source. `variant` is SUB bit 49. -/
structure Vec1 where
  com : Com
  out : Out
  ty : Ty
  variant : Bool
  a : Opnd
  deriving DecidableEq, Repr

/-- A typed vector instruction of two sources, the second perhaps an immediate. -/
structure Vec2 where
  com : Com
  out : Out
  ty : Ty
  variant : Bool
  a : Opnd
  b : SrcB
  deriving DecidableEq, Repr

/-- A typed vector instruction of three sources, in F96-C, or in F128-C with an immediate (R101). -/
structure Vec3 where
  com : Com
  out : Out
  ty : Ty
  variant : Bool
  a : Opnd
  b : Opnd
  c : Opnd
  imm : Option Word
  deriving DecidableEq, Repr

/-- A shift count: operand B, or SIMM when MOD bit 50 is 1 (R110). -/
inductive ShiftCount where
  | op (o : Opnd)
  | simm (n : BitVec 6)
  deriving DecidableEq, Repr

/-- The integer conditions of R113. -/
inductive Cond where
  | eq | ne | lt | le | gt | ge
  deriving DecidableEq, Repr

/-- The floating-point conditions of R126. -/
inductive FCond where
  | eq | ne | lt | le | gt | ge | un | num
  deriving DecidableEq, Repr

/-- The address spaces of the SPC field (R47). -/
inductive Space where
  | global | scratch | cluster | const
  deriving DecidableEq, Repr

/-- The memory operand of F96-M and F128-M (R47, R48): space, base, index, index scale and signed offset.
`wide` says that the layout is F128-M. -/
structure MemOp where
  space : Space
  base : Opnd
  index : Opnd
  scale : BitVec 2
  wide : Bool
  off : BitVec 32
  deriving DecidableEq, Repr

/-- The source-member rules of SHFL (R194). -/
inductive ShflMode where
  | idx | up | down | xor
  deriving DecidableEq, Repr

/-- The forms of VOTE (R195). -/
inductive VoteForm where
  | all | any | same | mask | cnt
  deriving DecidableEq, Repr

/-- The combinations of SRED and SSCAN (R197). -/
inductive SquadOp where
  | addI32 | minI32 | maxI32 | minN32 | maxN32 | and | or | xor | addF32 | minF32 | maxF32 | addI64
  deriving DecidableEq, Repr

/-- The key types of SEL.INIT (R203). -/
inductive SelKey where
  | f32 | i32 | n32
  deriving DecidableEq, Repr

/-- The forms of SEL.DRAIN (R203). -/
inductive DrainForm where
  | plain | cnt | fin
  deriving DecidableEq, Repr

/-- Where MMA and MMAT take the accumulator (R215, R218). -/
inductive AccSrc where
  | tile (tc : BitVec 4)
  | inPlace
  | zero
  deriving DecidableEq, Repr

/-- The accumulator formats of MMA, in ACC order (R216, R221). -/
inductive AccFmt where
  | f32 | bf16 | f16 | i32
  deriving DecidableEq, Repr

/-- The forms of TROW (R226). -/
inductive TrowForm where
  | rd | rdD | rdSc | wr | wrD | wrSc
  deriving DecidableEq, Repr

/-- The scopes of R257. -/
inductive Scope where
  | th | sq | blk | die | pkg | dom
  deriving DecidableEq, Repr

/-- The ordered kinds of ORD (R256). -/
inductive OrdKind where
  | acq | rel | ar | sc
  deriving DecidableEq, Repr

/-- The ORD field with its scope (R256, R257). -/
inductive MemOrd where
  | relaxed | cg | st
  | ordered (k : OrdKind) (sc : Scope)
  deriving DecidableEq, Repr

/-- The operations of ATOM and RED (R264). -/
inductive AtomOp where
  | add | min | max | and | or | xor | exch | cas | amax
  deriving DecidableEq, Repr

/-- The targets of PREF (R269). -/
inductive PrefTarget where
  | l1 | l2 | llc | stash
  deriving DecidableEq, Repr

/-- The address spaces a copy names in SUB (R306). -/
inductive CopySpace where
  | g | s | c | k
  deriving DecidableEq, Repr

/-- The forms of TLREAD (R326). -/
inductive TlForm where
  | done | iss | fail
  deriving DecidableEq, Repr

/-- A placement of a block, as the dispatcher chooses it (R171): the lane offset is 32, the block's cores in order
(numbered over the package, die × 48 + core), and on each of them the slot given to each of its threads in order of
linear index. -/
structure Placement where
  lo32 : Bool
  cores : List Nat
  slots : List (List Nat)
  deriving DecidableEq, Repr

/-- What the matrix engine's checksum comparison found for one instruction (R222). -/
inductive ChecksumOutcome where
  | agrees | rerun | mismatch
  deriving DecidableEq, Repr

/-- The pair operations of R74. -/
inductive PairOp where
  | fadd | fsub | fmul | ffma | fmin | fmax
  | iadd | isub | imul | imad | imin | imax | nmin | nmax
  | and | or | xor | andn | shl | shr | sra | mov
  | cvtBf16 | cvtF32 | ddot | dham
  deriving DecidableEq, Repr

/-- One half of a P96 pair (R49). `rnd` is `rn` where the operation has no rounding field. -/
structure PairHalf where
  op : PairOp
  rnd : Rnd
  out : Out
  a : Opnd
  b : Opnd
  deriving DecidableEq, Repr

/-! ### Packets and what the events of the package are given (R372, R446, R461 to R474) -/

/-- A packet: the fields of its header (R372) and its data flits as bytes, 32 for each flit. -/
structure Packet where
  op : Nat
  oc : Nat
  dpkg : Nat
  dstk : Nat
  spkg : Nat
  sstk : Nat
  sag : Nat
  part : Nat
  txid : Nat
  job : Nat
  flow : Nat
  noffm1 : Nat
  esz : Nat
  scope : Nat
  mt : Nat
  addr : Nat
  imm : DWord
  data : List Byte
  deriving DecidableEq, Repr

/-- The parts of a unit that are missing at bring-up (R386): stacks, pseudo-channels (stack × 64 + channel), stack
links, landings (die × 16 + stack), cores, the width in lanes of each Strelar port that is not whole, the first
physical address past DRAM. -/
structure UnitParts where
  noStacks : List Nat
  noPchs : List Nat
  noLinks : List Nat
  noLandings : List Nat
  noCores : List Nat
  lanes : List (Nat × Nat)
  dramEnd : Nat
  deriving DecidableEq, Repr

/-- The header of an XCP request with the address it comes from (R464). -/
structure XcpHdr where
  src : Nat
  seq : Nat
  len : Nat
  ver : Nat
  deriving DecidableEq, Repr

/-- The creation parameters of a partition (R446), with the partitions the host permits to hail it (R455) and where
its steward starts. Clusters are numbered over the package, core / 4. -/
structure PartParams where
  wcls : Nat
  guaranteed : List Nat
  margin : List Nat
  borrow : Nat
  shared : List Nat
  weight : Nat
  hailers : List Nat
  /-- Regions placed for the partition, with their interleave entries (R369). -/
  regions : List (Nat × DWord)
  stewardPc : DWord
  stewardNreg8 : Nat
  /-- The steward block's scratch bytes, tiles and table slots on its core. -/
  stewardScratch : Nat
  stewardNtile : Nat
  stewardTslots : Nat
  deriving DecidableEq, Repr

/-- A stage-2 entry of a MAP: its level, the guest-physical address it maps, and the entry word of R247. -/
structure MapEntry where
  level : Nat
  gpa : Nat
  entry : DWord
  deriving DecidableEq, Repr

/-- A job grant: the job, the partition, and the flow-state quota in units of 4 KiB on each ferry core, numbered
8 × stack + ferry core (R390). `elsewhere` says that another package's harbour die holds the job (R467). -/
structure JobGrant where
  job : Nat
  part : Nat
  quotas : List (Nat × Nat)
  elsewhere : Bool
  deriving DecidableEq, Repr

/-- A host window of R462. Length 0 removes it. -/
structure HostWindow where
  part : Nat
  base : Nat
  len : Nat
  read : Bool
  write : Bool
  deriving DecidableEq, Repr

/-- The payload of TOPOLOGY (R461, R465): package number, VLANs, and for each package the mask of the ports that may
carry unordered traffic with the fixed port of the ordered classes (R384). `cyclic` is the harbour die's finding
that the escape routes of the table could form a cycle. -/
structure Topology where
  pkg : Nat
  dataVlan : Nat
  ctlVlan : Nat
  routes : List (Nat × (Nat × Nat))
  cyclic : Bool
  deriving DecidableEq, Repr

/-- How the harbour die releases a held boot-mode thread (R107, R341). -/
inductive BootRelease where
  | halt | replay | skip | kill
  deriving DecidableEq, Repr

/-! ### Ferry words and near-bank words (R405, R421) -/

/-- The element types of the FV layout. -/
inductive FTy where
  | i32 | f32 | i16 | bf16
  deriving DecidableEq, Repr

/-- The rounding of ferry and near-bank arithmetic (R409, R421). -/
inductive FRnd where
  | rn | rz | ru | rd
  deriving DecidableEq, Repr

/-- The conditions of VCMP (R410). -/
inductive FvCond where
  | eq | ne | lt | le | ltu | leu | un
  deriving DecidableEq, Repr

/-- The forms of VCVT (R410). -/
inductive FvCvt where
  | f32i32 | i32f32 | bf16f32 | f32bf16lo | f32bf16hi
  deriving DecidableEq, Repr

/-- The folds of VRED (R410). -/
inductive FvRed where
  | add | min | max
  deriving DecidableEq, Repr

/-- Operand B of a ferry scalar instruction (R413). -/
inductive FSrc where
  | reg (b : Fin 16)
  | imm (w : Fin 65536)
  deriving DecidableEq, Repr

/-- The conditions of BR (R414). -/
inductive FbCond where
  | eq | ne | lt | ge | ltu | geu | always
  deriving DecidableEq, Repr

/-- The conditions of BRM (R414). -/
inductive FmCond where
  | any | none | all | notall
  deriving DecidableEq, Repr

/-- The fields PSET writes (R416). -/
inductive PktField where
  | dpkg | dstk | imml | immh | ndf
  deriving DecidableEq, Repr

/-- The element types of a micro-operation (R421). -/
inductive NbTy where
  | f32 | i32 | bf16
  deriving DecidableEq, Repr

/-- The conditions of a micro-operation (R419). -/
inductive NbCond where
  | every | first | rowend | last
  deriving DecidableEq, Repr

end Sys2Proof
end

