-- ==== Sys2Proof/Config.lean ====
section
/-! DEFINITION. What an implementation fixes, and the free values: constants without a body, of which no proof can
see anything. DESIGN CHOICE, log 2, 3, 8, 9, 28, 61. -/

namespace Sys2Proof.Config

/-- Nanoseconds that the global timestamp counter advances at a step (R474 bounds only its rate). -/
opaque stepTime : Nat → Nat

/-- Which of the agents that can act acts at a step (the spec orders the agents of a package only by its rules). -/
opaque choice : Nat → Nat

/-- A free 64-bit value, by the number of free values drawn before it. -/
opaque freeValue : Nat → BitVec 64

/-- What a byte of the control region that no chapter lays out reads as, by the time and its address (R244). -/
opaque controlByte : Nat → Nat → BitVec 8

/-- The window number, and the writer's tag and count, that the record of a race holds which another package's home has
found: its response carries neither (R290, R373). By the time and the address. -/
opaque raceWindow : Nat → Nat → BitVec 3
opaque raceWriter : Nat → Nat → BitVec 64

/-- What R156 leaves to the firmware of the default tables: a word of an image, by the image's offset and the word's number,
and the version of the set. -/
opaque tableWord : Nat → Nat → BitVec 32
opaque tableVersion : BitVec 32

/-- SHAKE256 with 512 bits of output (R470 to R472): a standard function that the spec names and does not restate. -/
opaque shake256 : List (BitVec 8) → List (BitVec 8)

/-- Whether a firmware image's Falcon-1024 signature verifies against the fused key (R470). -/
opaque firmwareVerifies : List (BitVec 8) → Bool

/-- The version that a firmware image carries (R470). -/
opaque firmwareVersion : List (BitVec 8) → Nat

/-- The Falcon-1024 signature of a report by the identity key, padded to 1,280 bytes (R472). -/
opaque identitySign : List (BitVec 8) → List (BitVec 8)

/-- The identity public key and its certificate (R471). -/
opaque identityKey : List (BitVec 8)
opaque identityCert : List (BitVec 8)

/-- The 38 symbols of a Strelar frame after RS(42,38) correction, or none where it cannot be corrected (R383). The spec
names the code and no field polynomial. -/
opaque rsCorrect : List (BitVec 8) → Option (List (BitVec 8))

/-- The parameters of the present partitions, as the bytes that ATTEST measures (R472), whose layout the spec does not
give. -/
opaque configBytes : List (Nat × PartParams) → List (BitVec 8)

/-- A telemetry reading, by its number and the time (R473). -/
opaque telemetry : Nat → Nat → Nat

/-- The code of an EVENT message by what it reports, which R465 does not number: 0 row disturbance, 1 a discarded packet,
2 thermal throttling, 3 an event queue that cannot be reached. -/
opaque eventCode : Nat → Nat

/-- The page of local DRAM, of those present, that holds the boot code (R292). -/
opaque bootPage : Nat

/-- The capabilities and firmware version numbers of the unit's feature vector (R468). -/
opaque unitCaps : BitVec 5
opaque firmwareMajor : BitVec 8
opaque firmwareMinor : BitVec 8

end Sys2Proof.Config
end

