-- ==== Sys2Proof/Machine/Codes.lean ====
section
/-! DEFINITION. The code tables of Mermos instruction fields: what each operand code, type code and modifier value
names, and the code of each name (R46, R52, R71 to R74 and the entries of the instructions). -/

namespace Sys2Proof

/-! ### Operand codes (R52) -/

/-- The operand a 9-bit code names. -/
def Opnd.ofCode (n : Nat) : Opnd :=
  if n < 0x100 then .v (BitVec.ofNat 8 n)
  else if n < 0x140 then .s (BitVec.ofNat 6 (n - 0x100))
  else if n < 0x144 then .latch (BitVec.ofNat 2 (n - 0x140))
  else if n < 0x148 then .invalid (BitVec.ofNat 9 n)
  else if n < 0x150 then .p (BitVec.ofNat 3 (n - 0x148))
  else if n < 0x160 then .special (BitVec.ofNat 4 (n - 0x150))
  else .invalid (BitVec.ofNat 9 n)

/-- The 9-bit code of an operand. -/
def Opnd.code : Opnd → Nat
  | .v n => n.toNat
  | .s n => 0x100 + n.toNat
  | .latch n => 0x140 + n.toNat
  | .p n => 0x148 + n.toNat
  | .special n => 0x150 + n.toNat
  | .invalid c => c.toNat

/-- `invalid` holds only the codes that R52 gives no name. -/
def Opnd.canon : Opnd → Bool
  | .invalid c => (decide (0x144 ≤ c.toNat) && decide (c.toNat < 0x148)) || decide (0x160 ≤ c.toNat)
  | _ => true

/-- The operand of a field whose bits are all 0: what a res0 operand field reads as. -/
abbrev Opnd.res0 : Opnd := .v 0

/-! ### Type codes, rounding, readings (R46, R71, R78) -/

/-- The type of a type code, or none for a reserved one. -/
def Ty.ofCode : Nat → Option Ty
  | 0x00 => some .i8 | 0x01 => some .i16 | 0x02 => some .i32 | 0x03 => some .i64
  | 0x04 => some .n8 | 0x05 => some .n16 | 0x06 => some .n32 | 0x07 => some .n64
  | 0x08 => some .b32 | 0x09 => some .b64 | 0x0A => some .f64 | 0x0B => some .f32
  | 0x0C => some .bf16 | 0x0D => some .f16 | 0x0E => some .e4m3 | 0x0F => some .e5m2
  | 0x10 => some .e2m1 | 0x11 => some .t3
  | _ => none

/-- The type code of a type. -/
def Ty.code : Ty → Nat
  | .i8 => 0x00 | .i16 => 0x01 | .i32 => 0x02 | .i64 => 0x03
  | .n8 => 0x04 | .n16 => 0x05 | .n32 => 0x06 | .n64 => 0x07
  | .b32 => 0x08 | .b64 => 0x09 | .f64 => 0x0A | .f32 => 0x0B
  | .bf16 => 0x0C | .f16 => 0x0D | .e4m3 => 0x0E | .e5m2 => 0x0F
  | .e2m1 => 0x10 | .t3 => 0x11

/-- The rounding of a 3-bit RND field. -/
def Rnd.ofCode : Nat → Option Rnd
  | 0 => some .rn | 1 => some .rz | 2 => some .ru | 3 => some .rd | 4 => some .sr | 5 => some .dyn
  | _ => none

/-- The RND field of a rounding. -/
def Rnd.code : Rnd → Nat
  | .rn => 0 | .rz => 1 | .ru => 2 | .rd => 3 | .sr => 4 | .dyn => 5

/-- The reading of a 2-bit code. -/
def Reading.ofCode : Nat → Option Reading
  | 0 => some .finiteOnly | 1 => some .nanOnly | 2 => some .ieee
  | _ => none

/-- The 2-bit code of a reading. -/
def Reading.code : Reading → Nat
  | .finiteOnly => 0 | .nanOnly => 1 | .ieee => 2

/-- The condition of R113 of a 3-bit code. -/
def Cond.ofCode : Nat → Option Cond
  | 0 => some .eq | 1 => some .ne | 2 => some .lt | 3 => some .le | 4 => some .gt | 5 => some .ge
  | _ => none

/-- The 3-bit code of a condition. -/
def Cond.code : Cond → Nat
  | .eq => 0 | .ne => 1 | .lt => 2 | .le => 3 | .gt => 4 | .ge => 5

/-- The condition of R126 of a 3-bit code. -/
def FCond.ofCode : Nat → Option FCond
  | 0 => some .eq | 1 => some .ne | 2 => some .lt | 3 => some .le | 4 => some .gt | 5 => some .ge
  | 6 => some .un | 7 => some .num
  | _ => none

/-- The 3-bit code of a condition of R126. -/
def FCond.code : FCond → Nat
  | .eq => 0 | .ne => 1 | .lt => 2 | .le => 3 | .gt => 4 | .ge => 5 | .un => 6 | .num => 7

/-- The space of an SPC field (R47). -/
def Space.ofCode : Nat → Space
  | 0 => .global | 1 => .scratch | 2 => .cluster | _ => .const

/-- The SPC field of a space. -/
def Space.code : Space → Nat
  | .global => 0 | .scratch => 1 | .cluster => 2 | .const => 3

/-- The scope of MOD bits 52:50 (R257). -/
def Scope.ofCode : Nat → Option Scope
  | 0 => some .th | 1 => some .sq | 2 => some .blk | 3 => some .die | 4 => some .pkg | 5 => some .dom
  | _ => none

/-- MOD bits 52:50 of a scope. -/
def Scope.code : Scope → Nat
  | .th => 0 | .sq => 1 | .blk => 2 | .die => 3 | .pkg => 4 | .dom => 5

/-- The ordered kind of a two-bit code: .acq, .rel, .ar, .sc in FENCE order (R267). -/
def OrdKind.ofCode : Nat → OrdKind
  | 0 => .acq | 1 => .rel | 2 => .ar | _ => .sc

/-- The two-bit code of an ordered kind. -/
def OrdKind.code : OrdKind → Nat
  | .acq => 0 | .rel => 1 | .ar => 2 | .sc => 3

/-- ORD with the scope bits (R256, R257). None where the pair is not assigned. -/
def MemOrd.ofCode (ord scope : Nat) : Option MemOrd :=
  match ord with
  | 0 => if scope = 0 then some .relaxed else none
  | 1 => if scope = 0 then some .cg else none
  | 2 => if scope = 0 then some .st else none
  | 4 => (Scope.ofCode scope).map (.ordered .acq)
  | 5 => (Scope.ofCode scope).map (.ordered .rel)
  | 6 => (Scope.ofCode scope).map (.ordered .ar)
  | 7 => (Scope.ofCode scope).map (.ordered .sc)
  | _ => none

/-- The ORD field. -/
def MemOrd.ord : MemOrd → Nat
  | .relaxed => 0 | .cg => 1 | .st => 2 | .ordered k _ => 4 + k.code

/-- The scope bits. -/
def MemOrd.scope : MemOrd → Nat
  | .ordered _ s => s.code
  | _ => 0

/-- The squad combination of SUB (R197). -/
def SquadOp.ofCode : Nat → Option SquadOp
  | 0 => some .addI32 | 1 => some .minI32 | 2 => some .maxI32 | 3 => some .minN32 | 4 => some .maxN32
  | 5 => some .and | 6 => some .or | 7 => some .xor | 8 => some .addF32 | 9 => some .minF32
  | 0xA => some .maxF32 | 0x10 => some .addI64
  | _ => none

/-- SUB of a squad combination. -/
def SquadOp.code : SquadOp → Nat
  | .addI32 => 0 | .minI32 => 1 | .maxI32 => 2 | .minN32 => 3 | .maxN32 => 4 | .and => 5 | .or => 6
  | .xor => 7 | .addF32 => 8 | .minF32 => 9 | .maxF32 => 0xA | .addI64 => 0x10

/-- SHFL's MOD bits 52:50 (R194). -/
def ShflMode.ofCode : Nat → Option ShflMode
  | 0 => some .idx | 1 => some .up | 2 => some .down | 3 => some .xor
  | _ => none

/-- MOD bits 52:50 of a SHFL mode. -/
def ShflMode.code : ShflMode → Nat
  | .idx => 0 | .up => 1 | .down => 2 | .xor => 3

/-- VOTE's MOD bits 52:50 (R195). -/
def VoteForm.ofCode : Nat → Option VoteForm
  | 0 => some .all | 1 => some .any | 2 => some .same | 3 => some .mask | 4 => some .cnt
  | _ => none

/-- MOD bits 52:50 of a VOTE form. -/
def VoteForm.code : VoteForm → Nat
  | .all => 0 | .any => 1 | .same => 2 | .mask => 3 | .cnt => 4

/-- The key type of SEL.INIT's SUB bits 47:46 (R203). -/
def SelKey.ofCode : Nat → Option SelKey
  | 0 => some .f32 | 1 => some .i32 | 2 => some .n32
  | _ => none

/-- SUB bits 47:46 of a key type. -/
def SelKey.code : SelKey → Nat
  | .f32 => 0 | .i32 => 1 | .n32 => 2

/-- ACC of MMA (R216). -/
def AccFmt.ofCode : Nat → AccFmt
  | 0 => .f32 | 1 => .bf16 | 2 => .f16 | _ => .i32

/-- ACC code. -/
def AccFmt.code : AccFmt → Nat
  | .f32 => 0 | .bf16 => 1 | .f16 => 2 | .i32 => 3

/-- SUB bits 46:44 of TROW (R215, R226). -/
def TrowForm.ofCode : Nat → Option TrowForm
  | 0 => some .rd | 1 => some .wr | 2 => some .rdD | 3 => some .wrD | 4 => some .rdSc | 5 => some .wrSc
  | _ => none

/-- SUB of a TROW form. -/
def TrowForm.code : TrowForm → Nat
  | .rd => 0 | .wr => 1 | .rdD => 2 | .wrD => 3 | .rdSc => 4 | .wrSc => 5

/-- The copy space of a two-bit code (R306). -/
def CopySpace.ofCode : Nat → CopySpace
  | 0 => .g | 1 => .s | 2 => .c | _ => .k

/-- The two-bit code of a copy space. -/
def CopySpace.code : CopySpace → Nat
  | .g => 0 | .s => 1 | .c => 2 | .k => 3

/-- PREF's SUB bits 45:44 (R269). -/
def PrefTarget.ofCode : Nat → PrefTarget
  | 0 => .l1 | 1 => .l2 | 2 => .llc | _ => .stash

/-- SUB bits 45:44 of a PREF target. -/
def PrefTarget.code : PrefTarget → Nat
  | .l1 => 0 | .l2 => 1 | .llc => 2 | .stash => 3

/-- The operation of ATOM's MOD bits 55:53 (R264). -/
def AtomOp.ofAtom : Nat → AtomOp
  | 0 => .add | 1 => .min | 2 => .max | 3 => .and | 4 => .or | 5 => .xor | 6 => .exch | _ => .cas

/-- The operation of RED's MOD bits 55:53 (R264). -/
def AtomOp.ofRed : Nat → Option AtomOp
  | 0 => some .add | 1 => some .min | 2 => some .max | 3 => some .and | 4 => some .or | 5 => some .xor
  | 6 => some .amax
  | _ => none

/-- MOD bits 55:53 of an operation. -/
def AtomOp.code : AtomOp → Nat
  | .add => 0 | .min => 1 | .max => 2 | .and => 3 | .or => 4 | .xor => 5 | .exch => 6 | .cas => 7 | .amax => 6

/-- Whether the pair operation carries RND in its modifier bits (R74). -/
def PairOp.rounds : PairOp → Bool
  | .fadd | .fsub | .fmul | .ffma | .cvtBf16 => true
  | _ => false

/-- The number of sources (R74). -/
def PairOp.sources : PairOp → Nat
  | .ffma | .imad | .ddot => 3
  | .mov | .cvtBf16 | .cvtF32 => 1
  | _ => 2

/-- The operation may stand in the A half (R74). -/
def PairOp.inA : PairOp → Bool
  | .ddot | .dham => false
  | _ => true

/-- The operation may stand in the B half (R74). -/
def PairOp.inB : PairOp → Bool
  | .cvtBf16 | .cvtF32 => false
  | _ => true

/-- The pair operation of a POP value (R74). -/
def PairOp.ofCode : Nat → Option PairOp
  | 0x01 => some .fadd | 0x02 => some .fsub | 0x03 => some .fmul | 0x04 => some .ffma
  | 0x05 => some .fmin | 0x06 => some .fmax | 0x10 => some .iadd | 0x11 => some .isub
  | 0x12 => some .imul | 0x13 => some .imad | 0x14 => some .imin | 0x15 => some .imax
  | 0x16 => some .nmin | 0x17 => some .nmax | 0x18 => some .and | 0x19 => some .or
  | 0x1A => some .xor | 0x1B => some .andn | 0x1C => some .shl | 0x1D => some .shr
  | 0x1E => some .sra | 0x20 => some .mov | 0x28 => some .cvtBf16 | 0x29 => some .cvtF32
  | 0x30 => some .ddot | 0x31 => some .dham
  | _ => none

/-- The POP value of a pair operation. -/
def PairOp.code : PairOp → Nat
  | .fadd => 0x01 | .fsub => 0x02 | .fmul => 0x03 | .ffma => 0x04 | .fmin => 0x05 | .fmax => 0x06
  | .iadd => 0x10 | .isub => 0x11 | .imul => 0x12 | .imad => 0x13 | .imin => 0x14 | .imax => 0x15
  | .nmin => 0x16 | .nmax => 0x17 | .and => 0x18 | .or => 0x19 | .xor => 0x1A | .andn => 0x1B
  | .shl => 0x1C | .shr => 0x1D | .sra => 0x1E | .mov => 0x20 | .cvtBf16 => 0x28 | .cvtF32 => 0x29
  | .ddot => 0x30 | .dham => 0x31

/-! ### The type codes each opcode lists (R69) -/

/-- ADD and its neighbours. -/
def tysInt : List Ty := [.i32, .i64, .n32, .n64]
/-- ABS and NEG. -/
def tysSigned : List Ty := [.i32, .i64]
/-- ADDC and SUBB. -/
def tysUnsigned : List Ty := [.n32, .n64]
/-- MAD. -/
def tysMad : List Ty := [.i32, .n32]
/-- The bitwise instructions. -/
def tysBits : List Ty := [.b32, .b64]
/-- FADD and its neighbours. -/
def tysWide : List Ty := [.f64, .f32, .bf16, .f16]
/-- FSCALE and FRND. -/
def tysFs : List Ty := [.f64, .f32]
/-- The narrow formats. -/
def tysNarrow : List Ty := [.e4m3, .e5m2, .e2m1]
/-- FCLASS. -/
def tysClass : List Ty := [.f64, .f32, .bf16, .f16, .e4m3, .e5m2, .e2m1]
/-- PACK and UNPACK. -/
def tysPack : List Ty := [.bf16, .f16, .e4m3, .e5m2, .e2m1, .t3]
/-- The integer types of CVT. -/
def tysCvtInt : List Ty := [.i8, .i16, .i32, .i64, .n8, .n16, .n32, .n64]
/-- LD and ST (R134). -/
def tysLdSt : List Ty := [.i8, .i16, .n8, .n16, .b32, .b64]
/-- TBL.EVAL. -/
def tysEval : List Ty := [.f32, .bf16, .f16]

/-- The pairs that CVT permits (R130). -/
def cvtPair (dst src : Ty) : Bool :=
  (tysWide.contains src && tysWide.contains dst && decide (src ≠ dst)) ||
  (tysWide.contains src && tysNarrow.contains dst) ||
  (tysNarrow.contains src && tysWide.contains dst) ||
  (tysWide.contains src && tysCvtInt.contains dst) ||
  (tysCvtInt.contains src && tysWide.contains dst) ||
  (tysCvtInt.contains src && tysCvtInt.contains dst && decide (src ≠ dst))

/-- The pairs on which CVT takes .sat (R130). -/
def cvtSat (dst src : Ty) : Bool :=
  tysNarrow.contains dst || (tysCvtInt.contains src && tysCvtInt.contains dst)

/-- The number of elements a word holds, for FCLASS and UNPACK (R127, R132). -/
def elemLimit : Ty → Nat
  | .bf16 | .f16 => 2
  | .e4m3 | .e5m2 => 4
  | .e2m1 => 8
  | .t3 => 20
  | _ => 1

/-- The types each operation of ATOM and RED takes (R264). -/
def atomTys : AtomOp → List Ty
  | .add | .min | .max => [.i32, .i64, .n32, .n64, .f32]
  | .and | .or | .xor | .exch | .cas => [.b32, .b64]
  | .amax => [.f32]

/-- The ORD values each instruction takes (R256). -/
def ordLd : MemOrd → Bool
  | .ordered .acq _ | .ordered .sc _ | .relaxed | .cg | .st => true
  | _ => false
def ordSt : MemOrd → Bool
  | .ordered .rel _ | .ordered .sc _ | .relaxed | .cg | .st => true
  | _ => false
def ordGather : MemOrd → Bool
  | .relaxed | .cg | .st => true
  | _ => false
def ordAtom : MemOrd → Bool
  | .ordered _ _ | .relaxed => true
  | _ => false
def ordRed : MemOrd → Bool
  | .ordered .rel _ | .relaxed => true
  | _ => false

/-! ### The pair rules of R50 -/

/-- The v registers a half reads, its third source included (R49, R50). -/
def PairHalf.reads (h : PairHalf) : List Nat :=
  let r : Opnd → List Nat := fun o => match o with | .v n => [n.toNat] | _ => []
  r h.a ++ (if 2 ≤ h.op.sources then r h.b else []) ++
    (if h.op.sources = 3 && !h.out.wbs then r h.out.dst else [])

/-- The register or predicate a half writes (R50 rule 4). A half whose destination is p7 names that predicate, though its
write is discarded (R20). DEDUCED. DEDUCED, log 60. -/
def PairHalf.writes (h : PairHalf) : Option Nat :=
  match h.out.dst with
  | .v _ | .s _ | .p _ => some h.out.dst.code
  | _ => none

/-- Rules 2 to 4 of R50. -/
def pairRules (ha hb : PairHalf) : Bool :=
  (ha.reads.all fun x => hb.reads.all fun y => decide (x % 4 ≠ y % 4)) &&
  decide ((ha.reads ++ hb.reads).dedup.length ≤ 3) &&
  (match ha.writes, hb.writes with
   | some x, some y => decide (x ≠ y)
   | _, _ => true)

/-- What one half must satisfy on its own (R55, R74). -/
def PairHalf.ok (h : PairHalf) : Bool :=
  (!h.out.wbs || decide (h.out.dst = .zero)) &&
  (decide (h.op.sources ≠ 1) || decide (h.b = .zero)) &&
  (if h.op.rounds then decide (h.rnd ≠ .sr) else decide (h.rnd = .rn))

end Sys2Proof
end

