-- ==== Sys2Proof/Syntax.lean ====
section
/-! DEFINITION. The instruction set: one constructor for each row of the opcode table, the thread instructions with
their operands, the words of the ferry cores and near-bank units, and the events of the units that act on their own
with what such an event is given from outside (DESIGN CHOICE, log 1). -/

namespace Sys2Proof

/-- The instructions and events of the machine. -/
inductive Instr where
  /-- The harbour die releases a core from reset, and the core starts the boot-mode thread at BOOTVEC with the boot register set (R30). -/
  | coreReleaseFromReset (core : Nat)
  /-- Issues with no effect (R41). -/
  | nop
  /-- A filler word advances the PC by 4 without taking an issue slot (R41). -/
  | filler
  /-- Relative branch by a signed 32-bit offset (R103). -/
  | bra (com : Com) (off : Word)
  /-- Jump to a 64-bit immediate target (R103). -/
  | jmp (com : Com) (target : DWord)
  /-- Branch by a register offset (R103). -/
  | brx (com : Com) (a : Opnd)
  /-- Relative call that writes the link pair (R103). -/
  | call (com : Com) (link : Opnd) (off : Word)
  /-- Call to a register target that writes the link pair (R103). -/
  | callr (com : Com) (link a : Opnd)
  /-- Return to a 64-bit register target (R103). -/
  | ret (com : Com) (a : Opnd)
  /-- Ends each active thread and frees its slot (R105). -/
  | exit (com : Com)
  /-- Moves the issuing entry to the pending set (R106). -/
  | yield (com : Com)
  /-- Holds a steward thread until an event or a hail is pending (R107). -/
  | halt (com : Com)
  /-- Integer add, wrapping or saturating (R108). -/
  | add (x : Vec2)
  /-- Integer subtract, wrapping or saturating (R108). -/
  | sub (x : Vec2)
  /-- Add with carry through a predicate (R109). -/
  | addc (x : Vec2) (pk : BitVec 3) (first : Bool)
  /-- Subtract with borrow through a predicate (R109). -/
  | subb (x : Vec2) (pk : BitVec 3) (first : Bool)
  /-- Low half of an integer product (R108). -/
  | mul (x : Vec2)
  /-- High half of an integer product (R108). -/
  | mulh (x : Vec2)
  /-- 32-bit multiply-add, with an optional immediate fourth addend (R108). -/
  | mad (x : Vec3)
  /-- Integer divide, truncating, with defined results for zero and overflow (R111). -/
  | div (x : Vec2)
  /-- Integer remainder with the sign of the dividend (R111). -/
  | rem (x : Vec2)
  /-- Integer minimum (R108). -/
  | min (x : Vec2)
  /-- Integer maximum (R108). -/
  | max (x : Vec2)
  /-- Integer absolute value (R108). -/
  | abs (x : Vec1)
  /-- Integer negation (R108). -/
  | neg (x : Vec1)
  /-- Bitwise AND (R108). -/
  | and (x : Vec2)
  /-- Bitwise OR (R108). -/
  | or (x : Vec2)
  /-- Bitwise exclusive OR (R108). -/
  | xor (x : Vec2)
  /-- Bitwise NOT (R108). -/
  | not (x : Vec1)
  /-- a AND NOT b (R108). -/
  | andn (x : Vec2)
  /-- Shift left (R110). -/
  | shl (x : Vec1) (cnt : ShiftCount)
  /-- Logical shift right (R110). -/
  | shr (x : Vec1) (cnt : ShiftCount)
  /-- Arithmetic shift right (R110). -/
  | sra (x : Vec1) (cnt : ShiftCount)
  /-- Rotate left (R110). -/
  | rot (x : Vec1) (cnt : ShiftCount)
  /-- Funnel shift of a 64-bit concatenation (R108). -/
  | funnel (x : Vec3)
  /-- Count leading zeros (R108). -/
  | clz (x : Vec1)
  /-- Count trailing zeros (R108). -/
  | ctz (x : Vec1)
  /-- Population count (R108). -/
  | popc (x : Vec1)
  /-- Bit reversal (R108). -/
  | brev (x : Vec1)
  /-- Bit-field extract (R112). -/
  | bfx (x : Vec2)
  /-- Bit-field insert (R112). -/
  | bfi (x : Vec3)
  /-- Selects a or b by a condition operand (R108). -/
  | sel (x : Vec3)
  /-- Integer comparison producing a truth value (R113). -/
  | cmp (x : Vec2) (c : Cond)
  /-- Computes an effective address without accessing memory (R114). -/
  | lea (com : Com) (out : Out) (m : MemOp)
  /-- Computes bits 63:32 of an effective address (R114). -/
  | leah (com : Com) (out : Out) (m : MemOp)
  /-- Forms the scratch-window address of a scratch offset (R115). -/
  | swin (com : Com) (out : Out) (cluster : Bool) (a : Opnd)
  /-- Three-input truth-table lookup (R117). -/
  | plut (com : Com) (out : Out) (table : BitVec 8) (a b c : Opnd)
  /-- Reads all predicates into a register (R118). -/
  | pmovGet (com : Com) (out : Out)
  /-- Writes p0 to p6 from a register (R118). -/
  | pmovSet (com : Com) (lt : BitVec 2) (a : Opnd)
  /-- Register copy (R119). -/
  | mov (x : Vec1)
  /-- Writes an immediate (R119). -/
  | movi (com : Com) (out : Out) (ty : Ty) (imm : DWord) (wide : Bool)
  /-- Reads a copy-channel write pointer (R121). -/
  | movsReadWp (com : Com) (ch : BitVec 3) (dst : Opnd)
  /-- Reads a tile control register (R121). -/
  | movsReadTc (com : Com) (t : BitVec 4) (dst : Opnd)
  /-- Writes a tile control register in engine order (R121). -/
  | movsWriteTc (com : Com) (t : BitVec 4) (a : Opnd)
  /-- Builds a word from selected bytes of two sources (R120). -/
  | bsel (x : Vec3)
  /-- Reads a control and status register (R122). -/
  | csrr (com : Com) (reg : BitVec 12) (dst : Opnd)
  /-- Writes a control and status register after validating the new value (R122). -/
  | csrw (com : Com) (reg : BitVec 12) (a : Opnd)
  /-- Sets bits of a control and status register (R122). -/
  | csrwSet (com : Com) (reg : BitVec 12) (a : Opnd)
  /-- Clears bits of a control and status register (R122). -/
  | csrwClr (com : Com) (reg : BitVec 12) (a : Opnd)
  /-- Floating-point add, rounded once (R124). -/
  | fadd (x : Vec2) (rnd : Rnd)
  /-- Floating-point subtract, rounded once (R124). -/
  | fsub (x : Vec2) (rnd : Rnd)
  /-- Floating-point multiply, rounded once (R124). -/
  | fmul (x : Vec2) (rnd : Rnd)
  /-- Fused multiply-add, rounded once (R124). -/
  | ffma (x : Vec3) (rnd : Rnd)
  /-- Floating-point minimum (R125). -/
  | fmin (x : Vec2)
  /-- Floating-point maximum (R125). -/
  | fmax (x : Vec2)
  /-- Floating-point comparison producing a truth value (R126). -/
  | fcmp (x : Vec2) (c : FCond)
  /-- Writes a one-hot class mask of an operand (R127). -/
  | fclass (x : Vec1) (r : Reading) (elem : BitVec 6)
  /-- Multiplies by a power of two, rounded (R128). -/
  | fscale (x : Vec2) (rnd : Rnd)
  /-- Rounds to an integral value (R129). -/
  | frnd (x : Vec1) (rnd : Rnd)
  /-- Converts between permitted types (R130). -/
  | cvt (x : Vec2) (src : Ty) (rnd : Rnd) (r : Reading)
  /-- Converts two FP32 values and shifts them into a packed word (R131). -/
  | pack (x : Vec3) (rnd : Rnd) (r : Reading)
  /-- Extracts one packed element as FP32 or a trit (R132). -/
  | unpack (x : Vec1) (r : Reading) (elem : BitVec 6)
  /-- Derives a UE8M0 block-scale code and packs it (R133). -/
  | bscale (x : Vec3) (r : Reading)
  /-- Executes two vector operations in pipes A and B as one instruction (R51). -/
  | pairP96 (com : Com) (ha hb : PairHalf)
  /-- Starts an asynchronous load of a table image into a slot's shadow (R150). -/
  | tblLoad (com : Com) (wide : Bool) (slot : BitVec 4) (dst : Opnd) (m : MemOp)
  /-- The loader finishes reading and checking an image, leaving the shadow ready or invalid (R150). -/
  | tblLoadComplete (core tag : Nat)
  /-- After earlier loads complete, makes the shadow the current copy (R151). -/
  | tblCommit (com : Com) (slot : BitVec 4) (dst : Opnd)
  /-- Evaluates inputs against the slot's current table (R152). -/
  | tblEval (com : Com) (ty : Ty) (rnd : Rnd) (slot : BitVec 4) (dst a : Opnd)
  /-- Writes a slot's status or version (R153). -/
  | tblQuery (com : Com) (ver : Bool) (slot : BitVec 4) (dst : Opnd)
  /-- Empties a slot's copies (R154). -/
  | tblDrop (com : Com) (sh : Bool) (slot : BitVec 4)
  /-- A free PC-table entry is filled from ready slot-state threads (R160). -/
  | entryFill (core : Nat)
  /-- Each cycle the core issues the ready active entry of greatest age (R165). -/
  | issueSelect (core : Nat)
  /-- A pending entry with work is promoted to a free active position (R166). -/
  | entryPromote (core : Nat)
  /-- An entry whose issue count reaches 4,096 is evicted to slot state (R163). -/
  | entryEvict (core entry : Nat)
  /-- Squad shuffle from a source member (R194). -/
  | shfl (com : Com) (mode : ShflMode) (k : BitVec 5) (wide : Bool) (dst a : Opnd) (mask : Word)
  /-- Squad vote (R195). -/
  | vote (com : Com) (form : VoteForm) (dst a : Opnd) (mask : Word)
  /-- Squad mask of equal keys (R196). -/
  | matchKey (com : Com) (wide : Bool) (dst a : Opnd) (mask : Word)
  /-- Squad reduction by left fold (R197). -/
  | sred (com : Com) (op : SquadOp) (dst a : Opnd) (mask : Word)
  /-- Squad prefix scan (R197). -/
  | sscan (com : Com) (op : SquadOp) (excl : Bool) (dst a : Opnd) (mask : Word)
  /-- Squad synchronisation with squad-scope memory ordering (R198). -/
  | ssync (com : Com) (mask : Word)
  /-- Packed integer dot product with accumulate (R199). -/
  | ddot (com : Com) (out : Out) (x8 aUns bUns sat : Bool) (a b c : Opnd)
  /-- Hamming distance (R200). -/
  | dham (x : Vec2)
  /-- Squared Euclidean distance over four E4M3 elements, accumulated (R201). -/
  | dl2 (com : Com) (out : Out) (rnd : Rnd) (r : Reading) (a b c : Opnd)
  /-- Binds and resets a selection context (R204). -/
  | selInit (com : Com) (key : SelKey) (max : Bool) (c : BitVec 2) (dst a : Opnd)
  /-- Inserts key-payload pairs into a selection context (R206). -/
  | selPush (com : Com) (c : BitVec 2) (a b : Opnd)
  /-- Reads ranked entries or the count of a selection context, optionally freeing it (R207). -/
  | selDrain (com : Com) (form : DrainForm) (c : BitVec 2) (dst a : Opnd)
  /-- Writes a tile control register in engine order (R228). -/
  | tcfg (com : Com) (td : BitVec 4) (src : SrcB)
  /-- Zeroes tile rows (R227). -/
  | tzero (com : Com) (all : Bool) (td : BitVec 4) (dst : Opnd)
  /-- Loads a tensor box into a tile (R224). -/
  | tld (com : Com) (td : BitVec 4) (dst rec coord : Opnd)
  /-- Stores a tile to a tensor box (R225). -/
  | tst (com : Com) (ta : BitVec 4) (rnd : Rnd) (sat : Bool) (dst rec coord : Opnd)
  /-- Matrix multiply-accumulate into a tile (R218). -/
  | mma (com : Com) (td ta tb : BitVec 4) (c : AccSrc) (acc : AccFmt) (sigma : Option Opnd) (k : BitVec 10) (dst : Opnd)
  /-- Ternary by INT8 matrix multiply-accumulate (R218). -/
  | mmat (com : Com) (td ta tb : BitVec 4) (c : AccSrc) (k : BitVec 10) (dst : Opnd)
  /-- Permutes tile rows exactly (R220). -/
  | mmap (com : Com) (td ta : BitVec 4) (dst row : Opnd)
  /-- Moves 4 or 8 bytes between registers and the lane's tile row (R226). -/
  | trow (com : Com) (form : TrowForm) (td : BitVec 4) (data off : Opnd) (imm : Word)
  /-- Reads and optionally clears the matrix status word (R229). -/
  | tchk (com : Com) (clr : Bool) (dst : Opnd)
  /-- A matrix operation completes on timeline 8 (R214). -/
  | matrixOpComplete (core : Nat) (outcome : ChecksumOutcome)
  /-- Loads from memory into a register (R135). -/
  | ld (com : Com) (ty : Ty) (quad : Bool) (ord : MemOrd) (dst : Opnd) (m : MemOp)
  /-- Stores a register to memory (R135). -/
  | st (com : Com) (ty : Ty) (quad : Bool) (ord : MemOrd) (src : Opnd) (m : MemOp)
  /-- Gathers elements from scattered addresses (R262). -/
  | ldg (com : Com) (ty : Ty) (cnt : BitVec 2) (ord : MemOrd) (dst : Opnd) (m : MemOp)
  /-- Scatters elements to addresses (R262). -/
  | sct (com : Com) (ty : Ty) (cnt : BitVec 2) (ord : MemOrd) (src : Opnd) (m : MemOp)
  /-- Atomic read-modify-write returning the old value (R265). -/
  | atom (com : Com) (op : AtomOp) (ty : Ty) (ord : MemOrd) (dst : Opnd) (c : Opnd) (m : MemOp)
  /-- Atomic reduction without a returned value (R265). -/
  | red (com : Com) (op : AtomOp) (ty : Ty) (ord : MemOrd) (src : Opnd) (m : MemOp)
  /-- Atomically swaps an amax word at the home (R266). -/
  | amaxsw (com : Com) (ord : MemOrd) (dst : Opnd) (m : MemOp)
  /-- A pending memory instruction is checked; faulting threads stop and the others continue (R339). -/
  | pendingCheck (core entry : Nat)
  /-- Memory fence at a scope (R267). -/
  | fence (com : Com) (k : OrdKind) (sc : Scope)
  /-- Invalidates a line in the instruction caches of the partition's cores (R268). -/
  | cctlIi (com : Com) (m : MemOp)
  /-- Evicts a line from the issuing core's L1 and its die's L2 (R268). -/
  | cctlEv (com : Com) (m : MemOp)
  /-- Prefetches a line to a cache level or a stash line (R269). -/
  | pref (com : Com) (t : PrefTarget) (m : MemOp)
  /-- Binds a run of scratch pages as stash pages (R270). -/
  | stashMap (com : Com) (off cnt : Opnd) (m : MemOp)
  /-- Unbinds a run of stash pages (R270). -/
  | stashMapUn (com : Com) (off cnt : Opnd)
  /-- Writes back modified stash lines, optionally dropping them (R271). -/
  | stashSync (com : Com) (inv : Bool)
  /-- An invalid stash line is filled from its home page through the directory (R239). -/
  | stashFill (core tag line : Nat) (store : Bool)
  /-- Sets or disables a race-watch window (R272). -/
  | racew (com : Com) (w : BitVec 3) (off : Bool) (len : Opnd) (m : MemOp)
  /-- Starts a linear copy on a channel (R307). -/
  | copy (com : Com) (dsp ssp : CopySpace) (rel : Bool) (ch : BitVec 3) (bidx : BitVec 12) (bytes : Word) (dst a b : Opnd)
  /-- Starts a tensor-box copy between a tensor and scratch (R308). -/
  | copyt (com : Com) (st clus rel : Bool) (ch : BitVec 3) (bidx : BitVec 12) (imm : Word) (dst a b : Opnd)
  /-- Starts a row gather by an index list (R309). -/
  | copyg (com : Com) (dsp ssp : CopySpace) (rel : Bool) (ch : BitVec 3) (bidx : BitVec 12) (rowb nrow : BitVec 16) (dst a b : Opnd)
  /-- A group of copy destination writes is performed, decrementing the barrier and advancing the write pointer (R310). -/
  | copyWriteGroup (core tag ch : Nat)
  /-- An engine operation completes and its timeline's completed count advances (R298). -/
  | engineOpComplete (core tag tl : Nat)
  /-- A running engine operation meets a page fault and is parked with a record (R303). -/
  | engineOpPark (core tag tl : Nat)
  /-- An engine operation is cancelled, completes under its number and sets the fail number (R299). -/
  | engineOpCancel (core tag tl : Nat)
  /-- A region entry copies in or binds stash before the block's first instruction (R312). -/
  | regionEntryRun (core tag : Nat)
  /-- Raises the stage counter and starts schedule entries that reach their trigger (R314). -/
  | stage (com : Com) (a : Opnd) (imm : Word)
  /-- Initialises a transaction barrier (R322). -/
  | barInit (com : Com) (leaf root : Bool) (src : Opnd) (m : MemOp)
  /-- Makes arrivals on a barrier (R323). -/
  | barArrive (com : Com) (u : Bool) (dst : Opnd) (m : MemOp)
  /-- Adds expected bytes, optionally with one arrival, in one step (R324). -/
  | barExpect (com : Com) (arr : Bool) (dst cnt : Opnd) (m : MemOp)
  /-- Holds threads until the barrier phase changes (R325). -/
  | barWait (com : Com) (src : Opnd) (m : MemOp)
  /-- Tests without waiting whether the barrier phase changed (R325). -/
  | barTest (com : Com) (dst : Opnd) (m : MemOp)
  /-- Holds threads until a timeline reaches a value (R327). -/
  | tlwait (com : Com) (tl : BitVec 4) (a : Opnd) (imm : Word)
  /-- Reads a timeline's completed, issued or fail value (R328). -/
  | tlread (com : Com) (form : TlForm) (tl : BitVec 4) (dst : Opnd)
  /-- Advances a software timeline with a block-scope release (R329). -/
  | tlsig (com : Com) (inc : Bool) (tl : BitVec 4) (a : Opnd) (imm : Word)
  /-- Waits for several timelines to reach their issued counts (R330). -/
  | waitm (com : Com) (mask : BitVec 12)
  /-- Queues one grid from a launch record at a node (R185). -/
  | launch (com : Com) (dst a b : Opnd)
  /-- Starts one replay of a graph (R187). -/
  | graphRun (com : Com) (dst a b : Opnd)
  /-- Copies patch bytes into a graph's staging area (R188). -/
  | graphPatch (com : Com) (a b c : Opnd)
  /-- A held replay is released, copies its parameters and queues its entries (R187). -/
  | graphReplayRelease (part idx : Nat)
  /-- When every entry's grid completes, COMPLETED is written in replay order (R187). -/
  | graphReplayComplete (part idx : Nat)
  /-- The dispatcher reads dependence words, at least every 20 µs, to free held launches (R178). -/
  | dependenceRead (part launch : Nat)
  /-- The dispatcher admits a candidate block onto k cores of a cluster (R171). -/
  | blockAdmit (part launch : Nat) (place : Placement)
  /-- A grid completes and the dispatcher writes the completion word (R179). -/
  | gridComplete (part grid : Nat)
  /-- Starts a collective program (R435). -/
  | collStart (com : Com) (dst a : Opnd)
  /-- Copies a near-bank program image into a virtual program slot (R433). -/
  | nbLoad (com : Com) (all : Bool) (dst a b c : Opnd)
  /-- Starts a near-bank run after its issue checks and translations (R434). -/
  | nbRun (com : Com) (dst a b c : Opnd)
  /-- Reads and checks a ferry kernel image into a kernel slot (R436). -/
  | ferryLoad (com : Com) (dst a b c : Opnd)
  /-- Binds a (job, flow) to a ferry kernel (R436). -/
  | ferryBind (com : Com) (dst a b c : Opnd)
  /-- Removes a binding and returns its drop count (R436). -/
  | ferryUnbind (com : Com) (dst a b : Opnd)
  /-- Frees an unused kernel slot and its tables (R436). -/
  | ferryUnbindKern (com : Com) (dst a b : Opnd)
  /-- Sends a TRAP record and holds the thread until TRET (R349). -/
  | trap (com : Com) (code : BitVec 6) (dst a : Opnd)
  /-- Replays a faulted thread, completes a TRAP, or resumes a parked operation (R348). -/
  | tretRep (com : Com) (dst a b : Opnd)
  /-- Continues a held thread past its faulting instruction (R348). -/
  | tretSkip (com : Com) (dst a b : Opnd)
  /-- Ends a held thread (R348). -/
  | tretKill (com : Com) (dst a b : Opnd)
  /-- Cancels a parked engine operation (R348). -/
  | tretCan (com : Com) (dst a b : Opnd)
  /-- Applies the context rung to a block (R348). -/
  | tretKillb (com : Com) (dst a b : Opnd)
  /-- Pre-empts a block as a returned block (R348). -/
  | tretPre (com : Com) (dst a b : Opnd)
  /-- Consumes a hail or moors the partition when it is idle (R460). -/
  | moor (com : Com) (dst : Opnd)
  /-- Invalidates stage-1 translations of a VA range (R359). -/
  | tlbiVa (com : Com) (a b : Opnd)
  /-- Invalidates every stage-1 translation of the partition (R359). -/
  | tlbiAll (com : Com)
  /-- Reclaims the partition's blocks on a lost compute die (R361). -/
  | harvest (com : Com) (dst a : Opnd)
  /-- Zero-fills guest-physical frames and returns a completion value (R360). -/
  | scrub (com : Com) (rel : Bool) (dst a b : Opnd)
  /-- Sends an event-post record (R350). -/
  | evpost (com : Com) (fd : Bool) (code : BitVec 16) (dst a : Opnd)
  /-- The device writes a waiting record to its ring and raises PROD when there is room (R344). -/
  | recordWrite (part ring : Nat)
  /-- While records wait, the device rereads CONS at least every 20 µs (R344). -/
  | ringConsPoll (part ring : Nat)
  /-- A pre-emption request halts a block at an instruction boundary (R351). -/
  | preemptRequest (part tag : Nat)
  /-- Once pending checks, accesses and engine work come to rest, the block's context is saved (R351). -/
  | blockQuiesceSave (part tag : Nat)
  /-- A saved block is restored and its replay entries performed before it issues (R352). -/
  | blockRestore (part tag : Nat) (place : Placement)
  /-- Resets and starts the package (R356). -/
  | rungDevice
  /-- A collective data packet enters a router, invoking bindings or being delivered (R392). -/
  | clf (stack : Nat) (p : Packet)
  /-- A queued packet invokes its binding's kernel, which forwards, drops, emits or traps (R393). -/
  | ferryInvoke (stack ferry : Nat)
  /-- Ferry vector add (R409). -/
  | vadd (d a b : Fin 16) (m : Fin 4) (sat : Bool) (rnd : FRnd) (ty : FTy)
  /-- Ferry vector subtract (R409). -/
  | vsub (d a b : Fin 16) (m : Fin 4) (sat : Bool) (rnd : FRnd) (ty : FTy)
  /-- Ferry vector multiply (R409). -/
  | vmul (d a b : Fin 16) (m : Fin 4) (rnd : FRnd) (ty : FTy)
  /-- Ferry vector fused multiply-add (R409). -/
  | vfma (d a b : Fin 16) (m : Fin 4) (rnd : FRnd) (ty : FTy)
  /-- Ferry vector minimum (R409). -/
  | vmin (d a b : Fin 16) (m : Fin 4) (ty : FTy)
  /-- Ferry vector maximum (R409). -/
  | vmax (d a b : Fin 16) (m : Fin 4) (ty : FTy)
  /-- Ferry vector AND (R409). -/
  | vand (d a b : Fin 16) (m : Fin 4)
  /-- Ferry vector OR (R409). -/
  | vor (d a b : Fin 16) (m : Fin 4)
  /-- Ferry vector exclusive OR (R409). -/
  | vxor (d a b : Fin 16) (m : Fin 4)
  /-- Ferry vector shift left (R409). -/
  | vshl (d a b : Fin 16) (m : Fin 4) (half : Bool)
  /-- Ferry vector shift right, logical or arithmetic (R409). -/
  | vshr (d a b : Fin 16) (m : Fin 4) (arith half : Bool)
  /-- Ferry vector select by a mask (R410). -/
  | vsel (d a b : Fin 16) (m sel : Fin 4)
  /-- Ferry vector compare into a mask (R410). -/
  | vcmp (fm : Fin 4) (a b : Fin 16) (m : Fin 4) (c : FvCond) (flt : Bool)
  /-- Ferry vector conversion (R410). -/
  | vcvt (d a b : Fin 16) (m : Fin 4) (form : FvCvt)
  /-- Broadcasts a scalar to vector lanes (R410). -/
  | vbcast (d a : Fin 16) (m : Fin 4)
  /-- Reduces a vector across masked lanes into a scalar (R410). -/
  | vred (d a : Fin 16) (m : Fin 4) (op : FvRed) (flt : Bool)
  /-- Evaluates a kernel's segment table on vector elements (R411). -/
  | feval (d a : Fin 16) (m : Fin 4) (table bf16 : Bool)
  /-- Ferry scalar add (R413). -/
  | sadd (d a : Fin 16) (b : FSrc)
  /-- Ferry scalar subtract (R413). -/
  | ssub (d a : Fin 16) (b : FSrc)
  /-- Ferry scalar AND (R413). -/
  | sand (d a : Fin 16) (b : FSrc)
  /-- Ferry scalar OR (R413). -/
  | sor (d a : Fin 16) (b : FSrc)
  /-- Ferry scalar shift left (R413). -/
  | sshl (d a : Fin 16) (b : FSrc)
  /-- Ferry scalar logical shift right (R413). -/
  | sshr (d a : Fin 16) (b : FSrc)
  /-- Ferry scalar move immediate, low or high half (R413). -/
  | smovi (d : Fin 16) (high : Bool) (imm : Fin 65536)
  /-- Ferry forward branch on a scalar condition (R414). -/
  | br (c : FbCond) (a b : Fin 16) (disp : Fin 1024)
  /-- Ferry forward branch on a mask condition (R414). -/
  | brm (c : FmCond) (fm : Fin 4) (disp : Fin 1024)
  /-- Ferry counted repeat of a body (R415). -/
  | rep (countM1 : Fin 1024) (x : Option (Fin 16)) (len : Fin 1024)
  /-- Ferry trap with a code and payload (R416). -/
  | ftrap (a : Fin 16) (code : Fin 64)
  /-- Ends the invocation, forwarding the packet (R393). -/
  | fwd
  /-- Ends the invocation, dropping the packet (R393). -/
  | drop
  /-- Sends a new packet built from the window (R396). -/
  | emit
  /-- Writes one header field of the window (R416). -/
  | pset (a : Fin 16) (fld : PktField)
  /-- Loads from the packet window (R417). -/
  | pld (d a : Fin 16) (v : Bool) (off : Fin 4096)
  /-- Stores to the packet window above the header (R417). -/
  | pst (d a : Fin 16) (v : Bool) (off : Fin 4096)
  /-- Loads from the binding's flow state (R417). -/
  | sld (d a : Fin 16) (v : Bool) (off : Fin 4096)
  /-- Stores to the binding's flow state (R417). -/
  | sst (d a : Fin 16) (v : Bool) (off : Fin 4096)
  /-- A queued run starts on its unit after the previous run completes, copying its program slot (R434). -/
  | nbRunStart (unit : Nat)
  /-- The near-bank unit performs one row step of a run, writing the status word after the last (R419). -/
  | nbRowStep (unit : Nat) (waiting : Bool)
  /-- After 8 idle cycles the suspended unit resumes with the next step (R424). -/
  | nbResume (unit : Nat)
  /-- After 4,096 cycles suspended the unit runs one step while accesses wait (R424). -/
  | nbForcedStep (unit : Nat)
  /-- An NB.LOAD copy is checked and replaces the program slot's content atomically (R433). -/
  | nbImageLoadComplete (part stack slot : Nat)
  /-- Near-bank no-op (R422). -/
  | nbnop (c : NbCond)
  /-- Loads a stream atom into an accumulator (R422). -/
  | nbld (d s : Fin 4) (c : NbCond)
  /-- Stores an accumulator to a stream atom (R422). -/
  | nbst (a s : Fin 4) (c : NbCond)
  /-- Zeroes an accumulator (R422). -/
  | nbzero (d : Fin 4) (c : NbCond)
  /-- Near-bank elementwise add (R422). -/
  | nbadd (d a b : Fin 4) (k : Bool) (ty : NbTy) (rnd : FRnd) (c : NbCond)
  /-- Near-bank elementwise subtract (R422). -/
  | nbsub (d a b : Fin 4) (k : Bool) (ty : NbTy) (rnd : FRnd) (c : NbCond)
  /-- Near-bank elementwise multiply (R422). -/
  | nbmul (d a b : Fin 4) (k : Bool) (ty : NbTy) (rnd : FRnd) (c : NbCond)
  /-- Near-bank elementwise fused multiply-add (R422). -/
  | nbfma (d a b : Fin 4) (k : Bool) (ty : NbTy) (rnd : FRnd) (c : NbCond)
  /-- Near-bank elementwise minimum (R422). -/
  | nbmin (d a b : Fin 4) (k : Bool) (ty : NbTy) (c : NbCond)
  /-- Near-bank elementwise maximum (R422). -/
  | nbmax (d a b : Fin 4) (k : Bool) (ty : NbTy) (c : NbCond)
  /-- Folds an accumulator's elements by addition (R422). -/
  | nbfold (d a : Fin 4) (ty : NbTy) (rnd : FRnd) (c : NbCond)
  /-- Writes an accumulator to a result slot of the status block (R422). -/
  | nbout (a slot : Fin 4) (c : NbCond)
  /-- A collective leg starts when its AFTER leg has completed (R429). -/
  | collLegStart (part prog leg : Nat)
  /-- A program not completed within TMO fails with CODE 5 (R431). -/
  | collTimeout (part prog : Nat)
  /-- A collective program completes and its status word is written (R426). -/
  | collProgramComplete (part prog : Nat)
  /-- Mooring entry completes and the wake-class gating is in force (R457). -/
  | moorEntryEnd (part : Nat)
  /-- A hail restores the gated logic and the steward, and every issued MOOR returns 0 (R460). -/
  | partitionWake (part : Nat)
  /-- After power-up or a device rung, the harbour die checks firmware, trains, zero-fills and releases cores (R469). -/
  | deviceStart (u : UnitParts)
  /-- The device sends an EVENT message to the host (R465). -/
  | xcpEvent
  /-- An unacknowledged EVENT is resent every 100 ms (R465). -/
  | xcpEventResend
  /-- The ferry loader finishes reading and checking a kernel image, fills the kernel slot or reports a reason, and releases the held group (R436). -/
  | ferryImageLoadComplete (op : Nat)
  /-- A TLBI reports complete once every TLB, walk structure and stash page in range is invalidated and written back, releasing the held group (R255). -/
  | tlbiComplete (op : Nat)
  /-- The near-bank zero-fill of the frames finishes and SCRUB writes its completion value and releases the held group (R360). -/
  | scrubComplete (op : Nat)
  /-- The execution of R287 is fixed, every poison mark is written, and HARVEST writes its count and releases the held group (R361). -/
  | harvestComplete (op : Nat)
  /-- After a pending entry with work has waited 32 cycles, an active entry is marked for demotion (R166). -/
  | demotionMark (core : Nat)
  /-- An active entry waiting on a slow result is swapped to pending (R164). -/
  | entrySwap (core entry : Nat)
  /-- After a candidate block has waited 1 ms, its clusters are protected from lower priorities (R177). -/
  | candidateProtect (part launch : Nat)
  /-- After a stall interval, resident blocks of a held grid are pre-empted as returned blocks (R181). -/
  | rotation (part grid : Nat)
  /-- The power manager pre-empts a block and restores it on other cores (R183). -/
  | migration (tag : Nat)
  /-- An operation reaches four times its class bound and the engine rung is applied to its unit (R355). -/
  | watchdogExpire (core : Nat) (cls : Nat)
  /-- Removes a node's unadmitted launches (R356). -/
  | rungQueue (part node : Nat)
  /-- Ends a block without replay and discards its context (R356). -/
  | rungContext (part tag : Nat)
  /-- Abandons every operation in a unit, raising ENGINE_RESET (R356). -/
  | rungEngine (core unit : Nat)
  /-- Resets a partition's work and restarts its steward (R356). -/
  | rungPartition (part : Nat)
  /-- A rung that misses its timeout escalates to the next rung (R357). -/
  | rungTimeout (idx : Nat)
  /-- The harbour die declares a compute die lost and posts KIND 0x09 records (R343). -/
  | computeDieLost (die : Nat)
  /-- A line read arrives and is performed at its home or proxy slice (R373). -/
  | rdl (p : Packet)
  /-- A line write arrives and is performed at the home, with read-modify-write for partial granules (R261). -/
  | wrl (p : Packet)
  /-- An atomic packet is performed at the LLC slice (R265). -/
  | atm (p : Packet) (op : AtomOp) (ty : Ty)
  /-- A reduction packet is performed at the LLC slice (R265). -/
  | rdc (p : Packet) (op : AtomOp) (ty : Ty)
  /-- An AMAXSW packet is performed at the home (R266). -/
  | amx (p : Packet)
  /-- A control-memory access is performed at its home in the strict class (R377). -/
  | ctl (p : Packet) (store : Bool)
  /-- A vector gather packet is served at its home stack (R374). -/
  | vgt (p : Packet)
  /-- A vector scatter packet is performed at its home stack (R374). -/
  | vsc (p : Packet)
  /-- A fence marker is acknowledged behind earlier posted writes (R377). -/
  | fnc (p : Packet)
  /-- A data response arrives at its requester (R373). -/
  | rsd (p : Packet)
  /-- An acknowledgement arrives at its requester (R373). -/
  | rsa (p : Packet)
  /-- An error response arrives and the access faults as POISON, unreachable or RACE (R373). -/
  | rse (p : Packet)
  /-- A probe to invalidate reaches a holder, which writes back and invalidates (R239). -/
  | pri (p : Packet)
  /-- A probe to share reaches a holder, which writes back and shares (R239). -/
  | prs (p : Packet)
  /-- A write-back arrives at the home, possibly answering a probe (R381). -/
  | wbk (p : Packet)
  /-- A harbour die slews its counter toward the domain reference (R474). -/
  | mgxTimestampSync (p : Packet)
  /-- A forwarded XCP request or reply arrives at another package (R467). -/
  | mgxXcpForward (p : Packet)
  /-- A harbour die checks a job grant across the domain (R467). -/
  | mgxJobGrantCheck (p : Packet)
  /-- A flit with a bad CRC is refused and the sender replays from it (R371). -/
  | flitCrcReplay (link : Nat) (flit : Nat)
  /-- A Strelar frame is corrected and accepted, or answered by a negative acknowledgement (R383). -/
  | strelarFrameReceive (port : Nat) (frame : List Byte)
  /-- After 8 replays without progress, the port retrains at a lower width or is removed (R383). -/
  | strelarRetrain (port : Nat) (lanes : Nat)
  /-- A remote request unanswered within 4 ms completes as POISON (R384). -/
  | remoteTimeout (txid : Nat)
  /-- A row reaching 1,024 activations has its neighbours refreshed and the partition is charged (R385). -/
  | targetedRefresh (stack pch row part : Nat)
  /-- A packet held 1 ms with no taker is dropped and reported (R430). -/
  | clfHoldExpire (stack : Nat)
  /-- An 8-byte store to a hail block pends a hail, or a HALT or MOOR consumes it (R455). -/
  | hailWrite (writer part : Nat) (payload : DWord)
  /-- The harbour die misses the wake bound and applies the partition rung (R459). -/
  | wakeBoundMissed (part : Nat)
  /-- An access to a self-refreshing stack wakes it without waking the partition (R458). -/
  | stackWakeAccess (stack : Nat)
  /-- A stack idle for 100 µs returns to self-refresh after writing back its lines (R458). -/
  | stackSelfRefresh (stack : Nat)
  /-- An idle margin cluster is lent to a neighbour (R450). -/
  | marginLend (cluster dest : Nat)
  /-- A lent cluster is revoked, pre-empted and zero-filled (R451). -/
  | marginRevoke (cluster : Nat)
  /-- A shared-cluster turn ends and the next holder's blocks are restored (R452). -/
  | sharedTurnEnd (cluster : Nat)
  /-- A core that sends no report within 100 ms is marked absent (R469). -/
  | coreReportTimeout (core : Nat)
  /-- A failed start is counted and the device restarts or enters minimal mode (R469). -/
  | startFail (reason : Nat)
  /-- Negotiates the feature vector (R468). -/
  | hello (h : XcpHdr) (caps : BitVec 5)
  /-- Replies with every absent part (R465). -/
  | inventory (h : XcpHdr)
  /-- Replies with the start reason, failed-start count and core reports (R465). -/
  | startrep (h : XcpHdr)
  /-- Creates a partition (R446). -/
  | pcreate (h : XcpHdr) (part : Nat) (q : PartParams)
  /-- Changes a partition's parameters (R446). -/
  | pchange (h : XcpHdr) (part : Nat) (q : PartParams)
  /-- Applies the partition rung, then scrubs and frees the partition's memory (R465). -/
  | pdestroy (h : XcpHdr) (part : Nat)
  /-- Writes stage-2 entries of one partition (R465). -/
  | map (h : XcpHdr) (part : Nat) (l : List MapEntry)
  /-- Grants a job number with quotas to a partition (R390). -/
  | jobgrant (h : XcpHdr) (g : JobGrant)
  /-- Performs a hail for a partition after acknowledged RoCEv2 writes (R456). -/
  | xcpHail (h : XcpHdr) (part : Nat) (payload : DWord)
  /-- Applies a reset rung to a target (R465). -/
  | xcpReset (h : XcpHdr) (rung target : Nat)
  /-- Sets or removes a host window (R462). -/
  | rkey (h : XcpHdr) (key : Nat) (w : HostWindow)
  /-- Sets package number, VLANs and the domain route table (R384). -/
  | topology (h : XcpHdr) (t : Topology)
  /-- Sets the package power cap (R473). -/
  | pwrcap (h : XcpHdr) (watts : Nat)
  /-- Replies with power and temperature telemetry (R473). -/
  | telem (h : XcpHdr)
  /-- Replies with a signed attestation report (R472). -/
  | attest (h : XcpHdr) (nonce : List Byte)
  /-- Delivers a firmware chunk, checking and installing the image after the last (R470). -/
  | fwprov (h : XcpHdr) (off total : Nat) (chunk : List Byte)
  /-- The host acknowledges an EVENT with the same SEQ (R465). -/
  | xcpEventAck (src seq : Nat)
  /-- A RoCEv2 write is performed through a host window and acknowledged (R463). -/
  | rdmaWrite (qp key addr : Nat) (data : List Byte)
  /-- A RoCEv2 read is served through a host window (R462). -/
  | rdmaRead (qp key addr len : Nat)
  /-- At 105 °C the power manager lowers rates and posts an EVENT (R473). -/
  | thermalThrottle (die celsius : Nat)
  /-- The harbour die, through its management path, releases a boot-mode thread held at HALT or held after a fault (R107). -/
  | bootThreadRelease (core : Nat) (act : BootRelease)
  /-- A core is put into reset, keeping its repair table and summary status word (R36). -/
  | coreReset (core : Nat)
  deriving DecidableEq, Repr

end Sys2Proof
end

