-- ==== Sys2Proof/WellFormed.lean ====
section
/-! DEFINITION. Which instructions are well formed: those that some word of the spec's encoding stands for. Each
check is one that the spec raises ILLEGAL_INSTR for (R44, R50, R54 to R56, R71, R72 and the entries). -/

namespace Sys2Proof

/-- An instruction outside the vector and control classes has CH 0 (R56). -/
def Com.noChain (c : Com) : Bool := !c.chain

/-- A vector result: WBS 1 goes with DST 0x150 only (R55). -/
def Out.wf (o : Out) : Bool := o.dst.canon && (!o.wbs || decide (o.dst = .zero))

/-- Operand B. -/
def SrcB.canon : SrcB → Bool
  | .op o => o.canon
  | .imm _ => true

/-- The immediate of F96-I for a 16-bit format holds its upper half 0 (R100). -/
def immFits (ty : Ty) : Option Word → Bool
  | some w => !(decide (ty = .bf16) || decide (ty = .f16)) || decide (w.toNat < 2 ^ 16)
  | none => true

/-- One source: a listed type, and SUB bit 49 only where the entry names a variant. -/
def Vec1.wf (x : Vec1) (tys : List Ty) (variant : Bool) : Bool :=
  x.out.wf && tys.contains x.ty && (variant || !x.variant) && x.a.canon

/-- Two sources; `imm` says whether the opcode has the F96-I layout. -/
def Vec2.wf (x : Vec2) (tys : List Ty) (variant imm : Bool) : Bool :=
  x.out.wf && tys.contains x.ty && (variant || !x.variant) && x.a.canon && x.b.canon &&
  (match x.b with
   | .op _ => true
   | .imm w => imm && immFits x.ty (some w))

/-- Three sources. -/
def Vec3.wf (x : Vec3) (tys : List Ty) (variant : Bool) : Bool :=
  x.out.wf && tys.contains x.ty && (variant || !x.variant) && x.a.canon && x.b.canon && x.c.canon

/-- SUB of the ferry arithmetic: an integer type has no rounding, a floating-point type no .sat (R409). -/
def ferryAddOk (sat : Bool) (rnd : FRnd) (ty : FTy) : Bool :=
  match ty with
  | .i32 | .i16 => decide (rnd = .rn)
  | .f32 | .bf16 => !sat

/-- RND of a micro-operation is res0 under .i32 (R422). -/
def nbRndOk (ty : NbTy) (rnd : FRnd) : Bool := decide (ty ≠ .i32) || decide (rnd = .rn)

/-- A shift count. -/
def ShiftCount.wf : ShiftCount → Bool
  | .op o => o.canon
  | .simm _ => true

/-- A memory operand: the offset of F96-M is a sign-extended 24-bit value (R47, R48). -/
def MemOp.wf (m : MemOp) : Bool :=
  m.base.canon && m.index.canon && (m.wide || decide (m.off = (m.off.setWidth 24).signExtend 32))

/-- The memory operand whose field bits are all 0. -/
abbrev MemOp.res0 : MemOp := ⟨.global, .res0, .res0, 0, false, 0⟩

/-- SPC names local or cluster scratch. -/
def MemOp.isScratch (m : MemOp) : Bool := decide (m.space = .scratch) || decide (m.space = .cluster)

/-- A v register. -/
def Opnd.isV : Opnd → Bool
  | .v _ => true
  | _ => false

/-- Element and reading fields of FCLASS: used for narrow types, res0 for wide ones (R127). -/
def narrowField (ty : Ty) (r : Reading) (e : BitVec 6) : Bool :=
  if tysNarrow.contains ty then decide (e.toNat < elemLimit ty) else decide (r = .finiteOnly) && decide (e = 0)

/-- The operand codes of a pair half are canonical. -/
def PairHalf.canon (h : PairHalf) : Bool := h.out.dst.canon && h.a.canon && h.b.canon

/-- The instruction is one that a word of the spec's encoding stands for; an event has no encoding. -/
def Instr.wf : Instr → Bool
  | .nop => true
  | .filler => true
  | .bra _ _ => true
  | .jmp _ _ => true
  | .brx _ a => a.canon
  | .call _ l _ => l.canon
  | .callr _ l a => l.canon && a.canon
  | .ret _ a => a.canon
  | .exit _ => true
  | .yield _ => true
  | .halt _ => true
  | .add x => x.wf tysInt true true
  | .sub x => x.wf tysInt true true
  | .addc x _ _ => x.wf tysUnsigned false false
  | .subb x _ _ => x.wf tysUnsigned false false
  | .mul x => x.wf tysInt false true
  | .mulh x => x.wf tysInt false false
  | .mad x => x.wf tysMad false
  | .div x => x.wf tysInt false false
  | .rem x => x.wf tysInt false false
  | .min x => x.wf tysInt false true
  | .max x => x.wf tysInt false true
  | .abs x => x.wf tysSigned true
  | .neg x => x.wf tysSigned true
  | .and x => x.wf tysBits false true
  | .or x => x.wf tysBits false true
  | .xor x => x.wf tysBits false true
  | .not x => x.wf tysBits false
  | .andn x => x.wf tysBits false true
  | .shl x c => x.wf tysBits false && c.wf
  | .shr x c => x.wf tysBits false && c.wf
  | .sra x c => x.wf tysBits false && c.wf
  | .rot x c => x.wf tysBits false && c.wf
  | .funnel x => x.wf [.b32] true && x.imm.isNone
  | .clz x => x.wf tysBits false
  | .ctz x => x.wf tysBits false
  | .popc x => x.wf tysBits false
  | .brev x => x.wf tysBits false
  | .bfx x => x.wf tysInt false false
  | .bfi x => x.wf tysBits false && x.imm.isNone
  | .sel x => x.wf tysBits false && x.imm.isNone
  | .cmp x _ => x.wf tysInt false true
  | .lea _ o m => o.wf && m.wf
  | .leah _ o m => o.wf && m.wf && (decide (m.space = .global) || decide (m.space = .const))
  | .swin _ o _ a => o.wf && a.canon
  | .plut _ o _ a b c => o.wf && a.canon && b.canon && c.canon
  | .pmovGet _ o => o.wf
  | .pmovSet _ _ a => a.canon
  | .mov x => x.wf tysBits false
  | .movi _ o ty i wide => o.wf && (if wide then decide (ty = .b64) else tysBits.contains ty && decide (i.toNat < 2 ^ 32))
  | .movsReadWp c _ d => c.noChain && d.canon
  | .movsReadTc c _ d => c.noChain && d.canon
  | .movsWriteTc c _ a => c.noChain && a.canon
  | .bsel x => x.wf [.b32] false && (x.imm.isNone || decide (x.c = .res0))
  | .csrr c _ d => c.noChain && d.canon
  | .csrw c _ a => c.noChain && a.canon
  | .csrwSet c _ a => c.noChain && a.canon
  | .csrwClr c _ a => c.noChain && a.canon
  | .fadd x r => x.wf tysWide false true && decide (r ≠ .sr)
  | .fsub x r => x.wf tysWide false true && decide (r ≠ .sr)
  | .fmul x r => x.wf tysWide false true && decide (r ≠ .sr)
  | .ffma x r => x.wf tysWide true && decide (r ≠ .sr) && (x.imm.isNone || decide (x.b = .res0)) && immFits x.ty x.imm
  | .fmin x => x.wf tysWide true true
  | .fmax x => x.wf tysWide true true
  | .fcmp x _ => x.wf tysWide false true
  | .fclass x r e => x.wf tysClass false && narrowField x.ty r e
  | .fscale x r => x.wf tysFs false false && decide (r ≠ .sr)
  | .frnd x r => x.wf tysFs true && decide (r ≠ .sr)
  | .cvt x src rnd r => x.wf (tysCvtInt ++ tysWide ++ tysNarrow) true false && cvtPair x.ty src && (!x.variant || cvtSat x.ty src) && (decide (rnd = .sr) || decide (x.b = .op .res0)) && (tysNarrow.contains x.ty || tysNarrow.contains src || decide (r = .finiteOnly))
  | .pack x rnd r => x.wf tysPack true && x.imm.isNone && decide (rnd ≠ .sr) && (tysNarrow.contains x.ty || (!x.variant && decide (r = .finiteOnly))) && (decide (x.ty ≠ .t3) || decide (rnd = .rn))
  | .unpack x r e => x.wf tysPack false && decide (e.toNat < elemLimit x.ty) && (tysNarrow.contains x.ty || decide (r = .finiteOnly))
  | .bscale x _ => x.wf tysNarrow false && x.imm.isNone
  | .pairP96 _ ha hb => ha.ok && hb.ok && ha.op.inA && hb.op.inB && ha.canon && hb.canon && pairRules ha hb
  | .tblLoad c _ _ d m => c.noChain && d.canon && m.wf && !m.wide
  | .tblCommit c _ d => c.noChain && d.canon
  | .tblEval c ty rnd _ d a => c.noChain && d.canon && a.canon && tysEval.contains ty && decide (rnd ≠ .sr) && (decide (ty ≠ .f32) || decide (rnd = .rn))
  | .tblQuery c _ _ d => c.noChain && d.canon
  | .tblDrop c _ _ => c.noChain
  | .shfl c mode k _ d a _ => c.noChain && d.canon && a.canon && (decide (mode ≠ .idx) || decide (k = 0))
  | .vote c _ d a _ => c.noChain && d.canon && a.canon
  | .matchKey c _ d a _ => c.noChain && d.canon && a.canon
  | .sred c _ d a _ => c.noChain && d.canon && a.canon
  | .sscan c _ _ d a _ => c.noChain && d.canon && a.canon
  | .ssync c _ => c.noChain
  | .ddot _ o _ _ _ _ a b c => o.wf && a.canon && b.canon && c.canon
  | .dham x => x.wf tysBits false false
  | .dl2 _ o rnd _ a b c => o.wf && a.canon && b.canon && c.canon && decide (rnd ≠ .sr)
  | .selInit c _ _ _ d a => c.noChain && d.canon && a.canon
  | .selPush c _ a b => c.noChain && a.canon && b.canon
  | .selDrain c f _ d a => c.noChain && d.canon && a.canon && (decide (f ≠ .cnt) || decide (a = .res0))
  | .tcfg c _ s => c.noChain && s.canon
  | .tzero c _ _ d => c.noChain && d.canon
  | .tld c _ d r o => c.noChain && d.canon && r.canon && o.canon
  | .tst c _ rnd _ d r o => c.noChain && d.canon && r.canon && o.canon && decide (rnd ≠ .sr)
  | .mma c _ _ _ cs acc s _ d => c.noChain && d.canon && (match s with | none => true | some o => o.canon && decide (cs ≠ .zero) && decide (acc ≠ .i32))
  | .mmat c _ _ _ _ _ d => c.noChain && d.canon
  | .mmap c _ _ d r => c.noChain && d.canon && r.canon
  | .trow c _ _ d o _ => c.noChain && d.canon && o.canon
  | .tchk c _ d => c.noChain && d.canon
  | .ld c ty q o d m => c.noChain && tysLdSt.contains ty && (!q || decide (ty = .b64)) && ordLd o && d.canon && m.wf
  | .st c ty q o d m => c.noChain && tysLdSt.contains ty && (!q || decide (ty = .b64)) && ordSt o && d.canon && m.wf && decide (m.space ≠ .const)
  | .ldg c ty _ o d m => c.noChain && tysLdSt.contains ty && ordGather o && d.canon && m.wf && !m.wide && (decide (m.space = .global) || decide (m.space = .const)) && decide (m.index ≠ .zero)
  | .sct c ty _ o d m => c.noChain && tysLdSt.contains ty && ordGather o && d.canon && m.wf && !m.wide && decide (m.space = .global) && decide (m.index ≠ .zero)
  | .atom c op ty o d oc m => c.noChain && decide (op ≠ .amax) && (atomTys op).contains ty && ordAtom o && d.canon && oc.canon && m.wf && decide (m.space ≠ .const) && (m.wide || (decide (op ≠ .cas) && decide (oc = .res0)))
  | .red c op ty o d m => c.noChain && decide (op ≠ .exch) && decide (op ≠ .cas) && (atomTys op).contains ty && ordRed o && d.canon && m.wf && !m.wide && decide (m.space ≠ .const)
  | .amaxsw c o d m => c.noChain && ordAtom o && d.canon && m.wf && !m.wide && decide (m.space = .global)
  | .fence c _ _ => c.noChain
  | .cctlIi c m => c.noChain && m.wf && !m.wide && decide (m.space = .global)
  | .cctlEv c m => c.noChain && m.wf && !m.wide && decide (m.space = .global)
  | .pref c _ m => c.noChain && m.wf && !m.wide && decide (m.space = .global)
  | .stashMap c o n m => c.noChain && o.canon && n.canon && m.wf && m.wide && decide (m.space = .global)
  | .stashMapUn c o n => c.noChain && o.canon && n.canon
  | .stashSync c _ => c.noChain
  | .racew c _ off l m => c.noChain && l.canon && m.wf && !m.wide && decide (m.space = .global) && (!off || (decide (l = .res0) && decide (m = MemOp.res0)))
  | .copy c dsp _ _ _ _ n d a b => c.noChain && d.canon && a.canon && b.canon && decide (dsp ≠ .k) && decide (n.toNat % 4 = 0) && decide (4 ≤ n.toNat) && decide (n.toNat ≤ 0x1000000)
  | .copyt c _ _ _ _ _ _ d a b => c.noChain && d.canon && a.canon && b.canon
  | .copyg c dsp ssp _ _ _ rb nr d a b => c.noChain && d.canon && a.canon && b.canon && (decide (dsp = .s) || decide (dsp = .c)) && (decide (ssp = .g) || decide (ssp = .k)) && decide (rb.toNat % 4 = 0) && decide (4 ≤ rb.toNat) && decide (rb.toNat ≤ 4096) && decide (1 ≤ nr.toNat) && decide (nr.toNat ≤ 4096)
  | .stage c a _ => c.noChain && a.canon
  | .barInit c l r s m => c.noChain && !(l && r) && s.canon && m.wf && !m.wide && m.isScratch
  | .barArrive c _ d m => c.noChain && d.canon && m.wf && !m.wide && m.isScratch
  | .barExpect c _ d n m => c.noChain && d.canon && n.canon && m.wf && m.wide && m.isScratch
  | .barWait c s m => c.noChain && s.canon && m.wf && !m.wide && m.isScratch
  | .barTest c d m => c.noChain && d.isV && m.wf && !m.wide && m.isScratch
  | .tlwait c _ a _ => c.noChain && a.canon
  | .tlread c f t d => c.noChain && d.canon && (decide (f = .done) || decide (t.toNat < 10))
  | .tlsig c inc t a i => c.noChain && a.canon && decide (12 ≤ t.toNat) && (!inc || decide (i = 0))
  | .waitm c _ => c.noChain
  | .launch c d a b => c.noChain && d.canon && a.canon && b.canon
  | .graphRun c d a b => c.noChain && d.canon && a.canon && b.canon
  | .graphPatch c a b d => c.noChain && a.canon && b.canon && d.canon
  | .collStart c d a => c.noChain && d.canon && a.canon
  | .nbLoad c _ d a b e => c.noChain && d.canon && a.canon && b.canon && e.canon
  | .nbRun c d a b e => c.noChain && d.canon && a.canon && b.canon && e.canon
  | .ferryLoad c d a b e => c.noChain && d.canon && a.canon && b.canon && e.canon
  | .ferryBind c d a b e => c.noChain && d.canon && a.canon && b.canon && e.canon
  | .ferryUnbind c d a b => c.noChain && d.canon && a.canon && b.canon
  | .ferryUnbindKern c d a b => c.noChain && d.canon && a.canon && b.canon
  | .trap c _ d a => c.noChain && d.canon && a.canon
  | .tretRep c d a b => c.noChain && d.canon && a.canon && b.canon
  | .tretSkip c d a b => c.noChain && d.canon && a.canon && b.canon
  | .tretKill c d a b => c.noChain && d.canon && a.canon && b.canon
  | .tretCan c d a b => c.noChain && d.canon && a.canon && b.canon
  | .tretKillb c d a b => c.noChain && d.canon && a.canon && b.canon
  | .tretPre c d a b => c.noChain && d.canon && a.canon && b.canon
  | .moor c d => c.noChain && d.canon
  | .tlbiVa c a b => c.noChain && a.canon && b.canon
  | .tlbiAll c => c.noChain
  | .harvest c d a => c.noChain && d.canon && a.canon
  | .scrub c _ d a b => c.noChain && d.canon && a.canon && b.canon
  | .evpost c _ _ d a => c.noChain && d.canon && a.canon
  | .vadd _ _ _ _ sat rnd ty => ferryAddOk sat rnd ty
  | .vsub _ _ _ _ sat rnd ty => ferryAddOk sat rnd ty
  | .vmul _ _ _ _ rnd ty => ferryAddOk false rnd ty
  | .vfma _ _ _ _ rnd ty => ferryAddOk false rnd ty && decide (ty ≠ .i16)
  | .vmin _ _ _ _ _ => true
  | .vmax _ _ _ _ _ => true
  | .vand _ _ _ _ => true
  | .vor _ _ _ _ => true
  | .vxor _ _ _ _ => true
  | .vshl _ _ _ _ _ => true
  | .vshr _ _ _ _ _ _ => true
  | .vsel _ _ _ _ _ => true
  | .vcmp _ _ _ _ c flt => (if flt then decide (c ≠ .ltu) && decide (c ≠ .leu) else decide (c ≠ .un))
  | .vcvt _ _ b _ form => decide (form = .bf16f32) || decide (b = 0)
  | .nbadd _ _ _ _ ty rnd _ => nbRndOk ty rnd
  | .nbsub _ _ _ _ ty rnd _ => nbRndOk ty rnd
  | .nbmul _ _ _ _ ty rnd _ => nbRndOk ty rnd
  | .nbfma _ _ _ _ ty rnd _ => nbRndOk ty rnd
  | .nbfold _ _ ty rnd _ => nbRndOk ty rnd
  | .br c a b _ => decide (c ≠ .always) || (decide (a = 0) && decide (b = 0))
  | .coreReleaseFromReset _ => true
  | .tblLoadComplete _ _ => true
  | .entryFill _ => true
  | .issueSelect _ => true
  | .entryPromote _ => true
  | .demotionMark _ => true
  | .entryEvict _ _ => true
  | .entrySwap _ _ => true
  | .matrixOpComplete _ _ => true
  | .pendingCheck _ _ => true
  | .stashFill _ _ _ _ => true
  | .copyWriteGroup _ _ _ => true
  | .engineOpComplete _ _ _ => true
  | .engineOpPark _ _ _ => true
  | .engineOpCancel _ _ _ => true
  | .regionEntryRun _ _ => true
  | .graphReplayRelease _ _ => true
  | .graphReplayComplete _ _ => true
  | .dependenceRead _ _ => true
  | .blockAdmit _ _ _ => true
  | .candidateProtect _ _ => true
  | .gridComplete _ _ => true
  | .rotation _ _ => true
  | .migration _ => true
  | .recordWrite _ _ => true
  | .ringConsPoll _ _ => true
  | .preemptRequest _ _ => true
  | .blockQuiesceSave _ _ => true
  | .blockRestore _ _ _ => true
  | .watchdogExpire _ _ => true
  | .rungQueue _ _ => true
  | .rungContext _ _ => true
  | .rungEngine _ _ => true
  | .rungPartition _ => true
  | .rungDevice => true
  | .rungTimeout _ => true
  | .computeDieLost _ => true
  | .rdl _ => true
  | .wrl _ => true
  | .atm _ _ _ => true
  | .rdc _ _ _ => true
  | .amx _ => true
  | .ctl _ _ => true
  | .vgt _ => true
  | .vsc _ => true
  | .fnc _ => true
  | .rsd _ => true
  | .rsa _ => true
  | .rse _ => true
  | .pri _ => true
  | .prs _ => true
  | .wbk _ => true
  | .clf _ _ => true
  | .mgxTimestampSync _ => true
  | .mgxXcpForward _ => true
  | .mgxJobGrantCheck _ => true
  | .flitCrcReplay _ _ => true
  | .strelarFrameReceive _ _ => true
  | .strelarRetrain _ _ => true
  | .remoteTimeout _ => true
  | .targetedRefresh _ _ _ _ => true
  | .ferryInvoke _ _ => true
  | .collLegStart _ _ _ => true
  | .clfHoldExpire _ => true
  | .collTimeout _ _ => true
  | .collProgramComplete _ _ => true
  | .hailWrite _ _ _ => true
  | .moorEntryEnd _ => true
  | .partitionWake _ => true
  | .wakeBoundMissed _ => true
  | .stackWakeAccess _ => true
  | .stackSelfRefresh _ => true
  | .marginLend _ _ => true
  | .marginRevoke _ => true
  | .sharedTurnEnd _ => true
  | .deviceStart _ => true
  | .coreReportTimeout _ => true
  | .startFail _ => true
  | .hello _ _ => true
  | .inventory _ => true
  | .startrep _ => true
  | .pcreate _ _ _ => true
  | .pchange _ _ _ => true
  | .pdestroy _ _ => true
  | .map _ _ _ => true
  | .jobgrant _ _ => true
  | .xcpHail _ _ _ => true
  | .xcpReset _ _ _ => true
  | .rkey _ _ _ => true
  | .topology _ _ => true
  | .pwrcap _ _ => true
  | .telem _ => true
  | .attest _ _ => true
  | .fwprov _ _ _ _ => true
  | .xcpEvent => true
  | .xcpEventResend => true
  | .xcpEventAck _ _ => true
  | .rdmaWrite _ _ _ _ => true
  | .rdmaRead _ _ _ _ => true
  | .thermalThrottle _ _ => true
  | .bootThreadRelease _ _ => true
  | .coreReset _ => true
  | .ferryImageLoadComplete _ => true
  | .tlbiComplete _ => true
  | .scrubComplete _ => true
  | .harvestComplete _ => true
  | .vbcast _ _ _ => true
  | .vred _ _ _ _ _ => true
  | .feval _ _ _ _ _ => true
  | .sadd _ _ _ => true
  | .ssub _ _ _ => true
  | .sand _ _ _ => true
  | .sor _ _ _ => true
  | .sshl _ _ _ => true
  | .sshr _ _ _ => true
  | .smovi _ _ _ => true
  | .brm _ _ _ => true
  | .rep _ _ _ => true
  | .ftrap _ _ => true
  | .fwd => true
  | .drop => true
  | .emit => true
  | .pset _ _ => true
  | .pld _ _ _ _ => true
  | .pst _ _ _ _ => true
  | .sld _ _ _ _ => true
  | .sst _ _ _ _ => true
  | .nbRunStart _ => true
  | .nbRowStep _ _ => true
  | .nbResume _ => true
  | .nbForcedStep _ => true
  | .nbImageLoadComplete _ _ _ => true
  | .nbnop _ => true
  | .nbld _ _ _ => true
  | .nbst _ _ _ => true
  | .nbzero _ _ => true
  | .nbmin _ _ _ _ _ _ => true
  | .nbmax _ _ _ _ _ _ => true
  | .nbout _ _ _ => true

end Sys2Proof
end

