-- ==== Sys2Proof/Decode.lean ====
section
/-! DEFINITION. Decoding of Mermos instructions from their bits, and the encoder (R39 to R55, R69 to R74 and the
entries of each instruction). The decoder is total: it answers the instruction, or the reason the word is refused. -/

namespace Sys2Proof

/-- The kinds of words that the decoder refuses, each an ILLEGAL_INSTR of R44 (or too few bytes). -/
inductive DecodeErr where
  /-- Too few bytes are given to hold the instruction. -/
  | short
  /-- A filler word other than 0x0000_0003 (R41). -/
  | filler
  /-- The major opcode is unassigned (R70). -/
  | unassigned
  /-- The length is not listed for the major opcode (R69). -/
  | length
  /-- A res0 bit is 1 (R44). -/
  | reserved
  /-- The type code is not listed (R71). -/
  | type
  /-- A sub-operation or modifier value is unassigned (R44, R72). -/
  | modifier
  /-- The fields together break a rule of the entry (R50, R55, R56 and the entries). -/
  | fields
  /-- The instruction crosses its fetch block (R42). -/
  | crossing
  deriving DecidableEq, Repr

/-- The outcome of decoding. -/
abbrev Dec (α : Type) := Except DecodeErr α

/-- Go on where the condition holds. -/
def need {α : Type} (b : Bool) (e : DecodeErr) (k : Dec α) : Dec α := if b then k else .error e

/-- Go on with the value of an option. -/
def pick {α β : Type} (o : Option α) (e : DecodeErr) (k : α → Dec β) : Dec β :=
  match o with
  | some x => k x
  | none => .error e

/-- A decoded instruction must be well formed: the last checks of its entry. -/
def fin (i : Instr) : Dec Instr := need i.wf .fields (.ok i)

/-! ### Fields -/

/-- Fields packed from the least significant bit upward: each a width and a value. -/
def packBits : List (Nat × Nat) → Nat
  | [] => 0
  | (w, v) :: t => v % 2 ^ w + 2 ^ w * packBits t

/-- The fields of R40, R45 and R47; `hi` is bits 127:64 of the instruction. -/
structure Raw where
  len : Nat
  chain : Nat
  res3 : Nat
  maj : Nat
  gp : Nat
  gn : Nat
  wbs : Nat
  dst : Nat
  opa : Nat
  opb : Nat
  sub : Nat
  mod : Nat
  lt : Nat
  simm : Nat
  hi : Nat
  deriving DecidableEq, Repr

/-- The fields of an instruction's bits (R40, R45). -/
def Raw.ofBits (w : Nat) : Raw where
  len := bitsOf w 1 0
  chain := bitsOf w 2 2
  res3 := bitsOf w 3 3
  maj := bitsOf w 11 4
  gp := bitsOf w 14 12
  gn := bitsOf w 15 15
  wbs := bitsOf w 16 16
  dst := bitsOf w 25 17
  opa := bitsOf w 34 26
  opb := bitsOf w 43 35
  sub := bitsOf w 49 44
  mod := bitsOf w 55 50
  lt := bitsOf w 57 56
  simm := bitsOf w 63 58
  hi := bitsOf w 127 64

/-- The bits of the fields. -/
def Raw.bits (r : Raw) : Nat :=
  packBits [(2, r.len), (1, r.chain), (1, r.res3), (8, r.maj), (3, r.gp), (1, r.gn), (1, r.wbs), (9, r.dst),
    (9, r.opa), (9, r.opb), (6, r.sub), (6, r.mod), (2, r.lt), (6, r.simm), (64, r.hi)]

/-- Instruction length in bytes of bits 1:0 (R39). -/
def lenBytes (len : Nat) : Nat := if len = 0 then 8 else if len = 1 then 12 else if len = 2 then 16 else 4

/-- The common fields (R40). -/
def Raw.com (r : Raw) : Com := ⟨r.gn == 1, BitVec.ofNat 3 r.gp, r.chain == 1⟩

/-- The result fields (R45). -/
def Raw.out (r : Raw) : Out := ⟨r.wbs == 1, Opnd.ofCode r.dst, BitVec.ofNat 2 r.lt⟩

/-- LT and WBS are res0 outside the vector pipe classes (R54). -/
def Raw.noVec (r : Raw) : Bool := r.lt == 0 && r.wbs == 0

/-- The type code and variant bit of SUB (R71). -/
def Raw.ty (r : Raw) : Option Ty := Ty.ofCode (r.sub % 32)
def Raw.variant (r : Raw) : Bool := decide (32 ≤ r.sub)

/-- F96-C: OPC, with bits 95:73 res0. -/
def Raw.opc (r : Raw) : Nat := bitsOf r.hi 8 0

/-- F96-I: IMM32. -/
def Raw.imm32 (r : Raw) : Word := BitVec.ofNat 32 r.hi

/-- F128: bits 127:96. -/
def Raw.top32 (r : Raw) : Word := BitVec.ofNat 32 (bitsOf r.hi 63 32)

/-- The memory operand of F96-M or F128-M (R47, R48). -/
def Raw.mem (r : Raw) : MemOp where
  space := Space.ofCode (bitsOf r.hi 3 2)
  base := Opnd.ofCode r.opa
  index := Opnd.ofCode r.opb
  scale := BitVec.ofNat 2 (bitsOf r.hi 1 0)
  wide := r.len == 2
  off := if r.len == 2 then r.top32 else (BitVec.ofNat 24 (bitsOf r.hi 31 8)).signExtend 32

/-- ORD. -/
def Raw.ord (r : Raw) : Nat := bitsOf r.hi 7 4

/-- OPC of F128-M. -/
def Raw.opcM (r : Raw) : Nat := if r.len == 2 then bitsOf r.hi 16 8 else 0

/-- Bits 95:81 of F128-M are res0. -/
def Raw.memRes (r : Raw) : Bool := r.len != 2 || bitsOf r.hi 31 17 == 0

/-- The fields of F128-T. -/
def Raw.td (r : Raw) : Nat := bitsOf r.hi 3 0
def Raw.ta (r : Raw) : Nat := bitsOf r.hi 7 4
def Raw.tb (r : Raw) : Nat := bitsOf r.hi 11 8
def Raw.tc (r : Raw) : Nat := bitsOf r.hi 15 12
def Raw.tln (r : Raw) : Nat := bitsOf r.hi 19 16
def Raw.xctl (r : Raw) : Nat := bitsOf r.hi 31 20

/-! ### Shapes of the typed instructions -/

/-- F64 or F96-I: operand B, with the upper half of the immediate of a 16-bit format res0. -/
def Raw.vec2 (r : Raw) (immOk : Bool) (k : Vec2 → Dec Instr) : Dec Instr :=
  pick r.ty .type fun ty =>
    if r.len = 0 then k ⟨r.com, r.out, ty, r.variant, Opnd.ofCode r.opa, .op (Opnd.ofCode r.opb)⟩
    else need (r.len == 1 && immOk) .length <| need (r.opb == 0 && r.simm == 0) .reserved <|
      k ⟨r.com, r.out, ty, r.variant, Opnd.ofCode r.opa, .imm r.imm32⟩

/-- F64 with operand B res0. -/
def Raw.vec1 (r : Raw) (k : Vec1 → Dec Instr) : Dec Instr :=
  need (r.len == 0) .length <| need (r.opb == 0) .reserved <| pick r.ty .type fun ty =>
    k ⟨r.com, r.out, ty, r.variant, Opnd.ofCode r.opa⟩

/-- F96-C, or F128-C where the opcode has it. -/
def Raw.vec3 (r : Raw) (wideOk : Bool) (k : Vec3 → Dec Instr) : Dec Instr :=
  need (r.len == 1 || (r.len == 2 && wideOk)) .length <| need (r.simm == 0) .reserved <|
  need (bitsOf r.hi 31 9 == 0) .reserved <| pick r.ty .type fun ty =>
    k ⟨r.com, r.out, ty, r.variant, Opnd.ofCode r.opa, Opnd.ofCode r.opb, Opnd.ofCode r.opc,
      if r.len = 2 then some r.top32 else none⟩

/-- The rounding field, MOD bits 55:53, with bits 52:50 given to a reading (R46, R123). -/
def Raw.rnd (r : Raw) : Option Rnd := Rnd.ofCode (r.mod / 8)
def Raw.reading (r : Raw) : Option Reading := if r.mod % 8 < 4 then Reading.ofCode (r.mod % 4) else none

/-- An integer instruction: MOD is res0, and SIMM is in F64. -/
def Raw.plain (r : Raw) (k : Dec Instr) : Dec Instr := need (r.mod == 0 && r.simm == 0) .reserved k

/-- A rounding instruction whose MOD bits 52:50 are res0. -/
def Raw.rounding (r : Raw) (k : Rnd → Dec Instr) : Dec Instr :=
  need (r.simm == 0 && r.mod % 8 == 0) .reserved <| pick r.rnd .modifier k

/-- The shifts (R110): the count is operand B or SIMM. -/
def Raw.shift (r : Raw) (k : Vec1 → ShiftCount → Dec Instr) : Dec Instr :=
  need (r.len == 0) .length <| need (decide (r.mod < 2)) .reserved <| pick r.ty .type fun ty =>
    let x : Vec1 := ⟨r.com, r.out, ty, r.variant, Opnd.ofCode r.opa⟩
    if r.mod = 1 then need (r.opb == 0) .reserved <| k x (.simm (BitVec.ofNat 6 r.simm))
    else need (r.simm == 0) .reserved <| k x (.op (Opnd.ofCode r.opb))

/-- ADDC and SUBB (R109): the carry predicate and .first lie in SIMM. -/
def Raw.carry (r : Raw) (k : Vec2 → BitVec 3 → Bool → Dec Instr) : Dec Instr :=
  need (r.mod == 0 && decide (r.simm < 16)) .reserved <|
  r.vec2 false fun x => k x (BitVec.ofNat 3 (r.simm % 8)) (decide (8 ≤ r.simm))

/-- A memory instruction of F96-M, or F128-M where `wide` permits it; SIMM is res0. -/
def Raw.memory (r : Raw) (narrow wide : Bool) (k : Dec Instr) : Dec Instr :=
  need ((r.len == 1 && narrow) || (r.len == 2 && wide)) .length <|
  need (r.simm == 0 && r.noVec && r.memRes) .reserved k

/-- A memory instruction that takes ORD 0000 and MOD res0. -/
def Raw.memPlain (r : Raw) (narrow wide : Bool) (k : Dec Instr) : Dec Instr :=
  r.memory narrow wide <| need (r.ord == 0 && r.mod == 0) .reserved k

/-- F64 outside the vector classes, with SIMM res0. -/
def Raw.f64 (r : Raw) (k : Dec Instr) : Dec Instr :=
  need (r.len == 0) .length <| need (r.noVec && r.simm == 0) .reserved k

/-- F96-I outside the vector classes. -/
def Raw.f96i (r : Raw) (k : Dec Instr) : Dec Instr :=
  need (r.len == 1) .length <| need (r.noVec && r.simm == 0) .reserved k

/-- F96-C outside the vector classes. -/
def Raw.f96c (r : Raw) (k : Dec Instr) : Dec Instr :=
  need (r.len == 1) .length <| need (r.noVec && r.simm == 0 && bitsOf r.hi 31 9 == 0) .reserved k

/-- F128-T. -/
def Raw.f128t (r : Raw) (k : Dec Instr) : Dec Instr :=
  need (r.len == 2) .length <| need (r.noVec && r.simm == 0) .reserved k

/-- A matrix instruction (R215): MOD and TLN res0. -/
def Raw.matrix (r : Raw) (k : Dec Instr) : Dec Instr :=
  r.f128t <| need (r.mod == 0 && r.tln == 0) .reserved k

/-- A 4-bit tile field. -/
def tile (n : Nat) : BitVec 4 := BitVec.ofNat 4 n

/-- Where MMA and MMAT take the accumulator from: XCTL bits 0 (.aip) and 2 (.z) (R215). -/
def Raw.accSrc (r : Raw) (k : AccSrc → Dec Instr) : Dec Instr :=
  match r.xctl.testBit 0, r.xctl.testBit 2 with
  | true, true => .error .fields
  | true, false => need (r.tc == 0) .reserved (k .inPlace)
  | false, true => need (r.tc == 0) .reserved (k .zero)
  | false, false => k (.tile (tile r.tc))

/-- A copy instruction (R306): MOD bit 50 is .rel, tile fields res0, channel below 8. -/
def Raw.copyForm (r : Raw) (k : Dec Instr) : Dec Instr :=
  r.f128t <| need (decide (r.mod < 2) && bitsOf r.hi 15 0 == 0) .reserved <|
  need (decide (r.tln < 8)) .modifier k

/-- A barrier instruction (R321). -/
def Raw.bar (r : Raw) (wide : Bool) (k : Dec Instr) : Dec Instr := r.memPlain (!wide) wide k

/-- A timeline instruction (R326). -/
def Raw.timeline (r : Raw) (k : Dec Instr) : Dec Instr :=
  r.f128t <| need (r.mod == 0 && r.opb == 0 && r.xctl == 0 && bitsOf r.hi 15 0 == 0) .reserved k

/-- One half of a P96 word: its fields from POP upward (R49). -/
def decodeHalf (pop dst a b wbs lt mod : Nat) : Option PairHalf :=
  match PairOp.ofCode pop with
  | none => none
  | some op =>
    let out : Out := ⟨wbs == 1, Opnd.ofCode dst, BitVec.ofNat 2 lt⟩
    if op.rounds then
      if mod % 2 = 0 then
        (Rnd.ofCode (mod / 2)).map fun rnd => ⟨op, rnd, out, Opnd.ofCode a, Opnd.ofCode b⟩
      else none
    else if mod = 0 then some ⟨op, .rn, out, Opnd.ofCode a, Opnd.ofCode b⟩ else none

/-- A P96 word (R49, R50, R74). -/
def decodePair (w : Nat) : Dec Instr :=
  pick (decodeHalf (bitsOf w 21 16) (bitsOf w 30 22) (bitsOf w 39 31) (bitsOf w 48 40) (bitsOf w 49 49)
    (bitsOf w 51 50) (bitsOf w 55 52)) .modifier fun ha =>
  pick (decodeHalf (bitsOf w 61 56) (bitsOf w 70 62) (bitsOf w 79 71) (bitsOf w 88 80) (bitsOf w 89 89)
    (bitsOf w 91 90) (bitsOf w 95 92)) .modifier fun hb =>
  fin (.pairP96 (Raw.ofBits w).com ha hb)

/-- SUB of LD and ST: a type code, or 0x29 for .q (R134, R260). -/
def Raw.ldst (r : Raw) (k : Ty → Bool → MemOrd → Dec Instr) : Dec Instr :=
  r.memory true true <| need (r.opcM == 0 && decide (r.mod < 8)) .reserved <|
  pick r.ty .type fun ty => pick (MemOrd.ofCode r.ord r.mod) .modifier fun o => k ty r.variant o

/-- LDG and SCT (R262): the count lies in MOD bits 51:50. -/
def Raw.gather (r : Raw) (k : Ty → BitVec 2 → MemOrd → Dec Instr) : Dec Instr :=
  r.memory true false <| need (decide (r.mod < 4) && !r.variant) .reserved <|
  pick r.ty .type fun ty => pick (MemOrd.ofCode r.ord 0) .modifier fun o => k ty (BitVec.ofNat 2 r.mod) o

/-- The instruction of a major opcode (R69), from its fields. -/
def decodeRaw (r : Raw) : Dec Instr :=
  let com := r.com
  let out := r.out
  let a := Opnd.ofCode r.opa
  let b := Opnd.ofCode r.opb
  let d := Opnd.ofCode r.dst
  let c := Opnd.ofCode r.opc
  let unused (dst opa opb sub mod : Bool) : Bool :=
    (dst || r.dst == 0) && (opa || r.opa == 0) && (opb || r.opb == 0) && (sub || r.sub == 0) && (mod || r.mod == 0)
  match r.maj with
  | 0x01 => r.f96i <| need (unused false false false false false) .reserved <| fin (.bra com r.imm32)
  | 0x02 => need (r.len == 2) .length <| need (r.noVec && r.simm == 0 && unused false false false false false) .reserved <|
      fin (.jmp com (BitVec.ofNat 64 r.hi))
  | 0x03 => r.f64 <| need (unused false true false false false) .reserved <| fin (.brx com a)
  | 0x04 => r.f96i <| need (unused true false false false false) .reserved <| fin (.call com d r.imm32)
  | 0x05 => r.f64 <| need (unused true true false false false) .reserved <| fin (.callr com d a)
  | 0x06 => r.f64 <| need (unused false true false false false) .reserved <| fin (.ret com a)
  | 0x07 => r.f64 <| need (unused false false false false false) .reserved <| fin (.exit com)
  | 0x08 => r.f64 <| need (unused false false false false false) .reserved <| fin (.yield com)
  | 0x09 => r.f64 <| need (unused false false false false false) .reserved <| fin (.halt com)
  | 0x10 => r.plain <| r.vec2 true fun x => fin (.add x)
  | 0x11 => r.carry fun x p f => fin (.addc x p f)
  | 0x12 => r.plain <| r.vec2 true fun x => fin (.sub x)
  | 0x13 => r.carry fun x p f => fin (.subb x p f)
  | 0x14 => r.plain <| r.vec2 true fun x => fin (.mul x)
  | 0x15 => r.plain <| r.vec2 false fun x => fin (.mulh x)
  | 0x16 => r.plain <| r.vec3 true fun x => fin (.mad x)
  | 0x17 => r.plain <| r.vec2 false fun x => fin (.div x)
  | 0x18 => r.plain <| r.vec2 false fun x => fin (.rem x)
  | 0x19 => r.plain <| r.vec2 true fun x => fin (.min x)
  | 0x1A => r.plain <| r.vec2 true fun x => fin (.max x)
  | 0x1B => r.plain <| r.vec1 fun x => fin (.abs x)
  | 0x1C => r.plain <| r.vec1 fun x => fin (.neg x)
  | 0x1D => r.plain <| r.vec2 true fun x => fin (.and x)
  | 0x1E => r.plain <| r.vec2 true fun x => fin (.or x)
  | 0x1F => r.plain <| r.vec2 true fun x => fin (.xor x)
  | 0x20 => r.plain <| r.vec1 fun x => fin (.not x)
  | 0x21 => r.plain <| r.vec2 true fun x => fin (.andn x)
  | 0x22 => r.shift fun x n => fin (.shl x n)
  | 0x23 => r.shift fun x n => fin (.shr x n)
  | 0x24 => r.shift fun x n => fin (.sra x n)
  | 0x25 => r.shift fun x n => fin (.rot x n)
  | 0x26 => r.plain <| r.vec3 false fun x => fin (.funnel x)
  | 0x27 => r.plain <| r.vec1 fun x => fin (.clz x)
  | 0x28 => r.plain <| r.vec1 fun x => fin (.ctz x)
  | 0x29 => r.plain <| r.vec1 fun x => fin (.popc x)
  | 0x2A => r.plain <| r.vec1 fun x => fin (.brev x)
  | 0x2B => r.plain <| r.vec2 false fun x => fin (.bfx x)
  | 0x2C => r.plain <| r.vec3 false fun x => fin (.bfi x)
  | 0x2D => r.plain <| r.vec3 false fun x => fin (.sel x)
  | 0x2E => need (r.simm == 0 && decide (r.mod < 8)) .reserved <| pick (Cond.ofCode r.mod) .modifier fun cc =>
      r.vec2 true fun x => fin (.cmp x cc)
  | 0x30 => need (r.len == 1 || r.len == 2) .length <|
      need (r.simm == 0 && r.memRes && r.ord == 0 && r.opcM == 0 && r.sub == 0 && r.mod == 0) .reserved <|
      fin (.lea com out r.mem)
  | 0x31 => need (r.len == 1 || r.len == 2) .length <|
      need (r.simm == 0 && r.memRes && r.ord == 0 && r.opcM == 0 && r.sub == 0 && r.mod == 0) .reserved <|
      fin (.leah com out r.mem)
  | 0x32 => need (r.len == 0) .length <| need (r.simm == 0 && r.opb == 0 && r.mod == 0 && decide (r.sub < 2)) .reserved <|
      fin (.swin com out (r.sub == 1) a)
  | 0x33 => need (r.len == 1) .length <| need (r.simm == 0 && decide (r.mod < 4) && bitsOf r.hi 31 9 == 0) .reserved <|
      fin (.plut com out (BitVec.ofNat 8 (r.mod * 64 + r.sub)) a b c)
  | 0x34 => need (r.len == 0) .length <| need (r.simm == 0 && r.mod == 0 && r.opb == 0) .reserved <|
      match r.sub with
      | 0 => need (r.opa == 0) .reserved <| fin (.pmovGet com out)
      | 1 => need (r.dst == 0 && r.wbs == 0) .reserved <| fin (.pmovSet com (BitVec.ofNat 2 r.lt) a)
      | _ => .error .modifier
  | 0x35 => r.plain <| r.vec1 fun x => fin (.mov x)
  | 0x36 => need (r.len == 1 || r.len == 2) .length <|
      need (r.simm == 0 && r.mod == 0 && r.opa == 0 && r.opb == 0 && !r.variant) .reserved <|
      pick r.ty .type fun ty => fin (.movi com out ty (BitVec.ofNat 64 r.hi) (r.len == 2))
  | 0x37 => r.f64 <| need (r.mod == 0 && r.opb == 0) .reserved <|
      if r.sub < 0x08 then need (r.opa == 0) .reserved <| fin (.movsReadWp com (BitVec.ofNat 3 r.sub) d)
      else if r.sub < 0x10 then .error .modifier
      else if r.sub < 0x20 then need (r.opa == 0) .reserved <| fin (.movsReadTc com (tile r.sub) d)
      else if r.sub < 0x30 then need (r.dst == 0) .reserved <| fin (.movsWriteTc com (tile r.sub) a)
      else .error .modifier
  | 0x38 => r.plain <| r.vec3 true fun x => fin (.bsel x)
  | 0x39 => r.f96i <| need (unused true false false false false && decide (r.hi < 4096)) .reserved <|
      fin (.csrr com (BitVec.ofNat 12 r.hi) d)
  | 0x3A => r.f96i <| need (unused false true false true false && decide (r.hi < 4096)) .reserved <|
      match r.sub with
      | 0 => fin (.csrw com (BitVec.ofNat 12 r.hi) a)
      | 1 => fin (.csrwSet com (BitVec.ofNat 12 r.hi) a)
      | 2 => fin (.csrwClr com (BitVec.ofNat 12 r.hi) a)
      | _ => .error .modifier
  | 0x40 => r.rounding fun m => r.vec2 true fun x => fin (.fadd x m)
  | 0x41 => r.rounding fun m => r.vec2 true fun x => fin (.fsub x m)
  | 0x42 => r.rounding fun m => r.vec2 true fun x => fin (.fmul x m)
  | 0x43 => r.rounding fun m => r.vec3 true fun x => fin (.ffma x m)
  | 0x44 => r.plain <| r.vec2 true fun x => fin (.fmin x)
  | 0x45 => r.plain <| r.vec2 true fun x => fin (.fmax x)
  | 0x46 => need (r.simm == 0 && decide (r.mod < 8)) .reserved <| pick (FCond.ofCode r.mod) .modifier fun cc =>
      r.vec2 true fun x => fin (.fcmp x cc)
  | 0x47 => need (decide (r.mod < 8)) .reserved <| pick r.reading .modifier fun rd =>
      r.vec1 fun x => fin (.fclass x rd (BitVec.ofNat 6 r.simm))
  | 0x48 => r.rounding fun m => r.vec2 false fun x => fin (.fscale x m)
  | 0x49 => r.rounding fun m => r.vec1 fun x => fin (.frnd x m)
  | 0x4A => need (decide (r.simm < 32)) .reserved <| pick r.rnd .modifier fun m => pick r.reading .modifier fun rd =>
      pick (Ty.ofCode r.simm) .type fun src => r.vec2 false fun x => fin (.cvt x src m rd)
  | 0x4B => need (r.simm == 0) .reserved <| pick r.rnd .modifier fun m => pick r.reading .modifier fun rd =>
      r.vec3 false fun x => fin (.pack x m rd)
  | 0x4C => need (decide (r.mod < 8)) .reserved <| pick r.reading .modifier fun rd =>
      r.vec1 fun x => fin (.unpack x rd (BitVec.ofNat 6 r.simm))
  | 0x4D => need (r.simm == 0 && decide (r.mod < 8)) .reserved <| pick r.reading .modifier fun rd =>
      r.vec3 false fun x => fin (.bscale x rd)
  | 0x50 => r.memPlain true false <| need (decide (r.sub < 32)) .reserved <|
      fin (.tblLoad com (decide (16 ≤ r.sub)) (tile r.sub) d r.mem)
  | 0x51 => r.f64 <| need (unused true false false true false && decide (r.sub < 16)) .reserved <|
      fin (.tblCommit com (tile r.sub) d)
  | 0x52 => need (r.len == 0) .length <| need (r.noVec && r.opb == 0 && decide (r.simm < 16) && r.mod % 8 == 0 && !r.variant) .reserved <|
      pick r.ty .type fun ty => pick r.rnd .modifier fun m => fin (.tblEval com ty m (tile r.simm) d a)
  | 0x53 => r.f64 <| need (unused true false false true false && decide (r.sub < 32)) .reserved <|
      fin (.tblQuery com (decide (16 ≤ r.sub)) (tile r.sub) d)
  | 0x54 => r.f64 <| need (unused false false false true false && decide (r.sub < 32)) .reserved <|
      fin (.tblDrop com (decide (16 ≤ r.sub)) (tile r.sub))
  | 0x58 => r.f96i <| need (r.opb == 0 && decide (r.mod < 8)) .reserved <| pick (ShflMode.ofCode r.mod) .modifier fun m =>
      fin (.shfl com m (BitVec.ofNat 5 r.sub) r.variant d a r.imm32)
  | 0x59 => r.f96i <| need (r.opb == 0 && r.sub == 0 && decide (r.mod < 8)) .reserved <|
      pick (VoteForm.ofCode r.mod) .modifier fun f => fin (.vote com f d a r.imm32)
  | 0x5A => r.f96i <| need (r.opb == 0 && r.mod == 0 && r.sub % 32 == 0) .reserved <| fin (.matchKey com r.variant d a r.imm32)
  | 0x5B => r.f96i <| need (r.opb == 0 && r.mod == 0) .reserved <| pick (SquadOp.ofCode r.sub) .modifier fun o =>
      fin (.sred com o d a r.imm32)
  | 0x5C => r.f96i <| need (r.opb == 0 && decide (r.mod < 2)) .reserved <| pick (SquadOp.ofCode r.sub) .modifier fun o =>
      fin (.sscan com o (r.mod == 1) d a r.imm32)
  | 0x5D => r.f96i <| need (unused false false false false false) .reserved <| fin (.ssync com r.imm32)
  | 0x60 => need (r.len == 1) .length <| need (r.simm == 0 && decide (r.sub < 8) && decide (r.mod < 2) && bitsOf r.hi 31 9 == 0) .reserved <|
      fin (.ddot com out (r.sub.testBit 0) (r.sub.testBit 1) (r.sub.testBit 2) (r.mod == 1) a b c)
  | 0x61 => r.plain <| r.vec2 false fun x => fin (.dham x)
  | 0x62 => need (r.len == 1) .length <| need (r.simm == 0 && r.sub == 0x0E && bitsOf r.hi 31 9 == 0) .reserved <|
      pick r.rnd .modifier fun m => pick r.reading .modifier fun rd => fin (.dl2 com out m rd a b c)
  | 0x63 => r.f64 <| need (r.opb == 0 && r.mod == 0 && decide (r.sub < 32)) .reserved <|
      pick (SelKey.ofCode (r.sub / 4 % 4)) .modifier fun k =>
      fin (.selInit com k (r.sub.testBit 4) (BitVec.ofNat 2 r.sub) d a)
  | 0x64 => r.f64 <| need (r.dst == 0 && r.mod == 0 && decide (r.sub < 4)) .reserved <| fin (.selPush com (BitVec.ofNat 2 r.sub) a b)
  | 0x65 => r.f64 <| need (r.opb == 0 && r.mod == 0 && decide (r.sub < 32) && !r.sub.testBit 3) .reserved <|
      match r.sub.testBit 2, r.sub.testBit 4 with
      | true, true => .error .fields
      | true, false => fin (.selDrain com .cnt (BitVec.ofNat 2 r.sub) d a)
      | false, true => fin (.selDrain com .fin (BitVec.ofNat 2 r.sub) d a)
      | false, false => fin (.selDrain com .plain (BitVec.ofNat 2 r.sub) d a)
  | 0x68 => r.matrix <| need (r.dst == 0 && r.opb == 0 && decide (r.sub < 2) && bitsOf r.hi 31 4 == 0) .reserved <|
      if r.sub = 1 then need (r.top32 == 0) .reserved <| fin (.tcfg com (tile r.td) (.op a))
      else need (r.opa == 0) .reserved <| fin (.tcfg com (tile r.td) (.imm r.top32))
  | 0x69 => r.matrix <| need (r.opa == 0 && r.opb == 0 && decide (r.sub < 2) && bitsOf r.hi 63 4 == 0) .reserved <|
      fin (.tzero com (r.sub == 1) (tile r.td) d)
  | 0x6A => r.matrix <| need (r.sub == 0 && bitsOf r.hi 63 4 == 0) .reserved <| fin (.tld com (tile r.td) d a b)
  | 0x6B => r.matrix <| need (r.sub == 0 && r.td == 0 && bitsOf r.hi 19 8 == 0 && decide (r.xctl < 16) && r.top32 == 0) .reserved <|
      pick (Rnd.ofCode (r.xctl % 8)) .modifier fun m => fin (.tst com (tile r.ta) m (decide (8 ≤ r.xctl)) d a b)
  | 0x6C => r.matrix <| need (r.opb == 0 && r.sub == 0 && decide (r.xctl < 32) && decide (r.top32.toNat < 1024)) .reserved <|
      need (r.xctl.testBit 1 || r.opa == 0) .reserved <|
      r.accSrc fun cs => fin (.mma com (tile r.td) (tile r.ta) (tile r.tb) cs (AccFmt.ofCode (r.xctl / 8 % 4))
        (if r.xctl.testBit 1 then some a else none) (BitVec.ofNat 10 r.top32.toNat) d)
  | 0x6D => r.matrix <| need (r.opa == 0 && r.opb == 0 && r.sub == 0 && decide (r.xctl < 8) && !r.xctl.testBit 1 &&
        decide (r.top32.toNat < 1024)) .reserved <|
      r.accSrc fun cs => fin (.mmat com (tile r.td) (tile r.ta) (tile r.tb) cs (BitVec.ofNat 10 r.top32.toNat) d)
  | 0x6E => r.matrix <| need (r.opb == 0 && r.sub == 0 && bitsOf r.hi 63 8 == 0) .reserved <|
      fin (.mmap com (tile r.td) (tile r.ta) d a)
  | 0x6F => r.matrix <| need (bitsOf r.hi 31 4 == 0) .reserved <| pick (TrowForm.ofCode r.sub) .modifier fun f =>
      if r.sub % 2 = 1 then need (r.dst == 0) .reserved <| fin (.trow com f (tile r.td) a b r.top32)
      else need (r.opa == 0) .reserved <| fin (.trow com f (tile r.td) d b r.top32)
  | 0x70 => r.matrix <| need (r.opa == 0 && r.opb == 0 && decide (r.sub < 2) && r.hi == 0) .reserved <|
      fin (.tchk com (r.sub == 1) d)
  | 0x78 => r.ldst fun ty q o => fin (.ld com ty q o d r.mem)
  | 0x79 => r.ldst fun ty q o => fin (.st com ty q o d r.mem)
  | 0x7A => r.gather fun ty n o => fin (.ldg com ty n o d r.mem)
  | 0x7B => r.gather fun ty n o => fin (.sct com ty n o d r.mem)
  | 0x7C => r.memory true true <| need (!r.variant) .reserved <| pick r.ty .type fun ty =>
      pick (MemOrd.ofCode r.ord (r.mod % 8)) .modifier fun o =>
      fin (.atom com (AtomOp.ofAtom (r.mod / 8)) ty o d (Opnd.ofCode r.opcM) r.mem)
  | 0x7D => r.memory true false <| need (!r.variant) .reserved <| pick r.ty .type fun ty =>
      pick (MemOrd.ofCode r.ord (r.mod % 8)) .modifier fun o => pick (AtomOp.ofRed (r.mod / 8)) .modifier fun op =>
      fin (.red com op ty o d r.mem)
  | 0x7E => r.memory true false <| need (r.sub == 0x0B && decide (r.mod < 8)) .reserved <|
      pick (MemOrd.ofCode r.ord r.mod) .modifier fun o => fin (.amaxsw com o d r.mem)
  | 0x7F => r.f64 <| need (unused false false false true true && decide (r.sub < 4) && decide (r.mod < 8)) .reserved <|
      pick (Scope.ofCode r.mod) .modifier fun s => fin (.fence com (OrdKind.ofCode r.sub) s)
  | 0x80 => r.memPlain true false <| need (r.dst == 0) .reserved <|
      match r.sub with
      | 0 => fin (.cctlIi com r.mem)
      | 1 => fin (.cctlEv com r.mem)
      | _ => .error .modifier
  | 0x81 => r.memPlain true false <| need (r.dst == 0 && decide (r.sub < 4)) .reserved <|
      fin (.pref com (PrefTarget.ofCode r.sub) r.mem)
  | 0x82 => r.memPlain false true <|
      match r.sub with
      | 0 => fin (.stashMap com d (Opnd.ofCode r.opcM) r.mem)
      | 1 => need (r.opa == 0 && r.opb == 0 && r.top32 == 0 && bitsOf r.hi 7 0 == 0) .reserved <|
          fin (.stashMapUn com d (Opnd.ofCode r.opcM))
      | _ => .error .modifier
  | 0x83 => r.f64 <| need (unused false false false true false && decide (r.sub < 2)) .reserved <| fin (.stashSync com (r.sub == 1))
  | 0x84 => r.memPlain true false <| need (decide (r.sub < 16)) .reserved <|
      fin (.racew com (BitVec.ofNat 3 r.sub) (decide (8 ≤ r.sub)) d r.mem)
  | 0x88 => r.copyForm <| need (decide (r.sub < 16)) .reserved <|
      fin (.copy com (CopySpace.ofCode (r.sub % 4)) (CopySpace.ofCode (r.sub / 4)) (r.mod == 1) (BitVec.ofNat 3 r.tln)
        (BitVec.ofNat 12 r.xctl) r.top32 d a b)
  | 0x89 => r.copyForm <| need (decide (r.sub < 4)) .reserved <|
      fin (.copyt com (r.sub.testBit 0) (r.sub.testBit 1) (r.mod == 1) (BitVec.ofNat 3 r.tln) (BitVec.ofNat 12 r.xctl)
        r.top32 d a b)
  | 0x8A => r.copyForm <| need (decide (r.sub < 16)) .reserved <|
      fin (.copyg com (CopySpace.ofCode (r.sub % 4)) (CopySpace.ofCode (r.sub / 4)) (r.mod == 1) (BitVec.ofNat 3 r.tln)
        (BitVec.ofNat 12 r.xctl) (BitVec.ofNat 16 r.top32.toNat) (BitVec.ofNat 16 (r.top32.toNat / 65536)) d a b)
  | 0x8B => r.f128t <| need (unused false true false false false && bitsOf r.hi 31 0 == 0) .reserved <| fin (.stage com a r.top32)
  | 0x8C => r.bar false <| need (decide (r.sub < 4)) .reserved <|
      fin (.barInit com (r.sub.testBit 0) (r.sub.testBit 1) d r.mem)
  | 0x8D => r.bar false <| need (decide (r.sub < 2)) .reserved <| fin (.barArrive com (r.sub == 1) d r.mem)
  | 0x8E => r.bar true <| need (decide (r.sub < 2)) .reserved <| fin (.barExpect com (r.sub == 1) d (Opnd.ofCode r.opcM) r.mem)
  | 0x8F => r.bar false <| need (r.sub == 0) .reserved <| fin (.barWait com d r.mem)
  | 0x90 => r.bar false <| need (r.sub == 0) .reserved <| fin (.barTest com d r.mem)
  | 0x91 => r.timeline <| need (r.dst == 0 && r.sub == 0) .reserved <| fin (.tlwait com (tile r.tln) a r.top32)
  | 0x92 => r.timeline <| need (r.opa == 0 && r.top32 == 0) .reserved <|
      match r.sub with
      | 0 => fin (.tlread com .done (tile r.tln) d)
      | 1 => fin (.tlread com .iss (tile r.tln) d)
      | 2 => fin (.tlread com .fail (tile r.tln) d)
      | _ => .error .modifier
  | 0x93 => r.timeline <| need (r.dst == 0 && decide (r.sub < 2)) .reserved <| fin (.tlsig com (r.sub == 1) (tile r.tln) a r.top32)
  | 0x94 => r.f96i <| need (unused false false false false false && decide (r.hi < 4096)) .reserved <|
      fin (.waitm com (BitVec.ofNat 12 r.hi))
  | 0x98 => r.f64 <| need (unused true true true false false) .reserved <| fin (.launch com d a b)
  | 0x99 => r.f64 <| need (unused true true true false false) .reserved <| fin (.graphRun com d a b)
  | 0x9A => r.f96c <| need (r.dst == 0x150 && r.sub == 0 && r.mod == 0) .reserved <| fin (.graphPatch com a b c)
  | 0xA0 => r.f64 <| need (unused true true false false false) .reserved <| fin (.collStart com d a)
  | 0xA1 => r.f96c <| need (decide (r.sub < 2) && r.mod == 0) .reserved <| fin (.nbLoad com (r.sub == 1) d a b c)
  | 0xA2 => r.f96c <| need (r.sub == 0 && r.mod == 0) .reserved <| fin (.nbRun com d a b c)
  | 0xA3 => r.f96c <| need (r.sub == 0 && r.mod == 0) .reserved <| fin (.ferryLoad com d a b c)
  | 0xA4 => r.f96c <| need (r.sub == 0 && r.mod == 0) .reserved <| fin (.ferryBind com d a b c)
  | 0xA5 => r.f64 <| need (r.mod == 0) .reserved <|
      match r.sub with
      | 0 => fin (.ferryUnbind com d a b)
      | 1 => fin (.ferryUnbindKern com d a b)
      | _ => .error .modifier
  | 0xB0 => need (r.len == 0) .length <| need (r.noVec && unused true true false false false) .reserved <|
      fin (.trap com (BitVec.ofNat 6 r.simm) d a)
  | 0xB1 => r.f64 <| need (r.mod == 0) .reserved <|
      match r.sub with
      | 0 => fin (.tretRep com d a b)
      | 1 => fin (.tretSkip com d a b)
      | 2 => fin (.tretKill com d a b)
      | 3 => fin (.tretCan com d a b)
      | 4 => fin (.tretKillb com d a b)
      | 5 => fin (.tretPre com d a b)
      | _ => .error .modifier
  | 0xB2 => r.f64 <| need (unused true false false false false) .reserved <| fin (.moor com d)
  | 0xB3 => r.f96c <| need (r.dst == 0 && r.mod == 0 && r.hi == 0) .reserved <|
      match r.sub with
      | 0 => fin (.tlbiVa com a b)
      | 1 => need (r.opa == 0 && r.opb == 0) .reserved <| fin (.tlbiAll com)
      | _ => .error .modifier
  | 0xB4 => r.f64 <| need (unused true true false false false) .reserved <| fin (.harvest com d a)
  | 0xB5 => r.f96c <| need (decide (r.sub < 2) && r.mod == 0 && r.hi == 0) .reserved <| fin (.scrub com (r.sub == 1) d a b)
  | 0xB6 => r.f96i <| need (unused true true false true false && decide (r.sub < 2) && decide (r.hi < 65536)) .reserved <|
      fin (.evpost com (r.sub == 1) (BitVec.ofNat 16 r.hi) d a)
  | _ => .error .unassigned

/-- The instruction that begins with the bits of `w` (R39): the filler, NOP, the pair format or a listed opcode.
Bits above the instruction's length do not count. -/
def decodeWord (w : Nat) : Dec Instr :=
  let len := bitsOf w 1 0
  if len = 3 then need (w % 2 ^ 32 == 3) .filler (.ok .filler)
  else
    let v := w % 2 ^ (8 * lenBytes len)
    let r := Raw.ofBits v
    if r.maj = 0x00 then need (v == 0x7000) .unassigned (.ok .nop)
    else if r.maj = 0xFF then
      need (len == 1) .length <| need (r.res3 == 0) .reserved <| decodePair v
    else need (r.res3 == 0) .reserved <| decodeRaw r

/-- A natural number of bytes, least significant first (R8). -/
def natOfBytes : List Byte → Nat
  | [] => 0
  | b :: t => b.toNat + 256 * natOfBytes t

/-- `n` bytes of a number, least significant first (R8). -/
def bytesOfNat : Nat → Nat → List Byte
  | 0, _ => []
  | n + 1, x => BitVec.ofNat 8 x :: bytesOfNat n (x / 256)

/-- The instruction at the head of a list of bytes, and the bytes after it. -/
def decode (bs : List Byte) : Dec (Instr × List Byte) :=
  match bs with
  | [] => .error .short
  | b :: _ =>
    let n := lenBytes (b.toNat % 4)
    if bs.length < n then .error .short
    else
      match decodeWord (natOfBytes (bs.take n)) with
      | .ok i => .ok (i, bs.drop n)
      | .error e => .error e

/-- The instruction at offset `o` of its 32-byte fetch block must lie inside the block (R42). -/
def crossesBlock (o n : Nat) : Bool := decide (32 < o % 32 + n)

/-! ### The encoder, from the same tables -/

/-- Fields with only the common part, the length and the major opcode set. -/
def Com.raw (c : Com) (len maj : Nat) : Raw :=
  { len := len, chain := boolNat c.chain, res3 := 0, maj := maj, gp := c.guardPred.toNat, gn := boolNat c.guardNeg,
    wbs := 0, dst := 0, opa := 0, opb := 0, sub := 0, mod := 0, lt := 0, simm := 0, hi := 0 }

/-- Set the result fields. -/
def Raw.withOut (r : Raw) (o : Out) : Raw := { r with wbs := boolNat o.wbs, dst := o.dst.code, lt := o.lt.toNat }

/-- One source. -/
def Vec1.raw (x : Vec1) (maj : Nat) : Raw :=
  { (x.com.raw 0 maj).withOut x.out with opa := x.a.code, sub := x.ty.code + 32 * boolNat x.variant }

/-- Two sources. -/
def Vec2.raw (x : Vec2) (maj : Nat) : Raw :=
  match x.b with
  | .op o => { (x.com.raw 0 maj).withOut x.out with
      opa := x.a.code, opb := o.code, sub := x.ty.code + 32 * boolNat x.variant }
  | .imm w => { (x.com.raw 1 maj).withOut x.out with
      opa := x.a.code, sub := x.ty.code + 32 * boolNat x.variant, hi := w.toNat }

/-- Three sources. -/
def Vec3.raw (x : Vec3) (maj : Nat) : Raw :=
  match x.imm with
  | none => { (x.com.raw 1 maj).withOut x.out with
      opa := x.a.code, opb := x.b.code, sub := x.ty.code + 32 * boolNat x.variant, hi := x.c.code }
  | some w => { (x.com.raw 2 maj).withOut x.out with
      opa := x.a.code, opb := x.b.code, sub := x.ty.code + 32 * boolNat x.variant,
      hi := packBits [(9, x.c.code), (23, 0), (32, w.toNat)] }

/-- The shifts. -/
def shiftRaw (x : Vec1) (n : ShiftCount) (maj : Nat) : Raw :=
  match n with
  | .op o => { x.raw maj with opb := o.code }
  | .simm k => { x.raw maj with mod := 1, simm := k.toNat }

/-- The memory operand fields, with ORD and OPC. -/
def MemOp.raw (m : MemOp) (c : Com) (maj ord opc : Nat) : Raw :=
  let low : List (Nat × Nat) := [(2, m.scale.toNat), (2, m.space.code), (4, ord)]
  if m.wide then
    { c.raw 2 maj with
        opa := m.base.code, opb := m.index.code, hi := packBits (low ++ [(9, opc), (15, 0), (32, m.off.toNat)]) }
  else
    { c.raw 1 maj with
        opa := m.base.code, opb := m.index.code, hi := packBits (low ++ [(24, m.off.toNat % 2 ^ 24)]) }

/-- The F128-T upper half (R47). -/
def hiT (td ta tb tc tln xctl imm : Nat) : Nat :=
  packBits [(4, td), (4, ta), (4, tb), (4, tc), (4, tln), (12, xctl), (32, imm)]

/-- XCTL and TC of an accumulator source (R215). -/
def AccSrc.xctl : AccSrc → Nat
  | .tile _ => 0 | .inPlace => 1 | .zero => 4
def AccSrc.tc : AccSrc → Nat
  | .tile t => t.toNat | _ => 0

/-- One half of a P96 word, from POP upward (R49). -/
def PairHalf.fields (h : PairHalf) : List (Nat × Nat) :=
  [(6, h.op.code), (9, h.out.dst.code), (9, h.a.code), (9, h.b.code), (1, boolNat h.out.wbs), (2, h.out.lt.toNat),
    (4, if h.op.rounds then 2 * h.rnd.code else 0)]

/-- The fields of a Mermos instruction of one of the layouts of R45 and R47, or none for the filler, NOP, a pair, a
base-die word or an event. -/
def encodeRaw : Instr → Option Raw
  | .bra c o => some { c.raw 1 0x01 with hi := o.toNat }
  | .jmp c t => some { c.raw 2 0x02 with hi := t.toNat }
  | .brx c a => some { c.raw 0 0x03 with opa := a.code }
  | .call c l o => some { c.raw 1 0x04 with dst := l.code, hi := o.toNat }
  | .callr c l a => some { c.raw 0 0x05 with dst := l.code, opa := a.code }
  | .ret c a => some { c.raw 0 0x06 with opa := a.code }
  | .exit c => some (c.raw 0 0x07)
  | .yield c => some (c.raw 0 0x08)
  | .halt c => some (c.raw 0 0x09)
  | .add x => some (x.raw 0x10)
  | .sub x => some (x.raw 0x12)
  | .mul x => some (x.raw 0x14)
  | .mulh x => some (x.raw 0x15)
  | .div x => some (x.raw 0x17)
  | .rem x => some (x.raw 0x18)
  | .min x => some (x.raw 0x19)
  | .max x => some (x.raw 0x1A)
  | .and x => some (x.raw 0x1D)
  | .or x => some (x.raw 0x1E)
  | .xor x => some (x.raw 0x1F)
  | .andn x => some (x.raw 0x21)
  | .bfx x => some (x.raw 0x2B)
  | .fmin x => some (x.raw 0x44)
  | .fmax x => some (x.raw 0x45)
  | .dham x => some (x.raw 0x61)
  | .abs x => some (x.raw 0x1B)
  | .neg x => some (x.raw 0x1C)
  | .not x => some (x.raw 0x20)
  | .clz x => some (x.raw 0x27)
  | .ctz x => some (x.raw 0x28)
  | .popc x => some (x.raw 0x29)
  | .brev x => some (x.raw 0x2A)
  | .mov x => some (x.raw 0x35)
  | .mad x => some (x.raw 0x16)
  | .funnel x => some (x.raw 0x26)
  | .bfi x => some (x.raw 0x2C)
  | .sel x => some (x.raw 0x2D)
  | .bsel x => some (x.raw 0x38)
  | .addc x p f => some { x.raw 0x11 with simm := p.toNat + 8 * boolNat f }
  | .subb x p f => some { x.raw 0x13 with simm := p.toNat + 8 * boolNat f }
  | .shl x k => some (shiftRaw x k 0x22)
  | .shr x k => some (shiftRaw x k 0x23)
  | .sra x k => some (shiftRaw x k 0x24)
  | .rot x k => some (shiftRaw x k 0x25)
  | .cmp x k => some { x.raw 0x2E with mod := k.code }
  | .fcmp x k => some { x.raw 0x46 with mod := k.code }
  | .lea c o m => some ((m.raw c 0x30 0 0).withOut o)
  | .leah c o m => some ((m.raw c 0x31 0 0).withOut o)
  | .swin c o k a => some { (c.raw 0 0x32).withOut o with opa := a.code, sub := boolNat k }
  | .plut c o t a b k => some { (c.raw 1 0x33).withOut o with opa := a.code, opb := b.code, hi := k.code, sub := t.toNat % 64, mod := t.toNat / 64 }
  | .pmovGet c o => some ((c.raw 0 0x34).withOut o)
  | .pmovSet c lt a => some { c.raw 0 0x34 with lt := lt.toNat, opa := a.code, sub := 1 }
  | .movi c o ty i w => some { (c.raw (if w then 2 else 1) 0x36).withOut o with sub := ty.code, hi := i.toNat }
  | .movsReadWp c n d => some { c.raw 0 0x37 with sub := n.toNat, dst := d.code }
  | .movsReadTc c n d => some { c.raw 0 0x37 with sub := 0x10 + n.toNat, dst := d.code }
  | .movsWriteTc c n a => some { c.raw 0 0x37 with sub := 0x20 + n.toNat, opa := a.code }
  | .csrr c n d => some { c.raw 1 0x39 with hi := n.toNat, dst := d.code }
  | .csrw c n a => some { c.raw 1 0x3A with sub := 0, hi := n.toNat, opa := a.code }
  | .csrwSet c n a => some { c.raw 1 0x3A with sub := 1, hi := n.toNat, opa := a.code }
  | .csrwClr c n a => some { c.raw 1 0x3A with sub := 2, hi := n.toNat, opa := a.code }
  | .fadd x k => some { x.raw 0x40 with mod := 8 * k.code }
  | .fsub x k => some { x.raw 0x41 with mod := 8 * k.code }
  | .fmul x k => some { x.raw 0x42 with mod := 8 * k.code }
  | .ffma x k => some { x.raw 0x43 with mod := 8 * k.code }
  | .fscale x k => some { x.raw 0x48 with mod := 8 * k.code }
  | .frnd x k => some { x.raw 0x49 with mod := 8 * k.code }
  | .fclass x r e => some { x.raw 0x47 with mod := r.code, simm := e.toNat }
  | .cvt x s k r => some { x.raw 0x4A with mod := 8 * k.code + r.code, simm := s.code }
  | .pack x k r => some { x.raw 0x4B with mod := 8 * k.code + r.code }
  | .unpack x r e => some { x.raw 0x4C with mod := r.code, simm := e.toNat }
  | .bscale x r => some { x.raw 0x4D with mod := r.code }
  | .tblLoad c w t d m => some { m.raw c 0x50 0 0 with dst := d.code, sub := t.toNat + 16 * boolNat w }
  | .tblCommit c t d => some { c.raw 0 0x51 with dst := d.code, sub := t.toNat }
  | .tblEval c ty k t d a => some { c.raw 0 0x52 with dst := d.code, opa := a.code, sub := ty.code, mod := 8 * k.code, simm := t.toNat }
  | .tblQuery c v t d => some { c.raw 0 0x53 with dst := d.code, sub := t.toNat + 16 * boolNat v }
  | .tblDrop c v t => some { c.raw 0 0x54 with sub := t.toNat + 16 * boolNat v }
  | .shfl c f k w d a m => some { c.raw 1 0x58 with dst := d.code, opa := a.code, sub := k.toNat + 32 * boolNat w, mod := f.code, hi := m.toNat }
  | .vote c f d a m => some { c.raw 1 0x59 with dst := d.code, opa := a.code, mod := f.code, hi := m.toNat }
  | .matchKey c w d a m => some { c.raw 1 0x5A with dst := d.code, opa := a.code, sub := 32 * boolNat w, hi := m.toNat }
  | .sred c o d a m => some { c.raw 1 0x5B with dst := d.code, opa := a.code, sub := o.code, hi := m.toNat }
  | .sscan c o e d a m => some { c.raw 1 0x5C with dst := d.code, opa := a.code, sub := o.code, mod := boolNat e, hi := m.toNat }
  | .ssync c m => some { c.raw 1 0x5D with hi := m.toNat }
  | .ddot c o x ua ub s a b k => some { (c.raw 1 0x60).withOut o with opa := a.code, opb := b.code, hi := k.code, sub := boolNat x + 2 * boolNat ua + 4 * boolNat ub, mod := boolNat s }
  | .dl2 c o k r a b e => some { (c.raw 1 0x62).withOut o with opa := a.code, opb := b.code, hi := e.code, sub := 0x0E, mod := 8 * k.code + r.code }
  | .selInit c k mx n d a => some { c.raw 0 0x63 with dst := d.code, opa := a.code, sub := n.toNat + 4 * k.code + 16 * boolNat mx }
  | .selPush c n a b => some { c.raw 0 0x64 with opa := a.code, opb := b.code, sub := n.toNat }
  | .selDrain c f n d a => some { c.raw 0 0x65 with dst := d.code, opa := a.code, sub := n.toNat + (match f with | .plain => 0 | .cnt => 4 | .fin => 16) }
  | .tcfg c t (.op a) => some { c.raw 2 0x68 with opa := a.code, sub := 1, hi := hiT t.toNat 0 0 0 0 0 0 }
  | .tcfg c t (.imm w) => some { c.raw 2 0x68 with hi := hiT t.toNat 0 0 0 0 0 w.toNat }
  | .tzero c al t d => some { c.raw 2 0x69 with dst := d.code, sub := boolNat al, hi := hiT t.toNat 0 0 0 0 0 0 }
  | .tld c t d r o => some { c.raw 2 0x6A with dst := d.code, opa := r.code, opb := o.code, hi := hiT t.toNat 0 0 0 0 0 0 }
  | .tst c t k s d r o => some { c.raw 2 0x6B with dst := d.code, opa := r.code, opb := o.code, hi := hiT 0 t.toNat 0 0 0 (k.code + 8 * boolNat s) 0 }
  | .mma c td ta tb cs acc s k d => some { c.raw 2 0x6C with dst := d.code, opa := (match s with | none => 0 | some o => o.code), hi := hiT td.toNat ta.toNat tb.toNat cs.tc 0 (cs.xctl + 2 * boolNat s.isSome + 8 * acc.code) k.toNat }
  | .mmat c td ta tb cs k d => some { c.raw 2 0x6D with dst := d.code, hi := hiT td.toNat ta.toNat tb.toNat cs.tc 0 cs.xctl k.toNat }
  | .mmap c td ta d r => some { c.raw 2 0x6E with dst := d.code, opa := r.code, hi := hiT td.toNat ta.toNat 0 0 0 0 0 }
  | .trow c f t d o i => some { c.raw 2 0x6F with dst := if f.code % 2 = 0 then d.code else 0, opa := if f.code % 2 = 1 then d.code else 0, opb := o.code, sub := f.code, hi := hiT t.toNat 0 0 0 0 0 i.toNat }
  | .tchk c k d => some { c.raw 2 0x70 with dst := d.code, sub := boolNat k }
  | .ld c ty q o d m => some { m.raw c 0x78 o.ord 0 with dst := d.code, sub := ty.code + 32 * boolNat q, mod := o.scope }
  | .st c ty q o d m => some { m.raw c 0x79 o.ord 0 with dst := d.code, sub := ty.code + 32 * boolNat q, mod := o.scope }
  | .ldg c ty k o d m => some { m.raw c 0x7A o.ord 0 with dst := d.code, sub := ty.code, mod := k.toNat }
  | .sct c ty k o d m => some { m.raw c 0x7B o.ord 0 with dst := d.code, sub := ty.code, mod := k.toNat }
  | .atom c op ty o d k m => some { m.raw c 0x7C o.ord k.code with dst := d.code, sub := ty.code, mod := 8 * op.code + o.scope }
  | .red c op ty o d m => some { m.raw c 0x7D o.ord 0 with dst := d.code, sub := ty.code, mod := 8 * op.code + o.scope }
  | .amaxsw c o d m => some { m.raw c 0x7E o.ord 0 with dst := d.code, sub := 0x0B, mod := o.scope }
  | .fence c k s => some { c.raw 0 0x7F with sub := k.code, mod := s.code }
  | .cctlIi c m => some (m.raw c 0x80 0 0)
  | .cctlEv c m => some { m.raw c 0x80 0 0 with sub := 1 }
  | .pref c t m => some { m.raw c 0x81 0 0 with sub := t.code }
  | .stashMap c o n m => some { m.raw c 0x82 0 n.code with dst := o.code }
  | .stashMapUn c o n => some { c.raw 2 0x82 with dst := o.code, sub := 1, hi := packBits [(8, 0), (9, n.code)] }
  | .stashSync c v => some { c.raw 0 0x83 with sub := boolNat v }
  | .racew c w off l m => some { m.raw c 0x84 0 0 with dst := l.code, sub := w.toNat + 8 * boolNat off }
  | .copy c d sp r ch bx n t a b => some { c.raw 2 0x88 with dst := t.code, opa := a.code, opb := b.code, sub := d.code + 4 * sp.code, mod := boolNat r, hi := hiT 0 0 0 0 ch.toNat bx.toNat n.toNat }
  | .copyt c st cl r ch bx n t a b => some { c.raw 2 0x89 with dst := t.code, opa := a.code, opb := b.code, sub := boolNat st + 2 * boolNat cl, mod := boolNat r, hi := hiT 0 0 0 0 ch.toNat bx.toNat n.toNat }
  | .copyg c d sp r ch bx rb nr t a b => some { c.raw 2 0x8A with dst := t.code, opa := a.code, opb := b.code, sub := d.code + 4 * sp.code, mod := boolNat r, hi := hiT 0 0 0 0 ch.toNat bx.toNat (rb.toNat + 65536 * nr.toNat) }
  | .stage c a i => some { c.raw 2 0x8B with opa := a.code, hi := hiT 0 0 0 0 0 0 i.toNat }
  | .barInit c l r s m => some { m.raw c 0x8C 0 0 with dst := s.code, sub := boolNat l + 2 * boolNat r }
  | .barArrive c u d m => some { m.raw c 0x8D 0 0 with dst := d.code, sub := boolNat u }
  | .barExpect c u d n m => some { m.raw c 0x8E 0 n.code with dst := d.code, sub := boolNat u }
  | .barWait c s m => some { m.raw c 0x8F 0 0 with dst := s.code }
  | .barTest c d m => some { m.raw c 0x90 0 0 with dst := d.code }
  | .tlwait c t a i => some { c.raw 2 0x91 with opa := a.code, hi := hiT 0 0 0 0 t.toNat 0 i.toNat }
  | .tlread c f t d => some { c.raw 2 0x92 with dst := d.code, sub := (match f with | .done => 0 | .iss => 1 | .fail => 2), hi := hiT 0 0 0 0 t.toNat 0 0 }
  | .tlsig c n t a i => some { c.raw 2 0x93 with opa := a.code, sub := boolNat n, hi := hiT 0 0 0 0 t.toNat 0 i.toNat }
  | .waitm c m => some { c.raw 1 0x94 with hi := m.toNat }
  | .launch c d a b => some { c.raw 0 0x98 with dst := d.code, opa := a.code, opb := b.code }
  | .graphRun c d a b => some { c.raw 0 0x99 with dst := d.code, opa := a.code, opb := b.code }
  | .graphPatch c a b d => some { c.raw 1 0x9A with dst := 0x150, opa := a.code, opb := b.code, hi := d.code }
  | .collStart c d a => some { c.raw 0 0xA0 with dst := d.code, opa := a.code }
  | .nbLoad c al d a b e => some { c.raw 1 0xA1 with dst := d.code, opa := a.code, opb := b.code, sub := boolNat al, hi := e.code }
  | .nbRun c d a b e => some { c.raw 1 0xA2 with dst := d.code, opa := a.code, opb := b.code, hi := e.code }
  | .ferryLoad c d a b e => some { c.raw 1 0xA3 with dst := d.code, opa := a.code, opb := b.code, hi := e.code }
  | .ferryBind c d a b e => some { c.raw 1 0xA4 with dst := d.code, opa := a.code, opb := b.code, hi := e.code }
  | .ferryUnbind c d a b => some { c.raw 0 0xA5 with dst := d.code, opa := a.code, opb := b.code }
  | .ferryUnbindKern c d a b => some { c.raw 0 0xA5 with dst := d.code, opa := a.code, opb := b.code, sub := 1 }
  | .trap c n d a => some { c.raw 0 0xB0 with dst := d.code, opa := a.code, simm := n.toNat }
  | .tretRep c d a b => some { c.raw 0 0xB1 with dst := d.code, opa := a.code, opb := b.code, sub := 0 }
  | .tretSkip c d a b => some { c.raw 0 0xB1 with dst := d.code, opa := a.code, opb := b.code, sub := 1 }
  | .tretKill c d a b => some { c.raw 0 0xB1 with dst := d.code, opa := a.code, opb := b.code, sub := 2 }
  | .tretCan c d a b => some { c.raw 0 0xB1 with dst := d.code, opa := a.code, opb := b.code, sub := 3 }
  | .tretKillb c d a b => some { c.raw 0 0xB1 with dst := d.code, opa := a.code, opb := b.code, sub := 4 }
  | .tretPre c d a b => some { c.raw 0 0xB1 with dst := d.code, opa := a.code, opb := b.code, sub := 5 }
  | .moor c d => some { c.raw 0 0xB2 with dst := d.code }
  | .tlbiVa c a b => some { c.raw 1 0xB3 with opa := a.code, opb := b.code }
  | .tlbiAll c => some { c.raw 1 0xB3 with sub := 1 }
  | .harvest c d a => some { c.raw 0 0xB4 with dst := d.code, opa := a.code }
  | .scrub c r d a b => some { c.raw 1 0xB5 with dst := d.code, opa := a.code, opb := b.code, sub := boolNat r }
  | .evpost c f n d a => some { c.raw 1 0xB6 with dst := d.code, opa := a.code, sub := boolNat f, hi := n.toNat }
  | _ => none

/-- The bits of a Mermos instruction (R39). -/
def encodeBits : Instr → Option Nat
  | .filler => some 3
  | .nop => some 0x7000
  | .pairP96 com ha hb =>
    some (packBits ([(2, 1), (1, boolNat com.chain), (1, 0), (8, 0xFF), (3, com.guardPred.toNat),
      (1, boolNat com.guardNeg)] ++ ha.fields ++ hb.fields))
  | i => (encodeRaw i).map Raw.bits

/-- The bytes of a Mermos instruction, as they lie in memory (R39). -/
def encode (i : Instr) : Option (List Byte) :=
  (encodeBits i).map fun w => bytesOfNat (lenBytes (w % 4)) w

/-! ### Ferry words (R405, R407) -/

/-- The codes of the ferry fields, in code order. -/
def ferryTys : List FTy := [.i32, .f32, .i16, .bf16]
def ferryRnds : List FRnd := [.rn, .rz, .ru, .rd]
def fvConds : List FvCond := [.eq, .ne, .lt, .le, .ltu, .leu, .un]
def fvCvts : List FvCvt := [.f32i32, .i32f32, .bf16f32, .f32bf16lo, .f32bf16hi]
def fvReds : List FvRed := [.add, .min, .max]
def fbConds : List FbCond := [.eq, .ne, .lt, .ge, .ltu, .geu, .always]
def fmConds : List FmCond := [.any, .none, .all, .notall]
def pktFields : List PktField := [.dpkg, .dstk, .imml, .immh, .ndf]

def FTy.code : FTy → Nat
  | .i32 => 0
  | .f32 => 1
  | .i16 => 2
  | .bf16 => 3

def FRnd.code : FRnd → Nat
  | .rn => 0
  | .rz => 1
  | .ru => 2
  | .rd => 3

def FvCond.code : FvCond → Nat
  | .eq => 0
  | .ne => 1
  | .lt => 2
  | .le => 3
  | .ltu => 4
  | .leu => 5
  | .un => 6

def FvCvt.code : FvCvt → Nat
  | .f32i32 => 0
  | .i32f32 => 1
  | .bf16f32 => 2
  | .f32bf16lo => 3
  | .f32bf16hi => 4

def FvRed.code : FvRed → Nat
  | .add => 0
  | .min => 1
  | .max => 2

def FbCond.code : FbCond → Nat
  | .eq => 0
  | .ne => 1
  | .lt => 2
  | .ge => 3
  | .ltu => 4
  | .geu => 5
  | .always => 6

def FmCond.code : FmCond → Nat
  | .any => 0
  | .none => 1
  | .all => 2
  | .notall => 3

def PktField.code : PktField → Nat
  | .dpkg => 0
  | .dstk => 1
  | .imml => 2
  | .immh => 3
  | .ndf => 4

/-- The fields of the FV layout, and by their places those of the other layouts (R405). -/
structure FvRaw where
  d : Fin 16
  a : Fin 16
  b : Fin 16
  m : Fin 4
  sub : Nat
  ty : Nat
  deriving DecidableEq, Repr

def FvRaw.ofBits (w : Nat) : FvRaw where
  d := Fin.ofNat 16 (bitsOf w 25 22)
  a := Fin.ofNat 16 (bitsOf w 21 18)
  b := Fin.ofNat 16 (bitsOf w 17 14)
  m := Fin.ofNat 4 (bitsOf w 13 12)
  sub := bitsOf w 11 9
  ty := bitsOf w 8 7

/-- RND of SUB bits 11:10, where an arithmetic instruction has it (R409). -/
def FvRaw.rnd (r : FvRaw) : Option FRnd := ferryRnds[r.sub / 2]?

/-- The vector instructions. The word's bits 6:0 have been found 0. -/
def decodeFv (op : Nat) (r : FvRaw) : Dec Instr :=
  let one := r.sub % 2 == 1
  let noSub := r.sub == 0
  let flt := r.ty == 1
  pick ferryTys[r.ty]? .type fun ty => pick r.rnd .modifier fun rnd =>
  match op with
  | 0x01 => fin (.vadd r.d r.a r.b r.m one rnd ty)
  | 0x02 => fin (.vsub r.d r.a r.b r.m one rnd ty)
  | 0x03 => need (!one) .reserved (fin (.vmul r.d r.a r.b r.m rnd ty))
  | 0x04 => need (!one) .reserved (fin (.vfma r.d r.a r.b r.m rnd ty))
  | 0x05 => need noSub .reserved (fin (.vmin r.d r.a r.b r.m ty))
  | 0x06 => need noSub .reserved (fin (.vmax r.d r.a r.b r.m ty))
  | 0x07 => need (noSub && r.ty == 0) .reserved (fin (.vand r.d r.a r.b r.m))
  | 0x08 => need (noSub && r.ty == 0) .reserved (fin (.vor r.d r.a r.b r.m))
  | 0x09 => need (noSub && r.ty == 0) .reserved (fin (.vxor r.d r.a r.b r.m))
  | 0x0A => need (noSub && r.ty % 2 == 0) .reserved (fin (.vshl r.d r.a r.b r.m (r.ty == 2)))
  | 0x0B => need (decide (r.sub < 2) && r.ty % 2 == 0) .reserved (fin (.vshr r.d r.a r.b r.m one (r.ty == 2)))
  | 0x0C => need (decide (r.sub < 4) && r.ty == 0) .reserved (fin (.vsel r.d r.a r.b r.m (Fin.ofNat 4 r.sub)))
  | 0x0D =>
    need (decide (r.d.val < 4) && decide (r.ty < 2)) .reserved
      (pick fvConds[r.sub]? .modifier fun c => fin (.vcmp (Fin.ofNat 4 r.d.val) r.a r.b r.m c flt))
  | 0x0E => need (r.ty == 0) .reserved (pick fvCvts[r.sub]? .modifier fun f => fin (.vcvt r.d r.a r.b r.m f))
  | 0x0F => need (noSub && r.ty == 0 && r.b == 0) .reserved (fin (.vbcast r.d r.a r.m))
  | 0x10 =>
    need (decide (r.ty < 2) && r.b == 0 && decide (r.sub < 4)) .reserved
      (pick fvReds[r.sub]? .modifier fun f => fin (.vred r.d r.a r.m f flt))
  | 0x11 => need (decide (r.sub < 2) && r.ty % 2 == 1 && r.b == 0) .reserved
      (fin (.feval r.d r.a r.m one (r.ty == 3)))
  | _ => .error .unassigned

/-- Operand B of the FS layout, where bit 17 is I (R405). -/
def ferrySrc (w : Nat) : Dec FSrc :=
  if bitsOf w 17 17 == 1 then need (bitsOf w 16 16 == 0) .reserved (.ok (.imm (Fin.ofNat 65536 w)))
  else need (bitsOf w 12 0 == 0) .reserved (.ok (.reg (Fin.ofNat 16 (bitsOf w 16 13))))

/-- A scalar instruction of two sources. -/
def decodeFs (w : Nat) (k : Fin 16 → Fin 16 → FSrc → Instr) : Dec Instr :=
  match ferrySrc w with
  | .ok b => fin (k (Fin.ofNat 16 (bitsOf w 25 22)) (Fin.ofNat 16 (bitsOf w 21 18)) b)
  | .error e => .error e

/-- A window or state instruction. -/
def decodeFm (w : Nat) (k : Fin 16 → Fin 16 → Bool → Fin 4096 → Instr) : Dec Instr :=
  need (bitsOf w 16 12 == 0) .reserved
    (fin (k (Fin.ofNat 16 (bitsOf w 25 22)) (Fin.ofNat 16 (bitsOf w 21 18)) (bitsOf w 17 17 == 1) (Fin.ofNat 4096 w)))

/-- A ferry word (R405, R407). -/
def decodeFerry (w : Nat) : Dec Instr :=
  let op := bitsOf w 31 26
  let a := Fin.ofNat 16 (bitsOf w 25 22)
  let b := Fin.ofNat 16 (bitsOf w 21 18)
  let rest := bitsOf w 25 0
  match op with
  | 0x18 => decodeFs w .sadd
  | 0x19 => decodeFs w .ssub
  | 0x1A => decodeFs w .sand
  | 0x1B => decodeFs w .sor
  | 0x1C => decodeFs w .sshl
  | 0x1D => decodeFs w .sshr
  | 0x1E => need (bitsOf w 21 18 == 0 && bitsOf w 16 16 == 0) .reserved
      (fin (.smovi a (bitsOf w 17 17 == 1) (Fin.ofNat 65536 w)))
  | 0x20 => need (bitsOf w 14 10 == 0) .reserved
      (pick fbConds[bitsOf w 17 15]? .modifier fun c => fin (.br c a b (Fin.ofNat 1024 w)))
  | 0x21 => need (bitsOf w 14 10 == 0 && b == 0 && bitsOf w 25 24 == 0) .reserved
      (pick fmConds[bitsOf w 17 15]? .modifier fun c => fin (.brm c (Fin.ofNat 4 a.val) (Fin.ofNat 1024 w)))
  | 0x22 => need (bitsOf w 10 10 == 0 && (bitsOf w 15 15 == 1 || bitsOf w 14 11 == 0)) .reserved
      (fin (.rep (Fin.ofNat 1024 (bitsOf w 25 16))
        (if bitsOf w 15 15 == 1 then some (Fin.ofNat 16 (bitsOf w 14 11)) else none) (Fin.ofNat 1024 w)))
  | 0x23 => need (bitsOf w 21 6 == 0) .reserved (fin (.ftrap a (Fin.ofNat 64 w)))
  | 0x24 => need (rest == 0) .reserved (fin .fwd)
  | 0x25 => need (rest == 0) .reserved (fin .drop)
  | 0x26 => need (rest == 0) .reserved (fin .emit)
  | 0x27 => need (bitsOf w 18 0 == 0) .reserved (pick pktFields[bitsOf w 21 19]? .modifier fun f => fin (.pset a f))
  | 0x28 => decodeFm w .pld
  | 0x29 => decodeFm w .pst
  | 0x2A => decodeFm w .sld
  | 0x2B => decodeFm w .sst
  | _ => need (bitsOf w 6 0 == 0) .reserved (decodeFv op (FvRaw.ofBits w))

/-- The bits of the FV layout. -/
def fvBits (op d a b m sub ty : Nat) : Nat :=
  packBits [(7, 0), (2, ty), (3, sub), (2, m), (4, b), (4, a), (4, d), (6, op)]

/-- The bits of the FS layout with two sources. -/
def fsBits (op : Nat) (d a : Fin 16) : FSrc → Nat
  | .reg b => packBits [(13, 0), (4, b.val), (1, 0), (4, a.val), (4, d.val), (6, op)]
  | .imm w => packBits [(16, w.val), (1, 0), (1, 1), (4, a.val), (4, d.val), (6, op)]

/-- The bits of the FM layout. -/
def fmBits (op : Nat) (d a : Fin 16) (v : Bool) (off : Fin 4096) : Nat :=
  packBits [(12, off.val), (5, 0), (1, boolNat v), (4, a.val), (4, d.val), (6, op)]

/-- The bits of a ferry word (R405, R407). -/
def encodeFerry : Instr → Option Nat
  | .vadd d a b m sat r t => some (fvBits 0x01 d a b m (boolNat sat + 2 * r.code) t.code)
  | .vsub d a b m sat r t => some (fvBits 0x02 d a b m (boolNat sat + 2 * r.code) t.code)
  | .vmul d a b m r t => some (fvBits 0x03 d a b m (2 * r.code) t.code)
  | .vfma d a b m r t => some (fvBits 0x04 d a b m (2 * r.code) t.code)
  | .vmin d a b m t => some (fvBits 0x05 d a b m 0 t.code)
  | .vmax d a b m t => some (fvBits 0x06 d a b m 0 t.code)
  | .vand d a b m => some (fvBits 0x07 d a b m 0 0)
  | .vor d a b m => some (fvBits 0x08 d a b m 0 0)
  | .vxor d a b m => some (fvBits 0x09 d a b m 0 0)
  | .vshl d a b m h => some (fvBits 0x0A d a b m 0 (2 * boolNat h))
  | .vshr d a b m s h => some (fvBits 0x0B d a b m (boolNat s) (2 * boolNat h))
  | .vsel d a b m s => some (fvBits 0x0C d a b m s 0)
  | .vcmp d a b m c f => some (fvBits 0x0D d a b m c.code (boolNat f))
  | .vcvt d a b m f => some (fvBits 0x0E d a b m f.code 0)
  | .vbcast d a m => some (fvBits 0x0F d a 0 m 0 0)
  | .vred d a m o f => some (fvBits 0x10 d a 0 m o.code (boolNat f))
  | .feval d a m t h => some (fvBits 0x11 d a 0 m (boolNat t) (1 + 2 * boolNat h))
  | .sadd d a b => some (fsBits 0x18 d a b)
  | .ssub d a b => some (fsBits 0x19 d a b)
  | .sand d a b => some (fsBits 0x1A d a b)
  | .sor d a b => some (fsBits 0x1B d a b)
  | .sshl d a b => some (fsBits 0x1C d a b)
  | .sshr d a b => some (fsBits 0x1D d a b)
  | .smovi d h i => some (packBits [(16, i.val), (1, 0), (1, boolNat h), (4, 0), (4, d.val), (6, 0x1E)])
  | .br c a b n => some (packBits [(10, n.val), (5, 0), (3, c.code), (4, b.val), (4, a.val), (6, 0x20)])
  | .brm c m n => some (packBits [(10, n.val), (5, 0), (3, c.code), (4, 0), (2, m.val), (2, 0), (6, 0x21)])
  | .rep n none l => some (packBits [(10, l.val), (1, 0), (4, 0), (1, 0), (10, n.val), (6, 0x22)])
  | .rep n (some x) l => some (packBits [(10, l.val), (1, 0), (4, x.val), (1, 1), (10, n.val), (6, 0x22)])
  | .ftrap a c => some (packBits [(6, c.val), (16, 0), (4, a.val), (6, 0x23)])
  | .fwd => some (packBits [(26, 0), (6, 0x24)])
  | .drop => some (packBits [(26, 0), (6, 0x25)])
  | .emit => some (packBits [(26, 0), (6, 0x26)])
  | .pset a f => some (packBits [(19, 0), (3, f.code), (4, a.val), (6, 0x27)])
  | .pld d a v o => some (fmBits 0x28 d a v o)
  | .pst d a v o => some (fmBits 0x29 d a v o)
  | .sld d a v o => some (fmBits 0x2A d a v o)
  | .sst d a v o => some (fmBits 0x2B d a v o)
  | _ => none

/-! ### Near-bank words (R421, R422) -/

def nbTys : List NbTy := [.f32, .i32, .bf16]
def nbConds : List NbCond := [.every, .first, .rowend, .last]

def NbTy.code : NbTy → Nat
  | .f32 => 0
  | .i32 => 1
  | .bf16 => 2

def NbCond.code : NbCond → Nat
  | .every => 0
  | .first => 1
  | .rowend => 2
  | .last => 3

/-- The fields of a micro-operation (R421). -/
structure NbRaw where
  d : Fin 4
  a : Fin 4
  b : Fin 4
  k : Nat
  ty : Nat
  rnd : Nat
  s : Fin 4
  deriving DecidableEq, Repr

def NbRaw.ofBits (w : Nat) : NbRaw where
  d := Fin.ofNat 4 (bitsOf w 27 26)
  a := Fin.ofNat 4 (bitsOf w 25 24)
  b := Fin.ofNat 4 (bitsOf w 23 22)
  k := bitsOf w 21 21
  ty := bitsOf w 20 19
  rnd := bitsOf w 18 17
  s := Fin.ofNat 4 (bitsOf w 16 15)

/-- An arithmetic micro-operation with D, A, B, BK, TY, RND. -/
def NbRaw.arith (r : NbRaw) (c : NbCond) (k : Fin 4 → Fin 4 → Fin 4 → Bool → NbTy → FRnd → NbCond → Instr) :
    Dec Instr :=
  need (r.s == 0) .reserved (pick nbTys[r.ty]? .type fun ty => pick ferryRnds[r.rnd]? .modifier fun rnd =>
    fin (k r.d r.a r.b (r.k == 1) ty rnd c))

/-- NBMIN and NBMAX: RND is res0. -/
def NbRaw.minMax (r : NbRaw) (c : NbCond) (k : Fin 4 → Fin 4 → Fin 4 → Bool → NbTy → NbCond → Instr) : Dec Instr :=
  need (r.s == 0 && r.rnd == 0) .reserved (pick nbTys[r.ty]? .type fun ty => fin (k r.d r.a r.b (r.k == 1) ty c))

/-- A near-bank word (R421, R422). -/
def decodeNb (w : Nat) : Dec Instr :=
  let r := NbRaw.ofBits w
  need (bitsOf w 12 0 == 0) .reserved (pick nbConds[bitsOf w 14 13]? .modifier fun c =>
  match bitsOf w 31 28 with
  | 0x0 => need (bitsOf w 27 15 == 0) .reserved (fin (.nbnop c))
  | 0x1 => need (bitsOf w 25 17 == 0) .reserved (fin (.nbld r.d r.s c))
  | 0x2 => need (r.d == 0 && bitsOf w 23 17 == 0) .reserved (fin (.nbst r.a r.s c))
  | 0x3 => need (bitsOf w 25 15 == 0) .reserved (fin (.nbzero r.d c))
  | 0x4 => r.arith c .nbadd
  | 0x5 => r.arith c .nbsub
  | 0x6 => r.arith c .nbmul
  | 0x7 => r.arith c .nbfma
  | 0x8 => r.minMax c .nbmin
  | 0x9 => r.minMax c .nbmax
  | 0xA => need (r.b == 0 && r.k == 0 && r.s == 0) .reserved (pick nbTys[r.ty]? .type fun ty =>
      pick ferryRnds[r.rnd]? .modifier fun rnd => fin (.nbfold r.d r.a ty rnd c))
  | 0xB => need (r.d == 0 && bitsOf w 21 15 == 0) .reserved (fin (.nbout r.a r.b c))
  | _ => .error .unassigned)

/-- The bits of a micro-operation. -/
def nbBits (op d a b k ty rnd s c : Nat) : Nat :=
  packBits [(13, 0), (2, c), (2, s), (2, rnd), (2, ty), (1, k), (2, b), (2, a), (2, d), (4, op)]

def encodeNb : Instr → Option Nat
  | .nbnop c => some (nbBits 0x0 0 0 0 0 0 0 0 c.code)
  | .nbld d s c => some (nbBits 0x1 d 0 0 0 0 0 s c.code)
  | .nbst a s c => some (nbBits 0x2 0 a 0 0 0 0 s c.code)
  | .nbzero d c => some (nbBits 0x3 d 0 0 0 0 0 0 c.code)
  | .nbadd d a b k t r c => some (nbBits 0x4 d a b (boolNat k) t.code r.code 0 c.code)
  | .nbsub d a b k t r c => some (nbBits 0x5 d a b (boolNat k) t.code r.code 0 c.code)
  | .nbmul d a b k t r c => some (nbBits 0x6 d a b (boolNat k) t.code r.code 0 c.code)
  | .nbfma d a b k t r c => some (nbBits 0x7 d a b (boolNat k) t.code r.code 0 c.code)
  | .nbmin d a b k t c => some (nbBits 0x8 d a b (boolNat k) t.code 0 0 c.code)
  | .nbmax d a b k t c => some (nbBits 0x9 d a b (boolNat k) t.code 0 0 c.code)
  | .nbfold d a t r c => some (nbBits 0xA d a 0 0 t.code r.code 0 c.code)
  | .nbout a b c => some (nbBits 0xB 0 a b 0 0 0 0 c.code)
  | _ => none

/-! ### Words as the opcode table numbers them -/

/-- Whether a 32-bit word is taken as a near-bank word: it is no ferry word, or it is a BR of displacement 0, which no
kernel that the loader accepts holds (R399). The two sets use the same 32-bit words, each in its own images. DESIGN CHOICE,
log 63. -/
def isNbWord (w : Nat) : Bool :=
  match decodeFerry w with
  | .ok (.br _ _ _ n) => decide (n.val = 0) && (decodeNb w).isOk
  | .ok _ => false
  | .error _ => (decodeNb w).isOk

/-- The instruction of a word as the opcode table numbers its bits: 32-bit words are ferry and near-bank words, longer
ones Mermos instructions. -/
def decodeTableWord (nbits w : Nat) : Option Instr :=
  if nbits = 32 then
    (if isNbWord w then decodeNb w else decodeFerry w).toOption
  else (decodeWord w).toOption

end Sys2Proof
end

