-- ==== Sys2Proof/Machine/Formats.lean ====
section
/-! DEFINITION. Number formats and exact arithmetic (R75 to R95): decoding an encoding into its exact value,
`roundTo`, the arithmetic operations, conversions and classes. -/

namespace Sys2Proof.Machine

/-- The binary floating-point formats of R75 and R79. -/
inductive Fmt where
  | f64 | f32 | bf16 | f16 | e4m3 | e5m2 | e2m1
  deriving DecidableEq, Repr

/-- Encoded width in bits. -/
def Fmt.width : Fmt → Nat
  | .f64 => 64 | .f32 => 32 | .bf16 => 16 | .f16 => 16 | .e4m3 => 8 | .e5m2 => 8 | .e2m1 => 4

/-- Fraction width. -/
def Fmt.m : Fmt → Nat
  | .f64 => 52 | .f32 => 23 | .bf16 => 7 | .f16 => 10 | .e4m3 => 3 | .e5m2 => 2 | .e2m1 => 1

/-- Exponent bias. -/
def Fmt.bias : Fmt → Nat
  | .f64 => 1023 | .f32 => 127 | .bf16 => 127 | .f16 => 15 | .e4m3 => 7 | .e5m2 => 15 | .e2m1 => 1

/-- A narrow format, whose operands take a special-value reading (R78). -/
def Fmt.narrow : Fmt → Bool
  | .e4m3 | .e5m2 | .e2m1 => true
  | _ => false

/-- The reading that applies: wide formats are IEEE-style (R76). -/
def Fmt.readingOf (f : Fmt) (r : Reading) : Reading := if f.narrow then r else .ieee

/-- Exponent of the smallest normal value. -/
def Fmt.emin (f : Fmt) : Int := 1 - (f.bias : Int)

/-- The exponent field with every bit set. -/
def Fmt.topExp (f : Fmt) : Nat := 2 ^ (f.width - 1 - f.m) - 1

/-- The largest finite code, sign bit clear, under a reading (R75, R79). -/
def Fmt.maxCode (f : Fmt) (r : Reading) : Nat :=
  match f.readingOf r with
  | .finiteOnly => 2 ^ (f.width - 1) - 1
  | .nanOnly => 2 ^ (f.width - 1) - 2
  | .ieee => f.topExp * 2 ^ f.m - 1

/-- The flags of FPCSR (R26, R94). -/
structure Flags where
  nv : Bool
  of : Bool
  uf : Bool
  nx : Bool
  sat : Bool
  deriving DecidableEq, Repr

/-- No flag. -/
abbrev Flags.none : Flags := ⟨false, false, false, false, false⟩

/-- NV alone. -/
abbrev Flags.invalid : Flags := ⟨true, false, false, false, false⟩

/-- SAT alone. -/
abbrev Flags.saturated : Flags := ⟨false, false, false, false, true⟩

/-- NX alone. -/
abbrev Flags.inexact : Flags := ⟨false, false, false, true, false⟩

/-- Flags of two events of one instruction (R94, R95). -/
def Flags.or (a b : Flags) : Flags :=
  ⟨a.nv || b.nv, a.of || b.of, a.uf || b.uf, a.nx || b.nx, a.sat || b.sat⟩

/-- Flags as FPCSR bits 4:0 (R26). -/
def Flags.bits (f : Flags) : Nat :=
  boolNat f.nv + 2 * boolNat f.of + 4 * boolNat f.uf + 8 * boolNat f.nx + 16 * boolNat f.sat

/-- NV where a condition holds. -/
def Flags.nvIf (b : Bool) : Flags := ⟨b, false, false, false, false⟩

/-- The exact value of an encoding (R76, R79): a signed zero; a finite value `man × 2 ^ exp` with a sign; an
infinity; a NaN with its sign, quiet bit and payload, the payload held left-aligned in 51 bits (R89). -/
inductive FVal where
  | zero (neg : Bool)
  | fin (neg : Bool) (man : Nat) (exp : Int)
  | inf (neg : Bool)
  | nan (neg quiet : Bool) (payload : Nat)
  deriving DecidableEq, Repr

/-- The value of encoding `x` of format `f` under reading `r` (R76, R79). -/
def FVal.ofBits (f : Fmt) (r : Reading) (x : Nat) : FVal :=
  let neg := x.testBit (f.width - 1)
  let mag := x % 2 ^ (f.width - 1)
  let frac := mag % 2 ^ f.m
  let e := mag / 2 ^ f.m
  let rd := f.readingOf r
  if rd = .ieee ∧ e = f.topExp then
    if frac = 0 then .inf neg
    else
      let q := frac.testBit (f.m - 1)
      .nan neg q ((frac % 2 ^ (f.m - 1)) * 2 ^ (51 - (f.m - 1)))
  else if rd = .nanOnly ∧ mag = 2 ^ (f.width - 1) - 1 then .nan neg true 0
  else if mag = 0 then .zero neg
  else if e = 0 then .fin neg frac (f.emin - (f.m : Int))
  else .fin neg (2 ^ f.m + frac) ((e : Int) - (f.bias : Int) - (f.m : Int))

/-- A value is a NaN. -/
def FVal.isNan : FVal → Bool
  | .nan .. => true
  | _ => false

/-- A value is a signalling NaN. -/
def FVal.isSnan : FVal → Bool
  | .nan _ q _ => !q
  | _ => false

/-- The sign of a value. -/
def FVal.neg : FVal → Bool
  | .zero n | .fin n _ _ | .inf n | .nan n _ _ => n

/-- The value with the other sign. -/
def FVal.negate : FVal → FVal
  | .zero n => .zero (!n)
  | .fin n m e => .fin (!n) m e
  | .inf n => .inf (!n)
  | .nan n q p => .nan (!n) q p

/-- The magnitude. -/
def FVal.abs : FVal → FVal
  | .zero _ => .zero false
  | .fin _ m e => .fin false m e
  | .inf _ => .inf false
  | .nan _ q p => .nan false q p

/-- An integer as an exact value. -/
def FVal.ofInt (x : Int) : FVal :=
  if x = 0 then .zero false else .fin (decide (x < 0)) x.natAbs 0

/-- The sign bit of an encoding of format `f`. -/
def Fmt.signBit (f : Fmt) (neg : Bool) : Nat := boolNat neg * 2 ^ (f.width - 1)

/-- The encoding of an infinity. -/
def Fmt.infBits (f : Fmt) (neg : Bool) : Nat := f.signBit neg + f.topExp * 2 ^ f.m

/-- The encoding of a NaN with payloads, quieted (R89, R91). -/
def Fmt.nanBits (f : Fmt) (neg : Bool) (payload : Nat) : Nat :=
  f.signBit neg + f.topExp * 2 ^ f.m + 2 ^ (f.m - 1) + payload / 2 ^ (51 - (f.m - 1))

/-- The canonical NaN (R76). -/
def Fmt.canonNan (f : Fmt) : Nat := f.nanBits false 0

/-- The rounding decision of R84 and R85 on a magnitude: `man × 2 ^ exp` in units of `2 ^ q`. Answers the
chosen number of units and whether the value was inexact. -/
def roundMag (mode : Rnd) (neg : Bool) (man : Nat) (exp q : Int) (rbits : Nat) : Nat × Bool :=
  if q ≤ exp then (man * 2 ^ (exp - q).toNat, false)
  else
    -- a value below 2 ^ -19 of a unit chooses as one of exactly that size, so the shift is bounded
    let sh := min (q - exp).toNat (Nat.log2 man + 20)
    let lo := man >>> sh
    let rem := man % 2 ^ sh
    if rem = 0 then (lo, false)
    else
      let up : Bool :=
        match mode with
        | .rn => decide (2 ^ sh < 2 * rem) || (decide (2 * rem = 2 ^ sh) && lo % 2 == 1)
        | .rz => false
        | .ru => !neg
        | .rd => neg
        | .sr => decide (2 ^ 16 ≤ rem * 2 ^ 16 / 2 ^ sh + rbits % 2 ^ 16)
        | .dyn => false
      (if up then lo + 1 else lo, true)

/-- Whether magnitude `n × 2 ^ q` is above the largest finite magnitude of the format under the reading. -/
def Fmt.beyond (f : Fmt) (r : Reading) (n : Nat) (q : Int) : Bool :=
  match FVal.ofBits f r (f.maxCode r) with
  | .fin _ m e =>
    if e ≤ q then decide (m < n * 2 ^ (q - e).toNat) else decide (m * 2 ^ (e - q).toNat < n)
  | _ => false

/-- Where an overflowed result goes to infinity by R86, rather than to the largest finite value. -/
def overflowToInf (mode : Rnd) (neg : Bool) : Bool :=
  match mode with
  | .rn | .sr => true
  | .rz | .dyn => false
  | .ru => !neg
  | .rd => neg

/-- `round_to` of a finite non-zero value `man × 2 ^ exp` (R84 to R88). -/
def roundFin (f : Fmt) (r : Reading) (sat : Bool) (mode : Rnd) (rbits : Nat)
    (neg : Bool) (man : Nat) (exp : Int) : Nat × Flags :=
  let rd := f.readingOf r
  let ex : Int := (Nat.log2 man : Int) + exp
  let q := max ex f.emin - (f.m : Int)
  -- R85: beyond the largest finite magnitude .sr chooses as .rn
  let mode' : Rnd := if mode = .sr ∧ f.beyond r man exp then .rn else mode
  let (n, inexact) := roundMag mode' neg man exp q rbits
  if f.beyond r n q then
    let big := f.signBit neg + f.maxCode r
    if rd = .finiteOnly ∨ sat then (big, ⟨false, false, false, true, true⟩)
    else if overflowToInf mode' neg then
      (if rd = .ieee then f.infBits neg else f.signBit neg + (2 ^ (f.width - 1) - 1),
        ⟨false, true, false, true, false⟩)
    else (big, ⟨false, true, false, true, false⟩)
  else
    -- R87: tininess after rounding with an unbounded exponent range
    let (u, _) := roundMag mode' neg man exp (ex - (f.m : Int)) rbits
    let tiny := decide (ex < f.emin) && !(decide (ex = f.emin - 1) && decide (u = 2 ^ (f.m + 1)))
    let code := (q + (f.m : Int) - f.emin).toNat * 2 ^ f.m + n
    (f.signBit neg + code, ⟨false, false, tiny && inexact, inexact, false⟩)

/-- `round_to(x, fmt, mode, rbits)` with the narrow rules of R88 and the NaN rule of R89. -/
def roundTo (f : Fmt) (r : Reading) (sat : Bool) (mode : Rnd) (rbits : Nat) (x : FVal) : Nat × Flags :=
  let rd := f.readingOf r
  match x with
  | .zero neg => (f.signBit neg, .none)
  | .fin neg man exp => roundFin f r sat mode rbits neg man exp
  | .inf neg =>
    match rd with
    | .finiteOnly => (f.signBit neg + f.maxCode r, .saturated)
    | .nanOnly => if sat then (f.signBit neg + f.maxCode r, .saturated)
        else (f.signBit neg + (2 ^ (f.width - 1) - 1), .none)
    | .ieee => if sat then (f.signBit neg + f.maxCode r, .saturated) else (f.infBits neg, .none)
  | .nan neg quiet pay =>
    match rd with
    | .finiteOnly => (0, .invalid)
    | .nanOnly => (f.signBit neg + (2 ^ (f.width - 1) - 1), .nvIf (!quiet))
    | .ieee => (f.nanBits neg pay, .nvIf (!quiet))

/-- Round into a wide format. -/
def roundWide (f : Fmt) (mode : Rnd) (x : FVal) : Nat × Flags := roundTo f .ieee false mode 0 x

/-- An exact finite sum, each term a signed integer times a power of two. -/
def addDyadic (m1 : Int) (e1 : Int) (m2 : Int) (e2 : Int) : Int × Int :=
  let e := min e1 e2
  (m1 * 2 ^ (e1 - e).toNat + m2 * 2 ^ (e2 - e).toNat, e)

/-- Clamp to a range. -/
def clampInt (lo hi x : Int) : Int := max lo (min hi x)

/-- The signed integer of a sign and magnitude. -/
def signedMan (neg : Bool) (m : Nat) : Int := if neg then -(m : Int) else (m : Int)

/-- The exact sum of two values that are not NaN, or none for ∞ − ∞. An exact zero takes the sign of R93. -/
def exactAdd (mode : Rnd) : FVal → FVal → Option FVal
  | .inf a, .inf b => if a = b then some (.inf a) else none
  | .inf a, _ => some (.inf a)
  | _, .inf b => some (.inf b)
  | .zero a, .zero b => some (.zero (if a = b then a else decide (mode = .rd)))
  | .zero _, y => some y
  | x, .zero _ => some x
  | .fin a m1 e1, .fin b m2 e2 =>
    let (s, e) := addDyadic (signedMan a m1) e1 (signedMan b m2) e2
    if s = 0 then some (.zero (decide (mode = .rd)))
    else some (.fin (decide (s < 0)) s.natAbs e)
  | x, _ => some x

/-- The exact product of two values that are not NaN, or none for 0 × ∞ (R93: signs exclusive-ORed). -/
def exactMul : FVal → FVal → Option FVal
  | .inf _, .zero _ => none
  | .zero _, .inf _ => none
  | .fin a m1 e1, .fin b m2 e2 => some (.fin (a != b) (m1 * m2) (e1 + e2))
  | .inf a, y => some (.inf (a != y.neg))
  | x, .inf b => some (.inf (x.neg != b))
  | x, y => some (.zero (x.neg != y.neg))

/-- The first NaN operand of a list, quieted, and NV where any operand is signalling (R91). -/
def nanOf (f : Fmt) (ops : List FVal) : Option (Nat × Flags) :=
  match ops.find? FVal.isNan with
  | some (.nan neg _ pay) => some (f.nanBits neg pay, .nvIf (ops.any FVal.isSnan))
  | _ => none

/-- FADD and, with `sub`, FSUB (R124, R91, R93). -/
def fAdd (f : Fmt) (mode : Rnd) (sub : Bool) (a b : Nat) : Nat × Flags :=
  let x := FVal.ofBits f .ieee a
  let y := FVal.ofBits f .ieee b
  match nanOf f [x, y] with
  | some r => r
  | none =>
    match exactAdd mode x (if sub then y.negate else y) with
    | some z => roundWide f mode z
    | none => (f.canonNan, .invalid)

/-- FMUL (R124, R91). -/
def fMul (f : Fmt) (mode : Rnd) (a b : Nat) : Nat × Flags :=
  let x := FVal.ofBits f .ieee a
  let y := FVal.ofBits f .ieee b
  match nanOf f [x, y] with
  | some r => r
  | none =>
    match exactMul x y with
    | some z => roundWide f mode z
    | none => (f.canonNan, .invalid)

/-- FFMA and FFMA.neg (R124, R92). -/
def fFma (f : Fmt) (mode : Rnd) (negProd : Bool) (a b c : Nat) : Nat × Flags :=
  let x := FVal.ofBits f .ieee a
  let y := FVal.ofBits f .ieee b
  let z := FVal.ofBits f .ieee c
  let zeroInf := !(x.isNan || y.isNan) && (exactMul x y).isNone
  match nanOf f [x, y, z] with
  | some (v, fl) => (v, fl.or (.nvIf zeroInf))
  | none =>
    match exactMul x y with
    | none => (f.canonNan, .invalid)
    | some pr =>
      match exactAdd mode (if negProd then pr.negate else pr) z with
      | some w => roundWide f mode w
      | none => (f.canonNan, .invalid)

/-- The order of two values that are not NaN, −0 below +0 (R125). -/
def totalLt : FVal → FVal → Bool
  | .inf a, y => a && !(decide (y = .inf true))
  | x, .inf b => !b && !(decide (x = .inf false))
  | .zero a, .zero b => a && !b
  | .zero _, .fin b _ _ => !b
  | .fin a _ _, .zero _ => a
  | .fin a m1 e1, .fin b m2 e2 =>
    decide ((addDyadic (signedMan a m1) e1 (-(signedMan b m2)) e2).1 < 0)
  | _, _ => false

/-- FMIN and FMAX (R125). -/
def fMinMax (f : Fmt) (isMax nanForm : Bool) (a b : Nat) : Nat × Flags :=
  let x := FVal.ofBits f .ieee a
  let y := FVal.ofBits f .ieee b
  let fl := Flags.nvIf (x.isSnan || y.isSnan)
  let pick := if totalLt x y != isMax then a else b
  match x, y with
  | .nan n _ p, .nan .. => (f.nanBits n p, fl)
  | .nan n _ p, _ => if nanForm then (f.nanBits n p, fl) else (b, fl)
  | _, .nan n _ p => if nanForm then (f.nanBits n p, fl) else (a, fl)
  | _, _ => (if x = y then a else pick, fl)

/-- Numeric comparison of two values that are not NaN; zeros compare equal (R126). -/
def numLt (x y : FVal) : Bool :=
  match x, y with
  | .zero _, .zero _ => false
  | _, _ => totalLt x y

/-- FCMP (R126). -/
def fCmp (f : Fmt) (c : FCond) (a b : Nat) : Bool × Flags :=
  let x := FVal.ofBits f .ieee a
  let y := FVal.ofBits f .ieee b
  let un := x.isNan || y.isNan
  let sn := x.isSnan || y.isSnan
  let lt := !un && numLt x y
  let gt := !un && numLt y x
  let eq := !un && !lt && !gt
  match c with
  | .eq => (eq, .nvIf sn)
  | .ne => (!eq, .nvIf sn)
  | .lt => (lt, .nvIf un)
  | .le => (lt || eq, .nvIf un)
  | .gt => (gt, .nvIf un)
  | .ge => (gt || eq, .nvIf un)
  | .un => (un, .nvIf sn)
  | .num => (!un, .nvIf sn)

/-- FCLASS: the one bit of R127 for the class of an encoding. -/
def fClass (f : Fmt) (r : Reading) (a : Nat) : Nat :=
  match FVal.ofBits f r a with
  | .inf neg => if neg then 2 ^ 0 else 2 ^ 7
  | .zero neg => if neg then 2 ^ 3 else 2 ^ 4
  | .nan _ q _ => if q then 2 ^ 9 else 2 ^ 8
  | .fin neg m e =>
    let normal := decide (f.emin ≤ (Nat.log2 m : Int) + e)
    match neg, normal with
    | true, true => 2 ^ 1
    | true, false => 2 ^ 2
    | false, false => 2 ^ 5
    | false, true => 2 ^ 6

/-- FSCALE (R128). Exponents beyond 4096 in magnitude give what 4096 gives: every finite value of the two formats
lies between 2 ^ −1074 and 2 ^ 1024. -/
def fScale (f : Fmt) (mode : Rnd) (a : Nat) (k : Int) : Nat × Flags :=
  match FVal.ofBits f .ieee a with
  | .nan n q p => (f.nanBits n p, .nvIf (!q))
  | .fin n m e => roundFin f .ieee false mode 0 n m (e + clampInt (-4096) 4096 k)
  | _ => (a, .none)

/-- FRND (R129). `x` is the .x variant. -/
def fRnd (f : Fmt) (mode : Rnd) (x : Bool) (a : Nat) : Nat × Flags :=
  match FVal.ofBits f .ieee a with
  | .nan n q p => (f.nanBits n p, .nvIf (!q))
  | .fin n m e =>
    let (k, inexact) := roundMag mode n m e 0 0
    let v := if k = 0 then f.signBit n else (roundFin f .ieee false mode 0 n k 0).1
    if e ≥ 0 then (a, .none) else (v, if x && inexact then .inexact else .none)
  | _ => (a, .none)

/-- The width and signedness of an integer type code. -/
def intTy : Ty → Option (Nat × Bool)
  | .i8 => some (8, true) | .i16 => some (16, true) | .i32 => some (32, true) | .i64 => some (64, true)
  | .n8 => some (8, false) | .n16 => some (16, false) | .n32 => some (32, false) | .n64 => some (64, false)
  | _ => none

/-- The floating-point format of a type code. -/
def fmtTy : Ty → Option Fmt
  | .f64 => some .f64 | .f32 => some .f32 | .bf16 => some .bf16 | .f16 => some .f16
  | .e4m3 => some .e4m3 | .e5m2 => some .e5m2 | .e2m1 => some .e2m1
  | _ => none

/-- Smallest and largest value of an integer type. -/
def intRange (n : Nat) (signed : Bool) : Int × Int :=
  if signed then (-(2 ^ (n - 1) : Nat), (2 ^ (n - 1) : Nat) - 1) else (0, (2 ^ n : Nat) - 1)

/-- An integer of a type read from bits. -/
def intOf (n : Nat) (signed : Bool) (x : Nat) : Int :=
  if signed then signedOf n x else ((x % 2 ^ n : Nat) : Int)

/-- Floating point to integer (R90), as `n` bits. DEDUCED, log 66. -/
def floatToInt (n : Nat) (signed : Bool) (mode : Rnd) (rbits : Nat) (x : FVal) : Nat × Flags :=
  let (lo, hi) := intRange n signed
  match x with
  | .nan .. => (0, .invalid)
  | .inf neg => (wrapTo n (if neg then lo else hi), .invalid)
  | .zero _ => (0, .none)
  | .fin neg m e =>
    -- magnitudes of 2 ^ 80 or more lie outside every integer range
    if (80 : Int) ≤ (Nat.log2 m : Int) + e then (wrapTo n (if neg then lo else hi), .invalid)
    else
      let lim := (max (-lo) hi).toNat
      let big := if 0 ≤ e then decide (lim < m * 2 ^ e.toNat) else decide (lim * 2 ^ (-e).toNat < m)
      let (k, inexact) := roundMag (if mode = .sr ∧ big then .rn else mode) neg m e 0 rbits
      let v := signedMan neg k
      if v > hi then (wrapTo n hi, .invalid)
      else if v < lo then (wrapTo n lo, .invalid)
      else (wrapTo n v, if inexact then .inexact else .none)

/-- Integer to integer (R90): wrap, or clamp under .sat. The result has the destination's own width. -/
def intToInt (sn : Nat) (ss : Bool) (dn : Nat) (ds : Bool) (sat : Bool) (x : Nat) : Nat × Flags :=
  let v := intOf sn ss x
  let (lo, hi) := intRange dn ds
  if sat ∧ (v < lo ∨ hi < v) then (wrapTo dn (clampInt lo hi v), .saturated) else (wrapTo dn v, .none)

/-- The random bits of element `i` (R85): a rotation toward bit 0 by `8 × i`. -/
def srBits (rbits i : Nat) : Nat :=
  let k := 8 * i % 32
  ((rbits % 2 ^ 32) >>> k + (rbits % 2 ^ 32) <<< (32 - k)) % 2 ^ 32

/-- The trits of a packed byte (R82): digit 2 is −1; a code above 242 reads as zeros (R83). -/
def tritOf (byte i : Nat) : Int :=
  if 243 ≤ byte then 0
  else
    match byte / 3 ^ i % 3 with
    | 0 => 0
    | 1 => 1
    | _ => -1

/-- The digit of a trit (R82). -/
def tritDigit (t : Int) : Nat := if t = 0 then 0 else if 0 < t then 1 else 2

/-- The largest finite exponent of a narrow format under a reading (R133). -/
def bscaleEmax (f : Fmt) (r : Reading) : Int :=
  match FVal.ofBits f r (f.maxCode r) with
  | .fin _ m e => (Nat.log2 m : Int) + e
  | _ => 0

end Sys2Proof.Machine
end

