-- ==== Sys2Proof/Machine/Kv.lean ====
section
/-! DEFINITION. Sparse tables as plain data: a list of (key, value) pairs with strictly rising keys and no entry
equal to the default. Memory, register files and every numbered table of the machine are held this way. -/

namespace Sys2Proof.Machine.Kv

variable {α : Type}

/-- The value under key `k`, or the default where the key is not listed. -/
def get (d : α) (k : Nat) : List (Nat × α) → α
  | [] => d
  | (j, v) :: t => if k = j then v else get d k t

/-- Remove every entry of key `k`. -/
def erase (k : Nat) : List (Nat × α) → List (Nat × α)
  | [] => []
  | (j, v) :: t => if k = j then erase k t else (j, v) :: erase k t

/-- Insert or replace the entry of key `k`, keeping the keys rising. -/
def insert (k : Nat) (v : α) : List (Nat × α) → List (Nat × α)
  | [] => [(k, v)]
  | (j, w) :: t =>
    if k < j then (k, v) :: (j, w) :: t
    else if k = j then (k, v) :: t
    else (j, w) :: insert k v t

/-- Set key `k` to `v`; the default value is not listed. -/
def set [DecidableEq α] (d : α) (k : Nat) (v : α) (l : List (Nat × α)) : List (Nat × α) :=
  if v = d then erase k l else insert k v l

/-- Every key of the list is above `b`. -/
def above (b : Nat) : List (Nat × α) → Bool
  | [] => true
  | (j, _) :: t => decide (b < j) && above j t

/-- The canonical form: keys strictly rising, no listed default. -/
def wf [DecidableEq α] (d : α) : List (Nat × α) → Bool
  | [] => true
  | (j, v) :: t => decide (v ≠ d) && (above j t && wf d t)

/-- The entry of key `k`, if it is listed. -/
def find (k : Nat) : List (Nat × α) → Option α
  | [] => none
  | (j, v) :: t => if k = j then some v else find k t

/-- The keys listed, rising. -/
def keys (l : List (Nat × α)) : List Nat := l.map (·.1)

/-- Change the listed entry of key `k`, if there is one. -/
def modify (k : Nat) (f : α → α) : List (Nat × α) → List (Nat × α)
  | [] => []
  | (j, v) :: t => if k = j then (j, f v) :: t else (j, v) :: modify k f t

end Sys2Proof.Machine.Kv
end

