-- ==== Sys2Proof/Machine/State.lean ====
section
/-! DEFINITION. The state of the package as plain data: threads, blocks, cores, partitions, memory and the units of
the base dies and the harbour die, with the reset state and the reasons a step can stop. Tables keyed by a number are
lists of pairs in the canonical form of Kv. The model's own fields are DESIGN CHOICE, log 73. -/

namespace Sys2Proof.Machine

/-- Why a step stops with a fault. -/
inductive Fault where
  /-- Raised by the memory operations in boot mode, where no translation refuses it, for a local physical address that
  R244 leaves reserved or where no DRAM is present. Safe: the spec gives such an access no effect. DESIGN CHOICE, log 13. -/
  | noSuchAddress
  deriving DecidableEq, Repr

/-- Why a step is refused. -/
inductive Refusal where
  /-- Raised by an arm of exec whose instruction has no meaning yet. Safe: nothing is claimed of it. -/
  | notModelled (mnemonic : String)
  deriving DecidableEq, Repr

/-! ### Threads (R17 to R27, R159, R340) -/

/-- The privilege levels of R25. -/
inductive Priv where
  | user | steward | boot
  deriving DecidableEq, Repr

/-- The fault classes of R338, with the classes of base-die work (R401, R438). -/
inductive Cls where
  | illegalInstr | illegalOperand | privilege | latchStale | align | addrRange | pageFault | poison | race
  | tblGap | tblDomain | tblFormat | tblEmpty | tblSpace | squadMask | selState | tileCfg | tileRange | mmaCheck
  | tensorFmt | stashSpace | barState | asyncFail | trap | engineReset
  | baseDie (code : Nat)
  deriving DecidableEq, Repr

/-- A raised fault: its class with the DETAIL, AUX, ADDR and ELEM fields of its record (R338, R342). -/
structure Exc where
  cls : Cls
  detail : Nat
  aux : Nat
  addr : Nat
  elem : Nat
  deriving DecidableEq, Repr

/-- An operand log entry (R340): the PC, the instruction (none for a fault of fetch) and the source values that the
instruction read at issue, in the order of its operands. -/
structure OpLog where
  pc : Nat
  instr : Option Instr
  srcs : List DWord
  deriving DecidableEq, Repr

/-- What keeps a held thread (R159). -/
inductive Hold where
  /-- BAR.WAIT: the block core and offset of the object, the phase waited to change, and the log of the wait. -/
  | bar (bc off phase : Nat) (log : OpLog)
  /-- TLWAIT and WAITM: the timelines with the values to reach, and the log of the wait. -/
  | tl (l : List (Nat × Nat)) (log : OpLog)
  | halt
  /-- A squad instruction, with its member mask. -/
  | squad (mask : Nat)
  /-- An operation of the package that holds its issuing group: TLBI, SCRUB, HARVEST, MOOR, FERRY.LOAD, FERRY.BIND,
  FERRY.UNBIND (R346, R436, R460). The operation's number and where its result goes. -/
  | op (num : Nat) (dst : Opnd)
  deriving DecidableEq, Repr

/-- What a thread is doing. A `ready` thread stands in an entry of the PC table or in slot state. -/
inductive Stat where
  | ready
  | held (h : Hold)
  | faulted (e : Exc) (log : OpLog)
  /-- Held at TRAP, with the TRAP's destination (R349). -/
  | trapped (dst : Opnd)
  deriving DecidableEq, Repr

/-- One thread (R17). Registers, the rest of its state, and where it stands. -/
structure Thread where
  /-- v0 to vN−1, unlisted ones 0. -/
  regs : List (Nat × Word)
  /-- p0 to p6. -/
  preds : BitVec 7
  pc : Nat
  tsLatch : DWord
  fpcsr : Word
  /-- Declared register count divided by 8. -/
  nreg8 : Nat
  priv : Priv
  lane : Nat
  slot : Nat
  /-- Block core on which the thread runs (R169). -/
  bc : Nat
  stat : Stat
  /-- A replay that the thread makes before its next instruction (R341). -/
  rep : Option OpLog
  /-- The tick at which the thread last entered slot state (R160). -/
  since : Nat
  deriving DecidableEq, Repr

/-! ### Tables, selection, tiles, engines of a block on one core -/

/-- A checked table image (R140 to R142): its header words and segments as read. -/
structure TblImage where
  /-- The 16 header words. -/
  hdr : List Nat
  /-- Six words for each segment. -/
  segs : List (List Nat)
  deriving DecidableEq, Repr

/-- A copy of a table slot, with the physical slots it holds (R146). -/
inductive Shadow where
  | empty
  | pending (num addr slots : Nat) (space : Space) (priv : Priv)
  | ready (img : TblImage) (slots : Nat)
  | invalid (reason slots : Nat)
  deriving DecidableEq, Repr

/-- A virtual table slot (R146). -/
structure TblSlot where
  cur : Option (TblImage × Nat)
  shadow : Shadow
  deriving DecidableEq, Repr

/-- A bound selection context (R202 to R205). -/
structure SelCtx where
  phys : Nat
  key : SelKey
  max : Bool
  k : Nat
  /-- Key and payload, best first. -/
  entries : List (Nat × Nat)
  nan : Bool
  deriving DecidableEq, Repr

/-- A tile register (R208): data bytes and scale bytes that differ from 0x00 and 0x7F, and the failed mark. -/
structure TileReg where
  tc : Word
  data : List (Nat × Byte)
  scale : List (Nat × Byte)
  failed : Bool
  deriving DecidableEq, Repr

/-- One timeline of R297 and R299. -/
structure Timeline where
  issued : Nat
  completed : Nat
  fail : Nat
  deriving DecidableEq, Repr

/-- The state of a stash line (R239). An unlisted line is invalid. -/
inductive LineState where
  | shared | modified
  deriving DecidableEq, Repr

/-- A valid stash line: its state, the home address it was filled from, and its 64 bytes. -/
structure StashLine where
  st : LineState
  spa : Nat
  data : List Byte
  deriving DecidableEq, Repr

/-- A stash page (R238): scratch offset, home VA, and the valid lines by number. -/
structure StashPage where
  off : Nat
  home : Nat
  lines : List (Nat × StashLine)
  deriving DecidableEq, Repr

/-- The status of an engine operation (R300, R303). -/
inductive OpStat where
  | queued
  | parked (e : Exc)
  /-- A fault decided while running that cancels it at its next step (R299). -/
  | cancelled (e : Exc)
  deriving DecidableEq, Repr

/-- What an engine operation does (R273, R300). Offsets and addresses are as they stood at issue. -/
inductive OpKind where
  /-- COPY and copy-schedule entries: spaces, addresses, byte count. -/
  | copy (dsp ssp : CopySpace) (dst src bytes : Nat)
  /-- COPYT: the record's words, direction, cluster side, coordinates, scratch offset. -/
  | tensor (rec : List Nat) (st clus : Bool) (coord : List Int) (off : Nat)
  /-- COPYG: spaces, base, index-list offset, destination offset, row bytes, rows. -/
  | gather (dsp ssp : CopySpace) (base idx dst rowb nrow : Nat)
  /-- Matrix work of R213, with the control values that stood at issue. -/
  | tzero (all : Bool) (td rows : Nat) (lanes : List Nat)
  | tld (td : Nat) (rec : List Nat) (recAddr : Nat) (coord : List Int)
  | tst (td : Nat) (rec : List Nat) (recAddr : Nat) (coord : List Int) (rnd : Rnd) (sat : Bool) (tc : Word)
  | mma (td ta tb : Nat) (c : AccSrc) (acc : AccFmt) (sigma : Option (List (Nat × Nat))) (k : Nat) (lanes : List Nat)
      (tcs : List (Nat × Word))
  | mmat (td ta tb : Nat) (c : AccSrc) (k : Nat) (lanes : List Nat) (tcs : List (Nat × Word))
  | mmap (td ta : Nat) (rows : List (Nat × Nat)) (tcs : List (Nat × Word))
  /-- TBL.LOAD into a virtual slot. -/
  | tblLoad (slot : Nat)
  deriving DecidableEq, Repr

/-- An engine operation of a block on one core: its timeline (0 to 9, or 15 for a region entry), its number, what it
does, the barrier it counts on, the units it has delivered, and the issuing instruction's PC and privilege. -/
structure EngineOp where
  tl : Nat
  num : Nat
  kind : OpKind
  bidx : Option Nat
  done : Nat
  stat : OpStat
  pc : Nat
  priv : Priv
  /-- Bytes delivered that its barrier and write pointer have not counted yet, since their writes are not performed (R301,
  R310). -/
  owed : Nat
  /-- Bytes gathered for granules into which it has more to write: SPA, VA and byte (R302). -/
  held : List (Nat × (Nat × Byte))
  deriving DecidableEq, Repr

/-- A region entry or copy-schedule entry as read at LAUNCH (R311, R313). -/
structure RegionEntry where
  idx : Nat
  kind : Nat
  va : Nat
  soff : Nat
  bytes : Nat
  deriving DecidableEq, Repr

structure SchedEntry where
  idx : Nat
  core : Nat
  trig : Nat
  ch : Nat
  bidx : Nat
  dsp : CopySpace
  ssp : CopySpace
  bytes : Nat
  dst : Nat
  src : Nat
  deriving DecidableEq, Repr

/-- The block's state on one of its cores (R21, R146, R202, R208, R234, R297 to R314). -/
structure BlockCore where
  /-- Global core number, die × 48 + core. -/
  core : Nat
  sregs : List (Nat × Word)
  scratch : List (Nat × Byte)
  tables : List (Nat × TblSlot)
  sel : List (Nat × SelCtx)
  tiles : List (Nat × TileReg)
  mstat : Word
  tls : List (Nat × Timeline)
  wps : List (Nat × Word)
  stage : Nat
  ops : List EngineOp
  regions : List RegionEntry
  sched : List SchedEntry
  stash : List StashPage
  /-- Leaf barriers on this core registered to their roots: leaf offset and root offset (R319). -/
  leaves : List (Nat × Nat)
  /-- The threads of each replay entry, in issue order: they replay before the block issues anything else there (R352). -/
  replays : List (List Nat)
  deriving DecidableEq, Repr

/-- Where a block stands (R177, R181, R351, R352). -/
inductive BlockPhase where
  | resident
  /-- A pre-emption has been asked for; issue stops (R351). -/
  | halting
  /-- Its context is saved; `returned` says that it waits as a returned block of its grid. -/
  | saved
  deriving DecidableEq, Repr

/-- A block (R157, R169, R170, R316). The block of a boot-mode thread has no partition. -/
structure Block where
  tag : Nat
  part : Option Nat
  grid : Nat
  /-- The launch node's region control block address (R173). -/
  node : Nat
  bidx : Nat × Nat × Nat
  shape : Nat × Nat × Nat
  lo : Nat
  nreg8 : Nat
  scratch : Nat
  ntile : Nat
  tslots : Nat
  phase : BlockPhase
  threads : List (Nat × Thread)
  cores : List (Nat × BlockCore)
  /-- Completed counts of timelines 12 to 15. -/
  soft : List (Nat × Nat)
  /-- Release count and acquire set, oldest update first (R288, R289). -/
  relCount : Nat
  acq : List (Nat × Nat)
  acqOvfl : Bool
  /-- Packages it has written since its last release at domain scope (R377). -/
  wrote : List Nat
  /-- Tick and timestamp of the last admission or restore, and the order of admission (R181, R183). -/
  since : Nat
  /-- Timestamp of a pre-emption request in progress (R354). -/
  reqTime : Nat
  /-- The classes of R353 that were in progress at the request (R354). -/
  reqClasses : List Nat
  /-- The cores from which it is migrated, on which it is not restored (R183). -/
  left : List Nat
  started : Bool
  deriving DecidableEq, Repr

/-! ### Cores (R30 to R37, R55, R159 to R167) -/

/-- An instruction of a group that is pending (R339), with the members it acts for and their operand values. -/
structure PendInstr where
  pc : Nat
  instr : Instr
  threads : List (Nat × List DWord)
  deriving DecidableEq, Repr

/-- An entry of the PC table (R159). -/
structure Entry where
  block : Nat
  members : List Nat
  /-- Active position, or pending. -/
  pos : Option Nat
  marked : Bool
  issues : Nat
  /-- Tick of the last issue or promotion, of taking the position, and of becoming pending. -/
  lastIssue : Nat
  posSince : Nat
  pendSince : Nat
  /-- Members of the open chain so far, 0 where none is open (R56). -/
  chain : Nat
  /-- Latches written since the chain's head: pipe × 4 + latch (R57). -/
  written : BitVec 8
  /-- Latch contents by (pipe × 4 + latch) × 64 + lane. -/
  latches : List (Nat × DWord)
  pend : List PendInstr
  shadow : Nat
  /-- The instruction it would issue next depends on a result that is not there yet, or its unit cannot take it (R164). -/
  waiting : Bool
  deriving DecidableEq, Repr

/-- A TLB entry (R252): partition, the page's first VA (in a nested TLB its first GPA), its size as a power of two, its first
SPA and attributes. -/
structure TlbEntry where
  part : Nat
  va : Nat
  size : Nat
  spa : Nat
  mt : Nat
  user : Bool
  write : Bool
  read : Bool
  exec : Bool
  deriving DecidableEq, Repr

/-- A core: boot-mode registers and arrays, the PC table, and the queues of its units. -/
structure Core where
  /-- Released from reset (R30). -/
  released : Bool
  /-- The boot-mode thread has ended and the core takes launches (R37). -/
  ready : Bool
  bootvec : DWord
  diagbase : DWord
  diagctl : Word
  /-- Main register file by 32-bit word number, and scratchpad by bank × 4096 + row (R34). -/
  rf : List (Nat × Word)
  pad : List (Nat × Word)
  /-- Repair table by 32-bit word number, and summary status word (R36). -/
  repair : List (Nat × Word)
  summary : Word
  /-- Cells stuck by manufacture: word number, bit and value; words of the pad count from 0x2_0000 (R35). -/
  stuck : List (Nat × (Nat × Bool))
  /-- Rows steered to spares at the boot-mode EXIT: array (64 for the register file, else the bank) and row (R37). -/
  steer : List (Nat × Nat)
  /-- The partition whose blocks the core last held (R147, R241). -/
  part : Option Nat
  entries : List (Nat × Entry)
  /-- Matrix operations of the core in issue order: block key and timeline-8 number (R213). -/
  mqueue : List (Nat × Nat)
  /-- Fetch blocks held by the instruction cache, by VA (R43). -/
  icache : List ((Option Nat × Nat) × List Byte)
  tlb : List TlbEntry
  /-- The walk-ahead TLBs of the copy engine and the matrix engine, by the operation that their entries serve: its timeline,
  16 × its number and 2 ^ 40 × its block (R252, R253). -/
  ahead : List (Nat × List TlbEntry)
  deriving DecidableEq, Repr

/-! ### Partitions: launches, grids, graphs, records (R172 to R187, R342 to R360) -/

/-- A region control block as the dispatcher read it last (R172, R174). -/
structure Node where
  parent : Nat
  fdring : Nat
  cores : Nat
  tbls : Nat
  scrk : Nat
  tilek : Nat
  bws : Nat
  prio : Nat
  fd : Bool
  en : Bool
  inh : Nat
  stall : Nat
  deriving DecidableEq, Repr

/-- The fields of a launch record (R175). -/
structure LaunchRec where
  code : Nat
  argp : Nat
  grid : Nat × Nat × Nat
  shape : Nat × Nat × Nat
  nreg8 : Nat
  tslots : Nat
  coop : Bool
  scratch : Nat
  ntile : Nat
  deps : List (Nat × Nat)
  donea : Nat
  donev : Nat
  deriving DecidableEq, Repr

/-- A launch in a queue and the grid it becomes (R177 to R181). -/
structure Grid where
  lrec : LaunchRec
  recAddr : Nat
  node : Nat
  prio : Nat
  regions : List (RegionEntry × Option Nat)
  sched : List SchedEntry
  /-- Entries of the same replay whose grids must complete first (R187). -/
  preds : List Nat
  depsMet : Bool
  /-- The dependence words that still fail and for which a KIND 0x0E record was sent (R475). -/
  depFailed : List Nat
  /-- Next block never admitted, blocks ended, returned blocks in order (R177, R181). -/
  nextBlock : Nat
  ended : Nat
  /-- The tick at which its last block ended (R179). -/
  endTick : Option Nat
  returned : List Nat
  /-- Its blocks that were pre-empted and not restored since, in the order of the requests (R181). -/
  leaving : List Nat
  /-- The completion word is never written: a block was ended by a rung or harvested (R356, R361). -/
  dead : Bool
  /-- Since when its next block is a candidate; tick and time since which rotation's conditions hold (R177, R181). -/
  candSince : Option Nat
  stallSince : Option (Nat × Nat)
  protects : List Nat
  /-- The graph replay it belongs to: graph object, replay number, entry (R187). -/
  replay : Option (Nat × Nat × Nat)
  order : Nat
  deriving DecidableEq, Repr

/-- A graph entry as it was read at GRAPH.RUN (R186, R187). -/
structure GraphEntry where
  lrec : LaunchRec
  recAddr : Nat
  node : Nat
  preds : List Nat
  regions : List (RegionEntry × Option Nat)
  sched : List SchedEntry
  deriving DecidableEq, Repr

/-- A graph replay that is held or running (R187). -/
structure Replay where
  graph : Nat
  num : Nat
  conc : Bool
  ncopy : Nat
  paramp : Nat
  paramlen : Nat
  /-- The staging area is sealed for it and has not been copied yet. -/
  sealed : Bool
  /-- Its parameters stand, so that its entries may be queued. -/
  released : Bool
  copy : Option Nat
  entries : List GraphEntry
  /-- Entries queued, and entries whose grids have completed. -/
  queued : List Nat
  doneEntries : List Nat
  deriving DecidableEq, Repr

/-- What the device holds of a graph object between replays (R187, R188). -/
structure GraphState where
  /-- GRAPH.PATCH has changed the staging area since the last replay began. -/
  changed : Bool
  sealedBy : Option Nat
  deriving DecidableEq, Repr

/-- A fault record (R342). -/
structure FaultRec where
  cls : Nat
  kind : Nat
  detail : Nat
  held : Bool
  ovfl : Bool
  elem : Nat
  node : Nat
  slot : Nat
  lane : Nat
  core : Nat
  die : Nat
  part : Nat
  opnum : Nat
  tln : Nat
  tidx : Nat
  tag : Nat
  pc : Nat
  addr : Nat
  aux : Nat
  ts : Nat
  /-- The agent code of its source (R474), which the record does not hold. -/
  src : Nat
  deriving DecidableEq, Repr

/-- A record ring's waiting records and marks (R344). The ring of key 0 is the event queue. -/
structure Ring where
  waiting : List FaultRec
  dropped : Bool
  unreachable : Bool
  deriving DecidableEq, Repr

/-- A race-watch window (R272, R288): base, length, and per granule the last writer and last release. -/
structure RaceWin where
  base : Nat
  len : Nat
  writer : List (Nat × (Nat × Nat))
  release : List (Nat × (Nat × Nat))
  deriving DecidableEq, Repr

/-! ### Base-die work: near-bank runs, collective programs, ferry cores (R387 to R435) -/

/-- What starts base-die work: partition, block (none for a leg's run whose program gives it), the core and the number
on its timeline 10 or 11, the privilege of its translations, and the starting instruction's PC. -/
structure Starter where
  part : Nat
  block : Nat
  node : Nat
  steward : Bool
  core : Nat
  num : Nat
  priv : Priv
  pc : Nat
  deriving DecidableEq, Repr

/-- A virtual program slot of a near-bank unit's die (R433): a valid program, or an invalid mark with its reason. -/
inductive NbSlot where
  | valid (version : Nat) (ops : List Nat)
  | invalid (reason : Nat)
  deriving DecidableEq, Repr

/-- An NB.LOAD that has not completed (R433): the stacks it loads, the slot, the image and who asked. -/
structure NbLoadOp where
  starter : Starter
  stks : List Nat
  slot : Nat
  img : Nat
  deriving DecidableEq, Repr

/-- A run as it was translated at issue (R425, R434): the rows of each stream as first system-physical addresses,
whether the stream's translations grant write, the status block, the leg that started it, if one did, and the 4 KiB
pages whose translations it holds, VA and SPA. -/
structure NbRun where
  starter : Starter
  stk : Nat
  unit : Nat
  dove : Bool
  nrow : Nat
  rows : List (List Nat)
  wr : List Bool
  ks : List Word
  pslot : Nat
  statusa : Nat
  status : List Nat
  leg : Option (Nat × Nat)
  pages : List (Nat × Nat)
  deriving DecidableEq, Repr

/-- The run a unit is executing (R418, R419): its program and position. Accumulator byte `b` of accumulator `a` of unit
`h` of the pair is at key 128 × h + 32 × a + b. -/
structure NbCur where
  run : NbRun
  prog : List Nat
  acc : List (Nat × Byte)
  r : Nat
  c : Nat
  i : Nat
  /-- The time at which the unit was suspended, while it is. -/
  susp : Option Nat
  deriving DecidableEq, Repr

/-- A near-bank unit, or the pair a dovetailed run uses, under its first pseudo-channel. -/
structure NbUnit where
  queue : List NbRun
  cur : Option NbCur
  deriving DecidableEq, Repr

/-- A format window (R427) as a program captured it. -/
structure FmtWin where
  sat : Bool
  rnd : Rnd
  svr : Reading
  fmt : Ty
  nelem : Nat
  base : Nat
  deriving DecidableEq, Repr

/-- A leg of a collective program (R428) and how far it is. -/
structure Leg where
  kind : Nat
  win : Option FmtWin
  after : Nat
  flow : Nat
  opr : Nat
  dpkg : Nat
  dstk : Nat
  sstk : Nat
  off : Nat
  nel : Nat
  runDesc : Nat
  started : Bool
  done : Bool
  applied : Nat
  deriving DecidableEq, Repr

/-- A running collective program (R428 to R435). `pages` are the translations held from issue: page and frame. -/
structure CollProg where
  starter : Starter
  job : Nat
  tmo : Nat
  start : Nat
  statusa : Nat
  statusPa : Nat
  legs : List Leg
  pages : List (Nat × Nat)
  /-- The failure that ended it: CODE and LEG (R426). -/
  fail : Option (Nat × Nat)
  /-- Its status word has been written. -/
  written : Bool
  deriving DecidableEq, Repr

/-- A run or a RECV leg that ends, while a write of it is still to be performed (R282, R426): the base die's stack, the status
word still to be written (SPA, VA, value), the leg of a program that goes on, and the CODE. -/
structure BaseEnd where
  starter : Starter
  stk : Nat
  word : Option (Nat × (Nat × Nat))
  leg : Option (Nat × Nat)
  code : Nat
  deriving DecidableEq, Repr

/-- A loaded ferry kernel (R387, R397). -/
structure Kernel where
  job : Nat
  version : Nat
  words : List Nat
  tables : List TblImage
  state64 : Nat
  bound : Nat
  deriving DecidableEq, Repr

/-- A binding (R391, R402). -/
structure Binding where
  job : Nat
  flow : Nat
  slot : Nat
  owner : Starter
  area : List (Nat × Byte)
  faulted : Bool
  drops : Nat
  deriving DecidableEq, Repr

/-- The state of a REP body being executed (R415). -/
structure RepState where
  first : Nat
  last : Nat
  iter : Nat
  count : Nat
  x : Option (Fin 16)
  deriving DecidableEq, Repr

/-- The running invocation (R388, R389, R393). Vector register word `l` of register `r` is at key 32 × r + l. -/
structure FerryRun where
  job : Nat
  flow : Nat
  window : List (Nat × Byte)
  fv : List (Nat × Word)
  fs : List (Nat × Word)
  fm : List (Nat × Word)
  idx : Nat
  cycles : Nat
  rep : Option RepState
  emits : List Packet
  area : List (Nat × Byte)
  deriving DecidableEq, Repr

/-- A ferry core (R387). `badStore` are the 32-byte granules of kernels (2 ^ 16 × slot + word index / 8) and `badFlow`
those of flow state (by job, flow and offset / 32) that read as uncorrectable; `fixStore` and `fixFlow` are those whose
reads correct an error. -/
structure FerryCore where
  kernels : List (Nat × Kernel)
  bindings : List Binding
  queue : List Packet
  run : Option FerryRun
  badStore : List Nat
  badFlow : List (Nat × Nat × Nat)
  fixStore : List Nat
  fixFlow : List (Nat × Nat × Nat)
  deriving DecidableEq, Repr

/-- A base die and its stack. -/
structure BaseDie where
  ferry : List (Nat × FerryCore)
  units : List (Nat × NbUnit)
  /-- The packages that hold a line of this stack, by SPA / 64 (R380). The stashes that hold it are found in the blocks. -/
  dir : List (Nat × List Nat)
  /-- Lines whose holders have still to be told to drop their copies, and the block whose write it is for (R381). -/
  todo : List (Nat × (Nat × List Nat))
  /-- Packets held for a RECV leg, with the time each arrived (R430). -/
  held : List (Packet × Nat)
  /-- Times of targeted refreshes charged: key 64 × partition + pseudo-channel (R385). -/
  charged : List (Nat × List Nat)
  /-- Until when a partition's activations in a pseudo-channel are limited; keys as `charged`. -/
  limited : List (Nat × Nat)
  selfRefresh : Bool
  lastAccess : Nat
  deriving DecidableEq, Repr

/-! ### Partitions (R446 to R460) -/

/-- The mooring state of a partition (R457, R460). -/
inductive MoorState where
  | awake
  | entering (since : Nat)
  | moored (since : Nat)
  deriving DecidableEq, Repr

/-- A margin cluster that is lent: to whom, and whether it is being revoked (R450, R451). -/
structure Lent where
  cluster : Nat
  dest : Nat
  revoked : Bool
  deriving DecidableEq, Repr

/-- A partition. -/
structure Partition where
  params : PartParams
  pt1root : DWord
  evq : DWord
  slice : Word
  hailpay : DWord
  hailcnt : Word
  pendCount : Nat
  pendPay : DWord
  /-- Time at which the oldest pending hail arrived (R459). -/
  hailAt : Nat
  moor : MoorState
  /-- Numbers of the MOOR operations that wait. -/
  moors : List Nat
  admitStop : Bool
  /-- Stage-2 entries: key 2 ^ 60 × level + (GPA shifted right by the level's index low bit). -/
  s2 : List (Nat × DWord)
  nodes : List (Nat × Node)
  grids : List (Nat × Grid)
  nextOrder : Nat
  replays : List Replay
  graphs : List (Nat × GraphState)
  rings : List (Nat × Ring)
  races : List (Nat × RaceWin)
  nbSlots : List (Nat × NbSlot)
  nbLoads : List NbLoadOp
  progs : List (Nat × CollProg)
  nextProg : Nat
  ends : List BaseEnd
  /-- The event pending for HALT (R107). -/
  eventPend : Bool
  scrubSeq : Nat
  /-- Overrun charged to the next slices on a core, in ns (R354). -/
  overrun : List (Nat × Nat)
  /-- Margin clusters lent (R450). -/
  lent : List Lent
  deriving DecidableEq, Repr

/-! ### The package: operations, links, harbour die (R371 to R384, R461 to R474) -/

/-- An operation that holds its issuing group until it is done (R255, R346, R360, R361, R436, R460). -/
inductive PkgOpKind where
  | tlbi (lo hi : Nat)
  /-- The first frame's GPA and the number of frames. -/
  | scrub (rel : Bool) (start count : Nat)
  /-- A SCRUB whose mappings are removed: its frames, and whether they have been zero-filled. -/
  | scrubbing (frames : List Nat) (zeroed : Bool)
  | harvest (die : Nat)
  | ferryLoad (stk fc slot job : Nat) (img : Nat)
  | moor
  deriving DecidableEq, Repr

structure PkgOp where
  starter : Starter
  kind : PkgOpKind
  deriving DecidableEq, Repr

/-- A request to another package that has not been answered (R378, R384). -/
structure RemoteReq where
  /-- Source agent, and entry that waits; an entry number of 64 and more stands for an engine of the core. -/
  core : Nat
  entry : Nat
  /-- What is waited for: a line by SPA / 64; for thread i, 2 ^ 60 + i an atomic, 2 ^ 62 + 1024 × i + package a fence marker,
  2 ^ 63 + 2 ^ 64 × i + SPA an access to control registers. None for a posted write and a probe. -/
  ask : Option Nat
  pkg : Nat
  sent : Nat
  /-- The status of an error response that the waiting access still has to take, 0 for none (R373). -/
  err : Nat
  /-- The value of an atomic's response. -/
  val : Option DWord
  /-- The block and the POISON record of a posted write that fails (R384). -/
  post : Option (Nat × FaultRec)
  /-- The line of which a holder is told to drop its copy, and the block whose write it is for (R381). -/
  probe : Option (Nat × Nat)
  /-- Its partition, its address, and whether it is of the strict class (R377). -/
  part : Nat
  addr : Nat
  strict : Bool
  deriving DecidableEq, Repr

/-- What waits at a home until lines have no probe outstanding: a request, or an answer (R381). -/
inductive Settle where
  /-- A request: what an ATM or RDC does, and the direction of a CTL, which the packet's header does not say. -/
  | request (p : Packet) (op : AtomOp) (ty : Ty) (store : Bool)
  | answer (p : Packet)
  deriving DecidableEq, Repr

structure LineWait where
  lines : List Nat
  what : Settle
  deriving DecidableEq, Repr

/-- The receiving side of a link or Strelar port (R371, R383): the accepted flits of packets that are not whole yet, the
sequence number of the next frame, and the replays in a row without progress. -/
structure LinkState where
  accepted : List Nat
  seq : Nat
  replays : Nat
  deriving DecidableEq, Repr

/-- The body of an XCP reply (R465, R472, R473). -/
inductive ReplyBody where
  | empty
  | vectors (device agreed : BitVec 128)
  | parts (u : UnitParts)
  | startrep (reason count : Nat) (reports : List (Nat × (Word × List Word)))
  | telem (power cap throttled : Nat) (shares : List Nat) (temps : List Nat)
  | attest (report signature key cert : List Byte)
  deriving DecidableEq, Repr

structure XcpReply where
  seq : Nat
  status : Nat
  body : ReplyBody
  deriving DecidableEq, Repr

/-- An EVENT message (R465). `sent` is the time it was last sent. -/
structure XcpEvent where
  seq : Nat
  ts : Nat
  source : Nat
  code : Nat
  data : List Nat
  sent : Option Nat
  deriving DecidableEq, Repr

/-- What leaves the package. -/
inductive OutMsg where
  | packet (p : Packet)
  | reply (r : XcpReply)
  | event (e : XcpEvent)
  /-- An RDMA acknowledgement (0), or a NAK: 1 invalid request, 2 remote access error, 3 remote operational error. -/
  | rdmaAck (qp nak : Nat)
  | rdmaData (qp : Nat) (data : List Byte)
  /-- A frame or flit refused: the sender replays (R371, R383). -/
  | nack (link : Nat)
  /-- A reply of another package's harbour die, passed on to the host (R467). -/
  | forwarded (data : List Byte)
  deriving DecidableEq, Repr

/-- A granted job (R390): its partition and the quotas, in units of 4 KiB, on each ferry core 8 × stack + core. -/
structure Job where
  part : Nat
  quotas : List (Nat × Nat)
  deriving DecidableEq, Repr

/-- A rung of the reset ladder with its target (R356): a partition's node, a partition's block by its tag, a unit of a
core (code of R358; 6 for a ferry core and 7 for a near-bank unit, numbered over the package), a partition, the device. -/
inductive Rung where
  | queue (part node : Nat)
  | context (part tag : Nat)
  | engine (core unit : Nat)
  | partition (part : Nat)
  | device
  deriving DecidableEq, Repr

/-- A rung in progress: since when, and the XCP request that waits for it (R357, R465). -/
structure PendingRung where
  rung : Rung
  since : Nat
  seq : Option Nat
  deriving DecidableEq, Repr

/-- The harbour die (R461 to R474). -/
structure Harbour where
  pkg : Nat
  dataVlan : Nat
  ctlVlan : Nat
  routes : List (Nat × (Nat × Nat))
  jobs : List (Nat × Job)
  windows : List (Nat × HostWindow)
  host : Option Nat
  replies : List XcpReply
  events : List XcpEvent
  eventSeq : Nat
  agreed : Option (BitVec 5)
  minimal : Bool
  /-- Steps 1 to 3 of a start are done and the first HELLO has not been answered yet. -/
  starting : Bool
  startAt : Nat
  failCount : Nat
  failReason : Nat
  fwFloor : Nat
  fwImage : List Byte
  staging : List (Nat × Byte)
  stagingLen : Nat
  cap : Nat
  hot : List Nat
  /-- Adjustment of the counter toward the domain's reference, in ns still to be slewed (R474). -/
  slew : Int
  rungs : List PendingRung
  /-- Compute dies of which a loss has been declared (R361). -/
  lostDies : List Nat
  /-- Reports of the cores: summary status word and unapplied entries (R37). -/
  reports : List (Nat × (Word × List Word))
  /-- Records of boot-mode threads (R341, R346). -/
  bootRecords : List FaultRec
  /-- RDMA writes not acknowledged yet: the queue pair, and the transactions of writes to other packages (R463). -/
  acks : List (Nat × List Nat)
  deriving DecidableEq, Repr

/-! ### The state of the package -/

/-- What the next step issues for. -/
inductive Focus where
  | none
  | entry (core e : Nat)
  | ferry (stk fc : Nat)
  | nb (stk unit : Nat)
  deriving DecidableEq, Repr

/-- Whose turn it is on a shared cluster, since when, and whether it has ended and its blocks are leaving (R452). -/
structure Turn where
  part : Nat
  since : Nat
  ended : Bool
  deriving DecidableEq, Repr

/-- What a granule's check bits say (R261). -/
inductive Ecc where
  | uncorrectable | poisoned
  deriving DecidableEq, Repr

/-- The state of the package. -/
structure State where
  /-- Memory by system-physical address. The bytes of another package are those its lines in the proxy slices hold. -/
  mem : List Host.Cell
  /-- Granules that read as poison, by the address of their first byte. -/
  ecc : List (Nat × Ecc)
  /-- Lines of other packages held here, by SPA / 64 (R379, R380). -/
  proxy : List Nat
  /-- Interleave entries of the 1 GiB regions (R369). -/
  interleave : List (Nat × DWord)
  reqs : List (Nat × RemoteReq)
  nextTxid : Nat
  /-- What waits for lines with probes outstanding, in order of arrival (R381). -/
  lineQueue : List LineWait
  /-- TLBs of the clusters, and nested TLBs of the dies, which map GPAs (R252). -/
  clusterTlbs : List (Nat × List TlbEntry)
  nestedTlbs : List (Nat × List TlbEntry)
  cores : List (Nat × Core)
  blocks : List (Nat × Block)
  parts : List (Nat × Partition)
  dies : List (Nat × BaseDie)
  links : List (Nat × LinkState)
  absent : UnitParts
  harbour : Harbour
  ops : List (Nat × PkgOp)
  nextOp : Nat
  nextTag : Nat
  outbox : List OutMsg
  /-- Whose turn it is on each shared cluster (R452). -/
  turns : List (Nat × Turn)
  focus : Focus
  /-- Events that the next steps perform, in order. -/
  agenda : List Instr
  /-- Memory instructions stay pending until PENDING_CHECK (R339); otherwise each is checked as it issues. -/
  lazyMem : Bool
  /-- Steps taken, the package's time in ns, and free values drawn. -/
  tick : Nat
  clock : Nat
  drawn : Nat
  deriving DecidableEq, Repr

/-! ### Values at reset -/

/-- A core held in reset (R25, R33, R36). DESIGN CHOICE, log 7. -/
def Core.reset : Core where
  released := false
  ready := false
  bootvec := 0
  diagbase := 0x000FF00000000000
  diagctl := 1
  rf := []
  pad := []
  repair := []
  summary := 0
  stuck := []
  steer := []
  part := none
  entries := []
  mqueue := []
  icache := []
  tlb := []
  ahead := []

/-- A base die with nothing loaded, running or held. -/
def BaseDie.reset : BaseDie where
  ferry := []
  units := []
  dir := []
  todo := []
  held := []
  charged := []
  limited := []
  selfRefresh := false
  lastAccess := 0

/-- A ferry core with nothing loaded. -/
def FerryCore.reset : FerryCore := ⟨[], [], [], none, [], [], [], []⟩

/-- An idle near-bank unit. -/
def NbUnit.reset : NbUnit := ⟨[], none⟩

/-- A thread as it starts (R38). -/
def Thread.start (pc nreg8 : Nat) (priv : Priv) (lane slot bc : Nat) : Thread where
  regs := []
  preds := 0
  pc := pc
  tsLatch := 0
  fpcsr := 0
  nreg8 := nreg8
  priv := priv
  lane := lane
  slot := slot
  bc := bc
  stat := .ready
  rep := none
  since := 0

/-- The block's state on one core before anything has written it (R38, R146, R208, R241, R298). -/
def BlockCore.start (core : Nat) (sregs : List (Nat × Word)) : BlockCore where
  core := core
  sregs := sregs
  scratch := []
  tables := []
  sel := []
  tiles := []
  mstat := 0
  tls := []
  wps := []
  stage := 0
  ops := []
  regions := []
  sched := []
  stash := []
  leaves := []
  replays := []

/-- The block that is nowhere: what a key that names no block reads as. -/
def Block.nowhere : Block where
  tag := 0
  part := Option.none
  grid := 0
  node := 0
  bidx := (0, 0, 0)
  shape := (1, 1, 1)
  lo := 0
  nreg8 := 32
  scratch := 0
  ntile := 0
  tslots := 0
  phase := .resident
  threads := []
  cores := []
  soft := []
  relCount := 0
  acq := []
  acqOvfl := false
  wrote := []
  since := 0
  reqTime := 0
  reqClasses := []
  left := []
  started := false

/-- An entry of the PC table when it is filled (R160). -/
def Entry.start (block : Nat) (members : List Nat) (pos : Option Nat) (now : Nat) : Entry where
  block := block
  members := members
  pos := pos
  marked := false
  issues := 0
  lastIssue := now
  posSince := now
  pendSince := now
  chain := 0
  written := 0
  latches := []
  pend := []
  shadow := 0
  waiting := false

/-- The harbour die after power-up (R461, R469, R473). -/
def Harbour.reset : Harbour where
  pkg := 0
  dataVlan := 2
  ctlVlan := 3
  routes := []
  jobs := []
  windows := []
  host := Option.none
  replies := []
  events := []
  eventSeq := 0
  agreed := Option.none
  minimal := false
  starting := true
  startAt := 0
  failCount := 0
  failReason := 0
  fwFloor := 0
  fwImage := []
  staging := []
  stagingLen := 0
  cap := 3200
  hot := []
  slew := 0
  rungs := []
  lostDies := []
  reports := []
  bootRecords := []
  acks := []

/-- A unit that lacks nothing: 768 GiB of DRAM (R244, R386). -/
def UnitParts.whole : UnitParts := ⟨[], [], [], [], [], [], 0xC000000000⟩

/-- The package after power-up: every core is held in reset, memory reads as zero (R242), and the harbour die is about
to perform the start of R469. -/
def State.reset : State where
  mem := []
  ecc := []
  proxy := []
  interleave := []
  reqs := []
  nextTxid := 0
  lineQueue := []
  clusterTlbs := []
  nestedTlbs := []
  cores := []
  blocks := []
  parts := []
  dies := []
  links := []
  absent := UnitParts.whole
  harbour := Harbour.reset
  ops := []
  nextOp := 1
  nextTag := 1
  outbox := []
  turns := []
  focus := .none
  agenda := [.deviceStart UnitParts.whole]
  lazyMem := false
  tick := 0
  clock := 0
  drawn := 0

end Sys2Proof.Machine
end

