-- ==== Sys2Proof/Machine/Flags.lean ====
section
/-! DEFINITION. FPCSR: the dynamic rounding mode and the sticky flags (R26, R46, R95). -/

namespace Sys2Proof.Machine

/-- The rounding mode that FPCSR.RM selects. -/
def Thread.rm (t : Thread) : Rnd :=
  match bitsOf t.fpcsr.toNat 10 8 with
  | 1 => .rz
  | 2 => .ru
  | 3 => .rd
  | _ => .rn

/-- The rounding of an instruction: its own, or FPCSR.RM under .dyn (R46). -/
def Thread.mode (t : Thread) (r : Rnd) : Rnd :=
  match r with
  | .dyn => t.rm
  | r => r

/-- Flags raised by an instruction stick in FPCSR bits 4:0 (R26, R95). -/
def Thread.raiseFlags (t : Thread) (f : Flags) : Thread :=
  { t with fpcsr := t.fpcsr ||| BitVec.ofNat 32 f.bits }

/-- A reserved rounding mode or a res0 bit makes a value of FPCSR unacceptable (R26, R122). -/
def fpcsrOk (w : Word) : Bool :=
  decide (bitsOf w.toNat 10 8 < 4) && bitsOf w.toNat 31 11 == 0 && bitsOf w.toNat 7 5 == 0

end Sys2Proof.Machine
end

