-- ==== Sys2Proof/Machine/Ops.lean ====
section
/-! DEFINITION. The named operations over the state: finding and changing a block, a thread, a core, an entry;
registers; taking an exception and returning from one; fault records; how a group goes on after an instruction. -/

namespace Sys2Proof.Machine

/-- The outcome of a step. -/
abbrev Res := Host.Outcome State Fault Refusal

/-! ### Finding and changing -/

/-- The block under a key, or the block that is nowhere. -/
def State.block (s : State) (k : Nat) : Block := Kv.get Block.nowhere k s.blocks

/-- The core, held in reset where it is not listed. -/
def State.core (s : State) (c : Nat) : Core := Kv.get Core.reset c s.cores

/-- The base die of a stack. -/
def State.die (s : State) (k : Nat) : BaseDie := Kv.get BaseDie.reset k s.dies

/-- Replace a block, a core, a base die, a partition. -/
def State.putBlock (s : State) (k : Nat) (b : Block) : State := { s with blocks := Kv.insert k b s.blocks }
def State.putCore (s : State) (c : Nat) (x : Core) : State := { s with cores := Kv.insert c x s.cores }
def State.putDie (s : State) (k : Nat) (d : BaseDie) : State := { s with dies := Kv.insert k d s.dies }
def State.putPart (s : State) (p : Nat) (x : Partition) : State := { s with parts := Kv.insert p x s.parts }

/-- Change a listed block, a core, a listed partition, a base die. -/
def State.modBlock (s : State) (k : Nat) (f : Block → Block) : State := { s with blocks := Kv.modify k f s.blocks }
def State.modCore (s : State) (c : Nat) (f : Core → Core) : State := s.putCore c (f (s.core c))
def State.modPart (s : State) (p : Nat) (f : Partition → Partition) : State := { s with parts := Kv.modify p f s.parts }
def State.modDie (s : State) (k : Nat) (f : BaseDie → BaseDie) : State := s.putDie k (f (s.die k))

/-- The partition of a number, if it is present. -/
def State.part (s : State) (p : Nat) : Option Partition := Kv.find p s.parts

/-- The thread that is nowhere. -/
def Thread.nowhere : Thread := Thread.start 0 32 .user 0 0 0

/-- A thread of a block by its linear index (R157). -/
def Block.thread (b : Block) (i : Nat) : Thread := Kv.get Thread.nowhere i b.threads
def State.thread (s : State) (k i : Nat) : Thread := (s.block k).thread i

/-- Replace a thread; change a listed thread. -/
def State.putThread (s : State) (k i : Nat) (t : Thread) : State :=
  s.modBlock k fun b => { b with threads := Kv.insert i t b.threads }
def State.modThread (s : State) (k i : Nat) (f : Thread → Thread) : State :=
  s.modBlock k fun b => { b with threads := Kv.modify i f b.threads }

/-- Change every thread that a list names. -/
def Block.mapThreads (b : Block) (l : List Nat) (f : Thread → Thread) : Block :=
  { b with threads := b.threads.map fun x => (x.1, if l.contains x.1 then f x.2 else x.2) }

/-- The block's state on its core number `j`. -/
def Block.bc (b : Block) (j : Nat) : BlockCore := Kv.get (BlockCore.start 0 []) j b.cores
def State.modBc (s : State) (k j : Nat) (f : BlockCore → BlockCore) : State :=
  s.modBlock k fun b => { b with cores := Kv.modify j f b.cores }

/-- The number of the block's core that stands on core `c` (R169). -/
def Block.bcOn (b : Block) (c : Nat) : Option Nat := (b.cores.find? fun x => x.2.core == c).map (·.1)

/-- Change an entry of a core's PC table. -/
def State.modEntry (s : State) (c e : Nat) (f : Entry → Entry) : State :=
  s.modCore c fun x => { x with entries := Kv.modify e f x.entries }
def State.entry (s : State) (c e : Nat) : Option Entry := Kv.find e (s.core c).entries

/-- Perform further events before anything else. -/
def State.later (s : State) (l : List Instr) : State := { s with agenda := l ++ s.agenda }

/-- Something leaves the package. DESIGN CHOICE, log 76. -/
def State.emit (s : State) (m : OutMsg) : State := { s with outbox := s.outbox ++ [m] }

/-- A free value (named in the log of assumptions). -/
def State.draw (s : State) : DWord × State := (Config.freeValue s.drawn, { s with drawn := s.drawn + 1 })

/-- The key of a core's boot-mode block and of a partition's steward block. -/
def bootKey (core : Nat) : Nat := 2 ^ 32 + core
def stewardKey (part : Nat) : Nat := 2 ^ 33 + part

/-- `n` bytes of a number, and `n` free bytes. -/
def bytesOf (v : Nat) : Nat → List Byte
  | 0 => []
  | n + 1 => BitVec.ofNat 8 v :: bytesOf (v / 256) n
def State.drawBytes (s : State) : Nat → List Byte × State
  | 0 => ([], s)
  | n + 1 =>
    let r := s.drawBytes n
    (r.1 ++ bytesOf r.2.draw.1.toNat 8, r.2.draw.2)

/-- Stable insertion by a key, and the sorting it gives. -/
def insertBy {α : Type} (key : α → Nat) (x : α) : List α → List α
  | [] => [x]
  | y :: t => if key x ≤ key y then x :: y :: t else y :: insertBy key x t
def sortBy {α : Type} (key : α → Nat) : List α → List α
  | [] => []
  | x :: t => insertBy key x (sortBy key t)

/-- The distinct members of a list, in order of first appearance. -/
def distinct : List Nat → List Nat
  | [] => []
  | x :: t => x :: (distinct t).filter (· != x)

/-- The first number below `n` that a list does not hold, counting from `k`. -/
def firstFree (l : List Nat) : Nat → Nat → Option Nat
  | _, 0 => none
  | k, n + 1 => if l.contains k then firstFree l (k + 1) n else some k

/-! ### Registers of a thread (R17 to R23, R52, R53) -/

/-- A register word. -/
def Thread.reg (t : Thread) (n : Nat) : Word := Kv.get 0 n t.regs
def Thread.setReg (t : Thread) (n : Nat) (w : Word) : Thread := { t with regs := Kv.set 0 n w t.regs }

/-- A predicate: p7 reads as 1 (R20). -/
def Thread.pred (t : Thread) (n : Nat) : Bool := if n = 7 then true else t.preds.toNat.testBit n

/-- Write a predicate: a write of p7 is discarded (R20). -/
def Thread.setPred (t : Thread) (n : Nat) (b : Bool) : Thread :=
  if n = 7 then t
  else { t with preds := if b then t.preds ||| BitVec.ofNat 7 (2 ^ n) else t.preds &&& ~~~(BitVec.ofNat 7 (2 ^ n)) }

/-- Two words as a 64-bit value, the lower first. -/
def pairOf (lo hi : Word) : DWord := hi ++ lo

/-- A uniform register of the block on one of its cores (R21). -/
def BlockCore.sreg (x : BlockCore) (n : Nat) : Word := Kv.get 0 n x.sregs

/-- The thread's index (x, y, z) in its block (R157). -/
def Block.tidOf (b : Block) (i : Nat) : Nat × Nat × Nat :=
  (i % b.shape.1, i / b.shape.1 % b.shape.2.1, i / b.shape.1 / b.shape.2.1)

/-- The 64-bit value of a special operand code 0x150 + n (R22, R53); codes 0x15D and 0x15E read 64 bits. -/
def specialVal (s : State) (b : Block) (i : Nat) (t : Thread) (n : Nat) : DWord :=
  let core := (b.bc t.bc).core
  match n with
  | 0 => 0
  | 1 => 1
  | 2 => BitVec.ofNat 64 t.lane
  | 3 => BitVec.ofNat 64 (b.tidOf i).1
  | 4 => BitVec.ofNat 64 (b.tidOf i).2.1
  | 5 => BitVec.ofNat 64 (b.tidOf i).2.2
  | 6 => BitVec.ofNat 64 b.bidx.1
  | 7 => BitVec.ofNat 64 b.bidx.2.1
  | 8 => BitVec.ofNat 64 b.bidx.2.2
  | 9 => BitVec.ofNat 64 (core % 48)
  | 10 => BitVec.ofNat 64 (core % 48 / 4)
  | 11 => BitVec.ofNat 64 (core / 48)
  | 12 => BitVec.ofNat 64 (b.part.getD 0xFFFFFFFF)
  | 13 => BitVec.ofNat 64 s.clock
  | 14 => t.tsLatch
  | _ => BitVec.ofNat 64 t.slot

/-- The low 32 bits of a value, zero-extended. -/
def low32 (x : DWord) : DWord := (x.setWidth 32).setWidth 64

/-- An operand with its width: true for a 64-bit operand. -/
abbrev Src := Opnd × Bool

/-! ### The issuing group -/

/-- The group an instruction issues for: where it stands, its PC, its members in order of home lane, and the log entry
that it replays, if it replays one (R341). -/
structure Grp where
  core : Nat
  e : Nat
  block : Nat
  pc : Nat
  members : List Nat
  ov : Option OpLog
  deriving DecidableEq, Repr

/-- The group of an entry. -/
def State.grpOf (s : State) (c e : Nat) : Option Grp :=
  match s.entry c e with
  | none => none
  | some en =>
    match en.members with
    | [] => none
    | m :: _ =>
      let t := s.thread en.block m
      some ⟨c, e, en.block, (match t.rep with | some l => l.pc | none => t.pc), en.members, t.rep⟩

/-- The group in focus. -/
def State.grp (s : State) : Option Grp :=
  match s.focus with
  | .entry c e => s.grpOf c e
  | _ => none

/-- The privilege of the group's threads: one for all, since a block's threads share it. -/
def Grp.priv (g : Grp) (s : State) : Priv :=
  match g.members with
  | m :: _ => (s.thread g.block m).priv
  | [] => .user

/-- The partition of the group. -/
def Grp.part (g : Grp) (s : State) : Option Nat := (s.block g.block).part

/-- The guard (R40): a replayed instruction is recorded with its guard true (R340). -/
def guarded (g : Grp) (c : Com) (t : Thread) : Bool :=
  g.ov.isSome || (t.pred c.guardPred.toNat != c.guardNeg)

/-- The active members. -/
def Grp.active (g : Grp) (c : Com) (s : State) : List Nat :=
  g.members.filter fun i => guarded g c (s.thread g.block i)

/-- The value of a source operand (R52, R53). `pipe` is the instruction's pipe. -/
def srcVal (s : State) (g : Grp) (pipe i : Nat) (x : Src) : DWord :=
  let b := s.block g.block
  let t := b.thread i
  let bc := b.bc t.bc
  let full : DWord :=
    match x.1 with
    | .v n => if x.2 then pairOf (t.reg n.toNat) (t.reg (n.toNat + 1)) else (t.reg n.toNat).setWidth 64
    | .s n => if x.2 then pairOf (bc.sreg n.toNat) (bc.sreg (n.toNat + 1)) else (bc.sreg n.toNat).setWidth 64
    | .latch n =>
      match s.entry g.core g.e with
      | some en => Kv.get 0 ((pipe * 4 + n.toNat) * 64 + t.lane) en.latches
      | none => 0
    | .p n => if t.pred n.toNat then 1 else 0
    | .special n => if x.2 || n.toNat != 14 then specialVal s b i t n.toNat else t.tsLatch >>> 32
    | .invalid _ => 0
  if x.2 then full else low32 full

/-- A source operand code that a use refuses (R18, R52, R53). -/
def srcBad (nreg : Nat) (vec : Bool) (x : Src) : Bool :=
  match x.1 with
  | .v n => decide (nreg ≤ n.toNat) || (x.2 && (n.toNat % 2 == 1 || decide (nreg ≤ n.toNat + 1)))
  | .s n => x.2 && n.toNat % 2 == 1
  | .latch _ => !vec
  | .p _ | .special _ => false
  | .invalid _ => true

/-- A destination operand code that a use refuses (R18, R23, R52, R53). -/
def dstBad (nreg : Nat) (x : Src) : Bool :=
  match x.1 with
  | .v n => decide (nreg ≤ n.toNat) || (x.2 && (n.toNat % 2 == 1 || decide (nreg ≤ n.toNat + 1)))
  | .s n => x.2 && n.toNat % 2 == 1
  | .p _ => false
  | .special n => n != 0
  | .latch _ | .invalid _ => true

/-- The declared register count. -/
def Thread.nreg (t : Thread) : Nat := t.nreg8 * 8

/-- Write a value to a destination (R21, R23, R52). A uniform register takes the value of the first thread that
completes; `first` says that this one is. -/
def writeDst (s : State) (k i : Nat) (first : Bool) (x : Src) (v : DWord) : State :=
  match x.1 with
  | .v n => s.modThread k i fun t =>
      let t := t.setReg n.toNat (v.setWidth 32)
      if x.2 then t.setReg (n.toNat + 1) ((v >>> 32).setWidth 32) else t
  | .s n =>
    if first then s.modBc k (s.thread k i).bc fun bc =>
      let l := Kv.set 0 n.toNat (v.setWidth 32) bc.sregs
      { bc with sregs := if x.2 then Kv.set 0 (n.toNat + 1) ((v >>> 32).setWidth 32) l else l }
    else s
  | .p n => s.modThread k i fun t => t.setPred n.toNat (v.getLsbD 0)
  | _ => s

/-- Reading code 0x15D captures the timestamp (R22). A replay takes its values from the log and reads nothing (R341). -/
def captureTime (s : State) (g : Grp) (i : Nat) (l : List Src) : State :=
  if g.ov.isNone && l.any (fun x => x.1 == .special 13) then
    s.modThread g.block i fun t => { t with tsLatch := BitVec.ofNat 64 s.clock }
  else s

/-! ### Fault records (R338, R342 to R344) -/

/-- The class code of R338, R401 and R438. -/
def Cls.code : Cls → Nat
  | .illegalInstr => 0x01
  | .illegalOperand => 0x02
  | .privilege => 0x03
  | .latchStale => 0x04
  | .align => 0x05
  | .addrRange => 0x06
  | .pageFault => 0x07
  | .poison => 0x08
  | .race => 0x09
  | .tblGap => 0x0A
  | .tblDomain => 0x0B
  | .tblFormat => 0x0C
  | .tblEmpty => 0x0D
  | .tblSpace => 0x0E
  | .squadMask => 0x0F
  | .selState => 0x10
  | .tileCfg => 0x11
  | .tileRange => 0x12
  | .mmaCheck => 0x13
  | .tensorFmt => 0x14
  | .stashSpace => 0x15
  | .barState => 0x16
  | .asyncFail => 0x17
  | .trap => 0x18
  | .engineReset => 0x19
  | .baseDie c => c

/-- A fault of a class with no DETAIL, AUX, ADDR or ELEM. -/
def Exc.of (c : Cls) : Exc := ⟨c, 0, 0, 0, 0⟩

/-- A record with every field 0 but its kind. -/
def FaultRec.ofKind (kind : Nat) : FaultRec where
  cls := 0
  kind := kind
  detail := 0
  held := false
  ovfl := false
  elem := 0
  node := 0
  slot := 0
  lane := 0
  core := 0
  die := 0
  part := 0
  opnum := 0
  tln := 0
  tidx := 0
  tag := 0
  pc := 0
  addr := 0
  aux := 0
  ts := 0
  src := 0x210

/-- The record with the class and particulars of a fault. -/
def FaultRec.withExc (r : FaultRec) (e : Exc) : FaultRec :=
  { r with
    cls := e.cls.code
    detail := e.detail
    aux := e.aux
    addr := e.addr
    elem := e.elem }

/-- The record with the place of a block on a core. -/
def FaultRec.atCore (r : FaultRec) (b : Block) (core : Nat) : FaultRec :=
  { r with
    tag := b.tag
    part := b.part.getD 0
    node := b.node
    die := core / 48
    core := core % 48
    src := core }

/-- An empty record ring. -/
def Ring.empty : Ring := ⟨[], false, false⟩

/-- The ring of the fault domain of a launch node (R173): the nearest node at or above it whose FD is 1. Key 0 is the
partition's event queue, so that a ring at address 0 stands under 2 ^ 64. -/
def ringOfNode (nodes : List (Nat × Node)) : Nat → Nat → Nat
  | 0, _ => 0
  | fuel + 1, n =>
    match Kv.find n nodes with
    | none => 0
    | some x => if x.fd then (if x.fdring = 0 then 2 ^ 64 else x.fdring) else if x.parent = 0 then 0 else ringOfNode nodes fuel x.parent

/-- Records with HELD 0 that wait in a partition (R344). -/
def Partition.waitingFree (p : Partition) : Nat :=
  (p.rings.map fun r => (r.2.waiting.filter fun x => !x.held).length).sum

/-- Reports in the order of their timestamps, those of equal timestamps by their source numbers (R16, R474): a new one
goes after what stands before it. -/
def insertReport {α : Type} (ts src : α → Nat) (x : α) (l : List α) : List α :=
  let before (y : α) : Bool := decide (ts y < ts x) || (ts y == ts x && decide (src y ≤ src x))
  l.takeWhile before ++ x :: l.dropWhile before

/-- A record joins those that wait. -/
def insertRecord (r : FaultRec) (l : List FaultRec) : List FaultRec := insertReport FaultRec.ts FaultRec.src r l

/-- A record is formed for a ring: it waits until RECORD_WRITE writes it, or is dropped (R344). True where it is kept. -/
def State.sendRecord (s : State) (p ring : Nat) (r : FaultRec) : State × Bool :=
  match s.part p with
  | none => (s, false)
  | some x =>
    let old := Kv.get Ring.empty ring x.rings
    if !r.held && decide (64 ≤ x.waitingFree) then
      (s.putPart p { x with rings := Kv.insert ring { old with dropped := true } x.rings }, false)
    else
      let r := { r with ts := s.clock % 2 ^ 64 }
      ((s.putPart p { x with rings := Kv.insert ring { old with waiting := insertRecord r old.waiting } x.rings }).later
        [.recordWrite p ring], true)

/-- A record of a block goes to its fault domain, a steward's to the event queue, a boot-mode thread's to the harbour
die (R341, R343). -/
def State.sendBlockRecord (s : State) (k : Nat) (r : FaultRec) : State :=
  let b := s.block k
  match b.part with
  | none => { s with harbour := { s.harbour with bootRecords := insertRecord { r with ts := s.clock % 2 ^ 64 } s.harbour.bootRecords } }
  | some p =>
    let ring := if b.tag = 0 then 0 else
      match s.part p with
      | some x => ringOfNode x.nodes 32 b.node
      | none => 0
    (s.sendRecord p ring r).1

/-! ### Taking an exception, and returning from one (R339 to R341, R348) -/

/-- The record of a thread (R342). -/
def threadRecord (s : State) (g : Grp) (i : Nat) (kind : Nat) (held : Bool) (e : Exc) : FaultRec :=
  let b := s.block g.block
  let t := b.thread i
  let r := ((FaultRec.ofKind kind).withExc e).atCore b g.core
  { r with
    held := held
    tidx := i
    lane := t.lane
    slot := t.slot
    pc := g.pc
    ovfl := e.cls == .race && b.acqOvfl }

/-- A granule whose read failed is marked poisoned (R261). One that no check bits condemn, because another package did
not answer, is not (R384). -/
def State.markRead (s : State) (gr : Nat) : State := { s with ecc := Kv.modify gr (fun _ => .poisoned) s.ecc }

/-- Take an exception: the thread stops with its stop point in its PC, its operand log entry is written, it is held
faulted in slot state, and its record is sent (R339, R340, R342). The PC has been advanced past the instruction when
the instruction began. -/
def faultThread (s : State) (g : Grp) (i : Nat) (instr : Option Instr) (srcs : List DWord) (e : Exc) : State :=
  let s := s.modThread g.block i fun t =>
    { t with stat := .faulted e ⟨g.pc, instr, srcs⟩, rep := none, since := s.tick }
  let s := if e.cls = .poison then s.markRead e.aux else s
  s.sendBlockRecord g.block (threadRecord s g i 0x01 true e)

/-- Take the same exception for several threads. -/
def faultThreads (s : State) (g : Grp) (instr : Option Instr) (e : Exc) : List Nat → State
  | [] => s
  | i :: t => faultThreads (faultThread s g i instr [] e) g instr e t

/-- Release a faulted thread (R341, R348): replay its instruction first, or go on at the stop point. The stop point of a
fault of fetch is its own PC, which is fetched again either way. -/
def Thread.resume (t : Thread) (replay : Bool) : Thread :=
  match t.stat with
  | .faulted _ log =>
    { t with
      stat := .ready
      rep := if replay && log.pc != t.pc then some log else none }
  | _ => { t with stat := .ready }

/-- A posted write of the block has not been acknowledged (R179, R378). -/
def State.posting (s : State) (k : Nat) : Bool := s.reqs.any fun r => (r.2.post.map (·.1)) == some k

/-! ### Slot state (R159, R163) -/

/-- Whether a thread may issue. -/
def Thread.ready (t : Thread) : Bool := t.stat == .ready

/-- A thread in slot state: its block, its index, and itself. -/
structure SlotThread where
  block : Nat
  idx : Nat
  th : Thread
  deriving DecidableEq, Repr

/-- A thread stands in an entry of the core. -/
def Core.inEntry (c : Core) (block i : Nat) : Bool :=
  c.entries.any fun e => e.2.block == block && e.2.members.contains i

/-- The threads of the replay entry that the block has to perform next on one of its cores (R352). -/
def Block.replaying (b : Block) (j : Nat) : Option (List Nat) :=
  (b.bc j).replays.find? fun l => l.any fun i => (b.thread i).rep.isSome

/-- A thread may issue as far as replay entries go. -/
def Block.mayReplay (b : Block) (j i : Nat) (t : Thread) : Bool :=
  match b.replaying j with
  | none => true
  | some l => l.contains i && t.rep.isSome

/-- The ready threads of a core in slot state, of blocks that may issue: not of one that halts, nor of one whose region
entries have not all acted (R159, R175, R282, R312, R351). -/
def State.slotReady (s : State) (core : Nat) : List SlotThread :=
  let c := s.core core
  (s.blocks.map fun b =>
    match b.2.bcOn core with
    | some j =>
      if b.2.phase = .resident ∧ b.2.cores.all (·.2.regions.isEmpty) then
        (b.2.threads.filter fun t => t.2.bc == j && t.2.ready && b.2.mayReplay j t.1 t.2 && !c.inEntry b.1 t.1).map fun t => ⟨b.1, t.1, t.2⟩
      else []
    | none => []).flatten

/-- An entry issues: its age starts again, it waits for nothing, and its count grows while ready threads wait in slot state
(R163, R165). -/
def State.noteIssue (s : State) (core e : Nat) : State :=
  let waiting := !(s.slotReady core).isEmpty
  s.modEntry core e fun en =>
    { en with
      lastIssue := s.tick
      issues := if waiting then en.issues + 1 else en.issues
      waiting := false }

/-! ### How a group goes on -/

/-- Every member's PC moves past the instruction, but for a replayed one, which stays at its stop point (R24, R341). -/
def passInstr (s : State) (g : Grp) (len : Nat) : State :=
  s.modBlock g.block fun b => b.mapThreads g.members fun t =>
    { t with
      pc := if g.ov.isSome then t.pc else t.pc + len
      rep := none }

/-- The instruction issues for the group: its entry's age and count follow, and the PCs move past it. -/
def advance (s : State) (g : Grp) (len : Nat) : State := passInstr (s.noteIssue g.core g.e) g len

/-- Entries are formed for the groups that leave an entry, each at its own PC, in free places of the table; where none
is free the threads stay in slot state (R161). -/
def splitOff (s : State) (c block age : Nat) : List (List Nat) → State
  | [] => s
  | ms :: t =>
    match firstFree (Kv.keys (s.core c).entries) 0 64 with
    | none => s.modBlock block fun b => b.mapThreads (ms :: t).flatten fun x => { x with since := s.tick }
    | some e =>
      let en := { Entry.start block ms none s.tick with lastIssue := age }
      splitOff (s.modCore c fun x => { x with entries := Kv.insert e en x.entries }) c block age t

/-- After an instruction the entry keeps its ready members of the lowest PC; those of each other PC leave it, and an
entry without members is freed (R159, R161). A split closes the chain (R167). -/
def regroup (s : State) (c e : Nat) : State :=
  match s.entry c e with
  | none => s
  | some en =>
    let b := s.block en.block
    let ready := en.members.filter fun i => (Kv.find i b.threads).isSome && (b.thread i).ready
    let pcs := sortBy id (distinct (ready.map fun i => (b.thread i).pc))
    match pcs with
    | [] => s.modCore c fun x => { x with entries := Kv.erase e x.entries }
    | p :: rest =>
      let keep := ready.filter fun i => (b.thread i).pc == p
      let s := s.modEntry c e fun en =>
        { en with members := keep, chain := if rest.isEmpty then en.chain else 0 }
      splitOff s c en.block en.lastIssue (rest.map fun q => ready.filter fun i => (b.thread i).pc == q)

/-- An instruction of the group is over. -/
def finish (s : State) (g : Grp) : Res := .next (regroup s g.core g.e)

/-- A group meets a fault of decoding: every member stops, whatever the guards (R59). -/
def faultAll (s : State) (g : Grp) (i : Instr) (len : Nat) (c : Cls) : Res :=
  finish (faultThreads (advance s g len) g (some i) (Exc.of c) g.members) g

/-- The length in bytes of an instruction (R39). -/
def lenOf (i : Instr) : Nat :=
  match i with
  | .filler => 4
  | .nop => 8
  | .pairP96 _ _ _ => 12
  | i =>
    match encodeRaw i with
    | some r => lenBytes r.len
    | none => 0

end Sys2Proof.Machine
end

