-- ==== Sys2Proof/Machine/Operands.lean ====
section
/-! DEFINITION. The shared course of an instruction at issue: the checks of R59 in their order for each active thread,
the reading of every operand form, the effect, and the writing of results. -/

namespace Sys2Proof.Machine

/-- Why one thread's part of an instruction does not complete. -/
inductive Stop where
  /-- The thread takes the exception. -/
  | exc (e : Exc)
  /-- The access is to an address that the spec gives no effect: the run stops. -/
  | halt (f : Fault)
  /-- The access needs an answer of another package: what is waited for, and the request (R379). The instruction
  issues again when the answer has come. -/
  | miss (ask : Nat) (p : Packet)
  /-- It must wait for something that is outstanding, and issues again later. -/
  | wait
  deriving DecidableEq, Repr

/-- What an instruction uses: its common fields, its pipe where it is of a vector pipe class, the privilege it needs (0
user, 1 steward, 2 boot), and its source and destination operands. -/
structure Use where
  com : Com
  pipe : Option Nat
  level : Nat
  srcs : List Src
  dsts : List Src
  deriving DecidableEq, Repr

/-- An operand code that every use refuses. -/
def refusedOp : Opnd := .invalid 0x160

/-- The register `k` after a register operand. -/
def plusReg (k : Nat) : Opnd → Opnd
  | .v n => if n.toNat + k < 256 then .v (BitVec.ofNat 8 (n.toNat + k)) else refusedOp
  | .s n => if n.toNat + k < 64 then .s (BitVec.ofNat 6 (n.toNat + k)) else refusedOp
  | _ => refusedOp

/-- An instruction outside the vector pipes at user privilege. -/
def Use.plain (com : Com) (srcs dsts : List Src) : Use := ⟨com, none, 0, srcs, dsts⟩

/-- An instruction that needs steward privilege. -/
def Use.stew (com : Com) (srcs dsts : List Src) : Use := ⟨com, none, 1, srcs, dsts⟩

/-- The number of a privilege level (R25). -/
def Priv.level : Priv → Nat
  | .user => 0
  | .steward => 1
  | .boot => 2

/-- A latch of the pipe that no member of the chain has written (R57). -/
def latchStale (s : State) (g : Grp) (pipe : Nat) (x : Src) : Bool :=
  match x.1 with
  | .latch n =>
    match s.entry g.core g.e with
    | some en => !en.written.toNat.testBit (pipe * 4 + n.toNat)
    | none => true
  | _ => false

/-- Orders 3 to 5 of R59 for one thread. -/
def checkThread (s : State) (g : Grp) (u : Use) (i : Nat) : Option Cls :=
  let t := s.thread g.block i
  if t.priv.level < u.level then some .privilege
  else if u.srcs.any (srcBad t.nreg u.pipe.isSome) || u.dsts.any (dstBad t.nreg) then some .illegalOperand
  else
    match u.pipe with
    | some p => if u.srcs.any (latchStale s g p) then some .latchStale else none
    | none => none

/-- The source values of one thread: as logged where the instruction is replayed (R341), else as they stand. -/
def readAll (s : State) (g : Grp) (u : Use) (i : Nat) : List DWord :=
  let now := u.srcs.map (srcVal s g (u.pipe.getD 0) i)
  match g.ov with
  | some log => if log.srcs.length = u.srcs.length then log.srcs else now
  | none => now

/-- The active threads that pass the checks, with their source values; the others stop. -/
def checkAll (g : Grp) (instr : Instr) (u : Use) : List Nat → State → State × List (Nat × List DWord)
  | [], s => (s, [])
  | i :: t, s =>
    match checkThread s g u i with
    | some c => checkAll g instr u t (faultThread s g i (some instr) [] (Exc.of c))
    | none =>
      let vals := readAll s g u i
      let r := checkAll g instr u t (captureTime s g i u.srcs)
      (r.1, (i, vals) :: r.2)

/-- Everything of an instruction up to its effect: the PCs move on, the checks are made and the sources are read. -/
def prepare (s : State) (g : Grp) (instr : Instr) (u : Use) : State × List (Nat × List DWord) :=
  checkAll g instr u (g.active u.com s) (advance s g (lenOf instr))

/-- Write a list of results. -/
def writeAll (k i : Nat) (first : Bool) : List (Src × DWord) → State → State
  | [], s => s
  | (x, v) :: t, s => writeAll k i first t (writeDst s k i first x v)

/-- The effect of one thread: the state it leaves and what it writes to its destinations. -/
abbrev Effect := Except Stop (State × List (Src × DWord))

/-- The threads act one after another in increasing home lane; one that stops writes nothing (R10, R21). -/
def runThreads (g : Grp) (instr : Instr) (f : Nat → List DWord → State → Effect) :
    Bool → List (Nat × List DWord) → State → Except Stop State
  | _, [], s => .ok s
  | first, (i, vals) :: t, s =>
    match f i vals s with
    | .error (.halt h) => .error (.halt h)
    | .error (.miss a p) => .error (.miss a p)
    | .error .wait => .error .wait
    | .error (.exc e) => runThreads g instr f first t (faultThread s g i (some instr) vals e)
    | .ok (s', ws) => runThreads g instr f false t (writeAll g.block i first ws s')

/-- The threads act one after another and gather what the instruction does as a whole. -/
def runGather {α : Type} (g : Grp) (instr : Instr) (f : Nat → List DWord → α → State → Except Stop (α × State)) :
    List (Nat × List DWord) → α → State → Except Stop (α × State)
  | [], a, s => .ok (a, s)
  | (i, vals) :: t, a, s =>
    match f i vals a s with
    | .error (.halt h) => .error (.halt h)
    | .error (.miss x p) => .error (.miss x p)
    | .error .wait => .error .wait
    | .error (.exc e) => runGather g instr f t a (faultThread s g i (some instr) vals e)
    | .ok (a', s') => runGather g instr f t a' s'

/-- An instruction outside the vector pipes ends an open chain: it belongs to none, or it is the CTL instruction that ends
it (R56). -/
def closeChain (s : State) (g : Grp) : State := s.modEntry g.core g.e fun en => { en with chain := 0 }

/-- An entry becomes pending. -/
def State.makePending (s : State) (core e : Nat) : State :=
  s.modEntry core e fun en =>
    { en with
      pos := none
      marked := false
      pendSince := s.tick }

/-- A marked entry that stands outside a chain is demoted (R166). -/
def State.demote (s : State) (core e : Nat) : State :=
  match s.entry core e with
  | some en => if en.marked && en.chain == 0 then s.makePending core e else s
  | none => s

/-- The entry's next instruction waits, and some event comes first. A marked entry without a ready instruction is demoted
at once (R164, R166). -/
def State.waitFor (s : State) (core e : Nat) (ev : List Instr) : State :=
  { ((s.modEntry core e fun en => { en with waiting := true }).demote core e).later ev with focus := .none }

/-- Boot mode bars the instruction (R73): the group's threads take ILLEGAL_INSTR, whatever the guards. -/
def barBoot (instr : Instr) (s : State) (g : Grp) (k : Res) : Res :=
  if g.priv s = .boot then faultAll s g instr (lenOf instr) .illegalInstr else k

/-- A request that has not been answered. -/
def RemoteReq.open_ (r : RemoteReq) : Bool := r.val.isNone && r.err == 0

/-- A source may not send a packet yet: a strict one goes only after every earlier packet of the source has been
acknowledged, and none goes until a strict one has been (R377). -/
def State.sourceBusy (s : State) (core : Nat) (strict : Bool) : Bool :=
  s.reqs.any fun r => r.2.core == core && r.2.open_ && (strict || r.2.strict)

/-- The note of a request that leaves. -/
def RemoteReq.of (core e : Nat) (p : Packet) (now : Nat) : RemoteReq where
  core := core
  entry := e
  ask := none
  pkg := p.dpkg
  sent := now
  err := 0
  val := none
  post := none
  probe := none
  part := p.part
  addr := p.addr
  strict := p.oc == 3

/-- A packet leaves, and its request is noted. -/
def State.sendReq (s : State) (p : Packet) (r : RemoteReq) : State :=
  { s.emit (.packet { p with txid := s.nextTxid }) with
    reqs := Kv.insert s.nextTxid r s.reqs
    nextTxid := (s.nextTxid + 1) % 4096 }

/-- A request to another package leaves, if the same one is not on its way and the source may send (R377, R379, R384). -/
def State.request (s : State) (core e ask : Nat) (p : Packet) : State :=
  if s.reqs.any fun r => r.2.core == core && r.2.entry == e && r.2.ask == some ask then s
  else if s.sourceBusy core (p.oc == 3) then s.modEntry core e fun en => { en with waiting := true }
  else s.sendReq p { RemoteReq.of core e p s.clock with ask := some ask }

/-- The answers that the instruction has taken are forgotten. -/
def State.taken (s : State) (core e : Nat) : State :=
  { s with reqs := s.reqs.filter fun r => !(r.2.core == core && r.2.entry == e && r.2.ask.isSome) }

/-- An instruction stops short of its end: the run stops, or the state is as before and a request leaves. -/
def abort (s0 : State) (core e : Nat) : Stop → Res
  | .halt h => .fault h
  | .miss a p => .next ((s0.request core e a p).demote core e)
  | .wait => .next (s0.waitFor core e [])
  | .exc _ => .next s0

/-- The end of a per-thread instruction that began in state `s0`. -/
def conclude (s0 : State) (g : Grp) : Except Stop State → Res
  | .ok s => finish (s.taken g.core g.e) g
  | .error x => abort s0 g.core g.e x

/-- An instruction that acts for each active thread. -/
def eachThread (instr : Instr) (u : Use) (f : Grp → Nat → List DWord → State → Effect) (s : State) : Res :=
  match s.grp with
  | none => .next s
  | some g =>
    let r := prepare (closeChain s g) g instr u
    conclude s g (runThreads g instr (f g) true r.2 r.1)

/-- An instruction whose threads each contribute to one effect of the whole (R261): `last` performs it. -/
def gatherThreads {α : Type} (instr : Instr) (u : Use) (init : α)
    (f : Grp → Nat → List DWord → α → State → Except Stop (α × State)) (last : Grp → α → State → State)
    (s : State) : Res :=
  match s.grp with
  | none => .next s
  | some g =>
    let r := prepare (closeChain s g) g instr u
    conclude s g ((runGather g instr (f g) r.2 init r.1).map fun x => last g x.1 x.2)

/-- As `eachThread`, barred in boot mode. -/
def eachThreadNoBoot (instr : Instr) (u : Use) (f : Grp → Nat → List DWord → State → Effect) (s : State) : Res :=
  match s.grp with
  | none => .next s
  | some g => barBoot instr s g (eachThread instr u f s)

/-- What an instruction that acts once for its group does: the values its active threads' destinations receive, or the
event it must wait for before it can issue (the state is then as before, but for that event). -/
inductive Once where
  | done (s : State) (ws : List (Src × DWord))
  | stop (e : Exc)
  /-- A fault that leaves a change behind. -/
  | stopIn (s : State) (e : Exc)
  | hold (s : State) (h : Hold)
  | wait (ev : List Instr)
  | abort (x : Stop)

/-- Hold the threads: they leave the entry and are held in slot state (R159). -/
def holdThreads (s : State) (k : Nat) (l : List Nat) (h : Hold) : State :=
  s.modBlock k fun b => b.mapThreads l fun t =>
    { t with
      stat := .held h
      since := s.tick }

/-- Every thread of a list stops with the same fault, each with its own source values in its log. -/
def faultEach (g : Grp) (instr : Instr) (e : Exc) : List (Nat × List DWord) → State → State
  | [], s => s
  | (i, vals) :: t, s => faultEach g instr e t (faultThread s g i (some instr) vals e)

/-- Every thread of a list receives the same values. -/
def writeEach (k : Nat) (ws : List (Src × DWord)) : Bool → List (Nat × List DWord) → State → State
  | _, [], s => s
  | first, (i, _) :: t, s => writeEach k ws false t (writeAll k i first ws s)

/-- An instruction that acts once per issue, with the operands of the active thread of the lowest home lane; every
active thread receives the same values (R148). With no active thread it has no effect. Its fault stops every active thread:
DESIGN CHOICE, log 92. -/
def onceThread (instr : Instr) (u : Use) (f : Grp → Nat → List DWord → State → Once) (s : State) : Res :=
  match s.grp with
  | none => .next s
  | some g =>
    let r := prepare (closeChain s g) g instr u
    match r.2 with
    | [] => finish r.1 g
    | (i, vals) :: t =>
      match f g i vals r.1 with
      | .done s' ws => finish (writeEach g.block ws true ((i, vals) :: t) (s'.taken g.core g.e)) g
      | .stop e => finish (faultEach g instr e ((i, vals) :: t) r.1) g
      | .stopIn s' e => finish (faultEach g instr e ((i, vals) :: t) s') g
      | .hold s' h => finish (holdThreads s' g.block (r.2.map (·.1)) h) g
      | .wait ev => .next (s.waitFor g.core g.e ev)
      | .abort x => abort s g.core g.e x

/-- As `onceThread`, barred in boot mode. -/
def onceThreadNoBoot (instr : Instr) (u : Use) (f : Grp → Nat → List DWord → State → Once) (s : State) : Res :=
  match s.grp with
  | none => .next s
  | some g => barBoot instr s g (onceThread instr u f s)

/-! ### The vector pipes (R54 to R57) -/

/-- A vector operation: where its result goes, its pipe, its sources, the width of its result, and what it computes from
a thread and its source values: the result, the flags it raises, and the predicates it writes beside its destination. -/
structure VecOp where
  out : Out
  pipe : Nat
  srcs : List Src
  wide : Bool
  fn : Thread → List DWord → DWord × Flags × List (Nat × Bool)

/-- A vector operation that writes its destination alone. -/
def VecOp.simple (out : Out) (pipe : Nat) (srcs : List Src) (wide : Bool) (fn : Thread → List DWord → DWord × Flags) :
    VecOp := ⟨out, pipe, srcs, wide, fun t l => ((fn t l).1, (fn t l).2, [])⟩

/-- The head of a chain clears the latches of the position; a member that may continue the open chain does (R56, R57). -/
def chainStep (s : State) (g : Grp) (c : Com) : State :=
  s.modEntry g.core g.e fun en =>
    if c.chain && decide (0 < en.chain) && decide (en.chain < 8) then { en with chain := en.chain + 1 }
    else
      { en with
        chain := 1
        written := 0
        latches := [] }

/-- A member that targets a latch marks it written, whatever its guards (R57). -/
def markLatch (s : State) (g : Grp) (op : VecOp) : State :=
  s.modEntry g.core g.e fun en =>
    { en with written := en.written ||| BitVec.ofNat 8 (2 ^ (op.pipe * 4 + op.out.lt.toNat)) }

/-- Write one result: the latch of the thread's lane, and the destination unless it is suppressed (R55). The latch takes the
whole result, also where the destination is a predicate. DESIGN CHOICE, log 90. -/
def writeVec (s : State) (g : Grp) (i : Nat) (first : Bool) (op : VecOp) (v : DWord) : State :=
  let lane := (s.thread g.block i).lane
  let v := if op.wide then v else low32 v
  let s := s.modEntry g.core g.e fun en =>
    { en with latches := Kv.set 0 ((op.pipe * 4 + op.out.lt.toNat) * 64 + lane) v en.latches }
  if op.out.wbs then s else writeDst s g.block i first (op.out.dst, op.wide) v

/-- The results of one thread: every operation has read its sources before any writes (R51). The carry predicate is written
after the destination. DESIGN CHOICE, log 91. -/
def vecThread (g : Grp) (first : Bool) (i : Nat) (t : Thread) : List VecOp → List DWord → State → State
  | [], _, s => s
  | op :: rest, vals, s =>
    let r := op.fn t (vals.take op.srcs.length)
    let s := writeVec s g i first op r.1
    let s := s.modThread g.block i fun t =>
      r.2.2.foldl (fun t x => t.setPred x.1 x.2) (t.raiseFlags r.2.1)
    vecThread g first i t rest (vals.drop op.srcs.length) s

/-- The results of every thread. -/
def vecThreads (g : Grp) (ops : List VecOp) : Bool → List (Nat × List DWord) → State → State
  | _, [], s => s
  | first, (i, vals) :: t, s =>
    vecThreads g ops false t (vecThread g first i (s.thread g.block i) ops vals s)

/-- Orders 3 to 5 for the operations of one issue: the sources of each are read in its own pipe. -/
def checkVec (s : State) (g : Grp) (ops : List VecOp) (i : Nat) : Option Cls :=
  let t := s.thread g.block i
  if ops.any fun op => op.srcs.any (srcBad t.nreg true) || (!op.out.wbs && dstBad t.nreg (op.out.dst, op.wide)) then
    some .illegalOperand
  else if ops.any fun op => op.srcs.any (latchStale s g op.pipe) then some .latchStale
  else none

/-- The source values of the operations. -/
def readVec (s : State) (g : Grp) (ops : List VecOp) (i : Nat) : List DWord :=
  (ops.map fun op => op.srcs.map (srcVal s g op.pipe i)).flatten

/-- The active threads that pass the checks, with their values. -/
def checkVecAll (g : Grp) (instr : Instr) (ops : List VecOp) : List Nat → State → State × List (Nat × List DWord)
  | [], s => (s, [])
  | i :: t, s =>
    match checkVec s g ops i with
    | some c => checkVecAll g instr ops t (faultThread s g i (some instr) [] (Exc.of c))
    | none =>
      let vals := readVec s g ops i
      let r := checkVecAll g instr ops t (captureTime s g i (ops.map (·.srcs)).flatten)
      (r.1, (i, vals) :: r.2)

/-- The group has an instruction that is pending (R339). -/
def State.pends (s : State) (g : Grp) : Bool :=
  match s.entry g.core g.e with
  | some en => !en.pend.isEmpty
  | none => false

/-- An instruction of the vector pipes: one operation, or the two of a pair (R51). Where a thread would stop at it while an
earlier instruction is pending, that one is checked first (R339). -/
def execVec (instr : Instr) (com : Com) (ops : List VecOp) (s : State) : Res :=
  match s.grp with
  | none => .next s
  | some g =>
    let s1 := chainStep s g com
    if s.pends g && (g.active com s).any fun i => (checkVec s1 g ops i).isSome then
      .next (s.waitFor g.core g.e [.pendingCheck g.core g.e])
    else
    let r := checkVecAll g instr ops (g.active com s) (advance s1 g (lenOf instr))
    finish (ops.foldl (fun s op => markLatch s g op) (vecThreads g ops true r.2 r.1)) g

end Sys2Proof.Machine
end

