-- ==== Sys2Proof/Machine/Vector.lean ====
section
/-! DEFINITION. How vector instructions read their typed operands: widths, immediates, and the shared shapes of one,
two and three sources (R100 to R102). -/

namespace Sys2Proof.Machine

/-- The width in bits of a type's source (R100). -/
def tyBits : Ty → Nat
  | .i8 | .n8 | .e4m3 | .e5m2 | .t3 => 8
  | .i16 | .n16 | .bf16 | .f16 => 16
  | .i32 | .n32 | .b32 | .f32 => 32
  | .i64 | .n64 | .b64 | .f64 => 64
  | .e2m1 => 4

/-- A type whose operands are pairs (R100). -/
def tyWide (ty : Ty) : Bool := tyBits ty == 64

/-- A type read as signed (R108). -/
def tySigned : Ty → Bool
  | .i8 | .i16 | .i32 | .i64 => true
  | _ => false

/-- The source bits that a type reads. -/
def tyCut (ty : Ty) (x : DWord) : Nat := x.toNat % 2 ^ tyBits ty

/-- An FP32 encoding widened exactly to FP64: a signalling NaN stays one (R100). -/
def widen64 (x : Nat) : Nat :=
  let v := FVal.ofBits .f32 .ieee x
  (roundWide .f64 .rn v).1 - boolNat v.isSnan * 2 ^ 51

/-- The value that IMM32 gives operand B (R100). -/
def immVal (ty : Ty) (w : Word) : Nat :=
  match ty with
  | .f64 => widen64 w.toNat
  | .bf16 | .f16 => w.toNat % 2 ^ 16
  | _ => if tyWide ty then (w.signExtend 64).toNat else w.toNat

/-- Operand B: a source, or the immediate's value. -/
def srcsB (b : SrcB) (wide : Bool) : List Src :=
  match b with
  | .op o => [(o, wide)]
  | .imm _ => []

def valB (b : SrcB) (ty : Ty) (l : List DWord) (k : Nat) : Nat :=
  match b with
  | .op _ => tyCut ty (l.getD k 0)
  | .imm w => immVal ty w

/-- What an operation computes: bits and flags. -/
abbrev Calc := Nat × Flags

/-- A result without flags. -/
def bits (n : Nat) : Calc := (n, .none)

/-- A truth value (R102). -/
def truth (r : Bool × Flags) : Calc := (boolNat r.1, r.2)

/-- A result as the machine writes it. -/
def toResult (r : Calc) : DWord × Flags := (BitVec.ofNat 64 r.1, r.2)

/-- One typed source; `wide` is the width of the result. -/
def vec1 (instr : Instr) (x : Vec1) (pipe : Nat) (wide : Bool) (f : Thread → Nat → Calc) : State → Res :=
  execVec instr x.com [VecOp.simple x.out pipe [(x.a, tyWide x.ty)] wide
    fun t l => toResult (f t (tyCut x.ty (l.getD 0 0)))]

/-- Two typed sources. -/
def vec2 (instr : Instr) (x : Vec2) (pipe : Nat) (wide : Bool) (f : Thread → Nat → Nat → Calc) : State → Res :=
  execVec instr x.com [VecOp.simple x.out pipe ((x.a, tyWide x.ty) :: srcsB x.b (tyWide x.ty)) wide
    fun t l => toResult (f t (tyCut x.ty (l.getD 0 0)) (valB x.b x.ty l 1))]

/-- Two sources of which B is a 32-bit operand whatever the type. -/
def vec2w (instr : Instr) (x : Vec2) (pipe : Nat) (wide : Bool) (f : Thread → Nat → Nat → Calc) : State → Res :=
  execVec instr x.com [VecOp.simple x.out pipe ((x.a, tyWide x.ty) :: srcsB x.b false) wide
    fun t l => toResult (f t (tyCut x.ty (l.getD 0 0)) (valB x.b .b32 l 1))]

/-- Three typed sources; `cw` is the width of C where it differs from the type's. -/
def vec3 (instr : Instr) (x : Vec3) (pipe : Nat) (cw : Bool) (f : Thread → Nat → Nat → Nat → Calc) : State → Res :=
  execVec instr x.com [VecOp.simple x.out pipe [(x.a, tyWide x.ty), (x.b, tyWide x.ty), (x.c, cw)] (tyWide x.ty)
    fun t l => toResult (f t (tyCut x.ty (l.getD 0 0)) (tyCut x.ty (l.getD 1 0)) (l.getD 2 0).toNat)]

end Sys2Proof.Machine
end

