-- ==== Sys2Proof/Machine/Moves.lean ====
section
/-! DEFINITION. Address, predicate and move instructions, and the control and status registers (R25 to R27, R33,
R114 to R122, R245, R345, R447). -/

namespace Sys2Proof.Machine

/-- A space whose addresses are 64 bits wide (R48). -/
def Space.far : Space → Bool
  | .global | .const => true
  | .scratch | .cluster => false

/-- The effective address of R48 from the base and index values. -/
def effAddr (m : MemOp) (base idx : DWord) : Nat :=
  let x := base + ((idx.setWidth 32).signExtend 64) * BitVec.ofNat 64 (2 ^ m.scale.toNat) + m.off.signExtend 64
  if Space.far m.space then x.toNat else x.toNat % 2 ^ 32

/-- The base and index of a memory operand as sources. -/
def memSrcs (m : MemOp) : List Src := [(m.base, Space.far m.space), (m.index, false)]

/-- LEA (R114). -/
def execLea (com : Com) (out : Out) (m : MemOp) : State → Res :=
  execVec (.lea com out m) com [VecOp.simple out 0 (memSrcs m) (Space.far m.space) fun _ l =>
    (BitVec.ofNat 64 (effAddr m (l.getD 0 0) (l.getD 1 0)), .none)]

/-- LEAH (R114). -/
def execLeah (com : Com) (out : Out) (m : MemOp) : State → Res :=
  execVec (.leah com out m) com [VecOp.simple out 0 (memSrcs m) false fun _ l =>
    (BitVec.ofNat 64 (effAddr m (l.getD 0 0) (l.getD 1 0) / 2 ^ 32), .none)]

/-- The first address of the scratch window (R116). -/
def scratchWindow : Nat := 0x000FE00000000000

/-- SWIN (R115). -/
def execSwin (com : Com) (out : Out) (cluster : Bool) (a : Opnd) : State → Res :=
  execVec (.swin com out cluster a) com [VecOp.simple out 0 [(a, false)] true fun _ l =>
    (BitVec.ofNat 64 (scratchWindow + boolNat cluster * 2 ^ 32 + (l.getD 0 0).toNat), .none)]

/-- PLUT (R117). -/
def execPlut (com : Com) (out : Out) (table : BitVec 8) (a b c : Opnd) : State → Res :=
  execVec (.plut com out table a b c) com
    [VecOp.simple out 0 [(a, false), (b, false), (c, false)] false fun _ l =>
      let x (k : Nat) : Nat := boolNat (l.getD k 0 != 0)
      (BitVec.ofNat 64 (boolNat (table.toNat.testBit (4 * x 0 + 2 * x 1 + x 2))), .none)]

/-- PMOV.get (R118): bit 7 is always 1. -/
def execPmovGet (com : Com) (out : Out) : State → Res :=
  execVec (.pmovGet com out) com [VecOp.simple out 0 [] false fun t _ =>
    (BitVec.ofNat 64 (128 + t.preds.toNat), .none)]

/-- PMOV.set (R118): p0 to p6, and the latch that LT names. -/
def execPmovSet (com : Com) (lt : BitVec 2) (a : Opnd) : State → Res :=
  execVec (.pmovSet com lt a) com [{
    out := ⟨true, .zero, lt⟩
    pipe := 0
    srcs := [(a, false)]
    wide := false
    fn := fun _ l =>
      let v := (l.getD 0 0).toNat % 128
      (BitVec.ofNat 64 v, .none, (List.range 7).map fun k => (k, v.testBit k)) }]

/-- MOV (R119). -/
def execMov (x : Vec1) : State → Res := vec1 (.mov x) x 0 (tyWide x.ty) fun _ a => bits a

/-- MOVI (R119): IMM32 is sign-extended under .b64. -/
def execMovi (com : Com) (out : Out) (ty : Ty) (imm : DWord) (wide : Bool) : State → Res :=
  execVec (.movi com out ty imm wide) com [VecOp.simple out 0 [] (tyWide ty) fun _ _ =>
    (if !wide && tyWide ty then (imm.setWidth 32).signExtend 64 else imm, .none)]

/-- BSEL (R120). -/
def bselVal (a b c : Nat) : Nat :=
  ((List.range 4).map fun k =>
    let x := c / 2 ^ (8 * k) % 256
    if x.testBit 7 then 0 else (b * 2 ^ 32 + a) / 2 ^ (8 * (x % 8)) % 256 * 2 ^ (8 * k)).sum

def execBsel (x : Vec3) : State → Res :=
  let cs : List Src := if x.imm.isNone then [(x.c, false)] else []
  execVec (.bsel x) x.com [VecOp.simple x.out 1 ((x.a, false) :: (x.b, false) :: cs) false fun _ l =>
    toResult (bits (bselVal (l.getD 0 0).toNat (l.getD 1 0).toNat
      (match x.imm with | some w => w.toNat | none => (l.getD 2 0).toNat)))]

/-! ### Control and status registers -/

/-- The registers of R25 with those of R245, R345 and R447. -/
inductive Csr where
  | fpcsr | thstat | bootvec | diagbase | diagctl | pt1root | evq | slice | partcfg | deftbl | hailpay | hailcnt
  deriving DecidableEq, Repr

/-- The register of a number. -/
def Csr.ofNum : Nat → Option Csr
  | 0x000 => some .fpcsr
  | 0x001 => some .thstat
  | 0x020 => some .bootvec
  | 0x021 => some .diagbase
  | 0x022 => some .diagctl
  | 0x040 => some .pt1root
  | 0x041 => some .evq
  | 0x042 => some .slice
  | 0x043 => some .partcfg
  | 0x044 => some .deftbl
  | 0x045 => some .hailpay
  | 0x046 => some .hailcnt
  | _ => none

/-- A 64-bit register. -/
def Csr.wide : Csr → Bool
  | .bootvec | .diagbase | .pt1root | .evq | .deftbl | .hailpay => true
  | _ => false

/-- The privilege its reads and writes need. -/
def Csr.level : Csr → Nat
  | .fpcsr | .thstat => 0
  | .bootvec | .diagbase | .diagctl => 2
  | _ => 1

/-- A register of the partition, which the boot-mode thread does not have (R25). -/
def Csr.ofPart : Csr → Bool
  | .pt1root | .evq | .slice | .partcfg | .deftbl | .hailpay | .hailcnt => true
  | _ => false

/-- A register that no CSRW writes. -/
def Csr.readOnly : Csr → Bool
  | .thstat | .partcfg | .deftbl | .hailpay | .hailcnt => true
  | _ => false

/-- THSTAT (R27). -/
def thstatVal (t : Thread) : Nat := t.nreg8 * 256 + t.slot * 16 + t.priv.level

/-- PARTCFG (R447): margin clusters now held, guaranteed clusters, wake class. -/
def partcfgVal (p : Partition) : Nat :=
  (p.params.margin.length - p.lent.length) * 2 ^ 16 + p.params.guaranteed.length * 2 ^ 8 + p.params.wcls

/-- The value of a register as thread `t` on core `c` of partition `p` reads it. -/
def csrRead (s : State) (c : Nat) (p : Option Partition) (t : Thread) : Csr → DWord
  | .fpcsr => t.fpcsr.setWidth 64
  | .thstat => BitVec.ofNat 64 (thstatVal t)
  | .bootvec => (s.core c).bootvec
  | .diagbase => (s.core c).diagbase
  | .diagctl => (s.core c).diagctl.setWidth 64
  | .pt1root => (p.map (·.pt1root)).getD 0
  | .evq => (p.map (·.evq)).getD 0
  | .slice => ((p.map Partition.slice).getD 0).setWidth 64
  | .partcfg => BitVec.ofNat 64 ((p.map partcfgVal).getD 0)
  | .deftbl => 0x000FFFF000010000
  | .hailpay => (p.map (·.hailpay)).getD 0
  | .hailcnt => ((p.map Partition.hailcnt).getD 0).setWidth 64

/-- The new values that a register takes (R26, R33, R122, R245, R345). -/
def csrOk (r : Csr) (v : Nat) : Bool :=
  match r with
  | .fpcsr => fpcsrOk (BitVec.ofNat 32 v)
  | .bootvec => true
  | .diagbase => bitsOf v 63 52 == 0 && bitsOf v 21 0 == 0 && bitsOf v 51 46 != 0
  | .diagctl => decide (v < 2)
  | .pt1root => bitsOf v 63 52 == 0 && bitsOf v 6 0 == 0
  | .evq => bitsOf v 63 52 == 0 && bitsOf v 5 0 == 0
  | .slice => decide (v < 2 ^ 20) && decide (200 ≤ v)
  | _ => false

/-- The register takes a new value. -/
def csrWrite (s : State) (g : Grp) (i : Nat) (r : Csr) (v : DWord) : State :=
  let p := (g.part s).getD 0
  match r with
  | .fpcsr => s.modThread g.block i fun t => { t with fpcsr := v.setWidth 32 }
  | .bootvec => s.modCore g.core fun c => { c with bootvec := v }
  | .diagbase => s.modCore g.core fun c => { c with diagbase := v }
  | .diagctl => s.modCore g.core fun c => { c with diagctl := v.setWidth 32 }
  | .pt1root => s.modPart p fun x => { x with pt1root := v }
  | .evq => s.modPart p fun x => { x with evq := v }
  | .slice => s.modPart p fun x => { x with slice := v.setWidth 32 }
  | _ => s

/-- The privilege that a register number needs; an unknown number fails at order 4 (R25, R59). -/
def csrLevel (n : BitVec 12) : Nat := ((Csr.ofNum n.toNat).map Csr.level).getD 0
def csrWide (n : BitVec 12) : Bool := ((Csr.ofNum n.toNat).map Csr.wide).getD false

/-- CSRR (R122). -/
def execCsrr (com : Com) (reg : BitVec 12) (dst : Opnd) : State → Res :=
  eachThread (.csrr com reg dst) ⟨com, none, csrLevel reg, [], [(dst, csrWide reg)]⟩ fun g i _ s =>
    match Csr.ofNum reg.toNat with
    | none => .error (.exc (Exc.of .illegalOperand))
    | some r =>
      if r.ofPart && (g.part s).isNone then .error (.exc (Exc.of .illegalOperand))
      else .ok (s, [((dst, r.wide), csrRead s g.core ((g.part s).bind s.part) (s.thread g.block i) r)])

/-- The three forms of CSRW (R122): `f` forms the new value from the old one and a. -/
def csrwOp (instr : Instr) (com : Com) (reg : BitVec 12) (a : Opnd) (f : DWord → DWord → DWord) : State → Res :=
  eachThread instr ⟨com, none, csrLevel reg, [(a, csrWide reg)], []⟩ fun g i l s =>
    match Csr.ofNum reg.toNat with
    | none => .error (.exc (Exc.of .illegalOperand))
    | some r =>
      let v := f (csrRead s g.core ((g.part s).bind s.part) (s.thread g.block i) r) (l.getD 0 0)
      if (r.ofPart && (g.part s).isNone) || r.readOnly || !csrOk r v.toNat then
        .error (.exc (Exc.of .illegalOperand))
      else .ok (csrWrite s g i r v, [])

def execCsrw (com : Com) (reg : BitVec 12) (a : Opnd) : State → Res :=
  csrwOp (.csrw com reg a) com reg a fun _ v => v
def execCsrwSet (com : Com) (reg : BitVec 12) (a : Opnd) : State → Res :=
  csrwOp (.csrwSet com reg a) com reg a fun old v => old ||| v
def execCsrwClr (com : Com) (reg : BitVec 12) (a : Opnd) : State → Res :=
  csrwOp (.csrwClr com reg a) com reg a fun old v => old &&& ~~~v

end Sys2Proof.Machine
end

