-- ==== Sys2Proof/Machine/Mem.lean ====
section
/-! DEFINITION. Memory: physical places, the nested walk, the checks of an access in their order, and the reading and
writing of bytes in every space (R28, R32 to R35, R232 to R261, R369). -/

namespace Sys2Proof.Machine

/-! ### Bytes -/

/-- What a byte of memory that nothing has written reads as (R242). DESIGN CHOICE, log 4. -/
def emptyByte : Byte := 0

/-- One byte of memory. -/
def State.byteAt (s : State) (a : Nat) : Byte := Kv.get emptyByte a s.mem

/-- Write one byte of memory, keeping the list canonical. -/
def State.setByte (s : State) (a : Nat) (b : Byte) : State := { s with mem := Kv.set emptyByte a b s.mem }

/-- The canonical form of memory. -/
def Memory.wf (m : List Host.Cell) : Bool := Kv.wf emptyByte m

/-- `n` bytes as a little-endian number (R8). -/
def leRead (f : Nat → Byte) (a : Nat) : Nat → Nat
  | 0 => 0
  | n + 1 => (f a).toNat + 256 * leRead f (a + 1) n

/-- A number's `n` bytes with their addresses, little-endian (R8). -/
def leCells (a v : Nat) : Nat → List Host.Cell
  | 0 => []
  | n + 1 => (a, BitVec.ofNat 8 v) :: leCells (a + 1) (v / 256) n

/-- Write cells one after another. -/
def State.setCells (s : State) (l : List Host.Cell) : State := l.foldl (fun s c => s.setByte c.1 c.2) s

/-! ### Regions and granules (R243, R244, R261, R369) -/

/-- The parts of a system-physical address (R243). -/
def spaPkg (spa : Nat) : Nat := spa / 2 ^ 46
def spaLocal (spa : Nat) : Nat := spa % 2 ^ 46

/-- The interleave entry of an address's region. -/
def State.region (s : State) (lpa : Nat) : Nat := (Kv.get 0 (lpa / 2 ^ 30) s.interleave).toNat

/-- The region is present, dovetailed; its mode (R369). -/
def regionV (e : Nat) : Bool := bitOf e 63
def regionDove (e : Nat) : Bool := bitOf e 60
def regionMode (e : Nat) : Nat := bitsOf e 62 61

/-- The bytes of an ECC granule (R261): 64 in a dovetailed region, 32 in a split one. Granules of another package are
tracked here as 32 bytes. -/
def State.granule (s : State) (spa : Nat) : Nat :=
  if spaPkg spa = s.harbour.pkg && regionDove (s.region (spaLocal spa)) then 64 else 32

/-- The granule holding an address: its first byte. -/
def State.granuleOf (s : State) (spa : Nat) : Nat := spa / s.granule spa * s.granule spa

/-- What a system-physical address names (R244). -/
inductive Target where
  | dram | control | remote | nothing
  deriving DecidableEq, Repr

/-- The first address of the control region. -/
def controlBase : Nat := 0x3F0000000000

/-- The target of an address. A package of the domain is one that the route table holds (R384). -/
def State.target (s : State) (spa : Nat) : Target :=
  let a := spaLocal spa
  if spaPkg spa = s.harbour.pkg then
    if decide (a < s.absent.dramEnd) && regionV (s.region a) then .dram
    else if controlBase ≤ a then .control
    else .nothing
  else if (Kv.find (spaPkg spa) s.harbour.routes).isSome then
    if decide (a < 0xC000000000) || decide (controlBase ≤ a) then .remote else .nothing
  else .nothing

/-- Whether any granule of a range reads as poison. -/
def State.poisonedIn (s : State) (spa n : Nat) : Option Nat :=
  let gs := distinct ((List.range n).map fun k => s.granuleOf (spa + k))
  gs.find? fun a => (Kv.find a s.ecc).isSome

/-- A granule found uncorrectable becomes marked poisoned (R261). DESIGN CHOICE, log 78. -/
def State.markPoison (s : State) (gr : Nat) : State := { s with ecc := Kv.insert gr .poisoned s.ecc }

/-- The exception of reading a poisoned granule (R338). -/
def poisonExc (s : State) (gr va : Nat) : Exc := ⟨.poison, boolNat (s.granule gr == 64), gr, va, 0⟩

/-! ### Translation (R246 to R252) -/

/-- The kinds of access a stage permits or refuses (R249). -/
inductive Access where
  | load | store | fetch
  deriving DecidableEq, Repr

/-- The index shift of a level (R246). -/
def levelShift (l : Nat) : Nat := 48 - 9 * l

/-- The index of an address at a level (R246). -/
def levelIndex (l a : Nat) : Nat := a / 2 ^ levelShift l % (if l = 0 then 16 else 512)

/-- Fields of a table entry (R247). -/
def pteV (e : Nat) : Bool := bitOf e 0
def pteLeaf (e : Nat) : Bool := bitOf e 1
def pteR (e : Nat) : Bool := bitOf e 5
def pteW (e : Nat) : Bool := bitOf e 6
def pteU (e : Nat) : Bool := bitOf e 7
def pteMt (e : Nat) : Nat := bitsOf e 10 8
def pteC64 (e : Nat) : Bool := bitOf e 11
def pteOa (e : Nat) : Nat := bitsOf e 55 12 * 2 ^ 12
def pteXd (e : Nat) : Bool := bitOf e 63

/-- The members of a 64 KiB group agree with entry `e` (R248). `member k` is entry `k` of the group. -/
def groupOk (e : Nat) (member : Nat → Nat) : Bool :=
  let first := pteOa (member 0)
  (List.range 16).all (fun k =>
    let m := member k
    pteV m && pteLeaf m && pteC64 m && pteXd m == pteXd e && pteMt m == pteMt e && pteU m == pteU e &&
      pteW m == pteW e && pteR m == pteR e && pteOa m == first + 4096 * k) &&
  first % 2 ^ 16 == 0

/-- A valid entry has a format error (R248). `stage2` selects the stage; `member` gives the entry's group of 16. -/
def pteBad (stage2 : Bool) (l e : Nat) (member : Nat → Nat) : Bool :=
  let resOa := !stage2 && bitsOf e 55 52 != 0
  bitsOf e 62 56 != 0 || bitsOf e 4 2 != 0 || resOa ||
  (if pteLeaf e then
    decide (l < 2) || decide (2 < pteMt e) || (pteW e && !pteR e) || (stage2 && pteU e) ||
      (l == 2 && bitsOf e 29 12 != 0) || (l == 3 && bitsOf e 20 12 != 0) ||
      (pteC64 e && (l != 4 || !groupOk e member))
  else
    l == 4 || pteXd e || pteC64 e || pteMt e != 0 || pteU e || pteW e || pteR e)

/-- A page found by a walk: first address, the level of its leaf, and its attributes. -/
structure Page where
  base : Nat
  level : Nat
  mt : Nat
  user : Bool
  write : Bool
  read : Bool
  exec : Bool
  deriving DecidableEq, Repr

def Page.ofLeaf (l e : Nat) : Page := ⟨pteOa e, l, pteMt e, pteU e, pteW e, pteR e, !pteXd e⟩

/-- A refused translation: cause, stage, level, and the GPA of a stage-2 cause (R251). Cause 0 is no refusal: the walk
needs a line of another package, whose number stands in `gpa`. -/
structure XErr where
  cause : Nat
  stage2 : Bool
  level : Nat
  gpa : Nat
  deriving DecidableEq, Repr

/-! ### Lines of other packages (R372, R373, R379, R384) -/

/-- The proxy slice of an address of another package (R379). -/
def proxySlice (spa : Nat) : Nat := Nat.xor (bitsOf spa 11 8) (bitsOf spa 15 12)

/-- A packet with the fields that an address gives it and no data. -/
def State.packet (s : State) (op oc part spa sag : Nat) : Packet where
  op := op
  oc := oc
  dpkg := spaPkg spa
  dstk := proxySlice spa
  spkg := s.harbour.pkg
  sstk := proxySlice spa
  sag := sag
  part := part
  txid := 0
  job := 0
  flow := 0
  noffm1 := 0
  esz := 0
  scope := 0
  mt := 0
  addr := spa
  imm := 0
  data := []

/-- The request for both sectors of a line (R373). DESIGN CHOICE, log 22. -/
def State.lineRead (s : State) (line part sag : Nat) : Packet :=
  { s.packet 0x01 0 part (line * 64) sag with imm := 3 }

/-- A package that no port reaches (R384). -/
def State.unreachable (s : State) (pkg : Nat) : Bool := (Kv.get (0, 0) pkg s.harbour.routes).1 == 0

/-- What stands in the way of reading a line of another package: nothing where it is held, an error status (2 where it
cannot be reached), or none yet. -/
inductive LineHold where
  | held
  | failed (status : Nat)
  | missing
  /-- A write, atomic or reduction of the source to the line is not acknowledged yet (R378). -/
  | unacked
  deriving DecidableEq, Repr

/-- How a line of another package stands for the agent that waits as `core`, `e` (R373, R378, R384). -/
def State.lineHold (s : State) (core e line : Nat) : LineHold :=
  if s.proxy.contains line then .held
  else if s.unreachable (spaPkg (line * 64)) then .failed 2
  else if s.reqs.any fun r => r.2.core == core && r.2.post.isSome && r.2.addr / 64 == line then .unacked
  else
    match s.reqs.find? fun r => r.2.core == core && r.2.entry == e && r.2.ask == some line && r.2.err != 0 with
    | some r => .failed r.2.err
    | none => .missing

/-- The key of the stage-2 entry that a walk of a GPA reads at a level. -/
def s2Key (l gpa : Nat) : Nat := l * 2 ^ 60 + gpa / 2 ^ levelShift l

/-- The stage-2 walk of a GPA from a level on. -/
def walk2 (p : Partition) (gpa : Nat) : Nat → Nat → Except XErr Page
  | _, 0 => .error ⟨2, true, 4, gpa⟩
  | l, fuel + 1 =>
    let e := (Kv.get 0 (s2Key l gpa) p.s2).toNat
    let x := levelIndex l gpa
    let member (k : Nat) : Nat := (Kv.get 0 (s2Key l gpa - x % 16 + k) p.s2).toNat
    if !pteV e then .error ⟨2, true, l, gpa⟩
    else if pteBad true l e member then .error ⟨4, true, l, gpa⟩
    else if pteLeaf e then .ok (Page.ofLeaf l e)
    else walk2 p gpa (l + 1) fuel

/-- A GPA through stage 2. -/
def stage2 (p : Partition) (gpa : Nat) : Except XErr (Page × Nat) :=
  match walk2 p gpa 0 5 with
  | .ok pg => .ok (pg, pg.base + gpa % 2 ^ levelShift pg.level)
  | .error e => .error e

/-- A page permits an access (R249). -/
def Page.permits (pg : Page) (a : Access) : Bool :=
  match a with
  | .load => pg.read
  | .store => pg.read && pg.write
  | .fetch => pg.read && pg.exec

/-- A stage-2 page as a nested TLB holds it, and back (R252). -/
def Page.entry (pg : Page) (part gpa : Nat) : TlbEntry :=
  let sz := levelShift pg.level
  ⟨part, gpa / 2 ^ sz * 2 ^ sz, sz, pg.base, pg.mt, pg.user, pg.write, pg.read, pg.exec⟩
def TlbEntry.asPage (t : TlbEntry) : Page := ⟨t.spa, (48 - t.size) / 9, t.mt, t.user, t.write, t.read, t.exec⟩

/-- What a walk has used so far: the stage-2 pages, and the lines that its entries stand in. -/
structure Used where
  pages : List TlbEntry
  lines : List Nat
  deriving DecidableEq, Repr

/-- A stage-2 lookup of a walk: a page of the nested TLB that permits the access serves it, else the tables are walked. -/
def lookup2 (nest : List TlbEntry) (part : Nat) (p : Partition) (a : Access) (gpa : Nat) : Except XErr (Page × Nat) :=
  match nest.find? fun t => t.part == part && gpa / 2 ^ t.size * 2 ^ t.size == t.va && t.asPage.permits a with
  | some t => .ok (t.asPage, t.spa + gpa % 2 ^ t.size)
  | none => stage2 p gpa

/-- The bytes of a stash line of the package that is modified stand for memory's (R237, R239, R250). -/
def State.coherentByte (s : State) (a : Nat) : Byte :=
  match (s.blocks.map fun b => (b.2.cores.map fun c => c.2.stash).flatten).flatten.findSome? fun p =>
      p.lines.find? fun l => l.2.spa == a / 64 * 64 && l.2.st == .modified with
  | some l => l.2.data.getD (a % 64) 0
  | none => s.byteAt a

/-- Read a stage-1 table entry for a walk (R249, R250): entry `x` of the table at a GPA. It needs RD at stage 2; a poisoned
granule is cause 6. -/
def readPte (s : State) (nest : List TlbEntry) (part : Nat) (p : Partition) (l table x : Nat) (u : Used) :
    Except XErr (Nat × Used) :=
  let gpa := table + 8 * x
  match lookup2 nest part p .load gpa with
  | .error e => .error e
  | .ok (pg, spa) =>
    let u : Used := ⟨pg.entry part gpa :: u.pages, spa / 64 :: u.lines⟩
    if !pg.read then .error ⟨3, true, l, table⟩
    else
      match s.target spa with
      | .dram => if (s.poisonedIn spa 8).isSome then .error ⟨6, false, l, 0⟩ else .ok (leRead s.coherentByte spa 8, u)
      | .remote =>
        if controlBase ≤ spaLocal spa then .error ⟨5, true, pg.level, gpa⟩
        else if s.proxy.contains (spa / 64) then .ok (leRead s.coherentByte spa 8, u)
        else if s.unreachable (spaPkg spa) || s.reqs.any fun r => r.2.ask == some (spa / 64) && r.2.err != 0 then
          .error ⟨6, false, l, 0⟩
        else .error ⟨0, false, l, spa / 64⟩
      | _ => .error ⟨5, true, pg.level, gpa⟩

/-- The entries of a group of 16, from the `n`-th from the end on. -/
def readGroup (s : State) (nest : List TlbEntry) (part : Nat) (p : Partition) (l table first : Nat) :
    Nat → Used → Except XErr (List Nat × Used)
  | 0, u => .ok ([], u)
  | n + 1, u =>
    match readPte s nest part p l table (first + 15 - n) u with
    | .error e => .error e
    | .ok (e, u) => (readGroup s nest part p l table first n u).map fun r => (e :: r.1, r.2)

/-- The stage-1 walk of a VA from a table and a level on. -/
def walk1 (s : State) (nest : List TlbEntry) (part : Nat) (p : Partition) (va : Nat) :
    Nat → Nat → Nat → Used → Except XErr (Page × Used)
  | _, _, 0, _ => .error ⟨1, false, 4, 0⟩
  | table, l, fuel + 1, u =>
    let x := levelIndex l va
    match readPte s nest part p l table x u with
    | .error e => .error e
    | .ok (e, u) =>
      if !pteV e then .error ⟨1, false, l, 0⟩
      else
        match if pteLeaf e && pteC64 e && l == 4 then readGroup s nest part p l table (x - x % 16) 16 u else .ok ([], u) with
        | .error e => .error e
        | .ok (ms, u) =>
          if pteBad false l e (ms.getD · 0) then .error ⟨4, false, l, 0⟩
          else if pteLeaf e then .ok (Page.ofLeaf l e, u)
          else walk1 s nest part p va (pteOa e) (l + 1) fuel u

/-- What a translation gives: the address, the combined attributes, and the page it holds for. -/
structure Xlat where
  spa : Nat
  mt : Nat
  page : TlbEntry
  deriving DecidableEq, Repr

/-- A result outside the targets of R244: what is not there, and control registers through another memory type. -/
def State.badTarget (s : State) (spa mt : Nat) : Bool :=
  match s.target spa with
  | .nothing => true
  | .control => mt != 2
  | .remote => decide (controlBase ≤ spaLocal spa) && mt != 2
  | .dram => false

/-- The nested walk (R249, R251). -/
def nestedWalk (s : State) (nest : List TlbEntry) (part : Nat) (p : Partition) (pr : Priv) (a : Access) (va : Nat) :
    Except XErr (Xlat × Used) :=
  match walk1 s nest part p va (bitsOf p.pt1root.toNat 51 7 * 2 ^ 7) 0 5 ⟨[], []⟩ with
  | .error e => .error e
  | .ok (p1, u) =>
    if !p1.permits a || (pr == .user && !p1.user) then .error ⟨3, false, p1.level, 0⟩
    else
      let gpa := p1.base + va % 2 ^ levelShift p1.level
      match lookup2 nest part p a gpa with
      | .error e => .error e
      | .ok (p2, spa) =>
        let mt := max p1.mt p2.mt
        let sz := min (levelShift p1.level) (levelShift p2.level)
        if !p2.permits a then .error ⟨3, true, p2.level, gpa⟩
        else if s.badTarget spa mt then .error ⟨5, true, p2.level, gpa⟩
        else .ok (⟨spa, mt, ⟨part, va / 2 ^ sz * 2 ^ sz, sz, spa / 2 ^ sz * 2 ^ sz, mt, p1.user, p1.write && p2.write,
          p1.read && p2.read, p1.exec && p2.exec⟩⟩, ⟨p2.entry part gpa :: u.pages, u.lines⟩)

/-- The exception of a refused translation (R251, R338). -/
def XErr.exc (e : XErr) (a : Access) (va : Nat) : Exc where
  cls := .pageFault
  detail := e.cause + 16 * boolNat e.stage2 + 32 * e.level + 256 * boolNat (a == .store) + 512 * boolNat (a == .fetch)
  aux := if e.stage2 then e.gpa else 0
  addr := va
  elem := 0

/-- What a refused translation does to the access. -/
def XErr.stop (s : State) (core : Nat) (e : XErr) (a : Access) (va : Nat) : Stop :=
  if e.cause = 0 then .miss e.gpa (s.lineRead e.gpa 0 core) else .exc (e.exc a va)

/-- A TLB entry serves an access: one that it would refuse is walked again (R250, R252). -/
def TlbEntry.serves (t : TlbEntry) (part : Nat) (pr : Priv) (a : Access) (va : Nat) : Bool :=
  t.part == part && va / 2 ^ t.size * 2 ^ t.size == t.va && (pr != .user || t.user) && t.asPage.permits a

/-- Who translates: a core's accesses and fetch, or an operation of one of its engines (R253). -/
inductive Via where
  | core
  | engine (n : Nat)
  deriving DecidableEq, Repr

/-- The TLB that is looked at first, and its entries (R252). -/
def Core.firstTlb (c : Core) : Via → List TlbEntry
  | .core => c.tlb
  | .engine n => Kv.get [] n c.ahead

/-- A TLB takes an entry, the oldest leaving it. -/
def keepEntry (n : Nat) (t : TlbEntry) (l : List TlbEntry) : List TlbEntry := (t :: l).take n

def Core.keep (c : Core) (v : Via) (t : TlbEntry) : Core :=
  match v with
  | .core => { c with tlb := keepEntry 64 t c.tlb }
  | .engine n => { c with ahead := Kv.insert n (keepEntry 32 t (Kv.get [] n c.ahead)) c.ahead }

/-- Cluster and die of a core. -/
def clusterOf (c : Nat) : Nat := c / 4
def dieOf (c : Nat) : Nat := c / 48

/-- Translate for a core or an operation of its engines: its TLB serves first, then the cluster's for a core, then the walk, whose
stage-2 lookups the die's nested TLB serves; each holds what has been found (R252). DESIGN CHOICE, log 18. -/
def State.translateVia (s : State) (v : Via) (c part : Nat) (pr : Priv) (a : Access) (va : Nat) :
    Except Stop (Xlat × State) :=
  let hit (l : List TlbEntry) : Option TlbEntry := l.find? fun t => t.serves part pr a va
  let found (t : TlbEntry) : Xlat := ⟨t.spa + va % 2 ^ t.size, t.mt, t⟩
  let cl := Kv.get [] (clusterOf c) s.clusterTlbs
  match hit ((s.core c).firstTlb v) with
  | some t => .ok (found t, s)
  | none =>
    match if v = Via.core then hit cl else none with
    | some t => .ok (found t, s.modCore c (·.keep v t))
    | none =>
      match s.part part with
      | none => .error (.exc (Exc.of .pageFault))
      | some p =>
        let nest := Kv.get [] (dieOf c) s.nestedTlbs
        match nestedWalk s nest part p pr a va with
        | .error e => .error (e.stop s c a va)
        | .ok (x, u) =>
          let s := { s with
            nestedTlbs := Kv.insert (dieOf c)
              (u.pages.foldr (fun t l => if l.contains t then l else keepEntry 4096 t l) nest) s.nestedTlbs
            clusterTlbs := if v = Via.core then Kv.insert (clusterOf c) (keepEntry 2048 x.page cl) s.clusterTlbs
              else s.clusterTlbs }
          .ok (x, s.modCore c (·.keep v x.page))

/-- Translate for a core. -/
def State.translate (s : State) (c part : Nat) (pr : Priv) (a : Access) (va : Nat) : Except Stop (Xlat × State) :=
  s.translateVia .core c part pr a va

/-- Translate for a unit outside the cores: the dispatcher, the record writer, an engine's own translation. -/
def State.walk (s : State) (part : Nat) (pr : Priv) (a : Access) (va : Nat) : Except Stop Xlat :=
  if 2 ^ 52 ≤ va then .error (.exc ⟨.addrRange, 0, 0, va, 0⟩)
  else
    match s.part part with
    | none => .error (.exc (Exc.of .pageFault))
    | some p =>
      match nestedWalk s [] part p pr a va with
      | .error e => .error (e.stop s 0x210 a va)
      | .ok x => .ok x.1

/-! ### Where an access goes -/

/-- The place of an access. -/
inductive Place where
  /-- Scratch of the block: the block's core number and the offset. -/
  | scratch (bc off : Nat)
  /-- The diagnostic aperture, by offset. -/
  | aperture (off : Nat)
  /-- Memory, by system-physical address and memory type. -/
  | phys (spa mt : Nat)
  deriving DecidableEq, Repr

/-- What an instruction accepts of an access: the scratch window, the aperture (R259). -/
structure Form where
  window : Bool
  aperture : Bool
  deriving DecidableEq, Repr

def rangeExc (ea : Nat) : Stop := .exc ⟨.addrRange, 0, 0, ea, 0⟩
def alignExc (ea : Nat) : Stop := .exc ⟨.align, 0, 0, ea, 0⟩

/-- Local or cluster scratch at an offset (R170, R259). -/
def scratchPlace (s : State) (k bc : Nat) (cluster : Bool) (off n ea : Nat) : Except Stop Place :=
  let b := s.block k
  let limit := if cluster then b.cores.length * b.scratch else b.scratch
  if limit ≤ off then .error (rangeExc ea)
  else if off % n != 0 then .error (alignExc ea)
  else if cluster then .ok (.scratch (off / b.scratch) (off % b.scratch))
  else .ok (.scratch bc off)

/-- An address in boot mode (R32, R34, R35, R116, R259). DESIGN CHOICE, log 13. -/
def bootPlace (s : State) (c : Nat) (f : Form) (ea n : Nat) : Except Stop Place :=
  let x := s.core c
  let base := x.diagbase.toNat
  if ea / 2 ^ 33 * 2 ^ 33 == scratchWindow then .error (rangeExc ea)
  else if bitOf x.diagctl.toNat 0 && decide (base ≤ ea) && decide (ea < base + 2 ^ 22) then
    let off := ea - base
    if !f.aperture || 0x180104 ≤ off then .error (rangeExc ea)
    else if n != 4 || off % 4 != 0 then .error (alignExc ea)
    else .ok (.aperture off)
  else if 2 ^ 46 ≤ ea then .error (rangeExc ea)
  else if ea % n != 0 then .error (alignExc ea)
  else
    let spa := s.harbour.pkg * 2 ^ 46 + ea
    match s.target spa with
    | .nothing => .error (.halt .noSuchAddress)
    | .control => .ok (.phys spa 2)
    | _ => .ok (.phys spa 0)

/-- The checks of R259 up to the translation, and the place of the access. The ADDR of a fault of a window access is the
address in the window. DESIGN CHOICE, log 81. -/
def resolve (g : Grp) (i : Nat) (f : Form) (sp : Space) (a : Access) (ea n : Nat) (s : State) :
    Except Stop (Place × State) :=
  let t := s.thread g.block i
  if t.priv == .boot then
    if !Space.far sp then .error (rangeExc ea)
    else (bootPlace s g.core f ea n).map fun p => (p, s)
  else
    match sp with
    | .scratch => (scratchPlace s g.block t.bc false ea n ea).map fun p => (p, s)
    | .cluster => (scratchPlace s g.block t.bc true ea n ea).map fun p => (p, s)
    | _ =>
      if 2 ^ 52 ≤ ea then .error (rangeExc ea)
      else if ea / 2 ^ 33 * 2 ^ 33 == scratchWindow then
        if !f.window then .error (rangeExc ea)
        else (scratchPlace s g.block t.bc (bitOf ea 32) (ea % 2 ^ 32) n ea).map fun p => (p, s)
      else if ea % n != 0 then .error (alignExc ea)
      else
        match s.translate g.core ((g.part s).getD 0) t.priv a ea with
        | .error e => .error e
        | .ok (x, s') => .ok (.phys x.spa x.mt, s')

/-! ### The aperture (R34 to R37) -/

/-- A word of the arrays stands in a row that is steered to a spare (R37). -/
def steered (rows : List (Nat × Nat)) (word : Nat) : Bool :=
  if word < 0x20000 then rows.contains (64, word / 32)
  else rows.contains ((word - 0x20000) / 4096, (word - 0x20000) % 4096)

/-- Cells stuck by manufacture force their bits, but in rows steered to spares; words of the scratchpad are numbered from
0x2_0000. -/
def stuckWord (x : Core) (k : Nat) (w : Word) : Word :=
  x.stuck.foldl (fun w c =>
    if c.1 = k && !steered x.steer k then
      (if c.2.2 then w ||| BitVec.ofNat 32 (2 ^ c.2.1) else w &&& ~~~(BitVec.ofNat 32 (2 ^ c.2.1)))
    else w) w

/-- A load of the aperture: the cells as they stand, without correction. -/
def apertureRead (x : Core) (off : Nat) : Word :=
  if off < 0x80000 then stuckWord x (off / 4) (Kv.get 0 (off / 4) x.rf)
  else if off < 0x180000 then
    stuckWord x (0x20000 + (off - 0x80000) / 4) (Kv.get 0 ((off - 0x80000) / 4) x.pad)
  else if off < 0x180100 then Kv.get 0 ((off - 0x180000) / 4) x.repair
  else x.summary

/-- The bits of the words of a repair entry, the lower first, and of the summary word that are not res0 (R36). -/
def repairMask (n : Nat) : Word := if n % 2 = 0 then 0xFFFF001F else 0xE000003F
def summaryMask : Word := 0x0000FF0F

/-- A store to the aperture. Fields that are res0 read 0 and ignore writes (R4), in what R35 says of a load after a store as
well. DESIGN CHOICE, log 79. -/
def apertureWrite (x : Core) (off : Nat) (w : Word) : Core :=
  if off < 0x80000 then { x with rf := Kv.set 0 (off / 4) w x.rf }
  else if off < 0x180000 then { x with pad := Kv.set 0 ((off - 0x80000) / 4) w x.pad }
  else if off < 0x180100 then
    let n := (off - 0x180000) / 4
    { x with repair := Kv.set 0 n (w &&& repairMask n) x.repair }
  else { x with summary := w &&& summaryMask }

/-! ### The control region (R369, R427, R455) -/

/-- A control address that a chapter lays out: interleave entries, format windows, the hail page. -/
inductive CtlPlace where
  | interleave (n byte : Nat)
  | window
  | hail (part off : Nat)
  | nothing
  deriving DecidableEq, Repr

def ctlPlace (lpa : Nat) : CtlPlace :=
  if controlBase ≤ lpa ∧ lpa < controlBase + 8 * 768 then .interleave ((lpa - controlBase) / 8) (lpa % 8)
  else if 0x3F1000000000 ≤ lpa ∧ lpa < 0x3F1000000000 + 0x1000 * 48 then .window
  else if 0x3F2000000000 ≤ lpa ∧ lpa < 0x3F2000000000 + 0x1000 then
    .hail ((lpa - 0x3F2000000000) / 64) ((lpa - 0x3F2000000000) % 64)
  else .nothing

/-- Read `n` bytes of the control region. The hail page loads as zero (R455); what no chapter lays out reads as a free
value. DESIGN CHOICE, log 14. -/
def ctlRead (s : State) (spa n : Nat) : Nat :=
  match ctlPlace (spaLocal spa) with
  | .interleave k b => (Kv.get 0 k s.interleave).toNat / 256 ^ b % 256 ^ n
  | .window => leRead s.byteAt spa n
  | .hail _ _ => 0
  | .nothing => leRead (Config.controlByte s.clock) spa n

/-- The cells of a write to format windows: their res0 bits read 0 and ignore writes (R4, R427). -/
def windowCells (spa v n : Nat) : List Host.Cell :=
  (leCells spa v n).map fun c => (c.1, if c.1 % 64 < 13 then c.2 else if c.1 % 64 = 13 then c.2 &&& 0x0F else 0)

end Sys2Proof.Machine
end

