-- ==== Sys2Proof/Machine/Access.lean ====
section
/-! DEFINITION. Performing an access: stash lines and their probes, the race watch, granules and poison, lines of other
packages, the hail page, and scratch (R233, R238 to R240, R260, R261, R288 to R290, R370, R379 to R381, R455). -/

namespace Sys2Proof.Machine

/-- The agent of an access: its block (0 for none), the core and entry that wait where it must wait, and the record that
a fault of it without a stop takes (R342). -/
structure Actor where
  block : Nat
  core : Nat
  e : Nat
  form : FaultRec
  deriving DecidableEq, Repr

/-- The actor of a thread. -/
def Grp.actor (g : Grp) (s : State) (i : Nat) : Actor :=
  ⟨g.block, g.core, g.e, threadRecord s g i 0x02 false (Exc.of .poison)⟩

/-- The actor's partition. -/
def Actor.part (a : Actor) (s : State) : Option Nat := (s.block a.block).part

/-! ### Where a byte of DRAM lies (R369, R370) -/

/-- A place in DRAM: stack, pseudo-channel and offset. -/
structure DramAt where
  stack : Nat
  pch : Nat
  off : Nat
  deriving DecidableEq, Repr

/-- The stack and unit of a granule index, and the offset in the unit's share, by the entry of the region (R370). -/
def unitOf (e a : Nat) : Nat × Nat × Nat :=
  let gi (h l : Nat) : Nat := bitsOf a (h + 8) (l + 8)
  let low := a % 256
  let stk := bitsOf e 59 56
  let pch := bitsOf e 55 50
  match regionMode e, regionDove e with
  | 0, false =>
    let u := Nat.xor (Nat.xor (gi 9 0) (gi 19 10)) (gi 21 20)
    (u % 16, u / 16, gi 21 10 * 256 + low)
  | 0, true =>
    let u := Nat.xor (Nat.xor (gi 8 0) (gi 17 9)) (gi 21 18)
    (u % 16, u / 16, gi 21 9 * 256 + low)
  | 1, false => (stk, Nat.xor (Nat.xor (gi 5 0) (gi 11 6)) (Nat.xor (gi 17 12) (gi 21 18)), gi 21 6 * 256 + low)
  | 1, true =>
    (stk, Nat.xor (Nat.xor (gi 4 0) (gi 9 5)) (Nat.xor (Nat.xor (gi 14 10) (gi 19 15)) (gi 21 20)), gi 21 5 * 256 + low)
  | _, false => (stk, pch + bitsOf a 29 28, bitsOf a 27 0)
  | _, true => (stk, pch / 2 + bitsOf a 29 28, bitsOf a 27 0)

/-- The place of a local physical address of a present region (R369, R370). -/
def State.dramAt (s : State) (lpa : Nat) : DramAt :=
  let e := s.region lpa
  let u := unitOf e (lpa % 2 ^ 30)
  let base := bitsOf e 49 40 * 2 ^ 20
  let w := u.2.2
  if regionDove e then
    ⟨u.1, 2 * u.2.1 + boolNat (decide (32 ≤ w % 64)), base + w / 64 * 32 + w % 32⟩
  else ⟨u.1, u.2.1, base + w⟩

/-- The home stack of an address of this package. -/
def State.homeStack (s : State) (spa : Nat) : Nat := (s.dramAt (spaLocal spa)).stack

/-! ### Stash lines and the probes that reach them (R239, R240) -/

/-- Whether a page holds a copy of a line, and a modified one. -/
def StashPage.holds (spa : Nat) (p : StashPage) : Bool := p.lines.any fun l => l.2.spa == spa
def StashPage.modified (spa : Nat) (p : StashPage) : Option (List Byte) :=
  (p.lines.find? fun l => l.2.spa == spa && l.2.st == .modified).map fun l => l.2.data

/-- Every stash page of the package. -/
def State.stashPages (s : State) : List StashPage :=
  (s.blocks.map fun b => (b.2.cores.map fun c => c.2.stash).flatten).flatten

/-- A probe of a line in a page: to invalidate it, or to share it. -/
def StashPage.probe (inv : Bool) (spa : Nat) (p : StashPage) : StashPage :=
  if inv then { p with lines := p.lines.filter fun l => l.2.spa != spa }
  else { p with lines := p.lines.map fun l => (l.1, if l.2.spa = spa then { l.2 with st := .shared } else l.2) }

/-- Change every stash page of a block. -/
def BlockCore.mapStash (f : StashPage → StashPage) (c : BlockCore) : BlockCore := { c with stash := c.stash.map f }
def Block.mapStash (f : StashPage → StashPage) (b : Block) : Block :=
  { b with cores := b.cores.map fun c => (c.1, c.2.mapStash f) }

/-- A copy of a line of another package takes the bytes of a write that goes to its home. -/
def StashPage.take (cells : List Host.Cell) (p : StashPage) : StashPage :=
  let byte (l : StashLine) (k : Nat) (b : Byte) : Byte :=
    match cells.reverse.find? fun c => c.1 == l.spa + k with
    | some c => c.2
    | none => b
  { p with lines := p.lines.map fun l => (l.1, { l.2 with data := l.2.data.zipIdx.map fun x => byte l.2 x.2 x.1 }) }
def State.stashTake (s : State) (cells : List Host.Cell) : State :=
  { s with blocks := s.blocks.map fun b => (b.1, b.2.mapStash (·.take cells)) }

/-- Bytes with their addresses. -/
def cellsAt (a : Nat) : List Byte → List Host.Cell
  | [] => []
  | x :: t => (a, x) :: cellsAt (a + 1) t

/-- A whole line is written: its data and check bits are replaced (R261). -/
def State.writeLine (s : State) (spa : Nat) (d : List Byte) : State :=
  let s := s.setCells (cellsAt spa d)
  { s with ecc := s.ecc.filter fun g => !(decide (spa ≤ g.1) && decide (g.1 < spa + 64)) }

/-- An access ends a stack's self-refresh (R458): its slice and directory resume with no holder recorded. -/
def State.wakeStack (s : State) (k : Nat) : State :=
  if (s.die k).selfRefresh then
    s.modDie k fun d =>
      { d with
        selfRefresh := false
        dir := []
        lastAccess := s.clock }
  else s

/-- Before another agent reads or writes a line, its stack is awake, a modified stash copy is written back, and copies
become shared or invalid. -/
def State.snoop (s : State) (line : Nat) (inv : Bool) : State :=
  let spa := line * 64
  let s := if s.target spa = .dram then s.wakeStack (s.homeStack spa) else s
  if s.stashPages.any (·.holds spa) then
    let s := match s.stashPages.findSome? (·.modified spa) with
      | some d => s.writeLine spa d
      | none => s
    { s with blocks := s.blocks.map fun b => (b.1, b.2.mapStash (·.probe inv spa)) }
  else s

/-- Write back the modified lines of a page. -/
def State.flushPage (s : State) (p : StashPage) : State :=
  p.lines.foldl (fun s l => if l.2.st = .modified then s.writeLine l.2.spa l.2.data else s) s

/-- A line of another package is no longer held here. -/
def State.dropProxy (s : State) (line : Nat) : State :=
  let s := s.setCells ((List.range 64).map fun k => (line * 64 + k, emptyByte))
  { s with proxy := s.proxy.filter (· != line) }

/-- A line has probes outstanding, or holders that have still to be told: it settles before anything else is done with it
(R381). -/
def State.probing (s : State) (line : Nat) : Bool :=
  (s.reqs.any fun r => r.2.probe.any fun x => x.1 == line) || s.dies.any fun d => d.2.todo.any fun x => x.1 == line

/-- A base die sends its next probe to invalidate, once every earlier one has been answered: probes are strict (R377,
R380). -/
def State.sendProbe (s : State) (k : Nat) : State :=
  if s.sourceBusy (0x200 + k) true then s
  else
    let reached := (s.die k).todo.map fun x => (x.1, x.2.1, x.2.2.filter fun h => !s.unreachable h)
    match reached.filter fun x => !x.2.2.isEmpty with
    | (line, b, h :: hs) :: rest =>
      let p := { s.packet 0x18 3 0 (line * 64) (0x200 + k) with dpkg := h }
      let s := s.modDie k fun d => { d with todo := if hs.isEmpty then rest else (line, b, hs) :: rest }
      s.sendReq p { RemoteReq.of (0x200 + k) 0 p s.clock with probe := some (line, b) }
    | _ => s.modDie k fun d => { d with todo := [] }

/-- After a write at home by a block (0 for none), the packages that hold the line are probed to invalidate it (R380,
R381). -/
def State.probeHolders (s : State) (b line : Nat) : State :=
  let k := s.homeStack (line * 64)
  let hs := Kv.get [] line (s.die k).dir
  if hs.isEmpty then s
  else
    (s.modDie k fun d =>
      { d with
        dir := Kv.erase line d.dir
        todo := d.todo ++ [(line, b, hs)] }).sendProbe k

/-! ### The race watch (R288 to R290) -/

/-- The enabled window of the lowest number that holds an address. DESIGN CHOICE, log 26. -/
def Partition.window (p : Partition) (va : Nat) : Option (Nat × RaceWin) :=
  p.races.find? fun w => decide (w.2.base ≤ va) && decide (va < w.2.base + w.2.len)

def State.raceWindow (s : State) (k va : Nat) : Option (Nat × RaceWin) :=
  ((s.block k).part.bind s.part).bind (·.window va)

/-- The race of an access of block `k`, if it races (R290). -/
def raceExc (s : State) (k va : Nat) (sync : Bool) : Option Exc :=
  match s.raceWindow k va with
  | none => none
  | some (n, w) =>
    match Kv.find (va / 64) w.writer with
    | none => none
    | some (tag, cnt) =>
      let b := s.block k
      if sync || tag == b.tag || b.acq.any (fun x => x.1 == tag && decide (cnt < x.2)) then none
      else some ⟨.race, n, tag % 2 ^ 32 + cnt % 2 ^ 32 * 2 ^ 32, va, 0⟩

/-- A write or RMW at its home enters the records of its granule (R288). -/
def State.raceNote (s : State) (k va cnt : Nat) (rel : Bool) : State :=
  match s.raceWindow k va with
  | none => s
  | some (n, w) =>
    let b := s.block k
    let w' : RaceWin :=
      { w with
        writer := Kv.insert (va / 64) (b.tag, cnt) w.writer
        release := if rel then Kv.insert (va / 64) (b.tag, cnt) w.release else w.release }
    s.modPart (b.part.getD 0) fun p => { p with races := Kv.insert n w' p.races }

/-- A pair enters an acquire set of 16, the least recently updated first (R289). -/
def Block.acquire (b : Block) (tag cnt : Nat) : Block :=
  match b.acq.find? fun x => x.1 == tag with
  | some (_, c) => { b with acq := (b.acq.filter fun x => x.1 != tag) ++ [(tag, max c cnt)] }
  | none =>
    if b.acq.length < 16 then { b with acq := b.acq ++ [(tag, cnt)] }
    else
      { b with
        acq := b.acq.drop 1 ++ [(tag, cnt)]
        acqOvfl := true }

/-- An acquiring read of a granule whose last release another block made (R289). -/
def State.raceAcquire (s : State) (k va : Nat) : State :=
  match s.raceWindow k va with
  | none => s
  | some (_, w) =>
    match Kv.find (va / 64) w.release with
    | some (tag, cnt) => if tag = (s.block k).tag then s else s.modBlock k (·.acquire tag cnt)
    | none => s

/-- Releasing events of a block at die, package or domain scope, in its 32-bit count (R288). -/
def State.releases (s : State) (k n : Nat) : State :=
  s.modBlock k fun b => { b with relCount := (b.relCount + n) % 2 ^ 32 }

def Scope.wide : Scope → Bool
  | .th | .sq | .blk => false
  | .die | .pkg | .dom => true

/-- Scopes beyond the die. -/
def Scope.far_ : Scope → Bool
  | .pkg | .dom => true
  | _ => false

/-- The ordering of an access: it synchronizes; it acquires; it releases; the FENCE.sc events around it count as
releases (R276, R280); its scope is wider than block, reaches the package, reaches the domain. -/
structure Order where
  sync : Bool
  acq : Bool
  rel : Bool
  sc : Bool
  wide : Bool
  far : Bool
  dom : Bool
  deriving DecidableEq, Repr

def Order.plain : Order := ⟨false, false, false, false, false, false, false⟩

def Order.of : MemOrd → Order
  | .ordered k sc => ⟨true, k != .rel, k != .acq, k == .sc, Scope.wide sc, Scope.far_ sc, sc == .dom⟩
  | _ => Order.plain

/-- The ordering at a place: on scratch a scope wider than block acts as block scope (R257, R275). -/
def Order.at_ (o : Order) : Place → Order
  | .scratch _ _ =>
    { o with
      wide := false
      far := false
      dom := false }
  | _ => o

/-- What a release at package scope, or at domain scope, waits for: the acknowledgement of every posted write of the block
and of the probes that its writes have set off; then, at domain scope, of a fence marker to each package that the block has
written since its last release at that scope (R236, R377). DEDUCED, log 82. -/
def State.releaseWait (s : State) (a : Actor) (i : Nat) (dom : Bool) : Except Stop State :=
  if (s.posting a.block || s.reqs.any fun r => r.2.probe.any fun x => x.2 == a.block) ||
      s.dies.any fun d => d.2.todo.any fun x => x.2.1 == a.block then .error .wait
  else if !dom then .ok s
  else
    let ask (p : Nat) : Nat := 2 ^ 62 + 1024 * i + p
    let said (p : Nat) : Bool := s.unreachable p || s.reqs.any fun r =>
      r.2.core == a.core && r.2.entry == a.e && r.2.ask == some (ask p) && !r.2.open_
    match (s.block a.block).wrote.find? fun p => !said p with
    | some p => .error (.miss (ask p) { s.packet 0x0C 3 ((a.part s).getD 0) (p * 2 ^ 46) a.core with
        imm := 5
        scope := 5 })
    | none => .ok (s.modBlock a.block fun b => { b with wrote := [] })

/-- The wait of an access that releases (R236, R265). -/
def State.orderWait (s : State) (a : Actor) (i : Nat) (o : Order) : Except Stop State :=
  if o.rel && o.far then s.releaseWait a i o.dom else .ok s

/-- The releasing events of a load before and after it, and of a store before and with it (R280, R288). -/
def Order.fences (o : Order) : Nat := boolNat (o.sc && o.wide)
def Order.releaseBefore (o : Order) : Nat := boolNat (o.rel && o.wide) + o.fences

/-! ### Hails (R107, R455) -/

/-- The pending hail is consumed. -/
def Partition.consume (p : Partition) : Partition :=
  { p with
    hailpay := p.pendPay
    hailcnt := BitVec.ofNat 32 p.pendCount
    pendCount := 0 }

/-- The steward threads held at HALT. -/
def State.halted (s : State) (p : Nat) : List Nat :=
  ((s.block (stewardKey p)).threads.filter fun t => t.2.stat == .held .halt).map (·.1)

/-- Every HALT of the partition continues, consuming what is pending (R107, R455). -/
def State.releaseHalts (s : State) (p : Nat) : State :=
  let l := s.halted p
  if l.isEmpty then s
  else
    let s := s.modBlock (stewardKey p) fun b => b.mapThreads l fun t => { t with stat := .ready }
    s.modPart p fun x =>
      let x := if 0 < x.pendCount then x.consume else x
      { x with eventPend := false }

/-- A hail of a partition arrives (R455, R459): it wakes a moored partition, or releases HALT. -/
def State.hail (s : State) (p : Nat) (payload : DWord) : State :=
  match s.part p with
  | none => s
  | some x =>
    let s := s.putPart p
      { x with
        hailAt := if x.pendCount = 0 then s.clock else x.hailAt
        pendCount := x.pendCount + 1
        pendPay := payload }
    if x.moor = .awake then s.releaseHalts p else s.later [.partitionWake p]

/-- A store to the hail page by an agent of a partition: others than the partition itself need the host's permission
(R455). -/
def State.hailStore (s : State) (writer : Option Nat) (p : Nat) (payload : DWord) : State :=
  match s.part p with
  | none => s
  | some x => if writer == some p || (writer.any fun w => x.params.hailers.contains w) then s.hail p payload else s

/-! ### Reading -/

/-- The exception of a failed line of another package (R373, R384). DEDUCED, log 24. -/
def remoteExc (s : State) (status spa va : Nat) : Exc :=
  if status = 3 then ⟨.race, (Config.raceWindow s.clock va).toNat, (Config.raceWriter s.clock va).toNat, va, 0⟩
  else ⟨.poison, 0, spa / 32 * 32, va, 0⟩

/-- The 64-byte lines of a range. -/
def linesOf (spa n : Nat) : List Nat := (List.range ((spa + n - 1) / 64 - spa / 64 + 1)).map fun k => spa / 64 + k

/-- A read needs every line of another package that it touches. -/
def needLines (s : State) (a : Actor) (va : Nat) : List Nat → Except Stop Unit
  | [] => .ok ()
  | l :: t =>
    match s.lineHold a.core a.e l with
    | .held => needLines s a va t
    | .failed st => .error (.exc (remoteExc s st (l * 64) va))
    | .unacked => .error .wait
    | .missing => .error (.miss l (s.lineRead l ((a.part s).getD 0) a.core))

/-- The request of a CTL access to another package: the bytes of the 32-byte sector that it names (R373, R377). -/
def State.ctlPacket (s : State) (a : Actor) (spa n : Nat) : Packet :=
  { s.packet 0x06 3 ((a.part s).getD 0) spa a.core with imm := BitVec.ofNat 64 ((2 ^ n - 1) * 2 ^ (spa % 32)) }

/-- An access to control memory of another package: one CTL, which is answered before the access goes on (R260, R377). -/
def ctlAsk (s : State) (a : Actor) (spa : Nat) (p : Packet) : Except Stop (Except Nat DWord) :=
  let ask := 2 ^ 63 + 2 ^ 64 * a.form.tidx + spa
  match s.reqs.find? fun r => r.2.core == a.core && r.2.entry == a.e && r.2.ask == some ask && !r.2.open_ with
  | some r => .ok (if r.2.err != 0 then .error r.2.err else .ok (r.2.val.getD 0))
  | none => if s.unreachable (spaPkg spa) then .ok (.error 2) else .error (.miss ask p)

/-- Read `n` words of 8 bytes, then `m` bytes, of control memory of another package: one CTL for each. -/
def ctlReadRemote (s : State) (a : Actor) (spa va m : Nat) : Nat → Except Stop Nat
  | 0 =>
    if m = 0 then .ok 0
    else
      match ctlAsk s a spa (s.ctlPacket a spa m) with
      | .error e => .error e
      | .ok (.error st) => .error (.exc (remoteExc s st spa va))
      | .ok (.ok v) => .ok (v.toNat % 2 ^ (8 * m))
  | n + 1 =>
    match ctlReadRemote s a spa va 8 0 with
    | .error e => .error e
    | .ok v => (ctlReadRemote s a (spa + 8) va m n).map fun w => v + 2 ^ 64 * w

/-- An address of another package whose memory is of type control: its accesses go to its home in the strict class
(R249). -/
def State.strictAt (s : State) (spa mt : Nat) : Bool :=
  s.target spa == .remote && (mt == 2 || decide (controlBase ≤ spaLocal spa))

/-- Read `n` bytes at a system-physical address (R261). DESIGN CHOICE, log 21. -/
def physRead (s : State) (a : Actor) (spa n va : Nat) : Except Stop (Nat × State) :=
  match s.target spa with
  | .control => .ok (ctlRead s spa n, s)
  | .nothing => .error (.halt .noSuchAddress)
  | .remote =>
    match needLines s a va (linesOf spa n) with
    | .error e => .error e
    | .ok _ =>
      let s := (linesOf spa n).foldl (fun s l => s.snoop l false) s
      .ok (leRead s.byteAt spa n, s)
  | .dram =>
    if (linesOf spa n).any s.probing then .error .wait
    else
      let s := (linesOf spa n).foldl (fun s l => s.snoop l false) s
      match s.poisonedIn spa n with
      | some gr => .error (.exc (poisonExc s gr va))
      | none => .ok (leRead s.byteAt spa n, s)

/-- The same at a memory type. -/
def typedRead (s : State) (a : Actor) (spa mt n va : Nat) : Except Stop (Nat × State) :=
  if s.strictAt spa mt then
    (if n % 8 = 0 then ctlReadRemote s a spa va 0 (n / 8) else ctlReadRemote s a spa va n 0).map fun v => (v, s)
  else physRead s a spa n va

/-! ### Writing -/

/-- A byte that an instruction writes to memory, with its writer, the release count at which it is performed, and
whether the access releases. -/
structure WCell where
  spa : Nat
  byte : Byte
  va : Nat
  who : Actor
  cnt : Nat
  rel : Bool
  deriving DecidableEq, Repr

/-- The record of a write that is not performed (R261, R384). -/
def Actor.poisonRec (a : Actor) (s : State) (gr va : Nat) : FaultRec := a.form.withExc (poisonExc s gr va)

/-- The byte mask of a line and the line's bytes, as a WRL carries them (R373). -/
def lineMask (line : Nat) (cells : List WCell) : Nat :=
  ((List.range 64).map fun k => if cells.any (fun c => c.spa == line * 64 + k) then 2 ^ k else 0).sum
def lineBytes (s : State) (line : Nat) : List Byte := (List.range 64).map fun k => s.byteAt (line * 64 + k)

/-- A posted request to another package leaves; where it fails, the record is sent (R384). The block has written the
package (R377). -/
def State.post (s : State) (a : Actor) (p : Packet) (r : FaultRec) : State :=
  if s.unreachable p.dpkg then s.sendBlockRecord a.block r
  else
    (s.modBlock a.block fun b => { b with wrote := if b.wrote.contains p.dpkg then b.wrote else b.wrote ++ [p.dpkg] }).sendReq p
      { RemoteReq.of a.core a.e p s.clock with post := some (a.block, r) }

/-- A write to another package: the copies held here take it, and a WRL goes to the home. DESIGN CHOICE, log 22. -/
def State.writeRemote (s : State) (line : Nat) (cells : List WCell) : State :=
  match cells with
  | [] => s
  | c :: _ =>
    let l := cells.map fun c => (c.spa, c.byte)
    let s := s.stashTake l
    let s1 := s.setCells l
    let p := { s.packet 0x02 1 ((c.who.part s).getD 0) (line * 64) c.who.core with
      imm := BitVec.ofNat 64 (lineMask line cells)
      data := lineBytes s1 line }
    (if s.proxy.contains line then s1 else s).post c.who p (c.who.poisonRec s (c.spa / 32 * 32) c.va)

/-- A write of at most 8 bytes to control memory of another package, and of 16 bytes as its two halves (R260, R377). One
that is refused sends the record of R384. -/
def ctlWriteRemote (s : State) (a : Actor) (spa va v n : Nat) : Except Stop State :=
  let bytes := List.replicate (spa % 32) 0 ++ bytesOf v n
  let p := { s.ctlPacket a spa n with data := (bytes ++ List.replicate (32 - bytes.length) 0).take 32 }
  (ctlAsk s a spa p).map fun r =>
    match r with
    | .ok _ => s
    | .error _ => s.sendBlockRecord a.block (a.poisonRec s (spa / 32 * 32) va)
def strictWrite (s : State) (a : Actor) (spa va v n : Nat) : Except Stop State :=
  if n = 16 then
    match ctlWriteRemote s a spa va (v % 2 ^ 64) 8 with
    | .error e => .error e
    | .ok s => ctlWriteRemote s a (spa + 8) (va + 8) (v / 2 ^ 64) 8
  else ctlWriteRemote s a spa va v n

/-- One write into one granule of this package (R261). -/
def State.writeGranule (s : State) (gr : Nat) (cells : List WCell) : State :=
  match cells with
  | [] => s
  | c :: _ =>
    let s := s.snoop (gr / 64) true
    let whole := (List.range (s.granule gr)).all fun k => cells.any fun c => c.spa == gr + k
    if !whole && (Kv.find gr s.ecc).isSome then
      (s.markPoison gr).sendBlockRecord c.who.block (c.who.poisonRec s gr c.va)
    else
      let s := { s with ecc := Kv.erase gr s.ecc }
      let s := s.setCells (cells.map fun c => (c.spa, c.byte))
      let s := cells.foldl (fun s c => s.raceNote c.who.block c.va c.cnt c.rel) s
      s.probeHolders c.who.block (gr / 64)

/-- The granule of a written byte; another package's bytes go by lines. -/
def State.groupOfCell (s : State) (spa : Nat) : Nat :=
  if s.target spa == .remote then spa / 64 * 64 else s.granuleOf spa

/-- Everything that one instruction writes: one write for each granule (R261). Of two bytes for one address the later
in the list is left. -/
def State.writeCells (s : State) (cells : List WCell) : State :=
  (distinct (cells.map fun c => s.groupOfCell c.spa)).foldl (fun s gr =>
    let mine := cells.filter fun c => s.groupOfCell c.spa == gr
    if s.target gr == .remote then s.writeRemote (gr / 64) mine else s.writeGranule gr mine) s

/-- The cells of a number of `n` bytes written by one thread. -/
def mkCells (a : Actor) (cnt : Nat) (rel : Bool) (spa va v n : Nat) : List WCell :=
  (List.range n).map fun k => ⟨spa + k, BitVec.ofNat 8 (v / 256 ^ k), va + k, a, cnt, rel⟩

/-- A write to an interleave entry by any agent but the harbour die is refused (R369). -/
def interleaveExc (spa va : Nat) : Exc := ⟨.pageFault, 3 + 16 + 256, spa, va, 0⟩

/-- Write `n` bytes of the control region: the format windows and the hail page take them as their rules say, an interleave
entry refuses them, and nothing else does anything with them (R244, R369, R427, R455). DESIGN CHOICE, log 14. -/
def ctlWrite (s : State) (a : Actor) (spa va v n : Nat) : Except Stop State :=
  match ctlPlace (spaLocal spa) with
  | .window => .ok (s.setCells (windowCells spa v n))
  | .hail p off => .ok (if off = 0 ∧ n = 8 then s.hailStore (a.part s) p (BitVec.ofNat 64 v) else s)
  | .interleave _ _ => .error (.exc (interleaveExc spa va))
  | .nothing => .ok s

/-! ### Scratch and its stash pages (R234, R238, R239) -/

def BlockCore.scratchByte (c : BlockCore) (a : Nat) : Byte := Kv.get 0 a c.scratch
def BlockCore.setScratch (c : BlockCore) (l : List Host.Cell) : BlockCore :=
  { c with scratch := l.foldl (fun m x => Kv.set 0 x.1 x.2 m) c.scratch }

/-- The stash page that covers a scratch offset. -/
def BlockCore.stashPage (c : BlockCore) (off : Nat) : Option StashPage :=
  c.stash.find? fun p => p.off == off / 4096 * 4096

/-- Change the stash page at an offset. -/
def BlockCore.modPage (c : BlockCore) (off : Nat) (f : StashPage → StashPage) : BlockCore :=
  { c with stash := c.stash.map fun p => if p.off = off / 4096 * 4096 then f p else p }

/-- The line of a stash page at a scratch offset. -/
def StashPage.line (p : StashPage) (off : Nat) : Option StashLine := Kv.find (off % 4096 / 64) p.lines

/-- Where a scratch access goes. -/
inductive ScratchAt where
  | plain
  /-- A stash line in the state it needs, now in the state. -/
  | line (l : StashLine)
  /-- The line of another package: it is held to be read, and a write goes to its home as well. -/
  | through (l : StashLine) (spa va : Nat)
  /-- The line is not kept: the access is performed at its home (R288). -/
  | home (spa va : Nat)
  deriving DecidableEq, Repr

/-- The exception of an access that the memory type control refuses, at the leaf that gives it: stage 2's where stage 1
gives another (R238, R251, R262). DEDUCED, log 83. -/
def controlExc (s : State) (part : Nat) (a : Access) (va : Nat) : Exc :=
  match s.part part with
  | none => ⟨.pageFault, 3, 0, va, 0⟩
  | some p =>
    match walk1 s [] part p va (bitsOf p.pt1root.toNat 51 7 * 2 ^ 7) 0 5 ⟨[], []⟩ with
    | .error _ => ⟨.pageFault, 3 + 256 * boolNat (a == .store), 0, va, 0⟩
    | .ok (p1, _) =>
      let gpa := p1.base + va % 2 ^ levelShift p1.level
      match stage2 p gpa with
      | .error _ => (XErr.mk 3 false p1.level 0).exc a va
      | .ok (p2, _) => (if p1.mt = 2 then XErr.mk 3 false p1.level 0 else XErr.mk 3 true p2.level gpa).exc a va

/-- The home of a stash line, translated in the TLB of its core. -/
def stashHome (s : State) (k j : Nat) (pr : Priv) (st : Bool) (va : Nat) : Except Stop (Xlat × State) :=
  let b := s.block k
  let a : Access := if st then .store else .load
  match s.translate (b.bc j).core (b.part.getD 0) pr a va with
  | .error e => .error e
  | .ok r => if r.1.mt = 2 then .error (.exc (controlExc s (b.part.getD 0) a va)) else .ok r

/-- A stash line takes its place in its page. -/
def State.putLine (s : State) (k j off : Nat) (l : StashLine) : State :=
  s.modBc k j (·.modPage off fun p => { p with lines := Kv.insert (off % 4096 / 64) l p.lines })

/-- Bring a stash line to the state that a load or a store needs (R239). A line whose home lies in an enabled race window
is not kept; one whose home is another package is held to be read, and what is stored in it goes to its home at once.
DESIGN CHOICE, log 22. -/
def stashFill (s : State) (a : Actor) (k j off : Nat) (pr : Priv) (st : Bool) (p : StashPage) :
    Except Stop (ScratchAt × State) :=
  let va := p.home + off % 4096
  let line0 := va / 64 * 64
  match p.line off with
  | some l =>
    if l.st = .modified || !st then .ok (.line l, s)
    else
      match stashHome s k j pr true line0 with
      | .error e => .error e
      | .ok (x, s) =>
        if s.target x.spa != .dram then
          if s.sourceBusy a.core false then .error .wait else .ok (.through l (x.spa + va % 64) va, s)
        else if s.probing (l.spa / 64) then .error .wait
        else
          let s := s.snoop (l.spa / 64) true
          let s := s.probeHolders k (l.spa / 64)
          let l := { l with st := .modified }
          .ok (.line l, s.putLine k j off l)
  | none =>
    match stashHome s k j pr st line0 with
    | .error e => .error e
    | .ok (x, s) =>
      if (s.raceWindow k line0).isSome then .ok (.home (x.spa + va % 64) va, s)
      else
        match physRead s a x.spa 64 line0 with
        | .error e => .error e
        | .ok (v, s) =>
          let far := s.target x.spa != .dram
          if far && st && s.sourceBusy a.core false then .error .wait
          else
            let own := st && !far
            let s := if own then (s.snoop (x.spa / 64) true).probeHolders k (x.spa / 64) else s
            let l : StashLine := ⟨if own then .modified else .shared, x.spa, bytesOf v 64⟩
            .ok (if far && st then .through l (x.spa + va % 64) va else .line l, s.putLine k j off l)

/-- Where an access to scratch of core `j` of block `k` goes. -/
def scratchAt (s : State) (a : Actor) (k j off : Nat) (pr : Priv) (st : Bool) : Except Stop (ScratchAt × State) :=
  match ((s.block k).bc j).stashPage off with
  | none => .ok (.plain, s)
  | some p => stashFill s a k j off pr st p

/-- Read `n` bytes of scratch within one line. -/
def scratchRead (s : State) (a : Actor) (k j off n : Nat) (pr : Priv) (o : Order) : Except Stop (Nat × State) :=
  match scratchAt s a k j off pr false with
  | .error e => .error e
  | .ok (.plain, s) => .ok (leRead ((s.block k).bc j).scratchByte off n, s)
  | .ok (.line l, s) | .ok (.through l _ _, s) => .ok (leRead (fun x => l.data.getD x 0) (off % 64) n, s)
  | .ok (.home spa va, s) =>
    match raceExc s k va o.sync with
    | some e => .error (.exc e)
    | none => (physRead s a spa n va).map fun r => (r.1, if o.acq then r.2.raceAcquire k va else r.2)

/-- Write bytes of scratch within one line, at once; what must be written at a home is given back as cells. -/
def scratchWrite (s : State) (a : Actor) (k j off : Nat) (d : List Byte) (pr : Priv) (o : Order) :
    Except Stop (List WCell × State) :=
  match scratchAt s a k j off pr true with
  | .error e => .error e
  | .ok (.plain, s) => .ok ([], s.modBc k j (·.setScratch (cellsAt off d)))
  | .ok (.line l, s) =>
    let data := l.data.take (off % 64) ++ d ++ l.data.drop (off % 64 + d.length)
    .ok ([], s.putLine k j off { l with data := data })
  | .ok (.through _ spa va, s) =>
    .ok ((cellsAt spa d).map fun c => ⟨c.1, c.2, va + (c.1 - spa), a, (s.block k).relCount, o.rel⟩, s)
  | .ok (.home spa va, s) =>
    match raceExc s k va o.sync with
    | some e => .error (.exc e)
    | none =>
      if s.target spa == .dram && s.probing (spa / 64) then .error .wait
      else if s.target spa == .remote && s.sourceBusy a.core false then .error .wait
      else .ok (((cellsAt spa d).map fun c => ⟨c.1, c.2, va + (c.1 - spa), a, (s.block k).relCount, o.rel⟩), s)

/-! ### The accesses of a thread -/

/-- Read `n` bytes at a place. An access of 16 bytes to control memory is made as its two halves (R260). -/
def loadPlace (g : Grp) (i : Nat) (p : Place) (ea n : Nat) (o : Order) (s : State) : Except Stop (Nat × State) :=
  let a := g.actor s i
  let pr := (s.thread g.block i).priv
  match p with
  | .scratch j off => scratchRead s a g.block j off n pr o
  | .aperture off => .ok ((apertureRead (s.core g.core) off).toNat, s)
  | .phys spa mt =>
    match raceExc s g.block ea o.sync with
    | some e => .error (.exc e)
    | none => (typedRead s a spa mt n ea).map fun r => (r.1, if o.acq then r.2.raceAcquire g.block ea else r.2)

/-- The place of a write is a hail (R455). -/
def isHail (spa n : Nat) : Bool :=
  match ctlPlace (spaLocal spa) with
  | .hail _ off => off == 0 && n == 8
  | _ => false

/-- Write `n` bytes at a system-physical address: at once in control memory, as cells elsewhere. A hail is a releasing write
at domain scope (R456). -/
def physStore (s : State) (a : Actor) (spa mt va v n : Nat) (rel : Bool) : Except Stop (List WCell × State) :=
  if s.strictAt spa mt then
    match if controlBase ≤ spaLocal spa ∧ isHail spa n = true then s.releaseWait a a.form.tidx true else .ok s with
    | .error e => .error e
    | .ok s => (strictWrite s a spa va v n).map fun s => ([], s)
  else
    match s.target spa with
    | .nothing => .error (.halt .noSuchAddress)
    | .control =>
      if n = 16 then
        match ctlWrite s a spa va (v % 2 ^ 64) 8 with
        | .error e => .error e
        | .ok s => (ctlWrite s a (spa + 8) (va + 8) (v / 2 ^ 64) 8).map fun s => ([], s)
      else
        match if isHail spa n then s.releaseWait a a.form.tidx true else .ok s with
        | .error e => .error e
        | .ok s => (ctlWrite s a spa va v n).map fun s => ([], s)
    | .remote =>
      if s.sourceBusy a.core false then .error .wait
      else .ok (mkCells a (s.block a.block).relCount rel spa va v n, s)
    | .dram =>
      if (linesOf spa n).any s.probing then .error .wait
      else .ok (mkCells a (s.block a.block).relCount rel spa va v n, s)

/-- A granule that reads as poison and that a write of `n` bytes does not cover (R261). -/
def State.partPoison (s : State) (spa n : Nat) : Option Nat :=
  (distinct ((List.range n).map fun k => s.granuleOf (spa + k))).find? fun a =>
    (Kv.find a s.ecc).isSome && !(decide (spa ≤ a) && decide (a + s.granule a ≤ spa + n))

/-- An access of a unit outside the cores, at the partition's steward privilege (R344, R475). A write is performed at once;
one of a part of a poisoned granule fails. -/
def unitRead (s : State) (a : Actor) (p va n : Nat) : Except Stop (Nat × State) :=
  match s.walk p .steward .load va with
  | .error e => .error e
  | .ok x => typedRead s a x.spa x.mt n va
def unitWrite (s : State) (a : Actor) (p va v n : Nat) (rel : Bool) : Except Stop State :=
  match s.walk p .steward .store va with
  | .error e => .error e
  | .ok x =>
    match if s.target x.spa = .dram then s.partPoison x.spa n else none with
    | some gr => .error (.exc (poisonExc s gr va))
    | none => (physStore s a x.spa x.mt va v n rel).map fun r => r.2.writeCells r.1

/-- Write `n` bytes at a place: at once in scratch, the aperture and control memory; as cells elsewhere. -/
def storePlace (g : Grp) (i : Nat) (p : Place) (ea v n : Nat) (o : Order) (s : State) :
    Except Stop (List WCell × State) :=
  let a := g.actor s i
  let pr := (s.thread g.block i).priv
  match p with
  | .scratch j off => scratchWrite s a g.block j off (bytesOf v n) pr o
  | .aperture off => .ok ([], s.modCore g.core fun c => apertureWrite c off (BitVec.ofNat 32 v))
  | .phys spa mt =>
    match raceExc s g.block ea o.sync with
    | some e => .error (.exc e)
    | none => physStore s a spa mt ea v n o.rel

end Sys2Proof.Machine
end

