-- ==== Sys2Proof/Machine/Engines.lean ====
section
/-! DEFINITION. What the engine operations of a block share: timelines and their waits, records of operations, and the
transaction barriers (R297 to R301, R316 to R320). -/

namespace Sys2Proof.Machine

/-! ### Timelines (R297 to R299) -/

def Timeline.zero : Timeline := ⟨0, 0, 0⟩
def BlockCore.tl (c : BlockCore) (n : Nat) : Timeline := Kv.get Timeline.zero n c.tls
def BlockCore.setTl (c : BlockCore) (n : Nat) (t : Timeline) : BlockCore := { c with tls := Kv.set Timeline.zero n t c.tls }
def BlockCore.wp (c : BlockCore) (ch : Nat) : Word := Kv.get 0 ch c.wps

/-- A count has reached a value (R298). -/
def reached (c n : Nat) : Bool := decide ((c + 2 ^ 32 - n % 2 ^ 32) % 2 ^ 32 < 2 ^ 31)

/-- The completed count of a timeline as the block's core reads it. -/
def Block.completed (b : Block) (j tl : Nat) : Nat :=
  if 12 ≤ tl then Kv.get 0 tl b.soft else ((b.bc j).tl tl).completed

/-- The next number of a timeline, taken. -/
def State.takeNum (s : State) (k j tl : Nat) : Nat × State :=
  let t := ((s.block k).bc j).tl tl
  let n := (t.issued + 1) % 2 ^ 32
  (n, s.modBc k j (·.setTl tl { t with issued := n }))

/-- A wait is over: every count has reached its value; it fails where a fail number is covered (R327). -/
def Block.waitOver (b : Block) (j : Nat) (l : List (Nat × Nat)) : Bool := l.all fun x => reached (b.completed j x.1) x.2
def Block.waitFail (b : Block) (j : Nat) (l : List (Nat × Nat)) : Option (Nat × Nat) :=
  l.findSome? fun x =>
    let f := ((b.bc j).tl x.1).fail
    if x.1 < 10 ∧ f ≠ 0 ∧ reached x.2 f then some (x.1, f) else none

/-- The exception of a wait that covers a fail number, and of a poisoned barrier (R338). -/
def asyncFail (tl n : Nat) : Exc := ⟨.asyncFail, tl, n, 0, 0⟩

/-- A held thread takes an exception at the instruction that holds it. -/
def faultHeld (s : State) (k i : Nat) (log : OpLog) (e : Exc) : State :=
  let b := s.block k
  faultThread s ⟨(b.bc (b.thread i).bc).core, 64, k, log.pc, [i], none⟩ i log.instr log.srcs e

/-- A held thread becomes ready in slot state, in which it has stood since it was held (R160). -/
def State.makeReady (s : State) (k i : Nat) : State := s.modThread k i fun t => { t with stat := .ready }

/-- The threads of a block whose timeline wait is over go on, or take ASYNC_FAIL (R327, R330). -/
def State.wakeTl (s : State) (k : Nat) : State :=
  (s.block k).threads.foldl (fun s x =>
    match x.2.stat with
    | .held (.tl l log) =>
      let b := s.block k
      if b.waitOver x.2.bc l then
        match b.waitFail x.2.bc l with
        | some f => faultHeld s k x.1 log (asyncFail f.1 f.2)
        | none => s.makeReady k x.1
      else s
    | _ => s) s

/-- A number fails: the fail number is the first since it was last 0 (R299). -/
def BlockCore.failNum (c : BlockCore) (tl num : Nat) : BlockCore :=
  let t := c.tl tl
  if tl < 10 ∧ t.fail = 0 then c.setTl tl { t with fail := num } else c

/-! ### Engine operations -/

/-- The record of an engine operation (R342). -/
def opRecord (s : State) (k j : Nat) (op : EngineOp) (kind : Nat) (held : Bool) (e : Exc) : FaultRec :=
  let b := s.block k
  let r := ((FaultRec.ofKind kind).withExc e).atCore b (b.bc j).core
  { r with
    held := held
    tln := op.tl
    opnum := op.num
    tidx := j
    pc := op.pc
    ovfl := e.cls == .race && b.acqOvfl }

/-- The actor of an engine operation: it waits as entry 64 + its timeline. -/
def EngineOp.actor (op : EngineOp) (s : State) (k j : Nat) : Actor :=
  ⟨k, ((s.block k).bc j).core, 64 + op.tl, opRecord s k j op 0x02 false (Exc.of .poison)⟩

/-- The key of its translations in the walk-ahead TLB of its engine (R253). -/
def EngineOp.via (op : EngineOp) (k : Nat) : Via := .engine (op.tl + 16 * op.num + 2 ^ 40 * k)

/-- A write that the engines of a timeline have posted is not acknowledged yet (R282, R378). -/
def State.engPosting (s : State) (core tl : Nat) : Bool :=
  s.reqs.any fun r => r.2.core == core && r.2.entry == 64 + tl && r.2.post.isSome

/-- The oldest operation of a timeline. -/
def BlockCore.headOp (c : BlockCore) (tl : Nat) : Option EngineOp := c.ops.find? fun o => o.tl == tl

/-- Change or remove the operation of a number. -/
def BlockCore.modOp (c : BlockCore) (tl num : Nat) (f : EngineOp → EngineOp) : BlockCore :=
  { c with ops := c.ops.map fun o => if o.tl = tl ∧ o.num = num then f o else o }
def BlockCore.dropOp (c : BlockCore) (tl num : Nat) : BlockCore :=
  { c with ops := c.ops.filter fun o => !(o.tl == tl && o.num == num) }

/-- An operation that has not begun. -/
def EngineOp.start (tl num : Nat) (kind : OpKind) (bidx : Option Nat) (pc : Nat) (pr : Priv) : EngineOp where
  tl := tl
  num := num
  kind := kind
  bidx := bidx
  done := 0
  stat := .queued
  pc := pc
  priv := pr
  owed := 0
  held := []

/-- An operation starts: it takes the next number of its timeline. -/
def State.startOp (s : State) (k j tl : Nat) (kind : OpKind) (bidx : Option Nat) (pc : Nat) (pr : Priv) : Nat × State :=
  let r := s.takeNum k j tl
  (r.1, r.2.modBc k j fun c => { c with ops := c.ops ++ [EngineOp.start tl r.1 kind bidx pc pr] })

/-- An operation of a timeline has completed: the completed count is the highest number up to which every operation has,
and the waits that this ends are over (R298). -/
def State.completeNum (s : State) (k j tl : Nat) : State :=
  let c := (s.block k).bc j
  let t := c.tl tl
  let n := match c.headOp tl with
    | some o => (o.num + 2 ^ 32 - 1) % 2 ^ 32
    | none => t.issued
  (s.modBc k j (·.setTl tl { t with completed := n })).wakeTl k

/-- The number that a core of a lost die stands under in its blocks (R361): nothing acts there. -/
def lostCore (core : Nat) : Nat := 2 ^ 20 + core

/-- The block and its core on a core of the package. -/
def State.blockOn (s : State) (core tag : Nat) : Option (Block × Nat) :=
  if lostCore 0 ≤ core then none
  else
    match Kv.find tag s.blocks with
    | none => none
    | some b => (b.bcOn core).map fun j => (b, j)

/-! ### Transaction barriers (R316 to R320) -/

/-- A barrier object. `bytes` is signed; `hi` and `lo` are its res0 fields, bits 95:83 and 31:30. -/
structure Bar where
  tag : Nat
  poisoned : Bool
  root : Bool
  leaf : Bool
  parent : Nat
  bytes : Int
  reload : Nat
  arr : Nat
  phase : Nat
  hi : Nat
  lo : Nat
  deriving DecidableEq, Repr

def Bar.ofNat (x : Nat) : Bar where
  tag := bitsOf x 127 96
  poisoned := bitOf x 82
  root := bitOf x 81
  leaf := bitOf x 80
  parent := bitsOf x 79 64
  bytes := signedOf 32 (bitsOf x 63 32)
  reload := bitsOf x 29 17
  arr := bitsOf x 16 4
  phase := bitsOf x 3 0
  hi := bitsOf x 95 83
  lo := bitsOf x 31 30

def Bar.toNat (b : Bar) : Nat :=
  b.phase + b.arr * 2 ^ 4 + b.reload * 2 ^ 17 + b.lo * 2 ^ 30 + wrapTo 32 b.bytes * 2 ^ 32 + b.parent * 2 ^ 64 +
    boolNat b.leaf * 2 ^ 80 + boolNat b.root * 2 ^ 81 + boolNat b.poisoned * 2 ^ 82 + b.hi * 2 ^ 83 + b.tag * 2 ^ 96

/-- Its res0 bits are 0. -/
def Bar.clear (b : Bar) : Bool := b.hi == 0 && b.lo == 0

/-- The object validates for a block's tag (R317). -/
def Bar.valid (b : Bar) (tag : Nat) : Bool :=
  b.tag == tag && b.clear && b.reload != 0 && decide (b.arr ≤ b.reload) && !(b.leaf && b.root) &&
    (b.leaf == (b.parent != 0xFFFF))

/-- The home of an object in a stash page: as its line says, or as the page's home address translates. -/
def State.barHome (s : State) (k off : Nat) (p : StashPage) : Option Nat :=
  match p.line off with
  | some l => some (l.spa + off % 64)
  | none =>
    match s.walk ((s.block k).part.getD 0) .steward .load (p.home + off % 4096) with
    | .ok x => some x.spa
    | .error _ => none

/-- The object at a scratch offset of a block's core. In a stash page it lies in its line; the bytes of one that is not valid
are its home's. -/
def State.barGet (s : State) (k j off : Nat) : Bar :=
  let c := (s.block k).bc j
  Bar.ofNat (match c.stashPage off with
    | none => leRead c.scratchByte off 16
    | some p =>
      match p.line off with
      | some l => leRead (fun x => l.data.getD x 0) (off % 64) 16
      | none =>
        match s.barHome k off p with
        | some spa => leRead s.coherentByte spa 16
        | none => 0)

/-- The object changes: in a modified line of a stash page there, in any other state of the line at its home (R239). -/
def State.barPut (s : State) (k j off : Nat) (b : Bar) : State :=
  let blk := s.block k
  let d := bytesOf b.toNat 16
  match (blk.bc j).stashPage off with
  | none => s.modBc k j (·.setScratch (cellsAt off d))
  | some p =>
    match (p.line off).filter (·.st == .modified), s.barHome k off p with
    | some l, _ =>
      let data := l.data.take (off % 64) ++ d ++ l.data.drop (off % 64 + 16)
      s.modBc k j (·.modPage off fun p => { p with lines := Kv.insert (off % 4096 / 64) { l with data := data } p.lines })
    | none, some spa =>
      let core := (blk.bc j).core
      s.writeCells (mkCells ⟨k, core, 78, (FaultRec.ofKind 0x02).atCore blk core⟩ blk.relCount false spa
        (p.home + off % 4096) b.toNat 16)
    | none, none => s

/-- The place of a cluster scratch offset (R170). -/
def Block.clusterAt (b : Block) (off : Nat) : Nat × Nat := (off / b.scratch, off % b.scratch)

/-- Threads held on a barrier: those whose wait the phase ends become ready; all take ASYNC_FAIL where it is poisoned. -/
def State.wakeBar (s : State) (k j off : Nat) (b : Bar) : State :=
  (s.block k).threads.foldl (fun s x =>
    match x.2.stat with
    | .held (.bar j' off' p log) =>
      if j' = j ∧ off' = off then
        if b.poisoned then faultHeld s k x.1 log (asyncFail 0 0)
        else if b.phase ≠ p then s.makeReady k x.1 else s
      else s
    | _ => s) s

/-- The leaves registered to a root: their core and offset (R319). -/
def Block.leavesOf (b : Block) (rootOff : Nat) : List (Nat × Nat) :=
  (b.cores.map fun c => (c.2.leaves.filter fun l => l.2 == rootOff).map fun l => (c.1, l.1)).flatten

/-- Poison one object, and wake its waiters with ASYNC_FAIL. -/
def State.poisonOne (s : State) (k j off : Nat) : State :=
  let b := { s.barGet k j off with poisoned := true }
  (s.barPut k j off b).wakeBar k j off b

/-- Poison an object; a root takes its leaves with it (R317). -/
def State.poisonBar (s : State) (k j off : Nat) : State :=
  let b := s.barGet k j off
  let blk := s.block k
  let s := s.poisonOne k j off
  if b.root then (blk.leavesOf (j * blk.scratch + off)).foldl (fun s l =>
    if (s.barGet k l.1 l.2).valid blk.tag then s.poisonOne k l.1 l.2 else s) s
  else s

/-- The phase of an object that is no leaf advances, and with a root's that of its leaves (R318). -/
def State.advancePhase (s : State) (k j off : Nat) : State :=
  let b := s.barGet k j off
  let blk := s.block k
  let b' := { b with
    arr := b.reload
    phase := (b.phase + 1) % 16 }
  let s := (s.barPut k j off b').wakeBar k j off b'
  if b.root then (blk.leavesOf (j * blk.scratch + off)).foldl (fun s l =>
    let x := { s.barGet k l.1 l.2 with phase := b'.phase }
    (s.barPut k l.1 l.2 x).wakeBar k l.1 l.2 x) s
  else s

/-- The phase is complete: no arrival and no byte is pending. -/
def Bar.full (b : Bar) : Bool := b.arr == 0 && b.bytes == 0

/-- `settle` of an object that is no leaf. -/
def State.settleRoot (s : State) (k j off : Nat) : State :=
  let b := s.barGet k j off
  if !b.poisoned && b.full then s.advancePhase k j off else s

/-- A leaf's arrival at its root (R317, R318). False where the leaf must be poisoned. -/
def State.arriveRoot (s : State) (k off : Nat) : State × Bool :=
  let blk := s.block k
  let p := blk.clusterAt off
  let r := s.barGet k p.1 p.2
  if blk.cores.length * blk.scratch ≤ off ∨ !r.valid blk.tag ∨ !r.root ∨ r.poisoned then (s, false)
  else if r.arr = 0 then (s.poisonBar k p.1 p.2, false)
  else ((s.barPut k p.1 p.2 { r with arr := r.arr - 1 }).settleRoot k p.1 p.2, true)

/-- `settle` (R318). -/
def State.settle (s : State) (k j off : Nat) : State :=
  let b := s.barGet k j off
  if b.poisoned ∨ !b.full then s
  else if b.leaf then
    let s := s.barPut k j off { b with arr := b.reload }
    let r := s.arriveRoot k (16 * b.parent)
    if r.2 then r.1 else r.1.poisonBar k j off
  else s.advancePhase k j off

/-- An object's byte count changes; one that leaves the signed 32-bit range poisons it (R317). True where it stands. -/
def State.addBytes (s : State) (k j off : Nat) (n : Int) : State × Bool :=
  let b := s.barGet k j off
  let v := b.bytes + n
  if v < -(2 ^ 31) ∨ 2 ^ 31 - 1 < v then (s.poisonBar k j off, false)
  else (s.barPut k j off { b with bytes := v }, true)

/-! ### The course of an operation (R299, R301, R310) -/

/-- The bytes that a copy counts. -/
def OpKind.isCopy : OpKind → Bool
  | .copy .. | .tensor .. | .gather .. => true
  | _ => false

/-- The write pointer of an operation's channel advances (R301). -/
def State.movePointer (s : State) (k j : Nat) (op : EngineOp) (n : Nat) : State :=
  if op.tl < 8 then s.modBc k j fun c => { c with wps := Kv.set 0 op.tl (c.wp op.tl + BitVec.ofNat 32 n) c.wps } else s

/-- A copy has performed `n` further bytes: its barrier is decremented, then its write pointer advances. False where its
barrier no longer validates, so that it must be cancelled (R301, R310). -/
def State.countBytes (s : State) (k j : Nat) (op : EngineOp) (n : Nat) : State × Bool :=
  match op.bidx with
  | none => (s.movePointer k j op n, true)
  | some bi =>
    let b := s.barGet k j (16 * bi)
    if !b.valid (s.block k).tag then (s.movePointer k j op n, false)
    else if b.poisoned then (s.movePointer k j op n, true)
    else
      let r := s.addBytes k j (16 * bi) (-(n : Int))
      ((if r.2 then r.1.settle k j (16 * bi) else r.1).movePointer k j op n, true)

/-- The barrier of an operation that is cancelled takes the rest of its decrements and is poisoned in one step, so that no
phase ends by them (R299, R310, R317). DEDUCED, log 84. -/
def State.cancelBar (s : State) (k j : Nat) (op : EngineOp) (left : Nat) : State :=
  match op.bidx with
  | none => s
  | some bi =>
    let b := s.barGet k j (16 * bi)
    if !b.valid (s.block k).tag then s
    else
      let v := b.bytes - (left : Int)
      let s := if op.kind.isCopy && !b.poisoned && decide (-(2 ^ 31) ≤ v) then s.barPut k j (16 * bi) { b with bytes := v } else s
      s.poisonBar k j (16 * bi)

/-- Cancel an operation of timelines 0 to 9 (R299): the rest of its bytes are counted, its barrier is poisoned, its
number fails and completes, and its record is sent. `left` is what had not been counted. -/
def State.cancelOp (s : State) (k j : Nat) (op : EngineOp) (left : Nat) (e : Exc) : State :=
  let s := s.cancelBar k j op (if e.cls = .barState then 0 else left)
  let s := if op.kind.isCopy then s.movePointer k j op left else s
  let s := s.modBc k j fun c => (c.failNum op.tl op.num).dropOp op.tl op.num
  let s := s.sendBlockRecord k (opRecord s k j op 0x04 false e)
  if op.tl < 10 then s.completeNum k j op.tl else s

/-- Park an operation at a faulting unit (R303). -/
def State.parkOp (s : State) (k j : Nat) (op : EngineOp) (e : Exc) : State :=
  (s.modBc k j (·.modOp op.tl op.num fun o => { o with stat := .parked e })).sendBlockRecord k
    (opRecord s k j op 0x03 true e)

/-! ### Accesses of an operation (R302) -/

/-- Where a unit of an operation lies: a global address, or scratch of one of the block's cores. -/
inductive CAddr where
  | glob (va : Nat)
  | loc (j off : Nat)
  deriving DecidableEq, Repr

/-- The global address of a unit: canonical, outside the scratch window, translated for the operation's privilege. A table
loader's address in the window fails so too. DESIGN CHOICE, log 85. -/
def engPlace (s : State) (k j : Nat) (op : EngineOp) (a : Access) (va : Nat) : Except Stop (Xlat × State) :=
  let b := s.block k
  if 2 ^ 52 ≤ va ∨ va / 2 ^ 33 * 2 ^ 33 = scratchWindow then .error (rangeExc va)
  else
    match s.translateVia (op.via k) (b.bc j).core (b.part.getD 0) op.priv a va with
    | .error e => .error e
    | .ok r =>
      match raceExc r.2 k va false with
      | some e => .error (.exc e)
      | none => .ok r

/-- Translate ahead: what fails is met again where an access reaches the page (R253). -/
def State.lookAhead (s : State) (k j : Nat) (op : EngineOp) (a : Access) : List Nat → State
  | [] => s
  | va :: t =>
    match s.translateVia (op.via k) ((s.block k).bc j).core ((s.block k).part.getD 0) op.priv a va with
    | .ok r => r.2.lookAhead k j op a t
    | .error _ => s.lookAhead k j op a t

/-- The first 32 pages among addresses. -/
def pagesOf : Nat → List Nat → List Nat → List Nat
  | 0, _, ps => ps
  | _, [], ps => ps
  | n + 1, va :: t, ps => if ps.contains (va / 4096 * 4096) then pagesOf (n + 1) t ps else pagesOf n t (ps ++ [va / 4096 * 4096])

/-- Read a unit of `n` bytes. -/
def engRead (s : State) (k j : Nat) (op : EngineOp) (p : CAddr) (n : Nat) : Except Stop (Nat × State) :=
  match p with
  | .glob va =>
    match engPlace s k j op .load va with
    | .error e => .error e
    | .ok (x, s) => typedRead s (op.actor s k j) x.spa x.mt n va
  | .loc i off => scratchRead s (op.actor s k j) k i off n op.priv Order.plain

/-- Write a unit: at once in scratch and in control memory, as cells in other memory (R249, R302). -/
def engWrite (s : State) (k j : Nat) (op : EngineOp) (p : CAddr) (d : List Byte) : Except Stop (List WCell × State) :=
  match p with
  | .glob va =>
    match engPlace s k j op .store va with
    | .error e => .error e
    | .ok (x, s) => physStore s (op.actor s k j) x.spa x.mt va (leRead (fun x => d.getD x 0) 0 d.length) d.length false
  | .loc i off => scratchWrite s (op.actor s k j) k i off d op.priv Order.plain

/-- Read `n` aligned words. -/
def engWords (s : State) (k j : Nat) (op : EngineOp) (f : Nat → CAddr) : Nat → Except Stop (List Nat × State)
  | 0 => .ok ([], s)
  | n + 1 =>
    match engWords s k j op f n with
    | .error e => .error e
    | .ok (l, s) => (engRead s k j op (f (4 * n)) 4).map fun r => (l ++ [r.1], r.2)

/-- What an error of a running operation does: it parks at a page fault, it is cancelled at its next step otherwise, and
it waits for a line of another package. -/
def State.stopOp (s : State) (k j : Nat) (op : EngineOp) (x : Stop) : Res :=
  let core := ((s.block k).bc j).core
  let tag := k
  match x with
  | .halt h => .fault h
  | .miss a p => .next (s.request core (64 + op.tl) a p)
  | .wait => .next s
  | .exc e =>
    if e.cls = .pageFault then
      .next ((s.modBc k j (·.modOp op.tl op.num fun o => { o with stat := .queued })).later [.engineOpPark core tag op.tl])
    else
      .next ((s.modBc k j (·.modOp op.tl op.num fun o => { o with stat := .cancelled e })).later
        [.engineOpCancel core tag op.tl])

end Sys2Proof.Machine
end

