-- ==== Sys2Proof/Machine/Tensor.lean ====
section
/-! DEFINITION. Tensor records: their fields, their checks, and where elements and scale bytes lie (R82, R304, R305,
R308). A record is held as its 512-bit number. -/

namespace Sys2Proof.Machine

/-- The record as a number, and as the words that an operation keeps. -/
def recNat (l : List Nat) : Nat := l.foldr (fun w n => w % 2 ^ 32 + 2 ^ 32 * n) 0
def recWords (x : Nat) : List Nat := (List.range 16).map fun k => x / 2 ^ (32 * k) % 2 ^ 32

def tRank (x : Nat) : Nat := bitsOf x 497 495
def tFmt (x : Nat) : Nat := bitsOf x 492 488
def tTy (x : Nat) : Ty := (Ty.ofCode (tFmt x)).getD .b32
def tSvr (x : Nat) : Nat := bitsOf x 494 493
def tSblk (x : Nat) : Nat := bitsOf x 499 498
def tBase (x : Nat) : Nat := bitsOf x 63 0
def tScalep (x : Nat) : Nat := bitsOf x 127 64

/-- Box, size and stride of a dimension; dimensions at or above RANK have size and box 1. -/
def tBox (x d : Nat) : Nat := if d < tRank x then x / 2 ^ (448 + 8 * d) % 256 + 1 else 1
def tSize (x d : Nat) : Nat := if d < tRank x then x / 2 ^ (128 + 32 * d) % 2 ^ 32 else 1
def tStride (x d : Nat) : Nat := x / 2 ^ (288 + 40 * (d - 1)) % 2 ^ 40

/-- The scale block size, 0 for none. -/
def blockSize (sblk : Nat) : Nat := if sblk = 1 then 16 else if sblk = 2 then 32 else 0
def tBs (x : Nat) : Nat := blockSize (tSblk x)

/-- Bytes of a unit of a type, and elements in a unit: sub-byte elements are moved by whole bytes (R302, R305). -/
def unitBytes (ty : Ty) : Nat := if tyBits ty = 4 ∨ ty = .t3 then 1 else tyBits ty / 8
def unitElems (ty : Ty) : Nat := if ty = .e2m1 then 2 else if ty = .t3 then 5 else 1

/-- A type whose operands take a special-value reading. -/
def tyNarrow (ty : Ty) : Bool := ty == .e4m3 || ty == .e5m2 || ty == .e2m1

/-- The faults of a record for a box whose origin is at coordinate `c0` of dimension 0 (R305). -/
def tBad (x : Nat) (c0 : Int) : Bool :=
  let ty := tTy x
  let e := unitBytes ty
  let r := tRank x
  (Ty.ofCode (tFmt x)).isNone || tSvr x == 3 || (tSvr x != 0 && !tyNarrow ty) || r == 0 || decide (5 < r) ||
    tSblk x == 3 || (tSblk x != 0 && !tyNarrow ty) || (tSblk x != 0 && tSize x 0 % tBs x != 0) ||
    (List.range r).any (fun d => tSize x d == 0) || tBase x % e != 0 ||
    (List.range r).any (fun d => d != 0 && tStride x d % e != 0) ||
    tBox x 0 % unitElems ty != 0 || c0 % (unitElems ty : Int) != 0

/-- A coordinate of a box's origin: those at or above RANK are ignored (R224). -/
def tOrigin (x : Nat) (o : List Int) (d : Nat) : Int := if d < tRank x then o.getD d 0 else 0

/-- Row `r` of a box: its coordinates in dimensions 1 to 4, dimension 1 fastest. -/
def tRow (x r : Nat) (o : List Int) : List Int :=
  let b1 := tBox x 1
  let b2 := tBox x 2
  let b3 := tBox x 3
  [tOrigin x o 1 + (r % b1 : Nat), tOrigin x o 2 + (r / b1 % b2 : Nat), tOrigin x o 3 + (r / b1 / b2 % b3 : Nat),
    tOrigin x o 4 + (r / b1 / b2 / b3 : Nat)]
def tRows (x : Nat) : Nat := tBox x 1 * tBox x 2 * tBox x 3 * tBox x 4

/-- The coordinates of dimensions 1 to 4 lie in the tensor. -/
def tRowIn (x : Nat) (c : List Int) : Bool :=
  (List.range 4).all fun d => decide (0 ≤ c.getD d 0) && decide (c.getD d 0 < (tSize x (d + 1) : Int))

/-- Elements of a unit that lie in the tensor: the unit's first element is at coordinate `c0`. -/
def tInside (x : Nat) (c0 : Int) (row : List Int) : Nat :=
  if !tRowIn x row || decide (c0 < 0) then 0 else (min ((tSize x 0 : Int) - c0) (unitElems (tTy x) : Int)).toNat

/-- The address of the unit whose first element is at coordinate `c0` (R305). -/
def tAddr (x : Nat) (c0 : Int) (row : List Int) : Nat :=
  let u := c0 / (unitElems (tTy x) : Int)
  wrapTo 64 ((tBase x : Int) + u * (unitBytes (tTy x) : Int) +
    ((List.range 4).map fun d => row.getD d 0 * (tStride x (d + 1) : Int)).sum)

/-- The address of the scale byte of an element (R305). -/
def tScaleAddr (x : Nat) (c0 : Int) (row : List Int) : Nat :=
  let bs : Int := tBs x
  let lin := row.getD 0 0 + (tSize x 1 : Int) * (row.getD 1 0 + (tSize x 2 : Int) *
    (row.getD 2 0 + (tSize x 3 : Int) * row.getD 3 0))
  wrapTo 64 ((tScalep x : Int) + c0 / bs + ((tSize x 0 : Int) / bs) * lin)

/-- The first `m` elements of a unit, the others zero. An invalid ternary byte, whose five trits are all zero, stays as it is
(R83). DESIGN CHOICE, log 86. -/
def keepElems (ty : Ty) (m v : Nat) : Nat :=
  match ty with
  | .e2m1 => v % 2 ^ (4 * m)
  | .t3 => if 243 ≤ v then v else v % 3 ^ m
  | _ => if m = 0 then 0 else v

/-- A unit whose first `m` elements come from `new` and the others from `old`; the trits past a row's last element are
written as 0 (R82). -/
def mixElems (ty : Ty) (m new old : Nat) : Nat :=
  match ty with
  | .e2m1 => new % 2 ^ (4 * m) + old / 2 ^ (4 * m) * 2 ^ (4 * m)
  | .t3 => keepElems .t3 m new
  | _ => new

/-- Read the record at an address for a thread (R303, R306, R224): 64 bytes, 64-byte-aligned, global. -/
def readRecord (s : State) (g : Grp) (i va : Nat) : Except Stop (Nat × State) :=
  if 2 ^ 52 ≤ va ∨ va / 2 ^ 33 * 2 ^ 33 = scratchWindow then .error (rangeExc va)
  else if va % 64 ≠ 0 then .error (alignExc va)
  else
    match s.translate g.core ((g.part s).getD 0) (g.priv s) .load va with
    | .error e => .error e
    | .ok (x, s) => loadPlace g i (.phys x.spa x.mt) va 64 Order.plain s

/-- The registers of a group of `n` consecutive 32-bit operands; 0x150 reads every one as 0. -/
def groupOps (n : Nat) (x : Opnd) : List Src :=
  (List.range n).map fun k => (if x = .zero then .zero else plusReg k x, false)

/-- The signed coordinates that a group of values holds. -/
def coordsOf (l : List DWord) : List Int := (l.take 5).map fun v => signedOf 32 v.toNat

end Sys2Proof.Machine
end

