-- ==== Sys2Proof/Machine/Matrix.lean ====
section
/-! DEFINITION. The matrix engine: tile registers, the queue in engine order, the products, and the matrix instructions
(R96 to R99, R121, R208 to R229). -/

namespace Sys2Proof.Machine

/-! ### Tiles (R208 to R211) -/

def TileReg.empty : TileReg := ⟨0, [], [], false⟩
def BlockCore.tile (c : BlockCore) (n : Nat) : TileReg := Kv.get TileReg.empty n c.tiles
def BlockCore.setTile (c : BlockCore) (n : Nat) (t : TileReg) : BlockCore :=
  { c with tiles := Kv.set TileReg.empty n t c.tiles }
def TileReg.byte (t : TileReg) (i o : Nat) : Byte := Kv.get 0 (256 * i + o) t.data
def TileReg.scaleAt (t : TileReg) (i b : Nat) : Byte := Kv.get 0x7F (16 * i + b) t.scale
def TileReg.setByte (t : TileReg) (i o : Nat) (v : Byte) : TileReg := { t with data := Kv.set 0 (256 * i + o) v t.data }
def TileReg.setScale (t : TileReg) (i b : Nat) (v : Byte) : TileReg :=
  { t with scale := Kv.set 0x7F (16 * i + b) v t.scale }

/-- The fields of a tile control value (R209). -/
def tcRows (w : Nat) : Nat := bitsOf w 14 8
def tcCw (w : Nat) : Nat := bitsOf w 6 0
def tcFmt (w : Nat) : Nat := bitsOf w 24 20
def tcTy (w : Nat) : Ty := (Ty.ofCode (tcFmt w)).getD .b32
def tcSvr (w : Nat) : Nat := bitsOf w 26 25
def tcBs (w : Nat) : Nat := blockSize (bitsOf w 28 27)

/-- The element types of tiles. -/
def tileTy (ty : Ty) : Bool :=
  match ty with
  | .i8 | .i32 | .n8 | .f32 | .bf16 | .f16 | .e4m3 | .e5m2 | .e2m1 | .t3 => true
  | _ => false

/-- Elements per row (R210). -/
def rowElems (ty : Ty) (bytes : Nat) : Nat := bytes / unitBytes ty * unitElems ty
def tcElems (w : Nat) : Nat := rowElems (tcTy w) (4 * tcCw w)

/-- A valid tile control value (R210). -/
def tcOk (w : Nat) : Bool :=
  w == 0 ||
  (decide (1 ≤ tcRows w) && decide (tcRows w ≤ 64) && decide (1 ≤ tcCw w) && decide (tcCw w ≤ 64) &&
    (Ty.ofCode (tcFmt w)).isSome && tileTy (tcTy w) &&
    (tcSvr w == 0 || (tyNarrow (tcTy w) && decide (tcSvr w ≤ 2))) &&
    (bitsOf w 28 27 == 0 || (tyNarrow (tcTy w) && bitsOf w 28 27 != 3)) &&
    (tcBs w == 0 || (tcElems w % tcBs w == 0 && decide (tcElems w / tcBs w ≤ 16))) &&
    bitsOf w 31 29 == 0 && bitsOf w 19 15 == 0 && !bitOf w 7)

/-- Bytes outside the shape of a control value take their fixed values (R211). -/
def TileReg.clip (t : TileReg) (w : Nat) : TileReg :=
  { t with
    data := t.data.filter fun x => decide (x.1 / 256 < tcRows w) && decide (x.1 % 256 < 4 * tcCw w)
    scale := t.scale.filter fun x => tcBs w != 0 && decide (x.1 / 16 < tcRows w) && decide (x.1 % 16 < tcElems w / tcBs w) }

/-- A control value is written in engine order, once the block's earlier operations are done. -/
def TileReg.control (t : TileReg) (w : Word) : TileReg := { t.clip w.toNat with tc := w }

/-- The matrix status word (R229): the failed marks stand in the tiles. -/
def BlockCore.status (c : BlockCore) : Nat :=
  c.mstat.toNat % 2 ^ 16 + (c.tiles.map fun t => if t.2.failed then 2 ^ (16 + t.1) else 0).sum

/-- The sticky bits of the status word, and a rerun counted up to 255. -/
structure MFlags where
  sat : Bool
  inf : Bool
  nan : Bool
  tern : Bool
  deriving DecidableEq, Repr

def MFlags.none : MFlags := ⟨false, false, false, false⟩
def MFlags.or (a b : MFlags) : MFlags := ⟨a.sat || b.sat, a.inf || b.inf, a.nan || b.nan, a.tern || b.tern⟩
def MFlags.bits (f : MFlags) : Nat := boolNat f.sat + 2 * boolNat f.inf + 4 * boolNat f.nan + 8 * boolNat f.tern
def BlockCore.flag (c : BlockCore) (f : MFlags) : BlockCore := { c with mstat := c.mstat ||| BitVec.ofNat 32 f.bits }
def BlockCore.rerun (c : BlockCore) : BlockCore :=
  if bitsOf c.mstat.toNat 15 8 = 255 then c else { c with mstat := c.mstat + 0x100 }

/-! ### Elements and group sums (R78, R80, R96 to R99) -/

/-- The bits of element `k` of row `i`. -/
def TileReg.elem (t : TileReg) (w i k : Nat) : Nat :=
  let rd (o n : Nat) : Nat := leRead (fun x => t.byte i x) o n
  match tcTy w with
  | .e2m1 => rd (k / 2) 1 / 2 ^ (4 * (k % 2)) % 16
  | .t3 => rd (k / 5) 1
  | ty => rd (k * unitBytes ty) (unitBytes ty)

/-- An element with its block scale, exactly (R80). -/
def TileReg.val (t : TileReg) (w i k : Nat) : FVal :=
  match fmtTy (tcTy w) with
  | none => .zero false
  | some f =>
    let v := FVal.ofBits f ((Reading.ofCode (tcSvr w)).getD .finiteOnly) (t.elem w i k)
    if tcBs w = 0 then v
    else
      let sc := (t.scaleAt i (k / tcBs w)).toNat
      if sc = 255 then .nan false true 0
      else
        match v with
        | .fin n m e => .fin n m (e + (sc : Int) - 127)
        | v => v

/-- An integer or ternary element (R99). -/
def TileReg.int (t : TileReg) (w i k : Nat) : Int :=
  match tcTy w with
  | .t3 => tritOf (t.elem w i k) (k % 5)
  | .i8 => signedOf 8 (t.elem w i k)
  | _ => (t.elem w i k : Int)

/-- The accumulator's format. -/
def accFmt : AccFmt → Fmt
  | .f32 | .i32 => .f32
  | .bf16 => .bf16
  | .f16 => .f16

/-- The product of two elements, NaN for 0 × ∞. -/
def prodVal (a b : FVal) : FVal :=
  if a.isNan || b.isNan then .nan false true 0 else (exactMul a b).getD (.nan false true 0)

/-- The position of a non-zero term's leading bit. -/
def leadPos : FVal → Option Int
  | .fin _ m e => if m = 0 then none else some ((Nat.log2 m : Int) + e)
  | _ => none

/-- A term in units of `2 ^ q`, truncated on its magnitude. -/
def truncTerm (q : Int) : FVal → Int
  | .fin n m e => signedMan n (if q ≤ e then m * 2 ^ (e - q).toNat else m / 2 ^ (q - e).toNat)
  | _ => 0

/-- The greatest of a list of positions. -/
def maxPos : List Int → Option Int
  | [] => none
  | x :: t => match maxPos t with
    | some y => some (max x y)
    | none => some x

/-- `group_sum` (R97, R98). -/
def groupSum (f : Fmt) (terms : List FVal) : Nat × MFlags :=
  if terms.any FVal.isNan then (f.canonNan, { MFlags.none with nan := true })
  else
    let pos := terms.contains (.inf false)
    let neg := terms.contains (.inf true)
    if pos && neg then (f.canonNan, { MFlags.none with nan := true })
    else if pos || neg then (f.infBits neg, MFlags.none)
    else
      match maxPos (terms.filterMap leadPos) with
      | none => (f.signBit (terms.all FVal.neg), MFlags.none)
      | some e =>
        let q := e - 40
        let s := (terms.map (truncTerm q)).sum
        if s = 0 then (f.signBit false, MFlags.none)
        else
          let r := roundWide f .rn (.fin (decide (s < 0)) s.natAbs q)
          (r.1, { MFlags.none with inf := r.2.of })

/-- The products of a list, group after group of 16, from an accumulator (R96). -/
def sumGroups (f : Fmt) : Nat → List FVal → Nat × MFlags → Nat × MFlags
  | 0, _, r => r
  | n + 1, ps, r =>
    match ps with
    | [] => r
    | ps =>
      let g := groupSum f (FVal.ofBits f .ieee r.1 :: ps.take 16)
      sumGroups f n (ps.drop 16) (g.1, r.2.or g.2)

/-- The scaled accumulator (R218). -/
def scaleAcc (f : Fmt) (sigma c : Nat) : Nat × MFlags :=
  let x := FVal.ofBits .f32 .ieee sigma
  let y := FVal.ofBits f .ieee c
  match prodVal x y with
  | .nan _ _ _ => (f.canonNan, { MFlags.none with nan := true })
  | z =>
    let r := roundWide f .rn z
    (r.1, { MFlags.none with inf := r.2.of })

/-! ### The work of an operation (R218, R220, R227) -/

/-- The control value that stood at issue. -/
def tcAt (tcs : List (Nat × Word)) (t : Nat) : Nat := (Kv.get 0 t tcs).toNat

/-- One element of an MMA. -/
def mmaElem (c : BlockCore) (tcs : List (Nat × Word)) (td ta tb : Nat) (src : AccSrc) (acc : AccFmt)
    (sigma : Option Nat) (k i j : Nat) : Nat × MFlags :=
  let wa := tcAt tcs ta
  let wb := tcAt tcs tb
  let cv : Nat :=
    match src with
    | .zero => 0
    | .inPlace => (c.tile td).elem (tcAt tcs td) i j
    | .tile t => (c.tile t.toNat).elem (tcAt tcs t.toNat) i j
  if acc = .i32 then
    let ps := (List.range k).map fun n => (c.tile ta).int wa i n * (c.tile tb).int wb j n
    (wrapTo 32 ((cv : Int) + ps.sum), MFlags.none)
  else
    let f := accFmt acc
    let start := match sigma with
      | some sg => scaleAcc f sg cv
      | none => (cv, MFlags.none)
    sumGroups f k ((List.range k).map fun n => prodVal ((c.tile ta).val wa i n) ((c.tile tb).val wb j n)) start

/-- Write a number of `n` bytes into a row. -/
def TileReg.put (t : TileReg) (i o v n : Nat) : TileReg :=
  (List.range n).foldl (fun t k => t.setByte i (o + k) (BitVec.ofNat 8 (v / 256 ^ k))) t

/-- The rows of a product: row, and its elements with the flags they raise. -/
def mmaRows (f : Nat → Nat → Nat × MFlags) (lanes : List Nat) (n : Nat) : List (Nat × List (Nat × MFlags)) :=
  lanes.map fun i => (i, (List.range n).map fun j => f i j)

/-- Write the rows into D and raise the flags. -/
def BlockCore.writeRows (c : BlockCore) (td esz : Nat) (rows : List (Nat × List (Nat × MFlags))) : BlockCore :=
  let t := rows.foldl (fun t r => (r.2.zipIdx).foldl (fun t x => t.put r.1 (x.2 * esz) x.1.1 esz) t) (c.tile td)
  let f := (rows.map fun r => (r.2.map (·.2)).foldl MFlags.or MFlags.none).foldl MFlags.or MFlags.none
  (c.setTile td t).flag f

/-- A ternary tile's rows hold an invalid byte among the elements read (R83). -/
def ternBad (c : BlockCore) (ta w k : Nat) (lanes : List Nat) : Bool :=
  lanes.any fun i => (List.range k).any fun n => decide (243 ≤ (c.tile ta).elem w i n)

/-- The effect of an operation that touches only tiles; the tensor operations are apart. -/
def BlockCore.perform (c : BlockCore) : OpKind → BlockCore
  | .tzero all td rows lanes =>
    let t := c.tile td
    let hit (i : Nat) : Bool := all || (decide (i < rows) && lanes.contains i)
    c.setTile td
      { t with
        data := t.data.filter fun x => !hit (x.1 / 256)
        scale := t.scale.filter fun x => !hit (x.1 / 16)
        failed := t.failed && !all }
  | .mma td ta tb src acc sigma k lanes tcs =>
    let n := tcRows (tcAt tcs tb)
    c.writeRows td (unitBytes (tcTy (tcAt tcs td)))
      (mmaRows (fun i j => mmaElem c tcs td ta tb src acc (sigma.map fun l => Kv.get 0 i l) k i j) lanes n)
  | .mmat td ta tb src k lanes tcs =>
    let n := tcRows (tcAt tcs tb)
    let c' := c.writeRows td 4 (mmaRows (fun i j => mmaElem c tcs td ta tb src .i32 none k i j) lanes n)
    c'.flag { MFlags.none with tern := ternBad c ta (tcAt tcs ta) k lanes }
  | .mmap td ta rows tcs =>
    let a := c.tile ta
    let ra := tcRows (tcAt tcs ta)
    c.setTile td (rows.foldl (fun t r =>
      let t := (List.range 256).foldl (fun t o => t.setByte r.1 o (if r.2 < ra then a.byte r.2 o else 0)) t
      (List.range 16).foldl (fun t b => t.setScale r.1 b (if r.2 < ra then a.scaleAt r.2 b else 0x7F)) t) (c.tile td))
  | _ => c

/-! ### TLD and TST (R224, R225) -/

/-- The units of a row of a box. -/
def tRowUnits (x : Nat) : Nat := tBox x 0 / unitElems (tTy x)

/-- What TLD reads at unit `u` of the box, in row order: data first, then the scale bytes of the row. DEDUCED, log 35. -/
def tldUnit (s : State) (k j : Nat) (op : EngineOp) (td x : Nat) (coord : List Int) (u : Nat) : Except Stop State :=
  let ty := tTy x
  let nd := tRowUnits x
  let ns := if tBs x = 0 then 0 else tBox x 0 / tBs x
  let r := u / (nd + ns)
  let p := u % (nd + ns)
  let row := tRow x r coord
  if p < nd then
    let c0 := coord.getD 0 0 + ((p * unitElems ty : Nat) : Int)
    let m := tInside x c0 row
    let put (v : Nat) (s : State) : State :=
      s.modBc k j fun c => c.setTile td ((c.tile td).put r (p * unitBytes ty) v (unitBytes ty))
    if m = 0 then .ok (put 0 s)
    else (engRead s k j op (.glob (tAddr x c0 row)) (unitBytes ty)).map fun y => put (keepElems ty m y.1) y.2
  else
    let b := p - nd
    let c0 := coord.getD 0 0 + ((b * tBs x : Nat) : Int)
    let put (v : Nat) (s : State) : State :=
      s.modBc k j fun c => c.setTile td ((c.tile td).setScale r b (BitVec.ofNat 8 v))
    if tInside x c0 row = 0 then .ok (put 0x7F s)
    else (engRead s k j op (.glob (tScaleAddr x c0 row)) 1).map fun y => put y.1 y.2

/-- The number of units of a TLD. -/
def tldUnits (x : Nat) : Nat := tRows x * (tRowUnits x + if tBs x = 0 then 0 else tBox x 0 / tBs x)

/-- The conversion of an element of a tile to an element of a record, with the flags of R225. -/
def tstConv (w x : Nat) (rnd : Rnd) (sat : Bool) (v : Nat) : Nat × MFlags :=
  match fmtTy (tcTy w), fmtTy (tTy x) with
  | some f, some g =>
    if f.narrow then (v, MFlags.none)
    else
      let y := FVal.ofBits f .ieee v
      let rd := (Reading.ofCode (tSvr x)).getD .finiteOnly
      let r := roundTo g rd (sat && g.narrow) rnd 0 y
      let z := FVal.ofBits g rd r.1
      (r.1, ⟨r.2.sat, (match y, z with | .fin _ _ _, .inf _ => true | _, _ => false), z.isNan, false⟩)
  | _, _ => (v, MFlags.none)

/-- What TST writes at unit `u` of the box: the unit's value and flags. -/
def tstVal (t : TileReg) (w x : Nat) (rnd : Rnd) (sat : Bool) (r p : Nat) : Nat × MFlags :=
  let el (n : Nat) : Nat × MFlags := tstConv w x rnd sat (t.elem w r n)
  match tTy x with
  | .e2m1 =>
    let a := el (2 * p)
    let b := el (2 * p + 1)
    (a.1 + 16 * b.1, a.2.or b.2)
  | .t3 => ((t.byte r p).toNat, MFlags.none)
  | _ => el p

/-- One unit of a TST: its cells and flags. -/
def tstUnit (s : State) (k j : Nat) (op : EngineOp) (td x : Nat) (coord : List Int) (rnd : Rnd) (sat : Bool)
    (tc : Word) (u : Nat) : Except Stop (List WCell × MFlags × State) :=
  let ty := tTy x
  let nd := tRowUnits x
  let r := u / nd
  let p := u % nd
  let row := tRow x r coord
  let c0 := coord.getD 0 0 + ((p * unitElems ty : Nat) : Int)
  let m := tInside x c0 row
  if m = 0 then .ok ([], MFlags.none, s)
  else
    let at_ := CAddr.glob (tAddr x c0 row)
    let old : Except Stop (Nat × State) := if m = unitElems ty ∨ ty = .t3 then .ok (0, s) else engRead s k j op at_ (unitBytes ty)
    match old with
    | .error e => .error e
    | .ok (o, s) =>
      let v := tstVal (((s.block k).bc j).tile td) tc.toNat x rnd sat r p
      match engWrite s k j op at_ (bytesOf (mixElems ty m v.1 o) (unitBytes ty)) with
      | .error e => .error e
      | .ok (cs, s) => .ok (cs, v.2, s)

/-- Units of a TLD from number `u` on, `n` of them: where it stopped, and why. -/
def tldRun (k j : Nat) (op : EngineOp) (td x : Nat) (coord : List Int) : Nat → Nat → State → State × Nat × Option Stop
  | 0, u, s => (s, u, none)
  | n + 1, u, s =>
    match tldUnit s k j op td x coord u with
    | .ok s => tldRun k j op td x coord n (u + 1) s
    | .error e => (s, u, some e)

/-- Units of a TST: the cells gathered. -/
def tstRun (k j : Nat) (op : EngineOp) (td x : Nat) (coord : List Int) (rnd : Rnd) (sat : Bool) (tc : Word) :
    Nat → Nat → List WCell → State → State × List WCell × Nat × Option Stop
  | 0, u, cs, s => (s, cs, u, none)
  | n + 1, u, cs, s =>
    match tstUnit s k j op td x coord rnd sat tc u with
    | .ok (c, f, s) => tstRun k j op td x coord rnd sat tc n (u + 1) (cs ++ c) (s.modBc k j (·.flag f))
    | .error e => (s, cs, u, some e)

/-- A TLD has loaded an invalid ternary byte (R83). -/
def tldTern (s : State) (k j td x : Nat) : Bool :=
  tTy x == .t3 && (List.range (tRows x)).any fun r => (List.range (tRowUnits x)).any fun p =>
    decide (243 ≤ ((((s.block k).bc j).tile td).byte r p).toNat)

/-- The record's invalid-code flag is set (R83, R304): bit 500 lies in byte 62. -/
def setInv (s : State) (k j : Nat) (op : EngineOp) (recAddr : Nat) : Except Stop State :=
  match engRead s k j op (.glob (recAddr + 62)) 1 with
  | .error e => .error e
  | .ok (v, s) => (engWrite s k j op (.glob (recAddr + 62)) [BitVec.ofNat 8 (Nat.lor v 0x10)]).map fun r => r.2.writeCells r.1

/-! ### The engine (R213, R214, R222) -/

/-- The operation at the head of a block's timeline 8 is over. -/
def State.matrixDone (s : State) (core k j : Nat) (num : Nat) : State :=
  let s := s.modBc k j (·.dropOp 8 num)
  let s := s.modCore core fun c => { c with mqueue := c.mqueue.filter fun q => q != (k, num) }
  s.completeNum k j 8

/-- The units of a tensor operation that have been performed so far are noted, and it stops. -/
def State.matrixStop (s : State) (k j : Nat) (op : EngineOp) (u : Nat) (x : Stop) : Res :=
  (s.modBc k j (·.modOp 8 op.num fun o => { o with done := u })).stopOp k j { op with done := u } x

/-- The control value that a box gives a tile, or none where R224 raises TILE_CFG. -/
def boxTc (x : Nat) : Option Word :=
  let bytes := tRowUnits x * unitBytes (tTy x)
  let w := bytes / 4 + tRows x * 2 ^ 8 + tFmt x * 2 ^ 20 + tSvr x * 2 ^ 25 + tSblk x * 2 ^ 27
  if bytes % 4 ≠ 0 ∨ bytes = 0 ∨ 256 < bytes ∨ 64 < tRows x ∨ !tileTy (tTy x) ∨ !tcOk w then none
  else some (BitVec.ofNat 32 w)

/-- At its place in engine order a TLD clears what lies outside the shape that its issue gave the tile, even where it is
cancelled (R211). -/
def BlockCore.reshape (c : BlockCore) : OpKind → BlockCore
  | .tld td rec _ _ => c.setTile td ((c.tile td).clip ((boxTc (recNat rec)).getD 0).toNat)
  | _ => c

/-- Perform the oldest matrix operation of a block. A TLD clears the tile's failed mark once the whole tile is written
(R223); a TST completes once its writes are performed (R214). DESIGN CHOICE, log 67. -/
def State.performMatrix (s : State) (core k j : Nat) (op : EngineOp) (o : ChecksumOutcome) : Res :=
  match op.kind with
  | .tld td rec recAddr coord =>
    let x := recNat rec
    let s := if op.done = 0 then s.modBc k j (·.reshape op.kind) else s
    let loaded (s : State) : State :=
      (s.modBc k j fun c => c.setTile td { c.tile td with failed := false }).matrixDone core k j op.num
    match tldRun k j op td x coord (tldUnits x - op.done) op.done s with
    | (s, u, some e) => s.matrixStop k j op u e
    | (s, u, none) =>
      if tldTern s k j td x then
        match setInv s k j op recAddr with
        | .ok s => .next (loaded s)
        | .error e => s.matrixStop k j op u e
      else .next (loaded s)
  | .tst td rec _ coord rnd sat tc =>
    let x := recNat rec
    match tstRun k j op td x coord rnd sat tc (tRows x * tRowUnits x - op.done) op.done [] s with
    | (s, cs, u, some e) => (s.writeCells cs).matrixStop k j op u e
    | (s, cs, u, none) =>
      let s := (s.writeCells cs).modBc k j (·.modOp 8 op.num fun o => { o with done := u })
      .next (if s.engPosting core 8 then s else s.matrixDone core k j op.num)
  | .mma td _ _ _ _ _ _ _ _ | .mmat td _ _ _ _ _ _ =>
    match o with
    | .agrees => .next ((s.modBc k j (·.perform op.kind)).matrixDone core k j op.num)
    | .rerun => .next ((s.modBc k j fun c => (c.perform op.kind).rerun).matrixDone core k j op.num)
    | .mismatch =>
      let s := s.modBc k j fun c =>
        ({ c with mstat := (c.perform op.kind).mstat }.setTile td { c.tile td with failed := true }).rerun
      let s := s.sendBlockRecord k (opRecord s k j op 0x02 false ⟨.mmaCheck, td, 0, 0, 0⟩)
      .next (s.matrixDone core k j op.num)
  | _ => .next ((s.modBc k j (·.perform op.kind)).matrixDone core k j op.num)

/-- The oldest operation in the core's queue whose block does not stand parked. -/
def State.matrixHead (s : State) (core : Nat) : Option (Nat × Nat × EngineOp) :=
  (s.core core).mqueue.findSome? fun q =>
    match s.blockOn core q.1 with
    | none => none
    | some (b, j) =>
      match (b.bc j).headOp 8 with
      | some op => if op.stat = .queued then some (q.1, j, op) else none
      | none => none

/-- MATRIX_OP_COMPLETE (R213, R214, R222). DESIGN CHOICE, log 68. -/
def execMatrixOpComplete (core : Nat) (outcome : ChecksumOutcome) (s : State) : Res :=
  match s.matrixHead core with
  | none => .next s
  | some (k, j, op) => s.performMatrix core k j op outcome

/-! ### The instructions -/

/-- Matrix work of the group's block on the core is outstanding. -/
def matrixBusy (s : State) (g : Grp) : Bool :=
  match g.members with
  | i :: _ => let b := s.block g.block; ((b.bc (b.thread i).bc).headOp 8).isSome
  | [] => false

/-- An instruction whose turn in engine order comes after the block's earlier operations (R213, R214, R226): it waits
for them. -/
def inOrder (run : State → Res) (s : State) : Res :=
  match s.grp with
  | none => .next s
  | some g =>
    if g.priv s != .boot && matrixBusy s g then .next (s.waitFor g.core g.e [.matrixOpComplete g.core .agrees])
    else run s

/-- While the core's queue of 8 is full no matrix instruction is ready (R213). -/
def withRoom (run : State → Res) (s : State) : Res :=
  match s.grp with
  | none => .next s
  | some g =>
    if g.priv s != .boot && decide (8 ≤ (s.core g.core).mqueue.length) then
      .next (s.waitFor g.core g.e [.matrixOpComplete g.core .agrees])
    else run s

/-- A tile number beyond the block's (R208). -/
def tileBad (b : Block) (t : Nat) : Bool := decide (b.ntile ≤ t)

/-- A tile is failed for an instruction that issues now: a queued TLD or TZERO.all of it will clear its mark. -/
def failedTile (c : BlockCore) (t : Nat) : Bool :=
  (c.tile t).failed && !c.ops.any fun o =>
    match o.kind with
    | .tld td _ _ _ => td == t
    | .tzero all td _ _ => all && td == t
    | _ => false

/-- An operation enters the engine's queue under the next number of timeline 8. -/
def queueMatrix (g : Grp) (i : Nat) (kind : OpKind) (dst : Opnd) (s : State) : Once :=
  let r := s.startOp g.block (s.thread g.block i).bc 8 kind none g.pc (g.priv s)
  .done (r.2.modCore g.core fun c => { c with mqueue := c.mqueue ++ [(g.block, r.1)] })
    [((dst, false), BitVec.ofNat 64 r.1)]

/-- The active lanes of an issue. -/
def lanesOf (s : State) (g : Grp) (c : Com) : List Nat := (g.active c s).map fun i => (s.thread g.block i).lane

/-- A value that a tile control register does not take (R208, R210). -/
def tcRefused (b : Block) (t : Nat) (v : Word) : Bool := tileBad b t || !tcOk v.toNat

/-- A tile control register of the core of thread `i` takes a value (R211, R228). -/
def setTc (s : State) (k i t : Nat) (v : Word) : State :=
  s.modBc k (s.thread k i).bc fun c => c.setTile t ((c.tile t).control v)

/-- TCFG (R228). -/
def execTcfg (com : Com) (td : BitVec 4) (src : SrcB) : State → Res :=
  withRoom (inOrder (onceThreadNoBoot (.tcfg com td src) (Use.plain com (srcsB src false) []) fun g i l s =>
    let v := match src with
      | .op _ => (l.getD 0 0).setWidth 32
      | .imm w => w
    if tcRefused (s.block g.block) td.toNat v then .stop (Exc.of .illegalOperand)
    else .done (setTc s g.block i td.toNat v) []))

/-- MOVS to a tile control register (R121): a thread whose value is refused faults, and the register takes the value of
the lowest lane among the others (R21). -/
def execMovsWriteTc (com : Com) (t : BitVec 4) (a : Opnd) : State → Res :=
  let instr := Instr.movsWriteTc com t a
  let run : State → Res := gatherThreads instr (Use.plain com [(a, false)] []) (none : Option (Nat × Word))
    (fun g i l first s =>
      let v : Word := (l.getD 0 0).setWidth 32
      if tcRefused (s.block g.block) t.toNat v then .error (.exc (Exc.of .illegalOperand))
      else .ok (first.or (some (i, v)), s))
    fun g first s =>
      match first with
      | some (i, v) => setTc s g.block i t.toNat v
      | none => s
  inOrder fun s =>
    match s.grp with
    | none => .next s
    | some g => barBoot instr s g (run s)

/-- MOVS from a tile control register (R121). -/
def execMovsReadTc (com : Com) (t : BitVec 4) (dst : Opnd) : State → Res :=
  eachThreadNoBoot (.movsReadTc com t dst) (Use.plain com [] [(dst, false)]) fun g i _ s =>
    let b := s.block g.block
    if tileBad b t.toNat then .error (.exc (Exc.of .illegalOperand))
    else .ok (s, [((dst, false), (((b.bc (b.thread i).bc).tile t.toNat).tc).setWidth 64)])

/-- MOVS from a write pointer (R121, R301). -/
def execMovsReadWp (com : Com) (ch : BitVec 3) (dst : Opnd) : State → Res :=
  eachThreadNoBoot (.movsReadWp com ch dst) (Use.plain com [] [(dst, false)]) fun g i _ s =>
    let b := s.block g.block
    .ok (s, [((dst, false), ((b.bc (b.thread i).bc).wp ch.toNat).setWidth 64)])

/-- TZERO (R227). -/
def execTzero (com : Com) (all : Bool) (td : BitVec 4) (dst : Opnd) : State → Res :=
  withRoom <| onceThreadNoBoot (.tzero com all td dst) (Use.plain com [] [(dst, false)]) fun g i _ s =>
    let b := s.block g.block
    let c := b.bc (b.thread i).bc
    if tileBad b td.toNat then .stop (Exc.of .illegalOperand)
    else queueMatrix g i (.tzero all td.toNat (tcRows (c.tile td.toNat).tc.toNat) (lanesOf s g com)) dst s

/-- Row `i` for each active lane below ROWS of D (R212). -/
def touched (s : State) (g : Grp) (c : Com) (wd : Nat) : List Nat := (lanesOf s g c).filter fun l => decide (l < tcRows wd)

/-- The combinations of R216. -/
def mmaFormats (a b d : Ty) (acc : AccFmt) : Bool :=
  let out : Bool := match acc with
    | .f32 => d == .f32
    | .bf16 => d == .bf16
    | .f16 => d == .f16
    | .i32 => d == .i32
  let fp8 (t : Ty) : Bool := t == .e4m3 || t == .e5m2
  let int8 (t : Ty) : Bool := t == .i8 || t == .n8
  out && (match acc with
    | .i32 => int8 a && int8 b
    | _ => (fp8 a && fp8 b) || (a == .e2m1 && b == .e2m1) || (a == .bf16 && b == .bf16) || (a == .f16 && b == .f16) ||
        (a == .f32 && b == .f32 && acc == .f32))

/-- K: the immediate, or the elements per row of A (R217). -/
def mmaK (k : BitVec 10) (wa : Nat) : Nat := if k = 0 then tcElems wa else k.toNat

/-- The checks of R217, with the formats in `fmts`. -/
def mmaOk (c : BlockCore) (td ta tb : Nat) (src : AccSrc) (k : BitVec 10) (fmts : Bool) : Bool :=
  let wd := (c.tile td).tc.toNat
  let wa := (c.tile ta).tc.toNat
  let wb := (c.tile tb).tc.toNat
  let n := mmaK k wa
  wd != 0 && wa != 0 && wb != 0 && fmts && tcRows wa == tcRows wd && tcRows wb == tcElems wd && decide (1 ≤ n) &&
    decide (n ≤ tcElems wa) && decide (n ≤ tcElems wb) && tcBs wd == 0 &&
    (match src with
     | .tile t =>
       let wc := (c.tile t.toNat).tc.toNat
       wc != 0 && tcBs wc == 0 && tcFmt wc == tcFmt wd && tcRows wc == tcRows wd && tcCw wc == tcCw wd
     | _ => true)

/-- The tiles that an accumulator source names. -/
def accTiles (td : Nat) : AccSrc → List Nat
  | .tile t => [t.toNat]
  | .inPlace => [td]
  | .zero => []

/-- The control values of the tiles of an operation. -/
def tcsOf (c : BlockCore) (l : List Nat) : List (Nat × Word) := (sortBy id (distinct l)).map fun t => (t, (c.tile t).tc)

/-- The course that MMA and MMAT share: tile numbers, R217, R223, then the queue. DETAIL names the first tile that is not
configured, for another failed check D (DEDUCED, log 62: R338 says only that it names a tile). -/
def mmaIssue (g : Grp) (i : Nat) (td ta tb : Nat) (src : AccSrc) (k : BitVec 10) (fmts : Ty → Ty → Ty → Bool)
    (kind : Nat → List (Nat × Word) → OpKind) (dst : Opnd) (s : State) : Once :=
  let b := s.block g.block
  let c := b.bc (b.thread i).bc
  let ty (t : Nat) : Ty := tcTy (c.tile t).tc.toNat
  let used := [td, ta, tb] ++ (match src with | .tile t => [t.toNat] | _ => [])
  if used.any (tileBad b) then .stop (Exc.of .illegalOperand)
  else
    match used.find? fun t => (c.tile t).tc == 0 with
    | some t => .stop ⟨.tileCfg, t, 0, 0, 0⟩
    | none =>
      if !mmaOk c td ta tb src k (fmts (ty ta) (ty tb) (ty td)) then .stop ⟨.tileCfg, td, 0, 0, 0⟩
      else
        match (([ta, tb] ++ accTiles td src).find? (failedTile c)) with
        | some t => .stop ⟨.mmaCheck, t, 0, 0, 0⟩
        | none => queueMatrix g i (kind (mmaK k (c.tile ta).tc.toNat) (tcsOf c used)) dst s

/-- The value of a per-lane operand in every active thread, by lane. -/
def byLane (s : State) (g : Grp) (c : Com) (x : Opnd) (i : Nat) (mine : DWord) : List (Nat × Nat) :=
  (g.active c s).map fun m =>
    let v := if g.ov.isSome && m == i then mine else srcVal s g 0 m (x, false)
    ((s.thread g.block m).lane, v.toNat)

/-- MMA (R216 to R218). -/
def execMma (com : Com) (td ta tb : BitVec 4) (c : AccSrc) (acc : AccFmt) (sigma : Option Opnd) (k : BitVec 10)
    (dst : Opnd) : State → Res :=
  withRoom <| onceThreadNoBoot (.mma com td ta tb c acc sigma k dst)
    (Use.plain com (match sigma with | some x => [(x, false)] | none => []) [(dst, false)]) fun g i l s =>
      let wd := (((s.block g.block).bc (s.thread g.block i).bc).tile td.toNat).tc.toNat
      mmaIssue g i td.toNat ta.toNat tb.toNat c k (fun a b d => mmaFormats a b d acc) (fun n tcs =>
        .mma td.toNat ta.toNat tb.toNat c acc (sigma.map fun x => byLane s g com x i (l.getD 0 0)) n
          (touched s g com wd) tcs) dst s

/-- MMAT (R217, R218). -/
def execMmat (com : Com) (td ta tb : BitVec 4) (c : AccSrc) (k : BitVec 10) (dst : Opnd) : State → Res :=
  withRoom <| onceThreadNoBoot (.mmat com td ta tb c k dst) (Use.plain com [] [(dst, false)]) fun g i _ s =>
    let wd := (((s.block g.block).bc (s.thread g.block i).bc).tile td.toNat).tc.toNat
    mmaIssue g i td.toNat ta.toNat tb.toNat c k (fun a b d => a == .t3 && (b == .i8 || b == .n8) && d == .i32)
      (fun n tcs => .mmat td.toNat ta.toNat tb.toNat c n (touched s g com wd) tcs) dst s

/-- MMAP (R220). -/
def execMmap (com : Com) (td ta : BitVec 4) (dst row : Opnd) : State → Res :=
  withRoom <| onceThreadNoBoot (.mmap com td ta dst row) (Use.plain com [(row, false)] [(dst, false)]) fun g i l s =>
    let b := s.block g.block
    let c := b.bc (b.thread i).bc
    let wd := (c.tile td.toNat).tc.toNat
    let wa := (c.tile ta.toNat).tc.toNat
    if tileBad b td.toNat || tileBad b ta.toNat then .stop (Exc.of .illegalOperand)
    else if wd = 0 ∨ wa = 0 ∨ tcFmt wd ≠ tcFmt wa ∨ tcSvr wd ≠ tcSvr wa ∨ tcBs wd ≠ tcBs wa ∨ tcCw wd ≠ tcCw wa then
      .stop ⟨.tileCfg, td.toNat, 0, 0, 0⟩
    else if failedTile c ta.toNat then .stop ⟨.mmaCheck, ta.toNat, 0, 0, 0⟩
    else
      let rows := (byLane s g com row i (l.getD 0 0)).filter fun r => decide (r.1 < tcRows wd)
      queueMatrix g i (.mmap td.toNat ta.toNat rows (tcsOf c [td.toNat, ta.toNat])) dst s

/-- The operands of a tensor instruction: the record pair, and the coordinates. -/
def tensorUse (com : Com) (dst rec coord : Opnd) : Use :=
  Use.plain com ((rec, true) :: groupOps 5 coord) [(dst, false)]

/-- TLD (R224). -/
def execTld (com : Com) (td : BitVec 4) (dst rec coord : Opnd) : State → Res :=
  withRoom <| onceThreadNoBoot (.tld com td dst rec coord) (tensorUse com dst rec coord) fun g i l s =>
    let b := s.block g.block
    let va := (l.getD 0 0).toNat
    let cs := coordsOf (l.drop 1)
    if tileBad b td.toNat then .stop (Exc.of .illegalOperand)
    else
      match readRecord s g i va with
      | .error (.exc e) => .stop e
      | .error e => .abort e
      | .ok (x, s) =>
        if tBad x (cs.getD 0 0) then .stop ⟨.tensorFmt, 0, 0, va, 0⟩
        else
          match boxTc x with
          | none => .stop ⟨.tileCfg, td.toNat, 0, 0, 0⟩
          | some w =>
            match queueMatrix g i (.tld td.toNat (recWords x) va cs) dst s with
            | .done s ws => .done (s.modBc g.block (b.thread i).bc fun c => c.setTile td.toNat { c.tile td.toNat with tc := w }) ws
            | r => r

/-- The pairs of formats that TST accepts (R225). -/
def tstFormats (w x : Nat) : Bool :=
  let wide (t : Ty) : Bool := t == .f32 || t == .bf16 || t == .f16
  if wide (tcTy w) then wide (tTy x) || tyNarrow (tTy x) else tcFmt w == tFmt x && tcSvr w == tSvr x

/-- TST (R225). -/
def execTst (com : Com) (td : BitVec 4) (rnd : Rnd) (sat : Bool) (dst rec coord : Opnd) : State → Res :=
  withRoom <| onceThreadNoBoot (.tst com td rnd sat dst rec coord) (tensorUse com dst rec coord) fun g i l s =>
    let b := s.block g.block
    let c := b.bc (b.thread i).bc
    let va := (l.getD 0 0).toNat
    let cs := coordsOf (l.drop 1)
    let w := (c.tile td.toNat).tc.toNat
    if tileBad b td.toNat then .stop (Exc.of .illegalOperand)
    else
      match readRecord s g i va with
      | .error (.exc e) => .stop e
      | .error e => .abort e
      | .ok (x, s) =>
        if tBad x (cs.getD 0 0) then .stop ⟨.tensorFmt, 0, 0, va, 0⟩
        else if w = 0 ∨ tcBs w ≠ 0 ∨ tRows x ≠ tcRows w ∨
            tBox x 0 ≠ tcElems w ∨ tSblk x ≠ 0 ∨ !tstFormats w x ∨ (boxTc x).isNone then .stop ⟨.tileCfg, td.toNat, 0, 0, 0⟩
        else if failedTile c td.toNat then .stop ⟨.mmaCheck, td.toNat, 0, 0, 0⟩
        else
          let m := (b.thread i).mode rnd
          queueMatrix g i (.tst td.toNat (recWords x) va cs m sat (c.tile td.toNat).tc) dst s

/-- The width, direction and kind of a TROW form. -/
def trowWrite : TrowForm → Bool
  | .wr | .wrD | .wrSc => true
  | _ => false
def trowWide : TrowForm → Bool
  | .rdD | .wrD => true
  | _ => false
def trowSc : TrowForm → Bool
  | .rdSc | .wrSc => true
  | _ => false

/-- TROW (R226). -/
def execTrow (com : Com) (form : TrowForm) (td : BitVec 4) (data off : Opnd) (imm : Word) : State → Res :=
  let d : Src := (data, trowWide form)
  withRoom <| inOrder (eachThreadNoBoot (.trow com form td data off imm)
    (Use.plain com ((off, false) :: if trowWrite form then [d] else []) (if trowWrite form then [] else [d])) fun g i l s =>
      let b := s.block g.block
      let t := b.thread i
      let tile := (b.bc t.bc).tile td.toNat
      let w := tile.tc.toNat
      let n := if trowWide form then 8 else 4
      let o := imm.toNat + (l.getD 0 0).toNat
      let limit := if trowSc form then 16 else 4 * tcCw w
      if tileBad b td.toNat then .error (.exc (Exc.of .illegalOperand))
      else if w = 0 ∨ (trowSc form ∧ tcBs w = 0) then .error (.exc ⟨.tileCfg, td.toNat, 0, 0, 0⟩)
      else if !trowWrite form && tile.failed then .error (.exc ⟨.mmaCheck, td.toNat, 0, 0, 0⟩)
      else if tcRows w ≤ t.lane ∨ o % n ≠ 0 ∨ limit < o + n then .error (.exc ⟨.tileRange, td.toNat, 0, 0, 0⟩)
      else if trowWrite form then
        let v := (l.getD 1 0).toNat
        let tile' := if trowSc form then
            ((List.range 4).foldl (fun (x : TileReg) k => x.setScale t.lane (o + k) (BitVec.ofNat 8 (v / 256 ^ k))) tile).clip w
          else tile.put t.lane o v n
        .ok (s.modBc g.block t.bc (·.setTile td.toNat tile'), [])
      else
        let v := if trowSc form then leRead (fun x => tile.scaleAt t.lane x) o 4 else leRead (fun x => tile.byte t.lane x) o n
        .ok (s, [(d, BitVec.ofNat 64 v)]))

/-- TCHK (R229). -/
def execTchk (com : Com) (clr : Bool) (dst : Opnd) : State → Res :=
  withRoom <| inOrder (onceThreadNoBoot (.tchk com clr dst) (Use.plain com [] [(dst, false)]) fun g i _ s =>
    let b := s.block g.block
    let j := (b.thread i).bc
    .done (if clr then s.modBc g.block j fun c => { c with mstat := 0 } else s)
      [((dst, false), BitVec.ofNat 64 (b.bc j).status)])

end Sys2Proof.Machine
end

