-- ==== Sys2Proof/Machine/March.lean ====
section
/-! DEFINITION. The boot-time march test (R292 to R295): the program of spec/13_march_test.md, laid out as rinok-as does
(R66), which the harbour die places in local DRAM before it releases a core. -/

namespace Sys2Proof.Machine

/-- The labels of the program. -/
inductive MarchLabel where
  | clr | m0 | m1 | m2 | m3 | m4 | m5 | note | srch | add
  deriving DecidableEq, Repr

/-- What stands in a line: an instruction, or a transfer to a label. -/
inductive MarchOp where
  | ins (i : Instr)
  | bra (com : Com) (target : MarchLabel)
  | call (com : Com) (link : Opnd) (target : MarchLabel)
  deriving DecidableEq, Repr

/-- A line of the program. -/
structure MarchLine where
  label : Option MarchLabel
  body : MarchOp
  deriving DecidableEq, Repr

namespace March

/-- The guards: none, ?pn and ?!pn. -/
def always : Com := ⟨false, 7, false⟩
def ifp (n : BitVec 3) : Com := ⟨false, n, false⟩
def ifnot (n : BitVec 3) : Com := ⟨true, n, false⟩
def dest (d : Opnd) : Out := ⟨false, d, 0⟩

def at_ (l : MarchLabel) (x : MarchLine) : MarchLine := { x with label := some l }
def ins (i : Instr) : MarchLine := ⟨none, .ins i⟩
def bra (c : Com) (l : MarchLabel) : MarchLine := ⟨none, .bra c l⟩
def note (p : BitVec 3) : MarchLine := ⟨none, .call (ifp p) (.v 30) .note⟩
def movi (c : Com) (d : BitVec 8) (imm : Nat) : MarchLine := ins (.movi c (dest (.v d)) .b32 (BitVec.ofNat 64 imm) false)

/-- A line of two sources, the second a register or an immediate. -/
def two (f : Vec2 → Instr) (c : Com) (ty : Ty) (d a : Opnd) (b : SrcB) : MarchLine := ins (f ⟨c, dest d, ty, false, a, b⟩)
def reg (o : Opnd) : SrcB := .op o
def imm (n : Nat) : SrcB := .imm (BitVec.ofNat 32 n)
def cmp (k : Cond) (ty : Ty) (p : BitVec 3) (a : Opnd) (b : SrcB) : MarchLine :=
  two (fun x => .cmp x k) always ty (.p p) a b
def shl (d a : BitVec 8) (n : BitVec 6) : MarchLine := ins (.shl ⟨always, dest (.v d), .b32, false, .v a⟩ (.simm n))
def shr (d a : BitVec 8) (n : BitVec 6) : MarchLine := ins (.shr ⟨always, dest (.v d), .b32, false, .v a⟩ (.simm n))
def sel (d a b : BitVec 8) (p : BitVec 3) : MarchLine :=
  ins (.sel ⟨always, dest (.v d), .b32, false, .v a, .v b, .p p, none⟩)

/-- The word of index v`n` in the aperture, and the one after it. -/
def word (n : BitVec 8) (off : BitVec 32) : MemOp := ⟨.global, .v 4, .v n, 2, false, off⟩
def ld (d n : BitVec 8) (off : BitVec 32) : MarchLine :=
  ins (.ld always .b32 false .relaxed (.v d) (word n off))
def st (n : BitVec 8) (off : BitVec 32) (a : Opnd) : MarchLine :=
  ins (.st always .b32 false .relaxed a (word n off))

/-- Element M1 to M4: read, compare with `old`, note a difference, write `new`, and go on up or down. -/
def element (l : MarchLabel) (start : MarchLine) (old new : Opnd) (up : Bool) : List MarchLine :=
  [start, at_ l (ld 12 10 0), two .xor always .b32 (.v 14) (.v 12) (reg old), cmp .ne .n32 2 (.v 14) (reg .zero), note 2,
    st 10 0 new] ++
  (if up then [two .add always .i32 (.v 10) (.v 10) (imm 1), cmp .lt .n32 1 (.v 10) (reg (.v 8))]
   else [two .sub always .i32 (.v 10) (.v 10) (imm 1), cmp .ge .i32 1 (.v 10) (reg .zero)]) ++
  [bra (ifp 1) l]

/-- Before M0, and M0 (R294, R295). -/
def opening : List MarchLine :=
  [ins (.csrr always 0x021 (.v 4)), movi always 6 1, ins (.csrw always 0x022 (.v 6)), movi always 7 0xFFFFFFFF,
    movi always 8 393216, movi always 20 0, movi always 21 0, movi always 10 0x60000, movi always 11 0x60041,
    at_ .clr (st 10 0 .zero), two .add always .i32 (.v 10) (.v 10) (imm 1), cmp .lt .n32 1 (.v 10) (reg (.v 11)),
    bra (ifp 1) .clr, movi always 10 0, at_ .m0 (st 10 0 .zero), two .add always .i32 (.v 10) (.v 10) (imm 1),
    cmp .lt .n32 1 (.v 10) (reg (.v 8)), bra (ifp 1) .m0]

/-- M5, the summary word and EXIT (R294, R295). -/
def closing : List MarchLine :=
  [movi always 10 0, at_ .m5 (ld 12 10 0), two .xor always .b32 (.v 14) (.v 12) (reg .zero),
    cmp .ne .n32 2 (.v 14) (reg .zero), note 2, two .add always .i32 (.v 10) (.v 10) (imm 1),
    cmp .lt .n32 1 (.v 10) (reg (.v 8)), bra (ifp 1) .m5, shl 27 20 8, two .or always .b32 (.v 27) (.v 27) (reg (.v 21)),
    two .or always .b32 (.v 27) (.v 27) (imm 1), movi always 10 0x60040, st 10 0 (.v 27), ins (.exit always)]

/-- The routine that records a detection (R295). -/
def noting : List MarchLine :=
  [at_ .note (ins (.ctz ⟨always, dest (.v 15), .b32, false, .v 14⟩)), movi always 16 131072,
    cmp .lt .n32 3 (.v 10) (reg (.v 16)), movi always 25 4, movi (ifp 3) 25 2,
    two .or always .b32 (.v 21) (.v 21) (reg (.v 25)), shr 17 10 5, two .sub always .i32 (.v 18) (.v 10) (reg (.v 16)),
    two .and always .b32 (.v 19) (.v 18) (imm 0xFFF), shr 18 18 12,
    two .or always .b32 (.v 18) (.v 18) (imm 0xA0000000), movi always 22 0x80000000, sel 17 17 19 3, sel 18 22 18 3,
    shl 17 17 16, movi always 23 0x60000, shl 24 20 1, two .add always .i32 (.v 24) (.v 24) (reg (.v 23))]

/-- Its search for the row, and the new entry. -/
def entering : List MarchLine :=
  [at_ .srch (cmp .lt .n32 4 (.v 23) (reg (.v 24))), bra (ifnot 4) .add, ld 26 23 4, ld 27 23 0,
    two .and always .b32 (.v 27) (.v 27) (imm 0xFFFF0000), cmp .eq .n32 5 (.v 26) (reg (.v 18)),
    cmp .eq .n32 6 (.v 27) (reg (.v 17)), ins (.plut always (dest (.p 5)) 0xC0 (.p 5) (.p 6) (.p 7)),
    ins (.ret (ifp 5) (.v 30)), two .add always .i32 (.v 23) (.v 23) (imm 2), bra always .srch,
    at_ .add (cmp .ge .n32 4 (.v 20) (imm 32)), two .or (ifp 4) .b32 (.v 21) (.v 21) (imm 8), ins (.ret (ifp 4) (.v 30)),
    two .or always .b32 (.v 27) (.v 17) (reg (.v 15)), st 24 0 (.v 27), st 24 4 (.v 18),
    two .add always .i32 (.v 20) (.v 20) (imm 1), ins (.ret always (.v 30))]

end March

open March in
/-- The program of spec/13_march_test.md. -/
def marchLines : List MarchLine :=
  opening ++ element .m1 (movi always 10 0) .zero (.v 7) true ++ element .m2 (movi always 10 0) (.v 7) .zero true ++
    element .m3 (two .sub always .i32 (.v 10) (.v 8) (imm 1)) .zero (.v 7) false ++
    element .m4 (two .sub always .i32 (.v 10) (.v 8) (imm 1)) (.v 7) .zero false ++ closing ++ noting ++ entering

/-- The length of a line. -/
def MarchOp.len : MarchOp → Nat
  | .ins i => lenOf i
  | _ => 12

/-- Where an instruction of `n` bytes stands that comes at `pos`: none crosses a fetch block (R42). -/
def placeInBlock (pos n : Nat) : Nat := if pos % 32 + n ≤ 32 then pos else (pos / 32 + 1) * 32

/-- The addresses of the labels, from the start of the code. -/
def marchLabels : Nat → List MarchLine → List (MarchLabel × Nat)
  | _, [] => []
  | pos, x :: t =>
    let a := placeInBlock pos x.body.len
    let rest := marchLabels (a + x.body.len) t
    match x.label with
    | some l => (l, a) :: rest
    | none => rest

/-- What fills a gap: NOPs, and one filler word where 4 bytes remain (R66). -/
def gapFill (n : Nat) : List Instr := List.replicate (n / 8) .nop ++ List.replicate (n % 8 / 4) .filler

/-- The instruction of a line that stands at address `a`. -/
def MarchOp.resolve (labels : List (MarchLabel × Nat)) (a : Nat) : MarchOp → Instr
  | .ins i => i
  | .bra c l => .bra c (BitVec.ofInt 32 (((labels.lookup l).getD 0 : Int) - a))
  | .call c r l => .call c r (BitVec.ofInt 32 (((labels.lookup l).getD 0 : Int) - a))

/-- The instructions as they stand in memory. -/
def marchLayout (labels : List (MarchLabel × Nat)) : Nat → List MarchLine → List Instr
  | _, [] => []
  | pos, x :: t =>
    let a := placeInBlock pos x.body.len
    gapFill (a - pos) ++ x.body.resolve labels a :: marchLayout labels (a + x.body.len) t

/-- The assembled program (R292). -/
def marchCode : List Byte :=
  ((marchLayout (marchLabels 0 marchLines) 0 marchLines).map fun i => (encode i).getD []).flatten

/-- Where the harbour die places it: a page of local DRAM. DESIGN CHOICE, log 5. -/
def State.bootAt (s : State) : Nat := 4096 * (Config.bootPage % (s.absent.dramEnd / 4096))

/-- The harbour die places the boot code (R292). -/
def State.placeBoot (s : State) : State := s.setCells (cellsAt (s.harbour.pkg * 2 ^ 46 + s.bootAt) marchCode)

end Sys2Proof.Machine
end

