-- ==== Sys2Proof/Machine/Exit.lean ====
section
/-! DEFINITION. The end of a thread and of a block, the boot-mode thread's start and end, and HALT (R30, R36, R37, R105,
R107, R179, R190, R191, R240, R331). -/

namespace Sys2Proof.Machine

/-! ### Squads waiting for their members (R190, R191) -/

/-- The members of a squad that a mask names and that have not ended. -/
def Block.participants (b : Block) (squad mask : Nat) : List Nat :=
  ((List.range 32).filter fun m => mask.testBit m).map (fun m => 32 * squad + m) |>.filter fun i => (Kv.find i b.threads).isSome

/-- The entry of a core that holds a thread. -/
def Core.entryOf (c : Core) (block i : Nat) : Option (Nat × Entry) :=
  c.entries.find? fun e => e.2.block == block && e.2.members.contains i

/-- A thread has arrived at a squad instruction at `pc`: it stands there ready, with nothing pending and nothing to replay
first, or it is held there (R190). -/
def State.arrived (s : State) (k pc i : Nat) : Bool :=
  let b := s.block k
  let t := b.thread i
  t.pc == pc && (match t.stat with
    | .held (.squad _) => true
    | .ready => t.rep.isNone && (match (s.core (b.bc t.bc).core).entryOf k i with
        | some e => e.2.pend.isEmpty
        | none => true)
    | _ => false)

/-- Held participants whose squad is complete become ready in slot state (R191). -/
def State.wakeSquads (s : State) (k : Nat) : State :=
  (s.block k).threads.foldl (fun s x =>
    match x.2.stat with
    | .held (.squad mask) =>
      if ((s.block k).participants (x.1 / 32) mask).all fun i => s.arrived k x.2.pc i then s.makeReady k x.1 else s
    | _ => s) s

/-- A thread is held at a squad instruction. -/
def Thread.atSquad (t : Thread) : Bool :=
  match t.stat with
  | .held (.squad _) => true
  | _ => false

/-- The same for every block that has such a thread: a squad is complete as soon as its last participant arrives. -/
def State.wakeAllSquads (s : State) : State :=
  s.blocks.foldl (fun s b => if b.2.threads.any (·.2.atSquad) then s.wakeSquads b.1 else s) s

/-! ### The end of a block -/

/-- Nothing of the block is outstanding on one of its cores: no engine operation, no base-die operation (R331). -/
def BlockCore.quiet (c : BlockCore) : Bool :=
  c.ops.isEmpty && c.regions.isEmpty && [10, 11].all fun n => (c.tl n).issued == (c.tl n).completed

/-- The entries of a block leave every PC table, and the answers they wait for are not waited for. -/
def State.dropEntries (s : State) (k : Nat) : State :=
  let mine (r : RemoteReq) : Bool := r.ask.isSome && ((s.entry r.core r.entry).map (·.block)) == some k
  { s with
    reqs := s.reqs.filter fun r => !mine r.2
    cores := s.cores.map fun c => (c.1, { c.2 with entries := c.2.entries.filter fun e => e.2.block != k }) }

/-- Every modified stash line of a block is written back, and its pages are unbound (R240). -/
def State.dropStash (s : State) (k : Nat) : State :=
  (s.block k).cores.foldl (fun s c =>
    let s := ((s.block k).bc c.1).stash.foldl State.flushPage s
    s.modBc k c.1 fun x => { x with stash := [] }) s

/-- A grid counts an ended block; the last one completes it (R179). -/
def State.countEnd (s : State) (p grid : Nat) : State :=
  match (s.part p).bind fun x => Kv.find grid x.grids with
  | none => s
  | some g =>
    let n := g.ended + 1
    let total := g.lrec.grid.1 * g.lrec.grid.2.1 * g.lrec.grid.2.2
    let g' : Grid := { g with
      ended := n
      endTick := if n = total then some s.tick else g.endTick }
    let s := s.modPart p fun x => { x with grids := Kv.insert grid g' x.grids }
    if n = total then s.later [.gridComplete p grid] else s

/-- A block is over: its stash is written back, and everything it held is free. -/
def State.endBlock (s : State) (k : Nat) : State :=
  let s := (s.dropStash k).dropEntries k
  let b := s.block k
  let s := { s with blocks := Kv.erase k s.blocks }
  match b.part with
  | some p => s.countEnd p b.grid
  | none => s

/-- A block of a grid whose threads have ended is over when nothing that it started is outstanding (R331). A saved one
ends at its restore (R348). -/
def State.endCheck (s : State) (k : Nat) : State :=
  match Kv.find k s.blocks with
  | none => s
  | some b =>
    if b.tag ≠ 0 ∧ b.phase ≠ .saved ∧ b.threads.isEmpty ∧ b.cores.all (·.2.quiet) ∧ !s.posting k then s.endBlock k else s

/-! ### The end of a thread (R105) -/

/-- Threads end: their slots are free. -/
def State.endThreads (s : State) (k : Nat) (l : List Nat) : State :=
  let s := s.modBlock k fun b => { b with threads := b.threads.filter fun t => !l.contains t.1 }
  (s.wakeSquads k).endCheck k

/-! ### The boot-mode thread (R30, R36, R37) -/

/-- A repair entry of the table: its two words. -/
def Core.repairEntry (c : Core) (n : Nat) : Nat :=
  (Kv.get 0 (2 * n) c.repair).toNat + (Kv.get 0 (2 * n + 1) c.repair).toNat * 2 ^ 32

/-- The array and row that an entry names: the register file as 64, a scratchpad bank by its number; none where the entry
names no row. -/
def repairRow (e : Nat) : Option (Nat × Nat) :=
  if bitsOf e 62 61 = 0 ∧ bitsOf e 31 16 < 4096 then some (64, bitsOf e 31 16)
  else if bitsOf e 62 61 = 1 ∧ bitsOf e 31 16 < 4096 then some (bitsOf e 37 32, bitsOf e 31 16)
  else none

/-- Apply the entries in order: the rows steered to spares, and the numbers of the entries not applied (R37). -/
def applyRepairs (c : Core) : Nat → List (Nat × Nat) × List Nat
  | 0 => ([], [])
  | n + 1 =>
    let r := applyRepairs c n
    let e := c.repairEntry n
    if !bitOf e 63 then r
    else
      match repairRow e with
      | none => (r.1, r.2 ++ [n])
      | some x =>
        if r.1.contains x then r
        else if (r.1.filter fun y => y.1 == x.1).length < (if x.1 = 64 then 16 else 2) then (r.1 ++ [x], r.2)
        else (r.1, r.2 ++ [n])

/-- BOOT_REPAIR (R37): repair, zero-fill, and the report to the harbour die, which marks a core absent whose entries were
not all applied or whose failing rows overflowed the table (R469). The steering lasts until the core is next reset, and each
EXIT applies the table to all spares. DESIGN CHOICE, log 72. -/
def State.bootRepair (s : State) (core : Nat) : State :=
  let c := s.core core
  let r := applyRepairs c 32
  let words := (r.2.map fun n => [Kv.get 0 (2 * n) c.repair, Kv.get 0 (2 * n + 1) c.repair]).flatten
  let s := s.putCore core
    { c with
      rf := []
      pad := []
      steer := r.1
      ready := true
      entries := [] }
  let bad : Bool := !words.isEmpty || c.summary.toNat.testBit 3
  { s with
    blocks := Kv.erase (bootKey core) s.blocks
    absent := if bad then { s.absent with noCores := distinct (s.absent.noCores ++ [core]) } else s.absent
    harbour := { s.harbour with reports := Kv.insert core (c.summary, words) s.harbour.reports } }

/-- The boot-mode block of a core: its one thread in the boot register set (R30, R31). -/
def bootBlock (core : Nat) (pc : DWord) : Block :=
  { Block.nowhere with
    threads := [(0, Thread.start pc.toNat 32 .boot 0 0 0)]
    cores := [(0, BlockCore.start core [])] }

/-- A core leaves reset: the harbour die has written BOOTVEC, where its boot-mode thread starts (R30). -/
def State.releaseCore (s : State) (core : Nat) : State :=
  let pc := BitVec.ofNat 64 s.bootAt
  (s.modCore core fun c =>
    { c with
      bootvec := pc
      released := true }).putBlock (bootKey core) (bootBlock core pc)

/-- CORE_RELEASE_FROM_RESET (R30, R292): of a core that is present and held in reset, with its boot code in place. -/
def execCoreReleaseFromReset (core : Nat) (s : State) : Res :=
  if (s.core core).released || s.absent.noCores.contains core || decide (384 ≤ core) then .next s
  else .next (s.placeBoot.releaseCore core)

/-- EXIT (R105, R37). -/
def execExit (com : Com) (s : State) : Res :=
  match s.grp with
  | none => .next s
  | some g =>
    let r := prepare (closeChain s g) g (.exit com) (Use.plain com [] [])
    if r.2.isEmpty then finish r.1 g
    else if g.priv s = .boot then .next { r.1.bootRepair g.core with focus := .none }
    else finish (r.1.endThreads g.block (r.2.map (·.1))) g

/-- HALT (R107). -/
def execHalt (com : Com) : State → Res :=
  onceThread (.halt com) (Use.stew com [] []) fun g _ _ s =>
    match (g.part s).bind s.part with
    | none => .hold s .halt
    | some x =>
      if x.eventPend || decide (0 < x.pendCount) then
        .done (s.putPart ((g.part s).getD 0)
          { (if 0 < x.pendCount then x.consume else x) with eventPend := false }) []
      else .hold s .halt

end Sys2Proof.Machine
end

