-- ==== Sys2Proof/Machine/Memory.lean ====
section
/-! DEFINITION. The memory instructions (R134, R135, R256 to R272) and the check of a pending one (R339). -/

namespace Sys2Proof.Machine

/-- What a memory instruction does once it is checked, for the threads given with their source values. -/
abbrev Work := Grp → List (Nat × List DWord) → State → Except Stop State

/-- The destination of a memory instruction is no v register: it is never pending, since others may read and write what it
names (R21, R339). -/
def pendingOther (i : Instr) : Bool :=
  let other (o : Opnd) : Bool :=
    match o with
    | .v _ => false
    | o => o != .zero
  match i with
  | .ld _ _ _ _ dst _ | .atom _ _ _ _ dst _ _ | .amaxsw _ _ dst _ => other dst
  | _ => false

/-- A memory instruction issues: it is checked and performed, or it stays pending (R339). DESIGN CHOICE, log 20. -/
def memIssue (instr : Instr) (u : Use) (work : Work) (s : State) : Res :=
  match s.grp with
  | none => .next s
  | some g =>
    let r := prepare (closeChain s g) g instr u
    if s.lazyMem && g.ov.isNone && !pendingOther instr && !r.2.isEmpty then
      finish (r.1.modEntry g.core g.e fun en =>
        { en with
          pend := [⟨g.pc, instr, r.2⟩]
          shadow := 0 }) g
    else conclude s g (work g r.2 r.1)

/-- As `memIssue`, barred in boot mode (R73). -/
def memIssueNoBoot (instr : Instr) (u : Use) (work : Work) (s : State) : Res :=
  match s.grp with
  | none => .next s
  | some g => barBoot instr s g (memIssue instr u work s)

/-- The effective address of a memory operand whose base and index are the first two sources. -/
def eaOf (m : MemOp) (l : List DWord) : Nat := effAddr m (l.getD 0 0) (l.getD 1 0)

/-! ### LD and ST (R134, R135, R260) -/

/-- The bytes of an access. -/
def accessBytes (ty : Ty) (quad : Bool) : Nat := if quad then 16 else tyBits ty / 8

/-- The operands of four consecutive registers (R260). A predicate and 0x150 stand for themselves as destinations. -/
def quadOps (dst : Bool) : Opnd → List Src
  | .v n => if n.toNat % 4 = 0 then [(.v n, true), (.v (n + 2), true)] else [(refusedOp, false)]
  | .s n => if n.toNat % 4 = 0 then [(.s n, true), (.s (n + 2), true)] else [(refusedOp, false)]
  | .special 0 => [(.zero, true)]
  | .p n => [(if dst then .p n else refusedOp, false)]
  | _ => [(refusedOp, false)]

/-- A source of ST: a v or s register, or 0x150 (R260). -/
def storeOp : Opnd → Opnd
  | .p _ => refusedOp
  | .special n => if n = 0 then .special n else refusedOp
  | o => o

/-- The data operands of an access. DEDUCED, log 29. -/
def dataOps (dst : Bool) (ty : Ty) (quad : Bool) (x : Opnd) : List Src :=
  if quad then quadOps dst x else [(if dst then x else storeOp x, tyWide ty)]

/-- A loaded value extended by R100. -/
def loadExt (ty : Ty) (v : Nat) : Nat :=
  if tySigned ty && decide (tyBits ty < 32) then wrapTo 32 (signedOf (tyBits ty) v) else v

/-- The values of the destinations of a load: 64 bits for each. -/
def spread : List Src → Nat → List (Src × DWord)
  | [], _ => []
  | x :: t, v => (x, BitVec.ofNat 64 v) :: spread t (v / 2 ^ 64)

/-- The number that source values make, 64 bits for each. -/
def gatherVal : List DWord → Nat
  | [] => 0
  | x :: t => x.toNat + 2 ^ 64 * gatherVal t

def ldWork (instr : Instr) (ty : Ty) (quad : Bool) (ord : MemOrd) (dst : Opnd) (m : MemOp) : Work := fun g =>
  runThreads g instr (fun i l s =>
    let n := accessBytes ty quad
    let ea := eaOf m l
    match resolve g i ⟨true, true⟩ m.space .load ea n s with
    | .error e => .error e
    | .ok (p, s) =>
      let o := (Order.of ord).at_ p
      match if o.sc then s.orderWait (g.actor s i) i o else .ok s with
      | .error e => .error e
      | .ok s =>
        match loadPlace g i p ea n o (s.releases g.block o.fences) with
        | .error e => .error e
        | .ok (v, s) =>
          .ok (s.releases g.block o.fences, spread (dataOps true ty quad dst) (if quad then v else loadExt ty v))) true

/-- LD (R135, R260). -/
def execLd (com : Com) (ty : Ty) (quad : Bool) (ord : MemOrd) (dst : Opnd) (m : MemOp) : State → Res :=
  memIssue (.ld com ty quad ord dst m) (Use.plain com (memSrcs m) (dataOps true ty quad dst))
    (ldWork (.ld com ty quad ord dst m) ty quad ord dst m)

/-- The threads' stores: each is checked in turn, and what goes to memory is written at the end (R261). -/
def storeWork (instr : Instr) (ty : Ty) (quad : Bool) (ord : MemOrd) (m : MemOp) : Work := fun g l s =>
  (runGather g instr (fun i l (cells : List WCell) s =>
    let n := accessBytes ty quad
    let ea := eaOf m l
    match resolve g i ⟨true, true⟩ m.space .store ea n s with
    | .error e => .error e
    | .ok (p, s) =>
      let o := (Order.of ord).at_ p
      match s.orderWait (g.actor s i) i o with
      | .error e => .error e
      | .ok s =>
        match storePlace g i p ea (gatherVal (l.drop 2)) n o (s.releases g.block o.releaseBefore) with
        | .error e => .error e
        | .ok (c, s) => .ok (cells ++ c, s.releases g.block o.fences)) l [] s).map fun r => r.2.writeCells r.1

/-- ST (R135, R260, R261). -/
def execSt (com : Com) (ty : Ty) (quad : Bool) (ord : MemOrd) (src : Opnd) (m : MemOp) : State → Res :=
  memIssue (.st com ty quad ord src m) (Use.plain com (memSrcs m ++ dataOps false ty quad src) [])
    (storeWork (.st com ty quad ord src m) ty quad ord m)

/-! ### LDG and SCT (R262) -/

/-- The element count, the index operands and the data operands. -/
def elemCount (cnt : BitVec 2) : Nat := 2 ^ cnt.toNat
def indexOps (cnt : BitVec 2) (m : MemOp) : List Src :=
  (List.range (elemCount cnt)).map fun j => (plusReg j m.index, false)
def elemOps (cnt : BitVec 2) (ty : Ty) (x : Opnd) : List Src :=
  (List.range (elemCount cnt)).map fun j => (plusReg (if tyWide ty then 2 * j else j) x, tyWide ty)

/-- The data operands of LDG are v registers; those of SCT may be absent. -/
def ldgDsts (cnt : BitVec 2) (ty : Ty) (x : Opnd) : List Src :=
  match x with
  | .v _ => elemOps cnt ty x
  | _ => [(refusedOp, false)]
def sctSrcs (cnt : BitVec 2) (ty : Ty) (x : Opnd) : List Src :=
  if x = .zero then (List.range (elemCount cnt)).map fun _ => (.zero, tyWide ty) else elemOps cnt ty x

/-- The place of a fault class in the order of R259. -/
def excRank (e : Exc) : Nat :=
  match e.cls with
  | .addrRange => 0
  | .align => 1
  | .pageFault => 2
  | .poison => 3
  | _ => 4

/-- The elements of one thread: an effect for each, or what stops the thread: the first class in the order of R259, and
among its elements the lowest. -/
def runElems {α : Type} (f : Nat → α → State → Except Stop (α × State)) :
    List Nat → Option Exc → α → State → Except Stop (α × State)
  | [], none, a, s => .ok (a, s)
  | [], some e, _, _ => .error (.exc e)
  | j :: t, worst, a, s =>
    match f j a s with
    | .error (.exc e) =>
      let e := { e with elem := j }
      let w := match worst with
        | some x => if excRank e < excRank x then e else x
        | none => e
      runElems f t (some w) a s
    | .error x => .error x
    | .ok (a, s) => runElems f t worst a s

/-- The place of an element: global memory whose type is not control (R262). -/
def elemPlace (g : Grp) (i : Nat) (m : MemOp) (a : Access) (ea n : Nat) (s : State) : Except Stop (Place × State) :=
  match resolve g i ⟨false, false⟩ m.space a ea n s with
  | .error e => .error e
  | .ok (.phys spa mt, s) =>
    if mt = 2 then .error (.exc (controlExc s ((g.part s).getD 0) a ea)) else .ok (.phys spa mt, s)
  | .ok r => .ok r

def ldgWork (instr : Instr) (ty : Ty) (cnt : BitVec 2) (dst : Opnd) (m : MemOp) : Work := fun g =>
  runThreads g instr (fun i l s =>
    let n := tyBits ty / 8
    (runElems (fun j (out : List DWord) s =>
      let ea := effAddr m (l.getD 0 0) (l.getD (j + 1) 0)
      match elemPlace g i m .load ea n s with
      | .error e => .error e
      | .ok (p, s) => (loadPlace g i p ea n Order.plain s).map fun r =>
          (out ++ [BitVec.ofNat 64 (loadExt ty r.1)], r.2)) (List.range (elemCount cnt)) none [] s).map
      fun r => (r.2, (ldgDsts cnt ty dst).zip r.1)) true

/-- LDG (R262). -/
def execLdg (com : Com) (ty : Ty) (cnt : BitVec 2) (ord : MemOrd) (dst : Opnd) (m : MemOp) : State → Res :=
  memIssueNoBoot (.ldg com ty cnt ord dst m)
    (Use.plain com ((m.base, true) :: indexOps cnt m) (ldgDsts cnt ty dst))
    (ldgWork (.ldg com ty cnt ord dst m) ty cnt dst m)

def sctWork (instr : Instr) (ty : Ty) (cnt : BitVec 2) (m : MemOp) : Work := fun g l s =>
  (runGather g instr (fun i l (all : List (Nat × WCell)) s =>
    let n := tyBits ty / 8
    runElems (fun j (out : List (Nat × WCell)) s =>
      let ea := effAddr m (l.getD 0 0) (l.getD (j + 1) 0)
      match elemPlace g i m .store ea n s with
      | .error e => .error e
      | .ok (p, s) => (storePlace g i p ea (l.getD (1 + elemCount cnt + j) 0).toNat n Order.plain s).map fun r =>
          (out ++ r.1.map fun c => (j, c), r.2)) (List.range (elemCount cnt)) none all s) l [] s).map
    fun r => r.2.writeCells ((sortBy (·.1) r.1).map (·.2))

/-- SCT (R262): the elements are ordered by their number, then by home lane. -/
def execSct (com : Com) (ty : Ty) (cnt : BitVec 2) (ord : MemOrd) (src : Opnd) (m : MemOp) : State → Res :=
  memIssueNoBoot (.sct com ty cnt ord src m)
    (Use.plain com ((m.base, true) :: (indexOps cnt m ++ sctSrcs cnt ty src)) [])
    (sctWork (.sct com ty cnt ord src m) ty cnt m)

/-! ### Atomics (R264 to R266) -/

/-- The new value of a cell, or none where a compare fails (R265). -/
def atomNew (op : AtomOp) (ty : Ty) (old a cmp : Nat) : Option Nat :=
  let n := tyBits ty
  let sgn (x : Nat) : Int := if tySigned ty then signedOf n x else (x : Int)
  match op with
  | .add => some (if ty = .f32 then (fAdd .f32 .rn false old a).1 else (old + a) % 2 ^ n)
  | .min => some (if ty = .f32 then (fMinMax .f32 false false old a).1 else if sgn a < sgn old then a else old)
  | .max => some (if ty = .f32 then (fMinMax .f32 true false old a).1 else if sgn old < sgn a then a else old)
  | .and => some (Nat.land old a)
  | .or => some (Nat.lor old a)
  | .xor => some (Nat.xor old a)
  | .exch => some a
  | .cas => if old = cmp then some a else none
  | .amax =>
    let x := FVal.ofBits .f32 .ieee old
    let y := FVal.ofBits .f32 .ieee a
    some (if x.isNan || y.isNan then 0x7FC00000 else (fMinMax .f32 true false old (a % 2 ^ 31)).1)

/-- An atomic on the wire: its code, and whether the thread waits for its old value. -/
structure AtomReq where
  op : AtomOp
  ty : Ty
  code : Nat
  ret : Bool
  ord : Order
  deriving DecidableEq, Repr

/-- The releasing events of an atomic that writes or not (R265, R288). -/
def AtomReq.before (r : AtomReq) (wrote : Bool) : Nat := if wrote then r.ord.releaseBefore else r.ord.fences

/-- An atomic at the home of a local line. The second component is the old value. -/
def atomHome (s : State) (a : Actor) (k spa va : Nat) (r : AtomReq) (x cmp : Nat) : Except Stop (Nat × State) :=
  let n := tyBits r.ty / 8
  if s.probing (spa / 64) then .error .wait
  else
    let s := s.snoop (spa / 64) true
    match s.poisonedIn spa n with
    | some gr =>
      if r.ret then .error (.exc (poisonExc s gr va))
      else .ok (0, (s.markPoison gr).sendBlockRecord a.block (a.poisonRec s gr va))
    | none =>
      let old := leRead s.byteAt spa n
      let s := if r.ord.acq then s.raceAcquire k va else s
      match atomNew r.op r.ty old x cmp with
      | none => .ok (old, s.releases k (r.before false + r.ord.fences))
      | some v =>
        let s := s.releases k (r.before true)
        let s := s.writeGranule (s.granuleOf spa) (mkCells a (s.block k).relCount r.ord.rel spa va v n)
        .ok (old, s.releases k r.ord.fences)

/-- The request of an atomic of thread `i` that has begun at another package (R254, R373). -/
def State.atomReq (s : State) (a : Actor) (i : Nat) : Option RemoteReq :=
  (s.reqs.find? fun q => q.2.core == a.core && q.2.entry == a.e && q.2.ask == some (2 ^ 60 + i)).map (·.2)

/-- An atomic that has begun at another package ends with its answer: a .cas that has written nothing releases nothing
(R265, R373, R384). -/
def atomEnd (s : State) (k spa va : Nat) (r : AtomReq) (cmp : Nat) (q : RemoteReq) : Except Stop (Nat × State) :=
  if q.open_ then .error .wait
  else if q.err != 0 then .error (.exc (remoteExc s q.err spa va))
  else
    let old := (q.val.getD 0).toNat
    let s := if r.ord.acq then s.raceAcquire k va else s
    .ok (old, s.releases k (r.before (r.op != .cas || old % 2 ^ tyBits r.ty == cmp) + r.ord.fences))

/-- An atomic whose home is another package: it travels there, and its old value comes back (R373, R384). A copy held here
is dropped, since the home's bytes change (R378). One to control memory is of the strict class (R249). -/
def atomRemote (s : State) (a : Actor) (i spa mt va : Nat) (r : AtomReq) (x cmp : Nat) : Except Stop (Nat × State) :=
  let strict := s.strictAt spa mt
  let p := { s.packet (if strict then 0x06 else r.code) (if strict then 3 else 1) ((a.part s).getD 0) spa a.core with
    mt := mt
    imm := BitVec.ofNat 64 x
    data := if r.op = .cas then bytesOf cmp 32 else [] }
  if r.ret then
    if s.unreachable (spaPkg spa) then .error (.exc (remoteExc s 2 spa va)) else .error (.miss (2 ^ 60 + i) p)
  else if s.sourceBusy a.core strict then .error .wait
  else
    let s := if r.ord.acq then s.raceAcquire a.block va else s
    let s := s.releases a.block (r.before true + r.ord.fences)
    let s := (s.snoop (spa / 64) true).dropProxy (spa / 64)
    .ok (0, s.post a p (a.poisonRec s (spa / 32 * 32) va))

/-- The copies of another package's line that an atomic changes are dropped as it is sent (R378). -/
def State.dropCopies (s : State) (spa : Nat) : State :=
  if s.target spa = .remote then (s.snoop (spa / 64) true).dropProxy (spa / 64) else s

/-- An atomic at a system-physical address. What no chapter lays out of the control region reads as a free value and keeps
nothing (R244). -/
def atomPhys (s : State) (a : Actor) (k i spa mt va : Nat) (r : AtomReq) (x cmp : Nat) : Except Stop (Nat × State) :=
  let n := tyBits r.ty / 8
  match s.target spa with
  | .remote => atomRemote s a i spa mt va r x cmp
  | .dram => atomHome s a k spa va r x cmp
  | .nothing => .error (.halt .noSuchAddress)
  | .control =>
    match ctlPlace (spaLocal spa) with
    | .window =>
      let old := leRead s.byteAt spa n
      .ok (old, match atomNew r.op r.ty old x cmp with
        | some v => s.setCells (windowCells spa v n)
        | none => s)
    | .interleave _ _ => .error (.exc (interleaveExc spa va))
    | _ => .ok (ctlRead s spa n, s)

/-- An atomic of one thread at a place (R265). -/
def atomPlace (g : Grp) (i : Nat) (p : Place) (ea : Nat) (r : AtomReq) (x cmp : Nat) (s : State) :
    Except Stop (Nat × State) :=
  let a := g.actor s i
  let k := g.block
  let n := tyBits r.ty / 8
  match p with
  | .aperture _ => .error (rangeExc ea)
  | .phys spa mt => atomPhys s a k i spa mt ea r x cmp
  | .scratch j off =>
    match scratchAt s a k j off (s.thread k i).priv true with
    | .error e => .error e
    | .ok (.home spa va, s) | .ok (.through _ spa va, s) => atomPhys s a k i spa 0 va r x cmp
    | .ok (.plain, s) =>
      let old := leRead ((s.block k).bc j).scratchByte off n
      .ok (old, match atomNew r.op r.ty old x cmp with
        | some v => s.modBc k j (·.setScratch (cellsAt off (bytesOf v n)))
        | none => s)
    | .ok (.line l, s) =>
      let old := leRead (fun x => l.data.getD x 0) (off % 64) n
      .ok (old, match atomNew r.op r.ty old x cmp with
        | some v =>
          let data := l.data.take (off % 64) ++ bytesOf v n ++ l.data.drop (off % 64 + n)
          s.putLine k j off { l with data := data }
        | none => s)

/-- The operand and the compare value of an atomic, from its source values (R264). -/
def atomWork (instr : Instr) (r : AtomReq) (window : Bool) (dst : List Src) (m : MemOp)
    (x cmp : List DWord → Nat) : Work := fun g =>
  runThreads g instr (fun i l s =>
    let ea := eaOf m l
    let done (v : Nat × State) : State × List (Src × DWord) := (v.2, dst.map fun d => (d, BitVec.ofNat 64 v.1))
    match s.atomReq (g.actor s i) i with
    | some q => (atomEnd s g.block q.addr ea r (cmp l) q).map fun v => done (v.1, v.2.dropCopies q.addr)
    | none =>
      match resolve g i ⟨window, false⟩ m.space .store ea (tyBits r.ty / 8) s with
      | .error e => .error e
      | .ok (p, s) =>
        let r := { r with ord := r.ord.at_ p }
        match s.orderWait (g.actor s i) i r.ord with
        | .error e => .error e
        | .ok s => (atomPlace g i p ea r (x l) (cmp l) s).map done) true

/-- The order of an atomic: it always synchronizes (R290). -/
def atomOrder (ord : MemOrd) : Order := { Order.of ord with sync := true }

/-- A source of the type's width. -/
def tyVal (ty : Ty) (l : List DWord) (k : Nat) : Nat := tyCut ty (l.getD k 0)

def atomUseWork (com : Com) (op : AtomOp) (ty : Ty) (ord : MemOrd) (dst c : Opnd) (m : MemOp) : Use × Work :=
  let w := tyWide ty
  let r : AtomReq := ⟨op, ty, 0x03, true, atomOrder ord⟩
  let instr := Instr.atom com op ty ord dst c m
  if !m.wide then
    (Use.plain com (memSrcs m ++ [(dst, w)]) [(dst, w)],
     atomWork instr r true [(dst, w)] m (fun l => tyVal ty l 2) (fun _ => 0))
  else if op = .cas then
    (Use.plain com (memSrcs m ++ [(c, w), (dst, w)]) [(dst, w)],
     atomWork instr r true [(dst, w)] m (fun l => tyVal ty l 2) (fun l => tyVal ty l 3))
  else
    (Use.plain com (memSrcs m ++ [(c, w)]) [(dst, w)],
     atomWork instr r true [(dst, w)] m (fun l => tyVal ty l 2) (fun _ => 0))

/-- ATOM (R264, R265). -/
def execAtom (com : Com) (op : AtomOp) (ty : Ty) (ord : MemOrd) (dst c : Opnd) (m : MemOp) : State → Res :=
  let x := atomUseWork com op ty ord dst c m
  memIssue (.atom com op ty ord dst c m) x.1 x.2

def redWork (instr : Instr) (op : AtomOp) (ty : Ty) (ord : MemOrd) (m : MemOp) : Work :=
  atomWork instr ⟨op, ty, 0x04, false, atomOrder ord⟩ true [] m (fun l => tyVal ty l 2) (fun _ => 0)

/-- RED (R264, R265). -/
def execRed (com : Com) (op : AtomOp) (ty : Ty) (ord : MemOrd) (src : Opnd) (m : MemOp) : State → Res :=
  memIssue (.red com op ty ord src m) (Use.plain com (memSrcs m ++ [(src, tyWide ty)]) [])
    (redWork (.red com op ty ord src m) op ty ord m)

def amaxswWork (instr : Instr) (ord : MemOrd) (dst : Opnd) (m : MemOp) : Work :=
  atomWork instr ⟨.exch, .b32, 0x05, true, atomOrder ord⟩ false [(dst, false)] m (fun l => tyVal .b32 l 2) (fun _ => 0)

/-- AMAXSW (R266). -/
def execAmaxsw (com : Com) (ord : MemOrd) (dst : Opnd) (m : MemOp) : State → Res :=
  memIssue (.amaxsw com ord dst m) (Use.plain com (memSrcs m ++ [(dst, false)]) [(dst, false)])
    (amaxswWork (.amaxsw com ord dst m) ord dst m)

/-! ### The check of a pending instruction (R339) -/

/-- What a pending instruction does when it is checked. -/
def pendWork (i : Instr) : Option Work :=
  match i with
  | .ld _ ty quad ord dst m => some (ldWork i ty quad ord dst m)
  | .st _ ty quad ord _ m => some (storeWork i ty quad ord m)
  | .ldg _ ty cnt _ dst m => some (ldgWork i ty cnt dst m)
  | .sct _ ty cnt _ _ m => some (sctWork i ty cnt m)
  | .atom com op ty ord dst c m => some (atomUseWork com op ty ord dst c m).2
  | .red _ op ty ord _ m => some (redWork i op ty ord m)
  | .amaxsw _ ord dst m => some (amaxswWork i ord dst m)
  | _ => none

/-- PENDING_CHECK (R339): the threads that fault stop at the first instruction they have not issued. -/
def execPendingCheck (core entry : Nat) (s : State) : Res :=
  match s.entry core entry with
  | none => .next s
  | some en =>
    match en.pend with
    | [] => .next s
    | p :: rest =>
      match pendWork p.instr with
      | none => .next s
      | some work =>
        let g : Grp := ⟨core, entry, en.block, p.pc, en.members, none⟩
        let s1 := s.modEntry core entry fun en =>
          { en with
            pend := rest
            shadow := 0 }
        let b := s.block en.block
        let ts := p.threads.filter fun t => (Kv.find t.1 b.threads).isSome && (b.thread t.1).ready
        conclude s g (work g ts s1)

/-! ### FENCE, CCTL and PREF (R267 to R269) -/

/-- FENCE (R267): in an execution whose accesses stand in one order it moves no data; a release waits for the writes and
the fence markers of its scope (R236, R377), and counts at die scope or wider (R288). -/
def execFence (com : Com) (k : OrdKind) (sc : Scope) : State → Res :=
  eachThread (.fence com k sc) (Use.plain com [] []) fun g i _ s =>
    (s.orderWait (g.actor s i) i (Order.of (.ordered k sc))).map fun s =>
      (s.releases g.block (boolNat (k != .acq && Scope.wide sc)), [])

/-- The address of CCTL: canonical, and outside the scratch window (R259, R268). -/
def hintRange (s : State) (g : Grp) (ea : Nat) : Bool :=
  if g.priv s = .boot then
    let x := s.core g.core
    decide (ea < 2 ^ 46) || ea / 2 ^ 33 * 2 ^ 33 != scratchWindow && (bitOf x.diagctl.toNat 0 && decide (x.diagbase.toNat ≤ ea) && decide (ea < x.diagbase.toNat + 2 ^ 22))
  else decide (ea < 2 ^ 52) && ea / 2 ^ 33 * 2 ^ 33 != scratchWindow

/-- The address names the diagnostic aperture in boot mode (R33, R259). -/
def inAperture (s : State) (g : Grp) (ea : Nat) : Bool :=
  let x := s.core g.core
  g.priv s == .boot && bitOf x.diagctl.toNat 0 && decide (x.diagbase.toNat ≤ ea) && decide (ea < x.diagbase.toNat + 2 ^ 22)

/-- The fetch blocks of a line leave the instruction caches of the partition's cores (R268). -/
def State.dropFetch (s : State) (part : Option Nat) (core line : Nat) : State :=
  let drop (c : Core) : Core := { c with icache := c.icache.filter fun b => !(b.1.1 == part && b.1.2 / 64 == line) }
  match part with
  | none => s.modCore core drop
  | some _ => { s with cores := s.cores.map fun c => (c.1, drop c.2) }

/-- CCTL.ii (R268). -/
def execCctlIi (com : Com) (m : MemOp) : State → Res :=
  eachThread (.cctlIi com m) (Use.plain com (memSrcs m) []) fun g i l s =>
    let ea := eaOf m l
    if !hintRange s g ea || inAperture s g ea then .error (rangeExc ea)
    else (s.releaseWait (g.actor s i) i false).map fun s =>
      ((s.releases g.block 1).dropFetch (g.part s) g.core (ea / 64), [])

/-- CCTL.ev (R268): the caches hold no value of their own here. -/
def execCctlEv (com : Com) (m : MemOp) : State → Res :=
  eachThread (.cctlEv com m) (Use.plain com (memSrcs m) []) fun g _ l s =>
    let ea := eaOf m l
    if !hintRange s g ea || inAperture s g ea then .error (rangeExc ea) else .ok (s, [])

/-- The stash page of a block on one of its cores whose home page holds an address. -/
def BlockCore.homePage (c : BlockCore) (va : Nat) : Option StashPage :=
  c.stash.find? fun p => p.home == va / 4096 * 4096

/-- A line of a stash page is filled as a load or a store would fill it; what refuses the fill drops it (R239, R269). -/
def State.fillLine (s : State) (a : Actor) (k j off : Nat) (pr : Priv) (st : Bool) : State :=
  match scratchAt s a k j off pr st with
  | .ok (_, s') => s'
  | .error (.miss ask p) => s.request a.core a.e ask p
  | .error _ => s

/-- PREF (R269): only the stash holds a line of its own here. -/
def execPref (com : Com) (t : PrefTarget) (m : MemOp) : State → Res :=
  eachThread (.pref com t m) (Use.plain com (memSrcs m) []) fun g i l s =>
    let ea := eaOf m l
    let th := s.thread g.block i
    if t = .stash ∧ hintRange s g ea then
      match ((s.block g.block).bc th.bc).homePage ea with
      | some p => .ok (s.fillLine { g.actor s i with e := 64 } g.block th.bc (p.off + ea % 4096) th.priv false, [])
      | none => .ok (s, [])
    else .ok (s, [])

/-! ### Stash pages (R270, R271) -/

/-- The scratch bytes that a line leaves when its page is unbound: its own, or free ones where it was invalid, since
those from before the binding are discarded (R238, R240). -/
def State.leaveLine (k j : Nat) (p : StashPage) (s : State) (n : Nat) : State :=
  let r := match Kv.find n p.lines with
    | some l => (l.data, s)
    | none => s.drawBytes 8
  r.2.modBc k j (·.setScratch (cellsAt (p.off + 64 * n) r.1))

/-- Unbind the pages that satisfy `f`: modified lines are written back, and the pages are plain scratch again (R240).
DESIGN CHOICE, log 28. -/
def State.unbind (s : State) (k j : Nat) (f : StashPage → Bool) : State :=
  let pages := ((s.block k).bc j).stash.filter f
  let s := pages.foldl State.flushPage s
  let s := s.modBc k j fun c => { c with stash := c.stash.filter fun p => !f p }
  pages.foldl (fun s p => (List.range 64).foldl (State.leaveLine k j p) s) s

/-- The stash pages of a block on a core: those bound, and those that its region entries have still to bind (R238, R312). -/
def BlockCore.stashPages (c : BlockCore) : Nat :=
  let begun := c.ops.any fun o => o.tl == 15
  c.stash.length + (((if begun then c.regions.drop 1 else c.regions).filter fun e => e.kind != 0).map fun e => e.bytes / 4096).sum

/-- The stash pages that a core holds, over all its blocks (R238). -/
def State.stashCount (s : State) (core : Nat) : Nat :=
  (s.blocks.map fun b => ((b.2.cores.filter fun c => c.2.core == core).map fun c => c.2.stashPages).sum).sum

/-- Bind one page after another (R270). -/
def State.bindPages (s : State) (k j off home : Nat) : List Nat → State
  | [] => s
  | p :: t =>
    let s := s.unbind k j fun x => x.off == off + 4096 * p || x.home == home + 4096 * p
    let s := s.modBc k j fun c =>
      { c with stash := c.stash ++ [⟨off + 4096 * p, home + 4096 * p, []⟩] }
    s.bindPages k j off home t

/-- A range touches the scratch window. -/
def touchesWindow (lo n : Nat) : Bool := decide (lo < scratchWindow + 2 ^ 33) && decide (scratchWindow < lo + n)

/-- STASH.MAP (R270). -/
def execStashMap (com : Com) (off cnt : Opnd) (m : MemOp) : State → Res :=
  onceThreadNoBoot (.stashMap com off cnt m) (Use.plain com (memSrcs m ++ [(off, false), (cnt, false)]) [])
    fun g i l s =>
      let home := eaOf m l
      let o := (l.getD 2 0).toNat
      let c := (l.getD 3 0).toNat
      let b := s.block g.block
      let j := (b.thread i).bc
      if c = 0 ∨ 256 < c ∨ b.scratch < o + 4096 * c ∨ 2 ^ 52 < home + 4096 * c ∨ touchesWindow home (4096 * c) then
        .stop (Exc.of .addrRange)
      else if o % 4096 ≠ 0 ∨ home % 4096 ≠ 0 then .stop (Exc.of .align)
      else
        let goes (p : StashPage) : Bool :=
          (decide (o ≤ p.off) && decide (p.off < o + 4096 * c)) ||
          (decide (home ≤ p.home) && decide (p.home < home + 4096 * c))
        let left := s.stashCount g.core - ((b.bc j).stash.filter goes).length
        if 256 < left + c then .stop (Exc.of .stashSpace)
        else .done (s.bindPages g.block j o home (List.range c)) []

/-- STASH.MAP.un (R270). -/
def execStashMapUn (com : Com) (off cnt : Opnd) : State → Res :=
  onceThreadNoBoot (.stashMapUn com off cnt) (Use.plain com [(off, false), (cnt, false)] [])
    fun g i l s =>
      let o := (l.getD 0 0).toNat
      let c := (l.getD 1 0).toNat
      let b := s.block g.block
      if c = 0 ∨ 256 < c ∨ b.scratch < o + 4096 * c then .stop (Exc.of .addrRange)
      else if o % 4096 ≠ 0 then .stop (Exc.of .align)
      else .done (s.unbind g.block (b.thread i).bc fun p => decide (o ≤ p.off) && decide (p.off < o + 4096 * c)) []

/-- Every modified line of the block on the core is written back; the lines become shared, or invalid under .inv. -/
def State.syncStash (s : State) (k j : Nat) (inv : Bool) : State :=
  let s := ((s.block k).bc j).stash.foldl State.flushPage s
  s.modBc k j (·.mapStash fun p =>
    { p with lines := if inv then [] else p.lines.map fun l => (l.1, { l.2 with st := .shared }) })

/-- STASH.SYNC (R271). -/
def execStashSync (com : Com) (inv : Bool) : State → Res :=
  onceThreadNoBoot (.stashSync com inv) (Use.plain com [] []) fun g i _ s =>
    .done (s.syncStash g.block (s.thread g.block i).bc inv) []

/-- The privilege of a block's threads: a steward block has tag 0. -/
def Block.priv (b : Block) : Priv := if b.part.isNone then .boot else if b.tag = 0 then .steward else .user

/-- STASH_FILL (R239): an invalid line, by its scratch offset divided by 64, is filled for a load or a store. -/
def execStashFill (core tag line : Nat) (store : Bool) (s : State) : Res :=
  match Kv.find tag s.blocks with
  | none => .next s
  | some b =>
    match b.bcOn core with
    | none => .next s
    | some j =>
      match (b.bc j).stashPage (64 * line) with
      | none => .next s
      | some p =>
        if (p.line (64 * line)).isSome then .next s
        else .next (s.fillLine ⟨tag, core, 64, (FaultRec.ofKind 0x02).atCore b core⟩ tag j (64 * line) b.priv store)

/-! ### RACEW (R272) -/

/-- The stash lines of a partition whose home lies in a range leave their pages, modified ones written back first: those of
an enabled window are not kept (R288). -/
def State.dropWindow (s : State) (p lo n : Nat) : State :=
  let inside (x : StashPage) (l : Nat × StashLine) : Bool :=
    decide (lo ≤ x.home + 64 * l.1) && decide (x.home + 64 * l.1 < lo + n)
  let mine := s.blocks.filter fun b => b.2.part == some p
  let lines := (mine.map fun b => (b.2.cores.map fun c =>
    (c.2.stash.map fun x => x.lines.filter fun l => inside x l && l.2.st == .modified).flatten).flatten).flatten
  let s := lines.foldl (fun s l => s.writeLine l.2.spa l.2.data) s
  let drop (x : StashPage) : StashPage := { x with lines := x.lines.filter fun l => !inside x l }
  { s with blocks := s.blocks.map fun b => (b.1, if b.2.part == some p then b.2.mapStash drop else b.2) }

/-- RACEW (R272). -/
def execRacew (com : Com) (w : BitVec 3) (off : Bool) (len : Opnd) (m : MemOp) : State → Res :=
  onceThreadNoBoot (.racew com w off len m)
    (Use.plain com (if off then [] else memSrcs m ++ [(len, false)]) []) fun g _ l s =>
      let p := (g.part s).getD 0
      if off then .done (s.modPart p fun x => { x with races := Kv.erase w.toNat x.races }) []
      else
        let base := eaOf m l
        let n := (l.getD 2 0).toNat
        if base % 64 ≠ 0 then .stop (Exc.of .align)
        else if n % 64 ≠ 0 ∨ n < 64 ∨ 0x4000000 < n ∨ 2 ^ 52 < base + n ∨ touchesWindow base n then
          .stop (Exc.of .addrRange)
        else .done ((s.dropWindow p base n).modPart p fun x =>
          { x with races := Kv.insert w.toNat ⟨base, n, [], []⟩ x.races }) []

end Sys2Proof.Machine
end

