-- ==== Sys2Proof/Machine/Tables.lean ====
section
/-! DEFINITION. Segment tables: the checks of an image, the evaluation rule, and the TBL instructions (R140 to R155). -/

namespace Sys2Proof.Machine

/-! ### Images (R140 to R143) -/

def TblImage.word (t : TblImage) (n : Nat) : Nat := t.hdr.getD n 0
def TblImage.ctrl (t : TblImage) (hi lo : Nat) : Nat := bitsOf (t.word 2) hi lo
def TblImage.nseg (t : TblImage) : Nat := t.ctrl 7 0 + 1
def TblImage.deg (t : TblImage) : Nat := t.ctrl 9 8
def TblImage.version (t : TblImage) : Nat := t.word 3

/-- Word `n` of segment `i`: ORIGIN, C0 to C3, and the word with GAP and SEXP (R142). -/
def TblImage.seg (t : TblImage) (i n : Nat) : Nat := (t.segs.getD i []).getD n 0
def TblImage.gap (t : TblImage) (i : Nat) : Bool := bitOf (t.seg i 5) 0

def f32 (x : Nat) : FVal := FVal.ofBits .f32 .ieee x
def FVal.finite : FVal → Bool
  | .zero _ | .fin _ _ _ => true
  | _ => false

/-- The first failing check of R143, or 0. `slots` are the physical slots that the load reserved. -/
def TblImage.reason (t : TblImage) (slots : Nat) : Nat :=
  let lo := f32 (t.word 0)
  let hi := f32 (t.word 1)
  let invw := f32 (t.word 4)
  let mode := t.ctrl 11 10
  if 2 ≤ mode ∨ t.ctrl 17 16 = 3 ∨ t.ctrl 13 12 = 3 ∨ t.ctrl 15 14 = 3 ∨ t.ctrl 19 18 = 3 then 1
  else if !lo.finite || !hi.finite || !numLt lo hi || (mode == 1 && numLt lo (.zero false)) ||
      (mode == 0 && (!invw.finite || !numLt (.zero false) invw)) then 2
  else if (List.range t.nseg).any fun i =>
      !t.gap i && (List.range (t.deg + 2)).any fun n => !(f32 (t.seg i n)).finite then 3
  else if slots = 1 ∧ 168 < t.nseg then 5
  else 0

/-! ### Evaluation (R144, R145) -/

/-- The uniform index: floor of an exact product of dyadic numbers. -/
def floorDyadic (m e : Int) : Int := if 0 ≤ e then m * 2 ^ e.toNat else m / 2 ^ (-e).toNat

/-- A finite value as a signed integer times a power of two. -/
def FVal.dyadic : FVal → Int × Int
  | .fin n m e => (signedMan n m, e)
  | _ => (0, 0)

/-- `segment_index` of R144. -/
def TblImage.index (t : TblImage) (x : Nat) : Int :=
  if t.ctrl 11 10 = 0 then
    let a := (f32 x).dyadic
    let b := (f32 (t.word 0)).dyadic
    let w := (f32 (t.word 4)).dyadic
    let d := addDyadic a.1 a.2 (-b.1) b.2
    floorDyadic (d.1 * w.1) (d.2 + w.2)
  else
    let e := bitsOf x 30 23
    let f := t.ctrl 23 21
    ((e : Int) - (t.ctrl 31 24 : Int)) * 2 ^ f + ((x % 2 ^ 23 / 2 ^ (23 - f) : Nat) : Int)

/-- The Horner steps from degree `n` down. -/
def TblImage.horner (t : TblImage) (i x p : Nat) : Nat → Nat
  | 0 => p
  | n + 1 => t.horner i x (fFma .f32 .rn false p x (t.seg i (n + 1))).1 n

/-- A segment's polynomial at `x`, with its adjustment. -/
def TblImage.poly (t : TblImage) (i x : Nat) : Except Cls Nat :=
  if t.gap i then .error .tblGap
  else
    let d := (fAdd .f32 .rn true x (t.seg i 0)).1
    let p := t.horner i d (t.seg i (t.deg + 1)) t.deg
    .ok (match t.ctrl 19 18 with
      | 1 => (fScale .f32 .rn p (signedOf 8 (t.word 8))).1
      | 2 => (fScale .f32 .rn p (signedOf 8 (t.seg i 5 / 2 ^ 8))).1
      | _ => p)

/-- The value of a table at an FP32 input (R144). -/
def TblImage.eval (t : TblImage) (x : Nat) : Except Cls Nat :=
  let v := f32 x
  let lo := f32 (t.word 0)
  let hi := f32 (t.word 1)
  if v.isNan then
    match t.ctrl 17 16 with
    | 0 => .ok (Nat.lor x 0x400000)
    | 1 => .ok (t.word 7)
    | _ => .error .tblDomain
  else
    let low := numLt v lo
    if low || !numLt v hi then
      match (if low then t.ctrl 13 12 else t.ctrl 15 14) with
      | 0 => .error .tblDomain
      | 2 => .ok (if low then t.word 5 else t.word 6)
      | _ => t.poly (if low then 0 else t.nseg - 1) x
    else
      let i := t.index (if v = .zero true then 0 else x)
      if i < 0 ∨ (t.nseg : Int) ≤ i then .error .tblGap else t.poly i.toNat x

/-- The input of a type as FP32, and the result in the type (R144, R145). -/
def tblIn (ty : Ty) (a : Nat) : Nat :=
  match fmtTy ty with
  | some .f32 => a
  | some f => (roundWide .f32 .rn (FVal.ofBits f .ieee a)).1
  | none => a
def tblOut (ty : Ty) (m : Rnd) (p : Nat) : Nat :=
  match fmtTy ty with
  | some .f32 => p
  | some f => (roundWide f m (f32 p)).1
  | none => p

/-! ### Slots (R146) -/

def TblSlot.empty : TblSlot := ⟨none, .empty⟩
def BlockCore.slot (c : BlockCore) (n : Nat) : TblSlot := Kv.get TblSlot.empty n c.tables
def BlockCore.setSlot (c : BlockCore) (n : Nat) (x : TblSlot) : BlockCore :=
  { c with tables := Kv.set TblSlot.empty n x c.tables }

/-- The physical slots that the copies hold. -/
def Shadow.size : Shadow → Nat
  | .empty => 0
  | .pending _ _ n _ _ | .ready _ n | .invalid _ n => n
def TblSlot.curSize (x : TblSlot) : Nat := (x.cur.map (·.2)).getD 0
def TblSlot.size (x : TblSlot) : Nat := x.curSize + x.shadow.size

/-- The reserved physical slots that no copy holds. -/
def BlockCore.freeSlots (c : BlockCore) (budget : Nat) : Nat := budget - (c.tables.map fun x => x.2.size).sum

/-- The VERSION of the current copy, or 0. -/
def TblSlot.version (x : TblSlot) : Nat := (x.cur.map fun c => c.1.version).getD 0

/-- A table fault with its slot (R338). -/
def tblExc (c : Cls) (slot reason : Nat) : Exc := ⟨c, slot + 16 * reason, 0, 0, 0⟩

/-- An operation loads a slot. -/
def EngineOp.loads (op : EngineOp) (slot : Nat) : Bool :=
  match op.kind with
  | .tblLoad n => n == slot
  | _ => false

/-- It has been cancelled, and completes in its turn. -/
def EngineOp.dropped (op : EngineOp) : Bool :=
  match op.stat with
  | .cancelled _ => true
  | _ => false

/-- A slot's shadow is discarded. A load that is pending there is cancelled (R299): its number fails and its record is sent
now, and it completes in its turn. DESIGN CHOICE, log 89. -/
def State.dropShadow (s : State) (k j slot : Nat) : State :=
  let c := (s.block k).bc j
  let s := match (c.slot slot).shadow, c.ops.find? fun o => o.loads slot && !o.dropped with
    | .pending _ _ _ _ _, some o =>
      let e := Exc.of (.baseDie 0)
      (s.modBc k j fun c => (c.failNum 9 o.num).modOp 9 o.num fun o => { o with stat := .cancelled e }).sendBlockRecord k
        (opRecord s k j o 0x04 false e)
    | _, _ => s
  s.modBc k j fun c => c.setSlot slot { c.slot slot with shadow := .empty }

/-! ### The instructions (R148 to R154) -/

/-- TBL.LOAD (R150). -/
def execTblLoad (com : Com) (wide : Bool) (slot : BitVec 4) (dst : Opnd) (m : MemOp) : State → Res :=
  onceThreadNoBoot (.tblLoad com wide slot dst m) (Use.plain com (memSrcs m) [(dst, false)]) fun g i l s =>
    let ea := effAddr m (l.getD 0 0) (l.getD 1 0)
    let j := (s.thread g.block i).bc
    if ea % 64 ≠ 0 then .stop ⟨.align, 0, 0, ea, 0⟩
    else if Space.far m.space ∧ 2 ^ 52 ≤ ea then .stop ⟨.addrRange, 0, 0, ea, 0⟩
    else
      let s := s.dropShadow g.block j slot.toNat
      let need := if wide then 2 else 1
      let b := s.block g.block
      if (b.bc j).freeSlots b.tslots < need then .stopIn s (tblExc .tblSpace slot.toNat 0)
      else
        let r := s.startOp g.block j 9 (.tblLoad slot.toNat) none g.pc (g.priv s)
        let s := r.2.modBc g.block j fun c => c.setSlot slot.toNat
          { c.slot slot.toNat with shadow := .pending r.1 ea need m.space (g.priv s) }
        .done s [((dst, false), BitVec.ofNat 64 r.1)]

/-- Where byte `n` of an image lies. -/
def imageAt (b : Block) (j : Nat) (sp : Space) (addr n : Nat) : CAddr :=
  match sp with
  | .scratch => .loc j (addr + n)
  | .cluster => let p := b.clusterAt (addr + n); .loc p.1 p.2
  | _ => .glob (addr + n)

/-- The loader reads an image: its header, then its segments. -/
def readImage (s : State) (k j : Nat) (op : EngineOp) (sp : Space) (addr : Nat) : Except Stop (TblImage × State) :=
  let b := s.block k
  let near : Bool := !Space.far sp
  let limit := if sp = .cluster then b.cores.length * b.scratch else b.scratch
  if near ∧ limit < addr + 64 then .error (rangeExc addr)
  else
    match engWords s k j op (fun n => imageAt b j sp addr n) 16 with
    | .error e => .error e
    | .ok (h, s) =>
      let nseg := (⟨h, []⟩ : TblImage).nseg
      if near ∧ limit < addr + 64 + 24 * nseg then .error (rangeExc (addr + 64))
      else
        (engWords s k j op (fun n => imageAt b j sp addr (64 + n)) (6 * nseg)).map fun r =>
          (⟨h, (List.range nseg).map fun i => (r.1.drop (6 * i)).take 6⟩, r.2)

/-- The load of a number is over: its shadow is `sh`, if it still has one. -/
def State.loadDone (s : State) (k j slot num : Nat) (sh : Shadow) : State :=
  let s := s.modBc k j fun c =>
    let c := c.dropOp 9 num
    match (c.slot slot).shadow with
    | .pending n _ _ _ _ => if n = num then c.setSlot slot { c.slot slot with shadow := sh } else c
    | _ => c
  (s.completeNum k j 9).endCheck k

/-- TBL_LOAD_COMPLETE (R143, R150): the oldest load of the block on the core. DEDUCED, log 34. -/
def execTblLoadComplete (core tag : Nat) (s : State) : Res :=
  match s.blockOn core tag with
  | none => .next s
  | some (b, j) =>
    match (b.bc j).headOp 9 with
    | none => .next s
    | some op =>
      match op.kind with
      | .tblLoad slot =>
        match ((b.bc j).slot slot).shadow with
        | .pending n addr slots sp _ =>
          if n ≠ op.num ∨ op.dropped then .next (s.loadDone tag j slot op.num .empty)
          else
            match readImage s tag j op sp addr with
            | .ok (img, s) =>
              let r := img.reason slots
              .next (s.loadDone tag j slot op.num (if r = 0 then .ready img slots else .invalid r slots))
            | .error (.exc e) =>
              if e.cls = .race then
                .next (((s.modBc tag j fun c => c.setSlot slot { c.slot slot with shadow := .empty }).cancelOp tag j op 0 e).endCheck tag)
              else
                let s := if e.cls = .poison then s.markRead e.aux else s
                .next ((s.sendBlockRecord tag (opRecord s tag j op 0x0C false e)).loadDone tag j slot op.num (.invalid 4 slots))
            | .error x => s.stopOp tag j op x
        | _ => .next (s.loadDone tag j slot op.num .empty)
      | _ => .next s

/-- TBL.COMMIT (R151). -/
def execTblCommit (com : Com) (slot : BitVec 4) (dst : Opnd) : State → Res :=
  onceThreadNoBoot (.tblCommit com slot dst) (Use.plain com [] [(dst, false)]) fun g i _ s =>
    let j := (s.thread g.block i).bc
    let x := ((s.block g.block).bc j).slot slot.toNat
    let put (y : TblSlot) (s : State) : State := s.modBc g.block j fun c => c.setSlot slot.toNat y
    if ((s.block g.block).bc j).ops.any (·.loads slot.toNat) then .wait [.tblLoadComplete g.core g.block]
    else
    match x.shadow with
    | .pending _ _ _ _ _ => .wait [.tblLoadComplete g.core g.block]
    | .ready img n =>
      .done (put ⟨some (img, n), .empty⟩ s) [((dst, false), BitVec.ofNat 64 img.version)]
    | .invalid r _ => .stopIn (put { x with shadow := .empty } s) (tblExc .tblFormat slot.toNat r)
    | .empty => .done s [((dst, false), BitVec.ofNat 64 x.version)]

/-- TBL.EVAL (R152). -/
def execTblEval (com : Com) (ty : Ty) (rnd : Rnd) (slot : BitVec 4) (dst a : Opnd) : State → Res :=
  eachThreadNoBoot (.tblEval com ty rnd slot dst a) (Use.plain com [(a, false)] [(dst, false)]) fun g i l s =>
    let t := s.thread g.block i
    match (((s.block g.block).bc t.bc).slot slot.toNat).cur with
    | none => .error (.exc (tblExc .tblEmpty slot.toNat 0))
    | some (img, _) =>
      match img.eval (tblIn ty (tyCut ty (l.getD 0 0))) with
      | .error c => .error (.exc (tblExc c slot.toNat 0))
      | .ok p => .ok (s, [((dst, false), BitVec.ofNat 64 (tblOut ty (t.mode rnd) p))])

/-- The status word of R153. -/
def tblStatus (c : BlockCore) (budget : Nat) (x : TblSlot) : Nat :=
  let reason := match x.shadow with | .invalid r _ => r | _ => 0
  let st := match x.shadow with
    | .empty => 0
    | .pending _ _ _ _ _ => 2
    | .ready _ _ => 4
    | .invalid _ _ => 8
  boolNat x.cur.isSome + st + x.curSize * 2 ^ 8 + x.shadow.size * 2 ^ 10 + reason * 2 ^ 12 +
    c.freeSlots budget * 2 ^ 16

/-- TBL.QUERY (R153). -/
def execTblQuery (com : Com) (ver : Bool) (slot : BitVec 4) (dst : Opnd) : State → Res :=
  onceThreadNoBoot (.tblQuery com ver slot dst) (Use.plain com [] [(dst, false)]) fun g i _ s =>
    let b := s.block g.block
    let c := b.bc (b.thread i).bc
    let x := c.slot slot.toNat
    .done s [((dst, false), BitVec.ofNat 64 (if ver then x.version else tblStatus c b.tslots x))]

/-- TBL.DROP (R154). -/
def execTblDrop (com : Com) (sh : Bool) (slot : BitVec 4) : State → Res :=
  onceThreadNoBoot (.tblDrop com sh slot) (Use.plain com [] []) fun g i _ s =>
    let j := (s.thread g.block i).bc
    .done ((s.dropShadow g.block j slot.toNat).modBc g.block j fun c => c.setSlot slot.toNat
      { c.slot slot.toNat with cur := if sh then (c.slot slot.toNat).cur else none }) []

end Sys2Proof.Machine
end

