-- ==== Sys2Proof/Machine/Async.lean ====
section
/-! DEFINITION. The copy engine, region entries, copy schedules, barrier instructions and timeline instructions (R300 to
R331). -/

namespace Sys2Proof.Machine

/-! ### What a copy moves (R302, R307 to R309) -/

/-- The bytes of a tensor's box (R308). -/
def boxBytes (x : Nat) : Nat := tRows x * tRowUnits x * unitBytes (tTy x)

/-- The counted bytes of an operation. -/
def OpKind.bytes : OpKind → Nat
  | .copy _ _ _ _ n => n
  | .tensor rec _ _ _ _ => boxBytes (recNat rec)
  | .gather _ _ _ _ _ rowb nrow => rowb * nrow
  | _ => 0

/-- The bytes of one unit. -/
def OpKind.unit : OpKind → Nat
  | .tensor rec _ _ _ _ => unitBytes (tTy (recNat rec))
  | _ => 4

/-- A unit's place in a space. -/
def copyPlace (b : Block) (j : Nat) (sp : CopySpace) (a : Nat) : CAddr :=
  match sp with
  | .g | .k => .glob a
  | .s => .loc j a
  | .c => .loc (a / b.scratch) (a % b.scratch)

/-- Read and write `n` bytes at an address of a space; scratch is reached by at most 4 bytes at a time. -/
def spaceRead (s : State) (k j : Nat) (op : EngineOp) (sp : CopySpace) (a n : Nat) : Except Stop (Nat × State) :=
  let b := s.block k
  if n = 8 && (sp == .s || sp == .c) then
    match engRead s k j op (copyPlace b j sp a) 4 with
    | .error e => .error e
    | .ok (lo, s) => (engRead s k j op (copyPlace b j sp (a + 4)) 4).map fun r => (lo + 2 ^ 32 * r.1, r.2)
  else engRead s k j op (copyPlace b j sp a) n

def spaceWrite (s : State) (k j : Nat) (op : EngineOp) (sp : CopySpace) (a v n : Nat) :
    Except Stop (List WCell × State) :=
  let b := s.block k
  if n = 8 && (sp == .s || sp == .c) then
    match engWrite s k j op (copyPlace b j sp a) (bytesOf v 4) with
    | .error e => .error e
    | .ok (l, s) =>
      (engWrite s k j op (copyPlace b j sp (a + 4)) (bytesOf (v / 2 ^ 32) 4)).map fun r => (l ++ r.1, r.2)
  else engWrite s k j op (copyPlace b j sp a) (bytesOf v n)

/-- The elements of the unit at byte `u` of a box that lie in the tensor, and the unit's address there. -/
def tensorAt (x : Nat) (coord : List Int) (u : Nat) : Nat × Nat :=
  let ty := tTy x
  let k := u / unitBytes ty
  let row := tRow x (k / tRowUnits x) coord
  let c0 := coord.getD 0 0 + ((k % tRowUnits x * unitElems ty : Nat) : Int)
  (tInside x c0 row, tAddr x c0 row)

/-- The unit at byte `u` of a COPYT: without .st, into scratch with zero bits outside the tensor; under .st, into the
tensor alone (R308). Reading an invalid ternary byte sets no flag of the record. DESIGN CHOICE, log 87. -/
def tensorUnit (s : State) (k j : Nat) (op : EngineOp) (x : Nat) (st clus : Bool) (coord : List Int) (off u : Nat) :
    Except Stop (List WCell × State) :=
  let ty := tTy x
  let n := unitBytes ty
  let sp : CopySpace := if clus then .c else .s
  let m := (tensorAt x coord u).1
  let ga := (tensorAt x coord u).2
  if st then
    if m = 0 then .ok ([], s)
    else
      match (if m = unitElems ty ∨ ty = .t3 then .ok (0, s) else spaceRead s k j op .g ga n) with
      | .error e => .error e
      | .ok (old, s) =>
        match spaceRead s k j op sp (off + u) n with
        | .error e => .error e
        | .ok (v, s) => spaceWrite s k j op .g ga (mixElems ty m v old) n
  else
    match (if m = 0 then .ok (0, s) else spaceRead s k j op .g ga n) with
    | .error e => .error e
    | .ok (v, s) => spaceWrite s k j op sp (off + u) (keepElems ty m v) n

/-- The unit at byte `u` of a COPYG: its row's index is read again for the row (R309). -/
def gatherUnit (s : State) (k j : Nat) (op : EngineOp) (dsp ssp : CopySpace) (base idx dst rowb u : Nat) :
    Except Stop (List WCell × State) :=
  match spaceRead s k j op .s (idx + 4 * (u / rowb)) 4 with
  | .error e => .error e
  | .ok (i, s) =>
    match spaceRead s k j op ssp ((base + i * rowb + u % rowb) % 2 ^ 64) 4 with
    | .error e => .error e
    | .ok (v, s) => spaceWrite s k j op dsp (dst + u) v 4

/-- The unit at byte `u` of a copy. -/
def copyUnit (k j : Nat) (op : EngineOp) (u : Nat) (s : State) : Except Stop (List WCell × State) :=
  match op.kind with
  | .copy dsp ssp dst src _ =>
    match spaceRead s k j op ssp (src + u) 4 with
    | .error e => .error e
    | .ok (v, s) => spaceWrite s k j op dsp (dst + u) v 4
  | .tensor rec st clus coord off => tensorUnit s k j op (recNat rec) st clus coord off u
  | .gather dsp ssp base idx dst rowb _ => gatherUnit s k j op dsp ssp base idx dst rowb u
  | _ => .ok ([], s)

/-- Units from byte `u` on: the state, the cells to write, the byte reached, and what stopped the run there. -/
def runUnits (k j : Nat) (op : EngineOp) : Nat → Nat → List WCell → State → State × List WCell × Nat × Option Stop
  | 0, u, cs, s => (s, cs, u, none)
  | n + 1, u, cs, s =>
    match copyUnit k j op u s with
    | .ok (c, s) =>
      runUnits k j op n (u + op.kind.unit) (cs ++ c) (s.taken ((s.block k).bc j).core (64 + op.tl))
    | .error e => (s, cs, u, some e)

/-- The bytes that the next group of destination writes takes in (R300): up to the next multiple of 256 of the destination,
or of the scratch offset, and a row of a gather. DESIGN CHOICE, log 36. -/
def EngineOp.groupBytes (op : EngineOp) : Nat :=
  let rest := op.kind.bytes - op.done
  let upTo (a : Nat) : Nat := max op.kind.unit (min rest (256 - (a + op.done) % 256) / op.kind.unit * op.kind.unit)
  match op.kind with
  | .copy _ _ off _ _ | .tensor _ _ _ _ off => upTo off
  | .gather _ _ _ _ _ rowb _ => rowb - op.done % rowb
  | _ => rest

/-- A copy that stands at byte `u` still writes into the 64 bytes around an address (R302). -/
def EngineOp.returns (op : EngineOp) (u va : Nat) : Bool :=
  decide (u < op.kind.bytes) &&
  match op.kind with
  | .copy .g _ dst _ _ => va / 64 == (dst + u) / 64
  | .tensor rec true _ coord _ =>
    let x := recNat rec
    (List.range ((op.kind.bytes - u) / op.kind.unit)).any fun i =>
      let t := tensorAt x coord (u + i * op.kind.unit)
      t.1 != 0 && t.2 / 64 == va / 64
  | .copy _ _ off _ _ | .gather _ _ _ _ off _ _ | .tensor _ _ _ _ off => va / 64 % 64 == (off + u) / 64 % 64
  | _ => false

/-- The cells that an operation has gathered, and cells as it keeps them. -/
def EngineOp.cells (op : EngineOp) (s : State) (k j : Nat) : List WCell :=
  op.held.map fun c => ⟨c.1, c.2.2, c.2.1, op.actor s k j, (s.block k).relCount, false⟩
def heldOf (cs : List WCell) : List (Nat × (Nat × Byte)) := cs.map fun c => (c.spa, (c.va, c.byte))

/-- The pages that a tensor operation reaches next are translated ahead (R253). -/
def State.ahead32 (s : State) (k j : Nat) (op : EngineOp) (u : Nat) : State :=
  match op.kind with
  | .tensor rec st _ coord _ =>
    let x := recNat rec
    s.lookAhead k j op (if st then .store else .load) (pagesOf 32
      (((List.range ((op.kind.bytes - u) / op.kind.unit)).map fun i => tensorAt x coord (u + i * op.kind.unit)).filterMap
        fun t => if t.1 = 0 ∨ 2 ^ 52 ≤ t.2 then none else some t.2) [])
  | _ => s

/-! ### The course of a copy (R299, R300, R303, R310) -/

/-- The translations that were made for an operation are held no longer (R253). -/
def State.forget (s : State) (k j : Nat) (op : EngineOp) : State :=
  match op.via k with
  | .engine n => s.modCore ((s.block k).bc j).core fun c => { c with ahead := Kv.erase n c.ahead }
  | .core => s

/-- Everything that the cancelling of an operation does: R299, and where the operation stood (R312, R213, R150). -/
def State.cancelHead (s : State) (k j : Nat) (op : EngineOp) (e : Exc) : State :=
  if op.tl = 9 ∧ op.dropped then ((s.modBc k j (·.dropOp 9 op.num)).completeNum k j 9).endCheck k
  else
  let core := ((s.block k).bc j).core
  let s := if e.cls = .poison then s.markRead e.aux else s
  let s := s.cancelOp k j op (op.kind.bytes - op.done + op.owed) e
  let s := (s.taken core (64 + op.tl)).forget k j op
  let s := match op.kind with
    | .tblLoad slot => s.modBc k j fun c => c.setSlot slot { c.slot slot with shadow := .empty }
    | kind => s.modBc k j (·.reshape kind)
  let s := if op.tl = 8 then s.modCore core fun c => { c with mqueue := c.mqueue.filter fun q => q != (k, op.num) } else s
  if op.tl = 15 then
    let s := s.modBc k j fun c => { c with regions := [] }
    s.endThreads k (((s.block k).threads.filter fun t => t.2.bc == j).map (·.1))
  else s.endCheck k

/-- An operation on its way, in place of what it was. -/
def State.putOp (s : State) (k j : Nat) (op : EngineOp) : State := s.modBc k j (·.modOp op.tl op.num fun _ => op)

/-- Perform `n` further bytes of a copy and write the granules that it has finished (R302). The result says what stopped
it. -/
def State.copyBytes (s : State) (k j : Nat) (op : EngineOp) (n : Nat) : State × EngineOp × Option Stop :=
  let r := runUnits k j op (min n (op.kind.bytes - op.done) / op.kind.unit) op.done [] (s.ahead32 k j op op.done)
  let u := r.2.2.1
  let cells := op.cells s k j ++ r.2.1
  let op' := { op with
    done := u
    owed := op.owed + (u - op.done)
    held := heldOf (cells.filter fun c => op.returns u c.va) }
  ((r.1.writeCells (cells.filter fun c => !op.returns u c.va)).putOp k j op', op', r.2.2.2)

/-- The barrier of an operation in a stash page is brought to the state that a change of it needs (R239, R318). -/
def State.barReach (s : State) (k j : Nat) (op : EngineOp) : Except Stop State :=
  match op.bidx with
  | none => .ok s
  | some bi => (scratchAt s (op.actor s k j) k j (16 * bi) op.priv true).map fun r => r.2

/-- What a copy has delivered is counted once its writes are performed: none is gathered, none is without its
acknowledgement (R301, R310). False where its barrier no longer validates. -/
def State.countOwed (s : State) (k j : Nat) (op : EngineOp) : Except Stop (State × EngineOp × Bool) :=
  let core := ((s.block k).bc j).core
  if op.owed = 0 ∨ !op.held.isEmpty ∨ s.engPosting core op.tl then .ok (s, op, true)
  else
    (s.barReach k j op).map fun s =>
      let r := s.countBytes k j op op.owed
      (r.1.putOp k j { op with owed := 0 }, { op with owed := 0 }, r.2)

/-- A copy has all its bytes, or goes on, or stops. -/
def State.copyNext (s : State) (k j : Nat) (op : EngineOp) (n : Nat) (done : State → State) : Res :=
  let r := s.copyBytes k j op n
  match r.1.countOwed k j r.2.1 with
  | .error e => r.1.stopOp k j r.2.1 e
  | .ok (s, op, false) => .next (s.cancelHead k j op (Exc.of .barState))
  | .ok (s, op, true) =>
    match r.2.2 with
    | some e => s.stopOp k j op e
    | none => .next (if op.kind.bytes ≤ op.done ∧ op.owed = 0 then done s else s)

/-- COPY_WRITE_GROUP (R300, R310): the next group of the operation at the head of a channel. -/
def execCopyWriteGroup (core tag ch : Nat) (s : State) : Res :=
  match s.blockOn core tag with
  | none => .next s
  | some (b, j) =>
    match (b.bc j).headOp ch with
    | none => .next s
    | some op =>
      if 8 ≤ ch ∨ op.stat ≠ .queued ∨ b.phase = .saved then .next s
      else s.copyNext tag j op op.groupBytes fun s => s.later [.engineOpComplete core tag ch]

/-- ENGINE_OP_COMPLETE (R298): the head operation of a channel has performed every byte. -/
def execEngineOpComplete (core tag tl : Nat) (s : State) : Res :=
  match s.blockOn core tag with
  | none => .next s
  | some (b, j) =>
    match (b.bc j).headOp tl with
    | none => .next s
    | some op =>
      if 8 ≤ tl ∨ op.stat ≠ .queued ∨ op.done < op.kind.bytes ∨ op.owed ≠ 0 then .next s
      else .next ((((s.modBc tag j (·.dropOp tl op.num)).forget tag j op).completeNum tag j tl).endCheck tag)

/-- The lines of a stash entry are filled from byte `u` on (R312). -/
def fillLines (s : State) (k j : Nat) (op : EngineOp) (off : Nat) : Nat → Nat → State × Nat × Option Stop
  | 0, u => (s, u, none)
  | n + 1, u =>
    match scratchAt s (op.actor s k j) k j (off + u) op.priv false with
    | .ok (_, s) => fillLines s k j op off n (u + 64)
    | .error e => (s, u, some e)

/-- What the operation at the head of a timeline meets next. -/
def State.nextStop (s : State) (k j : Nat) (op : EngineOp) : Option Stop :=
  match op.kind with
  | .tld td rec _ coord =>
    let x := recNat rec
    (tldRun k j op td x coord (tldUnits x - op.done) op.done s).2.2
  | .tst td rec _ coord rnd sat tc =>
    let x := recNat rec
    (tstRun k j op td x coord rnd sat tc (tRows x * tRowUnits x - op.done) op.done [] s).2.2.2
  | .copy _ _ off _ n =>
    match op.tl, ((s.block k).bc j).regions with
    | 15, e :: _ =>
      if e.kind = 2 then (fillLines s k j op off ((n - op.done) / 64) op.done).2.2
      else (runUnits k j op ((n - op.done) / 4) op.done [] s).2.2.2
    | _, _ => (runUnits k j op (op.groupBytes / 4) op.done [] s).2.2.2
  | kind => if kind.isCopy then (runUnits k j op (op.groupBytes / kind.unit) op.done [] s).2.2.2 else none

/-- ENGINE_OP_PARK (R303, R312): the running operation at the head of a timeline meets a page fault. -/
def execEngineOpPark (core tag tl : Nat) (s : State) : Res :=
  match s.blockOn core tag with
  | none => .next s
  | some (b, j) =>
    match (b.bc j).headOp tl with
    | none => .next s
    | some op =>
      if op.stat ≠ .queued ∨ b.phase = .saved then .next s
      else
        match s.nextStop tag j op with
        | some (.exc e) => .next (if e.cls = .pageFault then s.parkOp tag j op e else s)
        | _ => .next s

/-- ENGINE_OP_CANCEL (R299): the head operation of a timeline has met a fault that cancels it. -/
def execEngineOpCancel (core tag tl : Nat) (s : State) : Res :=
  match s.blockOn core tag with
  | none => .next s
  | some (b, j) =>
    match (b.bc j).headOp tl with
    | none => .next s
    | some op =>
      match op.stat with
      | .cancelled e => .next (s.cancelHead tag j op e)
      | _ => .next s

/-! ### Region entries (R311, R312) -/

/-- The head region entry of a core has acted. -/
def State.regionDone (s : State) (k j : Nat) (e : RegionEntry) : State :=
  s.modBc k j fun c => { c.dropOp 15 e.idx with regions := c.regions.drop 1 }

/-- A region entry acts, from where it stands. -/
def State.runRegion (s : State) (k j : Nat) (e : RegionEntry) (op : EngineOp) : Res :=
  if e.kind = 0 then s.copyNext k j op (e.bytes - op.done) fun s => s.regionDone k j e
  else if e.kind = 1 then .next (s.regionDone k j e)
  else
    match fillLines s k j op e.soff ((e.bytes - op.done) / 64) op.done with
    | (s, _, none) => .next ((s.taken ((s.block k).bc j).core 79).regionDone k j e)
    | (s, u, some x) => (s.modBc k j (·.modOp 15 e.idx fun o => { o with done := u })).stopOp k j { op with done := u } x

/-- REGION_ENTRY_RUN (R312): the next region entry of a block on a core. -/
def execRegionEntryRun (core tag : Nat) (s : State) : Res :=
  match s.blockOn core tag with
  | none => .next s
  | some (b, j) =>
    match (b.bc j).regions with
    | [] => .next s
    | e :: _ =>
      if b.phase ≠ .resident then .next s
      else
        match (b.bc j).headOp 15 with
        | some op => if op.stat = .queued then s.runRegion tag j e op else .next s
        | none =>
          let op := EngineOp.start 15 e.idx (.copy .s .g e.soff e.va e.bytes) none 0 b.priv
          let s := s.modBc tag j fun c => { c with ops := c.ops ++ [op] }
          let s := if e.kind = 0 then s else s.bindPages tag j e.soff e.va (List.range (e.bytes / 4096))
          s.runRegion tag j e op

/-! ### Issue (R303, R306) -/

/-- The barrier of a copy fails validation, or is poisoned. DEDUCED, log 37. -/
def barrierExc (s : State) (k j : Nat) (bidx : Option Nat) : Option Exc :=
  match bidx with
  | none => none
  | some bi =>
    let b := s.barGet k j (16 * bi)
    if !b.valid (s.block k).tag then some (Exc.of .barState)
    else if b.poisoned then some (asyncFail 0 0) else none

/-- A copy-schedule entry starts (R314). DESIGN CHOICE, log 38. -/
def State.startEntry (s : State) (k j pc : Nat) (e : SchedEntry) : State :=
  let bidx := if e.bidx = 0xFFF then none else some e.bidx
  let r := s.startOp k j e.ch (.copy e.dsp e.ssp e.dst e.src e.bytes) bidx pc (s.block k).priv
  match barrierExc r.2 k j bidx with
  | none => r.2
  | some x =>
    r.2.cancelHead k j (EngineOp.start e.ch r.1 (.copy e.dsp e.ssp e.dst e.src e.bytes) bidx pc (s.block k).priv) x

/-- The entries whose TRIG the stage counter has reached start, in entry order. -/
def State.startSched (s : State) (k j pc : Nat) : State :=
  let c := (s.block k).bc j
  let goes (e : SchedEntry) : Bool := decide (e.trig ≤ c.stage)
  let s := s.modBc k j fun c => { c with sched := c.sched.filter fun e => !goes e }
  (c.sched.filter goes).foldl (fun s e => s.startEntry k j pc e) s

/-- A block's first instruction issues: the entries of TRIG 0 start on each of its cores (R314). -/
def State.startBlock (s : State) (k : Nat) : State :=
  let b := s.block k
  if b.started then s
  else
    let s := s.modBlock k fun b => { b with started := true }
    b.cores.foldl (fun s c => s.startSched k c.1 0) s

/-- The barrier index of XCTL. -/
def bidxOf (x : BitVec 12) : Option Nat := if x = 0xFFF then none else some x.toNat

/-- A range of a space that a copy names (R306). -/
def copyRange (b : Block) (sp : CopySpace) (a n : Nat) : Bool :=
  match sp with
  | .g | .k => decide (a + n ≤ 2 ^ 52) && !touchesWindow a n
  | .s => decide (a + n ≤ b.scratch)
  | .c => decide (a + n ≤ b.cores.length * b.scratch)

/-- The barrier object lies in local scratch. -/
def bidxRange (b : Block) (bidx : Option Nat) : Bool :=
  match bidx with
  | none => true
  | some bi => decide (16 * bi + 16 ≤ b.scratch)

/-- The active threads release at package scope at an issue (R276, R288): the earlier writes of the block are performed
first (R236). -/
def State.issueRelease (s : State) (g : Grp) (i : Nat) (com : Com) : Except Stop State :=
  (s.releaseWait (g.actor s i) i false).map fun s => s.releases g.block (g.active com s).length

/-- A copy that has passed its other checks starts on its channel. -/
def startCopy (g : Grp) (i ch : Nat) (com : Com) (rel : Bool) (kind : OpKind) (bidx : Option Nat) (dst : Opnd) (s : State) :
    Once :=
  let j := (s.thread g.block i).bc
  match barrierExc s g.block j bidx with
  | some x => .stop x
  | none =>
    match if rel then s.issueRelease g i com else .ok s with
    | .error e => .abort e
    | .ok s =>
      let r := s.startOp g.block j ch kind bidx g.pc (g.priv s)
      .done r.2 [((dst, false), BitVec.ofNat 64 r.1)]

/-- A copy space whose address is a register pair. -/
def copyWide (sp : CopySpace) : Bool := sp == .g || sp == .k

/-- COPY (R306, R307). -/
def execCopy (com : Com) (dsp ssp : CopySpace) (rel : Bool) (ch : BitVec 3) (bidx : BitVec 12) (bytes : Word)
    (dst a b : Opnd) : State → Res :=
  onceThreadNoBoot (.copy com dsp ssp rel ch bidx bytes dst a b)
    (Use.plain com [(a, copyWide dsp), (b, copyWide ssp)] [(dst, false)]) fun g i l s =>
      let da := (l.getD 0 0).toNat
      let sa := (l.getD 1 0).toNat
      let n := bytes.toNat
      let blk := s.block g.block
      let bi := bidxOf bidx
      if !copyRange blk dsp da n || !copyRange blk ssp sa n || !bidxRange blk bi then .stop (Exc.of .addrRange)
      else if da % 4 ≠ 0 ∨ sa % 4 ≠ 0 then .stop (Exc.of .align)
      else startCopy g i ch.toNat com rel (.copy dsp ssp da sa n) bi dst s

/-- COPYT (R306, R308). -/
def execCopyt (com : Com) (st clus rel : Bool) (ch : BitVec 3) (bidx : BitVec 12) (imm : Word) (dst a b : Opnd) :
    State → Res :=
  onceThreadNoBoot (.copyt com st clus rel ch bidx imm dst a b)
    (Use.plain com ((a, true) :: groupOps 6 b) [(dst, false)]) fun g i l s =>
      let va := (l.getD 0 0).toNat
      let cs := coordsOf (l.drop 1)
      let off := ((l.getD 6 0).toNat + imm.toNat) % 2 ^ 32
      let blk := s.block g.block
      let bi := bidxOf bidx
      if !copyRange blk .g va 64 || !bidxRange blk bi then .stop (Exc.of .addrRange)
      else
        match readRecord s g i va with
        | .error (.exc e) => .stop (if off % 4 ≠ 0 then Exc.of .align else e)
        | .error e => .abort e
        | .ok (x, s) =>
          let n := boxBytes x
          let bad := tBad x (cs.getD 0 0) || decide (0x1000000 < n) || n % 4 != 0
          if !bad && !copyRange blk (if clus then .c else .s) off n then .stop (Exc.of .addrRange)
          else if off % 4 ≠ 0 then .stop (Exc.of .align)
          else if bad then .stop ⟨.tensorFmt, 0, 0, va, 0⟩
          else startCopy g i ch.toNat com rel (.tensor (recWords x) st clus cs off) bi dst s

/-- COPYG (R306, R309). -/
def execCopyg (com : Com) (dsp ssp : CopySpace) (rel : Bool) (ch : BitVec 3) (bidx : BitVec 12) (rowb nrow : BitVec 16)
    (dst a b : Opnd) : State → Res :=
  onceThreadNoBoot (.copyg com dsp ssp rel ch bidx rowb nrow dst a b)
    (Use.plain com ((a, true) :: groupOps 2 b) [(dst, false)]) fun g i l s =>
      let base := (l.getD 0 0).toNat
      let idx := (l.getD 1 0).toNat
      let off := (l.getD 2 0).toNat
      let blk := s.block g.block
      let bi := bidxOf bidx
      if !copyRange blk .s idx (4 * nrow.toNat) || !copyRange blk dsp off (rowb.toNat * nrow.toNat) || !bidxRange blk bi then
        .stop (Exc.of .addrRange)
      else if base % 4 ≠ 0 ∨ idx % 4 ≠ 0 ∨ off % 4 ≠ 0 then .stop (Exc.of .align)
      else startCopy g i ch.toNat com rel (.gather dsp ssp base idx off rowb.toNat nrow.toNat) bi dst s

/-- STAGE (R314). -/
def execStage (com : Com) (a : Opnd) (imm : Word) : State → Res :=
  onceThreadNoBoot (.stage com a imm) (Use.plain com [(a, false)] []) fun g i l s =>
    let v := ((l.getD 0 0).toNat + imm.toNat) % 2 ^ 32
    let j := (s.thread g.block i).bc
    let c := (s.block g.block).bc j
    let n := max c.stage v
    match if c.sched.any (fun e => decide (e.trig ≤ n)) then s.issueRelease g i com else .ok s with
    | .error e => .abort e
    | .ok s => .done ((s.modBc g.block j fun c => { c with stage := n }).startSched g.block j g.pc) []

/-! ### Barrier instructions (R321 to R325) -/

/-- The object that a barrier instruction of a thread names: its block core and offset. -/
def barPlace (g : Grp) (i : Nat) (m : MemOp) (l : List DWord) (s : State) : Except Stop (Nat × Nat × State) :=
  match resolve g i ⟨false, false⟩ m.space .store (eaOf m l) 16 s with
  | .error e => .error e
  | .ok (.scratch j off, s) =>
    (scratchAt s (g.actor s i) g.block j off (g.priv s) true).map fun r => (j, off, r.2)
  | .ok (_, _) => .error (rangeExc (eaOf m l))

/-- The object that an instruction validates: BAR_STATE where it fails, ASYNC_FAIL where it is poisoned (R317). -/
def barObject (g : Grp) (i : Nat) (m : MemOp) (l : List DWord) (s : State) : Except Stop (Nat × Nat × Bar × State) :=
  match barPlace g i m l s with
  | .error e => .error e
  | .ok (j, off, s) =>
    let b := s.barGet g.block j off
    if !b.valid (s.block g.block).tag then .error (.exc (Exc.of .barState))
    else if b.poisoned then .error (.exc (asyncFail 0 0))
    else .ok (j, off, b, s)

/-- A leaf is registered no longer (R319). -/
def State.unregister (s : State) (k j off : Nat) : State :=
  s.modBc k j fun c => { c with leaves := c.leaves.filter fun l => l.1 != off }

/-- The leaf registrations that the barrier unit of a core holds, for roots on that core (R319). -/
def State.registered (s : State) (core : Nat) : Nat :=
  (s.blocks.map fun b => (b.2.cores.map fun c => (c.2.leaves.filter fun l =>
    (b.2.bc (l.2 / b.2.scratch)).core == core).length).sum).sum

/-- BAR.INIT (R322). -/
def execBarInit (com : Com) (leaf root : Bool) (src : Opnd) (m : MemOp) : State → Res :=
  onceThreadNoBoot (.barInit com leaf root src m) (Use.plain com (memSrcs m ++ [(src, false)]) []) fun g i l s =>
    match barPlace g i m l s with
    | .error (.exc e) => .stop e
    | .error e => .abort e
    | .ok (j, off, s) =>
      let v := (l.getD 2 0).toNat
      let cnt := bitsOf v 12 0
      let par := bitsOf v 31 16
      let b := s.block g.block
      let s := s.unregister g.block j off
      let rootCore := (b.bc (16 * par / b.scratch)).core
      if cnt = 0 ∨ bitsOf v 15 13 ≠ 0 ∨
          leaf && (decide (b.cores.length * b.scratch < 16 * par + 16) || decide (32 ≤ s.registered rootCore)) then
        .stop (Exc.of .barState)
      else
        let o : Bar := ⟨b.tag, false, root, leaf, if leaf then par else 0xFFFF, 0, cnt, cnt, 0, 0, 0⟩
        let s := if leaf then s.modBc g.block j fun c => { c with leaves := c.leaves ++ [(off, 16 * par)] } else s
        .done ((s.barPut g.block j off o).wakeBar g.block j off o) []

/-- One arrival at an object (R323): the phase it stood in, or none where it poisons the object. -/
def State.arriveAt (s : State) (k j off : Nat) (b : Bar) : State × Bool :=
  if b.arr = 0 then (s.poisonBar k j off, false)
  else ((s.barPut k j off { b with arr := b.arr - 1 }).settle k j off, true)

/-- One arrival for each thread in turn. A thread whose arrival poisons its object takes ASYNC_FAIL and writes nothing. -/
def arriveThreads (g : Grp) (instr : Instr) (dst : Opnd) (m : MemOp) :
    Bool → List (Nat × List DWord) → State → Except Stop State
  | _, [], s => .ok s
  | first, (i, l) :: t, s =>
    match barObject g i m l s with
    | .error (.exc e) => arriveThreads g instr dst m first t (faultThread s g i (some instr) l e)
    | .error e => .error e
    | .ok (j, off, b, s) =>
      let r := s.arriveAt g.block j off b
      if r.2 then
        arriveThreads g instr dst m false t (writeDst r.1 g.block i first (dst, false) (BitVec.ofNat 64 b.phase))
      else arriveThreads g instr dst m first t (faultThread r.1 g i (some instr) l (asyncFail 0 0))

/-- BAR.ARRIVE (R323). -/
def execBarArrive (com : Com) (u : Bool) (dst : Opnd) (m : MemOp) (s : State) : Res :=
  let i0 : Instr := .barArrive com u dst m
  let use := Use.plain com (memSrcs m) [(dst, false)]
  if u then
    onceThreadNoBoot i0 use (fun g i l s =>
      match barObject g i m l s with
      | .error (.exc e) => .stop e
      | .error e => .abort e
      | .ok (j, off, b, s) =>
        let r := s.arriveAt g.block j off b
        if r.2 then .done r.1 [((dst, false), BitVec.ofNat 64 b.phase)] else .stopIn r.1 (asyncFail 0 0)) s
  else
    match s.grp with
    | none => .next s
    | some g =>
      barBoot i0 s g (
        let r := prepare (closeChain s g) g i0 use
        conclude s g (arriveThreads g i0 dst m true r.2 r.1))

/-- BAR.EXPECT (R324). -/
def execBarExpect (com : Com) (arr : Bool) (dst cnt : Opnd) (m : MemOp) : State → Res :=
  onceThreadNoBoot (.barExpect com arr dst cnt m) (Use.plain com (memSrcs m ++ [(cnt, false)]) [(dst, false)])
    fun g i l s =>
      match barObject g i m l s with
      | .error (.exc e) => .stop e
      | .error e => .abort e
      | .ok (j, off, b, s) =>
        let n := (l.getD 2 0).toNat
        if 0x7FFFFFFF < n then .stop (Exc.of .barState)
        else if 0x7FFFFFFF < b.bytes + n then .stopIn (s.poisonBar g.block j off) (asyncFail 0 0)
        else if arr ∧ b.arr = 0 then
          .stopIn ((s.barPut g.block j off { b with bytes := b.bytes + n }).poisonBar g.block j off) (asyncFail 0 0)
        else
          let b' := { b with
            bytes := b.bytes + n
            arr := if arr then b.arr - 1 else b.arr }
          .done ((s.barPut g.block j off b').settle g.block j off) [((dst, false), BitVec.ofNat 64 b.phase)]

/-- A thread is held at the instruction that issues. -/
def holdOne (g : Grp) (i : Nat) (h : Hold) (s : State) : State :=
  s.modThread g.block i fun t =>
    { t with
      stat := .held h
      since := s.tick }

/-- BAR.WAIT (R325). -/
def execBarWait (com : Com) (src : Opnd) (m : MemOp) : State → Res :=
  let i0 : Instr := .barWait com src m
  eachThreadNoBoot i0 (Use.plain com (memSrcs m ++ [(src, false)]) []) fun g i l s =>
    match barObject g i m l s with
    | .error e => .error e
    | .ok (j, off, b, s) =>
      let p := (l.getD 2 0).toNat % 16
      .ok (if b.phase ≠ p then s else holdOne g i (.bar j off p ⟨g.pc, some i0, l⟩) s, [])

/-- BAR.TEST (R325). -/
def execBarTest (com : Com) (dst : Opnd) (m : MemOp) : State → Res :=
  eachThreadNoBoot (.barTest com dst m) (Use.plain com (memSrcs m ++ [(dst, false)]) [(dst, false)]) fun g i l s =>
    match barObject g i m l s with
    | .error e => .error e
    | .ok (_, _, b, s) =>
      .ok (s, [((dst, false), BitVec.ofNat 64 (boolNat (b.phase != (l.getD 2 0).toNat % 16)))])

/-! ### Timeline instructions (R326 to R330) -/

/-- A thread waits for counts to reach values: it goes on, takes ASYNC_FAIL, or is held. -/
def awaitTl (g : Grp) (i : Nat) (i0 : Instr) (l : List DWord) (w : List (Nat × Nat)) (s : State) : Effect :=
  let b := s.block g.block
  let j := (b.thread i).bc
  if b.waitOver j w then
    match b.waitFail j w with
    | some f => .error (.exc (asyncFail f.1 f.2))
    | none => .ok (s, [])
  else .ok (holdOne g i (.tl w ⟨g.pc, some i0, l⟩) s, [])

/-- TLWAIT (R327). -/
def execTlwait (com : Com) (tl : BitVec 4) (a : Opnd) (imm : Word) : State → Res :=
  let i0 : Instr := .tlwait com tl a imm
  eachThreadNoBoot i0 (Use.plain com [(a, false)] []) fun g i l s =>
    awaitTl g i i0 l [(tl.toNat, ((l.getD 0 0).toNat + imm.toNat) % 2 ^ 32)] s

/-- TLREAD (R328). -/
def execTlread (com : Com) (form : TlForm) (tl : BitVec 4) (dst : Opnd) : State → Res :=
  onceThreadNoBoot (.tlread com form tl dst) (Use.plain com [] [(dst, false)]) fun g i _ s =>
    let b := s.block g.block
    let j := (b.thread i).bc
    let n := tl.toNat
    let t := (b.bc j).tl n
    match form with
    | .done => .done s [((dst, false), BitVec.ofNat 64 (b.completed j n))]
    | .iss => .done s [((dst, false), BitVec.ofNat 64 t.issued)]
    | .fail => .done (s.modBc g.block j (·.setTl n { t with fail := 0 })) [((dst, false), BitVec.ofNat 64 t.fail)]

/-- TLSIG (R329). -/
def execTlsig (com : Com) (inc : Bool) (tl : BitVec 4) (a : Opnd) (imm : Word) : State → Res :=
  onceThreadNoBoot (.tlsig com inc tl a imm) (Use.plain com [(a, false)] []) fun g _ l s =>
    let c := Kv.get 0 tl.toNat (s.block g.block).soft
    let v := ((l.getD 0 0).toNat + imm.toNat) % 2 ^ 32
    let c' := if inc then (c + 1) % 2 ^ 32 else if reached c v then c else v
    .done ((s.modBlock g.block fun b => { b with soft := Kv.set 0 tl.toNat c' b.soft }).wakeTl g.block) []

/-- WAITM (R330): each timeline with the count it had issued. -/
def execWaitm (com : Com) (mask : BitVec 12) : State → Res :=
  let i0 : Instr := .waitm com mask
  eachThreadNoBoot i0 (Use.plain com [] []) fun g i l s =>
    let b := s.block g.block
    let c := b.bc (b.thread i).bc
    awaitTl g i i0 l (((List.range 12).filter fun n => mask.toNat.testBit n).map fun n => (n, (c.tl n).issued)) s

end Sys2Proof.Machine
end

