-- ==== Sys2Proof/Machine/Launch.lean ====
section
/-! DEFINITION. Launch records, region control blocks, graphs, and the instructions that queue work (R172 to R176, R184
to R188, R311, R313, R315). -/

namespace Sys2Proof.Machine

/-! ### Reading records (R184, R185) -/

/-- Read `n` bytes, at most 64 and within one line, of a global address for a thread. -/
def readGlobal (s : State) (g : Grp) (i va n : Nat) : Except Stop (Nat × State) :=
  if 2 ^ 52 ≤ va ∨ va / 2 ^ 33 * 2 ^ 33 = scratchWindow then .error (rangeExc va)
  else
    match s.translate g.core ((g.part s).getD 0) (g.priv s) .load va with
    | .error e => .error e
    | .ok (x, s) => loadPlace g i (.phys x.spa x.mt) va n Order.plain s

/-- Read `n` pieces of 32 bytes as one number. -/
def readPieces (s : State) (g : Grp) (i va : Nat) : Nat → Except Stop (Nat × State)
  | 0 => .ok (0, s)
  | n + 1 =>
    match readPieces s g i va n with
    | .error e => .error e
    | .ok (v, s) => (readGlobal s g i (va + 32 * n) 32).map fun r => (v + r.1 * 2 ^ (256 * n), r.2)

/-! ### The launch record (R175, R176) -/

/-- The fields of a record. -/
def LaunchRec.ofNat (x : Nat) : LaunchRec where
  code := bitsOf x 63 0
  argp := bitsOf x 127 64
  grid := (bitsOf x 159 128, bitsOf x 175 160, bitsOf x 191 176)
  shape := (bitsOf x 207 192, bitsOf x 223 208, bitsOf x 239 224)
  nreg8 := bitsOf x 245 240
  tslots := bitsOf x 252 248
  coop := bitOf x 255
  scratch := bitsOf x 287 256
  ntile := bitsOf x 292 288
  deps := ((List.range 4).map fun k => (x / 2 ^ (512 + 128 * k) % 2 ^ 64, x / 2 ^ (576 + 128 * k) % 2 ^ 64)).filter
    fun d => d.1 != 0
  donea := bitsOf x 1087 1024
  donev := bitsOf x 1151 1088

/-- Blocks of the grid, and threads of a block. -/
def LaunchRec.total (r : LaunchRec) : Nat := r.grid.1 * r.grid.2.1 * r.grid.2.2
def LaunchRec.threads (r : LaunchRec) : Nat := r.shape.1 * r.shape.2.1 * r.shape.2.2

/-- Squads of a block, squads that a core holds, and the cores it occupies (R158, R169). -/
def LaunchRec.squads (r : LaunchRec) : Nat := (r.threads + 31) / 32
def slotsPerLane (nreg8 : Nat) : Nat := min 16 (2048 / (8 * nreg8))
def LaunchRec.cores (r : LaunchRec) : Nat :=
  let q := 2 * slotsPerLane r.nreg8
  (r.squads + q - 1) / q

/-- Whether the 64-bit word `w` of a record holds a failing field (R176). -/
def recordWordBad (x w : Nat) : Bool :=
  let r := LaunchRec.ofNat x
  let pieces := bitsOf x 300 296
  let entries := bitsOf x 310 304
  match w with
  | 0 => decide (2 ^ 52 ≤ r.code) || r.code % 4 != 0
  | 1 => false
  | 2 => r.total == 0 || decide (2 ^ 32 ≤ r.total)
  | 3 => r.threads == 0 || decide (4096 < r.threads) || r.nreg8 == 0 || decide (32 < r.nreg8) || decide (16 < r.tslots) ||
      bitsOf x 247 246 != 0 || bitsOf x 254 253 != 0
  | 4 => r.scratch % 256 != 0 || decide (0x100000 < r.scratch) || decide (16 < r.ntile) || decide (16 < pieces) ||
      decide (64 < entries) || bitsOf x 295 293 != 0 || bitsOf x 303 301 != 0 || bitsOf x 319 311 != 0
  | 5 => pieces != 0 && bitsOf x 383 320 % 32 != 0
  | 6 => entries != 0 && bitsOf x 447 384 % 32 != 0
  | 7 => bitsOf x 511 448 != 0
  | 16 => r.donea % 8 != 0
  | w => decide (18 ≤ w) && x / 2 ^ (64 * w) % 2 ^ 64 != 0

/-- The first failing word. -/
def recordBad (x : Nat) : Option Nat := (List.range 32).find? fun w => recordWordBad x w

/-! ### Region entries and copy-schedule entries (R311 to R315) -/

def RegionEntry.ofNat (idx x : Nat) : RegionEntry := ⟨idx, bitsOf x 129 128, bitsOf x 63 0, bitsOf x 95 64, bitsOf x 127 96⟩

/-- A global range is canonical and clear of the scratch window. -/
def globalRange (va n : Nat) : Bool := decide (va + n ≤ 2 ^ 52) && !touchesWindow va n

/-- A region entry is valid for a block of `k` cores (R312, R315). -/
def regionOk (x scratch k : Nat) : Bool :=
  let e := RegionEntry.ofNat 0 x
  let unit := if e.kind = 0 then 4 else 4096
  x / 2 ^ 133 == 0 && e.kind != 3 && (bitOf x 132 || decide (bitsOf x 131 130 < k)) && e.va % unit == 0 &&
    e.soff % unit == 0 && e.bytes % unit == 0 && (e.kind != 0 || decide (4 ≤ e.bytes)) &&
    decide (e.soff + e.bytes ≤ scratch) && globalRange e.va e.bytes

def SchedEntry.ofNat (idx x : Nat) : SchedEntry where
  idx := idx
  core := bitsOf x 189 188
  trig := bitsOf x 167 160
  ch := bitsOf x 170 168
  bidx := bitsOf x 187 176
  dsp := CopySpace.ofCode (bitsOf x 175 174)
  ssp := CopySpace.ofCode (bitsOf x 173 172)
  bytes := bitsOf x 159 128
  dst := bitsOf x 127 64
  src := bitsOf x 63 0

/-- A copy address of an entry meets the conditions of COPY (R306). -/
def schedRange (sp : CopySpace) (a n scratch k : Nat) : Bool :=
  a % 4 == 0 && (match sp with
    | .g | .k => globalRange a n
    | .s => decide (a + n ≤ scratch)
    | .c => decide (a + n ≤ k * scratch))

/-- A schedule entry is valid (R313, R315). -/
def schedOk (x scratch k : Nat) : Bool :=
  let e := SchedEntry.ofNat 0 x
  x / 2 ^ 190 == 0 && !bitOf x 171 && decide (e.core < k) && e.dsp != .k &&
    (e.bidx == 0xFFF || decide (16 * e.bidx + 16 ≤ scratch)) && e.bytes % 4 == 0 && decide (4 ≤ e.bytes) &&
    decide (e.bytes ≤ 0x1000000) && schedRange e.dsp e.dst e.bytes scratch k && schedRange e.ssp e.src e.bytes scratch k

/-- Entries of 32 bytes as read. -/
def readEntries (s : State) (g : Grp) (i va : Nat) : Nat → Except Stop (List Nat × State)
  | 0 => .ok ([], s)
  | n + 1 =>
    match readEntries s g i va n with
    | .error e => .error e
    | .ok (l, s) => (readGlobal s g i (va + 32 * n) 32).map fun r => (l ++ [r.1], r.2)

/-- A record with its entries: the word that fails it, or what it says. -/
structure Record where
  lrec : LaunchRec
  regions : List (RegionEntry × Option Nat)
  sched : List SchedEntry
  deriving DecidableEq, Repr

/-- The first entry of a list that fails, as its word number (R315). -/
def entriesBad (ok : Nat → Bool) (base : Nat) (l : List Nat) : Option Nat :=
  (l.zipIdx.find? fun x => !ok x.1).map fun x => base + x.2

/-- Read a launch record and its entries, and check them (R176, R185, R315). -/
def readLaunch (s : State) (g : Grp) (i va : Nat) : Except Stop (Except Nat Record × State) :=
  match readPieces s g i va 8 with
  | .error e => .error e
  | .ok (x, s) =>
    match recordBad x with
    | some w => .ok (.error w, s)
    | none =>
      let r := LaunchRec.ofNat x
      match readEntries s g i (bitsOf x 383 320) (bitsOf x 300 296) with
      | .error e => .error e
      | .ok (rs, s) =>
        match readEntries s g i (bitsOf x 447 384) (bitsOf x 310 304) with
        | .error e => .error e
        | .ok (ss, s) =>
          match entriesBad (fun y => regionOk y r.scratch r.cores) 0x40 rs with
          | some w => .ok (.error w, s)
          | none =>
            match entriesBad (fun y => schedOk y r.scratch r.cores) 0x80 ss with
            | some w => .ok (.error w, s)
            | none =>
              .ok (.ok ⟨r,
                rs.zipIdx.map fun y => (RegionEntry.ofNat y.2 y.1, if bitOf y.1 132 then none else some (bitsOf y.1 131 130)),
                ss.zipIdx.map fun y => SchedEntry.ofNat y.2 y.1⟩, s)

/-! ### Nodes (R172 to R174) -/

def Node.ofNat (x : Nat) : Node where
  parent := bitsOf x 63 0
  fdring := bitsOf x 127 64
  cores := bitsOf x 143 128
  tbls := bitsOf x 159 144
  scrk := bitsOf x 191 160
  tilek := bitsOf x 223 192
  bws := bitsOf x 239 224
  prio := bitsOf x 242 240
  fd := bitOf x 243
  en := bitOf x 244
  inh := bitsOf x 251 245
  stall := bitsOf x 287 256

/-- A node and its ancestors as read now; none where the chain is deeper than 8, cyclic or badly addressed (R184). -/
def readChain (s : State) (g : Grp) (i : Nat) : Nat → Nat → List Nat → Except Stop (Option (List (Nat × Node)) × State)
  | 0, _, _ => .ok (none, s)
  | fuel + 1, va, seen =>
    if seen.contains va then .ok (none, s)
    else
      match readPieces s g i va 4 with
      | .error e => .error e
      | .ok (x, s) =>
        let n := Node.ofNat x
        if n.parent = 0 then .ok (some [(va, n)], s)
        else if n.parent % 128 ≠ 0 ∨ 2 ^ 52 ≤ n.parent then .ok (none, s)
        else
          match readChain s g i fuel n.parent (va :: seen) with
          | .error e => .error e
          | .ok (r, s) => .ok (r.map fun l => (va, n) :: l, s)

/-- The nodes read replace what the dispatcher held of them (R174). -/
def State.holdNodes (s : State) (p : Nat) (l : List (Nat × Node)) : State :=
  s.modPart p fun x => { x with nodes := l.foldl (fun m n => Kv.insert n.1 n.2 m) x.nodes }

/-- The effective budgets, priority and stall interval of a node (R173). -/
structure Eff where
  cores : Nat
  tbls : Nat
  scrk : Nat
  tilek : Nat
  prio : Nat
  stall : Nat
  deriving DecidableEq, Repr

/-- The partition's own limits, which a root inherits: guaranteed and borrowed clusters (R173). -/
def State.borrowed (s : State) (p : Nat) : List Nat :=
  (s.parts.map fun x => (x.2.lent.filter fun l => l.dest == p && !l.revoked).map (·.cluster)).flatten
def State.clusterCores (s : State) (c : Nat) : List Nat :=
  ((List.range 4).map fun k => 4 * c + k).filter fun n => !s.absent.noCores.contains n
def State.limits (s : State) (p : Nat) (x : Partition) : Eff :=
  let n := ((x.params.guaranteed ++ s.borrowed p).map fun c => (s.clusterCores c).length).sum
  ⟨n, 16 * n, 1024 * n, 256 * n, 0, 1000⟩

/-- The effective values below `lim` (R172: bit 245 is bit 0 of INH). -/
def Node.eff (n : Node) (lim : Eff) : Eff :=
  let pick (k own up : Nat) : Nat := if n.inh.testBit k then up else own
  ⟨pick 0 n.cores lim.cores, pick 1 n.tbls lim.tbls, pick 2 n.scrk lim.scrk, pick 3 n.tilek lim.tilek,
    pick 5 n.prio lim.prio, pick 6 (if n.stall = 0 then 1000 else n.stall) lim.stall⟩

/-- The nodes from `va` to its root that the dispatcher holds. -/
def Partition.chain (x : Partition) : Nat → Nat → List (Nat × Node)
  | 0, _ => []
  | fuel + 1, va =>
    match Kv.find va x.nodes with
    | none => []
    | some n => (va, n) :: (if n.parent = 0 then [] else x.chain fuel n.parent)

/-- The effective values of each node of a chain, in the same order. -/
def effs (lim : Eff) : List (Nat × Node) → List (Nat × Eff)
  | [] => []
  | n :: t =>
    let up := effs lim t
    (n.1, n.2.eff (match up with
      | x :: _ => x.2
      | [] => lim)) :: up

def State.effsOf (s : State) (p node : Nat) : List (Nat × Eff) :=
  match s.part p with
  | none => []
  | some x => effs (s.limits p x) (x.chain 8 node)

/-- The effective values of a node. -/
def State.effOf (s : State) (p node : Nat) : Eff :=
  match s.effsOf p node with
  | x :: _ => x.2
  | [] => ⟨0, 0, 0, 0, 0, 1000⟩

/-- What a block of a record holds: cores, table slots, scratch bytes, bytes of tile store (R173). -/
def LaunchRec.needs (r : LaunchRec) : Nat × Nat × Nat × Nat :=
  (r.cores, r.cores * r.tslots, r.cores * r.scratch, r.cores * r.ntile * 16384)

/-- Holdings within a budget. -/
def Eff.admits (e : Eff) (n : Nat × Nat × Nat × Nat) : Bool :=
  decide (n.1 ≤ e.cores) && decide (n.2.1 ≤ e.tbls) && decide (n.2.2.1 ≤ 1024 * e.scrk) && decide (n.2.2.2 ≤ 1024 * e.tilek)

/-! ### Queues (R177, R184) -/

/-- The launches that count against a partition's 1,024: those whose last block has not been admitted, and entries of
replays that are not queued yet. DESIGN CHOICE, log 88. -/
def Partition.queued (x : Partition) : Nat :=
  (x.grids.filter fun g => decide (g.2.nextBlock < g.2.lrec.total)).length +
    (x.replays.map fun r => r.entries.length - r.queued.length).sum

/-- A block can never fit (R184, code 4). DEDUCED, log 40. -/
def neverFits (s : State) (p : Nat) (x : Partition) (r : LaunchRec) (chain : List (Nat × Node)) : Bool :=
  decide (4 < r.cores) || (effs (s.limits p x) chain).any (fun e => !e.2.admits r.needs) ||
    (r.coop && decide ((x.params.guaranteed.map fun c => (s.clusterCores c).length).sum < r.total * r.cores))

/-- A grid enters its node's queue. -/
def Grid.ofEntry (e : GraphEntry) (prio order : Nat) (replay : Option (Nat × Nat × Nat)) : Grid where
  lrec := e.lrec
  recAddr := e.recAddr
  node := e.node
  prio := prio
  regions := e.regions
  sched := e.sched
  preds := e.preds
  depsMet := e.lrec.deps.isEmpty
  depFailed := []
  nextBlock := 0
  ended := 0
  endTick := none
  returned := []
  leaving := []
  dead := false
  candSince := none
  stallSince := none
  protects := []
  replay := replay
  order := order

def State.enqueue (s : State) (p : Nat) (e : GraphEntry) (replay : Option (Nat × Nat × Nat)) : State :=
  match s.part p with
  | none => s
  | some x =>
    let g := Grid.ofEntry e (s.effOf p e.node).prio x.nextOrder replay
    s.putPart p
      { x with
        grids := Kv.insert x.nextOrder g x.grids
        nextOrder := x.nextOrder + 1 }

/-- The dispatcher reads the dependence words of every launch that waits for some (R178). -/
def State.readDeps (s : State) (p : Nat) : State :=
  match s.part p with
  | none => s
  | some x => s.later ((x.grids.filter fun g => !g.2.depsMet).map fun g => .dependenceRead p g.1)

/-! ### LAUNCH (R185) -/

/-- The status of a launch that is not accepted, or none: of several codes the lowest. DESIGN CHOICE, log 88. -/
def launchStatus (s : State) (p : Nat) (x : Partition) (r : Except Nat Record) (chain : Option (List (Nat × Node)))
    (more : Nat) : Option Nat :=
  match r, chain with
  | .error w, _ => some (1 + 2 ^ 8 * w)
  | .ok _, none => some 2
  | .ok r, some l =>
    if 1024 < x.queued + more then some 3
    else if neverFits s p x r.lrec l then some 4 else none

/-- LAUNCH (R184, R185). -/
def execLaunch (com : Com) (dst a b : Opnd) : State → Res :=
  onceThreadNoBoot (.launch com dst a b) (Use.stew com [(a, true), (b, true)] [(dst, false)]) fun g i l s =>
    let ra := (l.getD 0 0).toNat
    let na := (l.getD 1 0).toNat
    let p := (g.part s).getD 0
    if ra % 64 ≠ 0 then .stop ⟨.align, 0, 0, ra, 0⟩
    else if na % 128 ≠ 0 then .stop ⟨.align, 0, 0, na, 0⟩
    else
      match (s.issueRelease g i com).bind fun s => readLaunch s g i ra with
      | .error (.exc e) => .stop e
      | .error e => .abort e
      | .ok (r, s) =>
        match readChain s g i 8 na [] with
        | .error (.exc e) => .stop e
        | .error e => .abort e
        | .ok (chain, s) =>
          let s := s.holdNodes p (chain.getD [])
          match s.part p, r with
          | none, _ => .done s []
          | some x, r =>
            match launchStatus s p x r chain 1, r with
            | some c, _ => .done (s.readDeps p) [((dst, false), BitVec.ofNat 64 c)]
            | none, .error _ => .done s []
            | none, .ok r =>
              .done ((s.enqueue p ⟨r.lrec, ra, na, [], r.regions, r.sched⟩ none).readDeps p) [((dst, false), 0)]

/-! ### Graphs (R186 to R188) -/

/-- A graph header. -/
structure GraphHdr where
  started : Nat
  completed : Nat
  paramlen : Nat
  paramp : Nat
  recp : Nat
  ncopy : Nat
  conc : Bool
  nrec : Nat
  bad : Bool
  deriving DecidableEq, Repr

def GraphHdr.ofNat (x : Nat) : GraphHdr :=
  let len := bitsOf x 223 192
  let pp := bitsOf x 191 128
  let rp := bitsOf x 127 64
  let nc := bitsOf x 23 20
  let n := bitsOf x 15 0
  ⟨bitsOf x 511 448, bitsOf x 447 384, len, pp, rp, nc, bitOf x 16, n,
    bitsOf x 383 224 != 0 || bitsOf x 63 24 != 0 || bitsOf x 19 17 != 0 || len % 256 != 0 || decide (len < 256) ||
    decide (0x100000 < len) || pp % 256 != 0 || rp % 32 != 0 || n == 0 || decide (256 < n) ||
    (if bitOf x 16 then nc == 0 else nc != 0)⟩

/-- A graph entry's record, node and predecessors; whether it is not valid (R186). -/
def graphEntry (idx x : Nat) : Nat × Nat × List Nat × Bool :=
  let preds := (List.range 4).map fun k => x / 2 ^ (128 + 16 * k) % 2 ^ 16
  let node := bitsOf x 127 64
  let rec_ := bitsOf x 63 0
  (rec_, node, preds.filter (· != 0xFFFF),
    x / 2 ^ 192 != 0 || preds.any (fun p => p != 0xFFFF && decide (idx ≤ p)) || rec_ % 64 != 0 || node % 128 != 0)

/-- The entries of a graph are read and checked one after another, each with its record, its nodes, the room in the queues
and its fit: the first failure as a status, or the entries. DESIGN CHOICE, log 88. -/
def readGraph (g : Grp) (i deflt total : Nat) : List (Nat × Nat) → State →
    Except Stop (Except Nat (List GraphEntry) × State)
  | [], s => .ok (.ok [], s)
  | (x, idx) :: t, s =>
    let e := graphEntry idx x
    let node := if e.2.1 = 0 then deflt else e.2.1
    if e.2.2.2 then .ok (.error 5, s)
    else
      match readLaunch s g i e.1 with
      | .error x => .error x
      | .ok (r, s) =>
        match readChain s g i 8 node [] with
        | .error x => .error x
        | .ok (chain, s) =>
          let p := (g.part s).getD 0
          let s := s.holdNodes p (chain.getD [])
          match s.part p with
          | none => .ok (.error 5, s)
          | some q =>
            match launchStatus s p q r chain total, r with
            | some c, _ => .ok (.error (if c % 256 = 1 ∨ c % 256 = 4 then c + 2 ^ 16 * idx else c), s)
            | none, .error _ => .ok (.error 5, s)
            | none, .ok r =>
              match readGraph g i deflt total t s with
              | .error x => .error x
              | .ok (.error c, s) => .ok (.error c, s)
              | .ok (.ok l, s) => .ok (.ok (⟨r.lrec, e.1, node, e.2.2.1, r.regions, r.sched⟩ :: l), s)

/-- What GRAPH.RUN reads after the header: its entries, the node it names with its ancestors (R174), and what each entry
names. -/
def readRun (s : State) (g : Grp) (i recp nrec node : Nat) : Except Stop (Except Nat (List GraphEntry) × State) :=
  match readEntries s g i recp nrec with
  | .error e => .error e
  | .ok (es, s) =>
    match readChain s g i 8 node [] with
    | .error e => .error e
    | .ok (none, s) => .ok (.error 2, s)
    | .ok (some l, s) => readGraph g i node nrec es.zipIdx (s.holdNodes ((g.part s).getD 0) l)

def GraphState.fresh : GraphState := ⟨false, none⟩

/-- Write `n` bytes for a thread to a global address, at once. -/
def writeGlobal (s : State) (g : Grp) (i va v n : Nat) : Except Stop State :=
  if 2 ^ 52 ≤ va ∨ va / 2 ^ 33 * 2 ^ 33 = scratchWindow then .error (rangeExc va)
  else
    match s.translate g.core ((g.part s).getD 0) (g.priv s) .store va with
    | .error e => .error e
    | .ok (x, s) => (storePlace g i (.phys x.spa x.mt) va v n Order.plain s).map fun r => r.2.writeCells r.1

/-- A write of the dispatcher: steward privilege, one record where it fails, and the write is lost (R475). -/
def State.dispRecord (s : State) (p recAddr va : Nat) (e : Exc) : State :=
  let r := (FaultRec.ofKind 0x0E).withExc { e with addr := va }
  ((s.taken 0x210 0).sendRecord p 0 { r with part := p, detail := 0, aux := recAddr, elem := 0, src := 0x218 }).1

def dispActor (p recAddr : Nat) : Actor := ⟨stewardKey p, 0x210, 0, { FaultRec.ofKind 0x0E with part := p, aux := recAddr }⟩

/-- Read and write `n` bytes for the dispatcher. -/
def State.dispRead (s : State) (p recAddr va n : Nat) : Except Stop (Nat × State) := unitRead s (dispActor p recAddr) p va n
def State.dispWrite (s : State) (p recAddr va v n : Nat) (rel : Bool) : Except Stop State :=
  unitWrite s (dispActor p recAddr) p va v n rel

/-- A counter of a graph object is written, or its write is lost with a record (R187, R475). -/
def State.writeCounter (s : State) (p va v : Nat) (rel : Bool) : Except Stop State :=
  match s.dispWrite p 0 va v 8 rel with
  | .error (.exc e) => .ok (s.dispRecord p 0 va e)
  | .error (.halt _) => .ok (s.dispRecord p 0 va (Exc.of .addrRange))
  | r => r

/-- The replays of a graph that hold entries still (R187). -/
def Partition.heldReplays (x : Partition) (graph : Nat) : List Replay :=
  x.replays.filter fun r => r.graph == graph && (!r.released || decide (r.queued.length < r.entries.length))

/-- GRAPH.RUN (R184, R186, R187). -/
def execGraphRun (com : Com) (dst a b : Opnd) : State → Res :=
  onceThreadNoBoot (.graphRun com dst a b) (Use.stew com [(a, true), (b, true)] [(dst, false)]) fun g i l s =>
    let ga := (l.getD 0 0).toNat
    let na := (l.getD 1 0).toNat
    let p := (g.part s).getD 0
    let out (s : State) (c : Nat) : Once := .done (s.readDeps p) [((dst, false), BitVec.ofNat 64 c)]
    if ga % 64 ≠ 0 then .stop ⟨.align, 0, 0, ga, 0⟩
    else if na % 128 ≠ 0 then .stop ⟨.align, 0, 0, na, 0⟩
    else
      match (s.issueRelease g i com).bind fun s => readPieces s g i ga 2 with
      | .error (.exc e) => .stop e
      | .error e => .abort e
      | .ok (x, s) =>
        let h := GraphHdr.ofNat x
        if h.bad then out s 5
        else
          match readRun s g i h.recp h.nrec na with
          | .error (.exc e) => .stop e
          | .error e => .abort e
          | .ok (.error c, s) => out s c
          | .ok (.ok l, s) =>
            match s.part p with
            | none => .done s []
            | some q =>
              if 16 ≤ (q.heldReplays ga).length then out s 3
              else
                let num := (h.started + 1) % 2 ^ 64
                let gs := Kv.get GraphState.fresh ga q.graphs
                let r : Replay := ⟨ga, num, h.conc, h.ncopy, h.paramp, h.paramlen, gs.changed, false, none, l, [], []⟩
                let s := s.putPart p
                  { q with
                    replays := q.replays ++ [r]
                    graphs := if gs.changed then Kv.insert ga ⟨false, some num⟩ q.graphs else q.graphs }
                match s.writeCounter p (ga + 56) num false with
                | .error e => .abort e
                | .ok s => out (s.later [.graphReplayRelease p q.replays.length]) 0

/-- Copy bytes by 4 for a thread. -/
def patchBytes (g : Grp) (i src dst : Nat) : Nat → State → Except Stop State
  | 0, s => .ok s
  | n + 1, s =>
    match patchBytes g i src dst n s with
    | .error e => .error e
    | .ok s =>
      match readGlobal s g i (src + 4 * n) 4 with
      | .error e => .error e
      | .ok (v, s) => writeGlobal s g i (dst + 4 * n) v 4

/-- GRAPH.PATCH (R184, R188). -/
def execGraphPatch (com : Com) (a b c : Opnd) : State → Res :=
  onceThreadNoBoot (.graphPatch com a b c) (Use.stew com [(a, true), (b, true), (c, false)] []) fun g i l s =>
    let ga := (l.getD 0 0).toNat
    let src := (l.getD 1 0).toNat
    let off := (l.getD 2 0).toNat % 2 ^ 16
    let n := (l.getD 2 0).toNat / 2 ^ 16 % 2 ^ 16
    let p := (g.part s).getD 0
    if ga % 64 ≠ 0 then .stop ⟨.align, 0, 0, ga, 0⟩
    else if src % 4 ≠ 0 then .stop ⟨.align, 0, 0, src, 0⟩
    else
      match (s.issueRelease g i com).bind fun s => readPieces s g i ga 2 with
      | .error (.exc e) => .stop e
      | .error e => .abort e
      | .ok (x, s) =>
        let h := GraphHdr.ofNat x
        let gs := match s.part p with
          | some q => Kv.get GraphState.fresh ga q.graphs
          | none => GraphState.fresh
        if off % 4 ≠ 0 ∨ n % 4 ≠ 0 ∨ n < 4 ∨ 4096 < n ∨ h.paramlen < off + n then .stop (Exc.of .addrRange)
        else if gs.sealedBy.isSome then .wait []
        else
          match patchBytes g i src (h.paramp + h.paramlen + off) (n / 4) s with
          | .error (.exc e) => .stop e
          | .error e => .abort e
          | .ok s => .done (s.modPart p fun q => { q with graphs := Kv.insert ga { gs with changed := true } q.graphs }) []

end Sys2Proof.Machine
end

