-- ==== Sys2Proof/Machine/Sched.lean ====
section
/-! DEFINITION. The PC table of a core: filling, merging, selection, promotion, demotion, swapping and eviction of
entries (R159 to R167). -/

namespace Sys2Proof.Machine

/-- The order of seeds: longest in slot state, then lane, then slot (R160). DESIGN CHOICE, log 75. -/
def SlotThread.seedKey (t : SlotThread) : Nat := t.th.since * 2 ^ 12 + t.th.lane * 16 + t.th.slot

/-- One thread for each lane: the first of a list in which the preferred come first. -/
def onePerLane : List SlotThread → List Nat → List SlotThread
  | [], _ => []
  | t :: r, used => if used.contains t.th.lane then onePerLane r used else t :: onePerLane r (t.th.lane :: used)

/-- The members of the entry that a seed starts (R160). A thread with a replay to make stands alone. -/
def fillMembers (seed : SlotThread) (l : List SlotThread) : List Nat :=
  if seed.th.rep.isSome then [seed.idx]
  else
    let others := sortBy (·.th.slot) (l.filter fun t =>
      t.block == seed.block && t.th.pc == seed.th.pc && t.th.rep.isNone && t.idx != seed.idx)
    (sortBy (·.th.lane) (onePerLane (seed :: others) [])).map (·.idx)

/-- ENTRY_FILL (R160). -/
def execEntryFill (core : Nat) (s : State) : Res :=
  let c := s.core core
  let l := s.slotReady core
  match firstFree (Kv.keys c.entries) 0 64, sortBy SlotThread.seedKey l with
  | some e, seed :: _ =>
    let en := Entry.start seed.block (fillMembers seed l) none s.tick
    .next (s.modCore core fun x => { x with entries := Kv.insert e en x.entries })
  | _, _ => .next s

/-- The entry waits for an answer of another package. -/
def State.asks (s : State) (core e : Nat) : Bool :=
  s.reqs.any fun r => r.2.core == core && r.2.entry == e && r.2.ask.isSome && r.2.val.isNone && r.2.err == 0

/-- The entry's next instruction has asked another package something, answered or not. -/
def State.asked (s : State) (core e : Nat) : Bool :=
  s.reqs.any fun r => r.2.core == core && r.2.entry == e && r.2.ask.isSome

/-- A chain of the entry is open (R56, R164). -/
def Entry.chainOpen (en : Entry) : Bool := decide (0 < en.chain)

/-- An instruction of the entry has begun at another package and must end: an atomic, or an access to control registers
(R254, R351). -/
def State.begun (s : State) (core e : Nat) : Bool :=
  s.reqs.any fun r => r.2.core == core && r.2.entry == e && (r.2.ask.any fun a => decide (2 ^ 60 ≤ a))

/-- The entry's block may issue: it is resident, or it halts with a chain open or an instruction begun (R58, R351); its
replay entries come first (R352). -/
def State.mayIssue (s : State) (core e : Nat) (en : Entry) : Bool :=
  let b := s.block en.block
  (b.phase == .resident || (b.phase == .halting && (en.chainOpen || s.begun core e))) &&
    en.members.all fun i => b.mayReplay (b.thread i).bc i (b.thread i)

/-- The entry may issue, and nothing that its next instruction needs is known to be outstanding (R165, R166). -/
def State.hasWork (s : State) (core e : Nat) (en : Entry) : Bool :=
  s.mayIssue core e en && !s.asks core e && !en.waiting

/-- The entries that wait are looked at again, and the threads held at squad instructions, since something has happened. -/
def State.unblock (s : State) : State :=
  { s.wakeAllSquads with cores := s.cores.map fun c =>
      (c.1, { c.2 with entries := c.2.entries.map fun e => (e.1, { e.2 with waiting := false }) }) }

/-- The threads that the entry absorbs (R162): of its block and PC, on lanes it does not hold, from entries in their
order and then from slot state. An entry whose next instruction has asked another package something keeps its members. -/
def mergeSet (s : State) (core e : Nat) (en : Entry) : List SlotThread :=
  let b := s.block en.block
  match en.members with
  | [] => []
  | m :: _ =>
    let pc := (b.thread m).pc
    let others := ((s.core core).entries.map fun x =>
      if x.1 != e && x.2.block == en.block && !x.2.chainOpen && !s.asked core x.1 then
        x.2.members.map fun i => (⟨en.block, i, b.thread i⟩ : SlotThread)
      else []).flatten
    let slots := sortBy (·.th.slot) ((s.slotReady core).filter fun t => t.block == en.block)
    let cand := (others ++ slots).filter fun t => t.th.pc == pc && t.th.rep.isNone
    onePerLane cand (en.members.map fun i => (b.thread i).lane)

/-- The entry absorbs its candidates; entries left empty are freed (R162). -/
def merge (s : State) (core e : Nat) (en : Entry) : State :=
  let b := s.block en.block
  if en.members.any (fun i => (b.thread i).rep.isSome) || en.chainOpen || s.asked core e then s
  else
    let add := (mergeSet s core e en).map (·.idx)
    if add.isEmpty then s
    else
      let all := sortBy (fun i => (b.thread i).lane) (en.members ++ add)
      s.modCore core fun c =>
        { c with entries := (c.entries.map fun x =>
            if x.1 = e then (x.1, { x.2 with members := all, chain := 0 })
            else if x.2.block = en.block then (x.1, { x.2 with members := x.2.members.filter fun i => !add.contains i })
            else x).filter fun x => !x.2.members.isEmpty }

/-- The entries of which the entry absorbs members that have an instruction pending. -/
def mergePends (s : State) (core e : Nat) (en : Entry) : List Nat :=
  let add := mergeSet s core e en
  ((s.core core).entries.filter fun x =>
    x.1 != e && x.2.block == en.block && !x.2.pend.isEmpty && add.any fun t => x.2.members.contains t.idx).map (·.1)

/-- ISSUE_SELECT (R165): the ready active entry of greatest age absorbs what merges with it and issues next. What is pending
for members that it absorbs is checked first (R162, R339). -/
def execIssueSelect (core : Nat) (s : State) : Res :=
  let ready := (s.core core).entries.filter fun x => x.2.pos.isSome && s.hasWork core x.1 x.2
  match sortBy (fun x => x.2.lastIssue) ready with
  | [] => .next s
  | (e, en) :: _ =>
    match if en.chainOpen then [] else mergePends s core e en with
    | [] => .next { merge s core e en with focus := .entry core e }
    | l => .next (s.later (l.map fun x => .pendingCheck core x))

/-- The lowest free position (R166). -/
def Core.freePos (c : Core) : Option Nat := firstFree (c.entries.filterMap (·.2.pos)) 0 8

/-- ENTRY_PROMOTE (R166). -/
def execEntryPromote (core : Nat) (s : State) : Res :=
  let c := s.core core
  let waiting := c.entries.filter fun x => x.2.pos.isNone && s.hasWork core x.1 x.2
  match c.freePos, sortBy (fun x => x.2.pendSince) waiting with
  | some p, (e, _) :: _ =>
    .next (s.modEntry core e fun en =>
      { en with
        pos := some p
        posSince := s.tick
        lastIssue := s.tick })
  | _, _ => .next s

/-- The pending entries with work that have waited 32 cycles (R166). -/
def State.longWaiting (s : State) (core : Nat) : Nat :=
  ((s.core core).entries.filter fun x =>
    x.2.pos.isNone && s.hasWork core x.1 x.2 && decide (x.2.pendSince + 32 ≤ s.tick)).length

/-- DEMOTION_MARK (R166): an entry without a ready instruction is demoted at once. -/
def execDemotionMark (core : Nat) (s : State) : Res :=
  let c := s.core core
  let marked := (c.entries.filter fun x => x.2.pos.isSome && x.2.marked).length
  let unmarked := c.entries.filter fun x => x.2.pos.isSome && !x.2.marked
  match sortBy (fun x => x.2.posSince) unmarked with
  | [] => .next s
  | (e, en) :: _ =>
    if c.freePos.isNone && decide (marked < s.longWaiting core) then
      let s' := s.modEntry core e fun en => { en with marked := true }
      .next (if s.hasWork core e en then s' else s'.demote core e)
    else .next s

/-- ENTRY_SWAP (R164): an active entry whose next instruction waits on a slow result. -/
def execEntrySwap (core entry : Nat) (s : State) : Res :=
  match s.entry core entry with
  | some en =>
    if en.pos.isSome && (s.asks core entry || en.waiting) && !en.chainOpen then .next (s.makePending core entry)
    else .next s
  | none => .next s

/-- The entry's members go to slot state as ready threads, and it is free (R163). -/
def State.evict (s : State) (core entry : Nat) (en : Entry) : State :=
  let s := s.modBlock en.block fun b => b.mapThreads en.members fun t => { t with since := s.tick }
  s.modCore core fun c => { c with entries := Kv.erase entry c.entries }

/-- ENTRY_EVICT (R163): an entry whose count has reached 4,096, outside a chain, with no instruction begun or pending. -/
def execEntryEvict (core entry : Nat) (s : State) : Res :=
  match s.entry core entry with
  | some en =>
    if decide (4096 ≤ en.issues) && !en.chainOpen && en.pend.isEmpty && !s.asked core entry then
      .next (s.evict core entry en)
    else .next s
  | none => .next s

/-- The entry stands at an instruction boundary outside an open chain: it is evicted where its count has reached 4,096, what
is pending being checked first, and demoted where it is marked (R163, R166, R339). A squad that has become complete is
told (R191). -/
def State.boundary (s : State) (core e : Nat) : State :=
  let s := (s.modEntry core e fun en => { en with chain := 0 }).wakeAllSquads
  match s.entry core e with
  | none => { s with focus := .none }
  | some en =>
    let s :=
      if en.issues < 4096 then s.demote core e
      else if en.pend.isEmpty then s.evict core e en
      else s.later [.pendingCheck core e, .entryEvict core e]
    { s with focus := .none }

end Sys2Proof.Machine
end

