-- ==== Sys2Proof/Machine/Dispatcher.lean ====
section
/-! DEFINITION. The dispatcher: dependences, candidates, placement, admission, completion, rotation and migration, and the
pre-emption and restore of a block (R157, R158, R169 to R171, R173, R177 to R183, R187, R351 to R354, R449 to R452, R475). -/

namespace Sys2Proof.Machine

/-! ### Clusters and room on cores (R158, R171, R449, R450, R452) -/

/-- The partitions that share a cluster, and whose turn it is (R452). -/
def State.sharers (s : State) (c : Nat) : List Nat :=
  (s.parts.filter fun x => x.2.params.shared.contains c).map (·.1)
def State.turnOf (s : State) (c : Nat) : Option Nat :=
  match Kv.find c s.turns with
  | some t => if t.ended then none else some t.part
  | none => (s.sharers c).head?

/-- The partition that a cluster is lent to (R450). -/
def State.lentTo (s : State) (c : Nat) : Option Nat :=
  s.parts.findSome? fun x => (x.2.lent.find? fun l => l.cluster == c).map (·.dest)

/-- The clusters on which a partition may be admitted now: a cooperative grid only on guaranteed ones. -/
def State.clustersOf (s : State) (p : Nat) (coop : Bool) : List Nat :=
  match s.part p with
  | none => []
  | some x =>
    if coop then x.params.guaranteed
    else x.params.guaranteed ++ (x.params.margin.filter fun c => (s.lentTo c).isNone) ++ s.borrowed p ++
      x.params.shared.filter fun c => s.turnOf c == some p

/-- A core that takes launches. -/
def State.coreOpen (s : State) (c : Nat) : Bool :=
  (s.core c).released && (s.core c).ready && !s.absent.noCores.contains c

/-- The blocks resident on a core, with their core number. A saved block stands on no core. -/
def State.blocksOn (s : State) (core : Nat) : List (Block × Nat) :=
  s.blocks.filterMap fun b => (b.2.bcOn core).map fun j => (b.2, j)

/-- What a block needs of one core: its lanes one for each thread, and its other reservations. -/
structure Need where
  nreg8 : Nat
  scratch : Nat
  ntile : Nat
  tslots : Nat
  sel : Nat
  stash : Nat
  lanes : List Nat
  deriving DecidableEq, Repr

/-- The threads of a block that stand on one of its cores. -/
def Block.threadsOn (b : Block) (j : Nat) : List (Nat × Thread) := b.threads.filter fun t => t.2.bc == j

/-- Slots in use on a lane of a core. -/
def usedSlots (l : List (Block × Nat)) (lane : Nat) : List Nat :=
  (l.map fun b => ((b.1.threadsOn b.2).filter fun t => t.2.lane == lane).map fun t => t.2.slot).flatten

/-- Register words in use on a lane. -/
def usedWords (l : List (Block × Nat)) (lane : Nat) : Nat :=
  (l.map fun b => (((b.1.threadsOn b.2).filter fun t => t.2.lane == lane).map fun t => t.2.nreg).sum).sum

/-- The core can take a block now (R158, R171, R202, R312). -/
def State.coreFits (s : State) (core : Nat) (n : Need) : Bool :=
  let l := s.blocksOn core
  let sum (f : Block → Nat) : Nat := (l.map fun b => f b.1).sum
  s.coreOpen core && decide (l.length < 16) && decide (sum (·.scratch) + n.scratch ≤ 0x100000) &&
    decide (sum (·.ntile) + n.ntile ≤ 16) && decide (sum (·.tslots) + n.tslots ≤ 16) &&
    decide ((l.map fun b => (b.1.bc b.2).sel.length).sum + n.sel ≤ 4) && decide (s.stashCount core + n.stash ≤ 256) &&
    (distinct n.lanes).all fun lane =>
      let c := (n.lanes.filter (· == lane)).length
      decide ((usedSlots l lane).length + c ≤ 16) && decide (usedWords l lane + c * 8 * n.nreg8 ≤ 2048)

/-- The lowest free slots for threads on their lanes, in order. -/
def freeSlots (l : List (Block × Nat)) : List Nat → List (Nat × Nat) → List Nat
  | [], _ => []
  | lane :: t, taken =>
    let used := usedSlots l lane ++ (taken.filter fun x => x.1 == lane).map (·.2)
    let n := (firstFree used 0 16).getD 0
    n :: freeSlots l t (taken ++ [(lane, n)])

/-- The slots of a placement are free and distinct on each lane. -/
def slotsOk (l : List (Block × Nat)) : List Nat → List Nat → List (Nat × Nat) → Bool
  | [], [], _ => true
  | lane :: t, n :: r, taken =>
    decide (n < 16) && !(usedSlots l lane).contains n && !taken.contains (lane, n) && slotsOk l t r (taken ++ [(lane, n)])
  | _, _, _ => false

/-- The sublists of a given length, in order. -/
def sublistsOf : Nat → List Nat → List (List Nat)
  | 0, _ => [[]]
  | _ + 1, [] => []
  | k + 1, x :: t => (sublistsOf k t).map (x :: ·) ++ sublistsOf (k + 1) t

/-- Every core of a choice takes its part of the block. -/
def State.coresFit (s : State) (cores : List Nat) (needs : List Need) : Bool :=
  cores.length == needs.length && (cores.zip needs).all fun x => s.coreFits x.1 x.2

/-- A placement is one that the dispatcher may make: increasing cores of one of the clusters, all of which admit it.
DESIGN CHOICE, log 12. -/
def State.placeOk (s : State) (clusters : List Nat) (needs : List Need) (place : Placement) : Bool :=
  (match place.cores with
   | [] => false
   | c :: _ => clusters.contains (c / 4) && place.cores.all (fun d => d / 4 == c / 4)) &&
  (sublistsOf place.cores.length (s.clusterCores (place.cores.headD 0 / 4))).contains place.cores &&
  s.coresFit place.cores needs && place.slots.length == needs.length &&
  (place.cores.zip (needs.zip place.slots)).all fun x => slotsOk (s.blocksOn x.1) x.2.1.lanes x.2.2 []

/-- Some placement in a list of clusters. -/
def State.findCores (s : State) (clusters : List Nat) (needs : List Need) : Option (List Nat) :=
  clusters.findSome? fun c => (sublistsOf needs.length (s.clusterCores c)).find? fun l => s.coresFit l needs

def State.fillPlace (s : State) (lo32 : Bool) (needs : List Need) (cores : List Nat) : Placement :=
  ⟨lo32, cores, (cores.zip needs).map fun x => freeSlots (s.blocksOn x.1) x.2.lanes []⟩

/-! ### A new block (R157, R168 to R170) -/

/-- The block core of a squad of a block of `n` squads on `k` cores (R169). -/
def squadCore (n k q : Nat) : Nat := ((List.range k).find? fun j => decide (q < (j + 1) * n / k)).getD 0

/-- The threads of a record's block on its core `j`. -/
def LaunchRec.threadsOn (r : LaunchRec) (j : Nat) : List Nat :=
  (List.range r.threads).filter fun i => squadCore r.squads r.cores (i / 32) == j

/-- The stash pages that a core's region entries bind. -/
def Grid.stashPages (g : Grid) (j : Nat) : Nat :=
  ((g.regions.filter fun e => e.1.kind != 0 && (e.2.isNone || e.2 == some j)).map fun e => e.1.bytes / 4096).sum

/-- What a block of a grid needs of its cores, with the lane offset. -/
def Grid.needs (g : Grid) (lo : Nat) : List Need :=
  let r := g.lrec
  (List.range r.cores).map fun j =>
    ⟨r.nreg8, r.scratch, r.ntile, r.tslots, 0, g.stashPages j, (r.threadsOn j).map fun i => (i + lo) % 64⟩

/-- The block of linear index `n` of a grid, as it is admitted (R38, R175, R312 to R314). DESIGN CHOICE, log 11. -/
def newBlock (p id : Nat) (g : Grid) (n tag now tick : Nat) (place : Placement) : Block :=
  let r := g.lrec
  let lo := if place.lo32 then 32 else 0
  let threads := (List.range r.cores).map fun j =>
    ((r.threadsOn j).zip (place.slots.getD j [])).map fun x =>
      (x.1, { Thread.start r.code r.nreg8 .user ((x.1 + lo) % 64) x.2 j with since := tick })
  { Block.nowhere with
    tag := tag
    part := some p
    grid := id
    node := g.node
    bidx := (n % r.grid.1, n / r.grid.1 % r.grid.2.1, n / r.grid.1 / r.grid.2.1)
    shape := r.shape
    lo := lo
    nreg8 := r.nreg8
    scratch := r.scratch
    ntile := r.ntile
    tslots := r.tslots
    threads := threads.flatten
    cores := place.cores.zipIdx.map fun c =>
      (c.2, { BlockCore.start c.1 (((Kv.set 0 0 (BitVec.ofNat 32 r.argp) []) |> Kv.set 0 1 (BitVec.ofNat 32 (r.argp / 2 ^ 32)))) with
        regions := (g.regions.filter fun e => e.2.isNone || e.2 == some c.2).map (·.1)
        sched := g.sched.filter fun e => e.core == c.2 })
    since := now }

/-! ### Candidates (R172, R173, R177, R178, R180) -/

/-- A grid has a block to admit or to restore. -/
def Grid.waits (g : Grid) : Bool := decide (g.nextBlock < g.lrec.total) || !g.returned.isEmpty

/-- The predecessors of a graph's grid are complete (R187). -/
def Partition.predsDone (x : Partition) (g : Grid) : Bool :=
  match g.replay with
  | none => true
  | some (graph, num, _) =>
    match x.replays.find? fun r => r.graph == graph && r.num == num with
    | some r => g.preds.all r.doneEntries.contains
    | none => true

/-- The grid at the head of its queue that may be admitted from. -/
def Partition.candidate (x : Partition) (id : Nat) (g : Grid) : Bool :=
  g.waits && g.depsMet && x.predsDone g && !x.admitStop && x.moor == .awake &&
    (x.chain 8 g.node).all (fun n => n.2.en) &&
    !x.grids.any fun h => h.1 != id && h.2.node == g.node && h.2.prio == g.prio && h.2.waits && decide (h.2.order < g.order)

/-- The time since which each grid is a candidate. DESIGN CHOICE, log 43. -/
def State.refreshCands (s : State) (p : Nat) : State :=
  s.modPart p fun x =>
    { x with grids := x.grids.map fun g =>
        (g.1, { g.2 with candSince := if x.candidate g.1 g.2 then some (g.2.candSince.getD s.clock) else none }) }

/-- What a resident block holds (R173). -/
def Block.holds (b : Block) : Nat × Nat × Nat × Nat :=
  let k := b.cores.length
  (k, k * b.tslots, k * b.scratch, k * b.ntile * 16384)

def addHolds (a b : Nat × Nat × Nat × Nat) : Nat × Nat × Nat × Nat :=
  (a.1 + b.1, a.2.1 + b.2.1, a.2.2.1 + b.2.2.1, a.2.2.2 + b.2.2.2)

/-- The block stays within the budgets of its node and of every ancestor (R173). -/
def State.budgetOk (s : State) (p : Nat) (node : Nat) (need : Nat × Nat × Nat × Nat) : Bool :=
  match s.part p with
  | none => false
  | some x =>
    (s.effsOf p node).all fun e =>
      let mine := s.blocks.filter fun b => b.2.part == some p && b.2.tag != 0 && b.2.phase != .saved &&
        (x.chain 8 b.2.node).any fun n => n.1 == e.1
      e.2.admits (mine.foldl (fun a b => addHolds a b.2.holds) need)

/-- The needs of a saved block. -/
def Block.needs (b : Block) : List Need :=
  b.cores.map fun c => ⟨b.nreg8, b.scratch, b.ntile, b.tslots, c.2.sel.length, c.2.stashPages,
    (b.threadsOn c.1).map fun t => t.2.lane⟩

/-- The clusters that waiting grids of higher priority protect against a grid (R177). -/
def Partition.protectedFrom (x : Partition) (g : Grid) : List Nat :=
  (x.grids.map fun h => if g.prio < h.2.prio ∧ h.2.waits then h.2.protects else []).flatten

/-- Where the next block of a grid would go now, if anywhere. -/
def State.nextPlace (s : State) (p : Nat) (x : Partition) (g : Grid) : Option Placement :=
  let cl := (s.clustersOf p g.lrec.coop).filter fun c => !(x.protectedFrom g).contains c
  if !s.budgetOk p g.node g.lrec.needs then none
  else if g.nextBlock < g.lrec.total then
    match s.findCores cl (g.needs 0) with
    | some l => some (s.fillPlace false (g.needs 0) l)
    | none => (s.findCores cl (g.needs 32)).map fun l => s.fillPlace true (g.needs 32) l
  else
    match g.returned with
    | [] => none
    | t :: _ =>
      let b := s.block t
      (s.findCores cl b.needs).map fun l => s.fillPlace (b.lo == 32) b.needs l

/-- A cooperative grid that has been admitted has blocks pre-empted, which come back before any other admission (R180). -/
def State.coopOut (s : State) (p id : Nat) (g : Grid) : Bool :=
  g.lrec.coop && (!g.returned.isEmpty || s.blocks.any fun b => b.2.part == some p && b.2.grid == id && b.2.tag != 0 &&
    b.2.phase != .resident)

/-- A core belongs to a partition from the first block that it receives of it (R147, R241). -/
def State.claim (s : State) (p : Nat) (cores : List Nat) : State :=
  cores.foldl (fun s c => s.modCore c fun x => { x with part := some p }) s

/-- A block of a grid was placed: its candidacy counts anew (R177). -/
def Grid.placed (g : Grid) (now next : Nat) (returned : List Nat) : Grid :=
  { g with
    nextBlock := next
    returned := returned
    candSince := some now
    stallSince := none
    protects := [] }

/-- Admit the next block of a grid at a placement. -/
def State.admitNew (s : State) (p id : Nat) (g : Grid) (place : Placement) : State :=
  let b := newBlock p id g g.nextBlock s.nextTag s.clock s.tick place
  let s := { (s.putBlock s.nextTag b).claim p place.cores with nextTag := s.nextTag + 1 }
  s.modPart p fun x => { x with grids := Kv.insert id (g.placed s.clock (g.nextBlock + 1) g.returned) x.grids }

/-- Admit every block that is left of a cooperative grid, or none (R180). -/
def State.admitAll (s : State) (p id : Nat) : Nat → Option State
  | 0 => some s
  | n + 1 =>
    match (s.part p).bind fun x => (Kv.find id x.grids).map fun g => (x, g) with
    | none => none
    | some (x, g) =>
      match s.nextPlace p x g with
      | none => none
      | some place => (s.admitNew p id g place).admitAll p id n

/-- A grid's next block could be admitted or restored now, a cooperative grid's all at once (R177, R180). -/
def State.fitsNow (s : State) (p : Nat) (x : Partition) (id : Nat) (g : Grid) : Bool :=
  if g.lrec.coop && decide (g.nextBlock < g.lrec.total) then (s.admitAll p id (g.lrec.total - g.nextBlock)).isSome
  else (s.nextPlace p x g).isSome

/-- The dispatcher may take the next block from this grid: no candidate of higher priority fits, and none of equal
priority that came first; while blocks of cooperative grids have to come back, those of the first such grid (R177, R180). -/
def State.mayTake (s : State) (p : Nat) (x : Partition) (id : Nat) (g : Grid) : Bool :=
  x.candidate id g &&
  match x.grids.find? fun h => s.coopOut p h.1 h.2 with
  | some h => h.1 == id
  | none => !x.grids.any fun h =>
    h.1 != id && x.candidate h.1 h.2 &&
    (decide (g.prio < h.2.prio) || (h.2.prio == g.prio && decide (h.2.candSince.getD s.clock < g.candSince.getD s.clock))) &&
    s.fitsNow p x h.1 h.2

/-- BLOCK_ADMIT (R171, R177, R180): the block that is next is admitted at a placement of the dispatcher's choice. LO 32
is taken only where LO 0 does not fit. The blocks of a cooperative grid follow at once. -/
def execBlockAdmit (part launch : Nat) (place : Placement) (s : State) : Res :=
  let s := s.refreshCands part
  match s.part part with
  | none => .next s
  | some x =>
    match Kv.find launch x.grids with
    | none => .next s
    | some g =>
      let cl := (s.clustersOf part g.lrec.coop).filter fun c => !(x.protectedFrom g).contains c
      let lo := if place.lo32 then 32 else 0
      if s.mayTake part x launch g ∧ g.nextBlock < g.lrec.total ∧ s.budgetOk part g.node g.lrec.needs ∧
          s.placeOk cl (g.needs lo) place ∧ !(place.lo32 && s.coresFit place.cores (g.needs 0)) then
        let s' := s.admitNew part launch g place
        if g.lrec.coop then
          match s'.admitAll part launch (g.lrec.total - g.nextBlock - 1) with
          | some t => .next t
          | none => .next s
        else .next s'
      else .next s

/-- The clusters that could admit the next block of a grid if they held no block (R177). -/
def State.couldHold (s : State) (p : Nat) (g : Grid) : List Nat :=
  let empty := { s with blocks := [] }
  let needs (lo : Nat) : List Need := if g.nextBlock < g.lrec.total then g.needs lo else ((g.returned.head?.map fun t =>
    (s.block t).needs)).getD []
  let own (x : Partition) : List Nat :=
    if g.lrec.coop then x.params.guaranteed
    else x.params.guaranteed ++ s.borrowed p ++ x.params.shared.filter fun c => s.turnOf c == some p
  (((s.part p).map own).getD []).filter fun c =>
    (empty.findCores [c] (needs 0)).isSome || (empty.findCores [c] (needs 32)).isSome

/-- CANDIDATE_PROTECT (R177): a candidate block has waited 1 ms. -/
def execCandidateProtect (part launch : Nat) (s : State) : Res :=
  let s := s.refreshCands part
  match s.part part with
  | none => .next s
  | some x =>
    match Kv.find launch x.grids with
    | none => .next s
    | some g =>
      match g.candSince with
      | some t =>
        if t + 1000000 ≤ s.clock then
          .next (s.putPart part { x with grids := Kv.insert launch { g with protects := s.couldHold part g } x.grids })
        else .next s
      | none => .next s

/-! ### Dependences (R178, R475) -/

/-- The dependence words of a launch, each read: whether all are met, and which of them fail, with their faults. -/
def State.depsNow (s : State) (p recAddr : Nat) : List (Nat × Nat) → Except Stop (State × Bool × List (Nat × Exc))
  | [] => .ok (s, true, [])
  | (a, v) :: t =>
    match s.dispRead p recAddr a 8 with
    | .error (.exc e) => (s.depsNow p recAddr t).map fun r => (r.1, false, (a, e) :: r.2.2)
    | .error e => .error e
    | .ok (w, s) => (s.depsNow p recAddr t).map fun r => (r.1, decide (v ≤ w) && r.2.1, r.2.2)

/-- A dependence word fails: one record, until a read of it succeeds. -/
def State.depRecord (s : State) (p : Nat) (g : Grid) (f : Nat × Exc) : State :=
  let s := if f.2.cls = .poison then s.markRead f.2.aux else s
  if g.depFailed.contains f.1 then s else s.dispRecord p g.recAddr f.1 f.2

/-- What an access of the dispatcher that must wait does. -/
def State.dispStop (s : State) (x : Stop) : Res :=
  match x with
  | .halt h => .fault h
  | .miss a p => .next (s.request 0x210 0 a p)
  | .exc _ | .wait => .next s

/-- DEPENDENCE_READ (R178, R475). -/
def execDependenceRead (part launch : Nat) (s : State) : Res :=
  match (s.part part).bind fun x => Kv.find launch x.grids with
  | none => .next s
  | some g =>
    if g.depsMet then .next (s.refreshCands part)
    else
      match s.depsNow part g.recAddr g.lrec.deps with
      | .error e => s.dispStop e
      | .ok (s, met, failed) =>
        let s := failed.foldl (fun s f => s.depRecord part g f) s
        let g' : Grid := { g with
          depsMet := met
          depFailed := failed.map (·.1) }
        .next ((s.modPart part fun x => { x with grids := Kv.insert launch g' x.grids }).refreshCands part)

/-! ### Completion (R179, R187, R475) -/

/-- Graph events of a partition are tried again. -/
def State.pokeGraphs (s : State) (p : Nat) : State :=
  match s.part p with
  | none => s
  | some x => s.later (((List.range x.replays.length).map fun k => .graphReplayComplete p k) ++
      (List.range x.replays.length).map fun k => .graphReplayRelease p k)

/-- The completion word: the maximum of its value and DONEV, at its home. -/
def State.writeDone (s : State) (p : Nat) (r : LaunchRec) (recAddr : Nat) : Except Stop State :=
  if r.donea = 0 then .ok s
  else
    match s.walk p .steward .store r.donea with
    | .error (.exc e) => .ok (s.dispRecord p recAddr r.donea e)
    | .error e => .error e
    | .ok x =>
      match (if s.target x.spa = .dram then s.poisonedIn x.spa 8 else none) with
      | some gr => .ok ((s.markPoison gr).dispRecord p recAddr r.donea (poisonExc s gr r.donea))
      | none =>
        let a := dispActor p recAddr
        (atomPhys s a a.block 0 x.spa x.mt r.donea ⟨.max, .n64, 0x04, false, Order.of (.ordered .rel .pkg)⟩ r.donev 0).map
          (·.2)

/-- The grids that have completed, in the order in which they did (R179). -/
def Partition.completed (x : Partition) : List Nat :=
  (sortBy (fun g => g.2.endTick.getD 0) (x.grids.filter fun g => decide (g.2.lrec.total ≤ g.2.ended))).map (·.1)

/-- GRID_COMPLETE (R179): every block has ended, and the grids that completed before it have been written. -/
def execGridComplete (part grid : Nat) (s : State) : Res :=
  match (s.part part).bind fun x => (Kv.find grid x.grids).map fun g => (x, g) with
  | none => .next s
  | some (x, g) =>
    if x.completed.head? ≠ some grid then .next s
    else
      match (if g.dead then .ok s else s.writeDone part g.lrec g.recAddr) with
      | .error e => s.dispStop e
      | .ok s =>
        let replays := match g.replay with
          | none => x.replays
          | some (graph, num, e) => x.replays.map fun r =>
            if r.graph = graph ∧ r.num = num ∧ !g.dead then { r with doneEntries := r.doneEntries ++ [e] } else r
        let s := s.modPart part fun y => { y with grids := Kv.erase grid y.grids, replays := replays }
        .next ((((s.refreshCands part).pokeGraphs part).readDeps part).later
          ((x.completed.drop 1).take 1 |>.map fun h => .gridComplete part h))

/-- Copy a parameter block by pieces of 32 bytes. A piece that cannot be copied sends a record (R475) and is left.
DESIGN CHOICE, log 41. -/
def State.copyParams (s : State) (p src dst : Nat) : Nat → Except Stop State
  | 0 => .ok s
  | n + 1 =>
    match s.copyParams p src dst n with
    | .error e => .error e
    | .ok s =>
      match s.dispRead p 0 (src + 32 * n) 32 with
      | .error (.exc e) => .ok (s.dispRecord p 0 (src + 32 * n) e)
      | .error e => .error e
      | .ok (v, s) =>
        match s.dispWrite p 0 (dst + 32 * n) v 32 false with
        | .error (.exc e) => .ok (s.dispRecord p 0 (dst + 32 * n) e)
        | r => r

/-- A record of a concurrent replay: addresses in the parameter block move with the copy (R187, step 5). -/
def GraphEntry.move (e : GraphEntry) (r : Replay) : GraphEntry :=
  match r.copy with
  | none => e
  | some c =>
    let m (a : Nat) : Nat := if r.paramp ≤ a ∧ a < r.paramp + r.paramlen then a + (2 + c) * r.paramlen else a
    { e with lrec := { e.lrec with
        argp := m e.lrec.argp
        deps := e.lrec.deps.map fun d => (m d.1, d.2) } }

/-- Entry `i` of a replay may be queued: without a copy of its own it follows entry `i` of the previous replay. -/
def Partition.entryFree (x : Partition) (idx i : Nat) (r : Replay) : Bool :=
  r.conc || (match ((x.replays.take idx).filter fun q => q.graph == r.graph).getLast? with
    | none => true
    | some q => q.doneEntries.contains i)

/-- Queue every entry of a released replay that may be queued. -/
def State.queueEntries (s : State) (p idx : Nat) (x : Partition) (r : Replay) : State :=
  let l := (List.range r.entries.length).filter fun i => !r.queued.contains i && x.entryFree idx i r
  let s := l.foldl (fun s i =>
    match r.entries[i]? with
    | some e => s.enqueue p (e.move r) (some (r.graph, r.num, i))
    | none => s) s
  s.modPart p fun y => { y with replays := y.replays.set idx { r with queued := r.queued ++ l } }

/-- GRAPH_REPLAY_RELEASE (R187). -/
def execGraphReplayRelease (part idx : Nat) (s : State) : Res :=
  match (s.part part).bind fun x => (x.replays[idx]?).map fun r => (x, r) with
  | none => .next s
  | some (x, r) =>
    let others := (x.replays.take idx).filter fun q => q.graph == r.graph
    let queue (s : State) (r : Replay) : Res :=
      let s := s.modPart part fun y => { y with replays := y.replays.set idx r }
      match s.part part with
      | some y => .next ((s.queueEntries part idx y r).readDeps part)
      | none => .next s
    let openGraph (s : State) : State :=
      let opened (g : GraphState) : GraphState := { g with sealedBy := none }
      if r.sealed then
        s.modPart part fun y => { y with graphs := Kv.insert r.graph (opened (Kv.get GraphState.fresh r.graph y.graphs)) y.graphs }
      else s
    let copied (s : State) (src dst : Nat) (r : Replay) : Res :=
      match s.copyParams part src dst (r.paramlen / 32) with
      | .ok s => queue (openGraph s) { r with released := true, sealed := false }
      | .error e => s.dispStop e
    if r.released then queue s r
    else if r.conc then
      let used := (x.replays.filter fun q => q.graph == r.graph).filterMap (·.copy)
      match firstFree used 0 r.ncopy with
      | none => .next s
      | some c =>
        copied s (if r.sealed then r.paramp + r.paramlen else r.paramp) (r.paramp + (2 + c) * r.paramlen)
          { r with copy := some c }
    else if r.sealed then
      if others.isEmpty then copied s (r.paramp + r.paramlen) r.paramp r else .next s
    else queue s { r with released := true }

/-- GRAPH_REPLAY_COMPLETE (R187, step 6): in order of replay number. -/
def execGraphReplayComplete (part idx : Nat) (s : State) : Res :=
  match (s.part part).bind fun x => (x.replays[idx]?).map fun r => (x, r) with
  | none => .next s
  | some (x, r) =>
    let others := (x.replays.take idx).filter fun q => q.graph == r.graph
    if r.doneEntries.length < r.entries.length ∨ !others.isEmpty then .next s
    else
      match s.writeCounter part (r.graph + 48) r.num true with
      | .error e => s.dispStop e
      | .ok s => .next ((s.modPart part fun y => { y with replays := y.replays.eraseIdx idx }).pokeGraphs part)

/-! ### Pre-emption (R351, R354) -/

/-- The key of a block by its partition and tag: tag 0 is the steward's. -/
def blockKey (part tag : Nat) : Nat := if tag = 0 then stewardKey part else tag

/-- The classes of R353 that a block has in progress on its cores: an open chain; matrix work; thread accesses. A selection
push is over within its instruction. -/
def State.inProgress (s : State) (k : Nat) : List Nat :=
  let b := s.block k
  let en (f : Nat → Nat × Entry → Bool) : Bool := s.cores.any fun c => c.2.entries.any fun e => e.2.block == k && f c.1 e
  [(1, en fun _ e => e.2.chainOpen), (2, b.cores.any fun c => c.2.ops.any fun o => o.tl == 8),
    (4, en fun c e => !e.2.pend.isEmpty || s.asks c e.1)].filterMap fun x => if x.2 then some x.1 else none

/-- A request halts a resident block, which takes its place among those that leave its grid. -/
def State.requestPreempt (s : State) (k : Nat) : State :=
  let b := s.block k
  if b.phase ≠ .resident then s
  else
    let s := s.modBlock k fun b =>
      { b with
        phase := .halting
        reqTime := s.clock
        reqClasses := s.inProgress k }
    match b.part with
    | some p => if b.tag = 0 then s else s.modPart p fun x =>
        { x with grids := Kv.modify b.grid (fun g => { g with leaving := g.leaving ++ [k] }) x.grids }
    | none => s

/-- PREEMPT_REQUEST (R351). -/
def execPreemptRequest (part tag : Nat) (s : State) : Res :=
  let k := blockKey part tag
  if (s.block k).part = some part then .next ((s.requestPreempt k).later [.blockQuiesceSave part tag]) else .next s

/-- The entries of a block with pending instructions, in issue order: core, entry. -/
def State.pendingOf (s : State) (k : Nat) : List (Nat × Nat) :=
  (s.cores.map fun c => (sortBy (·.2.lastIssue) (c.2.entries.filter fun e => e.2.block == k && !e.2.pend.isEmpty)).map
    fun e => (c.1, e.1)).flatten

/-- Accesses that wait for another package are recorded as replay entries (R351, step 3). DESIGN CHOICE, log 65. -/
def State.toReplay (s : State) (k c e : Nat) : State :=
  match s.entry c e with
  | none => s
  | some en =>
    let s := en.pend.foldl (fun s p =>
      let s := p.threads.foldl (fun s t => s.modThread k t.1 fun x => { x with rep := some ⟨p.pc, some p.instr, t.2⟩ }) s
      let j := (s.thread k ((p.threads.map (·.1)).headD 0)).bc
      s.modBc k j fun x => { x with replays := x.replays ++ [p.threads.map (·.1)] }) s
    s.modEntry c e fun en => { en with pend := [] }

/-- A core number on which no block stands. -/
def offCore (j : Nat) : Nat := 2 ^ 16 + j

/-- Cycles of arithmetic clock as nanoseconds: one is 160 / 304 ns (R13, R353). -/
def cyclesNs (n : Nat) : Nat := n * 160 / 304

/-- The bound of a class of R353 in cycles; that of class 6 is the load-delay bound of R424. -/
def classBound (cls : Nat) : Nat :=
  match cls with
  | 1 => 64
  | 2 => 4288
  | 3 => 256
  | 4 => 2048
  | 5 => 512
  | _ => 752

/-- Four times the bound of a class, or once, in ns: class 5 counts ferry-core cycles of 1.6 GHz (R7, R353, R355). -/
def classNs (n cls : Nat) : Nat := if cls = 5 then n * classBound cls * 5 / 8 else cyclesNs (n * classBound cls)

/-- What a pre-emption took beyond the bounds of the classes that were in progress at the request is charged to the block's
partition on each of its cores, with a record that names the last of those classes (R354). DESIGN CHOICE, log 42. -/
def State.chargeOverrun (s : State) (k : Nat) : State :=
  let b := s.block k
  let excess := s.clock - b.reqTime - (b.reqClasses.map (classNs 1)).sum
  match b.part with
  | some p =>
    if excess = 0 then s
    else b.cores.foldl (fun s c =>
      let s := s.modPart p fun x => { x with overrun := Kv.insert c.2.core (Kv.get 0 c.2.core x.overrun + excess) x.overrun }
      (s.sendRecord p 0 { (FaultRec.ofKind 0x07).atCore b c.2.core with
        detail := b.reqClasses.getLastD 4
        aux := excess }).1) s
  | none => s

/-- A thread, and a core of a block, as they stand once the block is saved. -/
def Thread.saved (t : Thread) (tick : Nat) : Thread := { t with since := tick }
def BlockCore.saved (c : BlockCore) (j : Nat) : BlockCore :=
  { c with
    core := offCore j
    stash := c.stash.map fun p => { p with lines := [] } }

/-- The context of a quiesced block is saved (R352): it stands on no core, and in no entry. -/
def State.saveBlock (s : State) (k : Nat) : State :=
  let s := (s.block k).cores.foldl (fun s c => ((s.block k).bc c.1).stash.foldl State.flushPage s) s
  let s := s.chargeOverrun k
  let s := s.dropEntries k
  let unqueue (c : Core) : Core := { c with mqueue := c.mqueue.filter fun q => q.1 != k }
  let s : State := { s with cores := s.cores.map fun (c : Nat × Core) => (c.1, unqueue c.2) }
  s.modBlock k fun b =>
    { b with
      phase := .saved
      threads := b.threads.map fun (t : Nat × Thread) => (t.1, t.2.saved s.tick)
      cores := b.cores.map fun (c : Nat × BlockCore) => (c.1, c.2.saved c.1) }

/-- A block stands in the middle of an open chain (R58, R351). -/
def State.inChain (s : State) (k : Nat) : Bool :=
  s.cores.any fun c => c.2.entries.any fun e => e.2.block == k && e.2.chainOpen

/-- A block that stood on a compute die whose loss has been declared (R361): it is harvested, not saved. -/
def State.lostBlock (s : State) (b : Block) : Bool :=
  b.cores.any fun c => s.harbour.lostDies.contains (c.2.core / 48) || decide (lostCore 0 ≤ c.2.core)

/-- The matrix operations of a block that can still come to rest (R231): the head of a core's timeline 8. -/
def State.matrixLeft (s : State) (k : Nat) : Option (Nat × EngineOp) :=
  (s.block k).cores.findSome? fun c =>
    match c.2.headOp 8 with
    | some op => if op.stat = .queued ∧ !s.asks c.2.core 72 then some (c.1, op) else none
    | none => none

/-- An instruction of the block has begun at another package, and ends there first (R351, step 3). -/
def State.hasBegun (s : State) (k : Nat) : Bool :=
  s.cores.any fun c => c.2.entries.any fun e => e.2.block == k && s.begun c.1 e.1

/-- A copy of the block whose delivered bytes are not all counted: it lands before the save (R331). -/
def Block.unlanded (b : Block) : Option (Nat × EngineOp) :=
  b.cores.findSome? fun c => (c.2.ops.find? fun o => decide (0 < o.owed)).map fun o => (c.1, o)

/-- What a copy has gathered is written, and what it has delivered is counted, if it can be. -/
def State.land (s : State) (k j : Nat) (op : EngineOp) (again : List Instr) : Res :=
  let op' := { op with held := [] }
  let s := (s.writeCells (op.cells s k j)).putOp k j op'
  match s.countOwed k j op' with
  | .error e => s.stopOp k j op' e
  | .ok (s, op, true) => .next (if op.owed = 0 then s.later again else s)
  | .ok (s, op, false) => .next ((s.cancelHead k j op (Exc.of .barState)).later again)

/-- A cancellation that has been decided on one of the block's cores. -/
def Block.cancelling (b : Block) : Option (Nat × Nat) :=
  b.cores.findSome? fun c => (c.2.ops.find? fun o =>
    match o.stat with
    | .cancelled _ => true
    | _ => false).map fun o => (c.2.core, o.tl)

/-- BLOCK_QUIESCE_SAVE (R351): checks, thread accesses, matrix work, then the save. A block pre-empted becomes a returned
block of its grid (R181). -/
def execBlockQuiesceSave (part tag : Nat) (s : State) : Res :=
  let k := blockKey part tag
  let b := s.block k
  if b.phase ≠ .halting ∨ b.part ≠ some part ∨ s.inChain k ∨ s.hasBegun k ∨ s.lostBlock b then .next s
  else
    match s.pendingOf k with
    | (c, e) :: _ =>
      if s.asks c e then .next ((s.toReplay k c e).later [.blockQuiesceSave part tag])
      else .next (s.later [.pendingCheck c e, .blockQuiesceSave part tag])
    | [] =>
      match b.cancelling with
      | some (c, tl) => .next (s.later [.engineOpCancel c k tl, .blockQuiesceSave part tag])
      | none =>
        match s.matrixLeft k with
        | some (j, op) =>
          match s.performMatrix (b.bc j).core k j op .agrees with
          | .next t => .next { t with
              agenda := t.agenda.take (t.agenda.length - s.agenda.length) ++ .blockQuiesceSave part tag :: s.agenda }
          | r => r
        | none =>
          match b.unlanded with
          | some (j, op) => s.land k j op [.blockQuiesceSave part tag]
          | none =>
          let s := s.saveBlock k
          if tag = 0 then .next s
          else
            let back (g : Grid) : Grid := { g with returned := g.leaving.filter fun t => g.returned.contains t || t == tag }
            .next ((s.modPart part fun x => { x with grids := Kv.modify b.grid back x.grids }).refreshCands part)

/-! ### Restore (R183, R352) -/

/-- Free physical selection contexts for the bound ones of a block on a core, in order. -/
def bindSel (free : List Nat) : List (Nat × SelCtx) → List (Nat × SelCtx)
  | [] => []
  | x :: t => (x.1, { x.2 with phys := free.headD 0 }) :: bindSel (free.drop 1) t

def State.freeCtxs (s : State) (core : Nat) : List Nat :=
  let used := ((s.blocksOn core).map fun b => (b.1.bc b.2).sel.map fun x => x.2.phys).flatten
  (List.range 4).filter fun n => !used.contains n

/-- A saved block stands on cores again: its threads in new slots, its matrix replays queued again, and a HALT of a
steward resumes its wait. -/
def State.restoreBlock (s : State) (k : Nat) (place : Placement) : State :=
  let b := s.block k
  let slots := (b.cores.zip place.slots).map (fun c => ((b.threadsOn c.1.1).map (·.1)).zip c.2) |>.flatten
  let cores := (b.cores.zip place.cores).map fun c =>
    (c.1.1, { c.1.2 with
      core := c.2
      sel := bindSel (s.freeCtxs c.2) c.1.2.sel })
  let b' := { b with
    phase := .resident
    since := s.clock
    left := []
    cores := cores
    threads := b.threads.map fun t => (t.1, { t.2 with
      slot := ((slots.find? fun x => x.1 == t.1).map (·.2)).getD t.2.slot
      since := s.tick }) }
  let s := s.putBlock k b'
  let s := cores.foldl (fun s c => s.modCore c.2.core fun x =>
    { x with mqueue := x.mqueue ++ (c.2.ops.filter fun o => o.tl == 8).map fun o => (k, o.num) }) s
  match b.part with
  | none => s
  | some p =>
    let s := s.claim p place.cores
    let s := if b.tag = 0 then
        (match s.part p with
         | some x => if x.eventPend || decide (0 < x.pendCount) then s.releaseHalts p else s
         | none => s)
      else s.modPart p fun x => { x with grids := Kv.modify b.grid (fun g =>
        { g.placed s.clock g.nextBlock (g.returned.filter (· != b.tag)) with
          leaving := g.leaving.filter (· != b.tag) }) x.grids }
    s.endCheck k

/-- BLOCK_RESTORE (R177, R180, R181, R183, R352): the first returned block of a grid, one that is migrated to other cores, or a
steward's block on its partition's guaranteed clusters. -/
def execBlockRestore (part tag : Nat) (place : Placement) (s : State) : Res :=
  let k := blockKey part tag
  let b := s.block k
  let s := s.refreshCands part
  if b.phase ≠ .saved ∨ b.part ≠ some part then .next s
  else
    match s.part part with
    | none => .next s
    | some x =>
      if tag = 0 then
        if x.moor = .awake ∧ s.placeOk x.params.guaranteed b.needs place then .next (s.restoreBlock k place) else .next s
      else
        match Kv.find b.grid x.grids with
        | none => .next s
        | some g =>
          let cl := (s.clustersOf part g.lrec.coop).filter fun c => !(x.protectedFrom g).contains c
          let turn : Bool := s.mayTake part x b.grid g && g.nextBlock == g.lrec.total && g.returned.head? == some tag
          let moved : Bool := !b.left.isEmpty && x.moor == .awake && !x.admitStop && !place.cores.any b.left.contains
          if (if b.left.isEmpty then turn else moved) ∧ s.budgetOk part g.node b.holds ∧ s.placeOk cl b.needs place then
            .next (s.restoreBlock k place)
          else .next s

/-! ### Rotation and migration (R181, R183) -/

/-- The resident blocks of a grid, oldest admission first. -/
def State.residents (s : State) (p id : Nat) : List Nat :=
  (sortBy (fun b => b.2.since) (s.blocks.filter fun b => b.2.part == some p && b.2.grid == id && b.2.tag != 0 &&
    b.2.phase == .resident)).map (·.1)

/-- The conditions of R181 hold now: a block waits, some are resident, and all their threads are held. -/
def State.stalled (s : State) (p id : Nat) (g : Grid) : Bool :=
  let l := s.residents p id
  !g.lrec.coop && g.waits && !l.isEmpty && l.all fun k => (s.block k).threads.all fun t => t.2.stat != .ready

/-- They have held since a tick and a time: no thread has been held anew, no block placed. -/
def State.stalledSince (s : State) (p id : Nat) (t : Nat × Nat) : Bool :=
  (s.residents p id).all fun k =>
    let b := s.block k
    decide (b.since ≤ t.2) && b.threads.all fun x => decide (x.2.since ≤ t.1)

/-- How many blocks must go, oldest first, before the next waiting block fits: at least one. -/
def State.rotateCount (s : State) (p : Nat) (g : Grid) : List Nat → Nat
  | [] => 0
  | [_] => 1
  | k :: t =>
    let s' := { s with blocks := Kv.erase k s.blocks }
    match s'.part p with
    | some x => if (s'.nextPlace p x g).isSome then 1 else 1 + s'.rotateCount p g t
    | none => 1

/-- ROTATION (R181): the test of a grid, and the pre-emptions where it has held for the stall interval. -/
def execRotation (part grid : Nat) (s : State) : Res :=
  match (s.part part).bind fun x => Kv.find grid x.grids with
  | none => .next s
  | some g =>
    let put (t : Option (Nat × Nat)) : State :=
      s.modPart part fun x => { x with grids := Kv.insert grid { g with stallSince := t } x.grids }
    if !s.stalled part grid g then .next (put none)
    else
      match g.stallSince with
      | none => .next (put (some (s.tick, s.clock)))
      | some t =>
        if !s.stalledSince part grid t then .next (put (some (s.tick, s.clock)))
        else if s.clock < t.2 + 1000 * (s.effOf part g.node).stall then .next s
        else
          let l := s.residents part grid
          .next ((put none).later ((l.take (s.rotateCount part g l)).map fun k => .preemptRequest part k))

/-- Where a block could stand on other cores than its own. -/
def State.elsewhere (s : State) (p : Nat) (b : Block) (from_ : List Nat) : Option (List Nat) :=
  let coop := ((s.part p).bind fun x => (Kv.find b.grid x.grids).map fun g => g.lrec.coop).getD false
  (s.clustersOf p coop).findSome? fun c => (sublistsOf b.cores.length (s.clusterCores c)).find? fun l =>
    !l.any from_.contains && s.coresFit l b.needs

/-- MIGRATION (R183): of a block resident for 10 ms, where other cores of its partition can take it. -/
def execMigration (tag : Nat) (s : State) : Res :=
  let b := s.block tag
  let from_ := b.cores.map (·.2.core)
  match b.part with
  | some p =>
    if b.tag ≠ 0 ∧ b.phase = .resident ∧ !s.lostBlock b ∧ b.since + 10000000 ≤ s.clock ∧ (s.elsewhere p b from_).isSome then
      .next ((s.modBlock tag fun b => { b with left := from_ }).later [.preemptRequest p tag])
    else .next s
  | none => .next s

end Sys2Proof.Machine
end

