-- ==== Sys2Proof/Machine/System.lean ====
section
/-! DEFINITION. Record rings, traps and their resolution, the context rung, and the system instructions that act on
translations, frames and lost dies (R255, R287, R342 to R350, R356, R359 to R361). -/

namespace Sys2Proof.Machine

/-! ### Record rings (R342, R344) -/

/-- A record as the 64 bytes of R342, `drop` being its DROP bit. -/
def FaultRec.toNat (r : FaultRec) (drop : Bool) : Nat :=
  let f (n w v : Nat) : Nat := v % 2 ^ w * 2 ^ n
  f 0 8 r.cls + f 8 8 r.kind + f 16 16 r.detail + f 32 1 (boolNat r.held) + f 33 1 (boolNat r.ovfl) +
    f 34 1 (boolNat drop) + f 40 8 r.elem + f 64 64 r.node + f 151 4 r.slot + f 155 6 r.lane + f 161 6 r.core +
    f 167 3 r.die + f 170 6 r.part + f 176 32 r.opnum + f 208 4 r.tln + f 212 12 r.tidx + f 224 32 r.tag +
    f 256 64 r.pc + f 320 64 r.addr + f 384 64 r.aux + f 448 64 r.ts

/-- An EVENT message is queued for the host: what it reports, its source agent, and its data (R465, R474).
DESIGN CHOICE, log 61. -/
def State.postEvent (s : State) (what agent : Nat) (data : List Nat) : State :=
  let h := s.harbour
  let e : XcpEvent := ⟨h.eventSeq, s.clock, h.pkg * 0x400 + agent, Config.eventCode what, data, none⟩
  { s with harbour := { h with
      events := insertReport XcpEvent.ts XcpEvent.source e h.events
      eventSeq := h.eventSeq + 1 } }.later [.xcpEvent]

/-- The header's address of a ring; 0 where no event queue is set. -/
def Partition.ringAt (x : Partition) (ring : Nat) : Nat := if ring = 0 then bitsOf x.evq.toNat 51 6 * 64 else ring % 2 ^ 64

/-- The agent that reads and writes rings. -/
def ringActor (p va : Nat) : Actor := ⟨stewardKey p, 0x210, 1, { FaultRec.ofKind 0x0D with
  part := p
  aux := va }⟩

def State.ringRead (s : State) (p va n : Nat) : Except Stop (Nat × State) := unitRead s (ringActor p va) p va n
def State.ringWrite (s : State) (p va v n : Nat) (rel : Bool) : Except Stop State := unitWrite s (ringActor p va) p va v n rel

/-- The room of a ring by its header: the number of its next record, if one may be written. -/
def ringNext (hdr : Nat) : Option Nat :=
  let prod := bitsOf hdr 63 0
  let cons := bitsOf hdr 127 64
  let n := bitsOf hdr 131 128
  if n < 4 ∨ prod < cons ∨ 2 ^ n ≤ prod - cons then none else some prod

/-- Write a record and raise PROD, where the ring has room. DESIGN CHOICE, log 44. -/
def State.ringPut (s : State) (p va : Nat) (rec : Nat) : Except Stop (Bool × State) :=
  match s.ringRead p va 32 with
  | .error e => .error e
  | .ok (hdr, s) =>
    match ringNext hdr with
    | none => .ok (false, s)
    | some n =>
      match s.ringWrite p (va + 64 + 64 * (n % 2 ^ bitsOf hdr 131 128)) rec 64 false with
      | .error e => .error e
      | .ok s => ((s.releases (stewardKey p) 1).ringWrite p va (n + 1) 8 true).map fun s => (true, s)

/-- Change a ring of a partition. -/
def State.modRing (s : State) (p ring : Nat) (f : Ring → Ring) : State :=
  s.modPart p fun x => { x with rings := Kv.insert ring (f (Kv.get Ring.empty ring x.rings)) x.rings }

/-- RING_UNREACHABLE: the first failed access since a record was last written sends one record, or an EVENT where it is
the event queue that cannot be reached. -/
def State.ringFailed (s : State) (p ring va : Nat) (e : Exc) : State :=
  let s := if e.cls = .poison then s.markRead e.aux else s
  let s := s.taken 0x210 1
  match (s.part p).map fun x => (Kv.get Ring.empty ring x.rings).unreachable with
  | some false =>
    let s := s.modRing p ring fun r => { r with unreachable := true }
    if ring = 0 then s.postEvent 3 0x210 [p, e.cls.code, va]
    else (s.sendRecord p 0 { FaultRec.ofKind 0x0D with
      cls := e.cls.code
      aux := va
      part := p }).1
  | _ => s

/-- A record has been written: of the event queue, it makes an event pending for HALT (R107, R344). -/
def State.ringWritten (s : State) (p ring : Nat) : State :=
  let written (r : Ring) : Ring := ⟨r.waiting.drop 1, false, false⟩
  let s := (s.modRing p ring written).taken 0x210 1
  if ring ≠ 0 then s
  else
    let s := s.modPart p fun x => { x with eventPend := true }
    match s.part p with
    | some x => if x.moor = .awake then s.releaseHalts p else s
    | none => s

/-- The oldest waiting record of a ring is written, if it can be. True where it was. -/
def State.ringStep (s : State) (p ring : Nat) : Except Stop (Bool × State) :=
  match (s.part p).map fun x => (x, Kv.get Ring.empty ring x.rings) with
  | none => .ok (false, s)
  | some (x, r) =>
    match r.waiting with
    | [] => .ok (false, s)
    | rec :: _ =>
      let va := x.ringAt ring
      if ring = 0 ∧ va = 0 then .ok (false, s)
      else
        match s.ringPut p va (rec.toNat r.dropped) with
        | .ok (true, s) => .ok (true, s.ringWritten p ring)
        | .ok (false, s) => .ok (false, s.taken 0x210 1)
        | .error (.exc e) => .ok (false, s.ringFailed p ring va e)
        | .error (.halt _) => .ok (false, s.ringFailed p ring va ⟨.addrRange, 0, 0, va, 0⟩)
        | .error e => .error e

/-- RECORD_WRITE (R344). -/
def execRecordWrite (part ring : Nat) (s : State) : Res :=
  match s.ringStep part ring with
  | .ok (_, s) => .next s
  | .error (.miss a q) => .next (s.request 0x210 1 a q)
  | .error _ => .next s

/-- RING_CONS_POLL (R344): the header is read again while records wait; what finds room is written. -/
def execRingConsPoll (part ring : Nat) (s : State) : Res :=
  match (s.part part).map fun x => (x.ringAt ring, (Kv.get Ring.empty ring x.rings).waiting) with
  | none | some (_, []) => .next s
  | some (va, _ :: _) =>
    if ring = 0 ∧ va = 0 then .next s
    else
      match s.ringRead part va 32 with
      | .ok (hdr, s) => .next (if (ringNext hdr).isSome then s.later [.recordWrite part ring] else s)
      | .error (.exc e) => .next (s.ringFailed part ring va e)
      | .error (.halt _) => .next (s.ringFailed part ring va ⟨.addrRange, 0, 0, va, 0⟩)
      | .error (.miss a q) => .next (s.request 0x210 1 a q)
      | .error .wait => .next s

/-- A record goes to the event queue of a block's partition, a boot-mode thread's to the harbour die. -/
def State.sendEvent (s : State) (k : Nat) (r : FaultRec) : State × Bool :=
  match (s.block k).part with
  | none => (s.sendBlockRecord k r, true)
  | some p => s.sendRecord p 0 r

/-! ### TRAP and EVPOST (R349, R350) -/

/-- TRAP (R349). -/
def execTrap (com : Com) (code : BitVec 6) (dst a : Opnd) : State → Res :=
  eachThread (.trap com code dst a) (Use.plain com [(a, true)] [(dst, false)]) fun g i l s =>
    (s.releaseWait (g.actor s i) i false).map fun s =>
      let s := s.releases g.block 1
      let r := threadRecord s g i 0x05 true ⟨.trap, code.toNat, (l.getD 0 0).toNat, 0, 0⟩
      let s := (s.sendEvent g.block r).1
      (s.modThread g.block i fun t =>
        { t with
          stat := .trapped dst
          since := s.tick }, [])

/-- The record of an EVPOST and where it goes: kept or dropped. -/
def State.sendEvpost (s : State) (g : Grp) (i : Nat) (fd : Bool) (code payload : Nat) : State × Bool :=
  let r := { threadRecord s g i 0x06 false (Exc.of .trap) with
    cls := 0
    detail := code
    aux := payload }
  let b := s.block g.block
  match b.part with
  | none => s.sendEvent g.block r
  | some p => s.sendRecord p (if fd && b.tag != 0 then ((s.part p).map fun x => ringOfNode x.nodes 32 b.node).getD 0 else 0) r

/-- EVPOST (R350). -/
def execEvpost (com : Com) (fd : Bool) (code : BitVec 16) (dst a : Opnd) : State → Res :=
  onceThread (.evpost com fd code dst a) (Use.plain com [(a, true)] [(dst, false)]) fun g i l s =>
    match s.issueRelease g i com with
    | .error e => .abort e
    | .ok s =>
      let q := s.sendEvpost g i fd code.toNat (l.getD 0 0).toNat
      .done q.1 [((dst, false), BitVec.ofNat 64 (boolNat q.2))]

/-! ### The context rung (R356) -/

/-- A record of a rung: KIND 0x08. -/
def State.rungRecord (s : State) (p rung recAddr : Nat) : State :=
  (s.sendRecord p 0 { FaultRec.ofKind 0x08 with
    detail := rung
    aux := recAddr
    part := p }).1

/-- The unit code of R358 for the unit that performs a timeline's operations. -/
def unitOfTl (tl : Nat) : Nat := if tl = 8 then 2 else if tl = 9 then 1 else 5

/-- Abandon a block's operations of some timelines (R299, R356). -/
def State.cancelOps (s : State) (k : Nat) (tls : Nat → Bool) : State :=
  (s.block k).cores.foldl (fun s c =>
    (c.2.ops.filter fun o => tls o.tl).foldl (fun s o =>
      s.cancelHead k c.1 o ⟨.engineReset, unitOfTl o.tl, 0, 0, 0⟩) s) s

/-- A grid can no longer complete: its completion word is never written. -/
def State.killGrid (s : State) (p grid tag : Nat) : State :=
  let killed (g : Grid) : Grid :=
    { g with
      dead := true
      returned := g.returned.filter (· != tag)
      leaving := g.leaving.filter (· != tag) }
  s.modPart p fun x => { x with grids := Kv.modify grid killed x.grids }

/-- The launch record address of a block's grid. -/
def State.gridRec (s : State) (b : Block) : Nat :=
  (((b.part.bind s.part).bind fun x => Kv.find b.grid x.grids).map (·.recAddr)).getD 0

/-- What is left of a block whose threads have all ended: nothing runs, nothing waits to start, no context is saved. -/
def BlockCore.cleared (c : BlockCore) : BlockCore :=
  { c with
    regions := []
    sched := []
    tables := []
    sel := []
    tiles := [] }

/-- The context rung on a block (R356): it ends without replay, once its base-die work has ended (R437). DEDUCED, log 46. -/
def State.contextRung (s : State) (k : Nat) : State :=
  match Kv.find k s.blocks with
  | none => s
  | some b =>
    let p := b.part.getD 0
    let recAddr := s.gridRec b
    let s := if b.tag = 0 then s else s.killGrid p b.grid b.tag
    let s := (s.dropEntries k).modBlock k fun b =>
      { b with
        phase := .resident
        threads := [] }
    let s := s.cancelOps k fun tl => tl < 10
    let s := s.modBlock k fun b => { b with cores := b.cores.map fun (c : Nat × BlockCore) => (c.1, { c.2.cleared with ops := [] }) }
    (s.rungRecord p 2 recAddr).endCheck k

/-! ### TRET (R347, R348) -/

/-- What a handle names that is held. -/
inductive HeldTarget where
  | thread (k i : Nat)
  | op (k j : Nat) (op : EngineOp) (e : Exc)
  deriving DecidableEq, Repr

/-- The block of a handle's tag in a partition. -/
def State.handleBlock (s : State) (p h : Nat) : Option Nat :=
  let k := blockKey p (h % 2 ^ 32)
  if h / 2 ^ 49 = 0 ∧ (s.block k).part = some p then some k else none

/-- The held target of a handle (R347, R348). DEDUCED, log 45. -/
def State.heldTarget (s : State) (p h : Nat) : Option HeldTarget :=
  match s.handleBlock p h with
  | none => none
  | some k =>
    let b := s.block k
    let idx := bitsOf h 43 32
    let tl := bitsOf h 47 44
    if bitOf h 48 then
      let j := idx % 4
      let num := if tl = 15 then some (idx / 4) else none
      if (9 < tl ∧ tl < 15) ∨ (if tl = 15 then 64 else 4) ≤ idx then none
      else
        ((b.bc j).ops.find? fun o => o.tl == tl && (num.isNone || num == some o.num) && (match o.stat with
          | .parked _ => true
          | _ => false)).bind fun o =>
            match o.stat with
            | .parked e => some (.op k j o e)
            | _ => none
    else
      match Kv.find idx b.threads with
      | some t => (match t.stat with
          | .faulted _ _ | .trapped _ => some (.thread k idx)
          | _ => none)
      | none => none

/-- A TRET of a thread: what one action does to the handle's held target, and its status. -/
def tretHeld (instr : Instr) (com : Com) (dst a b : Opnd) (act : HeldTarget → DWord → State → State × Nat) : State → Res :=
  eachThreadNoBoot instr (Use.stew com [(a, true), (b, false)] [(dst, false)]) fun g _ l s =>
    let r := match s.heldTarget ((g.part s).getD 0) (l.getD 0 0).toNat with
      | none => (s, 1)
      | some t => act t (l.getD 1 0) s
    .ok (r.1, [((dst, false), BitVec.ofNat 64 r.2)])

/-- A parked operation is tried again, or is cancelled at its next step. -/
def State.setOp (s : State) (k j : Nat) (op : EngineOp) (st : OpStat) : State :=
  s.modBc k j (·.modOp op.tl op.num fun o => { o with stat := st })

/-- A held thread goes on, replaying its instruction first or not. -/
def State.release (s : State) (k i : Nat) (replay : Bool) : State :=
  s.modThread k i fun t => t.resume replay

/-- TRET.rep (R341, R348). -/
def execTretRep (com : Com) (dst a b : Opnd) : State → Res :=
  tretHeld (.tretRep com dst a b) com dst a b fun t v s =>
    match t with
    | .thread k i =>
      match (s.thread k i).stat with
      | .trapped d => ((writeDst s k i true (d, false) v).release k i false, 0)
      | _ => (s.release k i true, 0)
    | .op k j op _ => (s.setOp k j op .queued, 0)

/-- TRET.skip (R348). -/
def execTretSkip (com : Com) (dst a b : Opnd) : State → Res :=
  tretHeld (.tretSkip com dst a b) com dst a b fun t _ s =>
    match t with
    | .thread k i => (s.release k i false, 0)
    | .op _ _ _ _ => (s, 2)

/-- TRET.kill (R348): the thread ends as by EXIT. -/
def execTretKill (com : Com) (dst a b : Opnd) : State → Res :=
  tretHeld (.tretKill com dst a b) com dst a b fun t _ s =>
    match t with
    | .thread k i => (s.endThreads k [i], 0)
    | .op _ _ _ _ => (s, 2)

/-- TRET.can (R348): a resident operation is cancelled at once, a saved one at its restore. -/
def execTretCan (com : Com) (dst a b : Opnd) : State → Res :=
  tretHeld (.tretCan com dst a b) com dst a b fun t _ s =>
    match t with
    | .thread _ _ => (s, 2)
    | .op k j op e =>
      if (s.block k).phase = .saved then (s.setOp k j op (.cancelled e), 0) else (s.cancelHead k j op e, 0)

/-- A TRET that acts on the block of a handle. -/
def tretBlock (instr : Instr) (com : Com) (dst a b : Opnd) (act : Nat → Nat → State → State × Nat) : State → Res :=
  eachThreadNoBoot instr (Use.stew com [(a, true), (b, false)] [(dst, false)]) fun g _ l s =>
    let p := (g.part s).getD 0
    let r := match s.handleBlock p (l.getD 0 0).toNat with
      | none => (s, 1)
      | some k => act p k s
    .ok (r.1, [((dst, false), BitVec.ofNat 64 r.2)])

/-- TRET.killb (R348, R356). -/
def execTretKillb (com : Com) (dst a b : Opnd) : State → Res :=
  tretBlock (.tretKillb com dst a b) com dst a b fun _ k s => (s.contextRung k, 0)

/-- TRET.pre (R348, R351). -/
def execTretPre (com : Com) (dst a b : Opnd) : State → Res :=
  tretBlock (.tretPre com dst a b) com dst a b fun p k s =>
    if (s.block k).phase = .resident then ((s.requestPreempt k).later [.blockQuiesceSave p (s.block k).tag], 0)
    else (s, 1)

/-! ### Operations that hold their group (R346) -/

/-- A group is held for an operation of the package. DESIGN CHOICE, log 69. -/
def holdForOp (g : Grp) (i : Nat) (kind : PkgOpKind) (dst : Opnd) (s : State) : Once :=
  let b := s.block g.block
  let w : Starter := ⟨(g.part s).getD 0, g.block, b.node, b.tag == 0, (b.thread i).bc, s.nextOp, g.priv s, g.pc⟩
  .hold { s with
    ops := Kv.insert s.nextOp ⟨w, kind⟩ s.ops
    nextOp := s.nextOp + 1 } (.op s.nextOp dst)

/-- The destination of a thread held for an operation. -/
def Thread.waitsFor (t : Thread) (num : Nat) : Option Opnd :=
  match t.stat with
  | .held (.op n dst) => if n = num then some dst else none
  | _ => none

/-- The threads held for an operation receive its result and become ready. -/
def State.finishThreads (s : State) (k num : Nat) (v : DWord) : State :=
  ((s.block k).threads.foldl (fun (r : State × Bool) t =>
    match t.2.waitsFor num with
    | some dst => ((writeDst r.1 k t.1 r.2 (dst, false) v).makeReady k t.1, false)
    | none => r) (s, true)).1

/-- An operation is done. -/
def State.finishOp (s : State) (num : Nat) (v : DWord) : State :=
  match Kv.find num s.ops with
  | none => s
  | some o => { s.finishThreads o.starter.block num v with ops := Kv.erase num s.ops }

/-! ### TLBI (R255, R359) -/

/-- The group releases at domain scope, and is held for an operation. -/
def State.holdRelease (s : State) (g : Grp) (i : Nat) (com : Com) (kind : PkgOpKind) : Once :=
  match s.releaseWait (g.actor s i) i true with
  | .error e => .abort e
  | .ok s => holdForOp g i kind .zero (s.releases g.block (g.active com s).length)

/-- TLBI.va (R359). -/
def execTlbiVa (com : Com) (a b : Opnd) : State → Res :=
  onceThreadNoBoot (.tlbiVa com a b) (Use.stew com [(a, true), (b, false)] []) fun g i l s =>
    let va := (l.getD 0 0).toNat
    let n := (l.getD 1 0).toNat
    if va % 4096 ≠ 0 then .stop ⟨.align, 0, 0, va, 0⟩
    else if n = 0 ∨ 2 ^ 52 < va + 4096 * n then .stop ⟨.addrRange, 0, 0, va, 0⟩
    else s.holdRelease g i com (.tlbi va (va + 4096 * n))

/-- TLBI.all (R359). -/
def execTlbiAll (com : Com) : State → Res :=
  onceThreadNoBoot (.tlbiAll com) (Use.stew com [] []) fun g i _ s =>
    s.holdRelease g i com (.tlbi 0 (2 ^ 52))

/-- A TLB entry of a partition overlaps a range of VAs. -/
def TlbEntry.meets (t : TlbEntry) (p lo hi : Nat) : Bool :=
  t.part == p && decide (t.va < hi) && decide (lo < t.va + 2 ^ t.size)

/-- A core without the translations and the fetch blocks of a range. -/
def Core.invalidate (c : Core) (p lo hi : Nat) : Core :=
  { c with
    tlb := c.tlb.filter fun t => !t.meets p lo hi
    ahead := c.ahead.map fun a => (a.1, a.2.filter fun t => !t.meets p lo hi)
    icache := c.icache.filter fun b => !(b.1.1 == some p && decide (b.1.2 < hi) && decide (lo < b.1.2 + 32)) }

/-- The stash pages of a partition whose home lies in a range are written back and keep no line. -/
def State.dropPages (s : State) (p lo hi : Nat) : State :=
  let inside (x : StashPage) : Bool := decide (x.home < hi) && decide (lo < x.home + 4096)
  let mine (b : Nat × Block) : Bool := b.2.part == some p
  let pages := ((s.blocks.filter mine).map fun b => (b.2.cores.map fun c => c.2.stash.filter inside).flatten).flatten
  let s := pages.foldl State.flushPage s
  let drop (x : StashPage) : StashPage := if inside x then { x with lines := [] } else x
  { s with blocks := s.blocks.map fun b => if mine b then (b.1, b.2.mapStash drop) else b }

/-- What the copies of a partition have gathered for addresses of a range is written, through the translations that it was
gathered with (R255). -/
def State.landCells (s : State) (p lo hi : Nat) : State :=
  let inside (c : Nat × (Nat × Byte)) : Bool := decide (lo ≤ c.2.1) && decide (c.2.1 < hi)
  let mine := s.blocks.filter fun b => b.2.part == some p
  let cells := (mine.map fun b => (b.2.cores.map fun c => (c.2.ops.map fun o =>
    (o.cells s b.1 c.1).filter fun x => inside (x.spa, (x.va, x.byte))).flatten).flatten).flatten
  if cells.isEmpty then s
  else
    let keep (o : EngineOp) : EngineOp := { o with held := o.held.filter fun x => !inside x }
    mine.foldl (fun s b => s.modBlock b.1 fun x => { x with cores := x.cores.map fun c => (c.1, { c.2 with ops := c.2.ops.map keep }) })
      (s.writeCells cells)

/-- Every translation of a range of a partition's VAs is forgotten (R255). -/
def State.invalidate (s : State) (p lo hi : Nat) : State :=
  let clean (l : List TlbEntry) : List TlbEntry := l.filter fun t => !t.meets p lo hi
  let s : State := { s with
    cores := s.cores.map fun (c : Nat × Core) => (c.1, c.2.invalidate p lo hi)
    clusterTlbs := s.clusterTlbs.map fun c => (c.1, clean c.2) }
  (s.landCells p lo hi).dropPages p lo hi

/-- Every translation of a partition is forgotten, its lines written back, and the nested TLBs hold nothing of it (R255). -/
def State.invalidateAll (s : State) (p : Nat) : State :=
  let clean (c : Nat × List TlbEntry) : Nat × List TlbEntry := (c.1, c.2.filter fun t => t.part != p)
  { s with nestedTlbs := s.nestedTlbs.map clean }.invalidate p 0 (2 ^ 52)

/-- An access of the partition that has been translated is still to be performed in another package (R255). -/
def State.unperformed (s : State) (p : Nat) : Bool :=
  s.reqs.any fun r => r.2.part == p && r.2.open_ && (r.2.post.isSome || r.2.ask.any fun a => decide (2 ^ 60 ≤ a))

/-- A run or a program of the partition still holds a translation of the range (R434, R435). -/
def Partition.holdsPage (x : Partition) (runs : List NbRun) (lo hi : Nat) : Bool :=
  let inside (va : Nat) : Bool := decide (va < hi) && decide (lo < va + 4096)
  (runs.any fun r => r.pages.any fun g => inside g.1) || x.progs.any fun q => q.2.pages.any fun g => inside g.1

/-- The runs of a partition, queued and running. -/
def State.runsOf (s : State) (p : Nat) : List NbRun :=
  ((s.dies.map fun d => (d.2.units.map fun u => u.2.queue ++ (u.2.cur.map (·.run)).toList).flatten).flatten).filter
    fun r => r.starter.part == p

/-- Something of a partition still acts through translations of a range. -/
def State.actsThrough (s : State) (p lo hi : Nat) : Bool :=
  s.unperformed p || ((s.part p).map fun x => x.holdsPage (s.runsOf p) lo hi).getD false

/-- TLBI_COMPLETE (R255). -/
def execTlbiComplete (op : Nat) (s : State) : Res :=
  match Kv.find op s.ops with
  | some ⟨w, .tlbi lo hi⟩ =>
    let s := s.invalidate w.part lo hi
    .next (if s.actsThrough w.part lo hi then s else s.finishOp op 0)
  | _ => .next s

/-! ### SCRUB (R360) -/

/-- The frames of a range, by GPA. -/
def framesOf (start n : Nat) : List Nat := (List.range n).map fun k => start + 4096 * k

/-- SCRUB (R360): its checks. -/
def execScrub (com : Com) (rel : Bool) (dst a b : Opnd) : State → Res :=
  onceThreadNoBoot (.scrub com rel dst a b) (Use.stew com [(a, true), (b, false)] [(dst, false)]) fun g i l s =>
    let gpa := (l.getD 0 0).toNat
    let n := (l.getD 1 0).toNat
    if gpa % 4096 ≠ 0 then .stop ⟨.align, 0, 0, gpa, 0⟩
    else if n = 0 ∨ 0x100000 < n ∨ 2 ^ 52 < gpa + 4096 * n then .stop ⟨.addrRange, 0, 0, gpa, 0⟩
    else
      match (s.part ((g.part s).getD 0)) with
      | none => .stop (Exc.of .pageFault)
      | some x =>
        match (framesOf gpa n).findSome? fun f => (match stage2 x f with
          | .error e => some e
          | .ok _ => none) with
        | some e => .stop ((⟨2, true, e.level, e.gpa⟩ : XErr).exc .store 0)
        | none => holdForOp g i (.scrub rel gpa n) dst s

/-- A large stage-2 page is divided into the pages of the next level. -/
def splitLeaf (l gpa : Nat) (s2 : List (Nat × DWord)) : List (Nat × DWord) :=
  let e := Kv.get 0 (s2Key l gpa) s2
  let sh := levelShift (l + 1)
  let base := gpa / 2 ^ levelShift l * 2 ^ levelShift l
  let s2 := Kv.insert (s2Key l gpa) 1 s2
  (List.range 512).foldl (fun m k => Kv.insert (s2Key (l + 1) (base + k * 2 ^ sh)) (e + BitVec.ofNat 64 (k * 2 ^ sh)) m) s2

/-- The stage-2 entry of one frame is removed: larger pages are divided first, and its 64 KiB group is one no longer. -/
def unmapFrame (gpa : Nat) : Nat → Nat → List (Nat × DWord) → List (Nat × DWord)
  | _, 0, s2 => s2
  | l, fuel + 1, s2 =>
    let e := (Kv.get 0 (s2Key l gpa) s2).toNat
    if !pteV e then s2
    else if l = 4 then
      let first := s2Key 4 gpa / 16 * 16
      let ungroup (m : List (Nat × DWord)) (k : Nat) : List (Nat × DWord) :=
        Kv.modify (first + k) (fun e => e &&& ~~~(BitVec.ofNat 64 (2 ^ 11))) m
      Kv.erase (s2Key 4 gpa) (if pteC64 e then (List.range 16).foldl ungroup s2 else s2)
    else unmapFrame gpa (l + 1) fuel (if pteLeaf e then splitLeaf l gpa s2 else s2)

/-- A frame reads as zeros with valid check bits, and no copy of it is left anywhere (R242, R360). -/
def State.zeroFrame (s : State) (spa : Nat) : State :=
  if s.target spa = .remote then
    (List.range 64).foldl (fun s n =>
      s.writeRemote (spa / 64 + n) (mkCells (ringActor 0 0) 0 false (spa + 64 * n) 0 0 64)) s
  else
    let inside (a : Nat) : Bool := decide (spa ≤ a) && decide (a < spa + 4096)
    let drop (x : StashPage) : StashPage := { x with lines := x.lines.filter fun l => !inside l.2.spa }
    let s := s.wakeStack (s.homeStack spa)
    let s : State :=
      { s with
        blocks := s.blocks.map fun (b : Nat × Block) => (b.1, b.2.mapStash drop)
        mem := s.mem.filter fun c => !inside c.1
        ecc := s.ecc.filter fun c => !inside c.1 }
    (List.range 64).foldl (fun s n => s.probeHolders 0 (spa / 64 + n)) s

/-- The first addresses of the present frames of a range. -/
def State.framesAt (s : State) (p : Nat) (gpas : List Nat) : List Nat :=
  match s.part p with
  | none => []
  | some x => gpas.filterMap fun f => (stage2 x f).toOption.map Prod.snd

/-- The mappings of frames are removed, with every translation derived from them. -/
def State.unmapFrames (s : State) (p : Nat) (gpas : List Nat) : State :=
  (s.modPart p fun x => { x with s2 := gpas.foldl (fun m f => unmapFrame f 0 5 m) x.s2 }).invalidateAll p

/-- A zero-fill of frames has not reached every holder of a line, or every home, yet. -/
def State.framesSettling (s : State) (l : List Nat) : Bool :=
  let inside (a : Nat) : Bool := l.any fun f => a / 4096 == f / 4096
  (s.reqs.any fun r => (r.2.probe.any fun x => inside (x.1 * 64)) || (r.2.core == 0x210 && r.2.post.isSome && inside r.2.addr)) ||
    s.dies.any fun d => d.2.todo.any fun x => inside (x.1 * 64)

/-- The rest of a SCRUB, from step 2 on: it waits until nothing acts through the removed mappings, fills the frames, and is
done when no agent can read the old bytes. -/
def State.scrubOn (s : State) (op : Nat) (w : Starter) (rel zeroed : Bool) (l : List Nat) : State :=
  let stay (s : State) (z : Bool) : State := { s with ops := Kv.insert op ⟨w, .scrubbing l z⟩ s.ops }
  if !zeroed && rel && s.actsThrough w.part 0 (2 ^ 52) then stay s false
  else
    let s := if zeroed then s else l.foldl State.zeroFrame s
    if s.framesSettling l then stay s true
    else
      let v := ((s.part w.part).map (·.scrubSeq)).getD 0 + 1
      (s.modPart w.part fun x => { x with scrubSeq := v }).finishOp op (BitVec.ofNat 64 v)

/-- SCRUB_COMPLETE (R360). DESIGN CHOICE, log 47. -/
def execScrubComplete (op : Nat) (s : State) : Res :=
  match Kv.find op s.ops with
  | some ⟨w, .scrub rel start n⟩ =>
    let l := s.framesAt w.part (framesOf start n)
    let s := if rel then s.unmapFrames w.part (framesOf start n) else s
    .next (s.scrubOn op w rel false l)
  | some ⟨w, .scrubbing l z⟩ => .next (s.scrubOn op w true z l)
  | _ => .next s

/-! ### A lost compute die (R287, R343, R361) -/

/-- A block stands on a die that is lost, on its lost cores. -/
def Block.lostOn (b : Block) (die : Nat) : Bool :=
  b.cores.any fun c => decide (lostCore (48 * die) ≤ c.2.core) && decide (c.2.core < lostCore (48 * die + 48))

/-- A core of a block, where its die is lost. -/
def BlockCore.lose (c : BlockCore) (die : Nat) : BlockCore :=
  if c.core / 48 = die ∧ c.core < 384 then { c with core := lostCore c.core } else c

/-- The granules of a modified stash line of a lost die are marked poisoned, and one record is sent for the line (R287). -/
def State.loseLine (s : State) (k core : Nat) (l : StashLine) : State :=
  let gs := distinct ((List.range 64).map fun n => s.granuleOf (l.spa + n))
  let s := gs.foldl State.markPoison s
  match gs with
  | [] => s
  | gr :: _ => s.sendBlockRecord k (((FaultRec.ofKind 0x02).withExc (poisonExc s gr 0)).atCore (s.block k) core)

/-- The stash lines of a core of a block are lost with its die. -/
def State.loseStash (s : State) (k j : Nat) : State :=
  let c := (s.block k).bc j
  let lines := (c.stash.map fun p => (p.lines.filter fun l => l.2.st == .modified).map fun l => l.2).flatten
  (lines.foldl (fun s l => s.loseLine k c.core l) s).modBc k j (·.mapStash fun p => { p with lines := [] })

/-- COMPUTE_DIE_LOST (R287, R343): what the die's stashes held modified is poisoned at home, its cores perform nothing more,
and every partition with blocks on it is told. DESIGN CHOICE, log 47. -/
def execComputeDieLost (die : Nat) (s : State) : Res :=
  if 8 ≤ die ∨ s.harbour.lostDies.contains die then .next s
  else
    let cores := (List.range 48).map fun c => 48 * die + c
    let s := s.blocks.foldl (fun s b => (b.2.cores.filter fun c => cores.contains c.2.core).foldl
      (fun s c => s.loseStash b.1 c.1) s) s
    let on := s.parts.filter fun p => s.blocks.any fun b =>
      b.2.part == some p.1 && b.2.cores.any fun c => c.2.core / 48 == die && decide (c.2.core < 384)
    let lose (b : Nat × Block) : Nat × Block :=
      (b.1, { b.2 with cores := b.2.cores.map fun (c : Nat × BlockCore) => (c.1, c.2.lose die) })
    let s : State :=
      { s with
        cores := s.cores.filter fun c => !cores.contains c.1
        blocks := (s.blocks.filter fun b => !(cores.map bootKey).contains b.1).map lose
        absent := { s.absent with noCores := distinct (s.absent.noCores ++ cores) }
        harbour := { s.harbour with lostDies := s.harbour.lostDies ++ [die] }
        focus := .none }
    .next (on.foldl (fun s p => (s.sendRecord p.1 0 { FaultRec.ofKind 0x09 with
      die := die
      part := p.1 }).1) s)

/-- HARVEST (R361). -/
def execHarvest (com : Com) (dst a : Opnd) : State → Res :=
  onceThreadNoBoot (.harvest com dst a) (Use.stew com [(a, false)] [(dst, false)]) fun g i l s =>
    let die := (l.getD 0 0).toNat
    if 7 < die ∨ !s.harbour.lostDies.contains die then .done s [((dst, false), 0xFFFFFFFF)]
    else holdForOp g i (.harvest die) dst s

/-- A block of a lost die is ended: its grid will not complete. -/
def State.harvestBlock (s : State) (k : Nat) : State :=
  let b := s.block k
  (s.killGrid (b.part.getD 0) b.grid b.tag).endBlock k

/-- A write or an atomic of a core of a die is still to be performed in another package. -/
def State.dieUnperformed (s : State) (die : Nat) : Bool :=
  s.reqs.any fun r => r.2.core / 48 == die && decide (r.2.core < 384) && r.2.open_ &&
    (r.2.post.isSome || r.2.ask.any fun a => decide (2 ^ 60 ≤ a))

/-- HARVEST_COMPLETE (R287, R361). -/
def execHarvestComplete (op : Nat) (s : State) : Res :=
  match Kv.find op s.ops with
  | some ⟨w, .harvest die⟩ =>
    if s.dieUnperformed die then .next s
    else
    let l := s.blocks.filter fun b => b.2.part == some w.part && b.2.tag != 0 && b.2.lostOn die
    let grids := distinct (l.map fun b => s.gridRec b.2)
    let s := l.foldl (fun s b => s.harvestBlock b.1) s
    let s := grids.foldl (fun s a => (s.sendRecord w.part 0 { FaultRec.ofKind 0x0A with
      aux := a
      die := die
      part := w.part }).1) s
    .next (s.finishOp op (BitVec.ofNat 64 l.length))
  | _ => .next s

end Sys2Proof.Machine
end

