-- ==== Sys2Proof/Machine/NearBank.lean ====
section
/-! DEFINITION. Near-bank units: images, runs, row steps and micro-operations (R418 to R426, R432 to R434, R437, R438), with
the progress of collective programs that runs share (R428 to R431). -/

namespace Sys2Proof.Machine

/-! ### What base-die work shares (R432, R438) -/

/-- The work that an instruction's group starts, under a number. -/
def Starter.ofGrp (s : State) (g : Grp) (i num : Nat) : Starter :=
  let b := s.block g.block
  ⟨(g.part s).getD 0, g.block, b.node, b.tag == 0, (b.thread i).bc, num, g.priv s, g.pc⟩

/-- The record of base-die work. -/
def Starter.record (w : Starter) (s : State) (kind tln : Nat) : FaultRec :=
  let core := ((s.block w.block).bc w.core).core
  { FaultRec.ofKind kind with
    part := w.part
    node := w.node
    tag := if w.steward then 0 else w.block
    die := if core < 384 then core / 48 else 0
    core := if core < 384 then core % 48 else 0
    tidx := w.core
    tln := tln
    opnum := w.num
    pc := w.pc }

/-- It goes to the fault domain of the node, a steward's to the event queue. -/
def Starter.send (w : Starter) (s : State) (r : FaultRec) : State :=
  let ring := if w.steward then 0 else
    match s.part w.part with
    | some x => ringOfNode x.nodes 32 w.node
    | none => 0
  (s.sendRecord w.part ring r).1

/-- The base die of a stack as the agent of an access, which the race watch does not check. DESIGN CHOICE, log 27. -/
def dieActor (s : State) (w : Starter) (stk : Nat) : Actor := ⟨w.block, 0x200 + stk, 256 + w.num, { w.record s 0x02 11 with src := 0x200 + stk }⟩

/-- A translation for base-die work: by the starting thread's privilege, outside the scratch window. -/
def Starter.translate (w : Starter) (s : State) (a : Access) (va : Nat) : Except Stop Xlat :=
  if va / 2 ^ 33 * 2 ^ 33 = scratchWindow then .error (rangeExc va) else s.walk w.part w.priv a va

/-- A fault of base-die work (R438). -/
def dieExc (code : Nat) : Exc := Exc.of (.baseDie code)
def nbFormat : Exc := dieExc 0x30
def nbRange : Exc := dieExc 0x31
def nbSpace : Exc := dieExc 0x32
def collJob : Exc := dieExc 0x33

/-- The numbers on timeline 10 or 11 of a starter's block and core that have not completed. -/
def State.outstanding (s : State) (w : Starter) (tl : Nat) : List Nat :=
  match s.part w.part with
  | none => []
  | some x =>
    let all := if tl = 10 then x.progs.map fun q => q.2.starter
      else x.nbLoads.map (·.starter) ++ ((s.runsOf w.part).filter (·.leg.isNone)).map (·.starter) ++
        (x.ends.filter (·.leg.isNone)).map (·.starter)
    (all.filter fun y => y.block == w.block && y.core == w.core).map (·.num)

/-- An operation of timeline 10 or 11 is over: the completed count is the highest number up to which every operation has
completed (R298). -/
def State.doneBase (s : State) (w : Starter) (tl : Nat) : State :=
  let t := ((s.block w.block).bc w.core).tl tl
  let n := match ((s.outstanding w tl).map fun n => (n + 2 ^ 32 - t.completed) % 2 ^ 32).min? with
    | some d => (t.completed + d + 2 ^ 32 - 1) % 2 ^ 32
    | none => t.issued
  ((s.modBc w.block w.core (·.setTl tl { t with completed := n })).wakeTl w.block).endCheck w.block

/-- It is the turn of an operation of timeline 11: the one before it has completed (R434). -/
def State.turnOf11 (s : State) (w : Starter) : Bool :=
  match Kv.find w.block s.blocks with
  | none => true
  | some b => (((b.bc w.core).tl 11).completed + 1) % 2 ^ 32 == w.num

/-- A unit number over the package is 64 × stack + pseudo-channel. -/
def State.unit (s : State) (n : Nat) : NbUnit := Kv.get NbUnit.reset (n % 64) (s.die (n / 64)).units
def State.putUnit (s : State) (n : Nat) (u : NbUnit) : State :=
  s.modDie (n / 64) fun d => { d with units := Kv.set NbUnit.reset (n % 64) u d.units }

/-- A write of base-die work to the status block, by the translations held (R426). -/
def State.statusWrite (s : State) (a : Actor) (spa va v n : Nat) : State :=
  if s.target spa = .control then
    match ctlWrite s a spa va v n with
    | .ok s => s
    | .error _ => s
  else s.writeCells (mkCells a (s.block a.block).relCount false spa va v n)

/-- A base die may write at a place now: its line has no probe outstanding, nor has the base die a strict packet (R377,
R381). -/
def State.dieMayWrite (s : State) (stk spa n : Nat) : Bool :=
  match s.target spa with
  | .dram => !(linesOf spa n).any s.probing
  | .remote => !s.sourceBusy (0x200 + stk) false
  | _ => true

/-- A write of some base-die work is not acknowledged yet. -/
def State.diePosting (s : State) (w : Starter) : Bool :=
  s.reqs.any fun r => decide (0x200 ≤ r.2.core) && decide (r.2.core < 0x210) && r.2.entry == 256 + w.num &&
    r.2.post.any fun x => x.1 == w.block

/-! ### The progress of a collective program (R426, R429, R431) -/

/-- Change a program of a partition. -/
def State.modProg (s : State) (p n : Nat) (f : CollProg → CollProg) : State :=
  s.modPart p fun x => { x with progs := Kv.modify n f x.progs }
def State.prog (s : State) (p n : Nat) : Option CollProg := (s.part p).bind fun x => Kv.find n x.progs

/-- A program fails with a CODE and a LEG, and ends. -/
def State.failProg (s : State) (p n code leg : Nat) : State :=
  match s.prog p n with
  | none => s
  | some q =>
    if q.fail.isSome then s
    else (s.modProg p n fun q => { q with fail := some (code, leg) }).later [.collProgramComplete p n]

/-- Change a leg of a program. -/
def CollProg.modLeg (q : CollProg) (k : Nat) (f : Leg → Leg) : CollProg :=
  { q with legs := q.legs.zipIdx.map fun x => if x.2 = k then f x.1 else x.1 }

/-- The legs that may start once leg `k` has completed. -/
def CollProg.followers (q : CollProg) (k : Nat) : List Nat :=
  (q.legs.zipIdx.filter fun x => x.1.after == k && !x.1.started).map (·.2)

/-- A leg has completed: the legs after it start, and the program completes with its last. -/
def State.legDone (s : State) (p n k : Nat) : State :=
  let done (l : Leg) : Leg :=
    { l with
      started := true
      done := true }
  let s := s.modProg p n fun q => q.modLeg k done
  match s.prog p n with
  | none => s
  | some q =>
    if q.fail.isSome then s
    else if q.legs.all (·.done) then s.later [.collProgramComplete p n]
    else s.later ((q.followers k).map fun j => .collLegStart p n j)

/-! ### The end of a run (R418, R426, R437) -/

/-- What ends goes as far as it can: the status word is written, and the work is over once every write has been performed.
True where it is. -/
def State.tryEnd (s : State) (x : BaseEnd) : State × BaseEnd × Bool :=
  if s.diePosting x.starter then (s, x, false)
  else
    match x.word with
    | none => (s, x, true)
    | some (spa, va, v) =>
      if !s.dieMayWrite x.stk spa 8 then (s, x, false)
      else
        let s := s.statusWrite (dieActor s x.starter x.stk) spa va v 8
        (s, { x with word := none }, !s.diePosting x.starter)

/-- The work is over: its timeline or its program goes on. -/
def State.endOver (s : State) (x : BaseEnd) : State :=
  match x.leg with
  | none => s.doneBase x.starter 11
  | some (n, k) =>
    if x.code = 0 then s.legDone x.starter.part n k else s.failProg x.starter.part n x.code (if x.code = 6 then 0 else k)

/-- Work ends at once, or when its writes have been performed. `record` sends what is to be told of its end. -/
def State.beginEnd (s : State) (x : BaseEnd) (record : State → State) : State :=
  match s.tryEnd x with
  | (s, x, true) => (record s).endOver x
  | (s, x, false) => (record s).modPart x.starter.part fun y => { y with ends := y.ends ++ [x] }

/-- The ends that wait for writes are looked at again. -/
def State.landEnd (p : Nat) (s : State) (x : BaseEnd) : State :=
  match s.tryEnd x with
  | (s, _, true) => (s.modPart p fun y => { y with ends := y.ends.erase x }).endOver x
  | (s, x', false) => s.modPart p fun y => { y with ends := y.ends.map fun z => if z = x then x' else z }
def State.landEnds (s : State) : State := s.parts.foldl (fun s p => p.2.ends.foldl (State.landEnd p.1) s) s

/-- A run ends with a CODE: its status word is written, its record sent, and its timeline or its leg goes on. -/
def State.endRun (s : State) (run : NbRun) (count code leg : Nat) : State :=
  let w := run.starter
  let word := code + 2 ^ 8 * leg + 2 ^ 32 * count
  s.beginEnd ⟨w, run.stk, run.status.head?.map fun spa => (spa, (run.statusa, word)), run.leg, code⟩ fun s =>
    if code = 0 then s
    else w.send s { w.record s 0x12 (if run.leg.isNone then 11 else 0) with
      cls := 0x34
      opnum := if run.leg.isNone then w.num else 0
      detail := word % 2 ^ 16
      aux := run.statusa
      src := 0x200 + run.stk }

/-- The running run of a unit ends. -/
def State.endCur (s : State) (unit : Nat) (u : NbCur) (code leg : Nat) : State :=
  (s.putUnit unit { s.unit unit with cur := none }).endRun u.run u.r code leg

/-- The reset rungs and mooring stop runs (R437): those of a unit that a test names, queued and running. -/
def State.stopRuns (s : State) (unit : Nat) (which : NbRun → Bool) : State :=
  let x := s.unit unit
  let s := s.putUnit unit { x with queue := x.queue.filter fun r => !which r }
  let s := match x.cur with
    | some u => if which u.run then s.endCur unit u 6 0 else s
    | none => s
  (x.queue.filter which).foldl (fun s r => s.endRun r 0 6 0) s

/-- Every unit of the package with work. -/
def State.unitsInUse (s : State) : List Nat := (s.dies.map fun d => d.2.units.map fun u => 64 * d.1 + u.1).flatten

/-! ### Images (R423, R433) -/

/-- The cost of a micro-operation (R419). -/
def nbCost (w : Nat) : Nat :=
  match bitsOf w 31 28 with
  | 0x1 | 0x2 | 0xB => 2
  | 0xA => 3
  | _ => 1

/-- The work of a program (R419). -/
def nbWork (ops : List Nat) : Nat := (ops.map fun w => if bitsOf w 14 13 = 0 then 32 * nbCost w else nbCost w).sum

/-- The first check of R423 that an image fails, or 0. -/
def nbReason (hdr : Nat) (ops : List Nat) : Nat :=
  if bitsOf hdr 127 64 ≠ 0 ∨ bitsOf hdr 31 6 ≠ 0 then 1
  else if ops.any fun w => !(decodeNb w).isOk then 2
  else if 640 < nbWork ops then 3 else 0

/-- The words of a number of `n` words. -/
def wordsOf (x : Nat) : Nat → List Nat
  | 0 => []
  | n + 1 => x % 2 ^ 32 :: wordsOf (x / 2 ^ 32) n

/-- Read `n` bytes, a multiple of 16, for base-die work, in pieces of 16. -/
def dieRead (s : State) (w : Starter) (a : Actor) (va : Nat) : Nat → Except Stop (Nat × State)
  | 0 => .ok (0, s)
  | n + 1 =>
    match dieRead s w a va n with
    | .error e => .error e
    | .ok (v, s) =>
      match w.translate s .load (va + 16 * n) with
      | .error e => .error e
      | .ok x => (physRead s a x.spa 16 (va + 16 * n)).map fun r => (v + r.1 * 2 ^ (128 * n), r.2)

/-- Read an image: its header and its words. -/
def readNbImage (s : State) (w : Starter) (a : Actor) (va : Nat) : Except Stop (Nat × List Nat × State) :=
  match dieRead s w a va 1 with
  | .error e => .error e
  | .ok (h, s) =>
    let n := h % 64 + 1
    (dieRead s w a (va + 16) ((n + 3) / 4)).map fun r => (h, wordsOf r.1 n, r.2)

/-- The present stacks. -/
def State.stackList (s : State) : List Nat := (List.range 16).filter fun k => !s.absent.noStacks.contains k

/-- A program slot of a partition on a stack. -/
def nbSlotKey (stk slot : Nat) : Nat := 16 * stk + slot

/-- The physical slots in use on a die (R433): those of filled slots and of loads into empty ones. -/
def State.nbUsed (s : State) (stk : Nat) : Nat :=
  (s.parts.map fun p =>
    (distinct (((Kv.keys p.2.nbSlots).filter fun k => k / 16 == stk) ++
      ((p.2.nbLoads.filter fun o => o.stks.contains stk).map fun o => nbSlotKey stk o.slot))).length).sum

/-- The slot already holds a physical slot of the die. -/
def Partition.nbHolds (x : Partition) (stk slot : Nat) : Bool :=
  (Kv.find (nbSlotKey stk slot) x.nbSlots).isSome || x.nbLoads.any fun o => o.stks.contains stk && o.slot == slot

/-- NB.LOAD (R433). -/
def execNbLoad (com : Com) (all : Bool) (dst a b c : Opnd) : State → Res :=
  onceThreadNoBoot (.nbLoad com all dst a b c)
    (Use.plain com [(a, true), (b, false), (c, false)] [(dst, false)]) fun g i l s =>
      let va := (l.getD 0 0).toNat
      let stk := (l.getD 1 0).toNat
      let slot := (l.getD 2 0).toNat
      let stks := if all then s.stackList else [stk]
      if va % 16 ≠ 0 then .stop ⟨.align, 0, 0, va, 0⟩
      else if (!all && !s.stackList.contains stk) || decide (15 < slot) then .stop nbRange
      else
        match s.part ((g.part s).getD 0) with
        | none => .stop nbRange
        | some x =>
          if stks.any fun k => !x.nbHolds k slot && decide (64 ≤ s.nbUsed k) then .stop nbSpace
          else
            let r := s.takeNum g.block (s.thread g.block i).bc 11
            let w := Starter.ofGrp s g i r.1
            .done (r.2.modPart w.part fun x => { x with nbLoads := x.nbLoads ++ [⟨w, stks, slot, va⟩] })
              [((dst, false), BitVec.ofNat 64 r.1)]

/-- A stack of a load is filled; with its last the load completes. -/
def State.nbFilled (s : State) (part stk : Nat) (o : NbLoadOp) (v : NbSlot) : State :=
  let rest := o.stks.filter (· != stk)
  let step (x : NbLoadOp) : List NbLoadOp :=
    if x = o then (if rest.isEmpty then [] else [{ x with stks := rest }]) else [x]
  let s := (s.taken (0x200 + stk) (256 + o.starter.num)).modPart part fun x =>
    { x with
      nbSlots := Kv.insert (nbSlotKey stk o.slot) v x.nbSlots
      nbLoads := (x.nbLoads.map step).flatten }
  if rest.isEmpty then s.doneBase o.starter 11 else s

/-- NB_IMAGE_LOAD_COMPLETE (R433): the oldest load of a slot on a stack whose turn has come. -/
def execNbImageLoadComplete (part stack slot : Nat) (s : State) : Res :=
  match (s.part part).bind fun x => x.nbLoads.find? fun o =>
      o.slot == slot && o.stks.contains stack && s.turnOf11 o.starter with
  | none => .next s
  | some o =>
    match readNbImage s o.starter (dieActor s o.starter stack) o.img with
    | .ok (h, ops, s) =>
      let r := nbReason h ops
      .next (s.nbFilled part stack o (if r = 0 then .valid (bitsOf h 63 32) ops else .invalid r))
    | .error (.exc e) =>
      let s := if e.cls = .poison then s.markRead e.aux else s
      .next (s.nbFilled part stack o (.invalid 4))
    | .error (.halt _) => .next (s.nbFilled part stack o (.invalid 4))
    | .error (.miss a p) => .next (s.request (0x200 + stack) (256 + o.starter.num) a p)
    | .error .wait => .next s

/-! ### Starting a run (R425, R434) -/

/-- The fields of a run descriptor (R425). -/
def descBad (x : Nat) : Bool :=
  let sa := bitsOf x 63 0
  bitsOf x 511 488 != 0 || bitsOf x 471 466 != 0 || sa % 32 != 0 || decide (2 ^ 52 ≤ sa)
def descStreams (x : Nat) : Nat := bitsOf x 465 464 + 1
def descStart (x off k : Nat) : Nat := (bitsOf x (127 + 64 * k) (64 + 64 * k) + off) % 2 ^ 64
def descStride (x k : Nat) : Nat := bitsOf x (475 + 4 * k) (472 + 4 * k)
def descRows (x : Nat) : Nat := bitsOf x 459 448 + 1

/-- The rows of one stream, translated in order: first SPAs, whether all grant write, and the pages. -/
def streamRows (s : State) (w : Starter) (va step : Nat) : Nat → Except Stop (List Nat × Bool × List (Nat × Nat))
  | 0 => .ok ([], true, [])
  | n + 1 =>
    match streamRows s w va step n with
    | .error e => .error e
    | .ok (l, wr, pg) =>
      let a := va + n * step
      (w.translate s .load a).map fun x => (l ++ [x.spa], wr && x.page.write, pg ++ [(a / 4096 * 4096, x.spa / 4096 * 4096)])

/-- The bytes of a row of the region at an address. -/
def State.rowBytes (s : State) (spa : Nat) : Nat :=
  if s.target spa == .dram && regionDove (s.region (spaLocal spa)) then 2048 else 1024

/-- Every stream of a descriptor. -/
def allStreams (s : State) (w : Starter) (x off : Nat) : Nat → Except Stop (List (List Nat × Bool × List (Nat × Nat)))
  | 0 => .ok []
  | k + 1 =>
    match allStreams s w x off k with
    | .error e => .error e
    | .ok l =>
      let va := descStart x off k
      match w.translate s .load va with
      | .error e => .error e
      | .ok p => (streamRows s w va (descStride x k * s.rowBytes p.spa) (descRows x)).map fun r => l ++ [r]

/-- The five pieces of a status block. -/
def statusPieces (s : State) (w : Starter) (va : Nat) : Nat → Except Stop (List Nat × List (Nat × Nat))
  | 0 => .ok ([], [])
  | n + 1 =>
    match statusPieces s w va n with
    | .error e => .error e
    | .ok (l, pg) =>
      let a := va + 32 * n
      (w.translate s .store a).map fun x => (l ++ [x.spa], pg ++ [(a / 4096 * 4096, x.spa / 4096 * 4096)])

/-- The unit that a row lies in: its region and the first pseudo-channel, for a row of a bank-mode region (R370). -/
def State.rowUnit (s : State) (spa : Nat) : Option (Nat × Nat × Nat) :=
  let lpa := spaLocal spa
  let e := s.region lpa
  if s.target spa = .dram ∧ regionMode e = 2 then
    let d := s.dramAt lpa
    some (lpa / 2 ^ 30, d.stack, if regionDove e then d.pch / 2 * 2 else d.pch)
  else none

/-- The checks of R434 from the offset on, and the run. -/
def prepareRun (s : State) (w : Starter) (x off : Nat) (k0 : Option Word) (leg : Option (Nat × Nat)) : Except Stop NbRun :=
  let n := descStreams x
  let starts := (List.range n).map (descStart x off)
  if off % 1024 ≠ 0 ∨ starts.any fun a => a % 1024 != 0 then .error (.exc nbRange)
  else
    match allStreams s w x off n with
    | .error e => .error e
    | .ok l =>
      let sa := bitsOf x 63 0
      match statusPieces s w sa (if sa = 0 then 0 else 5) with
      | .error e => .error e
      | .ok (st, pg) =>
        let rows := l.map (·.1)
        let size := s.rowBytes ((rows.headD []).headD 0)
        match distinct (rows.flatten.map fun a => match s.rowUnit a with
          | some u => 1 + u.2.2 + 64 * u.2.1 + 1024 * u.1
          | none => 0) with
        | [u] =>
          if u = 0 ∨ off % size ≠ 0 ∨ starts.any fun a => a % size != 0 then .error (.exc nbRange)
          else
            let ks := (List.range 4).map fun k => BitVec.ofNat 32 (bitsOf x (351 + 32 * k) (320 + 32 * k))
            .ok {
              starter := w
              stk := (u - 1) / 64 % 16
              unit := (u - 1) % 64
              dove := size == 2048
              nrow := descRows x
              rows := rows
              wr := l.map (·.2.1)
              ks := match k0 with
                | some k => k :: ks.drop 1
                | none => ks
              pslot := bitsOf x 463 460
              statusa := sa
              status := st
              leg := leg
              pages := pg ++ (l.map (·.2.2)).flatten }
        | _ => .error (.exc nbRange)

/-- A run waits in its unit's queue. -/
def State.queueRun (s : State) (r : NbRun) : State :=
  let n := 64 * r.stk + r.unit
  let u := s.unit n
  s.putUnit n { u with queue := u.queue ++ [r] }

/-- NB.RUN (R434). -/
def execNbRun (com : Com) (dst a b c : Opnd) : State → Res :=
  onceThreadNoBoot (.nbRun com dst a b c)
    (Use.plain com [(a, true), (b, false), (c, false)] [(dst, false)]) fun g i l s =>
      let va := (l.getD 0 0).toNat
      if va % 64 ≠ 0 then .stop ⟨.align, 0, 0, va, 0⟩
      else
        match readGlobal s g i va 64 with
        | .error (.exc e) => .stop e
        | .error e => .abort e
        | .ok (x, s) =>
          if descBad x then .stop nbFormat
          else
            let j := (s.thread g.block i).bc
            let r := s.takeNum g.block j 11
            let k0 := if c = .special 0 then none else some ((l.getD 2 0).setWidth 32)
            match prepareRun s (Starter.ofGrp s g i r.1) x (l.getD 1 0).toNat k0 none with
            | .error (.exc e) => .stop e
            | .error e => .abort e
            | .ok run =>
              match r.2.issueRelease g i com with
              | .error e => .abort e
              | .ok s => .done (s.queueRun run) [((dst, false), BitVec.ofNat 64 r.1)]

/-- The unit, or a unit of the pair, is executing a run (R420). -/
def State.unitBusy (s : State) (unit : Nat) (dove : Bool) : Bool :=
  (s.unit unit).cur.isSome || (dove && (s.unit (unit + 1)).cur.isSome) ||
    (unit % 2 == 1 && (((s.unit (unit - 1)).cur.map (·.run.dove)).getD false))

/-- The CODE with which a program cannot run, or 0 (R426, R434). DEDUCED, log 48. -/
def NbRun.startCode (r : NbRun) (ops : List Nat) : Nat :=
  let op (w : Nat) : Nat := bitsOf w 31 28
  let stream (w : Nat) : Nat := bitsOf w 16 15
  if ops.any fun w => ((op w == 1 || op w == 2) && decide (r.rows.length ≤ stream w)) ||
      (op w == 0xB && (r.dove || r.statusa == 0)) then 2
  else if ops.any fun w => op w == 2 && !(r.wr.getD (stream w) false) then 8
  else 0

/-- NB_RUN_START (R418, R434): the first run of the unit's queue whose turn has come. -/
def execNbRunStart (unit : Nat) (s : State) : Res :=
  let x := s.unit unit
  match x.queue.find? fun r => r.leg.isSome || s.turnOf11 r.starter with
  | none => .next s
  | some r =>
    if s.unitBusy unit r.dove then .next s
    else
      let s := s.putUnit unit { x with queue := x.queue.erase r }
      match (s.part r.starter.part).bind fun p => Kv.find (nbSlotKey r.stk r.pslot) p.nbSlots with
      | none => .next (s.endRun r 0 1 0)
      | some (.invalid n) => .next (s.endRun r 0 1 n)
      | some (.valid _ ops) =>
        let code := r.startCode ops
        if code ≠ 0 then .next (s.endRun r 0 code 0)
        else
          .next (s.putUnit unit { s.unit unit with cur := some ⟨r, ops, [], 0, 0, 0, none⟩ })

/-! ### Micro-operations (R419 to R422) -/

/-- An accumulator of one unit of the pair, as a 256-bit number. -/
def NbCur.get (u : NbCur) (h : Nat) (a : Fin 4) : Nat := leRead (fun b => Kv.get 0 b u.acc) (128 * h + 32 * a.val) 32
def NbCur.put (u : NbCur) (h : Nat) (a : Fin 4) (v : Nat) : NbCur :=
  { u with acc := (leCells (128 * h + 32 * a.val) v 32).foldl (fun m c => Kv.set 0 c.1 c.2 m) u.acc }

/-- The units that run: one, or the two of a pair. -/
def NbCur.halves (u : NbCur) : List Nat := if u.run.dove then [0, 1] else [0]

/-- Set an accumulator of every unit. -/
def NbCur.each (u : NbCur) (a : Fin 4) (f : Nat → Nat) : NbCur := u.halves.foldl (fun x h => x.put h a (f h)) u

/-- A micro-operation where its condition holds: the run, the state, and the CODE that stops it, or 0. -/
abbrev NbEff := NbCur → State → NbCur × State × Nat

/-- The condition of a micro-operation at the position of the run (R419). -/
def NbCur.holds (u : NbCur) (c : NbCond) : Bool :=
  match c with
  | .every => true
  | .first => u.r == 0 && u.c == 0
  | .rowend => u.c == 31
  | .last => u.r + 1 == u.run.nrow && u.c == 31

/-- The rounding that a field names. -/
def FRnd.mode : FRnd → Rnd
  | .rn => .rn
  | .rz => .rz
  | .ru => .ru
  | .rd => .rd

/-- The bits of an element. -/
def nbWidth : NbTy → Nat
  | .f32 | .i32 => 32
  | .bf16 => 16

/-- Element by element. -/
def nbMap (ty : NbTy) (f : Nat → Nat → Nat → Nat) (x y z : Nat) : Nat :=
  let w := nbWidth ty
  let e (v i : Nat) : Nat := v / 2 ^ (w * i) % 2 ^ w
  ((List.range (256 / w)).map fun i => f (e x i) (e y i) (e z i) % 2 ^ w * 2 ^ (w * i)).sum

/-- Operand B: an accumulator, or a constant in every element (R421). -/
def NbCur.srcB (u : NbCur) (h : Nat) (b : Fin 4) (k : Bool) (ty : NbTy) : Nat :=
  if k then nbMap ty (fun x _ _ => x)
    (nbMap ty (fun _ _ _ => (u.run.ks.getD b.val 0).toNat) 0 0 0) 0 0
  else u.get h b

/-- An elementwise operation. -/
def nbArith (d a b : Fin 4) (k : Bool) (ty : NbTy) (f : Nat → Nat → Nat → Nat) : NbEff := fun u s =>
  (u.each d fun h => nbMap ty f (u.get h a) (u.srcB h b k ty) (u.get h d), s, 0)

def nbAddVal (ty : NbTy) (m : Rnd) (sub : Bool) (x y : Nat) : Nat :=
  match ty with
  | .f32 => (fAdd .f32 m sub x y).1
  | .bf16 => (fAdd .bf16 m sub x y).1
  | .i32 => if sub then (x + 2 ^ 32 - y) % 2 ^ 32 else (x + y) % 2 ^ 32

def nbMulVal (ty : NbTy) (m : Rnd) (x y : Nat) : Nat :=
  match ty with
  | .f32 => (fMul .f32 m x y).1
  | .bf16 => (fMul .bf16 m x y).1
  | .i32 => x * y % 2 ^ 32

def nbFmaVal (ty : NbTy) (m : Rnd) (x y z : Nat) : Nat :=
  match ty with
  | .f32 => (fFma .f32 m false x y z).1
  | .bf16 => (fFma .bf16 m false x y z).1
  | .i32 => (x * y + z) % 2 ^ 32

def nbMinMaxVal (ty : NbTy) (isMax : Bool) (x y : Nat) : Nat :=
  match ty with
  | .f32 => (fMinMax .f32 isMax false x y).1
  | .bf16 => (fMinMax .bf16 isMax false x y).1
  | .i32 => if (decide (signedOf 32 x ≤ signedOf 32 y)) != isMax then x else y

/-- The SPA of the atom at the run's column of a stream, for one unit of the pair (R420). -/
def NbCur.atom (u : NbCur) (q : Fin 4) (h : Nat) : Nat :=
  (u.run.rows.getD q.val []).getD u.r 0 + (if u.run.dove then 64 * u.c + 32 * h else 32 * u.c)

/-- The VA of an SPA by the translations that a run holds. -/
def NbRun.vaOf (r : NbRun) (spa : Nat) : Nat :=
  match r.pages.find? fun g => g.2 == spa / 4096 * 4096 with
  | some g => g.1 + spa % 4096
  | none => spa

/-- NBLD: a granule that cannot be read is marked poisoned and stops the run (R426). -/
def nbLoadEff (d q : Fin 4) : NbEff := fun u s =>
  let at_ := u.atom q 0 / 64 * 64
  let s := s.snoop (at_ / 64) false
  match (u.halves.map fun h => u.atom q h).findSome? fun a => s.poisonedIn a 32 with
  | some gr => (u, s.markRead gr, 3)
  | none => (u.each d fun h => leRead s.byteAt (u.atom q h) 32, s, 0)

/-- NBST: the atoms of one column of a pair form one write (R420). -/
def nbStoreEff (a q : Fin 4) : NbEff := fun u s =>
  let spa := u.atom q 0
  let v := (u.halves.map fun h => u.get h a * 2 ^ (256 * h)).sum
  let w := u.run.starter
  (u, s.writeCells (mkCells (dieActor s w u.run.stk) (s.block w.block).relCount false spa (u.run.vaOf spa) v
    (32 * u.halves.length)), 0)

/-- NBFOLD (R422): a left fold in increasing order. -/
def nbFoldVal (ty : NbTy) (m : Rnd) (x : Nat) : Nat :=
  let w := nbWidth ty
  match (List.range (256 / w)).map fun i => x / 2 ^ (w * i) % 2 ^ w with
  | [] => 0
  | e :: t => t.foldl (nbAddVal ty m false) e

def nbFoldEff (d a : Fin 4) (ty : NbTy) (rnd : FRnd) : NbEff := fun u s =>
  (u.each d fun h => nbFoldVal ty (FRnd.mode rnd) (u.get h a), s, 0)

/-- NBOUT (R425): a result slot of the status block. -/
def nbOutEff (a slot : Fin 4) : NbEff := fun u s =>
  let n := slot.val + 1
  match u.run.status[n]? with
  | some spa => (u, s.statusWrite (dieActor s u.run.starter u.run.stk) spa (u.run.statusa + 32 * n) (u.get 0 a) 32, 0)
  | none => (u, s, 0)

/-- The condition and the effect of a near-bank word. -/
def nbEffOf (i : Instr) : NbCond × NbEff :=
  match i with
  | .nbld d q c => (c, nbLoadEff d q)
  | .nbst a q c => (c, nbStoreEff a q)
  | .nbzero d c => (c, fun u s => (u.each d fun _ => 0, s, 0))
  | .nbadd d a b k ty rnd c => (c, nbArith d a b k ty fun x y _ => nbAddVal ty (FRnd.mode rnd) false x y)
  | .nbsub d a b k ty rnd c => (c, nbArith d a b k ty fun x y _ => nbAddVal ty (FRnd.mode rnd) true x y)
  | .nbmul d a b k ty rnd c => (c, nbArith d a b k ty fun x y _ => nbMulVal ty (FRnd.mode rnd) x y)
  | .nbfma d a b k ty rnd c => (c, nbArith d a b k ty (nbFmaVal ty (FRnd.mode rnd)))
  | .nbmin d a b k ty c => (c, nbArith d a b k ty fun x y _ => nbMinMaxVal ty false x y)
  | .nbmax d a b k ty c => (c, nbArith d a b k ty fun x y _ => nbMinMaxVal ty true x y)
  | .nbfold d a ty rnd c => (c, nbFoldEff d a ty rnd)
  | .nbout a slot c => (c, nbOutEff a slot)
  | _ => (.every, fun u s => (u, s, 0))

/-- The run after one micro-operation: the next operation, the next column, or the end of the row. -/
def NbCur.advance (u : NbCur) : NbCur :=
  if u.i + 1 < u.prog.length then { u with i := u.i + 1 }
  else
    { u with
      i := 0
      c := u.c + 1 }

/-- One micro-operation at the run's position. -/
def nbMicro (c : NbCond) (f : NbEff) : NbEff := fun u s =>
  let r := if u.holds c then f u s else (u, s, 0)
  if r.2.2 = 0 then (r.1.advance, r.2) else r

/-- Micro-operations up to the end of the row. -/
def nbRow : Nat → NbEff
  | 0, u, s => (u, s, 0)
  | n + 1, u, s =>
    if 32 ≤ u.c then (u, s, 0)
    else
      match decodeNb (u.prog.getD u.i 0) with
      | .error _ => (u, s, 0)
      | .ok i =>
        let e := nbEffOf i
        match nbMicro e.1 e.2 u s with
        | (u, s, 0) => nbRow n u s
        | r => r

/-- After micro-operations: the run stops with a CODE, completes with its last row, is suspended, or goes on. -/
def State.nbAfter (s : State) (unit : Nat) (waiting : Bool) (u : NbCur) (code : Nat) : State :=
  if code ≠ 0 then s.endCur unit u code 0
  else if u.c < 32 then s.putUnit unit { s.unit unit with cur := some u }
  else
    let u := { u with
      r := u.r + 1
      c := 0
      i := 0
      susp := if waiting then some s.clock else none }
    if u.run.nrow ≤ u.r then s.endCur unit u 0 0 else s.putUnit unit { s.unit unit with cur := some u }

/-- The lines of the row that comes next, of every stream. -/
def NbCur.lines (u : NbCur) : List Nat :=
  u.run.rows.flatMap fun l => linesOf (l.getD u.r 0) (if u.run.dove then 2048 else 1024)

/-- Before a row step the directory invalidates every other holder of the row's lines (R424): whether the step may begin. -/
def State.rowReady (s : State) (u : NbCur) : Bool × State :=
  let s := u.lines.foldl (·.probeHolders u.run.starter.block) s
  (!u.lines.any s.probing && u.run.status.all fun a => s.dieMayWrite u.run.stk a 32, s)

/-- The words of a row are executed one by one from its beginning. -/
def State.nbFocus (s : State) (stk unit : Nat) : State :=
  match (s.unit (64 * stk + unit)).cur with
  | none => s
  | some u =>
    if u.susp.isSome then s
    else
      match s.rowReady u with
      | (true, s) => { s with focus := .nb stk unit }
      | (false, s) => s

/-- The row step of a unit. -/
def State.rowStep (s : State) (unit : Nat) (waiting : Bool) (u : NbCur) : State :=
  match s.rowReady u with
  | (false, s) => s
  | (true, s) =>
    let r := nbRow (32 * u.prog.length) u s
    r.2.1.nbAfter unit waiting r.1 r.2.2

/-- NB_ROW_STEP (R419, R424): the unit is not suspended; `waiting` says that an ordinary access waits at its end. -/
def execNbRowStep (unit : Nat) (waiting : Bool) (s : State) : Res :=
  match (s.unit unit).cur with
  | none => .next s
  | some u => .next (if u.susp.isSome then s else s.rowStep unit waiting u)

/-- NB_RESUME (R424): no ordinary access has waited for 8 cycles. -/
def execNbResume (unit : Nat) (s : State) : Res :=
  match (s.unit unit).cur with
  | none => .next s
  | some u => .next (s.putUnit unit { s.unit unit with cur := some { u with susp := none } })

/-- NB_FORCED_STEP (R424): a suspension of 4,096 cycles (2,560 ns) ends in one step, and the unit is suspended again. -/
def execNbForcedStep (unit : Nat) (s : State) : Res :=
  match (s.unit unit).cur with
  | none => .next s
  | some u =>
    match u.susp with
    | none => .next s
    | some t => .next (if s.clock < t + 2560 then s else s.rowStep unit true { u with susp := none })

/-- A near-bank word executes at the position of the run in focus. -/
def nbWord (c : NbCond) (f : NbEff) (s : State) : Res :=
  match s.focus with
  | .nb stk unit =>
    let n := 64 * stk + unit
    match (s.unit n).cur with
    | none => .next s
    | some u =>
      let r := nbMicro c f u s
      .next (r.2.1.nbAfter n false r.1 r.2.2)
  | _ => .next s

/-- NBNOP (R422). -/
def execNbnop (c : NbCond) : State → Res := nbWord c fun u s => (u, s, 0)
/-- NBLD (R422, R426). -/
def execNbld (d q : Fin 4) (c : NbCond) : State → Res := nbWord c (nbLoadEff d q)
/-- NBST (R420, R422). -/
def execNbst (a q : Fin 4) (c : NbCond) : State → Res := nbWord c (nbStoreEff a q)
/-- NBZERO (R422). -/
def execNbzero (d : Fin 4) (c : NbCond) : State → Res := nbWord c fun u s => (u.each d fun _ => 0, s, 0)
/-- NBADD (R422). -/
def execNbadd (d a b : Fin 4) (k : Bool) (ty : NbTy) (rnd : FRnd) (c : NbCond) : State → Res :=
  nbWord c (nbArith d a b k ty fun x y _ => nbAddVal ty (FRnd.mode rnd) false x y)
/-- NBSUB (R422). -/
def execNbsub (d a b : Fin 4) (k : Bool) (ty : NbTy) (rnd : FRnd) (c : NbCond) : State → Res :=
  nbWord c (nbArith d a b k ty fun x y _ => nbAddVal ty (FRnd.mode rnd) true x y)
/-- NBMUL (R422). -/
def execNbmul (d a b : Fin 4) (k : Bool) (ty : NbTy) (rnd : FRnd) (c : NbCond) : State → Res :=
  nbWord c (nbArith d a b k ty fun x y _ => nbMulVal ty (FRnd.mode rnd) x y)
/-- NBFMA (R422): the addend is read before the destination is written. -/
def execNbfma (d a b : Fin 4) (k : Bool) (ty : NbTy) (rnd : FRnd) (c : NbCond) : State → Res :=
  nbWord c (nbArith d a b k ty (nbFmaVal ty (FRnd.mode rnd)))
/-- NBMIN (R422). -/
def execNbmin (d a b : Fin 4) (k : Bool) (ty : NbTy) (c : NbCond) : State → Res :=
  nbWord c (nbArith d a b k ty fun x y _ => nbMinMaxVal ty false x y)
/-- NBMAX (R422). -/
def execNbmax (d a b : Fin 4) (k : Bool) (ty : NbTy) (c : NbCond) : State → Res :=
  nbWord c (nbArith d a b k ty fun x y _ => nbMinMaxVal ty true x y)
/-- NBFOLD (R422). -/
def execNbfold (d a : Fin 4) (ty : NbTy) (rnd : FRnd) (c : NbCond) : State → Res := nbWord c (nbFoldEff d a ty rnd)
/-- NBOUT (R422, R425). -/
def execNbout (a slot : Fin 4) (c : NbCond) : State → Res := nbWord c (nbOutEff a slot)

end Sys2Proof.Machine
end

