-- ==== Sys2Proof/Machine/Collective.lean ====
section
/-! DEFINITION. Collective programs: COLL.START, the legs, the delivery of collective packets, and the end of a program
(R426 to R431, R435, R438). -/

namespace Sys2Proof.Machine

/-! ### Format windows (R427) -/

/-- The formats that a window accepts. -/
def winTys : List Ty := [.i32, .f32, .bf16, .f16, .e4m3, .e5m2]

/-- The address of a partition's window. -/
def winAddr (s : State) (p w : Nat) : Nat := s.harbour.pkg * 2 ^ 46 + 0x3F1000000000 + 0x1000 * p + 64 * w

/-- A window that a leg may use. DESIGN CHOICE, log 70. -/
def FmtWin.ofNat (x : Nat) : Option FmtWin :=
  match Ty.ofCode (bitsOf x 100 96), Rnd.ofCode (bitsOf x 105 103), Reading.ofCode (bitsOf x 102 101) with
  | some ty, some rnd, some svr =>
    if bitOf x 107 ∧ winTys.contains ty ∧ bitsOf x 105 103 ≤ 3 ∧ bitsOf x 63 0 % (tyBits ty / 8) = 0 then
      some ⟨bitOf x 106, rnd, svr, ty, bitsOf x 95 64, bitsOf x 63 0⟩
    else none
  | _, _, _ => none

/-- Bytes of an element, and the address of an element. -/
def FmtWin.size (w : FmtWin) : Nat := tyBits w.fmt / 8
def FmtWin.addr (w : FmtWin) (i : Nat) : Nat := w.base + i * w.size

/-- An element widened exactly to 32 bits (R429). -/
def FmtWin.widen (w : FmtWin) (x : Nat) : Nat :=
  match w.fmt, fmtTy w.fmt with
  | .f32, _ | _, none => x
  | _, some f => (roundTo .f32 .ieee false .rn 0 (FVal.ofBits f w.svr x)).1

/-- The exact value that a floating-point combination gives, before it is rounded (R430). -/
def collExact (rnd : Rnd) (opr : Nat) (old x : FVal) : FVal :=
  match opr with
  | 0 => x
  | 1 =>
    if old.isNan then old
    else if x.isNan then x
    else (exactAdd rnd old x).getD (.nan false true 0)
  | _ =>
    if old.isNan then (if x.isNan then old else x)
    else if x.isNan then old
    else if totalLt old x != (opr == 3) then old else x

/-- What an element of a packet makes of the element in the window (R430). -/
def FmtWin.combine (w : FmtWin) (opr old x : Nat) : Nat :=
  match fmtTy w.fmt with
  | some f =>
    (roundTo f w.svr (w.sat && f.narrow) w.rnd 0 (collExact w.rnd opr (FVal.ofBits f w.svr old) (FVal.ofBits .f32 .ieee x))).1
  | none =>
    match opr with
    | 0 => x
    | 1 => (old + x) % 2 ^ 32
    | 2 => if signedOf 32 old ≤ signedOf 32 x then old else x
    | _ => if signedOf 32 x ≤ signedOf 32 old then old else x

/-! ### COLL.START (R428, R435) -/

/-- A leg as the descriptor gives it, its window as it stands. -/
def Leg.ofNat (s : State) (p x : Nat) : Leg where
  kind := bitsOf x 3 0
  win := if bitsOf x 3 0 = 3 then none else FmtWin.ofNat (leRead s.byteAt (winAddr s p (bitsOf x 7 4)) 64)
  after := bitsOf x 15 8
  flow := bitsOf x 31 16
  opr := bitsOf x 35 32
  dpkg := bitsOf x 45 36
  dstk := bitsOf x 49 46
  sstk := bitsOf x 53 50
  off := bitsOf x 95 64
  nel := bitsOf x 127 96
  runDesc := bitsOf x 127 64
  started := false
  done := false
  applied := 0

/-- A leg that raises NB_FORMAT. -/
def Leg.bad (l : Leg) (idx x : Nat) : Bool :=
  (l.after != 0xFF && decide (idx ≤ l.after)) || (match l.kind with
    | 1 | 2 =>
      bitsOf x 63 54 != 0 || l.nel == 0 ||
        (if l.kind = 1 then l.opr != 0 else l.sstk != 0 || l.dpkg != 0 || decide (3 < l.opr)) || (match l.win with
          | none => true
          | some w => decide (w.nelem < l.off + l.nel))
    | 3 => bitsOf x 63 16 != 0 || bitsOf x 7 4 != 0 || l.runDesc % 64 != 0
    | _ => true)

/-- A SEND leg that raises NB_RANGE. -/
def Leg.astray (l : Leg) (s : State) : Bool :=
  l.kind == 1 && (s.absent.noStacks.contains l.sstk ||
    (if l.dpkg = s.harbour.pkg then s.absent.noStacks.contains l.dstk else s.unreachable l.dpkg))

/-- Translate a range of bytes page by page. -/
def pageRange (s : State) (w : Starter) (a : Access) (va : Nat) : Nat → Except Stop (List (Nat × Nat))
  | 0 => .ok []
  | n + 1 =>
    match pageRange s w a va n with
    | .error e => .error e
    | .ok l =>
      let pg := va / 4096 * 4096 + 4096 * n
      (w.translate s a (max va pg)).map fun x => l ++ [(pg, x.spa / 4096 * 4096)]

/-- The pages of the windows of the legs of one kind. -/
def legPages (s : State) (w : Starter) (a : Access) (kind : Nat) : List Leg → Except Stop (List (Nat × Nat))
  | [] => .ok []
  | l :: t =>
    match (if l.kind = kind then l.win else none) with
    | none => legPages s w a kind t
    | some win =>
      let lo := win.addr l.off
      let hi := win.addr (l.off + l.nel) - 1
      match pageRange s w a lo (hi / 4096 - lo / 4096 + 1) with
      | .error e => .error e
      | .ok pg => (legPages s w a kind t).map fun r => pg ++ r

/-- Every translation of a program, and the place of its status word. -/
def progPages (s : State) (w : Starter) (legs : List Leg) (sa : Nat) : Except Stop (List (Nat × Nat) × Nat) :=
  match legPages s w .load 1 legs with
  | .error e => .error e
  | .ok a =>
    match legPages s w .store 2 legs with
    | .error e => .error e
    | .ok b => (w.translate s .store sa).map fun x => (a ++ b ++ [(sa / 4096 * 4096, x.spa / 4096 * 4096)], x.spa)

/-- The header raises NB_FORMAT. -/
def collHdrBad (x : Nat) : Bool :=
  let sa := bitsOf x 63 0
  bitsOf x 255 128 != 0 || bitsOf x 95 80 != 0 || decide (13 < bitsOf x 79 76) || sa == 0 || sa % 8 != 0 ||
    decide (2 ^ 52 ≤ sa)

/-- COLL.START (R435). -/
def execCollStart (com : Com) (dst a : Opnd) : State → Res :=
  onceThreadNoBoot (.collStart com dst a) (Use.plain com [(a, true)] [(dst, false)]) fun g i l s =>
    let va := (l.getD 0 0).toNat
    if va % 64 ≠ 0 then .stop ⟨.align, 0, 0, va, 0⟩
    else
      match readPieces s g i va 8 with
      | .error (.exc e) => .stop e
      | .error e => .abort e
      | .ok (x, s) =>
        let p := (g.part s).getD 0
        let job := bitsOf x 75 64
        let raw := (List.range (bitsOf x 79 76 + 1)).map fun k => x / 2 ^ (256 + 128 * k) % 2 ^ 128
        let legs := raw.map fun y => Leg.ofNat s p y
        if collHdrBad x || (legs.zip raw).zipIdx.any fun y => y.1.1.bad y.2 y.1.2 then .stop nbFormat
        else if legs.any fun y => y.astray s then .stop nbRange
        else if (Kv.find job s.harbour.jobs).map (·.part) ≠ some p then .stop collJob
        else if 16 ≤ (((s.part p).map fun y => y.progs.length).getD 0) then .stop nbSpace
        else
          let r := s.takeNum g.block (s.thread g.block i).bc 10
          let w := Starter.ofGrp s g i r.1
          match progPages s w legs (bitsOf x 63 0) with
          | .error (.exc e) => .stop e
          | .error e => .abort e
          | .ok (pages, spa) =>
            match r.2.issueRelease g i com with
            | .error e => .abort e
            | .ok t =>
            let n := ((s.part p).map (·.nextProg)).getD 0
            let q : CollProg := ⟨w, job, bitsOf x 127 96, s.clock, bitsOf x 63 0, spa, legs, pages, none, false⟩
            let s := t.modPart p fun y =>
              { y with
                progs := Kv.insert n q y.progs
                nextProg := n + 1 }
            let first := (legs.zipIdx.filter fun y => y.1.after == 0xFF).map fun y => Instr.collLegStart p n y.2
            .done (s.later first) [((dst, false), BitVec.ofNat 64 r.1)]

/-! ### Delivery (R430) -/

/-- The place of an address by the translations that a program holds. -/
def CollProg.spaOf (q : CollProg) (va : Nat) : Nat :=
  match q.pages.find? fun g => g.1 == va / 4096 * 4096 with
  | some g => g.2 + va % 4096
  | none => 0

/-- The leg that takes a packet: program key and leg. -/
def CollProg.takes (q : CollProg) (stk : Nat) (x : Packet) : Option Nat :=
  if q.fail.isSome ∨ q.job ≠ x.job then none
  else (q.legs.zipIdx.find? fun l =>
    l.1.kind == 2 && l.1.started && !l.1.done && l.1.dstk == stk && l.1.flow == x.flow).map (·.2)

/-- The oldest program of the packet's job with such a leg: partition, program, leg. -/
def State.taker (s : State) (stk : Nat) (x : Packet) : Option (Nat × Nat × Nat) :=
  s.parts.findSome? fun p => p.2.progs.findSome? fun q => (q.2.takes stk x).map fun k => (p.1, q.1, k)

/-- Element `i` of a packet. -/
def pktElem (x : Packet) (i : Nat) : Nat := leRead (fun b => x.data.getD b 0) (4 * i) 4
def pktFirst (x : Packet) : Nat := bitsOf x.imm.toNat 31 0
def pktCount (x : Packet) : Nat := bitsOf x.imm.toNat 39 32

/-- The bytes that a packet's elements leave in a window, in order, up to the first that cannot be read. -/
def combineElems (stk : Nat) (a : Actor) (q : CollProg) (w : FmtWin) (opr : Nat) (x : Packet) :
    Nat → State → List WCell × State × Option Stop
  | 0, s => ([], s, none)
  | n + 1, s =>
    match combineElems stk a q w opr x n s with
    | (cells, s, some e) => (cells, s, some e)
    | (cells, s, none) =>
      let va := w.addr (pktFirst x + n)
      let spa := q.spaOf va
      let put (old : Nat) : List WCell :=
        mkCells a (s.block a.block).relCount false spa va (w.combine opr old (pktElem x n)) w.size
      if !s.dieMayWrite stk spa w.size then (cells, s, some .wait)
      else if opr = 0 then (cells ++ put 0, s, none)
      else
        match physRead s a spa w.size va with
        | .ok (old, s) => (cells ++ put old, s, none)
        | .error e => (cells, s, some e)

/-- A leg takes a packet. Where a line of another package is awaited, the request that asks for it. -/
def State.takePacket (s : State) (stk : Nat) (x : Packet) (p n k : Nat) : Except State State :=
  match s.prog p n with
  | none => .ok s
  | some q =>
    let l := q.legs.getD k (Leg.ofNat s p 0)
    match l.win with
    | none => .ok s
    | some w =>
      if 0 < pktCount x ∧ (pktFirst x < l.off ∨ l.off + l.nel < pktFirst x + pktCount x) then .ok (s.failProg p n 7 k)
      else
        let a := dieActor s q.starter stk
        match combineElems stk a q w l.opr x (pktCount x) s with
        | (_, s1, some (.miss ask pkt)) => .error (s1.request a.core a.e ask pkt)
        | (_, _, some .wait) => .error s
        | (cells, s1, some (.exc e)) =>
          .ok (((((s1.markRead e.aux).writeCells cells).taken a.core a.e)).failProg p n 3 k)
        | (cells, s1, some (.halt _)) => .ok (((s1.writeCells cells).taken a.core a.e).failProg p n 3 k)
        | (cells, s1, none) =>
          let s := (s1.writeCells cells).taken a.core a.e
          let count (y : Leg) : Leg := { y with applied := y.applied + pktCount x }
          let s := s.modProg p n fun q => q.modLeg k count
          .ok (if l.nel ≤ l.applied + pktCount x then s.beginEnd ⟨q.starter, stk, none, some (n, k), 0⟩ id else s)

/-- A packet is no longer held. -/
def State.unhold (s : State) (stk : Nat) (x : Packet × Nat) : State :=
  s.modDie stk fun d => { d with held := d.held.erase x }

/-- The held packets of a stack are offered in order; one that waits keeps back the later ones of its flow. -/
def State.offerHeld (stk : Nat) : List (Packet × Nat) → List (Nat × Nat) → State → State
  | [], _, s => s
  | x :: t, kept, s =>
    let key := (x.1.job, x.1.flow)
    if kept.contains key then State.offerHeld stk t kept s
    else
      match s.taker stk x.1 with
      | none => State.offerHeld stk t kept s
      | some (p, n, k) =>
        match s.takePacket stk x.1 p n k with
        | .ok s => State.offerHeld stk t kept (s.unhold stk x)
        | .error s => State.offerHeld stk t (key :: kept) s

/-- CLF_DELIVER (R430): a packet at its destination stack is taken by a leg, held, or dropped. -/
def State.deliverClf (s : State) (stk : Nat) (x : Packet) : State :=
  if (s.taker stk x).isNone ∧ 256 ≤ (s.die stk).held.length then s.postEvent 1 (0x200 + stk) [stk, x.job, x.flow]
  else
    let s := s.modDie stk fun d => { d with held := d.held ++ [(x, s.clock)] }
    State.offerHeld stk (s.die stk).held [] s

/-- CLF_HOLD_EXPIRE (R430): packets held for 1 ms are dropped, and reported. -/
def execClfHoldExpire (stack : Nat) (s : State) : Res :=
  let late (x : Packet × Nat) : Bool := decide (x.2 + 1000000 ≤ s.clock)
  let gone := (s.die stack).held.filter late
  let s := s.modDie stack fun d => { d with held := d.held.filter fun x => !late x }
  .next (gone.foldl (fun s x => s.postEvent 1 (0x200 + stack) [stack, x.1.job, x.1.flow]) s)

/-! ### Legs (R429) -/

/-- Read the elements of a SEND leg, widened. -/
def readElems (a : Actor) (q : CollProg) (w : FmtWin) (off : Nat) : Nat → State → Except Stop (List Nat × State)
  | 0, s => .ok ([], s)
  | n + 1, s =>
    match readElems a q w off n s with
    | .error e => .error e
    | .ok (l, s) =>
      let va := w.addr (off + n)
      (physRead s a (q.spaOf va) w.size va).map fun r => (l ++ [w.widen r.1], r.2)

/-- The packet that carries some elements of a leg. -/
def clfPacket (s : State) (q : CollProg) (l : Leg) (first : Nat) (es : List Nat) : Packet :=
  let flits := (es.length + 7) / 8
  { s.packet 0x20 2 q.starter.part 0 (0x200 + l.sstk) with
    dpkg := l.dpkg
    dstk := l.dstk
    sstk := l.sstk
    job := q.job
    flow := l.flow
    imm := BitVec.ofNat 64 (first % 2 ^ 32 + es.length * 2 ^ 32)
    data := (es ++ List.replicate (8 * flits - es.length) 0).flatMap fun e => bytesOf e 4 }

/-- The packets of a SEND leg: 32 elements each, the remainder last. -/
def clfPackets (s : State) (q : CollProg) (l : Leg) (es : List Nat) : List Packet :=
  (List.range ((es.length + 31) / 32)).map fun k => clfPacket s q l (l.off + 32 * k) ((es.drop (32 * k)).take 32)

/-- A started leg. -/
def State.startLeg (s : State) (p n k : Nat) : State :=
  let go (l : Leg) : Leg := { l with started := true }
  s.modProg p n fun q => q.modLeg k go

/-- A SEND leg: its packets enter the fabric at SSTK, and it is complete. -/
def State.sendLeg (s : State) (p n k : Nat) (q : CollProg) (l : Leg) (w : FmtWin) : State :=
  let a := dieActor s q.starter l.sstk
  match readElems a q w l.off l.nel s with
  | .error (.miss ask pkt) => s.request a.core a.e ask pkt
  | .error .wait => s
  | .error (.exc e) => (((s.startLeg p n k).markRead e.aux).taken a.core a.e).failProg p n 3 k
  | .error (.halt _) => ((s.startLeg p n k).taken a.core a.e).failProg p n 3 k
  | .ok (es, s) =>
    let s := ((s.startLeg p n k).taken a.core a.e).legDone p n k
    s.later ((clfPackets s q l es).map fun x => Instr.clf l.sstk x)

/-- The CODE with which an NBRUN leg fails at its start. -/
def legCode : Stop → Nat
  | .exc e => if e.cls = .poison then 3 else 9
  | _ => 9

/-- An NBRUN leg: its descriptor is read, checked and translated as NB.RUN does at issue. -/
def State.runLeg (s : State) (p n k : Nat) (q : CollProg) (l : Leg) : State :=
  let a := dieActor s q.starter 0
  match dieRead s q.starter a l.runDesc 4 with
  | .error (.miss ask pkt) => s.request a.core a.e ask pkt
  | .error .wait => s
  | .error e => ((s.startLeg p n k).taken a.core a.e).failProg p n (legCode e) k
  | .ok (x, s) =>
    let go (s : State) : State := (s.startLeg p n k).taken a.core a.e
    if descBad x then (go s).failProg p n 9 k
    else
      match prepareRun s q.starter x 0 none (some (n, k)) with
      | .error (.miss ask pkt) => s.request a.core a.e ask pkt
      | .error .wait => s
      | .error e => (go s).failProg p n (legCode e) k
      | .ok run => (go s).queueRun run

/-- COLL_LEG_START (R429). -/
def execCollLegStart (part prog leg : Nat) (s : State) : Res :=
  match s.prog part prog with
  | none => .next s
  | some q =>
    match q.legs[leg]? with
    | none => .next s
    | some l =>
      let open_ := l.after == 0xFF || ((q.legs[l.after]?).map (·.done)).getD false
      if q.fail.isSome || l.started || !open_ then .next s
      else if l.kind = 3 then .next (s.runLeg part prog leg q l)
      else
        match l.win with
        | none => .next s
        | some w =>
          if l.kind = 1 then .next (s.sendLeg part prog leg q l w)
          else
            let s := s.startLeg part prog leg
            .next (State.offerHeld l.dstk (s.die l.dstk).held [] s)

/-! ### The end of a program (R426, R431) -/

/-- The lowest leg that has not completed and that a test names. -/
def CollProg.lowest (q : CollProg) (f : Leg → Bool) : Option Nat :=
  (q.legs.zipIdx.find? fun l => !l.1.done && f l.1).map (·.2)

/-- COLL_TIMEOUT (R431). -/
def execCollTimeout (part prog : Nat) (s : State) : Res :=
  match s.prog part prog with
  | none => .next s
  | some q =>
    if s.clock < q.start + 1000 * (if q.tmo = 0 then 10000 else q.tmo) then .next s
    else
      match q.lowest fun _ => true with
      | none => .next s
      | some k => .next (s.failProg part prog 5 k)

/-- A binding of this package has become faulted: the programs of its job with its flow fail (R431). -/
def State.failFlow (s : State) (job flow : Nat) : State :=
  s.parts.foldl (fun s p => p.2.progs.foldl (fun s q =>
    if q.2.job ≠ job then s
    else
      match q.2.lowest fun l => l.kind != 3 && l.flow == flow with
      | none => s
      | some k => s.failProg p.1 q.1 4 k) s) s

/-- Programs of a partition are stopped by a rung or by mooring (R437). -/
def State.stopProgs (s : State) (p : Nat) : State :=
  match s.part p with
  | none => s
  | some x => x.progs.foldl (fun s q => s.failProg p q.1 6 0) s

/-- The status word of a program (R426). -/
def CollProg.statusWord (q : CollProg) : Nat :=
  let f := q.fail.getD (0, 0)
  let count := (q.legs.map fun l => if l.kind = 2 then l.applied else 0).sum
  let done := (q.legs.zipIdx.map fun l => if l.1.done then 2 ^ l.2 else 0).sum
  f.1 + 2 ^ 8 * f.2 + 2 ^ 16 * done + 2 ^ 32 * (count % 2 ^ 32)

/-- The status word of a program is written, and its record sent. -/
def State.writeProg (s : State) (part prog : Nat) (q : CollProg) : State :=
  let w := q.starter
  let word := q.statusWord
  let s := s.statusWrite (dieActor s w 0) q.statusPa q.statusa word 8
  let s := if q.fail.isNone then s
    else w.send s { w.record s 0x13 10 with
      cls := 0x35
      detail := word % 2 ^ 16
      aux := q.statusa
      src := 0x200 }
  s.modProg part prog fun q => { q with written := true }

/-- COLL_PROGRAM_COMPLETE (R426, R438): the program completes once its status word has been performed. -/
def execCollProgramComplete (part prog : Nat) (s : State) : Res :=
  match s.prog part prog with
  | none => .next s
  | some q =>
    if (q.fail.isNone && !q.legs.all (·.done)) || (!q.written && (s.diePosting q.starter || !s.dieMayWrite 0 q.statusPa 8)) then
      .next s
    else
      let s := if q.written then s else s.writeProg part prog q
      if s.diePosting q.starter then .next s
      else .next ((s.modPart part fun x => { x with progs := Kv.erase prog x.progs }).doneBase q.starter 10)

end Sys2Proof.Machine
end

