-- ==== Sys2Proof/Machine/Squad.lean ====
section
/-! DEFINITION. The squad instructions and the selection unit (R189 to R198, R202 to R207). -/

namespace Sys2Proof.Machine

/-! ### Convergence (R190 to R192) -/

/-- The members of the complete squads that execute at once, in order: a squad that would put a second member on a lane of
the entry is left for a later issue. -/
def fitSquads (lane : Nat → Nat) : List Nat → List (List Nat) → List Nat
  | _, [] => []
  | used, ps :: t =>
    if ps.any fun i => used.contains (lane i) then fitSquads lane used t
    else ps ++ fitSquads lane (used ++ ps.map lane) t

/-- Participants from elsewhere join an entry; entries left empty are freed (R191). DEDUCED, log 77. -/
def State.absorb (s : State) (g : Grp) (join members : List Nat) : State :=
  let leave := g.members.filter fun i => !members.contains i
  let s := s.modBlock g.block fun b =>
    (b.mapThreads leave fun t => { t with since := s.tick }).mapThreads join fun t => { t with stat := .ready }
  s.modCore g.core fun c =>
    { c with entries := (c.entries.map fun x =>
        if x.1 = g.e then (x.1, { x.2 with members := members, chain := 0 })
        else if x.2.block = g.block then (x.1, { x.2 with members := x.2.members.filter fun i => !members.contains i })
        else x).filter fun x => !x.2.members.isEmpty }

/-- What a squad instruction computes for one squad: from its active participants, by member number with their source
values, the results of each of them. -/
abbrev SquadFn := List (Nat × List DWord) → List (Nat × List (Src × DWord))

/-- Active members that the mask does not name raise SQUAD_MASK; the others remain (R191). -/
def squadMask (g : Grp) (instr : Instr) (mask : Nat) : List (Nat × List DWord) → State → State × List (Nat × List DWord)
  | [], s => (s, [])
  | (i, l) :: t, s =>
    if mask.testBit (i % 32) then
      let r := squadMask g instr mask t s
      (r.1, (i, l) :: r.2)
    else squadMask g instr mask t (faultThread s g i (some instr) l (Exc.of .squadMask))

/-- The results of every squad, of the threads in order of home lane. -/
def squadResults (f : SquadFn) (l : List (Nat × List DWord)) : List (Nat × List (Src × DWord)) :=
  ((distinct (l.map fun x => x.1 / 32)).map fun q =>
    let mine := sortBy (fun x => x.1) (l.filter fun x => x.1 / 32 == q)
    (f (mine.map fun x => (x.1 % 32, x.2))).map fun r => (32 * q + r.1, r.2)).flatten

/-- Every thread writes its own results. -/
def writeOwn (k : Nat) : Bool → List (Nat × List (Src × DWord)) → State → State
  | _, [], s => s
  | first, (i, ws) :: t, s => writeOwn k false t (writeAll k i first ws s)

/-- The participants that run now execute the instruction, and the members that are not named pass it (R191). -/
def squadRun (g : Grp) (instr : Instr) (com : Com) (mask : Nat) (u : Use) (f : SquadFn) (s : State) : State :=
  let r := checkAll g instr u (g.active com s) (advance (closeChain s g) g 12)
  let r := squadMask g instr mask r.2 r.1
  let lane (x : Nat × List (Src × DWord)) : Nat := (s.thread g.block x.1).lane
  writeOwn g.block true (sortBy lane (squadResults f r.2)) r.1

/-- A squad instruction (R189 to R192). -/
def squadExec (instr : Instr) (com : Com) (mask : Word) (srcs dsts : List Src) (f : SquadFn) (s : State) : Res :=
  match s.grp with
  | none => .next s
  | some g =>
    barBoot instr s g (
      if com.guardNeg && com.guardPred == 7 && g.ov.isNone then finish (advance (closeChain s g) g 12) g
      else
        let m := mask.toNat
        let b := s.block g.block
        let whole (q : Nat) : Bool := (b.participants q m).all fun i => g.members.contains i || s.arrived g.block g.pc i
        let lane (i : Nat) : Nat := (b.thread i).lane
        let wait := g.members.filter fun i => m.testBit (i % 32) && !whole (i / 32)
        let pass := g.members.filter fun i => !m.testBit (i % 32)
        let join := fitSquads lane (pass.map lane)
          (((distinct (g.members.map (· / 32))).filter whole).map fun q => b.participants q m)
        let ms := sortBy lane (join ++ pass)
        let s := (holdThreads s g.block wait (.squad m)).absorb g join ms
        let g := { g with members := ms }
        finish (if ms.isEmpty then s else squadRun g instr com m (Use.plain com srcs dsts) f s) g)

/-! ### The instructions (R194 to R198) -/

/-- The source member of SHFL. -/
def shflFrom (mode : ShflMode) (k m idx : Nat) : Option Nat :=
  match mode with
  | .idx => some (idx % 32)
  | .up => if k ≤ m then some (m - k) else none
  | .down => some (m + k)
  | .xor => some (Nat.xor m k)

/-- SHFL (R194). -/
def execShfl (com : Com) (mode : ShflMode) (k : BitVec 5) (wide : Bool) (dst a : Opnd) (mask : Word) : State → Res :=
  squadExec (.shfl com mode k wide dst a mask) com mask
    ((a, wide) :: if mode = .idx then [(dst, false)] else []) [(dst, wide)] fun l =>
      l.map fun x =>
        let own := x.2.getD 0 0
        let v := match shflFrom mode k.toNat x.1 (x.2.getD 1 0).toNat with
          | none => own
          | some m => match l.find? fun y => y.1 == m with
            | some y => y.2.getD 0 0
            | none => own
        (x.1, [((dst, wide), v)])

/-- The result of VOTE from the members and their values. -/
def voteVal (form : VoteForm) (l : List (Nat × Bool)) : Nat :=
  match form with
  | .all => boolNat (l.all (·.2))
  | .any => boolNat (l.any (·.2))
  | .same => boolNat (l.all (·.2) || l.all fun x => !x.2)
  | .mask => (l.map fun x => if x.2 then 2 ^ x.1 else 0).sum
  | .cnt => (l.filter (·.2)).length

/-- VOTE (R195). -/
def execVote (com : Com) (form : VoteForm) (dst a : Opnd) (mask : Word) : State → Res :=
  squadExec (.vote com form dst a mask) com mask [(a, false)] [(dst, false)] fun l =>
    let v := voteVal form (l.map fun x => (x.1, x.2.getD 0 0 != 0))
    l.map fun x => (x.1, [((dst, false), BitVec.ofNat 64 v)])

/-- MATCH (R196). -/
def execMatchKey (com : Com) (wide : Bool) (dst a : Opnd) (mask : Word) : State → Res :=
  squadExec (.matchKey com wide dst a mask) com mask [(a, wide)] [(dst, false)] fun l =>
    l.map fun x =>
      let same := l.filter fun y => y.2.getD 0 0 == x.2.getD 0 0
      (x.1, [((dst, false), BitVec.ofNat 64 (same.map fun y => 2 ^ y.1).sum)])

/-- The combination and the identity of R197. -/
def squadCombine (op : SquadOp) (x y : Nat) : Nat :=
  match op with
  | .addI32 => (x + y) % 2 ^ 32
  | .minI32 => if signedOf 32 x ≤ signedOf 32 y then x else y
  | .maxI32 => if signedOf 32 x ≤ signedOf 32 y then y else x
  | .minN32 => min x y
  | .maxN32 => max x y
  | .and => Nat.land x y
  | .or => Nat.lor x y
  | .xor => Nat.xor x y
  | .addF32 => (fAdd .f32 .rn false x y).1
  | .minF32 => (fMinMax .f32 false false x y).1
  | .maxF32 => (fMinMax .f32 true false x y).1
  | .addI64 => (x + y) % 2 ^ 64

def squadIdentity : SquadOp → Nat
  | .addI32 | .or | .xor | .addI64 | .maxN32 => 0
  | .minI32 => 0x7FFFFFFF
  | .maxI32 => 0x80000000
  | .minN32 | .and => 0xFFFFFFFF
  | .addF32 => 0x80000000
  | .minF32 => 0x7F800000
  | .maxF32 => 0xFF800000

/-- The left fold of R197. -/
def squadFold (op : SquadOp) : List Nat → Nat
  | [] => squadIdentity op
  | x :: t => t.foldl (squadCombine op) x

/-- An operand of an operation's width. -/
def squadWide (op : SquadOp) : Bool := op == .addI64

/-- The values of active participants. -/
def memberVals (l : List (Nat × List DWord)) : List Nat := l.map fun x => (x.2.getD 0 0).toNat

/-- SRED (R197). -/
def execSred (com : Com) (op : SquadOp) (dst a : Opnd) (mask : Word) : State → Res :=
  squadExec (.sred com op dst a mask) com mask [(a, squadWide op)] [(dst, squadWide op)] fun l =>
    l.map fun x => (x.1, [((dst, squadWide op), BitVec.ofNat 64 (squadFold op (memberVals l)))])

/-- SSCAN (R197). -/
def execSscan (com : Com) (op : SquadOp) (excl : Bool) (dst a : Opnd) (mask : Word) : State → Res :=
  squadExec (.sscan com op excl dst a mask) com mask [(a, squadWide op)] [(dst, squadWide op)] fun l =>
    l.map fun x =>
      let upTo := l.filter fun y => if excl then decide (y.1 < x.1) else decide (y.1 ≤ x.1)
      (x.1, [((dst, squadWide op), BitVec.ofNat 64 (squadFold op (memberVals upTo)))])

/-- SSYNC (R198): no register effect. Accesses are performed one after another, so its order holds already. -/
def execSsync (com : Com) (mask : Word) : State → Res :=
  squadExec (.ssync com mask) com mask [] [] fun _ => []

/-! ### The selection unit (R202 to R207) -/

/-- A key's place in the order of its type, as an unsigned number (R205). -/
def keyOrder (t : SelKey) (k : Nat) : Nat :=
  match t with
  | .f32 => if 2 ^ 31 ≤ k then 2 ^ 32 - 1 - k else k + 2 ^ 31
  | .i32 => (k + 2 ^ 31) % 2 ^ 32
  | .n32 => k

/-- The rank of a pair: smaller is better. -/
def SelCtx.rank (c : SelCtx) (e : Nat × Nat) : Nat :=
  let o := keyOrder c.key e.1
  (if c.max then 2 ^ 32 - 1 - o else o) * 2 ^ 32 + e.2

/-- Insert a pair: the context keeps its K best; a NaN key is discarded and noted (R205, R206). -/
def SelCtx.push (c : SelCtx) (e : Nat × Nat) : SelCtx :=
  if c.key = .f32 ∧ (FVal.ofBits .f32 .ieee e.1).isNan then { c with nan := true }
  else { c with entries := (insertBy c.rank e c.entries).take c.k }

/-- The empty pair (R207). -/
def SelCtx.emptyPair (c : SelCtx) : Nat × Nat :=
  (match c.key, c.max with
   | .f32, false => 0x7F800000
   | .f32, true => 0xFF800000
   | .i32, false => 0x7FFFFFFF
   | .i32, true => 0x80000000
   | .n32, false => 0xFFFFFFFF
   | .n32, true => 0, 0xFFFFFFFF)

/-- The lowest free physical context of a core (R204). -/
def State.freeCtx (s : State) (core : Nat) : Option Nat :=
  firstFree ((s.blocks.map fun b =>
    ((b.2.cores.filter fun c => c.2.core == core).map fun c => c.2.sel.map fun x => x.2.phys).flatten).flatten) 0 4

def selExc (c : BitVec 2) : Exc := ⟨.selState, c.toNat, 0, 0, 0⟩

/-- SEL.INIT (R204). -/
def execSelInit (com : Com) (key : SelKey) (max : Bool) (c : BitVec 2) (dst a : Opnd) : State → Res :=
  onceThreadNoBoot (.selInit com key max c dst a) (Use.plain com [(a, false)] [(dst, false)]) fun g i l s =>
    let j := (s.thread g.block i).bc
    let k := (l.getD 0 0).toNat
    if k = 0 ∨ 64 < k then .stop (selExc c)
    else
      let phys := match Kv.find c.toNat ((s.block g.block).bc j).sel with
        | some x => some x.phys
        | none => s.freeCtx g.core
      match phys with
      | none => .done s [((dst, false), 0)]
      | some p =>
        .done (s.modBc g.block j fun b => { b with sel := Kv.insert c.toNat ⟨p, key, max, k, [], false⟩ b.sel })
          [((dst, false), 1)]

/-- SEL.PUSH (R206). -/
def execSelPush (com : Com) (c : BitVec 2) (a b : Opnd) : State → Res :=
  eachThreadNoBoot (.selPush com c a b) (Use.plain com [(a, false), (b, false)] []) fun g i l s =>
    let j := (s.thread g.block i).bc
    match Kv.find c.toNat ((s.block g.block).bc j).sel with
    | none => .error (.exc (selExc c))
    | some x =>
      let x := x.push ((l.getD 0 0).toNat, (l.getD 1 0).toNat)
      .ok (s.modBc g.block j fun b => { b with sel := Kv.insert c.toNat x b.sel }, [])

/-- What SEL.DRAIN reads of a context (R207). -/
def SelCtx.drain (c : SelCtx) (form : DrainForm) (rank : Nat) : Nat × Nat :=
  match form with
  | .cnt => (c.entries.length, boolNat c.nan)
  | _ => c.entries.getD rank c.emptyPair

/-- SEL.DRAIN (R202, R207). DEDUCED, log 39. -/
def execSelDrain (com : Com) (form : DrainForm) (c : BitVec 2) (dst a : Opnd) (s : State) : Res :=
  let i0 : Instr := .selDrain com form c dst a
  match s.grp with
  | none => .next s
  | some g =>
    barBoot i0 s g (
      let r := prepare (closeChain s g) g i0 (Use.plain com (if form = .cnt then [] else [(a, false)]) [(dst, true)])
      let out := runThreads g i0 (fun i l s =>
        match Kv.find c.toNat ((s.block g.block).bc (s.thread g.block i).bc).sel with
        | none => .error (.exc (selExc c))
        | some x =>
          let rank := if form = .fin then (r.2.map (·.2)).headD l else l
          let v := x.drain form (rank.getD 0 0).toNat
          .ok (s, [((dst, true), BitVec.ofNat 64 (v.1 + v.2 * 2 ^ 32))])) true r.2 r.1
      conclude s g (out.map fun s' =>
        match form, r.2 with
        | .fin, (i, _) :: _ =>
          s'.modBc g.block (r.1.thread g.block i).bc fun b => { b with sel := Kv.erase c.toNat b.sel }
        | _, _ => s'))

end Sys2Proof.Machine
end

