-- ==== Sys2Proof/Machine/Ferry.lean ====
section
/-! DEFINITION. Ferry cores: the path of collective packets, bindings, invocations, traps, and the ferry instruction set
(R366, R376, R386 to R396, R400 to R417). -/

namespace Sys2Proof.Machine

/-! ### Packet headers (R372) -/

/-- The 256 bits of a packet's header. NDF is the number of its data flits. -/
def pktHeader (p : Packet) : Nat :=
  let f (n w v : Nat) : Nat := v % 2 ^ w * 2 ^ n
  p.imm.toNat + f 64 56 p.addr + f 146 3 p.mt + f 149 3 p.scope + f 152 3 p.esz + f 155 5 p.noffm1 + f 160 16 p.flow +
    f 176 12 p.job + f 188 12 p.txid + f 200 4 (p.data.length / 32) + f 204 6 p.part + f 210 2 p.oc + f 212 6 p.op +
    f 218 10 p.sag + f 228 4 p.sstk + f 232 10 p.spkg + f 242 4 p.dstk + f 246 10 p.dpkg

/-- A packet with the fields of a header and its data flits. -/
def pktOfHeader (h : Nat) (data : List Byte) : Packet where
  op := bitsOf h 217 212
  oc := bitsOf h 211 210
  dpkg := bitsOf h 255 246
  dstk := bitsOf h 245 242
  spkg := bitsOf h 241 232
  sstk := bitsOf h 231 228
  sag := bitsOf h 227 218
  part := bitsOf h 209 204
  txid := bitsOf h 199 188
  job := bitsOf h 187 176
  flow := bitsOf h 175 160
  noffm1 := bitsOf h 159 155
  esz := bitsOf h 154 152
  scope := bitsOf h 151 149
  mt := bitsOf h 148 146
  addr := bitsOf h 119 64
  imm := BitVec.ofNat 64 h
  data := data

/-! ### Routing inside the package (R366, R376, R384, R386) -/

/-- A stack link: its stacks are of one row or one column, and both it and they are present. -/
def State.linkUp (s : State) (a b : Nat) : Bool :=
  a != b && (a / 4 == b / 4 || a % 4 == b % 4) && !s.absent.noStacks.contains a && !s.absent.noStacks.contains b &&
    !s.absent.noLinks.contains (16 * min a b + max a b)

/-- Whether a stack reaches another in at most some number of hops. -/
def State.reaches (s : State) : Nat → Nat → Nat → Bool
  | 0, a, t => a == t
  | n + 1, a, t => a == t || (List.range 16).any fun m => s.linkUp a m && s.reaches n m t

/-- The next stack on the way: the row hop first and then the column hop; around a missing link, the lowest stack that
is on a shortest way of at most three hops. DESIGN CHOICE, log 33. -/
def State.nextHop (s : State) (a t : Nat) : Option Nat :=
  let r := a / 4 * 4 + t % 4
  if r ≠ a ∧ s.linkUp a r ∧ (r = t ∨ s.linkUp r t) then some r
  else
    ([0, 1, 2].findSome? fun n => (List.range 16).find? fun m => s.linkUp a m && s.reaches n m t)

/-- A packet goes on from a stack toward its destination: it is delivered, leaves the package, or goes to the next
stack. `drop` is what its discarding does. -/
def State.sendOn (s : State) (stk : Nat) (x : Packet) (drop : State → State) : State × List Instr :=
  let own := x.dpkg == s.harbour.pkg
  let target := if own then x.dstk else (Kv.get (0, 0) x.dpkg s.harbour.routes).2 / 2
  if (!own && s.unreachable x.dpkg) || s.absent.noStacks.contains target then (drop s, [])
  else if target = stk then (if own then s.deliverClf stk x else s.emit (.packet x), [])
  else
    match s.nextHop stk target with
    | none => (drop s, [])
    | some n => (s, [.clf n x])

/-- A router discards a packet, and the harbour die receives an event (R373, R429). -/
def routerDrop (stk : Nat) (x : Packet) (s : State) : State := s.postEvent 1 (0x200 + stk) [stk, x.op, x.job, x.flow]

/-- A packet that no binding invokes goes on. -/
def State.passOn (s : State) (stk : Nat) (x : Packet) : State :=
  let r := s.sendOn stk x (routerDrop stk x)
  r.1.later r.2

/-! ### Ferry cores and bindings (R387, R390, R391) -/

def State.ferry (s : State) (stk fc : Nat) : FerryCore := Kv.get FerryCore.reset fc (s.die stk).ferry
def State.modFerry (s : State) (stk fc : Nat) (f : FerryCore → FerryCore) : State :=
  s.modDie stk fun d => { d with ferry := Kv.insert fc (f (Kv.get FerryCore.reset fc d.ferry)) d.ferry }

/-- The binding of a (job, flow). -/
def FerryCore.binding (c : FerryCore) (job flow : Nat) : Option Binding :=
  c.bindings.find? fun b => b.job == job && b.flow == flow

/-- Change the binding of a (job, flow). -/
def FerryCore.modBinding (c : FerryCore) (job flow : Nat) (f : Binding → Binding) : FerryCore :=
  { c with bindings := c.bindings.map fun b => if b.job = job ∧ b.flow = flow then f b else b }

/-- The ferry core of a die that holds the binding of a (job, flow), with the binding. -/
def State.boundAt (s : State) (stk job flow : Nat) : Option (Nat × Binding) :=
  (List.range 8).findSome? fun fc => ((s.ferry stk fc).binding job flow).map fun b => (fc, b)

/-- The binding drops a packet because it is faulted (R402). -/
def countDrop (b : Binding) : Binding := { b with drops := b.drops + 1 }

/-- CLF (R392): a collective packet enters a die's router. -/
def execClf (stack : Nat) (p : Packet) (s : State) : Res :=
  if s.absent.noStacks.contains stack then .next s
  else
    let here := p.spkg == s.harbour.pkg && p.sag / 8 == 0x30 + stack
    match (if p.op == 0x20 && p.oc == 2 && !here then s.boundAt stack p.job p.flow else none) with
    | none => .next (s.passOn stack p)
    | some (fc, b) =>
      if b.faulted then .next (s.modFerry stack fc (·.modBinding p.job p.flow countDrop))
      else .next (s.modFerry stack fc fun c => { c with queue := c.queue ++ [p] })

/-! ### The packet window (R389) -/

/-- The bytes of the window. -/
def windowOf (p : Packet) : List (Nat × Byte) :=
  (leCells 0 (pktHeader p) 32 ++ cellsAt 32 p.data).foldl (fun m c => Kv.set 0 c.1 c.2 m) []

/-- The packet that a window holds, with NDF as it stands there. -/
def packetOf (w : List (Nat × Byte)) : Packet :=
  let rd (b : Nat) : Byte := Kv.get 0 b w
  let h := leRead rd 0 32
  pktOfHeader h ((List.range (32 * bitsOf h 203 200)).map fun k => rd (32 + k))

/-! ### Invocations (R388, R393, R394, R400, R402) -/

/-- What an executing ferry word sees beside its invocation: the state, its die and core, the kernel and its slot. -/
structure FCtx where
  s : State
  stk : Nat
  fc : Nat
  core : FerryCore
  kernel : Kernel
  slot : Nat

/-- What a word does: go on at an index, forward or drop the packet, or trap with class, FTRAP code and ADDR. -/
inductive FEnd where
  | goes (r : FerryRun) (next : Nat)
  | forward (r : FerryRun)
  | drop (r : FerryRun)
  | trap (cls code addr : Nat)

abbrev FEff := FCtx → FerryRun → FEnd

/-- The running invocation of a ferry core. -/
def State.fctx (s : State) (stk fc : Nat) : Option (FCtx × FerryRun × Binding) :=
  let c := s.ferry stk fc
  match c.run with
  | none => none
  | some r =>
    match c.binding r.job r.flow with
    | none => none
    | some b => (Kv.find b.slot c.kernels).map fun k => (⟨s, stk, fc, c, k, b.slot⟩, r, b)

/-- AUX of a ferry record (R404). -/
def ferryAux (stk fc job flow slot : Nat) : Nat := job + 2 ^ 12 * flow + 2 ^ 28 * stk + 2 ^ 32 * fc + 2 ^ 35 * slot

/-- A ferry record (R404). -/
def ferryRecord (b : Binding) (stk fc kind cls detail addr : Nat) : FaultRec :=
  { FaultRec.ofKind kind with
    cls := cls
    detail := detail
    addr := addr
    aux := ferryAux stk fc b.job b.flow b.slot
    part := b.owner.part
    node := b.owner.node
    src := 0x180 + 8 * stk + fc }

/-- A binding becomes faulted: its record goes to the owning node, and the programs that own it fail (R402, R431). -/
def State.faultBinding (s : State) (stk fc : Nat) (b : Binding) (cls detail addr : Nat) : State :=
  let fault (x : Binding) : Binding := { x with faulted := true }
  let s := s.modFerry stk fc (·.modBinding b.job b.flow fault)
  (b.owner.send s (ferryRecord b stk fc 0x10 cls detail addr)).failFlow b.job b.flow

/-- No invocation runs on the core, and the focus leaves it. -/
def State.ferryIdle (s : State) (stk fc : Nat) : State :=
  { s.modFerry stk fc fun c => { c with run := none } with
    focus := if s.focus = .ferry stk fc then .none else s.focus }

/-- FERRY_TRAP_TAKEN (R402): the invocation's writes and packets are gone. -/
def State.ferryTrap (s : State) (stk fc : Nat) (r : FerryRun) (b : Binding) (cls code addr : Nat) : State :=
  (s.ferryIdle stk fc).faultBinding stk fc b cls (r.idx % 1024 + 1024 * code) addr

/-- FERRY_ROUTE_DISCARD (R396). -/
def ferryDiscard (stk fc : Nat) (b : Binding) (x : Packet) (s : State) : State :=
  b.owner.send s (ferryRecord b stk fc 0x11 0x24 0 (x.dpkg + 2 ^ 10 * x.dstk))

/-- The packets of an invocation leave in order. -/
def sendAll (stk fc : Nat) (b : Binding) : List Packet → State → State × List Instr
  | [], s => (s, [])
  | x :: t, s =>
    let r := s.sendOn stk x (ferryDiscard stk fc b x)
    let q := sendAll stk fc b t r.1
    (q.1, r.2 ++ q.2)

/-- An invocation ends: its flow state is committed, and its packets leave (R393, R394, R396). -/
def State.ferryEnd (s : State) (stk fc : Nat) (r : FerryRun) (b : Binding) (fwd : Bool) : State :=
  let commit (x : Binding) : Binding := { x with area := r.area }
  let s := (s.ferryIdle stk fc).modFerry stk fc (·.modBinding b.job b.flow commit)
  let q := sendAll stk fc b (r.emits ++ (if fwd then [packetOf r.window] else [])) s
  q.1.later q.2

/-- FERRY_INVOKE (R393): the oldest queued packet starts an invocation, and the words of its kernel are the next steps.
A packet whose binding is gone passes on. DESIGN CHOICE, log 30. -/
def execFerryInvoke (stack ferry : Nat) (s : State) : Res :=
  let c := s.ferry stack ferry
  if c.run.isSome then .next { s with focus := .ferry stack ferry }
  else
    match c.queue with
    | [] => .next s
    | p :: t =>
      let s := s.modFerry stack ferry fun c => { c with queue := t }
      match c.binding p.job p.flow with
      | none => .next (s.passOn stack p)
      | some b =>
        if b.faulted then .next (s.modFerry stack ferry (·.modBinding p.job p.flow countDrop))
        else
          let r : FerryRun := ⟨p.job, p.flow, windowOf p, [], [], [], 0, 0, none, [], b.area⟩
          let s := s.modFerry stack ferry fun c => { c with run := some r }
          .next { s with focus := .ferry stack ferry }

/-! ### Registers (R388) -/

def FerryRun.fs_ (r : FerryRun) (n : Fin 16) : Word := Kv.get 0 n.val r.fs
def FerryRun.setFs (r : FerryRun) (n : Fin 16) (w : Word) : FerryRun := { r with fs := Kv.set 0 n.val w r.fs }
def FerryRun.lane (r : FerryRun) (n : Fin 16) (l : Nat) : Word := Kv.get 0 (32 * n.val + l) r.fv
def FerryRun.setLane (r : FerryRun) (n : Fin 16) (l : Nat) (w : Word) : FerryRun :=
  { r with fv := Kv.set 0 (32 * n.val + l) w r.fv }
def FerryRun.mask (r : FerryRun) (n : Fin 4) : Word := if n = 0 then 0xFFFFFFFF else Kv.get 0 n.val r.fm
def FerryRun.setMask (r : FerryRun) (n : Fin 4) (w : Word) : FerryRun :=
  if n = 0 then r else { r with fm := Kv.set 0 n.val w r.fm }

/-- The lanes of a mask, increasing. -/
def FerryRun.lanes (r : FerryRun) (m : Fin 4) : List Nat := (List.range 32).filter fun l => (r.mask m).toNat.testBit l

/-! ### Executing a word (R400, R415) -/

/-- The position after an instruction: the next iteration of a REP body, or the index given. -/
def FerryRun.goTo (r : FerryRun) (n : Nat) : FerryRun :=
  match r.rep with
  | none => { r with idx := n }
  | some q =>
    if n = q.last + 1 then
      if q.iter + 1 < q.count then
        let r := match q.x with
          | some x => r.setFs x (BitVec.ofNat 32 (q.iter + 1))
          | none => r
        { r with
          idx := q.first
          rep := some { q with iter := q.iter + 1 } }
      else
        { r with
          idx := n
          rep := none }
    else { r with idx := n }

/-- The granule of the kernel store that holds an instruction. -/
def FCtx.granule (c : FCtx) (idx : Nat) : Nat := 2 ^ 16 * c.slot + idx / 8

/-- A ferry word executes as the invocation in focus: `cost` are its cycles and `f` what it does. DESIGN CHOICE, log 32. -/
def ferryWord (cost : FCtx → FerryRun → Nat) (f : FEff) (s : State) : Res :=
  match s.focus with
  | .ferry stk fc =>
    match s.fctx stk fc with
    | none => .next s
    | some (c, r, b) =>
      if c.core.badStore.contains (c.granule r.idx) then .next (s.ferryTrap stk fc r b 0x22 0 0)
      else
        let n := r.cycles + cost c r + (if c.core.fixStore.contains (c.granule r.idx) then 4 else 0)
        if c.kernel.bound < n then .next (s.ferryTrap stk fc r b 0x20 0 0)
        else
          match f c { r with cycles := n } with
          | .goes r next =>
            let r := r.goTo next
            if r.idx < c.kernel.words.length then .next (s.modFerry stk fc fun x => { x with run := some r })
            else .next (s.ferryEnd stk fc r b true)
          | .forward r => .next (s.ferryEnd stk fc r b true)
          | .drop r => .next (s.ferryEnd stk fc r b false)
          | .trap cls code addr => .next (s.ferryTrap stk fc r b cls code addr)
  | _ => .next s

/-- A word of a fixed cost that goes on at the next. -/
def ferryNext (cost : Nat) (f : FerryRun → FerryRun) : State → Res :=
  ferryWord (fun _ _ => cost) fun _ r => .goes (f r) (r.idx + 1)

/-! ### Vector instructions (R408 to R412) -/

/-- A value for each lane of the mask. -/
def FerryRun.map (r : FerryRun) (d : Fin 16) (m : Fin 4) (f : Nat → Word) : FerryRun :=
  (r.lanes m).foldl (fun x l => x.setLane d l (f l)) r

/-- Element by element: two 16-bit elements in a lane of a half type. -/
def ferryElems (half : Bool) (f : Nat → Nat → Nat → Nat) (a b d : Word) : Word :=
  if half then
    let lo := f (a.toNat % 2 ^ 16) (b.toNat % 2 ^ 16) (d.toNat % 2 ^ 16) % 2 ^ 16
    let hi := f (a.toNat / 2 ^ 16) (b.toNat / 2 ^ 16) (d.toNat / 2 ^ 16) % 2 ^ 16
    BitVec.ofNat 32 (lo + 2 ^ 16 * hi)
  else BitVec.ofNat 32 (f a.toNat b.toNat d.toNat)

/-- The type has two elements in a lane, and its format if it is a float. -/
def ferryHalf (ty : FTy) : Bool := ty == .i16 || ty == .bf16
def ferryWidth (ty : FTy) : Nat := if ferryHalf ty then 16 else 32
def ferryFmt : FTy → Option Fmt
  | .f32 => some .f32
  | .bf16 => some .bf16
  | .i32 | .i16 => none

/-- A vector instruction of two sources and the old destination. -/
def ferryVec (d a b : Fin 16) (m : Fin 4) (half : Bool) (f : Nat → Nat → Nat → Nat) : State → Res :=
  ferryNext 1 fun r => r.map d m fun l => ferryElems half f (r.lane a l) (r.lane b l) (r.lane d l)

/-- A sum or difference of integers, clamped under .sat. -/
def ferryAddInt (w : Nat) (sat sub : Bool) (a b : Nat) : Nat :=
  let x := if sub then signedOf w a - signedOf w b else signedOf w a + signedOf w b
  let x := if sat then clampInt (-(2 ^ (w - 1))) (2 ^ (w - 1) - 1) x else x
  (x % 2 ^ w).toNat

def ferryAdd (sub sat : Bool) (rnd : FRnd) (ty : FTy) (a b : Nat) : Nat :=
  match ferryFmt ty with
  | some f => (fAdd f (FRnd.mode rnd) sub a b).1
  | none => ferryAddInt (ferryWidth ty) sat sub a b

/-- VADD (R409). -/
def execVadd (d a b : Fin 16) (m : Fin 4) (sat : Bool) (rnd : FRnd) (ty : FTy) : State → Res :=
  ferryVec d a b m (ferryHalf ty) fun x y _ => ferryAdd false sat rnd ty x y
/-- VSUB (R409). -/
def execVsub (d a b : Fin 16) (m : Fin 4) (sat : Bool) (rnd : FRnd) (ty : FTy) : State → Res :=
  ferryVec d a b m (ferryHalf ty) fun x y _ => ferryAdd true sat rnd ty x y
/-- VMUL (R409). -/
def execVmul (d a b : Fin 16) (m : Fin 4) (rnd : FRnd) (ty : FTy) : State → Res :=
  ferryVec d a b m (ferryHalf ty) fun x y _ =>
    match ferryFmt ty with
    | some f => (fMul f (FRnd.mode rnd) x y).1
    | none => x * y
/-- VFMA (R409): the addend is the destination, read before it is written. -/
def execVfma (d a b : Fin 16) (m : Fin 4) (rnd : FRnd) (ty : FTy) : State → Res :=
  ferryVec d a b m (ferryHalf ty) fun x y z =>
    match ferryFmt ty with
    | some f => (fFma f (FRnd.mode rnd) false x y z).1
    | none => x * y + z

def ferryMinMax (isMax : Bool) (ty : FTy) (x y : Nat) : Nat :=
  match ferryFmt ty with
  | some f => (fMinMax f isMax false x y).1
  | none => if decide (signedOf (ferryWidth ty) x ≤ signedOf (ferryWidth ty) y) != isMax then x else y

/-- VMIN (R409). -/
def execVmin (d a b : Fin 16) (m : Fin 4) (ty : FTy) : State → Res :=
  ferryVec d a b m (ferryHalf ty) fun x y _ => ferryMinMax false ty x y
/-- VMAX (R409). -/
def execVmax (d a b : Fin 16) (m : Fin 4) (ty : FTy) : State → Res :=
  ferryVec d a b m (ferryHalf ty) fun x y _ => ferryMinMax true ty x y
/-- VAND (R409). -/
def execVand (d a b : Fin 16) (m : Fin 4) : State → Res := ferryVec d a b m false fun x y _ => Nat.land x y
/-- VOR (R409). -/
def execVor (d a b : Fin 16) (m : Fin 4) : State → Res := ferryVec d a b m false fun x y _ => Nat.lor x y
/-- VXOR (R409). -/
def execVxor (d a b : Fin 16) (m : Fin 4) : State → Res := ferryVec d a b m false fun x y _ => Nat.xor x y
/-- VSHL (R409, R110). -/
def execVshl (d a b : Fin 16) (m : Fin 4) (half : Bool) : State → Res :=
  ferryVec d a b m half fun x y _ => if (if half then 16 else 32) ≤ y then 0 else x * 2 ^ y
/-- VSHR (R409, R110): a count of the width or more gives zeros, or copies of the sign under .a. -/
def execVshr (d a b : Fin 16) (m : Fin 4) (arith half : Bool) : State → Res :=
  ferryVec d a b m half fun x y _ =>
    let w := if half then 16 else 32
    let n := min y w
    if arith then ((signedOf w x / 2 ^ n) % 2 ^ w).toNat else x / 2 ^ n
/-- VSEL (R410). -/
def execVsel (d a b : Fin 16) (m sel : Fin 4) : State → Res :=
  ferryNext 1 fun r => r.map d m fun l => if (r.mask sel).toNat.testBit l then r.lane a l else r.lane b l

/-- A comparison of VCMP. -/
def ferryCompare (c : FvCond) (flt : Bool) (x y : Nat) : Bool :=
  let f (c : FCond) : Bool := (fCmp .f32 c x y).1
  let a := signedOf 32 x
  let b := signedOf 32 y
  match c with
  | .eq => if flt then f .eq else x == y
  | .ne => if flt then f .ne else x != y
  | .lt => if flt then f .lt else decide (a < b)
  | .le => if flt then f .le else decide (a ≤ b)
  | .ltu => decide (x < y)
  | .leu => decide (x ≤ y)
  | .un => f .un

/-- VCMP (R410): bits outside the mask become 0. -/
def execVcmp (fm : Fin 4) (a b : Fin 16) (m : Fin 4) (c : FvCond) (flt : Bool) : State → Res :=
  ferryNext 1 fun r => r.setMask fm (BitVec.ofNat 32 (((r.lanes m).map fun l =>
    if ferryCompare c flt (r.lane a l).toNat (r.lane b l).toNat then 2 ^ l else 0).sum))

/-- FP32 to BF16, and a BF16 value as FP32. -/
def toBf16 (x : Nat) : Nat := (roundWide .bf16 .rn (FVal.ofBits .f32 .ieee x)).1
def ofBf16 (x : Nat) : Nat := (roundWide .f32 .rn (FVal.ofBits .bf16 .ieee x)).1

/-- A conversion of VCVT. -/
def ferryConvert (form : FvCvt) (x y : Nat) : Nat :=
  match form with
  | .f32i32 => (roundWide .f32 .rn (FVal.ofInt (signedOf 32 x))).1
  | .i32f32 => (floatToInt 32 true .rn 0 (FVal.ofBits .f32 .ieee x)).1
  | .bf16f32 => toBf16 x + 2 ^ 16 * toBf16 y
  | .f32bf16lo => ofBf16 (x % 2 ^ 16)
  | .f32bf16hi => ofBf16 (x / 2 ^ 16)

/-- VCVT (R410). -/
def execVcvt (d a b : Fin 16) (m : Fin 4) (form : FvCvt) : State → Res :=
  ferryVec d a b m false fun x y _ => ferryConvert form x y
/-- VBCAST (R410). -/
def execVbcast (d a : Fin 16) (m : Fin 4) : State → Res := ferryNext 1 fun r => r.map d m fun _ => r.fs_ a

/-- The fold of VRED. -/
def ferryRed (op : FvRed) (flt : Bool) : SquadOp :=
  match op, flt with
  | .add, false => .addI32
  | .add, true => .addF32
  | .min, false => .minI32
  | .min, true => .minF32
  | .max, false => .maxI32
  | .max, true => .maxF32

/-- VRED (R410). -/
def execVred (d a : Fin 16) (m : Fin 4) (op : FvRed) (flt : Bool) : State → Res :=
  ferryNext 2 fun r =>
    r.setFs d (BitVec.ofNat 32 (squadFold (ferryRed op flt) ((r.lanes m).map fun l => (r.lane a l).toNat)))

/-- FEVAL on one lane. -/
def fevalLane (t : TblImage) (bf16 : Bool) (x : Nat) : Except Cls Nat :=
  if bf16 then
    match t.eval (tblIn .bf16 (x % 2 ^ 16)) with
    | .error c => .error c
    | .ok lo => (t.eval (tblIn .bf16 (x / 2 ^ 16))).map fun hi => tblOut .bf16 .rn lo + 2 ^ 16 * tblOut .bf16 .rn hi
  else (t.eval (tblIn .f32 x)).map fun p => tblOut .f32 .rn p

/-- The results of the lanes in order, or the first fault with its lane. -/
def fevalLanes (t : TblImage) (bf16 : Bool) (r : FerryRun) (a : Fin 16) : List Nat → Except (Cls × Nat) (List (Nat × Nat))
  | [] => .ok []
  | l :: rest =>
    match fevalLane t bf16 (r.lane a l).toNat with
    | .error c => .error (c, l)
    | .ok v => (fevalLanes t bf16 r a rest).map fun x => (l, v) :: x

/-- FEVAL (R411, R412). -/
def execFeval (d a : Fin 16) (m : Fin 4) (table bf16 : Bool) : State → Res :=
  ferryWord (fun _ _ => 2) fun c r =>
    match fevalLanes (c.kernel.tables.getD (boolNat table) ⟨[], []⟩) bf16 r a (r.lanes m) with
    | .error (cls, l) => .trap cls.code 0 l
    | .ok vs => .goes (vs.foldl (fun r v => r.setLane d v.1 (BitVec.ofNat 32 v.2)) r) (r.idx + 1)

/-! ### Scalar instructions (R413) -/

/-- Operand B. -/
def FerryRun.src (r : FerryRun) : FSrc → Word
  | .reg b => r.fs_ b
  | .imm w => (BitVec.ofNat 16 w.val).signExtend 32

def ferryScalar (d a : Fin 16) (b : FSrc) (f : Word → Word → Word) : State → Res :=
  ferryNext 1 fun r => r.setFs d (f (r.fs_ a) (r.src b))

/-- SADD (R413). -/
def execSadd (d a : Fin 16) (b : FSrc) : State → Res := ferryScalar d a b fun x y => x + y
/-- SSUB (R413). -/
def execSsub (d a : Fin 16) (b : FSrc) : State → Res := ferryScalar d a b fun x y => x - y
/-- SAND (R413). -/
def execSand (d a : Fin 16) (b : FSrc) : State → Res := ferryScalar d a b fun x y => x &&& y
/-- SOR (R413). -/
def execSor (d a : Fin 16) (b : FSrc) : State → Res := ferryScalar d a b fun x y => x ||| y
/-- SSHL (R413). -/
def execSshl (d a : Fin 16) (b : FSrc) : State → Res :=
  ferryScalar d a b fun x y => if 32 ≤ y.toNat then 0 else x <<< y.toNat
/-- SSHR (R413). -/
def execSshr (d a : Fin 16) (b : FSrc) : State → Res :=
  ferryScalar d a b fun x y => if 32 ≤ y.toNat then 0 else x >>> y.toNat
/-- SMOVI (R413). -/
def execSmovi (d : Fin 16) (high : Bool) (imm : Fin 65536) : State → Res :=
  ferryNext 1 fun r => r.setFs d
    (if high then BitVec.ofNat 32 ((r.fs_ d).toNat % 2 ^ 16 + 2 ^ 16 * imm.val) else (BitVec.ofNat 16 imm.val).signExtend 32)

/-! ### Control instructions (R414, R415) -/

/-- A branch: to the target, or on. -/
def ferryBranch (disp : Fin 1024) (f : FerryRun → Bool) : State → Res :=
  ferryWord (fun _ _ => 1) fun _ r => .goes r (r.idx + (if f r then disp.val else 1))

/-- BR (R414). -/
def execBr (c : FbCond) (a b : Fin 16) (disp : Fin 1024) : State → Res :=
  ferryBranch disp fun r =>
    let x := r.fs_ a
    let y := r.fs_ b
    match c with
    | .eq => x == y
    | .ne => x != y
    | .lt => x.slt y
    | .ge => !x.slt y
    | .ltu => x.ult y
    | .geu => !x.ult y
    | .always => true

/-- BRM (R414). -/
def execBrm (c : FmCond) (fm : Fin 4) (disp : Fin 1024) : State → Res :=
  ferryBranch disp fun r =>
    let x := r.mask fm
    match c with
    | .any => x != 0
    | .none => x == 0
    | .all => x == 0xFFFFFFFF
    | .notall => x != 0xFFFFFFFF

/-- REP (R415). -/
def execRep (countM1 : Fin 1024) (x : Option (Fin 16)) (len : Fin 1024) : State → Res :=
  ferryNext 1 fun r =>
    let r := match x with
      | some n => r.setFs n 0
      | none => r
    { r with rep := some ⟨r.idx + 1, r.idx + len.val, 0, countM1.val + 1, x⟩ }

/-! ### Packet fate (R416) -/

/-- FTRAP (R416). -/
def execFtrap (a : Fin 16) (code : Fin 64) : State → Res :=
  ferryWord (fun _ _ => 1) fun _ r => .trap 0x23 code.val (r.fs_ a).toNat
/-- FWD (R393). -/
def execFwd : State → Res := ferryWord (fun _ _ => 1) fun _ r => .forward r
/-- DROP (R393). -/
def execDrop : State → Res := ferryWord (fun _ _ => 1) fun _ r => .drop r

/-- EMIT (R396). -/
def execEmit : State → Res :=
  ferryWord (fun _ _ => 4) fun c r =>
    let p := { packetOf r.window with
      spkg := c.s.harbour.pkg
      sstk := c.stk
      sag := 0x180 + 8 * c.stk + c.fc
      txid := 0 }
    .goes { r with emits := r.emits ++ [p] } (r.idx + 1)

/-- The bits of the header that a field of PSET names: the lowest and the width. -/
def pktFieldBits : PktField → Nat × Nat
  | .dpkg => (246, 10)
  | .dstk => (242, 4)
  | .imml => (0, 32)
  | .immh => (32, 32)
  | .ndf => (200, 4)

/-- PSET (R416). -/
def execPset (a : Fin 16) (fld : PktField) : State → Res :=
  ferryNext 1 fun r =>
    let h := leRead (fun b => Kv.get 0 b r.window) 0 32
    let f := pktFieldBits fld
    let v := h - h / 2 ^ f.1 % 2 ^ f.2 * 2 ^ f.1 + (r.fs_ a).toNat % 2 ^ f.2 * 2 ^ f.1
    { r with window := (leCells 0 v 32).foldl (fun m c => Kv.set 0 c.1 c.2 m) r.window }

/-! ### Window and state instructions (R417) -/

/-- The offset, and the check of its alignment and range. -/
def FerryRun.offset (r : FerryRun) (a : Fin 16) (off : Fin 4096) : Nat := ((r.fs_ a).toNat + off.val) % 2 ^ 32
def ferryRangeOk (v : Bool) (limit o : Nat) : Bool :=
  o % (if v then 32 else 4) == 0 && decide (o + (if v then 128 else 4) ≤ limit)

/-- A destination register takes bytes; a data register gives its bytes. -/
def FerryRun.takeBytes (r : FerryRun) (d : Fin 16) (v : Bool) (rd : Nat → Byte) : FerryRun :=
  if v then (List.range 32).foldl (fun r l => r.setLane d l (BitVec.ofNat 32 (leRead rd (4 * l) 4))) r
  else r.setFs d (BitVec.ofNat 32 (leRead rd 0 4))
def FerryRun.giveBytes (r : FerryRun) (d : Fin 16) (v : Bool) : List Byte :=
  if v then (List.range 32).flatMap fun l => bytesOf (r.lane d l).toNat 4 else bytesOf (r.fs_ d).toNat 4

/-- Cycles of an access. -/
def ferryMemCost (v : Bool) : Nat := if v then 2 else 1

/-- PLD (R417). -/
def execPld (d a : Fin 16) (v : Bool) (off : Fin 4096) : State → Res :=
  ferryWord (fun _ _ => ferryMemCost v) fun _ r =>
    let o := r.offset a off
    if ferryRangeOk v 512 o then .goes (r.takeBytes d v fun k => Kv.get 0 (o + k) r.window) (r.idx + 1)
    else .trap 0x21 0 o

/-- PST (R417): the header is out of its range. -/
def execPst (d a : Fin 16) (v : Bool) (off : Fin 4096) : State → Res :=
  ferryWord (fun _ _ => ferryMemCost v) fun _ r =>
    let o := r.offset a off
    if ferryRangeOk v 512 o ∧ 32 ≤ o then
      .goes { r with window := (cellsAt o (r.giveBytes d v)).foldl (fun m c => Kv.set 0 c.1 c.2 m) r.window } (r.idx + 1)
    else .trap 0x21 0 o

/-- The 32-byte granules of flow state that an access reads. -/
def flowGranules (r : FerryRun) (v : Bool) (o : Nat) : List (Nat × Nat × Nat) :=
  (List.range (if v then 4 else 1)).map fun k => (r.job, r.flow, o / 32 + k)

/-- SLD (R417): a read that corrects an error takes 4 cycles more. -/
def execSld (d a : Fin 16) (v : Bool) (off : Fin 4096) : State → Res :=
  ferryWord (fun c r => ferryMemCost v + (let o := r.offset a off
      if ferryRangeOk v (64 * c.kernel.state64) o ∧ (flowGranules r v o).any c.core.fixFlow.contains then 4 else 0))
    fun c r =>
      let o := r.offset a off
      if !ferryRangeOk v (64 * c.kernel.state64) o then .trap 0x21 0 o
      else if (flowGranules r v o).any c.core.badFlow.contains then .trap 0x22 0 0
      else .goes (r.takeBytes d v fun k => Kv.get 0 (o + k) r.area) (r.idx + 1)

/-- SST (R394, R417). -/
def execSst (d a : Fin 16) (v : Bool) (off : Fin 4096) : State → Res :=
  ferryWord (fun _ _ => ferryMemCost v) fun c r =>
    let o := r.offset a off
    if ferryRangeOk v (64 * c.kernel.state64) o then
      .goes { r with area := (cellsAt o (r.giveBytes d v)).foldl (fun m c => Kv.set 0 c.1 c.2 m) r.area } (r.idx + 1)
    else .trap 0x21 0 o

end Sys2Proof.Machine
end

