-- ==== Sys2Proof/Machine/Fabric.lean ====
section
/-! DEFINITION. Packets between packages: what the home of an address does with a request, what a requester does with a
response, probes, the 4 ms limit, and targeted refresh (R261, R371 to R374, R377, R380, R381, R384, R385). -/

namespace Sys2Proof.Machine

/-! ### Arrival (R373, R384) -/

/-- The assigned values of OP. -/
def packetOps : List Nat :=
  [0x01, 0x02, 0x03, 0x04, 0x05, 0x06, 0x08, 0x09, 0x0C, 0x10, 0x11, 0x12, 0x18, 0x19, 0x1A, 0x20, 0x30]

/-- A packet that the first router discards (R373). -/
def badPacket (p : Packet) : Bool := !packetOps.contains p.op || decide (3 < p.esz)

/-- A packet of one operation arrives: BAD_PACKET_DISCARD, transit to a third package, or what the operation does. -/
def arrival (op : Nat) (p : Packet) (f : State → State) (s : State) : Res :=
  if badPacket p then .next (routerDrop p.dstk p s)
  else if p.op ≠ op then .next s
  else if p.dpkg ≠ s.harbour.pkg then
    .next (if s.unreachable p.dpkg then routerDrop p.dstk p s else s.emit (.packet p))
  else .next (f s)

/-- The stack that serves an address here. -/
def State.servedBy (s : State) (spa : Nat) : Nat := if s.target spa = .dram then s.homeStack spa else 0

/-- A response to a request. -/
def State.response (s : State) (p : Packet) (op imm : Nat) (data : List Byte) : Packet :=
  let k := s.servedBy p.addr
  { p with
    op := op
    oc := 0
    dpkg := p.spkg
    dstk := p.sstk
    spkg := s.harbour.pkg
    sstk := k
    sag := 0x200 + k
    imm := BitVec.ofNat 64 imm
    data := data }
def State.respond (s : State) (p : Packet) (op imm : Nat) (data : List Byte) : State := s.emit (.packet (s.response p op imm data))
def State.ack (s : State) (p : Packet) : State := s.respond p 0x11 0 []
def State.refuse (s : State) (p : Packet) (status : Nat) : State := s.respond p 0x12 status []

/-- Bytes padded to whole data flits, at least one. -/
def flitBytes (l : List Byte) : List Byte :=
  l ++ List.replicate ((max 1 ((l.length + 31) / 32)) * 32 - l.length) 0

/-! ### Lines with probes outstanding (R381) -/

/-- A request reaches lines that have not settled, or behind which others wait. -/
def State.unsettled (s : State) (lines : List Nat) : Bool :=
  lines.any fun l => s.probing l || s.lineQueue.any fun w => w.lines.contains l

/-- A request is served, or waits until its lines settle. -/
def atHome (x : Settle) (lines : List Nat) (f : State → State) (s : State) : State :=
  if s.unsettled lines then { s with lineQueue := s.lineQueue ++ [⟨lines, x⟩] } else f s

/-- A request whose packet says all of it. -/
def plainRequest (p : Packet) : Settle := .request p .exch .b32 false

/-- An answer leaves once the lines that its request wrote have settled. -/
def State.answerAfter (s : State) (lines : List Nat) (m : Packet) : State :=
  if lines.any s.probing then { s with lineQueue := s.lineQueue ++ [⟨lines, .answer m⟩] } else s.emit (.packet m)

/-! ### The home (R261, R379 to R381) -/

/-- One write into a granule at its home, for a packet. False where it is not performed, and the granule is marked. -/
def State.homeGranule (s : State) (gr : Nat) (cells : List Host.Cell) : State × Bool :=
  let s := s.snoop (gr / 64) true
  let whole := (List.range (s.granule gr)).all fun k => cells.any fun c => c.1 == gr + k
  if !whole && (Kv.find gr s.ecc).isSome then (s.markPoison gr, false)
  else
    let s : State := { s with ecc := Kv.erase gr s.ecc }
    ((s.setCells cells).probeHolders 0 (gr / 64), true)

/-- A write at its home: one for each granule. -/
def State.homeWrite (s : State) (cells : List Host.Cell) : State × Bool :=
  (distinct (cells.map fun c => s.granuleOf c.1)).foldl (fun (r : State × Bool) gr =>
    let q := r.1.homeGranule gr (cells.filter fun c => s.granuleOf c.1 == gr)
    (q.1, r.2 && q.2)) (s, true)

/-- A write packet's bytes are performed, and it is answered. -/
def State.serveWrite (s : State) (p : Packet) (cells : List Host.Cell) : State :=
  if cells.any fun c => s.target c.1 != .dram then s.refuse p 2
  else
    let r := s.homeWrite cells
    r.1.answerAfter (distinct (cells.map fun c => c.1 / 64)) (r.1.response p (if r.2 then 0x11 else 0x12) (boolNat !r.2) [])

/-- The holders of a line: packages that keep a copy (R380). DESIGN CHOICE, log 71. -/
def State.addHolder (s : State) (line pkg : Nat) : State :=
  s.modDie (s.homeStack (line * 64)) fun d =>
    let l := Kv.get [] line d.dir
    { d with dir := Kv.set [] line (if l.contains pkg then l else l ++ [pkg]) d.dir }
def State.dropHolder (s : State) (line pkg : Nat) : State :=
  s.modDie (s.homeStack (line * 64)) fun d => { d with dir := Kv.set [] line ((Kv.get [] line d.dir).erase pkg) d.dir }

/-- The bytes of the sectors of a line that a mask names. -/
def State.sectors (s : State) (spa mask : Nat) : List Byte :=
  ([0, 1].map fun k => if mask.testBit k then (List.range 32).map fun b => s.byteAt (spa + 32 * k + b) else []).flatten

/-- The sectors named by a mask of 2 bits, as an address and a length. -/
def sectorSpan (mask : Nat) : Nat × Nat := if mask = 3 then (0, 64) else if mask = 2 then (32, 32) else (0, 32)

/-- RDL (R373): the line's sectors, and a holder more. -/
def rdlAt (p : Packet) (s : State) : State :=
  let spa := p.addr / 64 * 64
  let mask := p.imm.toNat % 4
  if s.target spa ≠ .dram then s.refuse p 2
  else
    let s := s.snoop (spa / 64) false
    let span := sectorSpan mask
    match s.poisonedIn (spa + span.1) span.2 with
    | some gr => (s.markRead gr).refuse p 1
    | none => (s.addHolder (spa / 64) p.spkg).respond p 0x10 mask (s.sectors spa mask)
def execRdl (p : Packet) : State → Res := arrival 0x01 p (atHome (plainRequest p) [p.addr / 64] (rdlAt p))

/-- The bytes that a line write names: its data is the whole line, or its one sector. -/
def lineCells (p : Packet) : List Host.Cell :=
  ((List.range 64).filter fun k => p.imm.toNat.testBit k).map fun k =>
    (p.addr / 64 * 64 + k, p.data.getD (if 64 ≤ p.data.length then k else k % 32) 0)

/-- WRL (R261, R373). -/
def wrlAt (p : Packet) (s : State) : State := s.serveWrite p (lineCells p)
def execWrl (p : Packet) : State → Res := arrival 0x02 p (atHome (plainRequest p) [p.addr / 64] (wrlAt p))

/-- An atomic or reduction at its home (R265). -/
def atomAt (p : Packet) (op : AtomOp) (ty : Ty) (ret : Bool) (s : State) : State :=
  let n := tyBits ty / 8
  let x := p.imm.toNat % 2 ^ tyBits ty
  let cmp := leRead (fun b => p.data.getD b 0) 0 n
  let old := leRead s.byteAt p.addr n
  let answer (s : State) (old : Nat) : State := s.respond p 0x11 (if ret then old else 0) []
  match s.target p.addr with
  | .dram =>
    let s := s.snoop (p.addr / 64) true
    match s.poisonedIn p.addr n with
    | some gr => (if ret then s else s.markPoison gr).refuse p 1
    | none =>
      let old := leRead s.byteAt p.addr n
      match atomNew op ty old x cmp with
      | none => answer s old
      | some v =>
        let s := (s.homeWrite (leCells p.addr v n)).1
        s.answerAfter [p.addr / 64] (s.response p 0x11 (if ret then old else 0) [])
  | .control =>
    match ctlPlace (spaLocal p.addr) with
    | .window =>
      match atomNew op ty old x cmp with
      | none => answer s old
      | some v => answer (s.setCells (windowCells p.addr v n)) old
    | .hail _ _ => answer s 0
    | _ => s.refuse p 2
  | _ => s.refuse p 2

/-- ATM (R265): the header names no operation and no type; the event gives them. -/
def execAtm (p : Packet) (op : AtomOp) (ty : Ty) : State → Res := arrival 0x03 p (atHome (.request p op ty false) [p.addr / 64] (atomAt p op ty true))
/-- RDC (R265). -/
def execRdc (p : Packet) (op : AtomOp) (ty : Ty) : State → Res := arrival 0x04 p (atHome (.request p op ty false) [p.addr / 64] (atomAt p op ty false))
/-- AMX (R266): an exchange of 32 bits. -/
def execAmx (p : Packet) : State → Res := arrival 0x05 p (atHome (plainRequest p) [p.addr / 64] (atomAt p .exch .b32 true))

/-- A hail that comes from another package: its partition needs the host's permission (R455). DESIGN CHOICE, log 25. -/
def State.hailFrom (s : State) (writer p : Nat) (payload : DWord) : State :=
  match s.part p with
  | none => s
  | some x => if x.params.hailers.contains writer then s.hail p payload else s

/-- The bytes of a sector that a CTL names by IMM: the first one's address, and their number (R377). -/
def ctlSpan (p : Packet) : Nat × Nat :=
  let mask := p.imm.toNat % 2 ^ 32
  (p.addr / 32 * 32 + ((List.range 32).find? mask.testBit).getD 0, ((List.range 32).filter mask.testBit).length)

/-- A CTL: an access to control registers, or to DRAM whose pages are of type control (R249, R377). -/
def ctlAt (p : Packet) (store : Bool) (s : State) : State :=
  let spa := (ctlSpan p).1
  let n := (ctlSpan p).2
  let off := spa % 32
  let v := leRead (fun b => p.data.getD b 0) off n
  let value (s : State) (v : Nat) : State := s.respond p 0x10 1 (flitBytes (List.replicate off 0 ++ bytesOf v n))
  match s.target spa with
  | .control =>
    if !store then value s (ctlRead s spa n)
    else
      match ctlPlace (spaLocal spa) with
      | .window => (s.setCells (windowCells spa v n)).ack p
      | .hail q o => (if o = 0 ∧ n = 8 then s.hailFrom p.part q (BitVec.ofNat 64 v) else s).ack p
      | .interleave _ _ => s.refuse p 2
      | .nothing => s.ack p
  | .dram =>
    if store then s.serveWrite p (leCells spa v n)
    else
      let s := s.snoop (spa / 64) false
      match s.poisonedIn spa n with
      | some gr => (s.markRead gr).refuse p 1
      | none => value s (leRead s.byteAt spa n)
  | _ => s.refuse p 2
/-- CTL (R377). -/
def execCtl (p : Packet) (store : Bool) : State → Res :=
  arrival 0x06 p (atHome (.request p .exch .b32 store) [p.addr / 64] (ctlAt p store))

/-! ### Vector packets (R374) -/

def vecCount (p : Packet) : Nat := p.noffm1 + 1
def vecSize (p : Packet) : Nat := 2 ^ p.esz
def vecOffset (p : Packet) (i : Nat) : Nat := leRead (fun b => p.data.getD b 0) (2 * i) 2
def vecAddr (p : Packet) (i : Nat) : Nat := p.addr / 2 ^ 16 * 2 ^ 16 + vecOffset p i

/-- The elements of a gather, in order, or the granule that cannot be read. -/
def vecRead (p : Packet) : Nat → State → Except Nat (List Byte × State)
  | 0, s => .ok ([], s)
  | n + 1, s =>
    match vecRead p n s with
    | .error g => .error g
    | .ok (l, s) =>
      let spa := vecAddr p n
      let s := s.snoop (spa / 64) false
      match s.poisonedIn spa (vecSize p) with
      | some g => .error g
      | none => .ok (l ++ (List.range (vecSize p)).map fun b => s.byteAt (spa + b), s)

/-- A packet whose elements are not all aligned and in DRAM here. -/
def vecBad (p : Packet) (s : State) : Bool :=
  (List.range (vecCount p)).any fun i => vecOffset p i % vecSize p != 0 || s.target (vecAddr p i) != .dram

/-- The lines of a vector packet. -/
def vecLines (p : Packet) : List Nat := distinct ((List.range (vecCount p)).map fun i => vecAddr p i / 64)

def vgtAt (p : Packet) (s : State) : State :=
  if vecBad p s then s.refuse p 2
  else
    match vecRead p (vecCount p) s with
    | .error g => (s.markRead g).refuse p 1
    | .ok (l, s) => s.respond p 0x10 0 (flitBytes l)
/-- VGT (R374). -/
def execVgt (p : Packet) : State → Res := arrival 0x08 p (atHome (plainRequest p) (vecLines p) (vgtAt p))

/-- The bytes of a scatter, in offset order: its elements follow the offset flits. -/
def vecCells (p : Packet) : List Host.Cell :=
  let base := 32 * ((vecCount p + 15) / 16)
  (List.range (vecCount p)).flatMap fun i => (List.range (vecSize p)).map fun b =>
    (vecAddr p i + b, p.data.getD (base + vecSize p * i + b) 0)

def vscAt (p : Packet) (s : State) : State :=
  if vecBad p s then s.refuse p 2 else s.serveWrite p (vecCells p)
/-- VSC (R374). -/
def execVsc (p : Packet) : State → Res := arrival 0x09 p (atHome (plainRequest p) (vecLines p) (vscAt p))

/-- FNC (R377): what came before it has been performed. -/
def execFnc (p : Packet) : State → Res := arrival 0x0C p fun s => s.ack p

/-! ### What has waited for lines goes on (R381) -/

/-- A request that reaches lines of this package is performed, or an answer leaves. -/
def State.serve (s : State) : Settle → State
  | .answer m => s.emit (.packet m)
  | .request p op ty store =>
    match p.op with
    | 0x02 => wrlAt p s
    | 0x03 => atomAt p op ty true s
    | 0x04 => atomAt p op ty false s
    | 0x05 => atomAt p .exch .b32 true s
    | 0x06 => ctlAt p store s
    | 0x08 => vgtAt p s
    | 0x09 => vscAt p s
    | _ => rdlAt p s

/-- What waits goes on in order, but what waits for a line with a probe outstanding, and what stands behind that. -/
def State.serveFrom : List Nat → List LineWait → State → State
  | _, [], s => s
  | behind, w :: t, s =>
    if w.lines.any fun l => s.probing l || behind.contains l then
      State.serveFrom (w.lines ++ behind) t { s with lineQueue := s.lineQueue ++ [w] }
    else State.serveFrom behind t (s.serve w.what)

/-- A line has settled. -/
def State.settleLines (s : State) : State := State.serveFrom [] s.lineQueue { s with lineQueue := [] }

/-- An answer may be what an agent of a base die waits for: the stacks offer their held packets again, and work that ends is
looked at. -/
def State.resumeDies (s : State) : State :=
  (s.dies.foldl (fun s d => if d.2.held.isEmpty then s else State.offerHeld d.1 (s.die d.1).held [] s) s).landEnds

/-- A request of a base die is over: the die sends its next probe, and what waited for it, or for a line that has settled,
goes on. -/
def State.requestOver (s : State) (r : RemoteReq) : State :=
  if 0x200 ≤ r.core ∧ r.core < 0x210 then
    let s := s.sendProbe (r.core - 0x200)
    (if r.probe.isSome then s.settleLines else s).resumeDies
  else s

/-! ### Responses (R373, R378, R384) -/

/-- A posted write fails: its record is sent, and its block may end. -/
def State.postFailed (s : State) (k : Nat) (r : FaultRec) : State := (s.sendBlockRecord k r).endCheck k

/-- The request of a transaction tag that waits for a package. -/
def State.waiting (s : State) (p : Packet) : Option RemoteReq :=
  (Kv.find p.txid s.reqs).bind fun r => if r.pkg = p.spkg then some r else none

/-- A request is over; the RDMA writes that waited for it alone are acknowledged (R463). -/
def State.dropReq (s : State) (txid : Nat) : State :=
  let acks := s.harbour.acks.map fun (a : Nat × List Nat) => (a.1, a.2.filter (· != txid))
  let s : State :=
    { s with
      reqs := Kv.erase txid s.reqs
      harbour := { s.harbour with acks := acks.filter fun a => !a.2.isEmpty } }
  (acks.filter fun a => a.2.isEmpty).foldl (fun s a => s.emit (.rdmaAck a.1 0)) s

/-- A line comes from its home: the sectors that it holds (R379). -/
def State.fillProxy (s : State) (line : Nat) (p : Packet) : State :=
  let mask := p.imm.toNat % 4
  let span := sectorSpan mask
  let s := s.setCells ((List.range span.2).map fun k => (line * 64 + span.1 + k, p.data.getD k 0))
  if mask = 3 ∧ !s.proxy.contains line then { s with proxy := insertBy id line s.proxy } else s

/-- A request keeps the value that answers it. -/
def State.answered (s : State) (txid : Nat) (v : DWord) : State :=
  let put (r : RemoteReq) : RemoteReq := { r with val := some v }
  { s with reqs := Kv.modify txid put s.reqs }

def rsdAt (p : Packet) (s : State) : State :=
  match s.waiting p with
  | none => s
  | some r =>
    match r.ask with
    | none => (s.dropReq p.txid).requestOver r
    | some a =>
      if a < 2 ^ 60 then ((s.dropReq p.txid).fillProxy a p).requestOver r
      else (s.answered p.txid (BitVec.ofNat 64 (leRead (fun b => p.data.getD b 0) (a % 32) 8))).requestOver r
/-- RSD (R373): a response that no request waits for is discarded. -/
def execRsd (p : Packet) : State → Res := arrival 0x10 p (rsdAt p)

def rsaAt (p : Packet) (s : State) : State :=
  match s.waiting p with
  | none => s
  | some r =>
    match r.post with
    | some (k, _) => ((s.dropReq p.txid).requestOver r).endCheck k
    | none => if r.probe.isSome then (s.dropReq p.txid).requestOver r else (s.answered p.txid p.imm).requestOver r
/-- RSA (R373). -/
def execRsa (p : Packet) : State → Res := arrival 0x11 p (rsaAt p)

/-- A request fails with a status: a posted write's record is sent, and another access takes its fault (R384). -/
def State.reqFailed (s : State) (txid status : Nat) (r : RemoteReq) : State :=
  match r.post with
  | some (k, rec) => ((s.dropReq txid).requestOver r).postFailed k rec
  | none =>
    if r.probe.isSome then (s.dropReq txid).requestOver r
    else
      let put (r : RemoteReq) : RemoteReq := { r with err := status }
      { s with reqs := Kv.modify txid put s.reqs }.requestOver r

def rseAt (p : Packet) (s : State) : State :=
  match s.waiting p with
  | none => s
  | some r => s.reqFailed p.txid (max 1 (p.imm.toNat % 4)) r
/-- RSE (R373). -/
def execRse (p : Packet) : State → Res := arrival 0x12 p (rseAt p)

/-- REMOTE_TIMEOUT (R384): 4 ms after it was sent, a request without an answer completes as POISON. -/
def execRemoteTimeout (txid : Nat) (s : State) : Res :=
  match Kv.find txid s.reqs with
  | none => .next s
  | some r =>
    if s.clock < r.sent + 4000000 ∨ r.val.isSome ∨ r.err ≠ 0 then .next s else .next (s.reqFailed txid 2 r)

/-! ### Probes and write-backs (R239, R380, R381) -/

/-- A line whose home takes it back: a fill of it that is on its way is not kept either, and is asked for again (R381). -/
def State.unfill (s : State) (line : Nat) : State :=
  { s with reqs := s.reqs.map fun r => (r.1, if r.2.ask = some line then { r.2 with ask := none } else r.2) }

/-- A probe reaches what this package holds of a line, in its proxy slice and in stash lines. Copies of other packages' lines
are never modified: every write goes to its home. -/
def probeAt (inv : Bool) (p : Packet) (s : State) : State :=
  let line := p.addr / 64
  if spaPkg p.addr = s.harbour.pkg then (s.snoop line inv).ack p
  else
    let s := s.snoop line inv
    (if inv then (if s.proxy.contains line then s.dropProxy line else s).unfill line else s).ack p
/-- PRI (R239, R380). -/
def execPri (p : Packet) : State → Res := arrival 0x18 p (probeAt true p)
/-- PRS (R239, R380). -/
def execPrs (p : Packet) : State → Res := arrival 0x19 p (probeAt false p)

def wbkAt (p : Packet) (s : State) : State :=
  if s.target (p.addr / 64 * 64) ≠ .dram then s.refuse p 2
  else
    let line := p.addr / 64
    let mine (r : RemoteReq) : Bool := r.pkg == p.spkg && r.probe.any fun x => x.1 == line
    let s := (s.dropHolder line p.spkg).serveWrite p (lineCells p)
    match s.reqs.find? fun r => mine r.2 with
    | some (t, r) => (s.dropReq t).requestOver r
    | none => s
/-- WBK (R380, R381): one that crosses a probe of its line is the probe's answer. -/
def execWbk (p : Packet) : State → Res := arrival 0x1A p (wbkAt p)

/-! ### Row disturbance (R385) -/

/-- TARGETED_REFRESH (R385): a row's count has reached 1,024 by an activation of a partition. The fourth charge within
64 µs limits the partition's activations there for the next 64 µs. DESIGN CHOICE, log 49. -/
def execTargetedRefresh (stack pch row part : Nat) (s : State) : Res :=
  let key := 64 * part + pch
  let recent := ((Kv.get [] key (s.die stack).charged).filter fun t => decide (s.clock < t + 64000)) ++ [s.clock]
  let s := s.modDie stack fun d =>
    { d with
      charged := Kv.insert key recent d.charged
      limited := if 4 ≤ recent.length then Kv.insert key (s.clock + 64000) d.limited else d.limited }
  .next (s.postEvent 0 (0x200 + stack) [part, stack, pch, row])

end Sys2Proof.Machine
end

