-- ==== Sys2Proof/Machine/DefTables.lean ====
section
/-! DEFINITION. The default tables (R156): what the rule fixes of the six images; the words that it leaves to the firmware are
free. -/

namespace Sys2Proof.Machine

/-- A row of R156: its offset, LO, HI and INVW as FP32 encodings, NSEG, and the policy and value below and above. -/
structure DefTable where
  off : Nat
  lo : Nat
  hi : Nat
  invw : Nat
  nseg : Nat
  below : Nat × Option Nat
  above : Nat × Option Nat
  deriving DecidableEq, Repr

def rcpSeed : DefTable := ⟨0x0000, 0x3F800000, 0x40000000, 0x42800000, 64, (0, none), (0, none)⟩
def rsqrtSeed : DefTable := ⟨0x2000, 0x3F800000, 0x40800000, 0x42000000, 96, (0, none), (0, none)⟩
def expTable : DefTable := ⟨0x4000, 0xC2800000, 0x42800000, 0x40000000, 256, (2, some 0), (2, some 0x7F800000)⟩
def geluTable : DefTable := ⟨0x6000, 0xC1000000, 0x41000000, 0x41800000, 256, (2, some 0x80000000), (1, none)⟩
def siluTable : DefTable := ⟨0x8000, 0xC1A00000, 0x41400000, 0x41000000, 256, (2, some 0x80000000), (1, none)⟩
def elu1Table : DefTable := ⟨0xA000, 0xC1800000, 0x41800000, 0x41000000, 256, (2, some 0), (1, none)⟩

def defTables : List DefTable := [rcpSeed, rsqrtSeed, expTable, geluTable, siluTable, elu1Table]

/-- A word of an image that R156 does not fix, by the image's offset and the word's number. DESIGN CHOICE, log 9. -/
def DefTable.free (t : DefTable) (n : Nat) : Nat := (Config.tableWord t.off n).toNat

/-- CTRL: degree 3, uniform, NANP 00 and ADJ 00. What holds in exponent mode alone is free. -/
def DefTable.ctrl (t : DefTable) : Nat :=
  t.free 2 / 2 ^ 21 * 2 ^ 21 + t.above.1 * 2 ^ 14 + t.below.1 * 2 ^ 12 + 3 * 2 ^ 8 + (t.nseg - 1)

/-- A segment: the ones of elu1 from 0 upward are fixed, and none is a gap. -/
def DefTable.seg (t : DefTable) (i : Nat) : List Nat :=
  let w (n : Nat) : Nat := t.free (16 + 6 * i + n)
  let sexp := w 5 / 2 ^ 8 % 2 ^ 8 * 2 ^ 8
  if t = elu1Table ∧ 128 ≤ i then [0, 0x3F800000, 0x3F800000, 0, 0, sexp] else [w 0, w 1, w 2, w 3, w 4, sexp]

/-- An image, as the loader reads it (R140 to R142). -/
def DefTable.image (t : DefTable) : TblImage :=
  { hdr := [t.lo, t.hi, t.ctrl, Config.tableVersion.toNat, t.invw, t.below.2.getD (t.free 5), t.above.2.getD (t.free 6),
      t.free 7, t.free 8 % 2 ^ 8] ++ List.replicate 7 0
    segs := (List.range t.nseg).map t.seg }

/-- Its bytes. -/
def DefTable.bytes (t : DefTable) : List Byte :=
  ((t.image.hdr ++ t.image.segs.flatten).map fun w => bytesOf w 4).flatten

/-- The images as they stand in an area that begins at an address. -/
def defTableCells (a : Nat) : List Host.Cell := (defTables.map fun t => cellsAt (a + t.off) t.bytes).flatten

end Sys2Proof.Machine
end

