-- ==== Sys2Proof/Machine/FerryLoad.lean ====
section
/-! DEFINITION. The ferry loader, and FERRY.LOAD, FERRY.BIND and FERRY.UNBIND (R387, R391, R397 to R399, R402, R436). -/

namespace Sys2Proof.Machine

/-! ### The loader's checks (R397 to R399) -/

/-- The header's checks: NTBL, BOUND, res0 and the table offsets. -/
def kernelHdrBad (h : Nat) : Bool :=
  let ntbl := bitsOf h 31 30
  let code := 64 + 4 * (h % 1024 + 1)
  let badOff (t off : Nat) : Bool := if ntbl ≤ t then off != 0 else off % 64 != 0 || decide (off < code)
  ntbl == 3 || bitsOf h 29 20 == 0 || decide (512 < bitsOf h 29 20) || bitsOf h 19 16 != 0 || bitsOf h 511 128 != 0 ||
    badOff 0 (bitsOf h 95 64) || badOff 1 (bitsOf h 127 96)

/-- The cycles of an instruction (R398). -/
def ferryCost : Instr → Nat
  | .pld _ _ v _ | .pst _ _ v _ | .sld _ _ v _ | .sst _ _ v _ => if v then 2 else 1
  | .vred _ _ _ _ _ | .feval _ _ _ _ _ => 2
  | .emit => 4
  | _ => 1

/-- The emits of an instruction. -/
def ferryEmits : Instr → Nat
  | .emit => 1
  | _ => 0

/-- FEVAL names a table that the kernel does not have. -/
def fevalBad (ntbl : Nat) : Instr → Bool
  | .feval _ _ _ table _ => decide (ntbl ≤ boolNat table)
  | _ => false

/-- The kernel's instructions, or none where an encoding fails. -/
def decodeKernel (ntbl : Nat) : List Nat → Option (List Instr)
  | [] => some []
  | w :: t =>
    match decodeFerry w with
    | .error _ => none
    | .ok i => if fevalBad ntbl i then none else (decodeKernel ntbl t).map fun l => i :: l

/-- The bodies of the REPs: index of the REP and last index of its body. -/
def repBodies (l : List Instr) : List (Nat × Nat) :=
  (l.zipIdx.map fun x => match x.1 with
    | .rep _ _ len => [(x.2, x.2 + len.val)]
    | _ => []).flatten

/-- The body that holds an index. -/
def bodyOf (reps : List (Nat × Nat)) (i : Nat) : Option (Nat × Nat) :=
  reps.find? fun r => decide (r.1 < i) && decide (i ≤ r.2)

/-- The control rules: REP bodies and branch targets. -/
def controlBad (l : List Instr) : Bool :=
  let reps := repBodies l
  (reps.any fun r => r.2 == r.1 || decide (l.length ≤ r.2) || (bodyOf reps r.1).isSome) ||
    l.zipIdx.any fun x =>
      let branch (disp : Nat) : Bool :=
        let t := x.2 + disp
        disp == 0 || decide (l.length < t) || (match bodyOf reps x.2 with
          | some r => decide (r.2 + 1 < t)
          | none => (bodyOf reps t).isSome)
      match x.1 with
      | .br _ _ _ disp | .brm _ _ disp => branch disp.val
      | _ => false

/-- The greatest weight of a path from each index of a stretch of code to its end, from the last index down: `w` are the
weights from the indices after this one, the nearest first. Weights past the end are 0. -/
def pathFrom (weight : Instr → Nat) (i : Instr) (w : List Nat) : Nat :=
  let here := weight i
  match i with
  | .fwd | .drop | .ftrap _ _ => here
  | .br .always _ _ disp => here + w.getD (disp.val - 1) 0
  | .br _ _ _ disp | .brm _ _ disp => here + max (w.getD 0 0) (w.getD (disp.val - 1) 0)
  | _ => here + w.getD 0 0

/-- The weights of a REP body, its first index first. -/
def bodyWeights (weight : Instr → Nat) : List Instr → List Nat
  | [] => []
  | i :: t =>
    let w := bodyWeights weight t
    pathFrom weight i w :: w

/-- The weights of a kernel: a REP counts its body by its count and goes on behind it. -/
def kernelWeights (weight : Instr → Nat) : List Instr → List Nat
  | [] => []
  | i :: t =>
    let w := kernelWeights weight t
    let here := match i with
      | .rep n _ len =>
        weight i + (n.val + 1) * (bodyWeights weight (t.take len.val)).getD 0 0 + w.getD len.val 0
      | _ => pathFrom weight i w
    here :: w

/-- The greatest weight of any path of a kernel. -/
def kernelWeight (weight : Instr → Nat) (l : List Instr) : Nat := (kernelWeights weight l).getD 0 0

/-- The kernel store that a kernel takes, and all that the other slots of a core take (R387). -/
def Kernel.bytes (k : Kernel) : Nat := (4 * k.words.length + 63) / 64 * 64

/-- The flow state in use on a core, of a job or of all jobs. -/
def FerryCore.flowUsed (c : FerryCore) (job : Option Nat) : Nat :=
  (c.bindings.map fun b =>
    if job.isNone ∨ job = some b.job then 64 * ((Kv.find b.slot c.kernels).map (·.state64)).getD 0 else 0).sum

/-- A job's quota on a ferry core in bytes (R390). -/
def State.quota (s : State) (job stk fc : Nat) : Nat :=
  4096 * Kv.get 0 (8 * stk + fc) (((Kv.find job s.harbour.jobs).map (·.quotas)).getD [])

/-- The core has no room for a kernel in a slot. -/
def FerryCore.noRoom (c : FerryCore) (slot quota : Nat) (k : Kernel) : Bool :=
  let others := c.kernels.filter fun x => x.1 != slot
  decide (65536 < (others.map fun x => x.2.bytes).sum + k.bytes) ||
    decide (8 < (others.map fun x => x.2.tables.length).sum + k.tables.length) ||
    decide (quota < c.flowUsed (some k.job) + 64 * k.state64) || decide (262144 < c.flowUsed none + 64 * k.state64)

/-- The reason of R399 for a kernel that has been read, or 0. DEDUCED, log 31. -/
def kernelReason (c : FerryCore) (slot quota hdr : Nat) (k : Kernel) : Nat :=
  match decodeKernel (bitsOf hdr 31 30) k.words with
  | none => 2
  | some l =>
    if controlBad l then 3
    else if k.bound < kernelWeight ferryCost l then 4
    else if 4 < kernelWeight ferryEmits l then 5
    else if k.tables.any fun t => t.reason 1 != 0 then 6
    else if c.noRoom slot quota k then 7
    else 0

/-! ### FERRY.LOAD (R436) -/

/-- A target word: stack, ferry core, kernel slot. -/
def targetOf (x : Nat) : Nat × Nat × Nat := (bitsOf x 3 0, bitsOf x 6 4, bitsOf x 12 7)

/-- A job that is granted to a partition. -/
def State.jobOf (s : State) (job p : Nat) : Bool := (Kv.find job s.harbour.jobs).map (·.part) == some p

/-- FERRY.LOAD (R436). -/
def execFerryLoad (com : Com) (dst a b c : Opnd) : State → Res :=
  onceThreadNoBoot (.ferryLoad com dst a b c)
    (Use.plain com [(a, true), (b, false), (c, false)] [(dst, false)]) fun g i l s =>
      let va := (l.getD 0 0).toNat
      let t := targetOf (l.getD 2 0).toNat
      if va % 64 ≠ 0 then .stop ⟨.align, 0, 0, va, 0⟩
      else holdForOp g i (.ferryLoad t.1 t.2.1 t.2.2 (l.getD 1 0).toNat va) dst s

/-- Read the words of an image at an address, `n` pieces of 16 bytes. -/
def readWords (s : State) (w : Starter) (a : Actor) (va n : Nat) : Except Stop (List Nat × State) :=
  (dieRead s w a va n).map fun r => (wordsOf r.1 (4 * n), r.2)

/-- Read a table of an image. -/
def readTable (s : State) (w : Starter) (a : Actor) (va : Nat) : Except Stop (TblImage × State) :=
  match readWords s w a va 4 with
  | .error e => .error e
  | .ok (h, s) =>
    let n := (⟨h, []⟩ : TblImage).nseg
    (readWords s w a (va + 64) ((24 * n + 15) / 16)).map fun r =>
      (⟨h, (List.range n).map fun i => (r.1.drop (6 * i)).take 6⟩, r.2)

/-- Read the tables of an image, in order. -/
def readTables (s : State) (w : Starter) (a : Actor) (va hdr : Nat) : Nat → Except Stop (List TblImage × State)
  | 0 => .ok ([], s)
  | t + 1 =>
    match readTables s w a va hdr t with
    | .error e => .error e
    | .ok (l, s) => (readTable s w a (va + bitsOf hdr (95 + 32 * t) (64 + 32 * t))).map fun r => (l ++ [r.1], r.2)

/-- Read the image of a kernel whose header has passed. -/
def readKernel (s : State) (w : Starter) (a : Actor) (va hdr job : Nat) : Except Stop (Kernel × State) :=
  let n := hdr % 1024 + 1
  match readWords s w a (va + 64) ((n + 3) / 4) with
  | .error e => .error e
  | .ok (ws, s) =>
    (readTables s w a va hdr (bitsOf hdr 31 30)).map fun r =>
      (⟨job, bitsOf hdr 63 32, ws.take n, r.1, bitsOf hdr 15 10 + 1, bitsOf hdr 29 20⟩, r.2)

/-- An image as it is read and checked: the reason, with the kernel where it is 0. -/
def loadKernel (s : State) (w : Starter) (a : Actor) (stk fc slot job va : Nat) : Except Stop (Nat × Option Kernel × State) :=
  match dieRead s w a va 4 with
  | .error e => .error e
  | .ok (hdr, s) =>
    if kernelHdrBad hdr then .ok (1, none, s)
    else
      match readKernel s w a va hdr job with
      | .error e => .error e
      | .ok (k, s) =>
        let r := kernelReason (s.ferry stk fc) slot (s.quota job stk fc) hdr k
        .ok (r, if r = 0 then some k else none, s)

/-- A slot holds a kernel of another job, or one that a binding uses. -/
def FerryCore.slotBusy (c : FerryCore) (slot job : Nat) : Bool :=
  match Kv.find slot c.kernels with
  | none => false
  | some k => k.job != job || c.bindings.any fun b => b.slot == slot

/-- FERRY_IMAGE_LOAD_COMPLETE (R399, R436). -/
def execFerryImageLoadComplete (op : Nat) (s : State) : Res :=
  match Kv.find op s.ops with
  | some ⟨w, .ferryLoad stk fc slot job va⟩ =>
    let a := { dieActor s w stk with e := 2 ^ 33 + op }
    let fin (s : State) (n : Nat) : Res := .next ((s.taken a.core a.e).finishOp op (BitVec.ofNat 64 n))
    if !s.jobOf job w.part then fin s 14
    else if s.absent.noStacks.contains stk then fin s 9
    else if (s.ferry stk fc).slotBusy slot job then fin s 10
    else
      match loadKernel s w a stk fc slot job va with
      | .ok (_, some k, s) => fin (s.modFerry stk fc fun c => { c with kernels := Kv.insert slot k c.kernels }) 0
      | .ok (n, none, s) => fin s n
      | .error (.exc e) => fin (if e.cls = .poison then s.markRead e.aux else s) 8
      | .error (.halt _) => fin s 8
      | .error (.miss ask p) => .next (s.request a.core a.e ask p)
      | .error .wait => .next s
  | _ => .next s

/-! ### FERRY.BIND and FERRY.UNBIND (R391, R402, R436) -/

/-- An invocation of a binding is running: changes wait for its end (R391). -/
def State.invoking (s : State) (stk fc job flow : Nat) : Bool :=
  (((s.ferry stk fc).run).map fun r => r.job == job && r.flow == flow).getD false

/-- FERRY.BIND on a ferry core that may hold the binding: its status and the core. -/
def FerryCore.bind (c : FerryCore) (quota slot job flow : Nat) (w : Starter) (k : Kernel) : Nat × FerryCore :=
  let size (n : Nat) : Nat := ((Kv.find n c.kernels).map (·.state64)).getD 0
  let old := c.binding job flow
  let had := (old.map fun b => size b.slot).getD 0
  if (old.isNone && decide (256 ≤ c.bindings.length)) ||
      decide (quota < c.flowUsed (some job) - 64 * had + 64 * k.state64) ||
      decide (262144 < c.flowUsed none - 64 * had + 64 * k.state64) then (13, c)
  else
    match old with
    | none => (0, { c with bindings := c.bindings ++ [⟨job, flow, slot, w, [], false, 0⟩] })
    | some b =>
      let rebind (x : Binding) : Binding :=
        { x with
          slot := slot
          owner := w
          area := if had = k.state64 then b.area else []
          faulted := false }
      (0, c.modBinding job flow rebind)

/-- FERRY.BIND (R436). -/
def execFerryBind (com : Com) (dst a b c : Opnd) : State → Res :=
  onceThreadNoBoot (.ferryBind com dst a b c)
    (Use.plain com [(a, false), (b, false), (c, false)] [(dst, false)]) fun g i l s =>
      let t := targetOf (l.getD 0 0).toNat
      let job := (l.getD 1 0).toNat
      let flow := (l.getD 2 0).toNat % 2 ^ 16
      let fin (s : State) (n : Nat) : Once := .done s [((dst, false), BitVec.ofNat 64 n)]
      if !s.jobOf job ((g.part s).getD 0) then fin s 14
      else
        match (if s.absent.noStacks.contains t.1 then none else Kv.find t.2.2 (s.ferry t.1 t.2.1).kernels) with
        | none => fin s 11
        | some k =>
          if k.job ≠ job then fin s 11
          else if ((s.boundAt t.1 job flow).map (·.1)).any fun fc => fc != t.2.1 then fin s 12
          else if s.invoking t.1 t.2.1 job flow then .wait [.ferryInvoke t.1 t.2.1]
          else
            let r := (s.ferry t.1 t.2.1).bind (s.quota job t.1 t.2.1) t.2.2 job flow (Starter.ofGrp s g i 0) k
            fin (s.modFerry t.1 t.2.1 fun _ => r.2) r.1

/-- A binding is gone, and the packets of it that wait in the input queue pass on uninvoked (R391). -/
def State.unbindFlow (s : State) (stk fc job flow : Nat) : State :=
  let mine (p : Packet) : Bool := p.job == job && p.flow == flow
  let waits := (s.ferry stk fc).queue.filter mine
  waits.foldl (fun s p => s.passOn stk p) (s.modFerry stk fc fun c =>
    { c with
      bindings := c.bindings.filter fun y => !(y.job == job && y.flow == flow)
      queue := c.queue.filter fun p => !mine p })

/-- FERRY.UNBIND (R436): the drop count, or all ones where nothing matches. -/
def execFerryUnbind (com : Com) (dst a b : Opnd) : State → Res :=
  onceThreadNoBoot (.ferryUnbind com dst a b) (Use.plain com [(a, false), (b, false)] [(dst, false)]) fun g _ l s =>
    let t := targetOf (l.getD 0 0).toNat
    let x := (l.getD 1 0).toNat
    let job := bitsOf x 27 16
    let flow := x % 2 ^ 16
    let fin (s : State) (n : Nat) : Once := .done s [((dst, false), BitVec.ofNat 64 n)]
    match (if s.jobOf job ((g.part s).getD 0) then s.boundAt t.1 job flow else none) with
    | none => fin s 0xFFFFFFFF
    | some (fc, b) =>
      if s.invoking t.1 fc job flow then .wait [.ferryInvoke t.1 fc]
      else fin (s.unbindFlow t.1 fc job flow) (min b.drops 0xFFFFFFFE)

/-- FERRY.UNBIND.kern (R436): a kernel that no binding uses leaves its slot. -/
def execFerryUnbindKern (com : Com) (dst a b : Opnd) : State → Res :=
  onceThreadNoBoot (.ferryUnbindKern com dst a b) (Use.plain com [(a, false), (b, false)] [(dst, false)]) fun g _ l s =>
    let t := targetOf (l.getD 0 0).toNat
    let job := bitsOf (l.getD 1 0).toNat 27 16
    let c := s.ferry t.1 t.2.1
    let fin (s : State) (n : Nat) : Once := .done s [((dst, false), BitVec.ofNat 64 n)]
    if !s.jobOf job ((g.part s).getD 0) || (Kv.find t.2.2 c.kernels).isNone || c.slotBusy t.2.2 job then fin s 0xFFFFFFFF
    else fin (s.modFerry t.1 t.2.1 fun c => { c with kernels := Kv.erase t.2.2 c.kernels }) 0

end Sys2Proof.Machine
end

