-- ==== Sys2Proof/Machine/Partitions.lean ====
section
/-! DEFINITION. Partitions: the shares of their regions, the limits of their parameters, their creation, mooring and
waking, and the clusters that pass between them (R369, R370, R446 to R460). -/

namespace Sys2Proof.Machine

/-! ### The share of a region (R369, R370) -/

/-- A region's share: its stack (none for every stack), its pseudo-channels, and the MiB it takes in each. -/
structure Share where
  stk : Option Nat
  pch : Nat
  npch : Nat
  lo : Nat
  hi : Nat
  deriving DecidableEq, Repr

def shareOf (e : Nat) : Share :=
  let off := bitsOf e 49 40
  let stk := bitsOf e 59 56
  let pch := bitsOf e 55 50
  match regionMode e, regionDove e with
  | 0, _ => ⟨none, 0, 64, off, off + 1⟩
  | 1, _ => ⟨some stk, 0, 64, off, off + 16⟩
  | _, false => ⟨some stk, pch, 4, off, off + 256⟩
  | _, true => ⟨some stk, pch, 8, off, off + 128⟩

def Share.meets (a b : Share) : Bool :=
  (a.stk.isNone || b.stk.isNone || a.stk == b.stk) && decide (a.pch < b.pch + b.npch) && decide (b.pch < a.pch + a.npch) &&
    decide (a.lo < b.hi) && decide (b.lo < a.hi)

/-- An interleave entry that the harbour die may write: well-formed, and its share ends at or below 768 MiB. -/
def State.entryOk (s : State) (e : Nat) : Bool :=
  let x := shareOf e
  regionV e && decide (regionMode e < 3) && bitsOf e 39 0 == 0 && decide (x.hi ≤ 768) &&
    !(x.stk.any s.absent.noStacks.contains) && (x.stk.isSome || bitsOf e 59 56 == 0) &&
    (if regionMode e = 2 then x.pch % x.npch == 0 else bitsOf e 55 50 == 0)

/-! ### What a partition's stage 2 maps -/

/-- The leaves of a partition's stage 2: level, first GPA, entry. -/
def Partition.leaves (x : Partition) : List (Nat × Nat × Nat) :=
  x.s2.filterMap fun (e : Nat × DWord) =>
    let l := e.1 / 2 ^ 60
    if pteV e.2.toNat && pteLeaf e.2.toNat then some (l, e.1 % 2 ^ 60 * 2 ^ levelShift l, e.2.toNat) else none

/-- The regions of this package's DRAM that they reach. -/
def State.regionsOf (s : State) (x : Partition) : List Nat :=
  distinct (x.leaves.filterMap fun l =>
    let a := pteOa l.2.2
    if spaPkg a = s.harbour.pkg ∧ spaLocal a < controlBase then some (spaLocal a / 2 ^ 30) else none)

/-- The regions that a partition may not be given: those that some partition maps, and those placed for another. -/
def State.heldRegions (s : State) (p : Nat) : List Nat :=
  distinct ((s.parts.map fun x => s.regionsOf x.2 ++ if x.1 = p then [] else x.2.params.regions.map (·.1)).flatten)

/-! ### The limits of the parameters (R446) -/

/-- No two of a list are equal. -/
def noRepeat (l : List Nat) : Bool := (distinct l).length == l.length

/-- A cluster is present: it has a core (R469). -/
def State.clusterHere (s : State) (c : Nat) : Bool := decide (c < 96) && !(s.clusterCores c).isEmpty

/-- The partitions other than one. -/
def State.others (s : State) (p : Nat) : List (Nat × Partition) := s.parts.filter fun x => x.1 != p

/-- The clusters of a request are present and free for it (R446, R449, R450, R452). -/
def State.clustersOk (s : State) (p : Nat) (q : PartParams) : Bool :=
  let own := q.guaranteed ++ q.margin
  let taken := ((s.others p).map fun x => x.2.params.guaranteed ++ x.2.params.margin).flatten
  let turns := ((s.others p).map fun x => x.2.params.shared).flatten
  noRepeat (own ++ q.shared) && (own ++ q.shared).all s.clusterHere && decide (1 ≤ q.guaranteed.length) &&
    decide (q.guaranteed.length ≤ 96) && decide (q.margin.length ≤ 95) && decide (q.borrow ≤ 95) &&
    own.all (fun c => !taken.contains c && !turns.contains c) &&
    q.shared.all fun c => !taken.contains c && decide ((turns.filter (· == c)).length ≤ 3)

/-- The regions of a request can be placed (R369, R370, R446): well-formed, apart from each other and from every region
that is held, and without a spread-mode region for a partition of class W2 or W3. -/
def State.regionsOk (s : State) (p : Nat) (q : PartParams) : Bool :=
  let held := s.heldRegions p
  let shares := q.regions.map fun r => shareOf r.2.toNat
  noRepeat (q.regions.map (·.1)) &&
    q.regions.all (fun r => decide (r.1 < 768) && s.entryOk r.2.toNat && (q.wcls == 1 || regionMode r.2.toNat != 0)) &&
    shares.zipIdx.all (fun a => (shares.drop (a.2 + 1)).all fun b => !a.1.meets b) &&
    q.regions.all fun r =>
      Kv.get 0 r.1 s.interleave == r.2 && !((s.others p).any fun x => (x.2.params.regions.map (·.1)).contains r.1) ||
        !held.contains r.1 && held.all fun n =>
          !(regionV (Kv.get 0 n s.interleave).toNat && (shareOf r.2.toNat).meets (shareOf (Kv.get 0 n s.interleave).toNat))

/-- A capability is agreed with the host (R468). -/
def Harbour.agrees (h : Harbour) (n : Nat) : Bool := (h.agreed.map fun c => c.toNat.testBit n).getD false

/-- The parameters keep their limits. A partition of class W2 or W3 has a region of its own for its default tables.
DESIGN CHOICE, log 16. -/
def State.paramsOk (s : State) (p : Nat) (q : PartParams) : Bool :=
  decide (p < 48) && decide (1 ≤ q.wcls) && decide (q.wcls ≤ 3) && (q.wcls != 3 || s.harbour.agrees 3) &&
    decide (1 ≤ q.weight) && decide (q.weight ≤ 65535) && q.hailers.all (fun w => decide (w < 48)) &&
    decide (1 ≤ q.stewardNreg8) && decide (q.stewardNreg8 ≤ 32) && decide (q.stewardScratch ≤ 0x100000) &&
    decide (q.stewardNtile ≤ 16) && decide (q.stewardTslots ≤ 16) && (q.wcls == 1 || !q.regions.isEmpty) &&
    s.clustersOk p q && s.regionsOk p q

/-! ### Placing regions (R242, R369) -/

/-- A range of memory reads as zeros with valid check bits, and no copy of it is left anywhere. -/
def State.clearRange (s : State) (spa n : Nat) : State :=
  let inside (a : Nat) : Bool := decide (spa ≤ a) && decide (a < spa + n)
  let drop (x : StashPage) : StashPage := { x with lines := x.lines.filter fun l => !inside l.2.spa }
  let held := (s.dies.map fun d => (d.2.dir.filter fun l => inside (64 * l.1)).map (·.1)).flatten
  let s := held.foldl (·.probeHolders 0) s
  { s with
    blocks := s.blocks.map fun (b : Nat × Block) => (b.1, b.2.mapStash drop)
    mem := s.mem.filter fun c => !inside c.1
    ecc := s.ecc.filter fun c => !inside c.1 }

/-- A region is placed: what it displaces is present no more, and it reads as zero. -/
def State.placeRegion (s : State) (r : Nat × DWord) : State :=
  if Kv.get 0 r.1 s.interleave = r.2 then s
  else
    let gone := (s.interleave.filter fun e => e.1 == r.1 ||
      (regionV e.2.toNat && (shareOf e.2.toNat).meets (shareOf r.2.toNat))).map (·.1)
    let s := (distinct (gone ++ [r.1])).foldl (fun s n => s.clearRange (s.harbour.pkg * 2 ^ 46 + n * 2 ^ 30) (2 ^ 30)) s
    { s with interleave := Kv.insert r.1 r.2 (gone.foldl (fun m n => Kv.erase n m) s.interleave) }

/-! ### The pages that every partition has (R156, R448) -/

/-- A stage-2 leaf with RD, without execution. -/
def leafWord (oa mt : Nat) (w : Bool) : DWord :=
  BitVec.ofNat 64 (0x8000000000000023 + (if w then 0x40 else 0) + mt * 2 ^ 8 + oa)

/-- An entry with the table pointers above it. -/
def mapEntry (l gpa : Nat) (e : DWord) (s2 : List (Nat × DWord)) : List (Nat × DWord) :=
  Kv.insert (s2Key l gpa) e ((List.range l).foldl (fun m k => Kv.insert (s2Key k gpa) 1 m) s2)

/-- The frames of the default-table area: the end of the partition's first region, or of DRAM. -/
def State.tableFrames (s : State) (p : Nat) (q : PartParams) : Nat :=
  s.harbour.pkg * 2 ^ 46 + match q.regions with
    | r :: _ => (r.1 + 1) * 2 ^ 30 - 2 ^ 16
    | [] => s.absent.dramEnd - 2 ^ 16 * (p + 1)

/-- The guest-physical addresses of R448: format windows, hail page, default tables. -/
def gpaWindows : Nat := 0xFFFF000000000
def gpaHail : Nat := 0xFFFF000001000
def gpaTables : Nat := 0xFFFF000010000

/-- The stage 2 of a new partition. DEDUCED, log 17. -/
def fixedPages (base p tables : Nat) : List (Nat × DWord) :=
  let s2 := mapEntry 4 gpaWindows (leafWord (base + 0x3F1000000000 + 0x1000 * p) 2 true) []
  let s2 := mapEntry 4 gpaHail (leafWord (base + 0x3F2000000000) 2 true) s2
  (List.range 16).foldl (fun m k => mapEntry 4 (gpaTables + 4096 * k) (leafWord (tables + 4096 * k) 0 false) m) s2

/-- The images of R156 are written into the area. -/
def State.writeTables (s : State) (a : Nat) : State := (s.clearRange a (2 ^ 16)).setCells (defTableCells a)

/-! ### Creation -/

/-- A partition as it is created (R245, R345, R447, R455). -/
def Partition.start (q : PartParams) (s2 : List (Nat × DWord)) : Partition where
  params := q
  pt1root := 0
  evq := 0
  slice := 0x7D0
  hailpay := 0
  hailcnt := 0
  pendCount := 0
  pendPay := 0
  hailAt := 0
  moor := .awake
  moors := []
  admitStop := false
  s2 := s2
  nodes := []
  grids := []
  nextOrder := 0
  replays := []
  graphs := []
  rings := []
  races := []
  nbSlots := []
  nbLoads := []
  progs := []
  nextProg := 0
  ends := []
  eventPend := false
  scrubSeq := 0
  overrun := []
  lent := []

/-- The steward's block before it stands on a core: one thread at the address the parameters give. -/
def stewardBlock (p : Nat) (q : PartParams) : Block :=
  { Block.nowhere with
    part := some p
    nreg8 := q.stewardNreg8
    scratch := q.stewardScratch
    ntile := q.stewardNtile
    tslots := q.stewardTslots
    phase := .saved
    threads := [(0, Thread.start q.stewardPc.toNat q.stewardNreg8 .steward 0 0 0)]
    cores := [(0, BlockCore.start (offCore 0) [])] }

/-- Where the steward's block fits on its partition's guaranteed clusters (R449). -/
def State.stewardPlace (s : State) (p : Nat) : Option Placement :=
  match s.part p with
  | none => none
  | some x =>
    let b := s.block (stewardKey p)
    (s.findCores x.params.guaranteed b.needs).map fun l => s.fillPlace false b.needs l

/-- The steward starts; where no core takes it yet, its block waits to be restored. -/
def State.startSteward (s : State) (p : Nat) (q : PartParams) : State :=
  let s := s.putBlock (stewardKey p) (stewardBlock p q)
  match s.stewardPlace p with
  | some place => s.restoreBlock (stewardKey p) place
  | none => s

/-- A partition is created (R156, R446, R448). -/
def State.createPart (s : State) (p : Nat) (q : PartParams) : State :=
  let s := q.regions.foldl State.placeRegion s
  let tables := s.tableFrames p q
  let s := (s.writeTables tables).putPart p (Partition.start q (fixedPages (s.harbour.pkg * 2 ^ 46) p tables))
  s.startSteward p q

/-! ### Mooring (R457 to R460) -/

/-- The status of a MOOR (R460). -/
def State.moorStatus (s : State) (p : Nat) (x : Partition) : Nat :=
  let bound (f : Nat × FerryCore) : Bool := f.2.bindings.any fun b => s.jobOf b.job p
  if 0 < x.pendCount then 1
  else if (s.blocks.any fun b => b.2.part == some p && b.2.tag != 0) || (x.grids.any fun g => g.2.waits) ||
      !x.replays.isEmpty then 2
  else if s.dies.any fun d => d.2.ferry.any bound then 3
  else 0

/-- The base-die work of a partition is stopped (R437). -/
def State.stopWork (s : State) (p : Nat) : State :=
  s.unitsInUse.foldl (fun s u => s.stopRuns u fun r => r.starter.part == p) (s.stopProgs p)

/-- MOOR (R460). -/
def execMoor (com : Com) (dst : Opnd) : State → Res :=
  onceThreadNoBoot (.moor com dst) (Use.stew com [] [(dst, false)]) fun g i _ s =>
    let p := (g.part s).getD 0
    match s.part p with
    | none => .done s [((dst, false), 0)]
    | some x =>
      match s.moorStatus p x with
      | 0 =>
        let y : Partition :=
          { x with
            moor := .entering s.clock
            moors := x.moors ++ [s.nextOp]
            admitStop := true }
        match s.releaseWait (g.actor s i) i false with
        | .error e => .abort e
        | .ok s =>
          let s := ((s.releases (stewardKey p) 1).putPart p y).stopWork p
          holdForOp g i .moor dst ((s.requestPreempt (stewardKey p)).later [.blockQuiesceSave p 0])
      | 1 => .done (s.putPart p x.consume) [((dst, false), 1)]
      | n => .done s [((dst, false), BitVec.ofNat 64 n)]

/-- A partition is moored and of a class that lets its stacks rest. -/
def Partition.rests (x : Partition) : Bool :=
  decide (2 ≤ x.params.wcls) && (match x.moor with
    | .moored _ => true
    | _ => false)

/-- A region has bytes on a stack. -/
def State.regionOn (s : State) (n stk : Nat) : Bool :=
  let x := shareOf (Kv.get 0 n s.interleave).toNat
  regionV (Kv.get 0 n s.interleave).toNat && (x.stk.isNone || x.stk == some stk)

/-- A stack may be in self-refresh (R457): some moored partition lets it, and it holds none that is not. -/
def State.mayRest (s : State) (stk : Nat) : Bool :=
  (s.parts.any fun x => x.2.rests) && s.parts.all fun x => x.2.rests || !((s.regionsOf x.2).any fun n => s.regionOn n stk)

/-- Other packages' copies of a stack's lines are invalidated (R380). -/
def State.dropHolders (s : State) (stk : Nat) (which : Nat → Bool) : State :=
  (((s.die stk).dir.map (·.1)).filter which).foldl (·.probeHolders 0) s

/-- A stack enters self-refresh. -/
def State.restStack (s : State) (stk : Nat) : State :=
  (s.dropHolders stk fun _ => true).modDie stk fun d => { d with selfRefresh := true }

/-- The gating of a moored partition (R457). -/
def State.gate (s : State) (x : Partition) : State :=
  if x.params.wcls < 2 then s
  else
    let mine (line : Nat) : Bool := (s.regionsOf x).contains (spaLocal (64 * line) / 2 ^ 30)
    let s := s.stackList.foldl (fun s k => s.dropHolders k mine) s
    s.stackList.foldl (fun s k => if s.mayRest k && !(s.die k).selfRefresh then s.restStack k else s) s

/-- MOOR_ENTRY_END (R457, R460): the steward's context is saved. -/
def execMoorEntryEnd (part : Nat) (s : State) : Res :=
  match s.part part with
  | none => .next s
  | some x =>
    match x.moor with
    | .entering _ =>
      if (s.block (stewardKey part)).phase ≠ .saved then .next s
      else
        let x : Partition := { x with moor := .moored s.clock }
        let s := (s.putPart part x).gate x
        .next (if 0 < x.pendCount then s.later [.partitionWake part] else s)
    | _ => .next s

/-- The gated stacks that may rest no longer are awake again. -/
def State.ungate (s : State) : State :=
  s.stackList.foldl (fun s k => if s.mayRest k then s else s.wakeStack k) s

/-- PARTITION_WAKE (R459, R460): the hail is consumed by every MOOR that had issued. -/
def execPartitionWake (part : Nat) (s : State) : Res :=
  match s.part part with
  | none => .next s
  | some x =>
    match x.moor, s.stewardPlace part with
    | .moored _, some place =>
      if x.pendCount = 0 then .next s
      else
        let y : Partition :=
          { x.consume with
            moor := .awake
            moors := []
            admitStop := false }
        let s := ((s.putPart part y).ungate).restoreBlock (stewardKey part) place
        .next ((x.moors.foldl (fun s n => s.finishOp n 0) s).refreshCands part)
    | _, _ => .next s

/-- HAIL_WRITE (R455): an 8-byte store of an agent of partition `writer` to offset 0 of a hail block. -/
def execHailWrite (writer part : Nat) (payload : DWord) (s : State) : Res := .next (s.hailStore (some writer) part payload)

/-- STACK_WAKE_ACCESS (R458). -/
def execStackWakeAccess (stack : Nat) (s : State) : Res := .next (s.wakeStack stack)

/-- STACK_SELF_REFRESH (R458): the stack has been idle for 100 µs and still meets R457. -/
def execStackSelfRefresh (stack : Nat) (s : State) : Res :=
  if !(s.die stack).selfRefresh && s.mayRest stack && decide ((s.die stack).lastAccess + 100000 ≤ s.clock) then
    .next (s.restStack stack)
  else .next s

/-! ### Margin clusters (R450, R451) -/

/-- The partition whose margin holds a cluster. -/
def State.marginOf (s : State) (c : Nat) : Option (Nat × Partition) := s.parts.find? fun x => x.2.params.margin.contains c

/-- The keys of a partition's blocks that stand on a cluster. -/
def State.blocksIn (s : State) (p c : Nat) : List Nat :=
  (s.blocks.filter fun b => b.2.part == some p && b.2.cores.any fun x => x.2.core / 4 == c).map (·.1)

/-- Since when a partition's candidate block has fitted none of its own clusters, the earliest such. -/
def State.needsSince (s : State) (p : Nat) (x : Partition) : Option Nat :=
  ((x.grids.filter fun g => x.candidate g.1 g.2 && s.budgetOk p g.2.node g.2.lrec.needs &&
    (s.nextPlace p x g.2).isNone).map fun g => g.2.candSince.getD s.clock).min?

/-- The neighbours that may be lent a cluster, with the time each has waited since. -/
def State.borrowers (s : State) (owner c : Nat) : List (Nat × Nat) :=
  (s.others owner).filterMap fun x =>
    if (x.2.params.guaranteed.any fun d => d / 12 == c / 12) ∧ (s.borrowed x.1).length < x.2.params.borrow then
      (s.needsSince x.1 x.2).map fun t => (x.1, t)
    else none

/-- MARGIN_LEND (R450): an idle margin cluster goes to the neighbour that has waited longest. -/
def execMarginLend (cluster dest : Nat) (s : State) : Res :=
  match s.marginOf cluster with
  | none => .next s
  | some (p, x) =>
    let waking : Bool := x.moor != .awake && decide (0 < x.pendCount)
    if (s.lentTo cluster).isSome ∨ !(s.blocksIn p cluster).isEmpty ∨ waking then .next s
    else
      match sortBy (·.2) (s.borrowers p cluster) with
      | (q, _) :: _ =>
        if q = dest then
          .next ((s.putPart p { x with lent := x.lent ++ [⟨cluster, dest, false⟩] }).refreshCands dest)
        else .next s
      | [] => .next s

/-- A cluster passes to another partition: its cores hold nothing of the one that leaves (R451). -/
def State.leaveCluster (s : State) (p c : Nat) : State :=
  let left (x : Core) : Core :=
    { x with
      part := none
      icache := []
      tlb := x.tlb.filter fun t => t.part != p
      ahead := [] }
  let s := (s.clusterCores c).foldl (fun s n => s.modCore n left) s
  { s with clusterTlbs := Kv.modify c (fun l => l.filter fun t => t.part != p) s.clusterTlbs }

/-- The blocks of a partition on a cluster are asked to leave it. -/
def State.preemptIn (s : State) (p c : Nat) : State :=
  s.later (((s.blocksIn p c).filter fun k => (s.block k).phase == .resident).map fun k =>
    .preemptRequest p (s.block k).tag)

/-- MARGIN_REVOKE (R451): the borrower's blocks leave; once none is left, the cluster is its owner's again. -/
def execMarginRevoke (cluster : Nat) (s : State) : Res :=
  match s.parts.find? fun x => x.2.lent.any fun l => l.cluster == cluster, s.lentTo cluster with
  | some (p, x), some q =>
    let revoke (l : Lent) : Lent := if l.cluster = cluster then { l with revoked := true } else l
    if (s.blocksIn q cluster).isEmpty then
      let s := s.putPart p { x with lent := x.lent.filter fun l => l.cluster != cluster }
      .next ((s.leaveCluster q cluster).refreshCands p)
    else .next ((s.putPart p { x with lent := x.lent.map revoke }).preemptIn q cluster)
  | _, _ => .next s

/-! ### Shared clusters (R452) -/

/-- The turn on a cluster; before the first, the lowest partition's. DESIGN CHOICE, log 58. -/
def State.turn (s : State) (c : Nat) : Option Turn :=
  match Kv.find c s.turns with
  | some t => some t
  | none => (s.sharers c).head?.map fun p => ⟨p, 0, false⟩

/-- A holder that is passed over: moored, or without a candidate block and without a block on the cluster. -/
def State.passedOver (s : State) (c p : Nat) : Bool :=
  match s.part p with
  | none => true
  | some x => x.moor != .awake || (!(x.grids.any fun g => x.candidate g.1 g.2) && (s.blocksIn p c).isEmpty)

/-- The holder after `p`, in increasing partition number. -/
def State.nextHolder (s : State) (c p : Nat) : Nat :=
  let l := s.sharers c
  let order := (l.filter (p < ·)) ++ l.filter (· ≤ p)
  ((order.filter fun q => !s.passedOver c q).head?).getD (order.headD p)

/-- The ns of overrun on the cores of a cluster that shorten a holder's turn there: those of the core with the most of it
(R354). DESIGN CHOICE, log 42. -/
def State.shortened (s : State) (x : Partition) (c : Nat) : Nat :=
  min ((s.clusterCores c).foldl (fun m n => max m (Kv.get 0 n x.overrun)) 0) (1000 * x.slice.toNat)

/-- A turn has been shortened: each core of the cluster has that much less charged to it. -/
def State.repay (s : State) (x : Partition) (c : Nat) : Partition :=
  let n := s.shortened x c
  { x with overrun := (s.clusterCores c).foldl (fun m k => Kv.set 0 k (Kv.get 0 k m - n) m) x.overrun }

/-- SHARED_TURN_END (R452): the turn's time is over, or the holder is passed over; its blocks leave the cluster, and then
the next holder has its turn. -/
def execSharedTurnEnd (cluster : Nat) (s : State) : Res :=
  match s.turn cluster with
  | none => .next s
  | some t =>
    let charge := ((s.part t.part).map fun x => s.shortened x cluster).getD 0
    let slice := ((s.part t.part).map fun x => 1000 * x.slice.toNat).getD 0
    if !t.ended && !s.passedOver cluster t.part && decide (s.clock < t.since + (slice - charge)) then .next s
    else
      let s := if t.ended then s else s.modPart t.part fun x => s.repay x cluster
      if (s.blocksIn t.part cluster).isEmpty then
        let q := s.nextHolder cluster t.part
        .next (({ s with turns := Kv.insert cluster ⟨q, s.clock, false⟩ s.turns }.leaveCluster t.part cluster).refreshCands q)
      else
        .next ({ s with turns := Kv.insert cluster { t with ended := true } s.turns }.preemptIn t.part cluster)

end Sys2Proof.Machine
end

