-- ==== Sys2Proof/Machine/Rungs.lean ====
section
/-! DEFINITION. The reset ladder: its rungs, their escalation, the watchdog, the missed wake bound, and what the harbour
die does to a core (R36, R107, R341, R355 to R358, R402, R437, R459). -/

namespace Sys2Proof.Machine

/-! ### The queue rung and the context rung (R356) -/

/-- The queue rung: the launches of a node of which no block has been admitted are removed. -/
def State.queueRung (s : State) (p node : Nat) : State :=
  let gone (g : Nat × Grid) : Bool := g.2.node == node && g.2.nextBlock == 0
  match s.part p with
  | none => s
  | some x =>
    let recs := (x.grids.filter gone).map fun g => g.2.recAddr
    let s := s.putPart p { x with grids := x.grids.filter fun g => !gone g }
    (s.rungRecord p 1 (recs.headD 0)).refreshCands p

/-- RUNG_QUEUE (R356). -/
def execRungQueue (part node : Nat) (s : State) : Res := .next (s.queueRung part node)

/-- RUNG_CONTEXT (R356). -/
def execRungContext (part tag : Nat) (s : State) : Res :=
  let k := blockKey part tag
  if (s.block k).part = some part then .next (s.contextRung k) else .next s

/-! ### The engine rung (R356, R358, R402, R437) -/

/-- The timelines whose operations a unit performs. -/
def unitHasTl (unit tl : Nat) : Bool :=
  if unit = 1 then tl == 9 else if unit = 2 then tl == 8 else unit == 5 && (decide (tl < 8) || tl == 15)

/-- The operations that a unit of a core holds: block, block core, operation. -/
def State.unitOps (s : State) (core unit : Nat) : List (Nat × Nat × EngineOp) :=
  (s.blocks.map fun b => (b.2.cores.map fun c =>
    if c.2.core = core then (c.2.ops.filter fun o => unitHasTl unit o.tl).map fun o => (b.1, c.1, o) else []).flatten).flatten

/-- The exception of a unit that is reset. -/
def resetExc (unit : Nat) : Exc := ⟨.engineReset, unit, 0, 0, 0⟩

/-- The threads whose instruction is in the load/store unit fault at it: those of pending instructions, and those of an
entry that waits for an answer, which run their instruction again. -/
def State.resetEntry (s : State) (core e : Nat) (en : Entry) : State :=
  let s1 := s.modEntry core e fun x =>
    { x with
      pend := []
      shadow := 0 }
  let fault (s : State) (p : PendInstr) : State :=
    p.threads.foldl (fun s t =>
      if ((s.block en.block).thread t.1).ready then
        faultThread s ⟨core, e, en.block, p.pc, en.members, none⟩ t.1 (some p.instr) t.2 (resetExc 4)
      else s) s
  let s2 := en.pend.foldl fault s1
  let s3 := if s.asks core e then
      en.members.foldl (fun s i =>
        let t := (s.block en.block).thread i
        if t.ready then faultThread s ⟨core, e, en.block, t.pc, en.members, none⟩ i none [] (resetExc 4) else s) s2
    else s2
  let mine (r : RemoteReq) : Bool := r.core == core && r.entry == e && r.ask.isSome
  regroup { s3 with reqs := s3.reqs.filter fun r => !mine r.2 } core e

/-- The engine rung on a unit of a core (R358). -/
def State.resetUnit (s : State) (core unit : Nat) : State :=
  if unit = 4 then (s.core core).entries.foldl (fun s e => s.resetEntry core e.1 e.2) s
  else if unit = 1 then
    let s := (s.unitOps core 1).foldl (fun s o => s.cancelHead o.1 o.2.1 o.2.2 (resetExc 1)) s
    s.modCore core fun c => { c with entries := c.entries.map fun e => (e.1, { e.2 with chain := 0 }) }
  else (s.unitOps core unit).foldl (fun s o => s.cancelHead o.1 o.2.1 o.2.2 (resetExc unit)) s

/-- The engine rung on a ferry core: what runs and what is queued is abandoned, and each binding that had one faults. -/
def State.resetFerry (s : State) (stk fc : Nat) : State :=
  let c := s.ferry stk fc
  let had (b : Binding) : Bool := !b.faulted &&
    ((c.queue.any fun p => p.job == b.job && p.flow == b.flow) || (c.run.any fun r => r.job == b.job && r.flow == b.flow))
  let s := (s.ferryIdle stk fc).modFerry stk fc fun c => { c with queue := [] }
  (c.bindings.filter had).foldl (fun s b => s.faultBinding stk fc b 0x19 0 0) s

/-- The partitions with work in a unit, for the records and for escalation. -/
def State.partsIn (s : State) (core unit : Nat) : List Nat :=
  if unit = 6 then
    let c := s.ferry (core / 8) (core % 8)
    distinct (c.bindings.map fun b => b.owner.part)
  else if unit = 7 then
    let u := s.unit core
    distinct ((u.queue ++ (u.cur.map (·.run)).toList).map fun r => r.starter.part)
  else distinct (s.blocks.filterMap fun b => if b.2.cores.any fun c => c.2.core == core then b.2.part else none)

/-- The engine rung: code 6 names a ferry core, 8 × stack + core, and code 7 a near-bank unit, 64 × stack + channel. -/
def State.engineRung (s : State) (core unit : Nat) : State :=
  let ps := s.partsIn core unit
  let s := if unit = 6 then s.resetFerry (core / 8) (core % 8)
    else if unit = 7 then s.stopRuns core fun _ => true
    else s.resetUnit core unit
  ps.foldl (fun s p => s.rungRecord p 3 0) s

/-- RUNG_ENGINE (R356). -/
def execRungEngine (core unit : Nat) (s : State) : Res := .next (s.engineRung core unit)

/-! ### The partition rung (R356, R402, R437) -/

/-- The jobs of a partition. -/
def State.jobsOf (s : State) (p : Nat) : List Nat := (s.harbour.jobs.filter fun j => j.2.part == p).map (·.1)

/-- A ferry core without the work, the bindings and the kernels of some jobs. -/
def FerryCore.without (c : FerryCore) (jobs : List Nat) : FerryCore :=
  { c with
    kernels := c.kernels.filter fun k => !jobs.contains k.2.job
    bindings := c.bindings.filter fun b => !jobs.contains b.job
    queue := c.queue.filter fun p => !jobs.contains p.job
    run := if c.run.any fun r => jobs.contains r.job then none else c.run }

/-- The partition's jobs leave every ferry core. -/
def State.clearFerry (s : State) (p : Nat) : State :=
  let jobs := s.jobsOf p
  let clear (d : BaseDie) : BaseDie :=
    { d with ferry := d.ferry.map fun (c : Nat × FerryCore) => (c.1, c.2.without jobs) }
  let s : State := { s with dies := s.dies.map fun (d : Nat × BaseDie) => (d.1, clear d.2) }
  match s.focus with
  | .ferry stk fc => if (s.ferry stk fc).run.isNone then { s with focus := .none } else s
  | _ => s

/-- Timeline 11 of a block counts nothing outstanding. -/
def Block.settle11 (b : Block) : Block :=
  { b with cores := b.cores.map fun (c : Nat × BlockCore) => (c.1, c.2.setTl 11 { c.2.tl 11 with completed := (c.2.tl 11).issued }) }

/-- What a partition keeps over its rung: its parameters, page tables, event queue, records, hails and windows.
DEDUCED, log 50. -/
def Partition.restarted (x : Partition) : Partition :=
  { x with
    moor := .awake
    moors := []
    admitStop := false
    nodes := []
    grids := []
    replays := []
    graphs := []
    nbSlots := []
    nbLoads := []
    ends := []
    eventPend := false
    overrun := [] }

/-- The partition rung. -/
def State.partitionRung (s : State) (p : Nat) : State :=
  match s.part p with
  | none => s
  | some x =>
    let s := (s.stopWork p).clearFerry p
    let s : State :=
      { s with ops := s.ops.filter fun (o : Nat × PkgOp) => o.2.starter.part != p }
    let mine := (s.blocks.filter fun b => b.2.part == some p && b.2.tag != 0).map (·.1)
    let s := mine.foldl (fun s k => (s.modBlock k Block.settle11).contextRung k) s
    let s := s.modPart p Partition.restarted
    let s := (s.rungRecord p 4 0).dropEntries (stewardKey p)
    (s.ungate).startSteward p x.params

/-- RUNG_PARTITION (R356). -/
def execRungPartition (part : Nat) (s : State) : Res := .next (s.partitionRung part)

/-! ### The device rung (R356, R469) -/

/-- The package before its start: the harbour die keeps its count of failed starts, its image and its cap, and a stuck
cell stays stuck (R35, R469, R470, R473). What time and the free values have drawn goes on. -/
def State.deviceReset (s : State) : State :=
  let h := s.harbour
  let core (c : Nat × Core) : Nat × Core := (c.1, { Core.reset with stuck := c.2.stuck })
  { State.reset with
    cores := s.cores.map core
    harbour := { Harbour.reset with
      pkg := h.pkg
      dataVlan := h.dataVlan
      ctlVlan := h.ctlVlan
      startAt := s.clock
      failCount := h.failCount
      failReason := h.failReason
      fwFloor := h.fwFloor
      fwImage := h.fwImage
      cap := h.cap }
    outbox := s.outbox
    lazyMem := s.lazyMem
    tick := s.tick
    clock := s.clock
    drawn := s.drawn
    agenda := if h.minimal then [] else [.deviceStart s.absent] }

/-- RUNG_DEVICE (R356): the start of R469 follows. -/
def execRungDevice (s : State) : Res := .next s.deviceReset

/-! ### Escalation (R357) -/

/-- A rung is applied. -/
def State.applyRung (s : State) : Rung → State
  | .queue p n => s.queueRung p n
  | .context p t => if (s.block (blockKey p t)).part = some p then s.contextRung (blockKey p t) else s
  | .engine c u => s.engineRung c u
  | .partition p => s.partitionRung p
  | .device => s.deviceReset

/-- A rung has completed: only a block whose base-die work goes on keeps one waiting (R437). -/
def State.rungDone (s : State) : Rung → Bool
  | .context p t => (Kv.find (blockKey p t) s.blocks).isNone || t == 0
  | _ => true

/-- The timeout of a rung in ns (R356). -/
def Rung.timeout : Rung → Nat
  | .queue _ _ => 50000
  | .context _ _ => 500000
  | .engine _ _ => 5000000
  | .partition _ => 50000000
  | .device => 1000000000

/-- The near-bank units that hold runs of a block. -/
def State.unitsOf (s : State) (k : Nat) : List Nat :=
  s.unitsInUse.filter fun u => ((s.unit u).queue ++ ((s.unit u).cur.map (·.run)).toList).any fun r => r.starter.block == k

/-- What a rung that misses its timeout escalates to; a device rung counts as a failed start. -/
def State.escalation (s : State) : Rung → List Rung
  | .queue p n =>
    (s.blocks.filter fun b => b.2.part == some p && b.2.node == n && b.2.tag != 0).map fun b => .context p b.2.tag
  | .context p t =>
    let k := blockKey p t
    ((s.block k).cores.map fun c => (distinct (c.2.ops.map fun o => unitOfTl o.tl)).map fun u => Rung.engine c.2.core u).flatten ++
      (s.unitsOf k).map fun u => .engine u 7
  | .engine c u => (s.partsIn c u).map .partition
  | .partition _ => [.device]
  | .device => []

/-- A reply leaves, and the last 64 are kept (R464). -/
def State.reply (s : State) (seq status : Nat) (body : ReplyBody) : State :=
  let r : XcpReply := ⟨seq, status, body⟩
  let l := s.harbour.replies ++ [r]
  { s with harbour := { s.harbour with replies := l.drop (l.length - 64) } }.emit (.reply r)

/-- An XCP RESET that waits for a rung is answered (R465). -/
def State.rungReply (s : State) (seq : Option Nat) : State :=
  match seq with
  | none => s
  | some n => s.reply n 0 .empty

/-- A rung is applied and, unless it is complete at once, watched. -/
def State.startRung (s : State) (r : Rung) (seq : Option Nat) : State :=
  let s := s.applyRung r
  if s.rungDone r then s.rungReply seq
  else
    let pr : PendingRung := ⟨r, s.clock, seq⟩
    { s with harbour := { s.harbour with rungs := s.harbour.rungs ++ [pr] } }

/-- RUNG_TIMEOUT (R357): a rung in progress has completed, or has missed its timeout and escalates. -/
def execRungTimeout (idx : Nat) (s : State) : Res :=
  match s.harbour.rungs[idx]? with
  | none => .next s
  | some r =>
    let drop (s : State) : State := { s with harbour := { s.harbour with rungs := s.harbour.rungs.eraseIdx idx } }
    if s.rungDone r.rung then .next ((drop s).rungReply r.seq)
    else if s.clock < r.since + r.rung.timeout then .next s
    else .next (((s.escalation r.rung).foldl (fun s n => s.startRung n none) (drop s)).rungReply r.seq)

/-! ### The watchdog and the wake bound (R353, R355, R459) -/

/-- A block of a partition, or on a core, that was asked to halt four times a class's bound ago still halts. -/
def State.overdue (s : State) (cls : Nat) (mine : Block → Bool) : Bool :=
  s.blocks.any fun b => b.2.phase == .halting && mine b.2 && decide (b.2.reqTime + classNs 4 cls ≤ s.clock)

/-- WATCHDOG_EXPIRE (R355): an operation of a class has reached four times its bound since the request of a pre-emption, and
the unit that performs it is reset: a unit of the core of the number, for class 5 the ferry core and for class 6 the near-bank
unit of the number, where it works for the partition of a block that halts. DESIGN CHOICE, log 42. -/
def execWatchdogExpire (n cls : Nat) (s : State) : Res :=
  let onCore (b : Block) : Bool := b.cores.any fun c => c.2.core == n
  let busy (f : Entry → Nat → Bool) : Bool := (s.core n).entries.any fun e => f e.2 e.1
  let fire (unit : Nat) (b : Bool) : Res := .next (if b then s.startRung (.engine n unit) none else s)
  match cls with
  | 1 => fire 1 (s.overdue 1 onCore && busy fun en _ => (s.block en.block).phase == .halting && en.chainOpen)
  | 2 => fire 2 (s.overdue 2 onCore && !(s.unitOps n 2).isEmpty)
  | 4 => fire 4 (s.overdue 4 onCore && busy fun en e => !en.pend.isEmpty || s.asks n e)
  | 5 =>
    match (s.ferry (n / 8) (n % 8)).run.bind fun r => (s.ferry (n / 8) (n % 8)).binding r.job r.flow with
    | some b => fire 6 (s.overdue 5 fun x => x.part == some b.owner.part)
    | none => .next s
  | 6 =>
    match (s.unit n).cur with
    | some u => fire 7 (u.susp.isNone && s.overdue 6 fun x => x.part == some u.run.starter.part)
    | none => .next s
  | _ => .next s

/-- The wake bound of a class in ns (R457). -/
def wakeBound (wcls : Nat) : Nat := if wcls = 1 then 250000 else if wcls = 2 then 3000000 else 40000000

/-- The bound of entering. -/
def entryBound (wcls : Nat) : Nat := if wcls = 1 then 100000 else if wcls = 2 then 2000000 else 10000000

/-- When the wake of a partition whose hail is pending is late (R459). DEDUCED, log 57. -/
def Partition.lateAt (x : Partition) : Option Nat :=
  match x.moor with
  | .awake => none
  | .entering t => some (max x.hailAt (t + entryBound x.params.wcls) + wakeBound x.params.wcls)
  | .moored t => some (max x.hailAt t + wakeBound x.params.wcls)

/-- WAKE_BOUND_MISSED (R459): the partition rung, and the record once the steward has restarted. -/
def execWakeBoundMissed (part : Nat) (s : State) : Res :=
  match s.part part with
  | none => .next s
  | some x =>
    match x.lateAt with
    | none => .next s
    | some t =>
      if x.pendCount = 0 ∨ s.clock ≤ t then .next s
      else
        let r : FaultRec := { FaultRec.ofKind 0x0B with
          detail := x.params.wcls
          aux := x.hailAt
          part := part }
        .next ((s.partitionRung part).sendRecord part 0 r).1

/-! ### Cores in the harbour die's hands (R30, R36, R107, R341) -/

/-- A core is put into reset: its block of boot mode is gone, and its repair table and summary word stay. -/
def State.resetCore (s : State) (core : Nat) : State :=
  let c := s.core core
  let x : Core :=
    { Core.reset with
      rf := c.rf
      pad := c.pad
      repair := c.repair
      summary := c.summary
      stuck := c.stuck }
  let s := s.putCore core x
  { s with
    blocks := Kv.erase (bootKey core) s.blocks
    focus := match s.focus with
      | .entry k e => if k = core then .none else .entry k e
      | f => f }

/-- CORE_RESET (R36): of a core on which no partition's block stands. -/
def execCoreReset (core : Nat) (s : State) : Res :=
  if s.blocks.any fun b => b.2.part.isSome && b.2.cores.any fun c => c.2.core == core then .next s
  else .next (s.resetCore core)

/-- BOOT_THREAD_RELEASE (R107, R341): the harbour die releases a boot-mode thread held at HALT, or resolves one that is
held after a fault or at TRAP. -/
def execBootThreadRelease (core : Nat) (act : BootRelease) (s : State) : Res :=
  let k := bootKey core
  match (Kv.find k s.blocks).map fun b => (b.thread 0).stat with
  | none => .next s
  | some st =>
    let held : Bool := match st with
      | .faulted _ _ | .trapped _ => true
      | _ => false
    match act with
    | .halt => if st = .held .halt then .next (s.makeReady k 0) else .next s
    | .replay => if held then .next (s.release k 0 true) else .next s
    | .skip => if held then .next (s.release k 0 false) else .next s
    | .kill => if held then .next (s.resetCore core) else .next s

end Sys2Proof.Machine
end

