-- ==== Sys2Proof/Machine/Host.lean ====
section
/-! DEFINITION. The harbour die: the start of the package and minimal mode, the requests of XCP, RoCEv2, events for the
host, management packets of the domain, attestation and power (R156, R369, R384, R390, R446, R461 to R474). -/

namespace Sys2Proof.Machine

/-! ### What is present (R244, R367, R386, R468, R469) -/

/-- The stacks of a die's landings (R367). -/
def landingsOf (die : Nat) : List Nat :=
  let d := die % 4
  if die < 4 then
    let b := 8 * (d / 2) + 2 * (d % 2)
    [b, b + 1, b + 4, b + 5]
  else
    let b := 4 * (d / 2) + d % 2
    [b, b + 2, b + 8, b + 10]

/-- A die is absent when it has no landing: those of missing stacks are gone with them (R386). -/
def unitLacksDie (u : UnitParts) (die : Nat) : Bool :=
  (landingsOf die).all fun k => u.noStacks.contains k || u.noLandings.contains (16 * die + k)

/-- The parts missing, with the cores of dies that have no landing. DESIGN CHOICE, log 74. -/
def settleParts (u : UnitParts) : UnitParts :=
  let gone := (List.range 384).filter fun c => unitLacksDie u (c / 48)
  { u with noCores := distinct (u.noCores ++ gone) }

/-- The present cores, dies and stacks. -/
def presentCores (u : UnitParts) : List Nat := (List.range 384).filter fun c => !u.noCores.contains c
def presentDies (u : UnitParts) : List Nat := (List.range 8).filter fun d => (presentCores u).any fun c => c / 48 == d
def presentStacks (u : UnitParts) : List Nat := (List.range 16).filter fun k => !u.noStacks.contains k

/-- The Strelar ports that are present, 2 × stack + port. -/
def presentPorts (u : UnitParts) : List Nat :=
  (List.range 32).filter fun n => !u.noStacks.contains (n / 2) && Kv.get 8 n u.lanes != 0

/-- A mask of numbers. -/
def maskOf (l : List Nat) : Nat := (l.map fun n => 2 ^ n).sum

/-- The device's feature vector (R468). -/
def State.vector (s : State) (caps : BitVec 5) : BitVec 128 :=
  let u := s.absent
  BitVec.ofNat 128 (Config.firmwareMajor.toNat * 2 ^ 120 + Config.firmwareMinor.toNat * 2 ^ 112 +
    boolNat s.harbour.minimal * 2 ^ 103 + caps.toNat * 2 ^ 96 + maskOf (presentPorts u) * 2 ^ 64 +
    u.dramEnd / 2 ^ 30 % 2 ^ 10 * 2 ^ 54 + (presentCores u).length * 2 ^ 45 + u.noLinks.length % 2 ^ 6 * 2 ^ 39 +
    u.noPchs.length % 2 ^ 11 * 2 ^ 24 + maskOf (presentDies u) * 2 ^ 16 + maskOf (presentStacks u))

/-! ### The start (R469) -/

/-- Minimal mode: the lowest stack alone is powered. DESIGN CHOICE, log 53. -/
def State.minimalMode (s : State) : State :=
  let r := s.deviceReset
  let u := s.absent
  { r with
    agenda := []
    absent :=
      { u with
        noStacks := (List.range 16).filter fun k => (presentStacks u).head? != some k
        noCores := List.range 384
        dramEnd := 0 }
    harbour := { r.harbour with
      minimal := true
      starting := false } }

/-- A start has failed: it is counted, and the device starts again, or enters minimal mode at the third. -/
def State.startFailed (s : State) (reason : Nat) : State :=
  let n := s.harbour.failCount + 1
  let s : State :=
    { s with harbour := { s.harbour with
        failCount := n
        failReason := reason } }
  if n < 3 then s.deviceReset else s.minimalMode

/-- The held image passes the check of R470. -/
def Harbour.imageOk (h : Harbour) (image : List Byte) : Bool :=
  Config.firmwareVerifies image && decide (h.fwFloor ≤ Config.firmwareVersion image)

/-- The interleave that a start builds: every region of DRAM in spread mode, split, at its own offset (R369).
DESIGN CHOICE, log 6. -/
def startInterleave (dramEnd : Nat) : List (Nat × DWord) :=
  (List.range (dramEnd / 2 ^ 30)).map fun n => (n, BitVec.ofNat 64 (2 ^ 63 + n * 2 ^ 40))

/-- DEVICE_START (R469): steps 1 to 3, after power-up or a device rung. DESIGN CHOICE, log 5. -/
def execDeviceStart (u : UnitParts) (s : State) : Res :=
  if !s.harbour.starting || !s.interleave.isEmpty then .next s
  else
    let u := settleParts u
    let s : State := { s with absent := u }
    if !s.harbour.imageOk s.harbour.fwImage then .next (s.startFailed 1)
    else if (presentStacks u).isEmpty then .next (s.startFailed 2)
    else if (presentDies u).isEmpty then .next (s.startFailed 3)
    else
      let s : State :=
        { s with
          mem := []
          ecc := []
          interleave := startInterleave u.dramEnd
          harbour := { s.harbour with startAt := s.clock } }
      .next ((presentCores u).foldl State.releaseCore s.placeBoot)

/-- A core has not reported a finished test. -/
def State.unreported (s : State) (c : Nat) : Bool :=
  match Kv.find c s.harbour.reports with
  | some r => !(r.1.toNat.testBit 0)
  | none => true

/-- Steps 1 to 3 are complete: every present core has reported. -/
def State.startDone (s : State) : Bool := !s.interleave.isEmpty && (presentCores s.absent).all fun c => !s.unreported c

/-- CORE_REPORT_TIMEOUT (R469). -/
def execCoreReportTimeout (core : Nat) (s : State) : Res :=
  if s.harbour.starting ∧ !s.interleave.isEmpty ∧ s.unreported core ∧ (presentCores s.absent).contains core ∧
      s.harbour.startAt + 100000000 ≤ s.clock then
    let s := s.resetCore core
    .next { s with absent := { s.absent with noCores := distinct (s.absent.noCores ++ [core]) } }
  else .next s

/-- START_FAIL (R469): during a start, for a reason that holds. -/
def execStartFail (reason : Nat) (s : State) : Res :=
  let late : Bool := decide (s.harbour.startAt + 1000000000 ≤ s.clock)
  let holds : Bool := match reason with
    | 1 => !s.harbour.imageOk s.harbour.fwImage
    | 2 => (presentStacks s.absent).isEmpty
    | 3 => (presentDies s.absent).isEmpty
    | 4 | 5 => late && !s.startDone
    | 6 => true
    | _ => false
  if s.harbour.starting && holds then .next (s.startFailed reason) else .next s

/-! ### Requests of XCP (R464 to R466) -/

/-- What a request gives: its status, its reply, and the state that follows where the status is 0. -/
abbrev Answer := Nat × ReplyBody × State

def State.refuseWith (s : State) (status : Nat) : Answer := (status, .empty, s)
def State.done (s : State) : Answer := (0, .empty, s)

/-- A request from any source: a kept reply is sent again, a late one is stale, and one that is not done has no effect.
While a RESET is not answered yet, the requests after it wait. DEDUCED, log 52. -/
def State.answer (s : State) (h : XcpHdr) (minOk : Bool) (f : State → Answer) : Res :=
  if s.harbour.rungs.any fun r => r.seq.isSome then .next s
  else
    match s.harbour.replies.find? fun r => r.seq == h.seq, s.harbour.replies.head? with
    | some r, _ => .next (s.emit (.reply r))
    | none, oldest =>
      if (oldest.map fun r => decide (h.seq < r.seq)).getD false then .next (s.emit (.reply ⟨h.seq, 5, .empty⟩))
      else
        let r : Answer := if h.ver ≠ 1 ∨ 8192 < h.len then s.refuseWith 1
          else if s.harbour.minimal && !minOk then s.refuseWith 4 else f s
        .next ((if r.1 = 0 then r.2.2 else s).reply h.seq r.1 r.2.1)

/-- A request: the device drops it unless it comes from the source of the first accepted HELLO (R464). -/
def State.xcp (s : State) (h : XcpHdr) (minOk : Bool) (f : State → Answer) : Res :=
  if s.harbour.host = some h.src then s.answer h minOk f else .next s

/-- The answer to a HELLO (R468). -/
def State.hello (s : State) (caps : BitVec 5) : Answer :=
  let dev := Config.unitCaps
  if s.harbour.agreed.isSome && !s.parts.isEmpty then s.refuseWith 8
  else if caps &&& ~~~dev ≠ 0 then s.refuseWith 2
  else (0, .vectors (s.vector dev) (s.vector (caps &&& dev)),
    { s with harbour := { s.harbour with agreed := some (caps &&& dev) } })

/-- HELLO (R464, R468, R469): the first that is answered with STATUS 0 fixes the host, and the start has succeeded. -/
def execHello (h : XcpHdr) (caps : BitVec 5) (s : State) : Res :=
  if s.harbour.host.isSome then s.xcp h true fun s => s.hello caps
  else
    let r : Answer := if h.ver ≠ 1 ∨ 8192 < h.len then s.refuseWith 1
      else if !s.harbour.minimal && !s.startDone then s.refuseWith 8 else s.hello caps
    if r.1 = 0 then
      let t := r.2.2
      let t : State :=
        { t with harbour := { t.harbour with
            host := some h.src
            replies := []
            starting := false
            failCount := if t.harbour.minimal then t.harbour.failCount else 0 } }
      .next (t.reply h.seq 0 r.2.1)
    else .next (s.emit (.reply ⟨h.seq, r.1, .empty⟩))

/-- INVENTORY, STARTREP and TELEM (R37, R386, R465, R473). -/
def State.inventory (s : State) : Answer := (0, .parts s.absent, s)
def execInventory (h : XcpHdr) (s : State) : Res := s.xcp h true State.inventory
def State.startReport (s : State) : Answer :=
  (0, .startrep s.harbour.failReason s.harbour.failCount s.harbour.reports, s)
def execStartrep (h : XcpHdr) (s : State) : Res := s.xcp h true State.startReport
def State.telemetry (s : State) : Answer :=
  let t (n : Nat) : Nat := Config.telemetry n s.clock
  (0, .telem (t 0) s.harbour.cap (t 1) [t 2, t 3, t 4, t 5] ((presentDies s.absent).map fun d => t (8 + d)), s)
def execTelem (h : XcpHdr) (s : State) : Res := s.xcp h false State.telemetry

/-! ### Partitions (R446, R448) -/

/-- PCREATE (R446). -/
def execPcreate (h : XcpHdr) (part : Nat) (q : PartParams) (s : State) : Res :=
  s.xcp h false fun s =>
    let placed := q.regions.foldl State.placeRegion s
    if (s.part part).isSome || !s.paramsOk part q || placed.target (placed.tableFrames part q) != .dram then s.refuseWith 2
    else (s.createPart part q).done

/-- Clusters that a list held and another does not. -/
def gone (old new : List Nat) : List Nat := old.filter fun c => !new.contains c

/-- The parameters of a partition change: blocks leave the clusters it loses, and what it lent of them is revoked. -/
def State.changePart (s : State) (p : Nat) (x : Partition) (q : PartParams) : State :=
  let all (y : PartParams) : List Nat := y.guaranteed ++ y.margin ++ y.shared
  let lost := gone (all x.params) (all q)
  let revoke (l : Lent) : Lent := if q.margin.contains l.cluster then l else { l with revoked := true }
  let s := q.regions.foldl State.placeRegion s
  let s := s.putPart p { x with
    params := q
    lent := x.lent.map revoke }
  let s := lost.foldl (fun s c => s.preemptIn p c) s
  (x.lent.filter fun l => lost.contains l.cluster).foldl (fun s l => s.preemptIn l.dest l.cluster) s

/-- PCHANGE (R446): every parameter but WCLS. -/
def execPchange (h : XcpHdr) (part : Nat) (q : PartParams) (s : State) : Res :=
  s.xcp h false fun s =>
    match s.part part with
    | none => s.refuseWith 2
    | some x => if q.wcls ≠ x.params.wcls ∨ !s.paramsOk part q then s.refuseWith 2 else ((s.changePart part x q).refreshCands part).done

/-- The local DRAM that a partition's stage 2 maps: first address and size of each leaf. -/
def State.framesIn (s : State) (x : Partition) : List (Nat × Nat) :=
  x.leaves.filterMap fun l =>
    if s.target (pteOa l.2.2) = .dram then some (pteOa l.2.2, 2 ^ levelShift l.1) else none

/-- A partition is destroyed (R242, R356, R465): its rung, then its memory reads as zero, and nothing of it is left. -/
def State.destroyPart (s : State) (p : Nat) (x : Partition) : State :=
  let frames := s.framesIn x
  let s := s.partitionRung p
  let s := x.lent.foldl (fun s l => s.preemptIn l.dest l.cluster) s
  let s := (frames.foldl (fun s f => s.clearRange f.1 f.2) s).invalidateAll p
  let keep (y : Partition) : Partition := { y with lent := y.lent.filter fun l => l.dest != p }
  let s := (s.dropEntries (stewardKey p)).ungate
  { s with
    blocks := s.blocks.filter fun b => b.2.part != some p
    parts := (s.parts.filter fun y => y.1 != p).map fun (y : Nat × Partition) => (y.1, keep y.2)
    harbour := { s.harbour with jobs := s.harbour.jobs.filter fun j => j.2.part != p } }

/-- PDESTROY (R465). -/
def execPdestroy (h : XcpHdr) (part : Nat) (s : State) : Res :=
  s.xcp h false fun s =>
    match s.part part with
    | none => s.refuseWith 2
    | some x => (s.destroyPart part x).done

/-! ### MAP (R247, R255, R369, R448) -/

/-- The entry of a MAP overlaps a range of guest-physical addresses. -/
def mapMeets (m : MapEntry) (lo hi : Nat) : Bool :=
  decide (m.gpa < hi) && decide (lo < m.gpa + 2 ^ levelShift m.level)

/-- The entry has a level and an address that it can have. -/
def mapPlaced (m : MapEntry) : Bool :=
  decide (2 ≤ m.level) && decide (m.level ≤ 4) && m.gpa % 2 ^ levelShift m.level == 0 &&
    decide (m.gpa + 2 ^ levelShift m.level ≤ 2 ^ 52)

/-- The harbour die refuses an entry: at the pages of R448, over a larger page, writable over the interleave entries, or in
spread mode for a partition of class W2 or W3. -/
def State.mapRefused (s : State) (x : Partition) (m : MapEntry) : Bool :=
  let e := m.entry.toNat
  let a := spaLocal (pteOa e)
  let size := 2 ^ levelShift m.level
  mapMeets m gpaWindows (gpaWindows + 0x2000) || mapMeets m gpaTables (gpaTables + 0x10000) ||
    ((List.range m.level).any fun l => pteLeaf (Kv.get 0 (s2Key l m.gpa) x.s2).toNat) ||
    (pteV e &&
      ((pteW e && decide (a < controlBase + 8 * 768) && decide (controlBase < a + size)) ||
       (x.params.wcls != 1 && spaPkg (pteOa e) == s.harbour.pkg && regionV (s.region a) && regionMode (s.region a) == 0)))

/-- An entry is written: the larger levels become table pointers, and what it covers of smaller ones is gone.
DESIGN CHOICE, log 15. -/
def mapPut (m : MapEntry) (s2 : List (Nat × DWord)) : List (Nat × DWord) :=
  let below (k : Nat) : Bool :=
    let l := k / 2 ^ 60
    decide (m.level < l) && mapMeets m (k % 2 ^ 60 * 2 ^ levelShift l) (k % 2 ^ 60 * 2 ^ levelShift l + 1)
  let s2 := s2.filter fun e => !below e.1
  if pteV m.entry.toNat then mapEntry m.level m.gpa m.entry s2 else Kv.erase (s2Key m.level m.gpa) s2

/-- A written entry is a leaf without a format error. -/
def mapWellFormed (m : MapEntry) (s2 : List (Nat × DWord)) : Bool :=
  let e := m.entry.toNat
  let k := s2Key m.level m.gpa
  !pteV e || (pteLeaf e && !pteBad true m.level e fun n => (Kv.get 0 (k - k % 16 + n) s2).toNat)

/-- The entry changes a valid entry, so that translations of it must be forgotten. -/
def mapReplaces (m : MapEntry) (s2 : List (Nat × DWord)) : Bool :=
  s2.any fun e => pteV e.2.toNat && pteLeaf e.2.toNat &&
    mapMeets m (e.1 % 2 ^ 60 * 2 ^ levelShift (e.1 / 2 ^ 60)) (e.1 % 2 ^ 60 * 2 ^ levelShift (e.1 / 2 ^ 60) + 1)

/-- The answer to a MAP. -/
def State.mapAnswer (s : State) (p : Nat) (x : Partition) (l : List MapEntry) : Answer :=
  let s2 := l.foldl (fun m e => mapPut e m) x.s2
  if !(l.all fun m => mapPlaced m && mapWellFormed m s2) then s.refuseWith 1
  else if l.any fun m => s.mapRefused x m then s.refuseWith 2
  else
    let t := s.putPart p { x with s2 := s2 }
    (if l.any fun m => mapReplaces m x.s2 then t.invalidateAll p else t).done

/-- MAP (R465): a removal waits until nothing acts through a translation of the partition any more (R255). -/
def execMap (h : XcpHdr) (part : Nat) (l : List MapEntry) (s : State) : Res :=
  match s.part part with
  | none => s.xcp h false fun s => s.refuseWith 2
  | some x =>
    if s.harbour.host = some h.src ∧ (l.any fun m => mapReplaces m x.s2) ∧ s.actsThrough part 0 (2 ^ 52) then .next s
    else s.xcp h false fun s => s.mapAnswer part x l

/-! ### Jobs, hails, rungs, windows (R390, R455, R456, R462, R465) -/

/-- The answer to a JOBGRANT. -/
def State.grant (s : State) (g : JobGrant) : Answer :=
  if g.job = 0 ∨ 4095 < g.job ∨ (s.part g.part).isNone ∨ g.elsewhere ∨ !s.harbour.agrees 1 ∨
      (Kv.find g.job s.harbour.jobs).any (fun j => j.part != g.part) ∨
      !(noRepeat (g.quotas.map (·.1)) && g.quotas.all fun q => decide (q.1 < 128) && decide (q.2 ≤ 64)) then s.refuseWith 2
  else ({ s with harbour := { s.harbour with
      jobs := Kv.insert g.job ⟨g.part, sortBy (·.1) g.quotas⟩ s.harbour.jobs } }).done

/-- JOBGRANT (R390). -/
def execJobgrant (h : XcpHdr) (g : JobGrant) (s : State) : Res := s.xcp h false fun s => s.grant g

/-- XCP_HAIL (R455, R456): every RoCEv2 write that was acknowledged has been performed. -/
def execXcpHail (h : XcpHdr) (part : Nat) (payload : DWord) (s : State) : Res :=
  s.xcp h false fun s => if (s.part part).isNone then s.refuseWith 2 else (s.hail part payload).done

/-- The rung and the target of a RESET: a partition with a node or a tag, a core with a unit, a partition.
DESIGN CHOICE, log 51. -/
def rungOf (rung target : Nat) : Option Rung :=
  match rung with
  | 1 => some (.queue (target % 64) (target / 64))
  | 2 => some (.context (target % 64) (target / 64))
  | 3 => some (.engine (target / 8) (target % 8))
  | 4 => some (.partition target)
  | 5 => some .device
  | _ => none

/-- The target of a rung exists. -/
def State.hasTarget (s : State) : Rung → Bool
  | .queue p _ => (s.part p).isSome
  | .context p t => decide ((s.block (blockKey p t)).part = some p)
  | .engine c u => decide (1 ≤ u) && decide (c < if u = 6 then 128 else if u = 7 then 1024 else 384)
  | .partition p => (s.part p).isSome
  | .device => true

/-- XCP_RESET (R356, R357, R465): the reply leaves when the rung has completed. -/
def execXcpReset (h : XcpHdr) (rung target : Nat) (s : State) : Res :=
  match rungOf rung target with
  | none => s.xcp h false fun s => s.refuseWith 1
  | some r =>
    let again : Bool := s.harbour.replies.any fun x => x.seq == h.seq || decide (h.seq < x.seq)
    if s.harbour.host = some h.src ∧ h.ver = 1 ∧ h.len ≤ 8192 ∧ s.hasTarget r ∧ !again ∧
        !(s.harbour.minimal && r != .device) ∧ !(s.harbour.rungs.any fun x => x.seq.isSome) then
      .next (s.startRung r (some h.seq))
    else s.xcp h (rung == 5) fun s => s.refuseWith 2

/-- RKEY (R462). -/
def execRkey (h : XcpHdr) (key : Nat) (w : HostWindow) (s : State) : Res :=
  s.xcp h false fun s =>
    let put (l : List (Nat × HostWindow)) : State := { s with harbour := { s.harbour with windows := l } }
    if w.len = 0 then (put (Kv.erase key s.harbour.windows)).done
    else if w.base % 4096 ≠ 0 ∨ w.len % 4096 ≠ 0 then s.refuseWith 1
    else if (s.part w.part).isNone ∨ 2 ^ 52 < w.base + w.len then s.refuseWith 2
    else (put (Kv.insert key w s.harbour.windows)).done

/-- The package takes a number: its addresses move, and nothing of other packages is held. -/
def State.renumber (s : State) (pkg : Nat) : State :=
  let old := s.harbour.pkg
  let mine (a : Nat) : Bool := spaPkg a == old
  let move (a : Nat) : Nat := pkg * 2 ^ 46 + spaLocal a
  { s with
    mem := (s.mem.filter fun c => mine c.1).map fun (c : Nat × Byte) => (move c.1, c.2)
    ecc := (s.ecc.filter fun c => mine c.1).map fun (c : Nat × Ecc) => (move c.1, c.2)
    proxy := []
    dies := s.dies.map fun (d : Nat × BaseDie) => (d.1, { d.2 with dir := [] })
    harbour := { s.harbour with pkg := pkg } }

/-- The answer to a TOPOLOGY (R384, R461). DESIGN CHOICE, log 56. -/
def State.setTopology (s : State) (t : Topology) : Answer :=
  let others := t.routes.any fun r => r.1 != t.pkg
  if !s.parts.isEmpty then s.refuseWith 2
  else if 1024 ≤ t.pkg ∨ 4096 ≤ t.dataVlan ∨ 4096 ≤ t.ctlVlan ∨
      !(noRepeat (t.routes.map (·.1)) && t.routes.all fun r => decide (r.1 < 1024) && decide (r.2.1 < 2 ^ 32) && decide (r.2.2 < 32)) then
    s.refuseWith 1
  else if others && !s.harbour.agrees 4 then s.refuseWith 2
  else if t.cyclic then s.refuseWith 7
  else
    let s := s.renumber t.pkg
    ({ s with harbour := { s.harbour with
        dataVlan := t.dataVlan
        ctlVlan := t.ctlVlan
        routes := sortBy (·.1) t.routes } }).done

/-- TOPOLOGY (R384). -/
def execTopology (h : XcpHdr) (t : Topology) (s : State) : Res := s.xcp h false fun s => s.setTopology t

/-- PWRCAP (R473). -/
def execPwrcap (h : XcpHdr) (watts : Nat) (s : State) : Res :=
  s.xcp h false fun s =>
    if watts < 1000 ∨ 3200 < watts then s.refuseWith 2
    else ({ s with harbour := { s.harbour with cap := watts } }).done

/-! ### Attestation and firmware (R470 to R472) -/

/-- Bytes as a little-endian number. -/
def ofBytes : List Byte → Nat
  | [] => 0
  | b :: t => b.toNat + 256 * ofBytes t

/-- The 256-byte report (R472). -/
def State.attestation (s : State) (nonce : List Byte) : List Byte :=
  let hash (l : List Byte) : Nat := ofBytes (Config.shake256 l) % 2 ^ 512
  let feat := s.vector (s.harbour.agreed.getD Config.unitCaps)
  bytesOf (ofBytes nonce % 2 ^ 256 * 2 ^ 1792 + hash Config.identityKey * 2 ^ 1280 + hash s.harbour.fwImage * 2 ^ 768 +
    hash (Config.configBytes (s.parts.map fun x => (x.1, x.2.params))) * 2 ^ 256 + feat.toNat * 2 ^ 128 +
    s.clock % 2 ^ 64 * 2 ^ 64 + s.harbour.pkg % 2 ^ 10 * 2 ^ 32 + 1) 256

/-- ATTEST (R472). -/
def execAttest (h : XcpHdr) (nonce : List Byte) (s : State) : Res :=
  s.xcp h true fun s =>
    if nonce.length ≠ 32 then s.refuseWith 1
    else
      let r := s.attestation nonce
      (0, .attest r (Config.identitySign r) Config.identityKey Config.identityCert, s)

/-- The image staged, byte by byte. -/
def Harbour.staged (h : Harbour) : List Byte := (List.range h.stagingLen).map fun k => Kv.get 0 k h.staging

/-- The answer to a FWPROV (R470): a chunk at offset 0 begins a provisioning, and the chunk that reaches the total length
ends it with the check. -/
def State.provision (s : State) (off total : Nat) (chunk : List Byte) : Answer :=
  let h := s.harbour
  if total < off + chunk.length ∨ total = 0 then s.refuseWith 1
  else if off ≠ 0 ∧ h.stagingLen ≠ total then s.refuseWith 8
  else
    let old := if off = 0 then [] else h.staging
    let h : Harbour :=
      { h with
        staging := (cellsAt off chunk).foldl (fun m c => Kv.insert c.1 c.2 m) old
        stagingLen := total }
    if off + chunk.length < total then ({ s with harbour := h } : State).done
    else if h.imageOk h.staged then
      let h' : Harbour :=
        { h with
          fwImage := h.staged
          fwFloor := Config.firmwareVersion h.staged
          failCount := 0
          staging := []
          stagingLen := 0 }
      ({ s with harbour := h' } : State).done
    else s.refuseWith 6

/-- FWPROV (R470). -/
def execFwprov (h : XcpHdr) (off total : Nat) (chunk : List Byte) (s : State) : Res :=
  s.xcp h true fun s => s.provision off total chunk

/-! ### Events for the host (R465) -/

/-- An EVENT message is sent now. -/
def State.sendMsg (s : State) (e : XcpEvent) : State :=
  let e' : XcpEvent := { e with sent := some s.clock }
  let put (x : XcpEvent) : XcpEvent := if x.seq = e.seq then e' else x
  { s with harbour := { s.harbour with events := s.harbour.events.map put } }.emit (.event e')

/-- XCP_EVENT (R465): the events not sent yet leave, once there is a host. -/
def execXcpEvent (s : State) : Res :=
  if s.harbour.host.isNone then .next s
  else .next ((s.harbour.events.filter fun e => e.sent.isNone).foldl State.sendMsg s)

/-- XCP_EVENT_RESEND (R465): 100 ms after it was sent. -/
def execXcpEventResend (s : State) : Res :=
  let due (e : XcpEvent) : Bool := e.sent.any fun t => decide (t + 100000000 ≤ s.clock)
  .next ((s.harbour.events.filter due).foldl State.sendMsg s)

/-- XCP_EVENT_ACK (R465). -/
def execXcpEventAck (src seq : Nat) (s : State) : Res :=
  if s.harbour.host = some src then
    .next { s with harbour := { s.harbour with events := s.harbour.events.filter fun e => e.seq != seq || e.sent.isNone } }
  else .next s

/-- THERMAL_THROTTLE (R473): a die reaches 105 °C. -/
def execThermalThrottle (die celsius : Nat) (s : State) : Res :=
  let hot := s.harbour.hot
  let put (l : List Nat) : State := { s with harbour := { s.harbour with hot := l } }
  if celsius < 105 then .next (put (hot.filter (· != die)))
  else if hot.contains die then .next s
  else .next ((put (hot ++ [die])).postEvent 2 0x210 [die, celsius])

/-! ### RoCEv2 (R462, R463) -/

/-- The pieces of a range that lie in one aligned unit of `u` bytes each: address and bytes. -/
def unitPieces (u a n : Nat) : List (Nat × Nat) :=
  ((List.range ((a + n - 1) / u - a / u + 1)).map fun k =>
    let lo := max a ((a / u + k) * u)
    (lo, min (a + n) ((a / u + k + 1) * u) - lo)).filter fun p => p.2 != 0

/-- The places of a range of a host window: none where the access is refused. -/
def State.windowPieces (s : State) (key addr n : Nat) (write : Bool) : Option (Nat × List (Nat × Nat)) :=
  match Kv.find key s.harbour.windows with
  | none => none
  | some w =>
    match s.part w.part with
    | none => none
    | some x =>
      let at_ (p : Nat × Nat) : Option (Nat × Nat) :=
        match stage2 x p.1 with
        | .error _ => none
        | .ok (pg, spa) =>
          if !(pg.read && (!write || pg.write)) then none
          else
            match s.target spa with
            | .nothing => none
            | _ => if controlBase ≤ spaLocal spa ∧ pg.mt ≠ 2 then none else some (spa, p.2)
      if addr < w.base ∨ w.base + w.len < addr + n ∨ (if write then !w.write else !w.read) then none
      else ((unitPieces 4096 addr n).mapM at_).map fun l => (w.part, l)

/-- The agent of a host write: the harbour die, for the partition of the window (R463). -/
def hostActor (p : Nat) : Actor := ⟨stewardKey p, 0x210, 2, { FaultRec.ofKind 0x02 with part := p }⟩

/-- The units of a host write into the control region of another package, one CTL for each (R463). -/
def hostWords (a : Actor) (spa : Nat) (d : List Byte) : List (Nat × Nat) → State → Except Stop State
  | [], s => .ok s
  | x :: t, s =>
    match strictWrite s a x.1 x.1 (ofBytes ((d.drop (x.1 - spa)).take x.2)) x.2 with
    | .error e => .error e
    | .ok s => hostWords a spa d t s

/-- One piece of a host write is performed: into this package's control region byte by byte. DESIGN CHOICE, log 55. -/
def State.hostWrite (s : State) (p spa : Nat) (d : List Byte) : Except Stop State :=
  let a := hostActor p
  if s.target spa = .control then .ok ((cellsAt spa d).foldl (fun s c => (ctlWrite s a c.1 c.1 c.2.toNat 1).toOption.getD s) s)
  else if s.strictAt spa 0 then hostWords a spa d (unitPieces 4 spa d.length) s
  else (physStore s a spa 0 spa (ofBytes d) d.length false).map fun r => r.2.writeCells r.1

/-- The pieces of a host write, one after another. -/
def hostWrites (p : Nat) : List (Nat × Nat) → List Byte → State → Except Stop State
  | [], _, s => .ok s
  | x :: t, d, s =>
    match s.hostWrite p x.1 (d.take x.2) with
    | .error e => .error e
    | .ok s => hostWrites p t (d.drop x.2) s

/-- RDMA_WRITE (R462, R463): it waits where a line of it is being probed; the acknowledgement follows once every byte has
been performed at its home. -/
def execRdmaWrite (qp key addr : Nat) (data : List Byte) (s : State) : Res :=
  if s.harbour.minimal ∨ 256 ≤ qp then .next (s.emit (.rdmaAck qp 1))
  else
    match s.windowPieces key addr data.length true with
    | none => .next (s.emit (.rdmaAck qp 2))
    | some (p, l) =>
      match hostWrites p l data s with
      | .error (.miss a q) => .next (s.request 0x210 2 a q)
      | .error _ => .next s
      | .ok t =>
        let t := t.taken 0x210 2
        let waits := (t.reqs.filter fun r => (Kv.find r.1 s.reqs).isNone).map (·.1)
        if waits.isEmpty then .next (t.emit (.rdmaAck qp 0))
        else .next { t with harbour := { t.harbour with acks := t.harbour.acks ++ [(qp, waits)] } }

/-- The pieces of a host read, by single bytes of the control region and by pieces of 32 bytes elsewhere. -/
def hostRead (p : Nat) (spa : Nat) : Nat → State → Except Stop (List Byte × State)
  | 0, s => .ok ([], s)
  | n + 1, s =>
    match hostRead p spa n s with
    | .error e => .error e
    | .ok (l, s) =>
      let r := if s.strictAt (spa + n) 0 then (ctlReadRemote s (hostActor p) (spa + n) (spa + n) 1 0).map fun v => (v, s)
        else physRead s (hostActor p) (spa + n) 1 (spa + n)
      r.map fun y => (l ++ [BitVec.ofNat 8 y.1], y.2)

def hostReads (p : Nat) : List (Nat × Nat) → State → Except Stop (List Byte × State)
  | [], s => .ok ([], s)
  | x :: t, s =>
    match hostRead p x.1 x.2 s with
    | .error e => .error e
    | .ok (l, s) => (hostReads p t s).map fun r => (l ++ r.1, r.2)

/-- RDMA_READ (R462, R463): it waits while earlier writes of its queue pair are on their way. -/
def execRdmaRead (qp key addr len : Nat) (s : State) : Res :=
  if s.harbour.minimal ∨ 256 ≤ qp then .next (s.emit (.rdmaAck qp 1))
  else if s.harbour.acks.any fun a => a.1 == qp then .next s
  else
    match s.windowPieces key addr len false with
    | none => .next (s.emit (.rdmaAck qp 2))
    | some (p, l) =>
      match hostReads p l s with
      | .ok (d, t) => .next ((t.taken 0x210 2).emit (.rdmaData qp d))
      | .error (.miss a q) => .next (s.request 0x210 2 a q)
      | .error (.exc e) => .next (((s.markRead e.aux).taken 0x210 2).emit (.rdmaAck qp 3))
      | .error .wait => .next s
      | .error (.halt _) => .next (s.emit (.rdmaAck qp 2))

/-! ### Management packets of the domain (R467, R474) -/

/-- A management packet of one kind; a packet of any other kind is discarded as R373 lays down. -/
def management (kind : Nat) (p : Packet) (f : State → State) : State → Res :=
  arrival 0x30 p fun s =>
    let k := p.imm.toNat % 256
    if k = 0 ∨ 3 < k then routerDrop p.dstk p s else if k = kind then f s else s

/-- A management packet that leaves. -/
def State.manage (s : State) (dpkg job : Nat) (imm : Nat) (data : List Byte) : State :=
  s.emit (.packet { s.packet 0x30 3 0 0 0x210 with
    dpkg := dpkg
    job := job
    imm := BitVec.ofNat 64 imm
    data := data })

/-- MGX_TIMESTAMP_SYNC (R474): the lowest-numbered package's time is the reference of the others. DESIGN CHOICE, log 54. -/
def execMgxTimestampSync (p : Packet) : State → Res :=
  management 1 p fun s =>
    if p.spkg < s.harbour.pkg ∧ s.harbour.routes.all fun r => decide (p.spkg ≤ r.1) then
      { s with harbour := { s.harbour with slew := (ofBytes (p.data.take 8) : Int) - s.clock } }
    else s

/-- The answer to a forwarded request whose payload is empty, by its TYPE. -/
def State.forwardedAnswer (s : State) (type : Nat) : Option Answer :=
  match type with
  | 0x02 => some s.inventory
  | 0x03 => some s.startReport
  | 0x31 => some s.telemetry
  | _ => if [0x01, 0x10, 0x11, 0x12, 0x13, 0x14, 0x15, 0x16, 0x17, 0x20, 0x30, 0x40, 0x41].contains type then none
    else some (s.refuseWith 3)

/-- MGX_XCP_FORWARD (R467): a reply goes to the host; a request is answered through the package it came from. One whose
payload is not empty is executed as the event of its own name. -/
def execMgxXcpForward (p : Packet) : State → Res :=
  management 2 p fun s =>
    let h := ofBytes (p.data.take 16)
    if bitOf h 47 then s.emit (.forwarded p.data)
    else
      match s.forwardedAnswer (bitsOf h 46 32) with
      | none => s
      | some r =>
        let hdr := bitsOf h 127 96 * 2 ^ 96 + r.1 * 2 ^ 48 + 2 ^ 47 + bitsOf h 46 32 * 2 ^ 32 + 1
        (r.2.2.reply (bitsOf h 127 96) r.1 r.2.1).manage p.spkg 0 2 (flitBytes (bytesOf hdr 16))

/-- MGX_JOB_GRANT_CHECK (R390, R467): the answer says whether the job is granted here. Bit 9 of IMM marks an answer, and
bit 8 is its value. -/
def execMgxJobGrantCheck (p : Packet) : State → Res :=
  management 3 p fun s =>
    if bitOf p.imm.toNat 9 then s
    else s.manage p.spkg p.job (3 + 2 ^ 9 + boolNat (Kv.find p.job s.harbour.jobs).isSome * 2 ^ 8) []

end Sys2Proof.Machine
end

