-- ==== Sys2Proof/Machine/Links.lean ====
section
/-! DEFINITION. Flits and frames as links and Strelar ports receive them: the check of a flit, the packets that accepted
flits make up, and the retraining of a port (R371, R372, R383). -/

namespace Sys2Proof.Machine

/-! ### Flits (R371) -/

/-- One bit of the CRC-16 with polynomial 0x8BB7. -/
def crcBit (c : Nat) (bit : Bool) : Nat :=
  let d := c * 2 % 65536
  if c.testBit 15 != bit then Nat.xor d 0x8BB7 else d

/-- The CRC of a flit: bits 287 to 16, the highest first, from 0xFFFF. DEDUCED, log 59. -/
def flitCrc (flit : Nat) : Nat := (List.range 272).foldl (fun c k => crcBit c (flit.testBit (287 - k))) 0xFFFF

/-- The flit's CRC agrees. -/
def flitOk (flit : Nat) : Bool := decide (flit < 2 ^ 288) && bitsOf flit 15 0 == flitCrc flit

/-- Fields of a flit. -/
def flitVc (flit : Nat) : Nat := bitsOf flit 31 29
def flitHead (flit : Nat) : Bool := bitOf flit 28
def flitTail (flit : Nat) : Bool := bitOf flit 27
def flitPayload (flit : Nat) : Nat := bitsOf flit 287 32

/-- The packet of its flits: none where they do not begin with a head flit. -/
def packetOfFlits : List Nat → Option Packet
  | [] => none
  | h :: t =>
    if flitHead h then some (pktOfHeader (flitPayload h) ((t.map fun f => bytesOf (flitPayload f) 32).flatten)) else none

/-! ### Delivery (R372, R373, R384) -/

/-- A whole packet does what its operation does. The header holds neither the function nor the type of an ATM or RDC,
which their events carry. DEDUCED, log 23. -/
def State.deliver (s : State) (p : Packet) : Res :=
  match p.op with
  | 0x02 => execWrl p s
  | 0x03 => arrival 0x03 p id s
  | 0x04 => arrival 0x04 p id s
  | 0x05 => execAmx p s
  | 0x06 => execCtl p (!p.data.isEmpty) s
  | 0x08 => execVgt p s
  | 0x09 => execVsc p s
  | 0x0C => execFnc p s
  | 0x10 => execRsd p s
  | 0x11 => execRsa p s
  | 0x12 => execRse p s
  | 0x18 => execPri p s
  | 0x19 => execPrs p s
  | 0x1A => execWbk p s
  | 0x20 => if p.dpkg = s.harbour.pkg then execClf p.dstk p s else arrival 0x20 p id s
  | 0x30 =>
    match p.imm.toNat % 256 with
    | 2 => execMgxXcpForward p s
    | 3 => execMgxJobGrantCheck p s
    | _ => execMgxTimestampSync p s
  | _ => execRdl p s

/-- The state of a link or port. -/
def LinkState.reset : LinkState := ⟨[], 0, 0⟩
def State.link (s : State) (n : Nat) : LinkState := Kv.get LinkState.reset n s.links
def State.modLink (s : State) (n : Nat) (f : LinkState → LinkState) : State :=
  { s with links := Kv.insert n (f (s.link n)) s.links }

/-- A flit is accepted; with the last of its packet the packet is delivered. -/
def State.acceptFlit (s : State) (n flit : Nat) : Res :=
  let mine (f : Nat) : Bool := flitVc f == flitVc flit
  let l := (s.link n).accepted
  if flitTail flit then
    let s := s.modLink n fun x => { x with accepted := l.filter fun f => !mine f }
    match packetOfFlits (l.filter mine ++ [flit]) with
    | some p => s.deliver p
    | none => .next s
  else .next (s.modLink n fun x => { x with accepted := l ++ [flit] })

/-- FLIT_CRC_REPLAY (R371): a flit of a stack link or a landing whose CRC fails is refused, and its sender replays from it.
A flit that is sound is accepted. -/
def execFlitCrcReplay (link : Nat) (flit : Nat) (s : State) : Res :=
  if flitOk flit then s.acceptFlit link flit else .next (s.emit (.nack link))

/-! ### Strelar ports (R383) -/

/-- The state of a port follows those of the stack links and landings. -/
def strelarLink (port : Nat) : Nat := 512 + port

/-- A frame is refused: the sender replays from it. -/
def State.refuseFrame (s : State) (port : Nat) : State :=
  (s.modLink (strelarLink port) fun x => { x with replays := x.replays + 1 }).emit (.nack (strelarLink port))

/-- STRELAR_FRAME_RECEIVE (R383): the frame is corrected, checked and accepted in order, or refused. -/
def execStrelarFrameReceive (port : Nat) (frame : List Byte) (s : State) : Res :=
  if !(presentPorts s.absent).contains port then .next s
  else
    match (if frame.length = 42 then Config.rsCorrect frame else none) with
    | none => .next (s.refuseFrame port)
    | some x =>
      let flit := ofBytes (x.take 36)
      let seq := ofBytes ((x.drop 36).take 2) % 4096
      if !flitOk flit || seq != (s.link (strelarLink port)).seq then .next (s.refuseFrame port)
      else
        let s := s.modLink (strelarLink port) fun x =>
          { x with
            seq := (x.seq + 1) % 4096
            replays := 0 }
        s.acceptFlit (strelarLink port) flit

/-- STRELAR_RETRAIN (R383): after 8 replays without progress, the port comes back at the width that trains, or is
removed. -/
def execStrelarRetrain (port : Nat) (lanes : Nat) (s : State) : Res :=
  if (s.link (strelarLink port)).replays < 8 ∨ !([8, 4, 2, 0].contains lanes) then .next s
  else
    let s := s.modLink (strelarLink port) fun x => { x with replays := 0 }
    .next { s with absent := { s.absent with lanes := Kv.set 8 port lanes s.absent.lanes } }

end Sys2Proof.Machine
end

