-- ==== Sys2Proof/Machine/Agents.lean ====
section
/-! DEFINITION. What acts on its own: the cores, the engines, the dispatchers, the base dies and the harbour die. When no
instruction is in progress, one of them acts, a free value saying which. -/

namespace Sys2Proof.Machine

/-- An agent's next action. It leaves the state as it is where the agent has nothing to do. -/
abbrev Act := State → Res

/-- A core and the entries of its PC table (R160 to R166). -/
def Core.acts (c : Nat) (x : Core) : List Act :=
  [execEntryFill c, execIssueSelect c, execEntryPromote c, execDemotionMark c, execMatrixOpComplete c .agrees] ++
    (x.entries.map fun e => [execEntrySwap c e.1, execEntryEvict c e.1, execPendingCheck c e.1]).flatten

/-- The engines of a block on one core (R273 to R314). -/
def BlockCore.acts (k : Nat) (c : BlockCore) : List Act :=
  [execRegionEntryRun c.core k, execTblLoadComplete c.core k] ++
    ((distinct (c.ops.map (·.tl))).map fun tl =>
      [execCopyWriteGroup c.core k tl, execEngineOpComplete c.core k tl, execEngineOpPark c.core k tl,
        execEngineOpCancel c.core k tl]).flatten

/-- Where a saved block would be restored. -/
def State.restorePlace (s : State) (p : Nat) (b : Block) : Option Placement :=
  if b.tag = 0 then s.stewardPlace p
  else if !b.left.isEmpty then (s.elsewhere p b b.left).map fun l => s.fillPlace (b.lo == 32) b.needs l
  else (s.part p).bind fun x => (Kv.find b.grid x.grids).bind fun g => s.nextPlace p x g

/-- A block: its engines, and its way out of its cores and back (R181, R183, R351, R352). -/
def State.blockActs (s : State) (k : Nat) (b : Block) : List Act :=
  (b.cores.map fun c => c.2.acts k).flatten ++
    match b.part, b.phase with
    | none, _ => []
    | some p, .halting => [execBlockQuiesceSave p b.tag]
    | some p, .saved =>
      match s.restorePlace p b with
      | some place => [execBlockRestore p b.tag place]
      | none => []
    | some _, .resident => [execMigration k]

/-- A partition: its grids, replays, records, mooring, and collective programs (R177 to R187, R344, R428 to R435, R460). -/
def State.partActs (s : State) (p : Nat) (x : Partition) : List Act :=
  let grid (g : Nat × Grid) : List Act :=
    [execDependenceRead p g.1, execGridComplete p g.1, execCandidateProtect p g.1, execRotation p g.1] ++
      match s.nextPlace p x g.2 with
      | some place => [execBlockAdmit p g.1 place]
      | none => []
  let prog (q : Nat × CollProg) : List Act :=
    [execCollTimeout p q.1, execCollProgramComplete p q.1] ++ (List.range q.2.legs.length).map fun k => execCollLegStart p q.1 k
  (x.grids.map grid).flatten ++
    ((List.range x.replays.length).map fun k => [execGraphReplayRelease p k, execGraphReplayComplete p k]).flatten ++
    (x.rings.map fun r => [execRecordWrite p r.1, execRingConsPoll p r.1]).flatten ++
    (x.nbLoads.map fun o => o.stks.map fun k => execNbImageLoadComplete p k o.slot).flatten ++
    (x.progs.map prog).flatten ++ [execMoorEntryEnd p, execPartitionWake p, execWakeBoundMissed p]

/-- A near-bank unit (R418 to R424): a running run goes on by row steps, or by words in the focus. -/
def NbUnit.acts (stk unit : Nat) : List Act :=
  let n := 64 * stk + unit
  [execNbRunStart n, execNbRowStep n false, execNbResume n, execNbForcedStep n,
    fun s => .next (s.nbFocus stk unit)]

/-- A base die (R393, R418, R430, R458). -/
def BaseDie.acts (k : Nat) (d : BaseDie) : List Act :=
  (d.ferry.map fun c => execFerryInvoke k c.1) ++ (d.units.map fun u => NbUnit.acts k u.1).flatten ++
    [execClfHoldExpire k, execStackSelfRefresh k]

/-- The operations that hold a group (R346). -/
def PkgOp.acts (n : Nat) : List Act :=
  [execFerryImageLoadComplete n, execTlbiComplete n, execScrubComplete n, execHarvestComplete n]

/-- The clusters that pass between partitions (R450 to R452). -/
def State.clusterActs (s : State) (p : Nat) (x : Partition) : List Act :=
  (x.params.margin.map fun c => (s.borrowers p c).map fun q => execMarginLend c q.1).flatten ++
    (if (s.needsSince p x).isSome then x.lent.map fun l => execMarginRevoke l.cluster
     else (x.lent.filter (·.revoked)).map fun l => execMarginRevoke l.cluster) ++
    x.params.shared.map execSharedTurnEnd

/-- The watchdogs of the units that a pre-emption waits for (R355). -/
def State.watchActs (s : State) : List Act :=
  let cores := ((s.blocks.filter fun b => b.2.phase == .halting).map fun b => b.2.cores.map (·.2.core)).flatten
  ((distinct cores).map fun c => [1, 2, 4].map (execWatchdogExpire c)).flatten ++
    (s.dies.map fun d => (d.2.ferry.map fun f => execWatchdogExpire (8 * d.1 + f.1) 5) ++
      d.2.units.map fun u => execWatchdogExpire (64 * d.1 + u.1) 6).flatten

/-- The harbour die (R357, R384, R465, R469). -/
def State.harbourActs (s : State) : List Act :=
  [execDeviceStart s.absent, execXcpEvent, execXcpEventResend, execStartFail 4] ++
    ((List.range s.harbour.rungs.length).map execRungTimeout) ++ (presentCores s.absent).map execCoreReportTimeout ++
    s.reqs.map fun r => execRemoteTimeout r.1

/-- Every agent's action. -/
def State.acts (s : State) : List Act :=
  (s.cores.map fun c => c.2.acts c.1).flatten ++ (s.blocks.map fun b => s.blockActs b.1 b.2).flatten ++
    (s.parts.map fun p => s.partActs p.1 p.2 ++ s.clusterActs p.1 p.2).flatten ++
    (s.dies.map fun d => d.2.acts d.1).flatten ++ (s.ops.map fun o => PkgOp.acts o.1).flatten ++ s.watchActs ++ s.harbourActs

/-! ### Time, and what is in focus -/

/-- The counter's correction at a step: at most 100 ppm of the time that passes (R474). -/
def slewPart (slew : Int) (d : Nat) : Int := max (-(d / 10000 : Nat)) (min (d / 10000 : Nat) slew)

/-- Time goes on from a step that began in state `s`, slewed toward the reference of the domain (R474). DESIGN CHOICE, log 3. -/
def State.tickFrom (s t : State) : State :=
  let d := Config.stepTime s.tick
  let x := slewPart s.harbour.slew d
  { t with
    tick := s.tick + 1
    clock := s.clock + ((d : Int) + x).toNat
    harbour := { t.harbour with slew := t.harbour.slew - x } }

/-- Go on from a next state. -/
def Res.thenDo (r : Res) (f : State → State) : Res :=
  match r with
  | .next s => .next (f s)
  | .fault h => .fault h
  | .refused h => .refused h

/-- The next instruction of a running invocation (R393). -/
def State.ferryNow (s : State) (stk fc : Nat) : Option Instr :=
  match s.fctx stk fc with
  | none => none
  | some (c, r, _) => (c.kernel.words[r.idx]?).bind fun w => (decodeFerry w).toOption

/-- The next micro-operation of a running run (R419). -/
def State.nbNow (s : State) (stk unit : Nat) : Option Instr :=
  ((s.unit (64 * stk + unit)).cur.bind fun u => u.prog[u.i]?).bind fun w => (decodeNb w).toOption

/-- A unit keeps the focus to the end of its row (R424). -/
def State.nbRefocus (s : State) (stk unit : Nat) : State :=
  match (s.unit (64 * stk + unit)).cur with
  | some u => if u.c = 0 ∧ u.i = 0 then { s with focus := .none } else s
  | none => { s with focus := .none }

/-! ### Placing one instruction -/

/-- Nothing is set off, and one thing is in focus. -/
def State.only (s : State) (f : Focus) : State :=
  { s with
    agenda := []
    focus := f }

/-- Core 0 has left reset, and its boot-mode thread stands alone in entry 0 at the bytes of the instruction: at local
address 0, in a region that is present. -/
def State.withBootWord (s : State) (w : Nat) : State :=
  let s := s.releaseCore 0
  let k := bootKey 0
  let base := s.harbour.pkg * 2 ^ 46
  let s : State :=
    { s with
      interleave := Kv.insert 0 0x8000000000000000 s.interleave
      absent := { s.absent with dramEnd := max s.absent.dramEnd (2 ^ 30) } }
  let s := (s.setCells (leCells base w 16)).modThread k 0 fun t => { t with pc := 0 }
  (s.modCore 0 fun c =>
    { c with
      icache := []
      entries := [(0, Entry.start k [0] (some 0) s.tick)] }).only (.entry 0 0)

/-- Ferry core 0 of stack 0 runs an invocation of a kernel that is the one word. -/
def State.withFerryWord (s : State) (w : Nat) : State :=
  let k : Kernel := ⟨1, 0, [w], [], 0, 512⟩
  let b : Binding := ⟨1, 0, 0, ⟨0, 0, 0, true, 0, 0, .steward, 0⟩, [], false, 0⟩
  let r : FerryRun := ⟨1, 0, [], [], [], [], 0, 0, none, [], []⟩
  (s.modFerry 0 0 fun _ => { FerryCore.reset with
    kernels := [(0, k)]
    bindings := [b]
    run := some r }).only (.ferry 0 0)

/-- Near-bank unit 0 of stack 0 executes a run of one row whose program is the one word. -/
def State.withNbWord (s : State) (w : Nat) : State :=
  let r : NbRun := ⟨⟨0, 0, 0, true, 0, 0, .steward, 0⟩, 0, 0, false, 1, [], [], [], 0, 0, [], none, []⟩
  (s.putUnit 0 ⟨[], some ⟨r, [w], [], 0, 0, 0, none⟩⟩).only (.nb 0 0)

/-- One agent acts, and what waits is looked at again, unless a core has just chosen what issues. DESIGN CHOICE, log 2. -/
def State.actNext (s : State) : Res :=
  match s.acts[Config.choice s.tick % s.acts.length]? with
  | some f => Res.thenDo (f s) fun t => if t.focus = .none then t.unblock else t
  | none => .next s

end Sys2Proof.Machine
end

