-- ==== Sys2Proof/Machine/Control.lean ====
section
/-! DEFINITION. Control instructions (R41, R103 to R107) but for EXIT and HALT. -/

namespace Sys2Proof.Machine

/-- FILLER_WORD (R41): the PC moves on by 4 and nothing else changes, the open chain and the entry's age included. -/
def execFiller (s : State) : Res :=
  match s.grp with
  | none => .next s
  | some g => finish (passInstr s g 4) g

/-- NOP (R41): it issues and has no effect. -/
def execNop (s : State) : Res :=
  match s.grp with
  | none => .next s
  | some g => finish (closeChain (advance s g 8) g) g

/-- A control transfer of one thread to `target` (R24, R104): a target that is not a multiple of 4 raises ALIGN at the
transfer and writes no link. That fault's ADDR is 0. DESIGN CHOICE, log 80. -/
def transfer (g : Grp) (i : Nat) (target : DWord) (link : List (Src × DWord)) (s : State) : Effect :=
  if target.toNat % 4 = 0 then .ok (s.modThread g.block i fun t => { t with pc := target.toNat }, link)
  else .error (.exc (Exc.of .align))

/-- A branch relative to the instruction's own PC. -/
def relTarget (g : Grp) (off : Word) : DWord := BitVec.ofNat 64 g.pc + off.signExtend 64

/-- BRA (R103). -/
def execBra (com : Com) (off : Word) (s : State) : Res :=
  eachThread (.bra com off) (Use.plain com [] []) (fun g i _ s => transfer g i (relTarget g off) [] s) s

/-- JMP (R103). -/
def execJmp (com : Com) (target : DWord) (s : State) : Res :=
  eachThread (.jmp com target) (Use.plain com [] []) (fun g i _ s => transfer g i target [] s) s

/-- BRX (R103). -/
def execBrx (com : Com) (a : Opnd) (s : State) : Res :=
  eachThread (.brx com a) (Use.plain com [(a, false)] [])
    (fun g i l s => transfer g i (relTarget g ((l.getD 0 0).setWidth 32)) [] s) s

/-- The link operand as a destination: an even register, or 0x150, which discards (R103). -/
def linkOp : Opnd → Src
  | .p _ => (refusedOp, true)
  | o => (o, true)

/-- CALL (R103): the link is PC + 12. -/
def execCall (com : Com) (link : Opnd) (off : Word) (s : State) : Res :=
  eachThread (.call com link off) (Use.plain com [] [linkOp link])
    (fun g i _ s => transfer g i (relTarget g off) [(linkOp link, BitVec.ofNat 64 (g.pc + 12))] s) s

/-- CALLR (R103): the link is PC + 8. The target is read before the link is written. -/
def execCallr (com : Com) (link a : Opnd) (s : State) : Res :=
  eachThread (.callr com link a) (Use.plain com [(a, true)] [linkOp link])
    (fun g i l s => transfer g i (l.getD 0 0) [(linkOp link, BitVec.ofNat 64 (g.pc + 8))] s) s

/-- RET (R103). -/
def execRet (com : Com) (a : Opnd) (s : State) : Res :=
  eachThread (.ret com a) (Use.plain com [(a, true)] []) (fun g i l s => transfer g i (l.getD 0 0) [] s) s

/-- The entry gives up its active position (R106, R164). -/
def toPending (s : State) (g : Grp) : State := s.makePending g.core g.e

/-- YIELD (R106): the issuing entry moves to the pending set; an issue with no active thread does nothing. -/
def execYield (com : Com) (s : State) : Res :=
  match s.grp with
  | none => .next s
  | some g =>
    let r := prepare (closeChain s g) g (.yield com) (Use.plain com [] [])
    finish (if r.2.isEmpty then r.1 else toPending r.1 g) g

end Sys2Proof.Machine
end

