-- ==== Sys2Proof/Machine/Integer.lean ====
section
/-! DEFINITION. Integer instructions (R108 to R113). -/

namespace Sys2Proof.Machine

/-- A source as the integer its type reads (R108). -/
def tyInt (ty : Ty) (x : Nat) : Int := intOf (tyBits ty) (tySigned ty) x

/-- An exact result kept modulo 2^n, or clamped under .sat (R108). -/
def wrapOrSat (ty : Ty) (sat : Bool) (v : Int) : Calc :=
  let n := tyBits ty
  let r := intRange n (tySigned ty)
  bits (wrapTo n (if sat then clampInt r.1 r.2 v else v))

/-- ADD (R108). -/
def addVal (ty : Ty) (sat : Bool) (a b : Nat) : Calc := wrapOrSat ty sat (tyInt ty a + tyInt ty b)

/-- SUB (R108). -/
def subVal (ty : Ty) (sat : Bool) (a b : Nat) : Calc := wrapOrSat ty sat (tyInt ty a - tyInt ty b)

/-- MUL: the low bits of the product (R108). -/
def mulVal (ty : Ty) (a b : Nat) : Calc := bits (a * b % 2 ^ tyBits ty)

/-- MULH (R108). -/
def mulhVal (ty : Ty) (a b : Nat) : Calc :=
  bits (wrapTo (tyBits ty) (tyInt ty a * tyInt ty b / ((2 ^ tyBits ty : Nat) : Int)))

/-- DIV (R111). -/
def divVal (ty : Ty) (a b : Nat) : Calc :=
  if b = 0 then bits (2 ^ tyBits ty - 1) else bits (wrapTo (tyBits ty) ((tyInt ty a).tdiv (tyInt ty b)))

/-- REM (R111). -/
def remVal (ty : Ty) (a b : Nat) : Calc :=
  if b = 0 then bits a else bits (wrapTo (tyBits ty) ((tyInt ty a).tmod (tyInt ty b)))

/-- MIN and MAX (R108). -/
def minVal (ty : Ty) (a b : Nat) : Calc := bits (if tyInt ty a ≤ tyInt ty b then a else b)
def maxVal (ty : Ty) (a b : Nat) : Calc := bits (if tyInt ty a ≤ tyInt ty b then b else a)

/-- A shift by `s`, with the results of R110 for a count of the width or more. -/
def shlVal (n a s : Nat) : Nat := if s < n then a * 2 ^ s % 2 ^ n else 0
def shrVal (n a s : Nat) : Nat := if s < n then a / 2 ^ s else 0
def sraVal (n a s : Nat) : Nat :=
  if s < n then wrapTo n (signedOf n a / ((2 ^ s : Nat) : Int)) else if signedOf n a < 0 then 2 ^ n - 1 else 0
def rotVal (n a s : Nat) : Nat := (a * 2 ^ (s % n) + a / 2 ^ (n - s % n)) % 2 ^ n

/-- Number of leading zero bits of an `n`-bit value; of trailing zero bits; of one bits; the bits reversed. -/
def clzVal (n a : Nat) : Nat := if a = 0 then n else n - 1 - Nat.log2 a
def ctzGo (a : Nat) : Nat → Nat → Nat
  | 0, k => k
  | f + 1, k => if a.testBit k then k else ctzGo a f (k + 1)
def ctzVal (n a : Nat) : Nat := ctzGo a n 0
def popc (a : Nat) : Nat → Nat
  | 0 => 0
  | k + 1 => boolNat (a.testBit k) + popc a k
def brevVal (n a : Nat) : Nat → Nat
  | 0 => 0
  | k + 1 => boolNat (a.testBit k) * 2 ^ (n - 1 - k) + brevVal n a k

/-- BFX (R112): `d` is the field descriptor. -/
def bfxVal (ty : Ty) (a d : Nat) : Nat :=
  let pos := d % 256
  let len := d / 256 % 256
  let n := tyBits ty
  if len = 0 then 0
  else
    let v := tyInt ty a / ((2 ^ pos : Nat) : Int)
    wrapTo n (if n ≤ len then v else intOf len (tySigned ty) (wrapTo len v))

/-- BFI (R112). -/
def bfiVal (n a b d : Nat) : Nat :=
  let pos := d % 256
  let len := d / 256 % 256
  let m := (2 ^ len - 1) * 2 ^ pos % 2 ^ n
  a &&& (2 ^ n - 1 - m) ||| (b % 2 ^ len * 2 ^ pos &&& m)

/-- FUNNEL (R108). -/
def funnelVal (left : Bool) (a b c : Nat) : Nat :=
  let x := b * 2 ^ 32 + a
  let k := c % 32
  if left then x * 2 ^ k / 2 ^ 32 % 2 ^ 32 else x / 2 ^ k % 2 ^ 32

/-- The conditions of R113. -/
def condHolds (c : Cond) (a b : Int) : Bool :=
  match c with
  | .eq => decide (a = b)
  | .ne => decide (a ≠ b)
  | .lt => decide (a < b)
  | .le => decide (a ≤ b)
  | .gt => decide (b < a)
  | .ge => decide (b ≤ a)

def execAdd (x : Vec2) : State → Res := vec2 (.add x) x 0 (tyWide x.ty) fun _ a b => addVal x.ty x.variant a b
def execSub (x : Vec2) : State → Res := vec2 (.sub x) x 0 (tyWide x.ty) fun _ a b => subVal x.ty x.variant a b

/-- ADDC and SUBB (R109): the carry predicate is written for every active thread, WBS or not. -/
def carryOp (x : Vec2) (pk : BitVec 3) (first sub : Bool) : VecOp where
  out := x.out
  pipe := 0
  srcs := (x.a, tyWide x.ty) :: srcsB x.b (tyWide x.ty)
  wide := tyWide x.ty
  fn := fun t l =>
    let n := tyBits x.ty
    let a := (tyCut x.ty (l.getD 0 0) : Int)
    let b := (valB x.b x.ty l 1 : Int)
    let cin : Int := if first then 0 else boolNat (t.pred pk.toNat)
    let r := if sub then a - b - cin else a + b + cin
    (BitVec.ofNat 64 (wrapTo n r), .none,
      [(pk.toNat, if sub then decide (r < 0) else decide (((2 ^ n : Nat) : Int) ≤ r))])

def execAddc (x : Vec2) (pk : BitVec 3) (first : Bool) : State → Res :=
  execVec (.addc x pk first) x.com [carryOp x pk first false]
def execSubb (x : Vec2) (pk : BitVec 3) (first : Bool) : State → Res :=
  execVec (.subb x pk first) x.com [carryOp x pk first true]

def execMul (x : Vec2) : State → Res := vec2 (.mul x) x 0 (tyWide x.ty) fun _ a b => mulVal x.ty a b
def execMulh (x : Vec2) : State → Res := vec2 (.mulh x) x 1 (tyWide x.ty) fun _ a b => mulhVal x.ty a b

/-- MAD (R108): IMM32 of F128-C is a fourth addend. -/
def execMad (x : Vec3) : State → Res := vec3 (.mad x) x 0 false fun _ a b c =>
  bits ((a * b + c + (x.imm.getD 0).toNat) % 2 ^ 32)

def execDiv (x : Vec2) : State → Res := vec2 (.div x) x 1 (tyWide x.ty) fun _ a b => divVal x.ty a b
def execRem (x : Vec2) : State → Res := vec2 (.rem x) x 1 (tyWide x.ty) fun _ a b => remVal x.ty a b
def execMin (x : Vec2) : State → Res := vec2 (.min x) x 0 (tyWide x.ty) fun _ a b => minVal x.ty a b
def execMax (x : Vec2) : State → Res := vec2 (.max x) x 0 (tyWide x.ty) fun _ a b => maxVal x.ty a b
def execAbs (x : Vec1) : State → Res := vec1 (.abs x) x 0 (tyWide x.ty) fun _ a =>
  wrapOrSat x.ty x.variant |tyInt x.ty a|
def execNeg (x : Vec1) : State → Res := vec1 (.neg x) x 0 (tyWide x.ty) fun _ a =>
  wrapOrSat x.ty x.variant (-(tyInt x.ty a))
def execAnd (x : Vec2) : State → Res := vec2 (.and x) x 0 (tyWide x.ty) fun _ a b => bits (a &&& b)
def execOr (x : Vec2) : State → Res := vec2 (.or x) x 0 (tyWide x.ty) fun _ a b => bits (a ||| b)
def execXor (x : Vec2) : State → Res := vec2 (.xor x) x 0 (tyWide x.ty) fun _ a b => bits (a ^^^ b)
def execNot (x : Vec1) : State → Res := vec1 (.not x) x 0 (tyWide x.ty) fun _ a => bits (2 ^ tyBits x.ty - 1 - a)
def execAndn (x : Vec2) : State → Res := vec2 (.andn x) x 0 (tyWide x.ty) fun _ a b =>
  bits (a &&& (2 ^ tyBits x.ty - 1 - b))

/-- A shift with its count from operand B, read as 32 bits, or from SIMM (R110). -/
def shiftOp (instr : Instr) (x : Vec1) (c : ShiftCount) (f : Nat → Nat → Nat → Nat) : State → Res :=
  match c with
  | .simm k => vec1 instr x 0 (tyWide x.ty) fun _ a => bits (f (tyBits x.ty) a k.toNat)
  | .op o => vec2w instr ⟨x.com, x.out, x.ty, x.variant, x.a, .op o⟩ 0 (tyWide x.ty) fun _ a b =>
      bits (f (tyBits x.ty) a b)

def execShl (x : Vec1) (cnt : ShiftCount) : State → Res := shiftOp (.shl x cnt) x cnt shlVal
def execShr (x : Vec1) (cnt : ShiftCount) : State → Res := shiftOp (.shr x cnt) x cnt shrVal
def execSra (x : Vec1) (cnt : ShiftCount) : State → Res := shiftOp (.sra x cnt) x cnt sraVal
def execRot (x : Vec1) (cnt : ShiftCount) : State → Res := shiftOp (.rot x cnt) x cnt rotVal
def execFunnel (x : Vec3) : State → Res := vec3 (.funnel x) x 1 false fun _ a b c => bits (funnelVal x.variant a b c)
def execClz (x : Vec1) : State → Res := vec1 (.clz x) x 1 false fun _ a => bits (clzVal (tyBits x.ty) a)
def execCtz (x : Vec1) : State → Res := vec1 (.ctz x) x 1 false fun _ a => bits (ctzVal (tyBits x.ty) a)
def execPopc (x : Vec1) : State → Res := vec1 (.popc x) x 1 false fun _ a => bits (popc a (tyBits x.ty))
def execBrev (x : Vec1) : State → Res := vec1 (.brev x) x 1 (tyWide x.ty) fun _ a =>
  bits (brevVal (tyBits x.ty) a (tyBits x.ty))
def execBfx (x : Vec2) : State → Res := vec2w (.bfx x) x 0 (tyWide x.ty) fun _ a d => bits (bfxVal x.ty a d)
def execBfi (x : Vec3) : State → Res := vec3 (.bfi x) x 0 false fun _ a b d => bits (bfiVal (tyBits x.ty) a b d)
def execSel (x : Vec3) : State → Res := vec3 (.sel x) x 0 false fun _ a b c => bits (if c = 0 then b else a)

/-- CMP (R113): the truth value is 32 bits for every type. -/
def execCmp (x : Vec2) (c : Cond) : State → Res := vec2 (.cmp x c) x 0 false fun _ a b =>
  bits (boolNat (condHolds c (tyInt x.ty a) (tyInt x.ty b)))

end Sys2Proof.Machine
end

