-- ==== Sys2Proof/Machine/Float.lean ====
section
/-! DEFINITION. Floating-point, conversion, packing and distance instructions, and the pair format (R49 to R51, R74,
R123 to R133, R199 to R201). -/

namespace Sys2Proof.Machine

/-- The format of a floating-point type. -/
def tyFmt (ty : Ty) : Fmt := (fmtTy ty).getD .f32

def execFadd (x : Vec2) (rnd : Rnd) : State → Res := vec2 (.fadd x rnd) x 0 (tyWide x.ty) fun t a b =>
  fAdd (tyFmt x.ty) (t.mode rnd) false a b
def execFsub (x : Vec2) (rnd : Rnd) : State → Res := vec2 (.fsub x rnd) x 0 (tyWide x.ty) fun t a b =>
  fAdd (tyFmt x.ty) (t.mode rnd) true a b
def execFmul (x : Vec2) (rnd : Rnd) : State → Res := vec2 (.fmul x rnd) x 0 (tyWide x.ty) fun t a b =>
  fMul (tyFmt x.ty) (t.mode rnd) a b

/-- FFMA (R124): in F128-C, IMM32 supplies b and OPB is not read. -/
def execFfma (x : Vec3) (rnd : Rnd) : State → Res :=
  match x.imm with
  | none => vec3 (.ffma x rnd) x 0 (tyWide x.ty) fun t a b c =>
      fFma (tyFmt x.ty) (t.mode rnd) x.variant a b (c % 2 ^ tyBits x.ty)
  | some w =>
    vec2 (.ffma x rnd) ⟨x.com, x.out, x.ty, x.variant, x.a, .op x.c⟩ 0 (tyWide x.ty) fun t a c =>
      fFma (tyFmt x.ty) (t.mode rnd) x.variant a (immVal x.ty w) c

def execFmin (x : Vec2) : State → Res := vec2 (.fmin x) x 0 (tyWide x.ty) fun _ a b =>
  fMinMax (tyFmt x.ty) false x.variant a b
def execFmax (x : Vec2) : State → Res := vec2 (.fmax x) x 0 (tyWide x.ty) fun _ a b =>
  fMinMax (tyFmt x.ty) true x.variant a b
def execFcmp (x : Vec2) (c : FCond) : State → Res := vec2 (.fcmp x c) x 0 false fun _ a b =>
  truth (fCmp (tyFmt x.ty) c a b)

/-- Element `k` of `w` bits of a word (R8). -/
def elemOf (w a k : Nat) : Nat := a / 2 ^ (w * k) % 2 ^ w

/-- A narrow operand's element is named by SIMM; the whole register is read for it (R127). -/
def execFclass (x : Vec1) (r : Reading) (elem : BitVec 6) : State → Res :=
  execVec (.fclass x r elem) x.com [VecOp.simple x.out 0 [(x.a, tyWide x.ty)] false fun _ l =>
    toResult (bits (fClass (tyFmt x.ty) r (elemOf (tyBits x.ty) (l.getD 0 0).toNat elem.toNat)))]

/-- FSCALE (R128). -/
def execFscale (x : Vec2) (rnd : Rnd) : State → Res := vec2w (.fscale x rnd) x 1 (tyWide x.ty) fun t a k =>
  fScale (tyFmt x.ty) (t.mode rnd) a (signedOf 32 k)

def execFrnd (x : Vec1) (rnd : Rnd) : State → Res := vec1 (.frnd x rnd) x 0 (tyWide x.ty) fun t a =>
  fRnd (tyFmt x.ty) (t.mode rnd) x.variant a

/-- An integer result of a type, extended into 32 bits by its signedness where it is narrower (R100). -/
def extendInt (n : Nat) (signed : Bool) (v : Nat) : Nat :=
  if n < 32 ∧ signed then wrapTo 32 (signedOf n v) else v

/-- The value CVT writes (R130). -/
def cvtVal (dst src : Ty) (sat : Bool) (mode : Rnd) (r : Reading) (a rb : Nat) : Calc :=
  match fmtTy src, fmtTy dst, intTy src, intTy dst with
  | some f, some g, _, _ => roundTo g r sat mode rb (FVal.ofBits f r a)
  | some f, none, _, some (n, sg) =>
    let v := floatToInt n sg mode rb (FVal.ofBits f r a)
    (extendInt n sg v.1, v.2)
  | none, some g, some (n, sg), _ => roundTo g r sat mode rb (FVal.ofInt (intOf n sg a))
  | none, none, some (sn, ss), some (n, sg) =>
    let v := intToInt sn ss n sg sat a
    (extendInt n sg v.1, v.2)
  | _, _, _, _ => bits 0

/-- CVT (R130): operand B is read under .sr alone. -/
def execCvt (x : Vec2) (src : Ty) (rnd : Rnd) (r : Reading) : State → Res :=
  let bs : List Src := if rnd = .sr then srcsB x.b false else []
  execVec (.cvt x src rnd r) x.com [VecOp.simple x.out 0 ((x.a, tyWide src) :: bs) (tyWide x.ty) fun t l =>
    toResult (cvtVal x.ty src x.variant (t.mode rnd) r (tyCut src (l.getD 0 0)) (l.getD 1 0).toNat)]

/-- A trit from a signed byte: a value beyond ±1 is taken as its sign and sets SAT (R131). -/
def tritIn (b : Nat) : Int × Bool :=
  let v := signedOf 8 b
  (clampInt (-1) 1 v, decide (v < -1) || decide (1 < v))

/-- The packed byte of five trits (R82). -/
def tritCode (l : List Int) : Nat := (l.zipIdx.map fun x => tritDigit x.1 * 3 ^ x.2).sum

/-- PACK (R131). -/
def packVal (ty : Ty) (sat : Bool) (mode : Rnd) (r : Reading) (a b c : Nat) : Calc :=
  match ty with
  | .t3 =>
    let ts := [0, 1, 2, 3].map (fun k => tritIn (elemOf 8 a k)) ++ [tritIn (b % 256)]
    ((c * 256 + tritCode (ts.map (·.1))) % 2 ^ 32, if ts.any (·.2) then .saturated else .none)
  | _ =>
    let w := tyBits ty
    let x := roundTo (tyFmt ty) r sat mode 0 (FVal.ofBits .f32 .ieee a)
    let y := roundTo (tyFmt ty) r sat mode 0 (FVal.ofBits .f32 .ieee b)
    ((c * 2 ^ (2 * w) + y.1 * 2 ^ w + x.1) % 2 ^ 32, x.2.or y.2)

def execPack (x : Vec3) (rnd : Rnd) (r : Reading) : State → Res :=
  execVec (.pack x rnd r) x.com [VecOp.simple x.out 0 [(x.a, false), (x.b, false), (x.c, false)] false fun t l =>
    toResult (packVal x.ty x.variant (t.mode rnd) r (l.getD 0 0).toNat (l.getD 1 0).toNat (l.getD 2 0).toNat)]

/-- UNPACK (R132): a trit byte above 242 is invalid (R83). -/
def unpackVal (ty : Ty) (r : Reading) (a k : Nat) : Calc :=
  match ty with
  | .t3 =>
    let byte := elemOf 8 a (k / 5)
    (wrapTo 32 (tritOf byte (k % 5)), Flags.nvIf (decide (243 ≤ byte)))
  | _ => roundTo .f32 .ieee false .rn 0 (FVal.ofBits (tyFmt ty) r (elemOf (tyBits ty) a k))

def execUnpack (x : Vec1) (r : Reading) (elem : BitVec 6) : State → Res :=
  execVec (.unpack x r elem) x.com [VecOp.simple x.out 0 [(x.a, false)] false fun _ l =>
    toResult (unpackVal x.ty r (l.getD 0 0).toNat elem.toNat)]

/-- BSCALE (R133). -/
def bscaleVal (f : Fmt) (r : Reading) (a b c : Nat) : Calc :=
  let pack (code : Nat) (fl : Flags) : Calc := ((c * 256 + code) % 2 ^ 32, fl)
  match FVal.ofBits .f32 .ieee a with
  | .nan _ q _ => pack 0xFF (Flags.nvIf (!q))
  | .inf _ => pack 0xFF .none
  | .zero _ => pack 0 .none
  | .fin _ m e =>
    let t := ((Nat.log2 m : Int) + e) - bscaleEmax f r + 127 + signedOf 32 b
    pack (clampInt 0 254 t).toNat (if t < 0 ∨ 254 < t then .saturated else .none)

def execBscale (x : Vec3) (r : Reading) : State → Res :=
  execVec (.bscale x r) x.com [VecOp.simple x.out 0 [(x.a, false), (x.b, false), (x.c, false)] false fun _ l =>
    toResult (bscaleVal (tyFmt x.ty) r (l.getD 0 0).toNat (l.getD 1 0).toNat (l.getD 2 0).toNat)]

/-- DDOT (R199). -/
def ddotVal (x8 aUns bUns sat : Bool) (a b c : Nat) : Nat :=
  let n := if x8 then 8 else 4
  let w := if x8 then 4 else 8
  let s := ((List.range n).map fun k =>
    intOf w (!aUns) (elemOf w a k) * intOf w (!bUns) (elemOf w b k)).sum
  let t := signedOf 32 c + s
  wrapTo 32 (if sat then clampInt (-(2 ^ 31)) (2 ^ 31 - 1) t else t)

def execDdot (com : Com) (out : Out) (x8 aUns bUns sat : Bool) (a b c : Opnd) : State → Res :=
  execVec (.ddot com out x8 aUns bUns sat a b c) com
    [VecOp.simple out 1 [(a, false), (b, false), (c, false)] false fun _ l =>
      toResult (bits (ddotVal x8 aUns bUns sat (l.getD 0 0).toNat (l.getD 1 0).toNat (l.getD 2 0).toNat))]

/-- DHAM (R200). -/
def execDham (x : Vec2) : State → Res := vec2 (.dham x) x 1 false fun _ a b => bits (popc (a ^^^ b) (tyBits x.ty))

/-- The exact sum of squared differences of DL2, from its elements; none where a NaN results, some none for +∞. -/
def dl2Sum (l : List (FVal × FVal)) : Option (Int × Int) :=
  l.foldl (fun acc x =>
    match acc, exactAdd .rn x.1 x.2.negate with
    | some (m, e), some (.fin _ k q) => some (addDyadic m e ((k : Int) * k) (2 * q))
    | some r, some (.zero _) => some r
    | _, _ => none) (some (0, 0))

/-- DL2 (R201). -/
def dl2Val (mode : Rnd) (r : Reading) (a b c : Nat) : Calc :=
  let el := (List.range 4).map fun k => (FVal.ofBits .e4m3 r (elemOf 8 a k), FVal.ofBits .e4m3 r (elemOf 8 b k))
  let z := FVal.ofBits .f32 .ieee c
  let sameInf (x : FVal × FVal) : Bool :=
    match x with
    | (.inf n, .inf k) => n == k
    | _ => false
  match nanOf .f32 [z] with
  | some v => v
  | none =>
    if el.any fun x => x.1.isNan || x.2.isNan then
      (Fmt.f32.canonNan, Flags.nvIf (el.any fun x => x.1.isSnan || x.2.isSnan))
    else if el.any sameInf then (Fmt.f32.canonNan, .invalid)
    else
      let s : FVal :=
        match dl2Sum el with
        | none => .inf false
        | some (m, e) => if m = 0 then .zero false else .fin false m.toNat e
      match exactAdd mode z s with
      | none => (Fmt.f32.canonNan, .invalid)
      | some v => roundWide .f32 mode v

def execDl2 (com : Com) (out : Out) (rnd : Rnd) (r : Reading) (a b c : Opnd) : State → Res :=
  execVec (.dl2 com out rnd r a b c) com
    [VecOp.simple out 1 [(a, false), (b, false), (c, false)] false fun t l =>
      toResult (dl2Val (t.mode rnd) r (l.getD 0 0).toNat (l.getD 1 0).toNat (l.getD 2 0).toNat)]

/-- The value of a pair operation, that of its unpaired counterpart (R51, R74). -/
def pairVal (op : PairOp) (mode : Rnd) (a b c : Nat) : Calc :=
  match op with
  | .fadd => fAdd .f32 mode false a b
  | .fsub => fAdd .f32 mode true a b
  | .fmul => fMul .f32 mode a b
  | .ffma => fFma .f32 mode false a b c
  | .fmin => fMinMax .f32 false false a b
  | .fmax => fMinMax .f32 true false a b
  | .iadd => addVal .i32 false a b
  | .isub => subVal .i32 false a b
  | .imul => mulVal .i32 a b
  | .imad => bits ((a * b + c) % 2 ^ 32)
  | .imin => minVal .i32 a b
  | .imax => maxVal .i32 a b
  | .nmin => minVal .n32 a b
  | .nmax => maxVal .n32 a b
  | .and => bits (a &&& b)
  | .or => bits (a ||| b)
  | .xor => bits (a ^^^ b)
  | .andn => bits (a &&& (2 ^ 32 - 1 - b))
  | .shl => bits (shlVal 32 a b)
  | .shr => bits (shrVal 32 a b)
  | .sra => bits (sraVal 32 a b)
  | .mov => bits a
  | .cvtBf16 => cvtVal .bf16 .f32 false mode .finiteOnly a 0
  | .cvtF32 => cvtVal .f32 .bf16 false mode .finiteOnly (a % 2 ^ 16) 0
  | .ddot => bits (ddotVal false false false false a b c)
  | .dham => bits (popc (a ^^^ b) 32)

/-- The sources of a half: the third is its destination, or its own latch under WBS (R49). -/
def PairHalf.useSrcs (h : PairHalf) : List Src :=
  let third : List Src := [(if h.out.wbs then Opnd.latch h.out.lt else h.out.dst, false)]
  if h.op.sources = 1 then [(h.a, false)]
  else if h.op.sources = 2 then [(h.a, false), (h.b, false)]
  else [(h.a, false), (h.b, false)] ++ third

/-- One half as a vector operation of its pipe. -/
def pairOp (h : PairHalf) (pipe : Nat) : VecOp :=
  VecOp.simple h.out pipe (PairHalf.useSrcs h) false fun t l =>
    toResult (pairVal h.op (t.mode h.rnd) (l.getD 0 0).toNat (l.getD 1 0).toNat (l.getD 2 0).toNat)

/-- PAIR_P96 (R51): both halves read, then both write. -/
def execPairP96 (com : Com) (ha hb : PairHalf) : State → Res :=
  execVec (.pairP96 com ha hb) com [pairOp ha 0, pairOp hb 1]

end Sys2Proof.Machine
end

