-- ==== Sys2Proof/Machine/Dispatch.lean ====
section
/-! DEFINITION. The dispatch of an instruction or event to its meaning, one arm for each constructor. -/

namespace Sys2Proof.Machine

/-- What an instruction or event does. -/
def exec (i : Instr) (s : State) : Host.Outcome State Fault Refusal :=
  match i with
  | .coreReleaseFromReset core => Sys2Proof.Machine.execCoreReleaseFromReset core s
  | .nop => Sys2Proof.Machine.execNop s
  | .filler => Sys2Proof.Machine.execFiller s
  | .bra com off => Sys2Proof.Machine.execBra com off s
  | .jmp com target => Sys2Proof.Machine.execJmp com target s
  | .brx com a => Sys2Proof.Machine.execBrx com a s
  | .call com link off => Sys2Proof.Machine.execCall com link off s
  | .callr com link a => Sys2Proof.Machine.execCallr com link a s
  | .ret com a => Sys2Proof.Machine.execRet com a s
  | .exit com => Sys2Proof.Machine.execExit com s
  | .yield com => Sys2Proof.Machine.execYield com s
  | .halt com => Sys2Proof.Machine.execHalt com s
  | .add x => Sys2Proof.Machine.execAdd x s
  | .sub x => Sys2Proof.Machine.execSub x s
  | .addc x pk first => Sys2Proof.Machine.execAddc x pk first s
  | .subb x pk first => Sys2Proof.Machine.execSubb x pk first s
  | .mul x => Sys2Proof.Machine.execMul x s
  | .mulh x => Sys2Proof.Machine.execMulh x s
  | .mad x => Sys2Proof.Machine.execMad x s
  | .div x => Sys2Proof.Machine.execDiv x s
  | .rem x => Sys2Proof.Machine.execRem x s
  | .min x => Sys2Proof.Machine.execMin x s
  | .max x => Sys2Proof.Machine.execMax x s
  | .abs x => Sys2Proof.Machine.execAbs x s
  | .neg x => Sys2Proof.Machine.execNeg x s
  | .and x => Sys2Proof.Machine.execAnd x s
  | .or x => Sys2Proof.Machine.execOr x s
  | .xor x => Sys2Proof.Machine.execXor x s
  | .not x => Sys2Proof.Machine.execNot x s
  | .andn x => Sys2Proof.Machine.execAndn x s
  | .shl x cnt => Sys2Proof.Machine.execShl x cnt s
  | .shr x cnt => Sys2Proof.Machine.execShr x cnt s
  | .sra x cnt => Sys2Proof.Machine.execSra x cnt s
  | .rot x cnt => Sys2Proof.Machine.execRot x cnt s
  | .funnel x => Sys2Proof.Machine.execFunnel x s
  | .clz x => Sys2Proof.Machine.execClz x s
  | .ctz x => Sys2Proof.Machine.execCtz x s
  | .popc x => Sys2Proof.Machine.execPopc x s
  | .brev x => Sys2Proof.Machine.execBrev x s
  | .bfx x => Sys2Proof.Machine.execBfx x s
  | .bfi x => Sys2Proof.Machine.execBfi x s
  | .sel x => Sys2Proof.Machine.execSel x s
  | .cmp x c => Sys2Proof.Machine.execCmp x c s
  | .lea com out m => Sys2Proof.Machine.execLea com out m s
  | .leah com out m => Sys2Proof.Machine.execLeah com out m s
  | .swin com out cluster a => Sys2Proof.Machine.execSwin com out cluster a s
  | .plut com out table a b c => Sys2Proof.Machine.execPlut com out table a b c s
  | .pmovGet com out => Sys2Proof.Machine.execPmovGet com out s
  | .pmovSet com lt a => Sys2Proof.Machine.execPmovSet com lt a s
  | .mov x => Sys2Proof.Machine.execMov x s
  | .movi com out ty imm wide => Sys2Proof.Machine.execMovi com out ty imm wide s
  | .movsReadWp com ch dst => Sys2Proof.Machine.execMovsReadWp com ch dst s
  | .movsReadTc com t dst => Sys2Proof.Machine.execMovsReadTc com t dst s
  | .movsWriteTc com t a => Sys2Proof.Machine.execMovsWriteTc com t a s
  | .bsel x => Sys2Proof.Machine.execBsel x s
  | .csrr com reg dst => Sys2Proof.Machine.execCsrr com reg dst s
  | .csrw com reg a => Sys2Proof.Machine.execCsrw com reg a s
  | .csrwSet com reg a => Sys2Proof.Machine.execCsrwSet com reg a s
  | .csrwClr com reg a => Sys2Proof.Machine.execCsrwClr com reg a s
  | .fadd x rnd => Sys2Proof.Machine.execFadd x rnd s
  | .fsub x rnd => Sys2Proof.Machine.execFsub x rnd s
  | .fmul x rnd => Sys2Proof.Machine.execFmul x rnd s
  | .ffma x rnd => Sys2Proof.Machine.execFfma x rnd s
  | .fmin x => Sys2Proof.Machine.execFmin x s
  | .fmax x => Sys2Proof.Machine.execFmax x s
  | .fcmp x c => Sys2Proof.Machine.execFcmp x c s
  | .fclass x r elem => Sys2Proof.Machine.execFclass x r elem s
  | .fscale x rnd => Sys2Proof.Machine.execFscale x rnd s
  | .frnd x rnd => Sys2Proof.Machine.execFrnd x rnd s
  | .cvt x src rnd r => Sys2Proof.Machine.execCvt x src rnd r s
  | .pack x rnd r => Sys2Proof.Machine.execPack x rnd r s
  | .unpack x r elem => Sys2Proof.Machine.execUnpack x r elem s
  | .bscale x r => Sys2Proof.Machine.execBscale x r s
  | .pairP96 com ha hb => Sys2Proof.Machine.execPairP96 com ha hb s
  | .tblLoad com wide slot dst m => Sys2Proof.Machine.execTblLoad com wide slot dst m s
  | .tblLoadComplete core tag => Sys2Proof.Machine.execTblLoadComplete core tag s
  | .tblCommit com slot dst => Sys2Proof.Machine.execTblCommit com slot dst s
  | .tblEval com ty rnd slot dst a => Sys2Proof.Machine.execTblEval com ty rnd slot dst a s
  | .tblQuery com ver slot dst => Sys2Proof.Machine.execTblQuery com ver slot dst s
  | .tblDrop com sh slot => Sys2Proof.Machine.execTblDrop com sh slot s
  | .entryFill core => Sys2Proof.Machine.execEntryFill core s
  | .issueSelect core => Sys2Proof.Machine.execIssueSelect core s
  | .entryPromote core => Sys2Proof.Machine.execEntryPromote core s
  | .entryEvict core entry => Sys2Proof.Machine.execEntryEvict core entry s
  | .shfl com mode k wide dst a mask => Sys2Proof.Machine.execShfl com mode k wide dst a mask s
  | .vote com form dst a mask => Sys2Proof.Machine.execVote com form dst a mask s
  | .matchKey com wide dst a mask => Sys2Proof.Machine.execMatchKey com wide dst a mask s
  | .sred com op dst a mask => Sys2Proof.Machine.execSred com op dst a mask s
  | .sscan com op excl dst a mask => Sys2Proof.Machine.execSscan com op excl dst a mask s
  | .ssync com mask => Sys2Proof.Machine.execSsync com mask s
  | .ddot com out x8 aUns bUns sat a b c => Sys2Proof.Machine.execDdot com out x8 aUns bUns sat a b c s
  | .dham x => Sys2Proof.Machine.execDham x s
  | .dl2 com out rnd r a b c => Sys2Proof.Machine.execDl2 com out rnd r a b c s
  | .selInit com key max c dst a => Sys2Proof.Machine.execSelInit com key max c dst a s
  | .selPush com c a b => Sys2Proof.Machine.execSelPush com c a b s
  | .selDrain com form c dst a => Sys2Proof.Machine.execSelDrain com form c dst a s
  | .tcfg com td src => Sys2Proof.Machine.execTcfg com td src s
  | .tzero com all td dst => Sys2Proof.Machine.execTzero com all td dst s
  | .tld com td dst rec coord => Sys2Proof.Machine.execTld com td dst rec coord s
  | .tst com td rnd sat dst rec coord => Sys2Proof.Machine.execTst com td rnd sat dst rec coord s
  | .mma com td ta tb c acc sigma k dst => Sys2Proof.Machine.execMma com td ta tb c acc sigma k dst s
  | .mmat com td ta tb c k dst => Sys2Proof.Machine.execMmat com td ta tb c k dst s
  | .mmap com td ta dst row => Sys2Proof.Machine.execMmap com td ta dst row s
  | .trow com form td data off imm => Sys2Proof.Machine.execTrow com form td data off imm s
  | .tchk com clr dst => Sys2Proof.Machine.execTchk com clr dst s
  | .matrixOpComplete core outcome => Sys2Proof.Machine.execMatrixOpComplete core outcome s
  | .ld com ty quad ord dst m => Sys2Proof.Machine.execLd com ty quad ord dst m s
  | .st com ty quad ord src m => Sys2Proof.Machine.execSt com ty quad ord src m s
  | .ldg com ty cnt ord dst m => Sys2Proof.Machine.execLdg com ty cnt ord dst m s
  | .sct com ty cnt ord src m => Sys2Proof.Machine.execSct com ty cnt ord src m s
  | .atom com op ty ord dst c m => Sys2Proof.Machine.execAtom com op ty ord dst c m s
  | .red com op ty ord src m => Sys2Proof.Machine.execRed com op ty ord src m s
  | .amaxsw com ord dst m => Sys2Proof.Machine.execAmaxsw com ord dst m s
  | .pendingCheck core entry => Sys2Proof.Machine.execPendingCheck core entry s
  | .fence com k sc => Sys2Proof.Machine.execFence com k sc s
  | .cctlIi com m => Sys2Proof.Machine.execCctlIi com m s
  | .cctlEv com m => Sys2Proof.Machine.execCctlEv com m s
  | .pref com t m => Sys2Proof.Machine.execPref com t m s
  | .stashMap com off cnt m => Sys2Proof.Machine.execStashMap com off cnt m s
  | .stashMapUn com off cnt => Sys2Proof.Machine.execStashMapUn com off cnt s
  | .stashSync com inv => Sys2Proof.Machine.execStashSync com inv s
  | .stashFill core tag line store => Sys2Proof.Machine.execStashFill core tag line store s
  | .racew com w off len m => Sys2Proof.Machine.execRacew com w off len m s
  | .copy com dsp ssp rel ch bidx bytes dst a b => Sys2Proof.Machine.execCopy com dsp ssp rel ch bidx bytes dst a b s
  | .copyt com st clus rel ch bidx imm dst a b => Sys2Proof.Machine.execCopyt com st clus rel ch bidx imm dst a b s
  | .copyg com dsp ssp rel ch bidx rowb nrow dst a b => Sys2Proof.Machine.execCopyg com dsp ssp rel ch bidx rowb nrow dst a b s
  | .copyWriteGroup core tag ch => Sys2Proof.Machine.execCopyWriteGroup core tag ch s
  | .engineOpComplete core tag tl => Sys2Proof.Machine.execEngineOpComplete core tag tl s
  | .engineOpPark core tag tl => Sys2Proof.Machine.execEngineOpPark core tag tl s
  | .engineOpCancel core tag tl => Sys2Proof.Machine.execEngineOpCancel core tag tl s
  | .regionEntryRun core tag => Sys2Proof.Machine.execRegionEntryRun core tag s
  | .stage com a imm => Sys2Proof.Machine.execStage com a imm s
  | .barInit com leaf root src m => Sys2Proof.Machine.execBarInit com leaf root src m s
  | .barArrive com u dst m => Sys2Proof.Machine.execBarArrive com u dst m s
  | .barExpect com arr dst cnt m => Sys2Proof.Machine.execBarExpect com arr dst cnt m s
  | .barWait com src m => Sys2Proof.Machine.execBarWait com src m s
  | .barTest com dst m => Sys2Proof.Machine.execBarTest com dst m s
  | .tlwait com tl a imm => Sys2Proof.Machine.execTlwait com tl a imm s
  | .tlread com form tl dst => Sys2Proof.Machine.execTlread com form tl dst s
  | .tlsig com inc tl a imm => Sys2Proof.Machine.execTlsig com inc tl a imm s
  | .waitm com mask => Sys2Proof.Machine.execWaitm com mask s
  | .launch com dst a b => Sys2Proof.Machine.execLaunch com dst a b s
  | .graphRun com dst a b => Sys2Proof.Machine.execGraphRun com dst a b s
  | .graphPatch com a b c => Sys2Proof.Machine.execGraphPatch com a b c s
  | .graphReplayRelease part idx => Sys2Proof.Machine.execGraphReplayRelease part idx s
  | .graphReplayComplete part idx => Sys2Proof.Machine.execGraphReplayComplete part idx s
  | .dependenceRead part launch => Sys2Proof.Machine.execDependenceRead part launch s
  | .blockAdmit part launch place => Sys2Proof.Machine.execBlockAdmit part launch place s
  | .gridComplete part grid => Sys2Proof.Machine.execGridComplete part grid s
  | .collStart com dst a => Sys2Proof.Machine.execCollStart com dst a s
  | .nbLoad com all dst a b c => Sys2Proof.Machine.execNbLoad com all dst a b c s
  | .nbRun com dst a b c => Sys2Proof.Machine.execNbRun com dst a b c s
  | .ferryLoad com dst a b c => Sys2Proof.Machine.execFerryLoad com dst a b c s
  | .ferryBind com dst a b c => Sys2Proof.Machine.execFerryBind com dst a b c s
  | .ferryUnbind com dst a b => Sys2Proof.Machine.execFerryUnbind com dst a b s
  | .ferryUnbindKern com dst a b => Sys2Proof.Machine.execFerryUnbindKern com dst a b s
  | .trap com code dst a => Sys2Proof.Machine.execTrap com code dst a s
  | .tretRep com dst a b => Sys2Proof.Machine.execTretRep com dst a b s
  | .tretSkip com dst a b => Sys2Proof.Machine.execTretSkip com dst a b s
  | .tretKill com dst a b => Sys2Proof.Machine.execTretKill com dst a b s
  | .tretCan com dst a b => Sys2Proof.Machine.execTretCan com dst a b s
  | .tretKillb com dst a b => Sys2Proof.Machine.execTretKillb com dst a b s
  | .tretPre com dst a b => Sys2Proof.Machine.execTretPre com dst a b s
  | .moor com dst => Sys2Proof.Machine.execMoor com dst s
  | .tlbiVa com a b => Sys2Proof.Machine.execTlbiVa com a b s
  | .tlbiAll com => Sys2Proof.Machine.execTlbiAll com s
  | .harvest com dst a => Sys2Proof.Machine.execHarvest com dst a s
  | .scrub com rel dst a b => Sys2Proof.Machine.execScrub com rel dst a b s
  | .evpost com fd code dst a => Sys2Proof.Machine.execEvpost com fd code dst a s
  | .recordWrite part ring => Sys2Proof.Machine.execRecordWrite part ring s
  | .ringConsPoll part ring => Sys2Proof.Machine.execRingConsPoll part ring s
  | .preemptRequest part tag => Sys2Proof.Machine.execPreemptRequest part tag s
  | .blockQuiesceSave part tag => Sys2Proof.Machine.execBlockQuiesceSave part tag s
  | .blockRestore part tag place => Sys2Proof.Machine.execBlockRestore part tag place s
  | .rungDevice => Sys2Proof.Machine.execRungDevice s
  | .clf stack p => Sys2Proof.Machine.execClf stack p s
  | .ferryInvoke stack ferry => Sys2Proof.Machine.execFerryInvoke stack ferry s
  | .vadd d a b m sat rnd ty => Sys2Proof.Machine.execVadd d a b m sat rnd ty s
  | .vsub d a b m sat rnd ty => Sys2Proof.Machine.execVsub d a b m sat rnd ty s
  | .vmul d a b m rnd ty => Sys2Proof.Machine.execVmul d a b m rnd ty s
  | .vfma d a b m rnd ty => Sys2Proof.Machine.execVfma d a b m rnd ty s
  | .vmin d a b m ty => Sys2Proof.Machine.execVmin d a b m ty s
  | .vmax d a b m ty => Sys2Proof.Machine.execVmax d a b m ty s
  | .vand d a b m => Sys2Proof.Machine.execVand d a b m s
  | .vor d a b m => Sys2Proof.Machine.execVor d a b m s
  | .vxor d a b m => Sys2Proof.Machine.execVxor d a b m s
  | .vshl d a b m half => Sys2Proof.Machine.execVshl d a b m half s
  | .vshr d a b m arith half => Sys2Proof.Machine.execVshr d a b m arith half s
  | .vsel d a b m sel => Sys2Proof.Machine.execVsel d a b m sel s
  | .vcmp fm a b m c flt => Sys2Proof.Machine.execVcmp fm a b m c flt s
  | .vcvt d a b m form => Sys2Proof.Machine.execVcvt d a b m form s
  | .vbcast d a m => Sys2Proof.Machine.execVbcast d a m s
  | .vred d a m op flt => Sys2Proof.Machine.execVred d a m op flt s
  | .feval d a m table bf16 => Sys2Proof.Machine.execFeval d a m table bf16 s
  | .sadd d a b => Sys2Proof.Machine.execSadd d a b s
  | .ssub d a b => Sys2Proof.Machine.execSsub d a b s
  | .sand d a b => Sys2Proof.Machine.execSand d a b s
  | .sor d a b => Sys2Proof.Machine.execSor d a b s
  | .sshl d a b => Sys2Proof.Machine.execSshl d a b s
  | .sshr d a b => Sys2Proof.Machine.execSshr d a b s
  | .smovi d high imm => Sys2Proof.Machine.execSmovi d high imm s
  | .br c a b disp => Sys2Proof.Machine.execBr c a b disp s
  | .brm c fm disp => Sys2Proof.Machine.execBrm c fm disp s
  | .rep countM1 x len => Sys2Proof.Machine.execRep countM1 x len s
  | .ftrap a code => Sys2Proof.Machine.execFtrap a code s
  | .fwd => Sys2Proof.Machine.execFwd s
  | .drop => Sys2Proof.Machine.execDrop s
  | .emit => Sys2Proof.Machine.execEmit s
  | .pset a fld => Sys2Proof.Machine.execPset a fld s
  | .pld d a v off => Sys2Proof.Machine.execPld d a v off s
  | .pst d a v off => Sys2Proof.Machine.execPst d a v off s
  | .sld d a v off => Sys2Proof.Machine.execSld d a v off s
  | .sst d a v off => Sys2Proof.Machine.execSst d a v off s
  | .nbRunStart unit => Sys2Proof.Machine.execNbRunStart unit s
  | .nbRowStep unit waiting => Sys2Proof.Machine.execNbRowStep unit waiting s
  | .nbResume unit => Sys2Proof.Machine.execNbResume unit s
  | .nbForcedStep unit => Sys2Proof.Machine.execNbForcedStep unit s
  | .nbImageLoadComplete part stack slot => Sys2Proof.Machine.execNbImageLoadComplete part stack slot s
  | .nbnop c => Sys2Proof.Machine.execNbnop c s
  | .nbld d a2 c => Sys2Proof.Machine.execNbld d a2 c s
  | .nbst a a2 c => Sys2Proof.Machine.execNbst a a2 c s
  | .nbzero d c => Sys2Proof.Machine.execNbzero d c s
  | .nbadd d a b k ty rnd c => Sys2Proof.Machine.execNbadd d a b k ty rnd c s
  | .nbsub d a b k ty rnd c => Sys2Proof.Machine.execNbsub d a b k ty rnd c s
  | .nbmul d a b k ty rnd c => Sys2Proof.Machine.execNbmul d a b k ty rnd c s
  | .nbfma d a b k ty rnd c => Sys2Proof.Machine.execNbfma d a b k ty rnd c s
  | .nbmin d a b k ty c => Sys2Proof.Machine.execNbmin d a b k ty c s
  | .nbmax d a b k ty c => Sys2Proof.Machine.execNbmax d a b k ty c s
  | .nbfold d a ty rnd c => Sys2Proof.Machine.execNbfold d a ty rnd c s
  | .nbout a slot c => Sys2Proof.Machine.execNbout a slot c s
  | .collLegStart part prog leg => Sys2Proof.Machine.execCollLegStart part prog leg s
  | .collTimeout part prog => Sys2Proof.Machine.execCollTimeout part prog s
  | .collProgramComplete part prog => Sys2Proof.Machine.execCollProgramComplete part prog s
  | .moorEntryEnd part => Sys2Proof.Machine.execMoorEntryEnd part s
  | .partitionWake part => Sys2Proof.Machine.execPartitionWake part s
  | .deviceStart u => Sys2Proof.Machine.execDeviceStart u s
  | .xcpEvent => Sys2Proof.Machine.execXcpEvent s
  | .xcpEventResend => Sys2Proof.Machine.execXcpEventResend s
  | .ferryImageLoadComplete op => Sys2Proof.Machine.execFerryImageLoadComplete op s
  | .tlbiComplete op => Sys2Proof.Machine.execTlbiComplete op s
  | .scrubComplete op => Sys2Proof.Machine.execScrubComplete op s
  | .harvestComplete op => Sys2Proof.Machine.execHarvestComplete op s
  | .demotionMark core => Sys2Proof.Machine.execDemotionMark core s
  | .entrySwap core entry => Sys2Proof.Machine.execEntrySwap core entry s
  | .candidateProtect part launch => Sys2Proof.Machine.execCandidateProtect part launch s
  | .rotation part grid => Sys2Proof.Machine.execRotation part grid s
  | .migration tag => Sys2Proof.Machine.execMigration tag s
  | .watchdogExpire core cls => Sys2Proof.Machine.execWatchdogExpire core cls s
  | .rungQueue part node => Sys2Proof.Machine.execRungQueue part node s
  | .rungContext part tag => Sys2Proof.Machine.execRungContext part tag s
  | .rungEngine core unit => Sys2Proof.Machine.execRungEngine core unit s
  | .rungPartition part => Sys2Proof.Machine.execRungPartition part s
  | .rungTimeout idx => Sys2Proof.Machine.execRungTimeout idx s
  | .computeDieLost die => Sys2Proof.Machine.execComputeDieLost die s
  | .rdl p => Sys2Proof.Machine.execRdl p s
  | .wrl p => Sys2Proof.Machine.execWrl p s
  | .atm p op ty => Sys2Proof.Machine.execAtm p op ty s
  | .rdc p op ty => Sys2Proof.Machine.execRdc p op ty s
  | .amx p => Sys2Proof.Machine.execAmx p s
  | .ctl p store => Sys2Proof.Machine.execCtl p store s
  | .vgt p => Sys2Proof.Machine.execVgt p s
  | .vsc p => Sys2Proof.Machine.execVsc p s
  | .fnc p => Sys2Proof.Machine.execFnc p s
  | .rsd p => Sys2Proof.Machine.execRsd p s
  | .rsa p => Sys2Proof.Machine.execRsa p s
  | .rse p => Sys2Proof.Machine.execRse p s
  | .pri p => Sys2Proof.Machine.execPri p s
  | .prs p => Sys2Proof.Machine.execPrs p s
  | .wbk p => Sys2Proof.Machine.execWbk p s
  | .mgxTimestampSync p => Sys2Proof.Machine.execMgxTimestampSync p s
  | .mgxXcpForward p => Sys2Proof.Machine.execMgxXcpForward p s
  | .mgxJobGrantCheck p => Sys2Proof.Machine.execMgxJobGrantCheck p s
  | .flitCrcReplay link flit => Sys2Proof.Machine.execFlitCrcReplay link flit s
  | .strelarFrameReceive port frame => Sys2Proof.Machine.execStrelarFrameReceive port frame s
  | .strelarRetrain port lanes => Sys2Proof.Machine.execStrelarRetrain port lanes s
  | .remoteTimeout txid => Sys2Proof.Machine.execRemoteTimeout txid s
  | .targetedRefresh stack pch row part => Sys2Proof.Machine.execTargetedRefresh stack pch row part s
  | .clfHoldExpire stack => Sys2Proof.Machine.execClfHoldExpire stack s
  | .hailWrite writer part payload => Sys2Proof.Machine.execHailWrite writer part payload s
  | .wakeBoundMissed part => Sys2Proof.Machine.execWakeBoundMissed part s
  | .stackWakeAccess stack => Sys2Proof.Machine.execStackWakeAccess stack s
  | .stackSelfRefresh stack => Sys2Proof.Machine.execStackSelfRefresh stack s
  | .marginLend cluster dest => Sys2Proof.Machine.execMarginLend cluster dest s
  | .marginRevoke cluster => Sys2Proof.Machine.execMarginRevoke cluster s
  | .sharedTurnEnd cluster => Sys2Proof.Machine.execSharedTurnEnd cluster s
  | .coreReportTimeout core => Sys2Proof.Machine.execCoreReportTimeout core s
  | .startFail reason => Sys2Proof.Machine.execStartFail reason s
  | .hello h caps => Sys2Proof.Machine.execHello h caps s
  | .inventory h => Sys2Proof.Machine.execInventory h s
  | .startrep h => Sys2Proof.Machine.execStartrep h s
  | .pcreate h part q => Sys2Proof.Machine.execPcreate h part q s
  | .pchange h part q => Sys2Proof.Machine.execPchange h part q s
  | .pdestroy h part => Sys2Proof.Machine.execPdestroy h part s
  | .map h part l => Sys2Proof.Machine.execMap h part l s
  | .jobgrant h g => Sys2Proof.Machine.execJobgrant h g s
  | .xcpHail h part payload => Sys2Proof.Machine.execXcpHail h part payload s
  | .xcpReset h rung target => Sys2Proof.Machine.execXcpReset h rung target s
  | .rkey h key w => Sys2Proof.Machine.execRkey h key w s
  | .topology h t => Sys2Proof.Machine.execTopology h t s
  | .pwrcap h watts => Sys2Proof.Machine.execPwrcap h watts s
  | .telem h => Sys2Proof.Machine.execTelem h s
  | .attest h nonce => Sys2Proof.Machine.execAttest h nonce s
  | .fwprov h off total chunk => Sys2Proof.Machine.execFwprov h off total chunk s
  | .xcpEventAck src seq => Sys2Proof.Machine.execXcpEventAck src seq s
  | .rdmaWrite qp key addr data => Sys2Proof.Machine.execRdmaWrite qp key addr data s
  | .rdmaRead qp key addr len => Sys2Proof.Machine.execRdmaRead qp key addr len s
  | .thermalThrottle die celsius => Sys2Proof.Machine.execThermalThrottle die celsius s
  | .bootThreadRelease core act => Sys2Proof.Machine.execBootThreadRelease core act s
  | .coreReset core => Sys2Proof.Machine.execCoreReset core s

end Sys2Proof.Machine
end

