-- ==== Sys2Proof/Machine/Fetch.lean ====
section
/-! DEFINITION. Fetching an instruction's bytes (R24, R32, R39, R42, R43), and what a group does with what it finds there
before the instruction's own effect (R59, R339, R341). -/

namespace Sys2Proof.Machine

/-- The place of a fetch block: the translation comes first, whatever the instruction cache holds (R24, R32, R59, R249). -/
def State.fetchPlace (s : State) (g : Grp) (va : Nat) : Except Stop (Nat × State) :=
  match g.part s with
  | none =>
    let spa := s.harbour.pkg * 2 ^ 46 + va
    if s.target spa = .nothing then .error (.halt .noSuchAddress) else .ok (spa, s)
  | some p => (s.translate g.core p (g.priv s) .fetch va).map fun r => (r.1.spa, r.2)

/-- The 32 bytes of the fetch block at an address: as the instruction cache holds them, or read now (R43).
DESIGN CHOICE, log 19. -/
def State.fetchBlock (s : State) (g : Grp) (va : Nat) : Except Stop (List Byte × State) :=
  let part := g.part s
  match s.fetchPlace g va with
  | .error e => .error e
  | .ok (spa, s) =>
    match (s.core g.core).icache.find? fun b => b.1 == (part, va) with
    | some b => .ok (b.2, s)
    | none =>
      match physRead s (g.actor s 0) spa 32 va with
      | .error e => .error e
      | .ok (v, s) =>
        let bytes := bytesOf v 32
        .ok (bytes, s.modCore g.core fun c => { c with icache := ((part, va), bytes) :: c.icache })

/-- The bytes from a PC to the end of its fetch block. The faults of fetch come first (R24, R59); an address of the scratch
window is never translated (R116). -/
def State.fetch (s : State) (g : Grp) (pc : Nat) : Except Stop (List Byte × State) :=
  if pc % 4 ≠ 0 then .error (alignExc pc)
  else if (if g.part s = none then 2 ^ 46 else 2 ^ 52) ≤ pc ∨ inAperture s g pc ∨ pc / 2 ^ 33 * 2 ^ 33 = scratchWindow then
    .error (rangeExc pc)
  else (s.fetchBlock g (pc / 32 * 32)).map fun r => (r.1.drop (pc % 32), r.2)

/-- What an issue finds at its PC. -/
inductive Fetched where
  | instr (i : Instr)
  /-- No instruction: its length by its first word (R39, R42, R44). -/
  | illegal (len : Nat)
  deriving DecidableEq, Repr

/-- Decode what was fetched. An instruction that leaves its fetch block is short of bytes (R42). -/
def readInstr (bs : List Byte) : Fetched :=
  match decode bs with
  | .ok (i, _) => .instr i
  | .error _ => .illegal (lenBytes ((bs.headD 0).toNat % 4))

/-- The instruction is of a vector pipe class (R54, R69). -/
def vectorClass (i : Instr) : Bool :=
  match i with
  | .pairP96 _ _ _ => true
  | i =>
    match encodeRaw i with
    | some r => decide (0x10 ≤ r.maj && r.maj ≤ 0x4D && r.maj != 0x37 && r.maj != 0x39 && r.maj != 0x3A) ||
        decide (0x60 ≤ r.maj && r.maj ≤ 0x62)
    | none => false

/-- The instruction continues a chain where one is open: its CH is 1, and it is chainable or of class CTL (R56). -/
def chains (i : Instr) : Bool :=
  match i with
  | .pairP96 com _ _ => com.chain
  | i => match encodeRaw i with
    | some r => r.chain == 1 && (vectorClass i || decide (1 ≤ r.maj && r.maj ≤ 9))
    | none => false

/-- The numbers of the v registers that the operand fields of an instruction may name, with their pair partners. -/
def operandRegs (i : Instr) : List Nat :=
  let ofCode (c : Nat) : List Nat := if c < 256 then [c, c + 1] else []
  match i with
  | .pairP96 _ a b => ([a.out.dst, a.a, a.b, b.out.dst, b.a, b.b].map fun o => ofCode o.code).flatten
  | i => match encodeRaw i with
    | some r => ([r.dst, r.opa, r.opb, r.hi % 512].map ofCode).flatten
    | none => []

/-- The registers that a pending instruction writes (R339). -/
def pendingRegs (i : Instr) : List Nat :=
  let ofOp (w : Nat) (o : Opnd) : List Nat :=
    match o with
    | .v n => (List.range w).map fun k => n.toNat + k
    | _ => []
  match i with
  | .ld _ ty quad _ dst _ => ofOp (if quad then 4 else if tyWide ty then 2 else 1) dst
  | .ldg _ ty cnt _ dst _ => ofOp (elemCount cnt * (if tyWide ty then 2 else 1)) dst
  | .atom _ _ ty _ dst _ _ => ofOp (if tyWide ty then 2 else 1) dst
  | .amaxsw _ _ dst _ => ofOp 1 dst
  | _ => []

/-- What lies ahead of a group in program order, fillers passed over (R41, R56). -/
inductive Ahead where
  | instr (i : Instr)
  /-- No instruction can be read there. -/
  | none
  /-- It is not known yet: an answer of another package is needed. -/
  | unknown
  deriving DecidableEq, Repr

/-- The next instruction at an address or after the fillers there; `n` fillers at most are looked at. -/
def State.ahead (s : State) (g : Grp) : Nat → Nat → Ahead
  | 0, _ => .unknown
  | n + 1, pc =>
    match s.fetch g pc with
    | .error (.miss _ _) => .unknown
    | .error _ => .none
    | .ok (bs, _) =>
      match readInstr bs with
      | .instr .filler => s.ahead g n (pc + 4)
      | .instr i => .instr i
      | .illegal _ => .none

/-- What lies ahead is not a member of an open chain. -/
def Ahead.ends : Ahead → Bool
  | .instr i => !chains i
  | .none => true
  | .unknown => false

/-- While an instruction is pending, the group may issue a filler, or a vector instruction outside a chain that touches none
of its destinations, up to 64 of them (R339). `next` is what lies ahead of the instruction. -/
def shadowOk (en : Entry) (i : Instr) (next : Ahead) : Bool :=
  match en.pend with
  | [] => true
  | p :: _ =>
    i == .filler ||
      (vectorClass i && decide (en.shadow < 64) && !chains i && next.ends &&
        (operandRegs i).all fun r => !(pendingRegs p.instr).contains r)

/-- What the focused group is about to do. -/
inductive Issue where
  /-- The state is the next one: nothing issues, or a fault has been taken. -/
  | over (r : Res)
  /-- The instruction issues in this state. -/
  | run (i : Instr) (s : State)

/-- An issue of an entry up to its instruction. What is pending is checked before the group stops at a fault of fetch or of
decoding (R339). -/
def State.issue (s : State) (core e : Nat) : Issue :=
  match s.entry core e, s.grpOf core e with
  | some en, some g =>
    let check : Issue := .over (.next (s.waitFor core e [.pendingCheck core e]))
    if !s.hasWork core e en then .over (.next { s with focus := .none })
    else
      match g.ov with
      | some log =>
        match log.instr with
        | some i => .run i (s.startBlock en.block)
        | none => .over (finish (faultThreads (advance s g 0) g none (Exc.of .illegalInstr) g.members) g)
      | none =>
        match s.fetch g g.pc with
        | .error (.exc x) => if en.pend.isEmpty then .over (finish (faultThreads s g none x g.members) g) else check
        | .error x => .over (abort s core e x)
        | .ok (bs, s) =>
          match readInstr bs with
          | .illegal len =>
            if en.pend.isEmpty then
              .over (finish (faultThreads (advance s g len) g none (Exc.of .illegalInstr) g.members) g)
            else check
          | .instr .filler => .run .filler s
          | .instr i =>
            if en.chainOpen && !chains i then .over (.next (s.boundary core e))
            else if !shadowOk en i (s.ahead g 9 (g.pc + lenOf i)) then check
            else if en.pend.isEmpty then .run i (s.startBlock en.block)
            else .run i ((s.startBlock en.block).modEntry core e fun en => { en with shadow := en.shadow + 1 })
  | _, _ => .over (.next { s with focus := .none })

/-- After an instruction, the entry keeps the focus while its chain goes on (R56, R165, R167). -/
def State.refocus (s : State) (core e : Nat) : State :=
  if s.focus != .entry core e then s
  else
    match s.entry core e, s.grpOf core e with
    | some en, some g =>
      if 0 < en.chain ∧ en.chain < 8 ∧ (s.ahead g 9 g.pc).ends = false then s else s.boundary core e
    | _, _ => { s.wakeAllSquads with focus := .none }

end Sys2Proof.Machine
end

