-- ==== Sys2Proof/Machine/Step.lean ====
section
/-! DEFINITION. One step of the package, and how an instruction is placed where the next step runs it. -/

namespace Sys2Proof.Machine

/-- What a step does, but for the time it takes: an event that has been set off, or the next instruction of what is in
focus, or the act of some agent. -/
def act (s : State) : Host.Outcome State Fault Refusal :=
  match s.agenda with
  | i :: rest => Res.thenDo (exec i { s with agenda := rest }) State.unblock
  | [] =>
    match s.focus with
    | .entry c e =>
      match s.issue c e with
      | .over r => r
      | .run .filler s => exec .filler s
      | .run i s => Res.thenDo (exec i s) fun s => s.refocus c e
    | .ferry stk fc =>
      match s.ferryNow stk fc with
      | some i => exec i s
      | none => .next (s.ferryIdle stk fc)
    | .nb stk unit =>
      match s.nbNow stk unit with
      | some i => Res.thenDo (exec i s) fun s => s.nbRefocus stk unit
      | none => .next { s with focus := .none }
    | .none => s.actNext

/-- One step, in which time passes (R474). -/
def step (s : State) : Host.Outcome State Fault Refusal := Res.thenDo (act s) s.tickFrom

/-- The state in which the next step runs the instruction whose bits are `w`: nothing else is set off, and the instruction
stands where a ferry core's invocation, a near-bank unit's run, or core 0's boot-mode thread goes on. DESIGN CHOICE, log 64. -/
def State.withFetchWord (s : State) (nbits w : Nat) : State :=
  if nbits = 32 then (if isNbWord w then s.withNbWord w else s.withFerryWord w) else s.withBootWord w

end Sys2Proof.Machine
end

