-- ==== Sys2Proof/Safety.lean ====
section
/-! DEFINITION. What counts as a safe run: a run whose every step answers a next state. And what R136 and R156 promise of the
default tables, whose coefficients are free: a claim that rests on their accuracy takes it as a premise. -/

namespace Sys2Proof

/-- The memory of a state is in its canonical form (R242: a byte that nothing has written is not listed). -/
def MemOk (s : Machine.State) : Prop := Machine.Memory.wf s.mem = true

/-- The state after a number of steps, where every one of them answers a next state. -/
def stepsTo : Nat → Machine.State → Option Machine.State
  | 0, s => some s
  | n + 1, s =>
    match Machine.step s with
    | .next t => stepsTo n t
    | .fault _ | .refused _ => none

/-- A run of a number of steps is safe: no step faults or is refused. -/
def SafeFor (n : Nat) (s : Machine.State) : Prop := (stepsTo n s).isSome

/-! ### The error bounds of the default tables (R136, R156) -/

/-- The value of a finite FP32 encoding. -/
noncomputable def realOf (x : Nat) : ℝ :=
  let d := (Machine.f32 x).dyadic
  (d.1 : ℝ) * (2 : ℝ) ^ d.2

/-- Every finite input from LO on, below HI unless the table's bound goes on above, has a result within the bound. -/
def Machine.DefTable.Bounded (t : Machine.DefTable) (beyond : Bool) (near : ℝ → ℝ → Prop) : Prop :=
  ∀ x < 2 ^ 32, (Machine.f32 x).finite = true → realOf t.lo ≤ realOf x → (beyond = false → realOf x < realOf t.hi) →
    ∃ y, t.image.eval x = .ok y ∧ near (realOf x) (realOf y)

/-- The normal distribution function, of GELU. -/
noncomputable def normalCdf (x : ℝ) : ℝ := (∫ u in Set.Iic x, Real.exp (-u ^ 2 / 2)) / Real.sqrt (2 * Real.pi)

/-- The bounds of R136 and R156; what elu1 gives at 0 and above follows from its fixed segments. -/
def TablesMeet : Prop :=
  Machine.rcpSeed.Bounded false (fun m y => |m * y - 1| ≤ 2 ^ (-21 : ℤ)) ∧
  Machine.rsqrtSeed.Bounded false (fun m y => |m * y ^ 2 - 1| ≤ 2 ^ (-21 : ℤ)) ∧
  Machine.expTable.Bounded false (fun x y => |y - Real.exp x| ≤ 2 ^ (-15 : ℤ) * Real.exp x) ∧
  Machine.geluTable.Bounded true (fun x y => |y - x * normalCdf x| ≤ 2 ^ (-20 : ℤ)) ∧
  Machine.siluTable.Bounded true (fun x y => |y - x / (1 + Real.exp (-x))| ≤ 2 ^ (-20 : ℤ)) ∧
  Machine.elu1Table.Bounded false (fun x y => x < 0 → |y - Real.exp x| ≤ 2 ^ (-21 : ℤ) * Real.exp x)

end Sys2Proof
end

