-- ==== Sys2Proof/Certificates/Slice0/Terms.lean ====
section
/-! DEFINITION. The terms in which the statements are written: one thread that issues alone, what a destination holds
afterwards, and what an instruction leaves as it was. -/

namespace Sys2Proof.Claims

open Machine

/-- Thread `i` of block `b` is the one member of the group that issues: it is ready, it makes no replay, and its registers
`t`, its block and its block's core `x` are listed in the state. -/
structure Alone (s : State) (g : Grp) (i : Nat) (b : Block) (t : Thread) (x : BlockCore) : Prop where
  group : s.grp = some g
  one : g.members = [i]
  own : g.ov = none
  block : Kv.find g.block s.blocks = some b
  thread : Kv.find i b.threads = some t
  core : Kv.find t.bc b.cores = some x
  ready : t.stat = .ready

/-- The guard of the instruction passes in the thread (R40). -/
def Active (c : Com) (t : Thread) : Prop := t.pred c.guardPred.toNat ≠ c.guardNeg

/-- A source operand that may be read (R18, R52, R53): a register below the declared count, a pair even and whole, no
latch outside the vector pipes, no code that every use refuses. -/
def Readable (t : Thread) (vec : Bool) (x : Src) : Prop := srcBad t.nreg vec x = false

/-- A destination operand that may be written (R18, R23, R52, R53). -/
def Writable (t : Thread) (x : Src) : Prop := dstBad t.nreg x = false

/-- A latch source is one that an earlier member of the open chain has written (R57). Other sources are always fresh. -/
def Fresh (s : State) (g : Grp) (c : Com) (pipe : Nat) (x : Src) : Prop :=
  ∀ n, x.1 = .latch n → c.chain = true ∧ ∃ en, s.entry g.core g.e = some en ∧ 0 < en.chain ∧ en.chain < 8 ∧
    en.written.toNat.testBit (pipe * 4 + n.toNat) = true

/-- What a source operand reads in thread `i` (R52, R53). -/
abbrev reads (s : State) (g : Grp) (pipe i : Nat) (x : Src) : DWord := srcVal s g pipe i x

/-- A destination `x` of thread `i` of block `k` holds the value `v` in state `s`: a register or a pair of the thread, a
uniform register or a pair of its block's core, or a predicate, of which p7 reads as 1. Other destinations discard. -/
def Holds (s : State) (k i : Nat) (x : Src) (v : DWord) : Prop :=
  let t := s.thread k i
  let c := (s.block k).bc t.bc
  match x.1 with
  | .v n => t.reg n.toNat = v.setWidth 32 ∧ (x.2 = true → t.reg (n.toNat + 1) = (v >>> 32).setWidth 32)
  | .s n => c.sreg n.toNat = v.setWidth 32 ∧ (x.2 = true → c.sreg (n.toNat + 1) = (v >>> 32).setWidth 32)
  | .p n => t.pred n.toNat = (decide (n.toNat = 7) || v.getLsbD 0)
  | _ => True

/-- What the entry's latch `n` of a pipe holds for a lane (R55). -/
def latchVal (s : State) (g : Grp) (pipe n lane : Nat) : DWord :=
  match s.entry g.core g.e with
  | some en => Kv.get 0 ((pipe * 4 + n) * 64 + lane) en.latches
  | none => 0

/-- The latch that the instruction targets holds the result (R55); where a predicate takes a result that is no truth value,
only its bit 0 is stated: what the latch holds of the rest is the model's choice (log 90). -/
def Latches (s : State) (g : Grp) (pipe : Nat) (out : Out) (lane : Nat) (v : DWord) : Prop :=
  let l := latchVal s g pipe out.lt.toNat lane
  l.getLsbD 0 = v.getLsbD 0 ∧ ((∀ n, out.dst ≠ .p n) ∨ v = 0 ∨ v = 1 → l = v)

/-- The destinations name the v register, the uniform register, the predicate of number `n`. -/
def namesV (l : List Src) (n : Nat) : Prop := ∃ x ∈ l, ∃ r, x.1 = .v r ∧ (n = r.toNat ∨ (x.2 = true ∧ n = r.toNat + 1))
def namesS (l : List Src) (n : Nat) : Prop := ∃ x ∈ l, ∃ r, x.1 = .s r ∧ (n = r.toNat ∨ (x.2 = true ∧ n = r.toNat + 1))
def namesP (l : List Src) (n : Nat) : Prop := ∃ x ∈ l, ∃ r, x.1 = .p r ∧ n = r.toNat

/-- Outside its blocks, its cores and the requests that wait for other packages, nothing of the state has changed: all
of memory among what is unchanged. -/
def Quiet (s s' : State) : Prop := s' = { s with blocks := s'.blocks, cores := s'.cores, reqs := s'.reqs }

/-- Of a block's core at most the uniform registers have changed. -/
def SregsOnly (x x' : BlockCore) : Prop := x' = { x with sregs := x'.sregs }

/-- Thread `i` of the group has run an instruction that names the destinations `l`: every other thread, block, core and
entry is as it was, and so is every register, uniform register and predicate of its own that is no destination. `B` says
what may have changed in its block's core, and `t'` is the thread afterwards. -/
structure Ran (s s' : State) (g : Grp) (i : Nat) (b : Block) (t : Thread) (x : BlockCore) (l : List Src)
    (B : BlockCore → BlockCore → Prop) (t' : Thread) : Prop where
  /-- The thread is ready, in its place, with nothing of it changed but what an instruction may write. -/
  thread : Kv.find g.block s'.blocks ≠ none ∧ s'.thread g.block i = t' ∧
    t' = { t with regs := t'.regs, preds := t'.preds, pc := t'.pc, tsLatch := t'.tsLatch, fpcsr := t'.fpcsr }
  regs : ∀ n, ¬ namesV l n → t'.reg n = t.reg n
  preds : ∀ n < 8, ¬ namesP l n → t'.pred n = t.pred n
  /-- Its block: the other threads and the other cores are as they were. -/
  others : ∀ j ≠ i, (s'.block g.block).thread j = b.thread j
  bcores : ∀ j ≠ t.bc, (s'.block g.block).bc j = b.bc j
  bcore : B x ((s'.block g.block).bc t.bc)
  sregs : ∀ n, ¬ namesS l n → ((s'.block g.block).bc t.bc).sreg n = x.sreg n
  block : s'.block g.block = { b with threads := (s'.block g.block).threads, cores := (s'.block g.block).cores }
  blocks : ∀ k ≠ g.block, Kv.find k s'.blocks = Kv.find k s.blocks
  /-- Its core: at most the group's own entry has changed. -/
  cores : ∀ c ≠ g.core, s'.core c = s.core c
  core : s'.core g.core = { s.core g.core with entries := (s'.core g.core).entries }
  entries : ∀ e ≠ g.e, s'.entry g.core e = s.entry g.core e

/-- The group's lone thread may issue the instruction: its guard passes and its operands may be read and written. -/
structure CanIssue (s : State) (g : Grp) (i : Nat) (b : Block) (t : Thread) (x : BlockCore) (c : Com)
    (srcs dsts : List Src) : Prop where
  alone : Alone s g i b t x
  active : Active c t
  readable : ∀ y ∈ srcs, Readable t false y
  writable : ∀ y ∈ dsts, Writable t y

/-- The same for an instruction of a vector pipe, whose latch sources are fresh, and whose destination stands for nothing
under WBS (R55). -/
structure CanIssueVec (s : State) (g : Grp) (i : Nat) (b : Block) (t : Thread) (x : BlockCore) (c : Com) (out : Out)
    (pipe : Nat) (srcs : List Src) (wide : Bool) : Prop where
  alone : Alone s g i b t x
  active : Active c t
  readable : ∀ y ∈ srcs, Readable t true y ∧ Fresh s g c pipe y
  writable : out.wbs = false → Writable t (out.dst, wide)

/-- The timestamp latch after an instruction has read its sources (R22). -/
def latched (s : State) (t : Thread) (srcs : List Src) : DWord :=
  if srcs.any (fun y => y.1 == .special 13) then BitVec.ofNat 64 s.clock else t.tsLatch

/-- The state in which an instruction outside the vector pipes has its effect: the open chain is closed, the PC has moved
past the instruction, and a read of the timestamp has been captured. -/
def issued (s : State) (g : Grp) (i : Nat) (ins : Instr) (srcs : List Src) : State :=
  captureTime (advance (closeChain s g) g (lenOf ins)) g i srcs

/-- The instruction answers a next state in which the lone thread has gone past it and has written `v` to the destination
(unless WBS suppresses it) and to the latch it targets, the flags `fl` have been raised, and all else is as it was. -/
def Wrote (s : State) (g : Grp) (i : Nat) (b : Block) (t : Thread) (x : BlockCore) (ins : Instr) (out : Out) (pipe : Nat)
    (srcs : List Src) (wide : Bool) (v : DWord) (fl : Word) : Prop :=
  ∃ s' t', exec ins s = .next s' ∧ Ran s s' g i b t x (if out.wbs then [] else [(out.dst, wide)]) SregsOnly t' ∧
    Quiet s s' ∧ t'.pc = t.pc + lenOf ins ∧ t'.fpcsr = t.fpcsr ||| fl ∧ t'.tsLatch = latched s t srcs ∧
    (out.wbs = false → Holds s' g.block i (out.dst, wide) v) ∧ Latches s' g pipe out t.lane v

/-- An instruction outside the vector pipes answers a next state in which the lone thread has gone past it, no register but
a destination has changed, and `P` holds of that state and of the thread in it. `Q` says what may have changed outside the
blocks and cores, and `B` what may have changed in the block's core. -/
def Done (s : State) (g : Grp) (i : Nat) (b : Block) (t : Thread) (x : BlockCore) (ins : Instr) (srcs dsts : List Src)
    (B : BlockCore → BlockCore → Prop) (Q : State → State → Prop) (P : State → Thread → Prop) : Prop :=
  ∃ s' t', exec ins s = .next s' ∧ Ran s s' g i b t x dsts B t' ∧ Q s s' ∧ t'.pc = t.pc + lenOf ins ∧
    t'.tsLatch = latched s t srcs ∧ P s' t'

/-- What the record of a thread's fault says (R342): the class, that the thread is held, where it stands, its PC. -/
structure Describes (r : FaultRec) (s : State) (g : Grp) (i : Nat) (b : Block) (t : Thread) (e : Exc) : Prop where
  cls : r.cls = e.cls.code
  kind : r.kind = 0x01
  held : r.held = true
  detail : r.detail = e.detail
  aux : r.aux = e.aux
  addr : r.addr = e.addr
  elem : r.elem = e.elem
  pc : r.pc = t.pc
  tidx : r.tidx = i
  lane : r.lane = t.lane
  slot : r.slot = t.slot
  tag : r.tag = b.tag
  node : r.node = b.node
  core : r.core = g.core % 48
  die : r.die = g.core / 48
  time : r.ts = s.clock % 2 ^ 64

/-- The lone thread has taken the exception `e` (R339, R340, R342): it is held faulted past the instruction, with the
instruction and the values `vals` in its operand log, its registers are as they were, its entry is free, and a record waits
in the ring of its fault domain, the event queue for a steward, the harbour die's for a boot-mode thread. -/
structure Faulted (s s' : State) (g : Grp) (i : Nat) (b : Block) (t : Thread) (ins : Instr) (vals : List DWord)
    (e : Exc) : Prop where
  thread : s'.thread g.block i =
    { t with
      pc := t.pc + lenOf ins
      stat := .faulted e ⟨t.pc, some ins, vals⟩
      tsLatch := (s'.thread g.block i).tsLatch
      since := s.tick }
  gone : s'.entry g.core g.e = none
  others : ∀ j ≠ i, (s'.block g.block).thread j = b.thread j
  blocks : ∀ k ≠ g.block, Kv.find k s'.blocks = Kv.find k s.blocks
  mem : s'.mem = s.mem
  boot : b.part = none → ∃ r, s'.harbour.bootRecords = insertRecord r s.harbour.bootRecords ∧ Describes r s g i b t e
  ring : ∀ p y, b.part = some p → s.part p = some y →
    let n := if b.tag = 0 then 0 else ringOfNode y.nodes 32 b.node
    s'.agenda = .recordWrite p n :: s.agenda ∧ ∃ r z, s'.part p = some z ∧ Describes r s g i b t e ∧
      (Kv.get Ring.empty n z.rings).waiting = insertRecord r (Kv.get Ring.empty n y.rings).waiting

/-- The instruction answers a next state in which the lone thread has taken the exception. -/
def Traps (s : State) (g : Grp) (i : Nat) (b : Block) (t : Thread) (ins : Instr) (vals : List DWord) (e : Exc) : Prop :=
  ∃ s', exec ins s = .next s' ∧ Faulted s s' g i b t ins vals e

/-! ### The course of an instruction outside the vector pipes, as a state -/

/-- The instruction is over: the lone thread writes its results, the answers that the instruction took from other packages
are forgotten, and the entry goes on with the thread. -/
def completed (s : State) (g : Grp) (i : Nat) (ws : List (Src × DWord)) : State :=
  regroup ((writeAll g.block i true ws s).taken g.core g.e) g.core g.e

/-- The lone thread is held: it leaves the entry (R159). -/
def heldAt (s : State) (g : Grp) (i : Nat) (h : Hold) : State := regroup (holdThreads s g.block [i] h) g.core g.e

/-- The instruction answers a next state: it is over in the state `s1`, with the results `ws` written. -/
def Completes (s : State) (g : Grp) (i : Nat) (ins : Instr) (s1 : State) (ws : List (Src × DWord)) : Prop :=
  exec ins s = .next (completed s1 g i ws)

/-- One result of 32 bits, and of the width of its operand. -/
abbrev res (dst : Opnd) (n : Nat) : List (Src × DWord) := [((dst, false), BitVec.ofNat 64 n)]

/-- The lone thread may issue the instruction, which boot mode bars (R73). -/
structure MayIssue (s : State) (g : Grp) (i : Nat) (b : Block) (t : Thread) (x : BlockCore) (c : Com)
    (srcs dsts : List Src) : Prop where
  can : CanIssue s g i b t x c srcs dsts
  mode : t.priv ≠ .boot

/-- The matrix engine's queue of 8 has room (R213). -/
def Room (s : State) (g : Grp) : Prop := (s.core g.core).mqueue.length < 8

/-- The instructions of the matrix engine that are not ready while its queue is full (R213). -/
def matrixForm (ins : Instr) : Bool :=
  match ins with
  | .tzero _ _ _ _ | .mma _ _ _ _ _ _ _ _ _ | .mmat _ _ _ _ _ _ _ | .mmap _ _ _ _ _ | .tld _ _ _ _ _
  | .tst _ _ _ _ _ _ _ | .tcfg _ _ _ | .trow _ _ _ _ _ _ | .tchk _ _ _ => true
  | _ => false

/-- The state after a change of the block's core on which the thread runs. -/
abbrev inCore (s : State) (g : Grp) (t : Thread) (f : BlockCore → BlockCore) : State := s.modBc g.block t.bc f

/-- What the sources read. -/
abbrev values (s : State) (g : Grp) (i : Nat) (srcs : List Src) : List DWord := srcs.map (reads s g 0 i)

/-! ### Squads (R189 to R191) -/

/-- A squad instruction issues for a whole squad: the members of the group are the participants that the mask names, in
order of home lane, each of them ready, active and with operands that it may use; no other entry of the core stands without
members or holds one of them. -/
structure SquadIssue (s : State) (g : Grp) (q : Nat) (c : Com) (mask : Word) (srcs dsts : List Src) : Prop where
  group : s.grp = some g
  own : g.ov = none
  block : Kv.find g.block s.blocks = some (s.block g.block)
  members : ∀ i, i ∈ g.members ↔ i ∈ (s.block g.block).participants q mask.toNat
  lanes : g.members.Pairwise fun i j => (s.thread g.block i).lane < (s.thread g.block j).lane
  each : ∀ i ∈ g.members, ∃ t, Kv.find i (s.block g.block).threads = some t ∧ t.stat = .ready ∧ t.priv ≠ .boot ∧
    Active c t ∧ (∀ y ∈ srcs, Readable t false y) ∧ ∀ y ∈ dsts, Writable t y
  entries : ∀ e en, s.entry g.core e = some en → en.members ≠ [] ∧
    (e ≠ g.e → en.block = g.block → ∀ i ∈ g.members, i ∉ en.members)

/-- The instruction answers a next state in which every member has gone past it and `d` holds its own value, and no other
register of any thread has changed; memory is as it was. A uniform register takes the value of one of the members. -/
def SquadDone (s : State) (g : Grp) (ins : Instr) (d : List Src) (v : Nat → DWord) : Prop :=
  ∃ s', exec ins s = .next s' ∧ s'.mem = s.mem ∧ (∀ k ≠ g.block, Kv.find k s'.blocks = Kv.find k s.blocks) ∧
    (∀ i ∈ g.members, let t := s.thread g.block i; let t' := s'.thread g.block i
      t'.pc = t.pc + lenOf ins ∧ t'.stat = .ready ∧ t'.fpcsr = t.fpcsr ∧ (∀ n, ¬ namesV d n → t'.reg n = t.reg n) ∧
      (∀ n < 8, ¬ namesP d n → t'.pred n = t.pred n) ∧ ∀ x ∈ d, (∀ r, x.1 ≠ .s r) → Holds s' g.block i x (v i)) ∧
    (∀ i, i ∉ g.members → s'.thread g.block i = s.thread g.block i) ∧
    (∀ j n, ¬ namesS d n → ((s'.block g.block).bc j).sreg n = ((s.block g.block).bc j).sreg n)

/-! ### Matrix operations (R213) -/

/-- The operation enters the engine's queue, under number `n` of timeline 8. -/
def enqueued (s0 : State) (g : Grp) (t : Thread) (n : Nat) (kind : OpKind) : State :=
  (s0.modBc g.block t.bc fun c =>
    { c with
      tls := Kv.set Timeline.zero 8 { c.tl 8 with issued := n } c.tls
      ops := c.ops ++ [⟨8, n, kind, none, 0, .queued, t.pc, t.priv, 0, []⟩] }).modCore g.core fun c =>
    { c with mqueue := c.mqueue ++ [(g.block, n)] }

/-- The instruction completes with the operation queued and its number in `dst`. -/
def Queues (s : State) (g : Grp) (i : Nat) (x : BlockCore) (t : Thread) (ins : Instr) (s0 : State) (kind : OpKind)
    (dst : Opnd) (then_ : State → State) : Prop :=
  let n := ((x.tl 8).issued + 1) % 2 ^ 32
  Completes s g i ins (then_ (enqueued s0 g t n kind)) (res dst n)

/-! ### Memory accesses -/

/-- Nothing that a release of block `k` waits for is outstanding: no posted write of it, no probe that its writes have set
off, and, for a release at domain scope, no package it has written since its last (R236, R377). -/
structure Settled (s : State) (k : Nat) (dom : Bool) : Prop where
  posted : s.posting k = false
  probes : (s.reqs.any fun r => r.2.probe.any fun x => x.2 == k) = false
  todo : (s.dies.any fun d => d.2.todo.any fun x => x.2.1 == k) = false
  wrote : dom = true → (s.block k).wrote = []

/-- An access that releases at package or domain scope finds its block settled. -/
def OrderMet (s : State) (k : Nat) (o : Order) : Prop := o.rel = true → o.far = true → Settled s k o.dom

/-- An access to DRAM of this package that nothing stands in the way of: it resolves to the address `spa` with memory type
`mt`, in the state `s1` that differs from `s` in the TLBs alone; no race window and no stash line covers it, no probe of
its lines is outstanding, and no granule of it is condemned. -/
structure PlainDram (s : State) (g : Grp) (i : Nat) (f : Form) (m : MemOp) (a : Access) (ea n spa mt : Nat)
    (s1 : State) : Prop where
  place : resolve g i f m.space a ea n s = .ok (.phys spa mt, s1)
  dram : s.target spa = .dram
  unwatched : s.raceWindow g.block ea = none
  unstashed : s.stashPages.any (·.holds (spa / 64 * 64)) = false
  clean : s.poisonedIn spa n = none
  aligned : spa % n = 0
  settled : ∀ l ∈ linesOf spa n, s.probing l = false

/-- The access is to the block's scratch on the thread's core, in range, aligned, and in no stash page. -/
structure PlainScratch (b : Block) (t : Thread) (x : BlockCore) (m : MemOp) (ea n : Nat) : Prop where
  mode : t.priv ≠ .boot
  space : m.space = .scratch
  range : ea < b.scratch
  aligned : ea % n = 0
  page : x.stashPage ea = none

/-- The effective address of a memory operand (R48). -/
def eaNow (s : State) (g : Grp) (i : Nat) (m : MemOp) : Nat :=
  effAddr m (reads s g 0 i (m.base, Space.far m.space)) (reads s g 0 i (m.index, false))

/-- Thread `i` has gone past the instruction: it is ready, and no register or predicate of it and no uniform register has
changed but the destinations `l`. -/
structure PassedOwn (s' : State) (g : Grp) (i : Nat) (t : Thread) (x : BlockCore) (ins : Instr) (l : List Src) :
    Prop where
  pc : (s'.thread g.block i).pc = t.pc + lenOf ins
  stat : (s'.thread g.block i).stat = .ready
  fpcsr : (s'.thread g.block i).fpcsr = t.fpcsr
  regs : ∀ n, ¬ namesV l n → (s'.thread g.block i).reg n = t.reg n
  preds : ∀ n < 8, ¬ namesP l n → (s'.thread g.block i).pred n = t.pred n
  sregs : ∀ n, ¬ namesS l n → ((s'.block g.block).bc t.bc).sreg n = x.sreg n

/-- The same, and no other thread of the block has changed. -/
structure Passed (s' : State) (g : Grp) (i : Nat) (b : Block) (t : Thread) (x : BlockCore) (ins : Instr)
    (l : List Src) : Prop where
  own : PassedOwn s' g i t x ins l
  others : ∀ j ≠ i, (s'.block g.block).thread j = b.thread j

/-- The `n` bytes of memory at `a` hold the number `v`, little-endian; every other byte reads as in `s`. -/
def Stored (s s' : State) (a n v : Nat) : Prop :=
  (∀ k < n, s'.byteAt (a + k) = BitVec.ofNat 8 (v / 256 ^ k)) ∧ ∀ c, c < a ∨ a + n ≤ c → s'.byteAt c = s.byteAt c

/-- The same for scratch of the block on the thread's core; memory is as it was. -/
def StoredScratch (s s' : State) (g : Grp) (t : Thread) (x : BlockCore) (a n v : Nat) : Prop :=
  let x' := (s'.block g.block).bc t.bc
  s'.mem = s.mem ∧ (∀ k < n, x'.scratchByte (a + k) = BitVec.ofNat 8 (v / 256 ^ k)) ∧
    ∀ c, c < a ∨ a + n ≤ c → x'.scratchByte c = x.scratchByte c

/-- The destinations of a load and what they receive. -/
def HoldsAll (s : State) (k i : Nat) (l : List (Src × DWord)) : Prop := ∀ y ∈ l, Holds s k i y.1 y.2

/-- The sources of ATOM after the address: the operand in `c` or in DST, for .cas with the compare value in DST (R264). -/
def atomSrcs (op : AtomOp) (ty : Ty) (dst c : Opnd) (m : MemOp) : List Src :=
  if !m.wide then [(dst, tyWide ty)] else if op = .cas then [(c, tyWide ty), (dst, tyWide ty)] else [(c, tyWide ty)]

/-- The read-modify-writes on a word: the instruction, its operation, type, order, memory operand, whether the scratch
window is accepted, the sources after the address, and the destinations (R264, R266). -/
structure RmwForm where
  com : Com
  op : AtomOp
  ty : Ty
  ord : Order
  m : MemOp
  window : Bool
  srcs : List Src
  dsts : List Src

def rmwForm (ins : Instr) : Option RmwForm :=
  match ins with
  | .atom com op ty ord dst c m =>
    some ⟨com, op, ty, atomOrder ord, m, true, atomSrcs op ty dst c m, [(dst, tyWide ty)]⟩
  | .red com op ty ord src m => some ⟨com, op, ty, atomOrder ord, m, true, [(src, tyWide ty)], []⟩
  | .amaxsw com ord dst m => some ⟨com, .exch, .b32, atomOrder ord, m, false, [(dst, false)], [(dst, false)]⟩
  | _ => none

/-- The operand and the compare value of a read-modify-write, from its sources after the address. -/
def rmwVal (ty : Ty) (l : List DWord) (k : Nat) : Nat := (l.getD k 0).toNat % 2 ^ tyBits ty

/-- What a memory instruction uses: common fields, sources, destinations, and whether boot mode bars it. -/
def memForm (ins : Instr) : Option (Com × List Src × List Src × Bool) :=
  match ins with
  | .ld com ty quad _ dst m => some (com, memSrcs m, dataOps true ty quad dst, false)
  | .st com ty quad _ src m => some (com, memSrcs m ++ dataOps false ty quad src, [], false)
  | .ldg com ty cnt _ dst m => some (com, (m.base, true) :: indexOps cnt m, ldgDsts cnt ty dst, true)
  | .sct com ty cnt _ src m => some (com, (m.base, true) :: (indexOps cnt m ++ sctSrcs cnt ty src), [], true)
  | .atom com op ty _ dst c m => some (com, memSrcs m ++ atomSrcs op ty dst c m, [(dst, tyWide ty)], false)
  | .red com _ ty _ src m => some (com, memSrcs m ++ [(src, tyWide ty)], [], false)
  | .amaxsw com _ dst m => some (com, memSrcs m ++ [(dst, false)], [(dst, false)], false)
  | _ => none

/-! ### Engine operations and barriers -/

/-- The operation takes the next number of its timeline and joins the operations of the block's core (R297, R298). -/
def started (s0 : State) (g : Grp) (t : Thread) (x : BlockCore) (tl : Nat) (kind : OpKind) (bidx : Option Nat) : State :=
  let n := ((x.tl tl).issued + 1) % 2 ^ 32
  s0.modBc g.block t.bc fun c =>
    { c with
      tls := Kv.set Timeline.zero tl { c.tl tl with issued := n } c.tls
      ops := c.ops ++ [⟨tl, n, kind, bidx, 0, .queued, t.pc, t.priv, 0, []⟩] }

/-- The barrier that a copy counts on may be counted on: there is none, or it stands in the block's scratch, validates for
the block's tag, and is not poisoned (R306, R317). -/
def BarReady (s0 : State) (g : Grp) (b : Block) (t : Thread) (bidx : BitVec 12) : Prop :=
  bidx = 0xFFF ∨ (16 * bidx.toNat + 16 ≤ b.scratch ∧
    (s0.barGet g.block t.bc (16 * bidx.toNat)).valid b.tag = true ∧
    (s0.barGet g.block t.bc (16 * bidx.toNat)).poisoned = false)

/-- The state after the release of the lone thread at an issue, where the instruction releases (R276, R288). -/
def released (s0 : State) (g : Grp) (rel : Bool) : State := if rel then s0.releases g.block 1 else s0

/-- A barrier instruction names the object at `off` in the block's scratch on the thread's core: in range, aligned to 16,
in no stash page. -/
structure BarAt (s : State) (g : Grp) (i : Nat) (b : Block) (t : Thread) (x : BlockCore) (m : MemOp) (off : Nat) : Prop where
  space : m.space = .scratch
  ea : eaNow s g i m = off
  range : off < b.scratch
  aligned : off % 16 = 0
  page : x.stashPage off = none

/-- The words of a table image in scratch of a block's core, and the image that stands there (R137, R143). -/
def scratchWords (c : BlockCore) (addr n : Nat) : List Nat :=
  (List.range n).map fun k => leRead c.scratchByte (addr + 4 * k) 4
def scratchImage (c : BlockCore) (addr : Nat) : TblImage :=
  let h := scratchWords c addr 16
  let n := (⟨h, []⟩ : TblImage).nseg
  ⟨h, (List.range n).map fun i => ((scratchWords c (addr + 64) (6 * n)).drop (6 * i)).take 6⟩

/-- The phase of the object at `off` of block core `bc` is now `phase`: the threads held on it in another phase are ready in
slot state, and every other thread of the block but `i` is as it was (R318). -/
def Woken (s' : State) (g : Grp) (i : Nat) (b : Block) (bc off phase : Nat) : Prop :=
  ∀ j ≠ i, ∀ y, Kv.find j b.threads = some y → s'.thread g.block j =
    match y.stat with
    | .held (.bar bc' off' p _) =>
      if bc' = bc ∧ off' = off ∧ phase ≠ p then { y with stat := .ready } else y
    | _ => y

/-! ### Instructions of a steward -/

/-- The lone thread of a steward may issue the instruction. -/
structure StewIssue (s : State) (g : Grp) (i : Nat) (b : Block) (t : Thread) (x : BlockCore) (c : Com)
    (srcs dsts : List Src) (p : Nat) : Prop where
  can : CanIssue s g i b t x c srcs dsts
  mode : t.priv = .steward
  part : b.part = some p

/-- The common fields and the operands of the instructions that need steward privilege and that boot mode bars (R73, R107,
R174 to R188, R346 to R348, R359 to R361, R391, R425, R434, R460). -/
def stewForm (ins : Instr) : Option (Com × List Src × List Src) :=
  match ins with
  | .launch com dst a b | .graphRun com dst a b => some (com, [(a, true), (b, true)], [(dst, false)])
  | .graphPatch com a b c => some (com, [(a, true), (b, true), (c, false)], [])
  | .tretRep com dst a b | .tretSkip com dst a b | .tretKill com dst a b | .tretCan com dst a b
  | .tretKillb com dst a b | .tretPre com dst a b | .scrub com _ dst a b =>
    some (com, [(a, true), (b, false)], [(dst, false)])
  | .tlbiVa com a b => some (com, [(a, true), (b, false)], [])
  | .tlbiAll com => some (com, [], [])
  | .harvest com dst a => some (com, [(a, false)], [(dst, false)])
  | .moor com dst => some (com, [], [(dst, false)])
  | _ => none

/-- The group is held for operation `n` of the package, which notes who started it (R346). -/
def heldForOp (s0 : State) (g : Grp) (i : Nat) (b : Block) (t : Thread) (p : Nat) (kind : PkgOpKind) (dst : Opnd) : State :=
  heldAt { s0 with
    ops := Kv.insert s0.nextOp ⟨⟨p, g.block, b.node, b.tag == 0, t.bc, s0.nextOp, t.priv, t.pc⟩, kind⟩ s0.ops
    nextOp := s0.nextOp + 1 } g i (.op s0.nextOp dst)

/-! ### Ferry cores and near-bank units -/

/-- The cycles that reading a kernel's word costs beside the word's own: 4 where an error is corrected (R400). -/
def ferryFix (c : FCtx) (r : FerryRun) : Nat := if c.core.fixStore.contains (c.granule r.idx) then 4 else 0

/-- The invocation `r` of binding `b` is in focus, its word can be read, and it may spend `cost` cycles more. -/
structure FerryAt (s : State) (stk fc : Nat) (c : FCtx) (r : FerryRun) (b : Binding) (cost : Nat) : Prop where
  focus : s.focus = .ferry stk fc
  ctx : s.fctx stk fc = some (c, r, b)
  good : c.core.badStore.contains (c.granule r.idx) = false
  budget : r.cycles + cost + ferryFix c r ≤ c.kernel.bound

/-- The word answers a next state: the invocation is `r1` with the cycles spent, at the word after it or at the next
iteration of the body that ends there; past the last word it ends and the packet is forwarded (R393, R415). Nothing else of
the state has changed while it goes on. -/
def FerryGoes (s : State) (stk fc : Nat) (c : FCtx) (r : FerryRun) (b : Binding) (ins : Instr) (cost : Nat)
    (r1 : FerryRun) (next : Nat) : Prop :=
  let r' := FerryRun.goTo { r1 with cycles := r.cycles + cost + ferryFix c r } next
  (r'.idx < c.kernel.words.length → exec ins s = .next (s.modFerry stk fc fun x => { x with run := some r' })) ∧
  (c.kernel.words.length ≤ r'.idx → exec ins s = .next (s.ferryEnd stk fc r' b true))

/-- The invocation traps (R402): it is gone with its writes and packets, its binding is faulted, nothing leaves, and a record
of class `cls` with the word's index and the code waits in the ring of the owner's fault domain, where the partition has
room for it (R344). -/
def FerryTrapped (s : State) (stk fc : Nat) (r : FerryRun) (b : Binding) (ins : Instr) (cls code addr : Nat) : Prop :=
  ∃ s', exec ins s = .next s' ∧ s'.focus = .none ∧ s'.mem = s.mem ∧
    s'.ferry stk fc = { s.ferry stk fc with
      run := none
      bindings := (s.ferry stk fc).bindings.map fun y =>
        if y.job = b.job ∧ y.flow = b.flow then { y with faulted := true } else y } ∧
    ∀ x, s.part b.owner.part = some x → x.waitingFree < 64 →
      let n := if b.owner.steward then 0 else ringOfNode x.nodes 32 b.owner.node
      ∃ z q, s'.part b.owner.part = some z ∧
        (Kv.get Ring.empty n z.rings).waiting = insertRecord q (Kv.get Ring.empty n x.rings).waiting ∧
        q.kind = 0x10 ∧ q.cls = cls ∧ q.detail = r.idx % 1024 + 1024 * code ∧ q.addr = addr ∧
        q.aux = ferryAux stk fc b.job b.flow b.slot

/-- Of an invocation at most its vector registers, its scalar registers, its masks have changed; cycles aside. -/
def OnlyFv (r r1 : FerryRun) : Prop := r1 = { r with fv := r1.fv, cycles := r1.cycles }
def OnlyFs (r r1 : FerryRun) : Prop := r1 = { r with fs := r1.fs, cycles := r1.cycles }
def OnlyFm (r r1 : FerryRun) : Prop := r1 = { r with fm := r1.fm, cycles := r1.cycles }

/-- The scalar register `d` takes `w`, and no other changes. -/
def TakesFs (r r1 : FerryRun) (d : Fin 16) (w : Word) : Prop :=
  OnlyFs r r1 ∧ ∀ n, r1.fs_ n = if n = d then w else r.fs_ n

/-- The lanes of the mask `m` of register `d` take what `v` gives, and no other lane changes. -/
def TakesFv (r r1 : FerryRun) (d : Fin 16) (m : Fin 4) (v : Nat → Word) : Prop :=
  OnlyFv r r1 ∧ ∀ n, ∀ l < 32, r1.lane n l = if n = d ∧ (r.mask m).toNat.testBit l = true then v l else r.lane n l

/-- Run `u` is in focus on near-bank unit `unit` of stack `stk`. -/
structure NbAt (s : State) (stk unit : Nat) (u : NbCur) : Prop where
  focus : s.focus = .nb stk unit
  range : unit < 64
  cur : (s.unit (64 * stk + unit)).cur = some u

/-- The position of a run after a micro-operation: the next one, or the first one of the next column (R419). -/
def nbAhead (u v : NbCur) : Prop :=
  (v.i, v.c) = (if u.i + 1 < u.prog.length then (u.i + 1, u.c) else (0, u.c + 1)) ∧
    v = { u with acc := v.acc, i := v.i, c := v.c }

/-- The micro-operation answers the state `t` in which the run goes on as `v`, or ends its row. -/
def NbGoes (s : State) (stk unit : Nat) (ins : Instr) (t : State) (v : NbCur) : Prop :=
  exec ins s = .next (t.nbAfter (64 * stk + unit) false v 0)

/-- The accumulators `d` of the run's units take what `f` gives of each unit's, and no other changes. -/
def TakesAcc (u v : NbCur) (d : Fin 4) (f : Nat → Nat) : Prop :=
  ∀ h < 2, ∀ a, v.get h a = if a = d ∧ h ∈ u.halves then f h % 2 ^ 256 else u.get h a

/-- The thread as the starter of base-die work of number `n` (R432). -/
def starterOf (g : Grp) (b : Block) (t : Thread) (p n : Nat) : Starter :=
  ⟨p, g.block, b.node, b.tag == 0, t.bc, n, t.priv, t.pc⟩

/-- The block's core has taken the next number of a timeline (R297). -/
def numbered (s0 : State) (g : Grp) (t : Thread) (x : BlockCore) (tl : Nat) : State :=
  s0.modBc g.block t.bc fun c => c.setTl tl { x.tl tl with issued := ((x.tl tl).issued + 1) % 2 ^ 32 }

/-- A place in DRAM of this package where nothing stands in the way of a write of `n` bytes. -/
structure PlainPlace (s : State) (spa n : Nat) : Prop where
  dram : s.target spa = .dram
  unstashed : s.stashPages.any (·.holds (spa / 64 * 64)) = false
  clean : s.poisonedIn spa n = none
  aligned : spa % n = 0
  settled : ∀ l ∈ linesOf spa n, s.probing l = false

/-- No other package keeps a copy of a line (R380). -/
def Unheld (s : State) (line : Nat) : Prop := Kv.get [] line (s.die (s.homeStack (line * 64))).dir = []

/-- The block that started base-die work does not end with it: it is gone already, or it has threads. -/
def Outlasts (s : State) (w : Starter) : Prop := ∀ b, Kv.find w.block s.blocks = some b → b.threads ≠ []

end Sys2Proof.Claims
end

