-- ==== Sys2Proof/Certificates/Slice0/Obligations.lean ====
section
/-! DEFINITION. The statements about the model, one definition each, with the tables they range over. -/

namespace Sys2Proof.Claims

open Machine

/-! ### Instructions of the vector pipes -/

/-- An instruction of the vector pipes that writes one destination: common fields, result fields, pipe (R54), sources with
their widths, and the width of the result. -/
structure VecForm where
  com : Com
  out : Out
  pipe : Nat
  srcs : List Src
  wide : Bool

/-- The forms of one, two and three typed sources (R100 to R102). `w` is the width of the result. -/
def form1 (x : Vec1) (pipe : Nat) (w : Bool) : VecForm := ⟨x.com, x.out, pipe, [(x.a, tyWide x.ty)], w⟩
def form2 (x : Vec2) (pipe : Nat) (wb w : Bool) : VecForm :=
  ⟨x.com, x.out, pipe, (x.a, tyWide x.ty) :: srcsB x.b wb, w⟩
def form3 (x : Vec3) (pipe : Nat) (wc : Bool) : VecForm :=
  ⟨x.com, x.out, pipe, [(x.a, tyWide x.ty), (x.b, tyWide x.ty), (x.c, wc)], tyWide x.ty⟩

/-- A shift's sources: the count is a 32-bit operand, or stands in the instruction (R110). -/
def shiftForm (x : Vec1) (c : ShiftCount) : VecForm :=
  match c with
  | .simm _ => form1 x 0 (tyWide x.ty)
  | .op o => ⟨x.com, x.out, 0, [(x.a, tyWide x.ty), (o, false)], tyWide x.ty⟩

/-- Every instruction of the vector pipes that writes its destination alone. -/
def vecForm (ins : Instr) : Option VecForm :=
  match ins with
  | .add x | .sub x | .mul x | .min x | .max x | .and x | .or x | .xor x | .andn x =>
    some (form2 x 0 (tyWide x.ty) (tyWide x.ty))
  | .mulh x | .div x | .rem x => some (form2 x 1 (tyWide x.ty) (tyWide x.ty))
  | .fadd x _ | .fsub x _ | .fmul x _ | .fmin x | .fmax x => some (form2 x 0 (tyWide x.ty) (tyWide x.ty))
  | .cmp x _ | .fcmp x _ => some (form2 x 0 (tyWide x.ty) false)
  | .bfx x => some (form2 x 0 false (tyWide x.ty))
  | .fscale x _ => some (form2 x 1 false (tyWide x.ty))
  | .dham x => some (form2 x 1 (tyWide x.ty) false)
  | .abs x | .neg x | .not x | .mov x | .frnd x _ => some (form1 x 0 (tyWide x.ty))
  | .brev x => some (form1 x 1 (tyWide x.ty))
  | .clz x | .ctz x | .popc x => some (form1 x 1 false)
  | .fclass x _ _ => some (form1 x 0 false)
  | .unpack x _ _ => some ⟨x.com, x.out, 0, [(x.a, false)], false⟩
  | .mad x | .bfi x | .sel x => some (form3 x 0 false)
  | .funnel x => some (form3 x 1 false)
  | .ffma x _ =>
    some ⟨x.com, x.out, 0,
      if x.imm = none then [(x.a, tyWide x.ty), (x.b, tyWide x.ty), (x.c, tyWide x.ty)]
      else [(x.a, tyWide x.ty), (x.c, tyWide x.ty)], tyWide x.ty⟩
  | .bsel x =>
    some ⟨x.com, x.out, 1, [(x.a, false), (x.b, false)] ++ (if x.imm = none then [(x.c, false)] else []), false⟩
  | .pack x _ _ | .bscale x _ => some ⟨x.com, x.out, 0, [(x.a, false), (x.b, false), (x.c, false)], false⟩
  | .cvt x src rnd _ =>
    some ⟨x.com, x.out, 0, (x.a, tyWide src) :: (if rnd = .sr then srcsB x.b false else []), tyWide x.ty⟩
  | .shl x c | .shr x c | .sra x c | .rot x c => some (shiftForm x c)
  | .lea com out m => some ⟨com, out, 0, [(m.base, Space.far m.space), (m.index, false)], Space.far m.space⟩
  | .leah com out m => some ⟨com, out, 0, [(m.base, Space.far m.space), (m.index, false)], false⟩
  | .swin com out _ a => some ⟨com, out, 0, [(a, false)], true⟩
  | .plut com out _ a b c => some ⟨com, out, 0, [(a, false), (b, false), (c, false)], false⟩
  | .pmovGet com out => some ⟨com, out, 0, [], false⟩
  | .movi com out ty _ _ => some ⟨com, out, 0, [], tyWide ty⟩
  | .ddot com out _ _ _ _ a b c | .dl2 com out _ _ a b c =>
    some ⟨com, out, 1, [(a, false), (b, false), (c, false)], false⟩
  | _ => none

/-- The lone thread may issue an instruction of that form. -/
abbrev CanForm (s : State) (g : Grp) (i : Nat) (b : Block) (t : Thread) (x : BlockCore) (f : VecForm) : Prop :=
  CanIssueVec s g i b t x f.com f.out f.pipe f.srcs f.wide

/-- The instruction of that form writes `v` and raises the flags `fl`. -/
abbrev FormWrote (s : State) (g : Grp) (i : Nat) (b : Block) (t : Thread) (x : BlockCore) (ins : Instr) (f : VecForm)
    (v : DWord) (fl : Word) : Prop :=
  Wrote s g i b t x ins f.out f.pipe f.srcs f.wide v fl

/-- An operand as the integer that its type reads (R108). -/
def asInt (ty : Ty) (x : DWord) : Int :=
  if tySigned ty then (x.setWidth (tyBits ty)).toInt else ((x.setWidth (tyBits ty)).toNat : Int)

/-- The value of an immediate operand of an integer or bit type: sign-extended where the type is of 64 bits (R100). -/
def immInt (ty : Ty) (w : Word) : DWord := if tyWide ty then w.signExtend 64 else w.setWidth 64

/-- Operand B of an integer or bit type. -/
def valueB (s : State) (g : Grp) (pipe i : Nat) (ty : Ty) (b : SrcB) : DWord :=
  match b with
  | .op o => reads s g pipe i (o, tyWide ty)
  | .imm w => immInt ty w

/-- The range of an integer type. -/
def tyLo (ty : Ty) : Int := if tySigned ty then -(2 ^ (tyBits ty - 1)) else 0
def tyHi (ty : Ty) : Int := if tySigned ty then 2 ^ (tyBits ty - 1) - 1 else 2 ^ tyBits ty - 1

/-- An exact result, clamped to the range of the type under .sat (R108). -/
def saturated (ty : Ty) (sat : Bool) (r : Int) : Int := if sat then max (tyLo ty) (min (tyHi ty) r) else r

/-- The two-source integer instructions: what each computes of its operands read as integers (R108, R111). -/
def intBinary (ins : Instr) : Option (Vec2 × (Int → Int → Int)) :=
  match ins with
  | .add x => some (x, fun a b => saturated x.ty x.variant (a + b))
  | .sub x => some (x, fun a b => saturated x.ty x.variant (a - b))
  | .mul x => some (x, fun a b => a * b)
  | .mulh x => some (x, fun a b => a * b / 2 ^ tyBits x.ty)
  | .div x => some (x, fun a b => if b = 0 then -1 else a.tdiv b)
  | .rem x => some (x, fun a b => if b = 0 then a else a.tmod b)
  | .min x => some (x, fun a b => min a b)
  | .max x => some (x, fun a b => max a b)
  | _ => none

/-- The one-source integer instructions (R108). -/
def intUnary (ins : Instr) : Option (Vec1 × (Int → Int)) :=
  match ins with
  | .abs x => some (x, fun a => saturated x.ty x.variant |a|)
  | .neg x => some (x, fun a => saturated x.ty x.variant (-a))
  | _ => none

/-- The bitwise instructions and MOV, on whole registers or pairs (R108, R119). -/
def bitBinary (ins : Instr) : Option (Vec2 × (DWord → DWord → DWord)) :=
  match ins with
  | .and x => some (x, fun a b => a &&& b)
  | .or x => some (x, fun a b => a ||| b)
  | .xor x => some (x, fun a b => a ^^^ b)
  | .andn x => some (x, fun a b => a &&& ~~~b)
  | _ => none
def bitUnary (ins : Instr) : Option (Vec1 × (DWord → DWord)) :=
  match ins with
  | .not x => some (x, fun a => ~~~a)
  | .mov x => some (x, fun a => a)
  | _ => none

/-- The low bits of a value that a type has, with zeros above. -/
def cutTy (ty : Ty) (v : DWord) : DWord := (v.setWidth (tyBits ty)).setWidth 64

/-- The shifts on words of `n` bits (R110): left, right by zeros, right by the sign, left around. -/
def shiftFn (n : Nat) (ins : Instr) : Option (Vec1 × ShiftCount × (BitVec n → Nat → BitVec n)) :=
  match ins with
  | .shl x c => some (x, c, fun a k => a <<< k)
  | .shr x c => some (x, c, fun a k => a >>> k)
  | .sra x c => some (x, c, fun a k => a.sshiftRight k)
  | .rot x c => some (x, c, fun a k => a.rotateLeft (k % n))
  | _ => none

/-- The shift count: SIMM, or operand B as 32 bits. -/
def shiftCount (s : State) (g : Grp) (i : Nat) (c : ShiftCount) : Nat :=
  match c with
  | .simm k => k.toNat
  | .op o => (reads s g 0 i (o, false)).toNat

/-- The conditions of R113 on the operands as the type reads them. -/
def cmpHolds (c : Cond) (a b : Int) : Prop :=
  match c with
  | .eq => a = b
  | .ne => a ≠ b
  | .lt => a < b
  | .le => a ≤ b
  | .gt => a > b
  | .ge => a ≥ b

/-- A count of the positions below `n` that satisfy a test. -/
def countBits (n : Nat) (f : Nat → Bool) : Nat := ((List.range n).filter f).length

/-- The instructions that count bits (R108): the leading zeros of an `n`-bit word, its trailing zeros, its ones. -/
def bitCount (ins : Instr) : Option (Vec1 × (Nat → DWord → Nat)) :=
  match ins with
  | .clz x => some (x, fun n a => countBits n fun k => decide (a.toNat < 2 ^ (n - 1 - k)))
  | .ctz x => some (x, fun n a => countBits n fun k => decide (a.toNat % 2 ^ (k + 1) = 0))
  | .popc x => some (x, fun n a => countBits n fun k => a.getLsbD k)
  | _ => none

/-- Bit `k` of the field that BFX takes from a word of `n` bits: the bit of `a` at `pos + k`, or past the top of `a` its
sign or a zero; from `len` on, what extends the field (R112). -/
def fieldBit (ty : Ty) (a : DWord) (pos len k : Nat) : Bool :=
  let n := tyBits ty
  let at' (j : Nat) : Bool := if pos + j < n then a.getLsbD (pos + j) else tySigned ty && a.getLsbD (n - 1)
  if len = 0 then false else if k < len then at' k else tySigned ty && at' (len - 1)

/-- Bit `k` of what BFI makes (R112). -/
def insertBit (a b : DWord) (pos len k : Nat) : Bool :=
  if pos ≤ k ∧ k < pos + len then b.getLsbD (k - pos) else a.getLsbD k

/-- The effective address of R48 over a base and an index. -/
def address (m : MemOp) (base index : DWord) : DWord :=
  base + (index.setWidth 32).signExtend 64 * BitVec.ofNat 64 (2 ^ m.scale.toNat) + m.off.signExtend 64

/-! ### Floating-point codes, by their fields (R75, R76) -/

/-- A code's magnitude bits, its sign bit, and whether it is a NaN, a signalling NaN, an infinity, a zero. -/
def fMag (f : Fmt) (x : Nat) : Nat := x % 2 ^ (f.width - 1)
def fNeg (f : Fmt) (x : Nat) : Bool := x.testBit (f.width - 1)
def fIsNan (f : Fmt) (x : Nat) : Bool := decide (f.topExp * 2 ^ f.m < fMag f x)
def fIsSnan (f : Fmt) (x : Nat) : Bool := fIsNan f x && !x.testBit (f.m - 1)
def fIsInf (f : Fmt) (x : Nat) : Bool := decide (fMag f x = f.topExp * 2 ^ f.m)
def fIsZero (f : Fmt) (x : Nat) : Bool := decide (fMag f x = 0)

/-- A NaN quieted: its sign and payload with the quiet bit set (R91). -/
def fQuiet (f : Fmt) (x : Nat) : Nat := x ||| 2 ^ (f.m - 1)

/-- The positive quiet NaN of payload 0. -/
def fCanon (f : Fmt) : Nat := f.topExp * 2 ^ f.m + 2 ^ (f.m - 1)

/-- A number whose order is that of the values, the two zeros alike; and with −0 below +0. -/
def fKey (f : Fmt) (x : Nat) : Int := if fNeg f x then -(fMag f x : Int) else (fMag f x : Int)
def fKeyZ (f : Fmt) (x : Nat) : Int := if fNeg f x then -(fMag f x : Int) - 1 else (fMag f x : Int)

/-- The flag NV, or no flag (R26). -/
def nvFlag (b : Bool) : Word := if b then 1 else 0

/-- The floating-point value of operand B. -/
def valueF (s : State) (g : Grp) (i : Nat) (ty : Ty) (b : SrcB) : Nat :=
  match b with
  | .op o => (reads s g 0 i (o, tyWide ty)).toNat % 2 ^ tyBits ty
  | .imm w => immVal ty w

/-- FADD, FSUB and FMUL, and when their operands, none of them a NaN, make an invalid operation (R91). -/
def floatBinary (ins : Instr) : Option (Vec2 × (Fmt → Nat → Nat → Bool)) :=
  match ins with
  | .fadd x _ => some (x, fun f a b => fIsInf f a && fIsInf f b && fNeg f a != fNeg f b)
  | .fsub x _ => some (x, fun f a b => fIsInf f a && fIsInf f b && fNeg f a == fNeg f b)
  | .fmul x _ => some (x, fun f a b => (fIsInf f a && fIsZero f b) || (fIsZero f a && fIsInf f b))
  | _ => none

/-- The truth of a condition of R126 and whether it sets NV on any NaN. -/
def fcmpHolds (f : Fmt) (c : FCond) (a b : Nat) : Bool :=
  let un := fIsNan f a || fIsNan f b
  match c with
  | .eq => !un && decide (fKey f a = fKey f b)
  | .ne => un || decide (fKey f a ≠ fKey f b)
  | .lt => !un && decide (fKey f a < fKey f b)
  | .le => !un && decide (fKey f a ≤ fKey f b)
  | .gt => !un && decide (fKey f a > fKey f b)
  | .ge => !un && decide (fKey f a ≥ fKey f b)
  | .un => un
  | .num => !un
def fcmpQuietNv (c : FCond) : Bool :=
  match c with
  | .lt | .le | .gt | .ge => true
  | _ => false

/-- The bit of R127 for a code of a wide format. -/
def classBit (f : Fmt) (x : Nat) : Nat :=
  if fIsNan f x then (if fIsSnan f x then 8 else 9)
  else if fIsInf f x then (if fNeg f x then 0 else 7)
  else if fIsZero f x then (if fNeg f x then 3 else 4)
  else if fMag f x < 2 ^ f.m then (if fNeg f x then 2 else 5)
  else if fNeg f x then 1 else 6

/-! ### Control instructions and control and status registers -/

/-- A control transfer: its fields, its sources, its target, and its link with the address the link takes (R103). -/
structure Transfer where
  com : Com
  srcs : List Src
  target : DWord
  link : List (Opnd × DWord)

def transferOf (s : State) (g : Grp) (i : Nat) (t : Thread) (ins : Instr) : Option Transfer :=
  let pc : DWord := BitVec.ofNat 64 t.pc
  let rel (w : Word) : DWord := pc + w.signExtend 64
  match ins with
  | .bra com off => some ⟨com, [], rel off, []⟩
  | .jmp com target => some ⟨com, [], target, []⟩
  | .brx com a => some ⟨com, [(a, false)], rel ((reads s g 0 i (a, false)).setWidth 32), []⟩
  | .call com link off => some ⟨com, [], rel off, [(link, pc + 12)]⟩
  | .callr com link a => some ⟨com, [(a, true)], reads s g 0 i (a, true), [(link, pc + 8)]⟩
  | .ret com a => some ⟨com, [(a, true)], reads s g 0 i (a, true), []⟩
  | _ => none

def Transfer.dsts (r : Transfer) : List Src := r.link.map fun x => (x.1, true)

/-- The registers of CSRR and CSRW as thread `i` of the group reads them. -/
def csrOf (s : State) (g : Grp) (i : Nat) (r : Csr) : DWord :=
  csrRead s g.core ((g.part s).bind s.part) (s.thread g.block i) r

/-- The partition of a group is present, where the register belongs to one (R25). -/
def CsrThere (s : State) (b : Block) (r : Csr) : Prop :=
  r.ofPart = true → ∃ p, b.part = some p ∧ s.part p ≠ none

/-- The three forms of CSRW: register number, operand, and the new value from the old one and the operand (R122). -/
def csrWriteForm (ins : Instr) : Option (Com × BitVec 12 × Opnd × (DWord → DWord → DWord)) :=
  match ins with
  | .csrw com reg a => some (com, reg, a, fun _ v => v)
  | .csrwSet com reg a => some (com, reg, a, fun old v => old ||| v)
  | .csrwClr com reg a => some (com, reg, a, fun old v => old &&& ~~~v)
  | _ => none

/-- The squad instructions: common fields, member mask, sources and destinations (R189, R194 to R198). -/
def squadForm (ins : Instr) : Option (Com × Word × List Src × List Src) :=
  match ins with
  | .shfl com mode _ wide dst a mask =>
    some (com, mask, (a, wide) :: (if mode = .idx then [(dst, false)] else []), [(dst, wide)])
  | .vote com _ dst a mask => some (com, mask, [(a, false)], [(dst, false)])
  | .matchKey com wide dst a mask => some (com, mask, [(a, wide)], [(dst, false)])
  | .sred com op dst a mask | .sscan com op _ dst a mask => some (com, mask, [(a, squadWide op)], [(dst, squadWide op)])
  | .ssync com mask => some (com, mask, [], [])
  | _ => none

/-! ### Read-modify-writes -/

/-- The new value of the word, or none where a compare fails, for the types read as integers; the floating-point ones are
those of the vector pipes (R265). -/
def newWord (op : AtomOp) (ty : Ty) (old a cmp : Nat) : Option Nat :=
  if ty = .f32 then atomNew op ty old a cmp
  else
    match op with
    | .add => some ((old + a) % 2 ^ tyBits ty)
    | .min => some (if asInt ty (BitVec.ofNat 64 a) < asInt ty (BitVec.ofNat 64 old) then a else old)
    | .max => some (if asInt ty (BitVec.ofNat 64 old) < asInt ty (BitVec.ofNat 64 a) then a else old)
    | .and => some (old &&& a)
    | .or => some (old ||| a)
    | .xor => some (old ^^^ a)
    | .exch => some a
    | .cas => if old = cmp then some a else none
    | .amax => atomNew op ty old a cmp

/-! ### Ferry words -/

/-- The elementwise ferry instructions: destination, sources, mask, the width of an element, and the element that each makes
of the elements of the sources and of the old destination (R409). -/
def ferryElementwise (ins : Instr) : Option (Fin 16 × Fin 16 × Fin 16 × Fin 4 × Nat × (Nat → Nat → Nat → Int)) :=
  let w (ty : FTy) : Nat := if ty = .i16 ∨ ty = .bf16 then 16 else 32
  let sg (ty : FTy) (x : Nat) : Int := (BitVec.ofNat (w ty) x).toInt
  let cl (ty : FTy) (sat : Bool) (x : Int) : Int := if sat then max (-(2 ^ (w ty - 1))) (min (2 ^ (w ty - 1) - 1) x) else x
  let fmt (ty : FTy) : Option Fmt := match ty with
    | .f32 => some .f32
    | .bf16 => some .bf16
    | _ => none
  let hw (half : Bool) : Nat := if half then 16 else 32
  match ins with
  | .vadd d a b m sat rnd ty => some (d, a, b, m, w ty, fun x y _ => match fmt ty with
    | some f => (fAdd f (FRnd.mode rnd) false x y).1
    | none => cl ty sat (sg ty x + sg ty y))
  | .vsub d a b m sat rnd ty => some (d, a, b, m, w ty, fun x y _ => match fmt ty with
    | some f => (fAdd f (FRnd.mode rnd) true x y).1
    | none => cl ty sat (sg ty x - sg ty y))
  | .vmul d a b m rnd ty => some (d, a, b, m, w ty, fun x y _ => match fmt ty with
    | some f => (fMul f (FRnd.mode rnd) x y).1
    | none => sg ty x * sg ty y)
  | .vfma d a b m rnd ty => some (d, a, b, m, w ty, fun x y z => match fmt ty with
    | some f => (fFma f (FRnd.mode rnd) false x y z).1
    | none => sg ty x * sg ty y + sg ty z)
  | .vmin d a b m ty => some (d, a, b, m, w ty, fun x y _ => match fmt ty with
    | some f => (fMinMax f false false x y).1
    | none => min (sg ty x) (sg ty y))
  | .vmax d a b m ty => some (d, a, b, m, w ty, fun x y _ => match fmt ty with
    | some f => (fMinMax f true false x y).1
    | none => max (sg ty x) (sg ty y))
  | .vand d a b m => some (d, a, b, m, 32, fun x y _ => (Nat.land x y : Nat))
  | .vor d a b m => some (d, a, b, m, 32, fun x y _ => (Nat.lor x y : Nat))
  | .vxor d a b m => some (d, a, b, m, 32, fun x y _ => (Nat.xor x y : Nat))
  | .vshl d a b m half => some (d, a, b, m, hw half, fun x y _ => (x * 2 ^ y : Nat))
  | .vshr d a b m arith half => some (d, a, b, m, hw half, fun x y _ =>
    if arith then (BitVec.ofNat (hw half) x).toInt / 2 ^ y else (x / 2 ^ y : Nat))
  | _ => none

/-- Element `k` of width `w` of a lane. -/
def laneElem (w : Nat) (x : Word) (k : Nat) : Nat := x.toNat / 2 ^ (w * k) % 2 ^ w

/-- The conversions of a lane (R410). -/
def laneConvert (form : FvCvt) (x y : Word) : Word :=
  let bf (v : Word) : Nat := (roundTo .bf16 .ieee false .rn 0 (FVal.ofBits .f32 .ieee v.toNat)).1
  match form with
  | .f32i32 => BitVec.ofNat 32 (roundTo .f32 .ieee false .rn 0 (FVal.ofInt x.toInt)).1
  | .i32f32 => BitVec.ofNat 32 (floatToInt 32 true .rn 0 (FVal.ofBits .f32 .ieee x.toNat)).1
  | .bf16f32 => BitVec.ofNat 32 (bf x + 2 ^ 16 * bf y)
  | .f32bf16lo => BitVec.ofNat 32 (roundTo .f32 .ieee false .rn 0 (FVal.ofBits .bf16 .ieee (x.toNat % 2 ^ 16))).1
  | .f32bf16hi => BitVec.ofNat 32 (roundTo .f32 .ieee false .rn 0 (FVal.ofBits .bf16 .ieee (x.toNat / 2 ^ 16))).1

/-- The comparisons of VCMP (R410). -/
def laneCompare (c : FvCond) (flt : Bool) (x y : Word) : Bool :=
  let f (c : FCond) : Bool := fcmpHolds .f32 c x.toNat y.toNat
  match c with
  | .eq => if flt then f .eq else decide (x = y)
  | .ne => if flt then f .ne else decide (x ≠ y)
  | .lt => if flt then f .lt else decide (x.toInt < y.toInt)
  | .le => if flt then f .le else decide (x.toInt ≤ y.toInt)
  | .ltu => decide (x.toNat < y.toNat)
  | .leu => decide (x.toNat ≤ y.toNat)
  | .un => f .un

/-- The scalar instructions: destination, and the value that each makes of the registers (R413). -/
def ferryScalarOf (r : FerryRun) (ins : Instr) : Option (Fin 16 × Word) :=
  let b (y : FSrc) : Word := match y with
    | .reg n => r.fs_ n
    | .imm w => BitVec.ofInt 32 (BitVec.ofNat 16 w.val).toInt
  match ins with
  | .sadd d a y => some (d, r.fs_ a + b y)
  | .ssub d a y => some (d, r.fs_ a - b y)
  | .sand d a y => some (d, r.fs_ a &&& b y)
  | .sor d a y => some (d, r.fs_ a ||| b y)
  | .sshl d a y => some (d, BitVec.ofNat 32 ((r.fs_ a).toNat * 2 ^ (b y).toNat))
  | .sshr d a y => some (d, BitVec.ofNat 32 ((r.fs_ a).toNat / 2 ^ (b y).toNat))
  | .smovi d false w => some (d, BitVec.ofInt 32 (BitVec.ofNat 16 w.val).toInt)
  | .smovi d true w => some (d, BitVec.ofNat 32 ((r.fs_ d).toNat % 2 ^ 16 + 2 ^ 16 * w.val))
  | _ => none

/-- The branches, and whether each is taken (R414). -/
def ferryBranchOf (r : FerryRun) (ins : Instr) : Option (Nat × Bool) :=
  match ins with
  | .br c a b disp =>
    let x := r.fs_ a
    let y := r.fs_ b
    some (disp.val, match c with
      | .eq => decide (x = y)
      | .ne => decide (x ≠ y)
      | .lt => decide (x.toInt < y.toInt)
      | .ge => decide (y.toInt ≤ x.toInt)
      | .ltu => decide (x.toNat < y.toNat)
      | .geu => decide (y.toNat ≤ x.toNat)
      | .always => true)
  | .brm c fm disp =>
    let set (l : Nat) : Bool := (r.mask fm).toNat.testBit l
    some (disp.val, match c with
      | .any => (List.range 32).any set
      | .none => !(List.range 32).any set
      | .all => (List.range 32).all set
      | .notall => !(List.range 32).all set)
  | _ => none

/-- The accesses to the window and to flow state: data register, address, whether it stores, whether it is of flow state,
whether it moves a vector (R417). -/
def ferryAccessOf (r : FerryRun) (ins : Instr) : Option (Fin 16 × Nat × Bool × Bool × Bool) :=
  let at' (a : Fin 16) (off : Fin 4096) : Nat := ((r.fs_ a).toNat + off.val) % 2 ^ 32
  match ins with
  | .pld d a v off => some (d, at' a off, false, false, v)
  | .pst d a v off => some (d, at' a off, true, false, v)
  | .sld d a v off => some (d, at' a off, false, true, v)
  | .sst d a v off => some (d, at' a off, true, true, v)
  | _ => none

/-- The cycles of a ferry word, but for corrected errors (R398); no word but a ferry word has any. -/
def ferryCyclesOf (ins : Instr) : Option Nat :=
  match ins with
  | .vadd _ _ _ _ _ _ _ | .vsub _ _ _ _ _ _ _ | .vmul _ _ _ _ _ _ | .vfma _ _ _ _ _ _ | .vmin _ _ _ _ _ | .vmax _ _ _ _ _
  | .vand _ _ _ _ | .vor _ _ _ _ | .vxor _ _ _ _ | .vshl _ _ _ _ _ | .vshr _ _ _ _ _ _ | .vsel _ _ _ _ _
  | .vcmp _ _ _ _ _ _ | .vcvt _ _ _ _ _ | .vbcast _ _ _ | .sadd _ _ _ | .ssub _ _ _ | .sand _ _ _ | .sor _ _ _
  | .sshl _ _ _ | .sshr _ _ _ | .smovi _ _ _ | .br _ _ _ _ | .brm _ _ _ | .rep _ _ _ | .ftrap _ _ | .fwd | .drop
  | .pset _ _ => some 1
  | .vred _ _ _ _ _ | .feval _ _ _ _ _ => some 2
  | .emit => some 4
  | .pld _ _ v _ | .pst _ _ v _ | .sld _ _ v _ | .sst _ _ v _ => some (if v then 2 else 1)
  | _ => none

/-! ### Near-bank micro-operations -/

/-- The elementwise micro-operations: condition, destination, operand A, operand B and whether it is a constant, type, and the
element that each makes of the elements of A, B and the old destination (R421, R422). -/
def nbElementwise (ins : Instr) : Option (NbCond × Fin 4 × Fin 4 × Fin 4 × Bool × NbTy × (Nat → Nat → Nat → Int)) :=
  let sg (x : Nat) : Int := (BitVec.ofNat 32 x).toInt
  let fmt (ty : NbTy) : Option Fmt := match ty with
    | .f32 => some .f32
    | .bf16 => some .bf16
    | .i32 => none
  match ins with
  | .nbadd d a b k ty rnd c => some (c, d, a, b, k, ty, fun x y _ => match fmt ty with
    | some f => (fAdd f (FRnd.mode rnd) false x y).1
    | none => sg x + sg y)
  | .nbsub d a b k ty rnd c => some (c, d, a, b, k, ty, fun x y _ => match fmt ty with
    | some f => (fAdd f (FRnd.mode rnd) true x y).1
    | none => sg x - sg y)
  | .nbmul d a b k ty rnd c => some (c, d, a, b, k, ty, fun x y _ => match fmt ty with
    | some f => (fMul f (FRnd.mode rnd) x y).1
    | none => sg x * sg y)
  | .nbfma d a b k ty rnd c => some (c, d, a, b, k, ty, fun x y z => match fmt ty with
    | some f => (fFma f (FRnd.mode rnd) false x y z).1
    | none => sg x * sg y + sg z)
  | .nbmin d a b k ty c => some (c, d, a, b, k, ty, fun x y _ => match fmt ty with
    | some f => (fMinMax f false false x y).1
    | none => min (sg x) (sg y))
  | .nbmax d a b k ty c => some (c, d, a, b, k, ty, fun x y _ => match fmt ty with
    | some f => (fMinMax f true false x y).1
    | none => max (sg x) (sg y))
  | _ => none

/-- The condition of a micro-operation (R419). -/
def nbCondOf (ins : Instr) : Option NbCond :=
  match ins with
  | .nbnop c | .nbld _ _ c | .nbst _ _ c | .nbzero _ c | .nbadd _ _ _ _ _ _ c | .nbsub _ _ _ _ _ _ c
  | .nbmul _ _ _ _ _ _ c | .nbfma _ _ _ _ _ _ c | .nbmin _ _ _ _ _ c | .nbmax _ _ _ _ _ c | .nbfold _ _ _ _ c
  | .nbout _ _ c => some c
  | _ => none

/-- Whether the condition holds: in every column, in the run's first, in the last of a row, in the run's last (R419). -/
def nbCondHolds (u : NbCur) (c : NbCond) : Prop :=
  match c with
  | .every => True
  | .first => u.r = 0 ∧ u.c = 0
  | .rowend => u.c = 31
  | .last => u.r + 1 = u.run.nrow ∧ u.c = 31

/-- Element `k` of a 256-bit value, of 32 bits, or of 16 in BF16. -/
def nbElem (ty : NbTy) (x k : Nat) : Nat :=
  let w := if ty = .bf16 then 16 else 32
  x / 2 ^ (w * k) % 2 ^ w

/-- The left fold of the elements by addition in increasing order (R422). -/
def nbFolded (ty : NbTy) (m : Rnd) (x : Nat) : Nat :=
  let add (a e : Nat) : Nat := match ty with
    | .f32 => (fAdd .f32 m false a e).1
    | .bf16 => (fAdd .bf16 m false a e).1
    | .i32 => (a + e) % 2 ^ 32
  ((List.range (if ty = .bf16 then 15 else 7)).map fun k => nbElem ty x (k + 1)).foldl add (nbElem ty x 0)

/-! ### Packets between packages -/

/-- A packet of operation `op` that arrives at its destination, with an element size that the header may name (R373). -/
def ForUs (s : State) (p : Packet) (op : Nat) : Prop := p.op = op ∧ p.esz ≤ 3 ∧ p.dpkg = s.harbour.pkg

/-- The answer to a request leaves for where it came from. -/
def answerOf (s : State) (p : Packet) (op imm : Nat) (data : List Byte) : OutMsg :=
  .packet { p with
    op := op
    oc := 0
    dpkg := p.spkg
    dstk := p.sstk
    spkg := s.harbour.pkg
    sstk := s.servedBy p.addr
    sag := 0x200 + s.servedBy p.addr
    imm := BitVec.ofNat 64 imm
    data := data }

/-- What has left the package since ends with a message. -/
def Sent (s s' : State) (m : OutMsg) : Prop := ∃ l, s'.outbox = s.outbox ++ l ++ [m]

/-- The bytes of `cells` are written, later ones over earlier ones, and every other byte reads as before. -/
def StoredCells (s s' : State) (cells : List Host.Cell) : Prop :=
  ∀ a, s'.byteAt a = cells.foldl (fun old c => if c.1 = a then c.2 else old) (s.byteAt a)

/-- The packets that write bytes at their home, and the bytes (R373, R374, R381). -/
def writePacket (ins : Instr) : Option (Packet × Nat × List Host.Cell) :=
  match ins with
  | .wrl p => some (p, 0x02, lineCells p)
  | .vsc p => some (p, 0x09, vecCells p)
  | .wbk p => some (p, 0x1A, lineCells p)
  | _ => none

/-- The packets that read and modify a word at its home: operation, type, and whether the old value is the answer (R265,
R266). -/
def atomPacket (ins : Instr) : Option (Packet × Nat × AtomOp × Ty × Bool) :=
  match ins with
  | .atm p op ty => some (p, 0x03, op, ty, true)
  | .rdc p op ty => some (p, 0x04, op, ty, false)
  | .amx p => some (p, 0x05, .exch, .b32, true)
  | _ => none

/-- What an access to DRAM of this package at single bytes finds: nothing stands in the way. -/
abbrev PlainByte (s : State) (a : Nat) : Prop := PlainPlace s a 1

/-! ### Requests of the host -/

/-- The header of a request that is answered at once, and whether minimal mode serves it (R464, R469). HELLO, RESET and MAP
have courses of their own. -/
def xcpRequest (ins : Instr) : Option (XcpHdr × Bool) :=
  match ins with
  | .inventory h | .startrep h | .attest h _ | .fwprov h _ _ _ => some (h, true)
  | .pcreate h _ _ | .pchange h _ _ | .pdestroy h _ | .jobgrant h _ | .xcpHail h _ _ | .rkey h _ _ | .topology h _
  | .pwrcap h _ | .telem h => some (h, false)
  | _ => none

/-- The device serves a request: it comes from the host, it is new and not stale, its header is sound, and no RESET is still
to be answered (R464). -/
structure Serves (s : State) (h : XcpHdr) : Prop where
  host : s.harbour.host = some h.src
  free : ∀ r ∈ s.harbour.rungs, r.seq = none
  new : ∀ r ∈ s.harbour.replies, r.seq ≠ h.seq
  recent : ∀ r, s.harbour.replies.head? = some r → r.seq ≤ h.seq
  ver : h.ver = 1
  len : h.len ≤ 8192

/-- The same, outside minimal mode. -/
structure ServesAll (s : State) (h : XcpHdr) : Prop where
  serves : Serves s h
  full : s.harbour.minimal = false

/-- The request is answered: status and reply leave, and the state is otherwise `t`. -/
def Replies (s : State) (ins : Instr) (h : XcpHdr) (t : State) (status : Nat) (body : ReplyBody) : Prop :=
  exec ins s = .next (t.reply h.seq status body)

/-- The bytes that a host write leaves at the pieces of its range. -/
def pieceCells : List (Nat × Nat) → List Byte → List Host.Cell
  | [], _ => []
  | x :: l, d => cellsAt x.1 (d.take x.2) ++ pieceCells l (d.drop x.2)

end Sys2Proof.Claims

open Sys2Proof Sys2Proof.Machine Sys2Proof.Claims

/-- Every instruction of the vector pipes that writes one destination answers a next state for every lone thread that
may issue it: the destination and the latch take one value, at most the five sticky flags are raised, and registers,
predicates, uniform registers, other threads, blocks, cores and all of memory are as they were (R55, R100). So does a pair
of P96, with a destination and a latch of each half (R49, R74). -/
def Obligations.VectorInstructionsComplete : Prop :=
  (∀ ins f, vecForm ins = some f → ∀ s g i b t x, CanForm s g i b t x f →
    ∃ v fl, fl.toNat < 32 ∧ FormWrote s g i b t x ins f v fl) ∧
  (∀ com ha hb s g i b t x, Alone s g i b t x → Active com t →
    (∀ y ∈ PairHalf.useSrcs ha, Readable t true y ∧ Fresh s g com 0 y) →
    (∀ y ∈ PairHalf.useSrcs hb, Readable t true y ∧ Fresh s g com 1 y) →
    (ha.out.wbs = false → Writable t (ha.out.dst, false)) → (hb.out.wbs = false → Writable t (hb.out.dst, false)) →
    ∃ s' t' va vb fl, exec (.pairP96 com ha hb) s = .next s' ∧ fl.toNat < 32 ∧
      Ran s s' g i b t x ((if ha.out.wbs then [] else [(ha.out.dst, false)]) ++ if hb.out.wbs then [] else [(hb.out.dst, false)])
        SregsOnly t' ∧ Quiet s s' ∧ t'.pc = t.pc + 12 ∧ t'.fpcsr = t.fpcsr ||| fl ∧
      (hb.out.wbs = false → Holds s' g.block i (hb.out.dst, false) vb) ∧
      Latches s' g 0 ha.out t.lane va ∧ Latches s' g 1 hb.out t.lane vb)

/-- ADD, SUB, MUL, MULH, DIV, REM, MIN and MAX, ABS and NEG: the result is the exact one of the operands as the type
reads them, clamped under .sat, modulo 2 ^ n; a division by 0 gives all ones and its remainder is the dividend (R108,
R111). No flag is raised. CMP writes 1 where its condition holds of the operands as the type reads them, else 0; SEL
takes a where its 32-bit c is not 0, else b; MAD adds its addends to the product modulo 2 ^ 32; FUNNEL shifts the 64-bit
word of b and a (R108, R113). -/
def Obligations.IntegerResults : Prop :=
  (
  (∀ ins y h f, ins.wf = true → intBinary ins = some (y, h) → vecForm ins = some f → ∀ s g i b t x, CanForm s g i b t x f →
    FormWrote s g i b t x ins f
      ((BitVec.ofInt (tyBits y.ty) (h (asInt y.ty (reads s g f.pipe i (y.a, tyWide y.ty)))
        (asInt y.ty (valueB s g f.pipe i y.ty y.b)))).setWidth 64) 0) ∧
  (∀ ins y h f, ins.wf = true → intUnary ins = some (y, h) → vecForm ins = some f → ∀ s g i b t x, CanForm s g i b t x f →
    FormWrote s g i b t x ins f
      ((BitVec.ofInt (tyBits y.ty) (h (asInt y.ty (reads s g f.pipe i (y.a, tyWide y.ty))))).setWidth 64) 0)) ∧
  (
  (∀ y c f, (Instr.cmp y c).wf = true → vecForm (.cmp y c) = some f → ∀ s g i b t x, CanForm s g i b t x f →
    (cmpHolds c (asInt y.ty (reads s g 0 i (y.a, tyWide y.ty))) (asInt y.ty (valueB s g 0 i y.ty y.b)) →
      FormWrote s g i b t x (.cmp y c) f 1 0) ∧
    (¬ cmpHolds c (asInt y.ty (reads s g 0 i (y.a, tyWide y.ty))) (asInt y.ty (valueB s g 0 i y.ty y.b)) →
      FormWrote s g i b t x (.cmp y c) f 0 0)) ∧
  (∀ y f, (Instr.sel y).wf = true → vecForm (.sel y) = some f → ∀ s g i b t x, CanForm s g i b t x f →
    FormWrote s g i b t x (.sel y) f
      (if reads s g 0 i (y.c, false) ≠ 0 then reads s g 0 i (y.a, tyWide y.ty) else reads s g 0 i (y.b, tyWide y.ty)) 0) ∧
  (∀ y f, (Instr.mad y).wf = true → vecForm (.mad y) = some f → ∀ s g i b t x, CanForm s g i b t x f →
    FormWrote s g i b t x (.mad y) f
      (low32 (reads s g 0 i (y.a, false) * reads s g 0 i (y.b, false) + reads s g 0 i (y.c, false) +
        (y.imm.getD 0).setWidth 64)) 0) ∧
  (∀ y f, (Instr.funnel y).wf = true → vecForm (.funnel y) = some f → ∀ s g i b t x, CanForm s g i b t x f →
    let w := pairOf ((reads s g 1 i (y.a, false)).setWidth 32) ((reads s g 1 i (y.b, false)).setWidth 32)
    let k := (reads s g 1 i (y.c, false)).toNat % 32
    FormWrote s g i b t x (.funnel y) f (if y.variant then (w <<< k) >>> 32 else low32 (w >>> k)) 0))

/-- AND, OR, XOR, ANDN, NOT and MOV: bit by bit over the width of the type (R108, R119). MOVI writes its immediate,
sign-extended from 32 bits where a pair takes IMM32 (R119). CLZ, CTZ and POPC count leading zeros, trailing zeros and
ones into 32 bits; BREV turns the word around; DHAM counts the bits in which its operands differ; DDOT adds the products
of its packed elements to c, clamped under .sat, modulo 2 ^ 32 (R108, R199, R200). -/
def Obligations.BitwiseAndCountResults : Prop :=
  (
  (∀ ins y h f, ins.wf = true → bitBinary ins = some (y, h) → vecForm ins = some f → ∀ s g i b t x,
    CanForm s g i b t x f →
      FormWrote s g i b t x ins f
        (cutTy y.ty (h (reads s g f.pipe i (y.a, tyWide y.ty)) (valueB s g f.pipe i y.ty y.b))) 0) ∧
  (∀ ins y h f, ins.wf = true → bitUnary ins = some (y, h) → vecForm ins = some f → ∀ s g i b t x,
    CanForm s g i b t x f →
      FormWrote s g i b t x ins f (cutTy y.ty (h (reads s g f.pipe i (y.a, tyWide y.ty)))) 0) ∧
  (∀ com out ty imm wide f, (Instr.movi com out ty imm wide).wf = true →
    vecForm (.movi com out ty imm wide) = some f → ∀ s g i b t x, CanForm s g i b t x f →
      FormWrote s g i b t x (.movi com out ty imm wide) f
        (if ty = .b64 ∧ wide = false then (imm.setWidth 32).signExtend 64 else imm) 0)) ∧
  (
  (∀ ins y h f, ins.wf = true → bitCount ins = some (y, h) → vecForm ins = some f → ∀ s g i b t x,
    CanForm s g i b t x f →
      FormWrote s g i b t x ins f (BitVec.ofNat 64 (h (tyBits y.ty) (reads s g 1 i (y.a, tyWide y.ty)))) 0) ∧
  (∀ y f, (Instr.brev y).wf = true → vecForm (.brev y) = some f → ∀ s g i b t x, CanForm s g i b t x f →
    ∃ v, FormWrote s g i b t x (.brev y) f v 0 ∧ ∀ k < 64, v.getLsbD k =
      (decide (k < tyBits y.ty) && (reads s g 1 i (y.a, tyWide y.ty)).getLsbD (tyBits y.ty - 1 - k))) ∧
  (∀ y f, (Instr.dham y).wf = true → vecForm (.dham y) = some f → ∀ s g i b t x, CanForm s g i b t x f →
    FormWrote s g i b t x (.dham y) f (BitVec.ofNat 64 (countBits (tyBits y.ty) fun k =>
      (reads s g 1 i (y.a, tyWide y.ty)).getLsbD k != (valueB s g 1 i y.ty y.b).getLsbD k)) 0) ∧
  (∀ com out x8 aUns bUns sat a b' c f, vecForm (.ddot com out x8 aUns bUns sat a b' c) = some f → ∀ s g i b t x,
    CanForm s g i b t x f →
    let w := if x8 then 4 else 8
    let elem (uns : Bool) (o : Opnd) (k : Nat) : Int :=
      let e := ((reads s g 1 i (o, false)) >>> (w * k)).setWidth w
      if uns then (e.toNat : Int) else e.toInt
    let r := ((List.range (if x8 then 8 else 4)).map fun k => elem aUns a k * elem bUns b' k).sum +
      ((reads s g 1 i (c, false)).setWidth 32).toInt
    FormWrote s g i b t x (.ddot com out x8 aUns bUns sat a b' c) f
      ((BitVec.ofInt 32 (if sat then max (-(2 ^ 31)) (min (2 ^ 31 - 1) r) else r)).setWidth 64) 0))

/-- SHL, SHR, SRA and ROT over the width of the type, with a count of the width or more as R110 lays down. -/
def Obligations.ShiftResults : Prop :=
  (∀ ins (y : Vec1) c h f, ins.wf = true → shiftFn (tyBits y.ty) ins = some (y, c, h) → vecForm ins = some f →
    ∀ s g i b t x, CanForm s g i b t x f →
      FormWrote s g i b t x ins f
        ((h ((reads s g 0 i (y.a, tyWide y.ty)).setWidth (tyBits y.ty)) (shiftCount s g i c)).setWidth 64) 0) ∧
  (∀ ins (y : Vec1) c h r, shiftFn (tyBits y.ty) ins = some (y, c, h) → encodeRaw ins = some r →
    (∀ n, c = .simm n → r.mod = 1 ∧ r.simm = n.toNat ∧ r.opb = 0) ∧ ∀ o, c = .op o → r.mod = 0 ∧ r.opb = o.code)

/-- BFX takes bits pos + len − 1 : pos of operand a, read as extended without bound, and extends them from len bits; BFI
replaces those bits of a by the low bits of b. The descriptor is a 32-bit operand with pos in bits 7:0 and len in bits
15:8 (R112). -/
def Obligations.BitFieldResults : Prop :=
  (∀ y f, (Instr.bfx y).wf = true → vecForm (.bfx y) = some f → ∀ s g i b t x, CanForm s g i b t x f →
    let d : DWord := match y.b with | .op o => reads s g 0 i (o, false) | .imm w => w.setWidth 64
    ∃ v, FormWrote s g i b t x (.bfx y) f v 0 ∧ ∀ k < 64, v.getLsbD k = (decide (k < tyBits y.ty) &&
      fieldBit y.ty (reads s g 0 i (y.a, tyWide y.ty)) (d.toNat % 256) (d.toNat / 256 % 256) k)) ∧
  (∀ y f, (Instr.bfi y).wf = true → vecForm (.bfi y) = some f → ∀ s g i b t x, CanForm s g i b t x f →
    let d := reads s g 0 i (y.c, false)
    ∃ v, FormWrote s g i b t x (.bfi y) f v 0 ∧ ∀ k < 64, v.getLsbD k = (decide (k < tyBits y.ty) &&
      insertBit (reads s g 0 i (y.a, tyWide y.ty)) (reads s g 0 i (y.b, tyWide y.ty)) (d.toNat % 256)
        (d.toNat / 256 % 256) k))

/-- LEA and LEAH give the effective address of R48, an offset of 32 bits in the scratch spaces; SWIN gives the window
address of a scratch offset; PLUT looks three truth values up; PMOV.get gathers the predicates and PMOV.set writes p0 to
p6 and the latch; BSEL picks bytes (R114 to R120). -/
def Obligations.AddressAndMoveResults : Prop :=
  (∀ com out m f, vecForm (.lea com out m) = some f → ∀ s g i b t x, CanForm s g i b t x f →
    let a := address m (reads s g 0 i (m.base, Space.far m.space)) (reads s g 0 i (m.index, false))
    FormWrote s g i b t x (.lea com out m) f (if m.space = .scratch ∨ m.space = .cluster then low32 a else a) 0) ∧
  (∀ com out m f, (Instr.leah com out m).wf = true → vecForm (.leah com out m) = some f → ∀ s g i b t x,
    CanForm s g i b t x f →
    FormWrote s g i b t x (.leah com out m) f
      (address m (reads s g 0 i (m.base, true)) (reads s g 0 i (m.index, false)) >>> 32) 0) ∧
  (∀ com out c a f, vecForm (.swin com out c a) = some f → ∀ s g i b t x, CanForm s g i b t x f →
    FormWrote s g i b t x (.swin com out c a) f
      (0x000FE00000000000 + (if c then 0x100000000 else 0) + reads s g 0 i (a, false)) 0) ∧
  (∀ com out tab a b' c f, vecForm (.plut com out tab a b' c) = some f → ∀ s g i b t x, CanForm s g i b t x f →
    let bit (o : Opnd) : Nat := if reads s g 0 i (o, false) = 0 then 0 else 1
    FormWrote s g i b t x (.plut com out tab a b' c) f
      (if tab.getLsbD (4 * bit a + 2 * bit b' + bit c) then 1 else 0) 0) ∧
  (∀ com out f, vecForm (.pmovGet com out) = some f → ∀ s g i b t x, CanForm s g i b t x f →
    FormWrote s g i b t x (.pmovGet com out) f
      (BitVec.ofNat 64 ((List.range 8).map fun k => if t.pred k then 2 ^ k else 0).sum) 0) ∧
  (∀ y f, (Instr.bsel y).wf = true → vecForm (.bsel y) = some f → ∀ s g i b t x, CanForm s g i b t x f →
    let w := pairOf ((reads s g 1 i (y.a, false)).setWidth 32) ((reads s g 1 i (y.b, false)).setWidth 32)
    let c : DWord := match y.imm with | some k => k.setWidth 64 | none => reads s g 1 i (y.c, false)
    ∃ v, FormWrote s g i b t x (.bsel y) f v 0 ∧ v.toNat < 2 ^ 32 ∧ ∀ k < 4, (v >>> (8 * k)).setWidth 8 =
      if c.getLsbD (8 * k + 7) then (0 : Byte) else (w >>> (8 * ((c.toNat / 2 ^ (8 * k)) % 8))).setWidth 8) ∧
  (∀ com lt a s g i b t x, CanIssueVec s g i b t x com ⟨true, .zero, lt⟩ 0 [(a, false)] false →
    ∃ s' t', exec (.pmovSet com lt a) s = .next s' ∧
      Ran s s' g i b t x ((List.range 7).map fun k => (.p (BitVec.ofNat 3 k), false)) SregsOnly t' ∧ Quiet s s' ∧
      t'.pc = t.pc + lenOf (.pmovSet com lt a) ∧ t'.fpcsr = t.fpcsr ∧
      (∀ k < 7, t'.pred k = (reads s g 0 i (a, false)).getLsbD k) ∧ t'.pred 7 = true ∧
      latchVal s' g 0 lt.toNat t.lane = reads s g 0 i (a, false) &&& 0x7F)

/-- ADDC and SUBB: the result modulo 2 ^ n with the carry in, and the carry predicate set by the exact result, even
under WBS; of the rest nothing changes but the destination and the latch (R109). A write of p7 is discarded. Where
both writes name one predicate, one of them stands. -/
def Obligations.CarryResults : Prop :=
  (
  ∀ (sub first : Bool) y (pk : BitVec 3), let ins : Instr := if sub then .subb y pk first else .addc y pk first
    ins.wf = true → ∀ s g i b t x,
    CanIssueVec s g i b t x y.com y.out 0 ((y.a, tyWide y.ty) :: srcsB y.b (tyWide y.ty)) (tyWide y.ty) →
    let n := tyBits y.ty
    let u (v : DWord) : Int := ((v.setWidth n).toNat : Int)
    let cin : Int := if first = false ∧ t.pred pk.toNat = true then 1 else 0
    let a := u (reads s g 0 i (y.a, tyWide y.ty))
    let b' := u (valueB s g 0 i y.ty y.b)
    let r := if sub then a - b' - cin else a + b' + cin
    let carry : Prop := if sub then r < 0 else 2 ^ n ≤ r
    let v : DWord := (BitVec.ofInt n r).setWidth 64
    ∃ s' t', exec ins s = .next s' ∧
      Ran s s' g i b t x ((.p pk, false) :: if y.out.wbs then [] else [(y.out.dst, tyWide y.ty)]) SregsOnly t' ∧
      Quiet s s' ∧ t'.pc = t.pc + lenOf ins ∧ t'.fpcsr = t.fpcsr ∧
      ((t'.pred pk.toNat = true ↔ pk = 7 ∨ carry) ∨ (y.out.wbs = false ∧ y.out.dst = .p pk ∧ Holds s' g.block i (.p pk, false) v)) ∧
      (y.out.wbs = false → y.out.dst ≠ .p pk → Holds s' g.block i (y.out.dst, tyWide y.ty) v) ∧
      Latches s' g 0 y.out t.lane v) ∧
  ∀ (sub first : Bool) y (pk : BitVec 3) r, encodeRaw (if sub then .subb y pk first else .addc y pk first) = some r →
    r.simm = pk.toNat + (if first then 8 else 0)

/-- A representable value is rounded to its own encoding, in every mode, and no flag is set: so every finite code of
every format goes through its exact value unchanged, negative zero included (R84). -/
def Obligations.RepresentableValuesRoundExactly : Prop :=
  ∀ (f : Fmt) (r : Reading) (sat : Bool) (mode : Rnd) (rb c : Nat), c < 2 ^ f.width →
    (FVal.ofBits f r c).isNan = false → (∀ neg, FVal.ofBits f r c ≠ .inf neg) →
    roundTo f r sat mode rb (FVal.ofBits f r c) = (c, Flags.none)

/-- FADD, FSUB and FMUL: with a NaN operand the result is the first NaN, quieted, with its sign and payload, and NV is
raised when one was signalling; an invalid operation gives the canonical NaN and raises NV (R91). FCMP and FCLASS of the
wide formats (R126, R127), and FMIN and FMAX with −0 below +0 and a lone NaN passed over but under .nan (R125). -/
def Obligations.FloatSpecialCases : Prop :=
  (∀ ins y bad f, ins.wf = true → floatBinary ins = some (y, bad) → vecForm ins = some f → ∀ s g i b t x,
    CanForm s g i b t x f →
    let fm := tyFmt y.ty
    let a := (reads s g 0 i (y.a, tyWide y.ty)).toNat % 2 ^ tyBits y.ty
    let c := valueF s g i y.ty y.b
    (fIsNan fm a = true ∨ fIsNan fm c = true → FormWrote s g i b t x ins f
      (BitVec.ofNat 64 (fQuiet fm (if fIsNan fm a then a else c))) (nvFlag (fIsSnan fm a || fIsSnan fm c))) ∧
    (fIsNan fm a = false → fIsNan fm c = false → bad fm a c = true →
      FormWrote s g i b t x ins f (BitVec.ofNat 64 (fCanon fm)) (nvFlag true))) ∧
  (∀ y c f, (Instr.fcmp y c).wf = true → vecForm (.fcmp y c) = some f → ∀ s g i b t x, CanForm s g i b t x f →
    let fm := tyFmt y.ty
    let a := (reads s g 0 i (y.a, tyWide y.ty)).toNat % 2 ^ tyBits y.ty
    let d := valueF s g i y.ty y.b
    FormWrote s g i b t x (.fcmp y c) f (if fcmpHolds fm c a d then 1 else 0)
      (nvFlag (if fcmpQuietNv c then fIsNan fm a || fIsNan fm d else fIsSnan fm a || fIsSnan fm d))) ∧
  (∀ (greater : Bool) y f, let ins : Instr := if greater then .fmax y else .fmin y
    ins.wf = true → vecForm ins = some f → ∀ s g i b t x, CanForm s g i b t x f →
    let fm := tyFmt y.ty
    let a := (reads s g 0 i (y.a, tyWide y.ty)).toNat % 2 ^ tyBits y.ty
    let d := valueF s g i y.ty y.b
    let pick : Nat := if greater then (if fKeyZ fm a < fKeyZ fm d then d else a) else if fKeyZ fm d < fKeyZ fm a then d else a
    let v : Nat :=
      if fIsNan fm a && (y.variant || fIsNan fm d) then fQuiet fm a
      else if fIsNan fm a then d
      else if fIsNan fm d then (if y.variant then fQuiet fm d else a)
      else pick
    FormWrote s g i b t x ins f (BitVec.ofNat 64 v) (nvFlag (fIsSnan fm a || fIsSnan fm d))) ∧
  (∀ y r e f, (Instr.fclass y r e).wf = true → (tyFmt y.ty).narrow = false → vecForm (.fclass y r e) = some f →
    ∀ s g i b t x, CanForm s g i b t x f →
    FormWrote s g i b t x (.fclass y r e) f (BitVec.ofNat 64 (2 ^ classBit (tyFmt y.ty)
      ((reads s g 0 i (y.a, tyWide y.ty)).toNat % 2 ^ tyBits y.ty))) 0)

/-- A pair of P96: both halves read their sources before either writes; each does what its unpaired counterpart does,
the first in pipe A, the second in pipe B; the second half's write stands where both name one destination (R49, R51,
R74). -/
def Obligations.PairResult : Prop :=
  ∀ com ha hb s g i b t x, Alone s g i b t x → Active com t →
    (∀ y ∈ PairHalf.useSrcs ha, Readable t true y ∧ Fresh s g com 0 y) →
    (∀ y ∈ PairHalf.useSrcs hb, Readable t true y ∧ Fresh s g com 1 y) →
    (ha.out.wbs = false → Writable t (ha.out.dst, false)) → (hb.out.wbs = false → Writable t (hb.out.dst, false)) →
    let val (h : PairHalf) (pipe : Nat) : Calc :=
      let l := (PairHalf.useSrcs h).map (reads s g pipe i)
      pairVal h.op (t.mode h.rnd) (l.getD 0 0).toNat (l.getD 1 0).toNat (l.getD 2 0).toNat
    let va := low32 (BitVec.ofNat 64 (val ha 0).1)
    let vb := low32 (BitVec.ofNat 64 (val hb 1).1)
    ∃ s' t', exec (.pairP96 com ha hb) s = .next s' ∧
      Ran s s' g i b t x ((if ha.out.wbs then [] else [(ha.out.dst, false)]) ++ if hb.out.wbs then [] else [(hb.out.dst, false)])
        SregsOnly t' ∧ Quiet s s' ∧ t'.pc = t.pc + 12 ∧
      t'.fpcsr = t.fpcsr ||| BitVec.ofNat 32 (val ha 0).2.bits ||| BitVec.ofNat 32 (val hb 1).2.bits ∧
      (hb.out.wbs = false → Holds s' g.block i (hb.out.dst, false) vb) ∧
      (ha.out.wbs = false → hb.out.wbs = true ∨ hb.out.dst ≠ ha.out.dst → Holds s' g.block i (ha.out.dst, false) va) ∧
      Latches s' g 0 ha.out t.lane va ∧ Latches s' g 1 hb.out t.lane vb

/-- A thread whose guard fails goes past a vector instruction, and nothing else of it changes (R40). The checks of R59
for a vector instruction: an operand that may not be read or written raises ILLEGAL_OPERAND, and where all may, a latch
that no member of the open chain has written raises LATCH_STALE (R18, R52, R53, R57). The thread takes the exception: it
is held past the instruction, with its registers as they were, and the record waits in its ring. -/
def Obligations.GuardsAndOperandExceptions : Prop :=
  (
  ∀ ins f, vecForm ins = some f → ∀ s g i b t x, Alone s g i b t x → ¬ Active f.com t →
    ∃ s' t', exec ins s = .next s' ∧ Ran s s' g i b t x [] SregsOnly t' ∧ Quiet s s' ∧
      t' = { t with pc := t.pc + lenOf ins }) ∧
  (
  ∀ ins f, vecForm ins = some f → ∀ s g i b t x, Alone s g i b t x → Active f.com t →
    ((∃ y ∈ f.srcs, ¬ Readable t true y) ∨ (f.out.wbs = false ∧ ¬ Writable t (f.out.dst, f.wide)) →
      Traps s g i b t ins [] (Exc.of .illegalOperand)) ∧
    ((∀ y ∈ f.srcs, Readable t true y) → (f.out.wbs = false → Writable t (f.out.dst, f.wide)) →
      (∃ y ∈ f.srcs, ¬ Fresh s g f.com f.pipe y) → Traps s g i b t ins [] (Exc.of .latchStale)))

/-- BRA, JMP, BRX, CALL, CALLR and RET: a thread whose target is a multiple of 4 goes there and the link takes the
address of the next instruction; another target raises ALIGN at the transfer, with the link unwritten and the operands
logged (R103, R104; that fault's ADDR, 0, is the model's choice, log 80). A source that may not be read, and a link that
is neither an even register nor 0x150, raise ILLEGAL_OPERAND (R52, R53, R103). -/
def Obligations.ControlTransfers : Prop :=
  (∀ ins r s g i b t x, transferOf s g i t ins = some r → Alone s g i b t x → Active r.com t →
    (∃ y ∈ r.srcs, ¬ Readable t false y) ∨ (∃ y ∈ r.link, ¬ Writable t (y.1, true) ∨ ∃ q, y.1 = .p q) →
    Traps s g i b t ins [] (Exc.of .illegalOperand)) ∧
  ∀ ins r s g i b t x, transferOf s g i t ins = some r → CanIssue s g i b t x r.com r.srcs r.dsts →
    (∀ y ∈ r.link, ∀ q, y.1 ≠ .p q) →
    (r.target.toNat % 4 = 0 →
      ∃ s' t', exec ins s = .next s' ∧ Ran s s' g i b t x r.dsts SregsOnly t' ∧ Quiet s s' ∧ t'.pc = r.target.toNat ∧
        t'.fpcsr = t.fpcsr ∧ ∀ y ∈ r.link, Holds s' g.block i (y.1, true) y.2) ∧
    (r.target.toNat % 4 ≠ 0 → Traps s g i b t ins (r.srcs.map (reads s g 0 i)) (Exc.of .align))

/-- NOP and FILLER_WORD only move the PC, by 8 and by 4; YIELD moves it by 8 and gives up the entry's active position;
EXIT ends the thread, and in boot mode makes the core ready; HALT holds a steward's thread unless an event or a hail is
pending, and a user's thread takes PRIVILEGE (R41, R37, R103, R105 to R107). Every squad instruction whose participants
are the members of the group answers a next state in which each of them has gone past it (R190, R191). -/
def Obligations.ThreadControl : Prop :=
  (∀ s g i b t x, Alone s g i b t x → ∃ s' t', exec .nop s = .next s' ∧ Ran s s' g i b t x [] SregsOnly t' ∧ Quiet s s' ∧
    t' = { t with pc := t.pc + 8 }) ∧
  (∀ s g i b t x, Alone s g i b t x → ∃ s' t', exec .filler s = .next s' ∧ Ran s s' g i b t x [] SregsOnly t' ∧
    Quiet s s' ∧ t' = { t with pc := t.pc + 4 }) ∧
  (∀ com s g i b t x, CanIssue s g i b t x com [] [] → ∃ s' t', exec (.yield com) s = .next s' ∧
    Ran s s' g i b t x [] SregsOnly t' ∧ Quiet s s' ∧ t' = { t with pc := t.pc + 8 } ∧
    ∃ en, s'.entry g.core g.e = some en ∧ en.pos = none ∧ en.marked = false) ∧
  (∀ com s g i b t x, CanIssue s g i b t x com [] [] → t.priv ≠ .boot →
    ∃ s', exec (.exit com) s = .next s' ∧ Kv.find i (s'.block g.block).threads = none) ∧
  (∀ com s g i b t x, CanIssue s g i b t x com [] [] → t.priv = .boot →
    ∃ s', exec (.exit com) s = .next s' ∧ (s'.core g.core).ready = true ∧ (s'.core g.core).entries = [] ∧
      (s'.core g.core).rf = [] ∧ (s'.core g.core).pad = [] ∧ s'.mem = s.mem) ∧
  (∀ com s g i b t x p y, CanIssue s g i b t x com [] [] → t.priv ≠ .user → b.part = some p → s.part p = some y →
    (y.eventPend = true ∨ 0 < y.pendCount →
      ∃ s' t', exec (.halt com) s = .next s' ∧ Ran s s' g i b t x [] SregsOnly t' ∧ t' = { t with pc := t.pc + 8 } ∧
        s'.mem = s.mem ∧ ∃ z, s'.part p = some z ∧ z.eventPend = false ∧ z.pendCount = 0) ∧
    (y.eventPend = false → y.pendCount = 0 →
      ∃ s', exec (.halt com) s = .next s' ∧ s'.mem = s.mem ∧ s'.part p = some y ∧
        s'.thread g.block i = { t with pc := t.pc + 8, stat := .held .halt, since := s.tick })) ∧
  (∀ com s g i b t x, CanIssue s g i b t x com [] [] → t.priv = .user →
    Traps s g i b t (.halt com) [] (Exc.of .privilege)) ∧
  (∀ ins com mask srcs dsts s g q, squadForm ins = some (com, mask, srcs, dsts) → SquadIssue s g q com mask srcs dsts →
    ∃ s', exec ins s = .next s' ∧ s'.mem = s.mem ∧ (∀ i ∈ g.members, (s'.thread g.block i).stat = .ready ∧
      (s'.thread g.block i).pc = (s.thread g.block i).pc + lenOf ins) ∧
      ∀ i, i ∉ g.members → s'.thread g.block i = s.thread g.block i)

/-- CSRR writes the register's value and changes nothing else; a register that needs more privilege raises PRIVILEGE,
and a number that names no register raises ILLEGAL_OPERAND (R25, R122). CSRW, CSRW.set and CSRW.clr: the register takes
the new value where R122 lets it, and every other register, the thread's own registers and memory stay as they were; a
read-only register or a value that breaks the register's rules raises ILLEGAL_OPERAND with the operand logged (R25, R26,
R33, R122, R245, R345). -/
def Obligations.ControlRegisters : Prop :=
  (
  (∀ com (reg : BitVec 12) dst r s g i b t x, Csr.ofNum reg.toNat = some r → CanIssue s g i b t x com [] [(dst, r.wide)] →
    r.level ≤ t.priv.level → CsrThere s b r →
    Done s g i b t x (.csrr com reg dst) [] [(dst, r.wide)] SregsOnly Quiet fun s' t' =>
      t'.fpcsr = t.fpcsr ∧ Holds s' g.block i (dst, r.wide) (csrOf s g i r)) ∧
  (∀ com (reg : BitVec 12) dst r s g i b t x, Csr.ofNum reg.toNat = some r → Alone s g i b t x → Active com t →
    t.priv.level < r.level → Traps s g i b t (.csrr com reg dst) [] (Exc.of .privilege)) ∧
  (∀ com (reg : BitVec 12) dst s g i b t x, Csr.ofNum reg.toNat = none → CanIssue s g i b t x com [] [(dst, false)] →
    Traps s g i b t (.csrr com reg dst) [] (Exc.of .illegalOperand))) ∧
  (
  ∀ ins com (reg : BitVec 12) a h r s g i b t x, csrWriteForm ins = some (com, reg, a, h) → Csr.ofNum reg.toNat = some r →
    CanIssue s g i b t x com [(a, r.wide)] [] → r.level ≤ t.priv.level → CsrThere s b r →
    let new := h (csrOf s g i r) (reads s g 0 i (a, r.wide))
    (r.readOnly = false → csrOk r new.toNat = true →
      ∃ s', exec ins s = .next s' ∧ csrOf s' g i r = new ∧ (∀ q ≠ r, csrOf s' g i q = csrOf s g i q) ∧ s'.mem = s.mem ∧
        (s'.thread g.block i).regs = t.regs ∧ (s'.thread g.block i).preds = t.preds ∧
        (s'.thread g.block i).pc = t.pc + lenOf ins ∧ (s'.thread g.block i).stat = .ready) ∧
    (r.readOnly = true ∨ csrOk r new.toNat = false →
      Traps s g i b t ins [reads s g 0 i (a, r.wide)] (Exc.of .illegalOperand)))

/-- What the agents of the package do of their own, and the words of ferry cores and near-bank units: none of them can meet
an address that no memory has. -/
def agentEvent (ins : Instr) : Bool :=
  match ins with
  | .coreReleaseFromReset _ | .entryFill _ | .issueSelect _ | .entryPromote _ | .entryEvict _ _ | .entrySwap _ _
  | .demotionMark _ | .engineOpComplete _ _ _ | .engineOpPark _ _ _ | .engineOpCancel _ _ _
  | .graphReplayRelease _ _ | .blockAdmit _ _ _ | .preemptRequest _ _ | .blockQuiesceSave _ _ | .blockRestore _ _ _
  | .candidateProtect _ _ | .rotation _ _ | .migration _ | .watchdogExpire _ _ | .rungQueue _ _ | .rungContext _ _
  | .rungEngine _ _ | .rungPartition _ | .rungDevice | .rungTimeout _ | .computeDieLost _ | .clf _ _ | .ferryInvoke _ _
  | .ferryImageLoadComplete _ | .tlbiComplete _ | .scrubComplete _ | .harvestComplete _ | .nbRunStart _ | .nbRowStep _ _
  | .nbResume _ | .nbForcedStep _ | .nbImageLoadComplete _ _ _ | .collLegStart _ _ _ | .collTimeout _ _
  | .collProgramComplete _ _ | .moorEntryEnd _ | .partitionWake _ | .hailWrite _ _ _ | .wakeBoundMissed _
  | .stackWakeAccess _ | .stackSelfRefresh _ | .marginLend _ _ | .marginRevoke _ | .sharedTurnEnd _ | .clfHoldExpire _
  | .rdl _ | .wrl _ | .atm _ _ _ | .rdc _ _ _ | .amx _ | .ctl _ _ | .vgt _ | .vsc _ | .fnc _ | .rsd _ | .rsa _ | .rse _
  | .pri _ | .prs _ | .wbk _ | .mgxTimestampSync _ | .mgxXcpForward _ | .mgxJobGrantCheck _ | .flitCrcReplay _ _
  | .strelarFrameReceive _ _ | .strelarRetrain _ _ | .remoteTimeout _ | .targetedRefresh _ _ _ _ | .deviceStart _
  | .coreReportTimeout _ | .startFail _ | .xcpEvent | .xcpEventResend | .xcpEventAck _ _ | .rdmaWrite _ _ _ _
  | .rdmaRead _ _ _ _ | .thermalThrottle _ _ | .bootThreadRelease _ _ | .coreReset _ | .hello _ _ | .inventory _
  | .startrep _ | .pcreate _ _ _ | .pchange _ _ _ | .pdestroy _ _ | .map _ _ _ | .jobgrant _ _ | .xcpHail _ _ _
  | .xcpReset _ _ _ | .rkey _ _ _ | .topology _ _ | .pwrcap _ _ | .telem _ | .attest _ _ | .fwprov _ _ _ _ => true
  | ins => (ferryCyclesOf ins).isSome || (nbCondOf ins).isSome

/-- What issue and completion leave alone. Issue moves the PC of the lone thread past the instruction, and of the rest
changes nothing but the timestamp latch. Completion writes the destinations named, and no other register, thread, block,
core or byte of memory; one result is what its destination then holds (R21, R52). The events of the package's agents, and
the words of ferry cores and near-bank units, answer a next state from every state. -/
def Obligations.IssueAndCompletionFrames : Prop :=
  (∀ s g i b t x ins srcs, Alone s g i b t x → let s' := issued s g i ins srcs
    let t' := { t with
      pc := t.pc + lenOf ins
      tsLatch := latched s t srcs }
    Ran s s' g i b t x [] SregsOnly t' ∧ Quiet s s' ∧ s'.reqs = s.reqs ∧
      Alone s' { g with pc := g.pc + lenOf ins } i (s'.block g.block) t' x) ∧
  (∀ s g i b t x ws, Alone s g i b t x → let s' := completed s g i ws
    Ran s s' g i b t x (ws.map (·.1)) SregsOnly (s'.thread g.block i) ∧ Quiet s s' ∧ (s'.thread g.block i).pc = t.pc ∧
      ∀ d v, ws = [(d, v)] → Holds s' g.block i d v) ∧
  (∀ s g i b t x h, Alone s g i b t x → let s' := heldAt s g i h
    s'.thread g.block i = { t with stat := .held h, since := s.tick } ∧ s'.entry g.core g.e = none ∧ Quiet s s' ∧
      (∀ j ≠ i, (s'.block g.block).thread j = b.thread j) ∧ ∀ k ≠ g.block, Kv.find k s'.blocks = Kv.find k s.blocks) ∧
  (∀ ins, agentEvent ins = true → ∀ s, ∃ t, exec ins s = .next t)

/-- MOVS reads a write pointer and a tile's control value, and writes a control value; TCFG writes one: a valid value of
a tile of the block, once the block's earlier matrix operations are over and, for TCFG, the engine's queue has room. A
tile that the block has not, or a value that R210 does not allow, raises ILLEGAL_OPERAND (R121, R208, R210, R211, R228,
R301). -/
def Obligations.TileControlAndWritePointers : Prop :=
  (∀ com ch dst s g i b t x, MayIssue s g i b t x com [] [(dst, false)] →
    Completes s g i (.movsReadWp com ch dst) (issued s g i (.movsReadWp com ch dst) [])
      [((dst, false), (Kv.get 0 ch.toNat x.wps).setWidth 64)]) ∧
  (∀ com tile dst s g i b t x, MayIssue s g i b t x com [] [(dst, false)] →
    (tile.toNat < b.ntile → Completes s g i (.movsReadTc com tile dst) (issued s g i (.movsReadTc com tile dst) [])
      [((dst, false), (x.tile tile.toNat).tc.setWidth 64)]) ∧
    (b.ntile ≤ tile.toNat → Traps s g i b t (.movsReadTc com tile dst) [] (Exc.of .illegalOperand))) ∧
  (∀ com tile (form : Bool) src s g i b t x,
    let srcs := if form then srcsB src false else [(match src with | .op o => o | .imm _ => .zero, false)]
    let ins : Instr := if form then .tcfg com tile src else .movsWriteTc com tile (match src with | .op o => o | .imm _ => .zero)
    MayIssue s g i b t x com srcs [] → x.headOp 8 = none → (form = true → Room s g) →
    let w : Word := match form, src with
      | true, .imm w => w
      | _, .op o => (reads s g 0 i (o, false)).setWidth 32
      | _, .imm _ => 0
    (tile.toNat < b.ntile → tcOk w.toNat = true → Completes s g i ins
      (inCore (issued s g i ins srcs) g t fun c => c.setTile tile.toNat ((c.tile tile.toNat).control w)) []) ∧
    (b.ntile ≤ tile.toNat ∨ tcOk w.toNat = false →
      Traps s g i b t ins (values s g i srcs) (Exc.of .illegalOperand)))

/-- TBL.LOAD takes an aligned, canonical image address and a reserved slot, and starts operation `n` of timeline 9 with
the shadow pending; the old shadow is dropped first, and a load that was pending there is cancelled: its number becomes
the first failed one where there was none (R146, R149, R150, R299). TBL.COMMIT waits for the loads of its slot; TBL.COMMIT,
TBL.EVAL, TBL.QUERY and TBL.DROP on a slot in each of its states (R144, R151 to R154). The oldest load's image, where it
stands in plain scratch, makes its slot's shadow ready or invalid. The selection instructions complete likewise: SEL.INIT
binds a context, SEL.PUSH adds a pair, SEL.DRAIN reads one (R204 to R207). -/
def Obligations.TableInstructions : Prop :=
  (
  ∀ com wide slot dst m s g i b t x, MayIssue s g i b t x com (memSrcs m) [(dst, false)] →
    let ins : Instr := .tblLoad com wide slot dst m
    let far := Space.far m.space
    let a := address m (reads s g 0 i (m.base, far)) (reads s g 0 i (m.index, false))
    let ea := (if far then a else low32 a).toNat
    let need := if wide then 2 else 1
    let y := x.setSlot slot.toNat { x.slot slot.toNat with shadow := .empty }
    let n := ((x.tl 9).issued + 1) % 2 ^ 32
    (ea % 64 ≠ 0 → Traps s g i b t ins (values s g i (memSrcs m)) ⟨.align, 0, 0, ea, 0⟩) ∧
    (ea % 64 = 0 → far = true → 2 ^ 52 ≤ ea → Traps s g i b t ins (values s g i (memSrcs m)) ⟨.addrRange, 0, 0, ea, 0⟩) ∧
    (x.ops.any (·.loads slot.toNat) = false → ea % 64 = 0 → (far = true → ea < 2 ^ 52) → y.freeSlots b.tslots < need →
      Traps s g i b t ins (values s g i (memSrcs m)) ⟨.tblSpace, slot.toNat, 0, 0, 0⟩) ∧
    (x.ops.any (·.loads slot.toNat) = false → ea % 64 = 0 → (far = true → ea < 2 ^ 52) → need ≤ y.freeSlots b.tslots →
      Completes s g i ins (inCore (issued s g i ins (memSrcs m)) g t fun c =>
        { c with
          tls := Kv.set Timeline.zero 9 { c.tl 9 with issued := n } c.tls
          ops := c.ops ++ [⟨9, n, .tblLoad slot.toNat, none, 0, .queued, t.pc, t.priv, 0, []⟩]
          tables := (y.setSlot slot.toNat
            { y.slot slot.toNat with shadow := .pending n ea need m.space t.priv }).tables }) (res dst n)) ∧
    (∀ o n' a' z sp pr, x.ops.find? (fun o => o.loads slot.toNat && !o.dropped) = some o →
      (x.slot slot.toNat).shadow = .pending n' a' z sp pr → ea % 64 = 0 → (far = true → ea < 2 ^ 52) →
      need ≤ y.freeSlots b.tslots → ∃ s', exec ins s = .next s' ∧ let x' := (s'.block g.block).bc t.bc
        (x'.slot slot.toNat).shadow = .pending n ea need m.space t.priv ∧
          (x'.tl 9).fail = (if (x.tl 9).fail = 0 then o.num else (x.tl 9).fail) ∧ (x'.tl 9).issued = n ∧
          Holds s' g.block i (dst, false) (BitVec.ofNat 64 n) ∧ (s'.thread g.block i).pc = t.pc + lenOf ins)) ∧
  (
  (∀ com slot dst s g i b t x, MayIssue s g i b t x com [] [(dst, false)] →
    let ins : Instr := .tblCommit com slot dst
    let s0 := issued s g i ins []
    let k := slot.toNat
    (x.ops.any (·.loads k) = true → exec ins s = .next (s.waitFor g.core g.e [.tblLoadComplete g.core g.block])) ∧
    (x.ops.any (·.loads k) = false → (∀ img n, (x.slot k).shadow = .ready img n →
      Completes s g i ins (inCore s0 g t fun c => c.setSlot k ⟨some (img, n), .empty⟩) (res dst img.version)) ∧
    ((x.slot k).shadow = .empty → Completes s g i ins s0 (res dst (x.slot k).version)) ∧
    (∀ r n, (x.slot k).shadow = .invalid r n → ∃ s', exec ins s = .next s' ∧
      Faulted s s' g i b t ins [] ⟨.tblFormat, k + 16 * r, 0, 0, 0⟩ ∧
      ((s'.block g.block).bc t.bc).slot k = ⟨(x.slot k).cur, .empty⟩) ∧
    (∀ a n c d e, (x.slot k).shadow = .pending a n c d e →
      exec ins s = .next (s.waitFor g.core g.e [.tblLoadComplete g.core g.block])))) ∧
  (∀ com ty rnd slot dst a s g i b t x, MayIssue s g i b t x com [(a, false)] [(dst, false)] →
    let ins : Instr := .tblEval com ty rnd slot dst a
    let k := slot.toNat
    ((x.slot k).cur = none → Traps s g i b t ins (values s g i [(a, false)]) ⟨.tblEmpty, k, 0, 0, 0⟩) ∧
    (∀ img n, (x.slot k).cur = some (img, n) →
      let v := tblIn ty ((reads s g 0 i (a, false)).toNat % 2 ^ tyBits ty)
      (∀ c, img.eval v = .error c → Traps s g i b t ins (values s g i [(a, false)]) ⟨c, k, 0, 0, 0⟩) ∧
      (∀ p, img.eval v = .ok p →
        Completes s g i ins (issued s g i ins [(a, false)]) (res dst (tblOut ty (t.mode rnd) p))))) ∧
  (∀ com (ver : Bool) slot dst s g i b t x, MayIssue s g i b t x com [] [(dst, false)] →
    let ins : Instr := .tblQuery com ver slot dst
    let y := x.slot slot.toNat
    Completes s g i ins (issued s g i ins []) (res dst (if ver then y.version else tblStatus x b.tslots y))) ∧
  (∀ com (sh : Bool) slot s g i b t x, MayIssue s g i b t x com [] [] →
    let ins : Instr := .tblDrop com sh slot
    x.ops.any (·.loads slot.toNat) = false → Completes s g i ins (inCore (issued s g i ins []) g t fun c => c.setSlot slot.toNat
      ⟨if sh then (c.slot slot.toNat).cur else none, .empty⟩) [])) ∧
  (
  (∀ s core tag b j op slot addr size pr, s.blockOn core tag = some (b, j) → (b.bc j).headOp 9 = some op →
    op.kind = .tblLoad slot → op.dropped = false → (b.bc j).stash = [] →
    ((b.bc j).slot slot).shadow = .pending op.num addr size .scratch pr →
    let img := scratchImage (b.bc j) addr
    addr + 64 + 24 * img.nseg ≤ b.scratch → (∃ i y, Kv.find i b.threads = some y) →
    ∃ s', exec (.tblLoadComplete core tag) s = .next s' ∧ s'.mem = s.mem ∧ let c := (s'.block tag).bc j
      (c.slot slot).shadow = (if img.reason size = 0 then .ready img size else .invalid (img.reason size) size) ∧
      (c.slot slot).cur = ((b.bc j).slot slot).cur ∧ c.scratch = (b.bc j).scratch) ∧
  (∀ com key max c dst a s g i b t x y, MayIssue s g i b t x com [(a, false)] [(dst, false)] →
    let ins : Instr := .selInit com key max c dst a
    let k := (reads s g 0 i (a, false)).toNat
    0 < k → k ≤ 64 → Kv.find c.toNat x.sel = some y → Completes s g i ins (inCore (issued s g i ins [(a, false)]) g t fun z =>
      { z with sel := Kv.insert c.toNat ⟨y.phys, key, max, k, [], false⟩ z.sel }) (res dst 1)) ∧
  (∀ com c a v s g i b t x y, MayIssue s g i b t x com [(a, false), (v, false)] [] → Kv.find c.toNat x.sel = some y →
    ∃ s', exec (.selPush com c a v) s = .next s' ∧ (s'.thread g.block i).pc = t.pc + lenOf (.selPush com c a v) ∧
      ∃ z, Kv.find c.toNat ((s'.block g.block).bc t.bc).sel = some z ∧ z.phys = y.phys ∧ z.k = y.k) ∧
  (∀ com form c dst a s g i b t x y, MayIssue s g i b t x com (if form = .cnt then [] else [(a, false)]) [(dst, true)] →
    Kv.find c.toNat x.sel = some y →
    ∃ s' v, exec (.selDrain com form c dst a) s = .next s' ∧ Holds s' g.block i (dst, true) v ∧
      (s'.thread g.block i).pc = t.pc + lenOf (.selDrain com form c dst a)))

/-- SEL.INIT binds a context of the core, SEL.PUSH keeps the best K pairs, and SEL.DRAIN reads the pair of a rank or the
count; a count outside 1 to 64 or an unbound context raises SEL_STATE (R202 to R207). A context keeps the K best pairs
in the order of its type, and a NaN key is discarded and noted (R205, R206). -/
def Obligations.SelectionInstructions : Prop :=
  (
  (∀ com key max c dst a s g i b t x, MayIssue s g i b t x com [(a, false)] [(dst, false)] →
    let ins : Instr := .selInit com key max c dst a
    let s0 := issued s g i ins [(a, false)]
    let k := (reads s g 0 i (a, false)).toNat
    let bind (p : Nat) : State := inCore s0 g t fun y => { y with sel := Kv.insert c.toNat ⟨p, key, max, k, [], false⟩ y.sel }
    let phys : Option Nat := match Kv.find c.toNat x.sel with
      | some y => some y.phys
      | none => s.freeCtx g.core
    (k = 0 ∨ 64 < k → Traps s g i b t ins (values s g i [(a, false)]) ⟨.selState, c.toNat, 0, 0, 0⟩) ∧
    (0 < k → k ≤ 64 → Completes s g i ins (phys.elim s0 bind) (res dst (if phys.isSome then 1 else 0)))) ∧
  (∀ com c a v s g i b t x, MayIssue s g i b t x com [(a, false), (v, false)] [] →
    let ins : Instr := .selPush com c a v
    let l := values s g i [(a, false), (v, false)]
    (Kv.find c.toNat x.sel = none → Traps s g i b t ins l ⟨.selState, c.toNat, 0, 0, 0⟩) ∧
    (∀ y, Kv.find c.toNat x.sel = some y → Completes s g i ins
      (inCore (issued s g i ins [(a, false), (v, false)]) g t fun z =>
        { z with
          sel := Kv.insert c.toNat (y.push ((reads s g 0 i (a, false)).toNat, (reads s g 0 i (v, false)).toNat)) z.sel })
      [])) ∧
  (∀ com form c dst a s g i b t x, let srcs : List Src := if form = .cnt then [] else [(a, false)]
    MayIssue s g i b t x com srcs [(dst, true)] →
    let ins : Instr := .selDrain com form c dst a
    (Kv.find c.toNat x.sel = none → Traps s g i b t ins (values s g i srcs) ⟨.selState, c.toNat, 0, 0, 0⟩) ∧
    (form ≠ .fin → ∀ y, Kv.find c.toNat x.sel = some y →
      let v : Nat × Nat := if form = .cnt then (y.entries.length, if y.nan then 1 else 0)
        else y.entries.getD (reads s g 0 i (a, false)).toNat y.emptyPair
      Completes s g i ins (issued s g i ins srcs) [((dst, true), BitVec.ofNat 64 (v.1 + v.2 * 2 ^ 32))]) ∧
    (form = .fin → ∀ y, Kv.find c.toNat x.sel = some y →
      let v := y.entries.getD (reads s g 0 i (a, false)).toNat y.emptyPair
      ∃ s', exec ins s = .next s' ∧ Holds s' g.block i (dst, true) (BitVec.ofNat 64 (v.1 + v.2 * 2 ^ 32)) ∧
        Kv.find c.toNat ((s'.block g.block).bc t.bc).sel = none ∧ Quiet s s' ∧
        (s'.thread g.block i).pc = t.pc + lenOf ins))) ∧
  (
  ∀ (c : SelCtx) e, c.entries.Pairwise (fun a b => c.rank a ≤ c.rank b) → c.entries.length ≤ c.k → e.1 < 2 ^ 32 →
    let c' := c.push e
    c'.entries.Pairwise (fun a b => c.rank a ≤ c.rank b) ∧ c'.entries.length ≤ c.k ∧
    (∀ x ∈ c'.entries, x ∈ e :: c.entries) ∧ c'.k = c.k ∧
    (c.key = .f32 ∧ fIsNan .f32 e.1 = true → c'.nan = true ∧ c'.entries = c.entries) ∧
    (¬ (c.key = .f32 ∧ fIsNan .f32 e.1 = true) → c'.nan = c.nan ∧
      ∀ y ∈ e :: c.entries, y ∉ c'.entries → ∀ x ∈ c'.entries, c.rank x ≤ c.rank y))

/-- SHFL gives each participant the value of its source member, its own where that member takes no part; VOTE, MATCH,
SRED and SSCAN give what R195 to R197 compute over the active participants, in order of member number; SSYNC has no
register effect. Every participant goes past the instruction, and nothing else changes (R189 to R198). A squad
instruction whose mask does not name the thread that issues it raises SQUAD_MASK there; one whose mask names a
participant that has not arrived holds the thread in slot state, at the instruction (R190, R191). -/
def Obligations.SquadResults : Prop :=
  (
  (∀ s g q com mode (k : BitVec 5) (wide : Bool) dst a mask,
    let srcs : List Src := (a, wide) :: if mode = .idx then [(dst, false)] else []
    SquadIssue s g q com mask srcs [(dst, wide)] →
    SquadDone s g (.shfl com mode k wide dst a mask) [(dst, wide)] fun i =>
      let from' : Option Nat := match mode with
        | .idx => some ((reads s g 0 i (dst, false)).toNat % 32)
        | .up => if k.toNat ≤ i % 32 then some (i % 32 - k.toNat) else none
        | .down => some (i % 32 + k.toNat)
        | .xor => some (Nat.xor (i % 32) k.toNat)
      match from' with
      | some m => if m < 32 ∧ 32 * q + m ∈ g.members then reads s g 0 (32 * q + m) (a, wide) else reads s g 0 i (a, wide)
      | none => reads s g 0 i (a, wide)) ∧
  (∀ s g q com form dst a mask, SquadIssue s g q com mask [(a, false)] [(dst, false)] →
    let yes (i : Nat) : Bool := reads s g 0 i (a, false) != 0
    let all := g.members.all yes
    SquadDone s g (.vote com form dst a mask) [(dst, false)] fun _ =>
      match form with
      | .all => if all then 1 else 0
      | .any => if g.members.any yes then 1 else 0
      | .same => if all ∨ g.members.any yes = false then 1 else 0
      | .mask => BitVec.ofNat 64 ((g.members.filter yes).map fun i => 2 ^ (i % 32)).sum
      | .cnt => BitVec.ofNat 64 (g.members.filter yes).length) ∧
  (∀ s g q com (wide : Bool) dst a mask, SquadIssue s g q com mask [(a, wide)] [(dst, false)] →
    SquadDone s g (.matchKey com wide dst a mask) [(dst, false)] fun i => BitVec.ofNat 64
      ((g.members.filter fun j => reads s g 0 j (a, wide) == reads s g 0 i (a, wide)).map fun j => 2 ^ (j % 32)).sum) ∧
  (∀ s g q com op (scan excl : Bool) dst a mask,
    SquadIssue s g q com mask [(a, squadWide op)] [(dst, squadWide op)] →
    let ins : Instr := if scan then .sscan com op excl dst a mask else .sred com op dst a mask
    SquadDone s g ins [(dst, squadWide op)] fun i =>
      let takes (j : Nat) : Bool := !scan || decide (j < i) || (!excl && j == i)
      BitVec.ofNat 64 (squadFold op
        ((((s.block g.block).participants q mask.toNat).filter takes).map fun j => (reads s g 0 j (a, squadWide op)).toNat))) ∧
  (∀ s g q com mask, SquadIssue s g q com mask [] [] → SquadDone s g (.ssync com mask) [] fun _ => 0)) ∧
  (
  ∀ ins com mask srcs dsts s g i b t x, squadForm ins = some (com, mask, srcs, dsts) → MayIssue s g i b t x com srcs dsts →
    (∀ e en, s.entry g.core e = some en → en.members ≠ [] ∧ (e ≠ g.e → en.block = g.block → i ∉ en.members)) →
    (mask.toNat.testBit (i % 32) = false → (b.participants (i / 32) mask.toNat = [] ∨
        ∃ j ∈ b.participants (i / 32) mask.toNat, s.arrived g.block g.pc j = false) →
      Traps s g i b t ins (values s g i srcs) (Exc.of .squadMask)) ∧
    (mask.toNat.testBit (i % 32) = true →
      (∃ j ∈ b.participants (i / 32) mask.toNat, j ≠ i ∧ s.arrived g.block g.pc j = false) →
      ∃ s', exec ins s = .next s' ∧ s'.mem = s.mem ∧ s'.entry g.core g.e = none ∧
        s'.thread g.block i = { t with stat := .held (.squad mask.toNat), since := s.tick } ∧
        ∀ j ≠ i, (s'.block g.block).thread j = b.thread j))

/-- Where the matrix engine's queue of 8 is full, no matrix instruction issues, and its thread waits for the oldest
operation (R213). Else TZERO, MMA, MMAT and MMAP check their tiles at issue and take the next number of timeline 8; the
operation holds the control values, the lanes and the scale values that stood at issue, and runs in engine order (R208,
R212, R213, R216 to R220, R222, R227). TLD and TST read the tensor record, check it against the tile, and take the next
number of timeline 8; TLD gives the tile the shape of the box at once (R224, R225, R304, R305). `s1` is the state after
the record has been read. Which tile the DETAIL of a failed check names is the model's choice (log 62). -/
def Obligations.MatrixOperationsIssue : Prop :=
  (∀ ins s g i b t x, matrixForm ins = true → Alone s g i b t x → t.priv ≠ .boot → ¬ Room s g →
    exec ins s = .next (s.waitFor g.core g.e [.matrixOpComplete g.core .agrees])) ∧
  (
  (∀ com (all : Bool) td dst s g i b t x, MayIssue s g i b t x com [] [(dst, false)] → Room s g →
    let ins : Instr := .tzero com all td dst
    (td.toNat < b.ntile → Queues s g i x t ins (issued s g i ins [])
      (.tzero all td.toNat (tcRows (x.tile td.toNat).tc.toNat) [t.lane]) dst id) ∧
    (b.ntile ≤ td.toNat → Traps s g i b t ins [] (Exc.of .illegalOperand))) ∧
  (∀ com td ta tb c acc (sigma : Option Opnd) (k : BitVec 10) dst s g i b t x,
    let srcs : List Src := match sigma with | some y => [(y, false)] | none => []
    MayIssue s g i b t x com srcs [(dst, false)] → Room s g →
    let ins : Instr := .mma com td ta tb c acc sigma k dst
    let used := [td.toNat, ta.toNat, tb.toNat] ++ (match c with | .tile y => [y.toNat] | _ => [])
    let tc (n : Nat) : Nat := (x.tile n).tc.toNat
    ((∀ n ∈ used, n < b.ntile) → mmaOk x td.toNat ta.toNat tb.toNat c k
        (mmaFormats (tcTy (tc ta.toNat)) (tcTy (tc tb.toNat)) (tcTy (tc td.toNat)) acc) = true →
      (∀ n ∈ [ta.toNat, tb.toNat] ++ accTiles td.toNat c, failedTile x n = false) →
      Queues s g i x t ins (issued s g i ins srcs)
        (.mma td.toNat ta.toNat tb.toNat c acc (sigma.map fun y => [(t.lane, (reads s g 0 i (y, false)).toNat)])
          (if k = 0 then tcElems (tc ta.toNat) else k.toNat) (if t.lane < tcRows (tc td.toNat) then [t.lane] else [])
          (tcsOf x used)) dst id) ∧
    ((∃ n ∈ used, b.ntile ≤ n) → Traps s g i b t ins (values s g i srcs) (Exc.of .illegalOperand)) ∧
    (∀ n, (∀ n ∈ used, n < b.ntile) → used.find? (fun n => tc n == 0) = some n →
      Traps s g i b t ins (values s g i srcs) ⟨.tileCfg, n, 0, 0, 0⟩) ∧
    ((∀ n ∈ used, n < b.ntile ∧ tc n ≠ 0) → mmaOk x td.toNat ta.toNat tb.toNat c k
        (mmaFormats (tcTy (tc ta.toNat)) (tcTy (tc tb.toNat)) (tcTy (tc td.toNat)) acc) = false →
      Traps s g i b t ins (values s g i srcs) ⟨.tileCfg, td.toNat, 0, 0, 0⟩)) ∧
  (∀ com td ta tb c (k : BitVec 10) dst s g i b t x, MayIssue s g i b t x com [] [(dst, false)] → Room s g →
    let ins : Instr := .mmat com td ta tb c k dst
    let used := [td.toNat, ta.toNat, tb.toNat] ++ (match c with | .tile y => [y.toNat] | _ => [])
    let ty (n : Nat) : Ty := tcTy (x.tile n).tc.toNat
    (∀ n ∈ used, n < b.ntile) → mmaOk x td.toNat ta.toNat tb.toNat c k
      (ty ta.toNat == .t3 && (ty tb.toNat == .i8 || ty tb.toNat == .n8) && ty td.toNat == .i32) = true →
    (∀ n ∈ [ta.toNat, tb.toNat] ++ accTiles td.toNat c, failedTile x n = false) →
    Queues s g i x t ins (issued s g i ins [])
      (.mmat td.toNat ta.toNat tb.toNat c (if k = 0 then tcElems (x.tile ta.toNat).tc.toNat else k.toNat)
        (if t.lane < tcRows (x.tile td.toNat).tc.toNat then [t.lane] else []) (tcsOf x used)) dst id) ∧
  (∀ com (td ta : BitVec 4) dst row s g i b t x, MayIssue s g i b t x com [(row, false)] [(dst, false)] → Room s g →
    let ins : Instr := .mmap com td ta dst row
    let wd := (x.tile td.toNat).tc.toNat
    let wa := (x.tile ta.toNat).tc.toNat
    td.toNat < b.ntile → ta.toNat < b.ntile → wd ≠ 0 → wa ≠ 0 →
    (tcFmt wd = tcFmt wa ∧ tcSvr wd = tcSvr wa ∧ tcBs wd = tcBs wa ∧ tcCw wd = tcCw wa →
      (failedTile x ta.toNat = false → Queues s g i x t ins (issued s g i ins [(row, false)])
        (.mmap td.toNat ta.toNat (if t.lane < tcRows wd then [(t.lane, (reads s g 0 i (row, false)).toNat)] else [])
          (tcsOf x [td.toNat, ta.toNat])) dst id) ∧
      (failedTile x ta.toNat = true →
        Traps s g i b t ins (values s g i [(row, false)]) ⟨.mmaCheck, ta.toNat, 0, 0, 0⟩)) ∧
    (¬ (tcFmt wd = tcFmt wa ∧ tcSvr wd = tcSvr wa ∧ tcBs wd = tcBs wa ∧ tcCw wd = tcCw wa) →
      Traps s g i b t ins (values s g i [(row, false)]) ⟨.tileCfg, td.toNat, 0, 0, 0⟩))) ∧
  (
  ∀ com (td : BitVec 4) (store : Bool) rnd (sat : Bool) dst rec coord s g i b t x,
    let srcs : List Src := (rec, true) :: groupOps 5 coord
    let ins : Instr := if store then .tst com td rnd sat dst rec coord else .tld com td dst rec coord
    MayIssue s g i b t x com srcs [(dst, false)] → Room s g →
    let va := (reads s g 0 i (rec, true)).toNat
    let cs := (values s g i (groupOps 5 coord)).map fun v => (v.setWidth 32).toInt
    let s0 := issued s g i ins srcs
    (b.ntile ≤ td.toNat → Traps s g i b t ins (values s g i srcs) (Exc.of .illegalOperand)) ∧
    (td.toNat < b.ntile → ∀ w s1, readRecord s0 g i va = .ok (w, s1) →
      ((s1.block g.block).bc t.bc).tl 8 = x.tl 8 →
      (tBad w (cs.getD 0 0) = false → store = false → ∀ tc, boxTc w = some tc →
        Queues s g i x t ins s1 (.tld td.toNat (recWords w) va cs) dst fun s2 =>
          inCore s2 g t fun c => c.setTile td.toNat { c.tile td.toNat with tc := tc }) ∧
      (tBad w (cs.getD 0 0) = false → store = true → let y := x.tile td.toNat
        y.tc ≠ 0 → tcBs y.tc.toNat = 0 → tRows w = tcRows y.tc.toNat → tBox w 0 = tcElems y.tc.toNat → tSblk w = 0 →
        tstFormats y.tc.toNat w = true → (boxTc w).isSome = true → failedTile x td.toNat = false →
        Queues s g i x t ins s1 (.tst td.toNat (recWords w) va cs (t.mode rnd) sat y.tc) dst id)))

/-- TROW reads and writes the lane's own row of a tile, TCHK reads the status word and clears it under .clr; both act
when the block's earlier matrix operations are over and the engine's queue has room (R211, R213, R214, R226, R229). -/
def Obligations.TileRows : Prop :=
  (∀ com form (td : BitVec 4) data off imm s g i b t x, let d : Src := (data, trowWide form)
    let srcs : List Src := (off, false) :: if trowWrite form then [d] else []
    MayIssue s g i b t x com srcs (if trowWrite form then [] else [d]) → x.headOp 8 = none → Room s g →
    let ins : Instr := .trow com form td data off imm
    let y := x.tile td.toNat
    let w := y.tc.toNat
    let n := if trowWide form then 8 else 4
    let o := imm.toNat + (reads s g 0 i (off, false)).toNat
    let limit := if trowSc form then 16 else 4 * tcCw w
    (b.ntile ≤ td.toNat → Traps s g i b t ins (values s g i srcs) (Exc.of .illegalOperand)) ∧
    (td.toNat < b.ntile → w = 0 → Traps s g i b t ins (values s g i srcs) ⟨.tileCfg, td.toNat, 0, 0, 0⟩) ∧
    (td.toNat < b.ntile → w ≠ 0 → (trowSc form = true → tcBs w ≠ 0) → (trowWrite form = false → y.failed = false) →
      (t.lane < tcRows w → o % n = 0 → o + n ≤ limit → o + n ≤ 256 →
        (trowWrite form = false → ∃ v, Completes s g i ins (issued s g i ins srcs) [(d, v)] ∧ ∀ k < n,
          (v >>> (8 * k)).setWidth 8 = if trowSc form then y.scaleAt t.lane (o + k) else y.byte t.lane (o + k)) ∧
        (trowWrite form = true → ∃ y', Completes s g i ins
            (inCore (issued s g i ins srcs) g t fun c => c.setTile td.toNat y') [] ∧ y'.tc = y.tc ∧
          (trowSc form = false → ∀ r, ∀ k < 256, y'.byte r k =
            if r = t.lane ∧ o ≤ k ∧ k < o + n then (reads s g 0 i d >>> (8 * (k - o))).setWidth 8
            else y.byte r k))) ∧
      (tcRows w ≤ t.lane ∨ o % n ≠ 0 ∨ limit < o + n →
        Traps s g i b t ins (values s g i srcs) ⟨.tileRange, td.toNat, 0, 0, 0⟩))) ∧
  (∀ com (clr : Bool) dst s g i b t x, MayIssue s g i b t x com [] [(dst, false)] → x.headOp 8 = none → Room s g →
    let ins : Instr := .tchk com clr dst
    let s0 := issued s g i ins []
    Completes s g i ins (if clr then inCore s0 g t fun c => { c with mstat := 0 } else s0)
      (res dst (x.mstat.toNat % 2 ^ 16 + (x.tiles.map fun y => if y.2.failed then 2 ^ (16 + y.1) else 0).sum)))

/-- MATRIX_OP_COMPLETE performs the oldest operation whose block does not stand parked: a product that agrees or agrees
after a rerun writes its rows; one that disagrees again marks D failed, sets the sticky bits of the computed rows and sends
a record (R213, R214, R222, R229). A TLD clears the failed mark once it has written the tile (R223). One
element of a product of integer tiles is the accumulator plus the sum of the products, modulo 2 ^ 32; TZERO clears rows
and MMAP copies them by the lane's row number, zeros where it names no row (R99, R216 to R220, R227). -/
def Obligations.MatrixOperationsComplete : Prop :=
  (
  ∀ s core k j op outcome, s.matrixHead core = some (k, j, op) →
    let ends_ (s : State) : State := s.matrixDone core k j op.num
    let step := exec (.matrixOpComplete core outcome) s
    (∀ all td rows lanes, op.kind = .tzero all td rows lanes → step = .next (ends_ (s.modBc k j (·.perform op.kind)))) ∧
    (∀ td ta rows tcs, op.kind = .mmap td ta rows tcs → step = .next (ends_ (s.modBc k j (·.perform op.kind)))) ∧
    (∀ td, (∃ ta tb c acc sg n lanes tcs, op.kind = .mma td ta tb c acc sg n lanes tcs) ∨
        (∃ ta tb c n lanes tcs, op.kind = .mmat td ta tb c n lanes tcs) →
      (outcome = .agrees → step = .next (ends_ (s.modBc k j (·.perform op.kind)))) ∧
      (outcome = .rerun → step = .next (ends_ (s.modBc k j fun c => (c.perform op.kind).rerun))) ∧
      (outcome = .mismatch → ∃ r, r.kind = 0x02 ∧ r.held = false ∧ r.detail = td ∧ r.opnum = op.num ∧
        step = .next (ends_ ((s.modBc k j fun c => ({ c with mstat := (c.perform op.kind).mstat }.setTile td
          { c.tile td with failed := true }).rerun).sendBlockRecord k r)))) ∧
    (∀ td rec a cs s1 u, op.kind = .tld td rec a cs → op.done = 0 →
      tldRun k j op td (recNat rec) cs (tldUnits (recNat rec)) 0
        (s.modBc k j (·.reshape op.kind)) = (s1, u, none) → tldTern s1 k j td (recNat rec) = false →
      step = .next (ends_ (s1.modBc k j fun c => c.setTile td { c.tile td with failed := false })))) ∧
  (
  (∀ (c : BlockCore) tcs td ta tb sg k i j, ∀ v, v = (mmaElem c tcs td ta tb .inPlace .i32 sg k i j).1 →
    (v : Int) = (((c.tile td).elem (tcAt tcs td) i j : Int) +
      ((List.range k).map fun n => (c.tile ta).int (tcAt tcs ta) i n * (c.tile tb).int (tcAt tcs tb) j n).sum) % 2 ^ 32) ∧
  (∀ (c : BlockCore) (all : Bool) td rows lanes r k, k < 256 →
    let y := (c.perform (.tzero all td rows lanes)).tile td
    let hit : Prop := all = true ∨ (r < rows ∧ r ∈ lanes)
    (hit → y.byte r k = 0) ∧ (¬ hit → y.byte r k = (c.tile td).byte r k) ∧ y.tc = (c.tile td).tc ∧
      y.failed = ((c.tile td).failed && !all)) ∧
  (∀ (c : BlockCore) td ta tcs r m, ∀ k < 256,
    ((c.perform (.mmap td ta [(r, m)] tcs)).tile td).byte r k =
      if m < tcRows (tcAt tcs ta) then (c.tile ta).byte m k else 0))

/-- LD from scratch and from DRAM: the destinations receive the bytes at the effective address, little-endian, extended
by type; ST writes them, and no other byte changes (R8, R134, R135, R232, R256 to R261). -/
def Obligations.LoadsAndStores : Prop :=
  (∀ com ty (quad : Bool) ord dst m s g i b t x, CanIssue s g i b t x com (memSrcs m) (dataOps true ty quad dst) →
    s.lazyMem = false → (Instr.ld com ty quad ord dst m).wf = true →
    let ins : Instr := .ld com ty quad ord dst m
    let n := accessBytes ty quad
    let ea := eaNow s g i m
    let s0 := issued s g i ins (memSrcs m)
    let ws (v : Nat) := spread (dataOps true ty quad dst) (if quad then v else loadExt ty v)
    (PlainScratch b t x m ea n → ∃ s', exec ins s = .next s' ∧ Passed s' g i b t x ins (dataOps true ty quad dst) ∧
      HoldsAll s' g.block i (ws (leRead x.scratchByte ea n)) ∧ s'.mem = s.mem ∧
      ∀ j, ((s'.block g.block).bc j).scratch = (b.bc j).scratch) ∧
    (∀ spa mt s1, PlainDram s0 g i ⟨true, true⟩ m .load ea n spa mt s1 →
      ((Order.of ord).sc = true → OrderMet s g.block (Order.of ord)) →
      ∃ s', exec ins s = .next s' ∧ Passed s' g i b t x ins (dataOps true ty quad dst) ∧
      HoldsAll s' g.block i (ws (leRead s.byteAt spa n)) ∧ s'.mem = s.mem ∧
      ∀ j, ((s'.block g.block).bc j).scratch = (b.bc j).scratch)) ∧
  (∀ com ty (quad : Bool) ord src m s g i b t x, let data := dataOps false ty quad src
    CanIssue s g i b t x com (memSrcs m ++ data) [] → s.lazyMem = false → (Instr.st com ty quad ord src m).wf = true →
    let ins : Instr := .st com ty quad ord src m
    let n := accessBytes ty quad
    let ea := eaNow s g i m
    let v := gatherVal (values s g i data)
    let s0 := issued s g i ins (memSrcs m ++ data)
    (PlainScratch b t x m ea n → ∃ s', exec ins s = .next s' ∧ Passed s' g i b t x ins [] ∧
      StoredScratch s s' g t x ea n v) ∧
    (∀ spa mt s1, PlainDram s0 g i ⟨true, true⟩ m .store ea n spa mt s1 → OrderMet s g.block (Order.of ord) →
      ∃ s', exec ins s = .next s' ∧ Passed s' g i b t x ins [] ∧ Stored s s' spa n v ∧
      ∀ j, ((s'.block g.block).bc j).scratch = (b.bc j).scratch))

/-- ATOM, RED and AMAXSW read the word, write its new value as one event, and give the old value to the destination; a
compare that fails writes nothing (R264 to R266). -/
def Obligations.ReadModifyWrites : Prop :=
  ∀ ins f s g i b t x, rmwForm ins = some f → ins.wf = true → CanIssue s g i b t x f.com (memSrcs f.m ++ f.srcs) f.dsts →
    s.lazyMem = false → s.atomReq (g.actor s i) i = none →
    let n := tyBits f.ty / 8
    let ea := eaNow s g i f.m
    let l := values s g i f.srcs
    let new (old : Nat) : Nat := (newWord f.op f.ty old (rmwVal f.ty l 0) (rmwVal f.ty l 1)).getD old
    let s0 := issued s g i ins (memSrcs f.m ++ f.srcs)
    (PlainScratch b t x f.m ea n → let old := leRead x.scratchByte ea n
      ∃ s', exec ins s = .next s' ∧ Passed s' g i b t x ins f.dsts ∧ StoredScratch s s' g t x ea n (new old) ∧
        ∀ d ∈ f.dsts, Holds s' g.block i d (BitVec.ofNat 64 old)) ∧
    (∀ spa mt s1, PlainDram s0 g i ⟨f.window, false⟩ f.m .store ea n spa mt s1 → OrderMet s g.block f.ord →
      let old := leRead s.byteAt spa n
      ∃ s', exec ins s = .next s' ∧ Passed s' g i b t x ins f.dsts ∧ Stored s s' spa n (new old) ∧
        ∀ d ∈ f.dsts, Holds s' g.block i d (BitVec.ofNat 64 old))

/-- LDG loads its elements, each from its own address, and SCT stores them in order of element, a later one over an
earlier (R262). -/
def Obligations.GathersAndScatters : Prop :=
  (∀ com ty cnt ord dst m s g i b t x, let srcs : List Src := (m.base, true) :: indexOps cnt m
    MayIssue s g i b t x com srcs (ldgDsts cnt ty dst) → s.lazyMem = false → (Instr.ldg com ty cnt ord dst m).wf = true →
    let ins : Instr := .ldg com ty cnt ord dst m
    let s0 := issued s g i ins srcs
    let ea (k : Nat) : Nat := effAddr m (reads s g 0 i (m.base, true)) ((values s g i (indexOps cnt m)).getD k 0)
    ∀ spa mt : Nat → Nat, (∀ k < elemCount cnt, mt k ≠ 2 ∧
      PlainDram s0 g i ⟨false, false⟩ m .load (ea k) (tyBits ty / 8) (spa k) (mt k) s0) →
    ∃ s', exec ins s = .next s' ∧ Passed s' g i b t x ins (ldgDsts cnt ty dst) ∧ s'.mem = s.mem ∧
      HoldsAll s' g.block i ((ldgDsts cnt ty dst).zip ((List.range (elemCount cnt)).map fun k =>
        BitVec.ofNat 64 (loadExt ty (leRead s.byteAt (spa k) (tyBits ty / 8)))))) ∧
  (∀ com ty cnt ord src m s g i b t x, let srcs : List Src := (m.base, true) :: (indexOps cnt m ++ sctSrcs cnt ty src)
    MayIssue s g i b t x com srcs [] → s.lazyMem = false → (Instr.sct com ty cnt ord src m).wf = true →
    let ins : Instr := .sct com ty cnt ord src m
    let s0 := issued s g i ins srcs
    let n := tyBits ty / 8
    let ea (k : Nat) : Nat := effAddr m (reads s g 0 i (m.base, true)) ((values s g i (indexOps cnt m)).getD k 0)
    let v (k : Nat) : Nat := ((values s g i (sctSrcs cnt ty src)).getD k 0).toNat
    ∀ spa mt : Nat → Nat, (∀ k < elemCount cnt, mt k ≠ 2 ∧
      PlainDram s0 g i ⟨false, false⟩ m .store (ea k) n (spa k) (mt k) s0) →
    ∃ s', exec ins s = .next s' ∧ Passed s' g i b t x ins [] ∧
      ∀ a, s'.byteAt a = (List.range (elemCount cnt)).foldl (fun old k =>
        if spa k ≤ a ∧ a < spa k + n then BitVec.ofNat 8 (v k / 256 ^ (a - spa k)) else old) (s.byteAt a))

/-- The checks of an access in their order: outside boot mode a global address of 2 ^ 52 or more, and a scratch offset
beyond the block's share, raise ADDR_RANGE; else an address that is no multiple of the access size raises ALIGN; else a
global access is translated for the thread's privilege. The scratch window stands for scratch where it is accepted and
raises ADDR_RANGE where it is not (R116, R170, R232, R259). A memory instruction either is checked and performed as it
issues, or stays pending until PENDING_CHECK performs it with the operand values of its issue; the thread that its check
stops takes the exception of the check (R259, R339). `work` is what the instruction does once it is checked. -/
def Obligations.MemoryInstructionsCourse : Prop :=
  (
  ∀ g i (f : Form) a ea n s, let t := s.thread g.block i; let b := s.block g.block
    t.priv ≠ .boot → 0 < n →
    let range : Except Stop (Place × State) := .error (.exc ⟨.addrRange, 0, 0, ea, 0⟩)
    let align : Except Stop (Place × State) := .error (.exc ⟨.align, 0, 0, ea, 0⟩)
    let inWindow : Prop := 0x000FE00000000000 ≤ ea ∧ ea < 0x000FE00200000000
    (b.scratch ≤ ea → resolve g i f .scratch a ea n s = range) ∧
    (ea < b.scratch → ea % n ≠ 0 → resolve g i f .scratch a ea n s = align) ∧
    (ea < b.scratch → ea % n = 0 → resolve g i f .scratch a ea n s = .ok (.scratch t.bc ea, s)) ∧
    (ea < b.cores.length * b.scratch → ea % n = 0 →
      resolve g i f .cluster a ea n s = .ok (.scratch (ea / b.scratch) (ea % b.scratch), s)) ∧
    (2 ^ 52 ≤ ea → resolve g i f .global a ea n s = range) ∧
    (inWindow → f.window = false → resolve g i f .global a ea n s = range) ∧
    (inWindow → ea < 0x000FE00100000000 → f.window = true → ea % 2 ^ 32 < b.scratch → ea % 2 ^ 32 % n = 0 →
      resolve g i f .global a ea n s = .ok (.scratch t.bc (ea % 2 ^ 32), s)) ∧
    (ea < 2 ^ 52 → ¬ inWindow → ea % n ≠ 0 → resolve g i f .global a ea n s = align) ∧
    (ea < 2 ^ 52 → ¬ inWindow → ea % n = 0 → ∀ y s1,
      s.translate g.core ((g.part s).getD 0) t.priv a ea = .ok (y, s1) →
      resolve g i f .global a ea n s = .ok (.phys y.spa y.mt, s1))) ∧
  (
  (∀ ins com srcs dsts noBoot s g i b t x, memForm ins = some (com, srcs, dsts, noBoot) →
    CanIssue s g i b t x com srcs dsts → (noBoot = true → t.priv ≠ .boot) → ∃ work, pendWork ins = some work ∧
    let s0 := issued s g i ins srcs
    let l := [(i, values s g i srcs)]
    (s.lazyMem = false ∨ pendingOther ins = true → ∀ s1, work g l s0 = .ok s1 →
      exec ins s = .next (regroup (s1.taken g.core g.e) g.core g.e)) ∧
    (s.lazyMem = true → pendingOther ins = false → exec ins s = .next (regroup (s0.modEntry g.core g.e fun en =>
      { en with
        pend := [⟨t.pc, ins, l⟩]
        shadow := 0 }) g.core g.e))) ∧
  (∀ s core e en p rest work s2, s.entry core e = some en → en.pend = p :: rest → pendWork p.instr = some work →
    let b := s.block en.block
    work ⟨core, e, en.block, p.pc, en.members, none⟩
        (p.threads.filter fun y => (Kv.find y.1 b.threads).isSome && (b.thread y.1).ready)
        (s.modEntry core e fun en =>
          { en with
            pend := rest
            shadow := 0 }) = .ok s2 →
    exec (.pendingCheck core e) s = .next (regroup (s2.taken core e) core e)) ∧
  (∀ com ty (quad : Bool) ord dst m s g i b t x e, CanIssue s g i b t x com (memSrcs m) (dataOps true ty quad dst) →
    s.lazyMem = false → let ins : Instr := .ld com ty quad ord dst m
    resolve g i ⟨true, true⟩ m.space .load (eaNow s g i m) (accessBytes ty quad) (issued s g i ins (memSrcs m)) =
      .error (.exc e) → Traps s g i b t ins (values s g i (memSrcs m)) e))

/-- FENCE counts a release at die scope or wider, and at package or domain scope waits for the posted writes of its
block; CCTL.ii drops the line's fetch blocks and counts a release, CCTL.ev changes nothing a load can see, and both
raise ADDR_RANGE for an address that is not theirs; PREF outside the stash changes nothing (R236, R259, R267 to R269,
R288, R377). STASH.MAP binds pages after its checks, STASH.MAP.un unbinds them, STASH.SYNC writes modified lines back,
STASH_FILL fills an invalid line, and RACEW sets or clears a window of the partition (R238 to R240, R270 to R272). -/
def Obligations.FencesHintsAndStash : Prop :=
  (
  (∀ com k sc s g i b t x, CanIssue s g i b t x com [] [] → let ins : Instr := .fence com k sc
    (OrderMet s g.block (Order.of (.ordered k sc)) → Completes s g i ins
      ((issued s g i ins []).releases g.block (if k ≠ .acq ∧ Scope.wide sc = true then 1 else 0)) []) ∧
    (k ≠ .acq → Scope.far_ sc = true → s.posting g.block = true → exec ins s = .next (s.waitFor g.core g.e []))) ∧
  (∀ com m s g i b t x, CanIssue s g i b t x com (memSrcs m) [] → let ea := eaNow s g i m
    let ok := hintRange s g ea && !inAperture s g ea
    let ii : Instr := .cctlIi com m
    let ev : Instr := .cctlEv com m
    (ok = true → (Settled s g.block false → Completes s g i ii
        (((issued s g i ii (memSrcs m)).releases g.block 1).dropFetch b.part g.core (ea / 64)) []) ∧
      Completes s g i ev (issued s g i ev (memSrcs m)) []) ∧
    (ok = false → Traps s g i b t ii (values s g i (memSrcs m)) ⟨.addrRange, 0, 0, ea, 0⟩ ∧
      Traps s g i b t ev (values s g i (memSrcs m)) ⟨.addrRange, 0, 0, ea, 0⟩)) ∧
  (∀ com target m s g i b t x, CanIssue s g i b t x com (memSrcs m) [] →
    let ins : Instr := .pref com target m
    let ea := eaNow s g i m
    let s0 := issued s g i ins (memSrcs m)
    (target ≠ .stash ∨ hintRange s g ea = false ∨ x.homePage ea = none → Completes s g i ins s0 []) ∧
    (∀ p, target = .stash → hintRange s g ea = true → x.homePage ea = some p → Completes s g i ins
      (s0.fillLine { g.actor s0 i with e := 64 } g.block t.bc (p.off + ea % 4096) t.priv false) [])) ∧
  (∀ s g, (s.thread g.block (g.members.headD 0)).priv ≠ .boot → g.members ≠ [] → ∀ ea, inAperture s g ea = false ∧
    (hintRange s g ea = true ↔ ea < 2 ^ 52 ∧ ¬ (0x000FE00000000000 ≤ ea ∧ ea < 0x000FE00200000000)))) ∧
  (
  (∀ com off cnt m s g i b t x, let srcs : List Src := memSrcs m ++ [(off, false), (cnt, false)]
    MayIssue s g i b t x com srcs [] → let ins : Instr := .stashMap com off cnt m
    let home := eaNow s g i m
    let o := (reads s g 0 i (off, false)).toNat
    let c := (reads s g 0 i (cnt, false)).toNat
    let inRange : Prop := 0 < c ∧ c ≤ 256 ∧ o + 4096 * c ≤ b.scratch ∧ home + 4096 * c ≤ 2 ^ 52 ∧
      touchesWindow home (4096 * c) = false
    let goes (p : StashPage) : Bool := (decide (o ≤ p.off) && decide (p.off < o + 4096 * c)) ||
      (decide (home ≤ p.home) && decide (p.home < home + 4096 * c))
    (¬ inRange → Traps s g i b t ins (values s g i srcs) (Exc.of .addrRange)) ∧
    (inRange → o % 4096 ≠ 0 ∨ home % 4096 ≠ 0 → Traps s g i b t ins (values s g i srcs) (Exc.of .align)) ∧
    (inRange → o % 4096 = 0 → home % 4096 = 0 → let left := s.stashCount g.core - (x.stash.filter goes).length
      (256 < left + c → Traps s g i b t ins (values s g i srcs) (Exc.of .stashSpace)) ∧
      (left + c ≤ 256 →
        Completes s g i ins ((issued s g i ins srcs).bindPages g.block t.bc o home (List.range c)) []))) ∧
  (∀ com off cnt s g i b t x, let srcs : List Src := [(off, false), (cnt, false)]
    MayIssue s g i b t x com srcs [] → let ins : Instr := .stashMapUn com off cnt
    let o := (reads s g 0 i (off, false)).toNat
    let c := (reads s g 0 i (cnt, false)).toNat
    0 < c → c ≤ 256 → o + 4096 * c ≤ b.scratch → o % 4096 = 0 → Completes s g i ins
      ((issued s g i ins srcs).unbind g.block t.bc fun p => decide (o ≤ p.off) && decide (p.off < o + 4096 * c)) []) ∧
  (∀ com (inv : Bool) s g i b t x, MayIssue s g i b t x com [] [] → let ins : Instr := .stashSync com inv
    Completes s g i ins ((issued s g i ins []).syncStash g.block t.bc inv) []) ∧
  (∀ s core tag line (store : Bool) b j p, Kv.find tag s.blocks = some b → b.bcOn core = some j →
    (b.bc j).stashPage (64 * line) = some p → p.line (64 * line) = none →
    exec (.stashFill core tag line store) s = .next (s.fillLine ⟨tag, core, 64, (FaultRec.ofKind 0x02).atCore b core⟩ tag
      j (64 * line) b.priv store)) ∧
  (∀ com w (off : Bool) len m s g i b t x, let srcs : List Src := if off then [] else memSrcs m ++ [(len, false)]
    MayIssue s g i b t x com srcs [] → let ins : Instr := .racew com w off len m
    let s0 := issued s g i ins srcs
    let p := b.part.getD 0
    let base := eaNow s g i m
    let n := (reads s g 0 i (len, false)).toNat
    (off = true → Completes s g i ins (s0.modPart p fun y => { y with races := Kv.erase w.toNat y.races }) []) ∧
    (off = false → base % 64 ≠ 0 → Traps s g i b t ins (values s g i srcs) (Exc.of .align)) ∧
    (off = false → base % 64 = 0 →
      (n % 64 = 0 ∧ 64 ≤ n ∧ n ≤ 0x4000000 ∧ base + n ≤ 2 ^ 52 ∧ touchesWindow base n = false →
        Completes s g i ins ((s0.dropWindow p base n).modPart p fun y =>
          { y with races := Kv.insert w.toNat ⟨base, n, [], []⟩ y.races }) []) ∧
      (¬ (n % 64 = 0 ∧ 64 ≤ n ∧ n ≤ 0x4000000 ∧ base + n ≤ 2 ^ 52 ∧ touchesWindow base n = false) →
        Traps s g i b t ins (values s g i srcs) (Exc.of .addrRange)))))

/-- A byte of memory that is written is what a later read of that byte finds, and no other byte changes; the list of
cells keeps its canonical form (R8, R232, R242). -/
def Obligations.MemoryReadsWhatWasWritten : Prop :=
  (∀ (s : State) a v c, (s.setByte a v).byteAt c = if c = a then v else s.byteAt c) ∧
  (∀ (s : State) a v, Memory.wf s.mem = true → Memory.wf (s.setByte a v).mem = true) ∧
  (∀ (s : State) a v n, v < 256 ^ n → leRead (s.setCells (leCells a v n)).byteAt a n = v ∧
    ∀ c, c < a ∨ a + n ≤ c → (s.setCells (leCells a v n)).byteAt c = s.byteAt c) ∧
  (∀ m m', Memory.wf m = true → Memory.wf m' = true → (∀ a, Kv.get emptyByte a m = Kv.get emptyByte a m') → m = m')

/-- COPY, COPYT and COPYG check their ranges, then their alignment, then the record of a tensor, then their barrier, and
take the next number of their channel's timeline, with the operands as they stood at issue. Under .rel, and at a STAGE that
starts entries of the copy schedule, the thread releases at package scope first (R236, R276, R288, R298, R302, R303, R306
to R309, R314). -/
def Obligations.CopiesIssue : Prop :=
  (∀ com dsp ssp (rel : Bool) (ch : BitVec 3) bidx (bytes : Word) dst a c s g i b t x,
    let srcs : List Src := [(a, copyWide dsp), (c, copyWide ssp)]
    MayIssue s g i b t x com srcs [(dst, false)] → let ins : Instr := .copy com dsp ssp rel ch bidx bytes dst a c
    let da := (reads s g 0 i (a, copyWide dsp)).toNat
    let sa := (reads s g 0 i (c, copyWide ssp)).toNat
    let s0 := issued s g i ins srcs
    let inRange : Prop := copyRange b dsp da bytes.toNat = true ∧ copyRange b ssp sa bytes.toNat = true ∧
      (bidx = 0xFFF ∨ 16 * bidx.toNat + 16 ≤ b.scratch)
    (¬ inRange → Traps s g i b t ins (values s g i srcs) (Exc.of .addrRange)) ∧
    (inRange → da % 4 ≠ 0 ∨ sa % 4 ≠ 0 → Traps s g i b t ins (values s g i srcs) (Exc.of .align)) ∧
    (inRange → da % 4 = 0 → sa % 4 = 0 →
      (BarReady s0 g b t bidx → (rel = true → Settled s g.block false) → Completes s g i ins
        (started (released s0 g rel) g t x ch.toNat (.copy dsp ssp da sa bytes.toNat) (bidxOf bidx))
        (res dst (((x.tl ch.toNat).issued + 1) % 2 ^ 32))) ∧
      (BarReady s0 g b t bidx → rel = true → s.posting g.block = true → exec ins s = .next (s.waitFor g.core g.e [])) ∧
      (bidx ≠ 0xFFF → (s0.barGet g.block t.bc (16 * bidx.toNat)).valid b.tag = false →
        Traps s g i b t ins (values s g i srcs) (Exc.of .barState)))) ∧
  (∀ com dsp ssp (rel : Bool) (ch : BitVec 3) bidx (rowb nrow : BitVec 16) dst a c s g i b t x,
    let srcs : List Src := (a, true) :: groupOps 2 c
    MayIssue s g i b t x com srcs [(dst, false)] → let ins : Instr := .copyg com dsp ssp rel ch bidx rowb nrow dst a c
    let l := values s g i srcs
    let base := (l.getD 0 0).toNat
    let idx := (l.getD 1 0).toNat
    let off := (l.getD 2 0).toNat
    let inRange : Prop := copyRange b .s idx (4 * nrow.toNat) = true ∧ copyRange b dsp off (rowb.toNat * nrow.toNat) = true ∧
      (bidx = 0xFFF ∨ 16 * bidx.toNat + 16 ≤ b.scratch)
    (¬ inRange → Traps s g i b t ins l (Exc.of .addrRange)) ∧
    (inRange → base % 4 = 0 → idx % 4 = 0 → off % 4 = 0 → BarReady (issued s g i ins srcs) g b t bidx →
      (rel = true → Settled s g.block false) → Completes s g i ins
      (started (released (issued s g i ins srcs) g rel) g t x ch.toNat
        (.gather dsp ssp base idx off rowb.toNat nrow.toNat) (bidxOf bidx))
      (res dst (((x.tl ch.toNat).issued + 1) % 2 ^ 32)))) ∧
  (∀ com (st clus rel : Bool) (ch : BitVec 3) bidx (imm : Word) dst a c s g i b t x w s1,
    let srcs : List Src := (a, true) :: groupOps 6 c
    MayIssue s g i b t x com srcs [(dst, false)] → let ins : Instr := .copyt com st clus rel ch bidx imm dst a c
    let l := values s g i srcs
    let va := (l.getD 0 0).toNat
    let cs := ((l.drop 1).take 5).map fun v => (v.setWidth 32).toInt
    let off := ((l.getD 6 0).toNat + imm.toNat) % 2 ^ 32
    let s0 := issued s g i ins srcs
    readRecord s0 g i va = .ok (w, s1) → s1.block g.block = s0.block g.block → (rel = true → Settled s1 g.block false) →
    tBad w (cs.getD 0 0) = false → boxBytes w ≤ 0x1000000 → boxBytes w % 4 = 0 →
    copyRange b (if clus then .c else .s) off (boxBytes w) = true → off % 4 = 0 → BarReady s1 g b t bidx →
    copyRange b .g va 64 = true → Completes s g i ins
      (started (released s1 g rel) g t x ch.toNat (.tensor (recWords w) st clus cs off) (bidxOf bidx))
      (res dst (((x.tl ch.toNat).issued + 1) % 2 ^ 32))) ∧
  (∀ com a (imm : Word) s g i b t x, MayIssue s g i b t x com [(a, false)] [] → let ins : Instr := .stage com a imm
    let v := ((reads s g 0 i (a, false)).toNat + imm.toNat) % 2 ^ 32
    let fires := x.sched.any fun e => decide (e.trig ≤ max x.stage v)
    (fires = true → Settled s g.block false) → Completes s g i ins
      ((inCore (released (issued s g i ins [(a, false)]) g fires) g t fun c => { c with stage := max x.stage v }).startSched
        g.block t.bc t.pc) [])

/-- BAR.INIT makes an object of the block's tag in phase 0 with all arrivals pending; BAR.ARRIVE takes one arrival away
and gives the phase; the last arrival with no byte pending advances the phase and reloads the count; BAR.EXPECT adds
bytes; BAR.TEST compares the phase; BAR.WAIT goes on or holds the thread. Objects of another tag raise BAR_STATE and
poisoned ones ASYNC_FAIL (R316 to R325). The object is no root and no leaf where it is counted. TLWAIT and WAITM go on
where every count has reached its value, modulo 2 ^ 32, and no fail number is covered; a covered fail number raises
ASYNC_FAIL, and a count not reached holds the thread. TLREAD gives the counts, and .fail clears the fail number; TLSIG
moves a software timeline forward, never back (R297, R298, R326 to R330). -/
def Obligations.BarrierAndTimelineInstructions : Prop :=
  (
  (∀ com (root : Bool) src m s g i b t x off, let srcs : List Src := memSrcs m ++ [(src, false)]
    MayIssue s g i b t x com srcs [] → BarAt s g i b t x m off → let ins : Instr := .barInit com false root src m
    let v := (reads s g 0 i (src, false)).toNat
    (0 < v % 2 ^ 13 → v / 2 ^ 13 % 8 = 0 → (Kv.keys b.threads).Nodup →
      ∃ s', exec ins s = .next s' ∧ PassedOwn s' g i t x ins [] ∧ s'.mem = s.mem ∧ Woken s' g i b t.bc off 0 ∧
      s'.barGet g.block t.bc off = ⟨b.tag % 2 ^ 32, false, root, false, 0xFFFF, 0, v % 2 ^ 13, v % 2 ^ 13, 0, 0, 0⟩ ∧
      ∀ a, a < off ∨ off + 16 ≤ a → ((s'.block g.block).bc t.bc).scratchByte a = x.scratchByte a) ∧
    (v % 2 ^ 13 = 0 ∨ v / 2 ^ 13 % 8 ≠ 0 → Traps s g i b t ins (values s g i srcs) (Exc.of .barState))) ∧
  (∀ com (u : Bool) dst m s g i b t x off, MayIssue s g i b t x com (memSrcs m) [(dst, false)] →
    BarAt s g i b t x m off → let ins : Instr := .barArrive com u dst m
    let o := s.barGet g.block t.bc off
    (o.valid b.tag = false → Traps s g i b t ins (values s g i (memSrcs m)) (Exc.of .barState)) ∧
    (o.valid b.tag = true → o.poisoned = true → Traps s g i b t ins (values s g i (memSrcs m)) (asyncFail 0 0)) ∧
    (o.valid b.tag = true → o.poisoned = false → o.leaf = false → o.root = false → 0 < o.arr →
      (Kv.keys b.threads).Nodup →
      ∃ s', exec ins s = .next s' ∧ PassedOwn s' g i t x ins [(dst, false)] ∧ s'.mem = s.mem ∧
        Holds s' g.block i (dst, false) (BitVec.ofNat 64 o.phase) ∧
        (o.arr = 1 ∧ o.bytes = 0 → Woken s' g i b t.bc off ((o.phase + 1) % 16) ∧
          s'.barGet g.block t.bc off = { o with arr := o.reload, phase := (o.phase + 1) % 16 }) ∧
        (¬ (o.arr = 1 ∧ o.bytes = 0) → (∀ j ≠ i, s'.thread g.block j = b.thread j) ∧
          s'.barGet g.block t.bc off = { o with arr := o.arr - 1 }))) ∧
  (∀ com (arr : Bool) dst cnt m s g i b t x off, let srcs : List Src := memSrcs m ++ [(cnt, false)]
    MayIssue s g i b t x com srcs [(dst, false)] → BarAt s g i b t x m off →
    let ins : Instr := .barExpect com arr dst cnt m
    let o := s.barGet g.block t.bc off
    let n := (reads s g 0 i (cnt, false)).toNat
    o.valid b.tag = true → o.poisoned = false →
    (0x7FFFFFFF < n → Traps s g i b t ins (values s g i srcs) (Exc.of .barState)) ∧
    (n ≤ 0x7FFFFFFF → o.bytes + n ≤ 0x7FFFFFFF → (arr = true → 0 < o.arr) → o.leaf = false → o.root = false →
      (Kv.keys b.threads).Nodup →
      let left := if arr then o.arr - 1 else o.arr
      ∃ s', exec ins s = .next s' ∧ PassedOwn s' g i t x ins [(dst, false)] ∧ s'.mem = s.mem ∧
        Holds s' g.block i (dst, false) (BitVec.ofNat 64 o.phase) ∧
        (left = 0 ∧ o.bytes + n = 0 → Woken s' g i b t.bc off ((o.phase + 1) % 16) ∧
          s'.barGet g.block t.bc off = { o with bytes := 0, arr := o.reload, phase := (o.phase + 1) % 16 }) ∧
        (¬ (left = 0 ∧ o.bytes + n = 0) → (∀ j ≠ i, s'.thread g.block j = b.thread j) ∧
          s'.barGet g.block t.bc off = { o with bytes := o.bytes + n, arr := left }))) ∧
  (∀ com src m s g i b t x off, let srcs : List Src := memSrcs m ++ [(src, false)]
    MayIssue s g i b t x com srcs [] → BarAt s g i b t x m off → let ins : Instr := .barWait com src m
    let o := s.barGet g.block t.bc off
    let p := (reads s g 0 i (src, false)).toNat % 16
    o.valid b.tag = true → o.poisoned = false →
    (o.phase ≠ p → Completes s g i ins (issued s g i ins srcs) []) ∧
    (o.phase = p → ∃ s', exec ins s = .next s' ∧ Quiet s s' ∧ s'.entry g.core g.e = none ∧
      s'.thread g.block i = { t with
        pc := t.pc + lenOf ins
        tsLatch := latched s t srcs
        stat := .held (.bar t.bc off p ⟨t.pc, some ins, values s g i srcs⟩)
        since := s.tick })) ∧
  (∀ com dst m s g i b t x off, let srcs : List Src := memSrcs m ++ [(dst, false)]
    MayIssue s g i b t x com srcs [(dst, false)] → BarAt s g i b t x m off → let ins : Instr := .barTest com dst m
    let o := s.barGet g.block t.bc off
    o.valid b.tag = true → o.poisoned = false → Completes s g i ins (issued s g i ins srcs)
      (res dst (if o.phase = (reads s g 0 i (dst, false)).toNat % 16 then 0 else 1)))) ∧
  (
  (∀ com (mask : BitVec 12) s g i b t x ins srcs w,
    (∃ tl a imm, ins = .tlwait com tl a imm ∧ srcs = [(a, false)] ∧
        w = [(tl.toNat, ((reads s g 0 i (a, false)).toNat + imm.toNat) % 2 ^ 32)]) ∨
      (ins = .waitm com mask ∧ srcs = [] ∧
        w = ((List.range 12).filter fun n => mask.toNat.testBit n).map fun n => (n, (x.tl n).issued)) →
    MayIssue s g i b t x com srcs [] →
    (b.waitOver t.bc w = true → b.waitFail t.bc w = none → Completes s g i ins (issued s g i ins srcs) []) ∧
    (∀ f, b.waitOver t.bc w = true → b.waitFail t.bc w = some f →
      Traps s g i b t ins (values s g i srcs) ⟨.asyncFail, f.1, f.2, 0, 0⟩) ∧
    (b.waitOver t.bc w = false → ∃ s', exec ins s = .next s' ∧ Quiet s s' ∧ s'.entry g.core g.e = none ∧
      s'.thread g.block i = { t with
        pc := t.pc + lenOf ins
        tsLatch := latched s t srcs
        stat := .held (.tl w ⟨t.pc, some ins, values s g i srcs⟩)
        since := s.tick })) ∧
  (∀ com form (tl : BitVec 4) dst s g i b t x, MayIssue s g i b t x com [] [(dst, false)] →
    let ins : Instr := .tlread com form tl dst
    let y := x.tl tl.toNat
    let s0 := issued s g i ins []
    match form with
    | .done => Completes s g i ins s0 (res dst (b.completed t.bc tl.toNat))
    | .iss => Completes s g i ins s0 (res dst y.issued)
    | .fail => Completes s g i ins (inCore s0 g t fun c => c.setTl tl.toNat { y with fail := 0 }) (res dst y.fail)) ∧
  (∀ com (inc : Bool) (tl : BitVec 4) a (imm : Word) s g i b t x, MayIssue s g i b t x com [(a, false)] [] →
    let ins : Instr := .tlsig com inc tl a imm
    let c := Kv.get 0 tl.toNat b.soft
    let v := ((reads s g 0 i (a, false)).toNat + imm.toNat) % 2 ^ 32
    let c' := if inc then (c + 1) % 2 ^ 32 else if reached c v then c else v
    Completes s g i ins (((issued s g i ins [(a, false)]).modBlock g.block fun y =>
      { y with soft := Kv.set 0 tl.toNat c' y.soft }).wakeTl g.block) []) ∧
  (∀ c n, c < 2 ^ 32 → n < 2 ^ 32 → (reached c n = true ↔ (c - n : Int) % 2 ^ 32 < 2 ^ 31)))

/-- The steps of an engine operation: COPY_WRITE_GROUP moves the next group of the head of a channel; its bytes are counted
and the write pointer moves once no write of the group is gathered and none is without its acknowledgement;
ENGINE_OP_COMPLETE completes an operation whose every byte is moved and counted; ENGINE_OP_PARK parks one that meets a page
fault; ENGINE_OP_CANCEL ends one that met another fault; REGION_ENTRY_RUN runs the next region entry; TBL_LOAD_COMPLETE
reads the image of the oldest load (R150, R298 to R303, R310 to R312). -/
def Obligations.EngineOperations : Prop :=
  (
  (∀ s core tag ch b j op s1 op1 s2 op2, s.blockOn core tag = some (b, j) → (b.bc j).headOp ch = some op → ch < 8 →
    op.stat = .queued → b.phase ≠ .saved → s.copyBytes tag j op op.groupBytes = (s1, op1, none) →
    s1.countOwed tag j op1 = .ok (s2, op2, true) → exec (.copyWriteGroup core tag ch) s =
      .next (if op2.kind.bytes ≤ op2.done ∧ op2.owed = 0 then s2.later [.engineOpComplete core tag ch] else s2)) ∧
  (∀ s core tag ch b j num dst src bytes pc pr, s.blockOn core tag = some (b, j) → ch < 8 → b.phase ≠ .saved →
    (b.bc j).stash = [] → s.engPosting core ch = false →
    (b.bc j).headOp ch = some ⟨ch, num, .copy .s .s dst src bytes, none, 0, .queued, pc, pr, 0, []⟩ →
    0 < bytes → bytes % 4 = 0 → dst % 4 = 0 → src % 4 = 0 → bytes ≤ 256 - dst % 256 → src + bytes ≤ b.scratch →
    dst + bytes ≤ b.scratch → dst + bytes ≤ src ∨ src + bytes ≤ dst →
    ∃ s', exec (.copyWriteGroup core tag ch) s = .next s' ∧ s'.mem = s.mem ∧
      s'.agenda = .engineOpComplete core tag ch :: s.agenda ∧ let c := (s'.block tag).bc j
      (∀ k < bytes, c.scratchByte (dst + k) = (b.bc j).scratchByte (src + k)) ∧
      (∀ a, a < dst ∨ dst + bytes ≤ a → c.scratchByte a = (b.bc j).scratchByte a) ∧
      c.wp ch = (b.bc j).wp ch + BitVec.ofNat 32 bytes) ∧
  (∀ (s : State) k j (op : EngineOp) n,
    (runUnits k j op (n / op.kind.unit) op.done [] (s.ahead32 k j op op.done)).2.2.2 = none → 0 < n →
    n ≤ op.kind.bytes - op.done → n % op.kind.unit = 0 → op.kind.isCopy = true →
    let r := s.copyBytes k j op n
    r.2.2 = none ∧ r.2.1.done = op.done + n ∧ r.2.1.owed = op.owed + n ∧
      r.2.1 = { op with done := r.2.1.done, owed := r.2.1.owed, held := r.2.1.held }) ∧
  (∀ (s : State) k j (op : EngineOp), let core := ((s.block k).bc j).core
    (op.owed = 0 ∨ op.held ≠ [] ∨ s.engPosting core op.tl = true → s.countOwed k j op = .ok (s, op, true)) ∧
    (op.owed ≠ 0 → op.held = [] → s.engPosting core op.tl = false → op.bidx = none → s.countOwed k j op =
      .ok ((s.movePointer k j op op.owed).putOp k j { op with owed := 0 }, { op with owed := 0 }, true))) ∧
  (∀ s core tag tl b j op, s.blockOn core tag = some (b, j) → (b.bc j).headOp tl = some op → tl < 8 → op.stat = .queued →
    op.kind.bytes ≤ op.done → op.owed = 0 → exec (.engineOpComplete core tag tl) s =
      .next ((((s.modBc tag j (·.dropOp tl op.num)).forget tag j op).completeNum tag j tl).endCheck tag)) ∧
  (∀ s core tag tl b j op e, s.blockOn core tag = some (b, j) → (b.bc j).headOp tl = some op → op.stat = .queued →
    b.phase ≠ .saved → s.nextStop tag j op = some (.exc e) → e.cls = .pageFault →
    ∃ r, r.kind = 0x03 ∧ r.held = true ∧ r.opnum = op.num ∧ r.tln = op.tl ∧ exec (.engineOpPark core tag tl) s =
      .next ((s.modBc tag j (·.modOp op.tl op.num fun o => { o with stat := .parked e })).sendBlockRecord tag r)) ∧
  (∀ s core tag tl b j op e, s.blockOn core tag = some (b, j) → (b.bc j).headOp tl = some op → op.stat = .cancelled e →
    exec (.engineOpCancel core tag tl) s = .next (s.cancelHead tag j op e)) ∧
  (∀ s core tag b j e rest op, s.blockOn core tag = some (b, j) → (b.bc j).regions = e :: rest → b.phase = .resident →
    (b.bc j).headOp 15 = some op → op.stat = .queued →
    (e.kind = 1 → exec (.regionEntryRun core tag) s = .next (s.regionDone tag j e)) ∧
    (∀ s1 op1 s2 op2, e.kind = 0 → s.copyBytes tag j op (e.bytes - op.done) = (s1, op1, none) →
      s1.countOwed tag j op1 = .ok (s2, op2, true) → op2.kind.bytes ≤ op2.done → op2.owed = 0 →
      exec (.regionEntryRun core tag) s = .next (s2.regionDone tag j e)))) ∧
  (∀ s core tag b j op slot n addr size pr, s.blockOn core tag = some (b, j) → (b.bc j).headOp 9 = some op →
    op.kind = .tblLoad slot →
    let done (sh : Shadow) (s : State) : State := s.loadDone tag j slot op.num sh
    ((∀ sp, ((b.bc j).slot slot).shadow = .pending n addr size sp pr → n = op.num → op.dropped = false →
      ∀ img s1, readImage s tag j op sp addr = .ok (img, s1) → exec (.tblLoadComplete core tag) s =
        .next (done (if img.reason size = 0 then .ready img size else .invalid (img.reason size) size) s1)) ∧
    (∀ sp, ((b.bc j).slot slot).shadow = .pending n addr size sp pr → n ≠ op.num ∨ op.dropped = true →
      exec (.tblLoadComplete core tag) s = .next (done .empty s)) ∧
    ((∀ n a size sp pr, ((b.bc j).slot slot).shadow ≠ .pending n a size sp pr) →
      exec (.tblLoadComplete core tag) s = .next (done .empty s))) ∧
    (((b.bc j).slot slot).shadow = .pending n addr size .scratch pr → n = op.num → op.dropped = false →
      (b.bc j).stash = [] →
      let img := scratchImage (b.bc j) addr
      addr + 64 + 24 * img.nseg ≤ b.scratch → exec (.tblLoadComplete core tag) s =
        .next (done (if img.reason size = 0 then .ready img size else .invalid (img.reason size) size) s)))

/-- LAUNCH reads the record and the chain of region control blocks, and either queues the launch behind the others of
its node with status 0, or answers the status of what fails; it releases at package scope, and waits for the posted
writes of its block first (R172 to R176, R184, R185, R276; which status where several apply is the model's choice, log
88). GRAPH.RUN holds a replay with its entries as read and writes STARTED; GRAPH.PATCH copies bytes into the staging
area; a replay is released, its entries are queued, and COMPLETED is written in order of replay number (R184, R186 to
R188). -/
def Obligations.LaunchesAndGraphs : Prop :=
  (
  ∀ com dst a c s g i b t x p, let srcs : List Src := [(a, true), (c, true)]
    StewIssue s g i b t x com srcs [(dst, false)] p → let ins : Instr := .launch com dst a c
    let ra := (reads s g 0 i (a, true)).toNat
    let na := (reads s g 0 i (c, true)).toNat
    let s0 := (issued s g i ins srcs).releases g.block 1
    (ra % 64 ≠ 0 → Traps s g i b t ins (values s g i srcs) ⟨.align, 0, 0, ra, 0⟩) ∧
    (ra % 64 = 0 → na % 128 ≠ 0 → Traps s g i b t ins (values s g i srcs) ⟨.align, 0, 0, na, 0⟩) ∧
    (ra % 64 = 0 → na % 128 = 0 → s.posting g.block = true → exec ins s = .next (s.waitFor g.core g.e [])) ∧
    (ra % 64 = 0 → na % 128 = 0 → Settled s g.block false → ∀ r s1 chain s2, readLaunch s0 g i ra = .ok (r, s1) →
      readChain s1 g i 8 na [] = .ok (chain, s2) → let s3 := s2.holdNodes p (chain.getD [])
      ∀ y, s3.part p = some y →
      (∀ w, r = .error w → Completes s g i ins (s3.readDeps p) (res dst (1 + 256 * w))) ∧
      (∀ z, r = .ok z → chain = none → Completes s g i ins (s3.readDeps p) (res dst 2)) ∧
      (∀ z l, r = .ok z → chain = some l → 1024 ≤ y.queued → Completes s g i ins (s3.readDeps p) (res dst 3)) ∧
      (∀ z l, r = .ok z → chain = some l → y.queued < 1024 → neverFits s3 p y z.lrec l = true →
        Completes s g i ins (s3.readDeps p) (res dst 4)) ∧
      (∀ z l, r = .ok z → chain = some l → y.queued < 1024 → neverFits s3 p y z.lrec l = false →
        Completes s g i ins ((s3.putPart p { y with
          grids := Kv.insert y.nextOrder (Grid.ofEntry ⟨z.lrec, ra, na, [], z.regions, z.sched⟩ (s3.effOf p na).prio
            y.nextOrder none) y.grids
          nextOrder := y.nextOrder + 1 }).readDeps p) (res dst 0)))) ∧
  (
  (∀ com dst a c s g i b t x p, let srcs : List Src := [(a, true), (c, true)]
    StewIssue s g i b t x com srcs [(dst, false)] p → let ins : Instr := .graphRun com dst a c
    let ga := (reads s g 0 i (a, true)).toNat
    let na := (reads s g 0 i (c, true)).toNat
    ga % 64 = 0 → na % 128 = 0 → Settled s g.block false →
    ∀ w s1, readPieces ((issued s g i ins srcs).releases g.block 1) g i ga 2 = .ok (w, s1) →
    let h := GraphHdr.ofNat w
    let num := (h.started + 1) % 2 ^ 64
    (h.bad = true → Completes s g i ins (s1.readDeps p) (res dst 5)) ∧
    (∀ n s2, h.bad = false → readRun s1 g i h.recp h.nrec na = .ok (.error n, s2) →
      Completes s g i ins (s2.readDeps p) (res dst n)) ∧
    (∀ l s2 y, h.bad = false → readRun s1 g i h.recp h.nrec na = .ok (.ok l, s2) → s2.part p = some y →
      (16 ≤ (y.heldReplays ga).length → Completes s g i ins (s2.readDeps p) (res dst 3)) ∧
      ((y.heldReplays ga).length < 16 → (Kv.get GraphState.fresh ga y.graphs).changed = false → ∀ s3,
        (s2.putPart p { y with
          replays := y.replays ++ [⟨ga, num, h.conc, h.ncopy, h.paramp, h.paramlen, false, false, none, l, [], []⟩] }).writeCounter
          p (ga + 56) num false = .ok s3 →
        Completes s g i ins ((s3.later [.graphReplayRelease p y.replays.length]).readDeps p) (res dst 0)))) ∧
  (∀ com a c d s g i b t x p, let srcs : List Src := [(a, true), (c, true), (d, false)]
    StewIssue s g i b t x com srcs [] p → let ins : Instr := .graphPatch com a c d
    let ga := (reads s g 0 i (a, true)).toNat
    let src := (reads s g 0 i (c, true)).toNat
    let off := (reads s g 0 i (d, false)).toNat % 2 ^ 16
    let n := (reads s g 0 i (d, false)).toNat / 2 ^ 16 % 2 ^ 16
    ga % 64 = 0 → src % 4 = 0 → Settled s g.block false →
    ∀ w s1 s2 y, readPieces ((issued s g i ins srcs).releases g.block 1) g i ga 2 = .ok (w, s1) →
    off % 4 = 0 → n % 4 = 0 → 4 ≤ n → n ≤ 4096 → off + n ≤ (GraphHdr.ofNat w).paramlen →
    s1.part p = some y →
    let gs := Kv.get GraphState.fresh ga y.graphs
    gs.sealedBy = none →
    patchBytes g i src ((GraphHdr.ofNat w).paramp + (GraphHdr.ofNat w).paramlen + off) (n / 4) s1 = .ok s2 →
    Completes s g i ins (s2.modPart p fun q => { q with graphs := Kv.insert ga { gs with changed := true } q.graphs }) []) ∧
  (∀ s p idx x r, s.part p = some x → x.replays[idx]? = some r → r.released = false → r.conc = false → r.sealed = false →
    let r' := { r with released := true }
    let s1 := s.modPart p fun y => { y with replays := y.replays.set idx r' }
    exec (.graphReplayRelease p idx) s =
      .next ((s1.queueEntries p idx { x with replays := x.replays.set idx r' } r').readDeps p)) ∧
  (∀ s p idx x r, s.part p = some x → x.replays[idx]? = some r → r.entries.length ≤ r.doneEntries.length →
    (∀ q ∈ x.replays.take idx, q.graph ≠ r.graph) → ∀ s1, s.writeCounter p (r.graph + 48) r.num true = .ok s1 →
    exec (.graphReplayComplete p idx) s =
      .next ((s1.modPart p fun y => { y with replays := y.replays.eraseIdx idx }).pokeGraphs p)))

/-- A new block: every thread of it starts at CODE with its registers, predicates and FPCSR zero, at user privilege,
ready, on the lane of its index; s0 and s1 hold ARGP, and scratch, tables, contexts and tiles are empty (R38, R157,
R170, R175). The dispatcher's steps: it reads dependence words, admits the next block of the grid that it may take,
protects clusters for a block that has waited 1 ms, and completes the grids whose blocks have all ended in the order in
which they did (R171, R177 to R180). -/
def Obligations.DispatcherSteps : Prop :=
  (
  ∀ p id (g : Grid) n tag now tick place, let b := newBlock p id g n tag now tick place
    (∀ i t, (i, t) ∈ b.threads → t.pc = g.lrec.code ∧ t.regs = [] ∧ t.preds = 0 ∧ t.fpcsr = 0 ∧ t.tsLatch = 0 ∧
      t.nreg8 = g.lrec.nreg8 ∧ t.priv = .user ∧ t.stat = .ready ∧ t.rep = none ∧
      t.lane = (i + if place.lo32 then 32 else 0) % 64 ∧ i < g.lrec.threads) ∧
    (∀ j c, (j, c) ∈ b.cores → c.sreg 0 = BitVec.ofNat 32 g.lrec.argp ∧
      c.sreg 1 = BitVec.ofNat 32 (g.lrec.argp / 2 ^ 32) ∧ (∀ k, 2 ≤ k → c.sreg k = 0) ∧ c.scratch = [] ∧ c.tables = [] ∧
      c.sel = [] ∧ c.tiles = [] ∧ c.mstat = 0 ∧ c.tls = [] ∧ c.ops = [] ∧ c.stash = []) ∧
    b.tag = tag ∧ b.part = some p ∧ b.node = g.node ∧ b.relCount = 0 ∧ b.acq = [] ∧ b.acqOvfl = false ∧
    b.bidx = (n % g.lrec.grid.1, n / g.lrec.grid.1 % g.lrec.grid.2.1, n / g.lrec.grid.1 / g.lrec.grid.2.1)) ∧
  (
  (∀ s p id x g s1, s.part p = some x → Kv.find id x.grids = some g → g.depsMet = false → ∀ met : Bool,
    s.depsNow p g.recAddr g.lrec.deps = .ok (s1, met, []) → exec (.dependenceRead p id) s =
      .next ((s1.modPart p fun y =>
        { y with grids := Kv.insert id { g with depsMet := met, depFailed := [] } y.grids }).refreshCands p)) ∧
  (∀ s p id place x g, let s1 := s.refreshCands p
    s1.part p = some x → Kv.find id x.grids = some g → g.lrec.coop = false → s1.mayTake p x id g = true →
    g.nextBlock < g.lrec.total → s1.budgetOk p g.node g.lrec.needs = true → place.lo32 = false →
    s1.placeOk ((s1.clustersOf p false).filter fun c => !(x.protectedFrom g).contains c) (g.needs 0) place = true →
    exec (.blockAdmit p id place) s = .next (s1.admitNew p id g place) ∧
    Kv.find s1.nextTag (s1.admitNew p id g place).blocks =
      some (newBlock p id g g.nextBlock s1.nextTag s1.clock s1.tick place)) ∧
  (∀ s p id x g t, let s1 := s.refreshCands p
    s1.part p = some x → Kv.find id x.grids = some g → g.candSince = some t → t + 1000000 ≤ s.clock →
    exec (.candidateProtect p id) s =
      .next (s1.putPart p { x with grids := Kv.insert id { g with protects := s1.couldHold p g } x.grids })) ∧
  (∀ s p id x g, s.part p = some x → Kv.find id x.grids = some g →
    (x.completed.head? ≠ some id → exec (.gridComplete p id) s = .next s) ∧
    (∀ s1 rest, x.completed = id :: rest → g.replay = none → g.dead = false → s.writeDone p g.lrec g.recAddr = .ok s1 →
      exec (.gridComplete p id) s = .next (((((s1.modPart p fun y =>
        { y with grids := Kv.erase id y.grids, replays := x.replays }).refreshCands p).pokeGraphs p).readDeps p).later
          ((rest.take 1).map fun h => .gridComplete p h)))))

/-- Pre-emption and its uses: a request halts a resident block; a block with nothing pending, cancelled or queued in the
matrix engine, no copied byte uncounted and no access begun at another package is saved and becomes a returned block of
its grid; a returned block is restored where it fits; a grid stalled for its interval gives up its oldest blocks; a
block resident for 10 ms may be moved, to cores that it has not left (R181, R183, R351 to R354). -/
def Obligations.PreemptionAndRestore : Prop :=
  (∀ s p tag b, let k := blockKey p tag
    Kv.find k s.blocks = some b → b.part = some p →
    (b.phase ≠ .resident → exec (.preemptRequest p tag) s = .next (s.later [.blockQuiesceSave p tag])) ∧
    (b.phase = .resident → let s1 := s.modBlock k fun y =>
        { y with
          phase := .halting
          reqTime := s.clock
          reqClasses := s.inProgress k }
      exec (.preemptRequest p tag) s = .next ((if b.tag = 0 then s1 else s1.modPart p fun x =>
        { x with grids := Kv.modify b.grid (fun g => { g with leaving := g.leaving ++ [k] }) x.grids }).later
          [.blockQuiesceSave p tag]))) ∧
  (∀ s p tag, let k := blockKey p tag
    let b := s.block k
    b.phase = .halting → b.part = some p → s.inChain k = false → s.hasBegun k = false → s.lostBlock b = false →
    s.pendingOf k = [] → b.cancelling = none → s.matrixLeft k = none → b.unlanded = none → let s1 := s.saveBlock k
    (tag = 0 → exec (.blockQuiesceSave p tag) s = .next s1) ∧
    (tag ≠ 0 → let back := fun g : Grid => g.leaving.filter fun t => g.returned.contains t || t == tag
      exec (.blockQuiesceSave p tag) s = .next ((s1.modPart p fun x =>
        { x with grids := Kv.modify b.grid (fun g => { g with returned := back g }) x.grids }).refreshCands p)) ∧
    (s1.block k).phase = .saved) ∧
  (∀ s p tag place x g, tag ≠ 0 → let k := blockKey p tag
    let s1 := s.refreshCands p
    let b := s.block k
    b.phase = .saved → b.part = some p → s1.part p = some x → Kv.find b.grid x.grids = some g → g.lrec.coop = false →
    ((b.left = [] ∧ s1.mayTake p x b.grid g = true ∧ g.nextBlock = g.lrec.total ∧ g.returned.head? = some tag) ∨
      (b.left ≠ [] ∧ x.moor = .awake ∧ x.admitStop = false ∧ ∀ c ∈ place.cores, c ∉ b.left)) →
    s1.budgetOk p g.node b.holds = true →
    s1.placeOk ((s1.clustersOf p false).filter fun c => !(x.protectedFrom g).contains c) b.needs place = true →
    exec (.blockRestore p tag place) s = .next (s1.restoreBlock k place)) ∧
  (∀ s p id x g since, s.part p = some x → Kv.find id x.grids = some g → s.stalled p id g = true →
    g.stallSince = some since → s.stalledSince p id since = true → since.2 + 1000 * (s.effOf p g.node).stall ≤ s.clock →
    exec (.rotation p id) s = .next ((s.modPart p fun y =>
      { y with grids := Kv.insert id { g with stallSince := none } y.grids }).later
        (((s.residents p id).take (s.rotateCount p g (s.residents p id))).map fun k => .preemptRequest p k))) ∧
  (∀ s tag b p l, Kv.find tag s.blocks = some b → b.part = some p → b.tag ≠ 0 → b.phase = .resident →
    s.lostBlock b = false → b.since + 10000000 ≤ s.clock → let cores := b.cores.map (·.2.core)
    s.elsewhere p b cores = some l → exec (.migration tag) s =
      .next ((s.modBlock tag fun y => { y with left := cores }).later [.preemptRequest p tag]))

/-- An instruction that needs steward privilege raises PRIVILEGE in a user's thread (R25, R59, R73). -/
def Obligations.StewardInstructionsNeedPrivilege : Prop :=
  ∀ ins com srcs dsts s g i b t x, stewForm ins = some (com, srcs, dsts) → Alone s g i b t x → Active com t →
    t.priv = .user → Traps s g i b t ins [] (Exc.of .privilege)

/-- A thread at a TRAP is held there with its destination and sends a record of KIND 0x05 to the event queue; EVPOST
sends one of KIND 0x06 and answers 1, or 0 where 64 records of the partition wait already. Both release at package scope
(R236, R276, R342, R344, R349, R350). -/
def Obligations.TrapsAndPosts : Prop :=
  (∀ com (code : BitVec 6) dst a s g i b t x p y, CanIssue s g i b t x com [(a, true)] [(dst, false)] →
    b.part = some p → s.part p = some y → let ins : Instr := .trap com code dst a
    (s.posting g.block = true → exec ins s = .next (s.waitFor g.core g.e [])) ∧
    (Settled s g.block false → ∃ s' r z, exec ins s = .next s' ∧ s'.mem = s.mem ∧ s'.entry g.core g.e = none ∧
      s'.thread g.block i = { t with
        pc := t.pc + lenOf ins
        tsLatch := latched s t [(a, true)]
        stat := .trapped dst
        since := s.tick } ∧
      (∀ j ≠ i, (s'.block g.block).thread j = b.thread j) ∧ (s'.block g.block).relCount = (b.relCount + 1) % 2 ^ 32 ∧
      s'.agenda = .recordWrite p 0 :: s.agenda ∧ s'.part p = some z ∧
      (Kv.get Ring.empty 0 z.rings).waiting = insertRecord r (Kv.get Ring.empty 0 y.rings).waiting ∧
      r.cls = 0x18 ∧ r.kind = 0x05 ∧ r.held = true ∧ r.detail = code.toNat ∧ r.aux = (reads s g 0 i (a, true)).toNat ∧
      r.tag = b.tag ∧ r.tidx = i ∧ r.lane = t.lane ∧ r.pc = t.pc)) ∧
  (∀ com (code : BitVec 16) dst a s g i b t x p y, CanIssue s g i b t x com [(a, true)] [(dst, false)] →
    b.part = some p → s.part p = some y → Settled s g.block false → let ins : Instr := .evpost com false code dst a
    let s1 := (issued s g i ins [(a, true)]).releases g.block 1
    (y.waitingFree < 64 → ∃ r, r.cls = 0 ∧ r.kind = 0x06 ∧ r.held = false ∧ r.detail = code.toNat ∧
      r.aux = (reads s g 0 i (a, true)).toNat ∧ r.tag = b.tag ∧ r.tidx = i ∧
      Completes s g i ins ((s1.putPart p { y with
        rings := Kv.insert 0 { Kv.get Ring.empty 0 y.rings with
          waiting := insertRecord r (Kv.get Ring.empty 0 y.rings).waiting } y.rings }).later [.recordWrite p 0]) (res dst 1)) ∧
    (64 ≤ y.waitingFree → Completes s g i ins (s1.putPart p { y with
      rings := Kv.insert 0 { Kv.get Ring.empty 0 y.rings with dropped := true } y.rings }) (res dst 0)))

/-- TRET returns a held thread from its exception: .rep replays the instruction of its operand log first, or gives a
trapped thread its value; .skip goes on at the stop point; .kill ends the thread; .can cancels a parked operation;
.killb ends a block and .pre pre-empts it. A handle that names nothing held answers 1, a target of the other kind 2
(R341, R347, R348). A replayed instruction reads the values of its operand log, counts as active whatever its guard, and
leaves the PC at the stop point (R340, R341). -/
def Obligations.ReturnsFromExceptions : Prop :=
  (
  ∀ com dst a c s g i b t x p, let srcs : List Src := [(a, true), (c, false)]
    StewIssue s g i b t x com srcs [(dst, false)] p →
    let s0 (ins : Instr) := issued s g i ins srcs
    let h := (reads s g 0 i (a, true)).toNat
    let v := reads s g 0 i (c, false)
    let rep : Instr := .tretRep com dst a c
    let skip : Instr := .tretSkip com dst a c
    let kill : Instr := .tretKill com dst a c
    let can : Instr := .tretCan com dst a c
    let killb : Instr := .tretKillb com dst a c
    let pre : Instr := .tretPre com dst a c
    (s.heldTarget p h = none → ∀ ins ∈ [rep, skip, kill, can], Completes s g i ins (s0 ins) (res dst 1)) ∧
    (∀ k j y e log, s.heldTarget p h = some (.thread k j) → Kv.find j (s.block k).threads = some y →
      y.stat = .faulted e log →
      Completes s g i rep ((s0 rep).modThread k j (·.resume true)) (res dst 0) ∧
      Completes s g i skip ((s0 skip).modThread k j (·.resume false)) (res dst 0)) ∧
    (∀ k j d y, s.heldTarget p h = some (.thread k j) → Kv.find j (s.block k).threads = some y → y.stat = .trapped d →
      Completes s g i rep ((writeDst (s0 rep) k j true (d, false) v).modThread k j (·.resume false)) (res dst 0)) ∧
    (∀ (y : Thread) e log, y.stat = .faulted e log →
      (log.pc ≠ y.pc → y.resume true = { y with stat := .ready, rep := some log }) ∧
      y.resume false = { y with stat := .ready, rep := none }) ∧
    (∀ (y : Thread) d, y.stat = .trapped d → y.resume false = { y with stat := .ready }) ∧
    (∀ k j, s.heldTarget p h = some (.thread k j) → Completes s g i kill ((s0 kill).endThreads k [j]) (res dst 0) ∧
      Completes s g i can (s0 can) (res dst 2)) ∧
    (∀ k j op e, s.heldTarget p h = some (.op k j op e) →
      Completes s g i rep ((s0 rep).modBc k j (·.modOp op.tl op.num fun o => { o with stat := .queued })) (res dst 0) ∧
      Completes s g i skip (s0 skip) (res dst 2) ∧ Completes s g i kill (s0 kill) (res dst 2) ∧
      ((s.block k).phase = .saved → Completes s g i can
        ((s0 can).modBc k j (·.modOp op.tl op.num fun o => { o with stat := .cancelled e })) (res dst 0)) ∧
      ((s.block k).phase ≠ .saved → Completes s g i can ((s0 can).cancelHead k j op e) (res dst 0))) ∧
    (s.handleBlock p h = none → Completes s g i killb (s0 killb) (res dst 1) ∧ Completes s g i pre (s0 pre) (res dst 1)) ∧
    (∀ k, s.handleBlock p h = some k →
      Completes s g i killb ((s0 killb).contextRung k) (res dst 0) ∧
      ((s.block k).phase ≠ .resident → Completes s g i pre (s0 pre) (res dst 1)) ∧
      ((s.block k).phase = .resident → Completes s g i pre
        (((s0 pre).requestPreempt k).later [.blockQuiesceSave p (s.block k).tag]) (res dst 0)))) ∧
  (
  ∀ s g log (u : Use) i, g.ov = some log → log.srcs.length = u.srcs.length →
    readAll s g u i = log.srcs ∧ (∀ c t, guarded g c t = true) ∧
    ∀ n j t, Kv.find g.block s.blocks ≠ none → Kv.find j (s.block g.block).threads = some t →
      ((advance s g n).thread g.block j).pc = t.pc)

/-- TLBI, SCRUB and HARVEST check their operands and hold their group for an operation of the package, which ends with
the translations dropped, the frames zero, the blocks of the lost die ended, and the group's threads ready (R242, R255,
R343, R346, R359 to R361). -/
def Obligations.PackageOperations : Prop :=
  (∀ com a c s g i b t x p, let srcs : List Src := [(a, true), (c, false)]
    StewIssue s g i b t x com srcs [] p → let ins : Instr := .tlbiVa com a c
    let va := (reads s g 0 i (a, true)).toNat
    let n := (reads s g 0 i (c, false)).toNat
    (va % 4096 ≠ 0 → Traps s g i b t ins (values s g i srcs) ⟨.align, 0, 0, va, 0⟩) ∧
    (va % 4096 = 0 → n = 0 ∨ 2 ^ 52 < va + 4096 * n → Traps s g i b t ins (values s g i srcs) ⟨.addrRange, 0, 0, va, 0⟩) ∧
    (va % 4096 = 0 → 0 < n → va + 4096 * n ≤ 2 ^ 52 → Settled s g.block true → exec ins s = .next
      (heldForOp ((issued s g i ins srcs).releases g.block 1) g i b t p (.tlbi va (va + 4096 * n)) .zero))) ∧
  (∀ com s g i b t x p, StewIssue s g i b t x com [] [] p → let ins : Instr := .tlbiAll com
    (s.posting g.block = true → exec ins s = .next (s.waitFor g.core g.e [])) ∧
    (Settled s g.block true → exec ins s = .next
      (heldForOp ((issued s g i ins []).releases g.block 1) g i b t p (.tlbi 0 (2 ^ 52)) .zero))) ∧
  (∀ com (rel : Bool) dst a c s g i b t x p y, let srcs : List Src := [(a, true), (c, false)]
    StewIssue s g i b t x com srcs [(dst, false)] p → s.part p = some y → let ins : Instr := .scrub com rel dst a c
    let gpa := (reads s g 0 i (a, true)).toNat
    let n := (reads s g 0 i (c, false)).toNat
    gpa % 4096 = 0 → 0 < n → n ≤ 0x100000 → gpa + 4096 * n ≤ 2 ^ 52 →
    (∀ k < n, ∃ r, stage2 y (gpa + 4096 * k) = .ok r) →
    exec ins s = .next (heldForOp (issued s g i ins srcs) g i b t p (.scrub rel gpa n) dst)) ∧
  (∀ com dst a s g i b t x p, let srcs : List Src := [(a, false)]
    StewIssue s g i b t x com srcs [(dst, false)] p → let ins : Instr := .harvest com dst a
    let die := (reads s g 0 i (a, false)).toNat
    (7 < die ∨ s.harbour.lostDies.contains die = false →
      Completes s g i ins (issued s g i ins srcs) (res dst 0xFFFFFFFF)) ∧
    (die ≤ 7 → s.harbour.lostDies.contains die = true →
      exec ins s = .next (heldForOp (issued s g i ins srcs) g i b t p (.harvest die) dst))) ∧
  (∀ s op w lo hi, Kv.find op s.ops = some ⟨w, .tlbi lo hi⟩ → let s1 := s.invalidate w.part lo hi
    (s1.actsThrough w.part lo hi = false → exec (.tlbiComplete op) s = .next (s1.finishOp op 0)) ∧
    (s1.actsThrough w.part lo hi = true → exec (.tlbiComplete op) s = .next s1) ∧
    (∀ c e, e ∈ (s1.core c).tlb ∨ e ∈ Kv.get [] c s1.clusterTlbs → e.meets w.part lo hi = false) ∧
    ∀ c e, e ∈ (s1.core c).icache → e.1.1 = some w.part → hi ≤ e.1.2 ∨ e.1.2 + 32 ≤ lo) ∧
  (∀ s op w rel start n, Kv.find op s.ops = some ⟨w, .scrub rel start n⟩ →
    exec (.scrubComplete op) s = .next ((if rel then s.unmapFrames w.part (framesOf start n) else s).scrubOn op w rel false
      (s.framesAt w.part (framesOf start n)))) ∧
  (∀ s op w l z, Kv.find op s.ops = some ⟨w, .scrubbing l z⟩ →
    exec (.scrubComplete op) s = .next (s.scrubOn op w true z l)) ∧
  (∀ (s : State) op (w : Starter) (rel zeroed : Bool) (l : List Nat), let s1 := if zeroed then s else l.foldl State.zeroFrame s
    let v := ((s1.part w.part).map (·.scrubSeq)).getD 0 + 1
    (zeroed = false → rel = true → s.actsThrough w.part 0 (2 ^ 52) = true → s.scrubOn op w rel zeroed l =
      { s with ops := Kv.insert op ⟨w, .scrubbing l false⟩ s.ops }) ∧
    (zeroed = true ∨ rel = false ∨ s.actsThrough w.part 0 (2 ^ 52) = false →
      (s1.framesSettling l = true → s.scrubOn op w rel zeroed l =
        { s1 with ops := Kv.insert op ⟨w, .scrubbing l true⟩ s1.ops }) ∧
      (s1.framesSettling l = false → s.scrubOn op w rel zeroed l =
        (s1.modPart w.part fun y => { y with scrubSeq := v }).finishOp op (BitVec.ofNat 64 v)))) ∧
  (∀ (s : State) spa, s.target spa ≠ .remote → (∀ a, spa ≤ a → a < spa + 4096 → (s.zeroFrame spa).byteAt a = 0) ∧
    ∀ a, a < spa ∨ spa + 4096 ≤ a → (s.zeroFrame spa).byteAt a = s.byteAt a) ∧
  (∀ s op w die, Kv.find op s.ops = some ⟨w, .harvest die⟩ → s.dieUnperformed die = false →
    let lost := s.blocks.filter fun b => b.2.part == some w.part && b.2.tag != 0 && b.2.lostOn die
    let grids := distinct (lost.map fun b => s.gridRec b.2)
    let s1 := lost.foldl (fun s b => s.harvestBlock b.1) s
    let s2 := grids.foldl (fun s a => (s.sendRecord w.part 0
      { FaultRec.ofKind 0x0A with aux := a, die := die, part := w.part }).1) s1
    exec (.harvestComplete op) s = .next (s2.finishOp op (BitVec.ofNat 64 lost.length))) ∧
  (∀ s die, die < 8 → s.harbour.lostDies.contains die = false → ∃ s', exec (.computeDieLost die) s = .next s' ∧
    s'.harbour.lostDies = s.harbour.lostDies ++ [die] ∧ s'.mem = s.mem ∧
    (∀ c, 48 * die ≤ c → c < 48 * die + 48 → Kv.find c s'.cores = none ∧ c ∈ s'.absent.noCores) ∧
    ∀ c, c < 48 * die ∨ 48 * die + 48 ≤ c → Kv.find c s'.cores = Kv.find c s.cores)

/-- A waiting record is written into its ring where the ring has room, 64 bytes at PROD modulo its size, and PROD is
raised; a written record of the event queue makes an event pending; a poll of CONS that finds room has the record
written (R107, R342, R344). -/
def Obligations.RecordRings : Prop :=
  (∀ s p ring x r rest s1, s.part p = some x → Kv.get Ring.empty ring x.rings = r → r.waiting.head? = some rest →
    x.ringAt ring ≠ 0 → s.ringPut p (x.ringAt ring) (rest.toNat r.dropped) = .ok (true, s1) →
    exec (.recordWrite p ring) s = .next (s1.ringWritten p ring)) ∧
  (∀ s p ring x hdr s1, s.part p = some x → (Kv.get Ring.empty ring x.rings).waiting ≠ [] → x.ringAt ring ≠ 0 →
    s.ringRead p (x.ringAt ring) 32 = .ok (hdr, s1) → exec (.ringConsPoll p ring) s =
      .next (if (ringNext hdr).isSome then s1.later [.recordWrite p ring] else s1)) ∧
  (∀ hdr, hdr < 2 ^ 256 → let prod := hdr % 2 ^ 64
    let cons := hdr / 2 ^ 64 % 2 ^ 64
    let n := hdr / 2 ^ 128 % 16
    ringNext hdr = if 4 ≤ n ∧ cons ≤ prod ∧ prod - cons < 2 ^ n then some prod else none) ∧
  (∀ (s : State) p x, s.part p = some x → x.moor ≠ .awake → ∃ y, (s.ringWritten p 0).part p = some y ∧
    y.eventPend = true ∧ (Kv.get Ring.empty 0 y.rings).waiting = (Kv.get Ring.empty 0 x.rings).waiting.drop 1)

/-- The vector words of a ferry core: each lane of the mask takes its elements' results and the other lanes keep theirs
(R409, R410); VCMP writes a mask, VRED folds the lanes of the mask in order into a scalar register, FEVAL looks every
element up in the kernel's table and traps at the first that has no segment or belongs to a table of another kind (R411,
R412). -/
def Obligations.FerryVectorWords : Prop :=
  (∀ ins d a b' m w f, ferryElementwise ins = some (d, a, b', m, w, f) → ∀ s stk fc c r b, FerryAt s stk fc c r b 1 →
    ∃ r1 v, FerryGoes s stk fc c r b ins 1 r1 (r.idx + 1) ∧ TakesFv r r1 d m v ∧ ∀ l < 32, ∀ k < 32 / w,
      laneElem w (v l) k = (BitVec.ofInt w (f (laneElem w (r.lane a l) k) (laneElem w (r.lane b' l) k)
        (laneElem w (r.lane d l) k))).toNat) ∧
  (∀ d a b' m sel s stk fc c r b, FerryAt s stk fc c r b 1 →
    ∃ r1, FerryGoes s stk fc c r b (.vsel d a b' m sel) 1 r1 (r.idx + 1) ∧
      TakesFv r r1 d m fun l => if (r.mask sel).toNat.testBit l then r.lane a l else r.lane b' l) ∧
  (∀ d a b' m form s stk fc c r b, FerryAt s stk fc c r b 1 →
    ∃ r1, FerryGoes s stk fc c r b (.vcvt d a b' m form) 1 r1 (r.idx + 1) ∧
      TakesFv r r1 d m fun l => laneConvert form (r.lane a l) (r.lane b' l)) ∧
  (∀ d a m s stk fc c r b, FerryAt s stk fc c r b 1 →
    ∃ r1, FerryGoes s stk fc c r b (.vbcast d a m) 1 r1 (r.idx + 1) ∧ TakesFv r r1 d m fun _ => r.fs_ a) ∧
  (∀ fm a b' m cond flt s stk fc c r b, FerryAt s stk fc c r b 1 →
    ∃ r1, FerryGoes s stk fc c r b (.vcmp fm a b' m cond flt) 1 r1 (r.idx + 1) ∧ OnlyFm r r1 ∧
      (∀ n, n ≠ fm → r1.mask n = r.mask n) ∧ (fm = 0 → r1.mask 0 = r.mask 0) ∧
      (fm ≠ 0 → ∀ l < 32, (r1.mask fm).toNat.testBit l =
        ((r.mask m).toNat.testBit l && laneCompare cond flt (r.lane a l) (r.lane b' l)))) ∧
  (∀ d a m op flt s stk fc c r b, FerryAt s stk fc c r b 2 →
    let fold : SquadOp := match op, flt with
      | .add, false => .addI32
      | .add, true => .addF32
      | .min, false => .minI32
      | .min, true => .minF32
      | .max, false => .maxI32
      | .max, true => .maxF32
    ∃ r1, FerryGoes s stk fc c r b (.vred d a m op flt) 2 r1 (r.idx + 1) ∧ TakesFs r r1 d (BitVec.ofNat 32
      (squadFold fold (((List.range 32).filter fun l => (r.mask m).toNat.testBit l).map fun l => (r.lane a l).toNat)))) ∧
  (∀ d a m table bf16 s stk fc c r b, FerryAt s stk fc c r b 2 →
    let ins : Instr := .feval d a m table bf16
    let t := c.kernel.tables.getD (boolNat table) ⟨[], []⟩
    let on (l : Nat) : Prop := l < 32 ∧ (r.mask m).toNat.testBit l = true
    (∀ v : Nat → Nat, (∀ l, on l → fevalLane t bf16 (r.lane a l).toNat = .ok (v l)) →
      ∃ r1, FerryGoes s stk fc c r b ins 2 r1 (r.idx + 1) ∧ TakesFv r r1 d m fun l => BitVec.ofNat 32 (v l)) ∧
    (∀ l e, on l → fevalLane t bf16 (r.lane a l).toNat = .error e →
      (∀ k < l, on k → ∃ v, fevalLane t bf16 (r.lane a k).toNat = .ok v) → FerryTrapped s stk fc r b ins e.code 0 l))

/-- The scalar and control words of a ferry core (R413 to R415): SADD to SMOVI write one register; BR and BRM go to the
target where their condition holds; REP sets its counter to 0 and runs the body from the next word, and at the end of
the body the invocation goes back to its first word until the count is reached. -/
def Obligations.FerryScalarWords : Prop :=
  (∀ ins s stk fc c r b d v, FerryAt s stk fc c r b 1 → ferryScalarOf r ins = some (d, v) →
    ∃ r1, FerryGoes s stk fc c r b ins 1 r1 (r.idx + 1) ∧ TakesFs r r1 d v) ∧
  (∀ ins s stk fc c r b disp yes, FerryAt s stk fc c r b 1 → ferryBranchOf r ins = some (disp, yes) →
    FerryGoes s stk fc c r b ins 1 r (r.idx + if yes then disp else 1)) ∧
  (∀ n x len s stk fc c r b, FerryAt s stk fc c r b 1 →
    ∃ r1, FerryGoes s stk fc c r b (.rep n x len) 1 { r1 with rep := some ⟨r.idx + 1, r.idx + len.val, 0, n.val + 1, x⟩ }
      (r.idx + 1) ∧ OnlyFs r r1 ∧ ∀ k, r1.fs_ k = if x = some k then 0 else r.fs_ k) ∧
  (∀ (r : FerryRun) q, r.rep = some q →
    (∀ n, n ≠ q.last + 1 → r.goTo n = { r with idx := n }) ∧
    (q.count ≤ q.iter + 1 → r.goTo (q.last + 1) = { r with idx := q.last + 1, rep := none }) ∧
    (q.iter + 1 < q.count → let r' := r.goTo (q.last + 1)
      r'.idx = q.first ∧ r'.rep = some { q with iter := q.iter + 1 } ∧ r'.cycles = r.cycles ∧ r'.fv = r.fv ∧
      ∀ k, r'.fs_ k = if q.x = some k then BitVec.ofNat 32 (q.iter + 1) else r.fs_ k))

/-- The words of a packet's fate (R393, R396, R416): FWD and DROP end the invocation, its writes of flow state
committed, and FWD sends the packet on; FTRAP traps with its code and its register; EMIT adds the window's packet, named
as this core's, to those that leave at the end; PSET replaces one field of the header. A word whose granule reads as
uncorrectable traps FERRY_POISON, and a word that would pass the kernel's bound traps FERRY_BUDGET (R400, R401). -/
def Obligations.FerryPacketWords : Prop :=
  (∀ (fwd : Bool) s stk fc c r b, FerryAt s stk fc c r b 1 →
    let ins : Instr := if fwd then .fwd else .drop
    let x := packetOf r.window
    (exec ins s = .next (s.ferryEnd stk fc { r with cycles := r.cycles + 1 + ferryFix c r } b fwd)) ∧
    (r.emits = [] → (fwd = true → x.dpkg = s.harbour.pkg ∧ s.absent.noStacks.contains x.dstk = false ∧ x.dstk ≠ stk) →
      ∀ n, (fwd = true → s.nextHop stk x.dstk = some n) →
      ∃ s', exec ins s = .next s' ∧ s'.mem = s.mem ∧ s'.parts = s.parts ∧ s'.focus = .none ∧
        s'.agenda = (if fwd then [.clf n x] else []) ++ s.agenda ∧
        s'.ferry stk fc = { s.ferry stk fc with
          run := none
          bindings := (s.ferry stk fc).bindings.map fun y =>
            if y.job = b.job ∧ y.flow = b.flow then { y with area := r.area } else y })) ∧
  (∀ a code s stk fc c r b, FerryAt s stk fc c r b 1 →
    FerryTrapped s stk fc r b (.ftrap a code) 0x23 code.val (r.fs_ a).toNat) ∧
  (∀ s stk fc c r b, FerryAt s stk fc c r b 4 →
    FerryGoes s stk fc c r b .emit 4 { r with emits := r.emits ++ [{ packetOf r.window with
      spkg := s.harbour.pkg
      sstk := stk
      sag := 0x180 + 8 * stk + fc
      txid := 0 }] } (r.idx + 1)) ∧
  (∀ a fld s stk fc c r b, FerryAt s stk fc c r b 1 →
    let lo : Nat := match fld with
      | .dpkg => 246
      | .dstk => 242
      | .imml => 0
      | .immh => 32
      | .ndf => 200
    let w : Nat := match fld with
      | .dpkg => 10
      | .dstk => 4
      | .imml => 32
      | .immh => 32
      | .ndf => 4
    ∃ win, FerryGoes s stk fc c r b (.pset a fld) 1 { r with window := win } (r.idx + 1) ∧
      (∀ k, 32 ≤ k → Kv.get 0 k win = Kv.get 0 k r.window) ∧
      ∀ k < 256, (Kv.get (0 : Byte) (k / 8) win).getLsbD (k % 8) =
        if lo ≤ k ∧ k < lo + w then (r.fs_ a).getLsbD (k - lo) else (Kv.get (0 : Byte) (k / 8) r.window).getLsbD (k % 8)) ∧
  (∀ ins n s stk fc c r b, ferryCyclesOf ins = some n → s.focus = .ferry stk fc → s.fctx stk fc = some (c, r, b) →
    (c.core.badStore.contains (c.granule r.idx) = true → FerryTrapped s stk fc r b ins 0x22 0 0) ∧
    (c.core.badStore.contains (c.granule r.idx) = false → c.kernel.bound < r.cycles + n + ferryFix c r →
      FerryTrapped s stk fc r b ins 0x20 0 0))

/-- PLD, PST, SLD and SST (R417): the address is FS[A] + OFF; a word of 4 bytes is aligned to 4, a vector of 128 to 32,
in the window of 512 bytes, whose first 32 no PST writes, or in the flow state of the kernel; another access traps
FERRY_RANGE, and a read of flow state that is uncorrectable FERRY_POISON. Words are little-endian, lane 0 first. -/
def Obligations.FerryAccessWords : Prop :=
  ∀ ins s stk fc c r b d o (store flow v : Bool), ferryAccessOf r ins = some (d, o, store, flow, v) →
    let size := if v then 128 else 4
    let limit := if flow then 64 * c.kernel.state64 else 512
    let fits : Prop := o % (if v then 32 else 4) = 0 ∧ o + size ≤ limit ∧ (store = true → flow = false → 32 ≤ o)
    let old := if flow then r.area else r.window
    let read (l : Nat) (k : Nat) : Byte := Kv.get 0 (o + 4 * l + k) (if flow then r.area else r.window)
    let granules := (List.range (size / 32 + 1)).map fun k => (r.job, r.flow, o / 32 + k)
    let touched := if v then granules.take 4 else granules.take 1
    let cost := (if v then 2 else 1) + if fits ∧ flow = true ∧ store = false ∧ touched.any c.core.fixFlow.contains then 4 else 0
    FerryAt s stk fc c r b cost →
    (¬ fits → FerryTrapped s stk fc r b ins 0x21 0 o) ∧
    (fits → store = false → flow = true → touched.any c.core.badFlow.contains = true →
      FerryTrapped s stk fc r b ins 0x22 0 0) ∧
    (fits → store = false → flow = false ∨ touched.any c.core.badFlow.contains = false →
      ∃ r1, FerryGoes s stk fc c r b ins cost r1 (r.idx + 1) ∧
        (v = false → TakesFs r r1 d (BitVec.ofNat 32 (leRead (read 0) 0 4))) ∧
        (v = true → TakesFv r r1 d 0 fun l => BitVec.ofNat 32 (leRead (read l) 0 4))) ∧
    (fits → store = true →
      ∃ m, FerryGoes s stk fc c r b ins cost (if flow then { r with area := m } else { r with window := m }) (r.idx + 1) ∧
        (∀ k, k < o ∨ o + size ≤ k → Kv.get 0 k m = Kv.get 0 k old) ∧
        (∀ l < size / 4, ∀ k < 4, Kv.get 0 (o + 4 * l + k) m =
          BitVec.ofNat 8 ((if v then r.lane d l else r.fs_ d).toNat / 256 ^ k)))

/-- A micro-operation whose condition fails, and NBNOP, only move the run on; NBZERO, the elementwise ones and NBFOLD
write one accumulator of each unit of the run; NBLD reads an atom of each, or stops the run with CODE 3 at a granule
that reads as uncorrectable; NBST writes the atoms as one write, little-endian; NBOUT writes a result slot of the status
block (R419 to R422, R425, R426). -/
def Obligations.NearBankWords : Prop :=
  (∀ ins cond s stk unit u, nbCondOf ins = some cond → NbAt s stk unit u → ¬ nbCondHolds u cond ∨ ins = .nbnop cond →
    ∃ v, NbGoes s stk unit ins s v ∧ nbAhead u v ∧ v.acc = u.acc) ∧
  (∀ d cond s stk unit u, NbAt s stk unit u → nbCondHolds u cond →
    ∃ v, NbGoes s stk unit (.nbzero d cond) s v ∧ nbAhead u v ∧ TakesAcc u v d fun _ => 0) ∧
  (∀ ins cond d a b k ty f s stk unit u, nbElementwise ins = some (cond, d, a, b, k, ty, f) → NbAt s stk unit u →
    nbCondHolds u cond → let w := if ty = .bf16 then 16 else 32
    ∃ v z, NbGoes s stk unit ins s v ∧ nbAhead u v ∧ TakesAcc u v d z ∧ ∀ h < 2, ∀ e < 256 / w,
      let y := if k then (u.run.ks.getD b.val 0).toNat % 2 ^ w else nbElem ty (u.get h b) e
      nbElem ty (z h) e = (BitVec.ofInt w (f (nbElem ty (u.get h a) e) y (nbElem ty (u.get h d) e))).toNat) ∧
  (∀ d a ty rnd cond s stk unit u, NbAt s stk unit u → nbCondHolds u cond →
    ∃ v, NbGoes s stk unit (.nbfold d a ty rnd cond) s v ∧ nbAhead u v ∧
      TakesAcc u v d fun h => nbFolded ty (FRnd.mode rnd) (u.get h a)) ∧
  (∀ d q cond s stk unit u, NbAt s stk unit u → nbCondHolds u cond →
    let t := s.snoop (u.atom q 0 / 64) false
    ((∀ h ∈ u.halves, t.poisonedIn (u.atom q h) 32 = none) →
      ∃ v, NbGoes s stk unit (.nbld d q cond) t v ∧ nbAhead u v ∧ TakesAcc u v d fun h => leRead t.byteAt (u.atom q h) 32) ∧
    (∀ gr, t.poisonedIn (u.atom q 0) 32 = some gr →
      exec (.nbld d q cond) s = .next ((t.markRead gr).endCur (64 * stk + unit) u 3 0))) ∧
  (∀ a q cond s stk unit u, NbAt s stk unit u → nbCondHolds u cond →
    PlainPlace s (u.atom q 0) (32 * u.halves.length) →
    ∃ t v, NbGoes s stk unit (.nbst a q cond) t v ∧ nbAhead u v ∧ v.acc = u.acc ∧
      Stored s t (u.atom q 0) (32 * u.halves.length) (u.get 0 a + if u.run.dove then 2 ^ 256 * u.get 1 a else 0)) ∧
  (∀ a slot cond s stk unit u spa, NbAt s stk unit u → nbCondHolds u cond → u.run.status[slot.val + 1]? = some spa →
    PlainPlace s spa 32 →
    ∃ t v, NbGoes s stk unit (.nbout a slot cond) t v ∧ nbAhead u v ∧ v.acc = u.acc ∧ Stored s t spa 32 (u.get 0 a))

/-- The course of a run: NB.LOAD and NB.RUN take numbers of timeline 11 where their checks pass; an image fills its slot
with its program or with the reason it fails; a run starts with its slot's program as it stands, or ends with CODE 1; a
row step, once no other package holds a line of the row, performs the micro-operations of 32 columns; after a row the
run goes on, is suspended, or ends with CODE 0 (R418 to R426, R432 to R434). -/
def Obligations.NearBankRuns : Prop :=
  (∀ com (all : Bool) dst a c d s g i b t x p y, let srcs : List Src := [(a, true), (c, false), (d, false)]
    MayIssue s g i b t x com srcs [(dst, false)] → b.part = some p → s.part p = some y →
    let ins : Instr := .nbLoad com all dst a c d
    let va := (reads s g 0 i (a, true)).toNat
    let stk := (reads s g 0 i (c, false)).toNat
    let slot := (reads s g 0 i (d, false)).toNat
    let stks := if all then s.stackList else [stk]
    let n := ((x.tl 11).issued + 1) % 2 ^ 32
    (va % 16 ≠ 0 → Traps s g i b t ins (values s g i srcs) ⟨.align, 0, 0, va, 0⟩) ∧
    (va % 16 = 0 → (all = false ∧ stk ∉ s.stackList) ∨ 15 < slot →
      Traps s g i b t ins (values s g i srcs) (Exc.of (.baseDie 0x31))) ∧
    (va % 16 = 0 → all = true ∨ stk ∈ s.stackList → slot ≤ 15 →
      ((∃ k ∈ stks, y.nbHolds k slot = false ∧ 64 ≤ s.nbUsed k) →
        Traps s g i b t ins (values s g i srcs) (Exc.of (.baseDie 0x32))) ∧
      ((∀ k ∈ stks, y.nbHolds k slot = true ∨ s.nbUsed k < 64) →
        Completes s g i ins ((numbered (issued s g i ins srcs) g t x 11).modPart p fun z =>
          { z with nbLoads := z.nbLoads ++ [⟨starterOf g b t p n, stks, slot, va⟩] }) (res dst n)))) ∧
  (∀ com dst a c d s g i b t x, let srcs : List Src := [(a, true), (c, false), (d, false)]
    MayIssue s g i b t x com srcs [(dst, false)] → let ins : Instr := .nbRun com dst a c d
    let va := (reads s g 0 i (a, true)).toNat
    (va % 64 ≠ 0 → Traps s g i b t ins (values s g i srcs) ⟨.align, 0, 0, va, 0⟩) ∧
    (va % 64 = 0 → ∀ w s1, readGlobal (issued s g i ins srcs) g i va 64 = .ok (w, s1) →
      (descBad w = true → Traps s g i b t ins (values s g i srcs) (Exc.of (.baseDie 0x30))) ∧
      (descBad w = false → let r := s1.takeNum g.block (s1.thread g.block i).bc 11
        ∀ run, prepareRun s1 (Starter.ofGrp s1 g i r.1) w (reads s g 0 i (c, false)).toNat
            (if d = .special 0 then none else some ((reads s g 0 i (d, false)).setWidth 32)) none = .ok run →
          Settled r.2 g.block false →
          Completes s g i ins ((r.2.releases g.block 1).queueRun run) (res dst r.1)))) ∧
  (∀ part stack slot s o h ops s1 y, ((s.part part).bind fun x => x.nbLoads.find? fun o =>
      o.slot == slot && o.stks.contains stack && s.turnOf11 o.starter) = some o →
    readNbImage s o.starter (dieActor s o.starter stack) o.img = .ok (h, ops, s1) → s1.part part = some y →
    ∃ t z, exec (.nbImageLoadComplete part stack slot) s = .next t ∧ t.part part = some z ∧
      Kv.find (16 * stack + slot) z.nbSlots =
        some (if nbReason h ops = 0 then .valid (bitsOf h 63 32) ops else .invalid (nbReason h ops))) ∧
  (∀ n s r y, ((s.unit n).queue.find? fun r => r.leg.isSome || s.turnOf11 r.starter) = some r →
    s.unitBusy n r.dove = false → s.part r.starter.part = some y →
    (∀ ver ops, Kv.find (16 * r.stk + r.pslot) y.nbSlots = some (.valid ver ops) → r.startCode ops = 0 →
      ∃ t, exec (.nbRunStart n) s = .next t ∧ t.unit n = ⟨(s.unit n).queue.erase r, some ⟨r, ops, [], 0, 0, 0, none⟩⟩ ∧
        t.mem = s.mem ∧ t.parts = s.parts) ∧
    (Kv.find (16 * r.stk + r.pslot) y.nbSlots = none → ∀ spa l, r.leg = none → r.status = spa :: l → PlainPlace s spa 8 →
      Outlasts s r.starter → s.diePosting r.starter = false →
      ∃ t, exec (.nbRunStart n) s = .next t ∧ (t.unit n).queue = (s.unit n).queue.erase r ∧ (t.unit n).cur = none ∧
        Stored s t spa 8 1)) ∧
  (∀ n waiting s u, (s.unit n).cur = some u →
    (u.susp = none → let q := s.rowReady u
      (q.1 = true → let e := nbRow (32 * u.prog.length) u q.2
        exec (.nbRowStep n waiting) s = .next (e.2.1.nbAfter n waiting e.1 e.2.2)) ∧
      (q.1 = false → exec (.nbRowStep n waiting) s = .next q.2)) ∧
    (u.susp ≠ none → exec (.nbRowStep n waiting) s = .next s) ∧
    (∃ t, exec (.nbResume n) s = .next t ∧ t.unit n = ⟨(s.unit n).queue, some { u with susp := none }⟩ ∧ t.mem = s.mem) ∧
    (∀ since, u.susp = some since → (s.clock < since + 2560 → exec (.nbForcedStep n) s = .next s) ∧
      (since + 2560 ≤ s.clock → let v := { u with susp := none }
        let q := s.rowReady v
        (q.1 = true → let e := nbRow (32 * u.prog.length) v q.2
          exec (.nbForcedStep n) s = .next (e.2.1.nbAfter n true e.1 e.2.2)) ∧
        (q.1 = false → exec (.nbForcedStep n) s = .next q.2)))) ∧
  (∀ (s : State) (u : NbCur), u.lines.any s.probing = false → (∀ l ∈ u.lines, Unheld s l) →
    (∀ a ∈ u.run.status, s.dieMayWrite u.run.stk a 32 = true) → s.rowReady u = (true, s)) ∧
  (∀ n waiting (s : State) (u : NbCur), u.c = 32 → u.r + 1 < u.run.nrow → (s.nbAfter n waiting u 0).unit n =
    ⟨(s.unit n).queue, some { u with r := u.r + 1, c := 0, i := 0, susp := if waiting then some s.clock else none }⟩) ∧
  (∀ n waiting (s : State) (u : NbCur) spa l, u.c = 32 → u.r + 1 = u.run.nrow → u.run.leg = none →
    u.run.status = spa :: l → PlainPlace s spa 8 →
    Outlasts s u.run.starter → s.diePosting u.run.starter = false → let t := s.nbAfter n waiting u 0
    (t.unit n).cur = none ∧ Stored s t spa 8 (2 ^ 32 * (u.r + 1)))

/-- FERRY.LOAD holds the thread for its operation, which ends with the status of the first check that fails, or fills
the slot with the kernel and answers 0; FERRY.BIND, FERRY.UNBIND and FERRY.UNBIND.kern answer their status, and bind,
rebind or take away only where it is a success (R390, R391, R397 to R399, R436). A collective data packet from elsewhere
enters the queue of the ferry core whose binding it matches, or is counted as dropped where the binding is faulted;
every other packet goes on to the next stack or is held for a leg. An invocation starts with the packet in the window,
the flow state of its binding and all registers 0. Packets held for 1 ms are dropped (R386, R387, R388, R392, R393,
R402, R430). -/
def Obligations.FerryLoaderAndRouting : Prop :=
  (
  (∀ com dst a c d s g i b t x p, let srcs : List Src := [(a, true), (c, false), (d, false)]
    MayIssue s g i b t x com srcs [(dst, false)] → b.part = some p → let ins : Instr := .ferryLoad com dst a c d
    let va := (reads s g 0 i (a, true)).toNat
    let w := (reads s g 0 i (d, false)).toNat
    (va % 64 ≠ 0 → Traps s g i b t ins (values s g i srcs) ⟨.align, 0, 0, va, 0⟩) ∧
    (va % 64 = 0 → exec ins s = .next (heldForOp (issued s g i ins srcs) g i b t p
      (.ferryLoad (bitsOf w 3 0) (bitsOf w 6 4) (bitsOf w 12 7) (reads s g 0 i (c, false)).toNat va) dst))) ∧
  (∀ op s w stk fc slot job va, Kv.find op s.ops = some ⟨w, .ferryLoad stk fc slot job va⟩ →
    let a := { dieActor s w stk with e := 2 ^ 33 + op }
    let ends (s1 : State) (n : Nat) : Prop :=
      exec (.ferryImageLoadComplete op) s = .next ((s1.taken a.core a.e).finishOp op (BitVec.ofNat 64 n))
    let owned : Prop := ∃ j, Kv.find job s.harbour.jobs = some j ∧ j.part = w.part
    (¬ owned → ends s 14) ∧
    (owned → s.absent.noStacks.contains stk = true → ends s 9) ∧
    (owned → s.absent.noStacks.contains stk = false →
      ((∃ k, Kv.find slot (s.ferry stk fc).kernels = some k ∧
        (k.job ≠ job ∨ ∃ y ∈ (s.ferry stk fc).bindings, y.slot = slot)) → ends s 10) ∧
      ((∀ k, Kv.find slot (s.ferry stk fc).kernels = some k →
          k.job = job ∧ ∀ y ∈ (s.ferry stk fc).bindings, y.slot ≠ slot) →
        (∀ n s1, loadKernel s w a stk fc slot job va = .ok (n, none, s1) → ends s1 n) ∧
        (∀ n k s1, loadKernel s w a stk fc slot job va = .ok (n, some k, s1) →
          ends (s1.modFerry stk fc fun y => { y with kernels := Kv.insert slot k y.kernels }) 0)))) ∧
  (∀ com dst a c d s g i b t x p, let srcs : List Src := [(a, false), (c, false), (d, false)]
    MayIssue s g i b t x com srcs [(dst, false)] → b.part = some p → let ins : Instr := .ferryBind com dst a c d
    let w := (reads s g 0 i (a, false)).toNat
    let stk := bitsOf w 3 0
    let fc := bitsOf w 6 4
    let slot := bitsOf w 12 7
    let job := (reads s g 0 i (c, false)).toNat
    let flow := (reads s g 0 i (d, false)).toNat % 2 ^ 16
    let s0 := issued s g i ins srcs
    let f := s.ferry stk fc
    let owned : Prop := ∃ j, Kv.find job s.harbour.jobs = some j ∧ j.part = p
    let usable (k : Kernel) : Prop := s.absent.noStacks.contains stk = false ∧ Kv.find slot f.kernels = some k ∧ k.job = job
    (¬ owned → Completes s g i ins s0 (res dst 14)) ∧
    (owned → (∀ k, ¬ usable k) → Completes s g i ins s0 (res dst 11)) ∧
    (∀ k, owned → usable k →
      (∀ other y, s.boundAt stk job flow = some (other, y) → other ≠ fc → Completes s g i ins s0 (res dst 12)) ∧
      ((∀ other y, s.boundAt stk job flow = some (other, y) → other = fc) →
        (s.invoking stk fc job flow = true → exec ins s = .next { s.later [.ferryInvoke stk fc] with focus := .none }) ∧
        (s.invoking stk fc job flow = false → f.binding job flow = none →
          (256 ≤ f.bindings.length ∨ s.quota job stk fc < f.flowUsed (some job) + 64 * k.state64 ∨
              262144 < f.flowUsed none + 64 * k.state64 → Completes s g i ins s0 (res dst 13)) ∧
          (f.bindings.length < 256 → f.flowUsed (some job) + 64 * k.state64 ≤ s.quota job stk fc →
            f.flowUsed none + 64 * k.state64 ≤ 262144 →
            Completes s g i ins (s0.modFerry stk fc fun y =>
              { y with bindings := y.bindings ++ [⟨job, flow, slot, starterOf g b t p 0, [], false, 0⟩] }) (res dst 0))) ∧
        (∀ old ok, s.invoking stk fc job flow = false → f.binding job flow = some old →
          Kv.find old.slot f.kernels = some ok → ok.state64 = k.state64 →
          f.flowUsed (some job) ≤ s.quota job stk fc → f.flowUsed none ≤ 262144 →
          64 * k.state64 ≤ f.flowUsed (some job) → 64 * k.state64 ≤ f.flowUsed none →
          Completes s g i ins (s0.modFerry stk fc fun y =>
            { y with bindings := y.bindings.map fun z => if z.job = job ∧ z.flow = flow then
                { z with
                  slot := slot
                  owner := starterOf g b t p 0
                  area := old.area
                  faulted := false }
              else z }) (res dst 0))))) ∧
  (∀ com dst a c s g i b t x p, let srcs : List Src := [(a, false), (c, false)]
    MayIssue s g i b t x com srcs [(dst, false)] → b.part = some p →
    let w := (reads s g 0 i (a, false)).toNat
    let stk := bitsOf w 3 0
    let v := (reads s g 0 i (c, false)).toNat
    let job := bitsOf v 27 16
    let flow := v % 2 ^ 16
    let owned : Prop := ∃ j, Kv.find job s.harbour.jobs = some j ∧ j.part = p
    let ins : Instr := .ferryUnbind com dst a c
    let kern : Instr := .ferryUnbindKern com dst a c
    (¬ owned ∨ s.boundAt stk job flow = none → Completes s g i ins (issued s g i ins srcs) (res dst 0xFFFFFFFF)) ∧
    (∀ fc y, owned → s.boundAt stk job flow = some (fc, y) → s.invoking stk fc job flow = false →
      let mine (q : Packet) : Bool := q.job == job && q.flow == flow
      Completes s g i ins ((((issued s g i ins srcs).ferry stk fc).queue.filter mine).foldl (fun z q => z.passOn stk q)
        ((issued s g i ins srcs).modFerry stk fc fun z =>
          { z with
            bindings := z.bindings.filter fun q => !(q.job == job && q.flow == flow)
            queue := z.queue.filter fun q => !mine q })) (res dst (min y.drops 0xFFFFFFFE))) ∧
    (¬ owned → Completes s g i kern (issued s g i kern srcs) (res dst 0xFFFFFFFF)) ∧
    (∀ k, let fc := bitsOf w 6 4; let slot := bitsOf w 12 7
      owned → Kv.find slot (s.ferry stk fc).kernels = some k → k.job = job →
      (∀ y ∈ (s.ferry stk fc).bindings, y.slot ≠ slot) →
      Completes s g i kern ((issued s g i kern srcs).modFerry stk fc fun z =>
        { z with kernels := Kv.erase slot z.kernels }) (res dst 0)))) ∧
  (
  (∀ stk p s, s.absent.noStacks.contains stk = false → p.op = 0x20 → p.oc = 2 →
    ¬ (p.spkg = s.harbour.pkg ∧ p.sag / 8 = 0x30 + stk) → ∀ fc b, s.boundAt stk p.job p.flow = some (fc, b) →
    let f := s.ferry stk fc
    ∃ t, exec (.clf stk p) s = .next t ∧ t.mem = s.mem ∧ t.parts = s.parts ∧ t.agenda = s.agenda ∧
      (b.faulted = false → t.ferry stk fc = { f with queue := f.queue ++ [p] }) ∧
      (b.faulted = true → t.ferry stk fc = { f with bindings := f.bindings.map fun y =>
        if y.job = p.job ∧ y.flow = p.flow then { y with drops := y.drops + 1 } else y })) ∧
  (∀ stk p s, s.absent.noStacks.contains stk = false → s.boundAt stk p.job p.flow = none → p.dpkg = s.harbour.pkg →
    s.absent.noStacks.contains p.dstk = false →
    (∀ n, p.dstk ≠ stk → s.nextHop stk p.dstk = some n → exec (.clf stk p) s = .next (s.later [.clf n p])) ∧
    (p.dstk = stk → s.taker stk p = none → (s.die stk).held = [] →
      ∃ t, exec (.clf stk p) s = .next t ∧ (t.die stk).held = [(p, s.clock)] ∧ t.mem = s.mem ∧ t.agenda = s.agenda)) ∧
  (∀ stk fc s p rest, (s.ferry stk fc).run = none → (s.ferry stk fc).queue = p :: rest →
    ∀ b, (s.ferry stk fc).binding p.job p.flow = some b →
    ∃ t, exec (.ferryInvoke stk fc) s = .next t ∧ t.mem = s.mem ∧ (t.ferry stk fc).queue = rest ∧
      (b.faulted = false → t.focus = .ferry stk fc ∧ (t.ferry stk fc).bindings = (s.ferry stk fc).bindings ∧
        (t.ferry stk fc).run = some ⟨p.job, p.flow, windowOf p, [], [], [], 0, 0, none, [], b.area⟩) ∧
      (b.faulted = true → (t.ferry stk fc).run = none ∧ (t.ferry stk fc).bindings = (s.ferry stk fc).bindings.map fun y =>
        if y.job = p.job ∧ y.flow = p.flow then { y with drops := y.drops + 1 } else y)) ∧
  (∀ stk s, ∃ t, exec (.clfHoldExpire stk) s = .next t ∧ t.mem = s.mem ∧ t.parts = s.parts ∧
    (t.die stk).held = (s.die stk).held.filter fun x => decide (s.clock < x.2 + 1000000)))

/-- COLL.START reads and checks a program and takes the next number of timeline 10; a SEND leg's elements leave in
packets of at most 32 and the leg is complete; a RECV leg takes what is held for it; an NBRUN leg queues its run. A
program past its time fails with CODE 5 at its lowest leg; the status word of one that ends says its code, leg, legs
done and elements applied (R426 to R431, R435). -/
def Obligations.CollectivePrograms : Prop :=
  (∀ com dst a s g i b t x p y, let srcs : List Src := [(a, true)]
    MayIssue s g i b t x com srcs [(dst, false)] → b.part = some p → let ins : Instr := .collStart com dst a
    let va := (reads s g 0 i (a, true)).toNat
    (va % 64 ≠ 0 → Traps s g i b t ins (values s g i srcs) ⟨.align, 0, 0, va, 0⟩) ∧
    (va % 64 = 0 → ∀ w s1, readPieces (issued s g i ins srcs) g i va 8 = .ok (w, s1) → s1.part p = some y →
      (s1.block g.block).part = some p →
      let raw := (List.range (bitsOf w 79 76 + 1)).map fun k => w / 2 ^ (256 + 128 * k) % 2 ^ 128
      let legs := raw.map fun z => Leg.ofNat s1 p z
      let job := bitsOf w 75 64
      let formed : Prop := collHdrBad w = false ∧ ∀ z ∈ (legs.zip raw).zipIdx, z.1.1.bad z.2 z.1.2 = false
      let owned : Prop := ∃ j, Kv.find job s1.harbour.jobs = some j ∧ j.part = p
      (¬ formed → Traps s g i b t ins (values s g i srcs) (Exc.of (.baseDie 0x30))) ∧
      (formed → (∃ z ∈ legs, z.astray s1 = true) → Traps s g i b t ins (values s g i srcs) (Exc.of (.baseDie 0x31))) ∧
      (formed → (∀ z ∈ legs, z.astray s1 = false) →
        (¬ owned → Traps s g i b t ins (values s g i srcs) (Exc.of (.baseDie 0x33))) ∧
        (owned → 16 ≤ y.progs.length → Traps s g i b t ins (values s g i srcs) (Exc.of (.baseDie 0x32))) ∧
        (owned → y.progs.length < 16 → let r := s1.takeNum g.block (s1.thread g.block i).bc 10
          let q := Starter.ofGrp s1 g i r.1
          ∀ pages spa, progPages s1 q legs (bitsOf w 63 0) = .ok (pages, spa) →
          Settled r.2 g.block false →
          Completes s g i ins (((r.2.releases g.block 1).modPart p fun z =>
            { z with
              progs := Kv.insert y.nextProg
                ⟨q, job, bitsOf w 127 96, s1.clock, bitsOf w 63 0, spa, legs, pages, none, false⟩ z.progs
              nextProg := y.nextProg + 1 }).later
            ((legs.zipIdx.filter fun z => z.1.after == 0xFF).map fun z => .collLegStart p y.nextProg z.2)) (res dst r.1))))) ∧
  (∀ p n k s q l, s.prog p n = some q → q.legs[k]? = some l → q.fail = none → l.started = false →
    l.after = 0xFF ∨ (∃ m, q.legs[l.after]? = some m ∧ m.done = true) →
    (∀ w es s1, l.kind = 1 → l.win = some w →
      readElems (dieActor s q.starter l.sstk) q w l.off l.nel s = .ok (es, s1) →
      exec (.collLegStart p n k) s = .next ((((s1.startLeg p n k).taken (0x200 + l.sstk) (256 + q.starter.num)).legDone p n
        k).later ((List.range ((es.length + 31) / 32)).map fun j => .clf l.sstk
          (clfPacket (((s1.startLeg p n k).taken (0x200 + l.sstk) (256 + q.starter.num)).legDone p n k) q l (l.off + 32 * j)
            ((es.drop (32 * j)).take 32))))) ∧
    (∀ w, l.kind = 2 → l.win = some w → (s.die l.dstk).held = [] →
      exec (.collLegStart p n k) s = .next (s.startLeg p n k)) ∧
    (∀ w s1 run, l.kind = 3 → dieRead s q.starter (dieActor s q.starter 0) l.runDesc 4 = .ok (w, s1) → descBad w = false →
      prepareRun ((s1.startLeg p n k).taken 0x200 (256 + q.starter.num)) q.starter w 0 none (some (n, k)) = .ok run →
      exec (.collLegStart p n k) s = .next (((s1.startLeg p n k).taken 0x200 (256 + q.starter.num)).queueRun run))) ∧
  (∀ p n s q, s.prog p n = some q → let late := q.start + 1000 * if q.tmo = 0 then 10000 else q.tmo
    (s.clock < late → exec (.collTimeout p n) s = .next s) ∧
    (∀ k l, late ≤ s.clock → q.fail = none → q.legs[k]? = some l → l.done = false →
      (∀ j m, j < k → q.legs[j]? = some m → m.done = true) →
      ∃ t, exec (.collTimeout p n) s = .next t ∧ t.prog p n = some { q with fail := some (5, k) } ∧
        t.agenda = .collProgramComplete p n :: s.agenda ∧ t.mem = s.mem)) ∧
  (∀ p n s q, s.prog p n = some q →
    q.fail ≠ none ∨ (∀ l ∈ q.legs, l.done = true) → PlainPlace s q.statusPa 8 → Outlasts s q.starter →
    q.written = false → s.diePosting q.starter = false → let f := q.fail.getD (0, 0)
    ∃ t, exec (.collProgramComplete p n) s = .next t ∧ t.prog p n = none ∧ Stored s t q.statusPa 8
      (f.1 + 2 ^ 8 * f.2 + 2 ^ 16 * (q.legs.zipIdx.map fun l => if l.1.done then 2 ^ l.2 else 0).sum +
        2 ^ 32 * ((q.legs.map fun l => if l.kind = 2 then l.applied else 0).sum % 2 ^ 32)))

/-- MOOR consumes a pending hail and answers 1, answers 2 while work is left and 3 while a ferry binding of the
partition is left, and else stops admission, near-bank runs and programs, and holds the steward while its block is
saved; the entry ends, and a hail wakes the partition, every MOOR answering 0 (R457 to R460). Hails count up and are
consumed together (R455). Self-refresh ends by an access and begins again after 100 µs (R458); a missed wake bound
resets the partition (R459). Clusters that pass between partitions: a margin cluster on which its owner has no block
goes to the neighbour whose candidate has waited longest, and comes back once the borrower's blocks have left it; a
shared cluster goes to the next holder when the turn is over and its blocks have left (R450 to R452). -/
def Obligations.MooringAndLending : Prop :=
  (
  (∀ com dst s g i b t x p y, StewIssue s g i b t x com [] [(dst, false)] p → s.part p = some y →
    let ins : Instr := .moor com dst
    let s0 := issued s g i ins []
    let busy : Prop := (∃ z ∈ s.blocks, z.2.part = some p ∧ z.2.tag ≠ 0) ∨ (∃ z ∈ y.grids, z.2.waits = true) ∨ y.replays ≠ []
    let bound : Prop := ∃ d ∈ s.dies, ∃ f ∈ d.2.ferry, ∃ z ∈ f.2.bindings, s.jobOf z.job p = true
    (0 < y.pendCount → Completes s g i ins (s0.putPart p { y with
      hailpay := y.pendPay
      hailcnt := BitVec.ofNat 32 y.pendCount
      pendCount := 0 }) (res dst 1)) ∧
    (y.pendCount = 0 → busy → Completes s g i ins s0 (res dst 2)) ∧
    (y.pendCount = 0 → ¬ busy → bound → Completes s g i ins s0 (res dst 3)) ∧
    (y.pendCount = 0 → ¬ busy → ¬ bound → Settled s g.block false → exec ins s = .next (heldForOp
      (((((s0.releases (stewardKey p) 1).putPart p { y with
        moor := .entering s.clock
        moors := y.moors ++ [s.nextOp]
        admitStop := true }).stopWork p).requestPreempt (stewardKey p)).later [.blockQuiesceSave p 0]) g i b t p .moor dst))) ∧
  (∀ p s y since, s.part p = some y → y.moor = .entering since →
    ((s.block (stewardKey p)).phase ≠ .saved → exec (.moorEntryEnd p) s = .next s) ∧
    ((s.block (stewardKey p)).phase = .saved →
      ∃ s', exec (.moorEntryEnd p) s = .next s' ∧ s'.part p = some { y with moor := .moored s.clock } ∧ s'.mem = s.mem ∧
        s'.blocks = s.blocks ∧ (y.params.wcls = 1 → s'.dies = s.dies) ∧
        s'.agenda = (if 0 < y.pendCount then [.partitionWake p] else []) ++ s.agenda)) ∧
  (∀ p s y since place, s.part p = some y → y.moor = .moored since → s.stewardPlace p = some place →
    (y.pendCount = 0 → exec (.partitionWake p) s = .next s) ∧
    (0 < y.pendCount → exec (.partitionWake p) s = .next ((y.moors.foldl (fun z n => z.finishOp n 0)
      (((s.putPart p { y with
        hailpay := y.pendPay
        hailcnt := BitVec.ofNat 32 y.pendCount
        pendCount := 0
        moor := .awake
        moors := []
        admitStop := false }).ungate).restoreBlock (stewardKey p) place)).refreshCands p))) ∧
  (∀ w p v s y, s.part p = some y →
    let y' := { y with
      hailAt := if y.pendCount = 0 then s.clock else y.hailAt
      pendCount := y.pendCount + 1
      pendPay := v }
    (w ≠ p → w ∉ y.params.hailers → exec (.hailWrite w p v) s = .next s) ∧
    (w = p ∨ w ∈ y.params.hailers →
      (y.moor ≠ .awake → exec (.hailWrite w p v) s = .next ((s.putPart p y').later [.partitionWake p])) ∧
      (y.moor = .awake → s.halted p = [] → exec (.hailWrite w p v) s = .next (s.putPart p y')) ∧
      (y.moor = .awake → s.halted p ≠ [] → ∃ s' z, exec (.hailWrite w p v) s = .next s' ∧ s'.part p = some z ∧
        z.pendCount = 0 ∧ z.hailpay = v ∧ z.hailcnt = BitVec.ofNat 32 (y.pendCount + 1) ∧ z.eventPend = false ∧
        s'.mem = s.mem ∧ ∀ j ∈ s.halted p, (s'.thread (stewardKey p) j).stat = .ready))) ∧
  (∀ k s, ∃ s', exec (.stackWakeAccess k) s = .next s' ∧ s'.mem = s.mem ∧ (s'.die k).selfRefresh = false ∧
    ((s.die k).selfRefresh = true → (s'.die k).dir = []) ∧ ((s.die k).selfRefresh = false → s' = s)) ∧
  (∀ k s, let idle : Prop := (s.die k).selfRefresh = false ∧ s.mayRest k = true ∧ (s.die k).lastAccess + 100000 ≤ s.clock
    (¬ idle → exec (.stackSelfRefresh k) s = .next s) ∧
    (idle → ∃ s', exec (.stackSelfRefresh k) s = .next s' ∧ s'.mem = s.mem ∧ s'.parts = s.parts ∧
      (s'.die k).selfRefresh = true)) ∧
  (∀ p s y, s.part p = some y →
    let wake := if y.params.wcls = 1 then 250000 else if y.params.wcls = 2 then 3000000 else 40000000
    let enter := if y.params.wcls = 1 then 100000 else if y.params.wcls = 2 then 2000000 else 10000000
    let late : Prop := 0 < y.pendCount ∧ match y.moor with
      | .awake => False
      | .entering since => max y.hailAt (since + enter) + wake < s.clock
      | .moored since => max y.hailAt since + wake < s.clock
    (¬ late → exec (.wakeBoundMissed p) s = .next s) ∧
    (late → exec (.wakeBoundMissed p) s = .next ((s.partitionRung p).sendRecord p 0 { FaultRec.ofKind 0x0B with
      detail := y.params.wcls
      aux := y.hailAt
      part := p }).1))) ∧
  (
  (∀ c q s p x, s.marginOf c = some (p, x) →
    let free : Prop := s.lentTo c = none ∧ s.blocksIn p c = [] ∧ (x.moor = .awake ∨ x.pendCount = 0)
    let first : Prop := ∃ since, (q, since) ∈ s.borrowers p c ∧ ∀ z ∈ s.borrowers p c, z.1 ≠ q → since < z.2
    (¬ free → exec (.marginLend c q) s = .next s) ∧
    (free → first → exec (.marginLend c q) s =
      .next ((s.putPart p { x with lent := x.lent ++ [⟨c, q, false⟩] }).refreshCands q)) ∧
    (q ∉ (s.borrowers p c).map (·.1) → exec (.marginLend c q) s = .next s)) ∧
  (∀ c s p x q, s.parts.find? (fun z => z.2.lent.any fun l => l.cluster == c) = some (p, x) → s.lentTo c = some q →
    (s.blocksIn q c = [] → exec (.marginRevoke c) s = .next
      (((s.putPart p { x with lent := x.lent.filter fun l => l.cluster != c }).leaveCluster q c).refreshCands p)) ∧
    (s.blocksIn q c ≠ [] → exec (.marginRevoke c) s = .next ((s.putPart p { x with
      lent := x.lent.map fun l => if l.cluster = c then { l with revoked := true } else l }).preemptIn q c))) ∧
  (∀ c s t x, s.turn c = some t → s.part t.part = some x →
    let most := ((s.clusterCores c).map fun n => Kv.get 0 n x.overrun).max?.getD 0
    let charge := min most (1000 * x.slice.toNat)
    let going : Prop := t.ended = false ∧ s.passedOver c t.part = false ∧ s.clock < t.since + (1000 * x.slice.toNat - charge)
    let s1 := if t.ended then s else s.modPart t.part fun y => s.repay y c
    (going → exec (.sharedTurnEnd c) s = .next s) ∧
    (¬ going → s1.blocksIn t.part c = [] → let q := s1.nextHolder c t.part
      exec (.sharedTurnEnd c) s =
        .next (({ s1 with turns := Kv.insert c ⟨q, s1.clock, false⟩ s1.turns }.leaveCluster t.part c).refreshCands q)) ∧
    (¬ going → s1.blocksIn t.part c ≠ [] → exec (.sharedTurnEnd c) s =
      .next ({ s1 with turns := Kv.insert c { t with ended := true } s1.turns }.preemptIn t.part c))))

/-- The PC table of a core: an entry is filled around the ready thread that has been longest in slot state; the ready
active entry of greatest age issues, absorbing what merges with it; a pending entry takes the lowest free position;
entries are marked, swapped and evicted as R160 to R166 say. -/
def Obligations.EntryScheduling : Prop :=
  (∀ c s, s.slotReady c ≠ [] → (∃ e < 64, s.entry c e = none) →
    ∃ e seed en, s.entry c e = none ∧ seed ∈ s.slotReady c ∧ (∀ y ∈ s.slotReady c, seed.seedKey ≤ y.seedKey) ∧
      exec (.entryFill c) s = .next (s.modCore c fun z => { z with entries := Kv.insert e en z.entries }) ∧
      en.block = seed.block ∧ seed.idx ∈ en.members ∧ en.pos = none ∧
      ∀ i ∈ en.members, ∃ y ∈ s.slotReady c, y.block = seed.block ∧ y.idx = i ∧ y.th.pc = seed.th.pc) ∧
  (∀ c s, let ready := (s.core c).entries.filter fun y => y.2.pos.isSome && s.hasWork c y.1 y.2
    (ready = [] → exec (.issueSelect c) s = .next s) ∧
    (ready ≠ [] → ∃ e en, (e, en) ∈ ready ∧ (∀ y ∈ ready, en.lastIssue ≤ y.2.lastIssue) ∧
      let l := if en.chainOpen then [] else mergePends s c e en
      (l = [] → exec (.issueSelect c) s = .next { merge s c e en with focus := .entry c e }) ∧
      (l ≠ [] → exec (.issueSelect c) s = .next (s.later (l.map fun x => .pendingCheck c x))))) ∧
  (∀ c s, let waiting := (s.core c).entries.filter fun y => y.2.pos.isNone && s.hasWork c y.1 y.2
    (waiting ≠ [] → ∀ p, (s.core c).freePos = some p → ∃ e en, (e, en) ∈ waiting ∧
      (∀ y ∈ waiting, en.pendSince ≤ y.2.pendSince) ∧ exec (.entryPromote c) s = .next (s.modEntry c e fun z =>
        { z with
          pos := some p
          posSince := s.tick
          lastIssue := s.tick })) ∧
    (waiting = [] ∨ (s.core c).freePos = none → exec (.entryPromote c) s = .next s)) ∧
  (∀ c s, let active := (s.core c).entries.filter fun y => y.2.pos.isSome && !y.2.marked
    let due : Prop := (s.core c).freePos = none ∧
      ((s.core c).entries.filter fun y => y.2.pos.isSome && y.2.marked).length < s.longWaiting c
    (active ≠ [] → due → ∃ e en, (e, en) ∈ active ∧ (∀ y ∈ active, en.posSince ≤ y.2.posSince) ∧
      let s1 := s.modEntry c e fun z => { z with marked := true }
      (s.hasWork c e en = true → exec (.demotionMark c) s = .next s1) ∧
      (s.hasWork c e en = false → exec (.demotionMark c) s = .next (if en.chain = 0 then s1.modEntry c e fun z =>
        { z with
          pos := none
          marked := false
          pendSince := s.tick } else s1))) ∧
    (active = [] ∨ ¬ due → exec (.demotionMark c) s = .next s)) ∧
  (∀ c e s en, s.entry c e = some en → let waits : Prop := s.asks c e = true ∨ en.waiting = true
    (en.pos ≠ none → waits → en.chain = 0 → exec (.entrySwap c e) s = .next (s.modEntry c e fun z =>
      { z with
        pos := none
        marked := false
        pendSince := s.tick })) ∧
    (en.pos = none ∨ ¬ waits ∨ en.chain ≠ 0 → exec (.entrySwap c e) s = .next s) ∧
    (en.issues < 4096 ∨ en.chain ≠ 0 → exec (.entryEvict c e) s = .next s) ∧
    (4096 ≤ en.issues → en.chain = 0 → en.pend = [] → (∀ r ∈ s.reqs, r.2.core = c → r.2.entry = e → r.2.ask = none) →
      exec (.entryEvict c e) s = .next ((s.modBlock en.block fun b => b.mapThreads en.members fun t =>
        { t with since := s.tick }).modCore c fun z => { z with entries := Kv.erase e z.entries })))

/-- A core leaves reset with its boot-mode thread at BOOTVEC; put into reset it keeps its arrays, its repair table, its
summary and its stuck cells; the harbour die releases a boot-mode thread that is held (R30, R36, R107, R341). The rungs
of the reset ladder (R355 to R358, R402, R437): the queue rung removes the launches of a node of which no block is
admitted; the engine rung empties a ferry core and stops a near-bank unit's runs; the partition rung leaves no launch
and no replay and restarts the steward; the device rung leaves the package as before its start. A rung that misses its
timeout escalates; the watchdog resets a unit on which a halting block waits too long. At which address the code stands
is the model's choice (log 5). -/
def Obligations.CoresInResetAndResetLadder : Prop :=
  (
  (∀ c s, ((s.core c).released = true ∨ s.absent.noCores.contains c = true ∨ 384 ≤ c →
      exec (.coreReleaseFromReset c) s = .next s) ∧
    ((s.core c).released = false → s.absent.noCores.contains c = false → c < 384 →
      let pc := BitVec.ofNat 64 s.bootAt
      let code := s.harbour.pkg * 2 ^ 46 + s.bootAt
      ∃ s' t, exec (.coreReleaseFromReset c) s = .next s' ∧
        s'.core c = { s.core c with
          bootvec := pc
          released := true } ∧
        (∀ k ≠ c, s'.core k = s.core k) ∧ (s'.block (bootKey c)).part = none ∧
        (∀ a, s'.byteAt a = if code ≤ a ∧ a < code + marchCode.length then marchCode.getD (a - code) 0 else s.byteAt a) ∧
        Kv.find 0 (s'.block (bootKey c)).threads = some t ∧ t.priv = .boot ∧ t.stat = .ready ∧ t.pc = pc.toNat ∧
        ∀ n, t.reg n = 0)) ∧
  (∀ c s, let used : Prop := ∃ b ∈ s.blocks, b.2.part ≠ none ∧ ∃ z ∈ b.2.cores, z.2.core = c
    (used → exec (.coreReset c) s = .next s) ∧
    (¬ used → ∃ s', exec (.coreReset c) s = .next s' ∧ s'.mem = s.mem ∧ Kv.find (bootKey c) s'.blocks = none ∧
      (∀ k ≠ bootKey c, Kv.find k s'.blocks = Kv.find k s.blocks) ∧ (∀ k ≠ c, s'.core k = s.core k) ∧
      s'.core c = { Core.reset with
        rf := (s.core c).rf
        pad := (s.core c).pad
        repair := (s.core c).repair
        summary := (s.core c).summary
        stuck := (s.core c).stuck })) ∧
  (∀ c s b t, Kv.find (bootKey c) s.blocks = some b → Kv.find 0 b.threads = some t →
    (t.stat = .held .halt → ∃ s', exec (.bootThreadRelease c .halt) s = .next s' ∧ s'.mem = s.mem ∧
      s'.thread (bootKey c) 0 = { t with stat := .ready }) ∧
    (t.stat ≠ .held .halt → exec (.bootThreadRelease c .halt) s = .next s) ∧
    (∀ e log, t.stat = .faulted e log → log.pc ≠ t.pc →
      (∃ s', exec (.bootThreadRelease c .replay) s = .next s' ∧
        s'.thread (bootKey c) 0 = { t with stat := .ready, rep := some log }) ∧
      (∃ s', exec (.bootThreadRelease c .skip) s = .next s' ∧
        s'.thread (bootKey c) 0 = { t with stat := .ready, rep := none }) ∧
      (∃ s', exec (.bootThreadRelease c .kill) s = .next s' ∧ (s'.core c).released = false ∧
        Kv.find (bootKey c) s'.blocks = none)))) ∧
  (
  (∀ p n s x, s.part p = some x → let gone (g : Nat × Grid) : Bool := g.2.node == n && g.2.nextBlock == 0
    ∃ s' z, exec (.rungQueue p n) s = .next s' ∧ s'.part p = some z ∧
      Kv.keys z.grids = Kv.keys (x.grids.filter fun g => !gone g) ∧ s'.blocks = s.blocks ∧ s'.mem = s.mem) ∧
  (∀ p tag s, (s.block (blockKey p tag)).part = some p →
    exec (.rungContext p tag) s = .next (s.contextRung (blockKey p tag))) ∧
  (∀ stk fc s, fc < 8 → ∃ s', exec (.rungEngine (8 * stk + fc) 6) s = .next s' ∧ (s'.ferry stk fc).run = none ∧
    (s'.ferry stk fc).queue = [] ∧ (s'.ferry stk fc).kernels = (s.ferry stk fc).kernels ∧
    ∀ y ∈ (s.ferry stk fc).bindings, y.faulted = false →
      (∃ q ∈ (s.ferry stk fc).queue, q.job = y.job ∧ q.flow = y.flow) ∨
        (∃ r, (s.ferry stk fc).run = some r ∧ r.job = y.job ∧ r.flow = y.flow) →
      ∃ z ∈ (s'.ferry stk fc).bindings, z.job = y.job ∧ z.flow = y.flow ∧ z.faulted = true) ∧
  (∀ n s, ∃ s', exec (.rungEngine n 7) s = .next s' ∧ (s'.unit n).queue = [] ∧ (s'.unit n).cur = none) ∧
  (∀ p s x, s.part p = some x → ∃ s' z, exec (.rungPartition p) s = .next s' ∧ s'.part p = some z ∧ z.params = x.params ∧
    z.s2 = x.s2 ∧ z.pt1root = x.pt1root ∧ z.evq = x.evq ∧ z.slice = x.slice ∧ z.grids = [] ∧ z.replays = [] ∧ z.nodes = [] ∧
    z.moor = .awake ∧ z.eventPend = false ∧ (s'.block (stewardKey p)).part = some p ∧
    Kv.keys (s'.block (stewardKey p)).threads = [0]) ∧
  (∀ s, ∃ s', exec .rungDevice s = .next s' ∧ s'.mem = [] ∧ s'.blocks = [] ∧ s'.parts = [] ∧ s'.dies = [] ∧ s'.interleave = [] ∧
    (∀ c, (s'.core c).released = false ∧ (s'.core c).stuck = (s.core c).stuck) ∧
    s'.harbour.failCount = s.harbour.failCount ∧ s'.harbour.fwImage = s.harbour.fwImage ∧ s'.harbour.cap = s.harbour.cap ∧
    s'.harbour.starting = true ∧ s'.agenda = if s.harbour.minimal then [] else [.deviceStart s.absent]) ∧
  (∀ k s r, s.harbour.rungs[k]? = some r →
    let s1 : State := { s with harbour := { s.harbour with rungs := s.harbour.rungs.eraseIdx k } }
    (s.rungDone r.rung = true → exec (.rungTimeout k) s = .next (s1.rungReply r.seq)) ∧
    (s.rungDone r.rung = false → s.clock < r.since + r.rung.timeout → exec (.rungTimeout k) s = .next s) ∧
    (s.rungDone r.rung = false → r.since + r.rung.timeout ≤ s.clock → exec (.rungTimeout k) s =
      .next (((s.escalation r.rung).foldl (fun z n => z.startRung n none) s1).rungReply r.seq))) ∧
  (∀ c cls s, let bound := if cls = 1 then 64 else if cls = 2 then 4288 else 2048
    let late (b : Nat × Block) : Prop := b.2.phase = .halting ∧ (∃ z ∈ b.2.cores, z.2.core = c) ∧
      b.2.reqTime + cyclesNs (4 * bound) ≤ s.clock
    let works : Prop := (cls = 1 ∧ ∃ e ∈ (s.core c).entries, (s.block e.2.block).phase = .halting ∧ e.2.chain ≠ 0) ∨
      (cls = 2 ∧ s.unitOps c 2 ≠ []) ∨
      (cls = 4 ∧ ∃ e ∈ (s.core c).entries, e.2.pend ≠ [] ∨ s.asks c e.1 = true)
    (works → (∃ b ∈ s.blocks, late b) → exec (.watchdogExpire c cls) s = .next (s.startRung (.engine c cls) none)) ∧
    (¬ works ∨ (∀ b ∈ s.blocks, ¬ late b) → cls = 1 ∨ cls = 2 ∨ cls = 4 → exec (.watchdogExpire c cls) s = .next s)) ∧
  (∀ n s, let late (p ns : Nat) : Prop := ∃ b ∈ s.blocks, b.2.phase = .halting ∧ b.2.part = some p ∧ b.2.reqTime + ns ≤ s.clock
    (∀ r b, (s.ferry (n / 8) (n % 8)).run = some r → (s.ferry (n / 8) (n % 8)).binding r.job r.flow = some b →
      (late b.owner.part 1280 → exec (.watchdogExpire n 5) s = .next (s.startRung (.engine n 6) none)) ∧
      (¬ late b.owner.part 1280 → exec (.watchdogExpire n 5) s = .next s)) ∧
    ((s.ferry (n / 8) (n % 8)).run = none → exec (.watchdogExpire n 5) s = .next s) ∧
    (∀ u, (s.unit n).cur = some u → u.susp = none →
      (late u.run.starter.part (classNs 4 6) → exec (.watchdogExpire n 6) s = .next (s.startRung (.engine n 7) none)) ∧
      (¬ late u.run.starter.part (classNs 4 6) → exec (.watchdogExpire n 6) s = .next s))))

/-- The home of an address serves a request: RDL and VGT answer the bytes, WRL, VSC and WBK write theirs, ATM, RDC and
AMX read and modify one word, CTL reads or writes control memory, FNC and probes are acknowledged; what cannot be read
is refused with status 1 and what is not memory here with status 2 (R261, R265, R266, R373, R374, R377, R379 to R381). A
packet of no assigned operation is discarded. An answer reaches the request of its tag: a line fills the proxy, a value
is kept for the thread that waits, a posted write is over, an error is kept for the access; after 4 ms without an answer
a request fails (R373, R378, R379, R384). Management packets set the slew, forward replies and answer the check of a job
(R467, R474). A flit or frame that fails its check is refused (R371, R383); a row's 1,024th activation charges its
partition (R385). -/
def Obligations.FabricTraffic : Prop :=
  (
  (∀ p s, badPacket p = true → exec (.rdl p) s = .next (routerDrop p.dstk p s)) ∧
  (∀ p s, ForUs s p 0x01 → s.unsettled [p.addr / 64] = false → let a := p.addr / 64 * 64; let mask := p.imm.toNat % 4
    (s.target a ≠ .dram → ∃ s', exec (.rdl p) s = .next s' ∧ s'.mem = s.mem ∧ Sent s s' (answerOf s p 0x12 2 [])) ∧
    (s.target a = .dram → s.stashPages.any (·.holds a) = false → s.poisonedIn a 64 = none →
      ∃ s', exec (.rdl p) s = .next s' ∧ s'.mem = s.mem ∧ Sent s s' (answerOf s p 0x10 mask
        ((if mask.testBit 0 then (List.range 32).map fun k => s.byteAt (a + k) else []) ++
          if mask.testBit 1 then (List.range 32).map fun k => s.byteAt (a + 32 + k) else [])) ∧
        p.spkg ∈ Kv.get [] (p.addr / 64) (s'.die (s.homeStack a)).dir)) ∧
  (∀ ins p op cells s, writePacket ins = some (p, op, cells) → ForUs s p op →
    (ins = .vsc p → vecBad p s = false) → (ins = .wbk p → s.target (p.addr / 64 * 64) = .dram) →
    s.unsettled (if op = 0x09 then vecLines p else [p.addr / 64]) = false →
    (∀ c ∈ cells, PlainByte s c.1 ∧ (Unheld s (c.1 / 64) ∨
      (ins = .wbk p ∧ Kv.get [] (c.1 / 64) (s.die (s.homeStack (c.1 / 64 * 64))).dir = [p.spkg]))) →
    ∃ s', exec ins s = .next s' ∧ StoredCells s s' cells ∧ Sent s s' (answerOf s p 0x11 0 [])) ∧
  (∀ ins p op f ty ret s, atomPacket ins = some (p, op, f, ty, ret) → ForUs s p op → PlainPlace s p.addr (tyBits ty / 8) →
    s.unsettled [p.addr / 64] = false → Unheld s (p.addr / 64) → let n := tyBits ty / 8
    let old := leRead s.byteAt p.addr n
    let cmp := leRead (fun k => p.data.getD k 0) 0 n
    ∃ s', exec ins s = .next s' ∧ Sent s s' (answerOf s p 0x11 (if ret then old else 0) []) ∧
      Stored s s' p.addr n ((newWord f ty old (p.imm.toNat % 2 ^ tyBits ty) cmp).getD old)) ∧
  (∀ p s, ForUs s p 0x06 → s.unsettled [p.addr / 64] = false → let mask := p.imm.toNat % 2 ^ 32
    ∀ off n, 0 < n → off + n ≤ 32 → mask = (2 ^ n - 1) * 2 ^ off → let a := p.addr / 32 * 32 + off
    let value (s' : State) (l : List Byte) : Prop :=
      Sent s s' (answerOf s p 0x10 1 (flitBytes (List.replicate off 0 ++ l)))
    (s.target a = .control →
      (ctlPlace (spaLocal a) = .window → ∃ s', exec (.ctl p true) s = .next s' ∧ Sent s s' (answerOf s p 0x11 0 []) ∧
        ∀ x, s'.byteAt x = if a ≤ x ∧ x < a + n then
          let d := p.data.getD (x % 32) 0
          if x % 64 < 13 then d else if x % 64 = 13 then d &&& 0x0F else 0
        else s.byteAt x) ∧
      ∃ s', exec (.ctl p false) s = .next s' ∧ s'.mem = s.mem ∧ value s' (bytesOf (ctlRead s a n) n)) ∧
    (s.target a = .dram → (∀ k < n, PlainByte s (a + k)) → Unheld s (p.addr / 64) →
      (∃ s', exec (.ctl p true) s = .next s' ∧ Sent s s' (answerOf s p 0x11 0 []) ∧
        StoredCells s s' ((List.range n).map fun k => (a + k, p.data.getD (off + k) 0))) ∧
      ∃ s', exec (.ctl p false) s = .next s' ∧ s'.mem = s.mem ∧ value s' ((List.range n).map fun k => s.byteAt (a + k)))) ∧
  (∀ p s, ForUs s p 0x08 → s.unsettled (vecLines p) = false →
    (vecBad p s = true → ∃ s', exec (.vgt p) s = .next s' ∧ s'.mem = s.mem ∧ Sent s s' (answerOf s p 0x12 2 [])) ∧
    (vecBad p s = false → (∀ k ≤ p.noffm1, PlainPlace s (vecAddr p k) (2 ^ p.esz)) →
      ∃ s', exec (.vgt p) s = .next s' ∧ s'.mem = s.mem ∧ Sent s s' (answerOf s p 0x10 0 (flitBytes
        ((List.range (p.noffm1 + 1)).flatMap fun k => (List.range (2 ^ p.esz)).map fun j => s.byteAt (vecAddr p k + j)))))) ∧
  (∀ p s, ForUs s p 0x0C → exec (.fnc p) s = .next (s.emit (answerOf s p 0x11 0 []))) ∧
  (∀ (inv : Bool) p s, let ins : Instr := if inv then .pri p else .prs p
    ForUs s p (if inv then 0x18 else 0x19) → let line := p.addr / 64
    s.stashPages.any (·.holds (64 * line)) = false →
    (spaPkg p.addr ≠ s.harbour.pkg → inv = true → line ∈ s.proxy →
      ∃ s', exec ins s = .next s' ∧ line ∉ s'.proxy ∧ (∀ m ∈ s.proxy, m ≠ line → m ∈ s'.proxy) ∧
        (∀ a, a / 64 ≠ line → s'.byteAt a = s.byteAt a) ∧ Sent s s' (answerOf s p 0x11 0 [])) ∧
    (spaPkg p.addr ≠ s.harbour.pkg → inv = false ∨ (line ∉ s.proxy ∧ ∀ r ∈ s.reqs, r.2.ask ≠ some line) →
      exec ins s = .next (s.emit (answerOf s p 0x11 0 []))) ∧
    (spaPkg p.addr ≠ s.harbour.pkg → inv = true → ∀ k r, Kv.find k s.reqs = some r → r.ask = some line →
      ∃ s', exec ins s = .next s' ∧ Kv.find k s'.reqs = some { r with ask := none }) ∧
    (spaPkg p.addr = s.harbour.pkg →
      ∃ s', exec ins s = .next s' ∧ s'.mem = s.mem ∧ Sent s s' (answerOf s p 0x11 0 [])))) ∧
  (
  (∀ p s r, Kv.find p.txid s.reqs = some r → r.pkg = p.spkg → s.harbour.acks = [] → r.probe = none →
    ¬ (0x200 ≤ r.core ∧ r.core < 0x210) →
    (∀ line, ForUs s p 0x10 → r.ask = some line → line < 2 ^ 60 → p.imm.toNat % 4 = 3 →
      ∃ s', exec (.rsd p) s = .next s' ∧ Kv.find p.txid s'.reqs = none ∧ line ∈ s'.proxy ∧
        (∀ k < 64, s'.byteAt (64 * line + k) = p.data.getD k 0) ∧
        (∀ a, a / 64 ≠ line → s'.byteAt a = s.byteAt a)) ∧
    (∀ a, ForUs s p 0x10 → r.ask = some a → 2 ^ 60 ≤ a → ∃ s', exec (.rsd p) s = .next s' ∧ s'.mem = s.mem ∧
      Kv.find p.txid s'.reqs = some { r with val := some (BitVec.ofNat 64 (leRead (fun k => p.data.getD k 0) (a % 32) 8)) }) ∧
    (ForUs s p 0x11 → r.post = none → ∃ s', exec (.rsa p) s = .next s' ∧ s'.mem = s.mem ∧
      Kv.find p.txid s'.reqs = some { r with val := some p.imm }) ∧
    (∀ k q, ForUs s p 0x11 → r.post = some (k, q) → (∀ b, Kv.find k s.blocks = some b → b.threads ≠ []) →
      ∃ s', exec (.rsa p) s = .next s' ∧ s'.mem = s.mem ∧ Kv.find p.txid s'.reqs = none) ∧
    (ForUs s p 0x12 → r.post = none → ∃ s', exec (.rse p) s = .next s' ∧ s'.mem = s.mem ∧
      Kv.find p.txid s'.reqs = some { r with err := max 1 (p.imm.toNat % 4) }) ∧
    (r.post = none → r.val = none → r.err = 0 →
      (r.sent + 4000000 ≤ s.clock → ∃ s', exec (.remoteTimeout p.txid) s = .next s' ∧ s'.mem = s.mem ∧
        Kv.find p.txid s'.reqs = some { r with err := 2 }) ∧
      (s.clock < r.sent + 4000000 → exec (.remoteTimeout p.txid) s = .next s))) ∧
  (∀ p s, ForUs s p 0x30 →
    (p.imm.toNat % 256 = 1 →
      (p.spkg < s.harbour.pkg → (∀ r ∈ s.harbour.routes, p.spkg ≤ r.1) → exec (.mgxTimestampSync p) s =
        .next { s with harbour := { s.harbour with slew := (leRead (fun k => (p.data.take 8).getD k 0) 0 8 : Int) - s.clock } }) ∧
      (s.harbour.pkg ≤ p.spkg → exec (.mgxTimestampSync p) s = .next s)) ∧
    (p.imm.toNat % 256 = 2 → let h := leRead (fun k => (p.data.take 16).getD k 0) 0 16
      (h.testBit 47 = true → exec (.mgxXcpForward p) s = .next (s.emit (.forwarded p.data))) ∧
      (h.testBit 47 = false → bitsOf h 46 32 = 0x02 → ∃ s', exec (.mgxXcpForward p) s = .next s' ∧ s'.mem = s.mem ∧
        s'.parts = s.parts ∧ Sent s s' (.packet { s.packet 0x30 3 0 0 0x210 with
          dpkg := p.spkg
          imm := 2
          data := flitBytes (bytesOf (bitsOf h 127 96 * 2 ^ 96 + 2 ^ 47 + 2 * 2 ^ 32 + 1) 16) }))) ∧
    (p.imm.toNat % 256 = 3 → p.imm.toNat.testBit 9 = false → exec (.mgxJobGrantCheck p) s =
      .next (s.emit (.packet { s.packet 0x30 3 0 0 0x210 with
        dpkg := p.spkg
        job := p.job
        imm := if (Kv.find p.job s.harbour.jobs).isSome then 0x303 else 0x203 })))) ∧
  (∀ n flit s, let l := s.link n
    (flitOk flit = false → exec (.flitCrcReplay n flit) s = .next (s.emit (.nack n))) ∧
    (flitOk flit = true → flitTail flit = false → exec (.flitCrcReplay n flit) s =
      .next { s with links := Kv.insert n { l with accepted := l.accepted ++ [flit] } s.links }) ∧
    (flitOk flit = true → flitTail flit = true → flitHead flit = true → (∀ f ∈ l.accepted, flitVc f ≠ flitVc flit) →
      exec (.flitCrcReplay n flit) s =
        State.deliver { s with links := Kv.insert n l s.links } (pktOfHeader (flitPayload flit) []))) ∧
  (∀ port frame s, let n := 512 + port; let l := s.link n
    (port ∉ presentPorts s.absent → exec (.strelarFrameReceive port frame) s = .next s) ∧
    (port ∈ presentPorts s.absent → frame.length = 42 ∧ Config.rsCorrect frame ≠ none ∨
      exec (.strelarFrameReceive port frame) s =
        .next ({ s with links := Kv.insert n { l with replays := l.replays + 1 } s.links }.emit (.nack n))) ∧
    (∀ x, port ∈ presentPorts s.absent → frame.length = 42 → Config.rsCorrect frame = some x →
      let flit := leRead (fun k => x.getD k 0) 0 36
      x.length = 42 → flitOk flit = true → flitTail flit = false → leRead (fun k => x.getD k 0) 36 2 % 4096 = l.seq →
      let l1 : LinkState := ⟨l.accepted, (l.seq + 1) % 4096, 0⟩
      let l2 : LinkState := ⟨l.accepted ++ [flit], (l.seq + 1) % 4096, 0⟩
      exec (.strelarFrameReceive port frame) s =
        .next { s with links := Kv.insert n l2 (Kv.insert n l1 s.links) })) ∧
  (∀ port lanes s, let l := s.link (512 + port)
    (8 ≤ l.replays → lanes = 8 ∨ lanes = 4 ∨ lanes = 2 ∨ lanes = 0 →
      ∃ s', exec (.strelarRetrain port lanes) s = .next s' ∧ s'.link (512 + port) = { l with replays := 0 } ∧
        Kv.get 8 port s'.absent.lanes = lanes ∧ (∀ q ≠ port, Kv.get 8 q s'.absent.lanes = Kv.get 8 q s.absent.lanes) ∧
        s'.mem = s.mem) ∧
    (l.replays < 8 → exec (.strelarRetrain port lanes) s = .next s)) ∧
  (∀ stk pch row part s, pch < 64 → let key := 64 * part + pch
    let recent := ((Kv.get [] key (s.die stk).charged).filter fun t => decide (s.clock < t + 64000)) ++ [s.clock]
    ∃ s', exec (.targetedRefresh stk pch row part) s = .next s' ∧ s'.mem = s.mem ∧ Kv.get [] key (s'.die stk).charged = recent ∧
      (4 ≤ recent.length → Kv.find key (s'.die stk).limited = some (s.clock + 64000)) ∧
      (recent.length < 4 → (s'.die stk).limited = (s.die stk).limited)))

/-- XCP (R464, R469): the device drops a request of another source, repeats a kept reply, answers a stale request with
status 5, an unsound header with 1 and what minimal mode does not serve with 4, all without effect; the first accepted
HELLO fixes the host, and ends a start once every present core has reported (R468). RESET applies its rung (R357, R465).
What each request does and answers: INVENTORY, STARTREP, TELEM and ATTEST report and change nothing; PCREATE, PCHANGE,
PDESTROY and MAP act on a partition; JOBGRANT, HAIL, RKEY, TOPOLOGY, PWRCAP and FWPROV set what R390, R455, R462, R384,
R473 and R470 name; what may not be done is refused with its status and no effect (R446, R448, R465, R472). -/
def Obligations.HostRequests : Prop :=
  (
  (∀ ins h minOk s, xcpRequest ins = some (h, minOk) →
    (s.harbour.host ≠ some h.src → exec ins s = .next s) ∧
    (s.harbour.host = some h.src → (∀ r ∈ s.harbour.rungs, r.seq = none) →
      (∀ r, s.harbour.replies.find? (fun y => y.seq == h.seq) = some r → exec ins s = .next (s.emit (.reply r))) ∧
      ((∀ r ∈ s.harbour.replies, r.seq ≠ h.seq) → (∃ r, s.harbour.replies.head? = some r ∧ h.seq < r.seq) →
        exec ins s = .next (s.emit (.reply ⟨h.seq, 5, .empty⟩)))) ∧
    (s.harbour.host = some h.src → (∀ r ∈ s.harbour.rungs, r.seq = none) → (∀ r ∈ s.harbour.replies, r.seq ≠ h.seq) →
      (∀ r, s.harbour.replies.head? = some r → r.seq ≤ h.seq) → h.ver ≠ 1 ∨ 8192 < h.len → Replies s ins h s 1 .empty) ∧
    (Serves s h → s.harbour.minimal = true → minOk = false → Replies s ins h s 4 .empty)) ∧
  (∀ h (caps : BitVec 5) s, s.harbour.host = none → h.ver = 1 → h.len ≤ 8192 →
    (s.harbour.minimal = false → s.startDone = false → exec (.hello h caps) s = .next (s.emit (.reply ⟨h.seq, 8, .empty⟩))) ∧
    (s.harbour.minimal = true ∨ s.startDone = true → s.harbour.agreed = none ∨ s.parts = [] →
      (caps &&& ~~~Config.unitCaps ≠ 0 → exec (.hello h caps) s = .next (s.emit (.reply ⟨h.seq, 2, .empty⟩))) ∧
      (caps &&& ~~~Config.unitCaps = 0 → ∃ s', exec (.hello h caps) s = .next s' ∧ s'.harbour.host = some h.src ∧
        s'.harbour.agreed = some (caps &&& Config.unitCaps) ∧ s'.harbour.starting = false ∧
        (s.harbour.minimal = false → s'.harbour.failCount = 0) ∧ s'.mem = s.mem ∧
        Sent s s' (.reply ⟨h.seq, 0, .vectors (s.vector Config.unitCaps) (s.vector (caps &&& Config.unitCaps))⟩)))) ∧
  (∀ h rung target r s, ServesAll s h → rungOf rung target = some r →
    (s.hasTarget r = true → (∀ y ∈ s.harbour.replies, y.seq ≤ h.seq) →
      exec (.xcpReset h rung target) s = .next (s.startRung r (some h.seq))) ∧
    (s.hasTarget r = false → Replies s (.xcpReset h rung target) h s 2 .empty)) ∧
  (∀ h rung target s, ServesAll s h → rung = 0 ∨ 5 < rung → Replies s (.xcpReset h rung target) h s 1 .empty)) ∧
  (
  (∀ h s, Serves s h → Replies s (.inventory h) h s 0 (.parts s.absent) ∧
    Replies s (.startrep h) h s 0 (.startrep s.harbour.failReason s.harbour.failCount s.harbour.reports) ∧
    (∀ nonce, (nonce.length ≠ 32 → Replies s (.attest h nonce) h s 1 .empty) ∧
      (nonce.length = 32 → let r := s.attestation nonce
        Replies s (.attest h nonce) h s 0 (.attest r (Config.identitySign r) Config.identityKey Config.identityCert)))) ∧
  (∀ h s, ServesAll s h → ∃ power throttled shares temps,
    Replies s (.telem h) h s 0 (.telem power s.harbour.cap throttled shares temps) ∧ shares.length = 4 ∧
      temps.length = (presentDies s.absent).length) ∧
  (∀ h p q s, ServesAll s h → let placed := q.regions.foldl State.placeRegion s
    let ok : Prop := s.part p = none ∧ s.paramsOk p q = true ∧ placed.target (placed.tableFrames p q) = .dram
    (¬ ok → Replies s (.pcreate h p q) h s 2 .empty) ∧
    (ok → ∃ t y, Replies s (.pcreate h p q) h t 0 .empty ∧ t.part p = some y ∧ y.params = q ∧ y.pt1root = 0 ∧ y.evq = 0 ∧
      y.slice = 0x7D0 ∧ y.moor = .awake ∧ y.pendCount = 0 ∧ (t.block (stewardKey p)).part = some p ∧
      (∀ n e, (n, e) ∈ q.regions → Kv.find n t.interleave = some e) ∧
      ∀ z ∈ (t.block (stewardKey p)).threads, z.2.priv = .steward ∧ z.2.pc = q.stewardPc.toNat)) ∧
  (∀ h p q s, ServesAll s h →
    (s.part p = none → Replies s (.pchange h p q) h s 2 .empty) ∧
    (∀ x, s.part p = some x → q.wcls ≠ x.params.wcls ∨ s.paramsOk p q = false → Replies s (.pchange h p q) h s 2 .empty) ∧
    (∀ x, s.part p = some x → q.wcls = x.params.wcls → s.paramsOk p q = true →
      ∃ t y, Replies s (.pchange h p q) h t 0 .empty ∧ t.part p = some y ∧ y.params = q ∧ y.s2 = x.s2 ∧ y.pt1root = x.pt1root)) ∧
  (∀ h p s, ServesAll s h → (s.part p = none → Replies s (.pdestroy h p) h s 2 .empty) ∧
    (s.part p ≠ none → ∃ t, Replies s (.pdestroy h p) h t 0 .empty ∧ t.part p = none ∧ (∀ b ∈ t.blocks, b.2.part ≠ some p) ∧
      ∀ j ∈ t.harbour.jobs, j.2.part ≠ p)) ∧
  (∀ h p l s x, ServesAll s h → s.part p = some x →
    let drops : Prop := ∃ m ∈ l, mapReplaces m x.s2 = true
    (drops → s.actsThrough p 0 (2 ^ 52) = true → exec (.map h p l) s = .next s) ∧
    (¬ drops ∨ s.actsThrough p 0 (2 ^ 52) = false → let s2 := l.foldl (fun k e => mapPut e k) x.s2
      ((∃ m ∈ l, mapPlaced m = false ∨ mapWellFormed m s2 = false) → Replies s (.map h p l) h s 1 .empty) ∧
      ((∀ m ∈ l, mapPlaced m = true ∧ mapWellFormed m s2 = true) →
        ((∃ m ∈ l, s.mapRefused x m = true) → Replies s (.map h p l) h s 2 .empty) ∧
        ((∀ m ∈ l, s.mapRefused x m = false) → let t := s.putPart p { x with s2 := s2 }
          (¬ drops → Replies s (.map h p l) h t 0 .empty) ∧
          (drops → Replies s (.map h p l) h (t.invalidateAll p) 0 .empty))))) ∧
  (∀ h (r : JobGrant) s, ServesAll s h →
    let ok : Prop := r.job ≠ 0 ∧ r.job ≤ 4095 ∧ s.part r.part ≠ none ∧ r.elsewhere = false ∧ s.harbour.agrees 1 = true ∧
      (∀ j, Kv.find r.job s.harbour.jobs = some j → j.part = r.part) ∧ noRepeat (r.quotas.map (·.1)) = true ∧
      ∀ q ∈ r.quotas, q.1 < 128 ∧ q.2 ≤ 64
    (¬ ok → Replies s (.jobgrant h r) h s 2 .empty) ∧
    (ok → ∃ t j, Replies s (.jobgrant h r) h t 0 .empty ∧ Kv.find r.job t.harbour.jobs = some j ∧ j.part = r.part ∧
      (∀ k, Kv.get 0 k j.quotas = Kv.get 0 k r.quotas) ∧ t.mem = s.mem ∧ t.parts = s.parts)) ∧
  (∀ h p v s, ServesAll s h → (s.part p = none → Replies s (.xcpHail h p v) h s 2 .empty) ∧
    (s.part p ≠ none → Replies s (.xcpHail h p v) h (s.hail p v) 0 .empty)) ∧
  (∀ h key (w : HostWindow) s, ServesAll s h →
    let put (l : List (Nat × HostWindow)) : State := { s with harbour := { s.harbour with windows := l } }
    (w.len = 0 → Replies s (.rkey h key w) h (put (Kv.erase key s.harbour.windows)) 0 .empty) ∧
    (w.len ≠ 0 → w.base % 4096 ≠ 0 ∨ w.len % 4096 ≠ 0 → Replies s (.rkey h key w) h s 1 .empty) ∧
    (w.len ≠ 0 → w.base % 4096 = 0 → w.len % 4096 = 0 → s.part w.part ≠ none → w.base + w.len ≤ 2 ^ 52 →
      Replies s (.rkey h key w) h (put (Kv.insert key w s.harbour.windows)) 0 .empty)) ∧
  (∀ h (y : Topology) s, ServesAll s h → (s.parts ≠ [] → Replies s (.topology h y) h s 2 .empty) ∧
    (s.parts = [] → y.pkg < 1024 → y.dataVlan < 4096 → y.ctlVlan < 4096 → noRepeat (y.routes.map (·.1)) = true →
      (∀ r ∈ y.routes, r.1 < 1024 ∧ r.2.1 < 2 ^ 32 ∧ r.2.2 < 32) → s.harbour.agrees 4 = true ∨ (∀ r ∈ y.routes, r.1 = y.pkg) →
      (y.cyclic = true → Replies s (.topology h y) h s 7 .empty) ∧
      (y.cyclic = false → ∃ t, Replies s (.topology h y) h t 0 .empty ∧ t.harbour.pkg = y.pkg ∧ t.harbour.dataVlan = y.dataVlan ∧
        t.harbour.ctlVlan = y.ctlVlan ∧ (∀ k, Kv.find k t.harbour.routes = Kv.find k y.routes) ∧ t.proxy = []))) ∧
  (∀ h watts s, ServesAll s h → (watts < 1000 ∨ 3200 < watts → Replies s (.pwrcap h watts) h s 2 .empty) ∧
    (1000 ≤ watts → watts ≤ 3200 → Replies s (.pwrcap h watts) h { s with harbour := { s.harbour with cap := watts } } 0 .empty)) ∧
  (∀ h off total chunk s, Serves s h →
    (total < off + chunk.length ∨ total = 0 → Replies s (.fwprov h off total chunk) h s 1 .empty) ∧
    (off + chunk.length ≤ total → 0 < total → off ≠ 0 → s.harbour.stagingLen ≠ total →
      Replies s (.fwprov h off total chunk) h s 8 .empty) ∧
    (total = chunk.length → 0 < total → off = 0 →
      (s.harbour.imageOk chunk = true → ∃ t, Replies s (.fwprov h off total chunk) h t 0 .empty ∧ t.harbour.fwImage = chunk ∧
        t.harbour.fwFloor = Config.firmwareVersion chunk ∧ t.harbour.failCount = 0 ∧ t.mem = s.mem) ∧
      (s.harbour.imageOk chunk = false → Replies s (.fwprov h off total chunk) h s 6 .empty))))

/-- What the harbour die does of its own: a start checks the image, zeroes memory, places every region of DRAM and
releases the present cores; a core that does not report in 100 ms is absent; a failed start is counted, and the third
enters minimal mode (R469). Events leave for the host until it acknowledges them (R465), a die at 105 °C posts one
(R473). RoCEv2 writes and reads go through host windows (R462, R463). At which address a start places the boot code
(R292) is the model's choice (log 5). -/
def Obligations.HarbourDie : Prop :=
  (∀ u s, (s.harbour.starting = false ∨ s.interleave ≠ [] → exec (.deviceStart u) s = .next s) ∧
    (s.harbour.starting = true → s.interleave = [] → let v := settleParts u; let s1 : State := { s with absent := v }
      (s.harbour.imageOk s.harbour.fwImage = false → exec (.deviceStart u) s = .next (s1.startFailed 1)) ∧
      (s.harbour.imageOk s.harbour.fwImage = true → presentStacks v = [] → exec (.deviceStart u) s = .next (s1.startFailed 2)) ∧
      (s.harbour.imageOk s.harbour.fwImage = true → presentStacks v ≠ [] → presentDies v ≠ [] →
        ∃ s', exec (.deviceStart u) s = .next s' ∧ s'.ecc = [] ∧ s'.absent = v ∧
          (let code := s.harbour.pkg * 2 ^ 46 + s1.bootAt
            ∀ a, s'.byteAt a = if code ≤ a ∧ a < code + marchCode.length then marchCode.getD (a - code) 0 else 0) ∧
          (∀ n, n < v.dramEnd / 2 ^ 30 → Kv.find n s'.interleave = some (BitVec.ofNat 64 (2 ^ 63 + n * 2 ^ 40))) ∧
          ∀ c ∈ presentCores v, (s'.core c).released = true ∧ (s'.core c).bootvec = BitVec.ofNat 64 s1.bootAt ∧
            (s'.block (bootKey c)).part = none ∧ Kv.keys (s'.block (bootKey c)).threads = [0]))) ∧
  (∀ c s, let late : Prop := s.harbour.starting = true ∧ s.interleave ≠ [] ∧ s.unreported c = true ∧
      c ∈ presentCores s.absent ∧ s.harbour.startAt + 100000000 ≤ s.clock
    (¬ late → exec (.coreReportTimeout c) s = .next s) ∧
    (late → ∃ s', exec (.coreReportTimeout c) s = .next s' ∧ c ∈ s'.absent.noCores ∧ (s'.core c).released = false ∧
      s'.mem = s.mem)) ∧
  (∀ n s, s.harbour.starting = true → (n = 6 ∨ (n = 1 ∧ s.harbour.imageOk s.harbour.fwImage = false) ∨
      (n = 2 ∧ presentStacks s.absent = []) ∨ (n = 3 ∧ presentDies s.absent = []) ∨
      ((n = 4 ∨ n = 5) ∧ s.startDone = false ∧ s.harbour.startAt + 1000000000 ≤ s.clock)) →
    ∃ s', exec (.startFail n) s = .next s' ∧ s'.harbour.failCount = s.harbour.failCount + 1 ∧ s'.harbour.failReason = n ∧
      s'.parts = [] ∧ s'.blocks = [] ∧
      (2 ≤ s.harbour.failCount → s'.harbour.minimal = true ∧ s'.harbour.starting = false ∧ s'.absent.dramEnd = 0) ∧
      (s.harbour.failCount < 2 → s.harbour.minimal = false →
        s'.harbour.starting = true ∧ s'.agenda = [.deviceStart s.absent])) ∧
  (∀ s, (s.harbour.host = none → exec .xcpEvent s = .next s) ∧
    (s.harbour.host ≠ none → ∃ s', exec .xcpEvent s = .next s' ∧ s'.mem = s.mem ∧ (∀ e ∈ s'.harbour.events, e.sent ≠ none) ∧
      s'.outbox = s.outbox ++ (s.harbour.events.filter fun e => e.sent.isNone).map fun e =>
        .event { e with sent := some s.clock }) ∧
    (∃ s', exec .xcpEventResend s = .next s' ∧ s'.mem = s.mem ∧ s'.outbox = s.outbox ++
      (s.harbour.events.filter fun e => e.sent.any fun t => decide (t + 100000000 ≤ s.clock)).map fun e =>
        .event { e with sent := some s.clock })) ∧
  (∀ src seq s, (s.harbour.host ≠ some src → exec (.xcpEventAck src seq) s = .next s) ∧
    (s.harbour.host = some src → ∃ s', exec (.xcpEventAck src seq) s = .next s' ∧ s'.mem = s.mem ∧
      s'.harbour.events = s.harbour.events.filter fun e => e.seq != seq || e.sent.isNone)) ∧
  (∀ die celsius s, ∃ s', exec (.thermalThrottle die celsius) s = .next s' ∧ s'.mem = s.mem ∧
    (celsius < 105 → die ∉ s'.harbour.hot ∧ s'.harbour.events = s.harbour.events) ∧
    (105 ≤ celsius → die ∈ s'.harbour.hot ∧
      (die ∈ s.harbour.hot → s'.harbour.events = s.harbour.events) ∧
      (die ∉ s.harbour.hot → ∃ e, s'.harbour.events = insertReport XcpEvent.ts XcpEvent.source e s.harbour.events ∧
        e.data = [die, celsius] ∧ e.ts = s.clock ∧ e.source = s.harbour.pkg * 0x400 + 0x210))) ∧
  (∀ qp key addr d s,
    (s.harbour.minimal = true ∨ 256 ≤ qp → exec (.rdmaWrite qp key addr d) s = .next (s.emit (.rdmaAck qp 1)) ∧
      ∀ n, exec (.rdmaRead qp key addr n) s = .next (s.emit (.rdmaAck qp 1))) ∧
    (s.harbour.minimal = false → qp < 256 →
      (s.windowPieces key addr d.length true = none → exec (.rdmaWrite qp key addr d) s = .next (s.emit (.rdmaAck qp 2))) ∧
      (∀ p l, s.windowPieces key addr d.length true = some (p, l) →
        (∀ c ∈ pieceCells l d, PlainByte s c.1 ∧ Unheld s (c.1 / 64)) →
        ∃ s', exec (.rdmaWrite qp key addr d) s = .next s' ∧ StoredCells s s' (pieceCells l d) ∧ Sent s s' (.rdmaAck qp 0)) ∧
      (∀ n, (∀ a ∈ s.harbour.acks, a.1 ≠ qp) →
        (s.windowPieces key addr n false = none → exec (.rdmaRead qp key addr n) s = .next (s.emit (.rdmaAck qp 2))) ∧
        (∀ p l, s.windowPieces key addr n false = some (p, l) → (∀ x ∈ l, ∀ k < x.2, PlainByte s (x.1 + k)) →
          ∃ s', exec (.rdmaRead qp key addr n) s = .next s' ∧ s'.mem = s.mem ∧
            Sent s s' (.rdmaData qp (l.flatMap fun x => (List.range x.2).map fun k => s.byteAt (x.1 + k)))))))

/-- Words written out from the encodings decode to the instructions they stand for: the two examples of the opcode map,
NOP, the filler, a ferry word and a micro-operation; the encoder gives the same words; an all-zero word is no
instruction (R40, R41, R45, R49, R70, R405, R407, R421, R422). -/
def Obligations.WordsOfTheSpecDecode : Prop :=
  let fadd : Instr := .fadd ⟨⟨false, 3, false⟩, ⟨false, .v 5, 0⟩, .f32, false, .v 4, .op (.s 1)⟩ .rn
  let pair : Instr := .pairP96 ⟨false, 7, true⟩ ⟨.ffma, .rn, ⟨true, .zero, 1⟩, .v 8, .s 1⟩
    ⟨.fmul, .rn, ⟨true, .zero, 2⟩, .v 10, .s 1⟩
  decodeWord 0x0000B808100A3400 = .ok fadd ∧ encodeBits fadd = some 0x0000B808100A3400 ∧
  decodeWord 0x0B0105540307010454047FF5 = .ok pair ∧ encodeBits pair = some 0x0B0105540307010454047FF5 ∧
  decodeWord 0x7000 = .ok .nop ∧ decodeWord 3 = .ok .filler ∧ (decodeWord 0).isOk = false ∧
  (decodeWord 7).isOk = false ∧ (decodeWord 0x70A0).isOk = false ∧
  -- VADD ?fm1 .f32 fv2 := fv3 + fv4, and NBADD.last.i32 a1 := a2 + k3
  decodeFerry 0x048D1080 = .ok (.vadd 2 3 4 1 false .rn .f32) ∧ encodeFerry (.vadd 2 3 4 1 false .rn .f32) = some 0x048D1080 ∧
  decodeNb 0x46E86000 = .ok (.nbadd 1 2 3 true .i32 .rn .last) ∧ encodeNb (.nbadd 1 2 3 true .i32 .rn .last) = some 0x46E86000

/-- Encoding a well-formed Mermos instruction and decoding the word gives the instruction back, with every operand; so
does decoding its bytes, which leaves the bytes after it (R39, R40, R45, R47, R49). Whatever decodes is well formed and
has an encoding: no word is accepted with a field that its entry refuses (R44, R50, R71, R72). -/
def Obligations.MermosEncodingsRoundTrip : Prop :=
  (∀ i w, i.wf = true → encodeBits i = some w →
    decodeWord w = .ok i ∧ w < 2 ^ (8 * lenBytes (w % 4)) ∧
    ∀ bs rest, encode i = some bs → bs.length = lenBytes (w % 4) ∧ decode (bs ++ rest) = .ok (i, rest)) ∧
  ∀ w i, decodeWord w = .ok i → i.wf = true ∧ (encodeBits i).isSome = true

/-- Encoding a well-formed ferry word or micro-operation and decoding the word gives it back, and only the word it came
from decodes to it (R405, R407, R421, R422). Whatever decodes is well formed (R399, R423). -/
def Obligations.FerryAndNearBankEncodingsRoundTrip : Prop :=
  (∀ i w, i.wf = true → encodeFerry i = some w → w < 2 ^ 32 ∧ decodeFerry w = .ok i) ∧
  (∀ i w, i.wf = true → encodeNb i = some w → w < 2 ^ 32 ∧ decodeNb w = .ok i) ∧
  (∀ i w, w < 2 ^ 32 → decodeFerry w = .ok i → encodeFerry i = some w) ∧
  (∀ i w, w < 2 ^ 32 → decodeNb w = .ok i → encodeNb i = some w) ∧
  (∀ w i, decodeFerry w = .ok i → i.wf = true) ∧ (∀ w i, decodeNb w = .ok i → i.wf = true)

/-- A step runs what the bytes at the PC, or the word of the invocation or the run, decode to, and time passes. An event
that has been set off comes first; an open chain that the next instruction cannot continue ends before it issues (R56).
The bytes of a boot-mode thread's fetch block are those of memory at its local address unless its core's instruction
cache holds the block (R39, R42, R43, R393, R419, R474). -/
def Obligations.StepsRunDecodedInstructions : Prop :=
  (∀ s i rest, s.agenda = i :: rest →
    step s = Res.thenDo (Res.thenDo (exec i { s with agenda := rest }) State.unblock) s.tickFrom) ∧
  (∀ s c e en g bs s1 i rest, s.agenda = [] → s.focus = .entry c e → s.entry c e = some en → s.grpOf c e = some g →
    s.hasWork c e en = true → g.ov = none → en.pend = [] →
    s.fetch g g.pc = .ok (bs, s1) → decode bs = .ok (i, rest) →
    (i = .filler → step s = Res.thenDo (exec .filler s1) s.tickFrom) ∧
    (i ≠ .filler → en.chain = 0 ∨ chains i = true →
      step s = Res.thenDo (Res.thenDo (exec i (s1.startBlock en.block)) fun t => t.refocus c e) s.tickFrom) ∧
    (i ≠ .filler → en.chain ≠ 0 → chains i = false → step s = .next (s.tickFrom (s1.boundary c e)))) ∧
  (∀ (s : State) (g : Grp) va spa, g.part s = none → spa = s.harbour.pkg * 2 ^ 46 + va →
    s.target spa = .dram → s.poisonedIn spa 32 = none → s.stashPages = [] → (∀ l ∈ linesOf spa 32, s.probing l = false) →
    ((s.core g.core).icache.find? fun b => b.1 == (none, va)) = none →
    ∃ s1, s.fetchBlock g va = .ok ((List.range 32).map fun k => s.byteAt (spa + k), s1) ∧
      (s1.core g.core).icache = ((none, va), (List.range 32).map fun k => s.byteAt (spa + k)) :: (s.core g.core).icache) ∧
  (∀ (s : State) (g : Grp) va b, g.part s = none → s.target (s.harbour.pkg * 2 ^ 46 + va) ≠ .nothing →
    (s.core g.core).icache.find? (fun b => b.1 == (none, va)) = some b → s.fetchBlock g va = .ok (b.2, s)) ∧
  (∀ (s s1 : State) (g : Grp) p va x b, g.part s = some p → s.translate g.core p (g.priv s) .fetch va = .ok (x, s1) →
    (s1.core g.core).icache.find? (fun b => b.1 == (some p, va)) = some b → s.fetchBlock g va = .ok (b.2, s1)) ∧
  (∀ s stk fc c r b w i, s.agenda = [] → s.focus = .ferry stk fc → s.fctx stk fc = some (c, r, b) →
    c.kernel.words[r.idx]? = some w → decodeFerry w = .ok i → step s = Res.thenDo (exec i s) s.tickFrom) ∧
  (∀ s stk unit u w i, s.agenda = [] → s.focus = .nb stk unit → (s.unit (64 * stk + unit)).cur = some u →
    u.prog[u.i]? = some w → decodeNb w = .ok i →
    step s = Res.thenDo (Res.thenDo (exec i s) fun t => t.nbRefocus stk unit) s.tickFrom)

/-- After power-up every core is held in reset with BOOTVEC 0, DIAGBASE 0x000FF00000000000 and DIAGCTL 1, memory is in
its canonical form, nothing has run, and the first step is the start of the device. A core that is released starts its
boot-mode thread with every register, uniform register and predicate 0 (R25, R30, R33, R36, R38, R469). That memory
reads as zero before the start has filled it is the model's choice. -/
def Obligations.ResetLeaves : Prop :=
  MemOk State.reset ∧ (∀ a, State.reset.byteAt a = 0) ∧
  (∀ c, (State.reset.core c).released = false ∧ (State.reset.core c).bootvec = 0 ∧
    (State.reset.core c).diagbase = 0x000FF00000000000 ∧ (State.reset.core c).diagctl = 1) ∧
  State.reset.blocks = [] ∧ State.reset.parts = [] ∧
  step State.reset = Res.thenDo (Res.thenDo (exec (.deviceStart UnitParts.whole) { State.reset with agenda := [] })
    State.unblock) State.reset.tickFrom ∧
  (∀ pc n priv lane slot bc, let t := Thread.start pc n priv lane slot bc
    t.pc = pc ∧ t.fpcsr = 0 ∧ t.tsLatch = 0 ∧ t.stat = .ready ∧ (∀ k, t.reg k = 0) ∧ (∀ k, k < 7 → t.pred k = false) ∧
    t.pred 7 = true) ∧
  (∀ c n, (BlockCore.start c []).sreg n = 0 ∧ ∀ k, ((BlockCore.start c []).tl k).issued = 0)

/-- Time never goes back: a step that answers a next state moves the counter by the time that passes, slewed by at most
100 ppm of it, and counts one step (R474). -/
def Obligations.TheCounterNeverDecreases : Prop :=
  ∀ s s', step s = .next s' → s'.tick = s.tick + 1 ∧ s.clock ≤ s'.clock ∧
    let d := Config.stepTime s.tick
    s.clock + (d - d / 10000) ≤ s'.clock ∧ s'.clock ≤ s.clock + d + d / 10000

/-- Every step that answers a next state keeps memory in its canonical form: addresses strictly rising, and no byte
listed that an unlisted address reads as (R8, R242). The form is the model's own. -/
def Obligations.StepsKeepMemoryCanonical : Prop :=
  ∀ s s', MemOk s → step s = .next s' → MemOk s'
end

