-- ==== Sys2Proof/Laws/Kv.lean ====
section
/-! SUPPORT. What the operations on canonical tables do: reading after writing, and the canonical form they keep. -/

namespace Sys2Proof.Machine.Kv

variable {α : Type}

@[simp] theorem get_nil (d : α) (k : Nat) : get d k [] = d := rfl
@[simp] theorem find_nil (k : Nat) : find (α := α) k [] = none := rfl

theorem get_eq_find (d : α) (k : Nat) (l : List (Nat × α)) : get d k l = (find k l).getD d := by
  induction l with
  | nil => rfl
  | cons x t ih => simp only [get, find]; split <;> simp [*]

theorem get_of_find {d : α} {k : Nat} {l : List (Nat × α)} {v : α} (h : find k l = some v) : get d k l = v := by
  simp [get_eq_find, h]

theorem find_insert_self (k : Nat) (v : α) (l : List (Nat × α)) : find k (insert k v l) = some v := by
  induction l with
  | nil => simp [insert, find]
  | cons x t ih =>
    simp only [insert]
    split
    · simp [find]
    · split <;> simp_all [find]

theorem find_insert_ne {j k : Nat} (h : j ≠ k) (v : α) (l : List (Nat × α)) : find j (insert k v l) = find j l := by
  induction l with
  | nil => simp [insert, find, h]
  | cons x t ih =>
    simp only [insert]
    split
    · simp [find, h]
    · split
      · rename_i e; subst e; simp [find, h]
      · simp [find, ih]

theorem find_insert (j k : Nat) (v : α) (l : List (Nat × α)) :
    find j (insert k v l) = if j = k then some v else find j l := by
  split
  · rename_i h; subst h; exact find_insert_self j v l
  · rename_i h; exact find_insert_ne h v l

theorem find_erase_self (k : Nat) (l : List (Nat × α)) : find k (erase k l) = none := by
  induction l with
  | nil => rfl
  | cons x t ih => simp only [erase]; split <;> simp_all [find]

theorem find_erase_ne {j k : Nat} (h : j ≠ k) (l : List (Nat × α)) : find j (erase k l) = find j l := by
  induction l with
  | nil => rfl
  | cons x t ih =>
    simp only [erase]
    split
    · rename_i e; subst e; simp [find, h, ih]
    · simp [find, ih]

theorem get_insert_self (d : α) (k : Nat) (v : α) (l : List (Nat × α)) : get d k (insert k v l) = v :=
  get_of_find (find_insert_self k v l)

theorem get_insert_ne {j k : Nat} (h : j ≠ k) (d v : α) (l : List (Nat × α)) : get d j (insert k v l) = get d j l := by
  simp [get_eq_find, find_insert_ne h]

theorem get_set_self [DecidableEq α] (d : α) (k : Nat) (v : α) (l : List (Nat × α)) : get d k (set d k v l) = v := by
  unfold set; split
  · rename_i h; subst h; simp [get_eq_find, find_erase_self]
  · exact get_insert_self d k v l

theorem get_set_ne [DecidableEq α] {j k : Nat} (h : j ≠ k) (d v : α) (l : List (Nat × α)) :
    get d j (set d k v l) = get d j l := by
  unfold set; split
  · simp [get_eq_find, find_erase_ne h]
  · exact get_insert_ne h d v l

theorem get_set [DecidableEq α] (d : α) (j k : Nat) (v : α) (l : List (Nat × α)) :
    get d j (set d k v l) = if j = k then v else get d j l := by
  split
  · rename_i h; subst h; exact get_set_self d j v l
  · rename_i h; exact get_set_ne h d v l

theorem find_modify_self (k : Nat) (f : α → α) (l : List (Nat × α)) : find k (modify k f l) = (find k l).map f := by
  induction l with
  | nil => rfl
  | cons x t ih =>
    simp only [modify]
    split
    · rename_i h; subst h; simp [find]
    · rename_i h; simp [find, h, ih]

theorem find_modify_ne {j k : Nat} (h : j ≠ k) (f : α → α) (l : List (Nat × α)) : find j (modify k f l) = find j l := by
  induction l with
  | nil => rfl
  | cons x t ih =>
    simp only [modify]
    split
    · rename_i e; subst e; simp [find, h]
    · simp [find, ih]

theorem find_modify (j k : Nat) (f : α → α) (l : List (Nat × α)) :
    find j (modify k f l) = if j = k then (find j l).map f else find j l := by
  split
  · rename_i h; subst h; exact find_modify_self j f l
  · rename_i h; exact find_modify_ne h f l

theorem get_modify_self {d : α} {k : Nat} {l : List (Nat × α)} {v : α} (f : α → α) (h : find k l = some v) :
    get d k (modify k f l) = f v := get_of_find (by rw [find_modify_self, h]; rfl)

theorem find_map (f : Nat → α → α) (k : Nat) (l : List (Nat × α)) :
    find k (l.map fun x => (x.1, f x.1 x.2)) = (find k l).map (f k) := by
  induction l with
  | nil => rfl
  | cons x t ih =>
    simp only [List.map, find]
    split
    · rename_i h; subst h; rfl
    · exact ih

/-! ### The canonical form -/

theorem above_mono {a b : Nat} (h : a ≤ b) {l : List (Nat × α)} (hb : above b l = true) : above a l = true := by
  cases l with
  | nil => rfl
  | cons x t =>
    simp only [above, Bool.and_eq_true, decide_eq_true_eq] at hb ⊢
    exact ⟨by omega, hb.2⟩

theorem above_erase {b k : Nat} {l : List (Nat × α)} (h : above b l = true) : above b (erase k l) = true := by
  induction l generalizing b with
  | nil => rfl
  | cons x t ih =>
    simp only [above, Bool.and_eq_true, decide_eq_true_eq] at h
    simp only [erase]
    split
    · exact ih (above_mono (Nat.le_of_lt h.1) h.2)
    · simp [above, h.1, ih h.2]

theorem above_insert {b k : Nat} {v : α} {l : List (Nat × α)} (hk : b < k) (h : above b l = true) :
    above b (insert k v l) = true := by
  induction l generalizing b with
  | nil => simp [insert, above, hk]
  | cons x t ih =>
    simp only [above, Bool.and_eq_true, decide_eq_true_eq] at h
    simp only [insert]
    split
    · rename_i h1; simp [above, hk, h, h1]
    · split
      · rename_i e; simp [above, e, h.1, h.2]
      · rename_i h1 h2; simp [above, h.1, ih (show x.1 < k by omega) h.2]

theorem wf_erase [DecidableEq α] {d : α} {k : Nat} {l : List (Nat × α)} (h : wf d l = true) :
    wf d (erase k l) = true := by
  induction l with
  | nil => rfl
  | cons x t ih =>
    simp only [wf, Bool.and_eq_true, decide_eq_true_eq] at h
    simp only [erase]
    split
    · exact ih h.2.2
    · simp [wf, h.1, above_erase h.2.1, ih h.2.2]

theorem wf_insert [DecidableEq α] {d v : α} {k : Nat} {l : List (Nat × α)} (hv : v ≠ d) (h : wf d l = true) :
    wf d (insert k v l) = true := by
  induction l with
  | nil => simp [insert, wf, above, hv]
  | cons x t ih =>
    simp only [wf, Bool.and_eq_true, decide_eq_true_eq] at h
    simp only [insert]
    split
    · rename_i hk
      simp [wf, above, hv, h, hk]
    · split
      · rename_i e; simp [wf, hv, h, e]
      · rename_i h1 h2
        simp [wf, h.1, ih h.2.2, above_insert (v := v) (show x.1 < k by omega) h.2.1]

theorem wf_set [DecidableEq α] {d : α} {k : Nat} {v : α} {l : List (Nat × α)} (h : wf d l = true) :
    wf d (set d k v l) = true := by
  unfold set; split
  · exact wf_erase h
  · exact wf_insert ‹_› h

theorem above_filter {b : Nat} (f : Nat × α → Bool) {l : List (Nat × α)} (h : above b l = true) :
    above b (l.filter f) = true := by
  induction l generalizing b with
  | nil => rfl
  | cons x t ih =>
    simp only [above, Bool.and_eq_true, decide_eq_true_eq] at h
    simp only [List.filter]
    split
    · simp [above, h.1, ih h.2]
    · exact ih (above_mono (Nat.le_of_lt h.1) h.2)

theorem wf_filter [DecidableEq α] {d : α} (f : Nat × α → Bool) {l : List (Nat × α)} (h : wf d l = true) :
    wf d (l.filter f) = true := by
  induction l with
  | nil => rfl
  | cons x t ih =>
    simp only [wf, Bool.and_eq_true, decide_eq_true_eq] at h
    simp only [List.filter]
    split <;> simp [wf, h.1, above_filter f h.2.1, ih h.2.2]

theorem get_above {d : α} {b k : Nat} {l : List (Nat × α)} (h : above b l = true) (hk : k ≤ b) : get d k l = d := by
  induction l generalizing b with
  | nil => rfl
  | cons x t ih =>
    simp only [above, Bool.and_eq_true, decide_eq_true_eq] at h
    have : k ≠ x.1 := by omega
    simp [get, this, ih h.2 (by omega)]

/-- Two canonical tables that read alike are equal. -/
theorem eq_of_get [DecidableEq α] {d : α} {l m : List (Nat × α)} (hl : wf d l = true) (hm : wf d m = true)
    (h : ∀ k, get d k l = get d k m) : l = m := by
  induction l generalizing m with
  | nil =>
    cases m with
    | nil => rfl
    | cons y u =>
      simp only [wf, Bool.and_eq_true, decide_eq_true_eq] at hm
      have := h y.1
      simp [get] at this
      exact absurd this.symm hm.1
  | cons x t ih =>
    have hl0 := hl
    simp only [wf, Bool.and_eq_true, decide_eq_true_eq] at hl
    cases m with
    | nil =>
      have := h x.1
      simp [get] at this
      exact absurd this hl.1
    | cons y u =>
      simp only [wf, Bool.and_eq_true, decide_eq_true_eq] at hm
      have hxy : x.1 = y.1 := by
        rcases Nat.lt_trichotomy x.1 y.1 with q | q | q
        · have e := h x.1
          rw [get_above (l := y :: u) (b := x.1) (by simp [above, q, hm.2.1]) (Nat.le_refl _)] at e
          simp [get] at e
          exact absurd e hl.1
        · exact q
        · have e := h y.1
          rw [get_above (l := x :: t) (b := y.1) (by simp [above, q, hl.2.1]) (Nat.le_refl _)] at e
          simp [get] at e
          exact absurd e.symm hm.1
      have hv : x.2 = y.2 := by
        have e := h x.1
        simpa [get, hxy] using e
      have ht : t = u := by
        refine ih hl.2.2 hm.2.2 fun k => ?_
        by_cases hk : k = x.1
        · subst hk
          rw [get_above hl.2.1 (Nat.le_refl _), get_above hm.2.1 (by omega)]
        · have e := h k
          have hk' : k ≠ y.1 := by omega
          simpa [get, hk, hk'] using e
      rw [ht, show x = y from Prod.ext hxy hv]

end Sys2Proof.Machine.Kv
end

