-- ==== Sys2Proof/Laws/State.lean ====
section
/-! SUPPORT. What each change of a part of the state leaves of every other part, so that no later proof unfolds a
record update, and what reads after a write give. -/

namespace Sys2Proof.Machine

variable (s : State)

/-! ### Replacing a block, a core, a base die, a partition: the other fields -/

@[simp] theorem State.putBlock_mem (k : Nat) (b : Block) : (s.putBlock k b).mem = s.mem := rfl
@[simp] theorem State.putBlock_ecc (k : Nat) (b : Block) : (s.putBlock k b).ecc = s.ecc := rfl
@[simp] theorem State.putBlock_proxy (k : Nat) (b : Block) : (s.putBlock k b).proxy = s.proxy := rfl
@[simp] theorem State.putBlock_interleave (k : Nat) (b : Block) : (s.putBlock k b).interleave = s.interleave := rfl
@[simp] theorem State.putBlock_reqs (k : Nat) (b : Block) : (s.putBlock k b).reqs = s.reqs := rfl
@[simp] theorem State.putBlock_nextTxid (k : Nat) (b : Block) : (s.putBlock k b).nextTxid = s.nextTxid := rfl
@[simp] theorem State.putBlock_cores (k : Nat) (b : Block) : (s.putBlock k b).cores = s.cores := rfl
@[simp] theorem State.putBlock_parts (k : Nat) (b : Block) : (s.putBlock k b).parts = s.parts := rfl
@[simp] theorem State.putBlock_dies (k : Nat) (b : Block) : (s.putBlock k b).dies = s.dies := rfl
@[simp] theorem State.putBlock_links (k : Nat) (b : Block) : (s.putBlock k b).links = s.links := rfl
@[simp] theorem State.putBlock_absent (k : Nat) (b : Block) : (s.putBlock k b).absent = s.absent := rfl
@[simp] theorem State.putBlock_harbour (k : Nat) (b : Block) : (s.putBlock k b).harbour = s.harbour := rfl
@[simp] theorem State.putBlock_ops (k : Nat) (b : Block) : (s.putBlock k b).ops = s.ops := rfl
@[simp] theorem State.putBlock_nextOp (k : Nat) (b : Block) : (s.putBlock k b).nextOp = s.nextOp := rfl
@[simp] theorem State.putBlock_nextTag (k : Nat) (b : Block) : (s.putBlock k b).nextTag = s.nextTag := rfl
@[simp] theorem State.putBlock_outbox (k : Nat) (b : Block) : (s.putBlock k b).outbox = s.outbox := rfl
@[simp] theorem State.putBlock_turns (k : Nat) (b : Block) : (s.putBlock k b).turns = s.turns := rfl
@[simp] theorem State.putBlock_focus (k : Nat) (b : Block) : (s.putBlock k b).focus = s.focus := rfl
@[simp] theorem State.putBlock_agenda (k : Nat) (b : Block) : (s.putBlock k b).agenda = s.agenda := rfl
@[simp] theorem State.putBlock_lazyMem (k : Nat) (b : Block) : (s.putBlock k b).lazyMem = s.lazyMem := rfl
@[simp] theorem State.putBlock_tick (k : Nat) (b : Block) : (s.putBlock k b).tick = s.tick := rfl
@[simp] theorem State.putBlock_clock (k : Nat) (b : Block) : (s.putBlock k b).clock = s.clock := rfl
@[simp] theorem State.putBlock_drawn (k : Nat) (b : Block) : (s.putBlock k b).drawn = s.drawn := rfl
@[simp] theorem State.putBlock_lineQueue (k : Nat) (b : Block) : (s.putBlock k b).lineQueue = s.lineQueue := rfl
@[simp] theorem State.putBlock_clusterTlbs (k : Nat) (b : Block) : (s.putBlock k b).clusterTlbs = s.clusterTlbs := rfl
@[simp] theorem State.putBlock_nestedTlbs (k : Nat) (b : Block) : (s.putBlock k b).nestedTlbs = s.nestedTlbs := rfl

@[simp] theorem State.putCore_mem (c : Nat) (x : Core) : (s.putCore c x).mem = s.mem := rfl
@[simp] theorem State.putCore_ecc (c : Nat) (x : Core) : (s.putCore c x).ecc = s.ecc := rfl
@[simp] theorem State.putCore_proxy (c : Nat) (x : Core) : (s.putCore c x).proxy = s.proxy := rfl
@[simp] theorem State.putCore_interleave (c : Nat) (x : Core) : (s.putCore c x).interleave = s.interleave := rfl
@[simp] theorem State.putCore_reqs (c : Nat) (x : Core) : (s.putCore c x).reqs = s.reqs := rfl
@[simp] theorem State.putCore_nextTxid (c : Nat) (x : Core) : (s.putCore c x).nextTxid = s.nextTxid := rfl
@[simp] theorem State.putCore_blocks (c : Nat) (x : Core) : (s.putCore c x).blocks = s.blocks := rfl
@[simp] theorem State.putCore_parts (c : Nat) (x : Core) : (s.putCore c x).parts = s.parts := rfl
@[simp] theorem State.putCore_dies (c : Nat) (x : Core) : (s.putCore c x).dies = s.dies := rfl
@[simp] theorem State.putCore_links (c : Nat) (x : Core) : (s.putCore c x).links = s.links := rfl
@[simp] theorem State.putCore_absent (c : Nat) (x : Core) : (s.putCore c x).absent = s.absent := rfl
@[simp] theorem State.putCore_harbour (c : Nat) (x : Core) : (s.putCore c x).harbour = s.harbour := rfl
@[simp] theorem State.putCore_ops (c : Nat) (x : Core) : (s.putCore c x).ops = s.ops := rfl
@[simp] theorem State.putCore_nextOp (c : Nat) (x : Core) : (s.putCore c x).nextOp = s.nextOp := rfl
@[simp] theorem State.putCore_nextTag (c : Nat) (x : Core) : (s.putCore c x).nextTag = s.nextTag := rfl
@[simp] theorem State.putCore_outbox (c : Nat) (x : Core) : (s.putCore c x).outbox = s.outbox := rfl
@[simp] theorem State.putCore_turns (c : Nat) (x : Core) : (s.putCore c x).turns = s.turns := rfl
@[simp] theorem State.putCore_focus (c : Nat) (x : Core) : (s.putCore c x).focus = s.focus := rfl
@[simp] theorem State.putCore_agenda (c : Nat) (x : Core) : (s.putCore c x).agenda = s.agenda := rfl
@[simp] theorem State.putCore_lazyMem (c : Nat) (x : Core) : (s.putCore c x).lazyMem = s.lazyMem := rfl
@[simp] theorem State.putCore_tick (c : Nat) (x : Core) : (s.putCore c x).tick = s.tick := rfl
@[simp] theorem State.putCore_clock (c : Nat) (x : Core) : (s.putCore c x).clock = s.clock := rfl
@[simp] theorem State.putCore_drawn (c : Nat) (x : Core) : (s.putCore c x).drawn = s.drawn := rfl
@[simp] theorem State.putCore_lineQueue (c : Nat) (x : Core) : (s.putCore c x).lineQueue = s.lineQueue := rfl
@[simp] theorem State.putCore_clusterTlbs (c : Nat) (x : Core) : (s.putCore c x).clusterTlbs = s.clusterTlbs := rfl
@[simp] theorem State.putCore_nestedTlbs (c : Nat) (x : Core) : (s.putCore c x).nestedTlbs = s.nestedTlbs := rfl

@[simp] theorem State.putDie_mem (k : Nat) (d : BaseDie) : (s.putDie k d).mem = s.mem := rfl
@[simp] theorem State.putDie_ecc (k : Nat) (d : BaseDie) : (s.putDie k d).ecc = s.ecc := rfl
@[simp] theorem State.putDie_proxy (k : Nat) (d : BaseDie) : (s.putDie k d).proxy = s.proxy := rfl
@[simp] theorem State.putDie_interleave (k : Nat) (d : BaseDie) : (s.putDie k d).interleave = s.interleave := rfl
@[simp] theorem State.putDie_reqs (k : Nat) (d : BaseDie) : (s.putDie k d).reqs = s.reqs := rfl
@[simp] theorem State.putDie_nextTxid (k : Nat) (d : BaseDie) : (s.putDie k d).nextTxid = s.nextTxid := rfl
@[simp] theorem State.putDie_cores (k : Nat) (d : BaseDie) : (s.putDie k d).cores = s.cores := rfl
@[simp] theorem State.putDie_blocks (k : Nat) (d : BaseDie) : (s.putDie k d).blocks = s.blocks := rfl
@[simp] theorem State.putDie_parts (k : Nat) (d : BaseDie) : (s.putDie k d).parts = s.parts := rfl
@[simp] theorem State.putDie_links (k : Nat) (d : BaseDie) : (s.putDie k d).links = s.links := rfl
@[simp] theorem State.putDie_absent (k : Nat) (d : BaseDie) : (s.putDie k d).absent = s.absent := rfl
@[simp] theorem State.putDie_harbour (k : Nat) (d : BaseDie) : (s.putDie k d).harbour = s.harbour := rfl
@[simp] theorem State.putDie_ops (k : Nat) (d : BaseDie) : (s.putDie k d).ops = s.ops := rfl
@[simp] theorem State.putDie_nextOp (k : Nat) (d : BaseDie) : (s.putDie k d).nextOp = s.nextOp := rfl
@[simp] theorem State.putDie_nextTag (k : Nat) (d : BaseDie) : (s.putDie k d).nextTag = s.nextTag := rfl
@[simp] theorem State.putDie_outbox (k : Nat) (d : BaseDie) : (s.putDie k d).outbox = s.outbox := rfl
@[simp] theorem State.putDie_turns (k : Nat) (d : BaseDie) : (s.putDie k d).turns = s.turns := rfl
@[simp] theorem State.putDie_focus (k : Nat) (d : BaseDie) : (s.putDie k d).focus = s.focus := rfl
@[simp] theorem State.putDie_agenda (k : Nat) (d : BaseDie) : (s.putDie k d).agenda = s.agenda := rfl
@[simp] theorem State.putDie_lazyMem (k : Nat) (d : BaseDie) : (s.putDie k d).lazyMem = s.lazyMem := rfl
@[simp] theorem State.putDie_tick (k : Nat) (d : BaseDie) : (s.putDie k d).tick = s.tick := rfl
@[simp] theorem State.putDie_clock (k : Nat) (d : BaseDie) : (s.putDie k d).clock = s.clock := rfl
@[simp] theorem State.putDie_drawn (k : Nat) (d : BaseDie) : (s.putDie k d).drawn = s.drawn := rfl
@[simp] theorem State.putDie_lineQueue (k : Nat) (d : BaseDie) : (s.putDie k d).lineQueue = s.lineQueue := rfl
@[simp] theorem State.putDie_clusterTlbs (k : Nat) (d : BaseDie) : (s.putDie k d).clusterTlbs = s.clusterTlbs := rfl
@[simp] theorem State.putDie_nestedTlbs (k : Nat) (d : BaseDie) : (s.putDie k d).nestedTlbs = s.nestedTlbs := rfl

@[simp] theorem State.putPart_mem (p : Nat) (x : Partition) : (s.putPart p x).mem = s.mem := rfl
@[simp] theorem State.putPart_ecc (p : Nat) (x : Partition) : (s.putPart p x).ecc = s.ecc := rfl
@[simp] theorem State.putPart_proxy (p : Nat) (x : Partition) : (s.putPart p x).proxy = s.proxy := rfl
@[simp] theorem State.putPart_interleave (p : Nat) (x : Partition) : (s.putPart p x).interleave = s.interleave := rfl
@[simp] theorem State.putPart_reqs (p : Nat) (x : Partition) : (s.putPart p x).reqs = s.reqs := rfl
@[simp] theorem State.putPart_nextTxid (p : Nat) (x : Partition) : (s.putPart p x).nextTxid = s.nextTxid := rfl
@[simp] theorem State.putPart_cores (p : Nat) (x : Partition) : (s.putPart p x).cores = s.cores := rfl
@[simp] theorem State.putPart_blocks (p : Nat) (x : Partition) : (s.putPart p x).blocks = s.blocks := rfl
@[simp] theorem State.putPart_dies (p : Nat) (x : Partition) : (s.putPart p x).dies = s.dies := rfl
@[simp] theorem State.putPart_links (p : Nat) (x : Partition) : (s.putPart p x).links = s.links := rfl
@[simp] theorem State.putPart_absent (p : Nat) (x : Partition) : (s.putPart p x).absent = s.absent := rfl
@[simp] theorem State.putPart_harbour (p : Nat) (x : Partition) : (s.putPart p x).harbour = s.harbour := rfl
@[simp] theorem State.putPart_ops (p : Nat) (x : Partition) : (s.putPart p x).ops = s.ops := rfl
@[simp] theorem State.putPart_nextOp (p : Nat) (x : Partition) : (s.putPart p x).nextOp = s.nextOp := rfl
@[simp] theorem State.putPart_nextTag (p : Nat) (x : Partition) : (s.putPart p x).nextTag = s.nextTag := rfl
@[simp] theorem State.putPart_outbox (p : Nat) (x : Partition) : (s.putPart p x).outbox = s.outbox := rfl
@[simp] theorem State.putPart_turns (p : Nat) (x : Partition) : (s.putPart p x).turns = s.turns := rfl
@[simp] theorem State.putPart_focus (p : Nat) (x : Partition) : (s.putPart p x).focus = s.focus := rfl
@[simp] theorem State.putPart_agenda (p : Nat) (x : Partition) : (s.putPart p x).agenda = s.agenda := rfl
@[simp] theorem State.putPart_lazyMem (p : Nat) (x : Partition) : (s.putPart p x).lazyMem = s.lazyMem := rfl
@[simp] theorem State.putPart_tick (p : Nat) (x : Partition) : (s.putPart p x).tick = s.tick := rfl
@[simp] theorem State.putPart_clock (p : Nat) (x : Partition) : (s.putPart p x).clock = s.clock := rfl
@[simp] theorem State.putPart_drawn (p : Nat) (x : Partition) : (s.putPart p x).drawn = s.drawn := rfl
@[simp] theorem State.putPart_lineQueue (p : Nat) (x : Partition) : (s.putPart p x).lineQueue = s.lineQueue := rfl
@[simp] theorem State.putPart_clusterTlbs (p : Nat) (x : Partition) : (s.putPart p x).clusterTlbs = s.clusterTlbs := rfl
@[simp] theorem State.putPart_nestedTlbs (p : Nat) (x : Partition) : (s.putPart p x).nestedTlbs = s.nestedTlbs := rfl

@[simp] theorem State.modBlock_mem (k : Nat) (f : Block → Block) : (s.modBlock k f).mem = s.mem := rfl
@[simp] theorem State.modBlock_ecc (k : Nat) (f : Block → Block) : (s.modBlock k f).ecc = s.ecc := rfl
@[simp] theorem State.modBlock_proxy (k : Nat) (f : Block → Block) : (s.modBlock k f).proxy = s.proxy := rfl
@[simp] theorem State.modBlock_interleave (k : Nat) (f : Block → Block) : (s.modBlock k f).interleave = s.interleave := rfl
@[simp] theorem State.modBlock_reqs (k : Nat) (f : Block → Block) : (s.modBlock k f).reqs = s.reqs := rfl
@[simp] theorem State.modBlock_nextTxid (k : Nat) (f : Block → Block) : (s.modBlock k f).nextTxid = s.nextTxid := rfl
@[simp] theorem State.modBlock_cores (k : Nat) (f : Block → Block) : (s.modBlock k f).cores = s.cores := rfl
@[simp] theorem State.modBlock_parts (k : Nat) (f : Block → Block) : (s.modBlock k f).parts = s.parts := rfl
@[simp] theorem State.modBlock_dies (k : Nat) (f : Block → Block) : (s.modBlock k f).dies = s.dies := rfl
@[simp] theorem State.modBlock_links (k : Nat) (f : Block → Block) : (s.modBlock k f).links = s.links := rfl
@[simp] theorem State.modBlock_absent (k : Nat) (f : Block → Block) : (s.modBlock k f).absent = s.absent := rfl
@[simp] theorem State.modBlock_harbour (k : Nat) (f : Block → Block) : (s.modBlock k f).harbour = s.harbour := rfl
@[simp] theorem State.modBlock_ops (k : Nat) (f : Block → Block) : (s.modBlock k f).ops = s.ops := rfl
@[simp] theorem State.modBlock_nextOp (k : Nat) (f : Block → Block) : (s.modBlock k f).nextOp = s.nextOp := rfl
@[simp] theorem State.modBlock_nextTag (k : Nat) (f : Block → Block) : (s.modBlock k f).nextTag = s.nextTag := rfl
@[simp] theorem State.modBlock_outbox (k : Nat) (f : Block → Block) : (s.modBlock k f).outbox = s.outbox := rfl
@[simp] theorem State.modBlock_turns (k : Nat) (f : Block → Block) : (s.modBlock k f).turns = s.turns := rfl
@[simp] theorem State.modBlock_focus (k : Nat) (f : Block → Block) : (s.modBlock k f).focus = s.focus := rfl
@[simp] theorem State.modBlock_agenda (k : Nat) (f : Block → Block) : (s.modBlock k f).agenda = s.agenda := rfl
@[simp] theorem State.modBlock_lazyMem (k : Nat) (f : Block → Block) : (s.modBlock k f).lazyMem = s.lazyMem := rfl
@[simp] theorem State.modBlock_tick (k : Nat) (f : Block → Block) : (s.modBlock k f).tick = s.tick := rfl
@[simp] theorem State.modBlock_clock (k : Nat) (f : Block → Block) : (s.modBlock k f).clock = s.clock := rfl
@[simp] theorem State.modBlock_drawn (k : Nat) (f : Block → Block) : (s.modBlock k f).drawn = s.drawn := rfl
@[simp] theorem State.modBlock_lineQueue (k : Nat) (f : Block → Block) : (s.modBlock k f).lineQueue = s.lineQueue := rfl
@[simp] theorem State.modBlock_clusterTlbs (k : Nat) (f : Block → Block) : (s.modBlock k f).clusterTlbs = s.clusterTlbs := rfl
@[simp] theorem State.modBlock_nestedTlbs (k : Nat) (f : Block → Block) : (s.modBlock k f).nestedTlbs = s.nestedTlbs := rfl

@[simp] theorem State.modCore_mem (c : Nat) (f : Core → Core) : (s.modCore c f).mem = s.mem := rfl
@[simp] theorem State.modCore_ecc (c : Nat) (f : Core → Core) : (s.modCore c f).ecc = s.ecc := rfl
@[simp] theorem State.modCore_proxy (c : Nat) (f : Core → Core) : (s.modCore c f).proxy = s.proxy := rfl
@[simp] theorem State.modCore_interleave (c : Nat) (f : Core → Core) : (s.modCore c f).interleave = s.interleave := rfl
@[simp] theorem State.modCore_reqs (c : Nat) (f : Core → Core) : (s.modCore c f).reqs = s.reqs := rfl
@[simp] theorem State.modCore_nextTxid (c : Nat) (f : Core → Core) : (s.modCore c f).nextTxid = s.nextTxid := rfl
@[simp] theorem State.modCore_blocks (c : Nat) (f : Core → Core) : (s.modCore c f).blocks = s.blocks := rfl
@[simp] theorem State.modCore_parts (c : Nat) (f : Core → Core) : (s.modCore c f).parts = s.parts := rfl
@[simp] theorem State.modCore_dies (c : Nat) (f : Core → Core) : (s.modCore c f).dies = s.dies := rfl
@[simp] theorem State.modCore_links (c : Nat) (f : Core → Core) : (s.modCore c f).links = s.links := rfl
@[simp] theorem State.modCore_absent (c : Nat) (f : Core → Core) : (s.modCore c f).absent = s.absent := rfl
@[simp] theorem State.modCore_harbour (c : Nat) (f : Core → Core) : (s.modCore c f).harbour = s.harbour := rfl
@[simp] theorem State.modCore_ops (c : Nat) (f : Core → Core) : (s.modCore c f).ops = s.ops := rfl
@[simp] theorem State.modCore_nextOp (c : Nat) (f : Core → Core) : (s.modCore c f).nextOp = s.nextOp := rfl
@[simp] theorem State.modCore_nextTag (c : Nat) (f : Core → Core) : (s.modCore c f).nextTag = s.nextTag := rfl
@[simp] theorem State.modCore_outbox (c : Nat) (f : Core → Core) : (s.modCore c f).outbox = s.outbox := rfl
@[simp] theorem State.modCore_turns (c : Nat) (f : Core → Core) : (s.modCore c f).turns = s.turns := rfl
@[simp] theorem State.modCore_focus (c : Nat) (f : Core → Core) : (s.modCore c f).focus = s.focus := rfl
@[simp] theorem State.modCore_agenda (c : Nat) (f : Core → Core) : (s.modCore c f).agenda = s.agenda := rfl
@[simp] theorem State.modCore_lazyMem (c : Nat) (f : Core → Core) : (s.modCore c f).lazyMem = s.lazyMem := rfl
@[simp] theorem State.modCore_tick (c : Nat) (f : Core → Core) : (s.modCore c f).tick = s.tick := rfl
@[simp] theorem State.modCore_clock (c : Nat) (f : Core → Core) : (s.modCore c f).clock = s.clock := rfl
@[simp] theorem State.modCore_drawn (c : Nat) (f : Core → Core) : (s.modCore c f).drawn = s.drawn := rfl
@[simp] theorem State.modCore_lineQueue (c : Nat) (f : Core → Core) : (s.modCore c f).lineQueue = s.lineQueue := rfl
@[simp] theorem State.modCore_clusterTlbs (c : Nat) (f : Core → Core) : (s.modCore c f).clusterTlbs = s.clusterTlbs := rfl
@[simp] theorem State.modCore_nestedTlbs (c : Nat) (f : Core → Core) : (s.modCore c f).nestedTlbs = s.nestedTlbs := rfl

@[simp] theorem State.modPart_mem (p : Nat) (f : Partition → Partition) : (s.modPart p f).mem = s.mem := rfl
@[simp] theorem State.modPart_ecc (p : Nat) (f : Partition → Partition) : (s.modPart p f).ecc = s.ecc := rfl
@[simp] theorem State.modPart_proxy (p : Nat) (f : Partition → Partition) : (s.modPart p f).proxy = s.proxy := rfl
@[simp] theorem State.modPart_interleave (p : Nat) (f : Partition → Partition) : (s.modPart p f).interleave = s.interleave := rfl
@[simp] theorem State.modPart_reqs (p : Nat) (f : Partition → Partition) : (s.modPart p f).reqs = s.reqs := rfl
@[simp] theorem State.modPart_nextTxid (p : Nat) (f : Partition → Partition) : (s.modPart p f).nextTxid = s.nextTxid := rfl
@[simp] theorem State.modPart_cores (p : Nat) (f : Partition → Partition) : (s.modPart p f).cores = s.cores := rfl
@[simp] theorem State.modPart_blocks (p : Nat) (f : Partition → Partition) : (s.modPart p f).blocks = s.blocks := rfl
@[simp] theorem State.modPart_dies (p : Nat) (f : Partition → Partition) : (s.modPart p f).dies = s.dies := rfl
@[simp] theorem State.modPart_links (p : Nat) (f : Partition → Partition) : (s.modPart p f).links = s.links := rfl
@[simp] theorem State.modPart_absent (p : Nat) (f : Partition → Partition) : (s.modPart p f).absent = s.absent := rfl
@[simp] theorem State.modPart_harbour (p : Nat) (f : Partition → Partition) : (s.modPart p f).harbour = s.harbour := rfl
@[simp] theorem State.modPart_ops (p : Nat) (f : Partition → Partition) : (s.modPart p f).ops = s.ops := rfl
@[simp] theorem State.modPart_nextOp (p : Nat) (f : Partition → Partition) : (s.modPart p f).nextOp = s.nextOp := rfl
@[simp] theorem State.modPart_nextTag (p : Nat) (f : Partition → Partition) : (s.modPart p f).nextTag = s.nextTag := rfl
@[simp] theorem State.modPart_outbox (p : Nat) (f : Partition → Partition) : (s.modPart p f).outbox = s.outbox := rfl
@[simp] theorem State.modPart_turns (p : Nat) (f : Partition → Partition) : (s.modPart p f).turns = s.turns := rfl
@[simp] theorem State.modPart_focus (p : Nat) (f : Partition → Partition) : (s.modPart p f).focus = s.focus := rfl
@[simp] theorem State.modPart_agenda (p : Nat) (f : Partition → Partition) : (s.modPart p f).agenda = s.agenda := rfl
@[simp] theorem State.modPart_lazyMem (p : Nat) (f : Partition → Partition) : (s.modPart p f).lazyMem = s.lazyMem := rfl
@[simp] theorem State.modPart_tick (p : Nat) (f : Partition → Partition) : (s.modPart p f).tick = s.tick := rfl
@[simp] theorem State.modPart_clock (p : Nat) (f : Partition → Partition) : (s.modPart p f).clock = s.clock := rfl
@[simp] theorem State.modPart_drawn (p : Nat) (f : Partition → Partition) : (s.modPart p f).drawn = s.drawn := rfl
@[simp] theorem State.modPart_lineQueue (p : Nat) (f : Partition → Partition) : (s.modPart p f).lineQueue = s.lineQueue := rfl
@[simp] theorem State.modPart_clusterTlbs (p : Nat) (f : Partition → Partition) : (s.modPart p f).clusterTlbs = s.clusterTlbs := rfl
@[simp] theorem State.modPart_nestedTlbs (p : Nat) (f : Partition → Partition) : (s.modPart p f).nestedTlbs = s.nestedTlbs := rfl

@[simp] theorem State.modDie_mem (k : Nat) (f : BaseDie → BaseDie) : (s.modDie k f).mem = s.mem := rfl
@[simp] theorem State.modDie_ecc (k : Nat) (f : BaseDie → BaseDie) : (s.modDie k f).ecc = s.ecc := rfl
@[simp] theorem State.modDie_proxy (k : Nat) (f : BaseDie → BaseDie) : (s.modDie k f).proxy = s.proxy := rfl
@[simp] theorem State.modDie_interleave (k : Nat) (f : BaseDie → BaseDie) : (s.modDie k f).interleave = s.interleave := rfl
@[simp] theorem State.modDie_reqs (k : Nat) (f : BaseDie → BaseDie) : (s.modDie k f).reqs = s.reqs := rfl
@[simp] theorem State.modDie_nextTxid (k : Nat) (f : BaseDie → BaseDie) : (s.modDie k f).nextTxid = s.nextTxid := rfl
@[simp] theorem State.modDie_cores (k : Nat) (f : BaseDie → BaseDie) : (s.modDie k f).cores = s.cores := rfl
@[simp] theorem State.modDie_blocks (k : Nat) (f : BaseDie → BaseDie) : (s.modDie k f).blocks = s.blocks := rfl
@[simp] theorem State.modDie_parts (k : Nat) (f : BaseDie → BaseDie) : (s.modDie k f).parts = s.parts := rfl
@[simp] theorem State.modDie_links (k : Nat) (f : BaseDie → BaseDie) : (s.modDie k f).links = s.links := rfl
@[simp] theorem State.modDie_absent (k : Nat) (f : BaseDie → BaseDie) : (s.modDie k f).absent = s.absent := rfl
@[simp] theorem State.modDie_harbour (k : Nat) (f : BaseDie → BaseDie) : (s.modDie k f).harbour = s.harbour := rfl
@[simp] theorem State.modDie_ops (k : Nat) (f : BaseDie → BaseDie) : (s.modDie k f).ops = s.ops := rfl
@[simp] theorem State.modDie_nextOp (k : Nat) (f : BaseDie → BaseDie) : (s.modDie k f).nextOp = s.nextOp := rfl
@[simp] theorem State.modDie_nextTag (k : Nat) (f : BaseDie → BaseDie) : (s.modDie k f).nextTag = s.nextTag := rfl
@[simp] theorem State.modDie_outbox (k : Nat) (f : BaseDie → BaseDie) : (s.modDie k f).outbox = s.outbox := rfl
@[simp] theorem State.modDie_turns (k : Nat) (f : BaseDie → BaseDie) : (s.modDie k f).turns = s.turns := rfl
@[simp] theorem State.modDie_focus (k : Nat) (f : BaseDie → BaseDie) : (s.modDie k f).focus = s.focus := rfl
@[simp] theorem State.modDie_agenda (k : Nat) (f : BaseDie → BaseDie) : (s.modDie k f).agenda = s.agenda := rfl
@[simp] theorem State.modDie_lazyMem (k : Nat) (f : BaseDie → BaseDie) : (s.modDie k f).lazyMem = s.lazyMem := rfl
@[simp] theorem State.modDie_tick (k : Nat) (f : BaseDie → BaseDie) : (s.modDie k f).tick = s.tick := rfl
@[simp] theorem State.modDie_clock (k : Nat) (f : BaseDie → BaseDie) : (s.modDie k f).clock = s.clock := rfl
@[simp] theorem State.modDie_drawn (k : Nat) (f : BaseDie → BaseDie) : (s.modDie k f).drawn = s.drawn := rfl
@[simp] theorem State.modDie_lineQueue (k : Nat) (f : BaseDie → BaseDie) : (s.modDie k f).lineQueue = s.lineQueue := rfl
@[simp] theorem State.modDie_clusterTlbs (k : Nat) (f : BaseDie → BaseDie) : (s.modDie k f).clusterTlbs = s.clusterTlbs := rfl
@[simp] theorem State.modDie_nestedTlbs (k : Nat) (f : BaseDie → BaseDie) : (s.modDie k f).nestedTlbs = s.nestedTlbs := rfl

@[simp] theorem State.modThread_mem (k i : Nat) (f : Thread → Thread) : (s.modThread k i f).mem = s.mem := rfl
@[simp] theorem State.modThread_ecc (k i : Nat) (f : Thread → Thread) : (s.modThread k i f).ecc = s.ecc := rfl
@[simp] theorem State.modThread_proxy (k i : Nat) (f : Thread → Thread) : (s.modThread k i f).proxy = s.proxy := rfl
@[simp] theorem State.modThread_interleave (k i : Nat) (f : Thread → Thread) : (s.modThread k i f).interleave = s.interleave := rfl
@[simp] theorem State.modThread_reqs (k i : Nat) (f : Thread → Thread) : (s.modThread k i f).reqs = s.reqs := rfl
@[simp] theorem State.modThread_nextTxid (k i : Nat) (f : Thread → Thread) : (s.modThread k i f).nextTxid = s.nextTxid := rfl
@[simp] theorem State.modThread_cores (k i : Nat) (f : Thread → Thread) : (s.modThread k i f).cores = s.cores := rfl
@[simp] theorem State.modThread_parts (k i : Nat) (f : Thread → Thread) : (s.modThread k i f).parts = s.parts := rfl
@[simp] theorem State.modThread_dies (k i : Nat) (f : Thread → Thread) : (s.modThread k i f).dies = s.dies := rfl
@[simp] theorem State.modThread_links (k i : Nat) (f : Thread → Thread) : (s.modThread k i f).links = s.links := rfl
@[simp] theorem State.modThread_absent (k i : Nat) (f : Thread → Thread) : (s.modThread k i f).absent = s.absent := rfl
@[simp] theorem State.modThread_harbour (k i : Nat) (f : Thread → Thread) : (s.modThread k i f).harbour = s.harbour := rfl
@[simp] theorem State.modThread_ops (k i : Nat) (f : Thread → Thread) : (s.modThread k i f).ops = s.ops := rfl
@[simp] theorem State.modThread_nextOp (k i : Nat) (f : Thread → Thread) : (s.modThread k i f).nextOp = s.nextOp := rfl
@[simp] theorem State.modThread_nextTag (k i : Nat) (f : Thread → Thread) : (s.modThread k i f).nextTag = s.nextTag := rfl
@[simp] theorem State.modThread_outbox (k i : Nat) (f : Thread → Thread) : (s.modThread k i f).outbox = s.outbox := rfl
@[simp] theorem State.modThread_turns (k i : Nat) (f : Thread → Thread) : (s.modThread k i f).turns = s.turns := rfl
@[simp] theorem State.modThread_focus (k i : Nat) (f : Thread → Thread) : (s.modThread k i f).focus = s.focus := rfl
@[simp] theorem State.modThread_agenda (k i : Nat) (f : Thread → Thread) : (s.modThread k i f).agenda = s.agenda := rfl
@[simp] theorem State.modThread_lazyMem (k i : Nat) (f : Thread → Thread) : (s.modThread k i f).lazyMem = s.lazyMem := rfl
@[simp] theorem State.modThread_tick (k i : Nat) (f : Thread → Thread) : (s.modThread k i f).tick = s.tick := rfl
@[simp] theorem State.modThread_clock (k i : Nat) (f : Thread → Thread) : (s.modThread k i f).clock = s.clock := rfl
@[simp] theorem State.modThread_drawn (k i : Nat) (f : Thread → Thread) : (s.modThread k i f).drawn = s.drawn := rfl
@[simp] theorem State.modThread_lineQueue (k i : Nat) (f : Thread → Thread) : (s.modThread k i f).lineQueue = s.lineQueue := rfl
@[simp] theorem State.modThread_clusterTlbs (k i : Nat) (f : Thread → Thread) : (s.modThread k i f).clusterTlbs = s.clusterTlbs := rfl
@[simp] theorem State.modThread_nestedTlbs (k i : Nat) (f : Thread → Thread) : (s.modThread k i f).nestedTlbs = s.nestedTlbs := rfl

@[simp] theorem State.modBc_mem (k j : Nat) (f : BlockCore → BlockCore) : (s.modBc k j f).mem = s.mem := rfl
@[simp] theorem State.modBc_ecc (k j : Nat) (f : BlockCore → BlockCore) : (s.modBc k j f).ecc = s.ecc := rfl
@[simp] theorem State.modBc_proxy (k j : Nat) (f : BlockCore → BlockCore) : (s.modBc k j f).proxy = s.proxy := rfl
@[simp] theorem State.modBc_interleave (k j : Nat) (f : BlockCore → BlockCore) : (s.modBc k j f).interleave = s.interleave := rfl
@[simp] theorem State.modBc_reqs (k j : Nat) (f : BlockCore → BlockCore) : (s.modBc k j f).reqs = s.reqs := rfl
@[simp] theorem State.modBc_nextTxid (k j : Nat) (f : BlockCore → BlockCore) : (s.modBc k j f).nextTxid = s.nextTxid := rfl
@[simp] theorem State.modBc_cores (k j : Nat) (f : BlockCore → BlockCore) : (s.modBc k j f).cores = s.cores := rfl
@[simp] theorem State.modBc_parts (k j : Nat) (f : BlockCore → BlockCore) : (s.modBc k j f).parts = s.parts := rfl
@[simp] theorem State.modBc_dies (k j : Nat) (f : BlockCore → BlockCore) : (s.modBc k j f).dies = s.dies := rfl
@[simp] theorem State.modBc_links (k j : Nat) (f : BlockCore → BlockCore) : (s.modBc k j f).links = s.links := rfl
@[simp] theorem State.modBc_absent (k j : Nat) (f : BlockCore → BlockCore) : (s.modBc k j f).absent = s.absent := rfl
@[simp] theorem State.modBc_harbour (k j : Nat) (f : BlockCore → BlockCore) : (s.modBc k j f).harbour = s.harbour := rfl
@[simp] theorem State.modBc_ops (k j : Nat) (f : BlockCore → BlockCore) : (s.modBc k j f).ops = s.ops := rfl
@[simp] theorem State.modBc_nextOp (k j : Nat) (f : BlockCore → BlockCore) : (s.modBc k j f).nextOp = s.nextOp := rfl
@[simp] theorem State.modBc_nextTag (k j : Nat) (f : BlockCore → BlockCore) : (s.modBc k j f).nextTag = s.nextTag := rfl
@[simp] theorem State.modBc_outbox (k j : Nat) (f : BlockCore → BlockCore) : (s.modBc k j f).outbox = s.outbox := rfl
@[simp] theorem State.modBc_turns (k j : Nat) (f : BlockCore → BlockCore) : (s.modBc k j f).turns = s.turns := rfl
@[simp] theorem State.modBc_focus (k j : Nat) (f : BlockCore → BlockCore) : (s.modBc k j f).focus = s.focus := rfl
@[simp] theorem State.modBc_agenda (k j : Nat) (f : BlockCore → BlockCore) : (s.modBc k j f).agenda = s.agenda := rfl
@[simp] theorem State.modBc_lazyMem (k j : Nat) (f : BlockCore → BlockCore) : (s.modBc k j f).lazyMem = s.lazyMem := rfl
@[simp] theorem State.modBc_tick (k j : Nat) (f : BlockCore → BlockCore) : (s.modBc k j f).tick = s.tick := rfl
@[simp] theorem State.modBc_clock (k j : Nat) (f : BlockCore → BlockCore) : (s.modBc k j f).clock = s.clock := rfl
@[simp] theorem State.modBc_drawn (k j : Nat) (f : BlockCore → BlockCore) : (s.modBc k j f).drawn = s.drawn := rfl
@[simp] theorem State.modBc_lineQueue (k j : Nat) (f : BlockCore → BlockCore) : (s.modBc k j f).lineQueue = s.lineQueue := rfl
@[simp] theorem State.modBc_clusterTlbs (k j : Nat) (f : BlockCore → BlockCore) : (s.modBc k j f).clusterTlbs = s.clusterTlbs := rfl
@[simp] theorem State.modBc_nestedTlbs (k j : Nat) (f : BlockCore → BlockCore) : (s.modBc k j f).nestedTlbs = s.nestedTlbs := rfl

@[simp] theorem State.modEntry_mem (c e : Nat) (f : Entry → Entry) : (s.modEntry c e f).mem = s.mem := rfl
@[simp] theorem State.modEntry_ecc (c e : Nat) (f : Entry → Entry) : (s.modEntry c e f).ecc = s.ecc := rfl
@[simp] theorem State.modEntry_proxy (c e : Nat) (f : Entry → Entry) : (s.modEntry c e f).proxy = s.proxy := rfl
@[simp] theorem State.modEntry_interleave (c e : Nat) (f : Entry → Entry) : (s.modEntry c e f).interleave = s.interleave := rfl
@[simp] theorem State.modEntry_reqs (c e : Nat) (f : Entry → Entry) : (s.modEntry c e f).reqs = s.reqs := rfl
@[simp] theorem State.modEntry_nextTxid (c e : Nat) (f : Entry → Entry) : (s.modEntry c e f).nextTxid = s.nextTxid := rfl
@[simp] theorem State.modEntry_blocks (c e : Nat) (f : Entry → Entry) : (s.modEntry c e f).blocks = s.blocks := rfl
@[simp] theorem State.modEntry_parts (c e : Nat) (f : Entry → Entry) : (s.modEntry c e f).parts = s.parts := rfl
@[simp] theorem State.modEntry_dies (c e : Nat) (f : Entry → Entry) : (s.modEntry c e f).dies = s.dies := rfl
@[simp] theorem State.modEntry_links (c e : Nat) (f : Entry → Entry) : (s.modEntry c e f).links = s.links := rfl
@[simp] theorem State.modEntry_absent (c e : Nat) (f : Entry → Entry) : (s.modEntry c e f).absent = s.absent := rfl
@[simp] theorem State.modEntry_harbour (c e : Nat) (f : Entry → Entry) : (s.modEntry c e f).harbour = s.harbour := rfl
@[simp] theorem State.modEntry_ops (c e : Nat) (f : Entry → Entry) : (s.modEntry c e f).ops = s.ops := rfl
@[simp] theorem State.modEntry_nextOp (c e : Nat) (f : Entry → Entry) : (s.modEntry c e f).nextOp = s.nextOp := rfl
@[simp] theorem State.modEntry_nextTag (c e : Nat) (f : Entry → Entry) : (s.modEntry c e f).nextTag = s.nextTag := rfl
@[simp] theorem State.modEntry_outbox (c e : Nat) (f : Entry → Entry) : (s.modEntry c e f).outbox = s.outbox := rfl
@[simp] theorem State.modEntry_turns (c e : Nat) (f : Entry → Entry) : (s.modEntry c e f).turns = s.turns := rfl
@[simp] theorem State.modEntry_focus (c e : Nat) (f : Entry → Entry) : (s.modEntry c e f).focus = s.focus := rfl
@[simp] theorem State.modEntry_agenda (c e : Nat) (f : Entry → Entry) : (s.modEntry c e f).agenda = s.agenda := rfl
@[simp] theorem State.modEntry_lazyMem (c e : Nat) (f : Entry → Entry) : (s.modEntry c e f).lazyMem = s.lazyMem := rfl
@[simp] theorem State.modEntry_tick (c e : Nat) (f : Entry → Entry) : (s.modEntry c e f).tick = s.tick := rfl
@[simp] theorem State.modEntry_clock (c e : Nat) (f : Entry → Entry) : (s.modEntry c e f).clock = s.clock := rfl
@[simp] theorem State.modEntry_drawn (c e : Nat) (f : Entry → Entry) : (s.modEntry c e f).drawn = s.drawn := rfl
@[simp] theorem State.modEntry_lineQueue (c e : Nat) (f : Entry → Entry) : (s.modEntry c e f).lineQueue = s.lineQueue := rfl
@[simp] theorem State.modEntry_clusterTlbs (c e : Nat) (f : Entry → Entry) : (s.modEntry c e f).clusterTlbs = s.clusterTlbs := rfl
@[simp] theorem State.modEntry_nestedTlbs (c e : Nat) (f : Entry → Entry) : (s.modEntry c e f).nestedTlbs = s.nestedTlbs := rfl

@[simp] theorem State.later_mem (l : List Instr) : (s.later l).mem = s.mem := rfl
@[simp] theorem State.later_ecc (l : List Instr) : (s.later l).ecc = s.ecc := rfl
@[simp] theorem State.later_proxy (l : List Instr) : (s.later l).proxy = s.proxy := rfl
@[simp] theorem State.later_interleave (l : List Instr) : (s.later l).interleave = s.interleave := rfl
@[simp] theorem State.later_reqs (l : List Instr) : (s.later l).reqs = s.reqs := rfl
@[simp] theorem State.later_nextTxid (l : List Instr) : (s.later l).nextTxid = s.nextTxid := rfl
@[simp] theorem State.later_cores (l : List Instr) : (s.later l).cores = s.cores := rfl
@[simp] theorem State.later_blocks (l : List Instr) : (s.later l).blocks = s.blocks := rfl
@[simp] theorem State.later_parts (l : List Instr) : (s.later l).parts = s.parts := rfl
@[simp] theorem State.later_dies (l : List Instr) : (s.later l).dies = s.dies := rfl
@[simp] theorem State.later_links (l : List Instr) : (s.later l).links = s.links := rfl
@[simp] theorem State.later_absent (l : List Instr) : (s.later l).absent = s.absent := rfl
@[simp] theorem State.later_harbour (l : List Instr) : (s.later l).harbour = s.harbour := rfl
@[simp] theorem State.later_ops (l : List Instr) : (s.later l).ops = s.ops := rfl
@[simp] theorem State.later_nextOp (l : List Instr) : (s.later l).nextOp = s.nextOp := rfl
@[simp] theorem State.later_nextTag (l : List Instr) : (s.later l).nextTag = s.nextTag := rfl
@[simp] theorem State.later_outbox (l : List Instr) : (s.later l).outbox = s.outbox := rfl
@[simp] theorem State.later_turns (l : List Instr) : (s.later l).turns = s.turns := rfl
@[simp] theorem State.later_focus (l : List Instr) : (s.later l).focus = s.focus := rfl
@[simp] theorem State.later_lazyMem (l : List Instr) : (s.later l).lazyMem = s.lazyMem := rfl
@[simp] theorem State.later_tick (l : List Instr) : (s.later l).tick = s.tick := rfl
@[simp] theorem State.later_clock (l : List Instr) : (s.later l).clock = s.clock := rfl
@[simp] theorem State.later_drawn (l : List Instr) : (s.later l).drawn = s.drawn := rfl
@[simp] theorem State.later_lineQueue (l : List Instr) : (s.later l).lineQueue = s.lineQueue := rfl
@[simp] theorem State.later_clusterTlbs (l : List Instr) : (s.later l).clusterTlbs = s.clusterTlbs := rfl
@[simp] theorem State.later_nestedTlbs (l : List Instr) : (s.later l).nestedTlbs = s.nestedTlbs := rfl

@[simp] theorem State.emit_mem (m : OutMsg) : (s.emit m).mem = s.mem := rfl
@[simp] theorem State.emit_ecc (m : OutMsg) : (s.emit m).ecc = s.ecc := rfl
@[simp] theorem State.emit_proxy (m : OutMsg) : (s.emit m).proxy = s.proxy := rfl
@[simp] theorem State.emit_interleave (m : OutMsg) : (s.emit m).interleave = s.interleave := rfl
@[simp] theorem State.emit_reqs (m : OutMsg) : (s.emit m).reqs = s.reqs := rfl
@[simp] theorem State.emit_nextTxid (m : OutMsg) : (s.emit m).nextTxid = s.nextTxid := rfl
@[simp] theorem State.emit_cores (m : OutMsg) : (s.emit m).cores = s.cores := rfl
@[simp] theorem State.emit_blocks (m : OutMsg) : (s.emit m).blocks = s.blocks := rfl
@[simp] theorem State.emit_parts (m : OutMsg) : (s.emit m).parts = s.parts := rfl
@[simp] theorem State.emit_dies (m : OutMsg) : (s.emit m).dies = s.dies := rfl
@[simp] theorem State.emit_links (m : OutMsg) : (s.emit m).links = s.links := rfl
@[simp] theorem State.emit_absent (m : OutMsg) : (s.emit m).absent = s.absent := rfl
@[simp] theorem State.emit_harbour (m : OutMsg) : (s.emit m).harbour = s.harbour := rfl
@[simp] theorem State.emit_ops (m : OutMsg) : (s.emit m).ops = s.ops := rfl
@[simp] theorem State.emit_nextOp (m : OutMsg) : (s.emit m).nextOp = s.nextOp := rfl
@[simp] theorem State.emit_nextTag (m : OutMsg) : (s.emit m).nextTag = s.nextTag := rfl
@[simp] theorem State.emit_turns (m : OutMsg) : (s.emit m).turns = s.turns := rfl
@[simp] theorem State.emit_focus (m : OutMsg) : (s.emit m).focus = s.focus := rfl
@[simp] theorem State.emit_agenda (m : OutMsg) : (s.emit m).agenda = s.agenda := rfl
@[simp] theorem State.emit_lazyMem (m : OutMsg) : (s.emit m).lazyMem = s.lazyMem := rfl
@[simp] theorem State.emit_tick (m : OutMsg) : (s.emit m).tick = s.tick := rfl
@[simp] theorem State.emit_clock (m : OutMsg) : (s.emit m).clock = s.clock := rfl
@[simp] theorem State.emit_drawn (m : OutMsg) : (s.emit m).drawn = s.drawn := rfl
@[simp] theorem State.emit_lineQueue (m : OutMsg) : (s.emit m).lineQueue = s.lineQueue := rfl
@[simp] theorem State.emit_clusterTlbs (m : OutMsg) : (s.emit m).clusterTlbs = s.clusterTlbs := rfl
@[simp] theorem State.emit_nestedTlbs (m : OutMsg) : (s.emit m).nestedTlbs = s.nestedTlbs := rfl

@[simp] theorem State.setByte_ecc (a : Nat) (b : Byte) : (s.setByte a b).ecc = s.ecc := rfl
@[simp] theorem State.setByte_proxy (a : Nat) (b : Byte) : (s.setByte a b).proxy = s.proxy := rfl
@[simp] theorem State.setByte_interleave (a : Nat) (b : Byte) : (s.setByte a b).interleave = s.interleave := rfl
@[simp] theorem State.setByte_reqs (a : Nat) (b : Byte) : (s.setByte a b).reqs = s.reqs := rfl
@[simp] theorem State.setByte_nextTxid (a : Nat) (b : Byte) : (s.setByte a b).nextTxid = s.nextTxid := rfl
@[simp] theorem State.setByte_cores (a : Nat) (b : Byte) : (s.setByte a b).cores = s.cores := rfl
@[simp] theorem State.setByte_blocks (a : Nat) (b : Byte) : (s.setByte a b).blocks = s.blocks := rfl
@[simp] theorem State.setByte_parts (a : Nat) (b : Byte) : (s.setByte a b).parts = s.parts := rfl
@[simp] theorem State.setByte_dies (a : Nat) (b : Byte) : (s.setByte a b).dies = s.dies := rfl
@[simp] theorem State.setByte_links (a : Nat) (b : Byte) : (s.setByte a b).links = s.links := rfl
@[simp] theorem State.setByte_absent (a : Nat) (b : Byte) : (s.setByte a b).absent = s.absent := rfl
@[simp] theorem State.setByte_harbour (a : Nat) (b : Byte) : (s.setByte a b).harbour = s.harbour := rfl
@[simp] theorem State.setByte_ops (a : Nat) (b : Byte) : (s.setByte a b).ops = s.ops := rfl
@[simp] theorem State.setByte_nextOp (a : Nat) (b : Byte) : (s.setByte a b).nextOp = s.nextOp := rfl
@[simp] theorem State.setByte_nextTag (a : Nat) (b : Byte) : (s.setByte a b).nextTag = s.nextTag := rfl
@[simp] theorem State.setByte_outbox (a : Nat) (b : Byte) : (s.setByte a b).outbox = s.outbox := rfl
@[simp] theorem State.setByte_turns (a : Nat) (b : Byte) : (s.setByte a b).turns = s.turns := rfl
@[simp] theorem State.setByte_focus (a : Nat) (b : Byte) : (s.setByte a b).focus = s.focus := rfl
@[simp] theorem State.setByte_agenda (a : Nat) (b : Byte) : (s.setByte a b).agenda = s.agenda := rfl
@[simp] theorem State.setByte_lazyMem (a : Nat) (b : Byte) : (s.setByte a b).lazyMem = s.lazyMem := rfl
@[simp] theorem State.setByte_tick (a : Nat) (b : Byte) : (s.setByte a b).tick = s.tick := rfl
@[simp] theorem State.setByte_clock (a : Nat) (b : Byte) : (s.setByte a b).clock = s.clock := rfl
@[simp] theorem State.setByte_drawn (a : Nat) (b : Byte) : (s.setByte a b).drawn = s.drawn := rfl
@[simp] theorem State.setByte_lineQueue (a : Nat) (b : Byte) : (s.setByte a b).lineQueue = s.lineQueue := rfl
@[simp] theorem State.setByte_clusterTlbs (a : Nat) (b : Byte) : (s.setByte a b).clusterTlbs = s.clusterTlbs := rfl
@[simp] theorem State.setByte_nestedTlbs (a : Nat) (b : Byte) : (s.setByte a b).nestedTlbs = s.nestedTlbs := rfl

/-! ### Reading what was replaced -/

@[simp] theorem State.find_modBlock_self (k : Nat) (f : Block → Block) :
    Kv.find k (s.modBlock k f).blocks = (Kv.find k s.blocks).map f := Kv.find_modify_self ..

theorem State.find_modBlock_ne {j k : Nat} (h : j ≠ k) (f : Block → Block) :
    Kv.find j (s.modBlock k f).blocks = Kv.find j s.blocks := Kv.find_modify_ne h ..

theorem State.block_of_find {s : State} {k : Nat} {b : Block} (h : Kv.find k s.blocks = some b) : s.block k = b :=
  Kv.get_of_find h

@[simp] theorem State.core_putCore_self (c : Nat) (x : Core) : (s.putCore c x).core c = x := Kv.get_insert_self ..

theorem State.core_putCore_ne {a c : Nat} (h : a ≠ c) (x : Core) : (s.putCore c x).core a = s.core a :=
  Kv.get_insert_ne h ..

@[simp] theorem State.core_modCore_self (c : Nat) (f : Core → Core) : (s.modCore c f).core c = f (s.core c) :=
  s.core_putCore_self ..

theorem State.core_modCore_ne {a c : Nat} (h : a ≠ c) (f : Core → Core) : (s.modCore c f).core a = s.core a :=
  s.core_putCore_ne h ..

@[simp] theorem State.entry_modEntry_self (c e : Nat) (f : Entry → Entry) :
    (s.modEntry c e f).entry c e = (s.entry c e).map f := by
  simp [State.entry, State.modEntry, Kv.find_modify_self]

@[simp] theorem State.die_putDie_self (k : Nat) (d : BaseDie) : (s.putDie k d).die k = d := Kv.get_insert_self ..

theorem State.die_putDie_ne {j k : Nat} (h : j ≠ k) (d : BaseDie) : (s.putDie k d).die j = s.die j :=
  Kv.get_insert_ne h ..

@[simp] theorem State.part_putPart_self (p : Nat) (x : Partition) : (s.putPart p x).part p = some x :=
  Kv.find_insert_self ..

theorem State.part_putPart_ne {p q : Nat} (h : q ≠ p) (x : Partition) : (s.putPart p x).part q = s.part q :=
  Kv.find_insert_ne h ..

@[simp] theorem State.part_modPart_self (p : Nat) (f : Partition → Partition) :
    (s.modPart p f).part p = (s.part p).map f := Kv.find_modify_self ..

theorem State.part_modPart_ne {p q : Nat} (h : q ≠ p) (f : Partition → Partition) : (s.modPart p f).part q = s.part q :=
  Kv.find_modify_ne h ..

theorem Block.find_mapThreads (b : Block) (l : List Nat) (f : Thread → Thread) (k : Nat) :
    Kv.find k (b.mapThreads l f).threads = (Kv.find k b.threads).map fun t => if l.contains k then f t else t :=
  Kv.find_map (fun m t => if l.contains m then f t else t) k b.threads

/-! ### Registers and predicates of a thread -/

@[simp] theorem Thread.reg_setReg_self (t : Thread) (n : Nat) (w : Word) : (t.setReg n w).reg n = w :=
  Kv.get_set_self ..

theorem Thread.reg_setReg_ne {m n : Nat} (h : m ≠ n) (t : Thread) (w : Word) : (t.setReg n w).reg m = t.reg m :=
  Kv.get_set_ne h ..

end Sys2Proof.Machine
end

