-- ==== Sys2Proof/Laws/Lone.lean ====
section
/-! SUPPORT. The shared course of an instruction that one thread issues alone: what each operation of it leaves as it
was, said once, and the course as a whole. -/

namespace Sys2Proof.Claims

open Machine

/-! ### How far an operation reaches -/

/-- A thread of which an instruction with the destinations `l` has changed no more than it may. -/
structure TNear (l : List Src) (t t' : Thread) : Prop where
  same : t' = { t with regs := t'.regs, preds := t'.preds, pc := t'.pc, tsLatch := t'.tsLatch, fpcsr := t'.fpcsr,
                       rep := t'.rep }
  rep : t.rep = none → t'.rep = none
  regs : ∀ n, ¬ namesV l n → t'.reg n = t.reg n
  preds : ∀ n < 8, ¬ namesP l n → t'.pred n = t.pred n

/-- A block likewise; `i` is the thread, `j` its core of the block, `B` what may change there. -/
structure BNear (i j : Nat) (l : List Src) (B : BlockCore → BlockCore → Prop) (b b' : Block) : Prop where
  same : b' = { b with threads := b'.threads, cores := b'.cores }
  thread : ∀ t, Kv.find i b.threads = some t → ∃ t', Kv.find i b'.threads = some t' ∧ TNear l t t'
  threads : ∀ m ≠ i, Kv.find m b'.threads = Kv.find m b.threads
  cores : ∀ m ≠ j, Kv.find m b'.cores = Kv.find m b.cores
  core : ∀ x, Kv.find j b.cores = some x → ∃ x', Kv.find j b'.cores = some x' ∧ B x x' ∧
    ∀ n, ¬ namesS l n → x'.sreg n = x.sreg n

/-- A state likewise; `Q` is what may change outside the blocks and cores. -/
structure Near (g : Grp) (i j : Nat) (l : List Src) (B : BlockCore → BlockCore → Prop) (Q : State → State → Prop)
    (s s' : State) : Prop where
  quiet : Q s s'
  blk : ∀ b, Kv.find g.block s.blocks = some b → ∃ b', Kv.find g.block s'.blocks = some b' ∧ BNear i j l B b b'
  blocks : ∀ k ≠ g.block, Kv.find k s'.blocks = Kv.find k s.blocks
  cores : ∀ c ≠ g.core, s'.core c = s.core c
  core : s'.core g.core = { s.core g.core with entries := (s'.core g.core).entries }
  entries : ∀ e ≠ g.e, s'.entry g.core e = s.entry g.core e
  entry : ∀ en, s.entry g.core g.e = some en →
    ∃ en', s'.entry g.core g.e = some en' ∧ en'.block = en.block ∧ en'.members = en.members

/-- A relation that may hold of what changes: it holds of no change, and of two changes in a row. -/
structure Pre {α : Type} (R : α → α → Prop) : Prop where
  refl : ∀ a, R a a
  trans : ∀ a b c, R a b → R b c → R a c

theorem pre_sregsOnly : Pre SregsOnly :=
  ⟨fun _ => rfl, fun a b c h k => by unfold SregsOnly at *; rw [k, h]⟩

theorem pre_quiet : Pre Quiet :=
  ⟨fun _ => rfl, fun a b c h k => by unfold Quiet at *; rw [k, h]⟩

variable {g : Grp} {i j : Nat} {l : List Src} {B : BlockCore → BlockCore → Prop} {Q : State → State → Prop}

theorem TNear.refl (t : Thread) : TNear l t t := ⟨rfl, id, fun _ _ => rfl, fun _ _ _ => rfl⟩

theorem TNear.trans {t u v : Thread} (h : TNear l t u) (k : TNear l u v) : TNear l t v where
  same := by rw [k.same, h.same]
  rep := fun e => k.rep (h.rep e)
  regs := fun n e => (k.regs n e).trans (h.regs n e)
  preds := fun n q e => (k.preds n q e).trans (h.preds n q e)

theorem BNear.refl (hB : Pre B) (b : Block) : BNear i j l B b b :=
  ⟨rfl, fun t h => ⟨t, h, .refl t⟩, fun _ _ => rfl, fun _ _ => rfl, fun x h => ⟨x, h, hB.refl x, fun _ _ => rfl⟩⟩

theorem BNear.trans (hB : Pre B) {b c d : Block} (h : BNear i j l B b c) (k : BNear i j l B c d) :
    BNear i j l B b d where
  same := by rw [k.same, h.same]
  thread := fun t e =>
    have ⟨u, hu, q⟩ := h.thread t e
    have ⟨v, hv, r⟩ := k.thread u hu
    ⟨v, hv, q.trans r⟩
  threads := fun m e => (k.threads m e).trans (h.threads m e)
  cores := fun m e => (k.cores m e).trans (h.cores m e)
  core := fun x e =>
    have ⟨u, hu, q, q'⟩ := h.core x e
    have ⟨v, hv, r, r'⟩ := k.core u hu
    ⟨v, hv, hB.trans _ _ _ q r, fun n a => (r' n a).trans (q' n a)⟩

theorem Near.refl (hB : Pre B) (hQ : Pre Q) (s : State) : Near g i j l B Q s s :=
  ⟨hQ.refl s, fun b h => ⟨b, h, .refl hB b⟩, fun _ _ => rfl, fun _ _ => rfl, rfl, fun _ _ => rfl,
    fun en h => ⟨en, h, rfl, rfl⟩⟩

theorem Near.trans (hB : Pre B) (hQ : Pre Q) {s t u : State} (h : Near g i j l B Q s t) (k : Near g i j l B Q t u) :
    Near g i j l B Q s u where
  quiet := hQ.trans _ _ _ h.quiet k.quiet
  blk := fun b e =>
    have ⟨c, hc, q⟩ := h.blk b e
    have ⟨d, hd, r⟩ := k.blk c hc
    ⟨d, hd, q.trans hB r⟩
  blocks := fun m e => (k.blocks m e).trans (h.blocks m e)
  cores := fun m e => (k.cores m e).trans (h.cores m e)
  core := by rw [k.core, h.core]
  entries := fun m e => (k.entries m e).trans (h.entries m e)
  entry := fun en e =>
    have ⟨a, ha, q, q'⟩ := h.entry en e
    have ⟨c, hc, r, r'⟩ := k.entry a ha
    ⟨c, hc, r.trans q, r'.trans q'⟩

/-- A change of the group's block alone. -/
theorem near_modBlock (hQ : ∀ s f, Q s (s.modBlock g.block f)) {s : State} {f : Block → Block}
    (h : ∀ b, Kv.find g.block s.blocks = some b → BNear i j l B b (f b)) :
    Near g i j l B Q s (s.modBlock g.block f) where
  quiet := hQ s f
  blk := fun b e => ⟨f b, by simp [e], h b e⟩
  blocks := fun k e => s.find_modBlock_ne e f
  cores := fun _ _ => rfl
  core := rfl
  entries := fun _ _ => rfl
  entry := fun en h => ⟨en, h, rfl, rfl⟩

/-- A change of the thread alone. -/
theorem near_modThread (hB : Pre B) (hQ : ∀ s f, Q s (s.modBlock g.block f)) {s : State} {f : Thread → Thread}
    (h : ∀ t, TNear l t (f t)) : Near g i j l B Q s (s.modThread g.block i f) :=
  near_modBlock hQ fun b _ =>
    { same := rfl
      thread := fun t e => ⟨f t, by simp [Kv.find_modify_self, e], h t⟩
      threads := fun m e => by simp [Kv.find_modify_ne e]
      cores := fun _ _ => rfl
      core := fun x e => ⟨x, e, hB.refl x, fun _ _ => rfl⟩ }

/-- A change of the block's core alone. -/
theorem near_modBc (hQ : ∀ s f, Q s (s.modBlock g.block f)) {s : State} {f : BlockCore → BlockCore}
    (h : ∀ x, B x (f x) ∧ ∀ n, ¬ namesS l n → (f x).sreg n = x.sreg n) :
    Near g i j l B Q s (s.modBc g.block j f) :=
  near_modBlock hQ fun b _ =>
    { same := rfl
      thread := fun t e => ⟨t, e, .refl t⟩
      threads := fun _ _ => rfl
      cores := fun m e => by simp [Kv.find_modify_ne e]
      core := fun x e => ⟨f x, by simp [Kv.find_modify_self, e], (h x).1, (h x).2⟩ }

/-- A change of the group's entry that leaves its block and its members. -/
theorem near_modEntry (hB : Pre B) (hQ : ∀ s f, Q s (s.modCore g.core f)) {s : State} {f : Entry → Entry}
    (h : ∀ en, s.entry g.core g.e = some en → (f en).block = en.block ∧ (f en).members = en.members) :
    Near g i j l B Q s (s.modEntry g.core g.e f) where
  quiet := hQ ..
  blk := fun b e => ⟨b, e, .refl hB b⟩
  blocks := fun _ _ => rfl
  cores := fun c e => s.core_modCore_ne e _
  core := by simp [State.modEntry]
  entries := fun e h => by simp [State.entry, State.modEntry, Kv.find_modify_ne h]
  entry := fun en e => ⟨f en, by simp [e], (h en e).1, (h en e).2⟩

theorem quiet_modBlock (s : State) (k : Nat) (f : Block → Block) : Quiet s (s.modBlock k f) := rfl
theorem quiet_modCore (s : State) (c : Nat) (f : Core → Core) : Quiet s (s.modCore c f) := rfl

/-! ### The operations of an issue -/

section
variable (hB : Pre B) (hQb : ∀ s k f, Q s (State.modBlock s k f)) (hQc : ∀ s c f, Q s (State.modCore s c f))
include hB

include hQc in
theorem near_closeChain (s : State) : Near g i j l B Q s (closeChain s g) :=
  near_modEntry hB (fun s f => hQc s _ f) fun _ _ => ⟨rfl, rfl⟩

include hQc in
theorem near_chainStep (s : State) (c : Com) : Near g i j l B Q s (chainStep s g c) :=
  near_modEntry hB (fun s f => hQc s _ f) fun en _ => by
    split <;> exact ⟨rfl, rfl⟩

include hQc in
theorem near_markLatch (s : State) (op : VecOp) : Near g i j l B Q s (markLatch s g op) :=
  near_modEntry hB (fun s f => hQc s _ f) fun _ _ => ⟨rfl, rfl⟩

include hQc in
theorem near_noteIssue (s : State) : Near g i j l B Q s (s.noteIssue g.core g.e) :=
  near_modEntry hB (fun s f => hQc s _ f) fun _ _ => ⟨rfl, rfl⟩

include hQb in
theorem near_passInstr (one : g.members = [i]) (s : State) (n : Nat) : Near g i j l B Q s (passInstr s g n) :=
  near_modBlock (fun s f => hQb s _ f) fun b _ =>
    { same := rfl
      thread := fun t e => by
        refine ⟨_, by rw [Block.find_mapThreads, e]; rfl, ?_⟩
        simp only [one, List.contains_cons, BEq.rfl, Bool.true_or, if_true]
        exact ⟨rfl, fun _ => rfl, fun _ _ => rfl, fun _ _ _ => rfl⟩
      threads := fun m e => by
        rw [Block.find_mapThreads, one]
        cases Kv.find m b.threads <;> simp [e]
      cores := fun _ _ => rfl
      core := fun x e => ⟨x, e, hB.refl x, fun _ _ => rfl⟩ }

include hQb hQc in
theorem near_advance (hQ : Pre Q) (one : g.members = [i]) (s : State) (n : Nat) : Near g i j l B Q s (advance s g n) :=
  (near_noteIssue hB hQc s).trans hB hQ (near_passInstr hB hQb one _ n)

include hQb in
theorem near_captureTime (hQ : Pre Q) (s : State) (srcs : List Src) : Near g i j l B Q s (captureTime s g i srcs) := by
  unfold captureTime; split
  · exact near_modThread hB (fun s f => hQb s _ f) fun _ => ⟨rfl, id, fun _ _ => rfl, fun _ _ _ => rfl⟩
  · exact .refl hB hQ s

end

/-- After the instruction the entry keeps its one ready thread. -/
theorem regroup_alone {s : State} {c e : Nat} {en : Entry} {b : Block} {t : Thread} (he : s.entry c e = some en)
    (hm : en.members = [i]) (hb : Kv.find en.block s.blocks = some b) (ht : Kv.find i b.threads = some t)
    (hr : t.stat = .ready) : regroup s c e = s.modEntry c e fun en => { en with members := [i] } := by
  have h1 : s.block en.block = b := State.block_of_find hb
  have h2 : b.thread i = t := Kv.get_of_find ht
  simp [regroup, he, hm, h1, h2, ht, Thread.ready, hr, sortBy, distinct, splitOff, insertBy]

/-- What a lone thread's group says of its entry and its thread. -/
theorem Alone.entry {s : State} {b : Block} {t : Thread} {x : BlockCore} (A : Alone s g i b t x) :
    (∃ en, s.entry g.core g.e = some en ∧ en.block = g.block ∧ en.members = [i]) ∧ g.pc = t.pc ∧ t.rep = none := by
  obtain ⟨hg, h1, ho, hb, ht, -, -⟩ := A
  unfold State.grp at hg
  split at hg
  · rename_i c e hf
    unfold State.grpOf at hg
    split at hg
    · cases hg
    · rename_i en he
      split at hg
      · cases hg
      · rename_i m ms hm
        simp only [Option.some.injEq] at hg
        subst hg
        simp only at h1 ho hb ⊢
        rw [hm] at h1
        obtain ⟨rfl, rfl⟩ : m = i ∧ ms = [] := by simpa using h1
        have hT : s.thread en.block m = t := by
          rw [State.thread, State.block_of_find hb, Block.thread, Kv.get_of_find ht]
        rw [hT] at ho ⊢
        exact ⟨⟨en, he, rfl, hm⟩, by rw [ho], ho⟩
  · cases hg

theorem reg_setPred (t : Thread) (n m : Nat) (b : Bool) : (t.setPred n b).reg m = t.reg m := by
  unfold Thread.setPred; split <;> rfl

theorem TNear.setReg {n : Nat} {w : Word} (h : namesV l n) (t : Thread) : TNear l t (t.setReg n w) :=
  ⟨rfl, id, fun m k => Thread.reg_setReg_ne (by rintro rfl; exact k h) .., fun _ _ _ => rfl⟩

theorem pred_setPred (t : Thread) {m n : Nat} (hm : m < 8) (hn : n < 8) (b : Bool) :
    (t.setPred n b).pred m = if m = n then (decide (n = 7) || b) else t.pred m := by
  obtain ⟨regs, preds⟩ := t
  unfold Thread.setPred Thread.pred
  interval_cases n <;> interval_cases m <;> cases b <;> simp <;> revert preds <;> decide

theorem TNear.setPred {n : Nat} {b : Bool} (hn : n < 8) (h : namesP l n) (t : Thread) : TNear l t (t.setPred n b) where
  same := by unfold Thread.setPred; split <;> rfl
  rep := by unfold Thread.setPred; split <;> exact id
  regs := fun m _ => reg_setPred t n m b
  preds := fun m q k => by
    rw [pred_setPred t q hn, if_neg]
    rintro rfl; exact k h

/-- Writing one destination reaches that destination only. -/
theorem near_writeDst (hB : ∀ x l, B x { x with sregs := l }) (pB : Pre B) (hQb : ∀ s k f, Q s (State.modBlock s k f))
    (hQ : Pre Q) {s : State} (f : Bool) {d : Src} (v : DWord) (hd : d ∈ l)
    (hj : (s.thread g.block i).bc = j) : Near g i j l B Q s (writeDst s g.block i f d v) := by
  unfold writeDst
  split
  · rename_i n hn
    refine near_modThread pB (fun s f => hQb s _ f) fun t => ?_
    have h1 : namesV l n.toNat := ⟨d, hd, n, hn, .inl rfl⟩
    dsimp only
    split
    · rename_i hw
      exact (TNear.setReg h1 t).trans (TNear.setReg ⟨d, hd, n, hn, .inr ⟨hw, rfl⟩⟩ _)
    · exact TNear.setReg h1 t
  · rename_i n hn
    split
    · rw [hj]
      refine near_modBc (fun s f => hQb s _ f) fun x => ⟨hB .., fun m hm => ?_⟩
      have h1 : m ≠ n.toNat := by rintro rfl; exact hm ⟨d, hd, n, hn, .inl rfl⟩
      simp only [BlockCore.sreg]
      split
      · rename_i hw
        have h2 : m ≠ n.toNat + 1 := by rintro rfl; exact hm ⟨d, hd, n, hn, .inr ⟨hw, rfl⟩⟩
        rw [Kv.get_set_ne h2, Kv.get_set_ne h1]
      · rw [Kv.get_set_ne h1]
    · exact .refl pB hQ s
  · rename_i n hn
    exact near_modThread pB (fun s f => hQb s _ f) fun t => TNear.setPred (by omega) ⟨d, hd, n, hn, rfl⟩ t
  · exact .refl pB hQ s

theorem thread_modThread {s : State} {k i : Nat} {f : Thread → Thread} {b : Block} {t : Thread}
    (hb : Kv.find k s.blocks = some b) (ht : Kv.find i b.threads = some t) : (s.modThread k i f).thread k i = f t := by
  have h1 := s.find_modBlock_self k fun b => { b with threads := Kv.modify i f b.threads }
  rw [hb] at h1
  rw [State.thread, State.modThread, State.block_of_find h1, Block.thread,
    Kv.get_of_find (by rw [Kv.find_modify_self, ht]; rfl)]

theorem block_modThread {s : State} {k i : Nat} {f : Thread → Thread} {b : Block} (hb : Kv.find k s.blocks = some b) :
    (s.modThread k i f).block k = { b with threads := Kv.modify i f b.threads } := by
  have h1 := s.find_modBlock_self k fun b => { b with threads := Kv.modify i f b.threads }
  rw [hb] at h1
  exact State.block_of_find h1

theorem block_modBc {s : State} {k j : Nat} {f : BlockCore → BlockCore} {b : Block} (hb : Kv.find k s.blocks = some b) :
    (s.modBc k j f).block k = { b with cores := Kv.modify j f b.cores } := by
  have h1 := s.find_modBlock_self k fun b => { b with cores := Kv.modify j f b.cores }
  rw [hb] at h1
  exact State.block_of_find h1

theorem thread_of_find {s : State} {k i : Nat} {b : Block} {t : Thread} (hb : Kv.find k s.blocks = some b)
    (ht : Kv.find i b.threads = some t) : s.thread k i = t := by
  rw [State.thread, State.block_of_find hb, Block.thread, Kv.get_of_find ht]

/-- A destination holds what was written to it. -/
theorem holds_writeDst {s : State} {k i : Nat} {b : Block} {t : Thread} {x : BlockCore}
    (hb : Kv.find k s.blocks = some b) (ht : Kv.find i b.threads = some t) (hx : Kv.find t.bc b.cores = some x)
    (d : Src) (v : DWord) : Holds (writeDst s k i true d v) k i d v := by
  unfold Holds
  dsimp only
  split
  · rename_i n hn
    simp only [writeDst, hn]
    rw [thread_modThread hb ht]
    split
    · exact ⟨by rw [Thread.reg_setReg_ne (by omega), Thread.reg_setReg_self], fun _ => Thread.reg_setReg_self ..⟩
    · rename_i hw
      exact ⟨Thread.reg_setReg_self .., fun h => absurd h hw⟩
  · rename_i n hn
    simp only [writeDst, hn, if_true]
    rw [thread_of_find hb ht, State.thread, block_modBc hb]
    simp only [Block.thread, Kv.get_of_find ht, Block.bc, BlockCore.sreg]
    rw [Kv.get_modify_self _ hx]
    split
    · exact ⟨by rw [Kv.get_set_ne (by omega), Kv.get_set_self], fun _ => Kv.get_set_self ..⟩
    · rename_i hw
      exact ⟨Kv.get_set_self .., fun h => absurd h hw⟩
  · rename_i n hn
    simp only [writeDst, hn]
    rw [thread_modThread hb ht, pred_setPred _ (by omega) (by omega), if_pos rfl]
  · trivial

/-- What a source reads depends on the thread's registers, not on its PC. -/
theorem srcVal_congr {s s' : State} {g : Grp} {pipe i : Nat} {x : Src} (hc : s'.clock = s.clock)
    (hb : s'.block g.block = { s.block g.block with threads := (s'.block g.block).threads })
    (ht : (s'.block g.block).thread i =
      { (s.block g.block).thread i with pc := ((s'.block g.block).thread i).pc, rep := ((s'.block g.block).thread i).rep })
    (hl : ∀ n, x.1 = .latch n → (s'.entry g.core g.e).map (·.latches) = (s.entry g.core g.e).map (·.latches)) :
    srcVal s' g pipe i x = srcVal s g pipe i x := by
  have hbc : ∀ j, (s'.block g.block).bc j = (s.block g.block).bc j := fun j => by rw [hb]; rfl
  have h1 : ∀ n, ((s'.block g.block).thread i).reg n = ((s.block g.block).thread i).reg n := fun n => by rw [ht]; rfl
  have h2 : ∀ n, ((s'.block g.block).thread i).pred n = ((s.block g.block).thread i).pred n := fun n => by rw [ht]; rfl
  have h3 : ((s'.block g.block).thread i).bc = ((s.block g.block).thread i).bc := by rw [ht]
  have h4 : ((s'.block g.block).thread i).tsLatch = ((s.block g.block).thread i).tsLatch := by rw [ht]
  have h5 : ((s'.block g.block).thread i).lane = ((s.block g.block).thread i).lane := by rw [ht]
  have h6 : ((s'.block g.block).thread i).slot = ((s.block g.block).thread i).slot := by rw [ht]
  have h7 : (s'.block g.block).tidOf = (s.block g.block).tidOf := by rw [hb]; rfl
  have h8 : (s'.block g.block).bidx = (s.block g.block).bidx := by rw [hb]
  have h9 : (s'.block g.block).part = (s.block g.block).part := by rw [hb]
  obtain ⟨o, w⟩ := x
  unfold srcVal
  cases o with
  | latch n =>
    have := hl n rfl
    simp only [h5]
    cases h : s'.entry g.core g.e <;> cases h' : s.entry g.core g.e <;> rw [h, h'] at this
    · cases this
    · cases this
    · simp only [Option.map_some, Option.some.injEq] at this
      simp only [this]
  | _ => simp only [h1, h2, h3, h4, h5, h6, hbc, specialVal, h7, h8, h9, hc]

/-- The state in which a lone thread's vector instruction reads its sources. -/
theorem vec_reads {s : State} {b : Block} {t : Thread} {x : BlockCore} (A : Alone s g i b t x) (c : Com) (n pipe : Nat)
    {y : Src} (F : Fresh s g c pipe y) :
    srcVal (advance (chainStep s g c) g n) g pipe i y = srcVal s g pipe i y ∧
      latchStale (advance (chainStep s g c) g n) g pipe y = false ∧ latchStale (chainStep s g c) g pipe y = false := by
  obtain ⟨⟨en, he, hk, hm⟩, hpc, hrep⟩ := A.entry
  have hB : Kv.find g.block ((chainStep s g c).noteIssue g.core g.e).blocks = some b := A.block
  let en1 := if c.chain && decide (0 < en.chain) && decide (en.chain < 8) then { en with chain := en.chain + 1 }
    else { en with chain := 1, written := 0, latches := [] }
  have e0 : (chainStep s g c).entry g.core g.e = some en1 := by
    rw [chainStep, State.entry_modEntry_self, he]; rfl
  have e1 : ∃ en', (advance (chainStep s g c) g n).entry g.core g.e = some en' ∧ en'.latches = en1.latches ∧
      en'.written = en1.written := by
    rw [advance, passInstr, State.noteIssue,
      show ∀ (w : State) f, (w.modBlock g.block f).entry g.core g.e = w.entry g.core g.e from fun _ _ => rfl,
      State.entry_modEntry_self, e0, Option.map_some]
    exact ⟨_, rfl, rfl, rfl⟩
  obtain ⟨en', e1, e2, e3⟩ := e1
  constructor
  · refine srcVal_congr rfl ?_ ?_ fun m hl => ?_
    · rw [advance, passInstr, State.block_of_find (by rw [State.find_modBlock_self, hB]; rfl), State.block_of_find A.block]
      rfl
    · rw [advance, passInstr, State.block_of_find (by rw [State.find_modBlock_self, hB]; rfl), State.block_of_find A.block]
      rw [Block.thread, Kv.get_of_find (by rw [Block.find_mapThreads, A.thread]; rfl), Block.thread,
        Kv.get_of_find A.thread]
      simp [A.one]
    · obtain ⟨h1, en', he', h2, h3, -⟩ := F m hl
      rw [he] at he'
      cases he'
      rw [e1, he]
      simp [e2, en1, h1, h2, h3]
  · unfold latchStale
    split
    · rename_i m hl
      obtain ⟨h1, en', he', h2, h3, h4⟩ := F m hl
      rw [he] at he'
      cases he'
      rw [e1, e0]
      simp [e3, en1, h1, h2, h3, h4]
    · exact ⟨rfl, rfl⟩

/-- What has been shown operation by operation, put together. -/
theorem ran_of_near {s s' : State} {b : Block} {t : Thread} {x : BlockCore} (A : Alone s g i b t x)
    (N : Near g i t.bc l B Q s s') :
    ∃ t', Ran s s' g i b t x l B t' ∧ Kv.find g.block s'.blocks = some (s'.block g.block) ∧
      Kv.find i (s'.block g.block).threads = some t' ∧ TNear l t t' := by
  obtain ⟨b', hb', nb⟩ := N.blk b A.block
  obtain ⟨t', ht', nt⟩ := nb.thread t A.thread
  obtain ⟨x', hx', nx, ns⟩ := nb.core x A.core
  have e1 : s'.block g.block = b' := State.block_of_find hb'
  have e2 : (s'.block g.block).bc t.bc = x' := by rw [e1]; exact Kv.get_of_find hx'
  refine ⟨t', ?_, by rw [e1, hb'], by rw [e1, ht'], nt⟩
  exact {
    thread := ⟨by rw [hb']; simp, thread_of_find hb' ht', by
      have h := nt.same
      rw [nt.rep A.entry.2.2] at h
      rw [h, A.entry.2.2.symm]⟩
    regs := nt.regs
    preds := nt.preds
    others := fun j h => by rw [e1, Block.thread, Block.thread, Kv.get_eq_find, Kv.get_eq_find, nb.threads j h]
    bcores := fun j h => by rw [e1, Block.bc, Block.bc, Kv.get_eq_find, Kv.get_eq_find, nb.cores j h]
    bcore := by rw [e2]; exact nx
    sregs := by rw [e2]; exact ns
    block := by rw [e1]; exact nb.same
    blocks := N.blocks
    cores := N.cores
    core := N.core
    entries := N.entries }

/-- The end of a lone thread's instruction: the entry is as it was, with its one thread. -/
theorem near_regroup (hB : Pre B) (hQc : ∀ s c f, Q s (State.modCore s c f)) {s s' : State} {b : Block} {t : Thread}
    {x : BlockCore} (A : Alone s g i b t x) (N : Near g i t.bc l B Q s s') :
    Near g i t.bc l B Q s' (regroup s' g.core g.e) ∧ (regroup s' g.core g.e).blocks = s'.blocks := by
  obtain ⟨⟨en, he, hk, hm⟩, -⟩ := A.entry
  obtain ⟨en', he', hk', hm'⟩ := N.entry en he
  obtain ⟨t', R, h1, h2, -⟩ := ran_of_near A N
  rw [regroup_alone he' (hm'.trans hm) (by rw [hk', hk]; exact h1) h2 (by rw [R.thread.2.2]; exact A.ready)]
  exact ⟨near_modEntry hB (fun s f => hQc s _ f) fun e h => by
    rw [he'] at h; cases h; exact ⟨rfl, by rw [hm', hm]⟩, rfl⟩

theorem latchVal_modBlock (s : State) (g : Grp) (k : Nat) (f : Block → Block) (p n lane : Nat) :
    latchVal (s.modBlock k f) g p n lane = latchVal s g p n lane := rfl

theorem latchVal_writeDst (s : State) (g : Grp) (k i : Nat) (f : Bool) (d : Src) (v : DWord) (p n lane : Nat) :
    latchVal (writeDst s k i f d v) g p n lane = latchVal s g p n lane := by
  unfold writeDst; split
  · rfl
  · split <;> rfl
  · rfl
  · rfl

/-- Of a thread a write of its destination changes registers and predicates alone. -/
theorem thread_writeDst {s : State} {k i : Nat} {b : Block} {t : Thread} (hb : Kv.find k s.blocks = some b)
    (ht : Kv.find i b.threads = some t) (f : Bool) (d : Src) (v : DWord) :
    (writeDst s k i f d v).thread k i = { t with
      regs := ((writeDst s k i f d v).thread k i).regs
      preds := ((writeDst s k i f d v).thread k i).preds } := by
  unfold writeDst
  split
  · rw [thread_modThread hb ht]; dsimp only; split <;> rfl
  · split
    · have : ∀ j f, (s.modBc k j f).thread k i = t := fun j f => by
        rw [State.thread, block_modBc hb]; exact Kv.get_of_find ht
      rw [this]
    · rw [thread_of_find hb ht]
  · rw [thread_modThread hb ht]; unfold Thread.setPred; split <;> rfl
  · rw [thread_of_find hb ht]

/-- What a destination holds depends on the blocks alone, and not on the flags. -/
theorem holds_congr {s s' : State} {k i : Nat} {d : Src} {v : DWord}
    (h1 : (s'.thread k i).regs = (s.thread k i).regs) (h2 : (s'.thread k i).preds = (s.thread k i).preds)
    (h3 : (s'.thread k i).bc = (s.thread k i).bc) (h4 : (s'.block k).cores = (s.block k).cores)
    (H : Holds s k i d v) : Holds s' k i d v := by
  unfold Holds at *
  simp only [Thread.reg, Thread.pred, Block.bc, h1, h2, h3, h4] at *
  exact H

/-- A lone thread's instruction of a vector pipe, as a whole. -/
theorem vec_alone {s : State} {b : Block} {t : Thread} {x : BlockCore} (A : Alone s g i b t x) (instr : Instr) (c : Com)
    (op : VecOp) (act : Active c t)
    (fn : ∀ u : Thread, u.fpcsr = t.fpcsr → u.preds = t.preds → op.fn u = op.fn t)
    (none : ∀ l, (op.fn t l).2.2 = [])
    (rd : ∀ y ∈ op.srcs, Readable t true y ∧ Fresh s g c op.pipe y)
    (wr : op.out.wbs = false → Writable t (op.out.dst, op.wide)) :
    let r := op.fn t (op.srcs.map (reads s g op.pipe i))
    let v := if op.wide then r.1 else low32 r.1
    ∃ s' t', execVec instr c [op] s = .next s' ∧
      Ran s s' g i b t x (if op.out.wbs then [] else [(op.out.dst, op.wide)]) SregsOnly t' ∧ Quiet s s' ∧
      t'.pc = t.pc + lenOf instr ∧ t'.fpcsr = t.fpcsr ||| BitVec.ofNat 32 r.2.1.bits ∧
      t'.tsLatch = latched s t op.srcs ∧
      (op.out.wbs = false → Holds s' g.block i (op.out.dst, op.wide) v) ∧
      latchVal s' g op.pipe op.out.lt.toNat t.lane = v := by
  intro r v
  obtain ⟨⟨en, he, hk, hm⟩, hpc, hrep⟩ := A.entry
  have hT : s.thread g.block i = t := thread_of_find A.block A.thread
  have hact : g.active c s = [i] := by
    have : guarded g c (s.thread g.block i) = true := by
      rw [hT]; simp only [guarded, A.own]; simpa [Active] using act
    simp [Grp.active, A.one, this]
  generalize hl : (if op.out.wbs then [] else [(op.out.dst, op.wide)] : List Src) = l
  -- the state in which the sources are read
  generalize h2 : advance (chainStep s g c) g (lenOf instr) = s2
  have n2 : Near g i t.bc l SregsOnly Quiet s s2 := by
    rw [← h2]
    exact (near_chainStep pre_sregsOnly quiet_modCore s c).trans pre_sregsOnly pre_quiet
      (near_advance pre_sregsOnly quiet_modBlock quiet_modCore pre_quiet A.one _ _)
  have t2 : s2.thread g.block i = { t with pc := t.pc + lenOf instr, rep := Option.none } := by
    have hB : Kv.find g.block ((chainStep s g c).noteIssue g.core g.e).blocks = some b := A.block
    rw [← h2, State.thread, advance, passInstr, State.block_of_find (by rw [State.find_modBlock_self, hB]; rfl), Block.thread,
      Kv.get_of_find (by rw [Block.find_mapThreads, A.thread]; rfl)]
    simp [A.one, A.own]
  have hrd : ∀ y ∈ op.srcs, srcVal s2 g op.pipe i y = srcVal s g op.pipe i y ∧ latchStale s2 g op.pipe y = false :=
    fun y hy => by
      have h := vec_reads A c (lenOf instr) op.pipe (rd y hy).2
      rw [← h2]; exact ⟨h.1, h.2.1⟩
  have hvals : readVec s2 g [op] i = op.srcs.map (reads s g op.pipe i) := by
    simp only [readVec, List.map_cons, List.map_nil, List.flatten_cons, List.flatten_nil, List.append_nil]
    exact List.map_congr_left fun y hy => (hrd y hy).1
  have check : ∀ w : State, (w.thread g.block i).nreg = t.nreg → (∀ y ∈ op.srcs, latchStale w g op.pipe y = false) →
      checkVec w g [op] i = Option.none := by
    intro w q1 st
    have q2 : op.srcs.any (srcBad t.nreg true) = false := by
      rw [List.any_eq_false]; intro y hy; rw [(rd y hy).1]; simp
    have q3 : op.srcs.any (latchStale w g op.pipe) = false := by
      rw [List.any_eq_false]; intro y hy; simpa using st y hy
    have q4 : (!op.out.wbs && dstBad t.nreg (op.out.dst, op.wide)) = false := by
      cases hw : op.out.wbs
      · exact wr hw
      · rfl
    simp only [checkVec, q1, List.any_cons, List.any_nil, q2, q3, q4, Bool.or_false]
    rfl
  have hck : checkVec s2 g [op] i = Option.none := check s2 (by rw [t2]; rfl) fun y hy => (hrd y hy).2
  have hck1 : checkVec (chainStep s g c) g [op] i = Option.none :=
    check _ (by rw [show (chainStep s g c).thread g.block i = s.thread g.block i from rfl, hT]) fun y hy =>
      (vec_reads A c 0 op.pipe (rd y hy).2).2.2
  generalize h3 : captureTime s2 g i op.srcs = s3
  have n3 : Near g i t.bc l SregsOnly Quiet s s3 := by
    rw [← h3]; exact n2.trans pre_sregsOnly pre_quiet (near_captureTime pre_sregsOnly quiet_modBlock pre_quiet s2 _)
  obtain ⟨t3, R3, hb3, ht3, nt3⟩ := ran_of_near A n3
  have f3 : t3.fpcsr = t.fpcsr ∧ t3.preds = t.preds ∧ t3.pc = t.pc + lenOf instr ∧ t3.tsLatch = latched s t op.srcs := by
    have : t3 = s3.thread g.block i := R3.thread.2.1.symm
    rw [this, ← h3, captureTime, latched]
    simp only [A.own, Option.isNone_none, Bool.true_and]
    split
    · obtain ⟨b2, hb2, nb2⟩ := n2.blk b A.block
      obtain ⟨u2, hu2, -⟩ := nb2.thread t A.thread
      rw [thread_modThread hb2 hu2, ← thread_of_find hb2 hu2, t2]
      exact ⟨rfl, rfl, rfl, by rw [n2.quiet]⟩
    · rw [t2]; exact ⟨rfl, rfl, rfl, rfl⟩
  have hfn : op.fn t3 = op.fn t := fn t3 f3.1 f3.2.1
  have hlane : t3.lane = t.lane := by rw [nt3.same]
  -- the result
  have hv : (if op.wide then (op.fn t3 (op.srcs.map (reads s g op.pipe i))).1
      else low32 (op.fn t3 (op.srcs.map (reads s g op.pipe i))).1) = v := by rw [hfn]
  generalize h4 : s3.modEntry g.core g.e (fun en =>
    { en with latches := Kv.set 0 ((op.pipe * 4 + op.out.lt.toNat) * 64 + t.lane) v en.latches }) = s4
  have n4 : Near g i t.bc l SregsOnly Quiet s s4 := by
    rw [← h4]
    exact n3.trans pre_sregsOnly pre_quiet (near_modEntry pre_sregsOnly (fun s f => quiet_modCore s _ f) fun _ _ => ⟨rfl, rfl⟩)
  have l4 : latchVal s4 g op.pipe op.out.lt.toNat t.lane = v := by
    obtain ⟨en3, he3, -⟩ := n3.entry en he
    have := State.entry_modEntry_self s3 g.core g.e fun en =>
      { en with latches := Kv.set 0 ((op.pipe * 4 + op.out.lt.toNat) * 64 + t.lane) v en.latches }
    rw [he3, h4] at this
    rw [latchVal, this]
    exact Kv.get_set_self ..
  have hb4 : Kv.find g.block s4.blocks = some (s3.block g.block) := by rw [← h4]; exact hb3
  have hbc3 : t3.bc = t.bc := by rw [nt3.same]
  obtain ⟨b3', hb3', nb3⟩ := n3.blk b A.block
  obtain ⟨x3, hx3, -⟩ := nb3.core x A.core
  have hx4 : Kv.find t3.bc (s3.block g.block).cores = some x3 := by
    rw [State.block_of_find hb3', hbc3]; exact hx3
  generalize h5 : (if op.out.wbs then s4 else writeDst s4 g.block i true (op.out.dst, op.wide) v) = s5
  have bc4 : (s4.thread g.block i).bc = t.bc := by rw [thread_of_find hb4 ht3, hbc3]
  have n5 : Near g i t.bc l SregsOnly Quiet s s5 := by
    rw [← h5]
    split
    · exact n4
    · rename_i hw
      refine n4.trans pre_sregsOnly pre_quiet (near_writeDst (fun _ _ => rfl) pre_sregsOnly quiet_modBlock pre_quiet _ _ ?_ bc4)
      rw [← hl, if_neg hw]; exact List.mem_singleton.mpr rfl
  have l5 : latchVal s5 g op.pipe op.out.lt.toNat t.lane = v := by
    rw [← h5]; split
    · exact l4
    · rw [latchVal_writeDst, l4]
  have d5 : op.out.wbs = false → Holds s5 g.block i (op.out.dst, op.wide) v := by
    intro hw
    rw [← h5, hw]
    exact holds_writeDst hb4 ht3 hx4 _ _
  obtain ⟨t5, R5, hb5, ht5, nt5⟩ := ran_of_near A n5
  have f5 : t5.fpcsr = t.fpcsr ∧ t5.pc = t.pc + lenOf instr ∧ t5.tsLatch = latched s t op.srcs := by
    rw [← R5.thread.2.1, ← h5]
    split
    · rw [thread_of_find hb4 ht3]; exact ⟨f3.1, f3.2.2⟩
    · rw [thread_writeDst hb4 ht3]; exact ⟨f3.1, f3.2.2⟩
  -- the flags
  generalize hfl : (fun u : Thread => u.raiseFlags r.2.1) = fl
  have hfl' : ∀ u, fl u = { u with fpcsr := u.fpcsr ||| BitVec.ofNat 32 r.2.1.bits } := fun u => by rw [← hfl]; rfl
  generalize h6 : s5.modThread g.block i fl = s6
  have n6 : Near g i t.bc l SregsOnly Quiet s s6 := by
    rw [← h6]
    refine n5.trans pre_sregsOnly pre_quiet (near_modThread pre_sregsOnly (fun s f => quiet_modBlock s _ f) fun u => ?_)
    rw [hfl']
    exact ⟨rfl, id, fun _ _ => rfl, fun _ _ _ => rfl⟩
  have t6 : s6.thread g.block i = fl t5 := by rw [← h6]; exact thread_modThread hb5 ht5
  have n7 : Near g i t.bc l SregsOnly Quiet s (markLatch s6 g op) :=
    n6.trans pre_sregsOnly pre_quiet (near_markLatch pre_sregsOnly quiet_modCore _ _)
  obtain ⟨n8, hb8⟩ := near_regroup pre_sregsOnly quiet_modCore A n7
  obtain ⟨t8, R8, hb8', ht8, -⟩ := ran_of_near A (n7.trans pre_sregsOnly pre_quiet n8)
  have e8 : (regroup (markLatch s6 g op) g.core g.e).block g.block = s6.block g.block := by
    simp only [State.block, hb8]; rfl
  have t8' : t8 = fl t5 := by
    rw [← R8.thread.2.1, ← t6]; simp only [State.thread, e8]
  have hex : execVec instr c [op] s = .next (regroup (markLatch s6 g op) g.core g.e) := by
    simp only [execVec, A.group, hact, List.any_cons, hck1, Option.isSome_none, List.any_nil, Bool.or_false, Bool.and_false,
      Bool.false_eq_true, if_false, h2, checkVecAll, hck, hvals, List.map_cons, List.map_nil, List.flatten_cons,
      List.flatten_nil, List.append_nil, h3, vecThreads, vecThread, List.foldl_cons, List.foldl_nil, finish]
    have q : List.take op.srcs.length (List.map (reads s g op.pipe i) op.srcs) = op.srcs.map (reads s g op.pipe i) := by
      rw [List.take_of_length_le (by simp)]
    rw [q, thread_of_find hb3 ht3, hfn]
    have w : writeVec s3 g i true op (op.fn t (op.srcs.map (reads s g op.pipe i))).1 = s5 := by
      simp only [writeVec, thread_of_find hb3 ht3, hlane]
      rw [← h5, ← h4]
    rw [w]
    have z : (fun u : Thread => List.foldl (fun t x => t.setPred x.1 x.2)
        (u.raiseFlags (op.fn t (op.srcs.map (reads s g op.pipe i))).2.1)
        (op.fn t (op.srcs.map (reads s g op.pipe i))).2.2) = fl := by
      rw [none, ← hfl]; rfl
    rw [z, h6]
  refine ⟨_, t8, hex, R8, (n7.trans pre_sregsOnly pre_quiet n8).quiet, ?_, ?_, ?_, fun hw => ?_, ?_⟩
  · rw [t8', hfl']; exact f5.2.1
  · rw [t8', hfl', f5.1]
  · rw [t8', hfl']; exact f5.2.2
  · have b6 : s6.block g.block = { s5.block g.block with threads := Kv.modify i fl (s5.block g.block).threads } := by
      rw [← h6]; exact block_modThread hb5
    refine holds_congr ?_ ?_ ?_ ?_ (d5 hw)
    · rw [R8.thread.2.1, t8', hfl', thread_of_find hb5 ht5]
    · rw [R8.thread.2.1, t8', hfl', thread_of_find hb5 ht5]
    · rw [R8.thread.2.1, t8', hfl', thread_of_find hb5 ht5]
    · rw [e8, b6]
  · have l6 : latchVal (markLatch s6 g op) g op.pipe op.out.lt.toNat t.lane = v := by
      obtain ⟨en6, he6, -⟩ := n6.entry en he
      have := State.entry_modEntry_self s6 g.core g.e fun en =>
        { en with written := en.written ||| BitVec.ofNat 8 (2 ^ (op.pipe * 4 + op.out.lt.toNat)) }
      rw [he6] at this
      have l6' : latchVal s6 g op.pipe op.out.lt.toNat t.lane = v := by rw [← h6]; exact l5
      rw [latchVal, he6] at l6'
      rw [latchVal, markLatch, this]
      exact l6'
    obtain ⟨en7, he7, hk7, hm7⟩ := n7.entry en he
    obtain ⟨t7, R7, hb7, ht7, -⟩ := ran_of_near A n7
    rw [regroup_alone he7 (hm7.trans hm) (by rw [hk7, hk]; exact hb7) ht7 (by rw [R7.thread.2.2]; exact A.ready)]
    have := State.entry_modEntry_self (markLatch s6 g op) g.core g.e fun en => { en with members := [i] }
    rw [he7] at this
    rw [latchVal, he7] at l6
    rw [latchVal, this]
    exact l6

/-! ### Instructions outside the vector pipes -/

theorem active_alone {s : State} {b : Block} {t : Thread} {x : BlockCore} (A : Alone s g i b t x) {c : Com}
    (act : Active c t) : g.active c s = [i] := by
  have : guarded g c (s.thread g.block i) = true := by
    rw [thread_of_find A.block A.thread]; simp only [guarded, A.own]; simpa [Active] using act
  simp [Grp.active, A.one, this]

theorem thread_advance {s : State} {b : Block} {t : Thread} {x : BlockCore} (A : Alone s g i b t x) (n : Nat) :
    (advance (closeChain s g) g n).thread g.block i = { t with pc := t.pc + n, rep := Option.none } := by
  have hB : Kv.find g.block ((closeChain s g).noteIssue g.core g.e).blocks = some b := A.block
  rw [State.thread, advance, passInstr, State.block_of_find (by rw [State.find_modBlock_self, hB]; rfl), Block.thread,
    Kv.get_of_find (by rw [Block.find_mapThreads, A.thread]; rfl)]
  simp [A.one, A.own]

theorem reads_advance {s : State} {b : Block} {t : Thread} {x : BlockCore} (A : Alone s g i b t x) (n pipe : Nat)
    {y : Src} (h : Readable t false y) :
    srcVal (advance (closeChain s g) g n) g pipe i y = srcVal s g pipe i y := by
  have hB : Kv.find g.block ((closeChain s g).noteIssue g.core g.e).blocks = some b := A.block
  refine srcVal_congr rfl ?_ ?_ fun m hl => ?_
  · rw [advance, passInstr, State.block_of_find (by rw [State.find_modBlock_self, hB]; rfl), State.block_of_find A.block]
    rfl
  · have h1 := thread_advance A n
    simp only [State.thread] at h1
    rw [h1, State.block_of_find A.block, Block.thread, Kv.get_of_find A.thread]
  · simp [Readable, srcBad, hl] at h

theorem issued_eq {s : State} {b : Block} {t : Thread} {x : BlockCore} (A : Alone s g i b t x) (ins : Instr)
    (srcs : List Src) :
    (issued s g i ins srcs).thread g.block i =
      { t with pc := t.pc + lenOf ins, rep := Option.none, tsLatch := latched s t srcs } := by
  unfold issued captureTime latched
  simp only [A.own, Option.isNone_none, Bool.true_and]
  split
  · obtain ⟨b2, hb2, nb2⟩ := (near_advance (j := t.bc) (l := []) pre_sregsOnly quiet_modBlock quiet_modCore pre_quiet A.one
      (closeChain s g)
      (lenOf ins)).blk b A.block
    obtain ⟨u2, hu2, -⟩ := nb2.thread t A.thread
    rw [thread_modThread hb2 hu2, ← thread_of_find hb2 hu2, thread_advance A]
    rfl
  · rw [thread_advance A]

theorem near_issued {s : State} {b : Block} {t : Thread} {x : BlockCore} (A : Alone s g i b t x) (hB : Pre B)
    (hQ : Pre Q) (hQb : ∀ s k f, Q s (State.modBlock s k f)) (hQc : ∀ s c f, Q s (State.modCore s c f)) (ins : Instr)
    (srcs : List Src) : Near g i j l B Q s (issued s g i ins srcs) :=
  ((near_closeChain hB hQc s).trans hB hQ (near_advance hB hQb hQc hQ A.one _ _)).trans hB hQ
    (near_captureTime hB hQb hQ _ _)

/-- The checks pass for the lone thread. -/
theorem check_alone {s : State} {b : Block} {t : Thread} {x : BlockCore} {u : Use} (A : Alone s g i b t x)
    (hp : u.pipe = Option.none) (lv : u.level ≤ t.priv.level) (rd : ∀ y ∈ u.srcs, Readable t false y)
    (wr : ∀ y ∈ u.dsts, Writable t y) (n : Nat) :
    checkThread (advance (closeChain s g) g n) g u i = Option.none := by
  have q2 : u.srcs.any (srcBad t.nreg false) = false := by
    rw [List.any_eq_false]; intro y hy; rw [rd y hy]; simp
  have q3 : u.dsts.any (dstBad t.nreg) = false := by
    rw [List.any_eq_false]; intro y hy; rw [wr y hy]; simp
  unfold checkThread
  rw [thread_advance A]
  simp only [hp, Option.isSome_none]
  rw [if_neg (by omega)]
  have : ({ t with pc := t.pc + n, rep := Option.none } : Thread).nreg = t.nreg := rfl
  rw [this, q2, q3]
  rfl

theorem prepare_alone {s : State} {b : Block} {t : Thread} {x : BlockCore} {u : Use} (A : Alone s g i b t x) (ins : Instr)
    (act : Active u.com t) (hp : u.pipe = Option.none) (lv : u.level ≤ t.priv.level)
    (rd : ∀ y ∈ u.srcs, Readable t false y) (wr : ∀ y ∈ u.dsts, Writable t y) :
    prepare (closeChain s g) g ins u = (issued s g i ins u.srcs, [(i, u.srcs.map (reads s g 0 i))]) := by
  have h1 : g.active u.com (closeChain s g) = [i] := active_alone A act
  have h2 : readAll (advance (closeChain s g) g (lenOf ins)) g u i = u.srcs.map (reads s g 0 i) := by
    simp only [readAll, A.own, hp, Option.getD_none]
    exact List.map_congr_left fun y hy => reads_advance A _ _ (rd y hy)
  simp only [prepare, h1, checkAll, check_alone A hp lv rd wr, h2, issued]

/-- What a per-thread effect gives the lone thread. -/
def eachResult (s : State) (g : Grp) (i : Nat) (ins : Instr) (vals : List DWord) : Effect → Except Stop State
  | .ok (s', ws) => .ok (writeAll g.block i true ws s')
  | .error (.exc e) => .ok (faultThread s g i (some ins) vals e)
  | .error (.halt h) => .error (.halt h)
  | .error (.miss a p) => .error (.miss a p)
  | .error .wait => .error .wait

theorem each_alone {s : State} {b : Block} {t : Thread} {x : BlockCore} {u : Use} (A : Alone s g i b t x) (ins : Instr)
    (act : Active u.com t) (hp : u.pipe = Option.none) (lv : u.level ≤ t.priv.level)
    (rd : ∀ y ∈ u.srcs, Readable t false y) (wr : ∀ y ∈ u.dsts, Writable t y)
    (f : Grp → Nat → List DWord → State → Effect) :
    eachThread ins u f s = conclude s g (eachResult (issued s g i ins u.srcs) g i ins (u.srcs.map (reads s g 0 i))
      (f g i (u.srcs.map (reads s g 0 i)) (issued s g i ins u.srcs))) := by
  simp only [eachThread, A.group, prepare_alone A ins act hp lv rd wr, runThreads]
  cases h : f g i (u.srcs.map (reads s g 0 i)) (issued s g i ins u.srcs) with
  | ok v => obtain ⟨s', ws⟩ := v; simp [eachResult]
  | error e => cases e <;> simp [eachResult]

theorem once_alone {s : State} {b : Block} {t : Thread} {x : BlockCore} {u : Use} (A : Alone s g i b t x) (ins : Instr)
    (act : Active u.com t) (hp : u.pipe = Option.none) (lv : u.level ≤ t.priv.level)
    (rd : ∀ y ∈ u.srcs, Readable t false y) (wr : ∀ y ∈ u.dsts, Writable t y)
    (f : Grp → Nat → List DWord → State → Once) :
    onceThread ins u f s =
      match f g i (u.srcs.map (reads s g 0 i)) (issued s g i ins u.srcs) with
      | .done s' ws => finish (writeAll g.block i true ws (s'.taken g.core g.e)) g
      | .stop e => finish (faultThread (issued s g i ins u.srcs) g i (some ins) (u.srcs.map (reads s g 0 i)) e) g
      | .stopIn s' e => finish (faultThread s' g i (some ins) (u.srcs.map (reads s g 0 i)) e) g
      | .hold s' h => finish (holdThreads s' g.block [i] h) g
      | .wait ev => .next (s.waitFor g.core g.e ev)
      | .abort x => abort s g.core g.e x := by
  simp only [onceThread, A.group, prepare_alone A ins act hp lv rd wr]
  cases h : f g i (u.srcs.map (reads s g 0 i)) (issued s g i ins u.srcs) <;> rfl

theorem near_taken (hB : Pre B) (hQ : ∀ s l, Q s { s with reqs := l }) (s : State) :
    Near g i j l B Q s (s.taken g.core g.e) :=
  ⟨hQ .., fun b h => ⟨b, h, .refl hB b⟩, fun _ _ => rfl, fun _ _ => rfl, rfl, fun _ _ => rfl,
    fun en h => ⟨en, h, rfl, rfl⟩⟩

/-- A lone thread's instruction that writes one destination and changes the block's core, or nothing else, as a whole. -/
theorem done_alone {s s1 : State} {b : Block} {t : Thread} {x : BlockCore} {ins : Instr} {srcs : List Src}
    (A : Alone s g i b t x) (hB : Pre B) (hQ : Pre Q)
    (hQb : ∀ s k f, Q s (State.modBlock s k f)) (hQc : ∀ s c f, Q s (State.modCore s c f))
    (hQr : ∀ s l, Q s { s with reqs := l }) (hf : exec ins s = finish (s1.taken g.core g.e) g)
    (N : Near g i t.bc l B Q (issued s g i ins srcs) s1)
    (pc : (s1.thread g.block i).pc = t.pc + lenOf ins) (ts : (s1.thread g.block i).tsLatch = latched s t srcs) :
    ∃ s', exec ins s = .next s' ∧ Near g i t.bc l B Q s s' ∧ s'.blocks = s1.blocks ∧
      ∃ t', Ran s s' g i b t x l B t' ∧ t'.pc = t.pc + lenOf ins ∧ t'.tsLatch = latched s t srcs ∧
        t' = s1.thread g.block i := by
  have n1 := (near_issued (l := l) (j := t.bc) A hB hQ hQb hQc ins srcs).trans hB hQ N
  have n2 := n1.trans hB hQ (near_taken hB hQr s1)
  obtain ⟨n3, hb3⟩ := near_regroup hB hQc A n2
  have n4 := n2.trans hB hQ n3
  obtain ⟨t', R, h1, h2, -⟩ := ran_of_near A n4
  have e : t' = s1.thread g.block i := by
    rw [← R.thread.2.1]; simp only [State.thread, State.block, hb3]; rfl
  exact ⟨_, hf, n4, hb3, t', R, by rw [e, pc], by rw [e, ts], e⟩

/-- After an exception of its one thread the entry is free. -/
theorem regroup_gone {s : State} {c e : Nat} {en : Entry} {b : Block} {t : Thread} (he : s.entry c e = some en)
    (hm : en.members = [i]) (hb : Kv.find en.block s.blocks = some b) (ht : Kv.find i b.threads = some t)
    (hr : t.stat ≠ .ready) : regroup s c e = s.modCore c fun x => { x with entries := Kv.erase e x.entries } := by
  have h1 : s.block en.block = b := State.block_of_find hb
  have h2 : b.thread i = t := Kv.get_of_find ht
  simp [regroup, he, hm, h1, h2, ht, Thread.ready, hr, sortBy, distinct]

/-- What sending a held record does. -/
theorem sendRecord_held {s : State} {p ring : Nat} {r : FaultRec} {y : Partition} (hp : s.part p = some y)
    (hr : r.held = true) : (s.sendRecord p ring r).1 =
      (s.putPart p { y with rings := Kv.insert ring { Kv.get Ring.empty ring y.rings with
        waiting := insertRecord { r with ts := s.clock % 2 ^ 64 } (Kv.get Ring.empty ring y.rings).waiting } y.rings }).later
        [.recordWrite p ring] := by
  simp [State.sendRecord, hp, hr]

/-- A lone thread that stops: every field of Faulted, from the state in which it stops. -/
theorem fault_alone {B : BlockCore → BlockCore → Prop} {s s1 : State} {b : Block} {t : Thread} {x : BlockCore} {ins : Instr} {vals : List DWord} {e : Exc}
    (A : Alone s g i b t x) (N : Near g i t.bc [] B Quiet s s1)
    (h1 : s1.thread g.block i =
      { t with pc := t.pc + lenOf ins, rep := none, tsLatch := (s1.thread g.block i).tsLatch }) (hc : e.cls ≠ .poison) :
    Faulted s (regroup (faultThread s1 g i (some ins) vals e) g.core g.e) g i b t ins vals e := by
  obtain ⟨⟨en, he, hk, hm⟩, hpc, hrep⟩ := A.entry
  obtain ⟨b1, hb1, nb⟩ := N.blk b A.block
  obtain ⟨t1, ht1, -⟩ := nb.thread t A.thread
  obtain ⟨en1, he1, hk1, hm1⟩ := N.entry en he
  have e1 : s1.thread g.block i = t1 := thread_of_find hb1 ht1
  -- the thread held faulted
  let fl : Thread → Thread := fun u =>
    { u with stat := .faulted e ⟨g.pc, some ins, vals⟩, rep := none, since := s1.tick }
  generalize h2 : s1.modThread g.block i fl = s2
  have hb2 : Kv.find g.block s2.blocks = some { b1 with threads := Kv.modify i fl b1.threads } := by
    rw [← h2, State.modThread, State.find_modBlock_self, hb1]; rfl
  have ht2 : Kv.find i (Kv.modify i fl b1.threads) = some (fl t1) := by rw [Kv.find_modify_self, ht1]; rfl
  generalize hrr : threadRecord s2 g i 0x01 true e = r
  have hft : faultThread s1 g i (some ins) vals e = s2.sendBlockRecord g.block r := by
    rw [← hrr, ← h2]; simp only [faultThread, if_neg hc]; rfl
  have hbl2 : s2.block g.block = { b1 with threads := Kv.modify i fl b1.threads } := State.block_of_find hb2
  have htag : (s2.block g.block).tag = b.tag := by rw [hbl2, nb.same]
  have hpart : (s2.block g.block).part = b.part := by rw [hbl2, nb.same]
  have hnode : (s2.block g.block).node = b.node := by rw [hbl2, nb.same]
  have hq : s2 = { s with blocks := s2.blocks, cores := s2.cores, reqs := s2.reqs } := by
    have := N.quiet; rw [Quiet] at this; rw [← h2, this]; rfl
  have hclk : s2.clock = s.clock := by rw [hq]
  have hD : Describes { r with ts := s2.clock % 2 ^ 64 } s g i b t e := by
    have ht : s2.thread g.block i = fl t1 := thread_of_find hb2 ht2
    simp only [State.thread] at ht
    have hl : (fl t1).lane = t.lane := by show t1.lane = t.lane; rw [← e1, h1]
    have hs : (fl t1).slot = t.slot := by show t1.slot = t.slot; rw [← e1, h1]
    rw [← hrr]
    constructor <;> simp [threadRecord, FaultRec.withExc, FaultRec.atCore, FaultRec.ofKind, htag, hnode, ht, hl, hs, hpc,
      hclk]
  -- the record does not touch blocks and cores
  have key : (s2.sendBlockRecord g.block r).blocks = s2.blocks ∧ (s2.sendBlockRecord g.block r).cores = s2.cores ∧
      (s2.sendBlockRecord g.block r).mem = s2.mem ∧
      (b.part = none → (s2.sendBlockRecord g.block r).harbour.bootRecords =
        insertRecord { r with ts := s2.clock % 2 ^ 64 } s.harbour.bootRecords) ∧
      ∀ p y, b.part = some p → s.part p = some y →
        let n := if b.tag = 0 then 0 else ringOfNode y.nodes 32 b.node
        (s2.sendBlockRecord g.block r).agenda = .recordWrite p n :: s.agenda ∧
        ∃ z, (s2.sendBlockRecord g.block r).part p = some z ∧ (Kv.get Ring.empty n z.rings).waiting =
          insertRecord { r with ts := s2.clock % 2 ^ 64 } (Kv.get Ring.empty n y.rings).waiting := by
    have hheld : r.held = true := hD.held
    simp only [State.sendBlockRecord, hpart, htag, hnode]
    cases hbp : b.part with
    | none =>
      refine ⟨rfl, rfl, rfl, fun _ => by rw [hq], fun p y h => by cases h⟩
    | some p =>
      dsimp only
      cases hsp : s2.part p with
      | none =>
        have hn : ∀ ring, s2.sendRecord p ring r = (s2, false) := fun ring => by simp [State.sendRecord, hsp]
        rw [hn]
        refine ⟨rfl, rfl, rfl, fun h => (by cases h), fun q y h hy => ?_⟩
        cases h
        have : s2.part p = s.part p := by rw [hq]; rfl
        rw [this, hy] at hsp
        cases hsp
      | some y =>
        simp only [sendRecord_held hsp hheld]
        refine ⟨rfl, rfl, rfl, fun h => (by cases h), fun q z h hz => ?_⟩
        cases h
        have : s2.part p = s.part p := by rw [hq]; rfl
        rw [this, hz] at hsp
        cases hsp
        refine ⟨by rw [hq]; rfl, _, State.part_putPart_self .., ?_⟩
        dsimp only
        rw [Kv.get_insert_self]
  obtain ⟨kb, kc, km, kboot, kring⟩ := key
  have hen2 : (s2.sendBlockRecord g.block r).entry g.core g.e = some en1 := by
    rw [State.entry, State.core, kc, ← h2]; exact he1
  have hreg := regroup_gone (s := s2.sendBlockRecord g.block r) (c := g.core) (e := g.e) (i := i) hen2 (hm1.trans hm)
    (by rw [hk1, hk, kb]; exact hb2) ht2 (by show Stat.faulted .. ≠ _; simp)
  rw [hft, hreg]
  have hblk : ∀ k, Kv.find k ((s2.sendBlockRecord g.block r).modCore g.core fun x =>
      { x with entries := Kv.erase g.e x.entries }).blocks = Kv.find k s2.blocks := fun k => by
    rw [State.modCore_blocks, kb]
  exact {
    thread := by
      rw [thread_of_find ((hblk g.block).trans hb2) ht2]
      have htk : s1.tick = s.tick := by rw [N.quiet]
      have h3 : t1 = { t with pc := t.pc + lenOf ins, rep := none, tsLatch := t1.tsLatch } := by
        rw [e1] at h1; exact h1
      generalize t1.tsLatch = ts at h3
      rw [h3]
      simp only [fl, htk, hpc, hrep]
    gone := by
      simp only [State.entry, State.core_modCore_self]
      exact Kv.find_erase_self ..
    others := fun j hj => by
      rw [State.block_of_find ((hblk g.block).trans hb2), Block.thread, Block.thread, Kv.get_eq_find, Kv.get_eq_find]
      simp only [Kv.find_modify_ne hj, nb.threads j hj]
    blocks := fun k hk' => by
      rw [hblk, ← h2, State.modThread, State.find_modBlock_ne _ hk', N.blocks k hk']
    mem := by rw [State.modCore_mem, km, hq]
    boot := fun h => ⟨_, kboot h, hD⟩
    ring := fun p y hp hy => by
      obtain ⟨k1, z, k2, k3⟩ := kring p y hp hy
      exact ⟨k1, _, z, k2, hD, k3⟩ }

end Sys2Proof.Claims
end

