-- ==== Sys2Proof/Laws/Course.lean ====
section
/-! SUPPORT. What an instruction outside the vector pipes answers for a lone thread that may issue it, from what its
effect gives. -/

namespace Sys2Proof.Claims

open Machine

variable {g : Grp} {i : Nat} {s : State} {b : Block} {t : Thread} {x : BlockCore} {c : Com} {srcs dsts : List Src}

theorem writeDst_taken (s : State) (k i : Nat) (f : Bool) (d : Src) (v : DWord) (c e : Nat) :
    writeDst (s.taken c e) k i f d v = (writeDst s k i f d v).taken c e := by
  unfold writeDst
  split <;> first | rfl | skip
  split <;> rfl

theorem writeAll_taken (k i : Nat) (f : Bool) (ws : List (Src × DWord)) (s : State) (c e : Nat) :
    writeAll k i f ws (s.taken c e) = (writeAll k i f ws s).taken c e := by
  induction ws generalizing s with
  | nil => rfl
  | cons a l ih => obtain ⟨d, v⟩ := a; simp only [writeAll, writeDst_taken, ih]

/-- Boot mode bars nothing of a thread of another mode. -/
theorem barBoot_alone (A : Alone s g i b t x) (h : t.priv ≠ .boot) (ins : Instr) (k : Res) : barBoot ins s g k = k := by
  have : g.priv s = t.priv := by rw [Grp.priv, A.one]; simp only [thread_of_find A.block A.thread]
  rw [barBoot, this, if_neg h]

/-- An instruction that acts for each thread, on a lone one. -/
theorem each_can (C : CanIssue s g i b t x c srcs dsts) (ins : Instr) (f : Grp → Nat → List DWord → State → Effect) :
    eachThread ins (Use.plain c srcs dsts) f s =
      conclude s g (eachResult (issued s g i ins srcs) g i ins (values s g i srcs)
        (f g i (values s g i srcs) (issued s g i ins srcs))) :=
  each_alone (u := Use.plain c srcs dsts) C.alone ins C.active rfl (Nat.zero_le _) C.readable C.writable f

theorem each_may (M : MayIssue s g i b t x c srcs dsts) (ins : Instr) (f : Grp → Nat → List DWord → State → Effect) :
    eachThreadNoBoot ins (Use.plain c srcs dsts) f s =
      conclude s g (eachResult (issued s g i ins srcs) g i ins (values s g i srcs)
        (f g i (values s g i srcs) (issued s g i ins srcs))) := by
  rw [eachThreadNoBoot, M.can.alone.group]
  dsimp only
  rw [barBoot_alone M.can.alone M.mode, each_can M.can]

/-- What an instruction that acts once answers for a lone thread. -/
def onceAnswer (s : State) (g : Grp) (i : Nat) (ins : Instr) (srcs : List Src) : Once → Res
  | .done s' ws => .next (completed s' g i ws)
  | .stop e => finish (faultThread (issued s g i ins srcs) g i (some ins) (values s g i srcs) e) g
  | .stopIn s' e => finish (faultThread s' g i (some ins) (values s g i srcs) e) g
  | .hold s' h => .next (heldAt s' g i h)
  | .wait ev => .next (s.waitFor g.core g.e ev)
  | .abort x => abort s g.core g.e x

theorem once_can (C : CanIssue s g i b t x c srcs dsts) (ins : Instr) (f : Grp → Nat → List DWord → State → Once) :
    onceThread ins (Use.plain c srcs dsts) f s =
      onceAnswer s g i ins srcs (f g i (values s g i srcs) (issued s g i ins srcs)) := by
  rw [once_alone (u := Use.plain c srcs dsts) C.alone ins C.active rfl (Nat.zero_le _) C.readable C.writable f]
  simp only [Use.plain]
  cases f g i (values s g i srcs) (issued s g i ins srcs) <;> simp only [onceAnswer, completed, heldAt, finish, writeAll_taken]

theorem once_may (M : MayIssue s g i b t x c srcs dsts) (ins : Instr) (f : Grp → Nat → List DWord → State → Once) :
    onceThreadNoBoot ins (Use.plain c srcs dsts) f s =
      onceAnswer s g i ins srcs (f g i (values s g i srcs) (issued s g i ins srcs)) := by
  rw [onceThreadNoBoot, M.can.alone.group]
  dsimp only
  rw [barBoot_alone M.can.alone M.mode, once_can M.can]

/-- The thread and its block as the effect of an instruction finds them. -/
theorem issued_block (A : Alone s g i b t x) (ins : Instr) (srcs : List Src) :
    ∃ b', (issued s g i ins srcs).block g.block = b' ∧ Kv.find g.block (issued s g i ins srcs).blocks = some b' ∧
      b' = { b with threads := b'.threads } ∧ b'.bc t.bc = x ∧ Kv.find t.bc b'.cores = some x := by
  have hB : Kv.find g.block ((closeChain s g).noteIssue g.core g.e).blocks = some b := A.block
  have key : ∃ th, Kv.find g.block (issued s g i ins srcs).blocks = some { b with threads := th } := by
    unfold issued captureTime
    split
    · exact ⟨_, by rw [State.modThread, State.find_modBlock_self, advance, passInstr, State.find_modBlock_self, hB]; rfl⟩
    · exact ⟨_, by rw [advance, passInstr, State.find_modBlock_self, hB]; rfl⟩
  obtain ⟨th, h⟩ := key
  refine ⟨_, State.block_of_find h, h, rfl, ?_, A.core⟩
  show Block.bc _ _ = x
  rw [Block.bc, Kv.get_of_find A.core]

/-- The state that an effect finds, in the terms of the state before. -/
theorem issued_rest (ins : Instr) (srcs : List Src) :
    Quiet s (issued s g i ins srcs) ∧ (issued s g i ins srcs).reqs = s.reqs := by
  unfold issued captureTime
  split <;> exact ⟨rfl, rfl⟩

theorem traps_of {ins : Instr} {vals : List DWord} {e : Exc} (A : Alone s g i b t x) (hc : e.cls ≠ .poison)
    (h : exec ins s = finish (faultThread (issued s g i ins srcs) g i (some ins) vals e) g) :
    Traps s g i b t ins vals e :=
  ⟨_, h, fault_alone A (near_issued A pre_sregsOnly pre_quiet quiet_modBlock quiet_modCore ins srcs)
    (by rw [issued_eq A ins srcs]) hc⟩

end Sys2Proof.Claims
end

