-- ==== Sys2Proof/Laws/Memory.lean ====
section
/-! SUPPORT. Memory's operations: what reads after a write gives, and the canonical form that every one of them keeps. -/

namespace Sys2Proof.Machine

/-! ### Reading after writing -/

theorem byteAt_setByte (s : State) (a c : Nat) (v : Byte) :
    (s.setByte a v).byteAt c = if c = a then v else s.byteAt c := Kv.get_set emptyByte c a v s.mem

theorem byteAt_setCells_other {a : Nat} : ∀ (l : List Host.Cell) (s : State), (∀ c ∈ l, c.1 ≠ a) →
    (s.setCells l).byteAt a = s.byteAt a
  | [], _, _ => rfl
  | c :: l, s, h => by
    have := byteAt_setCells_other l (s.setByte c.1 c.2) fun x hx => h x (List.mem_cons_of_mem _ hx)
    rw [show s.setCells (c :: l) = (s.setByte c.1 c.2).setCells l from rfl, this, byteAt_setByte,
      if_neg fun e => h c List.mem_cons_self e.symm]

theorem leCells_addr {a v n : Nat} : ∀ c ∈ leCells a v n, a ≤ c.1 ∧ c.1 < a + n := by
  induction n generalizing a v with
  | zero => intro c h; cases h
  | succ n ih =>
    intro c h
    rcases List.mem_cons.mp h with e | e
    · subst e; exact ⟨Nat.le_refl a, by show a < a + (n + 1); omega⟩
    · have := ih c e; omega

/-- Outside the cells that are written, memory reads as before. -/
theorem byteAt_leCells_other (s : State) {a v n c : Nat} (h : c < a ∨ a + n ≤ c) :
    (s.setCells (leCells a v n)).byteAt c = s.byteAt c :=
  byteAt_setCells_other _ s fun x hx => by have := leCells_addr x hx; omega

/-- A written byte reads as the number's byte at its place (R8). -/
theorem byteAt_leCells (s : State) {a v n k : Nat} (h : k < n) :
    (s.setCells (leCells a v n)).byteAt (a + k) = BitVec.ofNat 8 (v / 256 ^ k) := by
  induction n generalizing a v k s with
  | zero => omega
  | succ n ih =>
    rw [show s.setCells (leCells a v (n + 1)) = (s.setByte a (BitVec.ofNat 8 v)).setCells (leCells (a + 1) (v / 256) n)
      from rfl]
    cases k with
    | zero =>
      rw [byteAt_leCells_other _ (by omega), byteAt_setByte, if_pos (by omega)]; simp
    | succ k =>
      rw [show a + (k + 1) = a + 1 + k by omega, ih _ (by omega), Nat.div_div_eq_div_mul, Nat.pow_succ, Nat.mul_comm]

@[simp] theorem setCells_nil (s : State) : s.setCells [] = s := rfl

/-- Writing cells changes memory alone. -/
theorem setCells_eq : ∀ (l : List Host.Cell) (s : State), s.setCells l = { s with mem := (s.setCells l).mem }
  | [], _ => rfl
  | c :: l, s => setCells_eq l (s.setByte c.1 c.2)

/-! ### The canonical form is kept -/

theorem wf_setByte {s : State} (a : Nat) (v : Byte) (h : Memory.wf s.mem = true) :
    Memory.wf (s.setByte a v).mem = true := Kv.wf_set h

theorem wf_setCells : ∀ (l : List Host.Cell) {s : State}, Memory.wf s.mem = true →
    Memory.wf (s.setCells l).mem = true
  | [], _, h => h
  | c :: l, _, h => wf_setCells l (wf_setByte c.1 c.2 h)

theorem wf_filter_mem {m : List Host.Cell} (f : Host.Cell → Bool) (h : Memory.wf m = true) :
    Memory.wf (m.filter f) = true := Kv.wf_filter f h

theorem wf_writeLine {s : State} (spa : Nat) (d : List Byte) (h : Memory.wf s.mem = true) :
    Memory.wf (s.writeLine spa d).mem = true := wf_setCells _ h

/-- What leaves memory as it is keeps its form. -/
theorem wf_of_mem_eq {s t : State} (e : t.mem = s.mem) (h : Memory.wf s.mem = true) : Memory.wf t.mem = true := by
  rw [e]; exact h

theorem foldl_mem {α : Type} {f : State → α → State} (h : ∀ s x, (f s x).mem = s.mem) (l : List α) (s : State) :
    (l.foldl f s).mem = s.mem := by
  induction l generalizing s with
  | nil => rfl
  | cons x l ih => rw [List.foldl_cons, ih, h]

@[simp] theorem sendReq_mem (s : State) (p : Packet) (r : RemoteReq) : (s.sendReq p r).mem = s.mem := rfl

@[simp] theorem sendProbe_mem (s : State) (k : Nat) : (s.sendProbe k).mem = s.mem := by
  unfold State.sendProbe; split
  · rfl
  · dsimp only; split <;> rfl

@[simp] theorem probeHolders_mem (s : State) (b l : Nat) : (s.probeHolders b l).mem = s.mem := by
  unfold State.probeHolders; dsimp only; split
  · rfl
  · rw [sendProbe_mem]; rfl

@[simp] theorem wakeStack_mem (s : State) (k : Nat) : (s.wakeStack k).mem = s.mem := by
  unfold State.wakeStack; split <;> rfl

@[simp] theorem raceNote_mem (s : State) (k va cnt : Nat) (rel : Bool) : (s.raceNote k va cnt rel).mem = s.mem := by
  unfold State.raceNote; split
  · rfl
  · simp

@[simp] theorem sendRecord_mem (s : State) (p ring : Nat) (r : FaultRec) : (s.sendRecord p ring r).1.mem = s.mem := by
  unfold State.sendRecord; split
  · rfl
  · dsimp only; split <;> rfl

@[simp] theorem sendBlockRecord_mem (s : State) (k : Nat) (r : FaultRec) : (s.sendBlockRecord k r).mem = s.mem := by
  unfold State.sendBlockRecord; dsimp only; split
  · rfl
  · exact sendRecord_mem _ _ _ _

@[simp] theorem post_mem (s : State) (a : Actor) (p : Packet) (r : FaultRec) : (s.post a p r).mem = s.mem := by
  unfold State.post; split
  · exact sendBlockRecord_mem _ _ _
  · rfl

theorem foldl_wf {α : Type} {f : State → α → State}
    (h : ∀ s x, Memory.wf s.mem = true → Memory.wf (f s x).mem = true) (l : List α) {s : State}
    (hs : Memory.wf s.mem = true) : Memory.wf (l.foldl f s).mem = true := by
  induction l generalizing s with
  | nil => exact hs
  | cons x l ih => exact ih (h s x hs)

theorem wf_snoop {s : State} (l : Nat) (inv : Bool) (h : Memory.wf s.mem = true) :
    Memory.wf (s.snoop l inv).mem = true := by
  have key : ∀ w : State, Memory.wf w.mem = true →
      Memory.wf (match w.stashPages.findSome? (StashPage.modified (l * 64)) with
        | some d => w.writeLine (l * 64) d
        | none => w).mem = true := fun w hw => by
    split
    · exact wf_writeLine _ _ hw
    · exact hw
  have awake : Memory.wf (s.wakeStack (s.homeStack (l * 64))).mem = true := by rw [wakeStack_mem]; exact h
  unfold State.snoop; dsimp only
  by_cases q : s.target (l * 64) = .dram
  · rw [if_pos q]; split
    · exact key _ awake
    · exact awake
  · rw [if_neg q]; split
    · exact key _ h
    · exact h

theorem wf_flushPage {s : State} (p : StashPage) (h : Memory.wf s.mem = true) : Memory.wf (s.flushPage p).mem = true :=
  foldl_wf (fun _ _ hs => by split <;> first | exact wf_writeLine _ _ hs | exact hs) _ h

theorem wf_writeRemote {s : State} (l : Nat) (cells : List WCell) (h : Memory.wf s.mem = true) :
    Memory.wf (s.writeRemote l cells).mem = true := by
  unfold State.writeRemote
  split
  · exact h
  · rw [post_mem]
    split
    · exact wf_setCells _ h
    · exact h

theorem wf_writeGranule {s : State} (gr : Nat) (cells : List WCell) (h : Memory.wf s.mem = true) :
    Memory.wf (s.writeGranule gr cells).mem = true := by
  unfold State.writeGranule
  split
  · exact h
  · dsimp only
    split
    · rw [sendBlockRecord_mem]; exact wf_snoop _ _ h
    · rw [probeHolders_mem, foldl_mem fun s c => raceNote_mem s _ _ _ _]
      exact wf_setCells _ (wf_snoop _ _ h)

/-- What an instruction writes keeps the canonical form. -/
theorem wf_writeCells {s : State} (cells : List WCell) (h : Memory.wf s.mem = true) :
    Memory.wf (s.writeCells cells).mem = true :=
  foldl_wf (fun _ _ hs => by
    dsimp only; split
    · exact wf_writeRemote _ _ hs
    · exact wf_writeGranule _ _ hs) _ h

theorem wf_clearRange {s : State} (spa n : Nat) (h : Memory.wf s.mem = true) :
    Memory.wf (s.clearRange spa n).mem = true := by
  refine wf_filter_mem _ ?_
  rw [foldl_mem fun s _ => probeHolders_mem s 0 _]
  exact h

theorem above_map {f : Nat → Nat} {b : Nat} {l : List Host.Cell} (hb : ∀ c ∈ l, b < c.1 → f b < f c.1)
    (hf : ∀ c ∈ l, ∀ d ∈ l, c.1 < d.1 → f c.1 < f d.1) (h : Kv.above b l = true) :
    Kv.above (f b) (l.map fun c : Nat × Byte => (f c.1, c.2)) = true := by
  induction l generalizing b with
  | nil => rfl
  | cons x t ih =>
    simp only [Kv.above, Bool.and_eq_true, decide_eq_true_eq] at h
    simp only [List.map_cons, Kv.above, Bool.and_eq_true, decide_eq_true_eq]
    refine ⟨hb x List.mem_cons_self h.1, ih ?_ ?_ h.2⟩
    · exact fun c hc => hf x List.mem_cons_self c (List.mem_cons_of_mem _ hc)
    · exact fun c hc d hd => hf c (List.mem_cons_of_mem _ hc) d (List.mem_cons_of_mem _ hd)

theorem wf_map {f : Nat → Nat} {l : List Host.Cell}
    (hf : ∀ c ∈ l, ∀ d ∈ l, c.1 < d.1 → f c.1 < f d.1) (h : Memory.wf l = true) :
    Memory.wf (l.map fun c : Nat × Byte => (f c.1, c.2)) = true := by
  induction l with
  | nil => rfl
  | cons x t ih =>
    have hf' : ∀ c ∈ t, ∀ d ∈ t, c.1 < d.1 → f c.1 < f d.1 := fun c hc d hd =>
      hf c (List.mem_cons_of_mem _ hc) d (List.mem_cons_of_mem _ hd)
    simp only [Memory.wf, Kv.wf, Bool.and_eq_true, decide_eq_true_eq] at h
    simp only [Memory.wf, List.map_cons, Kv.wf, Bool.and_eq_true, decide_eq_true_eq]
    exact ⟨h.1, above_map (fun c hc => hf x List.mem_cons_self c (List.mem_cons_of_mem _ hc)) hf' h.2.1, ih hf' h.2.2⟩

theorem wf_renumber {s : State} (pkg : Nat) (h : Memory.wf s.mem = true) :
    Memory.wf (s.renumber pkg).mem = true := by
  refine wf_map (f := fun a => pkg * 2 ^ 46 + spaLocal a) ?_ (wf_filter_mem _ h)
  intro c hc d hd hlt
  have e1 := (List.mem_filter.mp hc).2
  have e2 := (List.mem_filter.mp hd).2
  simp only [beq_iff_eq, spaPkg, spaLocal] at e1 e2 ⊢
  omega

theorem wf_zeroFrame {s : State} (spa : Nat) (h : Memory.wf s.mem = true) : Memory.wf (s.zeroFrame spa).mem = true := by
  unfold State.zeroFrame
  split
  · exact foldl_wf (fun _ _ hs => wf_writeRemote _ _ hs) _ h
  · rw [foldl_mem fun s n => probeHolders_mem s _ _]
    exact wf_filter_mem _ (wf_of_mem_eq (wakeStack_mem s _) h)

theorem wf_zeroFrames {s : State} (l : List Nat) (h : Memory.wf s.mem = true) :
    Memory.wf (l.foldl State.zeroFrame s).mem = true := foldl_wf (fun _ _ hs => wf_zeroFrame _ hs) _ h

/-- At reset nothing is listed. -/
theorem wf_reset : Memory.wf State.reset.mem = true := rfl

end Sys2Proof.Machine
end

