-- ==== Sys2Proof/Laws/PerInstr.lean ====
section
/-! SUPPORT. What is said of every instruction, one lemma for each constructor. -/

namespace Sys2Proof.Laws.OneEncoding

/-- Each instruction has words in at most one of the three sets: Mermos words, ferry words and micro-operations (R39, R405,
R421). An event has none. -/
def Statement (i : Instr) : Prop :=
  (encodeFerry i = none ∧ encodeNb i = none) ∨ (encodeBits i = none ∧ encodeNb i = none) ∨
    (encodeBits i = none ∧ encodeFerry i = none)

end Sys2Proof.Laws.OneEncoding

open Sys2Proof

theorem Sys2Proof.Laws.OneEncoding.coreReleaseFromReset (core : Nat) :
    Laws.OneEncoding.Statement (.coreReleaseFromReset core) := .inl ⟨rfl, rfl⟩
theorem Sys2Proof.Laws.OneEncoding.nop :
    Laws.OneEncoding.Statement .nop := .inl ⟨rfl, rfl⟩
theorem Sys2Proof.Laws.OneEncoding.filler :
    Laws.OneEncoding.Statement .filler := .inl ⟨rfl, rfl⟩
theorem Sys2Proof.Laws.OneEncoding.bra (com : Com) (off : Word) :
    Laws.OneEncoding.Statement (.bra com off) := .inl ⟨rfl, rfl⟩
theorem Sys2Proof.Laws.OneEncoding.jmp (com : Com) (target : DWord) :
    Laws.OneEncoding.Statement (.jmp com target) := .inl ⟨rfl, rfl⟩
theorem Sys2Proof.Laws.OneEncoding.brx (com : Com) (a : Opnd) :
    Laws.OneEncoding.Statement (.brx com a) := .inl ⟨rfl, rfl⟩
theorem Sys2Proof.Laws.OneEncoding.call (com : Com) (link : Opnd) (off : Word) :
    Laws.OneEncoding.Statement (.call com link off) := .inl ⟨rfl, rfl⟩
theorem Sys2Proof.Laws.OneEncoding.callr (com : Com) (link a : Opnd) :
    Laws.OneEncoding.Statement (.callr com link a) := .inl ⟨rfl, rfl⟩
theorem Sys2Proof.Laws.OneEncoding.ret (com : Com) (a : Opnd) :
    Laws.OneEncoding.Statement (.ret com a) := .inl ⟨rfl, rfl⟩
theorem Sys2Proof.Laws.OneEncoding.exit (com : Com) :
    Laws.OneEncoding.Statement (.exit com) := .inl ⟨rfl, rfl⟩
theorem Sys2Proof.Laws.OneEncoding.yield (com : Com) :
    Laws.OneEncoding.Statement (.yield com) := .inl ⟨rfl, rfl⟩
theorem Sys2Proof.Laws.OneEncoding.halt (com : Com) :
    Laws.OneEncoding.Statement (.halt com) := .inl ⟨rfl, rfl⟩
theorem Sys2Proof.Laws.OneEncoding.add (x : Vec2) :
    Laws.OneEncoding.Statement (.add x) := .inl ⟨rfl, rfl⟩
theorem Sys2Proof.Laws.OneEncoding.sub (x : Vec2) :
    Laws.OneEncoding.Statement (.sub x) := .inl ⟨rfl, rfl⟩
theorem Sys2Proof.Laws.OneEncoding.addc (x : Vec2) (pk : BitVec 3) (first : Bool) :
    Laws.OneEncoding.Statement (.addc x pk first) := .inl ⟨rfl, rfl⟩
theorem Sys2Proof.Laws.OneEncoding.subb (x : Vec2) (pk : BitVec 3) (first : Bool) :
    Laws.OneEncoding.Statement (.subb x pk first) := .inl ⟨rfl, rfl⟩
theorem Sys2Proof.Laws.OneEncoding.mul (x : Vec2) :
    Laws.OneEncoding.Statement (.mul x) := .inl ⟨rfl, rfl⟩
theorem Sys2Proof.Laws.OneEncoding.mulh (x : Vec2) :
    Laws.OneEncoding.Statement (.mulh x) := .inl ⟨rfl, rfl⟩
theorem Sys2Proof.Laws.OneEncoding.mad (x : Vec3) :
    Laws.OneEncoding.Statement (.mad x) := .inl ⟨rfl, rfl⟩
theorem Sys2Proof.Laws.OneEncoding.div (x : Vec2) :
    Laws.OneEncoding.Statement (.div x) := .inl ⟨rfl, rfl⟩
theorem Sys2Proof.Laws.OneEncoding.rem (x : Vec2) :
    Laws.OneEncoding.Statement (.rem x) := .inl ⟨rfl, rfl⟩
theorem Sys2Proof.Laws.OneEncoding.min (x : Vec2) :
    Laws.OneEncoding.Statement (.min x) := .inl ⟨rfl, rfl⟩
theorem Sys2Proof.Laws.OneEncoding.max (x : Vec2) :
    Laws.OneEncoding.Statement (.max x) := .inl ⟨rfl, rfl⟩
theorem Sys2Proof.Laws.OneEncoding.abs (x : Vec1) :
    Laws.OneEncoding.Statement (.abs x) := .inl ⟨rfl, rfl⟩
theorem Sys2Proof.Laws.OneEncoding.neg (x : Vec1) :
    Laws.OneEncoding.Statement (.neg x) := .inl ⟨rfl, rfl⟩
theorem Sys2Proof.Laws.OneEncoding.and (x : Vec2) :
    Laws.OneEncoding.Statement (.and x) := .inl ⟨rfl, rfl⟩
theorem Sys2Proof.Laws.OneEncoding.or (x : Vec2) :
    Laws.OneEncoding.Statement (.or x) := .inl ⟨rfl, rfl⟩
theorem Sys2Proof.Laws.OneEncoding.xor (x : Vec2) :
    Laws.OneEncoding.Statement (.xor x) := .inl ⟨rfl, rfl⟩
theorem Sys2Proof.Laws.OneEncoding.not (x : Vec1) :
    Laws.OneEncoding.Statement (.not x) := .inl ⟨rfl, rfl⟩
theorem Sys2Proof.Laws.OneEncoding.andn (x : Vec2) :
    Laws.OneEncoding.Statement (.andn x) := .inl ⟨rfl, rfl⟩
theorem Sys2Proof.Laws.OneEncoding.shl (x : Vec1) (cnt : ShiftCount) :
    Laws.OneEncoding.Statement (.shl x cnt) := .inl ⟨rfl, rfl⟩
theorem Sys2Proof.Laws.OneEncoding.shr (x : Vec1) (cnt : ShiftCount) :
    Laws.OneEncoding.Statement (.shr x cnt) := .inl ⟨rfl, rfl⟩
theorem Sys2Proof.Laws.OneEncoding.sra (x : Vec1) (cnt : ShiftCount) :
    Laws.OneEncoding.Statement (.sra x cnt) := .inl ⟨rfl, rfl⟩
theorem Sys2Proof.Laws.OneEncoding.rot (x : Vec1) (cnt : ShiftCount) :
    Laws.OneEncoding.Statement (.rot x cnt) := .inl ⟨rfl, rfl⟩
theorem Sys2Proof.Laws.OneEncoding.funnel (x : Vec3) :
    Laws.OneEncoding.Statement (.funnel x) := .inl ⟨rfl, rfl⟩
theorem Sys2Proof.Laws.OneEncoding.clz (x : Vec1) :
    Laws.OneEncoding.Statement (.clz x) := .inl ⟨rfl, rfl⟩
theorem Sys2Proof.Laws.OneEncoding.ctz (x : Vec1) :
    Laws.OneEncoding.Statement (.ctz x) := .inl ⟨rfl, rfl⟩
theorem Sys2Proof.Laws.OneEncoding.popc (x : Vec1) :
    Laws.OneEncoding.Statement (.popc x) := .inl ⟨rfl, rfl⟩
theorem Sys2Proof.Laws.OneEncoding.brev (x : Vec1) :
    Laws.OneEncoding.Statement (.brev x) := .inl ⟨rfl, rfl⟩
theorem Sys2Proof.Laws.OneEncoding.bfx (x : Vec2) :
    Laws.OneEncoding.Statement (.bfx x) := .inl ⟨rfl, rfl⟩
theorem Sys2Proof.Laws.OneEncoding.bfi (x : Vec3) :
    Laws.OneEncoding.Statement (.bfi x) := .inl ⟨rfl, rfl⟩
theorem Sys2Proof.Laws.OneEncoding.sel (x : Vec3) :
    Laws.OneEncoding.Statement (.sel x) := .inl ⟨rfl, rfl⟩
theorem Sys2Proof.Laws.OneEncoding.cmp (x : Vec2) (c : Cond) :
    Laws.OneEncoding.Statement (.cmp x c) := .inl ⟨rfl, rfl⟩
theorem Sys2Proof.Laws.OneEncoding.lea (com : Com) (out : Out) (m : MemOp) :
    Laws.OneEncoding.Statement (.lea com out m) := .inl ⟨rfl, rfl⟩
theorem Sys2Proof.Laws.OneEncoding.leah (com : Com) (out : Out) (m : MemOp) :
    Laws.OneEncoding.Statement (.leah com out m) := .inl ⟨rfl, rfl⟩
theorem Sys2Proof.Laws.OneEncoding.swin (com : Com) (out : Out) (cluster : Bool) (a : Opnd) :
    Laws.OneEncoding.Statement (.swin com out cluster a) := .inl ⟨rfl, rfl⟩
theorem Sys2Proof.Laws.OneEncoding.plut (com : Com) (out : Out) (table : BitVec 8) (a b c : Opnd) :
    Laws.OneEncoding.Statement (.plut com out table a b c) := .inl ⟨rfl, rfl⟩
theorem Sys2Proof.Laws.OneEncoding.pmovGet (com : Com) (out : Out) :
    Laws.OneEncoding.Statement (.pmovGet com out) := .inl ⟨rfl, rfl⟩
theorem Sys2Proof.Laws.OneEncoding.pmovSet (com : Com) (lt : BitVec 2) (a : Opnd) :
    Laws.OneEncoding.Statement (.pmovSet com lt a) := .inl ⟨rfl, rfl⟩
theorem Sys2Proof.Laws.OneEncoding.mov (x : Vec1) :
    Laws.OneEncoding.Statement (.mov x) := .inl ⟨rfl, rfl⟩
theorem Sys2Proof.Laws.OneEncoding.movi (com : Com) (out : Out) (ty : Ty) (imm : DWord) (wide : Bool) :
    Laws.OneEncoding.Statement (.movi com out ty imm wide) := .inl ⟨rfl, rfl⟩
theorem Sys2Proof.Laws.OneEncoding.movsReadWp (com : Com) (ch : BitVec 3) (dst : Opnd) :
    Laws.OneEncoding.Statement (.movsReadWp com ch dst) := .inl ⟨rfl, rfl⟩
theorem Sys2Proof.Laws.OneEncoding.movsReadTc (com : Com) (t : BitVec 4) (dst : Opnd) :
    Laws.OneEncoding.Statement (.movsReadTc com t dst) := .inl ⟨rfl, rfl⟩
theorem Sys2Proof.Laws.OneEncoding.movsWriteTc (com : Com) (t : BitVec 4) (a : Opnd) :
    Laws.OneEncoding.Statement (.movsWriteTc com t a) := .inl ⟨rfl, rfl⟩
theorem Sys2Proof.Laws.OneEncoding.bsel (x : Vec3) :
    Laws.OneEncoding.Statement (.bsel x) := .inl ⟨rfl, rfl⟩
theorem Sys2Proof.Laws.OneEncoding.csrr (com : Com) (reg : BitVec 12) (dst : Opnd) :
    Laws.OneEncoding.Statement (.csrr com reg dst) := .inl ⟨rfl, rfl⟩
theorem Sys2Proof.Laws.OneEncoding.csrw (com : Com) (reg : BitVec 12) (a : Opnd) :
    Laws.OneEncoding.Statement (.csrw com reg a) := .inl ⟨rfl, rfl⟩
theorem Sys2Proof.Laws.OneEncoding.csrwSet (com : Com) (reg : BitVec 12) (a : Opnd) :
    Laws.OneEncoding.Statement (.csrwSet com reg a) := .inl ⟨rfl, rfl⟩
theorem Sys2Proof.Laws.OneEncoding.csrwClr (com : Com) (reg : BitVec 12) (a : Opnd) :
    Laws.OneEncoding.Statement (.csrwClr com reg a) := .inl ⟨rfl, rfl⟩
theorem Sys2Proof.Laws.OneEncoding.fadd (x : Vec2) (rnd : Rnd) :
    Laws.OneEncoding.Statement (.fadd x rnd) := .inl ⟨rfl, rfl⟩
theorem Sys2Proof.Laws.OneEncoding.fsub (x : Vec2) (rnd : Rnd) :
    Laws.OneEncoding.Statement (.fsub x rnd) := .inl ⟨rfl, rfl⟩
theorem Sys2Proof.Laws.OneEncoding.fmul (x : Vec2) (rnd : Rnd) :
    Laws.OneEncoding.Statement (.fmul x rnd) := .inl ⟨rfl, rfl⟩
theorem Sys2Proof.Laws.OneEncoding.ffma (x : Vec3) (rnd : Rnd) :
    Laws.OneEncoding.Statement (.ffma x rnd) := .inl ⟨rfl, rfl⟩
theorem Sys2Proof.Laws.OneEncoding.fmin (x : Vec2) :
    Laws.OneEncoding.Statement (.fmin x) := .inl ⟨rfl, rfl⟩
theorem Sys2Proof.Laws.OneEncoding.fmax (x : Vec2) :
    Laws.OneEncoding.Statement (.fmax x) := .inl ⟨rfl, rfl⟩
theorem Sys2Proof.Laws.OneEncoding.fcmp (x : Vec2) (c : FCond) :
    Laws.OneEncoding.Statement (.fcmp x c) := .inl ⟨rfl, rfl⟩
theorem Sys2Proof.Laws.OneEncoding.fclass (x : Vec1) (r : Reading) (elem : BitVec 6) :
    Laws.OneEncoding.Statement (.fclass x r elem) := .inl ⟨rfl, rfl⟩
theorem Sys2Proof.Laws.OneEncoding.fscale (x : Vec2) (rnd : Rnd) :
    Laws.OneEncoding.Statement (.fscale x rnd) := .inl ⟨rfl, rfl⟩
theorem Sys2Proof.Laws.OneEncoding.frnd (x : Vec1) (rnd : Rnd) :
    Laws.OneEncoding.Statement (.frnd x rnd) := .inl ⟨rfl, rfl⟩
theorem Sys2Proof.Laws.OneEncoding.cvt (x : Vec2) (src : Ty) (rnd : Rnd) (r : Reading) :
    Laws.OneEncoding.Statement (.cvt x src rnd r) := .inl ⟨rfl, rfl⟩
theorem Sys2Proof.Laws.OneEncoding.pack (x : Vec3) (rnd : Rnd) (r : Reading) :
    Laws.OneEncoding.Statement (.pack x rnd r) := .inl ⟨rfl, rfl⟩
theorem Sys2Proof.Laws.OneEncoding.unpack (x : Vec1) (r : Reading) (elem : BitVec 6) :
    Laws.OneEncoding.Statement (.unpack x r elem) := .inl ⟨rfl, rfl⟩
theorem Sys2Proof.Laws.OneEncoding.bscale (x : Vec3) (r : Reading) :
    Laws.OneEncoding.Statement (.bscale x r) := .inl ⟨rfl, rfl⟩
theorem Sys2Proof.Laws.OneEncoding.pairP96 (com : Com) (ha hb : PairHalf) :
    Laws.OneEncoding.Statement (.pairP96 com ha hb) := .inl ⟨rfl, rfl⟩
theorem Sys2Proof.Laws.OneEncoding.tblLoad (com : Com) (wide : Bool) (slot : BitVec 4) (dst : Opnd) (m : MemOp) :
    Laws.OneEncoding.Statement (.tblLoad com wide slot dst m) := .inl ⟨rfl, rfl⟩
theorem Sys2Proof.Laws.OneEncoding.tblLoadComplete (core tag : Nat) :
    Laws.OneEncoding.Statement (.tblLoadComplete core tag) := .inl ⟨rfl, rfl⟩
theorem Sys2Proof.Laws.OneEncoding.tblCommit (com : Com) (slot : BitVec 4) (dst : Opnd) :
    Laws.OneEncoding.Statement (.tblCommit com slot dst) := .inl ⟨rfl, rfl⟩
theorem Sys2Proof.Laws.OneEncoding.tblEval (com : Com) (ty : Ty) (rnd : Rnd) (slot : BitVec 4) (dst a : Opnd) :
    Laws.OneEncoding.Statement (.tblEval com ty rnd slot dst a) := .inl ⟨rfl, rfl⟩
theorem Sys2Proof.Laws.OneEncoding.tblQuery (com : Com) (ver : Bool) (slot : BitVec 4) (dst : Opnd) :
    Laws.OneEncoding.Statement (.tblQuery com ver slot dst) := .inl ⟨rfl, rfl⟩
theorem Sys2Proof.Laws.OneEncoding.tblDrop (com : Com) (sh : Bool) (slot : BitVec 4) :
    Laws.OneEncoding.Statement (.tblDrop com sh slot) := .inl ⟨rfl, rfl⟩
theorem Sys2Proof.Laws.OneEncoding.entryFill (core : Nat) :
    Laws.OneEncoding.Statement (.entryFill core) := .inl ⟨rfl, rfl⟩
theorem Sys2Proof.Laws.OneEncoding.issueSelect (core : Nat) :
    Laws.OneEncoding.Statement (.issueSelect core) := .inl ⟨rfl, rfl⟩
theorem Sys2Proof.Laws.OneEncoding.entryPromote (core : Nat) :
    Laws.OneEncoding.Statement (.entryPromote core) := .inl ⟨rfl, rfl⟩
theorem Sys2Proof.Laws.OneEncoding.entryEvict (core entry : Nat) :
    Laws.OneEncoding.Statement (.entryEvict core entry) := .inl ⟨rfl, rfl⟩
theorem Sys2Proof.Laws.OneEncoding.shfl (com : Com) (mode : ShflMode) (k : BitVec 5) (wide : Bool) (dst a : Opnd) (mask : Word) :
    Laws.OneEncoding.Statement (.shfl com mode k wide dst a mask) := .inl ⟨rfl, rfl⟩
theorem Sys2Proof.Laws.OneEncoding.vote (com : Com) (form : VoteForm) (dst a : Opnd) (mask : Word) :
    Laws.OneEncoding.Statement (.vote com form dst a mask) := .inl ⟨rfl, rfl⟩
theorem Sys2Proof.Laws.OneEncoding.matchKey (com : Com) (wide : Bool) (dst a : Opnd) (mask : Word) :
    Laws.OneEncoding.Statement (.matchKey com wide dst a mask) := .inl ⟨rfl, rfl⟩
theorem Sys2Proof.Laws.OneEncoding.sred (com : Com) (op : SquadOp) (dst a : Opnd) (mask : Word) :
    Laws.OneEncoding.Statement (.sred com op dst a mask) := .inl ⟨rfl, rfl⟩
theorem Sys2Proof.Laws.OneEncoding.sscan (com : Com) (op : SquadOp) (excl : Bool) (dst a : Opnd) (mask : Word) :
    Laws.OneEncoding.Statement (.sscan com op excl dst a mask) := .inl ⟨rfl, rfl⟩
theorem Sys2Proof.Laws.OneEncoding.ssync (com : Com) (mask : Word) :
    Laws.OneEncoding.Statement (.ssync com mask) := .inl ⟨rfl, rfl⟩
theorem Sys2Proof.Laws.OneEncoding.ddot (com : Com) (out : Out) (x8 aUns bUns sat : Bool) (a b c : Opnd) :
    Laws.OneEncoding.Statement (.ddot com out x8 aUns bUns sat a b c) := .inl ⟨rfl, rfl⟩
theorem Sys2Proof.Laws.OneEncoding.dham (x : Vec2) :
    Laws.OneEncoding.Statement (.dham x) := .inl ⟨rfl, rfl⟩
theorem Sys2Proof.Laws.OneEncoding.dl2 (com : Com) (out : Out) (rnd : Rnd) (r : Reading) (a b c : Opnd) :
    Laws.OneEncoding.Statement (.dl2 com out rnd r a b c) := .inl ⟨rfl, rfl⟩
theorem Sys2Proof.Laws.OneEncoding.selInit (com : Com) (key : SelKey) (max : Bool) (c : BitVec 2) (dst a : Opnd) :
    Laws.OneEncoding.Statement (.selInit com key max c dst a) := .inl ⟨rfl, rfl⟩
theorem Sys2Proof.Laws.OneEncoding.selPush (com : Com) (c : BitVec 2) (a b : Opnd) :
    Laws.OneEncoding.Statement (.selPush com c a b) := .inl ⟨rfl, rfl⟩
theorem Sys2Proof.Laws.OneEncoding.selDrain (com : Com) (form : DrainForm) (c : BitVec 2) (dst a : Opnd) :
    Laws.OneEncoding.Statement (.selDrain com form c dst a) := .inl ⟨rfl, rfl⟩
theorem Sys2Proof.Laws.OneEncoding.tcfg (com : Com) (td : BitVec 4) (src : SrcB) :
    Laws.OneEncoding.Statement (.tcfg com td src) := .inl ⟨rfl, rfl⟩
theorem Sys2Proof.Laws.OneEncoding.tzero (com : Com) (all : Bool) (td : BitVec 4) (dst : Opnd) :
    Laws.OneEncoding.Statement (.tzero com all td dst) := .inl ⟨rfl, rfl⟩
theorem Sys2Proof.Laws.OneEncoding.tld (com : Com) (td : BitVec 4) (dst rec coord : Opnd) :
    Laws.OneEncoding.Statement (.tld com td dst rec coord) := .inl ⟨rfl, rfl⟩
theorem Sys2Proof.Laws.OneEncoding.tst (com : Com) (td : BitVec 4) (rnd : Rnd) (sat : Bool) (dst rec coord : Opnd) :
    Laws.OneEncoding.Statement (.tst com td rnd sat dst rec coord) := .inl ⟨rfl, rfl⟩
theorem Sys2Proof.Laws.OneEncoding.mma (com : Com) (td ta tb : BitVec 4) (c : AccSrc) (acc : AccFmt) (sigma : Option Opnd) (k : BitVec 10) (dst : Opnd) :
    Laws.OneEncoding.Statement (.mma com td ta tb c acc sigma k dst) := .inl ⟨rfl, rfl⟩
theorem Sys2Proof.Laws.OneEncoding.mmat (com : Com) (td ta tb : BitVec 4) (c : AccSrc) (k : BitVec 10) (dst : Opnd) :
    Laws.OneEncoding.Statement (.mmat com td ta tb c k dst) := .inl ⟨rfl, rfl⟩
theorem Sys2Proof.Laws.OneEncoding.mmap (com : Com) (td ta : BitVec 4) (dst row : Opnd) :
    Laws.OneEncoding.Statement (.mmap com td ta dst row) := .inl ⟨rfl, rfl⟩
theorem Sys2Proof.Laws.OneEncoding.trow (com : Com) (form : TrowForm) (td : BitVec 4) (data off : Opnd) (imm : Word) :
    Laws.OneEncoding.Statement (.trow com form td data off imm) := .inl ⟨rfl, rfl⟩
theorem Sys2Proof.Laws.OneEncoding.tchk (com : Com) (clr : Bool) (dst : Opnd) :
    Laws.OneEncoding.Statement (.tchk com clr dst) := .inl ⟨rfl, rfl⟩
theorem Sys2Proof.Laws.OneEncoding.matrixOpComplete (core : Nat) (outcome : ChecksumOutcome) :
    Laws.OneEncoding.Statement (.matrixOpComplete core outcome) := .inl ⟨rfl, rfl⟩
theorem Sys2Proof.Laws.OneEncoding.ld (com : Com) (ty : Ty) (quad : Bool) (ord : MemOrd) (dst : Opnd) (m : MemOp) :
    Laws.OneEncoding.Statement (.ld com ty quad ord dst m) := .inl ⟨rfl, rfl⟩
theorem Sys2Proof.Laws.OneEncoding.st (com : Com) (ty : Ty) (quad : Bool) (ord : MemOrd) (src : Opnd) (m : MemOp) :
    Laws.OneEncoding.Statement (.st com ty quad ord src m) := .inl ⟨rfl, rfl⟩
theorem Sys2Proof.Laws.OneEncoding.ldg (com : Com) (ty : Ty) (cnt : BitVec 2) (ord : MemOrd) (dst : Opnd) (m : MemOp) :
    Laws.OneEncoding.Statement (.ldg com ty cnt ord dst m) := .inl ⟨rfl, rfl⟩
theorem Sys2Proof.Laws.OneEncoding.sct (com : Com) (ty : Ty) (cnt : BitVec 2) (ord : MemOrd) (src : Opnd) (m : MemOp) :
    Laws.OneEncoding.Statement (.sct com ty cnt ord src m) := .inl ⟨rfl, rfl⟩
theorem Sys2Proof.Laws.OneEncoding.atom (com : Com) (op : AtomOp) (ty : Ty) (ord : MemOrd) (dst : Opnd) (c : Opnd) (m : MemOp) :
    Laws.OneEncoding.Statement (.atom com op ty ord dst c m) := .inl ⟨rfl, rfl⟩
theorem Sys2Proof.Laws.OneEncoding.red (com : Com) (op : AtomOp) (ty : Ty) (ord : MemOrd) (src : Opnd) (m : MemOp) :
    Laws.OneEncoding.Statement (.red com op ty ord src m) := .inl ⟨rfl, rfl⟩
theorem Sys2Proof.Laws.OneEncoding.amaxsw (com : Com) (ord : MemOrd) (dst : Opnd) (m : MemOp) :
    Laws.OneEncoding.Statement (.amaxsw com ord dst m) := .inl ⟨rfl, rfl⟩
theorem Sys2Proof.Laws.OneEncoding.pendingCheck (core entry : Nat) :
    Laws.OneEncoding.Statement (.pendingCheck core entry) := .inl ⟨rfl, rfl⟩
theorem Sys2Proof.Laws.OneEncoding.fence (com : Com) (k : OrdKind) (sc : Scope) :
    Laws.OneEncoding.Statement (.fence com k sc) := .inl ⟨rfl, rfl⟩
theorem Sys2Proof.Laws.OneEncoding.cctlIi (com : Com) (m : MemOp) :
    Laws.OneEncoding.Statement (.cctlIi com m) := .inl ⟨rfl, rfl⟩
theorem Sys2Proof.Laws.OneEncoding.cctlEv (com : Com) (m : MemOp) :
    Laws.OneEncoding.Statement (.cctlEv com m) := .inl ⟨rfl, rfl⟩
theorem Sys2Proof.Laws.OneEncoding.pref (com : Com) (t : PrefTarget) (m : MemOp) :
    Laws.OneEncoding.Statement (.pref com t m) := .inl ⟨rfl, rfl⟩
theorem Sys2Proof.Laws.OneEncoding.stashMap (com : Com) (off cnt : Opnd) (m : MemOp) :
    Laws.OneEncoding.Statement (.stashMap com off cnt m) := .inl ⟨rfl, rfl⟩
theorem Sys2Proof.Laws.OneEncoding.stashMapUn (com : Com) (off cnt : Opnd) :
    Laws.OneEncoding.Statement (.stashMapUn com off cnt) := .inl ⟨rfl, rfl⟩
theorem Sys2Proof.Laws.OneEncoding.stashSync (com : Com) (inv : Bool) :
    Laws.OneEncoding.Statement (.stashSync com inv) := .inl ⟨rfl, rfl⟩
theorem Sys2Proof.Laws.OneEncoding.stashFill (core tag line : Nat) (store : Bool) :
    Laws.OneEncoding.Statement (.stashFill core tag line store) := .inl ⟨rfl, rfl⟩
theorem Sys2Proof.Laws.OneEncoding.racew (com : Com) (w : BitVec 3) (off : Bool) (len : Opnd) (m : MemOp) :
    Laws.OneEncoding.Statement (.racew com w off len m) := .inl ⟨rfl, rfl⟩
theorem Sys2Proof.Laws.OneEncoding.copy (com : Com) (dsp ssp : CopySpace) (rel : Bool) (ch : BitVec 3) (bidx : BitVec 12) (bytes : Word) (dst a b : Opnd) :
    Laws.OneEncoding.Statement (.copy com dsp ssp rel ch bidx bytes dst a b) := .inl ⟨rfl, rfl⟩
theorem Sys2Proof.Laws.OneEncoding.copyt (com : Com) (st clus rel : Bool) (ch : BitVec 3) (bidx : BitVec 12) (imm : Word) (dst a b : Opnd) :
    Laws.OneEncoding.Statement (.copyt com st clus rel ch bidx imm dst a b) := .inl ⟨rfl, rfl⟩
theorem Sys2Proof.Laws.OneEncoding.copyg (com : Com) (dsp ssp : CopySpace) (rel : Bool) (ch : BitVec 3) (bidx : BitVec 12) (rowb nrow : BitVec 16) (dst a b : Opnd) :
    Laws.OneEncoding.Statement (.copyg com dsp ssp rel ch bidx rowb nrow dst a b) := .inl ⟨rfl, rfl⟩
theorem Sys2Proof.Laws.OneEncoding.copyWriteGroup (core tag ch : Nat) :
    Laws.OneEncoding.Statement (.copyWriteGroup core tag ch) := .inl ⟨rfl, rfl⟩
theorem Sys2Proof.Laws.OneEncoding.engineOpComplete (core tag tl : Nat) :
    Laws.OneEncoding.Statement (.engineOpComplete core tag tl) := .inl ⟨rfl, rfl⟩
theorem Sys2Proof.Laws.OneEncoding.engineOpPark (core tag tl : Nat) :
    Laws.OneEncoding.Statement (.engineOpPark core tag tl) := .inl ⟨rfl, rfl⟩
theorem Sys2Proof.Laws.OneEncoding.engineOpCancel (core tag tl : Nat) :
    Laws.OneEncoding.Statement (.engineOpCancel core tag tl) := .inl ⟨rfl, rfl⟩
theorem Sys2Proof.Laws.OneEncoding.regionEntryRun (core tag : Nat) :
    Laws.OneEncoding.Statement (.regionEntryRun core tag) := .inl ⟨rfl, rfl⟩
theorem Sys2Proof.Laws.OneEncoding.stage (com : Com) (a : Opnd) (imm : Word) :
    Laws.OneEncoding.Statement (.stage com a imm) := .inl ⟨rfl, rfl⟩
theorem Sys2Proof.Laws.OneEncoding.barInit (com : Com) (leaf root : Bool) (src : Opnd) (m : MemOp) :
    Laws.OneEncoding.Statement (.barInit com leaf root src m) := .inl ⟨rfl, rfl⟩
theorem Sys2Proof.Laws.OneEncoding.barArrive (com : Com) (u : Bool) (dst : Opnd) (m : MemOp) :
    Laws.OneEncoding.Statement (.barArrive com u dst m) := .inl ⟨rfl, rfl⟩
theorem Sys2Proof.Laws.OneEncoding.barExpect (com : Com) (arr : Bool) (dst cnt : Opnd) (m : MemOp) :
    Laws.OneEncoding.Statement (.barExpect com arr dst cnt m) := .inl ⟨rfl, rfl⟩
theorem Sys2Proof.Laws.OneEncoding.barWait (com : Com) (src : Opnd) (m : MemOp) :
    Laws.OneEncoding.Statement (.barWait com src m) := .inl ⟨rfl, rfl⟩
theorem Sys2Proof.Laws.OneEncoding.barTest (com : Com) (dst : Opnd) (m : MemOp) :
    Laws.OneEncoding.Statement (.barTest com dst m) := .inl ⟨rfl, rfl⟩
theorem Sys2Proof.Laws.OneEncoding.tlwait (com : Com) (tl : BitVec 4) (a : Opnd) (imm : Word) :
    Laws.OneEncoding.Statement (.tlwait com tl a imm) := .inl ⟨rfl, rfl⟩
theorem Sys2Proof.Laws.OneEncoding.tlread (com : Com) (form : TlForm) (tl : BitVec 4) (dst : Opnd) :
    Laws.OneEncoding.Statement (.tlread com form tl dst) := .inl ⟨rfl, rfl⟩
theorem Sys2Proof.Laws.OneEncoding.tlsig (com : Com) (inc : Bool) (tl : BitVec 4) (a : Opnd) (imm : Word) :
    Laws.OneEncoding.Statement (.tlsig com inc tl a imm) := .inl ⟨rfl, rfl⟩
theorem Sys2Proof.Laws.OneEncoding.waitm (com : Com) (mask : BitVec 12) :
    Laws.OneEncoding.Statement (.waitm com mask) := .inl ⟨rfl, rfl⟩
theorem Sys2Proof.Laws.OneEncoding.launch (com : Com) (dst a b : Opnd) :
    Laws.OneEncoding.Statement (.launch com dst a b) := .inl ⟨rfl, rfl⟩
theorem Sys2Proof.Laws.OneEncoding.graphRun (com : Com) (dst a b : Opnd) :
    Laws.OneEncoding.Statement (.graphRun com dst a b) := .inl ⟨rfl, rfl⟩
theorem Sys2Proof.Laws.OneEncoding.graphPatch (com : Com) (a b c : Opnd) :
    Laws.OneEncoding.Statement (.graphPatch com a b c) := .inl ⟨rfl, rfl⟩
theorem Sys2Proof.Laws.OneEncoding.graphReplayRelease (part idx : Nat) :
    Laws.OneEncoding.Statement (.graphReplayRelease part idx) := .inl ⟨rfl, rfl⟩
theorem Sys2Proof.Laws.OneEncoding.graphReplayComplete (part idx : Nat) :
    Laws.OneEncoding.Statement (.graphReplayComplete part idx) := .inl ⟨rfl, rfl⟩
theorem Sys2Proof.Laws.OneEncoding.dependenceRead (part launch : Nat) :
    Laws.OneEncoding.Statement (.dependenceRead part launch) := .inl ⟨rfl, rfl⟩
theorem Sys2Proof.Laws.OneEncoding.blockAdmit (part launch : Nat) (place : Placement) :
    Laws.OneEncoding.Statement (.blockAdmit part launch place) := .inl ⟨rfl, rfl⟩
theorem Sys2Proof.Laws.OneEncoding.gridComplete (part grid : Nat) :
    Laws.OneEncoding.Statement (.gridComplete part grid) := .inl ⟨rfl, rfl⟩
theorem Sys2Proof.Laws.OneEncoding.collStart (com : Com) (dst a : Opnd) :
    Laws.OneEncoding.Statement (.collStart com dst a) := .inl ⟨rfl, rfl⟩
theorem Sys2Proof.Laws.OneEncoding.nbLoad (com : Com) (all : Bool) (dst a b c : Opnd) :
    Laws.OneEncoding.Statement (.nbLoad com all dst a b c) := .inl ⟨rfl, rfl⟩
theorem Sys2Proof.Laws.OneEncoding.nbRun (com : Com) (dst a b c : Opnd) :
    Laws.OneEncoding.Statement (.nbRun com dst a b c) := .inl ⟨rfl, rfl⟩
theorem Sys2Proof.Laws.OneEncoding.ferryLoad (com : Com) (dst a b c : Opnd) :
    Laws.OneEncoding.Statement (.ferryLoad com dst a b c) := .inl ⟨rfl, rfl⟩
theorem Sys2Proof.Laws.OneEncoding.ferryBind (com : Com) (dst a b c : Opnd) :
    Laws.OneEncoding.Statement (.ferryBind com dst a b c) := .inl ⟨rfl, rfl⟩
theorem Sys2Proof.Laws.OneEncoding.ferryUnbind (com : Com) (dst a b : Opnd) :
    Laws.OneEncoding.Statement (.ferryUnbind com dst a b) := .inl ⟨rfl, rfl⟩
theorem Sys2Proof.Laws.OneEncoding.ferryUnbindKern (com : Com) (dst a b : Opnd) :
    Laws.OneEncoding.Statement (.ferryUnbindKern com dst a b) := .inl ⟨rfl, rfl⟩
theorem Sys2Proof.Laws.OneEncoding.trap (com : Com) (code : BitVec 6) (dst a : Opnd) :
    Laws.OneEncoding.Statement (.trap com code dst a) := .inl ⟨rfl, rfl⟩
theorem Sys2Proof.Laws.OneEncoding.tretRep (com : Com) (dst a b : Opnd) :
    Laws.OneEncoding.Statement (.tretRep com dst a b) := .inl ⟨rfl, rfl⟩
theorem Sys2Proof.Laws.OneEncoding.tretSkip (com : Com) (dst a b : Opnd) :
    Laws.OneEncoding.Statement (.tretSkip com dst a b) := .inl ⟨rfl, rfl⟩
theorem Sys2Proof.Laws.OneEncoding.tretKill (com : Com) (dst a b : Opnd) :
    Laws.OneEncoding.Statement (.tretKill com dst a b) := .inl ⟨rfl, rfl⟩
theorem Sys2Proof.Laws.OneEncoding.tretCan (com : Com) (dst a b : Opnd) :
    Laws.OneEncoding.Statement (.tretCan com dst a b) := .inl ⟨rfl, rfl⟩
theorem Sys2Proof.Laws.OneEncoding.tretKillb (com : Com) (dst a b : Opnd) :
    Laws.OneEncoding.Statement (.tretKillb com dst a b) := .inl ⟨rfl, rfl⟩
theorem Sys2Proof.Laws.OneEncoding.tretPre (com : Com) (dst a b : Opnd) :
    Laws.OneEncoding.Statement (.tretPre com dst a b) := .inl ⟨rfl, rfl⟩
theorem Sys2Proof.Laws.OneEncoding.moor (com : Com) (dst : Opnd) :
    Laws.OneEncoding.Statement (.moor com dst) := .inl ⟨rfl, rfl⟩
theorem Sys2Proof.Laws.OneEncoding.tlbiVa (com : Com) (a b : Opnd) :
    Laws.OneEncoding.Statement (.tlbiVa com a b) := .inl ⟨rfl, rfl⟩
theorem Sys2Proof.Laws.OneEncoding.tlbiAll (com : Com) :
    Laws.OneEncoding.Statement (.tlbiAll com) := .inl ⟨rfl, rfl⟩
theorem Sys2Proof.Laws.OneEncoding.harvest (com : Com) (dst a : Opnd) :
    Laws.OneEncoding.Statement (.harvest com dst a) := .inl ⟨rfl, rfl⟩
theorem Sys2Proof.Laws.OneEncoding.scrub (com : Com) (rel : Bool) (dst a b : Opnd) :
    Laws.OneEncoding.Statement (.scrub com rel dst a b) := .inl ⟨rfl, rfl⟩
theorem Sys2Proof.Laws.OneEncoding.evpost (com : Com) (fd : Bool) (code : BitVec 16) (dst a : Opnd) :
    Laws.OneEncoding.Statement (.evpost com fd code dst a) := .inl ⟨rfl, rfl⟩
theorem Sys2Proof.Laws.OneEncoding.recordWrite (part ring : Nat) :
    Laws.OneEncoding.Statement (.recordWrite part ring) := .inl ⟨rfl, rfl⟩
theorem Sys2Proof.Laws.OneEncoding.ringConsPoll (part ring : Nat) :
    Laws.OneEncoding.Statement (.ringConsPoll part ring) := .inl ⟨rfl, rfl⟩
theorem Sys2Proof.Laws.OneEncoding.preemptRequest (part tag : Nat) :
    Laws.OneEncoding.Statement (.preemptRequest part tag) := .inl ⟨rfl, rfl⟩
theorem Sys2Proof.Laws.OneEncoding.blockQuiesceSave (part tag : Nat) :
    Laws.OneEncoding.Statement (.blockQuiesceSave part tag) := .inl ⟨rfl, rfl⟩
theorem Sys2Proof.Laws.OneEncoding.blockRestore (part tag : Nat) (place : Placement) :
    Laws.OneEncoding.Statement (.blockRestore part tag place) := .inl ⟨rfl, rfl⟩
theorem Sys2Proof.Laws.OneEncoding.rungDevice :
    Laws.OneEncoding.Statement .rungDevice := .inl ⟨rfl, rfl⟩
theorem Sys2Proof.Laws.OneEncoding.clf (stack : Nat) (p : Packet) :
    Laws.OneEncoding.Statement (.clf stack p) := .inl ⟨rfl, rfl⟩
theorem Sys2Proof.Laws.OneEncoding.ferryInvoke (stack ferry : Nat) :
    Laws.OneEncoding.Statement (.ferryInvoke stack ferry) := .inl ⟨rfl, rfl⟩
theorem Sys2Proof.Laws.OneEncoding.vadd (d a b : Fin 16) (m : Fin 4) (sat : Bool) (rnd : FRnd) (ty : FTy) :
    Laws.OneEncoding.Statement (.vadd d a b m sat rnd ty) := .inr (.inl ⟨rfl, rfl⟩)
theorem Sys2Proof.Laws.OneEncoding.vsub (d a b : Fin 16) (m : Fin 4) (sat : Bool) (rnd : FRnd) (ty : FTy) :
    Laws.OneEncoding.Statement (.vsub d a b m sat rnd ty) := .inr (.inl ⟨rfl, rfl⟩)
theorem Sys2Proof.Laws.OneEncoding.vmul (d a b : Fin 16) (m : Fin 4) (rnd : FRnd) (ty : FTy) :
    Laws.OneEncoding.Statement (.vmul d a b m rnd ty) := .inr (.inl ⟨rfl, rfl⟩)
theorem Sys2Proof.Laws.OneEncoding.vfma (d a b : Fin 16) (m : Fin 4) (rnd : FRnd) (ty : FTy) :
    Laws.OneEncoding.Statement (.vfma d a b m rnd ty) := .inr (.inl ⟨rfl, rfl⟩)
theorem Sys2Proof.Laws.OneEncoding.vmin (d a b : Fin 16) (m : Fin 4) (ty : FTy) :
    Laws.OneEncoding.Statement (.vmin d a b m ty) := .inr (.inl ⟨rfl, rfl⟩)
theorem Sys2Proof.Laws.OneEncoding.vmax (d a b : Fin 16) (m : Fin 4) (ty : FTy) :
    Laws.OneEncoding.Statement (.vmax d a b m ty) := .inr (.inl ⟨rfl, rfl⟩)
theorem Sys2Proof.Laws.OneEncoding.vand (d a b : Fin 16) (m : Fin 4) :
    Laws.OneEncoding.Statement (.vand d a b m) := .inr (.inl ⟨rfl, rfl⟩)
theorem Sys2Proof.Laws.OneEncoding.vor (d a b : Fin 16) (m : Fin 4) :
    Laws.OneEncoding.Statement (.vor d a b m) := .inr (.inl ⟨rfl, rfl⟩)
theorem Sys2Proof.Laws.OneEncoding.vxor (d a b : Fin 16) (m : Fin 4) :
    Laws.OneEncoding.Statement (.vxor d a b m) := .inr (.inl ⟨rfl, rfl⟩)
theorem Sys2Proof.Laws.OneEncoding.vshl (d a b : Fin 16) (m : Fin 4) (half : Bool) :
    Laws.OneEncoding.Statement (.vshl d a b m half) := .inr (.inl ⟨rfl, rfl⟩)
theorem Sys2Proof.Laws.OneEncoding.vshr (d a b : Fin 16) (m : Fin 4) (arith half : Bool) :
    Laws.OneEncoding.Statement (.vshr d a b m arith half) := .inr (.inl ⟨rfl, rfl⟩)
theorem Sys2Proof.Laws.OneEncoding.vsel (d a b : Fin 16) (m sel : Fin 4) :
    Laws.OneEncoding.Statement (.vsel d a b m sel) := .inr (.inl ⟨rfl, rfl⟩)
theorem Sys2Proof.Laws.OneEncoding.vcmp (fm : Fin 4) (a b : Fin 16) (m : Fin 4) (c : FvCond) (flt : Bool) :
    Laws.OneEncoding.Statement (.vcmp fm a b m c flt) := .inr (.inl ⟨rfl, rfl⟩)
theorem Sys2Proof.Laws.OneEncoding.vcvt (d a b : Fin 16) (m : Fin 4) (form : FvCvt) :
    Laws.OneEncoding.Statement (.vcvt d a b m form) := .inr (.inl ⟨rfl, rfl⟩)
theorem Sys2Proof.Laws.OneEncoding.vbcast (d a : Fin 16) (m : Fin 4) :
    Laws.OneEncoding.Statement (.vbcast d a m) := .inr (.inl ⟨rfl, rfl⟩)
theorem Sys2Proof.Laws.OneEncoding.vred (d a : Fin 16) (m : Fin 4) (op : FvRed) (flt : Bool) :
    Laws.OneEncoding.Statement (.vred d a m op flt) := .inr (.inl ⟨rfl, rfl⟩)
theorem Sys2Proof.Laws.OneEncoding.feval (d a : Fin 16) (m : Fin 4) (table bf16 : Bool) :
    Laws.OneEncoding.Statement (.feval d a m table bf16) := .inr (.inl ⟨rfl, rfl⟩)
theorem Sys2Proof.Laws.OneEncoding.sadd (d a : Fin 16) (b : FSrc) :
    Laws.OneEncoding.Statement (.sadd d a b) := .inr (.inl ⟨rfl, rfl⟩)
theorem Sys2Proof.Laws.OneEncoding.ssub (d a : Fin 16) (b : FSrc) :
    Laws.OneEncoding.Statement (.ssub d a b) := .inr (.inl ⟨rfl, rfl⟩)
theorem Sys2Proof.Laws.OneEncoding.sand (d a : Fin 16) (b : FSrc) :
    Laws.OneEncoding.Statement (.sand d a b) := .inr (.inl ⟨rfl, rfl⟩)
theorem Sys2Proof.Laws.OneEncoding.sor (d a : Fin 16) (b : FSrc) :
    Laws.OneEncoding.Statement (.sor d a b) := .inr (.inl ⟨rfl, rfl⟩)
theorem Sys2Proof.Laws.OneEncoding.sshl (d a : Fin 16) (b : FSrc) :
    Laws.OneEncoding.Statement (.sshl d a b) := .inr (.inl ⟨rfl, rfl⟩)
theorem Sys2Proof.Laws.OneEncoding.sshr (d a : Fin 16) (b : FSrc) :
    Laws.OneEncoding.Statement (.sshr d a b) := .inr (.inl ⟨rfl, rfl⟩)
theorem Sys2Proof.Laws.OneEncoding.smovi (d : Fin 16) (high : Bool) (imm : Fin 65536) :
    Laws.OneEncoding.Statement (.smovi d high imm) := .inr (.inl ⟨rfl, rfl⟩)
theorem Sys2Proof.Laws.OneEncoding.br (c : FbCond) (a b : Fin 16) (disp : Fin 1024) :
    Laws.OneEncoding.Statement (.br c a b disp) := .inr (.inl ⟨rfl, rfl⟩)
theorem Sys2Proof.Laws.OneEncoding.brm (c : FmCond) (fm : Fin 4) (disp : Fin 1024) :
    Laws.OneEncoding.Statement (.brm c fm disp) := .inr (.inl ⟨rfl, rfl⟩)
theorem Sys2Proof.Laws.OneEncoding.rep (countM1 : Fin 1024) (x : Option (Fin 16)) (len : Fin 1024) :
    Laws.OneEncoding.Statement (.rep countM1 x len) := .inr (.inl ⟨rfl, rfl⟩)
theorem Sys2Proof.Laws.OneEncoding.ftrap (a : Fin 16) (code : Fin 64) :
    Laws.OneEncoding.Statement (.ftrap a code) := .inr (.inl ⟨rfl, rfl⟩)
theorem Sys2Proof.Laws.OneEncoding.fwd :
    Laws.OneEncoding.Statement .fwd := .inr (.inl ⟨rfl, rfl⟩)
theorem Sys2Proof.Laws.OneEncoding.drop :
    Laws.OneEncoding.Statement .drop := .inr (.inl ⟨rfl, rfl⟩)
theorem Sys2Proof.Laws.OneEncoding.emit :
    Laws.OneEncoding.Statement .emit := .inr (.inl ⟨rfl, rfl⟩)
theorem Sys2Proof.Laws.OneEncoding.pset (a : Fin 16) (fld : PktField) :
    Laws.OneEncoding.Statement (.pset a fld) := .inr (.inl ⟨rfl, rfl⟩)
theorem Sys2Proof.Laws.OneEncoding.pld (d a : Fin 16) (v : Bool) (off : Fin 4096) :
    Laws.OneEncoding.Statement (.pld d a v off) := .inr (.inl ⟨rfl, rfl⟩)
theorem Sys2Proof.Laws.OneEncoding.pst (d a : Fin 16) (v : Bool) (off : Fin 4096) :
    Laws.OneEncoding.Statement (.pst d a v off) := .inr (.inl ⟨rfl, rfl⟩)
theorem Sys2Proof.Laws.OneEncoding.sld (d a : Fin 16) (v : Bool) (off : Fin 4096) :
    Laws.OneEncoding.Statement (.sld d a v off) := .inr (.inl ⟨rfl, rfl⟩)
theorem Sys2Proof.Laws.OneEncoding.sst (d a : Fin 16) (v : Bool) (off : Fin 4096) :
    Laws.OneEncoding.Statement (.sst d a v off) := .inr (.inl ⟨rfl, rfl⟩)
theorem Sys2Proof.Laws.OneEncoding.nbRunStart (unit : Nat) :
    Laws.OneEncoding.Statement (.nbRunStart unit) := .inl ⟨rfl, rfl⟩
theorem Sys2Proof.Laws.OneEncoding.nbRowStep (unit : Nat) (waiting : Bool) :
    Laws.OneEncoding.Statement (.nbRowStep unit waiting) := .inl ⟨rfl, rfl⟩
theorem Sys2Proof.Laws.OneEncoding.nbResume (unit : Nat) :
    Laws.OneEncoding.Statement (.nbResume unit) := .inl ⟨rfl, rfl⟩
theorem Sys2Proof.Laws.OneEncoding.nbForcedStep (unit : Nat) :
    Laws.OneEncoding.Statement (.nbForcedStep unit) := .inl ⟨rfl, rfl⟩
theorem Sys2Proof.Laws.OneEncoding.nbImageLoadComplete (part stack slot : Nat) :
    Laws.OneEncoding.Statement (.nbImageLoadComplete part stack slot) := .inl ⟨rfl, rfl⟩
theorem Sys2Proof.Laws.OneEncoding.nbnop (c : NbCond) :
    Laws.OneEncoding.Statement (.nbnop c) := .inr (.inr ⟨rfl, rfl⟩)
theorem Sys2Proof.Laws.OneEncoding.nbld (d s : Fin 4) (c : NbCond) :
    Laws.OneEncoding.Statement (.nbld d s c) := .inr (.inr ⟨rfl, rfl⟩)
theorem Sys2Proof.Laws.OneEncoding.nbst (a s : Fin 4) (c : NbCond) :
    Laws.OneEncoding.Statement (.nbst a s c) := .inr (.inr ⟨rfl, rfl⟩)
theorem Sys2Proof.Laws.OneEncoding.nbzero (d : Fin 4) (c : NbCond) :
    Laws.OneEncoding.Statement (.nbzero d c) := .inr (.inr ⟨rfl, rfl⟩)
theorem Sys2Proof.Laws.OneEncoding.nbadd (d a b : Fin 4) (k : Bool) (ty : NbTy) (rnd : FRnd) (c : NbCond) :
    Laws.OneEncoding.Statement (.nbadd d a b k ty rnd c) := .inr (.inr ⟨rfl, rfl⟩)
theorem Sys2Proof.Laws.OneEncoding.nbsub (d a b : Fin 4) (k : Bool) (ty : NbTy) (rnd : FRnd) (c : NbCond) :
    Laws.OneEncoding.Statement (.nbsub d a b k ty rnd c) := .inr (.inr ⟨rfl, rfl⟩)
theorem Sys2Proof.Laws.OneEncoding.nbmul (d a b : Fin 4) (k : Bool) (ty : NbTy) (rnd : FRnd) (c : NbCond) :
    Laws.OneEncoding.Statement (.nbmul d a b k ty rnd c) := .inr (.inr ⟨rfl, rfl⟩)
theorem Sys2Proof.Laws.OneEncoding.nbfma (d a b : Fin 4) (k : Bool) (ty : NbTy) (rnd : FRnd) (c : NbCond) :
    Laws.OneEncoding.Statement (.nbfma d a b k ty rnd c) := .inr (.inr ⟨rfl, rfl⟩)
theorem Sys2Proof.Laws.OneEncoding.nbmin (d a b : Fin 4) (k : Bool) (ty : NbTy) (c : NbCond) :
    Laws.OneEncoding.Statement (.nbmin d a b k ty c) := .inr (.inr ⟨rfl, rfl⟩)
theorem Sys2Proof.Laws.OneEncoding.nbmax (d a b : Fin 4) (k : Bool) (ty : NbTy) (c : NbCond) :
    Laws.OneEncoding.Statement (.nbmax d a b k ty c) := .inr (.inr ⟨rfl, rfl⟩)
theorem Sys2Proof.Laws.OneEncoding.nbfold (d a : Fin 4) (ty : NbTy) (rnd : FRnd) (c : NbCond) :
    Laws.OneEncoding.Statement (.nbfold d a ty rnd c) := .inr (.inr ⟨rfl, rfl⟩)
theorem Sys2Proof.Laws.OneEncoding.nbout (a slot : Fin 4) (c : NbCond) :
    Laws.OneEncoding.Statement (.nbout a slot c) := .inr (.inr ⟨rfl, rfl⟩)
theorem Sys2Proof.Laws.OneEncoding.collLegStart (part prog leg : Nat) :
    Laws.OneEncoding.Statement (.collLegStart part prog leg) := .inl ⟨rfl, rfl⟩
theorem Sys2Proof.Laws.OneEncoding.collTimeout (part prog : Nat) :
    Laws.OneEncoding.Statement (.collTimeout part prog) := .inl ⟨rfl, rfl⟩
theorem Sys2Proof.Laws.OneEncoding.collProgramComplete (part prog : Nat) :
    Laws.OneEncoding.Statement (.collProgramComplete part prog) := .inl ⟨rfl, rfl⟩
theorem Sys2Proof.Laws.OneEncoding.moorEntryEnd (part : Nat) :
    Laws.OneEncoding.Statement (.moorEntryEnd part) := .inl ⟨rfl, rfl⟩
theorem Sys2Proof.Laws.OneEncoding.partitionWake (part : Nat) :
    Laws.OneEncoding.Statement (.partitionWake part) := .inl ⟨rfl, rfl⟩
theorem Sys2Proof.Laws.OneEncoding.deviceStart (u : UnitParts) :
    Laws.OneEncoding.Statement (.deviceStart u) := .inl ⟨rfl, rfl⟩
theorem Sys2Proof.Laws.OneEncoding.xcpEvent :
    Laws.OneEncoding.Statement .xcpEvent := .inl ⟨rfl, rfl⟩
theorem Sys2Proof.Laws.OneEncoding.xcpEventResend :
    Laws.OneEncoding.Statement .xcpEventResend := .inl ⟨rfl, rfl⟩
theorem Sys2Proof.Laws.OneEncoding.ferryImageLoadComplete (op : Nat) :
    Laws.OneEncoding.Statement (.ferryImageLoadComplete op) := .inl ⟨rfl, rfl⟩
theorem Sys2Proof.Laws.OneEncoding.tlbiComplete (op : Nat) :
    Laws.OneEncoding.Statement (.tlbiComplete op) := .inl ⟨rfl, rfl⟩
theorem Sys2Proof.Laws.OneEncoding.scrubComplete (op : Nat) :
    Laws.OneEncoding.Statement (.scrubComplete op) := .inl ⟨rfl, rfl⟩
theorem Sys2Proof.Laws.OneEncoding.harvestComplete (op : Nat) :
    Laws.OneEncoding.Statement (.harvestComplete op) := .inl ⟨rfl, rfl⟩
theorem Sys2Proof.Laws.OneEncoding.demotionMark (core : Nat) :
    Laws.OneEncoding.Statement (.demotionMark core) := .inl ⟨rfl, rfl⟩
theorem Sys2Proof.Laws.OneEncoding.entrySwap (core entry : Nat) :
    Laws.OneEncoding.Statement (.entrySwap core entry) := .inl ⟨rfl, rfl⟩
theorem Sys2Proof.Laws.OneEncoding.candidateProtect (part launch : Nat) :
    Laws.OneEncoding.Statement (.candidateProtect part launch) := .inl ⟨rfl, rfl⟩
theorem Sys2Proof.Laws.OneEncoding.rotation (part grid : Nat) :
    Laws.OneEncoding.Statement (.rotation part grid) := .inl ⟨rfl, rfl⟩
theorem Sys2Proof.Laws.OneEncoding.migration (tag : Nat) :
    Laws.OneEncoding.Statement (.migration tag) := .inl ⟨rfl, rfl⟩
theorem Sys2Proof.Laws.OneEncoding.watchdogExpire (core : Nat) (cls : Nat) :
    Laws.OneEncoding.Statement (.watchdogExpire core cls) := .inl ⟨rfl, rfl⟩
theorem Sys2Proof.Laws.OneEncoding.rungQueue (part node : Nat) :
    Laws.OneEncoding.Statement (.rungQueue part node) := .inl ⟨rfl, rfl⟩
theorem Sys2Proof.Laws.OneEncoding.rungContext (part tag : Nat) :
    Laws.OneEncoding.Statement (.rungContext part tag) := .inl ⟨rfl, rfl⟩
theorem Sys2Proof.Laws.OneEncoding.rungEngine (core unit : Nat) :
    Laws.OneEncoding.Statement (.rungEngine core unit) := .inl ⟨rfl, rfl⟩
theorem Sys2Proof.Laws.OneEncoding.rungPartition (part : Nat) :
    Laws.OneEncoding.Statement (.rungPartition part) := .inl ⟨rfl, rfl⟩
theorem Sys2Proof.Laws.OneEncoding.rungTimeout (idx : Nat) :
    Laws.OneEncoding.Statement (.rungTimeout idx) := .inl ⟨rfl, rfl⟩
theorem Sys2Proof.Laws.OneEncoding.computeDieLost (die : Nat) :
    Laws.OneEncoding.Statement (.computeDieLost die) := .inl ⟨rfl, rfl⟩
theorem Sys2Proof.Laws.OneEncoding.rdl (p : Packet) :
    Laws.OneEncoding.Statement (.rdl p) := .inl ⟨rfl, rfl⟩
theorem Sys2Proof.Laws.OneEncoding.wrl (p : Packet) :
    Laws.OneEncoding.Statement (.wrl p) := .inl ⟨rfl, rfl⟩
theorem Sys2Proof.Laws.OneEncoding.atm (p : Packet) (op : AtomOp) (ty : Ty) :
    Laws.OneEncoding.Statement (.atm p op ty) := .inl ⟨rfl, rfl⟩
theorem Sys2Proof.Laws.OneEncoding.rdc (p : Packet) (op : AtomOp) (ty : Ty) :
    Laws.OneEncoding.Statement (.rdc p op ty) := .inl ⟨rfl, rfl⟩
theorem Sys2Proof.Laws.OneEncoding.amx (p : Packet) :
    Laws.OneEncoding.Statement (.amx p) := .inl ⟨rfl, rfl⟩
theorem Sys2Proof.Laws.OneEncoding.ctl (p : Packet) (store : Bool) :
    Laws.OneEncoding.Statement (.ctl p store) := .inl ⟨rfl, rfl⟩
theorem Sys2Proof.Laws.OneEncoding.vgt (p : Packet) :
    Laws.OneEncoding.Statement (.vgt p) := .inl ⟨rfl, rfl⟩
theorem Sys2Proof.Laws.OneEncoding.vsc (p : Packet) :
    Laws.OneEncoding.Statement (.vsc p) := .inl ⟨rfl, rfl⟩
theorem Sys2Proof.Laws.OneEncoding.fnc (p : Packet) :
    Laws.OneEncoding.Statement (.fnc p) := .inl ⟨rfl, rfl⟩
theorem Sys2Proof.Laws.OneEncoding.rsd (p : Packet) :
    Laws.OneEncoding.Statement (.rsd p) := .inl ⟨rfl, rfl⟩
theorem Sys2Proof.Laws.OneEncoding.rsa (p : Packet) :
    Laws.OneEncoding.Statement (.rsa p) := .inl ⟨rfl, rfl⟩
theorem Sys2Proof.Laws.OneEncoding.rse (p : Packet) :
    Laws.OneEncoding.Statement (.rse p) := .inl ⟨rfl, rfl⟩
theorem Sys2Proof.Laws.OneEncoding.pri (p : Packet) :
    Laws.OneEncoding.Statement (.pri p) := .inl ⟨rfl, rfl⟩
theorem Sys2Proof.Laws.OneEncoding.prs (p : Packet) :
    Laws.OneEncoding.Statement (.prs p) := .inl ⟨rfl, rfl⟩
theorem Sys2Proof.Laws.OneEncoding.wbk (p : Packet) :
    Laws.OneEncoding.Statement (.wbk p) := .inl ⟨rfl, rfl⟩
theorem Sys2Proof.Laws.OneEncoding.mgxTimestampSync (p : Packet) :
    Laws.OneEncoding.Statement (.mgxTimestampSync p) := .inl ⟨rfl, rfl⟩
theorem Sys2Proof.Laws.OneEncoding.mgxXcpForward (p : Packet) :
    Laws.OneEncoding.Statement (.mgxXcpForward p) := .inl ⟨rfl, rfl⟩
theorem Sys2Proof.Laws.OneEncoding.mgxJobGrantCheck (p : Packet) :
    Laws.OneEncoding.Statement (.mgxJobGrantCheck p) := .inl ⟨rfl, rfl⟩
theorem Sys2Proof.Laws.OneEncoding.flitCrcReplay (link : Nat) (flit : Nat) :
    Laws.OneEncoding.Statement (.flitCrcReplay link flit) := .inl ⟨rfl, rfl⟩
theorem Sys2Proof.Laws.OneEncoding.strelarFrameReceive (port : Nat) (frame : List Byte) :
    Laws.OneEncoding.Statement (.strelarFrameReceive port frame) := .inl ⟨rfl, rfl⟩
theorem Sys2Proof.Laws.OneEncoding.strelarRetrain (port : Nat) (lanes : Nat) :
    Laws.OneEncoding.Statement (.strelarRetrain port lanes) := .inl ⟨rfl, rfl⟩
theorem Sys2Proof.Laws.OneEncoding.remoteTimeout (txid : Nat) :
    Laws.OneEncoding.Statement (.remoteTimeout txid) := .inl ⟨rfl, rfl⟩
theorem Sys2Proof.Laws.OneEncoding.targetedRefresh (stack pch row part : Nat) :
    Laws.OneEncoding.Statement (.targetedRefresh stack pch row part) := .inl ⟨rfl, rfl⟩
theorem Sys2Proof.Laws.OneEncoding.clfHoldExpire (stack : Nat) :
    Laws.OneEncoding.Statement (.clfHoldExpire stack) := .inl ⟨rfl, rfl⟩
theorem Sys2Proof.Laws.OneEncoding.hailWrite (writer part : Nat) (payload : DWord) :
    Laws.OneEncoding.Statement (.hailWrite writer part payload) := .inl ⟨rfl, rfl⟩
theorem Sys2Proof.Laws.OneEncoding.wakeBoundMissed (part : Nat) :
    Laws.OneEncoding.Statement (.wakeBoundMissed part) := .inl ⟨rfl, rfl⟩
theorem Sys2Proof.Laws.OneEncoding.stackWakeAccess (stack : Nat) :
    Laws.OneEncoding.Statement (.stackWakeAccess stack) := .inl ⟨rfl, rfl⟩
theorem Sys2Proof.Laws.OneEncoding.stackSelfRefresh (stack : Nat) :
    Laws.OneEncoding.Statement (.stackSelfRefresh stack) := .inl ⟨rfl, rfl⟩
theorem Sys2Proof.Laws.OneEncoding.marginLend (cluster dest : Nat) :
    Laws.OneEncoding.Statement (.marginLend cluster dest) := .inl ⟨rfl, rfl⟩
theorem Sys2Proof.Laws.OneEncoding.marginRevoke (cluster : Nat) :
    Laws.OneEncoding.Statement (.marginRevoke cluster) := .inl ⟨rfl, rfl⟩
theorem Sys2Proof.Laws.OneEncoding.sharedTurnEnd (cluster : Nat) :
    Laws.OneEncoding.Statement (.sharedTurnEnd cluster) := .inl ⟨rfl, rfl⟩
theorem Sys2Proof.Laws.OneEncoding.coreReportTimeout (core : Nat) :
    Laws.OneEncoding.Statement (.coreReportTimeout core) := .inl ⟨rfl, rfl⟩
theorem Sys2Proof.Laws.OneEncoding.startFail (reason : Nat) :
    Laws.OneEncoding.Statement (.startFail reason) := .inl ⟨rfl, rfl⟩
theorem Sys2Proof.Laws.OneEncoding.hello (h : XcpHdr) (caps : BitVec 5) :
    Laws.OneEncoding.Statement (.hello h caps) := .inl ⟨rfl, rfl⟩
theorem Sys2Proof.Laws.OneEncoding.inventory (h : XcpHdr) :
    Laws.OneEncoding.Statement (.inventory h) := .inl ⟨rfl, rfl⟩
theorem Sys2Proof.Laws.OneEncoding.startrep (h : XcpHdr) :
    Laws.OneEncoding.Statement (.startrep h) := .inl ⟨rfl, rfl⟩
theorem Sys2Proof.Laws.OneEncoding.pcreate (h : XcpHdr) (part : Nat) (q : PartParams) :
    Laws.OneEncoding.Statement (.pcreate h part q) := .inl ⟨rfl, rfl⟩
theorem Sys2Proof.Laws.OneEncoding.pchange (h : XcpHdr) (part : Nat) (q : PartParams) :
    Laws.OneEncoding.Statement (.pchange h part q) := .inl ⟨rfl, rfl⟩
theorem Sys2Proof.Laws.OneEncoding.pdestroy (h : XcpHdr) (part : Nat) :
    Laws.OneEncoding.Statement (.pdestroy h part) := .inl ⟨rfl, rfl⟩
theorem Sys2Proof.Laws.OneEncoding.map (h : XcpHdr) (part : Nat) (l : List MapEntry) :
    Laws.OneEncoding.Statement (.map h part l) := .inl ⟨rfl, rfl⟩
theorem Sys2Proof.Laws.OneEncoding.jobgrant (h : XcpHdr) (g : JobGrant) :
    Laws.OneEncoding.Statement (.jobgrant h g) := .inl ⟨rfl, rfl⟩
theorem Sys2Proof.Laws.OneEncoding.xcpHail (h : XcpHdr) (part : Nat) (payload : DWord) :
    Laws.OneEncoding.Statement (.xcpHail h part payload) := .inl ⟨rfl, rfl⟩
theorem Sys2Proof.Laws.OneEncoding.xcpReset (h : XcpHdr) (rung target : Nat) :
    Laws.OneEncoding.Statement (.xcpReset h rung target) := .inl ⟨rfl, rfl⟩
theorem Sys2Proof.Laws.OneEncoding.rkey (h : XcpHdr) (key : Nat) (w : HostWindow) :
    Laws.OneEncoding.Statement (.rkey h key w) := .inl ⟨rfl, rfl⟩
theorem Sys2Proof.Laws.OneEncoding.topology (h : XcpHdr) (t : Topology) :
    Laws.OneEncoding.Statement (.topology h t) := .inl ⟨rfl, rfl⟩
theorem Sys2Proof.Laws.OneEncoding.pwrcap (h : XcpHdr) (watts : Nat) :
    Laws.OneEncoding.Statement (.pwrcap h watts) := .inl ⟨rfl, rfl⟩
theorem Sys2Proof.Laws.OneEncoding.telem (h : XcpHdr) :
    Laws.OneEncoding.Statement (.telem h) := .inl ⟨rfl, rfl⟩
theorem Sys2Proof.Laws.OneEncoding.attest (h : XcpHdr) (nonce : List Byte) :
    Laws.OneEncoding.Statement (.attest h nonce) := .inl ⟨rfl, rfl⟩
theorem Sys2Proof.Laws.OneEncoding.fwprov (h : XcpHdr) (off total : Nat) (chunk : List Byte) :
    Laws.OneEncoding.Statement (.fwprov h off total chunk) := .inl ⟨rfl, rfl⟩
theorem Sys2Proof.Laws.OneEncoding.xcpEventAck (src seq : Nat) :
    Laws.OneEncoding.Statement (.xcpEventAck src seq) := .inl ⟨rfl, rfl⟩
theorem Sys2Proof.Laws.OneEncoding.rdmaWrite (qp key addr : Nat) (data : List Byte) :
    Laws.OneEncoding.Statement (.rdmaWrite qp key addr data) := .inl ⟨rfl, rfl⟩
theorem Sys2Proof.Laws.OneEncoding.rdmaRead (qp key addr len : Nat) :
    Laws.OneEncoding.Statement (.rdmaRead qp key addr len) := .inl ⟨rfl, rfl⟩
theorem Sys2Proof.Laws.OneEncoding.thermalThrottle (die celsius : Nat) :
    Laws.OneEncoding.Statement (.thermalThrottle die celsius) := .inl ⟨rfl, rfl⟩
theorem Sys2Proof.Laws.OneEncoding.bootThreadRelease (core : Nat) (act : BootRelease) :
    Laws.OneEncoding.Statement (.bootThreadRelease core act) := .inl ⟨rfl, rfl⟩
theorem Sys2Proof.Laws.OneEncoding.coreReset (core : Nat) :
    Laws.OneEncoding.Statement (.coreReset core) := .inl ⟨rfl, rfl⟩
end

