-- ==== Sys2Proof/Tests/Slice0.lean ====
section
/-! SUPPORT. The author's own tests: words written out from the encodings of spec/02, spec/03 and the instructions' entries,
ill-formed terms, single steps with results worked out from the rules, and for each obligation a state and operands that
meet its hypotheses. -/

namespace Sys2Proof.Tests

set_option Elab.async false

open Machine Claims

/-! ### Decoding: one word or more for every instruction that has one -/

/-- Guard p7, no chain. -/
def com : Com := ⟨false, 7, false⟩
/-- Destination v3, latch L0. -/
def out3 : Out := ⟨false, .v 3, 0⟩

/-- A word decodes to the instruction. -/
def decodes (c : Nat × Instr) : Bool := decide ((decodeWord c.1).toOption = some c.2)
def decodesFerry (c : Nat × Instr) : Bool := decide ((decodeFerry c.1).toOption = some c.2)
def decodesNb (c : Nat × Instr) : Bool := decide ((decodeNb c.1).toOption = some c.2)

/-- R41, R103. -/
def controlWords : List (Nat × Instr) :=
  [(0x7000, .nop),
   (0x3, .filler),
   (0x10000000000000A011, .bra ⟨true, 2, false⟩ 0x10),
   (0x123456789A0000000000007022, .jmp com 0x123456789A),
   (0xC007030, .brx com (.v 3)),
   (0xFFFFFFF000000000003C7041, .call com (.v 30) 0xFFFFFFF0),
   (0x103C7050, .callr com (.v 30) (.v 4)),
   (0x78007060, .ret com (.v 30)),
   (0x7074, .exit ⟨false, 7, true⟩),
   (0x7080, .yield com),
   (0x7090, .halt com)]
theorem test_decode_control : controlWords.all decodes = true := by decide +kernel

/-- R108 to R111. -/
def integerWords : List (Nat × Instr) :=
  [(0x2280810067100, .add ⟨com, out3, .i32, true, .v 4, .op (.s 1)⟩),
   (0x50000300010067101, .add ⟨com, out3, .i64, false, .v 4, .imm 5⟩),
   (0x2800603010067110, .addc ⟨com, out3, .n32, false, .v 4, .op (.v 6)⟩ 2 true),
   (0x780810067120, .sub ⟨com, out3, .n64, false, .v 4, .op (.s 1)⟩),
   (0x1400703010067130, .subb ⟨com, out3, .n64, false, .v 4, .op (.v 6)⟩ 5 false),
   (0x280810067140, .mul ⟨com, out3, .i32, false, .v 4, .op (.s 1)⟩),
   (0x680810067150, .mulh ⟨com, out3, .n32, false, .v 4, .op (.s 1)⟩),
   (0x80000203010067161, .mad ⟨com, out3, .i32, false, .v 4, .v 6, .v 8, none⟩),
   (0x9000000080000603010067162, .mad ⟨com, out3, .n32, false, .v 4, .v 6, .v 8, (some 9)⟩),
   (0x280810067170, .div ⟨com, out3, .i32, false, .v 4, .op (.s 1)⟩),
   (0x280810067180, .rem ⟨com, out3, .i32, false, .v 4, .op (.s 1)⟩),
   (0x280810067190, .min ⟨com, out3, .i32, false, .v 4, .op (.s 1)⟩),
   (0x2808100671A0, .max ⟨com, out3, .i32, false, .v 4, .op (.s 1)⟩),
   (0x22000100671B0, .abs ⟨com, out3, .i32, true, .v 4⟩),
   (0x3000100671C0, .neg ⟨com, out3, .i64, false, .v 4⟩)]
theorem test_decode_integer : integerWords.all decodes = true := by decide +kernel

/-- R108 to R113. -/
def bitsWords : List (Nat × Instr) :=
  [(0x8808100671D0, .and ⟨com, out3, .b32, false, .v 4, .op (.s 1)⟩),
   (0x8808100671E0, .or ⟨com, out3, .b32, false, .v 4, .op (.s 1)⟩),
   (0x8808100671F0, .xor ⟨com, out3, .b32, false, .v 4, .op (.s 1)⟩),
   (0x880810067210, .andn ⟨com, out3, .b32, false, .v 4, .op (.s 1)⟩),
   (0x900010067200, .not ⟨com, out3, .b64, false, .v 4⟩),
   (0xC04800050287220, .shl ⟨com, ⟨false, .v 20, 0⟩, .b32, false, .v 20⟩ (.simm 3)),
   (0x903010067230, .shr ⟨com, out3, .b64, false, .v 4⟩ (.op (.v 6))),
   (0x903010067240, .sra ⟨com, out3, .b64, false, .v 4⟩ (.op (.v 6))),
   (0x903010067250, .rot ⟨com, out3, .b64, false, .v 4⟩ (.op (.v 6))),
   (0x80002803010067261, .funnel ⟨com, out3, .b32, true, .v 4, .v 6, .v 8, none⟩),
   (0x800010067270, .clz ⟨com, out3, .b32, false, .v 4⟩),
   (0x800010067280, .ctz ⟨com, out3, .b32, false, .v 4⟩),
   (0x800010067290, .popc ⟨com, out3, .b32, false, .v 4⟩),
   (0x8000100672A0, .brev ⟨com, out3, .b32, false, .v 4⟩),
   (0x6808100672B0, .bfx ⟨com, out3, .n32, false, .v 4, .op (.s 1)⟩),
   (0x800008030100672C1, .bfi ⟨com, out3, .b32, false, .v 4, .v 6, .v 8, none⟩),
   (0x800008030100672D1, .sel ⟨com, out3, .b32, false, .v 4, .v 6, .v 8, none⟩),
   (0x102808129272E0, .cmp ⟨com, ⟨false, .p 1, 0⟩, .i32, false, .v 4, .op (.s 1)⟩ .gt)]
theorem test_decode_bits : bitsWords.all decodes = true := by decide +kernel

/-- R114 to R122. -/
def movesWords : List (Nat × Instr) :=
  [(0xFFFFF8060000003010067301, .lea com out3 ⟨.scratch, .v 4, .v 6, 2, false, 0xFFFFFFF8⟩),
   (0x10000000000000C00000A8010067312, .leah com out3 ⟨.const, .v 4, .zero, 0, true, 0x1000000⟩),
   (0x100010067320, .swin com out3 true (.v 4)),
   (0x14B000E8A5524067331, .plut com out3 0xE8 (.p 1) (.p 2) (.p 3)),
   (0x67340, .pmovGet com out3),
   (0x20010000C007340, .pmovSet com 2 (.v 3)),
   (0x800010067350, .mov ⟨com, out3, .b32, false, .v 4⟩),
   (0x123456780000800000067361, .movi com out3 .b32 0x12345678 false),
   (0x123456789ABCDEF00000900000067362, .movi com out3 .b64 0x123456789ABCDEF0 true),
   (0x200000067370, .movsReadWp com 2 (.v 3)),
   (0x1500000067370, .movsReadTc com 5 (.v 3)),
   (0x250000C007370, .movsWriteTc com 5 (.v 3)),
   (0x80000803010067381, .bsel ⟨com, out3, .b32, false, .v 4, .v 6, .v 8, none⟩),
   (0x100000000000067391, .csrr com 0x010 (.v 3)),
   (0x10000000000C0073A1, .csrw com 0x010 (.v 3)),
   (0x10000010000C0073A1, .csrwSet com 0x010 (.v 3)),
   (0x10000020000C0073A1, .csrwClr com 0x010 (.v 3))]
theorem test_decode_moves : movesWords.all decodes = true := by decide +kernel

/-- R124 to R133; the first word and the pair are the examples of spec/03. -/
def floatWords : List (Nat × Instr) :=
  [(0xB808100A3400, .fadd ⟨⟨false, 3, false⟩, ⟨false, .v 5, 0⟩, .f32, false, .v 4, .op (.s 1)⟩ .rn),
   (0x3DCCCCCD0000B00010067401, .fadd ⟨com, out3, .f32, false, .v 4, .imm 0x3DCCCCCD⟩ .rn),
   (0x60A80810067410, .fsub ⟨com, out3, .f64, false, .v 4, .op (.s 1)⟩ .rd),
   (0xA0C80810067420, .fmul ⟨com, out3, .bf16, false, .v 4, .op (.s 1)⟩ .dyn),
   (0x80022B03010067431, .ffma ⟨com, out3, .f32, true, .v 4, .v 6, .v 8, none⟩ .rz),
   (0x2D80810067440, .fmin ⟨com, out3, .f16, true, .v 4, .op (.s 1)⟩),
   (0xB80810067450, .fmax ⟨com, out3, .f32, false, .v 4, .op (.s 1)⟩),
   (0x18B80810067460, .fcmp ⟨com, out3, .f32, false, .v 4, .op (.s 1)⟩ .un),
   (0xC04E00010067470, .fclass ⟨com, out3, .e4m3, false, .v 4⟩ .nanOnly 3),
   (0x40B80810067480, .fscale ⟨com, out3, .f32, false, .v 4, .op (.s 1)⟩ .ru),
   (0x22A00010067490, .frnd ⟨com, out3, .f64, true, .v 4⟩ .rz),
   (0x2C00C000100674A0, .cvt ⟨com, out3, .bf16, false, .v 4, .op .res0⟩ .f32 .rn .finiteOnly),
   (0x8000AE030100674B1, .pack ⟨com, out3, .e4m3, true, .v 4, .v 6, .v 8, none⟩ .rn .ieee),
   (0x1C010000100674C0, .unpack ⟨com, out3, .e2m1, false, .v 4⟩ .finiteOnly 7),
   (0x80004E030100674D1, .bscale ⟨com, out3, .e4m3, false, .v 4, .v 6, .v 8, none⟩ .nanOnly),
   (0xB0105540307010454047FF5, .pairP96 ⟨false, 7, true⟩ ⟨.ffma, .rn, ⟨true, .zero, 1⟩, .v 8, .s 1⟩ ⟨.fmul, .rn, ⟨true, .zero, 2⟩, .v 10, .s 1⟩)]
theorem test_decode_float : floatWords.all decodes = true := by decide +kernel

/-- the examples after R149, and R149. -/
def tablesWords : List (Nat × Instr) :=
  [(0x2A8010067501, .tblLoad com false 2 (.v 3) ⟨.global, .v 4, .zero, 0, false, 0⟩),
   (0x2000000A7510, .tblCommit com 2 (.v 5)),
   (0x800B000180E7520, .tblEval com .f32 .rn 2 (.v 7) (.v 6)),
   (0x1400000067530, .tblQuery com true 4 (.v 3)),
   (0x1400000007540, .tblDrop com true 4)]
theorem test_decode_tables : tablesWords.all decodes = true := by decide +kernel

/-- R194 to R203. -/
def squadWords : List (Nat × Instr) :=
  [(0xFFFFFFFF000C100014067581, .shfl com .xor 1 false (.v 3) (.v 5) 0xFFFFFFFF),
   (0xF000C000010067591, .vote com .mask (.v 3) (.v 4) 0xF),
   (0xF00020000100C75A1, .matchKey com true (.v 6) (.v 4) 0xF),
   (0xFFFFFFFF00008000100675B1, .sred com .addF32 (.v 3) (.v 4) 0xFFFFFFFF),
   (0xF00040000100675C1, .sscan com .addI32 true (.v 3) (.v 4) 0xF),
   (0xF000000000000075D1, .ssync com 0xF0),
   (0x80004203010067601, .ddot com out3 false true false true (.v 4) (.v 6) (.v 8)),
   (0x903010067610, .dham ⟨com, out3, .b64, false, .v 4, .op (.v 6)⟩),
   (0x80024E03010067621, .dl2 com out3 .rz .nanOnly (.v 4) (.v 6) (.v 8)),
   (0x1900008067630, .selInit com .n32 true 1 (.v 3) (.v 2)),
   (0x2810007640, .selPush com 0 (.v 4) (.v 5)),
   (0x10000080C7650, .selDrain com .fin 0 (.v 6) (.v 2))]
theorem test_decode_squad : squadWords.all decodes = true := by decide +kernel

/-- R215; the MMA is the example after R229. -/
def matrixWords : List (Nat × Instr) :=
  [(0x12000000030000000000007682, .tcfg com 3 (.imm 0x12)),
   (0x30000100010007682, .tcfg com 3 (.op (.v 4))),
   (0x50000100000067692, .tzero com true 5 (.v 3)),
   (0x100000040100676A2, .tld com 1 (.v 3) (.v 4) (.v 8)),
   (0x90002000000040100676B2, .tst com 2 .rz true (.v 3) (.v 4) (.v 8)),
   (0x3001020000000016A016C2, .mma ⟨false, 1, false⟩ 2 0 1 .inPlace .f32 (some (.v 5)) 0 .zero),
   (0x280000310200000000000676D2, .mmat com 2 0 1 (.tile 3) 40 (.v 3)),
   (0x1200000000100676E2, .mmap com 2 1 (.v 3) (.v 4)),
   (0x80000000200003A80100076F2, .trow com .wrD 2 (.v 4) .zero 8),
   (0x80000000200004030000876F2, .trow com .rdSc 2 (.v 4) (.v 6) 8),
   (0x100000067702, .tchk com true (.v 3))]
theorem test_decode_matrix : matrixWords.all decodes = true := by decide +kernel

/-- R256 to R272; the two ATOM words are the example of spec/11. -/
def memoryWords : List (Nat × Instr) :=
  [(0xFFFFFC030000403010067781, .ld com .n8 false .relaxed (.v 3) ⟨.global, .v 4, .v 6, 3, false, 0xFFFFFFFC⟩),
   (0x1234567800000044000E9A8010107782, .ld com .b64 true (.ordered .acq .die) (.v 8) ⟨.scratch, .v 4, .zero, 0, true, 0x12345678⟩),
   (0x5000108A8010067791, .st com .b32 false (.ordered .rel .pkg) (.v 3) ⟨.global, .v 4, .zero, 0, false, 0⟩),
   (0x1200088030101077A1, .ldg com .b32 2 .cg (.v 8) ⟨.global, .v 4, .v 6, 2, false, 0⟩),
   (0x22000C8030101077B1, .sct com .b32 3 .st (.v 8) ⟨.global, .v 4, .v 6, 2, false, 0⟩),
   (0xBA80100677C1, .atom com .add .f32 .relaxed (.v 3) .res0 ⟨.global, .v 4, .zero, 0, false, 0⟩),
   (0x500010BA80100677C1, .atom com .add .f32 (.ordered .rel .pkg) (.v 3) .res0 ⟨.global, .v 4, .zero, 0, false, 0⟩),
   (0x56000F48A80100677C2, .atom com .cas .b32 (.ordered .ar .dom) (.v 3) (.v 5) ⟨.global, .v 4, .zero, 0, true, 0⟩),
   (0xC0BA80100677D1, .red com .amax .f32 .relaxed (.v 3) ⟨.global, .v 4, .zero, 0, false, 0⟩),
   (0xBA80100677E1, .amaxsw com .relaxed (.v 3) ⟨.global, .v 4, .zero, 0, false, 0⟩),
   (0x143000000077F0, .fence com .sc .dom),
   (0xA8010007801, .cctlIi com ⟨.global, .v 4, .zero, 0, false, 0⟩),
   (0x1A8010007801, .cctlEv com ⟨.global, .v 4, .zero, 0, false, 0⟩),
   (0x2A8010007811, .pref com .llc ⟨.global, .v 4, .zero, 0, false, 0⟩),
   (0x50000000A8010067822, .stashMap com (.v 3) (.v 5) ⟨.global, .v 4, .zero, 0, true, 0⟩),
   (0x5000000100000067822, .stashMapUn com (.v 3) (.v 5)),
   (0x100000007830, .stashSync com true),
   (0x5A8010067841, .racew com 5 false (.v 3) ⟨.global, .v 4, .zero, 0, false, 0⟩),
   (0xD00000007841, .racew com 5 true .res0 MemOp.res0)]
theorem test_decode_memory : memoryWords.all decodes = true := by decide +kernel

/-- R306, R314, R321, R326; COPY and TLWAIT are the examples of spec/14. -/
def enginesWords : List (Nat × Instr) :=
  [(0x1000005200000004102028067882, .copy com .s .g true 2 5 0x1000 (.v 3) (.v 10) (.v 4)),
   (0x40FFF1000000001A8010067892, .copyt com true false false 1 0xFFF 64 (.v 3) (.v 4) .zero),
   (0x100100005700000004E030100678A2, .copyg com .c .k true 7 5 256 16 (.v 3) (.v 4) (.v 6)),
   (0x70000000000000000100078B2, .stage com (.v 4) 7),
   (0x400001A80100678C1, .barInit com true false (.v 3) ⟨.scratch, .v 4, .zero, 0, false, 0⟩),
   (0x400001A80100678D1, .barArrive com true (.v 3) ⟨.scratch, .v 4, .zero, 0, false, 0⟩),
   (0x100000050800001A80100678E2, .barExpect com true (.v 3) (.v 5) ⟨.cluster, .v 4, .zero, 0, true, 16⟩),
   (0x400000A80100678F1, .barWait com (.v 3) ⟨.scratch, .v 4, .zero, 0, false, 0⟩),
   (0x400000A8010067901, .barTest com (.v 3) ⟨.scratch, .v 4, .zero, 0, false, 0⟩),
   (0x20000000000000C007912, .tlwait com 2 (.v 3) 0),
   (0x900000000200000067922, .tlread com .fail 9 (.v 3)),
   (0x7000D00000000000010007932, .tlsig com false 13 (.v 4) 7),
   (0x1230000000000007941, .waitm com 0x123)]
theorem test_decode_engines : enginesWords.all decodes = true := by decide +kernel

/-- R178, R346, R347, R432, R460. -/
def systemWords : List (Nat × Instr) :=
  [(0x3010067980, .launch com (.v 3) (.v 4) (.v 6)),
   (0x3010067990, .graphRun com (.v 3) (.v 4) (.v 6)),
   (0x80000003012A079A1, .graphPatch com (.v 4) (.v 6) (.v 8)),
   (0x10067A00, .collStart com (.v 3) (.v 4)),
   (0x80000103010067A11, .nbLoad com true (.v 3) (.v 4) (.v 6) (.v 8)),
   (0x1500000003010067A21, .nbRun com (.v 3) (.v 4) (.v 6) .zero),
   (0x80000003010067A31, .ferryLoad com (.v 3) (.v 4) (.v 6) (.v 8)),
   (0x80000003010067A41, .ferryBind com (.v 3) (.v 4) (.v 6) (.v 8)),
   (0x3010067A50, .ferryUnbind com (.v 3) (.v 4) (.v 6)),
   (0x103010067A50, .ferryUnbindKern com (.v 3) (.v 4) (.v 6)),
   (0x8400000010067B00, .trap com 33 (.v 3) (.v 4)),
   (0x3010067B10, .tretRep com (.v 3) (.v 4) (.v 6)),
   (0x103010067B10, .tretSkip com (.v 3) (.v 4) (.v 6)),
   (0x203010067B10, .tretKill com (.v 3) (.v 4) (.v 6)),
   (0x303010067B10, .tretCan com (.v 3) (.v 4) (.v 6)),
   (0x403010067B10, .tretKillb com (.v 3) (.v 4) (.v 6)),
   (0x503010067B10, .tretPre com (.v 3) (.v 4) (.v 6)),
   (0x67B20, .moor com (.v 3)),
   (0x3010007B31, .tlbiVa com (.v 4) (.v 6)),
   (0x100000007B31, .tlbiAll com),
   (0x10067B40, .harvest com (.v 3) (.v 4)),
   (0x103010067B51, .scrub com true (.v 3) (.v 4) (.v 6)),
   (0xABCD0000100010067B61, .evpost com true 0xABCD (.v 3) (.v 4))]
theorem test_decode_system : systemWords.all decodes = true := by decide +kernel

/-- R405, R407, R409 to R411. -/
def ferryVecWords : List (Nat × Instr) :=
  [(0x48D1300, .vadd 2 3 4 1 true .rn .i16),
   (0x88D1880, .vsub 2 3 4 1 false .ru .f32),
   (0xC8D1D80, .vmul 2 3 4 1 .rd .bf16),
   (0x108D1480, .vfma 2 3 4 1 .rz .f32),
   (0x148D1100, .vmin 2 3 4 1 .i16),
   (0x188D1100, .vmax 2 3 4 1 .i16),
   (0x1C8D1000, .vand 2 3 4 1),
   (0x208D1000, .vor 2 3 4 1),
   (0x248D1000, .vxor 2 3 4 1),
   (0x288D1100, .vshl 2 3 4 1 true),
   (0x2C8D1200, .vshr 2 3 4 1 true false),
   (0x308D1400, .vsel 2 3 4 1 2),
   (0x348D1680, .vcmp 2 3 4 1 .le true),
   (0x388C1600, .vcvt 2 3 0 1 .f32bf16lo),
   (0x3C8C1000, .vbcast 2 3 1),
   (0x408C1480, .vred 2 3 1 .max true),
   (0x448C1380, .feval 2 3 1 true true)]
theorem test_decode_ferryVec : ferryVecWords.all decodesFerry = true := by decide +kernel

/-- R405, R407, R413 to R417. -/
def ferrySclWords : List (Nat × Instr) :=
  [(0x608C8000, .sadd 2 3 (.reg 4)),
   (0x648C8000, .ssub 2 3 (.reg 4)),
   (0x688C8000, .sand 2 3 (.reg 4)),
   (0x6C8EFFFE, .sor 2 3 (.imm 0xFFFE)),
   (0x708EFFFE, .sshl 2 3 (.imm 0xFFFE)),
   (0x748EFFFE, .sshr 2 3 (.imm 0xFFFE)),
   (0x7882ABCD, .smovi 2 true 0xABCD),
   (0x808E0011, .br .ltu 2 3 17),
   (0x84810011, .brm .all 2 17),
   (0x88099804, .rep 9 (some 3) 4),
   (0x8CC00021, .ftrap 3 33),
   (0x90000000, .fwd),
   (0x94000000, .drop),
   (0x98000000, .emit),
   (0x9CD80000, .pset 3 .immh),
   (0xA08E0040, .pld 2 3 true 0x40),
   (0xA48E0040, .pst 2 3 true 0x40),
   (0xA88E0040, .sld 2 3 true 0x40),
   (0xAC8E0040, .sst 2 3 true 0x40)]
theorem test_decode_ferryScl : ferrySclWords.all decodesFerry = true := by decide +kernel

/-- R421, R422. -/
def nearBankWords : List (Nat × Instr) :=
  [(0x6000, .nbnop .last),
   (0x14012000, .nbld 1 2 .first),
   (0x21014000, .nbst 1 2 .rowend),
   (0x3C000000, .nbzero 3 .every),
   (0x46E86000, .nbadd 1 2 3 true .i32 .rn .last),
   (0x56D60000, .nbsub 1 2 3 false .bf16 .rd .every),
   (0x66D60000, .nbmul 1 2 3 false .bf16 .rd .every),
   (0x76D60000, .nbfma 1 2 3 false .bf16 .rd .every),
   (0x86C00000, .nbmin 1 2 3 false .f32 .every),
   (0x96C00000, .nbmax 1 2 3 false .f32 .every),
   (0xA6024000, .nbfold 1 2 .f32 .rz .rowend),
   (0xB2C06000, .nbout 2 3 .last)]
theorem test_decode_nearBank : nearBankWords.all decodesNb = true := by decide +kernel


/-! ### Ill-formed terms: one for each check of well-formedness, each refused -/

/-- An instruction outside the vector classes with CH 1, a bad operand code, an offset beyond 24 bits. -/
def chained : Com := ⟨false, 7, true⟩
def badOp : Opnd := .invalid 4
def wideOff : MemOp := ⟨.global, .v 4, .zero, 0, false, 0x1000000⟩
def mem4 : MemOp := ⟨.global, .v 4, .zero, 0, false, 0⟩
def scr4 : MemOp := ⟨.scratch, .v 4, .zero, 0, false, 0⟩

/-- R44, R55, R56, R71, R72, R100, R108 to R133. -/
def illVector : List Instr :=
  [.add ⟨com, ⟨true, .v 3, 0⟩, .i32, false, .v 4, .imm 5⟩, .add ⟨com, out3, .f32, false, .v 4, .imm 5⟩,
   .add ⟨com, out3, .i32, false, badOp, .imm 5⟩, .add ⟨com, ⟨false, badOp, 0⟩, .i32, false, .v 4, .imm 5⟩,
   .mul ⟨com, out3, .i32, true, .v 4, .imm 5⟩, .mulh ⟨com, out3, .i32, false, .v 4, .imm 5⟩,
   .addc ⟨com, out3, .i32, false, .v 4, .op (.v 6)⟩ 2 true, .mad ⟨com, out3, .i64, false, .v 4, .v 6, .v 8, none⟩,
   .abs ⟨com, out3, .n32, false, .v 4⟩, .and ⟨com, out3, .b32, true, .v 4, .op (.v 6)⟩,
   .shl ⟨com, out3, .b32, false, .v 4⟩ (.op badOp), .funnel ⟨com, out3, .b64, false, .v 4, .v 6, .v 8, none⟩,
   .funnel ⟨com, out3, .b32, false, .v 4, .v 6, .v 8, some 1⟩, .bfi ⟨com, out3, .b32, false, .v 4, .v 6, .v 8, some 1⟩,
   .sel ⟨com, out3, .b32, true, .v 4, .v 6, .v 8, none⟩, .bfx ⟨com, out3, .i32, false, .v 4, .imm 5⟩,
   .lea com out3 wideOff, .leah com out3 scr4, .movi com out3 .b32 0x100000000 false, .movi com out3 .b32 1 true,
   .bsel ⟨com, out3, .b32, false, .v 4, .v 6, .v 8, some 1⟩, .fadd ⟨com, out3, .f32, false, .v 4, .op (.v 6)⟩ .sr,
   .fadd ⟨com, out3, .bf16, false, .v 4, .imm 0x10000⟩ .rn, .fadd ⟨com, out3, .e4m3, false, .v 4, .op (.v 6)⟩ .rn,
   .ffma ⟨com, out3, .f32, false, .v 4, .v 6, .v 8, some 1⟩ .rn, .fclass ⟨com, out3, .e4m3, false, .v 4⟩ .ieee 4,
   .fclass ⟨com, out3, .f32, false, .v 4⟩ .finiteOnly 1, .fscale ⟨com, out3, .f32, false, .v 4, .imm 1⟩ .rn,
   .frnd ⟨com, out3, .f32, false, .v 4⟩ .sr, .cvt ⟨com, out3, .f32, false, .v 4, .op .res0⟩ .f32 .rn .finiteOnly,
   .cvt ⟨com, out3, .bf16, false, .v 4, .op (.v 6)⟩ .f32 .rn .finiteOnly,
   .cvt ⟨com, out3, .bf16, false, .v 4, .op .res0⟩ .f32 .rn .ieee,
   .pack ⟨com, out3, .bf16, true, .v 4, .v 6, .v 8, none⟩ .rn .finiteOnly, .unpack ⟨com, out3, .e4m3, false, .v 4⟩ .ieee 4,
   .bscale ⟨com, out3, .bf16, false, .v 4, .v 6, .v 8, none⟩ .finiteOnly, .dham ⟨com, out3, .i32, false, .v 4, .op (.v 6)⟩,
   .dl2 com out3 .sr .ieee (.v 4) (.v 6) (.v 8)]
theorem test_wf_vector : illVector.all (fun i => !i.wf) = true := by decide +kernel

/-- R50: three register banks named twice, four sources, one destination, WBS with a destination. -/
def half (op : PairOp) (d : Opnd) (a b : Opnd) : PairHalf := ⟨op, .rn, ⟨false, d, 0⟩, a, b⟩
def illPair : List Instr :=
  [.pairP96 com (half .fadd (.v 1) (.v 4) (.v 5)) (half .fmul (.v 2) (.v 8) (.v 6)),
   .pairP96 com (half .fadd (.v 1) (.v 4) (.v 5)) (half .fmul (.v 2) (.v 6) (.v 7)),
   .pairP96 com (half .fadd (.v 1) (.v 4) (.s 1)) (half .fmul (.v 1) (.v 6) (.s 1)),
   .pairP96 com ⟨.fadd, .rn, ⟨true, .v 1, 0⟩, .v 4, .s 1⟩ (half .fmul (.v 2) (.v 6) (.s 1)),
   .pairP96 com ⟨.fadd, .sr, ⟨false, .v 1, 0⟩, .v 4, .s 1⟩ (half .fmul (.v 2) (.v 6) (.s 1))]
theorem test_wf_pair : illPair.all (fun i => !i.wf) = true := by decide +kernel

/-- R56, R71, R72 and the entries of the other classes. -/
def illOther : List Instr :=
  [.csrr chained 0x10 (.v 3), .tchk com true badOp, .tblLoad com false 2 (.v 3) ⟨.global, .v 4, .zero, 0, true, 0⟩,
   .tblEval com .f64 .rn 2 (.v 7) (.v 6), .tblEval com .f32 .rz 2 (.v 7) (.v 6), .tblEval com .bf16 .sr 2 (.v 7) (.v 6),
   .shfl com .idx 1 false (.v 3) (.v 5) 3, .selDrain com .cnt 0 (.v 6) (.v 2), .tst com 2 .sr true (.v 3) (.v 4) (.v 8),
   .mma com 2 0 1 .zero .f32 (some (.v 5)) 0 .zero, .mma com 2 0 1 .inPlace .i32 (some (.v 5)) 0 .zero,
   .ld com .b32 true .relaxed (.v 4) mem4, .ld com .f32 false .relaxed (.v 4) mem4, .st com .b32 false .relaxed (.v 4)
     ⟨.const, .v 4, .zero, 0, false, 0⟩, .st com .b32 false (.ordered .acq .die) (.v 4) mem4,
   .ldg com .b32 2 .cg (.v 8) mem4, .ldg com .b32 2 .cg (.v 8) ⟨.scratch, .v 4, .v 6, 0, false, 0⟩,
   .sct com .b32 2 .cg (.v 8) ⟨.const, .v 4, .v 6, 0, false, 0⟩, .atom com .amax .f32 .relaxed (.v 3) .res0 mem4,
   .atom com .cas .b32 .relaxed (.v 3) .res0 mem4, .atom com .add .f64 .relaxed (.v 3) .res0 mem4,
   .red com .exch .b32 .relaxed (.v 3) mem4, .amaxsw com .relaxed (.v 3) scr4, .cctlIi com scr4, .pref com .llc scr4,
   .stashMap com (.v 3) (.v 5) mem4, .racew com 5 true (.v 3) MemOp.res0,
   .copy com .k .g true 2 5 0x1000 (.v 3) (.v 10) (.v 4), .copy com .s .g true 2 5 2 (.v 3) (.v 10) (.v 4),
   .copy com .s .g true 2 5 0x1000004 (.v 3) (.v 10) (.v 4), .copyg com .g .k true 7 5 256 16 (.v 3) (.v 4) (.v 6),
   .copyg com .c .s true 7 5 256 16 (.v 3) (.v 4) (.v 6), .copyg com .c .k true 7 5 258 16 (.v 3) (.v 4) (.v 6),
   .copyg com .c .k true 7 5 256 0 (.v 3) (.v 4) (.v 6), .barInit com true true (.v 3) scr4, .barWait com (.v 3) mem4,
   .barTest com (.s 3) scr4, .barExpect com true (.v 3) (.v 5) scr4, .tlread com .fail 10 (.v 3),
   .tlsig com false 11 (.v 4) 7, .tlsig com true 13 (.v 4) 7, .vadd 2 3 4 1 true .rn .f32, .vadd 2 3 4 1 false .rz .i32,
   .vfma 2 3 4 1 .rn .i16, .vcmp 2 3 4 1 .un false, .vcmp 2 3 4 1 .ltu true, .vcvt 2 3 1 1 .f32i32,
   .nbadd 1 2 3 true .i32 .rz .last, .br .always 1 0 4]
theorem test_wf_other : illOther.all (fun i => !i.wf) = true := by decide +kernel

/-! ### Single steps, with results worked out from the rules -/

/-- A user thread with the given registers, in lane and slot 0. -/
def thr (regs : List (Nat × Word)) : Thread := { Thread.start 0x1000 32 .user 0 0 0 with regs := regs }
/-- Its block: tag 5 of partition 1, with scratch, tiles and table slots. -/
def blk (t : Thread) (x : BlockCore) : Block :=
  { Block.nowhere with tag := 5, part := some 1, scratch := 4096, ntile := 4, tslots := 2, threads := [(0, t)], cores := [(0, x)] }
def core0 : BlockCore := BlockCore.start 0 []
def ent : Entry := Entry.start 5 [0] (some 0) 0
def theCore : Core := { Core.reset with released := true, ready := true, entries := [(0, ent)] }
/-- The thread alone in entry 0 of core 0. -/
def lone (t : Thread) (x : BlockCore) : State :=
  { State.reset with agenda := [], focus := .entry 0 0, blocks := [(5, blk t x)], cores := [(0, theCore)] }

/-- The state after an instruction, where it answers a next state. -/
def after (i : Instr) (s : State) : State := match exec i s with
  | .next t => t
  | _ => State.reset
/-- v20 and the pair v20/v21 after a vector instruction on v4 to v9, and FPCSR. -/
def runOn (regs : List (Nat × Word)) (i : Instr) : Nat × Nat :=
  let t := (after i (lone (thr regs) core0)).thread 5 0
  ((t.reg 20).toNat, t.fpcsr.toNat)
def runOnPair (regs : List (Nat × Word)) (i : Instr) : Nat :=
  let t := (after i (lone (thr regs) core0)).thread 5 0
  (t.reg 20).toNat + 2 ^ 32 * (t.reg 21).toNat
def to20 : Out := ⟨false, .v 20, 0⟩
def bin (ty : Ty) (sat : Bool) : Vec2 := ⟨com, to20, ty, sat, .v 4, .op (.v 6)⟩
def una (ty : Ty) : Vec1 := ⟨com, to20, ty, false, .v 4⟩
def ter (ty : Ty) : Vec3 := ⟨com, to20, ty, false, .v 4, .v 6, .v 8, none⟩

/-- R108: a clamp at the top, and a wrap. -/
theorem test_add : runOn [(4, 0x7FFFFFFF), (6, 1)] (.add (bin .i32 true)) = (0x7FFFFFFF, 0) ∧
    runOnPair [(4, 0xFFFFFFFF), (5, 0xFFFFFFFF), (6, 1)] (.add (bin .n64 false)) = 0 := by decide +kernel
theorem test_sub : runOn [(4, 5), (6, 6)] (.sub (bin .n32 true)) = (0, 0) ∧
    runOn [(4, 5), (6, 6)] (.sub (bin .i32 false)) = (0xFFFFFFFF, 0) := by decide +kernel
/-- R109: 2^32 − 1 with a carry in makes a carry out. -/
theorem test_addc :
    let s := lone { thr [(4, 0xFFFFFFFF), (6, 0)] with preds := 2 } core0
    let t := (after (.addc ⟨com, to20, .n32, false, .v 4, .op (.v 6)⟩ 1 false) s).thread 5 0
    t.reg 20 = 0 ∧ t.pred 1 = true := by decide +kernel
theorem test_mulh : runOn [(4, 0xFFFFFFFF), (6, 0xFFFFFFFF)] (.mulh (bin .n32 false)) = (0xFFFFFFFE, 0) := by decide +kernel
/-- R111: toward zero; by zero all ones; the most negative number by −1. -/
theorem test_div : runOn [(4, 7), (6, 0xFFFFFFFE)] (.div (bin .i32 false)) = (0xFFFFFFFD, 0) ∧
    runOn [(4, 7), (6, 0)] (.div (bin .i32 false)) = (0xFFFFFFFF, 0) ∧
    runOn [(4, 0x80000000), (6, 0xFFFFFFFF)] (.div (bin .i32 false)) = (0x80000000, 0) := by decide +kernel
theorem test_rem : runOn [(4, 0xFFFFFFF9), (6, 2)] (.rem (bin .i32 false)) = (0xFFFFFFFF, 0) ∧
    runOn [(4, 7), (6, 0)] (.rem (bin .i32 false)) = (7, 0) := by decide +kernel
/-- R110: counts of the width and more. -/
theorem test_shifts : runOn [(4, 0x80000001), (6, 32)] (.shl (una .b32) (.op (.v 6))) = (0, 0) ∧
    runOn [(4, 0x80000001), (6, 40)] (.sra (una .b32) (.op (.v 6))) = (0xFFFFFFFF, 0) ∧
    runOn [(4, 0x80000001), (6, 33)] (.rot (una .b32) (.op (.v 6))) = (3, 0) := by decide +kernel
theorem test_funnel : runOn [(4, 0x11111111), (6, 0x22222222), (8, 8)] (.funnel (ter .b32)) = (0x22111111, 0) := by
  decide +kernel
theorem test_counts : runOn [(4, 0)] (.clz (una .b32)) = (32, 0) ∧ runOn [(4, 8)] (.ctz (una .b32)) = (3, 0) ∧
    runOn [(4, 0xF0F)] (.popc (una .b32)) = (8, 0) ∧ runOn [(4, 1)] (.brev (una .b32)) = (0x80000000, 0) := by
  decide +kernel
/-- R112: bits 7:4, as a signed field; and put back. -/
theorem test_fields : runOn [(4, 0xA5), (6, 0x404)] (.bfx (bin .i32 false)) = (0xFFFFFFFA, 0) ∧
    runOn [(4, 0xFFFFFFFF), (6, 0), (8, 0x404)] (.bfi (ter .b32)) = (0xFFFFFF0F, 0) := by decide +kernel
/-- R118: the majority of three. -/
theorem test_plut : runOn [(4, 9), (6, 0), (8, 1)] (.plut com to20 0xE8 (.v 4) (.v 6) (.v 8)) = (1, 0) := by decide +kernel
/-- R115: the window of scratch offset 0x10. -/
theorem test_swin : runOnPair [(4, 0x10)] (.swin com to20 true (.v 4)) = 0x000FE00100000010 := by decide +kernel
/-- R79: 1 + 2^−24 is a tie. -/
theorem test_fadd : runOn [(4, 0x3F800000), (6, 0x33800000)] (.fadd (bin .f32 false) .rn) = (0x3F800000, 8) ∧
    runOn [(4, 0x3F800000), (6, 0x33800000)] (.fadd (bin .f32 false) .ru) = (0x3F800001, 8) := by decide +kernel
/-- R91: a signalling NaN is quieted and NV is set. -/
theorem test_fmul_nan : runOn [(4, 0x7FA00001), (6, 0x3F800000)] (.fmul (bin .f32 false) .rn) = (0x7FE00001, 1) := by
  decide +kernel
/-- R127: −0. -/
theorem test_fclass : runOn [(4, 0x80000000)] (.fclass (una .f32) .ieee 0) = (8, 0) := by decide +kernel
/-- R82: the byte 0x58 holds the trits 1, −1, 0, 0, 1: trit 1. -/
theorem test_unpack : runOn [(4, 0x58)] (.unpack ⟨com, to20, .t3, false, .v 4⟩ .ieee 1) = (0xFFFFFFFF, 0) := by decide +kernel
/-- R201: the product that meets the large addend before it is rounded. -/
theorem test_dl2 : runOn [(4, 0x7E000000), (6, 0xFE000000), (8, 0x4B800000)]
    (.dl2 com to20 .rn .nanOnly (.v 4) (.v 6) (.v 8)) = (0x4B862000, 0) := by decide +kernel
/-- The stochastic rounding of 0x3F804000 to BF16, at r = 0xBFFF and r = 0xC000 (the worked example of spec/04). -/
theorem test_cvt_sr : runOn [(4, 0x3F804000), (6, 0x1234BFFF)] (.cvt (bin .bf16 false) .f32 .sr .finiteOnly) = (0x3F80, 8) ∧
    runOn [(4, 0x3F804000), (6, 0x0000C000)] (.cvt (bin .bf16 false) .f32 .sr .finiteOnly) = (0x3F81, 8) := by decide +kernel
/-- R131: the trits 1, −1, 0, 0, 1 make the byte 0x58, the low byte of d. -/
theorem test_pack : runOn [(4, 0x0000FF01), (6, 1), (8, 0xAB)] (.pack (ter .t3) .rn .finiteOnly) = (0xAB58, 0) := by decide +kernel
/-- R199: 1·5 + (−2)·6 + 3·7 + 4·(−8) + 100. -/
theorem test_ddot : runOn [(4, 0x0403FE01), (6, 0xF8070605), (8, 100)]
    (.ddot com to20 false false false false (.v 4) (.v 6) (.v 8)) = (82, 0) := by decide +kernel
/-- R48: base + sign-extended index × 4 + offset. -/
theorem test_lea : runOnPair [(4, 0x1000), (5, 1), (6, 0xFFFFFFFF)]
    (.lea com to20 ⟨.global, .v 4, .v 6, 2, false, 8⟩) = 0x100001004 := by decide +kernel

/-- The table sq4 of spec/06 in slot 1 (physical slot 1 of the block's core). -/
def sq4 : TblImage :=
  ⟨[0, 0x40800000, 0x4203, 1, 0x3F800000, 0, 0, 0, 0, 0, 0, 0, 0, 0, 0, 0],
   [[0, 0, 0, 0x3F800000, 0, 0], [0x3F800000, 0x3F800000, 0x40000000, 0x3F800000, 0, 0],
    [0x40000000, 0x40800000, 0x40800000, 0x3F800000, 0, 1], [0x40400000, 0x41100000, 0x40C00000, 0x3F800000, 0, 0]]⟩
def withSq4 : BlockCore := { core0 with tables := [(1, ⟨some (sq4, 1), .empty⟩)] }
def evalSq4 (w : Word) : State := after (.tblEval com .f32 .rn 1 (.v 20) (.v 6)) (lone (thr [(6, w)]) withSq4)
def sq4At (w : Word) : Word := ((evalSq4 w).thread 5 0).reg 20
theorem test_tbl_eval : sq4At 0x3FC00000 = 0x40100000 ∧ sq4At 0x40400001 = 0x41100002 ∧ sq4At 0x40A00000 = 0x41C80000 ∧
    sq4At 0x80000000 = 0 ∧ sq4At 0x7F800005 = 0x7FC00005 := by decide +kernel
/-- The class of a fault that the thread stands on. -/
def faultOf (s : State) : Option Cls := match (s.thread 5 0).stat with
  | .faulted e _ => some e.cls
  | _ => none
theorem test_tbl_faults : faultOf (evalSq4 0x40200000) = some .tblGap ∧ faultOf (evalSq4 0xBF800000) = some .tblDomain := by
  decide +kernel

/-- The top-3 query of spec/08: (0.5, 9) goes before (0.5, 11), and a fourth pair falls out. -/
def withSel : BlockCore :=
  { core0 with sel := [(0, ⟨0, .f32, false, 3, [(0x3F000000, 11), (0x3F800000, 20), (0x40000000, 10)], false⟩)] }
theorem test_sel_push :
    let s := after (.selPush com 0 (.v 4) (.v 6)) (lone (thr [(4, 0x3F000000), (6, 9)]) withSel)
    (((s.block 5).bc 0).sel.map fun x => x.2.entries) = [[(0x3F000000, 9), (0x3F000000, 11), (0x3F800000, 20)]] := by
  decide +kernel
theorem test_sel_drain :
    let s := after (.selDrain com .plain 0 (.v 20) (.v 4)) (lone (thr [(4, 1)]) withSel)
    (s.thread 5 0).reg 20 = 0x3F800000 ∧ (s.thread 5 0).reg 21 = 20 := by decide +kernel

/-- R103: CALL links the address after its three words and jumps relative to itself. -/
theorem test_call :
    let t := (after (.call com (.v 30) 0xFFFFFFF0) (lone (thr []) core0)).thread 5 0
    t.pc = 0xFF0 ∧ t.reg 30 = 0x100C ∧ t.reg 31 = 0 := by decide +kernel
theorem test_ret :
    ((after (.ret com (.v 30)) (lone (thr [(30, 0x2340)]) core0)).thread 5 0).pc = 0x2340 := by decide +kernel
/-- R26: a reserved rounding mode is refused and FPCSR stays. -/
theorem test_csrw_fpcsr :
    ((after (.csrw com 0 (.v 4)) (lone (thr [(4, 0x308)]) core0)).thread 5 0).fpcsr = 0x308 ∧
    faultOf (after (.csrw com 0 (.v 4)) (lone (thr [(4, 0x400)]) core0)) = some .illegalOperand := by decide +kernel

/-- Scratch: little-endian bytes (R8, R243). -/
theorem test_st :
    let s := after (.st com .b32 false .relaxed (.v 4) ⟨.scratch, .v 6, .zero, 0, false, 4⟩)
      (lone (thr [(4, 0x11223344), (6, 0x40)]) core0)
    ((s.block 5).bc 0).scratch = [(0x44, 0x44), (0x45, 0x33), (0x46, 0x22), (0x47, 0x11)] := by decide +kernel
/-- R262: .i8 is sign-extended. -/
theorem test_ld :
    ((after (.ld com .i8 false .relaxed (.v 20) ⟨.scratch, .v 6, .zero, 0, false, 0⟩)
      (lone (thr [(6, 0x40)]) { core0 with scratch := [(0x40, 0x80)] })).thread 5 0).reg 20 = 0xFFFFFF80 := by decide +kernel
/-- Lane 0 of the worked example of spec/11, in scratch: 1.0 + 2^24 is a tie. -/
theorem test_atom :
    let s := after (.atom com .add .f32 .relaxed (.v 3) .zero ⟨.scratch, .v 6, .zero, 0, true, 0⟩)
      (lone (thr [(3, 0), (6, 0x40)]) { core0 with scratch := [(0x42, 0x80), (0x43, 0x3F)] })
    (s.thread 5 0).reg 3 = 0x3F800000 := by decide +kernel

/-- R316, R318: a barrier of count 1; bytes that arrived first are counted off by an expectation with .arr, which keeps the
phase while 3,072 bytes are to come (the worked example of spec/14). -/
theorem test_bar_init :
    let s := after (.barInit com false false (.v 5) ⟨.scratch, .v 6, .zero, 0, false, 0⟩) (lone (thr [(5, 1), (6, 0x50)]) core0)
    (s.barGet 5 0 0x50).valid 5 = true ∧ (s.barGet 5 0 0x50).arr = 1 ∧ (s.barGet 5 0 0x50).phase = 0 := by decide +kernel

/-- The words of the copy of spec/14 take number 1 of timeline 2. -/
theorem test_copy :
    let s := after (.copy com .s .g true 2 5 4096 (.v 3) (.v 10) (.v 4))
      (after (.barInit com false false (.v 5) ⟨.scratch, .v 20, .zero, 0, false, 0⟩)
        (lone (thr [(4, 0x8000), (5, 1), (10, 0x0), (20, 0x50)]) core0))
    (s.thread 5 0).reg 3 = 1 ∧ (((s.block 5).bc 0).tl 2).issued = 1 ∧ ((s.block 5).bc 0).ops.map (·.num) = [1] := by
  decide +kernel

/-- R194, R197 on a squad of eight: the sum of the members 0 to 7, and the value of the member above. -/
def squadState (ins : Instr) : State :=
  let th (k : Nat) : Thread := { Thread.start 0x1000 32 .user k 0 0 with regs := [(4, BitVec.ofNat 32 k)] }
  let b : Block := { blk (thr []) core0 with shape := (8, 1, 1), threads := (List.range 8).map fun k => (k, th k) }
  after ins { lone (thr []) core0 with
    blocks := [(5, b)]
    cores := [(0, { theCore with entries := [(0, { ent with members := List.range 8 })] })] }
theorem test_sred : ((squadState (.sred com .addI32 (.v 20) (.v 4) 0xFF)).thread 5 3).reg 20 = 28 := by decide +kernel
theorem test_sscan : ((squadState (.sscan com .addI32 true (.v 20) (.v 4) 0xFF)).thread 5 3).reg 20 = 3 ∧
    ((squadState (.sscan com .addI32 false (.v 20) (.v 4) 0xFF)).thread 5 3).reg 20 = 6 := by decide +kernel
theorem test_vote : ((squadState (.vote com .cnt (.v 20) (.v 4) 0xFF)).thread 5 3).reg 20 = 7 := by decide +kernel

/-- The worked example of spec/09: 0.5 · 8 + (1·1 + 2·1) and 0.5 · 8 + (1·1 − 2·1) in row 0, with lane 0 alone. -/
def tile (tc : Word) (rows : List (List Nat)) : TileReg :=
  ⟨tc, ((List.range rows.length).flatMap fun r => (List.range (rows.getD r []).length).map fun k =>
    (256 * r + k, (BitVec.ofNat 8 ((rows.getD r []).getD k 0) : Byte))).filter fun c => c.2 != 0, [], false⟩
def withTiles : BlockCore :=
  { core0 with tiles :=
    [(0, tile 0x00C00201 [[0x80, 0x3F, 0x00, 0x40], [0x40, 0x40, 0x80, 0x40]]),
     (1, tile 0x00C00201 [[0x80, 0x3F, 0x80, 0x3F], [0x80, 0x3F, 0x80, 0xBF]]),
     (2, tile 0x00B00202 [[0, 0, 0, 0x41, 0, 0, 0, 0x41], [0, 0, 0, 0x41, 0, 0, 0, 0x41]])] }
def mmaDone : State :=
  after (.matrixOpComplete 0 .agrees)
    (after (.mma com 2 0 1 .inPlace .f32 (some (.v 5)) 0 .zero) (lone (thr [(5, 0x3F000000)]) withTiles))
theorem test_mma :
    let t := Kv.get (tile 0 []) 2 ((mmaDone.block 5).bc 0).tiles
    (List.range 8).map (fun k => (t.byte 0 k).toNat) = [0, 0, 0xE0, 0x40, 0, 0, 0x40, 0x40] ∧
    (List.range 8).map (fun k => (t.byte 1 k).toNat) = [0, 0, 0, 0x41, 0, 0, 0, 0x41] := by decide +kernel

/-- A ferry invocation at the VADD of the worked example of spec/19, with its flow state after one packet. -/
def starter5 : Starter := ⟨1, 5, 0, false, 0, 1, .user, 0⟩
def fRun : FerryRun where
  job := 3
  flow := 7
  window := [(32, 0x80), (33, 0x3F)]
  fv := [(32, 0x3F800000), (33, 0x40000000), (64, 0x3F800000), (65, 0xBF000000)]
  fs := [(4, 2), (5, 3)]
  fm := [(0, 0xFFFFFFFF)]
  idx := 2
  cycles := 4
  rep := none
  emits := []
  area := []
def fWords : List Nat :=
  [0xA0420020, 0xA8820000, 0x04884080, 0xAC820000, 0xA9000080, 0x61120001, 0xAD000080, 0x79400003, 0x81160005, 0xA4820020,
   0xAC020000, 0xAC000080, 0x90000000, 0x94000000]
def fKernel : Kernel := ⟨3, 0, fWords, [], 3, 24⟩
def fBind : Binding := ⟨3, 7, 0, starter5, [], false, 0⟩
def fCoreOf (r : FerryRun) : FerryCore := ⟨[(0, fKernel)], [fBind], [], some r, [], [], [], []⟩
def ferryAt (r : FerryRun) : State :=
  ({ State.reset with agenda := [], focus := .ferry 0 0 }).modFerry 0 0 fun _ => fCoreOf r
theorem test_vadd :
    let r := ((after (.vadd 2 2 1 0 false .rn .f32) (ferryAt fRun)).ferry 0 0).run.getD fRun
    r.lane 2 0 = 0x40000000 ∧ r.lane 2 1 = 0x3FC00000 ∧ r.idx = 3 ∧ r.cycles = 5 := by decide +kernel
/-- `BR.ltu fs4, fs5, done` goes 5 words on: 2 is below 3. -/
theorem test_br :
    let r := ((after (.br .ltu 4 5 5) (ferryAt { fRun with idx := 8 })).ferry 0 0).run.getD fRun
    r.idx = 13 := by decide +kernel
/-- The worked example's trap: `PST.w [fs0 + 28]` lies below 32. -/
theorem test_pst_range :
    let s := after (.pst 4 0 false 28) (ferryAt fRun)
    (s.ferry 0 0).run = none ∧ (s.ferry 0 0).bindings.map (·.faulted) = [true] := by decide +kernel

/-- A near-bank run on unit 0 of stack 0, in its last row and column. -/
def nbRun0 : NbRun := ⟨starter5, 0, 0, false, 2, [[], [], [], []], [], [1, 2, 3, 4], 0, 0, [], none, []⟩
def nbCur0 : NbCur := ⟨nbRun0, [0, 0], [(0, 5), (32, 0xFF), (33, 0xFF), (34, 0xFF), (35, 0xFF)], 0, 3, 0, none⟩
def nbState (u : NbCur) : State := ({ State.reset with agenda := [], focus := .nb 0 0 }).putUnit 0 ⟨[], some u⟩
/-- a2 := a0 + a1 in .i32: 5 + (−1), then 0 + 0. -/
theorem test_nbadd :
    let u := ((after (.nbadd 2 0 1 false .i32 .rn .every) (nbState nbCur0)).unit 0).cur.getD nbCur0
    u.get 0 2 = 4 ∧ u.i = 1 := by decide +kernel
theorem test_nbadd_constant :
    let u := ((after (.nbadd 2 0 1 true .i32 .rn .every) (nbState nbCur0)).unit 0).cur.getD nbCur0
    u.get 0 2 % 2 ^ 64 = 7 + 2 * 2 ^ 32 := by decide +kernel

/-- A boot-mode thread alone on core 0: the stores and loads of the worked example of spec/01, with the two defects. -/
def bootBlk (t : Thread) : Block :=
  { Block.nowhere with threads := [(0, t)], cores := [(0, core0)] }
def boot (regs : List (Nat × Word)) : State :=
  let t : Thread := { Thread.start 0x1000 32 .boot 0 0 0 with regs := regs }
  { State.reset with
    agenda := []
    focus := .entry 0 0
    blocks := [(bootKey 0, bootBlk t)]
    cores := [(0, { Core.reset with
      released := true
      entries := [(0, Entry.start (bootKey 0) [0] (some 0) 0)]
      stuck := [(6400, (30, false)), (0x20000 + 4096 * 5 + 17, (3, true))] })] }
def at4 : MemOp := ⟨.global, .v 4, .zero, 0, false, 0⟩
def rereads (a : DWord) (w : Word) : Word :=
  let regs : List (Nat × Word) := [(4, a.setWidth 32), (5, (a >>> 32).setWidth 32), (6, w)]
  let s := after (.st com .n32 false .relaxed (.v 6) at4) (boot regs)
  ((after (.ld com .n32 false .relaxed (.v 20) at4) s).thread (bootKey 0) 0).reg 20
theorem test_diag_scratchpad : rereads 0x000FF00000094044 0 = 8 := by decide +kernel
theorem test_diag_register_file : rereads 0x000FF00000006400 0xFFFFFFFF = 0xBFFFFFFF := by decide +kernel

/-- The words of spec/13 for the inner load and store of M1, and for a store of zero. -/
def lineWord (l : MarchLine) : Option Nat := match l.body with
  | .ins i => encodeBits i
  | _ => none
theorem test_march_words : lineWord (March.ld 12 10 0) = some 0x000000020000805010187781 ∧
    lineWord (March.st 10 0 (.v 7)) = some 0x0000000200008050100E7791 ∧
    lineWord (March.st 10 0 .zero) = some 0x000000020000805012A07791 := by decide +kernel

/-- R472: a power cap below 1,000 W is refused, one in range is taken. -/
def hosted : State := { State.reset with agenda := [], harbour := { Harbour.reset with host := some 9, starting := false } }
def hdr9 : XcpHdr := ⟨9, 1, 8, 1⟩
theorem test_pwrcap : (after (.pwrcap hdr9 2000) hosted).harbour.cap = 2000 ∧ (after (.pwrcap hdr9 999) hosted).harbour.cap = 3200 := by
  decide +kernel

/-! ### Witnesses

For each statement X of Obligations.lean, witness_X is a state and operands that meet its hypotheses, clause by clause. Where
one theorem serves several statements, or several theorems one statement:

* VectorInstructionsComplete: witness_IntegerResults, witness_BitwiseAndCountResults, witness_ShiftAndBitFieldResults,
  witness_FloatInstructions; ShiftResults, BitFieldResults, AddressAndMoveResults: witness_ShiftAndBitFieldResults;
* LoadsAndStores, ReadModifyWrites, FencesHintsAndStash, CopiesIssue, LaunchesAndGraphs: also witness_Orders;
* NearBankRuns, CollectivePrograms: also witness_Mooring; ThreadControl: also witness_SquadResults; TableInstructions: also witness_TableLoads, and for the selection instructions
  witness_SelectionInstructions;
* BarrierAndTimelineInstructions: witness_BarrierInstructions, witness_TimelineInstructions;
* FerryLoaderAndRouting: witness_FerryLoader, witness_FerryRouting; CollectivePrograms: also witness_CollectiveLegs;
* MooringAndLending: witness_Mooring, witness_Lending; CoresInResetAndResetLadder: witness_CoresInReset, witness_ResetLadder;
* FabricTraffic: witness_HomeRequests, witness_AnswersAndLinks;
* HostRequests: witness_HostCourse, witness_HostPartitions, witness_HostSettings;
* LaunchesAndGraphs: also witness_Launch.

A hypothesis on a free value (whether an image's signature holds, what a frame's correction gives, which capabilities the unit
has) has no concrete witness: no proof can see the value. -/

/-- The group of the thread alone in entry 0 of core 0. -/
def gA : Grp := ⟨0, 0, 5, 0x1000, [0], none⟩

/-- The thread of privilege `p` with its registers, on the core `c`, in a block like `b`; the rest of the state is as in
`rest`. -/
def thrP (p : Priv) (regs : List (Nat × Word)) : Thread := { thr regs with priv := p }
def blkOf (p : Priv) (regs : List (Nat × Word)) (x : BlockCore) (b : Block) : Block :=
  { b with threads := [(0, thrP p regs)], cores := [(0, x)] }
def world (p : Priv) (regs : List (Nat × Word)) (x : BlockCore) (c : Core) (b : Block) (rest : State) : State :=
  { rest with
    agenda := []
    focus := .entry 0 0
    blocks := [(5, blkOf p regs x b)]
    cores := [(0, { c with entries := [(0, ent)] })] }
/-- What the block and the core are like where nothing else is asked for. -/
def blk0 : Block := { Block.nowhere with tag := 5, part := some 1, scratch := 4096, ntile := 4, tslots := 2 }

theorem alone (p : Priv) (regs : List (Nat × Word)) (x : BlockCore) (c : Core) (b : Block) (r : State) :
    Alone (world p regs x c b r) gA 0 (blkOf p regs x b) (thrP p regs) x :=
  ⟨rfl, rfl, rfl, rfl, rfl, rfl, rfl⟩

theorem active_com (t : Thread) : Active com t := by simp [Active, com, Thread.pred]

theorem readable_all {t : Thread} {vec : Bool} {l : List Src} (h : (l.all fun y => !srcBad t.nreg vec y) = true) :
    ∀ y ∈ l, Readable t vec y := fun y hy => by simpa [Readable] using List.all_eq_true.1 h y hy
theorem writable_all {t : Thread} {l : List Src} (h : (l.all fun y => !dstBad t.nreg y) = true) :
    ∀ y ∈ l, Writable t y := fun y hy => by simpa [Writable] using List.all_eq_true.1 h y hy

/-- The thread may issue what reads `srcs` and writes `dsts`. -/
abbrev opsOk (srcs dsts : List Src) : Bool :=
  (srcs.all fun y => !srcBad 256 false y) && dsts.all fun y => !dstBad 256 y
theorem can (p : Priv) (regs : List (Nat × Word)) (x : BlockCore) (c : Core) (b : Block) (r : State)
    {srcs dsts : List Src} (h : opsOk srcs dsts = true) :
    CanIssue (world p regs x c b r) gA 0 (blkOf p regs x b) (thrP p regs) x com srcs dsts :=
  ⟨alone .., active_com _, readable_all (t := thrP p regs) (Bool.and_eq_true_iff.1 h).1,
    writable_all (t := thrP p regs) (Bool.and_eq_true_iff.1 h).2⟩
theorem may (regs : List (Nat × Word)) (x : BlockCore) (c : Core) (b : Block) (r : State)
    {srcs dsts : List Src} (h : opsOk srcs dsts = true) :
    MayIssue (world .user regs x c b r) gA 0 (blkOf .user regs x b) (thrP .user regs) x com srcs dsts :=
  ⟨can .user regs x c b r h, nofun⟩

/-- An operand that is no latch. -/
def plainOp (y : Src) : Bool := match y.1 with
  | .latch _ => false
  | _ => true

theorem canVec (p : Priv) (regs : List (Nat × Word)) (x : BlockCore) (c : Core) (b : Block) (r : State) (out : Out)
    (pipe : Nat) (srcs : List Src) (wide : Bool)
    (h : ((srcs.all fun y => !srcBad 256 true y && plainOp y) && !dstBad 256 (out.dst, wide)) = true) :
    CanIssueVec (world p regs x c b r) gA 0 (blkOf p regs x b) (thrP p regs) x com out pipe srcs wide := by
  obtain ⟨h1, h2⟩ := Bool.and_eq_true_iff.1 h
  refine ⟨alone .., active_com _, fun y hy => ?_, fun _ => ?_⟩
  · have h3 := Bool.and_eq_true_iff.1 (List.all_eq_true.1 h1 y hy)
    exact ⟨show srcBad 256 true y = false by simpa using h3.1, fun n hn => by simp [plainOp, hn] at h3⟩
  · have h3 : dstBad 256 (out.dst, wide) = false := by simpa using h2
    exact h3

/-- The plain world of a user thread: everything else as after reset. -/
abbrev plain (regs : List (Nat × Word)) : State := world .user regs core0 theCore blk0 State.reset
abbrev plainB (regs : List (Nat × Word)) : Block := blkOf .user regs core0 blk0

/-- The instruction has the form of a vector instruction, is well formed, and the thread with the registers may issue it. -/
def VecWitness (ins : Instr) (regs : List (Nat × Word)) : Prop :=
  ∃ f, ins.wf = true ∧ vecForm ins = some f ∧ CanForm (plain regs) gA 0 (plainB regs) (thrP .user regs) core0 f

/-- The checks of `canVec` for an instruction, as one computation. -/
def vecCheck (ins : Instr) : Bool := match vecForm ins with
  | some f => ins.wf && decide (f.com = com) &&
    ((f.srcs.all fun y => !srcBad 256 true y && plainOp y) && !dstBad 256 (f.out.dst, f.wide))
  | none => false

theorem vecWitness (ins : Instr) (regs : List (Nat × Word)) (h : vecCheck ins = true) : VecWitness ins regs := by
  unfold vecCheck at h
  split at h
  · rename_i f hf
    simp only [Bool.and_eq_true_iff, decide_eq_true_eq] at h
    refine ⟨f, h.1.1, hf, ?_⟩
    have := canVec .user regs core0 theCore blk0 State.reset f.out f.pipe f.srcs f.wide (Bool.and_eq_true_iff.2 h.2)
    rw [← h.1.2] at this
    exact this
  · cases h

/-- One instruction of each clause, and of each row of the clauses' tables. -/
def intSamples : List Instr :=
  [.add (bin .i32 true), .sub (bin .n64 false), .mul (bin .i64 false), .mulh (bin .n32 false), .div (bin .i32 false),
   .rem (bin .i32 false), .min (bin .n32 false), .max (bin .i64 false), .abs (una .i32), .neg (una .i64),
   .cmp (bin .i32 false) .lt, .sel (ter .b64), .mad (ter .i32), .funnel (ter .b32)]
def bitSamples : List Instr :=
  [.and (bin .b32 false), .or (bin .b64 false), .xor (bin .b32 false), .andn (bin .b64 false), .not (una .b32),
   .mov (una .b64), .movi com to20 .b64 0xFFFFFFFF false, .clz (una .b32), .ctz (una .b64), .popc (una .b32),
   .brev (una .b64), .dham (bin .b32 false), .ddot com to20 true false true true (.v 4) (.v 6) (.v 8)]
def addrSamples : List Instr :=
  [.shl (una .b32) (.op (.v 6)), .shr (una .b64) (.simm 63), .sra (una .b32) (.op (.v 6)), .rot (una .b32) (.op (.v 6)),
   .bfx (bin .i32 false), .bfi (ter .b64), .lea com to20 ⟨.scratch, .v 4, .v 6, 3, false, 8⟩,
   .leah com to20 ⟨.global, .v 4, .v 6, 3, false, 8⟩, .swin com to20 true (.v 4),
   .plut com to20 0xE8 (.v 4) (.v 6) (.v 8), .pmovGet com to20, .bsel (ter .b32)]
def floatSamples : List Instr :=
  [.fadd (bin .f32 false) .rn, .fsub (bin .f64 false) .dyn, .fmul (bin .bf16 false) .rz, .fcmp (bin .f32 false) .un,
   .fmin (bin .f32 true), .fmax (bin .f64 false), .fclass (una .f32) .finiteOnly 0, .ffma (ter .f32) .ru,
   .fscale (bin .f32 false) .rn, .frnd (una .f32) .rn, .cvt (bin .bf16 false) .f32 .sr .finiteOnly,
   .pack (ter .t3) .rn .finiteOnly, .unpack (una .e4m3) .nanOnly 1, .bscale (ter .e4m3) .nanOnly,
   .dl2 com to20 .rn .nanOnly (.v 4) (.v 6) (.v 8)]

theorem witnesses {l : List Instr} (h : l.all vecCheck = true) (regs : List (Nat × Word)) : ∀ i ∈ l, VecWitness i regs :=
  fun i hi => vecWitness i regs (List.all_eq_true.1 h i hi)
theorem witness_IntegerResults : (∀ i ∈ intSamples, VecWitness i [(4, 7), (6, 0xFFFFFFFE), (8, 3)]) ∧
    ((intSamples.take 8).all fun i => (intBinary i).isSome) = true ∧
    (((intSamples.drop 8).take 2).all fun i => (intUnary i).isSome) = true :=
  ⟨witnesses (by decide +kernel) _, rfl, rfl⟩
theorem witness_BitwiseAndCountResults : (∀ i ∈ bitSamples, VecWitness i [(4, 0xF0F), (6, 3), (8, 5)]) ∧
    ((bitSamples.take 4).all fun i => (bitBinary i).isSome) = true ∧
    (((bitSamples.drop 4).take 2).all fun i => (bitUnary i).isSome) = true ∧
    (((bitSamples.drop 7).take 3).all fun i => (bitCount i).isSome) = true :=
  ⟨witnesses (by decide +kernel) _, rfl, rfl, rfl⟩
/-- The counts 32, 63 and 40 among them (R110); a field that runs past the top of the word (R112). -/
theorem witness_ShiftAndBitFieldResults : (∀ i ∈ addrSamples, VecWitness i [(4, 0x80000001), (6, 0x201C), (8, 0x4030)]) ∧
    ((addrSamples.take 4).all fun i => (shiftFn 32 i).isSome) = true :=
  ⟨witnesses (by decide +kernel) _, rfl⟩
theorem witness_FloatInstructions : ∀ i ∈ floatSamples, VecWitness i [(4, 0x7FA00001), (6, 0x7FC00000), (8, 0xFF800000)] :=
  witnesses (by decide +kernel) _

/-- R109: a carry in, and a carry out of 2^32 − 1 + 1. -/
theorem witness_CarryResults :
    let y : Vec2 := ⟨com, to20, .n32, false, .v 4, .op (.v 6)⟩
    (Instr.addc y 1 true).wf = true ∧ (Instr.subb y 7 false).wf = true ∧
    CanIssueVec (plain [(4, 0xFFFFFFFF), (6, 1)]) gA 0 (plainB [(4, 0xFFFFFFFF), (6, 1)])
      (thrP .user [(4, 0xFFFFFFFF), (6, 1)]) core0 y.com y.out 0 ((y.a, tyWide y.ty) :: srcsB y.b (tyWide y.ty)) (tyWide y.ty) :=
  ⟨rfl, rfl, canVec .user _ _ _ _ _ _ _ _ _ rfl⟩
/-- PMOV.set under write-back suppress. -/
theorem witness_PmovSet : CanIssueVec (plain [(4, 0x55)]) gA 0 (plainB [(4, 0x55)]) (thrP .user [(4, 0x55)]) core0
    com ⟨true, .zero, 1⟩ 0 [(.v 4, false)] false :=
  canVec .user _ _ _ _ _ _ _ _ _ rfl
/-- A signalling NaN; infinities of opposite signs; infinity by zero; a lone NaN for FMAX. -/
theorem witness_FloatSpecialCases :
    (∃ y bad, floatBinary (.fadd (bin .f32 false) .rn) = some (y, bad) ∧ bad .f32 0x7F800000 0xFF800000 = true ∧
      fIsNan .f32 0x7F800000 = false ∧ fIsNan .f32 0xFF800000 = false) ∧
    (∃ y bad, floatBinary (.fmul (bin .f32 false) .rn) = some (y, bad) ∧ bad .f32 0x7F800000 0x80000000 = true) ∧
    fIsNan .f32 0x7FA00001 = true ∧ fIsSnan .f32 0x7FA00001 = true ∧ fIsSnan .f32 0x7FC00000 = false ∧
    (reads (plain [(4, 0x7FA00001), (6, 1)]) gA 0 0 (.v 4, false)).toNat = 0x7FA00001 ∧
    (∀ i ∈ [Instr.fadd (bin .f32 false) .rn, .fmul (bin .f32 false) .rn, .fcmp (bin .f32 false) .lt,
      .fmax (bin .f32 false), .fmin (bin .f32 true), .fclass (una .f32) .finiteOnly 0],
      VecWitness i [(4, 0x7FA00001), (6, 1)]) := by
  refine ⟨⟨_, _, rfl, by decide +kernel, by decide +kernel, by decide +kernel⟩, ⟨_, _, rfl, by decide +kernel⟩, ?_, ?_, ?_,
    ?_, witnesses (by decide +kernel) _⟩ <;> decide +kernel
theorem witness_RepresentableValuesRoundExactly :
    0x80 < 2 ^ Fmt.e4m3.width ∧ (FVal.ofBits .e4m3 .nanOnly 0x80).isNan = false ∧
    (∀ neg, FVal.ofBits .e4m3 .nanOnly 0x80 ≠ .inf neg) := by decide +kernel
/-- FFMA with FMUL, both of which read the register that both write. -/
def ffmaHalf : PairHalf := half .ffma (.v 8) (.v 4) (.v 6)
def fmulHalf : PairHalf := half .fmul (.v 8) (.v 4) (.v 8)
theorem witness_PairResult :
    let l := [(4, 0x3F800000), (6, 0x40000000), (8, 0x40400000)]
    Alone (plain l) gA 0 (plainB l) (thrP .user l) core0 ∧ Active com (thrP .user l) ∧
    (∀ y ∈ PairHalf.useSrcs ffmaHalf ++ PairHalf.useSrcs fmulHalf, Readable (thrP .user l) true y ∧ ∀ p, Fresh (plain l) gA com p y) ∧
    Writable (thrP .user l) (ffmaHalf.out.dst, false) ∧ Writable (thrP .user l) (fmulHalf.out.dst, false) := by
  refine ⟨alone .., active_com _, ?_, rfl, rfl⟩
  intro y hy
  have h : ∀ y ∈ PairHalf.useSrcs ffmaHalf ++ PairHalf.useSrcs fmulHalf, srcBad 256 true y = false ∧ plainOp y = true := by decide +kernel
  exact ⟨(h y hy).1, fun p n hn => by have := (h y hy).2; simp [plainOp, hn] at this⟩
/-- A guard that fails; a register past the declared count; a latch that nothing has written, and one of an open chain
that has been. -/
def never : Com := ⟨true, 7, false⟩
theorem witness_GuardsAndOperandExceptions :
    (∃ f, vecForm (.add { bin .i32 false with com := never }) = some f ∧ ¬ Active f.com (thrP .user [])) ∧
    (∃ f, vecForm (.add { bin .i64 false with a := .v 5 }) = some f ∧ ∃ y ∈ f.srcs, ¬ Readable (thrP .user []) true y) ∧
    (∃ f, vecForm (.add { bin .i64 false with out := ⟨false, .v 21, 0⟩ }) = some f ∧
      ¬ Writable (thrP .user []) (f.out.dst, f.wide)) ∧
    (∃ f, vecForm (.add { bin .i32 false with a := .latch 2 }) = some f ∧ (∀ y ∈ f.srcs, Readable (thrP .user []) true y) ∧
      Writable (thrP .user []) (f.out.dst, f.wide) ∧ ∃ y ∈ f.srcs, ¬ Fresh (plain []) gA f.com f.pipe y) ∧
    Alone (plain []) gA 0 (plainB []) (thrP .user []) core0 := by
  refine ⟨⟨_, rfl, ?_⟩, ⟨_, rfl, (.v 5, true), by decide, ?_⟩, ⟨_, rfl, ?_⟩, ⟨_, rfl, ?_, rfl, (.latch 2, false), by decide, ?_⟩,
    alone ..⟩
  · simp [Active, never, bin, form2, Thread.pred]
  · simp [Readable]; decide +kernel
  · simp [Writable]; decide +kernel
  · intro y hy
    have h : ∀ y ∈ [((.latch 2, false) : Src), (.v 6, false)], srcBad 256 true y = false := by decide +kernel
    exact h y hy
  · intro h
    have := (h 2 rfl).1
    cases this
theorem witness_Fresh :
    let l : List (Nat × Word) := [(4, 1)]
    let s : State := { plain l with cores := [(0, { theCore with entries := [(0, { ent with chain := 1, written := 4 })] })] }
    Alone s gA 0 (plainB l) (thrP .user l) core0 ∧ Fresh s gA ⟨false, 7, true⟩ 0 (.latch 2, false) := by
  refine ⟨⟨rfl, rfl, rfl, rfl, rfl, rfl, rfl⟩, fun n hn => ?_⟩
  cases hn
  exact ⟨rfl, _, rfl, by decide, by decide, by decide⟩
/-- Each transfer to a multiple of 4, and one to an address that is none. -/
def transfers : List Instr :=
  [.bra com 0xFFFFFFF0, .jmp com 0x123456789C, .brx com (.v 4), .call com (.v 30) 0x40, .callr com (.v 30) (.v 6), .ret com (.v 6)]
def transferRegs : List (Nat × Word) := [(4, 0x40), (6, 0x2340)]
theorem witness_ControlTransfers :
    (∀ i ∈ transfers, ∃ r, transferOf (plain transferRegs) gA 0 (thrP .user transferRegs) i = some r ∧ r.com = com ∧
      opsOk r.srcs r.dsts = true ∧ r.target.toNat % 4 = 0) ∧
    (∀ srcs dsts, opsOk srcs dsts = true → CanIssue (plain transferRegs) gA 0 (plainB transferRegs) (thrP .user transferRegs)
      core0 com srcs dsts) ∧
    ∃ r, transferOf (plain transferRegs) gA 0 (thrP .user transferRegs) (.bra com 2) = some r ∧ r.target.toNat % 4 ≠ 0 := by
  refine ⟨?_, fun _ _ h => can .user _ _ _ _ _ h, ⟨_, rfl, by decide +kernel⟩⟩
  intro i hi
  simp only [transfers, List.mem_cons, List.not_mem_nil, or_false] at hi
  rcases hi with rfl | rfl | rfl | rfl | rfl | rfl <;> exact ⟨_, rfl, rfl, by decide +kernel, by decide +kernel⟩
/-- Partition 1 with nothing mapped. -/
def params1 : PartParams := ⟨1, [0], [], 0, [], 1, [], [], 0x1000, 32, 4096, 4, 2⟩
def part1 : Partition := Partition.start params1 []
def inPart (y : Partition) : State := { State.reset with parts := [(1, y)] }
abbrev stew (y : Partition) : State := world .steward [] core0 theCore blk0 (inPart y)
theorem witness_ThreadControl :
    Alone (plain []) gA 0 (plainB []) (thrP .user []) core0 ∧
    CanIssue (plain []) gA 0 (plainB []) (thrP .user []) core0 com [] [] ∧
    CanIssue (world .boot [] core0 theCore { blk0 with part := none } State.reset) gA 0
      (blkOf .boot [] core0 { blk0 with part := none }) (thrP .boot []) core0 com [] [] ∧
    (∀ y, CanIssue (stew y) gA 0 (blkOf .steward [] core0 blk0) (thrP .steward []) core0 com [] [] ∧
      (blkOf .steward [] core0 blk0).part = some 1 ∧ (stew y).part 1 = some y) ∧
    part1.eventPend = false ∧ part1.pendCount = 0 ∧ { part1 with eventPend := true }.eventPend = true :=
  ⟨alone .., can .user _ _ _ _ _ rfl, can .boot _ _ _ _ _ rfl, fun _ => ⟨can .steward _ _ _ _ _ rfl, rfl, rfl⟩, rfl, rfl, rfl⟩
/-- A register of the thread, of the partition for its steward, of the core in boot mode; a user's read of a steward's
register; a number that names none; a reserved rounding mode. -/
theorem witness_ControlRegisters :
    Csr.ofNum 0 = some .fpcsr ∧ Csr.ofNum 0x042 = some .slice ∧ Csr.ofNum 0x020 = some .bootvec ∧ Csr.ofNum 0xFFF = none ∧
    CanIssue (plain [(4, 0x300)]) gA 0 (plainB [(4, 0x300)]) (thrP .user [(4, 0x300)]) core0 com [(.v 4, false)] [] ∧
    CanIssue (plain []) gA 0 (plainB []) (thrP .user []) core0 com [] [(.v 20, false)] ∧
    CanIssue (stew part1) gA 0 (blkOf .steward [] core0 blk0) (thrP .steward []) core0 com [] [(.v 20, false)] ∧
    Csr.level .fpcsr ≤ Priv.level .user ∧ Csr.level .slice ≤ Priv.level .steward ∧ Priv.level .user < Csr.level .slice ∧
    CsrThere (plain []) (plainB []) .fpcsr ∧ CsrThere (stew part1) (blkOf .steward [] core0 blk0) .slice ∧
    Csr.readOnly .fpcsr = false ∧ csrOk .fpcsr 0x300 = true ∧ csrOk .fpcsr 0x400 = false ∧ Csr.readOnly .thstat = true ∧
    (∀ i ∈ [Instr.csrw com 0 (.v 4), .csrwSet com 0 (.v 4), .csrwClr com 0 (.v 4)], csrWriteForm i ≠ none) := by
  refine ⟨rfl, rfl, rfl, rfl, can .user _ _ _ _ _ rfl, can .user _ _ _ _ _ rfl, can .steward _ _ _ _ _ rfl, by decide, by decide,
    by decide, nofun, fun _ => ⟨1, rfl, nofun⟩, rfl, by decide +kernel, by decide +kernel, rfl, ?_⟩
  intro i hi
  simp only [List.mem_cons, List.not_mem_nil, or_false] at hi
  rcases hi with rfl | rfl | rfl <;> simp [csrWriteForm]
theorem witness_IssueAndCompletionFrames : Alone (plain []) gA 0 (plainB []) (thrP .user []) core0 := alone ..

/-- The world of a user thread whose block's core is `x`, its block and what may be issued there. -/
abbrev onCore (regs : List (Nat × Word)) (x : BlockCore) : State := world .user regs x theCore blk0 State.reset
abbrev onCoreB (regs : List (Nat × Word)) (x : BlockCore) : Block := blkOf .user regs x blk0
/-- The user thread may issue what reads `srcs` and writes `dsts`. -/
abbrev MayOn (regs : List (Nat × Word)) (x : BlockCore) (srcs dsts : List Src) : Prop :=
  MayIssue (onCore regs x) gA 0 (onCoreB regs x) (thrP .user regs) x com srcs dsts
theorem mayOn (regs : List (Nat × Word)) (x : BlockCore) {srcs dsts : List Src} (h : opsOk srcs dsts = true) :
    MayOn regs x srcs dsts := may regs x theCore blk0 State.reset h

/-- Tile 3 is the block's last and tile 4 none; a valid control value and one with no rows. -/
theorem witness_TileControlAndWritePointers :
    MayOn [] withTiles [] [(.v 20, false)] ∧ MayOn [(4, 0x00B00202)] withTiles [(.v 4, false)] [] ∧
    withTiles.headOp 8 = none ∧ (3 : BitVec 4).toNat < blk0.ntile ∧ blk0.ntile ≤ (4 : BitVec 4).toNat ∧
    tcOk 0x00B00202 = true ∧ tcOk 0x00B00002 = false :=
  ⟨mayOn _ _ rfl, mayOn _ _ rfl, rfl, by decide, by decide, by decide +kernel, by decide +kernel⟩

/-- Each way that TBL.LOAD goes: an address that is no multiple of 64, one past the address space, no slot free, and one
that starts; each state of a slot for TBL.COMMIT and TBL.EVAL. -/
def tblMem : MemOp := ⟨.global, .v 4, .zero, 0, false, 0⟩
def tblCore (sh : Shadow) : BlockCore := { core0 with tables := [(1, ⟨some (sq4, 1), sh⟩)] }
/-- A result that is this error; one that is a value. -/
def isErr {α : Type} (r : Except Cls α) (c : Cls) : Bool := match r with
  | .error e => decide (e = c)
  | .ok _ => false
theorem isErr_eq {α : Type} {r : Except Cls α} {c : Cls} (h : isErr r c = true) : r = .error c := by
  cases r with
  | error e => simp [isErr] at h; rw [h]
  | ok a => cases h
theorem isOk_eq {ε α : Type} {r : Except ε α} (h : r.isOk = true) : ∃ a, r = .ok a := by
  cases r with
  | error e => cases h
  | ok a => exact ⟨a, rfl⟩
def tblEa (lo hi : Word) : Nat :=
  (address tblMem (reads (onCore [(4, lo), (5, hi)] core0) gA 0 0 (.v 4, true))
    (reads (onCore [(4, lo), (5, hi)] core0) gA 0 0 (.zero, false))).toNat
theorem witness_TableInstructions :
    (∀ regs x, MayOn regs x (memSrcs tblMem) [(.v 20, false)] ∧ MayOn regs x [(.v 6, false)] [(.v 20, false)] ∧
      MayOn regs x [] [(.v 20, false)] ∧ MayOn regs x [] []) ∧
    tblEa 0x1020 0 % 64 ≠ 0 ∧ tblEa 0x1000 0 % 64 = 0 ∧ 2 ^ 52 ≤ tblEa 0 0x100000 ∧ tblEa 0xFFFFFFC0 0xFFFFF < 2 ^ 52 ∧
    (core0.setSlot 1 { core0.slot 1 with shadow := .empty }).freeSlots blk0.tslots = 2 ∧
    ((tblCore .empty).setSlot 1 { (tblCore .empty).slot 1 with shadow := .empty }).freeSlots blk0.tslots = 1 ∧
    ((tblCore (.ready sq4 1)).slot 1).shadow = .ready sq4 1 ∧ ((tblCore .empty).slot 1).shadow = .empty ∧
    ((tblCore (.invalid 2 1)).slot 1).shadow = .invalid 2 1 ∧
    ((tblCore (.pending 1 0x1000 1 .global .user)).slot 1).shadow = .pending 1 0x1000 1 .global .user ∧
    (core0.slot 1).cur = none ∧ ((tblCore .empty).slot 1).cur = some (sq4, 1) ∧
    (∃ p, sq4.eval (tblIn .f32 0x3FC00000) = .ok p) ∧ sq4.eval (tblIn .f32 0x40200000) = .error .tblGap ∧
    sq4.eval (tblIn .f32 0xBF800000) = .error .tblDomain := by
  refine ⟨fun _ _ => ⟨mayOn _ _ rfl, mayOn _ _ rfl, mayOn _ _ rfl, mayOn _ _ rfl⟩, ?_, ?_, ?_, ?_, ?_, ?_, rfl, rfl, rfl,
    rfl, rfl, rfl, isOk_eq (by decide +kernel), isErr_eq (by decide +kernel), isErr_eq (by decide +kernel)⟩ <;> decide +kernel
/-- The load that is pending on slot 1 has its operation, and one in scratch whose image is zeros; SEL.DRAIN's forms. -/
def loadOp : EngineOp := ⟨9, 1, .tblLoad 1, none, 0, .queued, 0x1000, .user, 0, []⟩
def loadCore (sp : Space) : BlockCore :=
  { core0 with tables := [(1, ⟨some (sq4, 1), .pending 1 64 1 sp .user⟩)], ops := [loadOp] }
theorem witness_TableLoads :
    MayOn [(4, 0x1000)] (loadCore .global) (memSrcs tblMem) [(.v 20, false)] ∧
    (loadCore .global).ops.find? (fun o => o.loads 1 && !o.dropped) = some loadOp ∧
    ((loadCore .global).slot 1).shadow = .pending 1 64 1 .global .user ∧ tblEa 0x1000 0 % 64 = 0 ∧
    1 ≤ (((loadCore .global).setSlot 1 { (loadCore .global).slot 1 with shadow := .empty }).freeSlots blk0.tslots) ∧
    core0.ops.any (·.loads 1) = false ∧
    ((onCore [] (loadCore .scratch)).blockOn 0 5 = some (onCoreB [] (loadCore .scratch), 0) ∧ (loadCore .scratch).headOp 9 = some loadOp ∧
      loadOp.dropped = false ∧ (loadCore .scratch).stash = [] ∧
      64 + 64 + 24 * (scratchImage (loadCore .scratch) 64).nseg ≤ blk0.scratch) :=
  ⟨mayOn _ _ rfl, rfl, rfl, by decide +kernel, by decide +kernel, rfl, rfl, rfl, rfl, rfl, by decide +kernel⟩

/-- Counts 0, 64 and 65; a context that is bound, one that is not, and no context free. -/
def fullSel : BlockCore := { core0 with sel := (List.range 4).map fun k => (k, ⟨k, .f32, false, 1, [], false⟩) }
def topThree : SelCtx := ⟨0, .f32, false, 3, [(0x3F000000, 11), (0x3F800000, 20), (0x40000000, 10)], false⟩
theorem witness_SelectionInstructions :
    (∀ regs x, MayOn regs x [(.v 4, false)] [(.v 20, false)] ∧ MayOn regs x [(.v 4, false), (.v 6, false)] [] ∧
      MayOn regs x [(.v 4, false)] [(.v 20, true)] ∧ MayOn regs x [] [(.v 20, true)]) ∧
    ((reads (onCore [(4, 64)] core0) gA 0 0 (.v 4, false)).toNat = 64) ∧
    (reads (onCore [(4, 65)] core0) gA 0 0 (.v 4, false)).toNat = 65 ∧
    (∃ y, Kv.find 0 withSel.sel = some y) ∧ Kv.find 1 withSel.sel = none ∧ (onCore [] core0).freeCtx 0 = some 0 ∧
    (∃ s : State, s = { onCore [] core0 with blocks := [(5, onCoreB [] core0), (6, onCoreB [] fullSel)] } ∧
      MayIssue s gA 0 (onCoreB [] core0) (thrP .user []) core0 com [(.v 4, false)] [(.v 20, false)] ∧
      Kv.find 0 core0.sel = none ∧ s.freeCtx 0 = none) ∧
    (topThree.entries.Pairwise fun a b => topThree.rank a ≤ topThree.rank b) ∧ topThree.entries.length ≤ topThree.k ∧
    fIsNan .f32 0x7FC00000 = true ∧ fIsNan .f32 0x3F000000 = false := by
  refine ⟨fun _ _ => ⟨mayOn _ _ rfl, mayOn _ _ rfl, mayOn _ _ rfl, mayOn _ _ rfl⟩, by decide +kernel, by decide +kernel, ⟨_, rfl⟩, rfl, by decide +kernel,
    ⟨_, rfl, ?_, rfl, by decide +kernel⟩, by decide +kernel, by decide +kernel,
    by decide +kernel, by decide +kernel⟩
  exact ⟨⟨⟨rfl, rfl, rfl, rfl, rfl, rfl, rfl⟩, active_com _, readable_all (t := thrP .user []) (by decide),
    writable_all (t := thrP .user []) (by decide)⟩, nofun⟩

/-- Eight threads of squad 0 issue together. -/
def squadThr (k : Nat) : Thread := { Thread.start 0x1000 32 .user k 0 0 with regs := [(4, BitVec.ofNat 32 k)] }
def squadBlk : Block :=
  { blk0 with shape := (8, 1, 1), threads := (List.range 8).map fun k => (k, squadThr k), cores := [(0, core0)] }
def squad8 : State :=
  { lone (thr []) core0 with
    blocks := [(5, squadBlk)]
    cores := [(0, { theCore with entries := [(0, { ent with members := List.range 8 })] })] }
def gSquad : Grp := { gA with members := List.range 8 }
theorem witness_SquadIssue (srcs dsts : List Src) (h : opsOk srcs dsts = true) :
    SquadIssue squad8 gSquad 0 com 0xFF srcs dsts := by
  have hp : (squad8.block 5).participants 0 0xFF = List.range 8 := by decide +kernel
  refine ⟨rfl, rfl, rfl, fun i => ?_, by decide +kernel, fun i hi => ?_, fun e en he => ?_⟩
  · show i ∈ List.range 8 ↔ i ∈ (squad8.block 5).participants 0 0xFF
    rw [hp]
  · have hi : i < 8 := List.mem_range.1 hi
    refine ⟨squadThr i, ?_, rfl, nofun, active_com _, readable_all (t := squadThr i) (Bool.and_eq_true_iff.1 h).1,
      writable_all (t := squadThr i) (Bool.and_eq_true_iff.1 h).2⟩
    have : i = 0 ∨ i = 1 ∨ i = 2 ∨ i = 3 ∨ i = 4 ∨ i = 5 ∨ i = 6 ∨ i = 7 := by omega
    rcases this with rfl | rfl | rfl | rfl | rfl | rfl | rfl | rfl <;> rfl
  · rcases e with _ | e
    · cases he
      exact ⟨nofun, fun h => absurd rfl h⟩
    · cases he
theorem witness_SquadResults : SquadIssue squad8 gSquad 0 com 0xFF [(.v 4, false), (.v 20, false)] [(.v 20, false)] ∧
    SquadIssue squad8 gSquad 0 com 0xFF [(.v 4, true)] [(.v 20, true)] ∧ SquadIssue squad8 gSquad 0 com 0xFF [] [] :=
  ⟨witness_SquadIssue _ _ rfl, witness_SquadIssue _ _ rfl, witness_SquadIssue _ _ rfl⟩
/-- Thread 0 alone with a mask that leaves it out, and one that names thread 1, which has not arrived. -/
def pairBlk : Block := { blk0 with shape := (2, 1, 1), threads := [(0, thrP .user []), (1, squadThr 1)], cores := [(0, core0)] }
def pairState : State := { lone (thr []) core0 with blocks := [(5, pairBlk)] }
theorem witness_SquadWaits :
    MayIssue pairState gA 0 pairBlk (thrP .user []) core0 com [] [] ∧
    (∀ e en, pairState.entry 0 e = some en → en.members ≠ [] ∧ (e ≠ 0 → en.block = 5 → 0 ∉ en.members)) ∧
    (2 : Word).toNat.testBit 0 = false ∧ pairBlk.participants 0 2 = [1] ∧ (3 : Word).toNat.testBit 0 = true ∧
    pairBlk.participants 0 3 = [0, 1] ∧ pairState.arrived 5 0x2000 1 = false := by
  refine ⟨⟨⟨⟨rfl, rfl, rfl, rfl, rfl, rfl, rfl⟩, active_com _, nofun, nofun⟩, nofun⟩, fun e en he => ?_, by decide,
    by decide +kernel, by decide, by decide +kernel, by decide +kernel⟩
  rcases e with _ | e
  · cases he
    exact ⟨nofun, fun h => absurd rfl h⟩
  · cases he

/-- The tiles of the worked example of spec/09 for a product; a tile not configured, one of another shape, a failed one,
ternary and integer tiles, and a full queue. -/
def used3 : List Nat := [2, 0, 1]
def mixedTiles : BlockCore :=
  { withTiles with tiles := withTiles.tiles ++ [(3, { tile 0x00C00201 [[1]] with failed := true })] }
def ternTiles : BlockCore :=
  { core0 with tiles := [(0, tile 0x01100201 [[0x58]]), (1, tile 0x00000201 [[1, 2, 3]]), (2, tile 0x00200202 [[1]])] }
def fullQueue : Core := { theCore with mqueue := (List.range 8).map fun k => (5, k + 1) }
/-- A box of 2 × 2 BF16 elements at 0x8000, as a tensor record in memory at 0x4000 (R304). -/
def recWord : Nat :=
  0x8000 + 2 * 2 ^ 128 + 2 * 2 ^ 160 + 4 * 2 ^ 288 + 1 * 2 ^ 448 + 1 * 2 ^ 456 + 0x0C * 2 ^ 488 + 2 * 2 ^ 495
def recMem : List Host.Cell :=
  ((List.range 64).map fun k => (0x4000 + k, (BitVec.ofNat 8 (recWord / 256 ^ k) : Byte))).filter fun c => c.2 != 0
/-- The first MiB of memory is mapped at its own addresses, through an entry of the core's TLB and of those of the engines'
operation 1 of each timeline (R252, R253). -/
def firstMiB : TlbEntry := ⟨1, 0, 20, 0, 0, true, true, true, true⟩
def dramCore : Core :=
  { theCore with
    tlb := [firstMiB]
    ahead := (List.range 10).map fun tl => (tl + 16 + 2 ^ 40 * 5, [firstMiB]) }
def dramRest : State := { State.reset with interleave := [(0, 0x8000000000000000)], mem := recMem }
abbrev dram (regs : List (Nat × Word)) (x : BlockCore) : State := world .user regs x dramCore blk0 dramRest
theorem mayDram (regs : List (Nat × Word)) (x : BlockCore) {srcs dsts : List Src} (h : opsOk srcs dsts = true) :
    MayIssue (dram regs x) gA 0 (blkOf .user regs x blk0) (thrP .user regs) x com srcs dsts := may regs x dramCore blk0 dramRest h

theorem witness_MatrixOperationsIssue :
    (∀ x, MayOn [(5, 0x3F000000)] x [] [(.v 20, false)] ∧ MayOn [(5, 0x3F000000)] x [(.v 5, false)] [(.v 20, false)] ∧
      MayIssue (world .user [] x fullQueue blk0 State.reset) gA 0 (onCoreB [] x) (thrP .user []) x com [] [(.v 20, false)]) ∧
    (∀ n ∈ used3, n < blk0.ntile) ∧ (∃ n ∈ [2, 0, 4], blk0.ntile ≤ n) ∧
    mmaOk withTiles 2 0 1 .inPlace 0 (mmaFormats .bf16 .bf16 .f32 .f32) = true ∧
    (∀ n ∈ [0, 1] ++ accTiles 2 .inPlace, failedTile withTiles n = false) ∧
    [2, 0, 3].find? (fun n => (withTiles.tile n).tc.toNat == 0) = some 3 ∧
    (∀ n ∈ used3, n < blk0.ntile ∧ (withTiles.tile n).tc.toNat ≠ 0) ∧
    mmaOk withTiles 2 0 1 .inPlace 3 (mmaFormats .bf16 .bf16 .f32 .f32) = false ∧
    mmaOk ternTiles 2 0 1 .inPlace 4 true = true ∧ failedTile mixedTiles 3 = true ∧ failedTile mixedTiles 0 = false ∧
    tcCw (mixedTiles.tile 3).tc.toNat = tcCw (mixedTiles.tile 0).tc.toNat ∧
    tcFmt (withTiles.tile 2).tc.toNat ≠ tcFmt (withTiles.tile 0).tc.toNat ∧
    (∀ regs x, Room (onCore regs x) gA) ∧ ¬ Room (world .user [] core0 fullQueue blk0 State.reset) gA ∧
    matrixForm (.tchk com false (.v 20)) = true := by
  refine ⟨fun x => ⟨mayOn _ _ rfl, mayOn _ _ rfl, may [] x fullQueue blk0 State.reset rfl⟩, ?_, ?_, ?_, ?_, ?_, ?_, ?_, ?_, ?_,
    ?_, ?_, ?_, fun _ _ => (by decide : (0 : Nat) < 8), by unfold Room; decide, rfl⟩ <;> decide +kernel
/-- TLD and TST read the record at 0x4000; its box has the shape of tile 0. -/
def tldSrcs : List Src := (.v 4, true) :: groupOps 5 .zero
def tldRead : Option (Nat × State) :=
  (readRecord (issued (dram [(4, 0x4000)] withTiles) gA 0 (.tld com 0 (.v 20) (.v 4) .zero) tldSrcs) gA 0 0x4000).toOption
theorem witness_TensorTilesIssue :
    MayIssue (dram [(4, 0x4000)] withTiles) gA 0 (blkOf .user [(4, 0x4000)] withTiles blk0) (thrP .user [(4, 0x4000)])
      withTiles com tldSrcs [(.v 20, false)] ∧
    (tldRead.map fun r => (r.1, ((r.2.block 5).bc 0).tl 8, (r.2.core 0).mqueue)) =
      some (recWord, withTiles.tl 8, ((dram [(4, 0x4000)] withTiles).core 0).mqueue) ∧
    tBad recWord 0 = false ∧ boxTc recWord = some 0x00C00201 ∧ (withTiles.tile 0).tc ≠ 0 ∧
    tRows recWord = tcRows (withTiles.tile 0).tc.toNat ∧ tBox recWord 0 = tcElems (withTiles.tile 0).tc.toNat ∧
    tSblk recWord = 0 ∧ tcBs (withTiles.tile 0).tc.toNat = 0 ∧ tstFormats (withTiles.tile 0).tc.toNat recWord = true :=
  And.intro (mayDram _ _ rfl) (by decide +kernel)
/-- TROW at the last word of a row of 8 bytes, past it, in a lane without a row, and at an odd offset. -/
theorem witness_TileRows :
    (∀ regs, MayOn regs withTiles [(.v 4, false)] [(.v 20, false)] ∧ MayOn regs withTiles [(.v 4, false), (.v 6, true)] [] ∧
      MayOn regs withTiles [] [(.v 20, false)]) ∧ withTiles.headOp 8 = none ∧
    (2 : BitVec 4).toNat < blk0.ntile ∧ blk0.ntile ≤ (4 : BitVec 4).toNat ∧ (withTiles.tile 2).tc.toNat ≠ 0 ∧
    (withTiles.tile 3).tc.toNat = 0 ∧ 4 * tcCw (withTiles.tile 2).tc.toNat = 8 ∧ (withTiles.tile 2).failed = false ∧
    (thrP .user []).lane < tcRows (withTiles.tile 2).tc.toNat ∧ tcBs (withTiles.tile 2).tc.toNat = 0 ∧
    (reads (onCore [(4, 4)] withTiles) gA 0 0 (.v 4, false)).toNat = 4 ∧
    (reads (onCore [(4, 8)] withTiles) gA 0 0 (.v 4, false)).toNat = 8 :=
  ⟨fun _ => ⟨mayOn _ _ rfl, mayOn _ _ rfl, mayOn _ _ rfl⟩, by decide +kernel⟩
/-- The oldest operation of core 0's queue, of each kind. -/
def headState (kind : OpKind) : State :=
  let x : BlockCore := { withTiles with ops := [⟨8, 1, kind, none, 0, .queued, 0x1000, .user, 0, []⟩] }
  world .user [] x { dramCore with mqueue := [(5, 1)] } blk0 { dramRest with parts := [(1, part1)] }
theorem witness_MatrixOperationsComplete :
    (∀ kind, (headState kind).matrixHead 0 = some (5, 0, ⟨8, 1, kind, none, 0, .queued, 0x1000, .user, 0, []⟩)) ∧
    (tldRun 5 0 ⟨8, 1, .tld 0 (recWords recWord) 0x4000 [0, 0], none, 0, .queued, 0x1000, .user, 0, []⟩ 0
      (recNat (recWords recWord)) [0, 0] (tldUnits (recNat (recWords recWord))) 0
      ((headState (.tld 0 (recWords recWord) 0x4000 [0, 0])).modBc 5 0
        (·.reshape (.tld 0 (recWords recWord) 0x4000 [0, 0])))).2.2 = none ∧
    tldTern (headState (.tld 0 (recWords recWord) 0x4000 [0, 0])) 5 0 0 recWord = false :=
  ⟨fun _ => rfl, by decide +kernel, by decide +kernel⟩

/-- Scratch at the last word of the share; DRAM at 0x8000; and one that is out of range or misaligned. -/
def lastWord : MemOp := ⟨.scratch, .v 4, .zero, 0, false, 0⟩
def farWord : MemOp := ⟨.global, .v 4, .zero, 0, false, 0⟩
def regs8000 : List (Nat × Word) := [(4, 0x8000), (6, 0x11223344)]
theorem plainScratch : PlainScratch (onCoreB [(4, 4092)] core0) (thrP .user [(4, 4092)]) core0 lastWord
    (eaNow (onCore [(4, 4092)] core0) gA 0 lastWord) 4 :=
  ⟨nofun, rfl, by decide +kernel, by decide +kernel, by decide +kernel⟩
/-- What keeps an access to 0x8000 plain in a state like that of `dram`. -/
theorem plainDram (s : State) (f : Form) (a : Access)
    (h : resolve gA 0 f .global a 0x8000 4 s = .ok (.phys 0x8000 0, s)) (h1 : s.target 0x8000 = .dram)
    (h2 : s.raceWindow 5 0x8000 = none) (h3 : s.stashPages = []) (h4 : s.poisonedIn 0x8000 4 = none)
    (h5 : (linesOf 0x8000 4).all (fun l => !s.probing l) = true) :
    PlainDram s gA 0 f farWord a 0x8000 4 0x8000 0 s :=
  ⟨h, h1, h2, by rw [h3]; rfl, h4, by decide, fun l hl => by simpa using List.all_eq_true.1 h5 l hl⟩
def issuedLd : State := issued (dram regs8000 core0) gA 0 (.ld com .b32 false .relaxed (.v 20) farWord) (memSrcs farWord)
def issuedSt : State :=
  issued (dram regs8000 core0) gA 0 (.st com .b32 false .relaxed (.v 6) farWord) (memSrcs farWord ++ dataOps false .b32 false (.v 6))
theorem witness_LoadsAndStores :
    (∀ regs, CanIssue (onCore regs core0) gA 0 (onCoreB regs core0) (thrP .user regs) core0 com (memSrcs lastWord)
        (dataOps true .b32 false (.v 20)) ∧
      CanIssue (onCore regs core0) gA 0 (onCoreB regs core0) (thrP .user regs) core0 com
        (memSrcs lastWord ++ dataOps false .b32 false (.v 6)) [] ∧ (onCore regs core0).lazyMem = false) ∧
    CanIssue (dram regs8000 core0) gA 0 (blkOf .user regs8000 core0 blk0) (thrP .user regs8000) core0 com (memSrcs farWord)
      (dataOps true .b32 false (.v 20)) ∧
    (Instr.ld com .b32 false .relaxed (.v 20) lastWord).wf = true ∧ (Instr.st com .b32 false .relaxed (.v 6) farWord).wf = true ∧
    PlainScratch (onCoreB [(4, 4092)] core0) (thrP .user [(4, 4092)]) core0 lastWord
      (eaNow (onCore [(4, 4092)] core0) gA 0 lastWord) 4 ∧ eaNow (dram regs8000 core0) gA 0 farWord = 0x8000 ∧
    PlainDram issuedLd gA 0 ⟨true, true⟩ farWord .load 0x8000 4 0x8000 0 issuedLd ∧
    PlainDram issuedSt gA 0 ⟨true, true⟩ farWord .store 0x8000 4 0x8000 0 issuedSt :=
  ⟨fun _ => ⟨can .user _ _ _ _ _ rfl, can .user _ _ _ _ _ rfl, rfl⟩, can .user _ _ _ _ _ rfl, by decide +kernel, by decide +kernel,
    plainScratch, by decide +kernel, plainDram _ _ _ rfl (by decide +kernel) (by decide +kernel) rfl (by decide +kernel) (by decide +kernel),
    plainDram _ _ _ rfl (by decide +kernel) (by decide +kernel) rfl (by decide +kernel) (by decide +kernel)⟩
/-- ATOM.add, ATOM.cas with both values, RED and AMAXSW. -/
def rmws (m : MemOp) : List Instr :=
  [.atom com .add .f32 .relaxed (.v 20) .res0 { m with wide := false }, .atom com .cas .b32 .relaxed (.v 20) (.v 6) { m with wide := true },
   .red com .min .i32 .relaxed (.v 6) m, .amaxsw com .relaxed (.v 20) m]
theorem witness_ReadModifyWrites :
    (∀ i ∈ (rmws lastWord).take 3 ++ rmws farWord, i.wf = true ∧ ∃ f, rmwForm i = some f ∧ f.com = com ∧
      opsOk (memSrcs f.m ++ f.srcs) f.dsts = true) ∧
    (∀ i ∈ rmws farWord, ∃ f, rmwForm i = some f ∧
      resolve gA 0 ⟨f.window, false⟩ .global .store 0x8000 4 (issued (dram regs8000 core0) gA 0 i (memSrcs f.m ++ f.srcs)) =
        .ok (.phys 0x8000 0, issued (dram regs8000 core0) gA 0 i (memSrcs f.m ++ f.srcs))) := by
  constructor
  · intro i hi
    simp only [rmws, List.take, List.mem_append, List.mem_cons, List.not_mem_nil, or_false] at hi
    rcases hi with (rfl | rfl | rfl) | rfl | rfl | rfl | rfl <;>
      exact ⟨by decide +kernel, _, rfl, rfl, by decide +kernel⟩
  · intro i hi
    simp only [rmws, List.mem_cons, List.not_mem_nil, or_false] at hi
    rcases hi with rfl | rfl | rfl | rfl <;> exact ⟨_, rfl, rfl⟩
/-- Two elements in turn, at 0x8000 and 0x8004. -/
def twoWords : MemOp := ⟨.global, .v 4, .v 8, 2, false, 0⟩
def regsTwo : List (Nat × Word) := [(4, 0x8000), (9, 1)]
def issuedLdg : State :=
  issued (dram regsTwo core0) gA 0 (.ldg com .b32 1 .relaxed (.v 20) twoWords) ((.v 4, true) :: indexOps 1 twoWords)
theorem witness_GathersAndScatters :
    MayIssue (dram regsTwo core0) gA 0 (blkOf .user regsTwo core0 blk0) (thrP .user regsTwo) core0 com
      ((.v 4, true) :: indexOps 1 twoWords) (ldgDsts 1 .b32 (.v 20)) ∧
    MayIssue (dram regsTwo core0) gA 0 (blkOf .user regsTwo core0 blk0) (thrP .user regsTwo) core0 com
      ((.v 4, true) :: (indexOps 1 twoWords ++ sctSrcs 1 .b32 (.v 20))) [] ∧
    (Instr.ldg com .b32 1 .relaxed (.v 20) twoWords).wf = true ∧ (Instr.sct com .b32 1 .relaxed (.v 20) twoWords).wf = true ∧
    ∀ k < 2, effAddr twoWords (reads (dram regsTwo core0) gA 0 0 (.v 4, true))
        ((values (dram regsTwo core0) gA 0 (indexOps 1 twoWords)).getD k 0) = 0x8000 + 4 * k ∧
      resolve gA 0 ⟨false, false⟩ .global .load (0x8000 + 4 * k) 4 issuedLdg = .ok (.phys (0x8000 + 4 * k) 0, issuedLdg) ∧
      issuedLdg.target (0x8000 + 4 * k) = .dram ∧ issuedLdg.poisonedIn (0x8000 + 4 * k) 4 = none := by
  refine ⟨mayDram _ _ rfl, mayDram _ _ rfl, by decide +kernel, by decide +kernel, fun k hk => ?_⟩
  have : k = 0 ∨ k = 1 := by omega
  rcases this with rfl | rfl <;> exact ⟨by decide +kernel, rfl, by decide +kernel, by decide +kernel⟩

/-- Offsets at the ends of the share and of the window, addresses at the ends of the address space, and a translation. -/
theorem witness_MemoryInstructionsCourse :
    (thrP .user []).priv ≠ .boot ∧ 0 < 4 ∧ blk0.scratch ≤ 4096 ∧ 4092 < blk0.scratch ∧ 4092 % 4 = 0 ∧ 4093 % 4 ≠ 0 ∧
    4092 < (onCoreB [] core0).cores.length * (onCoreB [] core0).scratch ∧ 2 ^ 52 ≤ 0x10000000000000 ∧
    0x000FE00000000000 ≤ 0x000FE00000000FFC ∧ 0x000FE00000000FFC % 2 ^ 32 < blk0.scratch ∧
    ¬ (0x000FE00000000000 ≤ 0x000FE00200000000 ∧ 0x000FE00200000000 < 0x000FE00200000000) ∧
    (∃ y, issuedLd.translate 0 1 .user .load 0x8000 = .ok (y, issuedLd)) ∧
    resolve gA 0 ⟨true, true⟩ .global .load 0x8002 4 issuedLd = .error (.exc ⟨.align, 0, 0, 0x8002, 0⟩) := by
  refine ⟨nofun, ?_, ?_, ?_, ?_, ?_, ?_, ?_, ?_, ?_, ?_, ⟨_, rfl⟩, by rfl⟩ <;> decide +kernel
/-- An instruction of each kind whose work is done at issue, and stays pending under `lazyMem`, with its work. -/
def lazyLd : State := { dram regs8000 core0 with lazyMem := true }
def pendLd : PendInstr := ⟨0x1000, .ld com .b32 false .relaxed (.v 20) farWord, [(0, [0x8000, 0])]⟩
def pendState : State := (dram regs8000 core0).modEntry 0 0 fun en => { en with pend := [pendLd] }
theorem witness_PendingAccesses :
    (∀ i ∈ rmws farWord ++ [.ld com .b32 false .relaxed (.v 20) farWord, .st com .b32 false .relaxed (.v 6) farWord,
      .ldg com .b32 1 .relaxed (.v 20) twoWords, .sct com .b32 1 .relaxed (.v 20) twoWords],
      ∃ c srcs dsts noBoot, memForm i = some (c, srcs, dsts, noBoot) ∧ c = com ∧ opsOk srcs dsts = true) ∧
    lazyLd.lazyMem = true ∧ CanIssue lazyLd gA 0 (blkOf .user regs8000 core0 blk0) (thrP .user regs8000) core0 com
      (memSrcs farWord) (dataOps true .b32 false (.v 20)) ∧
    (∃ work s1, pendWork (.ld com .b32 false .relaxed (.v 20) farWord) = some work ∧
      work gA [(0, values (dram regs8000 core0) gA 0 (memSrcs farWord))] issuedLd = .ok s1) ∧
    (∃ en, pendState.entry 0 0 = some en ∧ en.pend = pendLd :: []) := by
  refine ⟨?_, rfl, can .user _ _ _ _ { dramRest with lazyMem := true } rfl, ⟨_, _, rfl, rfl⟩, ⟨_, rfl, rfl⟩⟩
  intro i hi
  simp only [rmws, List.mem_append, List.mem_cons, List.not_mem_nil, or_false] at hi
  rcases hi with (rfl | rfl | rfl | rfl) | rfl | rfl | rfl | rfl <;> exact ⟨_, _, _, _, rfl, rfl, by decide +kernel⟩

/-- A stash page at scratch offset 0 with home 0x8000, and the ways STASH.MAP and RACEW go. -/
def stashCore : BlockCore := { core0 with stash := [⟨0, 0x8000, []⟩] }
def page4 : MemOp := ⟨.global, .v 4, .zero, 0, true, 0⟩
theorem witness_FencesHintsAndStash :
    (∀ regs x, CanIssue (dram regs x) gA 0 (blkOf .user regs x blk0) (thrP .user regs) x com [] [] ∧
      CanIssue (dram regs x) gA 0 (blkOf .user regs x blk0) (thrP .user regs) x com (memSrcs farWord) [] ∧
      MayIssue (dram regs x) gA 0 (blkOf .user regs x blk0) (thrP .user regs) x com
        (memSrcs page4 ++ [(.v 6, false), (.v 7, false)]) [] ∧
      MayIssue (dram regs x) gA 0 (blkOf .user regs x blk0) (thrP .user regs) x com [(.v 6, false), (.v 7, false)] [] ∧
      MayIssue (dram regs x) gA 0 (blkOf .user regs x blk0) (thrP .user regs) x com (memSrcs farWord ++ [(.v 7, false)]) []) ∧
    hintRange (dram regs8000 core0) gA 0x8000 = true ∧ inAperture (dram regs8000 core0) gA 0x8000 = false ∧
    hintRange (dram regs8000 core0) gA 0x10000000000000 = false ∧ stashCore.homePage 0x8040 = some ⟨0, 0x8000, []⟩ ∧
    core0.homePage 0x8000 = none ∧ stashCore.stashPage (64 * 1) = some ⟨0, 0x8000, []⟩ ∧
    (⟨0, 0x8000, []⟩ : StashPage).line (64 * 1) = none ∧
    (∃ b j, Kv.find 5 (dram [] stashCore).blocks = some b ∧ b.bcOn 0 = some j ∧ b.bc j = stashCore) ∧
    (0 < 1 ∧ 1 ≤ 256 ∧ 0 + 4096 * 1 ≤ blk0.scratch ∧ 0x8000 + 4096 * 1 ≤ 2 ^ 52 ∧ touchesWindow 0x8000 4096 = false) ∧
    ¬ (4096 + 4096 * 1 ≤ blk0.scratch) ∧ 256 < 300 ∧ 0x8040 % 4096 ≠ 0 ∧ (dram [] stashCore).stashCount 0 = 1 ∧
    (0x4000000 % 64 = 0 ∧ 64 ≤ 0x4000000 ∧ 0x8000 + 0x4000000 ≤ 2 ^ 52 ∧ touchesWindow 0x8000 0x4000000 = false) ∧
    touchesWindow 0x000FDFFFFFFFFFC0 128 = true ∧ Scope.wide .die = true ∧ Scope.wide .blk = false := by
  refine ⟨
    fun _ _ => ⟨can .user _ _ _ _ _ rfl, can .user _ _ _ _ _ rfl, may _ _ _ _ _ rfl, may _ _ _ _ _ rfl, may _ _ _ _ _ rfl⟩,
    ?_, ?_, ?_, rfl, rfl, rfl, rfl, ⟨_, _, rfl, rfl, rfl⟩, ?_, ?_, ?_, ?_, ?_, ?_, ?_, rfl, rfl⟩ <;> decide +kernel
/-- Three stash pages left and 254 asked for are too many where 253 are not. -/
theorem witness_StashSpace :
    let x : BlockCore := { core0 with stash := (List.range 3).map fun k => ⟨4096 * k, 0x100000 * k, []⟩ }
    (dram [] x).stashCount 0 = 3 ∧ 256 < 3 + 254 ∧ 3 + 253 ≤ 256 := by decide +kernel
/-- Memory in its canonical form, with a byte listed and without. -/
theorem witness_MemoryReadsWhatWasWritten :
    Memory.wf [] = true ∧ Memory.wf [(3, 1), (5, 2)] = true ∧ 0x1122 < 256 ^ 2 := by decide +kernel
/-- A posted write of block 5, unacknowledged: a release at package scope waits; without one, none waits at any scope. -/
def postedWrite : RemoteReq := ⟨0, 0, none, 1, 0, 0, none, some (5, FaultRec.ofKind 0x02), none, 1, 0x10000000000, false⟩
theorem witness_Orders :
    ({ dram [] core0 with reqs := [(0, postedWrite)] } : State).posting 5 = true ∧ Settled (dram [] core0) 5 true ∧
    (∀ o, OrderMet (dram [] core0) 5 o) ∧ (dram [] core0).atomReq (gA.actor (dram [] core0) 0) 0 = none := by
  have h (d : Bool) : Settled (dram [] core0) 5 d := ⟨rfl, rfl, rfl, fun _ => rfl⟩
  exact ⟨rfl, h true, fun o _ _ => h o.dom, rfl⟩

/-- A barrier at offset 0x50 of tag 5 with `v` arrivals of `r` pending in phase `ph`; a poisoned one; one of another tag. -/
def barBytes (o : Bar) : List (Nat × Byte) :=
  ((List.range 16).map fun k => (0x50 + k, (BitVec.ofNat 8 (o.toNat / 256 ^ k) : Byte))).filter fun c => c.2 != 0
def bar0 : Bar := ⟨5, false, false, false, 0xFFFF, 0, 2, 1, 15, 0, 0⟩
def barCore (o : Bar) : BlockCore := { core0 with scratch := barBytes o }
def barMem : MemOp := ⟨.scratch, .v 20, .zero, 0, false, 0⟩
def barRegs : List (Nat × Word) := [(4, 0x8000), (5, 1), (6, 0xC00), (7, 15), (8, 0x80000000), (20, 0x50)]
theorem barAt (o : Bar) : BarAt (onCore barRegs (barCore o)) gA 0 (onCoreB barRegs (barCore o)) (thrP .user barRegs) (barCore o)
    barMem 0x50 := ⟨rfl, rfl, show 0x50 < 4096 by decide, by decide, rfl⟩
/-- The last arrival in phase 15 wraps the phase; two arrivals pending do not; bytes pending do not; too many bytes are
refused; the phase that is waited for and another one. -/
theorem witness_BarrierInstructions :
    (∀ x, MayOn barRegs x (memSrcs barMem ++ [(.v 5, false)]) [] ∧ MayOn barRegs x (memSrcs barMem) [(.v 21, false)] ∧
      MayOn barRegs x (memSrcs barMem ++ [(.v 6, false)]) [(.v 21, false)]) ∧
    (∀ o, BarAt (onCore barRegs (barCore o)) gA 0 (onCoreB barRegs (barCore o)) (thrP .user barRegs) (barCore o) barMem 0x50) ∧
    (onCore barRegs (barCore bar0)).barGet 5 0 0x50 = bar0 ∧ bar0.valid 5 = true ∧ bar0.poisoned = false ∧ bar0.leaf = false ∧
    bar0.root = false ∧ 0 < bar0.arr ∧ bar0.arr = 1 ∧ bar0.bytes = 0 ∧ { bar0 with arr := 2 }.valid 5 = true ∧
    ((onCore barRegs (barCore { bar0 with bytes := -1024 })).barGet 5 0 0x50).bytes = -1024 ∧
    { bar0 with poisoned := true }.valid 5 = true ∧ { bar0 with tag := 6 }.valid 5 = false ∧
    (Kv.keys (onCoreB barRegs core0).threads).Nodup ∧
    (reads (onCore barRegs core0) gA 0 0 (.v 5, false)).toNat % 2 ^ 13 = 1 ∧
    (reads (onCore barRegs core0) gA 0 0 (.v 4, false)).toNat % 2 ^ 13 = 0 ∧
    (reads (onCore barRegs core0) gA 0 0 (.v 7, false)).toNat % 16 = bar0.phase ∧
    (reads (onCore barRegs core0) gA 0 0 (.v 6, false)).toNat % 16 ≠ bar0.phase ∧
    0x7FFFFFFF < (reads (onCore barRegs core0) gA 0 0 (.v 8, false)).toNat :=
  ⟨fun _ => ⟨mayOn _ _ rfl, mayOn _ _ rfl, mayOn _ _ rfl⟩, barAt, by decide +kernel⟩
/-- Timeline 2 with 3 issued and 2 completed, and a fail number. -/
def tlCore (done fail : Nat) : BlockCore := { core0 with tls := [(2, ⟨3, done, fail⟩)] }
theorem witness_TimelineInstructions :
    (∀ x, MayOn [(4, 2)] x [(.v 4, false)] [] ∧ MayOn [(4, 2)] x [] [] ∧ MayOn [(4, 2)] x [] [(.v 21, false)]) ∧
    (∀ x, ((List.range 12).filter fun n => (4 : BitVec 12).toNat.testBit n).map (fun n => (n, (BlockCore.tl x n).issued)) =
      [(2, (x.tl 2).issued)]) ∧
    (onCoreB [] (tlCore 3 0)).waitOver 0 [(2, 3)] = true ∧ (onCoreB [] (tlCore 3 0)).waitFail 0 [(2, 3)] = none ∧
    (onCoreB [] (tlCore 3 3)).waitFail 0 [(2, 3)] = some (2, 3) ∧ (onCoreB [] (tlCore 3 3)).waitFail 0 [(2, 2)] = none ∧
    (onCoreB [] (tlCore 2 0)).waitOver 0 [(2, 3)] = false ∧ (2 : Nat) < 2 ^ 32 := by
  refine ⟨fun _ => ⟨mayOn _ _ rfl, mayOn _ _ rfl, mayOn _ _ rfl⟩, fun _ => rfl, ?_⟩
  decide +kernel

/-- A copy of the whole share from 0x8000; one byte too many; an odd address; a barrier that is valid and one of another
tag. A gather of two rows, and the box of the record at 0x4000. -/
theorem witness_CopiesIssue :
    (∀ x, MayOn barRegs x [(.v 6, copyWide .s), (.v 4, copyWide .g)] [(.v 21, false)] ∧
      MayOn barRegs x ((.v 4, true) :: groupOps 2 (.v 6)) [(.v 21, false)] ∧ MayOn barRegs x [(.v 5, false)] []) ∧
    copyRange blk0 .s 0 4096 = true ∧ copyRange blk0 .s 4 4096 = false ∧ copyRange blk0 .g 0x8000 4096 = true ∧
    copyRange blk0 .g 0xFFFFFFFFFF000 4096 = true ∧ copyRange blk0 .g 0xFFFFFFFFFF004 4096 = false ∧
    16 * (5 : BitVec 12).toNat + 16 ≤ blk0.scratch ∧ BarReady (onCore barRegs core0) gA blk0 (thrP .user barRegs) 0xFFF ∧
    BarReady (onCore barRegs (barCore bar0)) gA blk0 (thrP .user barRegs) 5 ∧
    ((onCore barRegs (barCore { bar0 with tag := 6 })).barGet 5 0 (16 * (5 : BitVec 12).toNat)).valid blk0.tag = false := by
  refine ⟨fun _ => ⟨mayOn _ _ rfl, mayOn _ _ rfl, mayOn _ _ rfl⟩, ?_, ?_, ?_, ?_, ?_, ?_, .inl rfl, .inr ⟨?_, ?_, ?_⟩, ?_⟩ <;>
    decide +kernel
def copytSrcs : List Src := (.v 4, true) :: groupOps 6 (.v 10)
def issuedCopyt : State :=
  issued (dram [(4, 0x4000)] core0) gA 0 (.copyt com false false false 2 0xFFF 0 (.v 20) (.v 4) (.v 10)) copytSrcs
theorem witness_TensorCopiesIssue :
    MayIssue (dram [(4, 0x4000)] core0) gA 0 (blkOf .user [(4, 0x4000)] core0 blk0) (thrP .user [(4, 0x4000)]) core0 com copytSrcs
      [(.v 20, false)] ∧
    ((readRecord issuedCopyt gA 0 0x4000).toOption.map fun r => (r.1, decide (r.2 = issuedCopyt))) = some (recWord, true) ∧
    tBad recWord 0 = false ∧ boxBytes recWord = 8 ∧ copyRange blk0 .s 0 8 = true ∧ copyRange blk0 .g 0x4000 64 = true :=
  And.intro (mayDram _ _ rfl) (by decide +kernel)

/-- Engine operations at the head of their channel: a copy inside scratch that is not begun, one that is over, one that
reads a global address that is not mapped, a cancelled one, region entries of both kinds, and a table load. -/
def opOf (tl done : Nat) (kind : OpKind) (st : OpStat) : EngineOp := ⟨tl, 1, kind, none, done, st, 0x1000, .user, 0, []⟩
def opCore (o : EngineOp) : BlockCore := { core0 with ops := [o] }
def opState (o : EngineOp) (x : BlockCore) : State :=
  world .user [] { x with ops := [o] } dramCore blk0 { dramRest with parts := [(1, part1)] }
def copyOp : EngineOp := opOf 2 0 (.copy .s .s 0x100 0 16) .queued
def farOp : EngineOp := opOf 2 0 (.copy .s .g 0x100 0x200000 16) .queued
theorem witness_EngineOperations :
    (∀ o : EngineOp, (opState o core0).blockOn 0 5 = some (blkOf .user [] { core0 with ops := [o] } blk0, 0)) ∧
    (∀ (o : EngineOp) (x : BlockCore), o.tl = 2 → ({ x with ops := [o] } : BlockCore).headOp 2 = some o) ∧ blk0.phase ≠ .saved ∧
    ((opState copyOp core0).copyBytes 5 0 copyOp copyOp.groupBytes).2 = ({ copyOp with done := 16, owed := 16 }, none) ∧
    (∃ s, (opState copyOp core0).countOwed 5 0 { copyOp with done := 16, owed := 16 } = .ok (s, { copyOp with done := 16 }, true)) ∧
    (opState copyOp core0).engPosting 0 2 = false ∧
    copyOp = ⟨2, 1, .copy .s .s 0x100 0 16, none, 0, .queued, 0x1000, .user, 0, []⟩ ∧ core0.stash = [] ∧
    (runUnits 5 0 copyOp (16 / copyOp.kind.unit) 0 [] ((opState copyOp core0).ahead32 5 0 copyOp 0)).2.2.2 = none ∧ 16 % copyOp.kind.unit = 0 ∧
    (opOf 2 16 (.copy .s .s 0x100 0 16) .queued).kind.bytes ≤ 16 ∧
    (∃ e, (opState farOp core0).nextStop 5 0 farOp = some (.exc e) ∧ e.cls = .pageFault) := by
  refine ⟨fun _ => rfl, fun o x h => ?_, nofun, by decide +kernel, ⟨_, rfl⟩, rfl, rfl, rfl, by decide +kernel, by decide, by decide, ?_⟩
  · simp [BlockCore.headOp, h]
  · have h : ((opState farOp core0).nextStop 5 0 farOp).any (fun e => match e with
        | .exc e => decide (e.cls = .pageFault)
        | _ => false) = true := by decide +kernel
    generalize (opState farOp core0).nextStop 5 0 farOp = r at h
    cases r with
    | none => cases h
    | some e => cases e with
      | exc e => exact ⟨e, rfl, by simpa using h⟩
      | _ => cases h

/-- The 64-bit words `l`, each with its address, as cells of memory. -/
def cellsOf (l : List (Nat × Nat)) : List Host.Cell :=
  (l.flatMap fun w => (List.range 8).map fun k => (w.1 + k, (BitVec.ofNat 8 (w.2 / 256 ^ k) : Byte))).filter fun c => c.2 != 0
/-- A launch record at 0x10000 of one block of 8 threads, one that fails at word 3 at 0x10800, a root node at 0x11000, one
whose parent is itself at 0x11080, a root of no core at 0x11100, and a graph object of one entry at 0x12000 with its
parameters at 0x13000. -/
def stewMem : List Host.Cell :=
  cellsOf [(0x10000, 0x2000), (0x10010, 0x0001000100000001), (0x10018, 0x0004000100010008), (0x10800, 0x2000),
    (0x10810, 0x0001000100000001), (0x11010, 0x0000040000100004), (0x11018, 0x0010000000000100), (0x11080, 0x11080),
    (0x11118, 0x0010000000000000), (0x12000, 1), (0x12008, 0x12100), (0x12010, 0x13000), (0x12018, 0x100), (0x12100, 0x10000),
    (0x12110, 0xFFFFFFFFFFFFFFFF), (0x13000, 7)]
def stewRest : State := { dramRest with mem := stewMem, parts := [(1, part1)] }
abbrev stewDram (regs : List (Nat × Word)) : State := world .steward regs core0 dramCore blk0 stewRest
abbrev StewAt (regs : List (Nat × Word)) (srcs dsts : List Src) : Prop :=
  StewIssue (stewDram regs) gA 0 (blkOf .steward regs core0 blk0) (thrP .steward regs) core0 com srcs dsts 1
theorem stewAt (regs : List (Nat × Word)) {srcs dsts : List Src} (h : opsOk srcs dsts = true) : StewAt regs srcs dsts :=
  ⟨can .steward regs core0 dramCore blk0 stewRest h, rfl, rfl⟩
def launchSrcs : List Src := [(.v 4, true), (.v 6, true)]
def launchRegs (rec node : Word) : List (Nat × Word) := [(4, rec), (6, node)]
/-- What LAUNCH finds: the record, the chain, whether the block never fits. -/
def launchFinds (rec node : Word) : Option (Bool × Bool × Bool × Nat) :=
  let s := (issued (stewDram (launchRegs rec node)) gA 0 (.launch com (.v 20) (.v 4) (.v 6)) launchSrcs).releases 5 1
  match readLaunch s gA 0 rec.toNat with
  | .error _ => none
  | .ok (r, s1) =>
    match readChain s1 gA 0 8 node.toNat [] with
    | .error _ => none
    | .ok (chain, s2) =>
      let s3 := s2.holdNodes 1 (chain.getD [])
      match s3.part 1 with
      | none => none
      | some y => some (r.isOk, chain.isSome,
          match r, chain with
          | .ok z, some l => neverFits s3 1 y z.lrec l
          | _, _ => false, y.queued)
theorem witness_Launch :
    StewAt (launchRegs 0x10000 0x11000) launchSrcs [(.v 20, false)] ∧
    0x10020 % 64 ≠ 0 ∧ 0x11040 % 128 ≠ 0 ∧ launchFinds 0x10800 0x11000 = some (false, true, false, 0) ∧
    launchFinds 0x10000 0x11080 = some (true, false, false, 0) ∧ launchFinds 0x10000 0x11100 = some (true, true, true, 0) ∧
    launchFinds 0x10000 0x11000 = some (true, true, false, 0) := by
  refine ⟨stewAt _ rfl, ?_, ?_, ?_, ?_, ?_, ?_⟩ <;> decide +kernel
/-- GRAPH.RUN of a good header and a bad one, and a PATCH of the last 4 bytes of the area. -/
def graphFinds (ga node : Word) : Option (Bool × Bool × Nat × Bool) :=
  let s := (issued (stewDram (launchRegs ga node)) gA 0 (.graphRun com (.v 20) (.v 4) (.v 6)) launchSrcs).releases 5 1
  match readPieces s gA 0 ga.toNat 2 with
  | .error _ => none
  | .ok (w, s1) =>
    let h := GraphHdr.ofNat w
    match readRun s1 gA 0 h.recp h.nrec node.toNat with
    | .error _ => none
    | .ok (l, s2) => (s2.part 1).map fun y => (h.bad, l.isOk, (y.heldReplays ga.toNat).length,
        (Kv.get GraphState.fresh ga.toNat y.graphs).changed)
def patchFinds : Option (Nat × Bool) :=
  let s := (issued (stewDram [(4, 0x12000), (6, 0x10000), (8, 0x000400FC)]) gA 0 (.graphPatch com (.v 4) (.v 6) (.v 8))
    (launchSrcs ++ [(.v 8, false)])).releases 5 1
  match readPieces s gA 0 0x12000 2 with
  | .error _ => none
  | .ok (w, s1) => some ((GraphHdr.ofNat w).paramlen, (patchBytes gA 0 0x10000 ((GraphHdr.ofNat w).paramp +
      (GraphHdr.ofNat w).paramlen + 252) 1 s1).isOk)
/-- The replay of the graph object, held, released, and run to its end. -/
def replayOf (released : Bool) (doneEntries : List Nat) : Replay :=
  ⟨0x12000, 1, false, 0, 0x13000, 0x100, false, released, none, [], [], doneEntries⟩
theorem witness_LaunchesAndGraphs :
    (∀ regs, StewAt regs (launchSrcs ++ [(.v 8, false)]) []) ∧ graphFinds 0x12000 0x11000 = some (false, true, 0, false) ∧
    (readPieces (issued (stewDram (launchRegs 0x10000 0x11000)) gA 0 (.graphRun com (.v 20) (.v 4) (.v 6)) launchSrcs) gA 0 0x10000
      2).toOption.map (fun r => (GraphHdr.ofNat r.1).bad) = some true ∧ patchFinds = some (256, true) ∧ 252 + 4 ≤ 256 ∧
    (Kv.get GraphState.fresh 0x12000 part1.graphs).sealedBy = none ∧
    (∃ x r, ({ stewRest with parts := [(1, { part1 with replays := [replayOf false []] })] } : State).part 1 = some x ∧
      x.replays[0]? = some r ∧ r.released = false ∧ r.conc = false ∧ r.sealed = false ∧
      r.entries.length ≤ r.doneEntries.length ∧ ∀ q ∈ x.replays.take 0, q.graph ≠ r.graph) := by
  refine ⟨fun _ => stewAt _ rfl, ?_, ?_, ?_, ?_, rfl, ⟨_, _, rfl, rfl, rfl, rfl, rfl, by decide, nofun⟩⟩ <;> decide +kernel

/-- A grid of one block of 8 threads under the root node, its dependence met or not, waiting for 1 ms, and ended. -/
def rec8 : LaunchRec := ⟨0x2000, 0x123456789A, (1, 1, 1), (8, 1, 1), 4, 0, false, 0, 0, [], 0, 0⟩
def grid8 : Grid := Grid.ofEntry ⟨rec8, 0x10000, 0x11000, [], [], []⟩ 0 0 none
def root8 : Node := ⟨0, 0, 4, 16, 0x400, 0x100, 0, 0, false, true, 0, 0⟩
def gridPart (g : Grid) : Partition := { part1 with nodes := [(0x11000, root8)], grids := [(0, g)], nextOrder := 1 }
/-- Cores 0 to 3 are released, ready and empty. -/
def idleCores : List (Nat × Core) := (List.range 4).map fun k => (k, { Core.reset with released := true, ready := true })
def gridState (g : Grid) : State :=
  { State.reset with agenda := [], cores := idleCores, parts := [(1, gridPart g)], clock := 1000000, nextTag := 7 }
def place8 : Placement := ⟨false, [0], [List.replicate 8 0]⟩
theorem witness_DispatcherSteps :
    (gridState grid8).depsNow 1 0x10000 [] = .ok (gridState grid8, true, []) ∧ { grid8 with depsMet := false }.depsMet = false ∧
    (let s := (gridState { grid8 with candSince := some 0 }).refreshCands 1
     match s.part 1 with
     | none => false
     | some x => match Kv.find 0 x.grids with
       | none => false
       | some g => !g.lrec.coop && s.mayTake 1 x 0 g && decide (g.nextBlock < g.lrec.total) && s.budgetOk 1 g.node g.lrec.needs &&
           s.placeOk ((s.clustersOf 1 false).filter fun c => !(x.protectedFrom g).contains c) (g.needs 0) place8 &&
           decide (g.candSince = some 0)) = true ∧
    0 + 1000000 ≤ (gridState grid8).clock ∧ { grid8 with ended := 1 }.lrec.total ≤ 1 ∧ grid8.replay = none ∧ grid8.dead = false ∧
    ((gridState { grid8 with ended := 1 }).writeDone 1 rec8 0x10000).isOk = true := by
  refine ⟨rfl, rfl, ?_, ?_, ?_, rfl, rfl, ?_⟩ <;> decide +kernel

/-- A block of the grid that is halting with nothing left to do, one that is saved, and one that has been resident for
10 ms; a grid that has stalled. -/
def blkAt (ph : BlockPhase) : Block :=
  { blkOf .user [] { core0 with core := if ph = .saved then offCore 0 else 0 } blk0 with phase := ph, grid := 0, node := 0x11000 }
def preState (ph : BlockPhase) (g : Grid) : State :=
  { gridState g with
    blocks := [(5, blkAt ph)]
    cores := idleCores
    clock := 10000000 }
theorem witness_PreemptionAndRestore :
    (∀ ph, Kv.find 5 (preState ph grid8).blocks = some (blkAt ph) ∧ (blkAt ph).part = some 1) ∧ blockKey 1 5 = 5 ∧
    ((preState .halting grid8).block 5).phase = .halting ∧ (preState .halting grid8).inChain 5 = false ∧
    (preState .halting grid8).pendingOf 5 = [] ∧ (blkAt .halting).cancelling = none ∧
    (preState .halting grid8).matrixLeft 5 = none ∧ (preState .halting grid8).hasBegun 5 = false ∧
    (preState .halting grid8).lostBlock (blkAt .halting) = false ∧ (blkAt .halting).unlanded = none ∧
    (blkAt .saved).left = [] ∧ { blkAt .saved with left := [4] }.left ≠ [] ∧
    (preState .resident grid8).elsewhere 1 (blkAt .resident) [0] = some [1] ∧
    (let s := (preState .saved { grid8 with nextBlock := 1, returned := [5], candSince := some 0 }).refreshCands 1
     match s.part 1 with
     | none => false
     | some x => match Kv.find 0 x.grids with
       | none => false
       | some g => !g.lrec.coop && s.mayTake 1 x 0 g && decide (g.nextBlock = g.lrec.total) && decide (g.returned.head? = some 5) &&
           s.budgetOk 1 g.node (blkAt .saved).holds &&
           s.placeOk ((s.clustersOf 1 false).filter fun c => !(x.protectedFrom g).contains c) (blkAt .saved).needs ⟨false, [0], [[0]]⟩) =
      true ∧
    (blkAt .resident).phase = .resident ∧ (blkAt .resident).tag ≠ 0 ∧
    (blkAt .resident).since + 10000000 ≤ (preState .resident grid8).clock :=
  ⟨fun _ => ⟨rfl, rfl⟩, by decide +kernel⟩
/-- Each instruction of a steward, issued by a user's thread. -/
def stewards : List Instr :=
  [.launch com (.v 20) (.v 4) (.v 6), .graphRun com (.v 20) (.v 4) (.v 6), .graphPatch com (.v 4) (.v 6) (.v 8),
   .tretRep com (.v 20) (.v 4) (.v 6), .tretSkip com (.v 20) (.v 4) (.v 6), .tretKill com (.v 20) (.v 4) (.v 6),
   .tretCan com (.v 20) (.v 4) (.v 6), .tretKillb com (.v 20) (.v 4) (.v 6), .tretPre com (.v 20) (.v 4) (.v 6),
   .scrub com true (.v 20) (.v 4) (.v 6), .tlbiVa com (.v 4) (.v 6), .tlbiAll com, .harvest com (.v 20) (.v 4), .moor com (.v 20)]
theorem witness_StewardInstructionsNeedPrivilege :
    (stewards.all fun i => (stewForm i).isSome) = true ∧ Alone (plain []) gA 0 (plainB []) (thrP .user []) core0 ∧
    Active com (thrP .user []) ∧ (thrP .user []).priv = .user :=
  ⟨rfl, alone .., active_com _, rfl⟩
/-- Rings with no record waiting, with 63 and with 64. -/
def waiting (n : Nat) : Partition := { part1 with rings := [(0, ⟨List.replicate n (FaultRec.ofKind 0x06), false, false⟩)] }
abbrev userIn (y : Partition) : State := world .user [] core0 theCore blk0 (inPart y)
theorem witness_TrapsAndPosts :
    (∀ y, CanIssue (userIn y) gA 0 (blkOf .user [] core0 blk0) (thrP .user []) core0 com [(.v 4, true)] [(.v 20, false)] ∧
      (blkOf .user [] core0 blk0).part = some 1 ∧ (userIn y).part 1 = some y) ∧
    (waiting 0).waitingFree < 64 ∧ (waiting 63).waitingFree < 64 ∧ 64 ≤ (waiting 64).waitingFree :=
  ⟨fun _ => ⟨can .user _ _ _ _ _ rfl, rfl, rfl⟩, by decide +kernel⟩

/-- A steward beside a user's block whose thread is held, faulted or trapped, or whose copy is parked. -/
def heldThr (st : Stat) : Thread := { thr [] with stat := st, pc := 0x1008 }
def parkedOp : EngineOp := { copyOp with stat := .parked ⟨.pageFault, 2, 0, 0, 0⟩ }
def userBlk (st : Stat) : Block := { blk0 with tag := 9, threads := [(0, heldThr st)], cores := [(0, { core0 with ops := [parkedOp] })] }
def besides (st : Stat) (regs : List (Nat × Word)) : State :=
  { stewDram regs with blocks := [(5, blkOf .steward regs core0 blk0), (9, userBlk st)] }
theorem besidesAt (st : Stat) (regs : List (Nat × Word)) {srcs dsts : List Src} (h : opsOk srcs dsts = true) :
    StewIssue (besides st regs) gA 0 (blkOf .steward regs core0 blk0) (thrP .steward regs) core0 com srcs dsts 1 :=
  ⟨⟨⟨rfl, rfl, rfl, rfl, rfl, rfl, rfl⟩, active_com _, readable_all (t := thrP .steward regs) (Bool.and_eq_true_iff.1 h).1,
    writable_all (t := thrP .steward regs) (Bool.and_eq_true_iff.1 h).2⟩, rfl, rfl⟩
def faultedStat : Stat := .faulted (Exc.of .poison) ⟨0x1000, some .nop, []⟩
/-- Handles of nothing, of the thread, of the parked copy of channel 2, and of the block (R347, R348). -/
theorem witness_ReturnsFromExceptions :
    (∀ st regs, StewIssue (besides st regs) gA 0 (blkOf .steward regs core0 blk0) (thrP .steward regs) core0 com
      [(.v 4, true), (.v 6, false)] [(.v 20, false)] 1) ∧
    (besides faultedStat []).heldTarget 1 8 = none ∧ (besides faultedStat []).heldTarget 1 9 = some (.thread 9 0) ∧
    (besides (.trapped (.v 7)) []).heldTarget 1 9 = some (.thread 9 0) ∧
    (besides (.trapped (.v 7)) []).heldTarget 1 (9 + 2 * 2 ^ 44 + 2 ^ 48) = some (.op 9 0 parkedOp ⟨.pageFault, 2, 0, 0, 0⟩) ∧
    (∀ st, Kv.find 0 ((besides st []).block 9).threads = some (heldThr st)) ∧ 0x1000 ≠ (heldThr faultedStat).pc ∧
    (besides faultedStat []).handleBlock 1 8 = none ∧ (besides faultedStat []).handleBlock 1 9 = some 9 ∧
    ((besides faultedStat []).block 9).phase = .resident ∧
    (∃ (g : Grp) (u : Use) (log : OpLog), g.ov = some log ∧ log.srcs.length = u.srcs.length) := by
  refine ⟨fun _ _ => besidesAt _ _ rfl, ?_, ?_, ?_, ?_, fun _ => rfl, ?_, ?_, ?_, rfl,
    ⟨{ gA with ov := some ⟨0, none, []⟩ }, Use.plain com [] [], _, rfl, rfl⟩⟩ <;> decide +kernel

/-- Ranges of TLBI at the top of the address space, a frame that stage 2 maps, a die that is lost, and one operation of
each kind. -/
def mapped1 : Partition := { part1 with s2 := mapPut ⟨2, 0, 0x63⟩ [] }
def opStarter : Starter := ⟨1, 5, 0, false, 0, 0, .steward, 0x1000⟩
def withOp (k : PkgOpKind) : State := { stewRest with ops := [(0, ⟨opStarter, k⟩)] }
theorem witness_PackageOperations :
    (∀ regs, StewAt regs [(.v 4, true), (.v 6, false)] [(.v 20, false)] ∧ StewAt regs [(.v 4, true), (.v 6, false)] [] ∧
      StewAt regs [] [] ∧ StewAt regs [(.v 4, false)] [(.v 20, false)] ∧ (stewDram regs).part 1 = some part1) ∧
    0x1800 % 4096 ≠ 0 ∧ 0xFFFFFFFFFF000 % 4096 = 0 ∧ 0xFFFFFFFFFF000 + 4096 * 1 ≤ 2 ^ 52 ∧ 2 ^ 52 < 0xFFFFFFFFFF000 + 4096 * 2 ∧
    (∀ k, Kv.find 0 (withOp k).ops = some ⟨opStarter, k⟩ ∧ (withOp k).part 1 = some part1) ∧
    (stage2 mapped1 0x1000).isOk = true ∧ (withOp .moor).actsThrough 1 0 4096 = false ∧ (withOp .moor).framesSettling [0x1000] = false ∧
    (withOp .moor).dieUnperformed 7 = false ∧ (withOp .moor).target 0x8000 ≠ .remote ∧
    (withOp .moor).harbour.lostDies.contains 7 = false ∧ 7 < 8 ∧
    { Harbour.reset with lostDies := [7] }.lostDies.contains 7 = true :=
  ⟨fun _ => ⟨stewAt _ rfl, stewAt _ rfl, stewAt _ rfl, stewAt _ rfl, rfl⟩, by decide, by decide, by decide, by decide,
    fun _ => ⟨rfl, rfl⟩, by decide +kernel⟩

/-- A record that waits in the event queue at 0x40000 of 4 KiB, which stage 1 and 2 map, with room. -/
def s2Of (l : List MapEntry) : List (Nat × DWord) := l.foldl (fun k m => mapPut m k) []
def ringPart : Partition :=
  { part1 with
    s2 := s2Of [⟨2, 0, 0x63⟩]
    pt1root := 0x80000
    evq := 0x40000
    rings := [(0, ⟨[FaultRec.ofKind 0x06], false, false⟩)] }
/-- The tables of stage 1 at 0x80000: one entry in each of the levels 0 and 1, and a page of 1 GiB at level 2. -/
def ringRest : State :=
  { dramRest with
    mem := cellsOf [(0x40010, 12), (0x80000, 0x81001), (0x81000, 0x82001), (0x82000, 0x63)]
    parts := [(1, ringPart)] }
theorem witness_RecordRings :
    ringRest.part 1 = some ringPart ∧ (Kv.get Ring.empty 0 ringPart.rings).waiting.head? = some (FaultRec.ofKind 0x06) ∧
    ringPart.ringAt 0 = 0x40000 ∧
    (match ringRest.ringPut 1 (ringPart.ringAt 0) ((FaultRec.ofKind 0x06).toNat false) with
      | .ok (b, _) => b
      | .error _ => false) = true ∧
    (ringRest.ringRead 1 (ringPart.ringAt 0) 32).isOk = true ∧ { ringPart with moor := .moored 0 }.moor ≠ .awake ∧
    12 * 2 ^ 128 < 2 ^ 256 ∧ ringNext (12 * 2 ^ 128) = some 0 ∧ ringNext (4096 + 12 * 2 ^ 128) = none ∧
    ringNext (4095 + 12 * 2 ^ 128) = some 4095 :=
  ⟨rfl, rfl, by decide +kernel, by decide +kernel, by decide +kernel, nofun, by decide +kernel⟩

/-- The invocation at word `i` with `n` cycles spent and the registers `fs`, in focus. Its kernel's bound is 24. -/
def fRunAt (i n : Nat) (fs : List (Nat × Word)) : FerryRun := { fRun with idx := i, cycles := n, fs := fs }
def fCtx (r : FerryRun) : FCtx := ⟨ferryAt r, 0, 0, fCoreOf r, fKernel, 0⟩
theorem ferry_at (i n cost : Nat) (fs : List (Nat × Word)) (h : n + cost ≤ 24) :
    FerryAt (ferryAt (fRunAt i n fs)) 0 0 (fCtx (fRunAt i n fs)) (fRunAt i n fs) fBind cost :=
  ⟨rfl, rfl, rfl, h⟩
/-- Words with the last cycle of the budget; a table that has a segment for an element and one that has none. -/
theorem witness_FerryVectorWords :
    FerryAt (ferryAt (fRunAt 2 23 [])) 0 0 (fCtx (fRunAt 2 23 [])) (fRunAt 2 23 []) fBind 1 ∧
    FerryAt (ferryAt (fRunAt 2 22 [])) 0 0 (fCtx (fRunAt 2 22 [])) (fRunAt 2 22 []) fBind 2 ∧
    (∀ i ∈ [Instr.vadd 2 2 1 0 false .rn .f32, .vsub 2 2 1 1 true .rn .i16, .vmul 2 2 1 0 .rn .bf16, .vfma 2 2 1 0 .rz .f32,
      .vmin 2 2 1 0 .i32, .vmax 2 2 1 0 .f32, .vand 2 2 1 0, .vor 2 2 1 0, .vxor 2 2 1 0, .vshl 2 2 1 0 true,
      .vshr 2 2 1 0 true false], ferryElementwise i ≠ none) ∧
    ((fRunAt 2 22 []).mask 0).toNat.testBit 31 = true ∧ (fevalLane sq4 false 0x3FC00000).isOk = true ∧
    (fevalLane sq4 false 0x40200000).isOk = false := by
  refine ⟨ferry_at _ _ _ _ (by decide), ferry_at _ _ _ _ (by decide), fun i hi => ?_, by decide +kernel, by decide +kernel,
    by decide +kernel⟩
  simp only [List.mem_cons, List.not_mem_nil, or_false] at hi
  rcases hi with rfl | rfl | rfl | rfl | rfl | rfl | rfl | rfl | rfl | rfl | rfl <;> simp [ferryElementwise]
theorem witness_FerryScalarWords :
    (∀ fs, FerryAt (ferryAt (fRunAt 2 23 fs)) 0 0 (fCtx (fRunAt 2 23 fs)) (fRunAt 2 23 fs) fBind 1) ∧
    ferryScalarOf (fRunAt 2 23 [(4, 2)]) (.sadd 4 4 (.imm 1)) = some (4, 3) ∧
    ferryBranchOf (fRunAt 8 8 [(4, 2), (5, 3)]) (.br .ltu 4 5 5) = some (5, true) ∧
    ferryBranchOf (fRunAt 8 8 [(4, 3), (5, 3)]) (.br .ltu 4 5 5) = some (5, false) ∧
    { fRun with rep := some ⟨3, 5, 1, 2, some 4⟩ }.rep = some ⟨3, 5, 1, 2, some 4⟩ ∧ 2 ≤ 1 + 1 ∧ 0 + 1 < 2 :=
  ⟨fun _ => ferry_at _ _ _ _ (by decide), by decide +kernel, by decide +kernel, by decide +kernel, rfl, by decide, by decide⟩
/-- A packet on its way from stack 0 to stack 1 of this package; a word whose granule is bad; a budget that is spent. -/
def toStack1 : FerryRun := { fRunAt 12 17 [] with window := [(30, 4)] }
def badCore (r : FerryRun) : State :=
  ({ State.reset with agenda := [], focus := .ferry 0 0, parts := [(1, part1)] }).modFerry 0 0 fun _ =>
    { fCoreOf r with badStore := [0] }
theorem witness_FerryPacketWords :
    FerryAt (ferryAt (fRunAt 12 23 [])) 0 0 (fCtx (fRunAt 12 23 [])) (fRunAt 12 23 []) fBind 1 ∧
    FerryAt (ferryAt (fRunAt 12 20 [])) 0 0 (fCtx (fRunAt 12 20 [])) (fRunAt 12 20 []) fBind 4 ∧
    FerryAt (ferryAt toStack1) 0 0 (fCtx toStack1) toStack1 fBind 1 ∧
    (packetOf toStack1.window).dpkg = 0 ∧ (packetOf toStack1.window).dstk = 1 ∧ toStack1.emits = [] ∧
    (ferryAt toStack1).nextHop 0 1 = some 1 ∧
    (∃ c r b, (badCore (fRunAt 2 4 [])).fctx 0 0 = some (c, r, b) ∧ c.core.badStore.contains (c.granule r.idx) = true) ∧
    (badCore (fRunAt 2 4 [])).part 1 = some part1 ∧ part1.waitingFree < 64 ∧
    ferryCyclesOf (.emit) = some 4 ∧ 24 < 21 + 4 ∧ (ferryAt (fRunAt 12 21 [])).fctx 0 0 ≠ none := by
  refine ⟨ferry_at _ _ _ _ (by decide), ferry_at _ _ _ _ (by decide), ⟨rfl, rfl, rfl, by decide +kernel⟩, ?_, ?_, rfl, ?_,
    ⟨_, _, _, rfl, rfl⟩, rfl, ?_, rfl, ?_, nofun⟩ <;> decide +kernel
/-- The last word and the last vector of the window, the first that a store may write, and those of the flow state of 192
bytes; one byte past each; flow state that reads as uncorrectable. -/
def badFlowState : State :=
  ({ State.reset with agenda := [], focus := .ferry 0 0 }).modFerry 0 0 fun _ =>
    { fCoreOf (fRunAt 4 4 []) with badFlow := [(3, 7, 4)] }
theorem witness_FerryAccessWords :
    (∀ cost, cost ≤ 6 → ∀ fs, FerryAt (ferryAt (fRunAt 4 4 fs)) 0 0 (fCtx (fRunAt 4 4 fs)) (fRunAt 4 4 fs) fBind cost) ∧
    ferryAccessOf (fRunAt 4 4 []) (.pld 1 0 false 508) = some (1, 508, false, false, false) ∧
    ferryAccessOf (fRunAt 4 4 [(3, 384)]) (.pld 1 3 true 0) = some (1, 384, false, false, true) ∧
    ferryAccessOf (fRunAt 4 4 []) (.pst 1 0 false 32) = some (1, 32, true, false, false) ∧
    ferryAccessOf (fRunAt 4 4 []) (.sst 1 0 true 64) = some (1, 64, true, true, true) ∧
    ferryAccessOf (fRunAt 4 4 []) (.sld 1 0 false 192) = some (1, 192, false, true, false) ∧
    (508 % 4 = 0 ∧ 508 + 4 ≤ 512) ∧ (384 % 32 = 0 ∧ 384 + 128 ≤ 512) ∧ 64 + 128 ≤ 64 * fKernel.state64 ∧
    ¬ (192 + 4 ≤ 64 * fKernel.state64) ∧
    (∃ c r b, badFlowState.fctx 0 0 = some (c, r, b) ∧ c.core.badFlow.contains (r.job, r.flow, 128 / 32) = true) := by
  refine ⟨fun cost h fs => ferry_at _ _ _ _ (by omega), ?_, ?_, ?_, ?_, ?_, ?_, ?_, ?_, ?_, ⟨_, _, _, rfl, rfl⟩⟩ <;> decide +kernel

/-- Runs in the first column, in the last column of a row and of the run, with a place to read and write at 0x8000, and
one at a granule that reads as uncorrectable. -/
def nbRunD : NbRun := ⟨starter5, 0, 0, false, 2, [[0x8000, 0x8400], [], [], []], [true], [1, 2, 3, 4], 0, 0x9000, [0x9000, 0x9020], none, []⟩
def nbCurAt (r c : Nat) : NbCur := ⟨nbRunD, [0, 0], [], r, c, 0, none⟩
def nbRest (e : List (Nat × Ecc)) (r c : Nat) : State :=
  ({ dramRest with agenda := [], focus := .nb 0 0, ecc := e }).putUnit 0 ⟨[], some (nbCurAt r c)⟩
theorem nb_at (e : List (Nat × Ecc)) (r c : Nat) : NbAt (nbRest e r c) 0 0 (nbCurAt r c) := ⟨rfl, by decide, rfl⟩
theorem plainPlace (s : State) (a n : Nat) (h1 : s.target a = .dram) (h2 : s.stashPages = []) (h3 : s.poisonedIn a n = none)
    (h4 : a % n = 0) (h5 : (linesOf a n).all (fun l => !s.probing l) = true) : PlainPlace s a n :=
  ⟨h1, by rw [h2]; rfl, h3, h4, fun l hl => by simpa using List.all_eq_true.1 h5 l hl⟩
theorem witness_NearBankWords :
    (∀ e r c, NbAt (nbRest e r c) 0 0 (nbCurAt r c)) ∧ nbCondHolds (nbCurAt 0 0) .first ∧ ¬ nbCondHolds (nbCurAt 0 1) .first ∧
    nbCondHolds (nbCurAt 0 31) .rowend ∧ nbCondHolds (nbCurAt 1 31) .last ∧ ¬ nbCondHolds (nbCurAt 0 31) .last ∧
    nbCondHolds (nbCurAt 0 1) .every ∧
    (∀ i ∈ [Instr.nbadd 2 0 1 true .i32 .rn .every, .nbsub 2 0 1 false .f32 .rn .every, .nbmul 2 0 1 false .bf16 .rn .every,
      .nbfma 2 0 1 false .f32 .rn .every, .nbmin 2 0 1 false .i32 .every, .nbmax 2 0 1 false .f32 .every], nbElementwise i ≠ none) ∧
    (nbCurAt 0 1).atom 0 0 = 0x8020 ∧ ((nbRest [] 0 1).snoop (0x8020 / 64) false).poisonedIn 0x8020 32 = none ∧
    ((nbRest [(0x8020, .uncorrectable)] 0 1).snoop (0x8020 / 64) false).poisonedIn 0x8020 32 = some 0x8020 ∧
    PlainPlace (nbRest [] 0 1) 0x8020 32 ∧ (nbCurAt 0 1).run.status[1]? = some 0x9020 ∧ PlainPlace (nbRest [] 0 1) 0x9020 32 := by
  refine ⟨nb_at, ⟨rfl, rfl⟩, fun h => absurd h.2 (by decide), rfl, ⟨rfl, rfl⟩, fun h => absurd h.1 (by decide), trivial, fun i hi => ?_,
    by decide +kernel, by decide +kernel, by decide +kernel,
    plainPlace _ _ _ (by decide +kernel) rfl (by decide +kernel) (by decide) (by decide +kernel), rfl,
    plainPlace _ _ _ (by decide +kernel) rfl (by decide +kernel) (by decide) (by decide +kernel)⟩
  simp only [List.mem_cons, List.not_mem_nil, or_false] at hi
  rcases hi with rfl | rfl | rfl | rfl | rfl | rfl <;> simp [nbElementwise]

/-- Base-die work of partition 1, whose first two GiB are mapped, the second of them in bank mode: an image of one
micro-operation at 0x20000 and one of none at 0x20020, run descriptors at 0x21000 and, of a reserved field, at 0x21040, a
RECV program at 0x22000, one that names no leg kind at 0x22040, SEND programs to
another package at 0x22100 and to stack 1 at 0x22200, a kernel of one word at 0x23000 and one of bound 0 at
0x23080. Window 0 of the partition names 16 words at 0x8000. -/
def baseMem : List Host.Cell :=
  cellsOf [(0x20010, 0x46E86000), (0x20020, 0x40), (0x21000, 0x9000), (0x21008, 0x40000000), (0x21040, 1), (0x22000, 0x9000),
    (0x22008, 5), (0x22020, 0x10007FF02), (0x22028, 0x400000000), (0x22040, 0x9000), (0x22100, 0x9000),
    (0x22108, 5), (0x22120, 0x100007FF01), (0x22128, 0x400000000), (0x22200, 0x9000), (0x22208, 5), (0x22220, 0x40000007FF01),
    (0x22228, 0x400000000), (0x23000, 0x800000), (0x23040, 0x90000000),
    (0x40010, 12), (0x80000, 0x81001), (0x81000, 0x82001), (0x82000, 0xE3), (0x82008, 0x400000E3),
    (0x3F1000001000, 0x8000), (0x3F1000001008, 0x80200000010)]
def basePart : Partition := { part1 with s2 := s2Of [⟨2, 0, 0x63⟩, ⟨2, 0x40000000, 0x40000063⟩], pt1root := 0x80000, evq := 0x40000 }
def baseOf (y : Partition) : State :=
  { State.reset with
    agenda := []
    interleave := [(0, 0x8000000000000000), (1, 0xC000010000000000)]
    mem := baseMem
    parts := [(1, y)]
    harbour := { Harbour.reset with jobs := [(5, ⟨1, [(0, 64)]⟩)] } }
abbrev baseAt (y : Partition) (regs : List (Nat × Word)) : State := world .user regs core0 dramCore blk0 (baseOf y)
abbrev BaseIssue (y : Partition) (regs : List (Nat × Word)) (srcs dsts : List Src) : Prop :=
  MayIssue (baseAt y regs) gA 0 (blkOf .user regs core0 blk0) (thrP .user regs) core0 com srcs dsts
theorem baseIssue (y : Partition) (regs : List (Nat × Word)) {srcs dsts : List Src} (h : opsOk srcs dsts = true) :
    BaseIssue y regs srcs dsts := may regs core0 dramCore blk0 (baseOf y) h
def dieSrcs : List Src := [(.v 4, true), (.v 6, false), (.v 7, false)]
/-- NB.RUN finds its descriptor and a run: the descriptor's error, the stack and unit of the run. -/
def runFinds (va : Word) : Option (Bool × Option (Nat × Nat × Nat)) :=
  let s := issued (baseAt basePart [(4, va)]) gA 0 (.nbRun com (.v 20) (.v 4) (.v 6) (.v 7)) dieSrcs
  match readGlobal s gA 0 va.toNat 64 with
  | .error _ => none
  | .ok (w, s1) => some (descBad w,
      (prepareRun s1 (Starter.ofGrp s1 gA 0 1) w 0 none none).toOption.map fun r => (r.stk, r.unit, r.nrow))
/-- A slot that holds a program, and a load that is waiting. -/
def nbPart (slot : List (Nat × NbSlot)) (img : Nat) : Partition := { basePart with nbSlots := slot, nbLoads := [⟨starter5, [0], 0, img⟩] }
def imageFinds (img : Nat) : Option Nat :=
  (readNbImage (baseAt (nbPart [] img) []) starter5 (dieActor (baseAt (nbPart [] img) []) starter5 0) img).toOption.map fun r =>
    nbReason r.1 r.2.1
def queued (slot : List (Nat × NbSlot)) : State := (baseAt (nbPart slot 0) []).putUnit 0 ⟨[nbRunD], none⟩
/-- A die whose 64 physical slots are used by four partitions. -/
def slots16 : List (Nat × NbSlot) := (List.range 16).map fun k => (k, .invalid 1)
def fullDie : State := { baseAt part1 [] with parts := (1, part1) :: (List.range 4).map fun k => (k + 2, { part1 with nbSlots := slots16 }) }
theorem unheldRow : ∀ l ∈ (nbCurAt 0 0).lines, Unheld (nbRest [] 0 0) l := by
  unfold Unheld
  decide +kernel
theorem witness_NearBankRuns :
    (∀ y regs, BaseIssue y regs dieSrcs [(.v 20, false)] ∧ (baseAt y regs).part 1 = some y) ∧ blk0.part = some 1 ∧
    0x20008 % 16 ≠ 0 ∧ 16 ∉ (baseAt part1 []).stackList ∧ 15 ∈ (baseAt part1 []).stackList ∧
    fullDie.part 1 = some part1 ∧ part1.nbHolds 0 15 = false ∧ 64 ≤ fullDie.nbUsed 0 ∧ (baseAt part1 []).nbUsed 0 < 64 ∧
    runFinds 0x21000 = some (false, some (0, 0, 1)) ∧ runFinds 0x21040 = some (true, none) ∧ 0x21020 % 64 ≠ 0 ∧
    (((baseAt (nbPart [] 0x20000) []).part 1).bind fun x => x.nbLoads.find? fun o =>
      o.slot == 0 && o.stks.contains 0 && (baseAt (nbPart [] 0x20000) []).turnOf11 o.starter) = some ⟨starter5, [0], 0, 0x20000⟩ ∧
    imageFinds 0x20000 = some 0 ∧ imageFinds 0x20020 = some 1 ∧
    (∀ l, (((queued l).unit 0).queue.find? fun r => r.leg.isSome || (queued l).turnOf11 r.starter) = some nbRunD ∧
      (queued l).unitBusy 0 nbRunD.dove = false ∧ (queued l).part 1 = some (nbPart l 0)) ∧
    Kv.find (16 * 0 + 0) [(0, NbSlot.valid 0 [0])] = some (.valid 0 [0]) ∧ nbRunD.startCode [0] = 0 ∧
    PlainPlace (queued []) 0x9000 8 ∧ Outlasts (queued []) starter5 ∧
    ((nbRest [] 1 32).unit 0).cur = some (nbCurAt 1 32) ∧ (nbCurAt 0 32).c = 32 ∧ 0 + 1 < nbRunD.nrow ∧ 1 + 1 = nbRunD.nrow ∧
    PlainPlace (nbRest [] 1 32) 0x9000 8 ∧ Outlasts (nbRest [] 1 32) starter5 ∧
    { nbCurAt 0 0 with susp := some 0 }.susp = some 0 ∧ (nbRest [] 0 0).clock < 0 + 2560 ∧ 0 + 2560 ≤ { nbRest [] 0 0 with clock := 2560 }.clock ∧
    (nbCurAt 0 0).lines.any (nbRest [] 0 0).probing = false ∧ (∀ l ∈ (nbCurAt 0 0).lines, Unheld (nbRest [] 0 0) l) ∧
    (∀ a ∈ nbRunD.status, (nbRest [] 0 0).dieMayWrite 0 a 32 = true) ∧ (nbRest [] 1 32).diePosting starter5 = false := by
  refine ⟨fun y regs => ⟨baseIssue y regs rfl, rfl⟩, rfl, ?_, ?_, ?_, ?_, ?_, ?_, ?_, ?_, ?_, ?_, ?_, ?_, ?_,
    fun l => ⟨rfl, rfl, rfl⟩, ?_, ?_,
    plainPlace _ _ _ (by decide +kernel) (by decide +kernel) (by decide +kernel) (by decide) (by decide +kernel), ?_, rfl, rfl, by decide, by decide,
    plainPlace _ _ _ (by decide +kernel) rfl (by decide +kernel) (by decide) (by decide +kernel), ?_, rfl, by decide, by decide, ?_,
    unheldRow, ?_, ?_⟩
  any_goals decide +kernel
  · intro b h
    cases Option.some.inj h
    nofun
  · nofun

/-- A ferry core whose kernel serves job 5, with and without a binding of flow 7, running it, and faulted. -/
def kern5 : Kernel := ⟨5, 0, [0x90000000], [], 3, 24⟩
def bind5 (faulted : Bool) : Binding := ⟨5, 7, 0, starter5, [], faulted, 2⟩
def run5 : FerryRun := { fRun with job := 5, flow := 7 }
def boundTo (ks : List (Nat × Kernel)) (bs : List Binding) (q : List Packet) (r : Option FerryRun) (s : State) : State :=
  s.modFerry 0 0 fun _ => ⟨ks, bs, q, r, [], [], [], []⟩
abbrev ferries (ks : List (Nat × Kernel)) (bs : List Binding) : State := boundTo ks bs [] none (baseAt basePart [])
def pkt5 : Packet :=
  { op := 0x20, oc := 2, dpkg := 0, dstk := 2, spkg := 0, sstk := 0, sag := 0, part := 1, txid := 0, job := 5, flow := 7, noffm1 := 0,
    esz := 0, scope := 0, mt := 0, addr := 0, imm := 0, data := [] }
def loading (slot job img : Nat) (s : State) : State := { s with ops := [(0, ⟨starter5, .ferryLoad 0 0 slot job img⟩)] }
def loadFinds (img : Nat) : Option (Nat × Bool) :=
  let s := loading 0 5 img (ferries [] [])
  (loadKernel s starter5 { dieActor s starter5 0 with e := 2 ^ 33 } 0 0 0 5 img).toOption.map fun r => (r.1, r.2.1.isSome)
def many (n : Nat) : List Binding := (List.range n).map fun k => { bind5 false with flow := k + 8 }
theorem witness_FerryLoader :
    (∀ y regs, BaseIssue y regs dieSrcs [(.v 20, false)]) ∧
    (∀ y regs, BaseIssue y regs [(.v 4, false), (.v 6, false), (.v 7, false)] [(.v 20, false)]) ∧
    (∀ y regs, BaseIssue y regs [(.v 4, false), (.v 6, false)] [(.v 20, false)]) ∧ 0x20 % 64 ≠ 0 ∧
    (∀ slot job img s, Kv.find 0 (loading slot job img s).ops = some ⟨starter5, .ferryLoad 0 0 slot job img⟩) ∧
    (∃ j, Kv.find 5 (ferries [] []).harbour.jobs = some j ∧ j.part = starter5.part) ∧
    Kv.find 6 (ferries [] []).harbour.jobs = none ∧ (ferries [] []).absent.noStacks.contains 0 = false ∧
    { UnitParts.whole with noStacks := [0] }.noStacks.contains 0 = true ∧
    Kv.find 0 ((ferries [(0, { kern5 with job := 6 })] []).ferry 0 0).kernels = some { kern5 with job := 6 } ∧
    Kv.find 0 ((ferries [] []).ferry 0 0).kernels = none ∧ loadFinds 0x23000 = some (0, true) ∧
    loadFinds 0x23080 = some (1, false) ∧ (ferries [(0, kern5)] []).boundAt 0 5 7 = none ∧
    ((ferries [(0, kern5)] [bind5 true]).boundAt 0 5 7).map (·.1) = some 0 ∧
    (((ferries [(0, kern5)] [bind5 true]).modFerry 0 1 fun _ => ⟨[(0, kern5)], [], [], none, [], [], [], []⟩).boundAt 0 5 7).map (·.1) =
      some 0 ∧
    (boundTo [(0, kern5)] [bind5 false] [] (some run5) (baseAt basePart [])).invoking 0 0 5 7 = true ∧
    (ferries [(0, kern5)] [bind5 false]).invoking 0 0 5 7 = false ∧ ((ferries [(0, kern5)] []).ferry 0 0).binding 5 7 = none ∧
    256 ≤ ((ferries [(0, kern5)] (many 256)).ferry 0 0).bindings.length ∧
    ((ferries [(0, kern5)] []).ferry 0 0).flowUsed (some 5) + 64 * kern5.state64 ≤ (ferries [(0, kern5)] []).quota 5 0 0 ∧
    ((ferries [(0, kern5)] []).ferry 0 0).flowUsed none + 64 * kern5.state64 ≤ 262144 ∧
    ((ferries [(0, kern5)] [bind5 true]).ferry 0 0).binding 5 7 = some (bind5 true) ∧
    64 * kern5.state64 ≤ ((ferries [(0, kern5)] [bind5 true]).ferry 0 0).flowUsed (some 5) ∧
    64 * kern5.state64 ≤ ((ferries [(0, kern5)] [bind5 true]).ferry 0 0).flowUsed none ∧
    ((ferries [(0, kern5)] [bind5 true]).ferry 0 0).flowUsed (some 5) ≤ (ferries [(0, kern5)] [bind5 true]).quota 5 0 0 ∧
    ((ferries [(0, kern5)] [bind5 true]).ferry 0 0).flowUsed none ≤ 262144 :=
  ⟨fun y regs => baseIssue y regs rfl, fun y regs => baseIssue y regs rfl, fun y regs => baseIssue y regs rfl, by decide,
    fun _ _ _ _ => rfl, ⟨_, rfl, rfl⟩, rfl, rfl, rfl, rfl, rfl, by decide +kernel⟩
theorem witness_FerryRouting :
    (ferries [] []).absent.noStacks.contains 0 = false ∧ pkt5.op = 0x20 ∧ pkt5.oc = 2 ∧
    ¬ (pkt5.spkg = (ferries [] []).harbour.pkg ∧ pkt5.sag / 8 = 0x30 + 0) ∧
    (∀ f ∈ [false, true], (ferries [(0, kern5)] [bind5 f]).boundAt 0 pkt5.job pkt5.flow = some (0, bind5 f)) ∧
    (ferries [] []).boundAt 0 pkt5.job pkt5.flow = none ∧ pkt5.dpkg = (ferries [] []).harbour.pkg ∧
    (ferries [] []).absent.noStacks.contains pkt5.dstk = false ∧ pkt5.dstk ≠ 0 ∧
    (ferries [] []).nextHop 0 pkt5.dstk = some 2 ∧ (ferries [] []).taker 2 pkt5 = none ∧ ((ferries [] []).die 2).held = [] ∧
    (∀ f ∈ [false, true], (let s := boundTo [(0, kern5)] [bind5 f] [pkt5] none (baseAt basePart [])
      (s.ferry 0 0).run = none ∧ (s.ferry 0 0).queue = [pkt5] ∧ (s.ferry 0 0).binding pkt5.job pkt5.flow = some (bind5 f))) := by
  decide +kernel

/-- What COLL.START finds: the header's error, a leg's error, a leg astray, whether the addresses are translated. -/
def collFinds (va : Word) : Option (Bool × Bool × Bool × Bool) :=
  let s := issued (baseAt basePart [(4, va)]) gA 0 (.collStart com (.v 20) (.v 4)) [(.v 4, true)]
  match readPieces s gA 0 va.toNat 8 with
  | .error _ => none
  | .ok (w, s1) =>
    let raw := (List.range (bitsOf w 79 76 + 1)).map fun k => w / 2 ^ (256 + 128 * k) % 2 ^ 128
    let legs := raw.map fun z => Leg.ofNat s1 1 z
    some (collHdrBad w, (legs.zip raw).zipIdx.any (fun z => z.1.1.bad z.2 z.1.2), legs.any (fun z => z.astray s1),
      (progPages s1 (Starter.ofGrp s1 gA 0 1) legs (bitsOf w 63 0)).isOk)
/-- A program of one leg of a kind, and one that waits for the leg before it. -/
def win8 : FmtWin := ⟨false, .rn, .finiteOnly, .i32, 16, 0x8000⟩
def legOf (kind after : Nat) (done : Bool) : Leg := ⟨kind, if kind = 3 then none else some win8, after, 7, 0, 0, 1, 0, 0, 4, 0x21000, done, done, 0⟩
def progOf (legs : List Leg) (fail : Option (Nat × Nat)) : CollProg :=
  ⟨{ starter5 with num := 1 }, 5, 0, 0, 0x9000, 0x9000, legs, [(0x8000, 0x8000), (0x9000, 0x9000)], fail, false⟩
def progPart (q : CollProg) : Partition := { basePart with progs := [(0, q)], nextProg := 1 }
def full16 : Partition := { basePart with progs := (List.range 16).map fun k => (k, progOf [legOf 2 0xFF false] none) }
theorem witness_CollectivePrograms :
    (∀ y regs, BaseIssue y regs [(.v 4, true)] [(.v 20, false)] ∧ (baseAt y regs).part 1 = some y ∧
      ((baseAt y regs).block 5).part = some 1) ∧ 0x22020 % 64 ≠ 0 ∧
    collFinds 0x22000 = some (false, false, false, true) ∧ collFinds 0x22040 = some (false, true, false, true) ∧
    collFinds 0x22100 = some (false, false, true, true) ∧ collFinds 0x22200 = some (false, false, false, true) ∧
    collFinds 0x22140 = some (true, true, false, true) ∧
    (∃ j, Kv.find 5 (baseAt basePart []).harbour.jobs = some j ∧ j.part = 1) ∧ Kv.find 6 (baseAt basePart []).harbour.jobs = none ∧
    16 ≤ full16.progs.length ∧ basePart.progs.length < 16 := by
  refine ⟨fun y regs => ⟨baseIssue y regs rfl, rfl, rfl⟩, by decide, ?_, ?_, ?_, ?_, ?_, ⟨_, rfl, rfl⟩, rfl, ?_, ?_⟩ <;>
    decide +kernel
def progAt (q : CollProg) : State := baseAt (progPart q) []
theorem witness_CollectiveLegs :
    (∀ q, (progAt q).prog 1 0 = some q) ∧ (progOf [legOf 1 0xFF false] none).legs[0]? = some (legOf 1 0xFF false) ∧
    (progOf [legOf 1 0xFF true, legOf 2 0 false] none).legs[1]? = some (legOf 2 0 false) ∧
    (∃ m, (progOf [legOf 1 0xFF true, legOf 2 0 false] none).legs[(legOf 2 0 false).after]? = some m ∧ m.done = true) ∧
    (legOf 3 0xFF false).win = none ∧ (legOf 1 0xFF false).win = some win8 ∧ (legOf 2 0xFF false).started = false ∧
    (let q := progOf [legOf 1 0xFF false] none
     (readElems (dieActor (progAt q) q.starter 0) q win8 0 4 (progAt q)).toOption.map fun r => r.1.length) = some 4 ∧
    ((progAt (progOf [legOf 2 0xFF false] none)).die 1).held = [] ∧
    (let q := progOf [legOf 3 0xFF false] none
     match dieRead (progAt q) q.starter (dieActor (progAt q) q.starter 0) 0x21000 4 with
     | .error _ => none
     | .ok (w, s1) => some (descBad w,
        (prepareRun ((s1.startLeg 1 0 0).taken 0x200 257) q.starter w 0 none (some (0, 0))).isOk)) = some (false, true) ∧
    (progAt (progOf [] none)).clock < 0 + 1000 * 10000 ∧ 0 + 1000 * 10000 ≤ { progAt (progOf [] none) with clock := 10000000 }.clock ∧
    (progOf [legOf 1 0xFF true, legOf 2 0 false] none).legs[1]? = some (legOf 2 0 false) ∧
    (∀ l ∈ (progOf [legOf 1 0xFF true, legOf 2 0 true] none).legs, l.done = true) ∧
    (progOf [legOf 2 0xFF false] (some (5, 0))).fail ≠ none ∧
    (progOf [] none).written = false ∧ (progAt (progOf [] none)).diePosting starter5 = false ∧
    PlainPlace (progAt (progOf [] none)) 0x9000 8 ∧ (∀ q, Outlasts (progAt q) starter5) := by
  refine ⟨fun _ => rfl, rfl, rfl, ⟨_, rfl, rfl⟩, rfl, rfl, rfl, by decide +kernel, by decide +kernel, by decide +kernel, by decide,
    by decide, rfl, by decide +kernel, nofun, rfl, rfl, plainPlace _ _ _ (by decide +kernel) (by decide +kernel) (by decide +kernel) (by decide) (by decide +kernel), ?_⟩
  intro q b h
  cases Option.some.inj h
  nofun

/-- Partitions that may moor, that have a pending hail, a waiting grid, a bound job; one that is entering the moored state,
one that is moored, with and without a hail. -/
def hailed (y : Partition) : Partition := { y with pendCount := 2, pendPay := 7 }
def moorWorld (y : Partition) : State := { baseOf y with cores := idleCores }
abbrev moorAt (y : Partition) : State := world .steward [] core0 dramCore { blk0 with tag := 0 } (moorWorld y)
abbrev moorB : Block := blkOf .steward [] core0 { blk0 with tag := 0 }
def stewBlock (ph : BlockPhase) : Block := { moorB with phase := ph, cores := [(0, { core0 with core := offCore 0 })] }
def entering (y : Partition) (ph : BlockPhase) : State :=
  { moorWorld { y with moor := .entering 0 } with blocks := [(stewardKey 1, stewBlock ph)] }
def moored (y : Partition) : State :=
  { moorWorld { y with moor := .moored 0 } with blocks := [(stewardKey 1, stewBlock .saved)], clock := 3000000 }
def friend : Partition := { basePart with params := { params1 with hailers := [3] } }
def halted1 (y : Partition) : State :=
  { baseOf y with blocks := [(stewardKey 1, { moorB with threads := [(0, heldThr (.held .halt))] })] }
theorem witness_Mooring :
    (∀ y, Settled (moorAt y) 5 false) ∧ (∀ y regs, Settled (baseAt y regs) 5 false) ∧
    (∀ y, StewIssue (moorAt y) gA 0 moorB (thrP .steward []) core0 com [] [(.v 20, false)] 1 ∧ (moorAt y).part 1 = some y) ∧
    0 < (hailed basePart).pendCount ∧ basePart.pendCount = 0 ∧
    (∀ z ∈ (moorAt basePart).blocks, ¬ (z.2.part = some 1 ∧ z.2.tag ≠ 0)) ∧ basePart.grids = [] ∧ basePart.replays = [] ∧
    (∀ d ∈ (moorAt basePart).dies, ∀ f ∈ d.2.ferry, ∀ z ∈ f.2.bindings, (moorAt basePart).jobOf z.job 1 = false) ∧
    { basePart with replays := [replayOf true []] }.replays ≠ [] ∧
    (∃ d ∈ (ferries [(0, kern5)] [bind5 false]).dies, ∃ f ∈ d.2.ferry, ∃ z ∈ f.2.bindings,
      (ferries [(0, kern5)] [bind5 false]).jobOf z.job 1 = true) ∧
    (∀ y ph, (entering y ph).part 1 = some { y with moor := .entering 0 } ∧ ((entering y ph).block (stewardKey 1)).phase = ph) ∧
    (∀ y, (moored y).part 1 = some { y with moor := .moored 0 }) ∧
    ((moored (hailed basePart)).stewardPlace 1).isSome = true ∧
    3 ∉ basePart.params.hailers ∧ 3 ∈ friend.params.hailers ∧ (baseOf friend).halted 1 = [] ∧
    (halted1 friend).halted 1 = [0] ∧ friend.moor = .awake ∧ { friend with moor := .moored 0 }.moor ≠ .awake ∧
    ((baseOf basePart).die 0).selfRefresh = false ∧
    (({ baseOf basePart with dies := [(0, { BaseDie.reset with selfRefresh := true })] } : State).die 0).selfRefresh = true ∧
    ({ baseOf { basePart with params := { params1 with wcls := 2 }, moor := .moored 0 } with clock := 100000 } : State).mayRest 0 = true ∧
    max 0 (0 : Nat) + 250000 < (moored (hailed basePart)).clock := by
  refine ⟨fun _ => ⟨rfl, rfl, rfl, nofun⟩, fun _ _ => ⟨rfl, rfl, rfl, nofun⟩, fun _ => ⟨⟨can .steward _ _ _ _ _ rfl, rfl, rfl⟩, rfl⟩, by decide, rfl, by decide +kernel, rfl, rfl, by decide +kernel,
    nofun, ?_, fun _ _ => ⟨rfl, rfl⟩, fun _ => rfl, by decide +kernel, by decide, by decide, by decide +kernel, by decide +kernel,
    rfl, nofun, rfl, rfl, by decide +kernel, by decide⟩
  exact ⟨_, List.mem_singleton_self _, _, List.mem_singleton_self _, _, List.mem_singleton_self _, rfl⟩

/-- Margin cluster 0 of partition 1 and its neighbour 2 with a candidate; the cluster lent, with and without a block of the
borrower; a shared cluster between two partitions. -/
def lender (lent : List Lent) : Partition := { part1 with params := { params1 with guaranteed := [2], margin := [0] }, lent := lent }
def borrower : Partition := { gridPart { grid8 with candSince := some 0 } with params := { params1 with guaranteed := [1], borrow := 1 } }
def lendState (lent : List Lent) (bs : List (Nat × Block)) : State :=
  { gridState grid8 with
    parts := [(1, lender lent), (2, borrower)]
    blocks := bs }
def onCluster0 (p : Nat) : List (Nat × Block) := [(5, { blkOf .user [] core0 blk0 with part := some p })]
def sharer : Partition := { gridPart { grid8 with candSince := some 0 } with params := { params1 with guaranteed := [], shared := [0] } }
def sharedState (now : Nat) (bs : List (Nat × Block)) : State :=
  { gridState grid8 with
    parts := [(1, sharer), (2, sharer)]
    blocks := bs
    clock := now }
theorem witness_Lending :
    ((lendState [] []).marginOf 0).map (·.1) = some 1 ∧ (lendState [] []).lentTo 0 = none ∧ (lendState [] []).blocksIn 1 0 = [] ∧
    (lender []).moor = .awake ∧ (lendState [] []).borrowers 1 0 = [(2, 0)] ∧ 3 ∉ ((lendState [] []).borrowers 1 0).map (·.1) ∧
    (lendState [] (onCluster0 1)).blocksIn 1 0 = [5] ∧
    ((lendState [⟨0, 2, false⟩] []).parts.find? fun z => z.2.lent.any fun l => l.cluster == 0).map (·.1) = some 1 ∧
    (lendState [⟨0, 2, false⟩] []).lentTo 0 = some 2 ∧ (lendState [⟨0, 2, false⟩] []).blocksIn 2 0 = [] ∧
    (lendState [⟨0, 2, false⟩] (onCluster0 2)).blocksIn 2 0 = [5] ∧
    (∀ now ∈ [1999999, 2000000], (sharedState now []).turn 0 = some ⟨1, 0, false⟩ ∧
      (sharedState now []).passedOver 0 1 = false) ∧ sharer.slice = 2000 ∧ sharer.overrun = [] ∧
    (sharedState 2000000 []).blocksIn 1 0 = [] ∧ (sharedState 2000000 (onCluster0 1)).blocksIn 1 0 = [5] := by
  decide +kernel

/-- Threads in slot state; an active, a pending and a marked entry; a full set of positions; an entry that has issued 4,096
times. -/
def withEntries (es : List (Nat × Entry)) : State :=
  { plain [] with
    cores := [(0, { theCore with entries := es })]
    focus := .none
    tick := 32 }
def slotState : State := withEntries []
def pendingEnt : Entry := { ent with pos := none }
def allActive : List (Nat × Entry) := (List.range 9).map fun k => (k, { ent with pos := if k < 8 then some k else none })
def twoEntries : State :=
  { pairState with cores := [(0, { theCore with entries :=
      [(0, ent), (1, { ent with members := [1], pos := none, pend := [⟨0x0FF8, .nop, []⟩] })] })] }
theorem witness_EntryScheduling :
    slotState.slotReady 0 ≠ [] ∧ slotState.entry 0 0 = none ∧
    (((withEntries [(0, ent)]).core 0).entries.filter fun y => y.2.pos.isSome && (withEntries [(0, ent)]).hasWork 0 y.1 y.2) ≠ [] ∧
    ((slotState.core 0).entries.filter fun y => y.2.pos.isSome && slotState.hasWork 0 y.1 y.2) = [] ∧
    (((withEntries [(0, pendingEnt)]).core 0).entries.filter fun y =>
      y.2.pos.isNone && (withEntries [(0, pendingEnt)]).hasWork 0 y.1 y.2) ≠ [] ∧
    ((withEntries [(0, pendingEnt)]).core 0).freePos = some 0 ∧ ((withEntries allActive).core 0).freePos = none ∧
    (((withEntries allActive).core 0).entries.filter fun y => y.2.pos.isSome && y.2.marked).length <
      (withEntries allActive).longWaiting 0 ∧ ¬ 0 < (withEntries []).longWaiting 0 ∧
    (withEntries [(0, ent)]).entry 0 0 = some ent ∧ (withEntries [(0, ent)]).focus ≠ .entry 0 0 ∧
    (withEntries [(0, ent)]).asks 0 0 = false ∧ ent.pend = [] ∧ ent.issues < 4096 ∧ 4096 ≤ { ent with issues := 4096 }.issues ∧
    { ent with pend := [⟨0x1000, .nop, []⟩] }.pend ≠ [] ∧ (withEntries [(0, ent)]).reqs = [] ∧
    ent.chain = 0 ∧ ent.chainOpen = false ∧ { ent with chain := 1 }.chain ≠ 0 ∧ { ent with waiting := true }.waiting = true ∧
    mergePends (withEntries [(0, ent)]) 0 0 ent = [] ∧ mergePends twoEntries 0 0 ent = [1] := by
  refine ⟨?_, rfl, ?_, ?_, ?_, ?_, ?_, ?_, ?_, rfl, nofun, ?_, rfl, by decide, by decide, nofun, rfl, ?_⟩ <;> decide +kernel

/-- A boot-mode thread that is held by HALT, faulted, or ready. -/
def bootState (st : Stat) : State :=
  { plain [] with blocks := [(bootKey 0, { Block.nowhere with threads := [(0, heldThr st)], cores := [(0, core0)] })] }
theorem witness_CoresInReset :
    ((plain []).core 0).released = true ∧ (State.reset.core 383).released = false ∧
    State.reset.absent.noCores.contains 383 = false ∧ { UnitParts.whole with noCores := [7] }.noCores.contains 7 = true ∧
    (∃ b ∈ (plain []).blocks, b.2.part ≠ none ∧ ∃ z ∈ b.2.cores, z.2.core = 0) ∧
    (¬ ∃ b ∈ (bootState .ready).blocks, b.2.part ≠ none ∧ ∃ z ∈ b.2.cores, z.2.core = 0) ∧
    (∀ st, ∃ b, Kv.find (bootKey 0) (bootState st).blocks = some b ∧ Kv.find 0 b.threads = some (heldThr st)) ∧
    (heldThr (.held .halt)).stat = .held .halt ∧ (heldThr .ready).stat ≠ .held .halt ∧
    (heldThr faultedStat).stat = .faulted (Exc.of .poison) ⟨0x1000, some .nop, []⟩ ∧ 0x1000 ≠ (heldThr faultedStat).pc := by
  refine ⟨rfl, rfl, by decide +kernel, by decide +kernel, ⟨_, List.mem_singleton_self _, nofun, _, List.mem_singleton_self _, rfl⟩, ?_,
    fun _ => ⟨_, rfl, rfl⟩, rfl, nofun, rfl, by decide⟩
  rintro ⟨b, hb, hp, -⟩
  simp only [bootState, List.mem_singleton] at hb
  subst hb
  exact hp rfl

/-- A rung on a block that is still there, before and at its timeout, and one on a queue; a queue with a launch that has no
block admitted; a halting block with a table load, and with a load that is pending, at four times their bounds. -/
def rungState (r : Rung) (now : Nat) : State :=
  { plain [] with
    harbour := { Harbour.reset with rungs := [⟨r, 0, some 3⟩] }
    clock := now }
def stuckBlk : Block := { blkOf .user [] { core0 with ops := [opOf 9 0 (.tblLoad 0) .queued] } blk0 with phase := .halting }
def stuckState (now : Nat) : State :=
  { plain [] with
    blocks := [(5, stuckBlk)]
    cores := [(0, { theCore with entries := [(0, { ent with chain := 1, pend := [⟨0x1000, .nop, []⟩] })] })]
    clock := now }
theorem witness_ResetLadder :
    (gridState grid8).part 1 = some (gridPart grid8) ∧ grid8.node = 0x11000 ∧ grid8.nextBlock = 0 ∧
    ((plain []).block (blockKey 1 5)).part = some 1 ∧
    (let s := boundTo [(0, kern5)] [bind5 false] [pkt5] (some run5) (baseAt basePart [])
     bind5 false ∈ (s.ferry 0 0).bindings ∧ (bind5 false).faulted = false ∧ pkt5 ∈ (s.ferry 0 0).queue ∧
      pkt5.job = (bind5 false).job ∧ pkt5.flow = (bind5 false).flow) ∧
    (rungState (.context 1 5) 499999).harbour.rungs[0]? = some ⟨.context 1 5, 0, some 3⟩ ∧
    (rungState (.context 1 5) 499999).rungDone (.context 1 5) = false ∧ (rungState (.queue 1 0) 0).rungDone (.queue 1 0) = true ∧
    (rungState (.context 1 5) 499999).clock < 0 + (Rung.context 1 5).timeout ∧
    0 + (Rung.context 1 5).timeout ≤ (rungState (.context 1 5) 500000).clock ∧
    (∀ cls ∈ [64, 4288, 2048], 0 + cyclesNs (4 * cls) ≤ (stuckState 17152).clock) ∧ (stuckBlk.phase = .halting ∧ stuckBlk.reqTime = 0) ∧
    (∃ b ∈ (stuckState 17152).blocks, b.2 = stuckBlk) ∧ (∃ z ∈ stuckBlk.cores, z.2.core = 0) ∧ (stuckState 17152).unitOps 0 1 ≠ [] ∧
    (∃ e ∈ ((stuckState 17152).core 0).entries, e.2.pend ≠ [] ∧ ((stuckState 17152).block e.2.block).phase = .halting ∧
      e.2.chain ≠ 0) ∧
    (let s := boundTo [(0, kern5)] [bind5 false] [] (some run5) (stuckState 1280)
     (s.ferry 0 0).run = some run5 ∧ (s.ferry 0 0).binding run5.job run5.flow = some (bind5 false)) ∧
    (let s := (stuckState (classNs 4 6)).putUnit 0 ⟨[], some (nbCurAt 0 0)⟩
     (s.unit 0).cur = some (nbCurAt 0 0) ∧ (nbCurAt 0 0).susp = none) ∧ stuckBlk.part = some starter5.part ∧
    (¬ ∃ b ∈ (plain []).blocks, b.2.phase = .halting) := by
  refine ⟨rfl, rfl, rfl, rfl, by decide +kernel, rfl, by decide +kernel, by decide +kernel, by decide, by decide, by decide +kernel,
    ⟨rfl, rfl⟩, ⟨_, List.mem_singleton_self _, rfl⟩, ⟨_, List.mem_singleton_self _, rfl⟩, by decide +kernel,
    ⟨_, List.mem_singleton_self _, nofun, rfl, nofun⟩, ⟨rfl, rfl⟩, ⟨rfl, rfl⟩, rfl, ?_⟩
  rintro ⟨b, hb, hp⟩
  have : b = (5, plainB []) := List.mem_singleton.1 hb
  subst this
  cases hp

/-- Packets from package 1: to a line of DRAM, to no memory, to a format window, of vector elements; answers to requests. -/
def pk (op addr : Nat) (imm : DWord) (data : List Byte) : Packet :=
  { op := op, oc := 0, dpkg := 0, dstk := 0, spkg := 1, sstk := 2, sag := 0, part := 1, txid := 7, job := 5, flow := 0, noffm1 := 0,
    esz := 2, scope := 0, mt := 0, addr := addr, imm := imm, data := data }
def netState (q : List (Nat × RemoteReq)) (proxy : List Nat) : State :=
  { dramRest with
    agenda := []
    reqs := q
    proxy := proxy
    cores := [(0, theCore)] }
def plainByteB (s : State) (a : Nat) : Bool :=
  decide (s.target a = .dram) && !(s.stashPages.any (·.holds (a / 64 * 64))) && (s.poisonedIn a 1).isNone &&
    (linesOf a 1).all fun l => !s.probing l
theorem plainByte_of {s : State} {a : Nat} (h : plainByteB s a = true) : PlainByte s a := by
  simp only [plainByteB, Bool.and_eq_true_iff, decide_eq_true_eq, Option.isNone_iff_eq_none] at h
  exact ⟨h.1.1.1, by simpa using h.1.1.2, h.1.2, Nat.mod_one a, fun l hl => by simpa using List.all_eq_true.1 h.2 l hl⟩
def farLine : Nat := 2 ^ 40 + 0x200
theorem witness_HomeRequests :
    badPacket (pk 0x7F 0x8000 0 []) = true ∧ badPacket { pk 0x01 0x8000 0 [] with esz := 4 } = true ∧
    (∀ op addr imm data, ForUs (netState [] []) (pk op addr imm data) op) ∧ (netState [] []).target 0x8000 = .dram ∧
    (netState [] []).target 0x40000000 = .nothing ∧ (netState [] []).stashPages = [] ∧
    (netState [] []).poisonedIn 0x8000 64 = none ∧
    writePacket (.wrl (pk 0x02 0x8000 0x8000000000000001 [1, 2])) =
      some (pk 0x02 0x8000 0x8000000000000001 [1, 2], 0x02, lineCells (pk 0x02 0x8000 0x8000000000000001 [1, 2])) ∧
    (∀ c ∈ lineCells (pk 0x02 0x8000 0x8000000000000001 [1, 2]), PlainByte (netState [] []) c.1) ∧
    (∀ c ∈ vecCells (pk 0x09 0x8000 0 [4, 0]), PlainByte (netState [] []) c.1) ∧ vecBad (pk 0x09 0x8000 0 [4, 0]) (netState [] []) = false ∧
    atomPacket (.rdc (pk 0x04 0x8000 5 []) .add .n32) = some (pk 0x04 0x8000 5 [], 0x04, .add, .n32, false) ∧
    PlainPlace (netState [] []) 0x8000 4 ∧ vecBad (pk 0x08 0x8000 0 [1, 0]) (netState [] []) = true ∧
    PlainPlace (netState [] []) (vecAddr (pk 0x08 0x8000 0 [4, 0]) 0) 4 ∧
    (pk 0x06 0x3F1000001000 0xFFFFFFFF []).imm.toNat % 2 ^ 32 = (2 ^ 32 - 1) * 2 ^ 0 ∧ (pk 0x06 0x3F1000001000 0xFF00 []).imm.toNat = (2 ^ 8 - 1) * 2 ^ 8 ∧
    (netState [] []).target 0x3F1000001000 = .control ∧ ctlPlace (spaLocal 0x3F1000001000) = .window ∧
    ctlRead (netState [] []) 0x3F1000001000 32 = 0 ∧
    spaPkg (64 * farLine) ≠ (netState [] [farLine]).harbour.pkg ∧ farLine ∈ (netState [] [farLine]).proxy ∧
    (∀ l, Unheld (netState [] []) l) ∧ (netState [] []).unsettled [0x8000 / 64] = false ∧
    farLine ∉ (netState [] []).proxy ∧ spaPkg 0x8000 = (netState [] []).harbour.pkg := by
  refine ⟨?_, ?_, fun _ _ _ _ => ⟨rfl, show 2 ≤ 3 by decide, rfl⟩, ?_, ?_, rfl, ?_, rfl,
    fun c hc => plainByte_of (List.all_eq_true.1 (?_ : (lineCells (pk 0x02 0x8000 0x8000000000000001 [1, 2])).all (fun c => plainByteB (netState [] []) c.1) = true) c hc),
    fun c hc => plainByte_of (List.all_eq_true.1 (?_ : (vecCells (pk 0x09 0x8000 0 [4, 0])).all (fun c => plainByteB (netState [] []) c.1) = true) c hc),
    ?_, rfl, plainPlace _ _ _ (by decide +kernel) rfl (by decide +kernel) (by decide) (by decide +kernel), ?_,
    plainPlace _ _ _ (by decide +kernel) rfl (by decide +kernel) (by decide +kernel) (by decide +kernel), ?_, ?_, ?_, ?_, ?_,
    ?_, List.mem_singleton_self _, fun _ => rfl, ?_, nofun, ?_⟩ <;> decide +kernel
/-- Requests that wait: for a line, for an answer with a value, of a posted write. -/
def reqOf (ask : Option Nat) (post : Option (Nat × FaultRec)) : RemoteReq := ⟨0, 0, ask, 1, 0, 0, none, post, none, 1, 0x10000000000, false⟩
def linkState (l : LinkState) : State := { netState [] [] with links := [(3, l), (515, l)] }
/-- A flit with the CRC that agrees: virtual channel 2, a head, and a tail or not. -/
def goodFlit (tail : Nat) : Nat := let x := 2 * 2 ^ 29 + 2 ^ 28 + tail * 2 ^ 27; x + flitCrc x
theorem witness_AnswersAndLinks :
    (∀ ask post, Kv.find 7 (netState [(7, reqOf ask post)] []).reqs = some (reqOf ask post)) ∧ (reqOf none none).pkg = 1 ∧
    (netState [] []).harbour.acks = [] ∧ ¬ (0x200 ≤ (reqOf none none).core ∧ (reqOf none none).core < 0x210) ∧
    farLine < 2 ^ 60 ∧ (3 : DWord).toNat % 4 = 3 ∧ (reqOf (some (2 ^ 60)) none).ask = some (2 ^ 60) ∧
    (∀ q, (reqOf none (some (5, q))).post = some (5, q)) ∧
    (∀ b, Kv.find 5 (netState [] []).blocks = some b → b.threads ≠ []) ∧ (reqOf none none).val = none ∧ (reqOf none none).err = 0 ∧ (reqOf none none).probe = none ∧
    (netState [] []).clock < 0 + 4000000 ∧ 0 + 4000000 ≤ { netState [] [] with clock := 4000000 }.clock ∧
    ForUs (netState [] []) (pk 0x30 0 1 []) 0x30 ∧ (1 : DWord).toNat % 256 = 1 ∧
    (pk 0x30 0 1 []).spkg < { Harbour.reset with pkg := 2 }.pkg ∧ { Harbour.reset with pkg := 2 }.routes = [] ∧
    (netState [] []).harbour.pkg ≤ (pk 0x30 0 1 []).spkg ∧
    (leRead (fun k => ([0, 0, 0, 0, 0, 0x80] : List Byte).getD k 0) 0 16).testBit 47 = true ∧
    (leRead (fun k => ([0, 0, 0, 0, 2, 0] : List Byte).getD k 0) 0 16).testBit 47 = false ∧
    bitsOf (leRead (fun k => ([0, 0, 0, 0, 2, 0] : List Byte).getD k 0) 0 16) 46 32 = 0x02 ∧
    (3 : DWord).toNat.testBit 9 = false ∧
    flitOk 0 = false ∧ flitOk (goodFlit 0) = true ∧ flitTail (goodFlit 0) = false ∧ flitOk (goodFlit 1) = true ∧
    flitTail (goodFlit 1) = true ∧ flitHead (goodFlit 1) = true ∧ ((linkState ⟨[], 4095, 0⟩).link 3).accepted = [] ∧
    32 ∉ presentPorts UnitParts.whole ∧ 31 ∈ presentPorts UnitParts.whole ∧ ([] : List Byte).length ≠ 42 ∧
    8 ≤ ((linkState ⟨[], 0, 8⟩).link (512 + 3)).replays ∧ ((linkState ⟨[], 0, 7⟩).link (512 + 3)).replays < 8 := by
  refine ⟨fun _ _ => rfl, rfl, rfl, ?_, ?_, ?_, rfl, fun _ => rfl, nofun, rfl, rfl, rfl, ?_, ?_,
    ⟨rfl, ?_, rfl⟩, ?_, ?_, rfl, ?_, ?_⟩ <;> decide +kernel

/-- The host is at address 9 and has had the reply to request 4; the capabilities agreed are all. -/
def hostHarbour (minimal : Bool) : Harbour :=
  { Harbour.reset with
    host := some 9
    replies := [⟨4, 0, .empty⟩]
    agreed := some 0x1F
    minimal := minimal
    starting := false }
def hostState (minimal : Bool) (ps : List (Nat × Partition)) : State :=
  { netState [] [] with
    harbour := hostHarbour minimal
    interleave := [(0, 0x8000000000000000), (767, 0x8002FF0000000000)]
    parts := ps }
def hdr (src seq len ver : Nat) : XcpHdr := ⟨src, seq, len, ver⟩
theorem serves (ps : List (Nat × Partition)) (minimal : Bool) : Serves (hostState minimal ps) (hdr 9 5 8192 1) :=
  ⟨rfl, nofun, fun r h => by cases List.mem_singleton.1 h; decide, fun r h => by cases Option.some.inj h; decide, rfl, by decide⟩
/-- No core is present: a start with nothing left to wait for, and one that waits for core 0. -/
def noCores : UnitParts := { UnitParts.whole with noCores := List.range 384 }
def helloState (u : UnitParts) : State :=
  { netState [] [] with
    absent := u
    harbour := Harbour.reset }
def quotas1 : List (Nat × Nat) := [(0, 64), (127, 1)]
theorem witness_HostCourse :
    (∀ ps m, Serves (hostState m ps) (hdr 9 5 8192 1)) ∧ (hostState true []).harbour.minimal = true ∧
    xcpRequest (.telem (hdr 9 5 0 1)) = some (hdr 9 5 0 1, false) ∧ (hostState false []).harbour.host ≠ some (hdr 8 5 0 1).src ∧
    (hostState false []).harbour.replies.find? (fun y => y.seq == 4) = some ⟨4, 0, .empty⟩ ∧
    (∃ r, (hostState false []).harbour.replies.head? = some r ∧ 3 < r.seq) ∧ (hdr 9 5 0 2).ver ≠ 1 ∧ 8192 < (hdr 9 5 8193 1).len ∧
    (helloState noCores).startDone = true ∧ (helloState UnitParts.whole).startDone = false ∧
    (helloState noCores).harbour.host = none ∧ (helloState noCores).harbour.agreed = none ∧ (0 : BitVec 5) &&& ~~~Config.unitCaps = 0 ∧
    rungOf 2 (1 + 64 * 5) = some (.context 1 5) ∧ (plain []).hasTarget (.context 1 5) = true ∧
    (hostState false []).hasTarget (.context 1 5) = false ∧ (∀ y ∈ (hostState false []).harbour.replies, y.seq ≤ 5) := by
  refine ⟨serves, rfl, rfl, ?_, rfl, ⟨_, rfl, by decide⟩, ?_, ?_, ?_, ?_, rfl, rfl, by simp, rfl, ?_, ?_,
    fun y h => by cases List.mem_singleton.1 h; decide⟩ <;> decide +kernel
/-- A partition may be created at number 2 beside partition 1, on a cluster of its own, and not at number 1 or on a cluster
that is taken; entries that replace nothing, that are misplaced, that meet the pages of R448, and that replace. -/
def params2 : PartParams := { params1 with guaranteed := [1] }
theorem witness_HostPartitions :
    (∀ ps, ServesAll (hostState false ps) (hdr 9 5 8192 1)) ∧ (hostState false [(1, part1)]).part 2 = none ∧
    (hostState false [(1, part1)]).paramsOk 2 params2 = true ∧ (hostState false [(1, part1)]).paramsOk 2 params1 = false ∧
    params2.regions = [] ∧ (hostState false [(1, part1)]).target ((hostState false [(1, part1)]).tableFrames 2 params2) = .dram ∧
    (hostState false [(1, part1)]).paramsOk 1 params1 = true ∧ { params1 with wcls := 2 }.wcls ≠ part1.params.wcls ∧
    (hostState false [(1, part1)]).part 1 = some part1 ∧
    (∀ m ∈ [MapEntry.mk 4 0x5000 0x5023], mapReplaces m part1.s2 = false ∧ mapPlaced m = true ∧
      mapWellFormed m (mapPut m part1.s2) = true ∧ (hostState false [(1, part1)]).mapRefused part1 m = false) ∧
    mapPlaced ⟨4, 0x5800, 0x5023⟩ = false ∧ (hostState false [(1, part1)]).mapRefused part1 ⟨4, gpaWindows, 0x5023⟩ = true ∧
    mapReplaces ⟨2, 0, 0x63⟩ basePart.s2 = true ∧
    (hostState false [(1, { basePart with progs := [(0, progOf [legOf 2 0xFF false] none)] })]).actsThrough 1 0 (2 ^ 52) = true ∧
    (hostState false [(1, basePart)]).actsThrough 1 0 (2 ^ 52) = false := by
  refine ⟨fun ps => ⟨serves ps false, rfl⟩, rfl, by decide +kernel, by decide +kernel, rfl, by decide +kernel, by decide +kernel, by decide,
    rfl, ?_, by decide +kernel⟩
  intro m hm
  cases List.mem_singleton.1 hm
  decide +kernel
theorem witness_HostSettings :
    (hostState false [(1, part1)]).harbour.agrees 1 = true ∧ noRepeat (quotas1.map (·.1)) = true ∧ (∀ q ∈ quotas1, q.1 < 128 ∧ q.2 ≤ 64) ∧
    Kv.find 5 (hostState false [(1, part1)]).harbour.jobs = none ∧ noRepeat [3, 3] = false ∧
    (hostState false [(1, part1)]).parts ≠ [] ∧ (hostState false []).parts = [] ∧ (hostState false []).harbour.agrees 4 = true ∧
    noRepeat (([(1, (1, 0)), (2, (3, 31))] : List (Nat × Nat × Nat)).map (·.1)) = true ∧
    (HostWindow.mk 1 0x1000 0x1000 true true).base + (HostWindow.mk 1 0x1000 0x1000 true true).len ≤ 2 ^ 52 ∧ 0x1800 % 4096 ≠ 0 ∧
    1000 ≤ 3200 ∧ (hostState false []).harbour.stagingLen ≠ 8 := by
  refine ⟨?_, ?_, ?_, rfl, ?_, nofun, rfl, ?_, ?_, ?_, ?_, ?_, ?_⟩ <;> decide +kernel
/-- A start that has not begun, one in progress before and at its limits, events not sent and sent, a hot die, windows of
two pages of which the second is not mapped. -/
def startState (u : UnitParts) (now : Nat) : State :=
  { netState [] [] with
    harbour := Harbour.reset
    absent := u
    clock := now }
def event0 (sent : Option Nat) : XcpEvent := ⟨0, 0, 0, 1, [], sent⟩
def windowed : State :=
  { hostState false [(1, { part1 with s2 := s2Of [⟨4, 0x8000, 0x8063⟩] })] with
    harbour := { hostHarbour false with windows := [(1, ⟨1, 0x8000, 0x2000, true, true⟩)] } }
theorem plainEight : ∀ k < 8, plainByteB windowed (0x8FF8 + k) = true := by decide +kernel
theorem witness_HarbourDie :
    State.reset.harbour.starting = true ∧ State.reset.interleave = [] ∧ presentStacks (settleParts UnitParts.whole) ≠ [] ∧
    presentDies (settleParts UnitParts.whole) ≠ [] ∧ presentStacks (settleParts { UnitParts.whole with noStacks := List.range 16 }) = [] ∧
    (startState UnitParts.whole 100000000).harbour.starting = true ∧ (startState UnitParts.whole 100000000).unreported 383 = true ∧
    383 ∈ presentCores (startState UnitParts.whole 100000000).absent ∧ (startState UnitParts.whole 0).harbour.startAt = 0 ∧
    presentDies noCores = [] ∧ presentStacks { UnitParts.whole with noStacks := List.range 16 } = [] ∧
    (startState UnitParts.whole 1000000000).startDone = false ∧ 2 ≤ { Harbour.reset with failCount := 2 }.failCount ∧
    (hostState false []).harbour.host ≠ none ∧ (event0 none).sent = none ∧
    ((event0 (some 0)).sent.any fun t => decide (t + 100000000 ≤ 100000000)) = true ∧ ([3] : List Nat).contains 3 = true ∧
    (hostState true []).harbour.minimal = true ∧ 255 < 256 ∧ 256 ≤ 256 ∧ windowed.windowPieces 1 0x8FF8 16 true = none ∧
    windowed.windowPieces 1 0x8FF8 8 true = some (1, [(0x8FF8, 8)]) ∧ windowed.windowPieces 2 0 8 false = none ∧
    (∀ k < 8, PlainByte windowed (0x8FF8 + k)) ∧ (∀ l, Unheld windowed l) ∧ (∀ a ∈ windowed.harbour.acks, a.1 ≠ 0) := by
  refine ⟨rfl, rfl, ?_, ?_, ?_, rfl, ?_, ?_, rfl, ?_, ?_, ?_, ?_, nofun, rfl, ?_, ?_, rfl, ?_, ?_, ?_, ?_, ?_,
    fun k hk => plainByte_of (plainEight k hk), fun _ => rfl, nofun⟩ <;> decide +kernel

/-- Words with every operand of their constructors. -/
def encSamples : List Instr :=
  intSamples ++ bitSamples ++ addrSamples ++ floatSamples ++ transfers ++ stewards
theorem witness_MermosEncodingsRoundTrip : (encSamples.all fun i => i.wf && (encodeBits i).isSome) = true ∧
    (decodeWord 0x0000B808100A3400).isOk = true := by decide +kernel
theorem witness_FerryAndNearBankEncodingsRoundTrip :
    (([.vadd 2 3 4 1 false .rn .f32, .br .ltu 4 5 1023, .rep 255 none 15, .pst 1 0 false 508, .emit] : List Instr).all fun i =>
      i.wf && (encodeFerry i).isSome) = true ∧
    (([.nbadd 1 2 3 true .i32 .rn .last, .nbst 1 3 .every] : List Instr).all fun i => i.wf && (encodeNb i).isSome) = true ∧
    0x94000000 < 2 ^ 32 ∧ (decodeFerry 0x94000000).isOk = true ∧ (decodeNb 0x46E86000).isOk = true := by decide +kernel

/-- A boot-mode thread at address 0, where memory holds a NOP, whose entry is in focus; its group. -/
def bootThr : Thread := { thr [] with priv := .boot, pc := 0 }
def bootWorld (cache : List ((Option Nat × Nat) × List Byte)) : State :=
  { State.reset with
    agenda := []
    focus := .entry 0 0
    interleave := [(0, 0x8000000000000000)]
    mem := cellsOf [(0, 0x7000)]
    blocks := [(bootKey 0, { Block.nowhere with threads := [(0, bootThr)], cores := [(0, core0)] })]
    cores := [(0, { theCore with icache := cache, entries := [(0, { ent with block := bootKey 0 })] })] }
def bootGrp : Grp := ⟨0, 0, bootKey 0, 0, [0], none⟩
/-- What the fetch of the group gives, decoded. -/
def fetched : Option (Option Instr) :=
  match (bootWorld []).fetch bootGrp 0 with
  | .error _ => none
  | .ok (bs, _) => some ((decode bs).toOption.map (·.1))
theorem witness_StepsRunDecodedInstructions :
    State.reset.agenda = [.deviceStart UnitParts.whole] ∧ (bootWorld []).agenda = [] ∧ (bootWorld []).focus = .entry 0 0 ∧
    (bootWorld []).entry 0 0 = some { ent with block := bootKey 0 } ∧ (bootWorld []).grpOf 0 0 = some bootGrp ∧
    (bootWorld []).hasWork 0 0 { ent with block := bootKey 0 } = true ∧ bootGrp.ov = none ∧ ent.pend = [] ∧
    fetched = some (some .nop) ∧
    bootGrp.part (bootWorld []) = none ∧ (bootWorld []).target ((bootWorld []).harbour.pkg * 2 ^ 46 + 0) = .dram ∧
    (bootWorld []).poisonedIn 0 32 = none ∧ (bootWorld []).stashPages = [] ∧
    (((bootWorld []).core 0).icache.find? fun b => b.1 == (none, 0)) = none ∧
    (((bootWorld [((none, 0), [0x00, 0x70])]).core 0).icache.find? fun b => b.1 == (none, 0)) =
      some ((none, 0), [0x00, 0x70]) ∧
    ((linesOf 0 32).all fun l => !(bootWorld []).probing l) = true ∧ gA.part (dram [] core0) = some 1 ∧
    (∃ y, (dram [] core0).translate 0 1 (gA.priv (dram [] core0)) .fetch 0x1000 = .ok (y, dram [] core0)) ∧ ent.chain = 0 ∧
    chains (.add { bin .i32 true with com := ⟨false, 7, true⟩ }) = true ∧
    (ferryAt (fRunAt 13 0 [])).agenda = [] ∧ (ferryAt (fRunAt 13 0 [])).focus = .ferry 0 0 ∧
    (ferryAt (fRunAt 13 0 [])).fctx 0 0 = some (fCtx (fRunAt 13 0 []), fRunAt 13 0 [], fBind) ∧
    fKernel.words[13]? = some 0x94000000 ∧ (decodeFerry 0x94000000).isOk = true ∧
    (nbRest [] 0 0).agenda = [] ∧ (nbRest [] 0 0).focus = .nb 0 0 ∧ ((nbRest [] 0 0).unit (64 * 0 + 0)).cur = some (nbCurAt 0 0) ∧
    (nbCurAt 0 0).prog[0]? = some 0 ∧ (decodeNb 0x46E86000).isOk = true := by
  refine ⟨rfl, rfl, rfl, rfl, ?_, ?_, rfl, rfl, ?_, ?_, ?_,
    ?_, ?_, ?_, ?_, ?_, rfl, ⟨_, rfl⟩, rfl, ?_, rfl, rfl,
    rfl, rfl, ?_, rfl, rfl, rfl, rfl, ?_⟩ <;> decide +kernel
/-- Memory with bytes in it that is in its canonical form, at reset and later; a state whose step answers a next state, since
nothing is in focus and nothing is left to do. -/
theorem witness_StepsKeepMemoryCanonical : MemOk State.reset ∧ MemOk (bootWorld []) ∧ MemOk (baseOf basePart) := by
  unfold MemOk
  decide +kernel
/-- A step that runs an event which is not enabled. -/
def quietState : State := { baseOf basePart with agenda := [.xcpEvent] }
theorem witness_TheCounterNeverDecreases : MemOk quietState ∧ ∃ s', step quietState = .next s' :=
  ⟨by unfold MemOk; decide +kernel, _, rfl⟩

end Sys2Proof.Tests
end

section
/-! Memory reads what was written: the obligation O28. -/

namespace Sys2Proof.Machine

/-- The bytes at a number's address give its low bytes back. -/
theorem leRead_leCells (s : State) (a v n : Nat) :
    leRead (s.setCells (leCells a v n)).byteAt a n = v % 256 ^ n := by
  induction n generalizing s a v with
  | zero => simp [leRead, Nat.mod_one]
  | succ n ih =>
    have first : (s.setCells (leCells a v (n + 1))).byteAt a = BitVec.ofNat 8 v := by
      simpa using byteAt_leCells s (a := a) (v := v) (Nat.succ_pos n)
    have rest : leRead (s.setCells (leCells a v (n + 1))).byteAt (a + 1) n = v / 256 % 256 ^ n :=
      ih (s.setByte a (BitVec.ofNat 8 v)) (a + 1) (v / 256)
    rw [leRead, first, rest, BitVec.toNat_ofNat, Nat.pow_succ' (n := n), Nat.mod_mul]

/-- Settles O28: reading after one write, and a number's bytes by induction on their count. -/
theorem memoryReadsWhatWasWritten : Obligations.MemoryReadsWhatWasWritten :=
  ⟨fun s a v c => byteAt_setByte s a c v, fun _ a v h => wf_setByte a v h,
    fun s a v n hv => ⟨by rw [leRead_leCells, Nat.mod_eq_of_lt hv], fun _ h => byteAt_leCells_other s h⟩,
    fun _ _ h h' e => Kv.eq_of_get h h' e⟩
end Sys2Proof.Machine
end

section
/-! Every step keeps memory in its canonical form: the obligation O60. For each function of the model that answers a state
there is one lemma, in the order of the model: `f_mem` where `f` leaves memory as it is, `wf_f` where it writes memory or
is an instruction. A lemma's proof opens its function and cites the lemmas of the functions that it calls. -/

namespace Sys2Proof.Machine

/-! ### Threads, groups and the taking of instructions -/

@[simp] theorem putThread_mem (s : State) (k i : Nat) (t : Thread) : (s.putThread k i t).mem = s.mem := by
  unfold State.putThread; grind [State.modBlock_mem]

/-- A mapped result answers just where the result that it maps does. -/
theorem map_eq_ok {ε α β : Type} {f : α → β} {x : Except ε α} {b : β} :
    Except.map f x = .ok b ↔ ∃ a, x = .ok a ∧ f a = b := by
  cases x <;> simp [Except.map]

theorem bind_eq_ok {ε α β : Type} {f : α → Except ε β} {x : Except ε α} {b : β} :
    Except.bind x f = .ok b ↔ ∃ a, x = .ok a ∧ f a = .ok b := by
  cases x <;> simp [Except.bind]

@[simp] theorem draw_mem (s : State) : s.draw.2.mem = s.mem := by
  unfold State.draw; grind

@[simp] theorem drawBytes_mem (s : State) (n : Nat) : (s.drawBytes n).2.mem = s.mem := by
  fun_induction State.drawBytes <;> grind [draw_mem]

@[simp] theorem writeDst_mem (s : State) (k i : Nat) (first : Bool) (x : Src) (v : DWord) :
    (writeDst s k i first x v).mem = s.mem := by
  unfold writeDst; grind [State.modThread_mem, State.modBc_mem]

@[simp] theorem captureTime_mem (s : State) (g : Grp) (i : Nat) (l : List Src) :
    (captureTime s g i l).mem = s.mem := by
  unfold captureTime; grind [State.modThread_mem]

@[simp] theorem markRead_mem (s : State) (gr : Nat) : (s.markRead gr).mem = s.mem := by
  unfold State.markRead; grind

@[simp] theorem faultThread_mem (s : State) (g : Grp) (i : Nat) (instr : Option Instr) (srcs : List DWord) (e : Exc) :
    (faultThread s g i instr srcs e).mem = s.mem := by
  unfold faultThread; grind [State.modThread_mem, markRead_mem, sendBlockRecord_mem]

@[simp] theorem faultThreads_mem (s : State) (g : Grp) (instr : Option Instr) (e : Exc) (ls : List Nat) :
    (faultThreads s g instr e ls).mem = s.mem := by
  fun_induction faultThreads <;> grind [faultThread_mem]

@[simp] theorem noteIssue_mem (s : State) (core e : Nat) : (s.noteIssue core e).mem = s.mem := by
  unfold State.noteIssue; grind [State.modEntry_mem]

@[simp] theorem passInstr_mem (s : State) (g : Grp) (len : Nat) : (passInstr s g len).mem = s.mem := by
  unfold passInstr; grind [State.modBlock_mem]

@[simp] theorem advance_mem (s : State) (g : Grp) (len : Nat) : (advance s g len).mem = s.mem := by
  unfold advance; grind [passInstr_mem, noteIssue_mem]

@[simp] theorem splitOff_mem (s : State) (c block age : Nat) (ls : List (List Nat)) :
    (splitOff s c block age ls).mem = s.mem := by
  fun_induction splitOff <;> grind [State.modBlock_mem, State.modCore_mem]

@[simp] theorem regroup_mem (s : State) (c e : Nat) : (regroup s c e).mem = s.mem := by
  unfold regroup; grind [State.modCore_mem, State.modEntry_mem, splitOff_mem]

theorem finish_mem {s : State} {g} {s'} (e : finish s g = .next s') : s'.mem = s.mem := by
  unfold finish at e; grind [regroup_mem]

theorem faultAll_mem {s : State} {g i len c} {s'} (e : faultAll s g i len c = .next s') : s'.mem = s.mem := by
  unfold faultAll at e; grind [→ finish_mem, faultThreads_mem, advance_mem]

/-! ### Vector instructions -/

@[simp] theorem checkAll_mem (s : State) (g : Grp) (instr : Instr) (u : Use) (ls : List Nat) :
    (checkAll g instr u ls s).1.mem = s.mem := by
  fun_induction checkAll <;> grind [faultThread_mem, captureTime_mem]

@[simp] theorem prepare_mem (s : State) (g : Grp) (instr : Instr) (u : Use) :
    (prepare s g instr u).1.mem = s.mem := by
  unfold prepare; grind [checkAll_mem, advance_mem]

@[simp] theorem writeAll_mem (s : State) (k i : Nat) (first : Bool) (ls : List (Src × DWord)) :
    (writeAll k i first ls s).mem = s.mem := by
  fun_induction writeAll <;> grind [writeDst_mem]

theorem wf_runThreads {g : Grp} {ins : Instr} {f : Nat → List DWord → State → Effect} {first : Bool}
    {l : List (Nat × List DWord)} {s r : State}
    (hf : ∀ i l s r, Memory.wf s.mem → f i l s = .ok r → Memory.wf r.1.mem) (h : Memory.wf s.mem)
    (e : runThreads g ins f first l s = .ok r) : Memory.wf r.mem := by
  fun_induction runThreads g ins f first l s <;> grind [faultThread_mem, writeAll_mem]

theorem wf_runGather {α : Type} {g : Grp} {ins : Instr} {f : Nat → List DWord → α → State → Except Stop (α × State)}
    {l : List (Nat × List DWord)} {a : α} {s : State} {r : α × State}
    (hf : ∀ i l a s r, Memory.wf s.mem → f i l a s = .ok r → Memory.wf r.2.mem) (h : Memory.wf s.mem)
    (e : runGather g ins f l a s = .ok r) : Memory.wf r.2.mem := by
  fun_induction runGather g ins f l a s <;> grind [faultThread_mem]

@[simp] theorem closeChain_mem (s : State) (g : Grp) : (closeChain s g).mem = s.mem := by
  unfold closeChain; grind [State.modEntry_mem]

@[simp] theorem makePending_mem (s : State) (core e : Nat) : (s.makePending core e).mem = s.mem := by
  unfold State.makePending; grind [State.modEntry_mem]

@[simp] theorem demote_mem (s : State) (core e : Nat) : (s.demote core e).mem = s.mem := by
  unfold State.demote; grind [makePending_mem]

@[simp] theorem waitFor_mem (s : State) (core e : Nat) (ev : List Instr) : (s.waitFor core e ev).mem = s.mem := by
  unfold State.waitFor; grind [State.later_mem, demote_mem, State.modEntry_mem]

theorem wf_barBoot {ins : Instr} {s : State} {g : Grp} {k : Res} {s' : State} (h : Memory.wf s.mem)
    (hk : k = .next s' → Memory.wf s'.mem) (e : barBoot ins s g k = .next s') : Memory.wf s'.mem := by
  unfold barBoot at e; grind [→ faultAll_mem]

@[simp] theorem request_mem (s : State) (core e ask : Nat) (p : Packet) : (s.request core e ask p).mem = s.mem := by
  unfold State.request; grind [State.modEntry_mem, sendReq_mem]

@[simp] theorem taken_mem (s : State) (core e : Nat) : (s.taken core e).mem = s.mem := by
  unfold State.taken; grind

theorem abort_mem {s0 : State} {core e y} {s'} (e : abort s0 core e y = .next s') : s'.mem = s0.mem := by
  unfold abort at e; grind [demote_mem, request_mem, waitFor_mem]

theorem wf_conclude {s0 : State} {g : Grp} {r : Except Stop State} {s' : State} (h0 : Memory.wf s0.mem)
    (h : ∀ s, r = .ok s → Memory.wf s.mem) (e : conclude s0 g r = .next s') : Memory.wf s'.mem := by
  unfold conclude at e; grind [→ finish_mem, → abort_mem, taken_mem]

theorem wf_eachThread {ins : Instr} {u : Use} {f : Grp → Nat → List DWord → State → Effect} {s s' : State}
    (hf : ∀ g i l s r, Memory.wf s.mem → f g i l s = .ok r → Memory.wf r.1.mem) (h : Memory.wf s.mem)
    (e : eachThread ins u f s = .next s') : Memory.wf s'.mem := by
  unfold eachThread at e
  split at e
  · grind
  · exact wf_conclude h (fun _ => wf_runThreads (hf _) (by simpa using h)) e

theorem wf_gatherThreads {α : Type} {ins : Instr} {u : Use} {init : α}
    {f : Grp → Nat → List DWord → α → State → Except Stop (α × State)} {last : Grp → α → State → State} {s s' : State}
    (hf : ∀ g i l a s r, Memory.wf s.mem → f g i l a s = .ok r → Memory.wf r.2.mem)
    (hl : ∀ g a s, Memory.wf s.mem → Memory.wf (last g a s).mem) (h : Memory.wf s.mem)
    (e : gatherThreads ins u init f last s = .next s') : Memory.wf s'.mem := by
  unfold gatherThreads at e
  split at e
  · grind
  · refine wf_conclude h (fun t ht => ?_) e
    obtain ⟨r, hr, rfl⟩ := map_eq_ok.1 ht
    exact hl _ _ _ (wf_runGather (hf _) (by simpa using h) hr)

theorem wf_eachThreadNoBoot {ins : Instr} {u : Use} {f : Grp → Nat → List DWord → State → Effect} {s s' : State}
    (hf : ∀ g i l s r, Memory.wf s.mem → f g i l s = .ok r → Memory.wf r.1.mem) (h : Memory.wf s.mem)
    (e : eachThreadNoBoot ins u f s = .next s') : Memory.wf s'.mem := by
  unfold eachThreadNoBoot at e
  split at e
  · grind
  · exact wf_barBoot h (wf_eachThread hf h) e

@[simp] theorem holdThreads_mem (s : State) (k : Nat) (l : List Nat) (hdr : Hold) :
    (holdThreads s k l hdr).mem = s.mem := by
  unfold holdThreads; grind [State.modBlock_mem]

@[simp] theorem faultEach_mem (s : State) (g : Grp) (instr : Instr) (e : Exc) (ls : List (Nat × List DWord)) :
    (faultEach g instr e ls s).mem = s.mem := by
  fun_induction faultEach <;> grind [faultThread_mem]

@[simp] theorem writeEach_mem (s : State) (k : Nat) (ws : List (Src × DWord)) (y : Bool) (ls : List (Nat × List
    DWord)) :
    (writeEach k ws y ls s).mem = s.mem := by
  fun_induction writeEach <;> grind [writeAll_mem]

/-- Every state that the answer of a once-acting instruction carries has memory in its canonical form. -/
def Once.Wf : Once → Prop
  | .done s _ | .stopIn s _ | .hold s _ => Memory.wf s.mem
  | _ => True

theorem wf_onceThread {ins : Instr} {u : Use} {f : Grp → Nat → List DWord → State → Once} {s s' : State}
    (hf : ∀ g i l s, Memory.wf s.mem → (f g i l s).Wf) (h : Memory.wf s.mem)
    (e : onceThread ins u f s = .next s') : Memory.wf s'.mem := by
  unfold onceThread at e
  split at e
  · grind
  · rename_i g _
    dsimp only at e
    have h1 : Memory.wf (prepare (closeChain s g) g ins u).1.mem := by simpa using h
    split at e
    · grind [→ finish_mem]
    · rename_i i l _ _
      have := hf g i l _ h1
      split at e <;> grind [Once.Wf, → finish_mem, → abort_mem, taken_mem, faultEach_mem, holdThreads_mem,
        writeEach_mem, waitFor_mem]

theorem wf_onceThreadNoBoot {ins : Instr} {u : Use} {f : Grp → Nat → List DWord → State → Once} {s s' : State}
    (hf : ∀ g i l s, Memory.wf s.mem → (f g i l s).Wf) (h : Memory.wf s.mem)
    (e : onceThreadNoBoot ins u f s = .next s') : Memory.wf s'.mem := by
  unfold onceThreadNoBoot at e
  split at e
  · grind
  · exact wf_barBoot h (wf_onceThread hf h) e

@[simp] theorem chainStep_mem (s : State) (g : Grp) (c : Com) : (chainStep s g c).mem = s.mem := by
  unfold chainStep; grind [State.modEntry_mem]

@[simp] theorem markLatch_mem (s : State) (g : Grp) (op : VecOp) : (markLatch s g op).mem = s.mem := by
  unfold markLatch; grind [State.modEntry_mem]

@[simp] theorem writeVec_mem (s : State) (g : Grp) (i : Nat) (first : Bool) (op : VecOp) (v : DWord) :
    (writeVec s g i first op v).mem = s.mem := by
  unfold writeVec; grind [State.modEntry_mem, writeDst_mem]

@[simp] theorem vecThread_mem (s : State) (g : Grp) (first : Bool) (i : Nat) (t : Thread) (ls : List VecOp) (ls1 :
    List DWord) :
    (vecThread g first i t ls ls1 s).mem = s.mem := by
  fun_induction vecThread <;> grind [writeVec_mem, State.modThread_mem, foldl_mem]

@[simp] theorem vecThreads_mem (s : State) (g : Grp) (ops : List VecOp) (y : Bool) (ls : List (Nat × List DWord)) :
    (vecThreads g ops y ls s).mem = s.mem := by
  fun_induction vecThreads <;> grind [vecThread_mem]

@[simp] theorem checkVecAll_mem (s : State) (g : Grp) (instr : Instr) (ops : List VecOp) (ls : List Nat) :
    (checkVecAll g instr ops ls s).1.mem = s.mem := by
  fun_induction checkVecAll <;> grind [faultThread_mem, captureTime_mem]

theorem wf_execVec {ins : Instr} {com : Com} {ops : List VecOp} {s s' : State} (h : Memory.wf s.mem)
    (e : execVec ins com ops s = .next s') : Memory.wf s'.mem := by
  unfold execVec at e
  split at e
  · grind
  · dsimp only at e
    split at e
    · grind [waitFor_mem]
    · rw [finish_mem e, foldl_mem fun s op => markLatch_mem s _ op]; simpa using h

/-! ### Moves and control registers -/

@[simp] theorem csrWrite_mem (s : State) (g : Grp) (i : Nat) (r : Csr) (v : DWord) :
    (csrWrite s g i r v).mem = s.mem := by
  unfold csrWrite; grind [State.modThread_mem, State.modCore_mem, State.modPart_mem]

theorem wf_execCsrr {s : State} {com reg dst} {s'} (h : Memory.wf s.mem) (e : execCsrr com reg dst s = .next s') :
    Memory.wf s'.mem :=
  wf_eachThread (fun g i l s r h e => by grind) h e

theorem wf_csrwOp {s : State} {instr com reg a f} {s'} (h : Memory.wf s.mem)
    (e : csrwOp instr com reg a f s = .next s') : Memory.wf s'.mem :=
  wf_eachThread (fun g i l s r h e => by grind [csrWrite_mem]) h e

theorem wf_execCsrw {s : State} {com reg a} {s'} (h : Memory.wf s.mem) (e : execCsrw com reg a s = .next s') :
    Memory.wf s'.mem := wf_csrwOp h e

theorem wf_execCsrwSet {s : State} {com reg a} {s'} (h : Memory.wf s.mem) (e : execCsrwSet com reg a s = .next s') :
    Memory.wf s'.mem := wf_csrwOp h e

theorem wf_execCsrwClr {s : State} {com reg a} {s'} (h : Memory.wf s.mem) (e : execCsrwClr com reg a s = .next s') :
    Memory.wf s'.mem := wf_csrwOp h e

/-! ### Translation and requests -/

@[simp] theorem markPoison_mem (s : State) (gr : Nat) : (s.markPoison gr).mem = s.mem := by
  unfold State.markPoison; grind

theorem translateVia_mem {s : State} {v c part pr a va} {r} (e : s.translateVia v c part pr a va = .ok r) :
    r.2.mem = s.mem := by
  unfold State.translateVia at e; grind [State.modCore_mem]

theorem translate_mem {s : State} {c part pr a va} {r} (e : s.translate c part pr a va = .ok r) :
    r.2.mem = s.mem := by
  unfold State.translate at e; grind [→ translateVia_mem]

theorem resolve_mem {s : State} {g i f sp a ea n} {r} (e : resolve g i f sp a ea n s = .ok r) : r.2.mem = s.mem := by
  unfold resolve at e; grind [→ translate_mem, map_eq_ok]

/-! ### Reads and writes of physical memory -/

@[simp] theorem stashTake_mem (s : State) (cells : List Host.Cell) : (s.stashTake cells).mem = s.mem := by
  unfold State.stashTake; grind

theorem wf_dropProxy {s : State} (line : Nat) (h : Memory.wf s.mem) : Memory.wf (s.dropProxy line).mem := by
  unfold State.dropProxy; grind [wf_setCells]

@[simp] theorem raceAcquire_mem (s : State) (k va : Nat) : (s.raceAcquire k va).mem = s.mem := by
  unfold State.raceAcquire; grind [State.modBlock_mem]

@[simp] theorem releases_mem (s : State) (k n : Nat) : (s.releases k n).mem = s.mem := by
  unfold State.releases; grind [State.modBlock_mem]

theorem releaseWait_mem {s : State} {a i dom} {r} (e : s.releaseWait a i dom = .ok r) : r.mem = s.mem := by
  unfold State.releaseWait at e; grind [State.modBlock_mem]

theorem orderWait_mem {s : State} {a i o} {r} (e : s.orderWait a i o = .ok r) : r.mem = s.mem := by
  unfold State.orderWait at e; grind [→ releaseWait_mem]

@[simp] theorem releaseHalts_mem (s : State) (p : Nat) : (s.releaseHalts p).mem = s.mem := by
  unfold State.releaseHalts; grind [State.modBlock_mem, State.modPart_mem]

@[simp] theorem hail_mem (s : State) (p : Nat) (payload : DWord) : (s.hail p payload).mem = s.mem := by
  unfold State.hail; grind [State.putPart_mem, releaseHalts_mem, State.later_mem]

@[simp] theorem hailStore_mem (s : State) (writer : Option Nat) (p : Nat) (payload : DWord) :
    (s.hailStore writer p payload).mem = s.mem := by
  unfold State.hailStore; grind [hail_mem]

theorem wf_physRead {s : State} {a spa n va} {r} (h : Memory.wf s.mem) (e : physRead s a spa n va = .ok r) :
    Memory.wf r.2.mem := by
  unfold physRead at e; grind [wf_snoop, foldl_mem, foldl_wf]

theorem wf_typedRead {s : State} {a spa mt n va} {r} (h : Memory.wf s.mem) (e : typedRead s a spa mt n va = .ok r) :
    Memory.wf r.2.mem := by
  unfold typedRead at e; grind [→ wf_physRead, map_eq_ok]

theorem ctlWriteRemote_mem {s : State} {a spa va v n} {r} (e : ctlWriteRemote s a spa va v n = .ok r) :
    r.mem = s.mem := by
  unfold ctlWriteRemote at e; grind [sendBlockRecord_mem, map_eq_ok]

theorem strictWrite_mem {s : State} {a spa va v n} {r} (e : strictWrite s a spa va v n = .ok r) : r.mem = s.mem := by
  unfold strictWrite at e; grind [→ ctlWriteRemote_mem]

theorem wf_ctlWrite {s : State} {a spa va v n} {r} (h : Memory.wf s.mem) (e : ctlWrite s a spa va v n = .ok r) :
    Memory.wf r.mem := by
  unfold ctlWrite at e; grind [wf_setCells, hailStore_mem]

theorem stashHome_mem {s : State} {k j pr st va} {r} (e : stashHome s k j pr st va = .ok r) : r.2.mem = s.mem := by
  unfold stashHome at e; grind [→ translate_mem]

@[simp] theorem putLine_mem (s : State) (k j off : Nat) (l : StashLine) : (s.putLine k j off l).mem = s.mem := by
  unfold State.putLine; grind [State.modBc_mem]

theorem wf_stashFill {s : State} {a k j off pr st p} {r}
    (h : Memory.wf s.mem) (e : stashFill s a k j off pr st p = .ok r) : Memory.wf r.2.mem := by
  unfold stashFill at e; grind [→ stashHome_mem, wf_snoop, probeHolders_mem, putLine_mem, → wf_physRead]

theorem wf_scratchAt {s : State} {a k j off pr st} {r}
    (h : Memory.wf s.mem) (e : scratchAt s a k j off pr st = .ok r) : Memory.wf r.2.mem := by
  unfold scratchAt at e; grind [→ wf_stashFill]

theorem wf_scratchRead {s : State} {a k j off n pr o} {r}
    (h : Memory.wf s.mem) (e : scratchRead s a k j off n pr o = .ok r) : Memory.wf r.2.mem := by
  unfold scratchRead at e; grind [→ wf_scratchAt, raceAcquire_mem, → wf_physRead, map_eq_ok]

theorem wf_scratchWrite {s : State} {a k j off d pr o} {r}
    (h : Memory.wf s.mem) (e : scratchWrite s a k j off d pr o = .ok r) : Memory.wf r.2.mem := by
  unfold scratchWrite at e; grind [→ wf_scratchAt, State.modBc_mem, putLine_mem]

theorem wf_loadPlace {s : State} {g i p ea n o} {r} (h : Memory.wf s.mem) (e : loadPlace g i p ea n o s = .ok r) :
    Memory.wf r.2.mem := by
  unfold loadPlace at e; grind [→ wf_scratchRead, raceAcquire_mem, → wf_typedRead, map_eq_ok]

theorem wf_physStore {s : State} {a spa mt va v n rel} {r}
    (h : Memory.wf s.mem) (e : physStore s a spa mt va v n rel = .ok r) : Memory.wf r.2.mem := by
  unfold physStore at e; grind [→ releaseWait_mem, → strictWrite_mem, → wf_ctlWrite, map_eq_ok]

theorem wf_unitRead {s : State} {a p va n} {r} (h : Memory.wf s.mem) (e : unitRead s a p va n = .ok r) :
    Memory.wf r.2.mem := by
  unfold unitRead at e; grind [→ wf_typedRead]

theorem wf_unitWrite {s : State} {a p va v n rel} {r} (h : Memory.wf s.mem) (e : unitWrite s a p va v n rel = .ok r) :
    Memory.wf r.mem := by
  unfold unitWrite at e; grind [wf_writeCells, → wf_physStore, map_eq_ok]

theorem wf_storePlace {s : State} {g i p ea v n o} {r}
    (h : Memory.wf s.mem) (e : storePlace g i p ea v n o s = .ok r) : Memory.wf r.2.mem := by
  unfold storePlace at e; grind [→ wf_scratchWrite, State.modCore_mem, → wf_physStore]

/-! ### Engine operations and the copy engines -/

@[simp] theorem takeNum_mem (s : State) (k j tl : Nat) : (s.takeNum k j tl).2.mem = s.mem := by
  unfold State.takeNum; grind [State.modBc_mem]

@[simp] theorem faultHeld_mem (s : State) (k i : Nat) (log : OpLog) (e : Exc) :
    (faultHeld s k i log e).mem = s.mem := by
  unfold faultHeld; grind [faultThread_mem]

@[simp] theorem makeReady_mem (s : State) (k i : Nat) : (s.makeReady k i).mem = s.mem := by
  unfold State.makeReady; grind [State.modThread_mem]

@[simp] theorem wakeTl_mem (s : State) (k : Nat) : (s.wakeTl k).mem = s.mem := by
  unfold State.wakeTl; grind [faultHeld_mem, makeReady_mem, foldl_mem]

@[simp] theorem startOp_mem (s : State) (k j tl : Nat) (kind : OpKind) (bidx : Option Nat) (pc : Nat) (pr : Priv) :
    (s.startOp k j tl kind bidx pc pr).2.mem = s.mem := by
  unfold State.startOp; grind [takeNum_mem, State.modBc_mem]

@[simp] theorem completeNum_mem (s : State) (k j tl : Nat) : (s.completeNum k j tl).mem = s.mem := by
  unfold State.completeNum; grind [wakeTl_mem, State.modBc_mem]

theorem wf_barPut {s : State} (k j off : Nat) (b : Bar) (h : Memory.wf s.mem) :
    Memory.wf (s.barPut k j off b).mem := by
  unfold State.barPut; grind [State.modBc_mem, wf_writeCells]

@[simp] theorem wakeBar_mem (s : State) (k j off : Nat) (b : Bar) : (s.wakeBar k j off b).mem = s.mem := by
  unfold State.wakeBar; grind [faultHeld_mem, makeReady_mem, foldl_mem]

theorem wf_poisonOne {s : State} (k j off : Nat) (h : Memory.wf s.mem) : Memory.wf (s.poisonOne k j off).mem := by
  unfold State.poisonOne; grind [wakeBar_mem, wf_barPut]

theorem wf_poisonBar {s : State} (k j off : Nat) (h : Memory.wf s.mem) : Memory.wf (s.poisonBar k j off).mem := by
  unfold State.poisonBar; grind [wf_poisonOne, foldl_mem, foldl_wf]

theorem wf_advancePhase {s : State} (k j off : Nat) (h : Memory.wf s.mem) :
    Memory.wf (s.advancePhase k j off).mem := by
  unfold State.advancePhase; grind [wakeBar_mem, wf_barPut, foldl_mem, foldl_wf]

theorem wf_settleRoot {s : State} (k j off : Nat) (h : Memory.wf s.mem) : Memory.wf (s.settleRoot k j off).mem := by
  unfold State.settleRoot; grind [wf_advancePhase]

theorem wf_arriveRoot {s : State} (k off : Nat) (h : Memory.wf s.mem) : Memory.wf (s.arriveRoot k off).1.mem := by
  unfold State.arriveRoot; grind [wf_poisonBar, wf_settleRoot, wf_barPut]

theorem wf_settle {s : State} (k j off : Nat) (h : Memory.wf s.mem) : Memory.wf (s.settle k j off).mem := by
  unfold State.settle; grind [wf_barPut, wf_arriveRoot, wf_poisonBar, wf_advancePhase]

theorem wf_addBytes {s : State} (k j off : Nat) (n : ℤ) (h : Memory.wf s.mem) :
    Memory.wf (s.addBytes k j off n).1.mem := by
  unfold State.addBytes; grind [wf_poisonBar, wf_barPut]

@[simp] theorem movePointer_mem (s : State) (k j : Nat) (op : EngineOp) (n : Nat) :
    (s.movePointer k j op n).mem = s.mem := by
  unfold State.movePointer; grind [State.modBc_mem]

theorem wf_countBytes {s : State} (k j : Nat) (op : EngineOp) (n : Nat) (h : Memory.wf s.mem) :
    Memory.wf (s.countBytes k j op n).1.mem := by
  unfold State.countBytes; grind [movePointer_mem, wf_addBytes, wf_settle]

theorem wf_cancelBar {s : State} (k j : Nat) (op : EngineOp) (left : Nat) (h : Memory.wf s.mem) :
    Memory.wf (s.cancelBar k j op left).mem := by
  unfold State.cancelBar; grind [wf_barPut, wf_poisonBar]

theorem wf_cancelOp {s : State} (k j : Nat) (op : EngineOp) (left : Nat) (e : Exc) (h : Memory.wf s.mem) :
    Memory.wf (s.cancelOp k j op left e).mem := by
  unfold State.cancelOp; grind [wf_cancelBar, movePointer_mem, State.modBc_mem, sendBlockRecord_mem, completeNum_mem]

@[simp] theorem parkOp_mem (s : State) (k j : Nat) (op : EngineOp) (e : Exc) : (s.parkOp k j op e).mem = s.mem := by
  unfold State.parkOp; grind [sendBlockRecord_mem, State.modBc_mem]

theorem engPlace_mem {s : State} {k j op a va} {r} (e : engPlace s k j op a va = .ok r) : r.2.mem = s.mem := by
  unfold engPlace at e; grind [→ translateVia_mem]

@[simp] theorem lookAhead_mem (s : State) (k j : Nat) (op : EngineOp) (a : Access) (ls : List Nat) :
    (s.lookAhead k j op a ls).mem = s.mem := by
  fun_induction State.lookAhead <;> grind [→ translateVia_mem]

theorem wf_engRead {s : State} {k j op p n} {r} (h : Memory.wf s.mem) (e : engRead s k j op p n = .ok r) :
    Memory.wf r.2.mem := by
  unfold engRead at e; grind [→ engPlace_mem, → wf_typedRead, → wf_scratchRead]

theorem wf_engWrite {s : State} {k j op p d} {r} (h : Memory.wf s.mem) (e : engWrite s k j op p d = .ok r) :
    Memory.wf r.2.mem := by
  unfold engWrite at e; grind [→ engPlace_mem, → wf_physStore, → wf_scratchWrite]

theorem wf_engWords {s : State} {k j op f n} {r} (h : Memory.wf s.mem) (e : engWords s k j op f n = .ok r) :
    Memory.wf r.2.mem := by
  fun_induction engWords generalizing r <;> grind [→ wf_engRead, map_eq_ok]

theorem stopOp_mem {s : State} {k j op x} {s'} (e : s.stopOp k j op x = .next s') : s'.mem = s.mem := by
  unfold State.stopOp at e; grind [request_mem, State.later_mem, State.modBc_mem]

/-! ### Tensors -/

theorem wf_readRecord {s : State} {g i va} {r} (h : Memory.wf s.mem) (e : readRecord s g i va = .ok r) :
    Memory.wf r.2.mem := by
  unfold readRecord at e; grind [→ translate_mem, → wf_loadPlace]

/-! ### Tiles and the matrix engine -/

theorem wf_tldUnit {s : State} {k j op td x coord u} {r}
    (h : Memory.wf s.mem) (e : tldUnit s k j op td x coord u = .ok r) : Memory.wf r.mem := by
  unfold tldUnit at e; grind [State.modBc_mem, → wf_engRead, map_eq_ok]

theorem wf_tstUnit {s : State} {k j op td x coord rnd sat tc u} {r}
    (h : Memory.wf s.mem) (e : tstUnit s k j op td x coord rnd sat tc u = .ok r) : Memory.wf r.2.2.mem := by
  unfold tstUnit at e; grind [→ wf_engRead, → wf_engWrite]

theorem wf_tldRun {s : State} (k j : Nat) (op : EngineOp) (td x : Nat) (coord : List ℤ) (n n1 : Nat)
    (h : Memory.wf s.mem) : Memory.wf (tldRun k j op td x coord n n1 s).1.mem := by
  fun_induction tldRun <;> grind [→ wf_tldUnit]

theorem wf_tstRun {s : State} (k j : Nat) (op : EngineOp) (td x : Nat) (coord : List ℤ) (rnd : Rnd) (sat : Bool) (tc
    : Word) (n n1 : Nat) (ls : List WCell) (h : Memory.wf s.mem) :
    Memory.wf (tstRun k j op td x coord rnd sat tc n n1 ls s).1.mem := by
  fun_induction tstRun <;> grind [→ wf_tstUnit, State.modBc_mem]

theorem wf_setInv {s : State} {k j op recAddr} {r} (h : Memory.wf s.mem) (e : setInv s k j op recAddr = .ok r) :
    Memory.wf r.mem := by
  unfold setInv at e; grind [→ wf_engRead, wf_writeCells, → wf_engWrite, map_eq_ok]

@[simp] theorem matrixDone_mem (s : State) (core k j num : Nat) : (s.matrixDone core k j num).mem = s.mem := by
  unfold State.matrixDone; grind [State.modBc_mem, State.modCore_mem, completeNum_mem]

theorem matrixStop_mem {s : State} {k j op u x} {s'} (e : s.matrixStop k j op u x = .next s') : s'.mem = s.mem := by
  unfold State.matrixStop at e; grind [→ stopOp_mem, State.modBc_mem]

theorem wf_performMatrix {s : State} {core k j op o} {s'}
    (h : Memory.wf s.mem) (e : s.performMatrix core k j op o = .next s') : Memory.wf s'.mem := by
  unfold State.performMatrix at e; grind [State.modBc_mem, matrixDone_mem, wf_tldRun, → matrixStop_mem, → wf_setInv,
    wf_tstRun, wf_writeCells, sendBlockRecord_mem]

theorem wf_execMatrixOpComplete {s : State} {core outcome} {s'}
    (h : Memory.wf s.mem) (e : execMatrixOpComplete core outcome s = .next s') : Memory.wf s'.mem := by
  unfold execMatrixOpComplete at e; grind [→ wf_performMatrix]

theorem wf_inOrder {run : State → Res} {s s' : State} (hr : run s = .next s' → Memory.wf s'.mem)
    (h : Memory.wf s.mem) (e : inOrder run s = .next s') : Memory.wf s'.mem := by
  unfold inOrder at e; grind [waitFor_mem]

theorem wf_withRoom {run : State → Res} {s s' : State} (hr : run s = .next s' → Memory.wf s'.mem)
    (h : Memory.wf s.mem) (e : withRoom run s = .next s') : Memory.wf s'.mem := by
  unfold withRoom at e; grind [waitFor_mem]

theorem wf_queueMatrix {s : State} (g : Grp) (i : Nat) (kind : OpKind) (dst : Opnd) (h :
    Memory.wf s.mem) : (queueMatrix g i kind dst s).Wf := by
  unfold queueMatrix; grind [Once.Wf, startOp_mem, State.modCore_mem]

@[simp] theorem setTc_mem (s : State) (k i t : Nat) (v : Word) : (setTc s k i t v).mem = s.mem := by
  unfold setTc; grind [State.modBc_mem]

theorem wf_execTcfg {s : State} {com td src} {s'} (h : Memory.wf s.mem) (e : execTcfg com td src s = .next s') :
    Memory.wf s'.mem :=
  wf_withRoom (wf_inOrder (wf_onceThreadNoBoot (fun g i l s h => by grind [Once.Wf, setTc_mem]) h) h) h e

theorem wf_execMovsWriteTc {s : State} {com t a} {s' : State} (h : Memory.wf s.mem)
    (e : execMovsWriteTc com t a s = .next s') : Memory.wf s'.mem := by
  unfold execMovsWriteTc at e
  refine wf_inOrder (fun e => ?_) h e
  split at e
  · grind
  · refine wf_barBoot h (wf_gatherThreads (fun g i l a s r h e => ?_) (fun g a s h => ?_) h) e
    · grind
    · split <;> simpa using h

theorem wf_execMovsReadTc {s : State} {com t dst} {s'}
    (h : Memory.wf s.mem) (e : execMovsReadTc com t dst s = .next s') : Memory.wf s'.mem :=
  wf_eachThreadNoBoot (fun g i l s r h e => by grind) h e

theorem wf_execMovsReadWp {s : State} {com ch dst} {s'}
    (h : Memory.wf s.mem) (e : execMovsReadWp com ch dst s = .next s') : Memory.wf s'.mem :=
  wf_eachThreadNoBoot (fun g i l s r h e => by grind) h e

theorem wf_execTzero {s : State} {com all td dst} {s'}
    (h : Memory.wf s.mem) (e : execTzero com all td dst s = .next s') : Memory.wf s'.mem :=
  wf_withRoom (wf_onceThreadNoBoot (fun g i l s h => by grind [Once.Wf, wf_queueMatrix]) h) h e

theorem wf_mmaIssue {s : State} (g : Grp) (i td ta tb : Nat) (src : AccSrc) (k : BitVec 10)
    (fmts : Ty → Ty → Ty → Bool) (kind : Nat → List (Nat × Word) → OpKind) (dst : Opnd) (h : Memory.wf s.mem) :
    (mmaIssue g i td ta tb src k fmts kind dst s).Wf := by
  unfold mmaIssue; dsimp only
  generalize [td, ta, tb] ++ _ = used
  split
  · trivial
  · split
    · trivial
    · split
      · trivial
      · split
        · trivial
        · exact wf_queueMatrix _ _ _ _ h

theorem wf_execMma {s : State} {com td ta tb c acc sigma k dst} {s'}
    (h : Memory.wf s.mem) (e : execMma com td ta tb c acc sigma k dst s = .next s') : Memory.wf s'.mem :=
  wf_withRoom (wf_onceThreadNoBoot (fun g i l s h => by grind [Once.Wf, wf_mmaIssue]) h) h e

theorem wf_execMmat {s : State} {com td ta tb c k dst} {s'}
    (h : Memory.wf s.mem) (e : execMmat com td ta tb c k dst s = .next s') : Memory.wf s'.mem :=
  wf_withRoom (wf_onceThreadNoBoot (fun g i l s h => by grind [Once.Wf, wf_mmaIssue]) h) h e

theorem wf_execMmap {s : State} {com td ta dst row} {s'}
    (h : Memory.wf s.mem) (e : execMmap com td ta dst row s = .next s') : Memory.wf s'.mem :=
  wf_withRoom (wf_onceThreadNoBoot (fun g i l s h => by grind [Once.Wf, wf_queueMatrix]) h) h e

theorem wf_execTld {s : State} {com td dst rec coord} {s'}
    (h : Memory.wf s.mem) (e : execTld com td dst rec coord s = .next s') : Memory.wf s'.mem :=
  wf_withRoom (wf_onceThreadNoBoot (fun g i l s h => by grind [Once.Wf, → wf_readRecord, wf_queueMatrix,
    State.modBc_mem]) h) h e

theorem wf_execTst {s : State} {com td rnd sat dst rec coord} {s'}
    (h : Memory.wf s.mem) (e : execTst com td rnd sat dst rec coord s = .next s') : Memory.wf s'.mem :=
  wf_withRoom (wf_onceThreadNoBoot (fun g i l s h => by grind [Once.Wf, → wf_readRecord, wf_queueMatrix]) h) h e

theorem wf_execTrow {s : State} {com form td data off imm} {s'}
    (h : Memory.wf s.mem) (e : execTrow com form td data off imm s = .next s') : Memory.wf s'.mem :=
  wf_withRoom (wf_inOrder (wf_eachThreadNoBoot (fun g i l s r h e => by grind [State.modBc_mem, foldl_mem, foldl_wf])
    h) h) h e

theorem wf_execTchk {s : State} {com clr dst} {s'} (h : Memory.wf s.mem) (e : execTchk com clr dst s = .next s') :
    Memory.wf s'.mem :=
  wf_withRoom (wf_inOrder (wf_onceThreadNoBoot (fun g i l s h => by grind [Once.Wf, State.modBc_mem]) h) h) h e

/-! ### The boot code -/

theorem wf_placeBoot {s : State} (h : Memory.wf s.mem) : Memory.wf s.placeBoot.mem := by
  unfold State.placeBoot; grind [wf_setCells]

/-! ### The end of threads and blocks -/

@[simp] theorem wakeSquads_mem (s : State) (k : Nat) : (s.wakeSquads k).mem = s.mem := by
  unfold State.wakeSquads; grind [makeReady_mem, foldl_mem]

@[simp] theorem wakeAllSquads_mem (s : State) : s.wakeAllSquads.mem = s.mem := by
  unfold State.wakeAllSquads; grind [wakeSquads_mem, foldl_mem]

@[simp] theorem dropEntries_mem (s : State) (k : Nat) : (s.dropEntries k).mem = s.mem := by
  unfold State.dropEntries; grind

theorem wf_dropStash {s : State} (k : Nat) (h : Memory.wf s.mem) : Memory.wf (s.dropStash k).mem := by
  unfold State.dropStash; grind [wf_flushPage, State.modBc_mem, foldl_mem, foldl_wf]

@[simp] theorem countEnd_mem (s : State) (p grid : Nat) : (s.countEnd p grid).mem = s.mem := by
  unfold State.countEnd; grind [State.modPart_mem, State.later_mem]

theorem wf_endBlock {s : State} (k : Nat) (h : Memory.wf s.mem) : Memory.wf (s.endBlock k).mem := by
  unfold State.endBlock; grind [dropEntries_mem, wf_dropStash, countEnd_mem]

theorem wf_endCheck {s : State} (k : Nat) (h : Memory.wf s.mem) : Memory.wf (s.endCheck k).mem := by
  unfold State.endCheck; grind [wf_endBlock]

theorem wf_endThreads {s : State} (k : Nat) (l : List Nat) (h : Memory.wf s.mem) :
    Memory.wf (s.endThreads k l).mem := by
  unfold State.endThreads; grind [State.modBlock_mem, wf_endCheck, wakeSquads_mem]

@[simp] theorem bootRepair_mem (s : State) (core : Nat) : (s.bootRepair core).mem = s.mem := by
  unfold State.bootRepair; grind [State.putCore_mem]

@[simp] theorem releaseCore_mem (s : State) (core : Nat) : (s.releaseCore core).mem = s.mem := by
  unfold State.releaseCore; grind [State.putBlock_mem, State.modCore_mem]

theorem wf_execCoreReleaseFromReset {s : State} {core} {s'}
    (h : Memory.wf s.mem) (e : execCoreReleaseFromReset core s = .next s') : Memory.wf s'.mem := by
  unfold execCoreReleaseFromReset at e; grind [releaseCore_mem, wf_placeBoot]

theorem wf_execExit {s : State} {com} {s'} (h : Memory.wf s.mem) (e : execExit com s = .next s') :
    Memory.wf s'.mem := by
  unfold execExit at e; grind [prepare_mem, closeChain_mem, → finish_mem, bootRepair_mem, wf_endThreads]

theorem wf_execHalt {s : State} {com} {s'} (h : Memory.wf s.mem) (e : execHalt com s = .next s') : Memory.wf s'.mem :=
  wf_onceThread (fun g i l s h => by grind [Once.Wf, State.putPart_mem]) h e

/-! ### Memory instructions -/

/-- What a memory instruction does keeps memory in its canonical form. -/
def Work.KeepsWf (w : Work) : Prop := ∀ g l s r, Memory.wf s.mem → w g l s = .ok r → Memory.wf r.mem

theorem wf_memIssue {ins : Instr} {u : Use} {w : Work} {s s' : State} (hw : w.KeepsWf) (h : Memory.wf s.mem)
    (e : memIssue ins u w s = .next s') : Memory.wf s'.mem := by
  unfold memIssue at e
  split at e
  · grind
  · dsimp only at e
    split at e
    · rw [finish_mem e]; simpa using h
    · exact wf_conclude h (fun _ => hw _ _ _ _ (by simpa using h)) e

theorem wf_memIssueNoBoot {ins : Instr} {u : Use} {w : Work} {s s' : State} (hw : w.KeepsWf) (h : Memory.wf s.mem)
    (e : memIssueNoBoot ins u w s = .next s') : Memory.wf s'.mem := by
  unfold memIssueNoBoot at e
  split at e
  · grind
  · exact wf_barBoot h (wf_memIssue hw h) e

theorem wf_ldWork (ins : Instr) (ty : Ty) (quad : Bool) (ord : MemOrd) (dst : Opnd) (m : MemOp) :
    (ldWork ins ty quad ord dst m).KeepsWf := fun g l s r h e =>
  wf_runThreads (fun i l s r h e => by
    grind [→ resolve_mem, → orderWait_mem, → wf_loadPlace, releases_mem]) h e

theorem wf_storeWork (ins : Instr) (ty : Ty) (quad : Bool) (ord : MemOrd) (m : MemOp) :
    (storeWork ins ty quad ord m).KeepsWf := fun g l s r h e => by
  obtain ⟨q, hq, rfl⟩ := map_eq_ok.1 e
  exact wf_writeCells _ (wf_runGather (fun i l a s r h e => by
    grind [→ resolve_mem, → orderWait_mem, → wf_storePlace, releases_mem]) h hq)

theorem wf_runElems {α : Type} {f : Nat → α → State → Except Stop (α × State)} {l : List Nat} {w : Option Exc} {a : α}
    {s : State} {r : α × State} (hf : ∀ j a s r, Memory.wf s.mem → f j a s = .ok r → Memory.wf r.2.mem)
    (h : Memory.wf s.mem) (e : runElems f l w a s = .ok r) : Memory.wf r.2.mem := by
  fun_induction runElems f l w a s <;> grind

theorem elemPlace_mem {s : State} {g i m a ea n} {r} (e : elemPlace g i m a ea n s = .ok r) : r.2.mem = s.mem := by
  unfold elemPlace at e; grind [→ resolve_mem]

theorem wf_ldgWork (ins : Instr) (ty : Ty) (cnt : BitVec 2) (dst : Opnd) (m : MemOp) :
    (ldgWork ins ty cnt dst m).KeepsWf := fun g l s r h e =>
  wf_runThreads (fun i l s r h e => by
    obtain ⟨q, hq, rfl⟩ := map_eq_ok.1 e
    exact wf_runElems (fun j a s r h e => by grind [→ elemPlace_mem, → wf_loadPlace, map_eq_ok]) h hq) h e

theorem wf_sctWork (ins : Instr) (ty : Ty) (cnt : BitVec 2) (m : MemOp) : (sctWork ins ty cnt m).KeepsWf :=
  fun g l s r h e => by
    obtain ⟨q, hq, rfl⟩ := map_eq_ok.1 e
    exact wf_writeCells _ (wf_runGather (fun i l a s r h e =>
      wf_runElems (fun j a s r h e => by grind [→ elemPlace_mem, → wf_storePlace, map_eq_ok]) h e) h hq)

theorem wf_atomHome {s : State} {a k spa va r x cmp} {q}
    (h : Memory.wf s.mem) (e : atomHome s a k spa va r x cmp = .ok q) : Memory.wf q.2.mem := by
  unfold atomHome at e; grind [wf_snoop, sendBlockRecord_mem, markPoison_mem, raceAcquire_mem, releases_mem,
    wf_writeGranule]

theorem atomEnd_mem {s : State} {k spa va r cmp q} {p} (e : atomEnd s k spa va r cmp q = .ok p) :
    p.2.mem = s.mem := by
  unfold atomEnd at e; grind [raceAcquire_mem, releases_mem]

theorem wf_atomRemote {s : State} {a i spa mt va r x cmp} {q}
    (h : Memory.wf s.mem) (e : atomRemote s a i spa mt va r x cmp = .ok q) : Memory.wf q.2.mem := by
  unfold atomRemote at e; grind [raceAcquire_mem, releases_mem, wf_dropProxy, wf_snoop, post_mem]

theorem wf_dropCopies {s : State} (spa : Nat) (h : Memory.wf s.mem) : Memory.wf (s.dropCopies spa).mem := by
  unfold State.dropCopies; grind [wf_dropProxy, wf_snoop]

theorem wf_atomPhys {s : State} {a k i spa mt va r x cmp} {q}
    (h : Memory.wf s.mem) (e : atomPhys s a k i spa mt va r x cmp = .ok q) : Memory.wf q.2.mem := by
  unfold atomPhys at e; grind [→ wf_atomRemote, → wf_atomHome, wf_setCells]

theorem wf_atomPlace {s : State} {g i p ea r x cmp} {q}
    (h : Memory.wf s.mem) (e : atomPlace g i p ea r x cmp s = .ok q) : Memory.wf q.2.mem := by
  unfold atomPlace at e; grind [→ wf_atomPhys, → wf_scratchAt, State.modBc_mem, putLine_mem]

theorem wf_atomWork (ins : Instr) (q : AtomReq) (window : Bool) (dst : List Src) (m : MemOp) (x cmp : List DWord →
    Nat) :
    (atomWork ins q window dst m x cmp).KeepsWf := fun g l s r h e =>
  wf_runThreads (fun i l s r h e => by
    grind [→ resolve_mem, → orderWait_mem, → wf_atomPlace, → atomEnd_mem, wf_dropCopies, map_eq_ok]) h e

theorem wf_atomUseWork (com : Com) (op : AtomOp) (ty : Ty) (ord : MemOrd) (dst c : Opnd) (m : MemOp) :
    (atomUseWork com op ty ord dst c m).2.KeepsWf := by
  simp only [atomUseWork]; split
  · apply wf_atomWork
  · split <;> apply wf_atomWork

theorem wf_pendWork {i : Instr} {w : Work} (e : pendWork i = some w) : w.KeepsWf := by
  cases i <;> simp only [pendWork, Option.some.injEq, reduceCtorEq] at e <;> subst e
  · apply wf_ldWork
  · apply wf_storeWork
  · apply wf_ldgWork
  · apply wf_sctWork
  · apply wf_atomUseWork
  · apply wf_atomWork
  · apply wf_atomWork

theorem wf_execPendingCheck {s : State} {core entry} {s' : State} (h : Memory.wf s.mem)
    (e : execPendingCheck core entry s = .next s') : Memory.wf s'.mem := by
  unfold execPendingCheck at e
  split at e
  · grind
  · split at e
    · grind
    · split at e
      · grind
      · exact wf_conclude h (fun _ => wf_pendWork ‹_› _ _ _ _ (by simpa using h)) e

theorem wf_execFence {s : State} {com k sc} {s'} (h : Memory.wf s.mem) (e : execFence com k sc s = .next s') :
    Memory.wf s'.mem :=
  wf_eachThread (fun g i l s r h e => by grind [releases_mem, → orderWait_mem, map_eq_ok]) h e

@[simp] theorem dropFetch_mem (s : State) (part : Option Nat) (core line : Nat) :
    (s.dropFetch part core line).mem = s.mem := by
  unfold State.dropFetch; grind [State.modCore_mem]

theorem wf_execCctlIi {s : State} {com m} {s'} (h : Memory.wf s.mem) (e : execCctlIi com m s = .next s') :
    Memory.wf s'.mem :=
  wf_eachThread (fun g i l s r h e => by grind [dropFetch_mem, releases_mem, → releaseWait_mem, map_eq_ok]) h e

theorem wf_execCctlEv {s : State} {com m} {s'} (h : Memory.wf s.mem) (e : execCctlEv com m s = .next s') :
    Memory.wf s'.mem :=
  wf_eachThread (fun g i l s r h e => by grind) h e

theorem wf_fillLine {s : State} (a : Actor) (k j off : Nat) (pr : Priv) (st : Bool) (h : Memory.wf s.mem) :
    Memory.wf (s.fillLine a k j off pr st).mem := by
  unfold State.fillLine; grind [→ wf_scratchAt, request_mem]

theorem wf_execPref {s : State} {com t m} {s'} (h : Memory.wf s.mem) (e : execPref com t m s = .next s') :
    Memory.wf s'.mem :=
  wf_eachThread (fun g i l s r h e => by grind [wf_fillLine]) h e

@[simp] theorem leaveLine_mem (s : State) (k j : Nat) (p : StashPage) (n : Nat) :
    (s.leaveLine k j p n).mem = s.mem := by
  unfold State.leaveLine; grind [drawBytes_mem, State.modBc_mem]

theorem wf_unbind {s : State} (k j : Nat) (f : StashPage → Bool) (h : Memory.wf s.mem) :
    Memory.wf (s.unbind k j f).mem := by
  unfold State.unbind; grind [wf_flushPage, State.modBc_mem, leaveLine_mem, foldl_mem, foldl_wf]

theorem wf_bindPages {s : State} (k j off home : Nat) (ls : List Nat) (h : Memory.wf s.mem) :
    Memory.wf (s.bindPages k j off home ls).mem := by
  fun_induction State.bindPages <;> grind [wf_unbind, State.modBc_mem]

theorem wf_execStashMap {s : State} {com off cnt m} {s'}
    (h : Memory.wf s.mem) (e : execStashMap com off cnt m s = .next s') : Memory.wf s'.mem :=
  wf_onceThreadNoBoot (fun g i l s h => by grind [Once.Wf, wf_bindPages]) h e

theorem wf_execStashMapUn {s : State} {com off cnt} {s'}
    (h : Memory.wf s.mem) (e : execStashMapUn com off cnt s = .next s') : Memory.wf s'.mem :=
  wf_onceThreadNoBoot (fun g i l s h => by grind [Once.Wf, wf_unbind]) h e

theorem wf_syncStash {s : State} (k j : Nat) (inv : Bool) (h : Memory.wf s.mem) :
    Memory.wf (s.syncStash k j inv).mem := by
  unfold State.syncStash; grind [wf_flushPage, State.modBc_mem, foldl_mem, foldl_wf]

theorem wf_execStashSync {s : State} {com inv} {s'} (h : Memory.wf s.mem) (e : execStashSync com inv s = .next s') :
    Memory.wf s'.mem :=
  wf_onceThreadNoBoot (fun g i l s h => by grind [Once.Wf, wf_syncStash]) h e

theorem wf_execStashFill {s : State} {core tag line store} {s'}
    (h : Memory.wf s.mem) (e : execStashFill core tag line store s = .next s') : Memory.wf s'.mem := by
  unfold execStashFill at e; grind [wf_fillLine]

theorem wf_dropWindow {s : State} (p lo n : Nat) (h : Memory.wf s.mem) : Memory.wf (s.dropWindow p lo n).mem := by
  unfold State.dropWindow; grind [wf_writeLine, foldl_mem, foldl_wf]

theorem wf_execRacew {s : State} {com w off len m} {s'}
    (h : Memory.wf s.mem) (e : execRacew com w off len m s = .next s') : Memory.wf s'.mem :=
  wf_onceThreadNoBoot (fun g i l s h => by grind [Once.Wf, State.modPart_mem, wf_dropWindow]) h e

/-! ### Tables -/

@[simp] theorem dropShadow_mem (s : State) (k j slot : Nat) : (s.dropShadow k j slot).mem = s.mem := by
  unfold State.dropShadow; grind [sendBlockRecord_mem, State.modBc_mem]

theorem wf_execTblLoad {s : State} {com wide slot dst m} {s'}
    (h : Memory.wf s.mem) (e : execTblLoad com wide slot dst m s = .next s') : Memory.wf s'.mem :=
  wf_onceThreadNoBoot (fun g i l s h => by grind [Once.Wf, dropShadow_mem, startOp_mem, State.modBc_mem]) h e

theorem wf_readImage {s : State} {k j op sp addr} {r} (h : Memory.wf s.mem) (e : readImage s k j op sp addr = .ok r) :
    Memory.wf r.2.mem := by
  unfold readImage at e; grind [→ wf_engWords, map_eq_ok]

theorem wf_loadDone {s : State} (k j slot num : Nat) (sh : Shadow) (h : Memory.wf s.mem) :
    Memory.wf (s.loadDone k j slot num sh).mem := by
  unfold State.loadDone; grind [State.modBc_mem, wf_endCheck, completeNum_mem]

theorem wf_execTblLoadComplete {s : State} {core tag} {s'}
    (h : Memory.wf s.mem) (e : execTblLoadComplete core tag s = .next s') : Memory.wf s'.mem := by
  unfold execTblLoadComplete at e
  repeat' split at e
  all_goals grind [wf_loadDone, → wf_readImage, wf_endCheck, wf_cancelOp, State.modBc_mem, markRead_mem,
    sendBlockRecord_mem, → stopOp_mem]

theorem wf_execTblCommit {s : State} {com slot dst} {s'}
    (h : Memory.wf s.mem) (e : execTblCommit com slot dst s = .next s') : Memory.wf s'.mem :=
  wf_onceThreadNoBoot (fun g i l s h => by grind [Once.Wf, State.modBc_mem]) h e

theorem wf_execTblEval {s : State} {com ty rnd slot dst a} {s'}
    (h : Memory.wf s.mem) (e : execTblEval com ty rnd slot dst a s = .next s') : Memory.wf s'.mem :=
  wf_eachThreadNoBoot (fun g i l s r h e => by grind) h e

theorem wf_execTblQuery {s : State} {com ver slot dst} {s'}
    (h : Memory.wf s.mem) (e : execTblQuery com ver slot dst s = .next s') : Memory.wf s'.mem :=
  wf_onceThreadNoBoot (fun g i l s h => by grind [Once.Wf]) h e

theorem wf_execTblDrop {s : State} {com sh slot} {s'}
    (h : Memory.wf s.mem) (e : execTblDrop com sh slot s = .next s') : Memory.wf s'.mem :=
  wf_onceThreadNoBoot (fun g i l s h => by grind [Once.Wf, State.modBc_mem, dropShadow_mem]) h e

/-! ### Copies, barriers and timelines -/

theorem wf_spaceRead {s : State} {k j op sp a n} {r} (h : Memory.wf s.mem) (e : spaceRead s k j op sp a n = .ok r) :
    Memory.wf r.2.mem := by
  unfold spaceRead at e; grind [→ wf_engRead, map_eq_ok]

theorem wf_spaceWrite {s : State} {k j op sp a v n} {r}
    (h : Memory.wf s.mem) (e : spaceWrite s k j op sp a v n = .ok r) : Memory.wf r.2.mem := by
  unfold spaceWrite at e; grind [→ wf_engWrite, map_eq_ok]

theorem wf_tensorUnit {s : State} {k j op x st clus coord off u} {r}
    (h : Memory.wf s.mem) (e : tensorUnit s k j op x st clus coord off u = .ok r) : Memory.wf r.2.mem := by
  unfold tensorUnit at e; grind [→ wf_spaceRead, → wf_spaceWrite]

theorem wf_gatherUnit {s : State} {k j op dsp ssp base idx dst rowb u} {r}
    (h : Memory.wf s.mem) (e : gatherUnit s k j op dsp ssp base idx dst rowb u = .ok r) : Memory.wf r.2.mem := by
  unfold gatherUnit at e; grind [→ wf_spaceRead, → wf_spaceWrite]

theorem wf_copyUnit {s : State} {k j op u} {r} (h : Memory.wf s.mem) (e : copyUnit k j op u s = .ok r) :
    Memory.wf r.2.mem := by
  unfold copyUnit at e; grind [→ wf_spaceRead, → wf_spaceWrite, → wf_tensorUnit, → wf_gatherUnit]

theorem wf_runUnits {s : State} (k j : Nat) (op : EngineOp) (n n1 : Nat) (ls : List WCell) (h : Memory.wf s.mem) :
    Memory.wf (runUnits k j op n n1 ls s).1.mem := by
  fun_induction runUnits <;> grind [→ wf_copyUnit, taken_mem]

@[simp] theorem ahead32_mem (s : State) (k j : Nat) (op : EngineOp) (u : Nat) : (s.ahead32 k j op u).mem = s.mem := by
  unfold State.ahead32; grind [lookAhead_mem]

@[simp] theorem forget_mem (s : State) (k j : Nat) (op : EngineOp) : (s.forget k j op).mem = s.mem := by
  unfold State.forget; grind [State.modCore_mem]

theorem wf_cancelHead {s : State} (k j : Nat) (op : EngineOp) (e : Exc) (h : Memory.wf s.mem) :
    Memory.wf (s.cancelHead k j op e).mem := by
  unfold State.cancelHead; grind [wf_endCheck, completeNum_mem, State.modBc_mem, markRead_mem, wf_cancelOp,
    forget_mem, taken_mem, State.modCore_mem, wf_endThreads]

@[simp] theorem putOp_mem (s : State) (k j : Nat) (op : EngineOp) : (s.putOp k j op).mem = s.mem := by
  unfold State.putOp; grind [State.modBc_mem]

theorem wf_copyBytes {s : State} (k j : Nat) (op : EngineOp) (n : Nat) (h : Memory.wf s.mem) :
    Memory.wf (s.copyBytes k j op n).1.mem := by
  unfold State.copyBytes; grind [wf_runUnits, ahead32_mem, putOp_mem, wf_writeCells]

theorem wf_barReach {s : State} {k j op} {r} (h : Memory.wf s.mem) (e : s.barReach k j op = .ok r) :
    Memory.wf r.mem := by
  unfold State.barReach at e; grind [→ wf_scratchAt, map_eq_ok]

theorem wf_countOwed {s : State} {k j op} {r} (h : Memory.wf s.mem) (e : s.countOwed k j op = .ok r) :
    Memory.wf r.1.mem := by
  unfold State.countOwed at e; grind [wf_countBytes, putOp_mem, → wf_barReach, map_eq_ok]

theorem wf_copyNext {s : State} {k j op n} {done : State → State} {s' : State}
    (hd : ∀ s, Memory.wf s.mem → Memory.wf (done s).mem) (h : Memory.wf s.mem)
    (e : s.copyNext k j op n done = .next s') : Memory.wf s'.mem := by
  unfold State.copyNext at e
  grind [wf_copyBytes, → wf_countOwed, → stopOp_mem, wf_cancelHead]

theorem wf_execCopyWriteGroup {s : State} {core tag ch} {s'}
    (h : Memory.wf s.mem) (e : execCopyWriteGroup core tag ch s = .next s') : Memory.wf s'.mem := by
  unfold execCopyWriteGroup at e; grind [→ wf_copyNext, State.later_mem]

theorem wf_execEngineOpComplete {s : State} {core tag tl} {s'}
    (h : Memory.wf s.mem) (e : execEngineOpComplete core tag tl s = .next s') : Memory.wf s'.mem := by
  unfold execEngineOpComplete at e; grind [wf_endCheck, completeNum_mem, forget_mem, State.modBc_mem]

theorem wf_fillLines {s : State} (k j : Nat) (op : EngineOp) (off n n1 : Nat) (h : Memory.wf s.mem) :
    Memory.wf (fillLines s k j op off n n1).1.mem := by
  fun_induction fillLines <;> grind [→ wf_scratchAt]

theorem wf_execEngineOpPark {s : State} {core tag tl} {s'}
    (h : Memory.wf s.mem) (e : execEngineOpPark core tag tl s = .next s') : Memory.wf s'.mem := by
  unfold execEngineOpPark at e; grind [parkOp_mem]

theorem wf_execEngineOpCancel {s : State} {core tag tl} {s'}
    (h : Memory.wf s.mem) (e : execEngineOpCancel core tag tl s = .next s') : Memory.wf s'.mem := by
  unfold execEngineOpCancel at e; grind [wf_cancelHead]

@[simp] theorem regionDone_mem (s : State) (k j : Nat) (e : RegionEntry) : (s.regionDone k j e).mem = s.mem := by
  unfold State.regionDone; grind [State.modBc_mem]

theorem wf_runRegion {s : State} {k j e op} {s'} (h : Memory.wf s.mem) (e : s.runRegion k j e op = .next s') :
    Memory.wf s'.mem := by
  unfold State.runRegion at e; grind [→ wf_copyNext, regionDone_mem, wf_fillLines, taken_mem, → stopOp_mem,
    State.modBc_mem]

theorem wf_execRegionEntryRun {s : State} {core tag} {s'}
    (h : Memory.wf s.mem) (e : execRegionEntryRun core tag s = .next s') : Memory.wf s'.mem := by
  unfold execRegionEntryRun at e; grind [→ wf_runRegion, State.modBc_mem, wf_bindPages]

theorem wf_startEntry {s : State} (k j pc : Nat) (e : SchedEntry) (h : Memory.wf s.mem) :
    Memory.wf (s.startEntry k j pc e).mem := by
  unfold State.startEntry; grind [startOp_mem, wf_cancelHead]

theorem wf_startSched {s : State} (k j pc : Nat) (h : Memory.wf s.mem) : Memory.wf (s.startSched k j pc).mem := by
  unfold State.startSched; grind [State.modBc_mem, wf_startEntry, foldl_mem, foldl_wf]

theorem wf_startBlock {s : State} (k : Nat) (h : Memory.wf s.mem) : Memory.wf (s.startBlock k).mem := by
  unfold State.startBlock; grind [State.modBlock_mem, wf_startSched, foldl_mem, foldl_wf]

theorem issueRelease_mem {s : State} {g i com} {r} (e : s.issueRelease g i com = .ok r) : r.mem = s.mem := by
  unfold State.issueRelease at e; grind [releases_mem, → releaseWait_mem, map_eq_ok]

theorem wf_startCopy {s : State} (g : Grp) (i ch : Nat) (com : Com) (rel : Bool) (kind : OpKind) (bidx : Option Nat)
    (dst : Opnd) (h :
    Memory.wf s.mem) : (startCopy g i ch com rel kind bidx dst s).Wf := by
  unfold startCopy; grind [Once.Wf, → issueRelease_mem, startOp_mem]

theorem wf_execCopy {s : State} {com dsp ssp rel ch bidx bytes dst a b} {s'}
    (h : Memory.wf s.mem) (e : execCopy com dsp ssp rel ch bidx bytes dst a b s = .next s') : Memory.wf s'.mem :=
  wf_onceThreadNoBoot (fun g i l s h => by grind [Once.Wf, wf_startCopy]) h e

theorem wf_execCopyt {s : State} {com st clus rel ch bidx imm dst a b} {s'}
    (h : Memory.wf s.mem) (e : execCopyt com st clus rel ch bidx imm dst a b s = .next s') : Memory.wf s'.mem :=
  wf_onceThreadNoBoot (fun g i l s h => by grind [Once.Wf, → wf_readRecord, wf_startCopy]) h e

theorem wf_execCopyg {s : State} {com dsp ssp rel ch bidx rowb nrow dst a b} {s'}
    (h : Memory.wf s.mem) (e : execCopyg com dsp ssp rel ch bidx rowb nrow dst a b s = .next s') : Memory.wf s'.mem :=
  wf_onceThreadNoBoot (fun g i l s h => by grind [Once.Wf, wf_startCopy]) h e

theorem wf_execStage {s : State} {com a imm} {s'} (h : Memory.wf s.mem) (e : execStage com a imm s = .next s') :
    Memory.wf s'.mem :=
  wf_onceThreadNoBoot (fun g i l s h => by grind [Once.Wf, → issueRelease_mem, wf_startSched, State.modBc_mem]) h e

theorem wf_barPlace {s : State} {g i m l} {r} (h : Memory.wf s.mem) (e : barPlace g i m l s = .ok r) :
    Memory.wf r.2.2.mem := by
  unfold barPlace at e; grind [→ resolve_mem, → wf_scratchAt, map_eq_ok]

theorem wf_barObject {s : State} {g i m l} {r} (h : Memory.wf s.mem) (e : barObject g i m l s = .ok r) :
    Memory.wf r.2.2.2.mem := by
  unfold barObject at e; grind [→ wf_barPlace]

@[simp] theorem unregister_mem (s : State) (k j off : Nat) : (s.unregister k j off).mem = s.mem := by
  unfold State.unregister; grind [State.modBc_mem]

theorem wf_execBarInit {s : State} {com leaf root src m} {s'}
    (h : Memory.wf s.mem) (e : execBarInit com leaf root src m s = .next s') : Memory.wf s'.mem :=
  wf_onceThreadNoBoot (fun g i l s h => by grind [Once.Wf, → wf_barPlace, unregister_mem, State.modBc_mem,
    wakeBar_mem, wf_barPut]) h e

theorem wf_arriveAt {s : State} (k j off : Nat) (b : Bar) (h : Memory.wf s.mem) :
    Memory.wf (s.arriveAt k j off b).1.mem := by
  unfold State.arriveAt; grind [wf_poisonBar, wf_settle, wf_barPut]

theorem wf_arriveThreads {s : State} {g instr dst m y ls} {r}
    (h : Memory.wf s.mem) (e : arriveThreads g instr dst m y ls s = .ok r) : Memory.wf r.mem := by
  fun_induction arriveThreads generalizing r <;> grind [→ wf_barObject, faultThread_mem, wf_arriveAt, writeDst_mem]

theorem wf_execBarArrive {s : State} {com u dst m} {s' : State} (h : Memory.wf s.mem)
    (e : execBarArrive com u dst m s = .next s') : Memory.wf s'.mem := by
  unfold execBarArrive at e; dsimp only at e
  split at e
  · exact wf_onceThreadNoBoot (fun g i l s h => by grind [Once.Wf, → wf_barObject, wf_arriveAt]) h e
  · split at e
    · grind
    · exact wf_barBoot h (wf_conclude h fun _ => wf_arriveThreads (by simpa using h)) e

theorem wf_execBarExpect {s : State} {com arr dst cnt m} {s'}
    (h : Memory.wf s.mem) (e : execBarExpect com arr dst cnt m s = .next s') : Memory.wf s'.mem :=
  wf_onceThreadNoBoot (fun g i l s h => by grind [Once.Wf, → wf_barObject, wf_poisonBar, wf_barPut, wf_settle]) h e

@[simp] theorem holdOne_mem (s : State) (g : Grp) (i : Nat) (hdr : Hold) : (holdOne g i hdr s).mem = s.mem := by
  unfold holdOne; grind [State.modThread_mem]

theorem wf_execBarWait {s : State} {com src m} {s'} (h : Memory.wf s.mem) (e : execBarWait com src m s = .next s') :
    Memory.wf s'.mem :=
  wf_eachThreadNoBoot (fun g i l s r h e => by grind [→ wf_barObject, holdOne_mem]) h e

theorem wf_execBarTest {s : State} {com dst m} {s'} (h : Memory.wf s.mem) (e : execBarTest com dst m s = .next s') :
    Memory.wf s'.mem :=
  wf_eachThreadNoBoot (fun g i l s r h e => by grind [→ wf_barObject]) h e

theorem awaitTl_mem {s : State} {g i i0 l w} {r} (e : awaitTl g i i0 l w s = .ok r) : r.1.mem = s.mem := by
  unfold awaitTl at e; grind [holdOne_mem]

theorem wf_execTlwait {s : State} {com tl a imm} {s'}
    (h : Memory.wf s.mem) (e : execTlwait com tl a imm s = .next s') : Memory.wf s'.mem :=
  wf_eachThreadNoBoot (fun g i l s r h e => by grind [→ awaitTl_mem]) h e

theorem wf_execTlread {s : State} {com form tl dst} {s'}
    (h : Memory.wf s.mem) (e : execTlread com form tl dst s = .next s') : Memory.wf s'.mem :=
  wf_onceThreadNoBoot (fun g i l s h => by grind [Once.Wf, State.modBc_mem]) h e

theorem wf_execTlsig {s : State} {com inc tl a imm} {s'}
    (h : Memory.wf s.mem) (e : execTlsig com inc tl a imm s = .next s') : Memory.wf s'.mem :=
  wf_onceThreadNoBoot (fun g i l s h => by grind [Once.Wf, wakeTl_mem, State.modBlock_mem]) h e

theorem wf_execWaitm {s : State} {com mask} {s'} (h : Memory.wf s.mem) (e : execWaitm com mask s = .next s') :
    Memory.wf s'.mem :=
  wf_eachThreadNoBoot (fun g i l s r h e => by grind [→ awaitTl_mem]) h e

/-! ### Launches and graphs -/

theorem wf_readGlobal {s : State} {g i va n} {r} (h : Memory.wf s.mem) (e : readGlobal s g i va n = .ok r) :
    Memory.wf r.2.mem := by
  unfold readGlobal at e; grind [→ translate_mem, → wf_loadPlace]

theorem wf_readPieces {s : State} {g i va n} {r} (h : Memory.wf s.mem) (e : readPieces s g i va n = .ok r) :
    Memory.wf r.2.mem := by
  fun_induction readPieces generalizing r <;> grind [→ wf_readGlobal, map_eq_ok]

theorem wf_readEntries {s : State} {g i va n} {r} (h : Memory.wf s.mem) (e : readEntries s g i va n = .ok r) :
    Memory.wf r.2.mem := by
  fun_induction readEntries generalizing r <;> grind [→ wf_readGlobal, map_eq_ok]

theorem wf_readLaunch {s : State} {g i va} {r} (h : Memory.wf s.mem) (e : readLaunch s g i va = .ok r) :
    Memory.wf r.2.mem := by
  unfold readLaunch at e
  repeat' split at e
  all_goals grind [→ wf_readPieces, → wf_readEntries]

theorem wf_readChain {s : State} {g i n n1 ls} {r} (h : Memory.wf s.mem) (e : readChain s g i n n1 ls = .ok r) :
    Memory.wf r.2.mem := by
  fun_induction readChain generalizing r <;> grind [→ wf_readPieces]

@[simp] theorem holdNodes_mem (s : State) (p : Nat) (l : List (Nat × Node)) : (s.holdNodes p l).mem = s.mem := by
  unfold State.holdNodes; grind [State.modPart_mem, foldl_mem]

@[simp] theorem enqueue_mem (s : State) (p : Nat) (e : GraphEntry) (replay : Option (Nat × Nat × Nat)) :
    (s.enqueue p e replay).mem = s.mem := by
  unfold State.enqueue; grind [State.putPart_mem]

@[simp] theorem readDeps_mem (s : State) (p : Nat) : (s.readDeps p).mem = s.mem := by
  unfold State.readDeps; grind [State.later_mem]

theorem wf_execLaunch {s : State} {com dst a b} {s'} (h : Memory.wf s.mem) (e : execLaunch com dst a b s = .next s') :
    Memory.wf s'.mem :=
  wf_onceThreadNoBoot (fun g i l s h => by 
    dsimp only
    repeat' split
    all_goals grind [Once.Wf, → issueRelease_mem, → wf_readLaunch, → wf_readChain, holdNodes_mem, readDeps_mem,
      enqueue_mem, bind_eq_ok]) h e

theorem wf_readGraph {s : State} {g i deflt total ls} {r}
    (h : Memory.wf s.mem) (e : readGraph g i deflt total ls s = .ok r) : Memory.wf r.2.mem := by
  fun_induction readGraph generalizing r <;> grind [→ wf_readLaunch, → wf_readChain, holdNodes_mem]

theorem wf_readRun {s : State} {g i recp nrec node} {r}
    (h : Memory.wf s.mem) (e : readRun s g i recp nrec node = .ok r) : Memory.wf r.2.mem := by
  unfold readRun at e; grind [→ wf_readEntries, → wf_readChain, → wf_readGraph, holdNodes_mem]

theorem wf_writeGlobal {s : State} {g i va v n} {r} (h : Memory.wf s.mem) (e : writeGlobal s g i va v n = .ok r) :
    Memory.wf r.mem := by
  unfold writeGlobal at e; grind [→ translate_mem, wf_writeCells, → wf_storePlace, map_eq_ok]

@[simp] theorem dispRecord_mem (s : State) (p recAddr va : Nat) (e : Exc) :
    (s.dispRecord p recAddr va e).mem = s.mem := by
  unfold State.dispRecord; grind [sendRecord_mem, taken_mem]

theorem wf_dispRead {s : State} {p recAddr va n} {r} (h : Memory.wf s.mem) (e : s.dispRead p recAddr va n = .ok r) :
    Memory.wf r.2.mem := by
  unfold State.dispRead at e; grind [→ wf_unitRead]

theorem wf_dispWrite {s : State} {p recAddr va v n rel} {r}
    (h : Memory.wf s.mem) (e : s.dispWrite p recAddr va v n rel = .ok r) : Memory.wf r.mem := by
  unfold State.dispWrite at e; grind [→ wf_unitWrite]

theorem wf_writeCounter {s : State} {p va v rel} {r} (h : Memory.wf s.mem) (e : s.writeCounter p va v rel = .ok r) :
    Memory.wf r.mem := by
  unfold State.writeCounter at e; grind [→ wf_dispWrite, dispRecord_mem]

theorem wf_execGraphRun {s : State} {com dst a b} {s'}
    (h : Memory.wf s.mem) (e : execGraphRun com dst a b s = .next s') : Memory.wf s'.mem :=
  wf_onceThreadNoBoot (fun g i l s h => by 
    dsimp only
    repeat' split
    all_goals grind [Once.Wf, readDeps_mem, → issueRelease_mem, → wf_readPieces, → wf_readRun, State.putPart_mem, →
      wf_writeCounter, State.later_mem, bind_eq_ok]) h e

theorem wf_patchBytes {s : State} {g i src dst n} {r} (h : Memory.wf s.mem) (e : patchBytes g i src dst n s = .ok r) :
    Memory.wf r.mem := by
  fun_induction patchBytes generalizing r <;> grind [→ wf_readGlobal, → wf_writeGlobal]

theorem wf_execGraphPatch {s : State} {com a b c} {s'}
    (h : Memory.wf s.mem) (e : execGraphPatch com a b c s = .next s') : Memory.wf s'.mem :=
  wf_onceThreadNoBoot (fun g i l s h => by 
    dsimp only
    repeat' split
    all_goals grind [Once.Wf, → issueRelease_mem, → wf_readPieces, → wf_patchBytes, State.modPart_mem, bind_eq_ok]) h
      e

/-! ### Entries and issue -/

theorem wf_execEntryFill {s : State} {core} {s'} (h : Memory.wf s.mem) (e : execEntryFill core s = .next s') :
    Memory.wf s'.mem := by
  unfold execEntryFill at e; grind [State.modCore_mem]

@[simp] theorem unblock_mem (s : State) : s.unblock.mem = s.mem := by
  unfold State.unblock; grind [wakeAllSquads_mem]

@[simp] theorem merge_mem (s : State) (core e : Nat) (en : Entry) : (merge s core e en).mem = s.mem := by
  unfold merge; grind [State.modCore_mem]

theorem wf_execIssueSelect {s : State} {core} {s'} (h : Memory.wf s.mem) (e : execIssueSelect core s = .next s') :
    Memory.wf s'.mem := by
  unfold execIssueSelect at e; grind [merge_mem, State.later_mem]

theorem wf_execEntryPromote {s : State} {core} {s'} (h : Memory.wf s.mem) (e : execEntryPromote core s = .next s') :
    Memory.wf s'.mem := by
  unfold execEntryPromote at e; grind [State.modEntry_mem]

theorem wf_execDemotionMark {s : State} {core} {s'} (h : Memory.wf s.mem) (e : execDemotionMark core s = .next s') :
    Memory.wf s'.mem := by
  unfold execDemotionMark at e; grind [State.modEntry_mem, demote_mem]

theorem wf_execEntrySwap {s : State} {core entry} {s'}
    (h : Memory.wf s.mem) (e : execEntrySwap core entry s = .next s') : Memory.wf s'.mem := by
  unfold execEntrySwap at e; grind [makePending_mem]

@[simp] theorem evict_mem (s : State) (core entry : Nat) (en : Entry) : (s.evict core entry en).mem = s.mem := by
  unfold State.evict; grind [State.modBlock_mem, State.modCore_mem]

theorem wf_execEntryEvict {s : State} {core entry} {s'}
    (h : Memory.wf s.mem) (e : execEntryEvict core entry s = .next s') : Memory.wf s'.mem := by
  unfold execEntryEvict at e; grind [evict_mem]

@[simp] theorem boundary_mem (s : State) (core e : Nat) : (s.boundary core e).mem = s.mem := by
  unfold State.boundary; grind [wakeAllSquads_mem, State.modEntry_mem, demote_mem, evict_mem, State.later_mem]

/-! ### Dispatchers -/

@[simp] theorem refreshCands_mem (s : State) (p : Nat) : (s.refreshCands p).mem = s.mem := by
  unfold State.refreshCands; grind [State.modPart_mem]

@[simp] theorem claim_mem (s : State) (p : Nat) (cores : List Nat) : (s.claim p cores).mem = s.mem := by
  unfold State.claim; grind [State.modCore_mem, foldl_mem]

@[simp] theorem admitNew_mem (s : State) (p id : Nat) (g : Grid) (place : Placement) :
    (s.admitNew p id g place).mem = s.mem := by
  unfold State.admitNew; grind [claim_mem, State.putBlock_mem, State.modPart_mem]

theorem admitAll_mem {s : State} {p id n} {r} (e : s.admitAll p id n = some r) : r.mem = s.mem := by
  fun_induction State.admitAll generalizing r <;> grind [admitNew_mem]

theorem wf_execBlockAdmit {s : State} {part launch place} {s'}
    (h : Memory.wf s.mem) (e : execBlockAdmit part launch place s = .next s') : Memory.wf s'.mem := by
  unfold execBlockAdmit at e; grind [refreshCands_mem, admitNew_mem, → admitAll_mem]

theorem wf_execCandidateProtect {s : State} {part launch} {s'}
    (h : Memory.wf s.mem) (e : execCandidateProtect part launch s = .next s') : Memory.wf s'.mem := by
  unfold execCandidateProtect at e
  dsimp only at e
  repeat' split at e
  all_goals
    cases e
    simpa using h

theorem wf_depsNow {s : State} {p recAddr ls} {r} (h : Memory.wf s.mem) (e : s.depsNow p recAddr ls = .ok r) :
    Memory.wf r.1.mem := by
  fun_induction State.depsNow generalizing r <;> grind [→ wf_dispRead, map_eq_ok]

@[simp] theorem depRecord_mem (s : State) (p : Nat) (g : Grid) (f : Nat × Exc) : (s.depRecord p g f).mem = s.mem := by
  unfold State.depRecord; grind [markRead_mem, dispRecord_mem]

theorem dispStop_mem {s : State} {x} {s'} (e : s.dispStop x = .next s') : s'.mem = s.mem := by
  unfold State.dispStop at e; grind [request_mem]

theorem wf_execDependenceRead {s : State} {part launch} {s'}
    (h : Memory.wf s.mem) (e : execDependenceRead part launch s = .next s') : Memory.wf s'.mem := by
  unfold execDependenceRead at e; grind [refreshCands_mem, → wf_depsNow, → dispStop_mem, depRecord_mem,
    State.modPart_mem, foldl_mem, foldl_wf]

@[simp] theorem pokeGraphs_mem (s : State) (p : Nat) : (s.pokeGraphs p).mem = s.mem := by
  unfold State.pokeGraphs; grind [State.later_mem]

theorem wf_writeDone {s : State} {p r recAddr} {q} (h : Memory.wf s.mem)
    (e : s.writeDone p r recAddr = .ok q) : Memory.wf q.mem := by
  unfold State.writeDone at e; grind [→ wf_atomPhys, dispRecord_mem, markPoison_mem, map_eq_ok]

theorem wf_execGridComplete {s : State} {part grid} {s'}
    (h : Memory.wf s.mem) (e : execGridComplete part grid s = .next s') : Memory.wf s'.mem := by
  unfold execGridComplete at e; grind [→ wf_writeDone, → dispStop_mem, State.modPart_mem, State.later_mem,
    readDeps_mem, pokeGraphs_mem, refreshCands_mem]

theorem wf_copyParams {s : State} {p src dst n} {r} (h : Memory.wf s.mem) (e : s.copyParams p src dst n = .ok r) :
    Memory.wf r.mem := by
  fun_induction State.copyParams generalizing r <;> grind [→ wf_dispRead, dispRecord_mem, → wf_dispWrite]

@[simp] theorem queueEntries_mem (s : State) (p idx : Nat) (x : Partition) (r : Replay) :
    (s.queueEntries p idx x r).mem = s.mem := by
  unfold State.queueEntries; grind [enqueue_mem, State.modPart_mem, foldl_mem]

theorem wf_execGraphReplayRelease {s : State} {part idx} {s'}
    (h : Memory.wf s.mem) (e : execGraphReplayRelease part idx s = .next s') : Memory.wf s'.mem := by
  unfold execGraphReplayRelease at e
  repeat' split at e
  all_goals grind [State.modPart_mem, readDeps_mem, queueEntries_mem, → wf_copyParams, → dispStop_mem]

theorem wf_execGraphReplayComplete {s : State} {part idx} {s'}
    (h : Memory.wf s.mem) (e : execGraphReplayComplete part idx s = .next s') : Memory.wf s'.mem := by
  unfold execGraphReplayComplete at e; grind [→ wf_writeCounter, → dispStop_mem, pokeGraphs_mem, State.modPart_mem]

@[simp] theorem requestPreempt_mem (s : State) (k : Nat) : (s.requestPreempt k).mem = s.mem := by
  unfold State.requestPreempt; grind [State.modBlock_mem, State.modPart_mem]

theorem wf_execPreemptRequest {s : State} {part tag} {s'}
    (h : Memory.wf s.mem) (e : execPreemptRequest part tag s = .next s') : Memory.wf s'.mem := by
  unfold execPreemptRequest at e; grind [State.later_mem, requestPreempt_mem]

@[simp] theorem toReplay_mem (s : State) (k c e : Nat) : (s.toReplay k c e).mem = s.mem := by
  unfold State.toReplay; grind [State.modThread_mem, State.modBc_mem, State.modEntry_mem, foldl_mem]

@[simp] theorem chargeOverrun_mem (s : State) (k : Nat) : (s.chargeOverrun k).mem = s.mem := by
  unfold State.chargeOverrun; grind [State.modPart_mem, sendRecord_mem, foldl_mem]

theorem wf_saveBlock {s : State} (k : Nat) (h : Memory.wf s.mem) : Memory.wf (s.saveBlock k).mem := by
  unfold State.saveBlock; grind [wf_flushPage, chargeOverrun_mem, dropEntries_mem, State.modBlock_mem, foldl_mem,
    foldl_wf]

theorem wf_land {s : State} {k j op again} {s'} (h : Memory.wf s.mem) (e : s.land k j op again = .next s') :
    Memory.wf s'.mem := by
  unfold State.land at e; grind [putOp_mem, wf_writeCells, → wf_countOwed, → stopOp_mem, State.later_mem,
    wf_cancelHead]

theorem wf_execBlockQuiesceSave {s : State} {part tag} {s'}
    (h : Memory.wf s.mem) (e : execBlockQuiesceSave part tag s = .next s') : Memory.wf s'.mem := by
  unfold execBlockQuiesceSave at e; grind [State.later_mem, toReplay_mem, → wf_performMatrix, → wf_land,
    wf_saveBlock, refreshCands_mem, State.modPart_mem]

theorem wf_restoreBlock {s : State} (k : Nat) (place : Placement) (h : Memory.wf s.mem) :
    Memory.wf (s.restoreBlock k place).mem := by
  unfold State.restoreBlock; grind [State.putBlock_mem, State.modCore_mem, claim_mem, releaseHalts_mem,
    State.modPart_mem, wf_endCheck, foldl_mem, foldl_wf]

theorem wf_execBlockRestore {s : State} {part tag place} {s'}
    (h : Memory.wf s.mem) (e : execBlockRestore part tag place s = .next s') : Memory.wf s'.mem := by
  unfold execBlockRestore at e; grind [refreshCands_mem, wf_restoreBlock]

theorem wf_execRotation {s : State} {part grid} {s'} (h : Memory.wf s.mem) (e : execRotation part grid s = .next s') :
    Memory.wf s'.mem := by
  unfold execRotation at e; grind [State.modPart_mem, State.later_mem]

theorem wf_execMigration {s : State} {tag} {s'} (h : Memory.wf s.mem) (e : execMigration tag s = .next s') :
    Memory.wf s'.mem := by
  unfold execMigration at e; grind [State.later_mem, State.modBlock_mem]

/-! ### System instructions, traps, pre-emption and records -/

@[simp] theorem postEvent_mem (s : State) (what agent : Nat) (data : List Nat) :
    (s.postEvent what agent data).mem = s.mem := by
  unfold State.postEvent; grind [State.later_mem]

theorem wf_ringRead {s : State} {p va n} {r} (h : Memory.wf s.mem) (e : s.ringRead p va n = .ok r) :
    Memory.wf r.2.mem := by
  unfold State.ringRead at e; grind [→ wf_unitRead]

theorem wf_ringWrite {s : State} {p va v n rel} {r} (h : Memory.wf s.mem) (e : s.ringWrite p va v n rel = .ok r) :
    Memory.wf r.mem := by
  unfold State.ringWrite at e; grind [→ wf_unitWrite]

theorem wf_ringPut {s : State} {p va rec} {r} (h : Memory.wf s.mem) (e : s.ringPut p va rec = .ok r) :
    Memory.wf r.2.mem := by
  unfold State.ringPut at e; grind [→ wf_ringRead, → wf_ringWrite, releases_mem, map_eq_ok]

@[simp] theorem modRing_mem (s : State) (p ring : Nat) (f : Ring → Ring) : (s.modRing p ring f).mem = s.mem := by
  unfold State.modRing; grind [State.modPart_mem]

@[simp] theorem ringFailed_mem (s : State) (p ring va : Nat) (e : Exc) : (s.ringFailed p ring va e).mem = s.mem := by
  unfold State.ringFailed; grind [markRead_mem, taken_mem, modRing_mem, postEvent_mem, sendRecord_mem]

@[simp] theorem ringWritten_mem (s : State) (p ring : Nat) : (s.ringWritten p ring).mem = s.mem := by
  unfold State.ringWritten; grind [taken_mem, modRing_mem, State.modPart_mem, releaseHalts_mem]

theorem wf_ringStep {s : State} {p ring} {r} (h : Memory.wf s.mem) (e : s.ringStep p ring = .ok r) :
    Memory.wf r.2.mem := by
  unfold State.ringStep at e; grind [→ wf_ringPut, ringWritten_mem, taken_mem, ringFailed_mem]

theorem wf_execRecordWrite {s : State} {part ring} {s'}
    (h : Memory.wf s.mem) (e : execRecordWrite part ring s = .next s') : Memory.wf s'.mem := by
  unfold execRecordWrite at e; grind [→ wf_ringStep, request_mem]

theorem wf_execRingConsPoll {s : State} {part ring} {s'}
    (h : Memory.wf s.mem) (e : execRingConsPoll part ring s = .next s') : Memory.wf s'.mem := by
  unfold execRingConsPoll at e; grind [→ wf_ringRead, State.later_mem, ringFailed_mem, request_mem]

@[simp] theorem sendEvent_mem (s : State) (k : Nat) (r : FaultRec) : (s.sendEvent k r).1.mem = s.mem := by
  unfold State.sendEvent; grind [sendBlockRecord_mem, sendRecord_mem]

theorem wf_execTrap {s : State} {com code dst a} {s'}
    (h : Memory.wf s.mem) (e : execTrap com code dst a s = .next s') : Memory.wf s'.mem :=
  wf_eachThread (fun g i l s r h e => by grind [releases_mem, sendEvent_mem, State.modThread_mem, → releaseWait_mem,
    map_eq_ok]) h e

@[simp] theorem sendEvpost_mem (s : State) (g : Grp) (i : Nat) (fd : Bool) (code payload : Nat) :
    (s.sendEvpost g i fd code payload).1.mem = s.mem := by
  unfold State.sendEvpost; grind [sendEvent_mem, sendRecord_mem]

theorem wf_execEvpost {s : State} {com fd code dst a} {s'}
    (h : Memory.wf s.mem) (e : execEvpost com fd code dst a s = .next s') : Memory.wf s'.mem :=
  wf_onceThread (fun g i l s h => by grind [Once.Wf, → issueRelease_mem, sendEvpost_mem]) h e

@[simp] theorem rungRecord_mem (s : State) (p rung recAddr : Nat) : (s.rungRecord p rung recAddr).mem = s.mem := by
  unfold State.rungRecord; grind [sendRecord_mem]

theorem wf_cancelOps {s : State} (k : Nat) (tls : Nat → Bool) (h : Memory.wf s.mem) :
    Memory.wf (s.cancelOps k tls).mem := by
  unfold State.cancelOps; grind [wf_cancelHead, foldl_mem, foldl_wf]

@[simp] theorem killGrid_mem (s : State) (p grid tag : Nat) : (s.killGrid p grid tag).mem = s.mem := by
  unfold State.killGrid; grind [State.modPart_mem]

theorem wf_contextRung {s : State} (k : Nat) (h : Memory.wf s.mem) : Memory.wf (s.contextRung k).mem := by
  unfold State.contextRung; grind [killGrid_mem, State.modBlock_mem, dropEntries_mem, wf_cancelOps, wf_endCheck,
    rungRecord_mem]

theorem wf_tretHeld {s : State} {ins com dst a b} {act : HeldTarget → DWord → State → State × Nat} {s' : State}
    (ha : ∀ t v s, Memory.wf s.mem → Memory.wf (act t v s).1.mem) (h : Memory.wf s.mem)
    (e : tretHeld ins com dst a b act s = .next s') : Memory.wf s'.mem :=
  wf_eachThreadNoBoot (fun g i l s r h e => by cases e; split <;> simp_all) h e

@[simp] theorem setOp_mem (s : State) (k j : Nat) (op : EngineOp) (st : OpStat) :
    (s.setOp k j op st).mem = s.mem := by
  unfold State.setOp; grind [State.modBc_mem]

@[simp] theorem release_mem (s : State) (k i : Nat) (replay : Bool) : (s.release k i replay).mem = s.mem := by
  unfold State.release; grind [State.modThread_mem]

theorem wf_execTretRep {s : State} {com dst a b} {s' : State} (h : Memory.wf s.mem)
    (e : execTretRep com dst a b s = .next s') : Memory.wf s'.mem :=
  wf_tretHeld (fun t v s h => by grind [release_mem, setOp_mem, writeDst_mem]) h e

theorem wf_execTretSkip {s : State} {com dst a b} {s' : State} (h : Memory.wf s.mem)
    (e : execTretSkip com dst a b s = .next s') : Memory.wf s'.mem :=
  wf_tretHeld (fun t v s h => by grind [release_mem]) h e

theorem wf_execTretKill {s : State} {com dst a b} {s' : State} (h : Memory.wf s.mem)
    (e : execTretKill com dst a b s = .next s') : Memory.wf s'.mem :=
  wf_tretHeld (fun t v s h => by grind [wf_endThreads]) h e

theorem wf_execTretCan {s : State} {com dst a b} {s' : State} (h : Memory.wf s.mem)
    (e : execTretCan com dst a b s = .next s') : Memory.wf s'.mem :=
  wf_tretHeld (fun t v s h => by grind [setOp_mem, wf_cancelHead]) h e

theorem wf_tretBlock {s : State} {ins com dst a b} {act : Nat → Nat → State → State × Nat} {s' : State}
    (ha : ∀ p k s, Memory.wf s.mem → Memory.wf (act p k s).1.mem) (h : Memory.wf s.mem)
    (e : tretBlock ins com dst a b act s = .next s') : Memory.wf s'.mem :=
  wf_eachThreadNoBoot (fun g i l s r h e => by cases e; dsimp only; split <;> simp_all) h e

theorem wf_execTretKillb {s : State} {com dst a b} {s' : State} (h : Memory.wf s.mem)
    (e : execTretKillb com dst a b s = .next s') : Memory.wf s'.mem :=
  wf_tretBlock (fun _ _ _ h => wf_contextRung _ h) h e

theorem wf_execTretPre {s : State} {com dst a b} {s' : State} (h : Memory.wf s.mem)
    (e : execTretPre com dst a b s = .next s') : Memory.wf s'.mem :=
  wf_tretBlock (fun p k s h => by grind [State.later_mem, requestPreempt_mem]) h e

theorem wf_holdForOp {s : State} (g : Grp) (i : Nat) (kind : PkgOpKind) (dst : Opnd) (h :
    Memory.wf s.mem) : (holdForOp g i kind dst s).Wf := by
  unfold holdForOp; grind [Once.Wf]

@[simp] theorem finishThreads_mem (s : State) (k num : Nat) (v : DWord) : (s.finishThreads k num v).mem = s.mem := by
  have key : ∀ (l : List (Nat × Thread)) (r : State × Bool), (l.foldl (fun (r : State × Bool) t =>
      match t.2.waitsFor num with
      | some dst => ((writeDst r.1 k t.1 r.2 (dst, false) v).makeReady k t.1, false)
      | none => r) r).1.mem = r.1.mem := by
    intro l
    induction l with
    | nil => intro r; rfl
    | cons t l ih => intro r; rw [List.foldl_cons, ih]; split <;> simp
  exact key _ _

@[simp] theorem finishOp_mem (s : State) (num : Nat) (v : DWord) : (s.finishOp num v).mem = s.mem := by
  unfold State.finishOp; grind [finishThreads_mem]

theorem wf_holdRelease {s : State} (g : Grp) (i : Nat) (com : Com) (kind : PkgOpKind) (h :
    Memory.wf s.mem) : (s.holdRelease g i com kind).Wf := by
  unfold State.holdRelease; grind [Once.Wf, → releaseWait_mem, wf_holdForOp, releases_mem]

theorem wf_execTlbiVa {s : State} {com a b} {s'} (h : Memory.wf s.mem) (e : execTlbiVa com a b s = .next s') :
    Memory.wf s'.mem :=
  wf_onceThreadNoBoot (fun g i l s h => by grind [Once.Wf, wf_holdRelease]) h e

theorem wf_execTlbiAll {s : State} {com} {s'} (h : Memory.wf s.mem) (e : execTlbiAll com s = .next s') :
    Memory.wf s'.mem :=
  wf_onceThreadNoBoot (fun g i l s h => by grind [Once.Wf, wf_holdRelease]) h e

theorem wf_dropPages {s : State} (p lo hi : Nat) (h : Memory.wf s.mem) : Memory.wf (s.dropPages p lo hi).mem := by
  unfold State.dropPages; grind [wf_flushPage, foldl_mem, foldl_wf]

theorem wf_landCells {s : State} (p lo hi : Nat) (h : Memory.wf s.mem) : Memory.wf (s.landCells p lo hi).mem := by
  unfold State.landCells; grind [State.modBlock_mem, wf_writeCells, foldl_mem, foldl_wf]

theorem wf_invalidate {s : State} (p lo hi : Nat) (h : Memory.wf s.mem) : Memory.wf (s.invalidate p lo hi).mem := by
  unfold State.invalidate; grind [wf_dropPages, wf_landCells]

theorem wf_invalidateAll {s : State} (p : Nat) (h : Memory.wf s.mem) : Memory.wf (s.invalidateAll p).mem := by
  unfold State.invalidateAll; grind [wf_invalidate]

theorem wf_execTlbiComplete {s : State} {op} {s'} (h : Memory.wf s.mem) (e : execTlbiComplete op s = .next s') :
    Memory.wf s'.mem := by
  unfold execTlbiComplete at e; grind [wf_invalidate, finishOp_mem]

theorem wf_execScrub {s : State} {com rel dst a b} {s'}
    (h : Memory.wf s.mem) (e : execScrub com rel dst a b s = .next s') : Memory.wf s'.mem :=
  wf_onceThreadNoBoot (fun g i l s h => by grind [Once.Wf, wf_holdForOp]) h e

theorem wf_unmapFrames {s : State} (p : Nat) (gpas : List Nat) (h : Memory.wf s.mem) :
    Memory.wf (s.unmapFrames p gpas).mem := by
  unfold State.unmapFrames; grind [wf_invalidateAll, State.modPart_mem, foldl_mem, foldl_wf]

theorem wf_scrubOn {s : State} (op : Nat) (w : Starter) (rel zeroed : Bool) (l : List Nat) (h : Memory.wf s.mem) :
    Memory.wf (s.scrubOn op w rel zeroed l).mem := by
  unfold State.scrubOn; grind [wf_zeroFrame, finishOp_mem, State.modPart_mem, foldl_mem, foldl_wf]

theorem wf_execScrubComplete {s : State} {op} {s'} (h : Memory.wf s.mem) (e : execScrubComplete op s = .next s') :
    Memory.wf s'.mem := by
  unfold execScrubComplete at e; grind [wf_unmapFrames, wf_scrubOn]

@[simp] theorem loseLine_mem (s : State) (k core : Nat) (l : StashLine) : (s.loseLine k core l).mem = s.mem := by
  unfold State.loseLine; grind [markPoison_mem, sendBlockRecord_mem, foldl_mem]

@[simp] theorem loseStash_mem (s : State) (k j : Nat) : (s.loseStash k j).mem = s.mem := by
  unfold State.loseStash; grind [State.modBc_mem, loseLine_mem, foldl_mem]

theorem wf_execComputeDieLost {s : State} {die} {s'} (h : Memory.wf s.mem) (e : execComputeDieLost die s = .next s') :
    Memory.wf s'.mem := by
  unfold execComputeDieLost at e; grind [loseStash_mem, sendRecord_mem, foldl_mem, foldl_wf]

theorem wf_execHarvest {s : State} {com dst a} {s'} (h : Memory.wf s.mem) (e : execHarvest com dst a s = .next s') :
    Memory.wf s'.mem :=
  wf_onceThreadNoBoot (fun g i l s h => by grind [Once.Wf, wf_holdForOp]) h e

theorem wf_harvestBlock {s : State} (k : Nat) (h : Memory.wf s.mem) : Memory.wf (s.harvestBlock k).mem := by
  unfold State.harvestBlock; grind [wf_endBlock, killGrid_mem]

theorem wf_execHarvestComplete {s : State} {op} {s'} (h : Memory.wf s.mem) (e : execHarvestComplete op s = .next s') :
    Memory.wf s'.mem := by
  unfold execHarvestComplete at e; grind [wf_harvestBlock, sendRecord_mem, finishOp_mem, foldl_mem, foldl_wf]

/-! ### Near-bank units -/

@[simp] theorem starter_send_mem (s : State) (w : Starter) (r : FaultRec) : (w.send s r).mem = s.mem := by
  unfold Starter.send; grind [sendRecord_mem]

theorem wf_doneBase {s : State} (w : Starter) (tl : Nat) (h : Memory.wf s.mem) : Memory.wf (s.doneBase w tl).mem := by
  unfold State.doneBase; grind [wf_endCheck, wakeTl_mem, State.modBc_mem]

@[simp] theorem putUnit_mem (s : State) (n : Nat) (u : NbUnit) : (s.putUnit n u).mem = s.mem := by
  unfold State.putUnit; grind [State.modDie_mem]

theorem wf_statusWrite {s : State} (a : Actor) (spa va v n : Nat) (h : Memory.wf s.mem) :
    Memory.wf (s.statusWrite a spa va v n).mem := by
  unfold State.statusWrite; grind [→ wf_ctlWrite, wf_writeCells]

@[simp] theorem modProg_mem (s : State) (p n : Nat) (f : CollProg → CollProg) : (s.modProg p n f).mem = s.mem := by
  unfold State.modProg; grind [State.modPart_mem]

@[simp] theorem failProg_mem (s : State) (p n code leg : Nat) : (s.failProg p n code leg).mem = s.mem := by
  unfold State.failProg; grind [State.later_mem, modProg_mem]

@[simp] theorem legDone_mem (s : State) (p n k : Nat) : (s.legDone p n k).mem = s.mem := by
  unfold State.legDone; grind [modProg_mem, State.later_mem]

theorem wf_tryEnd {s : State} (x : BaseEnd) (h : Memory.wf s.mem) : Memory.wf (s.tryEnd x).1.mem := by
  unfold State.tryEnd; grind [wf_statusWrite]

theorem wf_endOver {s : State} (x : BaseEnd) (h : Memory.wf s.mem) : Memory.wf (s.endOver x).mem := by
  unfold State.endOver; grind [wf_doneBase, legDone_mem, failProg_mem]

theorem wf_beginEnd {s : State} (x : BaseEnd) {record : State → State} (hr : ∀ s, (record s).mem = s.mem)
    (h : Memory.wf s.mem) : Memory.wf (s.beginEnd x record).mem := by
  have := wf_tryEnd x h
  unfold State.beginEnd; grind [wf_endOver, State.modPart_mem]

theorem wf_landEnd {s : State} (p : Nat) (x : BaseEnd) (h : Memory.wf s.mem) : Memory.wf (s.landEnd p x).mem := by
  unfold State.landEnd; grind [wf_tryEnd, wf_endOver, State.modPart_mem]

theorem wf_landEnds {s : State} (h : Memory.wf s.mem) : Memory.wf s.landEnds.mem := by
  unfold State.landEnds; grind [wf_landEnd, foldl_mem, foldl_wf]

theorem wf_endRun {s : State} (run : NbRun) (count code leg : Nat) (h : Memory.wf s.mem) :
    Memory.wf (s.endRun run count code leg).mem :=
  wf_beginEnd _ (fun s => by dsimp only; split <;> simp) h

theorem wf_endCur {s : State} (unit : Nat) (u : NbCur) (code leg : Nat) (h : Memory.wf s.mem) :
    Memory.wf (s.endCur unit u code leg).mem := by
  unfold State.endCur; grind [wf_endRun, putUnit_mem]

theorem wf_stopRuns {s : State} (unit : Nat) (which : NbRun → Bool) (h : Memory.wf s.mem) :
    Memory.wf (s.stopRuns unit which).mem := by
  unfold State.stopRuns; grind [putUnit_mem, wf_endCur, wf_endRun, foldl_mem, foldl_wf]

theorem wf_dieRead {s : State} {w a va n} {r} (h : Memory.wf s.mem) (e : dieRead s w a va n = .ok r) :
    Memory.wf r.2.mem := by
  fun_induction dieRead generalizing r <;> grind [→ wf_physRead, map_eq_ok]

/- The kernel would run a read of a fixed length to compare two forms of a definition that makes one. So the
  definitions
below that do are opened with the read, and then themselves, under a variable. -/
theorem wf_readNbImage {s : State} {w a va} {r} (h : Memory.wf s.mem) (e : readNbImage s w a va = .ok r) :
    Memory.wf r.2.2.mem := by
  obtain ⟨rd, hrd⟩ : ∃ rd, rd = dieRead := ⟨_, rfl⟩
  have hr := @wf_dieRead
  generalize hf : readNbImage = f at e
  delta readNbImage at hf
  rw [← hrd] at hr hf
  subst hf
  grind [map_eq_ok]

theorem wf_execNbLoad {s : State} {com all dst a b c} {s'}
    (h : Memory.wf s.mem) (e : execNbLoad com all dst a b c s = .next s') : Memory.wf s'.mem :=
  wf_onceThreadNoBoot (fun g i l s h => by grind [Once.Wf, takeNum_mem, State.modPart_mem]) h e

theorem wf_nbFilled {s : State} (part stk : Nat) (o : NbLoadOp) (v : NbSlot) (h : Memory.wf s.mem) :
    Memory.wf (s.nbFilled part stk o v).mem := by
  unfold State.nbFilled; grind [State.modPart_mem, taken_mem, wf_doneBase]

theorem wf_execNbImageLoadComplete {s : State} {part stack slot} {s'} (h : Memory.wf s.mem)
    (e : execNbImageLoadComplete part stack slot s = .next s') : Memory.wf s'.mem := by
  obtain ⟨rd, hrd⟩ : ∃ rd, rd = readNbImage := ⟨_, rfl⟩
  have hr := @wf_readNbImage
  generalize hf : execNbImageLoadComplete = f at e
  delta execNbImageLoadComplete at hf
  rw [← hrd] at hr hf
  subst hf
  grind [wf_nbFilled, markRead_mem, request_mem]

@[simp] theorem queueRun_mem (s : State) (r : NbRun) : (s.queueRun r).mem = s.mem := by
  unfold State.queueRun; grind [putUnit_mem]

theorem wf_execNbRun {s : State} {com dst a b c} {s'}
    (h : Memory.wf s.mem) (e : execNbRun com dst a b c s = .next s') : Memory.wf s'.mem :=
  wf_onceThreadNoBoot (fun g i l s h => by grind [Once.Wf, → wf_readGlobal, takeNum_mem, → issueRelease_mem,
    queueRun_mem]) h e

theorem wf_execNbRunStart {s : State} {unit} {s'} (h : Memory.wf s.mem) (e : execNbRunStart unit s = .next s') :
    Memory.wf s'.mem := by
  unfold execNbRunStart at e; grind [putUnit_mem, wf_endRun]

theorem wf_nbAfter {s : State} (unit : Nat) (waiting : Bool) (u : NbCur) (code : Nat) (h : Memory.wf s.mem) :
    Memory.wf (s.nbAfter unit waiting u code).mem := by
  unfold State.nbAfter; grind [wf_endCur, putUnit_mem]

@[simp] theorem rowReady_mem (s : State) (u : NbCur) : (s.rowReady u).2.mem = s.mem := by
  unfold State.rowReady; grind [probeHolders_mem, foldl_mem]

@[simp] theorem nbFocus_mem (s : State) (stk unit : Nat) : (s.nbFocus stk unit).mem = s.mem := by
  unfold State.nbFocus; grind [rowReady_mem]

/-- What a micro-operation does keeps memory in its canonical form. -/
def NbEff.KeepsWf (f : NbEff) : Prop := ∀ u s, Memory.wf s.mem → Memory.wf (f u s).2.1.mem

theorem wf_nbPure (g : NbCur → NbCur) : NbEff.KeepsWf fun u s => (g u, s, 0) := fun _ _ h => h

theorem wf_nbLoadEff (d q : Fin 4) : (nbLoadEff d q).KeepsWf := fun u s h => by
  unfold nbLoadEff; grind [wf_snoop, markRead_mem]

theorem wf_nbStoreEff (a q : Fin 4) : (nbStoreEff a q).KeepsWf := fun _ _ h => wf_writeCells _ h

theorem wf_nbOutEff (a slot : Fin 4) : (nbOutEff a slot).KeepsWf := fun u s h => by
  unfold nbOutEff; grind [wf_statusWrite]

theorem wf_nbEffOf (i : Instr) : (nbEffOf i).2.KeepsWf := by
  unfold nbEffOf
  split
  · exact wf_nbLoadEff _ _
  · exact wf_nbStoreEff _ _
  all_goals first | exact wf_nbOutEff _ _ | exact wf_nbPure _

theorem wf_nbMicro {c : NbCond} {f : NbEff} (hf : f.KeepsWf) : (nbMicro c f).KeepsWf := fun u s h => by
  have := hf u s h
  unfold nbMicro; grind

theorem wf_nbRow (n : Nat) : NbEff.KeepsWf (nbRow n) := fun u s h => by
  fun_induction nbRow n u s with
  | case1 | case2 | case3 => exact h
  | case4 n u s _ i _ e u' s' he ih =>
    have := wf_nbMicro (c := e.1) (wf_nbEffOf i) u s h
    exact ih (by rwa [he] at this)
  | case5 n u s _ i _ e _ => exact wf_nbMicro (wf_nbEffOf i) u s h

theorem wf_rowStep {s : State} (unit : Nat) (waiting : Bool) (u : NbCur) (h : Memory.wf s.mem) :
    Memory.wf (s.rowStep unit waiting u).mem := by
  have hm := rowReady_mem s u
  have hr : ∀ t : State, t.mem = s.mem → Memory.wf (nbRow (32 * u.prog.length) u t).2.1.mem :=
    fun t ht => wf_nbRow _ _ _ (ht ▸ h)
  unfold State.rowStep; grind [wf_nbAfter]

theorem wf_execNbRowStep {s : State} {unit waiting} {s'}
    (h : Memory.wf s.mem) (e : execNbRowStep unit waiting s = .next s') : Memory.wf s'.mem := by
  unfold execNbRowStep at e; grind [wf_rowStep]

theorem wf_execNbResume {s : State} {unit} {s'} (h : Memory.wf s.mem) (e : execNbResume unit s = .next s') :
    Memory.wf s'.mem := by
  unfold execNbResume at e; grind [putUnit_mem]

theorem wf_execNbForcedStep {s : State} {unit} {s'} (h : Memory.wf s.mem) (e : execNbForcedStep unit s = .next s') :
    Memory.wf s'.mem := by
  unfold execNbForcedStep at e; grind [wf_rowStep]

theorem wf_nbWord {c : NbCond} {f : NbEff} {s s' : State} (hf : f.KeepsWf) (h : Memory.wf s.mem)
    (e : nbWord c f s = .next s') : Memory.wf s'.mem := by
  have := fun u => wf_nbMicro (c := c) hf u s h
  unfold nbWord at e; grind [wf_nbAfter]

/-! ### Collective programs -/

theorem wf_execCollStart {s : State} {com dst a} {s'}
    (h : Memory.wf s.mem) (e : execCollStart com dst a s = .next s') : Memory.wf s'.mem :=
  wf_onceThreadNoBoot (fun g i l s h => by grind [Once.Wf, → wf_readPieces, takeNum_mem, → issueRelease_mem,
    State.modPart_mem, State.later_mem]) h e

theorem wf_combineElems {s : State} (stk : Nat) (a : Actor) (q : CollProg) (w : FmtWin) (opr : Nat) (x : Packet) (n :
    Nat) (h : Memory.wf s.mem) :
    Memory.wf (combineElems stk a q w opr x n s).2.1.mem := by
  fun_induction combineElems <;> grind [→ wf_physRead]

theorem wf_takePacket {s : State} {stk x p n k} {r} (h : Memory.wf s.mem) (e : s.takePacket stk x p n k = .ok r) :
    Memory.wf r.mem := by
  unfold State.takePacket at e; grind [failProg_mem, wf_combineElems, request_mem, taken_mem, wf_writeCells,
    markRead_mem, modProg_mem, wf_beginEnd]

@[simp] theorem unhold_mem (s : State) (stk : Nat) (x : Packet × Nat) : (s.unhold stk x).mem = s.mem := by
  unfold State.unhold; grind [State.modDie_mem]

theorem wf_takePacket_error {s : State} {stk x p n k} {r} (h : Memory.wf s.mem)
    (e : s.takePacket stk x p n k = .error r) : Memory.wf r.mem := by
  have := fun a q w o l => wf_combineElems stk a q w o x l h
  unfold State.takePacket at e; grind [request_mem]

theorem wf_offerHeld {s : State} (stk : Nat) (l : List (Packet × Nat)) (kept : List (Nat × Nat)) (h :
    Memory.wf s.mem) :
    Memory.wf (s.offerHeld stk l kept).mem := by
  fun_induction State.offerHeld stk l kept s <;> grind [→ wf_takePacket, → wf_takePacket_error, unhold_mem]

theorem wf_deliverClf {s : State} (stk : Nat) (x : Packet) (h : Memory.wf s.mem) :
    Memory.wf (s.deliverClf stk x).mem := by
  unfold State.deliverClf; grind [postEvent_mem, State.modDie_mem, wf_offerHeld]

theorem wf_execClfHoldExpire {s : State} {stack} {s'}
    (h : Memory.wf s.mem) (e : execClfHoldExpire stack s = .next s') : Memory.wf s'.mem := by
  unfold execClfHoldExpire at e; grind [State.modDie_mem, postEvent_mem, foldl_mem, foldl_wf]

theorem wf_readElems {s : State} {a q w off n} {r} (h : Memory.wf s.mem) (e : readElems a q w off n s = .ok r) :
    Memory.wf r.2.mem := by
  fun_induction readElems generalizing r <;> grind [→ wf_physRead, map_eq_ok]

@[simp] theorem startLeg_mem (s : State) (p n k : Nat) : (s.startLeg p n k).mem = s.mem := by
  unfold State.startLeg; grind [modProg_mem]

theorem wf_sendLeg {s : State} (p n k : Nat) (q : CollProg) (l : Leg) (w : FmtWin) (h : Memory.wf s.mem) :
    Memory.wf (s.sendLeg p n k q l w).mem := by
  unfold State.sendLeg; grind [→ wf_readElems, request_mem, failProg_mem, taken_mem, markRead_mem, startLeg_mem,
    legDone_mem, State.later_mem]

theorem wf_runLeg {s : State} (p n k : Nat) (q : CollProg) (l : Leg) (h : Memory.wf s.mem) :
    Memory.wf (s.runLeg p n k q l).mem := by
  obtain ⟨rd, hrd⟩ : ∃ rd, rd = dieRead := ⟨_, rfl⟩
  have hr := @wf_dieRead
  generalize hf : State.runLeg = f
  delta State.runLeg at hf
  rw [← hrd] at hr hf
  subst hf
  grind [failProg_mem, startLeg_mem, taken_mem, request_mem, queueRun_mem]

theorem wf_execCollLegStart {s : State} {part prog leg} {s'}
    (h : Memory.wf s.mem) (e : execCollLegStart part prog leg s = .next s') : Memory.wf s'.mem := by
  unfold execCollLegStart at e; grind [wf_runLeg, wf_sendLeg, startLeg_mem, wf_offerHeld]

theorem wf_execCollTimeout {s : State} {part prog} {s'}
    (h : Memory.wf s.mem) (e : execCollTimeout part prog s = .next s') : Memory.wf s'.mem := by
  unfold execCollTimeout at e; grind [failProg_mem]

@[simp] theorem failFlow_mem (s : State) (job flow : Nat) : (s.failFlow job flow).mem = s.mem := by
  unfold State.failFlow; grind [failProg_mem, foldl_mem]

@[simp] theorem stopProgs_mem (s : State) (p : Nat) : (s.stopProgs p).mem = s.mem := by
  unfold State.stopProgs; grind [failProg_mem, foldl_mem]

theorem wf_writeProg {s : State} (part prog : Nat) (q : CollProg) (h : Memory.wf s.mem) :
    Memory.wf (s.writeProg part prog q).mem := by
  unfold State.writeProg; grind [wf_statusWrite, starter_send_mem, modProg_mem]

theorem wf_execCollProgramComplete {s : State} {part prog} {s'}
    (h : Memory.wf s.mem) (e : execCollProgramComplete part prog s = .next s') : Memory.wf s'.mem := by
  unfold execCollProgramComplete at e; grind [wf_writeProg, wf_doneBase, State.modPart_mem]

/-! ### Cross-lane instructions and selectors -/

@[simp] theorem absorb_mem (s : State) (g : Grp) (join members : List Nat) :
    (s.absorb g join members).mem = s.mem := by
  unfold State.absorb; grind [State.modBlock_mem, State.modCore_mem]

@[simp] theorem squadMask_mem (s : State) (g : Grp) (instr : Instr) (mask : Nat) (ls : List (Nat × List DWord)) :
    (squadMask g instr mask ls s).1.mem = s.mem := by
  fun_induction squadMask <;> grind [faultThread_mem]

@[simp] theorem writeOwn_mem (s : State) (k : Nat) (y : Bool) (ls : List (Nat × List (Src × DWord))) :
    (writeOwn k y ls s).mem = s.mem := by
  fun_induction writeOwn <;> grind [writeAll_mem]

@[simp] theorem squadRun_mem (g : Grp) (instr : Instr) (com : Com) (mask : Nat) (u : Use) (f : SquadFn) (s : State) :
    (squadRun g instr com mask u f s).mem = s.mem := by
  simp [squadRun]

theorem wf_squadExec {instr : Instr} {com : Com} {mask : Word} {srcs dsts : List Src} {f : SquadFn} {s s' : State}
    (h : Memory.wf s.mem) (e : squadExec instr com mask srcs dsts f s = .next s') : Memory.wf s'.mem := by
  unfold squadExec at e
  split at e
  · cases e; exact h
  · refine wf_barBoot h (fun e => ?_) e
    split at e
    · rw [finish_mem e]; simpa using h
    · dsimp only at e
      rw [finish_mem e]; split <;> simpa using h

theorem wf_execSelInit {s : State} {com key max c dst a} {s'}
    (h : Memory.wf s.mem) (e : execSelInit com key max c dst a s = .next s') : Memory.wf s'.mem :=
  wf_onceThreadNoBoot (fun g i l s h => by grind [Once.Wf, State.modBc_mem]) h e

theorem wf_execSelPush {s : State} {com c a b} {s'} (h : Memory.wf s.mem) (e : execSelPush com c a b s = .next s') :
    Memory.wf s'.mem :=
  wf_eachThreadNoBoot (fun g i l s r h e => by grind [State.modBc_mem]) h e

theorem wf_execSelDrain {s : State} {com form c dst a} {s'} (h : Memory.wf s.mem)
    (e : execSelDrain com form c dst a s = .next s') : Memory.wf s'.mem := by
  unfold execSelDrain at e; dsimp only at e
  split at e
  · cases e; exact h
  · refine wf_barBoot h (wf_conclude h fun t ht => ?_) e
    obtain ⟨r, hr, rfl⟩ := map_eq_ok.1 ht
    have hw := wf_runThreads (fun i l s r h e => by grind) (by simpa using h) hr
    split
    · simpa using hw
    · exact hw

/-! ### Ferry cores -/

theorem wf_sendOn {s : State} (stk : Nat) (x : Packet) {drop : State → State}
    (hd : ∀ s, Memory.wf s.mem → Memory.wf (drop s).mem) (h : Memory.wf s.mem) :
    Memory.wf (s.sendOn stk x drop).1.mem := by
  unfold State.sendOn; grind [wf_deliverClf, State.emit_mem]

@[simp] theorem routerDrop_mem (s : State) (stk : Nat) (x : Packet) : (routerDrop stk x s).mem = s.mem := by
  unfold routerDrop; grind [postEvent_mem]

theorem wf_passOn {s : State} (stk : Nat) (x : Packet) (h : Memory.wf s.mem) : Memory.wf (s.passOn stk x).mem := by
  unfold State.passOn
  simpa using wf_sendOn stk x (fun t ht => by simpa using ht) h

@[simp] theorem modFerry_mem (s : State) (stk fc : Nat) (f : FerryCore → FerryCore) :
    (s.modFerry stk fc f).mem = s.mem := by
  unfold State.modFerry; grind [State.modDie_mem]

theorem wf_execClf {s : State} {stack p} {s'} (h : Memory.wf s.mem) (e : execClf stack p s = .next s') :
    Memory.wf s'.mem := by
  unfold execClf at e; grind [wf_passOn, modFerry_mem]

@[simp] theorem faultBinding_mem (s : State) (stk fc : Nat) (b : Binding) (cls detail addr : Nat) :
    (s.faultBinding stk fc b cls detail addr).mem = s.mem := by
  unfold State.faultBinding; grind [modFerry_mem, failFlow_mem, starter_send_mem]

@[simp] theorem ferryIdle_mem (s : State) (stk fc : Nat) : (s.ferryIdle stk fc).mem = s.mem := by
  unfold State.ferryIdle; grind [modFerry_mem]

@[simp] theorem ferryTrap_mem (s : State) (stk fc : Nat) (r : FerryRun) (b : Binding) (cls code addr : Nat) :
    (s.ferryTrap stk fc r b cls code addr).mem = s.mem := by
  unfold State.ferryTrap; grind [faultBinding_mem, ferryIdle_mem]

@[simp] theorem ferryDiscard_mem (s : State) (stk fc : Nat) (b : Binding) (x : Packet) :
    (ferryDiscard stk fc b x s).mem = s.mem := by
  unfold ferryDiscard; grind [starter_send_mem]

theorem wf_sendAll {s : State} (stk fc : Nat) (b : Binding) (l : List Packet) (h : Memory.wf s.mem) :
    Memory.wf (sendAll stk fc b l s).1.mem := by
  induction l generalizing s with
  | nil => exact h
  | cons x t ih => exact ih (wf_sendOn stk x (fun t ht => by simpa using ht) h)

theorem wf_ferryEnd {s : State} (stk fc : Nat) (r : FerryRun) (b : Binding) (fwd : Bool) (h : Memory.wf s.mem) :
    Memory.wf (s.ferryEnd stk fc r b fwd).mem := by
  unfold State.ferryEnd; grind [modFerry_mem, ferryIdle_mem, wf_sendAll, State.later_mem]

theorem wf_execFerryInvoke {s : State} {stack ferry} {s'}
    (h : Memory.wf s.mem) (e : execFerryInvoke stack ferry s = .next s') : Memory.wf s'.mem := by
  unfold execFerryInvoke at e; grind [modFerry_mem, wf_passOn]

theorem wf_ferryWord {cost : FCtx → FerryRun → Nat} {f : FEff} {s s' : State} (h : Memory.wf s.mem)
    (e : ferryWord cost f s = .next s') : Memory.wf s'.mem := by
  unfold ferryWord at e; grind [wf_ferryEnd, ferryTrap_mem, modFerry_mem]

theorem wf_ferryNext {n : Nat} {f : FerryRun → FerryRun} {s s' : State} (h : Memory.wf s.mem)
    (e : ferryNext n f s = .next s') : Memory.wf s'.mem := wf_ferryWord h e

theorem wf_ferryVec {d a b : Fin 16} {m : Fin 4} {half f} {s s' : State} (h : Memory.wf s.mem)
    (e : ferryVec d a b m half f s = .next s') : Memory.wf s'.mem := wf_ferryNext h e

theorem wf_ferryScalar {d a b f} {s s' : State} (h : Memory.wf s.mem)
    (e : ferryScalar d a b f s = .next s') : Memory.wf s'.mem := wf_ferryNext h e

theorem wf_ferryBranch {disp f} {s s' : State} (h : Memory.wf s.mem)
    (e : ferryBranch disp f s = .next s') : Memory.wf s'.mem := wf_ferryWord h e

/-! ### Packets between packages -/

theorem wf_arrival {op : Nat} {p : Packet} {f : State → State} {s s' : State}
    (hf : ∀ s, Memory.wf s.mem → Memory.wf (f s).mem) (h : Memory.wf s.mem)
    (e : arrival op p f s = .next s') : Memory.wf s'.mem := by
  unfold arrival at e; grind [routerDrop_mem, State.emit_mem]

@[simp] theorem respond_mem (s : State) (p : Packet) (op imm : Nat) (data : List Byte) :
    (s.respond p op imm data).mem = s.mem := by
  unfold State.respond; grind [State.emit_mem]

@[simp] theorem ack_mem (s : State) (p : Packet) : (s.ack p).mem = s.mem := by
  unfold State.ack; grind [respond_mem]

@[simp] theorem refuse_mem (s : State) (p : Packet) (status : Nat) : (s.refuse p status).mem = s.mem := by
  unfold State.refuse; grind [respond_mem]

theorem wf_atHome {x : Settle} {lines : List Nat} {f : State → State} {s : State}
    (hf : Memory.wf s.mem → Memory.wf (f s).mem) (h : Memory.wf s.mem) : Memory.wf (atHome x lines f s).mem := by
  unfold atHome; split
  · exact h
  · exact hf h

@[simp] theorem answerAfter_mem (s : State) (lines : List Nat) (m : Packet) :
    (s.answerAfter lines m).mem = s.mem := by
  unfold State.answerAfter; grind [State.emit_mem]

theorem wf_homeGranule {s : State} (gr : Nat) (cells : List Host.Cell) (h : Memory.wf s.mem) :
    Memory.wf (s.homeGranule gr cells).1.mem := by
  unfold State.homeGranule; grind [wf_snoop, markPoison_mem, probeHolders_mem, wf_setCells]

theorem wf_homeWrite {s : State} (cells : List Host.Cell) (h : Memory.wf s.mem) :
    Memory.wf (s.homeWrite cells).1.mem := by
  have key : ∀ (l : List Nat) (r : State × Bool), Memory.wf r.1.mem → Memory.wf (l.foldl (fun (r : State × Bool) gr =>
      let q := r.1.homeGranule gr (cells.filter fun c => s.granuleOf c.1 == gr)
      (q.1, r.2 && q.2)) r).1.mem := by
    intro l
    induction l with
    | nil => exact fun _ hr => hr
    | cons gr l ih => exact fun r hr => ih _ (wf_homeGranule _ _ hr)
  exact key _ _ h

theorem wf_serveWrite {s : State} (p : Packet) (cells : List Host.Cell) (h : Memory.wf s.mem) :
    Memory.wf (s.serveWrite p cells).mem := by
  unfold State.serveWrite; grind [refuse_mem, wf_homeWrite, answerAfter_mem]

@[simp] theorem addHolder_mem (s : State) (line pkg : Nat) : (s.addHolder line pkg).mem = s.mem := by
  unfold State.addHolder; grind [State.modDie_mem]

@[simp] theorem dropHolder_mem (s : State) (line pkg : Nat) : (s.dropHolder line pkg).mem = s.mem := by
  unfold State.dropHolder; grind [State.modDie_mem]

theorem wf_rdlAt {s : State} (p : Packet) (h : Memory.wf s.mem) : Memory.wf (rdlAt p s).mem := by
  unfold rdlAt; grind [refuse_mem, wf_snoop, markRead_mem, respond_mem, addHolder_mem]

theorem wf_execRdl {s : State} {p} {s'} (h : Memory.wf s.mem) (e : execRdl p s = .next s') : Memory.wf s'.mem :=
  wf_arrival (fun _ => wf_atHome (wf_rdlAt p)) h e

theorem wf_wrlAt {s : State} (p : Packet) (h : Memory.wf s.mem) : Memory.wf (wrlAt p s).mem := by
  unfold wrlAt; grind [wf_serveWrite]

theorem wf_execWrl {s : State} {p} {s'} (h : Memory.wf s.mem) (e : execWrl p s = .next s') : Memory.wf s'.mem :=
  wf_arrival (fun _ => wf_atHome (wf_wrlAt p)) h e

theorem wf_atomAt {s : State} (p : Packet) (op : AtomOp) (ty : Ty) (ret : Bool) (h : Memory.wf s.mem) :
    Memory.wf (atomAt p op ty ret s).mem := by
  unfold atomAt; grind [respond_mem, wf_snoop, refuse_mem, markPoison_mem, wf_homeWrite, answerAfter_mem, wf_setCells]

theorem wf_execAtm {s : State} {p op ty} {s'} (h : Memory.wf s.mem) (e : execAtm p op ty s = .next s') :
    Memory.wf s'.mem :=
  wf_arrival (fun _ => wf_atHome (wf_atomAt p op ty true)) h e

theorem wf_execRdc {s : State} {p op ty} {s'} (h : Memory.wf s.mem) (e : execRdc p op ty s = .next s') :
    Memory.wf s'.mem :=
  wf_arrival (fun _ => wf_atHome (wf_atomAt p op ty false)) h e

theorem wf_execAmx {s : State} {p} {s'} (h : Memory.wf s.mem) (e : execAmx p s = .next s') : Memory.wf s'.mem :=
  wf_arrival (fun _ => wf_atHome (wf_atomAt p _ _ true)) h e

@[simp] theorem hailFrom_mem (s : State) (writer p : Nat) (payload : DWord) :
    (s.hailFrom writer p payload).mem = s.mem := by
  unfold State.hailFrom; grind [hail_mem]

theorem wf_ctlAt {s : State} (p : Packet) (store : Bool) (h : Memory.wf s.mem) : Memory.wf (ctlAt p store s).mem := by
  unfold ctlAt; grind [respond_mem, ack_mem, wf_setCells, hailFrom_mem, refuse_mem, wf_serveWrite, wf_snoop,
    markRead_mem]

theorem wf_execCtl {s : State} {p store} {s'} (h : Memory.wf s.mem) (e : execCtl p store s = .next s') :
    Memory.wf s'.mem :=
  wf_arrival (fun _ => wf_atHome (wf_ctlAt p store)) h e

theorem wf_vecRead {s : State} {p n} {r} (h : Memory.wf s.mem) (e : vecRead p n s = .ok r) : Memory.wf r.2.mem := by
  fun_induction vecRead generalizing r <;> grind [wf_snoop]

theorem wf_vgtAt {s : State} (p : Packet) (h : Memory.wf s.mem) : Memory.wf (vgtAt p s).mem := by
  unfold vgtAt; grind [refuse_mem, → wf_vecRead, markRead_mem, respond_mem]

theorem wf_execVgt {s : State} {p} {s'} (h : Memory.wf s.mem) (e : execVgt p s = .next s') : Memory.wf s'.mem :=
  wf_arrival (fun _ => wf_atHome (wf_vgtAt p)) h e

theorem wf_vscAt {s : State} (p : Packet) (h : Memory.wf s.mem) : Memory.wf (vscAt p s).mem := by
  unfold vscAt; grind [refuse_mem, wf_serveWrite]

theorem wf_execVsc {s : State} {p} {s'} (h : Memory.wf s.mem) (e : execVsc p s = .next s') : Memory.wf s'.mem :=
  wf_arrival (fun _ => wf_atHome (wf_vscAt p)) h e

theorem wf_execFnc {s : State} {p} {s'} (h : Memory.wf s.mem) (e : execFnc p s = .next s') : Memory.wf s'.mem :=
  wf_arrival (fun _ h => by simpa using h) h e

theorem wf_serve {s : State} (y : Settle) (h : Memory.wf s.mem) : Memory.wf (s.serve y).mem := by
  unfold State.serve; grind [State.emit_mem, wf_wrlAt, wf_atomAt, wf_ctlAt, wf_vgtAt, wf_vscAt, wf_rdlAt]

theorem wf_serveFrom {s : State} (ls : List Nat) (ls1 : List LineWait) (h : Memory.wf s.mem) :
    Memory.wf (s.serveFrom ls ls1).mem := by
  fun_induction State.serveFrom <;> grind [wf_serve]

theorem wf_settleLines {s : State} (h : Memory.wf s.mem) : Memory.wf s.settleLines.mem := by
  unfold State.settleLines; grind [wf_serveFrom]

theorem wf_resumeDies {s : State} (h : Memory.wf s.mem) : Memory.wf s.resumeDies.mem := by
  unfold State.resumeDies; grind [wf_landEnds, wf_offerHeld, foldl_mem, foldl_wf]

theorem wf_requestOver {s : State} (r : RemoteReq) (h : Memory.wf s.mem) : Memory.wf (s.requestOver r).mem := by
  unfold State.requestOver; grind [sendProbe_mem, wf_resumeDies, wf_settleLines]

theorem wf_postFailed {s : State} (k : Nat) (r : FaultRec) (h : Memory.wf s.mem) :
    Memory.wf (s.postFailed k r).mem := by
  unfold State.postFailed; grind [wf_endCheck, sendBlockRecord_mem]

@[simp] theorem dropReq_mem (s : State) (txid : Nat) : (s.dropReq txid).mem = s.mem := by
  unfold State.dropReq; grind [State.emit_mem, foldl_mem]

theorem wf_fillProxy {s : State} (line : Nat) (p : Packet) (h : Memory.wf s.mem) :
    Memory.wf (s.fillProxy line p).mem := by
  unfold State.fillProxy; grind [wf_setCells]

@[simp] theorem answered_mem (s : State) (txid : Nat) (v : DWord) : (s.answered txid v).mem = s.mem := by
  unfold State.answered; grind

theorem wf_rsdAt {s : State} (p : Packet) (h : Memory.wf s.mem) : Memory.wf (rsdAt p s).mem := by
  unfold rsdAt; grind [wf_requestOver, dropReq_mem, wf_fillProxy, answered_mem]

theorem wf_execRsd {s : State} {p} {s'} (h : Memory.wf s.mem) (e : execRsd p s = .next s') : Memory.wf s'.mem :=
  wf_arrival (fun _ => wf_rsdAt p) h e

theorem wf_rsaAt {s : State} (p : Packet) (h : Memory.wf s.mem) : Memory.wf (rsaAt p s).mem := by
  unfold rsaAt; grind [wf_endCheck, wf_requestOver, dropReq_mem, answered_mem]

theorem wf_execRsa {s : State} {p} {s'} (h : Memory.wf s.mem) (e : execRsa p s = .next s') : Memory.wf s'.mem :=
  wf_arrival (fun _ => wf_rsaAt p) h e

theorem wf_reqFailed {s : State} (txid status : Nat) (r : RemoteReq) (h : Memory.wf s.mem) :
    Memory.wf (s.reqFailed txid status r).mem := by
  unfold State.reqFailed; grind [wf_postFailed, wf_requestOver, dropReq_mem]

theorem wf_rseAt {s : State} (p : Packet) (h : Memory.wf s.mem) : Memory.wf (rseAt p s).mem := by
  unfold rseAt; grind [wf_reqFailed]

theorem wf_execRse {s : State} {p} {s'} (h : Memory.wf s.mem) (e : execRse p s = .next s') : Memory.wf s'.mem :=
  wf_arrival (fun _ => wf_rseAt p) h e

theorem wf_execRemoteTimeout {s : State} {txid} {s'} (h : Memory.wf s.mem) (e : execRemoteTimeout txid s = .next s') :
    Memory.wf s'.mem := by
  unfold execRemoteTimeout at e; grind [wf_reqFailed]

@[simp] theorem unfill_mem (s : State) (line : Nat) : (s.unfill line).mem = s.mem := by
  unfold State.unfill; grind

theorem wf_probeAt {s : State} (inv : Bool) (p : Packet) (h : Memory.wf s.mem) : Memory.wf (probeAt inv p s).mem := by
  unfold probeAt; grind [ack_mem, wf_snoop, unfill_mem, wf_dropProxy]

theorem wf_execPri {s : State} {p} {s'} (h : Memory.wf s.mem) (e : execPri p s = .next s') : Memory.wf s'.mem :=
  wf_arrival (fun _ => wf_probeAt true p) h e

theorem wf_execPrs {s : State} {p} {s'} (h : Memory.wf s.mem) (e : execPrs p s = .next s') : Memory.wf s'.mem :=
  wf_arrival (fun _ => wf_probeAt false p) h e

theorem wf_wbkAt {s : State} (p : Packet) (h : Memory.wf s.mem) : Memory.wf (wbkAt p s).mem := by
  unfold wbkAt; grind [refuse_mem, wf_serveWrite, dropHolder_mem, wf_requestOver, dropReq_mem]

theorem wf_execWbk {s : State} {p} {s'} (h : Memory.wf s.mem) (e : execWbk p s = .next s') : Memory.wf s'.mem :=
  wf_arrival (fun _ => wf_wbkAt p) h e

theorem wf_execTargetedRefresh {s : State} {stack pch row part} {s'}
    (h : Memory.wf s.mem) (e : execTargetedRefresh stack pch row part s = .next s') : Memory.wf s'.mem := by
  unfold execTargetedRefresh at e; grind [State.modDie_mem, postEvent_mem]

/-! ### Ferry images and bindings -/

theorem wf_execFerryLoad {s : State} {com dst a b c} {s'}
    (h : Memory.wf s.mem) (e : execFerryLoad com dst a b c s = .next s') : Memory.wf s'.mem :=
  wf_onceThreadNoBoot (fun g i l s h => by grind [Once.Wf, wf_holdForOp]) h e

theorem wf_readWords {s : State} {w a va n} {r} (h : Memory.wf s.mem) (e : readWords s w a va n = .ok r) :
    Memory.wf r.2.mem := by
  unfold readWords at e; grind [→ wf_dieRead, map_eq_ok]

theorem wf_readTable {s : State} {w a va} {r} (h : Memory.wf s.mem) (e : readTable s w a va = .ok r) :
    Memory.wf r.2.mem := by
  obtain ⟨rd, hrd⟩ : ∃ rd, rd = readWords := ⟨_, rfl⟩
  have hr := @wf_readWords
  generalize hf : readTable = f at e
  delta readTable at hf
  rw [← hrd] at hr hf
  subst hf
  grind [map_eq_ok]

theorem wf_readTables {s : State} {w a va hdr n} {r} (h : Memory.wf s.mem) (e : readTables s w a va hdr n = .ok r) :
    Memory.wf r.2.mem := by
  fun_induction readTables generalizing r <;> grind [→ wf_readTable, map_eq_ok]

theorem wf_readKernel {s : State} {w a va hdr job} {r}
    (h : Memory.wf s.mem) (e : readKernel s w a va hdr job = .ok r) : Memory.wf r.2.mem := by
  unfold readKernel at e; grind [→ wf_readWords, → wf_readTables, map_eq_ok]

theorem wf_loadKernel {s : State} {w a stk fc slot job va} {r} (h : Memory.wf s.mem)
    (e : loadKernel s w a stk fc slot job va = .ok r) : Memory.wf r.2.2.mem := by
  obtain ⟨rd, hrd⟩ : ∃ rd, rd = dieRead := ⟨_, rfl⟩
  have hr := @wf_dieRead
  generalize hf : loadKernel = f at e
  delta loadKernel at hf
  rw [← hrd] at hr hf
  subst hf
  grind [→ wf_readKernel]

theorem wf_execFerryImageLoadComplete {s : State} {op} {s'}
    (h : Memory.wf s.mem) (e : execFerryImageLoadComplete op s = .next s') : Memory.wf s'.mem := by
  unfold execFerryImageLoadComplete at e; grind [finishOp_mem, taken_mem, → wf_loadKernel, modFerry_mem,
    markRead_mem, request_mem]

theorem wf_execFerryBind {s : State} {com dst a b c} {s'}
    (h : Memory.wf s.mem) (e : execFerryBind com dst a b c s = .next s') : Memory.wf s'.mem :=
  wf_onceThreadNoBoot (fun g i l s h => by grind [Once.Wf, modFerry_mem]) h e

theorem wf_unbindFlow {s : State} (stk fc job flow : Nat) (h : Memory.wf s.mem) :
    Memory.wf (s.unbindFlow stk fc job flow).mem := by
  unfold State.unbindFlow; grind [wf_passOn, modFerry_mem, foldl_mem, foldl_wf]

theorem wf_execFerryUnbind {s : State} {com dst a b} {s'}
    (h : Memory.wf s.mem) (e : execFerryUnbind com dst a b s = .next s') : Memory.wf s'.mem :=
  wf_onceThreadNoBoot (fun g i l s h => by grind [Once.Wf, wf_unbindFlow]) h e

theorem wf_execFerryUnbindKern {s : State} {com dst a b} {s'}
    (h : Memory.wf s.mem) (e : execFerryUnbindKern com dst a b s = .next s') : Memory.wf s'.mem :=
  wf_onceThreadNoBoot (fun g i l s h => by grind [Once.Wf, modFerry_mem]) h e

/-! ### Partitions and power -/

theorem wf_placeRegion {s : State} (r : Nat × DWord) (h : Memory.wf s.mem) : Memory.wf (s.placeRegion r).mem := by
  unfold State.placeRegion; grind [wf_clearRange, foldl_mem, foldl_wf]

theorem wf_writeTables {s : State} (a : Nat) (h : Memory.wf s.mem) : Memory.wf (s.writeTables a).mem := by
  unfold State.writeTables; grind [wf_setCells, wf_clearRange]

theorem wf_startSteward {s : State} (p : Nat) (q : PartParams) (h : Memory.wf s.mem) :
    Memory.wf (s.startSteward p q).mem := by
  unfold State.startSteward; grind [State.putBlock_mem, wf_restoreBlock]

theorem wf_createPart {s : State} (p : Nat) (q : PartParams) (h : Memory.wf s.mem) :
    Memory.wf (s.createPart p q).mem := by
  have regions : Memory.wf (q.regions.foldl State.placeRegion s).mem := foldl_wf (fun _ r => wf_placeRegion r) _ h
  unfold State.createPart
  refine wf_startSteward p q ?_
  rw [State.putPart_mem]
  exact wf_writeTables _ regions

theorem wf_stopWork {s : State} (p : Nat) (h : Memory.wf s.mem) : Memory.wf (s.stopWork p).mem := by
  unfold State.stopWork; grind [wf_stopRuns, stopProgs_mem, foldl_mem, foldl_wf]

theorem wf_execMoor {s : State} {com dst} {s'} (h : Memory.wf s.mem) (e : execMoor com dst s = .next s') :
    Memory.wf s'.mem :=
  wf_onceThreadNoBoot (fun g i l s h => by grind [Once.Wf, → releaseWait_mem, wf_stopWork, State.putPart_mem,
    releases_mem, wf_holdForOp, State.later_mem, requestPreempt_mem]) h e

@[simp] theorem dropHolders_mem (s : State) (stk : Nat) (which : Nat → Bool) :
    (s.dropHolders stk which).mem = s.mem := by
  unfold State.dropHolders; grind [probeHolders_mem, foldl_mem]

@[simp] theorem restStack_mem (s : State) (stk : Nat) : (s.restStack stk).mem = s.mem := by
  unfold State.restStack; grind [State.modDie_mem, dropHolders_mem]

@[simp] theorem gate_mem (s : State) (x : Partition) : (s.gate x).mem = s.mem := by
  unfold State.gate; grind [dropHolders_mem, restStack_mem, foldl_mem]

theorem wf_execMoorEntryEnd {s : State} {part} {s'} (h : Memory.wf s.mem) (e : execMoorEntryEnd part s = .next s') :
    Memory.wf s'.mem := by
  unfold execMoorEntryEnd at e; grind [gate_mem, State.putPart_mem, State.later_mem]

@[simp] theorem ungate_mem (s : State) : s.ungate.mem = s.mem := by
  unfold State.ungate; grind [wakeStack_mem, foldl_mem]

theorem wf_execPartitionWake {s : State} {part} {s'} (h : Memory.wf s.mem) (e : execPartitionWake part s = .next s') :
    Memory.wf s'.mem := by
  unfold execPartitionWake at e; grind [wf_restoreBlock, ungate_mem, State.putPart_mem, refreshCands_mem,
    finishOp_mem, foldl_mem, foldl_wf]

theorem wf_execHailWrite {s : State} {writer part payload} {s'}
    (h : Memory.wf s.mem) (e : execHailWrite writer part payload s = .next s') : Memory.wf s'.mem := by
  unfold execHailWrite at e; grind [hailStore_mem]

theorem wf_execStackWakeAccess {s : State} {stack} {s'}
    (h : Memory.wf s.mem) (e : execStackWakeAccess stack s = .next s') : Memory.wf s'.mem := by
  unfold execStackWakeAccess at e; grind [wakeStack_mem]

theorem wf_execStackSelfRefresh {s : State} {stack} {s'}
    (h : Memory.wf s.mem) (e : execStackSelfRefresh stack s = .next s') : Memory.wf s'.mem := by
  unfold execStackSelfRefresh at e; grind [restStack_mem]

theorem wf_execMarginLend {s : State} {cluster dest} {s'}
    (h : Memory.wf s.mem) (e : execMarginLend cluster dest s = .next s') : Memory.wf s'.mem := by
  unfold execMarginLend at e; grind [refreshCands_mem, State.putPart_mem]

@[simp] theorem leaveCluster_mem (s : State) (p c : Nat) : (s.leaveCluster p c).mem = s.mem := by
  unfold State.leaveCluster; grind [State.modCore_mem, foldl_mem]

@[simp] theorem preemptIn_mem (s : State) (p c : Nat) : (s.preemptIn p c).mem = s.mem := by
  unfold State.preemptIn; grind [State.later_mem]

theorem wf_execMarginRevoke {s : State} {cluster} {s'}
    (h : Memory.wf s.mem) (e : execMarginRevoke cluster s = .next s') : Memory.wf s'.mem := by
  unfold execMarginRevoke at e; grind [State.putPart_mem, refreshCands_mem, leaveCluster_mem, preemptIn_mem]

theorem wf_execSharedTurnEnd {s : State} {cluster} {s'}
    (h : Memory.wf s.mem) (e : execSharedTurnEnd cluster s = .next s') : Memory.wf s'.mem := by
  unfold execSharedTurnEnd at e; grind [State.modPart_mem, refreshCands_mem, leaveCluster_mem, preemptIn_mem]

/-! ### Rungs, resets and starts -/

@[simp] theorem queueRung_mem (s : State) (p node : Nat) : (s.queueRung p node).mem = s.mem := by
  unfold State.queueRung; grind [State.putPart_mem, refreshCands_mem, rungRecord_mem]

theorem wf_execRungQueue {s : State} {part node} {s'}
    (h : Memory.wf s.mem) (e : execRungQueue part node s = .next s') : Memory.wf s'.mem := by
  unfold execRungQueue at e; grind [queueRung_mem]

theorem wf_execRungContext {s : State} {part tag} {s'}
    (h : Memory.wf s.mem) (e : execRungContext part tag s = .next s') : Memory.wf s'.mem := by
  unfold execRungContext at e; grind [wf_contextRung]

@[simp] theorem resetEntry_mem (s : State) (core e : Nat) (en : Entry) : (s.resetEntry core e en).mem = s.mem := by
  unfold State.resetEntry; grind [State.modEntry_mem, faultThread_mem, regroup_mem, foldl_mem]

theorem wf_resetUnit {s : State} (core unit : Nat) (h : Memory.wf s.mem) : Memory.wf (s.resetUnit core unit).mem := by
  unfold State.resetUnit; grind [resetEntry_mem, wf_cancelHead, State.modCore_mem, foldl_mem, foldl_wf]

@[simp] theorem resetFerry_mem (s : State) (stk fc : Nat) : (s.resetFerry stk fc).mem = s.mem := by
  unfold State.resetFerry; grind [modFerry_mem, ferryIdle_mem, faultBinding_mem, foldl_mem]

theorem wf_engineRung {s : State} (core unit : Nat) (h : Memory.wf s.mem) :
    Memory.wf (s.engineRung core unit).mem := by
  unfold State.engineRung; grind [resetFerry_mem, wf_stopRuns, wf_resetUnit, rungRecord_mem, foldl_mem, foldl_wf]

theorem wf_execRungEngine {s : State} {core unit} {s'}
    (h : Memory.wf s.mem) (e : execRungEngine core unit s = .next s') : Memory.wf s'.mem := by
  unfold execRungEngine at e; grind [wf_engineRung]

@[simp] theorem clearFerry_mem (s : State) (p : Nat) : (s.clearFerry p).mem = s.mem := by
  unfold State.clearFerry; grind

theorem wf_partitionRung {s : State} (p : Nat) (h : Memory.wf s.mem) : Memory.wf (s.partitionRung p).mem := by
  unfold State.partitionRung; grind [clearFerry_mem, wf_stopWork, wf_contextRung, State.modBlock_mem,
    State.modPart_mem, dropEntries_mem, rungRecord_mem, wf_startSteward, ungate_mem, foldl_mem, foldl_wf]

theorem wf_execRungPartition {s : State} {part} {s'} (h : Memory.wf s.mem) (e : execRungPartition part s = .next s') :
    Memory.wf s'.mem := by
  unfold execRungPartition at e; grind [wf_partitionRung]

theorem wf_deviceReset (s : State) : Memory.wf s.deviceReset.mem := wf_reset

theorem wf_execRungDevice {s : State} {s'} (_h : Memory.wf s.mem) (e : execRungDevice s = .next s') :
    Memory.wf s'.mem := by
  unfold execRungDevice at e; grind [wf_deviceReset]

theorem wf_applyRung {s : State} (y : Rung) (h : Memory.wf s.mem) : Memory.wf (s.applyRung y).mem := by
  unfold State.applyRung; grind [queueRung_mem, wf_contextRung, wf_engineRung, wf_partitionRung, wf_deviceReset]

@[simp] theorem reply_mem (s : State) (seq status : Nat) (body : ReplyBody) :
    (s.reply seq status body).mem = s.mem := by
  unfold State.reply; grind [State.emit_mem]

@[simp] theorem rungReply_mem (s : State) (seq : Option Nat) : (s.rungReply seq).mem = s.mem := by
  unfold State.rungReply; grind [reply_mem]

theorem wf_startRung {s : State} (r : Rung) (seq : Option Nat) (h : Memory.wf s.mem) :
    Memory.wf (s.startRung r seq).mem := by
  unfold State.startRung; grind [wf_applyRung, rungReply_mem]

theorem wf_execRungTimeout {s : State} {idx} {s'} (h : Memory.wf s.mem) (e : execRungTimeout idx s = .next s') :
    Memory.wf s'.mem := by
  unfold execRungTimeout at e; grind [rungReply_mem, wf_startRung, foldl_mem, foldl_wf]

theorem wf_execWatchdogExpire {s : State} {n cls} {s'}
    (h : Memory.wf s.mem) (e : execWatchdogExpire n cls s = .next s') : Memory.wf s'.mem := by
  unfold execWatchdogExpire at e; grind [wf_startRung]

theorem wf_execWakeBoundMissed {s : State} {part} {s'}
    (h : Memory.wf s.mem) (e : execWakeBoundMissed part s = .next s') : Memory.wf s'.mem := by
  unfold execWakeBoundMissed at e; grind [sendRecord_mem, wf_partitionRung]

@[simp] theorem resetCore_mem (s : State) (core : Nat) : (s.resetCore core).mem = s.mem := by
  unfold State.resetCore; grind [State.putCore_mem]

theorem wf_execCoreReset {s : State} {core} {s'} (h : Memory.wf s.mem) (e : execCoreReset core s = .next s') :
    Memory.wf s'.mem := by
  unfold execCoreReset at e; grind [resetCore_mem]

theorem wf_execBootThreadRelease {s : State} {core act} {s'}
    (h : Memory.wf s.mem) (e : execBootThreadRelease core act s = .next s') : Memory.wf s'.mem := by
  unfold execBootThreadRelease at e; grind [makeReady_mem, release_mem, resetCore_mem]

/-! ### The host -/

theorem wf_minimalMode {s : State} (_h : Memory.wf s.mem) : Memory.wf s.minimalMode.mem := by
  unfold State.minimalMode; grind [wf_deviceReset]

theorem wf_startFailed {s : State} (reason : Nat) (h : Memory.wf s.mem) : Memory.wf (s.startFailed reason).mem := by
  unfold State.startFailed; grind [wf_deviceReset, wf_minimalMode]

/-- A start empties memory; what it does then writes the boot code. -/
theorem wf_execDeviceStart {s : State} {u} {s'} (h : Memory.wf s.mem) (e : execDeviceStart u s = .next s') :
    Memory.wf s'.mem := by
  unfold execDeviceStart at e; dsimp only at e
  split at e
  · cases e; exact h
  · split at e
    · cases e; exact wf_startFailed _ h
    · split at e
      · cases e; exact wf_startFailed _ h
      · split at e
        · cases e; exact wf_startFailed _ h
        · cases e
          rw [foldl_mem releaseCore_mem]
          exact wf_placeBoot rfl

theorem wf_execCoreReportTimeout {s : State} {core} {s'}
    (h : Memory.wf s.mem) (e : execCoreReportTimeout core s = .next s') : Memory.wf s'.mem := by
  unfold execCoreReportTimeout at e; grind [resetCore_mem]

theorem wf_execStartFail {s : State} {reason} {s'} (h : Memory.wf s.mem) (e : execStartFail reason s = .next s') :
    Memory.wf s'.mem := by
  unfold execStartFail at e; grind [wf_startFailed]

@[simp] theorem refuseWith_mem (s : State) (status : Nat) : (s.refuseWith status).2.2.mem = s.mem := by
  unfold State.refuseWith; grind

@[simp] theorem done_mem (s : State) : s.done.2.2.mem = s.mem := by
  unfold State.done; grind

theorem wf_answer {s : State} {x : XcpHdr} {minOk : Bool} {f : State → Answer} {s' : State}
    (hf : Memory.wf s.mem → Memory.wf (f s).2.2.mem) (h : Memory.wf s.mem)
    (e : s.answer x minOk f = .next s') : Memory.wf s'.mem := by
  unfold State.answer at e; grind [reply_mem, State.emit_mem, State.refuseWith]

theorem wf_xcp {s : State} {x : XcpHdr} {minOk : Bool} {f : State → Answer} {s' : State}
    (hf : Memory.wf s.mem → Memory.wf (f s).2.2.mem) (h : Memory.wf s.mem)
    (e : s.xcp x minOk f = .next s') : Memory.wf s'.mem := by
  unfold State.xcp at e; grind [→ wf_answer]

@[simp] theorem hello_mem (s : State) (caps : BitVec 5) : (s.hello caps).2.2.mem = s.mem := by
  unfold State.hello; grind [refuseWith_mem]

theorem wf_execHello {s : State} {hdr caps} {s'} (h : Memory.wf s.mem) (e : execHello hdr caps s = .next s') :
    Memory.wf s'.mem := by
  unfold execHello at e; grind [→ wf_xcp, hello_mem, refuseWith_mem, reply_mem, State.emit_mem]

@[simp] theorem inventory_mem (s : State) : s.inventory.2.2.mem = s.mem := by
  unfold State.inventory; grind

theorem wf_execInventory {s : State} {hdr} {s'} (h : Memory.wf s.mem) (e : execInventory hdr s = .next s') :
    Memory.wf s'.mem := by
  unfold execInventory at e; grind [→ wf_xcp, inventory_mem]

@[simp] theorem startReport_mem (s : State) : s.startReport.2.2.mem = s.mem := by
  unfold State.startReport; grind

theorem wf_execStartrep {s : State} {hdr} {s'} (h : Memory.wf s.mem) (e : execStartrep hdr s = .next s') :
    Memory.wf s'.mem := by
  unfold execStartrep at e; grind [→ wf_xcp, startReport_mem]

@[simp] theorem telemetry_mem (s : State) : s.telemetry.2.2.mem = s.mem := by
  unfold State.telemetry; grind

theorem wf_execTelem {s : State} {hdr} {s'} (h : Memory.wf s.mem) (e : execTelem hdr s = .next s') :
    Memory.wf s'.mem := by
  unfold execTelem at e; grind [→ wf_xcp, telemetry_mem]

theorem wf_execPcreate {s : State} {hdr part q} {s'} (h : Memory.wf s.mem) (e : execPcreate hdr part q s = .next s') :
    Memory.wf s'.mem := by
  unfold execPcreate at e; grind [→ wf_xcp, wf_placeRegion, refuseWith_mem, done_mem, wf_createPart, foldl_mem,
    foldl_wf]

theorem wf_changePart {s : State} (p : Nat) (x : Partition) (q : PartParams) (h : Memory.wf s.mem) :
    Memory.wf (s.changePart p x q).mem := by
  unfold State.changePart; grind [wf_placeRegion, State.putPart_mem, preemptIn_mem, foldl_mem, foldl_wf]

theorem wf_execPchange {s : State} {hdr part q} {s'} (h : Memory.wf s.mem) (e : execPchange hdr part q s = .next s') :
    Memory.wf s'.mem := by
  unfold execPchange at e; grind [→ wf_xcp, refuseWith_mem, done_mem, refreshCands_mem, wf_changePart]

theorem wf_destroyPart {s : State} (p : Nat) (x : Partition) (h : Memory.wf s.mem) :
    Memory.wf (s.destroyPart p x).mem := by
  unfold State.destroyPart; grind [wf_partitionRung, preemptIn_mem, wf_invalidateAll, wf_clearRange, ungate_mem,
    dropEntries_mem, foldl_mem, foldl_wf]

theorem wf_execPdestroy {s : State} {hdr part} {s'} (h : Memory.wf s.mem) (e : execPdestroy hdr part s = .next s') :
    Memory.wf s'.mem := by
  unfold execPdestroy at e; grind [→ wf_xcp, refuseWith_mem, done_mem, wf_destroyPart]

theorem wf_mapAnswer {s : State} (p : Nat) (x : Partition) (l : List MapEntry) (h : Memory.wf s.mem) :
    Memory.wf (s.mapAnswer p x l).2.2.mem := by
  unfold State.mapAnswer; grind [refuseWith_mem, State.putPart_mem, done_mem, wf_invalidateAll, foldl_mem, foldl_wf]

theorem wf_execMap {s : State} {hdr part l} {s'} (h : Memory.wf s.mem) (e : execMap hdr part l s = .next s') :
    Memory.wf s'.mem := by
  unfold execMap at e; grind [→ wf_xcp, refuseWith_mem, wf_mapAnswer]

@[simp] theorem grant_mem (s : State) (g : JobGrant) : (s.grant g).2.2.mem = s.mem := by
  unfold State.grant; grind [refuseWith_mem, done_mem]

theorem wf_execJobgrant {s : State} {hdr g} {s'} (h : Memory.wf s.mem) (e : execJobgrant hdr g s = .next s') :
    Memory.wf s'.mem := by
  unfold execJobgrant at e; grind [→ wf_xcp, grant_mem]

theorem wf_execXcpHail {s : State} {hdr part payload} {s'}
    (h : Memory.wf s.mem) (e : execXcpHail hdr part payload s = .next s') : Memory.wf s'.mem := by
  unfold execXcpHail at e; grind [→ wf_xcp, refuseWith_mem, done_mem, hail_mem]

theorem wf_execXcpReset {s : State} {hdr rung target} {s'}
    (h : Memory.wf s.mem) (e : execXcpReset hdr rung target s = .next s') : Memory.wf s'.mem := by
  unfold execXcpReset at e; grind [→ wf_xcp, refuseWith_mem, wf_startRung]

theorem wf_execRkey {s : State} {hdr key w} {s'} (h : Memory.wf s.mem) (e : execRkey hdr key w s = .next s') :
    Memory.wf s'.mem := by
  unfold execRkey at e; grind [→ wf_xcp, done_mem, refuseWith_mem]

theorem wf_setTopology {s : State} (t : Topology) (h : Memory.wf s.mem) : Memory.wf (s.setTopology t).2.2.mem := by
  have := wf_renumber t.pkg h
  unfold State.setTopology; dsimp only
  repeat' split
  all_goals simpa

theorem wf_execTopology {s : State} {hdr t} {s'} (h : Memory.wf s.mem) (e : execTopology hdr t s = .next s') :
    Memory.wf s'.mem := by
  unfold execTopology at e; grind [→ wf_xcp, wf_setTopology]

theorem wf_execPwrcap {s : State} {hdr watts} {s'} (h : Memory.wf s.mem) (e : execPwrcap hdr watts s = .next s') :
    Memory.wf s'.mem := by
  unfold execPwrcap at e; grind [→ wf_xcp, refuseWith_mem, done_mem]

theorem wf_execAttest {s : State} {hdr nonce} {s'} (h : Memory.wf s.mem) (e : execAttest hdr nonce s = .next s') :
    Memory.wf s'.mem := by
  unfold execAttest at e; grind [→ wf_xcp, refuseWith_mem]

@[simp] theorem provision_mem (s : State) (off total : Nat) (chunk : List Byte) :
    (s.provision off total chunk).2.2.mem = s.mem := by
  unfold State.provision; grind [refuseWith_mem, done_mem, foldl_mem]

theorem wf_execFwprov {s : State} {hdr off total chunk} {s'}
    (h : Memory.wf s.mem) (e : execFwprov hdr off total chunk s = .next s') : Memory.wf s'.mem := by
  unfold execFwprov at e; grind [→ wf_xcp, provision_mem]

@[simp] theorem sendMsg_mem (s : State) (e : XcpEvent) : (s.sendMsg e).mem = s.mem := by
  unfold State.sendMsg; grind [State.emit_mem]

theorem wf_execXcpEvent {s : State} {s'} (h : Memory.wf s.mem) (e : execXcpEvent s = .next s') :
    Memory.wf s'.mem := by
  unfold execXcpEvent at e; grind [sendMsg_mem, foldl_mem, foldl_wf]

theorem wf_execXcpEventResend {s : State} {s'} (h : Memory.wf s.mem) (e : execXcpEventResend s = .next s') :
    Memory.wf s'.mem := by
  unfold execXcpEventResend at e; grind [sendMsg_mem, foldl_mem, foldl_wf]

theorem wf_execXcpEventAck {s : State} {src seq} {s'}
    (h : Memory.wf s.mem) (e : execXcpEventAck src seq s = .next s') : Memory.wf s'.mem := by
  unfold execXcpEventAck at e; grind

theorem wf_execThermalThrottle {s : State} {die celsius} {s'}
    (h : Memory.wf s.mem) (e : execThermalThrottle die celsius s = .next s') : Memory.wf s'.mem := by
  unfold execThermalThrottle at e; grind [postEvent_mem]

theorem hostWords_mem {s : State} {a spa d ls} {r} (e : hostWords a spa d ls s = .ok r) : r.mem = s.mem := by
  fun_induction hostWords generalizing r <;> grind [→ strictWrite_mem]

theorem wf_hostWrite {s : State} {p spa d} {r} (h : Memory.wf s.mem) (e : s.hostWrite p spa d = .ok r) :
    Memory.wf r.mem := by
  unfold State.hostWrite at e; dsimp only at e
  split at e
  · cases e
    refine foldl_wf (fun t c ht => ?_) _ h
    cases hc : ctlWrite t (hostActor p) c.1 c.1 c.2.toNat 1 with
    | error => exact ht
    | ok => exact wf_ctlWrite ht hc
  · grind [→ hostWords_mem, → wf_physStore, wf_writeCells, map_eq_ok]

theorem wf_hostWrites {s : State} {p ls ls1} {r} (h : Memory.wf s.mem) (e : hostWrites p ls ls1 s = .ok r) :
    Memory.wf r.mem := by
  fun_induction hostWrites generalizing r <;> grind [→ wf_hostWrite]

theorem wf_execRdmaWrite {s : State} {qp key addr data} {s'}
    (h : Memory.wf s.mem) (e : execRdmaWrite qp key addr data s = .next s') : Memory.wf s'.mem := by
  unfold execRdmaWrite at e; grind [State.emit_mem, → wf_hostWrites, request_mem, taken_mem]

theorem wf_hostRead {s : State} {p spa n} {r} (h : Memory.wf s.mem) (e : hostRead p spa n s = .ok r) :
    Memory.wf r.2.mem := by
  fun_induction hostRead generalizing r <;> grind [→ wf_physRead, map_eq_ok]

theorem wf_hostReads {s : State} {p ls} {r} (h : Memory.wf s.mem) (e : hostReads p ls s = .ok r) :
    Memory.wf r.2.mem := by
  fun_induction hostReads generalizing r <;> grind [→ wf_hostRead, map_eq_ok]

theorem wf_execRdmaRead {s : State} {qp key addr len} {s'}
    (h : Memory.wf s.mem) (e : execRdmaRead qp key addr len s = .next s') : Memory.wf s'.mem := by
  unfold execRdmaRead at e; grind [State.emit_mem, → wf_hostReads, taken_mem, request_mem, markRead_mem]

theorem wf_management {kind : Nat} {p : Packet} {f : State → State} {s s' : State}
    (hf : ∀ s, Memory.wf s.mem → Memory.wf (f s).mem) (h : Memory.wf s.mem)
    (e : management kind p f s = .next s') : Memory.wf s'.mem :=
  wf_arrival (fun s h => by grind [routerDrop_mem]) h e

@[simp] theorem manage_mem (s : State) (dpkg job imm : Nat) (data : List Byte) :
    (s.manage dpkg job imm data).mem = s.mem := by
  unfold State.manage; grind [State.emit_mem]

theorem wf_execMgxTimestampSync {s : State} {p} {s'} (h : Memory.wf s.mem) (e : execMgxTimestampSync p s = .next s') :
    Memory.wf s'.mem :=
  wf_management (fun s h => by grind) h e

theorem forwardedAnswer_mem {s : State} {type} {r} (e : s.forwardedAnswer type = some r) : r.2.2.mem = s.mem := by
  unfold State.forwardedAnswer at e; grind [inventory_mem, startReport_mem, telemetry_mem, refuseWith_mem]

theorem wf_execMgxXcpForward {s : State} {p} {s'} (h : Memory.wf s.mem) (e : execMgxXcpForward p s = .next s') :
    Memory.wf s'.mem :=
  wf_management (fun s h => by grind [State.emit_mem, manage_mem, reply_mem, → forwardedAnswer_mem]) h e

theorem wf_execMgxJobGrantCheck {s : State} {p} {s'} (h : Memory.wf s.mem) (e : execMgxJobGrantCheck p s = .next s') :
    Memory.wf s'.mem :=
  wf_management (fun s h => by grind [manage_mem]) h e

/-! ### Management packets and links -/

theorem wf_deliver {s : State} {p} {s'} (h : Memory.wf s.mem) (e : s.deliver p = .next s') : Memory.wf s'.mem := by
  have hid : ∀ {op}, arrival op p id s = .next s' → Memory.wf s'.mem := wf_arrival (fun _ h => h) h
  unfold State.deliver at e
  split at e
  · exact wf_execWrl h e
  · exact hid e
  · exact hid e
  · exact wf_execAmx h e
  · exact wf_execCtl h e
  · exact wf_execVgt h e
  · exact wf_execVsc h e
  · exact wf_execFnc h e
  · exact wf_execRsd h e
  · exact wf_execRsa h e
  · exact wf_execRse h e
  · exact wf_execPri h e
  · exact wf_execPrs h e
  · exact wf_execWbk h e
  · split at e
    · exact wf_execClf h e
    · exact hid e
  · split at e
    · exact wf_execMgxXcpForward h e
    · exact wf_execMgxJobGrantCheck h e
    · exact wf_execMgxTimestampSync h e
  · exact wf_execRdl h e

@[simp] theorem modLink_mem (s : State) (n : Nat) (f : LinkState → LinkState) : (s.modLink n f).mem = s.mem := by
  unfold State.modLink; grind

theorem wf_acceptFlit {s : State} {n flit} {s'} (h : Memory.wf s.mem) (e : s.acceptFlit n flit = .next s') :
    Memory.wf s'.mem := by
  unfold State.acceptFlit at e; grind [modLink_mem, → wf_deliver]

theorem wf_execFlitCrcReplay {s : State} {link flit} {s'}
    (h : Memory.wf s.mem) (e : execFlitCrcReplay link flit s = .next s') : Memory.wf s'.mem := by
  unfold execFlitCrcReplay at e; grind [→ wf_acceptFlit, State.emit_mem]

@[simp] theorem refuseFrame_mem (s : State) (port : Nat) : (s.refuseFrame port).mem = s.mem := by
  unfold State.refuseFrame; grind [State.emit_mem, modLink_mem]

theorem wf_execStrelarFrameReceive {s : State} {port frame} {s'}
    (h : Memory.wf s.mem) (e : execStrelarFrameReceive port frame s = .next s') : Memory.wf s'.mem := by
  unfold execStrelarFrameReceive at e; grind [refuseFrame_mem, modLink_mem, → wf_acceptFlit]

theorem wf_execStrelarRetrain {s : State} {port lanes} {s'}
    (h : Memory.wf s.mem) (e : execStrelarRetrain port lanes s = .next s') : Memory.wf s'.mem := by
  unfold execStrelarRetrain at e; grind [modLink_mem]

/-! ### Agents -/

@[simp] theorem tickFrom_mem (s t : State) : (s.tickFrom t).mem = t.mem := rfl

theorem wf_thenDo {r : Res} {f : State → State} {s' : State}
    (hr : ∀ s, r = .next s → Memory.wf s.mem) (hf : ∀ s, (f s).mem = s.mem) (e : Res.thenDo r f = .next s') :
    Memory.wf s'.mem := by
  unfold Res.thenDo at e; grind

@[simp] theorem nbRefocus_mem (s : State) (stk unit : Nat) : (s.nbRefocus stk unit).mem = s.mem := by
  unfold State.nbRefocus; grind

/-- What an agent does keeps memory in its canonical form. -/
def Act.KeepsWf (f : Act) : Prop := ∀ s s', Memory.wf s.mem → f s = .next s' → Memory.wf s'.mem

/-- Every action of a list keeps memory in its canonical form. -/
def ActsKeepWf (l : List Act) : Prop := ∀ f ∈ l, f.KeepsWf

@[simp] theorem actsKeepWf_nil : ActsKeepWf [] := by simp [ActsKeepWf]

@[simp] theorem actsKeepWf_cons {f : Act} {l : List Act} : ActsKeepWf (f :: l) ↔ f.KeepsWf ∧ ActsKeepWf l := by
  simp [ActsKeepWf]

@[simp] theorem actsKeepWf_append {l m : List Act} : ActsKeepWf (l ++ m) ↔ ActsKeepWf l ∧ ActsKeepWf m := by
  simp [ActsKeepWf, or_imp, forall_and]

theorem actsKeepWf_flatten {α : Type} {f : α → List Act} {l : List α} (h : ∀ x, ActsKeepWf (f x)) :
    ActsKeepWf (l.map f).flatten := by
  intro a ha
  simp only [List.mem_flatten, List.mem_map] at ha
  obtain ⟨_, ⟨x, _, rfl⟩, ha⟩ := ha
  exact h x a ha

theorem actsKeepWf_map {α : Type} {f : α → Act} {l : List α} (h : ∀ x, (f x).KeepsWf) : ActsKeepWf (l.map f) := by
  intro a ha
  obtain ⟨x, _, rfl⟩ := List.mem_map.1 ha
  exact h x

theorem core_acts_keepWf (c : Nat) (x : Core) : ActsKeepWf (Core.acts c x) := by
  have each : ∀ e : Nat × Entry, ActsKeepWf [execEntrySwap c e.1, execEntryEvict c e.1, execPendingCheck c e.1] :=
    fun e => by simpa using ⟨fun _ _ => wf_execEntrySwap, fun _ _ => wf_execEntryEvict, fun _ _ =>
      wf_execPendingCheck⟩
  simpa [Core.acts] using ⟨fun _ _ => wf_execEntryFill, fun _ _ => wf_execIssueSelect, fun _ _ => wf_execEntryPromote,
    fun _ _ => wf_execDemotionMark, fun _ _ => wf_execMatrixOpComplete, actsKeepWf_flatten each⟩

theorem blockCore_acts_keepWf (k : Nat) (c : BlockCore) : ActsKeepWf (c.acts k) := by
  have each : ∀ tl : Nat, ActsKeepWf [execCopyWriteGroup c.core k tl, execEngineOpComplete c.core k tl,
      execEngineOpPark c.core k tl, execEngineOpCancel c.core k tl] := fun tl => by
    simpa using ⟨fun _ _ => wf_execCopyWriteGroup, fun _ _ => wf_execEngineOpComplete, fun _ _ => wf_execEngineOpPark,
      fun _ _ => wf_execEngineOpCancel⟩
  simpa [BlockCore.acts] using ⟨fun _ _ => wf_execRegionEntryRun, fun _ _ => wf_execTblLoadComplete,
    actsKeepWf_flatten each⟩

theorem blockActs_keepWf (s : State) (k : Nat) (b : Block) : ActsKeepWf (s.blockActs k b) := by
  unfold State.blockActs
  rw [actsKeepWf_append]
  refine ⟨actsKeepWf_flatten fun c => blockCore_acts_keepWf k c.2, ?_⟩
  repeat' split
  all_goals simp only [actsKeepWf_cons, actsKeepWf_nil, and_true]
  · exact fun _ _ => wf_execBlockQuiesceSave
  · exact fun _ _ => wf_execBlockRestore
  · exact fun _ _ => wf_execMigration

theorem partActs_keepWf (s : State) (p : Nat) (x : Partition) : ActsKeepWf (s.partActs p x) := by
  unfold State.partActs
  simp only [actsKeepWf_append, actsKeepWf_cons, actsKeepWf_nil, and_true]
  refine ⟨⟨⟨⟨⟨?grids, ?replays⟩, ?rings⟩, ?loads⟩, ?progs⟩, fun _ _ => wf_execMoorEntryEnd,
    fun _ _ => wf_execPartitionWake, fun _ _ => wf_execWakeBoundMissed⟩
  case grids =>
    refine actsKeepWf_flatten fun g => ?_
    simp only [actsKeepWf_append, actsKeepWf_cons, actsKeepWf_nil, and_true]
    refine ⟨⟨fun _ _ => wf_execDependenceRead, fun _ _ => wf_execGridComplete, fun _ _ => wf_execCandidateProtect,
      fun _ _ => wf_execRotation⟩, ?_⟩
    split
    · simp only [actsKeepWf_cons, actsKeepWf_nil, and_true]
      exact fun _ _ => wf_execBlockAdmit
    · exact actsKeepWf_nil
  case replays =>
    exact actsKeepWf_flatten fun k => by
      simpa using ⟨fun _ _ => wf_execGraphReplayRelease, fun _ _ => wf_execGraphReplayComplete⟩
  case rings =>
    exact actsKeepWf_flatten fun r => by simpa using ⟨fun _ _ => wf_execRecordWrite, fun _ _ => wf_execRingConsPoll⟩
  case loads =>
    exact actsKeepWf_flatten fun o => actsKeepWf_map fun k => fun _ _ => wf_execNbImageLoadComplete
  case progs =>
    refine actsKeepWf_flatten fun q => ?_
    simp only [actsKeepWf_append, actsKeepWf_cons, actsKeepWf_nil, and_true]
    exact ⟨⟨fun _ _ => wf_execCollTimeout, fun _ _ => wf_execCollProgramComplete⟩,
      actsKeepWf_map fun k => fun _ _ => wf_execCollLegStart⟩

theorem nbUnit_acts_keepWf (stk unit : Nat) : ActsKeepWf (NbUnit.acts stk unit) := by
  simpa [NbUnit.acts] using ⟨fun _ _ => wf_execNbRunStart, fun _ _ => wf_execNbRowStep, fun _ _ => wf_execNbResume,
    fun _ _ => wf_execNbForcedStep, fun s s' h e => by cases e; simpa using h⟩

theorem baseDie_acts_keepWf (k : Nat) (d : BaseDie) : ActsKeepWf (d.acts k) := by
  unfold BaseDie.acts
  simp only [actsKeepWf_append, actsKeepWf_cons, actsKeepWf_nil, and_true]
  exact ⟨⟨actsKeepWf_map fun c => fun _ _ => wf_execFerryInvoke, actsKeepWf_flatten fun u => nbUnit_acts_keepWf k
    u.1⟩,
    fun _ _ => wf_execClfHoldExpire, fun _ _ => wf_execStackSelfRefresh⟩

theorem pkgOp_acts_keepWf (n : Nat) : ActsKeepWf (PkgOp.acts n) := by
  simpa [PkgOp.acts] using ⟨fun _ _ => wf_execFerryImageLoadComplete, fun _ _ => wf_execTlbiComplete,
    fun _ _ => wf_execScrubComplete, fun _ _ => wf_execHarvestComplete⟩

theorem clusterActs_keepWf (s : State) (p : Nat) (x : Partition) : ActsKeepWf (s.clusterActs p x) := by
  have revokes : ∀ l : List Lent, ActsKeepWf (l.map fun l => execMarginRevoke l.cluster) := fun l =>
    actsKeepWf_map fun _ _ _ => wf_execMarginRevoke
  unfold State.clusterActs
  simp only [actsKeepWf_append]
  refine ⟨⟨actsKeepWf_flatten fun c => actsKeepWf_map fun q => fun _ _ => wf_execMarginLend, ?_⟩,
    actsKeepWf_map fun c => fun _ _ => wf_execSharedTurnEnd⟩
  split <;> exact revokes _

theorem watchActs_keepWf (s : State) : ActsKeepWf s.watchActs := by
  unfold State.watchActs
  simp only [actsKeepWf_append]
  have expire : ∀ c u, Act.KeepsWf (execWatchdogExpire c u) := fun c u _ _ => wf_execWatchdogExpire
  refine ⟨actsKeepWf_flatten fun c => actsKeepWf_map fun u => expire _ _, actsKeepWf_flatten fun d => ?_⟩
  rw [actsKeepWf_append]
  exact ⟨actsKeepWf_map fun f => expire _ _, actsKeepWf_map fun u => expire _ _⟩

theorem harbourActs_keepWf (s : State) : ActsKeepWf s.harbourActs := by
  unfold State.harbourActs
  simp only [actsKeepWf_append, actsKeepWf_cons, actsKeepWf_nil, and_true]
  exact ⟨⟨⟨⟨fun _ _ => wf_execDeviceStart, fun _ _ => wf_execXcpEvent, fun _ _ => wf_execXcpEventResend,
    fun _ _ => wf_execStartFail⟩, actsKeepWf_map fun k => fun _ _ => wf_execRungTimeout⟩,
    actsKeepWf_map fun c => fun _ _ => wf_execCoreReportTimeout⟩, actsKeepWf_map fun r => fun _ _ =>
      wf_execRemoteTimeout⟩

theorem acts_keepWf (s : State) : ActsKeepWf s.acts := by
  unfold State.acts
  simp only [actsKeepWf_append]
  exact ⟨⟨⟨⟨⟨⟨actsKeepWf_flatten fun c => core_acts_keepWf c.1 c.2, actsKeepWf_flatten fun b => blockActs_keepWf s
    b.1 b.2⟩,
    actsKeepWf_flatten fun p => by
      rw [actsKeepWf_append]; exact ⟨partActs_keepWf s p.1 p.2, clusterActs_keepWf s p.1 p.2⟩⟩,
    actsKeepWf_flatten fun d => baseDie_acts_keepWf d.1 d.2⟩, actsKeepWf_flatten fun o => pkgOp_acts_keepWf o.1⟩,
    watchActs_keepWf s⟩, harbourActs_keepWf s⟩

theorem wf_actNext {s s' : State} (h : Memory.wf s.mem) (e : s.actNext = .next s') : Memory.wf s'.mem := by
  unfold State.actNext at e
  split at e
  next f hf =>
    exact wf_thenDo (fun t => acts_keepWf s f (List.mem_of_getElem? hf) s t h) (fun t => by split <;> simp) e
  · cases e; exact h

/-! ### Control instructions -/

theorem wf_execFiller {s : State} {s'} (h : Memory.wf s.mem) (e : execFiller s = .next s') : Memory.wf s'.mem := by
  unfold execFiller at e; grind [→ finish_mem, passInstr_mem]

theorem wf_execNop {s : State} {s'} (h : Memory.wf s.mem) (e : execNop s = .next s') : Memory.wf s'.mem := by
  unfold execNop at e; grind [→ finish_mem, closeChain_mem, advance_mem]

theorem transfer_mem {s : State} {g i target link} {r} (e : transfer g i target link s = .ok r) :
    r.1.mem = s.mem := by
  unfold transfer at e; grind [State.modThread_mem]

theorem wf_execBra {s : State} {com off} {s'} (h : Memory.wf s.mem) (e : execBra com off s = .next s') :
    Memory.wf s'.mem :=
  wf_eachThread (fun g i l s r h e => by grind [→ transfer_mem]) h e

theorem wf_execJmp {s : State} {com target} {s'} (h : Memory.wf s.mem) (e : execJmp com target s = .next s') :
    Memory.wf s'.mem :=
  wf_eachThread (fun g i l s r h e => by grind [→ transfer_mem]) h e

theorem wf_execBrx {s : State} {com a} {s'} (h : Memory.wf s.mem) (e : execBrx com a s = .next s') :
    Memory.wf s'.mem :=
  wf_eachThread (fun g i l s r h e => by grind [→ transfer_mem]) h e

theorem wf_execCall {s : State} {com link off} {s'} (h : Memory.wf s.mem) (e : execCall com link off s = .next s') :
    Memory.wf s'.mem :=
  wf_eachThread (fun g i l s r h e => by grind [→ transfer_mem]) h e

theorem wf_execCallr {s : State} {com link a} {s'} (h : Memory.wf s.mem) (e : execCallr com link a s = .next s') :
    Memory.wf s'.mem :=
  wf_eachThread (fun g i l s r h e => by grind [→ transfer_mem]) h e

theorem wf_execRet {s : State} {com a} {s'} (h : Memory.wf s.mem) (e : execRet com a s = .next s') :
    Memory.wf s'.mem :=
  wf_eachThread (fun g i l s r h e => by grind [→ transfer_mem]) h e

@[simp] theorem toPending_mem (s : State) (g : Grp) : (toPending s g).mem = s.mem := by
  unfold toPending; grind [makePending_mem]

theorem wf_execYield {s : State} {com} {s'} (h : Memory.wf s.mem) (e : execYield com s = .next s') :
    Memory.wf s'.mem := by
  unfold execYield at e; grind [prepare_mem, closeChain_mem, → finish_mem, toPending_mem]

/-! ### Shifts -/

theorem wf_shiftOp {ins : Instr} {x : Vec1} {c : ShiftCount} {f : Nat → Nat → Nat → Nat} {s s' : State}
    (h : Memory.wf s.mem) (e : shiftOp ins x c f s = .next s') : Memory.wf s'.mem := by
  cases c with
  | simm k => exact wf_execVec h e
  | op o => exact wf_execVec h e

/-! ### What an instruction does -/

theorem wf_execFfma {s : State} {x m} {s'} (h : Memory.wf s.mem) (e : execFfma x m s = .next s') :
    Memory.wf s'.mem := by
  cases hi : x.imm with
  | none => simp only [execFfma, hi] at e; exact wf_execVec h e
  | some w => simp only [execFfma, hi] at e; exact wf_execVec h e

theorem wf_exec {s : State} {i} {s'} (h : Memory.wf s.mem) (e : exec i s = .next s') : Memory.wf s'.mem := by
  cases i with
  | coreReleaseFromReset => exact wf_execCoreReleaseFromReset h e
  | nop => exact wf_execNop h e
  | filler => exact wf_execFiller h e
  | bra => exact wf_execBra h e
  | jmp => exact wf_execJmp h e
  | brx => exact wf_execBrx h e
  | call => exact wf_execCall h e
  | callr => exact wf_execCallr h e
  | ret => exact wf_execRet h e
  | exit => exact wf_execExit h e
  | yield => exact wf_execYield h e
  | halt => exact wf_execHalt h e
  | add | sub | addc | subb | mul | mulh | mad | div | rem | min | max | abs | neg | and | or | xor | not
  | andn | funnel | clz | ctz | popc | brev | bfx | bfi | sel | cmp | lea | leah | swin | plut | pmovGet
  | pmovSet | mov | movi | bsel | fadd | fsub | fmul | fmin | fmax | fcmp | fclass | fscale | frnd | cvt | pack
  | unpack | bscale | pairP96 | ddot | dham | dl2 => exact wf_execVec h e
  | shl | shr | sra | rot => exact wf_shiftOp h e
  | movsReadWp => exact wf_execMovsReadWp h e
  | movsReadTc => exact wf_execMovsReadTc h e
  | movsWriteTc => exact wf_execMovsWriteTc h e
  | csrr => exact wf_execCsrr h e
  | csrw => exact wf_execCsrw h e
  | csrwSet => exact wf_execCsrwSet h e
  | csrwClr => exact wf_execCsrwClr h e
  | ffma => exact wf_execFfma h e
  | tblLoad => exact wf_execTblLoad h e
  | tblLoadComplete => exact wf_execTblLoadComplete h e
  | tblCommit => exact wf_execTblCommit h e
  | tblEval => exact wf_execTblEval h e
  | tblQuery => exact wf_execTblQuery h e
  | tblDrop => exact wf_execTblDrop h e
  | entryFill => exact wf_execEntryFill h e
  | issueSelect => exact wf_execIssueSelect h e
  | entryPromote => exact wf_execEntryPromote h e
  | entryEvict => exact wf_execEntryEvict h e
  | shfl | vote | matchKey | sred | sscan | ssync => exact wf_squadExec h e
  | selInit => exact wf_execSelInit h e
  | selPush => exact wf_execSelPush h e
  | selDrain => exact wf_execSelDrain h e
  | tcfg => exact wf_execTcfg h e
  | tzero => exact wf_execTzero h e
  | tld => exact wf_execTld h e
  | tst => exact wf_execTst h e
  | mma => exact wf_execMma h e
  | mmat => exact wf_execMmat h e
  | mmap => exact wf_execMmap h e
  | trow => exact wf_execTrow h e
  | tchk => exact wf_execTchk h e
  | matrixOpComplete => exact wf_execMatrixOpComplete h e
  | ld => exact wf_memIssue (wf_ldWork _ _ _ _ _ _) h e
  | st => exact wf_memIssue (wf_storeWork _ _ _ _ _) h e
  | ldg => exact wf_memIssueNoBoot (wf_ldgWork _ _ _ _ _) h e
  | sct => exact wf_memIssueNoBoot (wf_sctWork _ _ _ _) h e
  | atom => exact wf_memIssue (wf_atomUseWork _ _ _ _ _ _ _) h e
  | red | amaxsw => exact wf_memIssue (wf_atomWork _ _ _ _ _ _ _) h e
  | pendingCheck => exact wf_execPendingCheck h e
  | fence => exact wf_execFence h e
  | cctlIi => exact wf_execCctlIi h e
  | cctlEv => exact wf_execCctlEv h e
  | pref => exact wf_execPref h e
  | stashMap => exact wf_execStashMap h e
  | stashMapUn => exact wf_execStashMapUn h e
  | stashSync => exact wf_execStashSync h e
  | stashFill => exact wf_execStashFill h e
  | racew => exact wf_execRacew h e
  | copy => exact wf_execCopy h e
  | copyt => exact wf_execCopyt h e
  | copyg => exact wf_execCopyg h e
  | copyWriteGroup => exact wf_execCopyWriteGroup h e
  | engineOpComplete => exact wf_execEngineOpComplete h e
  | engineOpPark => exact wf_execEngineOpPark h e
  | engineOpCancel => exact wf_execEngineOpCancel h e
  | regionEntryRun => exact wf_execRegionEntryRun h e
  | stage => exact wf_execStage h e
  | barInit => exact wf_execBarInit h e
  | barArrive => exact wf_execBarArrive h e
  | barExpect => exact wf_execBarExpect h e
  | barWait => exact wf_execBarWait h e
  | barTest => exact wf_execBarTest h e
  | tlwait => exact wf_execTlwait h e
  | tlread => exact wf_execTlread h e
  | tlsig => exact wf_execTlsig h e
  | waitm => exact wf_execWaitm h e
  | launch => exact wf_execLaunch h e
  | graphRun => exact wf_execGraphRun h e
  | graphPatch => exact wf_execGraphPatch h e
  | graphReplayRelease => exact wf_execGraphReplayRelease h e
  | graphReplayComplete => exact wf_execGraphReplayComplete h e
  | dependenceRead => exact wf_execDependenceRead h e
  | blockAdmit => exact wf_execBlockAdmit h e
  | gridComplete => exact wf_execGridComplete h e
  | collStart => exact wf_execCollStart h e
  | nbLoad => exact wf_execNbLoad h e
  | nbRun => exact wf_execNbRun h e
  | ferryLoad => exact wf_execFerryLoad h e
  | ferryBind => exact wf_execFerryBind h e
  | ferryUnbind => exact wf_execFerryUnbind h e
  | ferryUnbindKern => exact wf_execFerryUnbindKern h e
  | trap => exact wf_execTrap h e
  | tretRep => exact wf_execTretRep h e
  | tretSkip => exact wf_execTretSkip h e
  | tretKill => exact wf_execTretKill h e
  | tretCan => exact wf_execTretCan h e
  | tretKillb => exact wf_execTretKillb h e
  | tretPre => exact wf_execTretPre h e
  | moor => exact wf_execMoor h e
  | tlbiVa => exact wf_execTlbiVa h e
  | tlbiAll => exact wf_execTlbiAll h e
  | harvest => exact wf_execHarvest h e
  | scrub => exact wf_execScrub h e
  | evpost => exact wf_execEvpost h e
  | recordWrite => exact wf_execRecordWrite h e
  | ringConsPoll => exact wf_execRingConsPoll h e
  | preemptRequest => exact wf_execPreemptRequest h e
  | blockQuiesceSave => exact wf_execBlockQuiesceSave h e
  | blockRestore => exact wf_execBlockRestore h e
  | rungDevice => exact wf_execRungDevice h e
  | clf => exact wf_execClf h e
  | ferryInvoke => exact wf_execFerryInvoke h e
  | vadd | vsub | vmul | vfma | vmin | vmax | vand | vor | vxor | vshl | vshr | vcvt =>
    dsimp only [exec] at e
    exact wf_ferryVec h e
  | sadd | ssub | sand | sor | sshl | sshr =>
    dsimp only [exec] at e
    exact wf_ferryScalar h e
  | vsel | vcmp | vbcast | vred | smovi | rep | pset =>
    dsimp only [exec] at e
    exact wf_ferryNext h e
  | br | brm =>
    dsimp only [exec] at e
    exact wf_ferryBranch h e
  | feval | ftrap | fwd | drop | emit | pld | pst | sld | sst =>
    dsimp only [exec] at e
    exact wf_ferryWord h e
  | nbRunStart => exact wf_execNbRunStart h e
  | nbRowStep => exact wf_execNbRowStep h e
  | nbResume => exact wf_execNbResume h e
  | nbForcedStep => exact wf_execNbForcedStep h e
  | nbImageLoadComplete => exact wf_execNbImageLoadComplete h e
  | nbnop | nbzero | nbadd | nbsub | nbmul | nbfma | nbmin | nbmax | nbfold => exact wf_nbWord (wf_nbPure _) h e
  | nbld => exact wf_nbWord (wf_nbLoadEff _ _) h e
  | nbst => exact wf_nbWord (wf_nbStoreEff _ _) h e
  | nbout => exact wf_nbWord (wf_nbOutEff _ _) h e
  | collLegStart => exact wf_execCollLegStart h e
  | collTimeout => exact wf_execCollTimeout h e
  | collProgramComplete => exact wf_execCollProgramComplete h e
  | moorEntryEnd => exact wf_execMoorEntryEnd h e
  | partitionWake => exact wf_execPartitionWake h e
  | deviceStart => exact wf_execDeviceStart h e
  | xcpEvent => exact wf_execXcpEvent h e
  | xcpEventResend => exact wf_execXcpEventResend h e
  | ferryImageLoadComplete => exact wf_execFerryImageLoadComplete h e
  | tlbiComplete => exact wf_execTlbiComplete h e
  | scrubComplete => exact wf_execScrubComplete h e
  | harvestComplete => exact wf_execHarvestComplete h e
  | demotionMark => exact wf_execDemotionMark h e
  | entrySwap => exact wf_execEntrySwap h e
  | candidateProtect => exact wf_execCandidateProtect h e
  | rotation => exact wf_execRotation h e
  | migration => exact wf_execMigration h e
  | watchdogExpire => exact wf_execWatchdogExpire h e
  | rungQueue => exact wf_execRungQueue h e
  | rungContext => exact wf_execRungContext h e
  | rungEngine => exact wf_execRungEngine h e
  | rungPartition => exact wf_execRungPartition h e
  | rungTimeout => exact wf_execRungTimeout h e
  | computeDieLost => exact wf_execComputeDieLost h e
  | rdl => exact wf_execRdl h e
  | wrl => exact wf_execWrl h e
  | atm => exact wf_execAtm h e
  | rdc => exact wf_execRdc h e
  | amx => exact wf_execAmx h e
  | ctl => exact wf_execCtl h e
  | vgt => exact wf_execVgt h e
  | vsc => exact wf_execVsc h e
  | fnc => exact wf_execFnc h e
  | rsd => exact wf_execRsd h e
  | rsa => exact wf_execRsa h e
  | rse => exact wf_execRse h e
  | pri => exact wf_execPri h e
  | prs => exact wf_execPrs h e
  | wbk => exact wf_execWbk h e
  | mgxTimestampSync => exact wf_execMgxTimestampSync h e
  | mgxXcpForward => exact wf_execMgxXcpForward h e
  | mgxJobGrantCheck => exact wf_execMgxJobGrantCheck h e
  | flitCrcReplay => exact wf_execFlitCrcReplay h e
  | strelarFrameReceive => exact wf_execStrelarFrameReceive h e
  | strelarRetrain => exact wf_execStrelarRetrain h e
  | remoteTimeout => exact wf_execRemoteTimeout h e
  | targetedRefresh => exact wf_execTargetedRefresh h e
  | clfHoldExpire => exact wf_execClfHoldExpire h e
  | hailWrite => exact wf_execHailWrite h e
  | wakeBoundMissed => exact wf_execWakeBoundMissed h e
  | stackWakeAccess => exact wf_execStackWakeAccess h e
  | stackSelfRefresh => exact wf_execStackSelfRefresh h e
  | marginLend => exact wf_execMarginLend h e
  | marginRevoke => exact wf_execMarginRevoke h e
  | sharedTurnEnd => exact wf_execSharedTurnEnd h e
  | coreReportTimeout => exact wf_execCoreReportTimeout h e
  | startFail => exact wf_execStartFail h e
  | hello => exact wf_execHello h e
  | inventory => exact wf_execInventory h e
  | startrep => exact wf_execStartrep h e
  | pcreate => exact wf_execPcreate h e
  | pchange => exact wf_execPchange h e
  | pdestroy => exact wf_execPdestroy h e
  | map => exact wf_execMap h e
  | jobgrant => exact wf_execJobgrant h e
  | xcpHail => exact wf_execXcpHail h e
  | xcpReset => exact wf_execXcpReset h e
  | rkey => exact wf_execRkey h e
  | topology => exact wf_execTopology h e
  | pwrcap => exact wf_execPwrcap h e
  | telem => exact wf_execTelem h e
  | attest => exact wf_execAttest h e
  | fwprov => exact wf_execFwprov h e
  | xcpEventAck => exact wf_execXcpEventAck h e
  | rdmaWrite => exact wf_execRdmaWrite h e
  | rdmaRead => exact wf_execRdmaRead h e
  | thermalThrottle => exact wf_execThermalThrottle h e
  | bootThreadRelease => exact wf_execBootThreadRelease h e
  | coreReset => exact wf_execCoreReset h e

/-! ### Fetch and issue -/

theorem fetchPlace_mem {s : State} {g va} {r} (e : s.fetchPlace g va = .ok r) : r.2.mem = s.mem := by
  unfold State.fetchPlace at e; grind [→ translate_mem, map_eq_ok]

theorem wf_fetchBlock {s : State} {g va} {r} (h : Memory.wf s.mem) (e : s.fetchBlock g va = .ok r) :
    Memory.wf r.2.mem := by
  unfold State.fetchBlock at e; grind [→ fetchPlace_mem, → wf_physRead, State.modCore_mem]

theorem wf_fetch {s : State} {g pc} {r} (h : Memory.wf s.mem) (e : s.fetch g pc = .ok r) : Memory.wf r.2.mem := by
  unfold State.fetch at e; grind [→ wf_fetchBlock, map_eq_ok]

/-- What an issue answers carries memory in its canonical form. -/
def Issue.Wf : Issue → Prop
  | .over r => ∀ s', r = .next s' → Memory.wf s'.mem
  | .run _ s => Memory.wf s.mem

theorem wf_issue {s : State} (core e : Nat) (h : Memory.wf s.mem) : (s.issue core e).Wf := by
  unfold State.issue
  repeat' split
  all_goals
    grind [Issue.Wf, → wf_fetch, → finish_mem, → abort_mem, faultThreads_mem, advance_mem, wf_startBlock, waitFor_mem,
      boundary_mem, State.modEntry_mem]

@[simp] theorem refocus_mem (s : State) (core e : Nat) : (s.refocus core e).mem = s.mem := by
  unfold State.refocus; grind [boundary_mem, wakeAllSquads_mem]

/-! ### A step -/

theorem wf_act {s s' : State} (h : Memory.wf s.mem) (e : act s = .next s') : Memory.wf s'.mem := by
  unfold act at e
  split at e
  · exact wf_thenDo (fun t => wf_exec (by exact h)) unblock_mem e
  · split at e
    next c k _ =>
      have hi := wf_issue c k h
      split at e
      next hr => rw [hr] at hi; exact hi _ e
      next hr => rw [hr] at hi; exact wf_exec hi e
      next hr => rw [hr] at hi; exact wf_thenDo (fun t => wf_exec hi) (fun t => refocus_mem t c k) e
    · split at e
      · exact wf_exec h e
      · cases e; simpa using h
    · split at e
      · exact wf_thenDo (fun t => wf_exec h) (fun t => nbRefocus_mem t _ _) e
      · cases e; exact h
    · exact wf_actNext h e

theorem wf_step {s s' : State} (h : Memory.wf s.mem) (e : step s = .next s') : Memory.wf s'.mem :=
  wf_thenDo (fun _ => wf_act h) (fun t => tickFrom_mem s t) e

/-- Settles O60: every function of the model that answers a state keeps the canonical form. -/
theorem stepsKeepMemoryCanonical : Obligations.StepsKeepMemoryCanonical := fun _ _ => wf_step

end Sys2Proof.Machine
end

section
/-! LD and ST of a lone thread, from and to scratch and DRAM: the obligation O23. -/

namespace Sys2Proof.Claims

open Machine

variable {g : Grp} {i : Nat} {s w : State} {b : Block} {t : Thread} {x : BlockCore} {c : Com} {srcs dsts : List Src}

/-! ### The results of an instruction -/

/-- The destination `y` is no part of the destination `z`. -/
structure Apart (y z : Src) : Prop where
  v : ∀ n, namesV [y] n → ¬ namesV [z] n
  s : ∀ n, namesS [y] n → ¬ namesS [z] n
  p : ∀ n, namesP [y] n → ¬ namesP [z] n

/-- What a destination holds stays while only others change. -/
theorem holds_near {Q : State → State → Prop} {w' : State} {y z : Src} {v : DWord} (hw : Kv.find g.block w.blocks = some b)
    (ht : Kv.find i b.threads = some t) (hx : Kv.find t.bc b.cores = some x) (a : Apart y z)
    (N : Near g i t.bc [z] SregsOnly Q w w') (H : Holds w g.block i y v) : Holds w' g.block i y v := by
  obtain ⟨b', hb', nb⟩ := N.blk b hw
  obtain ⟨t', ht', nt⟩ := nb.thread t ht
  obtain ⟨x', hx', -, ns⟩ := nb.core x hx
  have hbc : t'.bc = t.bc := by rw [nt.same]
  have self : y ∈ [y] := List.mem_singleton.2 rfl
  unfold Holds at H ⊢
  simp only [thread_of_find hw ht, State.block_of_find hw, Block.bc, Kv.get_of_find hx] at H
  simp only [thread_of_find hb' ht', State.block_of_find hb', Block.bc, hbc, Kv.get_of_find hx']
  cases hy : y.1 with
  | v n =>
    simp only [hy] at H ⊢
    rw [nt.regs _ (a.v _ ⟨y, self, n, hy, .inl rfl⟩)]
    exact ⟨H.1, fun q => by rw [nt.regs _ (a.v _ ⟨y, self, n, hy, .inr ⟨q, rfl⟩⟩)]; exact H.2 q⟩
  | s n =>
    simp only [hy] at H ⊢
    rw [ns _ (a.s _ ⟨y, self, n, hy, .inl rfl⟩)]
    exact ⟨H.1, fun q => by rw [ns _ (a.s _ ⟨y, self, n, hy, .inr ⟨q, rfl⟩⟩)]; exact H.2 q⟩
  | p n =>
    simp only [hy] at H ⊢
    rw [nt.preds _ n.isLt (a.p _ ⟨y, self, n, hy, rfl⟩)]
    exact H
  | latch | special | invalid => trivial

/-- Writing results reaches their destinations only. -/
theorem near_writeAll {l : List Src} {ws : List (Src × DWord)} (hl : ∀ y ∈ ws, y.1 ∈ l)
    (hw : Kv.find g.block w.blocks = some b) (ht : Kv.find i b.threads = some t) :
    Near g i t.bc l SregsOnly Quiet w (writeAll g.block i true ws w) := by
  induction ws generalizing w b t with
  | nil => exact .refl pre_sregsOnly pre_quiet w
  | cons y ws ih =>
    have N := near_writeDst (l := l) (fun _ _ => rfl) pre_sregsOnly quiet_modBlock pre_quiet true y.2
      (hl y List.mem_cons_self) (congrArg Thread.bc (thread_of_find hw ht))
    obtain ⟨b', hb', nb⟩ := N.blk b hw
    obtain ⟨t', ht', nt⟩ := nb.thread t ht
    have hbc : t'.bc = t.bc := by rw [nt.same]
    exact N.trans pre_sregsOnly pre_quiet (hbc ▸ ih (fun z hz => hl z (List.mem_cons_of_mem _ hz)) hb' ht')

/-- Of the thread, writing results changes registers and predicates alone. -/
theorem thread_writeAll {ws : List (Src × DWord)} (hw : Kv.find g.block w.blocks = some b)
    (ht : Kv.find i b.threads = some t) :
    let u := (writeAll g.block i true ws w).thread g.block i
    u = { t with regs := u.regs, preds := u.preds } := by
  induction ws generalizing w b t with
  | nil => simp only [writeAll, thread_of_find hw ht]
  | cons y ws ih =>
    have N := near_writeDst (l := [y.1]) (fun _ _ => rfl) pre_sregsOnly quiet_modBlock pre_quiet true y.2
      List.mem_cons_self (congrArg Thread.bc (thread_of_find hw ht))
    obtain ⟨b', hb', nb⟩ := N.blk b hw
    obtain ⟨t', ht', -⟩ := nb.thread t ht
    have one := thread_writeDst hw ht true y.1 y.2
    rw [thread_of_find hb' ht'] at one
    dsimp only
    rw [writeAll, ih hb' ht', one]

/-- Results written to destinations apart from each other are held by them all. -/
theorem holdsAll_writeAll {ws : List (Src × DWord)} (ha : (ws.map Prod.fst).Pairwise Apart)
    (hw : Kv.find g.block w.blocks = some b) (ht : Kv.find i b.threads = some t) (hx : Kv.find t.bc b.cores = some x) :
    HoldsAll (writeAll g.block i true ws w) g.block i ws ∧
      ∀ y v, (∀ z ∈ ws, Apart y z.1) → Holds w g.block i y v → Holds (writeAll g.block i true ws w) g.block i y v := by
  induction ws generalizing w b t x with
  | nil => exact ⟨fun y hy => absurd hy List.not_mem_nil, fun y v _ h => h⟩
  | cons z ws ih =>
    have N := near_writeDst (l := [z.1]) (fun _ _ => rfl) pre_sregsOnly quiet_modBlock pre_quiet true z.2
      List.mem_cons_self (congrArg Thread.bc (thread_of_find hw ht))
    obtain ⟨b', hb', nb⟩ := N.blk b hw
    obtain ⟨t', ht', nt⟩ := nb.thread t ht
    obtain ⟨x', hx', -⟩ := nb.core x hx
    have hbc : t'.bc = t.bc := by rw [nt.same]
    rw [List.map_cons, List.pairwise_cons] at ha
    obtain ⟨all, keep⟩ := ih ha.2 hb' ht' (hbc ▸ hx')
    refine ⟨fun y hy => ?_, fun y v hz h => keep y v (fun u hu => hz u (List.mem_cons_of_mem _ hu))
      (holds_near hw ht hx (hz z List.mem_cons_self) N h)⟩
    rcases List.mem_cons.1 hy with rfl | hy
    · exact keep _ _ (fun u hu => ha.1 _ (List.mem_map_of_mem hu)) (holds_writeDst hw ht hx _ _)
    · exact all y hy

/-! ### A memory instruction of a lone thread -/

/-- A memory instruction that does not stay pending, on a lone thread: what its work answers for that thread. -/
theorem memIssue_can (C : CanIssue s g i b t x c srcs dsts) (hl : s.lazyMem = false) (ins : Instr) (work : Work) :
    memIssue ins (Use.plain c srcs dsts) work s =
      conclude s g (work g [(i, values s g i srcs)] (issued s g i ins srcs)) := by
  simp only [memIssue, C.alone.group, hl, Bool.false_and, Bool.false_eq_true, if_false,
    prepare_alone (u := Use.plain c srcs dsts) C.alone ins C.active rfl (Nat.zero_le _) C.readable C.writable]
  rfl

/-- What of the group's entry and block an access of memory leaves as it was: all of it but what it counts. -/
structure Keeps (g : Grp) (s w : State) : Prop where
  entry : w.entry g.core g.e = s.entry g.core g.e
  blk : ∀ b, Kv.find g.block s.blocks = some b → ∃ b', Kv.find g.block w.blocks = some b' ∧
    b'.threads = b.threads ∧ b'.cores = b.cores ∧ b'.part = b.part ∧ (b.wrote = [] → b'.wrote = [])

theorem Keeps.refl (s : State) : Keeps g s s := ⟨rfl, fun b h => ⟨b, h, rfl, rfl, rfl, id⟩⟩

theorem Keeps.trans {u : State} (h : Keeps g s w) (k : Keeps g w u) : Keeps g s u where
  entry := k.entry.trans h.entry
  blk := fun b e =>
    have ⟨b1, h1, t1, c1, p1, w1⟩ := h.blk b e
    have ⟨b2, h2, t2, c2, p2, w2⟩ := k.blk b1 h1
    ⟨b2, h2, t2.trans t1, c2.trans c1, p2.trans p1, w2 ∘ w1⟩

/-- What changes neither blocks nor cores. -/
theorem Keeps.of_eq (hb : w.blocks = s.blocks) (hc : w.cores = s.cores) : Keeps g s w :=
  ⟨by rw [State.entry, State.entry, State.core, State.core, hc], fun b h => ⟨b, by rw [hb, h], rfl, rfl, rfl, id⟩⟩

/-- What counts something of a block. -/
theorem Keeps.modBlock (s : State) (k : Nat) {f : Block → Block} (ht : ∀ b, (f b).threads = b.threads)
    (hc : ∀ b, (f b).cores = b.cores) (hp : ∀ b, (f b).part = b.part) (hw : ∀ b, b.wrote = [] → (f b).wrote = []) :
    Keeps g s (s.modBlock k f) := by
  refine ⟨rfl, fun b h => ?_⟩
  by_cases e : g.block = k
  · subst e
    exact ⟨f b, by rw [State.find_modBlock_self, h]; rfl, ht b, hc b, hp b, hw b⟩
  · exact ⟨b, by rw [s.find_modBlock_ne e f, h], rfl, rfl, rfl, id⟩

/-- What a destination holds is a matter of the blocks. -/
theorem holds_blocks {s' : State} {k : Nat} {y : Src} {v : DWord} (h : s'.blocks = s.blocks) (H : Holds s k i y v) :
    Holds s' k i y v := by
  have hb : s'.block k = s.block k := by rw [State.block, State.block, h]
  have ht : s'.thread k i = s.thread k i := by rw [State.thread, State.thread, hb]
  exact holds_congr (by rw [ht]) (by rw [ht]) (by rw [ht]) (by rw [hb]) H

/-- A lone thread's instruction is over, in a state `w` that keeps the threads of its block, its entry, and the uniform
registers: the thread has gone past it and holds its results. -/
theorem passed_completed (A : Alone s g i b t x) {ins : Instr} {bw : Block} {xw : BlockCore} {ws : List (Src × DWord)}
    (he : w.entry g.core g.e = (issued s g i ins srcs).entry g.core g.e) (hb : Kv.find g.block w.blocks = some bw)
    (hth : bw.threads = ((issued s g i ins srcs).block g.block).threads) (hx : Kv.find t.bc bw.cores = some xw)
    (hs : xw.sregs = x.sregs) (hd : ws.map Prod.fst = dsts) :
    Passed (completed w g i ws) g i b t x ins dsts ∧ (completed w g i ws).mem = w.mem ∧
      (∀ j, (((completed w g i ws).block g.block).bc j).scratch = (bw.bc j).scratch) ∧
      (dsts.Pairwise Apart → HoldsAll (completed w g i ws) g.block i ws) := by
  have N0 : Near g i t.bc [] SregsOnly Quiet s (issued s g i ins srcs) :=
    near_issued A pre_sregsOnly pre_quiet quiet_modBlock quiet_modCore ins srcs
  obtain ⟨⟨en, hen, hk, hm⟩, -⟩ := A.entry
  obtain ⟨en0, hen0, hk0, hm0⟩ := N0.entry en hen
  obtain ⟨b0, hb0, nb0⟩ := N0.blk b A.block
  obtain ⟨t0, ht0, -⟩ := nb0.thread t A.thread
  have own0 := issued_eq A ins srcs
  rw [thread_of_find hb0 ht0] at own0
  rw [State.block_of_find hb0] at hth
  have htw : Kv.find i bw.threads = some t0 := by rw [hth, ht0]
  have hbc : t0.bc = t.bc := by rw [own0]
  have mem_dsts : ∀ y ∈ ws, y.1 ∈ dsts := fun y hy => hd ▸ List.mem_map_of_mem hy
  have N1 := near_writeAll mem_dsts hb htw
  have own1 := thread_writeAll (ws := ws) hb htw
  obtain ⟨b1, hb1, nb1⟩ := N1.blk bw hb
  obtain ⟨t1, ht1, nt1⟩ := nb1.thread t0 htw
  obtain ⟨x1, hx1, so1, ns1⟩ := nb1.core xw (hbc ▸ hx)
  obtain ⟨en1, hen1, hk1, hm1⟩ := N1.entry en0 (he.trans hen0)
  dsimp only at own1
  rw [thread_of_find hb1 ht1] at own1
  have ready : t1.stat = .ready := by rw [own1, own0]; exact A.ready
  have hre : completed w g i ws = ((writeAll g.block i true ws w).taken g.core g.e).modEntry g.core g.e
      fun en => { en with members := [i] } :=
    regroup_alone hen1 ((hm1.trans hm0).trans hm) (by rw [hk1, hk0, hk]; exact hb1) ht1 ready
  have blocks : (completed w g i ws).blocks = (writeAll g.block i true ws w).blocks := by rw [hre]; rfl
  have hb2 : Kv.find g.block (completed w g i ws).blocks = some b1 := by rw [blocks, hb1]
  have other : ∀ j ≠ t.bc, b1.bc j = bw.bc j := fun j hj => by
    rw [Block.bc, Block.bc, Kv.get_eq_find, Kv.get_eq_find, nb1.cores j (hbc ▸ hj)]
  have mine : b1.bc t.bc = x1 := Kv.get_of_find (hbc ▸ hx1)
  refine ⟨⟨?own, fun j hj => ?others⟩, ?mem, fun j => ?scratch, fun ha y hy => ?holds⟩
  case own =>
    have ht2 : (completed w g i ws).thread g.block i = t1 := thread_of_find hb2 ht1
    constructor
    · rw [ht2, own1, own0]
    · rw [ht2, ready]
    · rw [ht2, own1, own0]
    · intro n hn; rw [ht2, nt1.regs n hn, own0]; rfl
    · intro n h8 hn; rw [ht2, nt1.preds n h8 hn, own0]; rfl
    · intro n hn
      rw [State.block_of_find hb2, mine, ns1 n hn, BlockCore.sreg, hs]
      rfl
  case others =>
    rw [State.block_of_find hb2, Block.thread, Kv.get_eq_find, nb1.threads j hj, hth, nb0.threads j hj,
      ← Kv.get_eq_find]
    rfl
  case mem =>
    rw [hre]
    simp
  case scratch =>
    rw [State.block_of_find hb2]
    by_cases hj : j = t.bc
    · rw [hj, mine, so1, Block.bc, Kv.get_of_find hx]
    · rw [other j hj]
  case holds =>
    exact holds_blocks blocks ((holdsAll_writeAll (hd ▸ ha) hb htw (hbc ▸ hx)).1 y hy)

/-! ### What an access changes on its way -/

/-- On its way to memory an access changes no more than TLBs and counts of blocks. -/
structure Aside (g : Grp) (s w : State) : Prop where
  same : w = { s with blocks := w.blocks, cores := w.cores, clusterTlbs := w.clusterTlbs, nestedTlbs := w.nestedTlbs }
  stash : w.stashPages = s.stashPages
  keeps : Keeps g s w

theorem Aside.refl (s : State) : Aside g s s := ⟨rfl, rfl, .refl s⟩

theorem Aside.trans {u : State} (h : Aside g s w) (k : Aside g w u) : Aside g s u :=
  ⟨by rw [k.same, h.same], k.stash.trans h.stash, h.keeps.trans k.keeps⟩

theorem stashPages_modBlock (s : State) (k : Nat) {f : Block → Block} (hc : ∀ b, (f b).cores = b.cores) :
    (s.modBlock k f).stashPages = s.stashPages := by
  unfold State.stashPages State.modBlock
  dsimp only
  induction s.blocks with
  | nil => rfl
  | cons x l ih =>
    rw [Kv.modify]
    split
    · simp only [List.map_cons, hc]
    · simp only [List.map_cons, List.flatten_cons, ih]

/-- What counts something of a block. -/
theorem Aside.modBlock (s : State) (k : Nat) {f : Block → Block} (ht : ∀ b, (f b).threads = b.threads)
    (hc : ∀ b, (f b).cores = b.cores) (hp : ∀ b, (f b).part = b.part) (hw : ∀ b, b.wrote = [] → (f b).wrote = []) :
    Aside g s (s.modBlock k f) :=
  ⟨rfl, stashPages_modBlock s k hc, .modBlock s k ht hc hp hw⟩

theorem Aside.releases (s : State) (k n : Nat) : Aside g s (s.releases k n) :=
  .modBlock s k (fun _ => rfl) (fun _ => rfl) (fun _ => rfl) fun _ => id

theorem Aside.tlbs (s : State) (n c : List (Nat × List TlbEntry)) :
    Aside g s { s with nestedTlbs := n, clusterTlbs := c } :=
  ⟨rfl, rfl, ⟨rfl, fun b h => ⟨b, h, rfl, rfl, rfl, id⟩⟩⟩

/-- What a TLB keeps. -/
theorem Aside.keep (s : State) (c : Nat) (v : Via) (e : TlbEntry) : Aside g s (s.modCore c (·.keep v e)) where
  same := rfl
  stash := rfl
  keeps := by
    refine ⟨?_, fun b h => ⟨b, h, rfl, rfl, rfl, id⟩⟩
    unfold State.entry
    by_cases hc : g.core = c
    · rw [hc, State.core_modCore_self]; cases v <;> rfl
    · rw [s.core_modCore_ne hc]

theorem aside_translateVia {v : Via} {c part va : Nat} {pr : Priv} {a : Access} {r : Xlat × State}
    (h : s.translateVia v c part pr a va = .ok r) : Aside g s r.2 := by
  unfold State.translateVia at h
  dsimp only at h
  split at h
  · cases h; exact .refl s
  · split at h
    · cases h; exact .keep s c v _
    · split at h
      · cases h
      · split at h
        · cases h
        · cases h
          exact Aside.trans (.tlbs s _ _) (.keep _ c v _)

/-- The checks of an access. -/
theorem aside_resolve {f : Form} {sp : Space} {a : Access} {ea n : Nat} {r : Place × State}
    (h : resolve g i f sp a ea n s = .ok r) : Aside g s r.2 := by
  have placed : ∀ {e : Except Stop Place}, (e.map fun p => (p, s)) = .ok r → Aside g s r.2 := fun {e} he => by
    obtain ⟨p, -, rfl⟩ := (map_eq_ok ..).1 he
    exact .refl s
  have walked : ∀ {c part : Nat} {pr : Priv}, (match s.translate c part pr a ea with
      | .error e => Except.error e
      | .ok (x, s') => .ok (Place.phys x.spa x.mt, s')) = .ok r → Aside g s r.2 := fun {c part pr} he => by
    split at he
    · cases he
    · rename_i x s' ht
      cases he
      exact aside_translateVia ht
  unfold resolve at h
  dsimp only at h
  split at h
  · split at h
    · cases h
    · exact placed h
  · split at h
    · exact placed h
    · exact placed h
    · split at h
      · cases h
      · split at h
        · split at h
          · cases h
          · exact placed h
        · split at h
          · cases h
          · exact walked h

/-- A release that finds its block settled waits for nothing. -/
theorem releaseWait_settled {a : Actor} {dom : Bool} (h : Settled s a.block dom) :
    ∃ w, s.releaseWait a i dom = .ok w ∧ Aside g s w := by
  unfold State.releaseWait
  simp only [h.posted, h.probes, h.todo, Bool.or_self, Bool.false_eq_true, if_false]
  cases dom with
  | false => exact ⟨s, rfl, .refl s⟩
  | true =>
    simp only [h.wrote rfl, List.find?_nil, Bool.not_true, Bool.false_eq_true, if_false]
    exact ⟨_, rfl, .modBlock s _ (fun _ => rfl) (fun _ => rfl) (fun _ => rfl) fun _ _ => rfl⟩

theorem orderWait_met {a : Actor} {o : Order} (h : OrderMet s a.block o) :
    ∃ w, s.orderWait a i o = .ok w ∧ Aside g s w := by
  unfold State.orderWait
  split
  · rename_i hr
    rw [Bool.and_eq_true] at hr
    exact releaseWait_settled (h hr.1 hr.2)
  · exact ⟨s, rfl, .refl s⟩

theorem Aside.block (A : Aside g s w) (hb : Kv.find g.block s.blocks = some b) :
    ∃ b', w.block g.block = b' ∧ Kv.find g.block w.blocks = some b' ∧ b'.threads = b.threads ∧ b'.cores = b.cores ∧
      b'.part = b.part ∧ (b.wrote = [] → b'.wrote = []) :=
  have ⟨b', h, k⟩ := A.keeps.blk b hb
  ⟨b', State.block_of_find h, h, k⟩

theorem Aside.bc (A : Aside g s w) (hb : Kv.find g.block s.blocks = some b) {j : Nat}
    (hx : Kv.find j b.cores = some x) : (w.block g.block).bc j = x := by
  obtain ⟨b', e, -, -, hc, -⟩ := A.block hb
  rw [e, Block.bc, hc, Kv.get_of_find hx]

theorem Aside.target (A : Aside g s w) : w.target = s.target := by rw [A.same]; rfl
theorem Aside.poisonedIn (A : Aside g s w) : w.poisonedIn = s.poisonedIn := by rw [A.same]; rfl
theorem Aside.probing (A : Aside g s w) : w.probing = s.probing := by rw [A.same]; rfl
theorem Aside.mem (A : Aside g s w) : w.mem = s.mem := by rw [A.same]
theorem Aside.byteAt (A : Aside g s w) : w.byteAt = s.byteAt := by rw [A.same]; rfl

theorem Aside.raceWindow (A : Aside g s w) (hb : Kv.find g.block s.blocks = some b) (va : Nat) :
    w.raceWindow g.block va = s.raceWindow g.block va := by
  obtain ⟨b', h, -, -, -, hp, -⟩ := A.block hb
  have part : w.part = s.part := by rw [A.same]; rfl
  rw [State.raceWindow, State.raceWindow, h, State.block_of_find hb, hp, part]

theorem Aside.settled (A : Aside g s w) (hb : Kv.find g.block s.blocks = some b) {dom : Bool}
    (h : Settled s g.block dom) : Settled w g.block dom where
  posted := by rw [A.same]; exact h.posted
  probes := by rw [A.same]; exact h.probes
  todo := by rw [A.same]; exact h.todo
  wrote := fun e => by
    obtain ⟨b', h', -, -, -, -, hw⟩ := A.block hb
    have := h.wrote e
    rw [State.block_of_find hb] at this
    rw [h', hw this]

theorem Aside.orderMet (A : Aside g s w) (hb : Kv.find g.block s.blocks = some b) {o : Order}
    (h : OrderMet s g.block o) : OrderMet w g.block o := fun r f => A.settled hb (h r f)

/-! ### Bytes of scratch -/

theorem cellsAt_bytesOf (a v n : Nat) : cellsAt a (bytesOf v n) = leCells a v n := by
  induction n generalizing a v with
  | zero => rfl
  | succ n ih => rw [bytesOf, cellsAt, leCells, ih]

/-- Scratch is written and read as memory is. -/
theorem scratch_setScratch (c : BlockCore) (l : List Host.Cell) (s : State) :
    (c.setScratch l).scratch = ({ s with mem := c.scratch }.setCells l).mem := by
  unfold BlockCore.setScratch State.setCells
  dsimp only
  generalize c.scratch = m
  induction l generalizing m with
  | nil => rfl
  | cons y l ih => rw [List.foldl_cons, List.foldl_cons, ih]; rfl

theorem scratchByte_setScratch (c : BlockCore) (l : List Host.Cell) (s : State) (a : Nat) :
    (c.setScratch l).scratchByte a = ({ s with mem := c.scratch }.setCells l).byteAt a := by
  unfold BlockCore.scratchByte State.byteAt
  rw [scratch_setScratch c l s]; rfl

/-! ### Where an aligned access of DRAM lies -/

/-- The sizes of an access in bytes (R135). -/
def AccessSize (n : Nat) : Prop := n = 1 ∨ n = 2 ∨ n = 4 ∨ n = 8 ∨ n = 16

theorem AccessSize.pos {n : Nat} (h : AccessSize n) : 0 < n := by
  rcases h with rfl | rfl | rfl | rfl | rfl <;> decide

/-- An aligned access lies in one sector of 32 bytes. -/
theorem AccessSize.sector {n a k : Nat} (h : AccessSize n) (ha : a % n = 0) (hk : k < n) : (a + k) / 32 = a / 32 := by
  rcases h with rfl | rfl | rfl | rfl | rfl <;> omega

theorem linesOf_aligned {n a : Nat} (h : AccessSize n) (ha : a % n = 0) : linesOf a n = [a / 64] := by
  have e := h.sector ha (Nat.sub_lt h.pos Nat.one_pos)
  have : (a + n - 1) / 64 - a / 64 + 1 = 1 := by have := h.pos; omega
  rw [linesOf, this]; rfl

theorem spaPkg_sector {a c : Nat} (h : a / 32 = c / 32) : spaPkg a = spaPkg c := by
  unfold spaPkg; omega

/-- The granules of one sector are one. -/
theorem granuleOf_sector {a c : Nat} (h : a / 32 = c / 32) : s.granuleOf a = s.granuleOf c := by
  have reg : spaLocal a / 2 ^ 30 = spaLocal c / 2 ^ 30 := by unfold spaLocal; omega
  have gr : s.granule a = s.granule c := by
    unfold State.granule State.region; rw [spaPkg_sector h, reg]
  unfold State.granuleOf
  rw [gr]
  unfold State.granule
  split <;> omega

/-- A granule lies in the line of its bytes. -/
theorem granuleOf_line (s : State) (a : Nat) : s.granuleOf a / 64 = a / 64 := by
  unfold State.granuleOf State.granule
  split <;> omega

theorem spaPkg_of_dram {a : Nat} (h : s.target a = .dram) : spaPkg a = s.harbour.pkg := by
  unfold State.target at h
  by_cases e : spaPkg a = s.harbour.pkg
  · exact e
  · simp only [if_neg e] at h
    split at h
    · split at h <;> cases h
    · cases h

/-- An address of this package is none of another package. -/
theorem target_ne_remote {a : Nat} (h : spaPkg a = s.harbour.pkg) : s.target a ≠ .remote := by
  unfold State.target
  rw [if_pos h]
  split
  · exact Target.noConfusion
  · split <;> exact Target.noConfusion

theorem distinct_const {l : List Nat} {a : Nat} (hl : l ≠ []) (h : ∀ x ∈ l, x = a) : distinct l = [a] := by
  induction l with
  | nil => exact absurd rfl hl
  | cons x l ih =>
    have hx : x = a := h x List.mem_cons_self
    cases l with
    | nil => rw [hx]; rfl
    | cons y l =>
      rw [distinct, ih (List.cons_ne_nil y l) fun z hz => h z (List.mem_cons_of_mem _ hz), hx]
      simp

theorem mem_distinct {l : List Nat} {a : Nat} (h : a ∈ l) : a ∈ distinct l := by
  induction l with
  | nil => exact h
  | cons y l ih =>
    by_cases e : a = y
    · exact e ▸ List.mem_cons_self
    · exact List.mem_cons_of_mem _ (List.mem_filter.2 ⟨ih ((List.mem_cons.1 h).resolve_left e), by simpa using e⟩)

/-- The first granule of an access that finds no poison is good. -/
theorem ecc_of_clean {n a : Nat} (h0 : 0 < n) (h : s.poisonedIn a n = none) : Kv.find (s.granuleOf a) s.ecc = none := by
  have first := List.find?_eq_none.1 h (s.granuleOf (a + 0)) (mem_distinct (List.mem_map.2 ⟨0, List.mem_range.2 h0, rfl⟩))
  simpa using first

/-! ### Reading DRAM -/

/-- A probe that no stash page answers wakes at most the line's stack. -/
theorem snoop_unstashed {line : Nat} (inv : Bool) (h : s.stashPages.any (·.holds (line * 64)) = false) :
    s.snoop line inv = { s with dies := (s.snoop line inv).dies } := by
  have woken : ∀ k, (s.wakeStack k) = { s with dies := (s.wakeStack k).dies } := fun k => by
    unfold State.wakeStack; split <;> rfl
  have same : s.snoop line inv = if s.target (line * 64) = .dram then s.wakeStack (s.homeStack (line * 64)) else s := by
    unfold State.snoop
    dsimp only
    rw [if_neg]
    split
    · rw [woken]; exact Bool.eq_false_iff.1 h
    · exact Bool.eq_false_iff.1 h
  rw [same]
  split
  · exact woken _
  · rfl

/-- A read of DRAM that nothing stands in the way of (R261). -/
theorem typedRead_dram {a : Actor} {spa mt n va : Nat} (hn : AccessSize n) (ha : spa % n = 0) (ht : s.target spa = .dram)
    (hu : s.stashPages.any (·.holds (spa / 64 * 64)) = false) (hc : s.poisonedIn spa n = none)
    (hp : ∀ l ∈ linesOf spa n, s.probing l = false) :
    ∃ w, typedRead s a spa mt n va = .ok (leRead s.byteAt spa n, w) ∧ w = { s with dies := w.dies } := by
  rw [linesOf_aligned hn ha, List.forall_mem_singleton] at hp
  have e := snoop_unstashed false hu
  refine ⟨s.snoop (spa / 64) false, ?_, e⟩
  have hc' : (s.snoop (spa / 64) false).poisonedIn spa n = none := by rw [e]; exact hc
  have hb : (s.snoop (spa / 64) false).byteAt = s.byteAt := by rw [e]; rfl
  have strict : s.strictAt spa mt = false := by rw [State.strictAt, ht]; rfl
  simp only [typedRead, strict, Bool.false_eq_true, if_false, physRead, ht, linesOf_aligned hn ha, List.any_cons,
    List.any_nil, hp, Bool.or_self, List.foldl_cons, List.foldl_nil, hc', hb]

/-! ### Writing DRAM -/

@[simp] theorem raceNote_blocks (s : State) (k va cnt : Nat) (rel : Bool) : (s.raceNote k va cnt rel).blocks = s.blocks := by
  unfold State.raceNote; split <;> rfl

@[simp] theorem raceNote_cores (s : State) (k va cnt : Nat) (rel : Bool) : (s.raceNote k va cnt rel).cores = s.cores := by
  unfold State.raceNote; split <;> rfl

theorem sendProbe_rest (s : State) (k : Nat) : (s.sendProbe k).blocks = s.blocks ∧ (s.sendProbe k).cores = s.cores := by
  unfold State.sendProbe
  split
  · exact ⟨rfl, rfl⟩
  · dsimp only; split <;> exact ⟨rfl, rfl⟩

theorem probeHolders_rest (s : State) (b l : Nat) :
    (s.probeHolders b l).blocks = s.blocks ∧ (s.probeHolders b l).cores = s.cores := by
  unfold State.probeHolders
  dsimp only
  split
  · exact ⟨rfl, rfl⟩
  · exact sendProbe_rest _ _

theorem raceNotes_rest (l : List WCell) (s : State) :
    let w := l.foldl (fun s c => s.raceNote c.who.block c.va c.cnt c.rel) s
    w.blocks = s.blocks ∧ w.cores = s.cores := by
  induction l generalizing s with
  | nil => exact ⟨rfl, rfl⟩
  | cons c l ih => exact ⟨(ih _).1.trans (raceNote_blocks ..), (ih _).2.trans (raceNote_cores ..)⟩

theorem mem_setCells_congr {l : List Host.Cell} (h : w.mem = s.mem) : (w.setCells l).mem = (s.setCells l).mem := by
  induction l generalizing s w with
  | nil => exact h
  | cons c l ih => exact ih (congrArg (Kv.set emptyByte c.1 c.2) h)

/-- A write into a good granule that no stash page holds changes memory by its bytes, and neither blocks nor cores. -/
theorem writeGranule_clean {gr : Nat} {cells : List WCell} (hl : cells ≠ []) (he : Kv.find gr s.ecc = none)
    (hu : s.stashPages.any (·.holds (gr / 64 * 64)) = false) :
    let w := s.writeGranule gr cells
    w.blocks = s.blocks ∧ w.cores = s.cores ∧ w.mem = (s.setCells (cells.map fun c => (c.spa, c.byte))).mem := by
  cases cells with
  | nil => exact absurd rfl hl
  | cons c l =>
    have e := snoop_unstashed true hu
    have he' : Kv.find gr (s.snoop (gr / 64) true).ecc = none := by rw [e]; exact he
    have writes : ∀ u : State, u.blocks = s.blocks → u.cores = s.cores → u.mem = s.mem →
        let w := ((c :: l).foldl (fun s c => s.raceNote c.who.block c.va c.cnt c.rel)
          (u.setCells ((c :: l).map fun c => (c.spa, c.byte)))).probeHolders c.who.block (gr / 64)
        w.blocks = s.blocks ∧ w.cores = s.cores ∧
          w.mem = (s.setCells ((c :: l).map fun c => (c.spa, c.byte))).mem := fun u hb hc hm => by
      obtain ⟨pb, pc⟩ := probeHolders_rest ((c :: l).foldl (fun s c => s.raceNote c.who.block c.va c.cnt c.rel)
          (u.setCells ((c :: l).map fun c => (c.spa, c.byte)))) c.who.block (gr / 64)
      obtain ⟨rb, rc⟩ := raceNotes_rest (c :: l) (u.setCells ((c :: l).map fun c => (c.spa, c.byte)))
      refine ⟨pb.trans (rb.trans ?_), pc.trans (rc.trans ?_), ?_⟩
      · rw [setCells_eq]; exact hb
      · rw [setCells_eq]; exact hc
      · rw [probeHolders_mem, foldl_mem fun s c => raceNote_mem s _ _ _ _, mem_setCells_congr hm]
    unfold State.writeGranule
    dsimp only
    rw [he', Option.isSome_none, Bool.and_false, if_neg Bool.false_ne_true]
    exact writes _ (by rw [e]) (by rw [e]) (by rw [e])

/-- The cells of a thread's number are its bytes. -/
theorem mkCells_bytes (a : Actor) (cnt : Nat) (rel : Bool) (spa va v n : Nat) :
    (mkCells a cnt rel spa va v n).map (fun c => (c.spa, c.byte)) = leCells spa v n := by
  unfold mkCells
  rw [List.map_map]
  induction n generalizing spa v with
  | zero => rfl
  | succ n ih =>
    rw [List.range_succ_eq_map, List.map_cons, List.map_map, leCells, ← ih]
    simp only [Function.comp_def, Nat.add_zero, Nat.pow_zero, Nat.div_one, Nat.div_div_eq_div_mul, ← Nat.pow_succ',
      Nat.succ_eq_add_one, Nat.add_assoc, Nat.add_comm 1]

/-- A store of DRAM that nothing stands in the way of: its bytes are written, and neither blocks nor cores change. -/
theorem writeCells_dram {a : Actor} {cnt spa va v n : Nat} {rel : Bool} (hn : AccessSize n) (ha : spa % n = 0)
    (ht : s.target spa = .dram) (hu : s.stashPages.any (·.holds (spa / 64 * 64)) = false) (hc : s.poisonedIn spa n = none) :
    let w := s.writeCells (mkCells a cnt rel spa va v n)
    w.blocks = s.blocks ∧ w.cores = s.cores ∧ w.mem = (s.setCells (leCells spa v n)).mem := by
  have local_ := spaPkg_of_dram ht
  have group : ∀ c ∈ mkCells a cnt rel spa va v n, s.groupOfCell c.spa = s.granuleOf spa := fun c hm => by
    obtain ⟨k, hk, rfl⟩ := List.mem_map.1 hm
    have sec := hn.sector ha (List.mem_range.1 hk)
    unfold State.groupOfCell
    rw [beq_eq_false_iff_ne.2 (target_ne_remote ((spaPkg_sector sec).trans local_)), if_neg Bool.false_ne_true,
      granuleOf_sector sec]
  have ne : mkCells a cnt rel spa va v n ≠ [] := fun e => by
    have := congrArg List.length e
    simp only [mkCells, List.length_map, List.length_range, List.length_nil] at this
    exact hn.pos.ne' this
  have groups : distinct ((mkCells a cnt rel spa va v n).map fun c => s.groupOfCell c.spa) = [s.granuleOf spa] :=
    distinct_const (by simpa using ne) fun y hy => by
      obtain ⟨c, hm, rfl⟩ := List.mem_map.1 hy
      exact group c hm
  have all : (mkCells a cnt rel spa va v n).filter (fun c => s.groupOfCell c.spa == s.granuleOf spa) =
      mkCells a cnt rel spa va v n := List.filter_eq_self.2 fun c hm => beq_iff_eq.2 (group c hm)
  have line := granuleOf_line s spa
  have here : s.target (s.granuleOf spa) ≠ .remote := target_ne_remote (by
    rw [← local_]; unfold spaPkg; omega)
  have key := writeGranule_clean ne (ecc_of_clean hn.pos hc) (by rw [line]; exact hu)
  unfold State.writeCells
  rw [groups, List.foldl_cons, List.foldl_nil, all, beq_eq_false_iff_ne.2 here, if_neg Bool.false_ne_true]
  rwa [mkCells_bytes] at key

/-! ### The operands of LD and ST -/

theorem accessSize_of_wf {ty : Ty} (h : tysLdSt.contains ty = true) (quad : Bool) : AccessSize (accessBytes ty quad) := by
  have sizes : ∀ y ∈ tysLdSt, AccessSize (tyBits y / 8) := by unfold AccessSize; decide
  unfold accessBytes
  split
  · exact .inr (.inr (.inr (.inr rfl)))
  · exact sizes ty (List.contains_iff_mem.1 h)

theorem spread_dsts (l : List Src) (v : Nat) : (spread l v).map Prod.fst = l := by
  induction l generalizing v with
  | nil => rfl
  | cons y l ih => rw [spread, List.map_cons, ih]

theorem apart_v {r q : BitVec 8} (h : r.toNat + 1 < q.toNat) : Apart (.v r, true) (.v q, true) where
  v := fun k => by simp [namesV]; omega
  s := fun k => by simp [namesS]
  p := fun k => by simp [namesP]

theorem apart_s {r q : BitVec 6} (h : r.toNat + 1 < q.toNat) : Apart (.s r, true) (.s q, true) where
  v := fun k => by simp [namesV]
  s := fun k => by simp [namesS]; omega
  p := fun k => by simp [namesP]

/-- The two pairs of a quad are apart: its first register is a multiple of 4. -/
theorem quadOps_apart (d : Opnd) : (quadOps true d).Pairwise Apart := by
  unfold quadOps
  split
  · split
    · exact List.pairwise_pair.2 (apart_v (by bv_omega))
    · exact List.pairwise_singleton ..
  · split
    · exact List.pairwise_pair.2 (apart_s (by bv_omega))
    · exact List.pairwise_singleton ..
  all_goals exact List.pairwise_singleton ..

theorem dataOps_apart (ty : Ty) (quad : Bool) (d : Opnd) : (dataOps true ty quad d).Pairwise Apart := by
  unfold dataOps
  split
  · exact quadOps_apart d
  · exact List.pairwise_singleton ..

/-! ### The work of LD and ST on one thread -/

theorem ldWork_one {ins : Instr} {ty : Ty} {quad : Bool} {ord : MemOrd} {dst : Opnd} {m : MemOp} {l : List DWord} {p : Place}
    {s1 s2 s3 : State} {o : Order} {ea v : Nat} (he : eaOf m l = ea) (hat : (Order.of ord).at_ p = o)
    (hr : resolve g i ⟨true, true⟩ m.space .load ea (accessBytes ty quad) s = .ok (p, s1))
    (hw : (if o.sc then s1.orderWait (g.actor s1 i) i o else .ok s1) = .ok s2)
    (hp : loadPlace g i p ea (accessBytes ty quad) o (s2.releases g.block o.fences) = .ok (v, s3)) :
    ldWork ins ty quad ord dst m g [(i, l)] s =
      .ok (writeAll g.block i true (spread (dataOps true ty quad dst) (if quad then v else loadExt ty v))
        (s3.releases g.block o.fences)) := by
  simp only [ldWork, runThreads, he, hr, hat, hw, hp]

theorem storeWork_one {ins : Instr} {ty : Ty} {quad : Bool} {ord : MemOrd} {m : MemOp} {l : List DWord} {p : Place}
    {s1 s2 s3 : State} {o : Order} {ea v : Nat} {c : List WCell} (he : eaOf m l = ea) (hv : gatherVal (l.drop 2) = v)
    (hat : (Order.of ord).at_ p = o)
    (hr : resolve g i ⟨true, true⟩ m.space .store ea (accessBytes ty quad) s = .ok (p, s1))
    (hw : s1.orderWait (g.actor s1 i) i o = .ok s2)
    (hp : storePlace g i p ea v (accessBytes ty quad) o (s2.releases g.block o.releaseBefore) = .ok (c, s3)) :
    storeWork ins ty quad ord m g [(i, l)] s = .ok ((s3.releases g.block o.fences).writeCells c) := by
  simp only [storeWork, runGather, he, hv, hr, hat, hw, hp, List.nil_append, Except.map]

/-- The first two sources of an access make its address. -/
theorem eaOf_values (m : MemOp) (l : List Src) : eaOf m (values s g i (memSrcs m ++ l)) = eaNow s g i m := rfl

/-- A memory instruction is over where its work for the lone thread is. -/
theorem memIssue_completed (C : CanIssue s g i b t x c srcs dsts) (hl : s.lazyMem = false) {ins : Instr} {work : Work}
    {ws : List (Src × DWord)}
    (h : work g [(i, values s g i srcs)] (issued s g i ins srcs) = .ok (writeAll g.block i true ws w)) :
    memIssue ins (Use.plain c srcs dsts) work s = .next (completed w g i ws) := by
  rw [memIssue_can C hl, h]; rfl

/-- What a memory instruction leaves that keeps the block. -/
theorem passed_of_keeps (A : Alone s g i b t x) {ins : Instr} {ws : List (Src × DWord)}
    (K : Keeps g (issued s g i ins srcs) w) (hd : ws.map Prod.fst = dsts) :
    Passed (completed w g i ws) g i b t x ins dsts ∧ (completed w g i ws).mem = w.mem ∧
      (∀ j, (((completed w g i ws).block g.block).bc j).scratch = (b.bc j).scratch) ∧
      (dsts.Pairwise Apart → HoldsAll (completed w g i ws) g.block i ws) := by
  obtain ⟨b0, e0, hb0, same, -, hx0⟩ := issued_block A ins srcs
  obtain ⟨bw, hbw, ht, hc, -, -⟩ := K.blk b0 hb0
  obtain ⟨P, hm, hs, hh⟩ := passed_completed A K.entry hbw (ht.trans (congrArg Block.threads e0.symm)) (hc ▸ hx0) rfl hd
  refine ⟨P, hm, fun j => ?_, hh⟩
  rw [hs j, Block.bc, hc, same]; rfl

/-! ### Scratch -/

section
variable {m : MemOp} {ea n : Nat}

/-- An access to scratch resolves to its offset on the thread's core. -/
theorem resolve_scratch (A : Alone s g i b t x) (P : PlainScratch b t x m ea n) (ins : Instr) (srcs : List Src) (f : Form)
    (a : Access) : resolve g i f m.space a ea n (issued s g i ins srcs) = .ok (.scratch t.bc ea, issued s g i ins srcs) := by
  obtain ⟨b0, e0, -, same, -, -⟩ := issued_block A ins srcs
  have limit : ((issued s g i ins srcs).block g.block).scratch = b.scratch := by rw [e0, same]
  unfold resolve
  rw [issued_eq A ins srcs, P.space]
  simp only [beq_eq_false_iff_ne.2 P.mode, Bool.false_eq_true, if_false, scratchPlace, limit, Nat.not_le.2 P.range,
    P.aligned, bne_self_eq_false]
  rfl

/-- On scratch no order reaches beyond the block. -/
theorem orderWait_scratch (a : Actor) (o : Order) (j off : Nat) :
    s.orderWait a i (o.at_ (.scratch j off)) = .ok s := by
  simp [State.orderWait, Order.at_]

/-- A load of scratch that no stash page covers. -/
theorem loadPlace_scratch {u : State} {o : Order} {j : Nat} (hx : (u.block g.block).bc j = x)
    (hp : x.stashPage ea = none) : loadPlace g i (.scratch j ea) ea n o u = .ok (leRead x.scratchByte ea n, u) := by
  simp only [loadPlace, scratchRead, scratchAt, hx, hp]

/-- A store of scratch that no stash page covers. -/
theorem storePlace_scratch {u : State} {o : Order} {j v : Nat} (hx : (u.block g.block).bc j = x)
    (hp : x.stashPage ea = none) :
    storePlace g i (.scratch j ea) ea v n o u = .ok ([], u.modBc g.block j (·.setScratch (leCells ea v n))) := by
  simp only [storePlace, scratchWrite, scratchAt, hx, hp, cellsAt_bytesOf]

end

/-! ### DRAM -/

section
variable {s0 s1 u : State} {f : Form} {m : MemOp} {a : Access} {ea n spa mt : Nat}

/-- An access of DRAM races with nothing where no window is watched. -/
theorem raceExc_unwatched {k va : Nat} (h : s.raceWindow k va = none) (sync : Bool) : raceExc s k va sync = none := by
  rw [raceExc, h]

theorem raceAcquire_unwatched {k va : Nat} (h : s.raceWindow k va = none) : s.raceAcquire k va = s := by
  rw [State.raceAcquire, h]

/-- A load of DRAM that nothing stands in the way of. -/
theorem loadPlace_dram (hb : Kv.find g.block s0.blocks = some b) (P : PlainDram s0 g i f m a ea n spa mt s1)
    (hn : AccessSize n) (A : Aside g s0 u) (o : Order) :
    ∃ w, loadPlace g i (.phys spa mt) ea n o u = .ok (leRead s0.byteAt spa n, w) ∧ Keeps g u w ∧ w.mem = u.mem := by
  have watch : u.raceWindow g.block ea = none := (A.raceWindow hb ea).trans P.unwatched
  obtain ⟨w, hw, e⟩ := typedRead_dram (a := g.actor u i) (mt := mt) (va := ea) hn P.aligned (by rw [A.target]; exact P.dram)
    (by rw [A.stash]; exact P.unstashed) (by rw [A.poisonedIn]; exact P.clean) (by rw [A.probing]; exact P.settled)
  have watch' : w.raceWindow g.block ea = none := by rw [e]; exact watch
  refine ⟨w, ?_, .of_eq (by rw [e]) (by rw [e]), by rw [e]⟩
  simp only [loadPlace, raceExc_unwatched watch, hw, Except.map, raceAcquire_unwatched watch', ite_self, A.byteAt]

/-- A store of DRAM that nothing stands in the way of gives its bytes to be written. -/
theorem storePlace_dram (hb : Kv.find g.block s0.blocks = some b) (P : PlainDram s0 g i f m a ea n spa mt s1)
    (hn : AccessSize n) (A : Aside g s0 u) (o : Order) (v : Nat) :
    storePlace g i (.phys spa mt) ea v n o u =
      .ok (mkCells (g.actor u i) (u.block g.block).relCount o.rel spa ea v n, u) := by
  have watch : u.raceWindow g.block ea = none := (A.raceWindow hb ea).trans P.unwatched
  have dram : u.target spa = .dram := by rw [A.target]; exact P.dram
  have settled := P.settled
  rw [linesOf_aligned hn P.aligned, List.forall_mem_singleton, ← A.probing] at settled
  have strict : u.strictAt spa mt = false := by rw [State.strictAt, dram]; rfl
  simp only [storePlace, raceExc_unwatched watch, physStore, strict, dram, linesOf_aligned hn P.aligned, List.any_cons,
    List.any_nil, settled, Bool.or_self, Bool.false_eq_true, if_false]
  rfl

/-- What the store writes (R261). -/
theorem writeCells_plainDram (P : PlainDram s0 g i f m a ea n spa mt s1) (hn : AccessSize n) (A : Aside g s0 u)
    {c : Actor} {cnt v : Nat} {rel : Bool} :
    let w := u.writeCells (mkCells c cnt rel spa ea v n)
    Keeps g u w ∧ w.mem = (u.setCells (leCells spa v n)).mem := by
  obtain ⟨hb, hc, hm⟩ := writeCells_dram (a := c) (cnt := cnt) (va := ea) (v := v) (rel := rel) hn P.aligned
    (by rw [A.target]; exact P.dram) (by rw [A.stash]; exact P.unstashed) (by rw [A.poisonedIn]; exact P.clean)
  exact ⟨.of_eq hb hc, hm⟩

end

/-- The issue of an instruction takes nothing from what an order waits for. -/
theorem orderMet_issued (A : Alone s g i b t x) (ins : Instr) (srcs : List Src) {o : Order} (h : OrderMet s g.block o) :
    OrderMet (issued s g i ins srcs) g.block o := fun r f => by
  obtain ⟨posted, probes, todo, wrote⟩ := h r f
  obtain ⟨quiet, reqs⟩ := issued_rest (s := s) (g := g) (i := i) ins srcs
  obtain ⟨b0, e0, -, same, -, -⟩ := issued_block A ins srcs
  have dies : (issued s g i ins srcs).dies = s.dies := by rw [quiet]
  refine ⟨?_, ?_, by rw [dies]; exact todo, fun e => ?_⟩
  · unfold State.posting; rw [reqs]; exact posted
  · rw [reqs]; exact probes
  · have := wrote e
    rw [State.block_of_find A.block] at this
    rw [e0, same]
    exact this

theorem byteAt_issued (ins : Instr) (srcs : List Src) : (issued s g i ins srcs).byteAt = s.byteAt := by
  obtain ⟨quiet, -⟩ := issued_rest (s := s) (g := g) (i := i) ins srcs
  unfold State.byteAt
  rw [quiet]

/-- Bytes written where memory held those of another state are stored over that. -/
theorem stored_of_mem {s' u : State} {a n v : Nat} (hu : u.byteAt = s.byteAt)
    (h : s'.mem = (u.setCells (leCells a v n)).mem) : Stored s s' a n v := by
  have e : s'.byteAt = (u.setCells (leCells a v n)).byteAt := by unfold State.byteAt; rw [h]
  rw [Stored, e, ← hu]
  exact ⟨fun k hk => byteAt_leCells u hk, fun k hk => byteAt_leCells_other u hk⟩

/-- A block's core whose scratch has taken a number's bytes has them stored. -/
theorem storedScratch_of_scratch {s' : State} {a n v : Nat} (hm : s'.mem = s.mem)
    (h : ((s'.block g.block).bc t.bc).scratch = (x.setScratch (leCells a v n)).scratch) :
    StoredScratch s s' g t x a n v := by
  have e : ∀ c, ((s'.block g.block).bc t.bc).scratchByte c = ({ s with mem := x.scratch }.setCells (leCells a v n)).byteAt c :=
    fun c => by rw [← scratchByte_setScratch x _ s, BlockCore.scratchByte, h]; rfl
  refine ⟨hm, fun k hk => ?_, fun k hk => ?_⟩
  · rw [e, byteAt_leCells _ hk]
  · rw [e, byteAt_leCells_other _ hk]; rfl

/-! ### LD -/

section
variable {ty : Ty} {quad : Bool} {ord : MemOrd} {dst src : Opnd} {m : MemOp}

theorem accessSize_ld (h : (Instr.ld c ty quad ord dst m).wf = true) : AccessSize (accessBytes ty quad) := by
  simp only [Instr.wf, Bool.and_eq_true] at h
  exact accessSize_of_wf h.1.1.1.1.2 quad

theorem accessSize_st (h : (Instr.st c ty quad ord src m).wf = true) : AccessSize (accessBytes ty quad) := by
  simp only [Instr.wf, Bool.and_eq_true] at h
  exact accessSize_of_wf h.1.1.1.1.1.2 quad

/-- LD is over, its work done in a state that keeps the block. -/
theorem ld_completes (C : CanIssue s g i b t x c (memSrcs m) (dataOps true ty quad dst)) (hl : s.lazyMem = false) {v : Nat}
    (h : ldWork (.ld c ty quad ord dst m) ty quad ord dst m g [(i, values s g i (memSrcs m))]
      (issued s g i (.ld c ty quad ord dst m) (memSrcs m)) =
        .ok (writeAll g.block i true (spread (dataOps true ty quad dst) v) w))
    (K : Keeps g (issued s g i (.ld c ty quad ord dst m) (memSrcs m)) w) (hm : w.mem = s.mem) :
    ∃ s', exec (.ld c ty quad ord dst m) s = .next s' ∧
      Passed s' g i b t x (.ld c ty quad ord dst m) (dataOps true ty quad dst) ∧
      HoldsAll s' g.block i (spread (dataOps true ty quad dst) v) ∧ s'.mem = s.mem ∧
      ∀ j, ((s'.block g.block).bc j).scratch = (b.bc j).scratch :=
  have ⟨passed, mem, scratch, holds⟩ := passed_of_keeps C.alone K (spread_dsts (dataOps true ty quad dst) v)
  ⟨_, memIssue_completed C hl h, passed, holds (dataOps_apart ty quad dst), mem.trans hm, scratch⟩

/-- LD from scratch (R134, R256). -/
theorem ld_scratch (C : CanIssue s g i b t x c (memSrcs m) (dataOps true ty quad dst)) (hl : s.lazyMem = false)
    (P : PlainScratch b t x m (eaNow s g i m) (accessBytes ty quad)) :
    let v := leRead x.scratchByte (eaNow s g i m) (accessBytes ty quad)
    ∃ s', exec (.ld c ty quad ord dst m) s = .next s' ∧
      Passed s' g i b t x (.ld c ty quad ord dst m) (dataOps true ty quad dst) ∧
      HoldsAll s' g.block i (spread (dataOps true ty quad dst) (if quad then v else loadExt ty v)) ∧ s'.mem = s.mem ∧
      ∀ j, ((s'.block g.block).bc j).scratch = (b.bc j).scratch := by
  intro v
  obtain ⟨b0, -, hb0, -, -, hx0⟩ := issued_block C.alone (.ld c ty quad ord dst m) (memSrcs m)
  have aside : ∀ n, Aside g _ ((issued s g i (.ld c ty quad ord dst m) (memSrcs m)).releases g.block n) :=
    Aside.releases _ g.block
  have loads := loadPlace_scratch (i := i) (o := (Order.of ord).at_ (.scratch t.bc (eaNow s g i m)))
    (n := accessBytes ty quad) ((aside ((Order.of ord).at_ (.scratch t.bc (eaNow s g i m))).fences).bc hb0 hx0) P.page
  have work := ldWork_one (ins := .ld c ty quad ord dst m) (dst := dst) (eaOf_values m []) rfl
    (resolve_scratch C.alone P (.ld c ty quad ord dst m) (memSrcs m) ⟨true, true⟩ .load)
    (by rw [orderWait_scratch, ite_self]) loads
  refine ld_completes C hl work ((aside _).trans (.releases _ g.block _)).keeps ?_
  rw [releases_mem, releases_mem, (issued_rest _ _).1]

/-- LD from DRAM (R134, R135). -/
theorem ld_dram (C : CanIssue s g i b t x c (memSrcs m) (dataOps true ty quad dst)) (hl : s.lazyMem = false)
    (hw : (Instr.ld c ty quad ord dst m).wf = true) {spa mt : Nat} {s1 : State}
    (P : PlainDram (issued s g i (.ld c ty quad ord dst m) (memSrcs m)) g i ⟨true, true⟩ m .load (eaNow s g i m)
      (accessBytes ty quad) spa mt s1) (met : (Order.of ord).sc = true → OrderMet s g.block (Order.of ord)) :
    let v := leRead s.byteAt spa (accessBytes ty quad)
    ∃ s', exec (.ld c ty quad ord dst m) s = .next s' ∧
      Passed s' g i b t x (.ld c ty quad ord dst m) (dataOps true ty quad dst) ∧
      HoldsAll s' g.block i (spread (dataOps true ty quad dst) (if quad then v else loadExt ty v)) ∧ s'.mem = s.mem ∧
      ∀ j, ((s'.block g.block).bc j).scratch = (b.bc j).scratch := by
  intro v
  obtain ⟨b0, -, hb0, -⟩ := issued_block C.alone (.ld c ty quad ord dst m) (memSrcs m)
  have resolved := aside_resolve P.place
  obtain ⟨s2, waits, waited⟩ : ∃ s2, (if (Order.of ord).sc then s1.orderWait (g.actor s1 i) i (Order.of ord) else .ok s1) =
      .ok s2 ∧ Aside g s1 s2 := by
    split
    · rename_i sc
      exact orderWait_met (resolved.orderMet hb0 (orderMet_issued C.alone _ _ (met sc)))
    · exact ⟨s1, rfl, .refl s1⟩
  have before : Aside g _ (s2.releases g.block (Order.of ord).fences) :=
    (resolved.trans waited).trans (.releases s2 _ _)
  obtain ⟨s3, loads, keeps, mem⟩ := loadPlace_dram hb0 P (accessSize_ld hw) before (Order.of ord)
  rw [byteAt_issued] at loads
  refine ld_completes C hl (ldWork_one (eaOf_values m []) rfl P.place waits loads) ?_ ?_
  · exact (before.keeps.trans keeps).trans (Aside.releases s3 _ _).keeps
  · rw [releases_mem, mem, before.mem, (issued_rest _ _).1]

/-! ### ST -/

/-- What a memory instruction leaves that writes the scratch of the thread's core. -/
theorem passed_of_setScratch (A : Alone s g i b t x) {ins : Instr} {u : State} (D : Aside g (issued s g i ins srcs) u)
    (l : List Host.Cell) (n : Nat) :
    let s' := completed ((u.modBc g.block t.bc (·.setScratch l)).releases g.block n) g i []
    Passed s' g i b t x ins [] ∧ s'.mem = s.mem ∧ ((s'.block g.block).bc t.bc).scratch = (x.setScratch l).scratch := by
  obtain ⟨b0, e0, hb0, -, -, hx0⟩ := issued_block A ins srcs
  obtain ⟨b1, -, hb1, ht1, hc1, -⟩ := D.block hb0
  have hb2 : Kv.find g.block (u.modBc g.block t.bc (·.setScratch l)).blocks =
      some { b1 with cores := Kv.modify t.bc (·.setScratch l) b1.cores } := by
    rw [State.modBc, State.find_modBlock_self, hb1]; rfl
  obtain ⟨b3, -, hb3, ht3, hc3, -⟩ := (Aside.releases (g := g) (u.modBc g.block t.bc (·.setScratch l)) g.block n).block hb2
  have hx3 : Kv.find t.bc b3.cores = some (x.setScratch l) := by rw [hc3, Kv.find_modify_self, hc1, hx0]; rfl
  obtain ⟨passed, mem, scratch, -⟩ := passed_completed (ws := []) A
    (w := (u.modBc g.block t.bc (·.setScratch l)).releases g.block n) D.keeps.entry hb3
    (ht3.trans (ht1.trans (congrArg Block.threads e0.symm))) hx3 rfl rfl
  refine ⟨passed, mem.trans ?_, (scratch t.bc).trans (congrArg BlockCore.scratch (Kv.get_of_find hx3))⟩
  rw [releases_mem, State.modBc_mem, D.mem, (issued_rest _ _).1]

/-- ST to scratch (R134, R256). -/
theorem st_scratch (C : CanIssue s g i b t x c (memSrcs m ++ dataOps false ty quad src) []) (hl : s.lazyMem = false)
    (P : PlainScratch b t x m (eaNow s g i m) (accessBytes ty quad)) :
    ∃ s', exec (.st c ty quad ord src m) s = .next s' ∧ Passed s' g i b t x (.st c ty quad ord src m) [] ∧
      StoredScratch s s' g t x (eaNow s g i m) (accessBytes ty quad) (gatherVal (values s g i (dataOps false ty quad src))) := by
  obtain ⟨b0, -, hb0, -, -, hx0⟩ := issued_block C.alone (.st c ty quad ord src m) (memSrcs m ++ dataOps false ty quad src)
  have before : ∀ n, Aside g _
      ((issued s g i (.st c ty quad ord src m) (memSrcs m ++ dataOps false ty quad src)).releases g.block n) :=
    Aside.releases _ g.block
  have work := storeWork_one (ins := .st c ty quad ord src m) (eaOf_values m (dataOps false ty quad src)) rfl rfl
    (resolve_scratch C.alone P _ (memSrcs m ++ dataOps false ty quad src) ⟨true, true⟩ .store) (orderWait_scratch ..)
    (storePlace_scratch (o := (Order.of ord).at_ (.scratch t.bc (eaNow s g i m))) ((before _).bc hb0 hx0) P.page)
  obtain ⟨passed, mem, scratch⟩ := passed_of_setScratch C.alone (before _) _
    ((Order.of ord).at_ (.scratch t.bc (eaNow s g i m))).fences
  exact ⟨_, memIssue_completed (ws := []) C hl work, passed, storedScratch_of_scratch mem scratch⟩

/-- ST to DRAM (R134, R135, R261). -/
theorem st_dram (C : CanIssue s g i b t x c (memSrcs m ++ dataOps false ty quad src) []) (hl : s.lazyMem = false)
    (hw : (Instr.st c ty quad ord src m).wf = true) {spa mt : Nat} {s1 : State}
    (P : PlainDram (issued s g i (.st c ty quad ord src m) (memSrcs m ++ dataOps false ty quad src)) g i ⟨true, true⟩ m
      .store (eaNow s g i m) (accessBytes ty quad) spa mt s1) (met : OrderMet s g.block (Order.of ord)) :
    ∃ s', exec (.st c ty quad ord src m) s = .next s' ∧ Passed s' g i b t x (.st c ty quad ord src m) [] ∧
      Stored s s' spa (accessBytes ty quad) (gatherVal (values s g i (dataOps false ty quad src))) ∧
      ∀ j, ((s'.block g.block).bc j).scratch = (b.bc j).scratch := by
  obtain ⟨b0, -, hb0, -⟩ := issued_block C.alone (.st c ty quad ord src m) (memSrcs m ++ dataOps false ty quad src)
  have hn := accessSize_st hw
  have resolved := aside_resolve P.place
  obtain ⟨s2, waits, waited⟩ : ∃ s2, s1.orderWait (g.actor s1 i) i (Order.of ord) = .ok s2 ∧ Aside g s1 s2 :=
    orderWait_met (resolved.orderMet hb0 (orderMet_issued C.alone _ _ met))
  have before : Aside g _ (s2.releases g.block (Order.of ord).releaseBefore) :=
    (resolved.trans waited).trans (.releases s2 _ _)
  have after := before.trans (.releases _ g.block (Order.of ord).fences)
  have work := storeWork_one (ins := .st c ty quad ord src m) (eaOf_values m (dataOps false ty quad src)) rfl rfl P.place
    waits (storePlace_dram hb0 P hn before (Order.of ord) (gatherVal (values s g i (dataOps false ty quad src))))
  obtain ⟨keeps, mem⟩ := writeCells_plainDram P hn after
  obtain ⟨passed, hm, scratch, -⟩ := passed_of_keeps (ws := []) C.alone (after.keeps.trans keeps) rfl
  refine ⟨_, memIssue_completed (ws := []) C hl work, passed, stored_of_mem ?_ (hm.trans mem), scratch⟩
  rw [after.byteAt, byteAt_issued]

end

/-- Settles O23: the work of LD and of ST for the lone thread, at a place in scratch and in DRAM. -/
theorem loadsAndStores : Obligations.LoadsAndStores :=
  ⟨fun _ _ _ _ _ _ _ _ _ _ _ _ C hl hw => ⟨ld_scratch C hl, fun _ _ _ P met => ld_dram C hl hw P met⟩,
    fun _ _ _ _ _ _ _ _ _ _ _ _ C hl hw => ⟨st_scratch C hl, fun _ _ _ P met => st_dram C hl hw P met⟩⟩

end Sys2Proof.Claims
end

section
/-! What power-up leaves: the obligation O58. -/

namespace Sys2Proof.Machine

@[simp] theorem core_reset (c : Nat) : State.reset.core c = Core.reset := rfl
@[simp] theorem reg_start (pc n lane slot bc k : Nat) (p : Priv) : (Thread.start pc n p lane slot bc).reg k = 0 := rfl
@[simp] theorem sreg_start (c n : Nat) : (BlockCore.start c []).sreg n = 0 := rfl

/-- Every predicate of a starting thread but p7 is 0 (R20, R38). -/
theorem pred_start (pc n lane slot bc k : Nat) (p : Priv) :
    (Thread.start pc n p lane slot bc).pred k = decide (k = 7) := by
  by_cases h : k = 7 <;> simp [Thread.pred, Thread.start, h]

/-- Settles O58: nothing is listed at power-up, and the start is the first of what is set off. -/
theorem resetLeaves : Obligations.ResetLeaves := by
  refine ⟨wf_reset, fun _ => rfl, fun c => by simp [Core.reset], rfl, rfl, rfl, ?start, fun _ _ => ⟨rfl, fun _ => rfl⟩⟩
  intro pc n priv lane slot bc
  refine ⟨rfl, rfl, rfl, rfl, fun k => reg_start .., fun k hk => ?_, ?_⟩
  · rw [pred_start, decide_eq_false (by omega)]
  · rw [pred_start, decide_eq_true rfl]

end Sys2Proof.Machine
end

section
/-! A lone thread whose instruction is refused at issue (R59): the exception that it takes. -/

namespace Sys2Proof.Claims

open Machine

variable {g : Grp} {i : Nat} {s : State} {b : Block} {t : Thread} {x : BlockCore} {ins : Instr} {u : Use} {e : Exc}
  {vals : List DWord} {srcs : List Src}

theorem sendBlockRecord_taken (w : State) (k : Nat) (r : FaultRec) (c e : Nat) :
    (w.sendBlockRecord k r).taken c e = (w.taken c e).sendBlockRecord k r := by
  have part : ∀ p, (w.taken c e).part p = w.part p := fun _ => rfl
  have send : ∀ p n, (w.sendRecord p n r).1.taken c e = ((w.taken c e).sendRecord p n r).1 := fun p n => by
    unfold State.sendRecord
    rw [part]
    cases w.part p with
    | none => rfl
    | some y => dsimp only; split <;> rfl
  have block : (w.taken c e).block k = w.block k := rfl
  unfold State.sendBlockRecord
  rw [block]
  dsimp only
  cases (w.block k).part with
  | none => rfl
  | some p => exact send p _

/-- An exception does not touch the answers of other packages. -/
theorem faultThread_taken (w : State) (o : Option Instr) (c n : Nat) :
    (faultThread w g i o vals e).taken c n = faultThread (w.taken c n) g i o vals e := by
  unfold faultThread
  dsimp only
  rw [sendBlockRecord_taken]
  split <;> rfl

/-- The exception of a lone thread's instruction that acts for each thread. -/
theorem traps_taken (A : Alone s g i b t x) (hc : e.cls ≠ .poison)
    (h : exec ins s = finish ((faultThread (issued s g i ins srcs) g i (some ins) vals e).taken g.core g.e) g) :
    Traps s g i b t ins vals e := by
  rw [faultThread_taken] at h
  have N := (near_issued (l := []) (j := t.bc) A pre_sregsOnly pre_quiet quiet_modBlock quiet_modCore ins srcs).trans
    pre_sregsOnly pre_quiet (near_taken pre_sregsOnly (fun _ _ => rfl) _)
  have own : ((issued s g i ins srcs).taken g.core g.e).thread g.block i =
      { t with pc := t.pc + lenOf ins, rep := none, tsLatch := latched s t srcs } := issued_eq A ins srcs
  exact ⟨_, h, fault_alone A N (by rw [own]) hc⟩

/-- The checks refuse the lone thread: it takes their exception, and nothing else happens. -/
theorem prepare_refused (A : Alone s g i b t x) (act : Active u.com t) {c : Cls}
    (h : checkThread (advance (closeChain s g) g (lenOf ins)) g u i = some c) :
    prepare (closeChain s g) g ins u = (faultThread (issued s g i ins []) g i (some ins) [] (Exc.of c), []) := by
  have lone : g.active u.com (closeChain s g) = [i] := active_alone A act
  have none_captured : issued s g i ins [] = advance (closeChain s g) g (lenOf ins) := by
    simp [issued, captureTime]
  simp only [prepare, lone, checkAll, h, none_captured]

theorem each_refused (A : Alone s g i b t x) (act : Active u.com t) {c : Cls}
    (h : checkThread (advance (closeChain s g) g (lenOf ins)) g u i = some c)
    (f : Grp → Nat → List DWord → State → Effect) :
    eachThread ins u f s =
      finish ((faultThread (issued s g i ins []) g i (some ins) [] (Exc.of c)).taken g.core g.e) g := by
  simp only [eachThread, A.group, prepare_refused A act h, runThreads, conclude]

theorem once_refused (A : Alone s g i b t x) (act : Active u.com t) {c : Cls}
    (h : checkThread (advance (closeChain s g) g (lenOf ins)) g u i = some c)
    (f : Grp → Nat → List DWord → State → Once) :
    onceThread ins u f s = finish (faultThread (issued s g i ins []) g i (some ins) [] (Exc.of c)) g := by
  simp only [onceThread, A.group, prepare_refused A act h]

/-- A thread without the privilege that an instruction needs is refused for that first (R59). -/
theorem check_level (A : Alone s g i b t x) (h : t.priv.level < u.level) (n : Nat) :
    checkThread (advance (closeChain s g) g n) g u i = some .privilege := by
  rw [checkThread, thread_advance A]
  exact if_pos h

/-! ### Instructions of a steward in a user's thread -/

section
variable {com : Com} {dsts : List Src}

theorem each_user (A : Alone s g i b t x) (act : Active com t) (user : t.priv = .user)
    {f : Grp → Nat → List DWord → State → Effect}
    (h : exec ins s = eachThreadNoBoot ins (Use.stew com srcs dsts) f s) :
    Traps s g i b t ins [] (Exc.of .privilege) := by
  refine traps_taken (srcs := []) A (by decide) (h.trans ?_)
  rw [eachThreadNoBoot, A.group]
  dsimp only
  rw [barBoot_alone A (by rw [user]; decide)]
  exact each_refused (u := Use.stew com srcs dsts) A act (check_level A (by rw [user]; exact Nat.zero_lt_one) _) f

theorem once_user (A : Alone s g i b t x) (act : Active com t) (user : t.priv = .user)
    {f : Grp → Nat → List DWord → State → Once}
    (h : exec ins s = onceThreadNoBoot ins (Use.stew com srcs dsts) f s) :
    Traps s g i b t ins [] (Exc.of .privilege) := by
  refine traps_of (srcs := []) A (by decide) (h.trans ?_)
  rw [onceThreadNoBoot, A.group]
  dsimp only
  rw [barBoot_alone A (by rw [user]; decide)]
  exact once_refused (u := Use.stew com srcs dsts) A act (check_level A (by rw [user]; exact Nat.zero_lt_one) _) f

end

/-- Settles O35: an instruction of a steward acts for each thread or once, and its first check is that of privilege. -/
theorem stewardInstructionsNeedPrivilege : Obligations.StewardInstructionsNeedPrivilege := by
  intro ins com srcs dsts s g i b t x form A act user
  cases ins with
  | launch | graphRun | graphPatch | scrub | tlbiVa | tlbiAll | harvest | moor =>
    cases form
    exact once_user A act user rfl
  | tretRep | tretSkip | tretKill | tretCan | tretKillb | tretPre =>
    cases form
    exact each_user A act user rfl
  | _ => cases form

end Sys2Proof.Claims
end

section
/-! Instructions of the vector pipes that write one destination: what each computes, and that the lone thread that may issue
it completes it. The first part of the obligation O1, and the ground of O6 and O9. -/

namespace Sys2Proof.Claims

open Machine

variable {g : Grp} {i : Nat} {s : State} {b : Block} {t : Thread} {x : BlockCore} {ins : Instr} {f : VecForm}

theorem mode_congr {t u : Thread} (h : u.fpcsr = t.fpcsr) (r : Rnd) : u.mode r = t.mode r := by
  unfold Thread.mode Thread.rm
  rw [h]

/-- The flags stand in FPCSR bits 4:0 (R26). -/
theorem flags_bits_lt (fl : Flags) : fl.bits < 32 := by
  obtain ⟨nv, of, uf, nx, sat⟩ := fl
  revert nv of uf nx sat
  decide

/-- The instruction of that form is one operation, whose result `fn` makes of the thread's rounding mode and predicates and
of the source values. -/
structure Computes (ins : Instr) (f : VecForm) (fn : Thread → List DWord → DWord × Flags) : Prop where
  congr : ∀ t u : Thread, u.fpcsr = t.fpcsr → u.preds = t.preds → fn u = fn t
  exec : ∀ s, exec ins s = execVec ins f.com [VecOp.simple f.out f.pipe f.srcs f.wide fn] s

/-- The result of a function, kept to the width of the form's destination. -/
def VecForm.cut (f : VecForm) (v : DWord) : DWord := if f.wide then v else low32 v

theorem latches_of_eq {pipe lane : Nat} {out : Out} {v : DWord} (h : latchVal s g pipe out.lt.toNat lane = v) :
    Latches s g pipe out lane v :=
  ⟨congrArg (BitVec.getLsbD · 0) h, fun _ => h⟩

/-- A lone thread that may issue the instruction completes it with the result of its function. -/
theorem Computes.wrote {fn : Thread → List DWord → DWord × Flags} (H : Computes ins f fn) (C : CanForm s g i b t x f) :
    let r := fn t (f.srcs.map (reads s g f.pipe i))
    FormWrote s g i b t x ins f (f.cut r.1) (BitVec.ofNat 32 r.2.bits) := by
  have all := vec_alone C.alone ins f.com (VecOp.simple f.out f.pipe f.srcs f.wide fn) C.active
    (fun u hf hp => by simp only [VecOp.simple, H.congr t u hf hp]) (fun _ => rfl) C.readable C.writable
  obtain ⟨s', t', run, ran, quiet, pc, flags, ts, holds, latch⟩ := all
  exact ⟨s', t', (H.exec s).trans run, ran, quiet, pc, flags, ts, holds, latches_of_eq latch⟩

/-- Every instruction of a form computes. -/
theorem computes_of_vecForm (h : vecForm ins = some f) : ∃ fn, Computes ins f fn := by
  cases ins with
  | add | sub | mul | min | max | and | or | xor | andn | mulh | div | rem | fadd | fsub | fmul | fmin | fmax | cmp | fcmp
  | bfx | fscale | dham | abs | neg | not | mov | frnd | brev | clz | ctz | popc | fclass | unpack | mad | bfi | sel | funnel
  | pack | bscale | lea | leah | swin | plut | pmovGet | movi | ddot | dl2 =>
    cases h
    exact ⟨_, fun t u hf hp => by simp only [mode_congr hf, hp], fun _ => rfl⟩
  | shl y c | shr y c | sra y c | rot y c =>
    cases h
    cases c <;> exact ⟨_, fun t u hf hp => rfl, fun _ => rfl⟩
  | ffma y r =>
    obtain ⟨com, out, ty, variant, a, b, c, imm⟩ := y
    cases h
    cases imm <;> exact ⟨_, fun t u hf hp => by simp only [mode_congr hf], fun s => rfl⟩
  | bsel y =>
    obtain ⟨com, out, ty, variant, a, b, c, imm⟩ := y
    cases h
    cases imm <;> exact ⟨_, fun t u hf hp => rfl, fun s => rfl⟩
  | cvt y src r rd =>
    cases h
    exact ⟨_, fun t u hf hp => by simp only [mode_congr hf], fun s => rfl⟩
  | _ => cases h

/-- The first part of O1. -/
theorem vecForm_completes (h : vecForm ins = some f) (C : CanForm s g i b t x f) :
    ∃ v fl, fl.toNat < 32 ∧ FormWrote s g i b t x ins f v fl := by
  obtain ⟨fn, H⟩ := computes_of_vecForm h
  refine ⟨_, _, ?_, H.wrote C⟩
  rw [BitVec.toNat_ofNat]
  exact lt_of_le_of_lt (Nat.mod_le _ _) (flags_bits_lt _)

end Sys2Proof.Claims
end

section
/-! The course of a vector instruction of a lone thread, operation by operation: a pair has two, and an operation may write
predicates beside its destination. The second part of the obligation O1. -/

namespace Sys2Proof.Claims

open Machine

variable {g : Grp} {i j : Nat} {s w : State} {b : Block} {t u : Thread} {x : BlockCore} {ins : Instr} {c : Com}
  {op : VecOp} {ops : List VecOp} {vals : List DWord} {l : List Src}

/-! ### Up to the results -/

/-- The state in which a lone thread's vector instruction writes its results. -/
def vecIssued (s : State) (g : Grp) (i : Nat) (ins : Instr) (c : Com) (srcs : List Src) : State :=
  captureTime (advance (chainStep s g c) g (lenOf ins)) g i srcs

theorem near_vecIssued (A : Alone s g i b t x) (srcs : List Src) :
    Near g i j l SregsOnly Quiet s (vecIssued s g i ins c srcs) :=
  ((near_chainStep pre_sregsOnly quiet_modCore s c).trans pre_sregsOnly pre_quiet
    (near_advance pre_sregsOnly quiet_modBlock quiet_modCore pre_quiet A.one _ _)).trans pre_sregsOnly pre_quiet
    (near_captureTime pre_sregsOnly quiet_modBlock pre_quiet _ _)

theorem thread_vecAdvance (A : Alone s g i b t x) (n : Nat) :
    (advance (chainStep s g c) g n).thread g.block i = { t with pc := t.pc + n, rep := none } := by
  have hB : Kv.find g.block ((chainStep s g c).noteIssue g.core g.e).blocks = some b := A.block
  rw [State.thread, advance, passInstr, State.block_of_find (by rw [State.find_modBlock_self, hB]; rfl), Block.thread,
    Kv.get_of_find (by rw [Block.find_mapThreads, A.thread]; rfl)]
  simp [A.one, A.own]

theorem thread_vecIssued (A : Alone s g i b t x) (srcs : List Src) :
    (vecIssued s g i ins c srcs).thread g.block i =
      { t with pc := t.pc + lenOf ins, rep := none, tsLatch := latched s t srcs } := by
  unfold vecIssued captureTime latched
  simp only [A.own, Option.isNone_none, Bool.true_and]
  split
  · have N : Near g i t.bc [] SregsOnly Quiet s (advance (chainStep s g c) g (lenOf ins)) :=
      (near_chainStep pre_sregsOnly quiet_modCore s c).trans pre_sregsOnly pre_quiet
        (near_advance pre_sregsOnly quiet_modBlock quiet_modCore pre_quiet A.one _ _)
    obtain ⟨b', hb', nb⟩ := N.blk b A.block
    obtain ⟨t', ht', -⟩ := nb.thread t A.thread
    rw [thread_modThread hb' ht', ← thread_of_find hb' ht', thread_vecAdvance A]
    rfl
  · rw [thread_vecAdvance A]

/-- The operations' checks pass for the lone thread. -/
structure OpsReady (s : State) (g : Grp) (c : Com) (t : Thread) (ops : List VecOp) : Prop where
  sources : ∀ op ∈ ops, ∀ y ∈ op.srcs, Readable t true y ∧ Fresh s g c op.pipe y
  dests : ∀ op ∈ ops, op.out.wbs = false → Writable t (op.out.dst, op.wide)

theorem checkVec_ready (R : OpsReady s g c t ops) (hn : (w.thread g.block i).nreg = t.nreg)
    (fresh : ∀ op ∈ ops, ∀ y ∈ op.srcs, latchStale w g op.pipe y = false) : checkVec w g ops i = none := by
  have legal : (ops.any fun op => op.srcs.any (srcBad t.nreg true) || (!op.out.wbs && dstBad t.nreg (op.out.dst, op.wide))) =
      false := by
    rw [List.any_eq_false]
    intro op hop
    have reads : op.srcs.any (srcBad t.nreg true) = false := by
      rw [List.any_eq_false]; intro y hy; rw [(R.sources op hop y hy).1]; simp
    cases hw : op.out.wbs with
    | true => simp [reads]
    | false => simp [reads, show dstBad t.nreg (op.out.dst, op.wide) = false from R.dests op hop hw]
  have written : (ops.any fun op => op.srcs.any (latchStale w g op.pipe)) = false := by
    rw [List.any_eq_false]
    intro op hop
    rw [Bool.not_eq_true, List.any_eq_false]
    intro y hy
    rw [fresh op hop y hy]; simp
  simp only [checkVec, hn, legal, written, Bool.false_eq_true, if_false]

/-- A vector instruction of a lone thread comes to its results. -/
theorem execVec_ready (A : Alone s g i b t x) (act : Active c t) (R : OpsReady s g c t ops) (ins : Instr) :
    let srcs := (ops.map (·.srcs)).flatten
    execVec ins c ops s = finish (ops.foldl (fun s op => markLatch s g op)
      (vecThread g true i { t with pc := t.pc + lenOf ins, rep := none, tsLatch := latched s t srcs } ops
        (ops.map fun op => op.srcs.map (reads s g op.pipe i)).flatten (vecIssued s g i ins c srcs))) g := by
  intro srcs
  have hact : g.active c s = [i] := active_alone A act
  have early : checkVec (chainStep s g c) g ops i = none :=
    checkVec_ready R (congrArg Thread.nreg (thread_of_find A.block A.thread)) fun op hop y hy =>
      (vec_reads A c 0 op.pipe (R.sources op hop y hy).2).2.2
  have late : checkVec (advance (chainStep s g c) g (lenOf ins)) g ops i = none :=
    checkVec_ready R (by rw [thread_vecAdvance A]; rfl) fun op hop y hy =>
      (vec_reads A c _ op.pipe (R.sources op hop y hy).2).2.1
  have read : readVec (advance (chainStep s g c) g (lenOf ins)) g ops i =
      (ops.map fun op => op.srcs.map (reads s g op.pipe i)).flatten :=
    congrArg List.flatten (List.map_congr_left fun op hop => List.map_congr_left fun y hy =>
      (vec_reads A c _ op.pipe (R.sources op hop y hy).2).1)
  have own := thread_vecIssued (ins := ins) (c := c) A srcs
  rw [vecIssued] at own
  simp only [execVec, A.group, hact, List.any_cons, early, Option.isSome_none, List.any_nil, Bool.or_false, Bool.and_false,
    Bool.false_eq_true, if_false, checkVecAll, late, read, vecThreads]
  rw [own]
  rfl

/-! ### One operation's results -/

/-- What an operation changes of the thread once its destination is written: flags and predicates. -/
def opMark (r : DWord × Flags × List (Nat × Bool)) (u : Thread) : Thread :=
  r.2.2.foldl (fun t y => t.setPred y.1 y.2) (u.raiseFlags r.2.1)

/-- What the operation's latch and destination take. -/
def opValue (op : VecOp) (r : DWord × Flags × List (Nat × Bool)) : DWord := if op.wide then r.1 else low32 r.1

/-- An operation of the lone thread writes its result (R55). -/
def opDone (g : Grp) (i : Nat) (op : VecOp) (r : DWord × Flags × List (Nat × Bool)) (w : State) : State :=
  (writeVec w g i true op r.1).modThread g.block i (opMark r)

theorem vecThread_cons (op : VecOp) (ops : List VecOp) (vals : List DWord) (w : State) :
    vecThread g true i u (op :: ops) vals w =
      vecThread g true i u ops (vals.drop op.srcs.length) (opDone g i op (op.fn u (vals.take op.srcs.length)) w) := rfl

theorem foldl_setPred (ps : List (Nat × Bool)) (u : Thread) :
    ps.foldl (fun t y => t.setPred y.1 y.2) u = { u with preds := (ps.foldl (fun t y => t.setPred y.1 y.2) u).preds } := by
  induction ps generalizing u with
  | nil => rfl
  | cons p ps ih =>
    have one : u.setPred p.1 p.2 = { u with preds := (u.setPred p.1 p.2).preds } := by
      unfold Thread.setPred; split <;> rfl
    rw [List.foldl_cons, ih, one]

theorem mark_eq (r : DWord × Flags × List (Nat × Bool)) (u : Thread) :
    opMark r u = { u with fpcsr := u.fpcsr ||| BitVec.ofNat 32 r.2.1.bits, preds := (opMark r u).preds } := by
  rw [opMark, foldl_setPred]
  rfl

theorem tnear_mark {r : DWord × Flags × List (Nat × Bool)} (hp : ∀ p ∈ r.2.2, p.1 < 8 ∧ namesP l p.1) (u : Thread) :
    TNear l u (opMark r u) := by
  have raised : TNear l u (u.raiseFlags r.2.1) := ⟨rfl, id, fun _ _ => rfl, fun _ _ _ => rfl⟩
  unfold opMark
  generalize r.2.2 = ps at hp
  generalize u.raiseFlags r.2.1 = v at raised
  induction ps generalizing v with
  | nil => exact raised
  | cons p ps ih =>
    have ⟨first, rest⟩ := List.forall_mem_cons.1 hp
    exact ih rest _ (raised.trans (TNear.setPred first.1 first.2 v))

/-- The latch that an operation targets takes a value in a lane. -/
def setLatch (g : Grp) (op : VecOp) (lane : Nat) (v : DWord) (w : State) : State :=
  w.modEntry g.core g.e fun en =>
    { en with latches := Kv.set 0 ((op.pipe * 4 + op.out.lt.toNat) * 64 + lane) v en.latches }

theorem near_setLatch (op : VecOp) (lane : Nat) (v : DWord) (w : State) :
    Near g i j l SregsOnly Quiet w (setLatch g op lane v w) :=
  near_modEntry pre_sregsOnly (fun s f => quiet_modCore s _ f) fun _ _ => ⟨rfl, rfl⟩

theorem latchVal_setLatch (he : w.entry g.core g.e ≠ none) (op : VecOp) (lane p n : Nat) (v : DWord) :
    latchVal (setLatch g op lane v w) g p n lane =
      if p * 4 + n = op.pipe * 4 + op.out.lt.toNat then v else latchVal w g p n lane := by
  obtain ⟨en, he⟩ := Option.ne_none_iff_exists'.1 he
  rw [setLatch, latchVal, State.entry_modEntry_self, he, latchVal, he]
  simp only [Option.map_some, Kv.get_set]
  by_cases e : p * 4 + n = op.pipe * 4 + op.out.lt.toNat
  · rw [if_pos e, if_pos (by omega)]
  · rw [if_neg e, if_neg (by omega)]

/-- An operation writes its latch, then its destination. -/
theorem writeVec_eq (hw : w.thread g.block i = u) (op : VecOp) (v : DWord) :
    writeVec w g i true op v =
      let r := if op.wide then v else low32 v
      if op.out.wbs then setLatch g op u.lane r w
      else writeDst (setLatch g op u.lane r w) g.block i true (op.out.dst, op.wide) r := by
  rw [writeVec, hw]
  rfl

section
variable {r : DWord × Flags × List (Nat × Bool)} (hb : Kv.find g.block w.blocks = some b)
  (ht : Kv.find i b.threads = some u)
include hb ht

theorem near_opDone (hd : op.out.wbs = false → (op.out.dst, op.wide) ∈ l) (hp : ∀ p ∈ r.2.2, p.1 < 8 ∧ namesP l p.1) :
    Near g i u.bc l SregsOnly Quiet w (opDone g i op r w) := by
  have marked := fun v => near_modThread (g := g) (i := i) (j := u.bc) (s := v) pre_sregsOnly
    (fun s f => quiet_modBlock s g.block f) (tnear_mark (l := l) hp)
  unfold opDone
  rw [writeVec_eq (thread_of_find hb ht)]
  refine Near.trans pre_sregsOnly pre_quiet ?_ (marked _)
  dsimp only
  split
  · exact near_setLatch ..
  · rename_i hw
    exact (near_setLatch op u.lane _ w).trans pre_sregsOnly pre_quiet (near_writeDst (fun _ _ => rfl) pre_sregsOnly
      quiet_modBlock pre_quiet _ _ (hd (by simpa using hw)) (congrArg Thread.bc (thread_of_find hb ht)))

/-- The thread between an operation's destination and its flags. -/
theorem thread_writeVec (v : DWord) :
    ∃ b1 u1, Kv.find g.block (writeVec w g i true op v).blocks = some b1 ∧ Kv.find i b1.threads = some u1 ∧
      u1 = { u with regs := u1.regs, preds := u1.preds } ∧ (op.out.wbs = true → u1 = u) := by
  rw [writeVec_eq (thread_of_find hb ht)]
  dsimp only
  split
  · exact ⟨b, u, hb, ht, rfl, fun _ => rfl⟩
  · rename_i hw
    generalize hv : (if op.wide then v else low32 v) = r
    generalize h1 : setLatch g op u.lane r w = w1
    have hb1 : Kv.find g.block w1.blocks = some b := by rw [← h1]; exact hb
    have N := near_writeDst (s := w1) (l := [(op.out.dst, op.wide)]) (fun _ _ => rfl) pre_sregsOnly quiet_modBlock pre_quiet
      true r List.mem_cons_self (congrArg Thread.bc (thread_of_find hb1 ht))
    obtain ⟨b2, hb2, nb⟩ := N.blk b hb1
    obtain ⟨u2, hu2, -⟩ := nb.thread u ht
    have own := thread_writeDst hb1 ht true (op.out.dst, op.wide) r
    rw [thread_of_find hb2 hu2] at own
    exact ⟨b2, u2, hb2, hu2, own, fun h => absurd h hw⟩

/-- Of the thread an operation changes registers, predicates and flags alone; of its predicates, where its destination is
suppressed, those alone that it writes beside it. -/
theorem thread_opDone :
    ∃ b1 u1, Kv.find g.block (opDone g i op r w).blocks = some b1 ∧ Kv.find i b1.threads = some u1 ∧
      u1 = { u with regs := u1.regs, preds := u1.preds, fpcsr := u.fpcsr ||| BitVec.ofNat 32 r.2.1.bits } ∧
      (op.out.wbs = true → u1 = opMark r u) := by
  obtain ⟨b1, u1, hb1, hu1, own, kept⟩ := thread_writeVec (op := op) hb ht r.1
  refine ⟨_, opMark r u1, by rw [opDone, State.modThread, State.find_modBlock_self, hb1]; rfl,
    by rw [Kv.find_modify_self, hu1]; rfl, ?_, fun h => by rw [kept h]⟩
  rw [mark_eq, own]

theorem latchVal_writeVec (he : w.entry g.core g.e ≠ none) (v : DWord) (p n : Nat) :
    latchVal (writeVec w g i true op v) g p n u.lane =
      if p * 4 + n = op.pipe * 4 + op.out.lt.toNat then (if op.wide then v else low32 v) else latchVal w g p n u.lane := by
  rw [writeVec_eq (thread_of_find hb ht)]
  dsimp only
  split
  · exact latchVal_setLatch he ..
  · rw [latchVal_writeDst]; exact latchVal_setLatch he ..

/-- An operation's latch takes its result, and every other latch is as it was (R55). -/
theorem latchVal_opDone (he : w.entry g.core g.e ≠ none) (p n : Nat) :
    latchVal (opDone g i op r w) g p n u.lane =
      if p * 4 + n = op.pipe * 4 + op.out.lt.toNat then opValue op r else latchVal w g p n u.lane :=
  (latchVal_modBlock ..).trans (latchVal_writeVec hb ht he r.1 p n)

/-- The destination of an operation that writes no predicate beside it holds its result. -/
theorem holds_opDone (hx : Kv.find u.bc b.cores = some x) (hp : r.2.2 = []) (hw : op.out.wbs = false) :
    Holds (opDone g i op r w) g.block i (op.out.dst, op.wide) (opValue op r) := by
  obtain ⟨b1, u1, hb1, hu1, -⟩ := thread_writeVec (op := op) hb ht r.1
  have held : Holds (writeVec w g i true op r.1) g.block i (op.out.dst, op.wide) (opValue op r) := by
    rw [writeVec_eq (thread_of_find hb ht)]
    simp only [hw, Bool.false_eq_true, if_false]
    exact holds_writeDst (s := setLatch g op u.lane _ w) hb ht hx _ _
  have own : (opDone g i op r w).thread g.block i = opMark r u1 := thread_modThread hb1 hu1
  have mark : opMark r u1 = { u1 with fpcsr := (opMark r u1).fpcsr } := by rw [opMark, hp]; rfl
  have cores : ((opDone g i op r w).block g.block).cores = ((writeVec w g i true op r.1).block g.block).cores := by
    rw [opDone, block_modThread hb1, State.block_of_find hb1]
  refine holds_congr ?_ ?_ ?_ cores held
  all_goals rw [own, thread_of_find hb1 hu1, mark]

end

/-! ### The end -/

theorem latchVal_congr {w' : State} (h : (w'.entry g.core g.e).map (·.latches) = (w.entry g.core g.e).map (·.latches))
    (p n lane : Nat) : latchVal w' g p n lane = latchVal w g p n lane := by
  unfold latchVal
  cases h1 : w'.entry g.core g.e <;> cases h2 : w.entry g.core g.e <;> rw [h1, h2] at h
  · cases h
  · cases h
  · simp only [Option.map_some, Option.some.injEq] at h
    simp only [h]

theorem marks_latches (ops : List VecOp) (w : State) :
    ((ops.foldl (fun s op => markLatch s g op) w).entry g.core g.e).map (·.latches) =
      (w.entry g.core g.e).map (·.latches) := by
  induction ops generalizing w with
  | nil => rfl
  | cons op ops ih =>
    rw [List.foldl_cons, ih, markLatch, State.entry_modEntry_self, Option.map_map]
    rfl

theorem near_marks (ops : List VecOp) (w : State) :
    Near g i j l SregsOnly Quiet w (ops.foldl (fun s op => markLatch s g op) w) := by
  induction ops generalizing w with
  | nil => exact .refl pre_sregsOnly pre_quiet w
  | cons op ops ih =>
    exact (near_markLatch pre_sregsOnly quiet_modCore w op).trans pre_sregsOnly pre_quiet (ih _)

theorem marks_blocks (ops : List VecOp) (w : State) :
    (ops.foldl (fun s op => markLatch s g op) w).blocks = w.blocks := by
  induction ops generalizing w with
  | nil => rfl
  | cons op ops ih => rw [List.foldl_cons, ih]; rfl

/-- A lone thread's vector instruction whose results stand in `w` is over, with nothing else changed. -/
theorem vec_finish (A : Alone s g i b t x) (N : Near g i t.bc l SregsOnly Quiet s w) (ops : List VecOp) :
    ∃ s', finish (ops.foldl (fun s op => markLatch s g op) w) g = .next s' ∧
      Ran s s' g i b t x l SregsOnly (w.thread g.block i) ∧ Quiet s s' ∧ s'.blocks = w.blocks ∧
      ∀ p n lane, latchVal s' g p n lane = latchVal w g p n lane := by
  have N1 := N.trans pre_sregsOnly pre_quiet (near_marks ops w)
  obtain ⟨N2, hb2⟩ := near_regroup pre_sregsOnly quiet_modCore A N1
  have N3 := N1.trans pre_sregsOnly pre_quiet N2
  obtain ⟨t', R, -⟩ := ran_of_near A N3
  have blocks := hb2.trans (marks_blocks (g := g) ops w)
  have own : w.thread g.block i = t' := by
    rw [← R.thread.2.1, State.thread, State.thread, State.block, State.block, blocks]
  refine ⟨_, rfl, own ▸ R, N3.quiet, blocks, fun p n lane => ?_⟩
  obtain ⟨⟨en, he, hk, hm⟩, -⟩ := A.entry
  obtain ⟨en1, he1, hk1, hm1⟩ := N1.entry en he
  obtain ⟨t1, R1, hb1, ht1, -⟩ := ran_of_near A N1
  rw [regroup_alone he1 (hm1.trans hm) (by rw [hk1, hk]; exact hb1) ht1 (by rw [R1.thread.2.2]; exact A.ready)]
  refine latchVal_congr ?_ p n lane
  rw [State.entry_modEntry_self, Option.map_map, ← marks_latches ops w]
  rfl

end Sys2Proof.Claims
end

section
/-! A pair of P96 for a lone thread; the obligation O1. -/

namespace Sys2Proof.Claims

open Machine

variable {g : Grp} {i : Nat} {s : State} {b : Block} {t : Thread} {x : BlockCore} {c : Com} {p q : VecOp}

/-- The destinations of an operation. -/
def opDsts (op : VecOp) : List Src := if op.out.wbs then [] else [(op.out.dst, op.wide)]

theorem mem_opDsts {op : VecOp} (h : op.out.wbs = false) : (op.out.dst, op.wide) ∈ opDsts op := by
  simp [opDsts, h]

/-- The lone thread as the operations find it. -/
def vecThreadNow (s : State) (t : Thread) (ins : Instr) (srcs : List Src) : Thread :=
  { t with pc := t.pc + lenOf ins, rep := none, tsLatch := latched s t srcs }

/-- Two operations of a lone thread that write their destinations alone, in latches of their own: both read their sources
before either writes (R51). -/
theorem vec_two (A : Alone s g i b t x) (act : Active c t) (R : OpsReady s g c t [p, q]) (ins : Instr)
    (hp : ∀ u l, (p.fn u l).2.2 = []) (hq : ∀ u l, (q.fn u l).2.2 = [])
    (apart : p.pipe * 4 + p.out.lt.toNat ≠ q.pipe * 4 + q.out.lt.toNat) :
    let u := vecThreadNow s t ins (p.srcs ++ q.srcs)
    let rp := p.fn u (p.srcs.map (reads s g p.pipe i))
    let rq := q.fn u (q.srcs.map (reads s g q.pipe i))
    ∃ s' t', execVec ins c [p, q] s = .next s' ∧ Ran s s' g i b t x (opDsts p ++ opDsts q) SregsOnly t' ∧ Quiet s s' ∧
      t'.pc = t.pc + lenOf ins ∧
      t'.fpcsr = t.fpcsr ||| BitVec.ofNat 32 rp.2.1.bits ||| BitVec.ofNat 32 rq.2.1.bits ∧
      (q.out.wbs = false → Holds s' g.block i (q.out.dst, q.wide) (opValue q rq)) ∧
      latchVal s' g p.pipe p.out.lt.toNat t.lane = opValue p rp ∧
      latchVal s' g q.pipe q.out.lt.toNat t.lane = opValue q rq := by
  intro u rp rq
  have course := execVec_ready A act R ins
  have values : (([p, q].map fun op => op.srcs.map (reads s g op.pipe i)).flatten : List DWord) =
      p.srcs.map (reads s g p.pipe i) ++ q.srcs.map (reads s g q.pipe i) := by simp
  have sources : ([p, q].map (·.srcs)).flatten = p.srcs ++ q.srcs := by simp
  dsimp only at course
  rw [values, sources, vecThread_cons, vecThread_cons, List.take_left' (by simp), List.drop_left' (by simp),
    List.take_of_length_le (by simp)] at course
  have N0 : Near g i t.bc (opDsts p ++ opDsts q) SregsOnly Quiet s (vecIssued s g i ins c (p.srcs ++ q.srcs)) :=
    near_vecIssued A _
  obtain ⟨b0, hb0, nb0⟩ := N0.blk b A.block
  obtain ⟨t0, ht0, nt0⟩ := nb0.thread t A.thread
  obtain ⟨⟨en, he, -⟩, -⟩ := A.entry
  obtain ⟨en0, he0, -⟩ := N0.entry en he
  have own0 := thread_vecIssued (ins := ins) (c := c) A (p.srcs ++ q.srcs)
  rw [thread_of_find hb0 ht0] at own0
  have bc0 : t0.bc = t.bc := by rw [own0]
  -- the first operation
  have N1 := near_opDone (op := p) (r := rp) (l := opDsts p ++ opDsts q) hb0 ht0
    (fun h => List.mem_append_left _ (mem_opDsts h)) (fun y hy => by rw [hp] at hy; cases hy)
  obtain ⟨b1, t1, hb1, ht1, own1, -⟩ := thread_opDone (op := p) (r := rp) hb0 ht0
  obtain ⟨en1, he1, -⟩ := N1.entry en0 he0
  have bc1 : t1.bc = t.bc := by rw [own1, own0]
  have lane1 : t1.lane = t0.lane := by rw [own1]
  have N01 := N0.trans pre_sregsOnly pre_quiet (bc0 ▸ N1)
  have latch1 := latchVal_opDone (op := p) (r := rp) hb0 ht0 (by rw [he0]; simp) p.pipe p.out.lt.toNat
  rw [if_pos rfl] at latch1
  -- the second operation
  have N2 := near_opDone (op := q) (r := rq) (l := opDsts p ++ opDsts q) hb1 ht1
    (fun h => List.mem_append_right _ (mem_opDsts h)) (fun y hy => by rw [hq] at hy; cases hy)
  obtain ⟨b2, t2, hb2, ht2, own2, -⟩ := thread_opDone (op := q) (r := rq) hb1 ht1
  have latch2 := fun k n => latchVal_opDone (op := q) (r := rq) hb1 ht1 (by rw [he1]; simp) k n
  obtain ⟨bn, hbn, nbn⟩ := N01.blk b A.block
  obtain ⟨x1, hx1, -⟩ := nbn.core x A.core
  rw [hb1] at hbn
  cases hbn
  obtain ⟨s', ends, ran, quiet, blocks, latches⟩ := vec_finish A (N01.trans pre_sregsOnly pre_quiet (bc1 ▸ N2)) [p, q]
  rw [thread_of_find hb2 ht2] at ran
  refine ⟨s', t2, course.trans ends, ran, quiet, by rw [own2, own1, own0], by rw [own2, own1, own0], fun h => ?_, ?_, ?_⟩
  · exact holds_blocks blocks (holds_opDone hb1 ht1 (bc1 ▸ hx1) (hq ..) h)
  · rw [latches, ← show t0.lane = t.lane by rw [own0], ← lane1, latch2, if_neg apart, lane1, latch1]
  · rw [latches, ← show t0.lane = t.lane by rw [own0], ← lane1, latch2, if_pos rfl]

/-- The operations of a pair are ready where its operands are. -/
theorem opsReady_pair {com : Com} {ha hb : PairHalf}
    (ra : ∀ y ∈ PairHalf.useSrcs ha, Readable t true y ∧ Fresh s g com 0 y)
    (rb : ∀ y ∈ PairHalf.useSrcs hb, Readable t true y ∧ Fresh s g com 1 y)
    (wa : ha.out.wbs = false → Writable t (ha.out.dst, false)) (wb : hb.out.wbs = false → Writable t (hb.out.dst, false)) :
    OpsReady s g com t [pairOp ha 0, pairOp hb 1] where
  sources := by
    intro op hop
    simp only [List.mem_cons, List.not_mem_nil, or_false] at hop
    rcases hop with rfl | rfl
    · exact ra
    · exact rb
  dests := by
    intro op hop
    simp only [List.mem_cons, List.not_mem_nil, or_false] at hop
    rcases hop with rfl | rfl
    · exact wa
    · exact wb

theorem toNat_or_lt {a b : Word} (ha : a.toNat < 32) (hb : b.toNat < 32) : (a ||| b).toNat < 32 := by
  rw [BitVec.toNat_or]
  exact Nat.or_lt_two_pow (n := 5) ha hb

theorem toNat_flags_lt (fl : Flags) : (BitVec.ofNat 32 fl.bits).toNat < 32 := by
  rw [BitVec.toNat_ofNat]
  exact lt_of_le_of_lt (Nat.mod_le _ _) (flags_bits_lt fl)

/-- Settles O1: an instruction of a form is one operation of its pipe, and a pair is two. -/
theorem vectorInstructionsComplete : Obligations.VectorInstructionsComplete := by
  refine ⟨fun ins f h s g i b t x C => vecForm_completes h C, ?_⟩
  intro com ha hb s g i b t x A act ra rb wa wb
  have lats : (pairOp ha 0).pipe * 4 + (pairOp ha 0).out.lt.toNat ≠ (pairOp hb 1).pipe * 4 + (pairOp hb 1).out.lt.toNat := by
    have : ha.out.lt.toNat < 4 := ha.out.lt.isLt
    show 0 * 4 + ha.out.lt.toNat ≠ 1 * 4 + hb.out.lt.toNat
    omega
  obtain ⟨s', t', run, ran, quiet, pc, flags, holds, la, lb⟩ :=
    vec_two A act (opsReady_pair ra rb wa wb) (.pairP96 com ha hb) (fun _ _ => rfl) (fun _ _ => rfl) lats
  rw [BitVec.or_assoc] at flags
  exact ⟨s', t', _, _, _, run, toNat_or_lt (toNat_flags_lt _) (toNat_flags_lt _), ran, quiet, pc, flags, holds,
    latches_of_eq la, latches_of_eq lb⟩

end Sys2Proof.Claims
end

section
/-! Addresses, predicate moves and byte selection: the obligation O6. -/

namespace Sys2Proof.Claims

open Machine

variable {g : Grp} {i : Nat} {s : State} {b : Block} {t : Thread} {x : BlockCore} {c : Com} {p : VecOp} {l : List Src}
  {ins : Instr} {f : VecForm}

/-- What an instruction of a form writes, from the value of its function. -/
theorem Computes.wrote_value {fn : Thread → List DWord → DWord × Flags} (H : Computes ins f fn)
    (C : CanForm s g i b t x f) {v : DWord} {fl : Word} (hv : f.cut (fn t (f.srcs.map (reads s g f.pipe i))).1 = v)
    (hf : BitVec.ofNat 32 (fn t (f.srcs.map (reads s g f.pipe i))).2.bits = fl) : FormWrote s g i b t x ins f v fl :=
  hv ▸ hf ▸ H.wrote C

/-! ### Words of 32 and 64 bits -/

theorem toNat_low32 (v : DWord) : (low32 v).toNat = v.toNat % 2 ^ 32 := by
  rw [low32, BitVec.toNat_setWidth, BitVec.toNat_setWidth]
  omega

theorem low32_of_lt {v : DWord} (h : v.toNat < 2 ^ 32) : low32 v = v := by
  apply BitVec.eq_of_toNat_eq
  rw [toNat_low32, Nat.mod_eq_of_lt h]

theorem low32_ofNat (n : Nat) : low32 (BitVec.ofNat 64 n) = BitVec.ofNat 64 (n % 2 ^ 32) := by
  apply BitVec.eq_of_toNat_eq
  rw [toNat_low32, BitVec.toNat_ofNat, BitVec.toNat_ofNat]
  omega

/-- A source of 32 bits reads zeros above. -/
theorem reads_narrow (s : State) (g : Grp) (pipe i : Nat) (o : Opnd) : (reads s g pipe i (o, false)).toNat < 2 ^ 32 := by
  show (low32 _).toNat < 2 ^ 32
  rw [toNat_low32]
  exact Nat.mod_lt _ (by decide)

theorem toNat_pairOf (lo hi : Word) : (pairOf lo hi).toNat = hi.toNat * 2 ^ 32 + lo.toNat := by
  rw [pairOf, BitVec.toNat_append, Nat.shiftLeft_eq, ← Nat.shiftLeft_eq, Nat.shiftLeft_add_eq_or_of_lt lo.isLt]

/-! ### LEA, LEAH, SWIN, PLUT and PMOV.get -/

/-- The model's effective address is that of R48, of 32 bits in the scratch spaces. -/
theorem effAddr_eq (m : MemOp) (base index : DWord) :
    effAddr m base index = if Space.far m.space then (address m base index).toNat
      else (address m base index).toNat % 2 ^ 32 := rfl

theorem lea_result {com : Com} {out : Out} {m : MemOp} (h : vecForm (.lea com out m) = some f) (C : CanForm s g i b t x f) :
    let a := address m (reads s g 0 i (m.base, Space.far m.space)) (reads s g 0 i (m.index, false))
    FormWrote s g i b t x (.lea com out m) f (if m.space = .scratch ∨ m.space = .cluster then low32 a else a) 0 := by
  intro a
  cases h
  refine Computes.wrote_value (fn := fun _ l => (BitVec.ofNat 64 (effAddr m (l.getD 0 0) (l.getD 1 0)), .none))
    ⟨fun _ _ _ _ => rfl, fun _ => rfl⟩ C ?_ rfl
  show VecForm.cut _ (BitVec.ofNat 64 (effAddr m (reads s g 0 i (m.base, Space.far m.space)) (reads s g 0 i (m.index, false)))) =
    _
  rw [effAddr_eq]
  change VecForm.cut _ (BitVec.ofNat 64 (if Space.far m.space then a.toNat else a.toNat % 2 ^ 32)) = _
  have wide : BitVec.ofNat 64 a.toNat = a := BitVec.ofNat_toNat ..
  have narrow : low32 (BitVec.ofNat 64 (a.toNat % 2 ^ 32)) = low32 a := by
    rw [low32_ofNat, Nat.mod_mod, ← low32_ofNat, wide]
  cases hm : m.space with
  | global | const => simp [VecForm.cut, Space.far]
  | scratch | cluster => simpa [VecForm.cut, Space.far] using narrow

theorem leah_result {com : Com} {out : Out} {m : MemOp} (hw : (Instr.leah com out m).wf = true)
    (h : vecForm (.leah com out m) = some f) (C : CanForm s g i b t x f) :
    FormWrote s g i b t x (.leah com out m) f
      (address m (reads s g 0 i (m.base, true)) (reads s g 0 i (m.index, false)) >>> 32) 0 := by
  cases h
  have far : Space.far m.space = true := by
    simp only [Instr.wf, Bool.and_eq_true, Bool.or_eq_true, decide_eq_true_eq] at hw
    rcases hw.2 with e | e <;> rw [e] <;> rfl
  refine Computes.wrote_value (fn := fun _ l => (BitVec.ofNat 64 (effAddr m (l.getD 0 0) (l.getD 1 0) / 2 ^ 32), .none))
    ⟨fun _ _ _ _ => rfl, fun _ => rfl⟩ C ?_ rfl
  show low32 (BitVec.ofNat 64 (effAddr m (reads s g 0 i (m.base, Space.far m.space)) (reads s g 0 i (m.index, false)) / 2 ^ 32))
    = _
  rw [effAddr_eq, far, if_pos rfl]
  generalize address m (reads s g 0 i (m.base, true)) (reads s g 0 i (m.index, false)) = a
  apply BitVec.eq_of_toNat_eq
  rw [toNat_low32, BitVec.toNat_ofNat, BitVec.toNat_ushiftRight, Nat.shiftRight_eq_div_pow]
  have := a.isLt
  omega

theorem swin_result {com : Com} {out : Out} {k : Bool} {a : Opnd} (h : vecForm (.swin com out k a) = some f)
    (C : CanForm s g i b t x f) :
    FormWrote s g i b t x (.swin com out k a) f
      (0x000FE00000000000 + (if k then 0x100000000 else 0) + reads s g 0 i (a, false)) 0 := by
  cases h
  refine Computes.wrote_value
    (fn := fun _ l => (BitVec.ofNat 64 (scratchWindow + boolNat k * 2 ^ 32 + (l.getD 0 0).toNat), .none))
    ⟨fun _ _ _ _ => rfl, fun _ => rfl⟩ C ?_ rfl
  show BitVec.ofNat 64 (scratchWindow + boolNat k * 2 ^ 32 + (reads s g 0 i (a, false)).toNat) = _
  generalize reads s g 0 i (a, false) = v
  apply BitVec.eq_of_toNat_eq
  cases k <;> simp [scratchWindow, boolNat]

theorem plut_result {com : Com} {out : Out} {tab : BitVec 8} {a b' k : Opnd}
    (h : vecForm (.plut com out tab a b' k) = some f) (C : CanForm s g i b t x f) :
    let bit (o : Opnd) : Nat := if reads s g 0 i (o, false) = 0 then 0 else 1
    FormWrote s g i b t x (.plut com out tab a b' k) f
      (if tab.getLsbD (4 * bit a + 2 * bit b' + bit k) then 1 else 0) 0 := by
  intro bit
  cases h
  refine Computes.wrote_value (fn := fun _ l =>
      let y (k : Nat) : Nat := boolNat (l.getD k 0 != 0)
      (BitVec.ofNat 64 (boolNat (tab.toNat.testBit (4 * y 0 + 2 * y 1 + y 2))), .none))
    ⟨fun _ _ _ _ => rfl, fun _ => rfl⟩ C ?_ rfl
  have truth : ∀ o : Opnd, boolNat (reads s g 0 i (o, false) != 0) = bit o := fun o => by
    by_cases e : reads s g 0 i (o, false) = 0 <;> simp [bit, boolNat, e]
  show low32 (BitVec.ofNat 64 (boolNat (tab.getLsbD (4 * boolNat (reads s g 0 i (a, false) != 0) +
    2 * boolNat (reads s g 0 i (b', false) != 0) + boolNat (reads s g 0 i (k, false) != 0))))) = _
  rw [truth, truth, truth]
  cases tab.getLsbD (4 * bit a + 2 * bit b' + bit k) <;> rfl

/-- The predicates as a number, of which bit 7 is p7 (R118). -/
theorem preds_sum (t : Thread) :
    ((List.range 8).map fun k => if t.pred k then 2 ^ k else 0).sum = 128 + t.preds.toNat := by
  have every : ∀ q : BitVec 7, ((List.range 8).map fun k =>
      if (if k = 7 then true else q.toNat.testBit k) = true then 2 ^ k else 0).sum = 128 + q.toNat := by decide
  exact every t.preds

theorem pmovGet_result {com : Com} {out : Out} (h : vecForm (.pmovGet com out) = some f) (C : CanForm s g i b t x f) :
    FormWrote s g i b t x (.pmovGet com out) f
      (BitVec.ofNat 64 ((List.range 8).map fun k => if t.pred k then 2 ^ k else 0).sum) 0 := by
  cases h
  refine Computes.wrote_value (fn := fun t _ => (BitVec.ofNat 64 (128 + t.preds.toNat), .none))
    ⟨fun _ _ _ hp => by simp only [hp], fun _ => rfl⟩ C ?_ rfl
  rw [preds_sum]
  refine low32_of_lt ?_
  have := t.preds.isLt
  rw [BitVec.toNat_ofNat]
  omega

/-! ### BSEL -/

/-- The byte that BSEL puts at place `k`. -/
def bselByte (a b c k : Nat) : Nat :=
  if (c / 2 ^ (8 * k) % 256).testBit 7 then 0 else (b * 2 ^ 32 + a) / 2 ^ (8 * (c / 2 ^ (8 * k) % 256 % 8)) % 256

theorem bselByte_lt (a b c k : Nat) : bselByte a b c k < 256 := by
  unfold bselByte
  split
  · decide
  · exact Nat.mod_lt _ (by decide)

theorem bselVal_eq (a b c : Nat) :
    bselVal a b c = bselByte a b c 0 + bselByte a b c 1 * 2 ^ 8 + bselByte a b c 2 * 2 ^ 16 + bselByte a b c 3 * 2 ^ 24 := by
  have place : ∀ k, (if (c / 2 ^ (8 * k) % 256).testBit 7 then 0
      else (b * 2 ^ 32 + a) / 2 ^ (8 * (c / 2 ^ (8 * k) % 256 % 8)) % 256 * 2 ^ (8 * k)) = bselByte a b c k * 2 ^ (8 * k) :=
    fun k => by unfold bselByte; split <;> simp
  have four : ∀ h : Nat → Nat, ((List.range 4).map h).sum = h 0 + h 1 + h 2 + h 3 := fun h => by
    simp [List.range, List.range.loop, Nat.add_assoc]
  simp only [bselVal, place]
  rw [four, Nat.mul_zero, Nat.pow_zero, Nat.mul_one]

theorem bselVal_lt (a b c : Nat) : bselVal a b c < 2 ^ 32 := by
  rw [bselVal_eq]
  have h0 := bselByte_lt a b c 0
  have h1 := bselByte_lt a b c 1
  have h2 := bselByte_lt a b c 2
  have h3 := bselByte_lt a b c 3
  omega

theorem bselVal_byte (a b c : Nat) {k : Nat} (hk : k < 4) : bselVal a b c / 2 ^ (8 * k) % 256 = bselByte a b c k := by
  have h0 := bselByte_lt a b c 0
  have h1 := bselByte_lt a b c 1
  have h2 := bselByte_lt a b c 2
  have h3 := bselByte_lt a b c 3
  rw [bselVal_eq]
  interval_cases k <;> omega

/-- BSEL's bytes, of its operands as words (R120). -/
theorem bselVal_spec {a b c : DWord} (ha : a.toNat < 2 ^ 32) (hb : b.toNat < 2 ^ 32) {k : Nat} (hk : k < 4) :
    let w := pairOf (a.setWidth 32) (b.setWidth 32)
    (BitVec.ofNat 64 (bselVal a.toNat b.toNat c.toNat) >>> (8 * k)).setWidth 8 =
      if c.getLsbD (8 * k + 7) then (0 : Byte) else (w >>> (8 * ((c.toNat / 2 ^ (8 * k)) % 8))).setWidth 8 := by
  intro w
  have hw : w.toNat = b.toNat * 2 ^ 32 + a.toNat := by
    rw [toNat_pairOf, BitVec.toNat_setWidth, BitVec.toNat_setWidth, Nat.mod_eq_of_lt ha, Nat.mod_eq_of_lt hb]
  have sign : c.getLsbD (8 * k + 7) = (c.toNat / 2 ^ (8 * k) % 256).testBit 7 := by
    rw [show (256 : Nat) = 2 ^ 8 from rfl, Nat.testBit_mod_two_pow, Nat.testBit_div_two_pow, Nat.add_comm]
    rfl
  have place : c.toNat / 2 ^ (8 * k) % 256 % 8 = c.toNat / 2 ^ (8 * k) % 8 := Nat.mod_mod_of_dvd _ (by decide)
  apply BitVec.eq_of_toNat_eq
  rw [BitVec.toNat_setWidth, BitVec.toNat_ushiftRight, BitVec.toNat_ofNat,
    Nat.mod_eq_of_lt (lt_trans (bselVal_lt ..) (by decide)), Nat.shiftRight_eq_div_pow]
  rw [show (2 ^ 8 : Nat) = 256 from rfl, bselVal_byte _ _ _ hk, bselByte, ← sign, place]
  split
  · rfl
  · rw [BitVec.toNat_setWidth, BitVec.toNat_ushiftRight, Nat.shiftRight_eq_div_pow, hw]

theorem bsel_result {y : Vec3} (h : vecForm (.bsel y) = some f) (C : CanForm s g i b t x f) :
    let w := pairOf ((reads s g 1 i (y.a, false)).setWidth 32) ((reads s g 1 i (y.b, false)).setWidth 32)
    let c : DWord := match y.imm with | some k => k.setWidth 64 | none => reads s g 1 i (y.c, false)
    ∃ v, FormWrote s g i b t x (.bsel y) f v 0 ∧ v.toNat < 2 ^ 32 ∧ ∀ k < 4, (v >>> (8 * k)).setWidth 8 =
      if c.getLsbD (8 * k + 7) then (0 : Byte) else (w >>> (8 * ((c.toNat / 2 ^ (8 * k)) % 8))).setWidth 8 := by
  intro w c
  have run : FormWrote s g i b t x (.bsel y) f (BitVec.ofNat 64 (bselVal (reads s g 1 i (y.a, false)).toNat
      (reads s g 1 i (y.b, false)).toNat c.toNat)) 0 := by
    have short : ∀ n, low32 (BitVec.ofNat 64 (bselVal (reads s g 1 i (y.a, false)).toNat
        (reads s g 1 i (y.b, false)).toNat n)) = BitVec.ofNat 64 (bselVal (reads s g 1 i (y.a, false)).toNat
        (reads s g 1 i (y.b, false)).toNat n) := fun n => by
      rw [low32_ofNat, Nat.mod_eq_of_lt (bselVal_lt ..)]
    obtain ⟨com, out, ty, variant, a, b', c', imm⟩ := y
    cases h
    cases imm with
    | none =>
      exact Computes.wrote_value (fn := fun _ l => toResult (bits (bselVal (l.getD 0 0).toNat (l.getD 1 0).toNat
        (l.getD 2 0).toNat))) ⟨fun _ _ _ _ => rfl, fun _ => rfl⟩ C (short _) rfl
    | some k =>
      have hc : c.toNat = k.toNat := by
        show (k.setWidth 64).toNat = k.toNat
        rw [BitVec.toNat_setWidth]
        exact Nat.mod_eq_of_lt (lt_trans k.isLt (by decide))
      rw [hc]
      exact Computes.wrote_value (fn := fun _ l => toResult (bits (bselVal (l.getD 0 0).toNat (l.getD 1 0).toNat
        k.toNat))) ⟨fun _ _ _ _ => rfl, fun _ => rfl⟩ C (short _) rfl
  refine ⟨_, run, ?_, fun k hk => bselVal_spec (reads_narrow ..) (reads_narrow ..) hk⟩
  rw [BitVec.toNat_ofNat, Nat.mod_eq_of_lt (lt_trans (bselVal_lt ..) (by decide))]
  exact bselVal_lt ..

/-! ### PMOV.set -/

/-- One operation of a lone thread that writes predicates alone, beside its latch. -/
theorem vec_preds (A : Alone s g i b t x) (act : Active c t) (R : OpsReady s g c t [p]) (ins : Instr)
    (hd : p.out.wbs = true) (hp : ∀ u l', ∀ y ∈ (p.fn u l').2.2, y.1 < 8 ∧ namesP l y.1) :
    let u := vecThreadNow s t ins p.srcs
    let r := p.fn u (p.srcs.map (reads s g p.pipe i))
    ∃ s', execVec ins c [p] s = .next s' ∧ Ran s s' g i b t x l SregsOnly (opMark r u) ∧ Quiet s s' ∧
      latchVal s' g p.pipe p.out.lt.toNat t.lane = opValue p r := by
  intro u r
  have course := execVec_ready A act R ins
  dsimp only at course
  rw [List.map_cons, List.map_nil, List.flatten_cons, List.flatten_nil, List.append_nil, vecThread_cons, List.map_cons,
    List.map_nil, List.flatten_cons, List.flatten_nil, List.append_nil, List.take_of_length_le (by simp)] at course
  have N0 : Near g i t.bc l SregsOnly Quiet s (vecIssued s g i ins c p.srcs) := near_vecIssued A _
  obtain ⟨b0, hb0, nb0⟩ := N0.blk b A.block
  obtain ⟨t0, ht0, -⟩ := nb0.thread t A.thread
  obtain ⟨⟨en, he, -⟩, -⟩ := A.entry
  obtain ⟨en0, he0, -⟩ := N0.entry en he
  have own0 : t0 = u := (thread_of_find hb0 ht0).symm.trans (thread_vecIssued A p.srcs)
  rw [own0] at ht0
  have N1 := near_opDone (op := p) (r := r) (l := l) hb0 ht0 (fun h => by rw [hd] at h; cases h) (hp _ _)
  obtain ⟨b1, t1, hb1, ht1, -, own1⟩ := thread_opDone (op := p) (r := r) hb0 ht0
  have latch := latchVal_opDone (op := p) (r := r) hb0 ht0 (by rw [he0]; simp) p.pipe p.out.lt.toNat
  rw [if_pos rfl] at latch
  obtain ⟨s', ends, ran, quiet, -, latches⟩ := vec_finish A (N0.trans pre_sregsOnly pre_quiet N1) [p]
  rw [thread_of_find hb1 ht1, own1 hd] at ran
  exact ⟨s', course.trans ends, ran, quiet, (latches ..).trans latch⟩

/-- The predicates p0 to p6 written from the bits of a number. -/
theorem pred_mark_bits (u : Thread) (v : Nat) (r1 : DWord) (fl : Flags) {k : Nat} (hk : k < 7) :
    (opMark (r1, fl, (List.range 7).map fun k => (k, v.testBit k)) u).pred k = v.testBit k := by
  simp only [opMark, List.range, List.range.loop, List.map_cons, List.map_nil, List.foldl_cons, List.foldl_nil]
  rw [pred_setPred _ (by omega) (by decide), pred_setPred _ (by omega) (by decide), pred_setPred _ (by omega) (by decide),
    pred_setPred _ (by omega) (by decide), pred_setPred _ (by omega) (by decide), pred_setPred _ (by omega) (by decide),
    pred_setPred _ (by omega) (by decide)]
  interval_cases k <;> rfl

theorem pmovSet_result {com : Com} {lt : BitVec 2} {a : Opnd}
    (C : CanIssueVec s g i b t x com ⟨true, .zero, lt⟩ 0 [(a, false)] false) :
    ∃ s' t', exec (.pmovSet com lt a) s = .next s' ∧
      Ran s s' g i b t x ((List.range 7).map fun k => (.p (BitVec.ofNat 3 k), false)) SregsOnly t' ∧ Quiet s s' ∧
      t'.pc = t.pc + lenOf (.pmovSet com lt a) ∧ t'.fpcsr = t.fpcsr ∧
      (∀ k < 7, t'.pred k = (reads s g 0 i (a, false)).getLsbD k) ∧ t'.pred 7 = true ∧
      latchVal s' g 0 lt.toNat t.lane = reads s g 0 i (a, false) &&& 0x7F := by
  have low : ∀ k < 7, ((reads s g 0 i (a, false)).toNat % 128).testBit k = (reads s g 0 i (a, false)).getLsbD k :=
    fun k hk => by
      rw [show (128 : Nat) = 2 ^ 7 from rfl, Nat.testBit_mod_two_pow, decide_eq_true hk]; rfl
  have R : OpsReady s g com t [⟨⟨true, .zero, lt⟩, 0, [(a, false)], false, fun _ l =>
      let v := (l.getD 0 0).toNat % 128
      (BitVec.ofNat 64 v, .none, (List.range 7).map fun k => (k, v.testBit k))⟩] :=
    ⟨by simpa using C.readable (a, false) (List.mem_singleton.2 rfl), by simp⟩
  obtain ⟨s', run, ran, quiet, latch⟩ := vec_preds
    (l := (List.range 7).map fun k => (.p (BitVec.ofNat 3 k), false)) C.alone C.active R (.pmovSet com lt a) rfl
    fun u l y hy => by
      obtain ⟨k, hk, rfl⟩ := List.mem_map.1 hy
      have hk := List.mem_range.1 hk
      refine ⟨by show k < 8; omega, _, List.mem_map.2 ⟨k, List.mem_range.2 hk, rfl⟩, _, rfl, ?_⟩
      show k = (BitVec.ofNat 3 k).toNat
      rw [BitVec.toNat_ofNat]
      omega
  refine ⟨s', _, run, ran, quiet, ?_, ?_, fun k hk => ?_, rfl, latch.trans ?_⟩
  · rw [mark_eq]; rfl
  · rw [mark_eq]
    show t.fpcsr ||| BitVec.ofNat 32 0 = t.fpcsr
    simp
  · exact (pred_mark_bits _ _ _ _ hk).trans (low k hk)
  · show low32 (BitVec.ofNat 64 ((reads s g 0 i (a, false)).toNat % 128)) = _
    apply BitVec.eq_of_toNat_eq
    rw [toNat_low32, BitVec.toNat_ofNat, BitVec.toNat_and]
    show _ = (reads s g 0 i (a, false)).toNat &&& (2 ^ 7 - 1)
    rw [Nat.and_two_pow_sub_one_eq_mod]
    omega

/-- Settles O6: each instruction from the value of its function, and PMOV.set from the predicates that it writes. -/
theorem addressAndMoveResults : Obligations.AddressAndMoveResults :=
  ⟨fun _ _ _ _ h _ _ _ _ _ _ C => lea_result h C, fun _ _ _ _ hw h _ _ _ _ _ _ C => leah_result hw h C,
    fun _ _ _ _ _ h _ _ _ _ _ _ C => swin_result h C, fun _ _ _ _ _ _ _ h _ _ _ _ _ _ C => plut_result h C,
    fun _ _ _ h _ _ _ _ _ _ C => pmovGet_result h C, fun _ _ _ h _ _ _ _ _ _ C => bsel_result h C,
    fun _ _ _ _ _ _ _ _ _ C => pmovSet_result C⟩

end Sys2Proof.Claims
end

section
/-! A vector instruction at which a thread would stop while an earlier memory instruction of its entry is pending: the earlier
one is checked first (R339), so that the exception of R59 is not taken then. This refutes the obligation O11, which asks for
the exception in every state. -/

namespace Sys2Proof.Claims

open Machine

variable {g : Grp} {i : Nat} {s : State} {b : Block} {t : Thread} {x : BlockCore} {ins : Instr} {c : Com} {ops : List VecOp}

/-- While an instruction of the entry is pending, a check that fails has that one checked first. -/
theorem execVec_pending (A : Alone s g i b t x) (act : Active c t) (hp : s.pends g = true)
    (bad : checkVec (chainStep s g c) g ops i ≠ none) :
    execVec ins c ops s = .next (s.waitFor g.core g.e [.pendingCheck g.core g.e]) := by
  have fails : (checkVec (chainStep s g c) g ops i).isSome = true := Option.isSome_iff_ne_none.2 bad
  simp only [execVec, A.group, active_alone A act, hp, List.any_cons, fails, Bool.true_or, Bool.and_self, if_true]

theorem cores_waitFor (s : State) (core e : Nat) (ev : List Instr) : (s.waitFor core e ev).cores =
    ((s.modEntry core e fun en => { en with waiting := true }).demote core e).cores := by
  simp only [State.waitFor, State.later]

/-- An entry that waits keeps its place in the table. -/
theorem entry_waitFor (s : State) (core e : Nat) (ev : List Instr) (h : s.entry core e ≠ none) :
    (s.waitFor core e ev).entry core e ≠ none := by
  have kept : ∀ (w : State) (f : Entry → Entry), w.entry core e ≠ none → (w.modEntry core e f).entry core e ≠ none :=
    fun w f hw => by rw [State.entry_modEntry_self]; simpa using hw
  have waits := kept s (fun en => { en with waiting := true }) h
  rw [State.entry, State.core, cores_waitFor]
  change (State.demote _ core e).entry core e ≠ none
  unfold State.demote
  split
  · split
    · exact kept _ _ waits
    · exact waits
  · exact waits

/-- Then the thread does not take the exception: its entry is not freed. -/
theorem not_traps_pending (A : Alone s g i b t x) (act : Active c t) (hp : s.pends g = true)
    (run : exec ins s = execVec ins c ops s) (bad : checkVec (chainStep s g c) g ops i ≠ none) {vals : List DWord} {e : Exc} :
    ¬ Traps s g i b t ins vals e := by
  rintro ⟨s', h, F⟩
  rw [run, execVec_pending A act hp bad] at h
  cases h
  obtain ⟨⟨en, he, -⟩, -⟩ := A.entry
  exact entry_waitFor s g.core g.e _ (by rw [he]; simp) F.gone

/-- A user thread whose load at 0xFF4 is pending, at an ADD of 64 bits that reads the odd register v5. -/
def loadFirst : PendInstr :=
  ⟨0xFF4, .ld ⟨false, 7, false⟩ .b32 false .relaxed (.v 8) ⟨.global, .v 2, .zero, 0, false, 0⟩, [(0, [0x8000, 0])]⟩
def stopThread : Thread := Thread.start 0x1000 32 .user 0 0 0
def stopBlock : Block :=
  { Block.nowhere with tag := 5, part := some 1, threads := [(0, stopThread)], cores := [(0, BlockCore.start 0 [])] }
def stopState : State :=
  { State.reset with
    agenda := []
    focus := .entry 0 0
    lazyMem := true
    blocks := [(5, stopBlock)]
    cores := [(0, { Core.reset with released := true, entries := [(0, { Entry.start 5 [0] (some 0) 0 with pend := [loadFirst] })] })] }
def oddAdd : Vec2 := ⟨⟨false, 7, false⟩, ⟨false, .v 20, 0⟩, .i64, false, .v 5, .op (.v 6)⟩

/-- Refutes O11: the entry of the thread has a load pending, and the illegal operand is not met before that is checked. -/
theorem not_guardsAndOperandExceptions : ¬ Obligations.GuardsAndOperandExceptions := by
  rintro ⟨-, operands⟩
  have A : Alone stopState ⟨0, 0, 5, 0x1000, [0], none⟩ 0 stopBlock stopThread (BlockCore.start 0 []) :=
    ⟨rfl, rfl, rfl, rfl, rfl, rfl, rfl⟩
  have act : Active oddAdd.com stopThread := by unfold Active; decide
  have illegal : ¬ Readable stopThread true (.v 5, true) := by unfold Readable; decide
  have traps := (operands (.add oddAdd) _ rfl stopState _ 0 stopBlock stopThread _ A act).1
    (.inl ⟨(.v 5, true), List.mem_cons_self, illegal⟩)
  obtain ⟨fn, H⟩ := computes_of_vecForm (ins := .add oddAdd) rfl
  have refused : checkVec (chainStep stopState ⟨0, 0, 5, 0x1000, [0], none⟩ oddAdd.com) ⟨0, 0, 5, 0x1000, [0], none⟩
      [VecOp.simple oddAdd.out 0 ((oddAdd.a, true) :: srcsB oddAdd.b true) true fn] 0 = some .illegalOperand := rfl
  exact not_traps_pending A act rfl (H.exec stopState) (fun none => nomatch refused.symm.trans none) traps

end Sys2Proof.Claims
end

section
/-! The value of a code of a wide floating-point format, from its fields (R75, R76): NaN, infinity, zero, and the order of the
finite values. -/

namespace Sys2Proof.Claims

open Machine

variable {f : Fmt} {r : Reading} {x y : Nat}

/-- The fields of a wide format: `k` exponent bits and `m` fraction bits below the sign. -/
structure WideFields (f : Fmt) (k : Nat) : Prop where
  exp : 0 < k
  width : f.width - 1 = k + f.m
  top : f.topExp + 1 = 2 ^ k
  frac : 2 ≤ f.m
  fits : f.m ≤ 52
  reading : ∀ r, f.readingOf r = .ieee

theorem wideFields (h : f.narrow = false) : ∃ k, WideFields f k := by
  cases f with
  | f64 => exact ⟨11, by decide, rfl, by decide, by decide, by decide, fun _ => rfl⟩
  | f32 => exact ⟨8, by decide, rfl, by decide, by decide, by decide, fun _ => rfl⟩
  | bf16 => exact ⟨8, by decide, rfl, by decide, by decide, by decide, fun _ => rfl⟩
  | f16 => exact ⟨5, by decide, rfl, by decide, by decide, by decide, fun _ => rfl⟩
  | e4m3 | e5m2 | e2m1 => cases h

section
variable {k : Nat} (W : WideFields f k)
include W

theorem fMag_lt (x : Nat) : fMag f x < (f.topExp + 1) * 2 ^ f.m := by
  rw [W.top, ← Nat.pow_add, ← W.width]
  exact Nat.mod_lt _ (Nat.two_pow_pos _)

theorem expField_le (x : Nat) : fMag f x / 2 ^ f.m ≤ f.topExp :=
  Nat.lt_succ_iff.1 (Nat.div_lt_of_lt_mul (by rw [Nat.mul_comm]; exact fMag_lt W x))

/-- The top exponent with a fraction that is not 0 is a NaN, with one that is 0 an infinity. -/
theorem fIsNan_iff (x : Nat) : fIsNan f x = true ↔ fMag f x / 2 ^ f.m = f.topExp ∧ fMag f x % 2 ^ f.m ≠ 0 := by
  have le := expField_le W x
  have split := Nat.div_add_mod (fMag f x) (2 ^ f.m)
  rw [fIsNan, decide_eq_true_eq]
  constructor
  · intro h
    have e : fMag f x / 2 ^ f.m = f.topExp :=
      Nat.le_antisymm le ((Nat.le_div_iff_mul_le (Nat.two_pow_pos _)).2 (Nat.le_of_lt h))
    refine ⟨e, fun z => ?_⟩
    rw [e, z, Nat.mul_comm] at split
    omega
  · rintro ⟨e, z⟩
    rw [e, Nat.mul_comm] at split
    omega

end

theorem fIsInf_iff (x : Nat) : fIsInf f x = true ↔ fMag f x / 2 ^ f.m = f.topExp ∧ fMag f x % 2 ^ f.m = 0 := by
  rw [fIsInf, decide_eq_true_eq]
  constructor
  · intro h
    rw [h, Nat.mul_div_cancel _ (Nat.two_pow_pos _), Nat.mul_mod_left]
    exact ⟨rfl, rfl⟩
  · rintro ⟨e, z⟩
    have split := Nat.div_add_mod (fMag f x) (2 ^ f.m)
    rw [e, z, Nat.mul_comm] at split
    exact split.symm

/-- The mantissa and the exponent of a finite code. -/
def fMan (f : Fmt) (x : Nat) : Nat :=
  if fMag f x / 2 ^ f.m = 0 then fMag f x % 2 ^ f.m else 2 ^ f.m + fMag f x % 2 ^ f.m
def fExp (f : Fmt) (x : Nat) : Nat := fMag f x / 2 ^ f.m - 1

/-- The payload of a NaN, as the model holds it. -/
def fPay (f : Fmt) (x : Nat) : Nat := (fMag f x % 2 ^ f.m % 2 ^ (f.m - 1)) * 2 ^ (51 - (f.m - 1))

/-- The bit below the fraction's top says whether a NaN is quiet. -/
theorem quiet_bit {k : Nat} (W : WideFields f k) (x : Nat) :
    (fMag f x % 2 ^ f.m).testBit (f.m - 1) = x.testBit (f.m - 1) := by
  have := W.frac
  have := W.width
  rw [fMag, Nat.testBit_mod_two_pow, Nat.testBit_mod_two_pow, decide_eq_true (by omega), decide_eq_true (by omega),
    Bool.true_and, Bool.true_and]

/-- A code of a wide format is a NaN, an infinity, a zero, or a finite number in units of the smallest one. -/
inductive CodeView (f : Fmt) (x : Nat) (v : FVal) : Prop
  | nan (n : fIsNan f x = true) (i : fIsInf f x = false) (z : fIsZero f x = false)
      (h : v = .nan (fNeg f x) (x.testBit (f.m - 1)) (fPay f x))
  | inf (n : fIsNan f x = false) (i : fIsInf f x = true) (z : fIsZero f x = false) (h : v = .inf (fNeg f x))
  | zero (n : fIsNan f x = false) (i : fIsInf f x = false) (z : fIsZero f x = true) (h : v = .zero (fNeg f x))
  | fin (n : fIsNan f x = false) (i : fIsInf f x = false) (z : fIsZero f x = false)
      (h : v = .fin (fNeg f x) (fMan f x) ((fExp f x : Int) + (f.emin - (f.m : Int))))

theorem codeView (hf : f.narrow = false) (r : Reading) (x : Nat) : CodeView f x (FVal.ofBits f r x) := by
  obtain ⟨k, W⟩ := wideFields hf
  have nan := fIsNan_iff W x
  have inf := fIsInf_iff (f := f) x
  have pos : 0 < f.topExp := by
    have : 2 ^ 1 ≤ 2 ^ k := Nat.pow_le_pow_right (by decide) W.exp
    have := W.top
    omega
  have zero : fIsZero f x = true ↔ fMag f x = 0 := by rw [fIsZero, decide_eq_true_eq]
  have ieee : ¬ (Reading.ieee = .nanOnly ∧ fMag f x = 2 ^ (f.width - 1) - 1) := fun h => nomatch h.1
  have shape : FVal.ofBits f r x =
      if fMag f x / 2 ^ f.m = f.topExp then
        if fMag f x % 2 ^ f.m = 0 then .inf (fNeg f x) else .nan (fNeg f x) ((fMag f x % 2 ^ f.m).testBit (f.m - 1)) (fPay f x)
      else if fMag f x = 0 then .zero (fNeg f x)
      else if fMag f x / 2 ^ f.m = 0 then .fin (fNeg f x) (fMag f x % 2 ^ f.m) (f.emin - (f.m : Int))
      else .fin (fNeg f x) (2 ^ f.m + fMag f x % 2 ^ f.m) ((fMag f x / 2 ^ f.m : Nat) - (f.bias : Int) - (f.m : Int)) := by
    unfold FVal.ofBits
    rw [W.reading r]
    change (if Reading.ieee = .ieee ∧ fMag f x / 2 ^ f.m = f.topExp then _ else
      if Reading.ieee = .nanOnly ∧ fMag f x = 2 ^ (f.width - 1) - 1 then _ else _) = _
    rw [if_neg ieee, if_congr (and_iff_right rfl) rfl rfl]
    rfl
  rw [shape]
  by_cases top : fMag f x / 2 ^ f.m = f.topExp
  · have nz : fIsZero f x = false := by
      rw [Bool.eq_false_iff, Ne, zero]
      intro h
      rw [h, Nat.zero_div] at top
      omega
    rw [if_pos top]
    by_cases fr : fMag f x % 2 ^ f.m = 0
    · rw [if_pos fr]
      exact .inf (by rw [Bool.eq_false_iff, Ne, nan]; exact fun h => h.2 fr) (inf.2 ⟨top, fr⟩) nz rfl
    · rw [if_neg fr, quiet_bit W]
      exact .nan (nan.2 ⟨top, fr⟩) (by rw [Bool.eq_false_iff, Ne, inf]; exact fun h => fr h.2) nz rfl
  · have nn : fIsNan f x = false := by rw [Bool.eq_false_iff, Ne, nan]; exact fun h => top h.1
    have ni : fIsInf f x = false := by rw [Bool.eq_false_iff, Ne, inf]; exact fun h => top h.1
    rw [if_neg top]
    by_cases z : fMag f x = 0
    · rw [if_pos z]
      exact .zero nn ni (zero.2 z) rfl
    · rw [if_neg z]
      have nz : fIsZero f x = false := by rw [Bool.eq_false_iff, Ne, zero]; exact z
      refine .fin nn ni nz ?_
      unfold fMan fExp
      by_cases e : fMag f x / 2 ^ f.m = 0
      · rw [if_pos e, if_pos e, e]; simp
      · rw [if_neg e, if_neg e, Fmt.emin]
        generalize fMag f x / 2 ^ f.m = q at e
        congr 1
        omega

/-! ### What the model says of such a value -/

theorem isNan_ofBits (hf : f.narrow = false) : (FVal.ofBits f r x).isNan = fIsNan f x := by
  cases codeView hf r x with
  | nan n _ _ h | inf n _ _ h | zero n _ _ h | fin n _ _ h => rw [h, n]; rfl

theorem isSnan_ofBits (hf : f.narrow = false) : (FVal.ofBits f r x).isSnan = fIsSnan f x := by
  cases codeView hf r x with
  | nan n _ _ h => rw [h, fIsSnan, n]; rfl
  | inf n _ _ h | zero n _ _ h | fin n _ _ h => rw [h, fIsSnan, n]; rfl

/-! ### The order of finite values -/

/-- A finite code's magnitude in units of the smallest one. -/
def fUnits (f : Fmt) (x : Nat) : Nat := fMan f x * 2 ^ fExp f x

/-- A larger code is a larger magnitude. -/
theorem fUnits_lt (h : fMag f x < fMag f y) : fUnits f x < fUnits f y := by
  unfold fUnits fMan fExp
  have hx := Nat.div_add_mod (fMag f x) (2 ^ f.m)
  have hy := Nat.div_add_mod (fMag f y) (2 ^ f.m)
  have bx : fMag f x % 2 ^ f.m < 2 ^ f.m := Nat.mod_lt _ (Nat.two_pow_pos _)
  have le : fMag f x / 2 ^ f.m ≤ fMag f y / 2 ^ f.m := Nat.div_le_div_right (Nat.le_of_lt h)
  generalize fMag f x / 2 ^ f.m = ex at *
  generalize fMag f y / 2 ^ f.m = ey at *
  generalize fMag f x % 2 ^ f.m = rx at *
  generalize fMag f y % 2 ^ f.m = ry at *
  rcases Nat.eq_or_lt_of_le le with e | e
  · subst e
    have fr : rx < ry := by omega
    have big : (if ex = 0 then rx else 2 ^ f.m + rx) < (if ex = 0 then ry else 2 ^ f.m + ry) := by split <;> omega
    exact Nat.mul_lt_mul_of_pos_right big (Nat.two_pow_pos _)
  · have far : 2 ^ f.m * 2 ^ (ey - 1) ≤ (if ey = 0 then ry else 2 ^ f.m + ry) * 2 ^ (ey - 1) :=
      Nat.mul_le_mul_right _ (by rw [if_neg (by omega)]; omega)
    refine Nat.lt_of_lt_of_le ?_ far
    by_cases z : ex = 0
    · subst z
      rw [if_pos rfl]
      calc rx * 2 ^ (0 - 1) = rx := by simp
        _ < 2 ^ f.m := bx
        _ ≤ 2 ^ f.m * 2 ^ (ey - 1) := Nat.le_mul_of_pos_right _ (Nat.two_pow_pos _)
    · rw [if_neg z]
      calc (2 ^ f.m + rx) * 2 ^ (ex - 1) < (2 ^ f.m * 2) * 2 ^ (ex - 1) :=
            Nat.mul_lt_mul_of_pos_right (by omega) (Nat.two_pow_pos _)
        _ = 2 ^ f.m * 2 ^ ex := by
            rw [Nat.mul_assoc, ← Nat.pow_succ', Nat.succ_eq_add_one, Nat.sub_add_cancel (by omega)]
        _ ≤ 2 ^ f.m * 2 ^ (ey - 1) := Nat.mul_le_mul_left _ (Nat.pow_le_pow_right (by decide) (by omega))

theorem fUnits_lt_iff : fUnits f x < fUnits f y ↔ fMag f x < fMag f y := by
  refine ⟨fun h => ?_, fUnits_lt⟩
  rcases Nat.lt_trichotomy (fMag f x) (fMag f y) with e | e | e
  · exact e
  · have : fUnits f x = fUnits f y := by unfold fUnits fMan fExp; rw [e]
    omega
  · have := fUnits_lt e
    omega

/-- The sign of an exact difference is that of the difference at any unit below both. -/
theorem addDyadic_neg_iff (s1 s2 : Int) (e1 e2 : Nat) (u : Int) :
    (addDyadic s1 ((e1 : Int) + u) (-s2) ((e2 : Int) + u)).1 < 0 ↔ s1 * 2 ^ e1 < s2 * 2 ^ e2 := by
  have d1 : ((e1 : Int) + u - min ((e1 : Int) + u) ((e2 : Int) + u)).toNat = e1 - min e1 e2 := by omega
  have d2 : ((e2 : Int) + u - min ((e1 : Int) + u) ((e2 : Int) + u)).toNat = e2 - min e1 e2 := by omega
  have p1 : (2 : Int) ^ e1 = 2 ^ (e1 - min e1 e2) * 2 ^ min e1 e2 := by rw [← pow_add]; congr 1; omega
  have p2 : (2 : Int) ^ e2 = 2 ^ (e2 - min e1 e2) * 2 ^ min e1 e2 := by rw [← pow_add]; congr 1; omega
  have pos : (0 : Int) < 2 ^ min e1 e2 := by positivity
  simp only [addDyadic, d1, d2]
  rw [p1, p2, ← mul_assoc, ← mul_assoc, mul_lt_mul_iff_left₀ pos, neg_mul]
  omega

theorem fMag_pos_of_not_zero (z : fIsZero f x = false) : 0 < fMag f x := by
  rw [fIsZero, decide_eq_false_iff_not] at z
  omega

theorem fMag_lt_inf (n : fIsNan f x = false) (i : fIsInf f x = false) : fMag f x < f.topExp * 2 ^ f.m := by
  rw [fIsNan, decide_eq_false_iff_not] at n
  rw [fIsInf, decide_eq_false_iff_not] at i
  omega

/-- The order of two finite numbers is that of their keys. -/
theorem totalLt_fin (zx : fIsZero f x = false) (zy : fIsZero f y = false) (u : Int) :
    totalLt (.fin (fNeg f x) (fMan f x) ((fExp f x : Int) + u)) (.fin (fNeg f y) (fMan f y) ((fExp f y : Int) + u)) =
      decide (fKeyZ f x < fKeyZ f y) := by
  have unit : ∀ c, ∀ n : Bool, signedMan n (fMan f c) * 2 ^ fExp f c = signedMan n (fUnits f c) := fun c n => by
    unfold signedMan fUnits
    cases n <;> simp
  have px := fMag_pos_of_not_zero zx
  have py := fMag_pos_of_not_zero zy
  have ux : 0 < fUnits f x := by
    have : fMag f 0 = 0 := Nat.zero_mod _
    exact Nat.lt_of_le_of_lt (Nat.zero_le _) (fUnits_lt (x := 0) (by omega))
  have uy : 0 < fUnits f y := by
    have : fMag f 0 = 0 := Nat.zero_mod _
    exact Nat.lt_of_le_of_lt (Nat.zero_le _) (fUnits_lt (x := 0) (by omega))
  have lt := fUnits_lt_iff (f := f) (x := x) (y := y)
  have gt := fUnits_lt_iff (f := f) (x := y) (y := x)
  show decide _ = _
  rw [decide_eq_decide, addDyadic_neg_iff, unit, unit]
  unfold signedMan fKeyZ
  cases fNeg f x <;> cases fNeg f y <;> simp only [if_true, if_false, Bool.false_eq_true] <;> omega

/-- The order of two values that are no NaN is that of their keys, −0 below +0 (R125). -/
theorem totalLt_ofBits (hf : f.narrow = false) (nx : fIsNan f x = false) (ny : fIsNan f y = false) :
    totalLt (FVal.ofBits f r x) (FVal.ofBits f r y) = decide (fKeyZ f x < fKeyZ f y) := by
  have infMag : ∀ {c}, fIsInf f c = true → fMag f c = f.topExp * 2 ^ f.m := fun h => of_decide_eq_true h
  have zeroMag : ∀ {c}, fIsZero f c = true → fMag f c = 0 := fun h => of_decide_eq_true h
  have below : ∀ {c}, fIsNan f c = false → fIsInf f c = false → fMag f c < f.topExp * 2 ^ f.m := fMag_lt_inf
  have vx := codeView hf r x
  have vy := codeView hf r y
  generalize f.topExp * 2 ^ f.m = top at infMag below
  cases vx with
  | nan n => rw [nx] at n; cases n
  | inf _ ix _ hx =>
    have mx := infMag ix
    cases vy with
    | nan n => rw [ny] at n; cases n
    | inf _ iy _ hy =>
      have my := infMag iy
      rw [hx, hy, fKeyZ, fKeyZ]
      cases fNeg f x <;> cases fNeg f y <;> simp [totalLt] <;> omega
    | zero _ iy _ hy | fin _ iy _ hy =>
      have my := below ny iy
      rw [hx, hy, fKeyZ, fKeyZ]
      cases fNeg f x <;> cases fNeg f y <;> simp [totalLt] <;> omega
  | zero _ ix zx hx =>
    have mx := zeroMag zx
    have bx := below nx ix
    cases vy with
    | nan n => rw [ny] at n; cases n
    | inf _ iy _ hy =>
      have my := infMag iy
      rw [hx, hy, fKeyZ, fKeyZ]
      cases fNeg f x <;> cases fNeg f y <;> simp [totalLt] <;> omega
    | zero _ _ zy hy =>
      have my := zeroMag zy
      rw [hx, hy, fKeyZ, fKeyZ]
      cases fNeg f x <;> cases fNeg f y <;> simp [totalLt] <;> omega
    | fin _ _ zy hy =>
      have my := fMag_pos_of_not_zero zy
      rw [hx, hy, fKeyZ, fKeyZ]
      cases fNeg f x <;> cases fNeg f y <;> simp [totalLt] <;> omega
  | fin _ ix zx hx =>
    have bx := below nx ix
    have px := fMag_pos_of_not_zero zx
    cases vy with
    | nan n => rw [ny] at n; cases n
    | inf _ iy _ hy =>
      have my := infMag iy
      rw [hx, hy, fKeyZ, fKeyZ]
      cases fNeg f x <;> cases fNeg f y <;> simp [totalLt] <;> omega
    | zero _ _ zy hy =>
      have my := zeroMag zy
      rw [hx, hy, fKeyZ, fKeyZ]
      cases fNeg f x <;> cases fNeg f y <;> simp [totalLt] <;> omega
    | fin _ _ zy hy => rw [hx, hy]; exact totalLt_fin zx zy _

end Sys2Proof.Claims
end

section
/-! FADD, FSUB, FMUL, FCMP, FMIN, FMAX and FCLASS on their special operands (R91, R125 to R127). -/

namespace Sys2Proof.Claims

open Machine

variable {f : Fmt} {r : Reading} {x y : Nat}

/-! ### NaNs -/

theorem or_two_pow (x k : Nat) : x ||| 2 ^ k = 2 ^ k * (2 * (x / 2 ^ k / 2) + 1) + x % 2 ^ k := by
  have odd : ∀ q : Nat, q ||| 1 = 2 * (q / 2) + 1 := fun q => by
    have half : (q ||| 1) / 2 = q / 2 := by rw [Nat.or_div_two, Nat.or_zero]
    have bit : (q ||| 1) % 2 = 1 := by rw [Nat.or_mod_two_eq_one]; exact .inr rfl
    omega
  rw [← Nat.div_add_mod (x ||| 2 ^ k) (2 ^ k), Nat.or_div_two_pow, Nat.or_mod_two_pow, Nat.mod_self, Nat.or_zero,
    Nat.div_self (Nat.two_pow_pos k), odd]

theorem toNat_testBit (x k : Nat) : boolNat (x.testBit k) = x / 2 ^ k % 2 := by
  rw [Nat.testBit_eq_decide_div_mod_eq]
  have := Nat.mod_two_eq_zero_or_one (x / 2 ^ k)
  rcases this with h | h <;> simp [h, boolNat]

/-- The model's encoding of a NaN operand is its code with the quiet bit set. -/
theorem nanBits_eq_quiet (hf : f.narrow = false) (n : fIsNan f x = true) :
    f.nanBits (fNeg f x) (fPay f x) = fQuiet f x % 2 ^ f.width := by
  obtain ⟨k, W⟩ := wideFields hf
  have top := ((fIsNan_iff W x).1 n).1
  rw [Fmt.nanBits, Fmt.signBit, fPay, Nat.mul_div_cancel _ (Nat.two_pow_pos _), fNeg, toNat_testBit, fQuiet, or_two_pow]
  rw [fMag] at top ⊢
  clear n W
  cases f with
  | f64 | f32 | bf16 | f16 =>
    simp only [Fmt.width, Fmt.m, Fmt.topExp] at top ⊢
    omega
  | e4m3 | e5m2 | e2m1 => cases hf

theorem isNan_eq (hf : f.narrow = false) (n : fIsNan f x = true) :
    FVal.ofBits f r x = .nan (fNeg f x) (x.testBit (f.m - 1)) (fPay f x) := by
  cases codeView hf r x with
  | nan _ _ _ h => exact h
  | inf n' | zero n' | fin n' => rw [n] at n'; cases n'

theorem nanOf_pair (hf : f.narrow = false) (h : fIsNan f x = true ∨ fIsNan f y = true) :
    nanOf f [FVal.ofBits f r x, FVal.ofBits f r y] =
      some (fQuiet f (if fIsNan f x then x else y) % 2 ^ f.width, .nvIf (fIsSnan f x || fIsSnan f y)) := by
  have flag : [FVal.ofBits f r x, FVal.ofBits f r y].any FVal.isSnan = (fIsSnan f x || fIsSnan f y) := by
    simp [isSnan_ofBits hf]
  rw [nanOf, flag, List.find?_cons, isNan_ofBits hf]
  cases nx : fIsNan f x with
  | true =>
    rw [isNan_eq hf nx, if_pos rfl, ← nanBits_eq_quiet hf nx]
  | false =>
    have ny : fIsNan f y = true := by simpa [nx] using h
    rw [if_neg (by decide), ← nanBits_eq_quiet hf ny, List.find?_cons, isNan_ofBits hf, ny, isNan_eq hf ny]

theorem nanOf_numbers (hf : f.narrow = false) (nx : fIsNan f x = false) (ny : fIsNan f y = false) :
    nanOf f [FVal.ofBits f r x, FVal.ofBits f r y] = none := by
  simp [nanOf, isNan_ofBits hf, nx, ny]

theorem canonNan_eq (f : Fmt) : f.canonNan = fCanon f := by
  simp [Fmt.canonNan, Fmt.nanBits, Fmt.signBit, fCanon, boolNat]

/-! ### Invalid operations -/

theorem ofBits_inf (hf : f.narrow = false) (h : fIsInf f x = true) : FVal.ofBits f r x = .inf (fNeg f x) := by
  cases codeView hf r x with
  | inf _ _ _ e => exact e
  | nan _ i | zero _ i | fin _ i => rw [h] at i; cases i

theorem ofBits_zero (hf : f.narrow = false) (h : fIsZero f x = true) : FVal.ofBits f r x = .zero (fNeg f x) := by
  cases codeView hf r x with
  | zero _ _ _ e => exact e
  | nan _ _ z | inf _ _ z | fin _ _ z => rw [h] at z; cases z

theorem ofBits_not_zero (hf : f.narrow = false) (h : fIsZero f x = false) (n : Bool) : FVal.ofBits f r x ≠ .zero n := by
  cases codeView hf r x with
  | zero _ _ z => rw [h] at z; cases z
  | nan _ _ _ e | inf _ _ _ e | fin _ _ _ e => rw [e]; exact fun h => nomatch h

/-- ∞ − ∞ (R91). -/
theorem exactAdd_invalid (hf : f.narrow = false) (mode : Rnd) (sub : Bool) (ix : fIsInf f x = true) (iy : fIsInf f y = true)
    (h : fNeg f x ≠ (fNeg f y ^^ sub)) :
    exactAdd mode (FVal.ofBits f r x) (if sub then (FVal.ofBits f r y).negate else FVal.ofBits f r y) = none := by
  rw [ofBits_inf hf ix, ofBits_inf hf iy]
  cases sub <;> simp only [Bool.xor_false, Bool.xor_true] at h
  · exact if_neg h
  · exact if_neg h

/-- ∞ × 0 (R91). -/
theorem exactMul_invalid (hf : f.narrow = false)
    (h : ((fIsInf f x && fIsZero f y) || (fIsZero f x && fIsInf f y)) = true) :
    exactMul (FVal.ofBits f r x) (FVal.ofBits f r y) = none := by
  rw [Bool.or_eq_true, Bool.and_eq_true, Bool.and_eq_true] at h
  obtain ⟨i, z⟩ | ⟨z, i⟩ := h
  · rw [ofBits_inf hf i, ofBits_zero hf z]; rfl
  · rw [ofBits_inf hf i, ofBits_zero hf z]; rfl

/-! ### Comparison and choice -/

theorem numLt_eq_totalLt {u v : FVal} (h : ∀ a b, ¬(u = .zero a ∧ v = .zero b)) : numLt u v = totalLt u v := by
  unfold numLt
  split
  · exact absurd ⟨rfl, rfl⟩ (h _ _)
  · rfl

/-- The order of two numbers is that of their keys, the zeros alike (R126). -/
theorem numLt_ofBits (hf : f.narrow = false) (nx : fIsNan f x = false) (ny : fIsNan f y = false) :
    numLt (FVal.ofBits f r x) (FVal.ofBits f r y) = decide (fKey f x < fKey f y) := by
  have mag : ∀ {c}, fIsZero f c = true → fMag f c = 0 := fun h => of_decide_eq_true h
  cases zx : fIsZero f x with
  | false =>
    have px := fMag_pos_of_not_zero zx
    rw [numLt_eq_totalLt fun a b h => ofBits_not_zero hf zx a h.1, totalLt_ofBits hf nx ny, decide_eq_decide, fKey, fKey, fKeyZ,
      fKeyZ]
    cases fNeg f x <;> cases fNeg f y <;> simp only [if_true, if_false, Bool.false_eq_true] <;> omega
  | true =>
    have mx := mag zx
    cases zy : fIsZero f y with
    | false =>
      have py := fMag_pos_of_not_zero zy
      rw [numLt_eq_totalLt fun a b h => ofBits_not_zero hf zy b h.2, totalLt_ofBits hf nx ny, decide_eq_decide, fKey, fKey,
        fKeyZ, fKeyZ]
      cases fNeg f x <;> cases fNeg f y <;> simp only [if_true, if_false, Bool.false_eq_true] <;> omega
    | true =>
      have my := mag zy
      rw [ofBits_zero hf zx, ofBits_zero hf zy, fKey, fKey, mx, my]
      simp [numLt]

/-- FCMP's truth value and flag (R126). -/
theorem fCmp_eq (hf : f.narrow = false) (c : FCond) : fCmp f c x y = (fcmpHolds f c x y,
    .nvIf (if fcmpQuietNv c then fIsNan f x || fIsNan f y else fIsSnan f x || fIsSnan f y)) := by
  unfold fCmp fcmpHolds fcmpQuietNv
  simp only [isNan_ofBits hf, isSnan_ofBits hf]
  cases un : fIsNan f x || fIsNan f y with
  | true => cases c <;> rfl
  | false =>
    obtain ⟨nx, ny⟩ := Bool.or_eq_false_iff.1 un
    rw [numLt_ofBits hf nx ny, numLt_ofBits hf ny nx]
    have cases3 := Int.lt_trichotomy (fKey f x) (fKey f y)
    have sorted : (!decide (fKey f x < fKey f y) && !decide (fKey f y < fKey f x)) = decide (fKey f x = fKey f y) := by
      rw [← decide_not, ← decide_not, ← Bool.decide_and, decide_eq_decide]
      omega
    cases c with
    | eq | lt | gt | un | num => simp [sorted]
    | ne => simp [sorted]
    | le | ge =>
      simp only [sorted, Bool.not_false, Bool.true_and, ← Bool.decide_or, Prod.mk.injEq, decide_eq_decide]
      exact ⟨by omega, rfl⟩

theorem ofBits_congr (hn : fNeg f x = fNeg f y) (hm : fMag f x = fMag f y) : FVal.ofBits f r x = FVal.ofBits f r y := by
  unfold fNeg at hn
  unfold fMag at hm
  unfold FVal.ofBits
  rw [hn, hm]

theorem ofBits_of_key (h : fKeyZ f x = fKeyZ f y) : FVal.ofBits f r x = FVal.ofBits f r y := by
  unfold fKeyZ at h
  cases nx : fNeg f x <;> cases ny : fNeg f y <;> rw [nx, ny] at h <;>
    simp only [if_true, if_false, Bool.false_eq_true] at h
  · exact ofBits_congr (nx.trans ny.symm) (by omega)
  · omega
  · omega
  · exact ofBits_congr (nx.trans ny.symm) (by omega)

/-- What FMIN and FMAX choose of two numbers: −0 is below +0 (R125). -/
def fChoice (f : Fmt) (greater : Bool) (x y : Nat) : Nat :=
  if greater then (if fKeyZ f x < fKeyZ f y then y else x) else if fKeyZ f y < fKeyZ f x then y else x

/-- What FMIN and FMAX give: a lone NaN is passed over, but under .nan (R125). -/
def fMinMaxCode (f : Fmt) (greater nanForm : Bool) (x y : Nat) : Nat :=
  if fIsNan f x && (nanForm || fIsNan f y) then fQuiet f x
  else if fIsNan f x then y
  else if fIsNan f y then (if nanForm then fQuiet f y else x)
  else fChoice f greater x y

theorem choice_eq (hf : f.narrow = false) (nx : fIsNan f x = false) (ny : fIsNan f y = false) (greater : Bool) :
    (if FVal.ofBits f r x = FVal.ofBits f r y then x
      else if totalLt (FVal.ofBits f r x) (FVal.ofBits f r y) != greater then x else y) = fChoice f greater x y := by
  have irrefl : FVal.ofBits f r x = FVal.ofBits f r y → ¬ fKeyZ f x < fKeyZ f y ∧ ¬ fKeyZ f y < fKeyZ f x := fun e => by
    have same : totalLt (FVal.ofBits f r x) (FVal.ofBits f r x) = false := by
      rw [totalLt_ofBits hf nx nx]
      exact decide_eq_false (lt_irrefl _)
    exact ⟨of_decide_eq_false ((totalLt_ofBits (r := r) hf nx ny).symm.trans (e ▸ same)),
      of_decide_eq_false ((totalLt_ofBits (r := r) hf ny nx).symm.trans (e ▸ same))⟩
  unfold fChoice
  split
  next e =>
    rw [if_neg (irrefl e).1, if_neg (irrefl e).2, ite_self]
  next e =>
    have apart : fKeyZ f x ≠ fKeyZ f y := fun h => e (ofBits_of_key h)
    rw [totalLt_ofBits hf nx ny]
    rcases Int.lt_or_gt_of_ne apart with h | h
    · cases greater <;> simp [h, not_lt_of_gt h]
    · cases greater <;> simp [h, not_lt_of_gt h]

theorem fMinMax_numbers {u v : FVal} {greater nanForm : Bool} (hu : FVal.ofBits f .ieee x = u) (hv : FVal.ofBits f .ieee y = v)
    (nu : u.isNan = false) (nv : v.isNan = false) :
    fMinMax f greater nanForm x y =
      (if u = v then x else if totalLt u v != greater then x else y, .nvIf (u.isSnan || v.isSnan)) := by
  unfold fMinMax
  rw [hu, hv]
  cases u with
  | nan => cases nu
  | zero | fin | inf =>
    cases v with
    | nan => cases nv
    | zero | fin | inf => rfl

/-- FMIN and FMAX, a quieted NaN kept to the format's width. -/
theorem fMinMax_eq (hf : f.narrow = false) (greater nanForm : Bool) :
    ((fMinMax f greater nanForm x y).1 = fMinMaxCode f greater nanForm x y ∨
      (fMinMax f greater nanForm x y).1 = fMinMaxCode f greater nanForm x y % 2 ^ f.width) ∧
    (fMinMax f greater nanForm x y).2 = .nvIf (fIsSnan f x || fIsSnan f y) := by
  have sx := isSnan_ofBits (r := .ieee) (x := x) hf
  have sy := isSnan_ofBits (r := .ieee) (x := y) hf
  unfold fMinMaxCode
  cases nx : fIsNan f x with
  | true =>
    have qx := nanBits_eq_quiet hf nx
    rw [isNan_eq hf nx] at sx
    cases ny : fIsNan f y with
    | true =>
      rw [isNan_eq hf ny] at sy
      unfold fMinMax
      rw [isNan_eq hf nx, isNan_eq hf ny]
      simp [qx, ← sx, ← sy]
    | false =>
      have notNan := isNan_ofBits (r := .ieee) (x := y) hf
      rw [ny] at notNan
      unfold fMinMax
      rw [isNan_eq hf nx, ← sx, ← sy]
      generalize FVal.ofBits f .ieee y = v at notNan
      cases v with
      | nan => cases notNan
      | zero | fin | inf => cases nanForm <;> simp [qx]
  | false =>
    have numX := isNan_ofBits (r := .ieee) (x := x) hf
    rw [nx] at numX
    cases ny : fIsNan f y with
    | true =>
      have qy := nanBits_eq_quiet hf ny
      rw [isNan_eq hf ny] at sy
      unfold fMinMax
      rw [isNan_eq hf ny, ← sx, ← sy]
      generalize FVal.ofBits f .ieee x = u at numX
      cases u with
      | nan => cases numX
      | zero | fin | inf => cases nanForm <;> simp [qy]
    | false =>
      have numY := isNan_ofBits (r := .ieee) (x := y) hf
      rw [ny] at numY
      rw [fMinMax_numbers rfl rfl numX numY, choice_eq hf nx ny, sx, sy]
      simp

/-! ### FCLASS -/

theorem log2_bound (z : fIsZero f x = false) :
    f.emin ≤ (Nat.log2 (fMan f x) : Int) + ((fExp f x : Int) + (f.emin - (f.m : Int))) ↔ 2 ^ f.m ≤ fMag f x := by
  have pos := fMag_pos_of_not_zero z
  have split := Nat.div_add_mod (fMag f x) (2 ^ f.m)
  have fr : fMag f x % 2 ^ f.m < 2 ^ f.m := Nat.mod_lt _ (Nat.two_pow_pos _)
  unfold fMan fExp
  by_cases e : fMag f x / 2 ^ f.m = 0
  · have small : fMag f x < 2 ^ f.m := by
      rw [e, Nat.mul_zero] at split
      omega
    have log : Nat.log2 (fMag f x % 2 ^ f.m) < f.m := by
      rw [Nat.mod_eq_of_lt small]
      exact (Nat.log2_lt (by omega)).2 small
    rw [if_pos e, e]
    omega
  · have large : 2 ^ f.m ≤ fMag f x := by
      by_contra h
      exact e (Nat.div_eq_of_lt (by omega))
    have log : f.m ≤ Nat.log2 (2 ^ f.m + fMag f x % 2 ^ f.m) := (Nat.le_log2 (by omega)).2 (by omega)
    rw [if_neg e]
    refine iff_of_true ?_ large
    omega

/-- FCLASS of a wide format gives the one bit of its code's class (R127). -/
theorem fClass_eq (hf : f.narrow = false) : fClass f r x = 2 ^ classBit f x := by
  unfold fClass classBit
  cases codeView hf r x with
  | nan n _ _ h =>
    rw [h, n]
    cases q : x.testBit (f.m - 1) <;> simp [fIsSnan, n, q]
  | inf n i _ h =>
    rw [h, n, i]
    cases fNeg f x <;> rfl
  | zero n i z h =>
    rw [h, n, i, z]
    cases fNeg f x <;> rfl
  | fin n i z h =>
    have normal := log2_bound z
    rw [h, n, i, z]
    by_cases sub : fMag f x < 2 ^ f.m
    · have : ¬ f.emin ≤ (Nat.log2 (fMan f x) : Int) + ((fExp f x : Int) + (f.emin - (f.m : Int))) := by
        rw [normal]; omega
      cases fNeg f x <;> simp [sub, this]
    · have : f.emin ≤ (Nat.log2 (fMan f x) : Int) + ((fExp f x : Int) + (f.emin - (f.m : Int))) := by
        rw [normal]; omega
      cases fNeg f x <;> simp [sub, this]

theorem classBit_le (f : Fmt) (x : Nat) : classBit f x ≤ 9 := by
  unfold classBit
  split_ifs <;> decide

end Sys2Proof.Claims
end

section
/-! The floating-point instructions on their special operands: what each writes. -/

namespace Sys2Proof.Claims

open Machine

variable {s : State} {g : Grp} {i : Nat} {b : Block} {t : Thread} {x : BlockCore} {f : VecForm} {ins : Instr} {y : Vec2}

/-- A type of the wide formats: its format's width is the type's, and only F64 is a pair. -/
theorem wideTy {ty : Ty} (h : ty ∈ tysWide) : (tyFmt ty).narrow = false ∧ (tyFmt ty).width = tyBits ty ∧
    (ty = .f64 ∨ tyWide ty = false ∧ tyBits ty ≤ 32) := by
  simp only [tysWide, List.mem_cons, List.not_mem_nil, or_false] at h
  rcases h with rfl | rfl | rfl | rfl <;> decide

/-- An immediate of a type other than F64 fits the type. -/
theorem immVal_lt {ty : Ty} (h : ty ∈ tysWide) (w : Word) : ty = .f64 ∨ immVal ty w < 2 ^ tyBits ty := by
  simp only [tysWide, List.mem_cons, List.not_mem_nil, or_false] at h
  rcases h with rfl | rfl | rfl | rfl
  · exact .inl rfl
  · exact .inr w.isLt
  · exact .inr (Nat.mod_lt _ (by decide))
  · exact .inr (Nat.mod_lt _ (by decide))

theorem valueF_lt {ty : Ty} (h : ty ∈ tysWide) (o : SrcB) : ty = .f64 ∨ valueF s g i ty o < 2 ^ tyBits ty := by
  cases o with
  | op o => exact .inr (Nat.mod_lt _ (Nat.two_pow_pos _))
  | imm w => exact immVal_lt h w

/-- A result that fits its type is written as it is, whether or not the model has cut it to the type. -/
theorem written {ty : Ty} (h : ty ∈ tysWide) {v w : Nat} (fits : ty = .f64 ∨ w < 2 ^ tyBits ty)
    (hv : v = w ∨ v = w % 2 ^ tyBits ty) :
    (if tyWide ty then BitVec.ofNat 64 v else low32 (BitVec.ofNat 64 v)) = BitVec.ofNat 64 w := by
  obtain ⟨-, -, rfl | ⟨narrow, le⟩⟩ := wideTy h
  · rcases hv with rfl | rfl
    · rfl
    · exact BitVec.eq_of_toNat_eq (by simp [tyWide, Machine.tyBits])
  · obtain rfl | lt := fits
    · cases narrow
    have same : v = w := by rw [Nat.mod_eq_of_lt lt, or_self] at hv; exact hv
    have small : w < 2 ^ 32 := lt_of_lt_of_le lt (Nat.pow_le_pow_right (by decide) le)
    rw [narrow, if_neg (by decide), same, low32_ofNat, Nat.mod_eq_of_lt small]

theorem nvIf_bits (q : Bool) : BitVec.ofNat 32 (Flags.nvIf q).bits = nvFlag q := by cases q <;> rfl

theorem fQuiet_lt {ty : Ty} (h : ty ∈ tysWide) {v : Nat} (fits : ty = .f64 ∨ v < 2 ^ tyBits ty) :
    ty = .f64 ∨ fQuiet (tyFmt ty) v < 2 ^ tyBits ty := by
  refine fits.imp_right fun lt => Nat.or_lt_two_pow lt (Nat.pow_lt_pow_right (by decide) ?_)
  simp only [tysWide, List.mem_cons, List.not_mem_nil, or_false] at h
  rcases h with rfl | rfl | rfl | rfl <;> decide

theorem fCanon_lt {ty : Ty} (h : ty ∈ tysWide) : fCanon (tyFmt ty) < 2 ^ tyBits ty := by
  simp only [tysWide, List.mem_cons, List.not_mem_nil, or_false] at h
  rcases h with rfl | rfl | rfl | rfl <;> decide

/-- An instruction of two floating-point sources writes what its function gives of their codes. -/
theorem float2_wrote {wide : Bool} {F : Thread → Nat → Nat → Calc} (hx : ∀ s, exec ins s = vec2 ins y 0 wide F s)
    (hF : ∀ t u : Thread, u.fpcsr = t.fpcsr → F u = F t) (C : CanForm s g i b t x (form2 y 0 (tyWide y.ty) wide)) :
    let r := F t ((reads s g 0 i (y.a, tyWide y.ty)).toNat % 2 ^ Machine.tyBits y.ty) (valueF s g i y.ty y.b)
    FormWrote s g i b t x ins (form2 y 0 (tyWide y.ty) wide)
      (if wide then BitVec.ofNat 64 r.1 else low32 (BitVec.ofNat 64 r.1)) (BitVec.ofNat 32 r.2.bits) := by
  have H : Computes ins (form2 y 0 (tyWide y.ty) wide)
      (fun t l => toResult (F t (tyCut y.ty (l.getD 0 0)) (valB y.b y.ty l 1))) :=
    ⟨fun t u hf _ => by simp only [hF t u hf], hx⟩
  have value : valB y.b y.ty ((form2 y 0 (tyWide y.ty) wide).srcs.map (reads s g 0 i)) 1 = valueF s g i y.ty y.b := by
    unfold form2
    cases y.b <;> rfl
  have course := H.wrote C
  change FormWrote s g i b t x ins _ (VecForm.cut _ (BitVec.ofNat 64 (F t _ (valB y.b y.ty _ 1)).1))
    (BitVec.ofNat 32 (F t _ (valB y.b y.ty _ 1)).2.bits) at course
  rw [show (form2 y 0 (tyWide y.ty) wide).pipe = 0 from rfl, value] at course
  exact course

theorem wf_tys {tys : List Ty} {variant imm : Bool} (h : y.wf tys variant imm = true) : y.ty ∈ tys := by
  simp only [Vec2.wf, Bool.and_eq_true] at h
  obtain ⟨⟨⟨⟨⟨-, ty⟩, -⟩, -⟩, -⟩, -⟩ := h
  exact List.contains_iff_mem.1 ty

/-! ### FADD, FSUB and FMUL -/

/-- The three operations on two codes, and when two numbers make an invalid operation. -/
structure SpecialOp (F : Fmt → Rnd → Nat → Nat → Calc) (bad : Fmt → Nat → Nat → Bool) : Prop where
  nan : ∀ f m x y v, nanOf f [FVal.ofBits f .ieee x, FVal.ofBits f .ieee y] = some v → F f m x y = v
  invalid : ∀ f m x y, f.narrow = false → nanOf f [FVal.ofBits f .ieee x, FVal.ofBits f .ieee y] = none → bad f x y = true →
    F f m x y = (f.canonNan, .invalid)

theorem specialOp_fAdd (sub : Bool) : SpecialOp (fun f m => fAdd f m sub)
    (fun f a b => fIsInf f a && fIsInf f b && (fNeg f a != (fNeg f b ^^ sub))) where
  nan f m x y v h := by simp only [fAdd, h]
  invalid f m x y hf h hb := by
    obtain ⟨⟨ix, iy⟩, hn⟩ : (fIsInf f x = true ∧ fIsInf f y = true) ∧ fNeg f x ≠ (fNeg f y ^^ sub) := by
      simpa only [Bool.and_eq_true, bne_iff_ne] using hb
    simp only [fAdd, h, exactAdd_invalid hf m sub ix iy hn]

theorem specialOp_fMul : SpecialOp fMul
    (fun f a b => (fIsInf f a && fIsZero f b) || (fIsZero f a && fIsInf f b)) where
  nan f m x y v h := by simp only [fMul, h]
  invalid f m x y hf h hb := by simp only [fMul, h, exactMul_invalid hf hb]

/-- What FADD, FSUB and FMUL write on a NaN operand, and on an invalid operation. -/
theorem special_result {F : Fmt → Rnd → Nat → Nat → Calc} {bad : Fmt → Nat → Nat → Bool} {rnd : Rnd} (S : SpecialOp F bad)
    (hy : y.ty ∈ tysWide)
    (hx : ∀ s, exec ins s = vec2 ins y 0 (tyWide y.ty) (fun t a b => F (tyFmt y.ty) (t.mode rnd) a b) s)
    (C : CanForm s g i b t x (form2 y 0 (tyWide y.ty) (tyWide y.ty))) :
    let fm := tyFmt y.ty
    let a := (reads s g 0 i (y.a, tyWide y.ty)).toNat % 2 ^ Machine.tyBits y.ty
    let c := valueF s g i y.ty y.b
    (fIsNan fm a = true ∨ fIsNan fm c = true → FormWrote s g i b t x ins (form2 y 0 (tyWide y.ty) (tyWide y.ty))
      (BitVec.ofNat 64 (fQuiet fm (if fIsNan fm a then a else c))) (nvFlag (fIsSnan fm a || fIsSnan fm c))) ∧
    (fIsNan fm a = false → fIsNan fm c = false → bad fm a c = true →
      FormWrote s g i b t x ins (form2 y 0 (tyWide y.ty) (tyWide y.ty)) (BitVec.ofNat 64 (fCanon fm)) (nvFlag true)) := by
  intro fm a c
  obtain ⟨wide, width, -⟩ := wideTy hy
  have course := float2_wrote hx (fun t u hf => by simp only [mode_congr hf]) C
  change FormWrote s g i b t x ins _ (if _ then BitVec.ofNat 64 (F fm (t.mode rnd) a c).1 else
    low32 (BitVec.ofNat 64 (F fm (t.mode rnd) a c).1)) (BitVec.ofNat 32 (F fm (t.mode rnd) a c).2.bits) at course
  constructor
  · intro h
    have fits : y.ty = .f64 ∨ (if fIsNan fm a then a else c) < 2 ^ Machine.tyBits y.ty := by
      split
      · exact .inr (Nat.mod_lt _ (Nat.two_pow_pos _))
      · exact valueF_lt hy _
    rw [S.nan _ _ _ _ _ (nanOf_pair wide h), nvIf_bits, written hy (fQuiet_lt hy fits) (.inr (by rw [← width]))] at course
    exact course
  · intro na nc hb
    rw [S.invalid _ _ _ _ wide (nanOf_numbers wide na nc) hb, canonNan_eq, written hy (.inr (fCanon_lt hy)) (.inl rfl)] at course
    exact course

theorem floatBinary_result {bad : Fmt → Nat → Nat → Bool} (hw : ins.wf = true) (hb : floatBinary ins = some (y, bad))
    (h : vecForm ins = some f) (C : CanForm s g i b t x f) :
    let fm := tyFmt y.ty
    let a := (reads s g 0 i (y.a, tyWide y.ty)).toNat % 2 ^ Machine.tyBits y.ty
    let c := valueF s g i y.ty y.b
    (fIsNan fm a = true ∨ fIsNan fm c = true → FormWrote s g i b t x ins f
      (BitVec.ofNat 64 (fQuiet fm (if fIsNan fm a then a else c))) (nvFlag (fIsSnan fm a || fIsSnan fm c))) ∧
    (fIsNan fm a = false → fIsNan fm c = false → bad fm a c = true →
      FormWrote s g i b t x ins f (BitVec.ofNat 64 (fCanon fm)) (nvFlag true)) := by
  cases ins with
  | fadd z r =>
    cases h; cases hb
    have S := specialOp_fAdd false
    simp only [Bool.xor_false] at S
    exact special_result S (wf_tys (Bool.and_eq_true_iff.1 hw).1) (fun _ => rfl) C
  | fsub z r =>
    cases h; cases hb
    have S := specialOp_fAdd true
    have same : ∀ p q : Bool, (p != (q ^^ true)) = (p == q) := by decide
    simp only [same] at S
    exact special_result S (wf_tys (Bool.and_eq_true_iff.1 hw).1) (fun _ => rfl) C
  | fmul z r =>
    cases h; cases hb
    exact special_result specialOp_fMul (wf_tys (Bool.and_eq_true_iff.1 hw).1) (fun _ => rfl) C
  | _ => cases hb

/-! ### FCMP, FMIN, FMAX and FCLASS -/

theorem fcmp_result {k : FCond} (hw : (Instr.fcmp y k).wf = true) (h : vecForm (.fcmp y k) = some f)
    (C : CanForm s g i b t x f) :
    let fm := tyFmt y.ty
    let a := (reads s g 0 i (y.a, tyWide y.ty)).toNat % 2 ^ Machine.tyBits y.ty
    let d := valueF s g i y.ty y.b
    FormWrote s g i b t x (.fcmp y k) f (if fcmpHolds fm k a d then 1 else 0)
      (nvFlag (if fcmpQuietNv k then fIsNan fm a || fIsNan fm d else fIsSnan fm a || fIsSnan fm d)) := by
  intro fm a d
  cases h
  have course := float2_wrote (ins := .fcmp y k) (F := fun _ a b => truth (fCmp (tyFmt y.ty) k a b)) (fun _ => rfl)
    (fun _ _ _ => rfl) C
  change FormWrote s g i b t x _ _ (low32 (BitVec.ofNat 64 (boolNat (fCmp fm k a d).1)))
    (BitVec.ofNat 32 (fCmp fm k a d).2.bits) at course
  have value : ∀ q : Bool, low32 (BitVec.ofNat 64 (boolNat q)) = if q then 1 else 0 := by decide
  rw [fCmp_eq (wideTy (wf_tys hw)).1, nvIf_bits, value] at course
  exact course

theorem fMinMaxCode_lt {ty : Ty} (hy : ty ∈ tysWide) {greater nanForm : Bool} {a d : Nat} (ha : a < 2 ^ Machine.tyBits ty)
    (hd : ty = .f64 ∨ d < 2 ^ Machine.tyBits ty) :
    ty = .f64 ∨ fMinMaxCode (tyFmt ty) greater nanForm a d < 2 ^ Machine.tyBits ty := by
  have low : ty = .f64 ∨ a < 2 ^ Machine.tyBits ty := .inr ha
  have quietA := fQuiet_lt hy low
  have quietD := fQuiet_lt hy hd
  unfold fMinMaxCode fChoice
  split_ifs <;> assumption

theorem fMinMax_result {greater : Bool} (hy : y.ty ∈ tysWide)
    (hx : ∀ s, exec ins s = vec2 ins y 0 (tyWide y.ty) (fun _ a b => fMinMax (tyFmt y.ty) greater y.variant a b) s)
    (C : CanForm s g i b t x (form2 y 0 (tyWide y.ty) (tyWide y.ty))) :
    let fm := tyFmt y.ty
    let a := (reads s g 0 i (y.a, tyWide y.ty)).toNat % 2 ^ Machine.tyBits y.ty
    let d := valueF s g i y.ty y.b
    FormWrote s g i b t x ins (form2 y 0 (tyWide y.ty) (tyWide y.ty))
      (BitVec.ofNat 64 (fMinMaxCode fm greater y.variant a d)) (nvFlag (fIsSnan fm a || fIsSnan fm d)) := by
  intro fm a d
  obtain ⟨wide, width, -⟩ := wideTy hy
  have course := float2_wrote hx (fun _ _ _ => rfl) C
  change FormWrote s g i b t x ins _ (if _ then BitVec.ofNat 64 (fMinMax fm greater y.variant a d).1 else
    low32 (BitVec.ofNat 64 (fMinMax fm greater y.variant a d).1)) (BitVec.ofNat 32 (fMinMax fm greater y.variant a d).2.bits)
    at course
  obtain ⟨code, flag⟩ := fMinMax_eq (x := a) (y := d) wide greater y.variant
  rw [width] at code
  rw [flag, nvIf_bits, written hy (fMinMaxCode_lt hy (Nat.mod_lt _ (Nat.two_pow_pos _)) (valueF_lt hy _)) code] at course
  exact course

theorem fclass_result {y : Vec1} {r : Reading} {e : BitVec 6} (hw : (Instr.fclass y r e).wf = true)
    (hn : (tyFmt y.ty).narrow = false) (h : vecForm (.fclass y r e) = some f) (C : CanForm s g i b t x f) :
    FormWrote s g i b t x (.fclass y r e) f (BitVec.ofNat 64 (2 ^ classBit (tyFmt y.ty)
      ((reads s g 0 i (y.a, tyWide y.ty)).toNat % 2 ^ Machine.tyBits y.ty))) 0 := by
  cases h
  have first : e = 0 := by
    simp only [Instr.wf, Vec1.wf, narrowField, Bool.and_eq_true] at hw
    obtain ⟨⟨⟨⟨-, ty⟩, -⟩, -⟩, hr⟩ := hw
    have mem := List.contains_iff_mem.1 ty
    simp only [tysClass, List.mem_cons, List.not_mem_nil, or_false] at mem
    rcases mem with m | m | m | m | m | m | m <;> rw [m] at hr hn
    case inl | inr.inl | inr.inr.inl | inr.inr.inr.inl => exact of_decide_eq_true (Bool.and_eq_true_iff.1 hr).2
    all_goals exact absurd hn (by decide)
  subst first
  refine Computes.wrote_value
    (fn := fun _ l => toResult (bits (fClass (tyFmt y.ty) r (elemOf (Machine.tyBits y.ty) (l.getD 0 0).toNat 0))))
    ⟨fun _ _ _ _ => rfl, fun _ => rfl⟩ C ?_ rfl
  show low32 (BitVec.ofNat 64 (fClass (tyFmt y.ty) r (elemOf (Machine.tyBits y.ty)
    (reads s g 0 i (y.a, tyWide y.ty)).toNat 0))) = _
  rw [elemOf, Nat.mul_zero, Nat.pow_zero, Nat.div_one, fClass_eq hn, low32_ofNat, Nat.mod_eq_of_lt]
  exact Nat.pow_lt_pow_right (by decide) (Nat.lt_of_le_of_lt (classBit_le ..) (by decide))

/-- Settles O9: the fields of a code decide whether it is a NaN, an infinity or a zero, and the order of the codes of
numbers is that of their values. -/
theorem floatSpecialCases : Obligations.FloatSpecialCases :=
  ⟨fun _ _ _ _ hw hb h _ _ _ _ _ _ C => floatBinary_result hw hb h C,
    fun _ _ _ hw h _ _ _ _ _ _ C => fcmp_result hw h C,
    fun greater y f hw h _ _ _ _ _ _ C => by
      cases greater with
      | false => cases h; exact fMinMax_result (wf_tys hw) (fun _ => rfl) C
      | true => cases h; exact fMinMax_result (wf_tys hw) (fun _ => rfl) C,
    fun _ _ _ _ hw hn h _ _ _ _ _ _ C => fclass_result hw hn h C⟩

end Sys2Proof.Claims
end

section
/-! NOP, FILLER_WORD, YIELD, EXIT and HALT of a lone thread. -/

namespace Sys2Proof.Claims

open Machine

variable {g : Grp} {i : Nat} {s w : State} {b : Block} {t : Thread} {x : BlockCore} {l : List Src} {com : Com}
  {B : BlockCore → BlockCore → Prop} {Q : State → State → Prop}

/-! ### How a lone thread goes on -/

/-- The lone thread goes on in its entry. -/
theorem regroup_near (A : Alone s g i b t x) (N : Near g i t.bc l B Q s w) :
    regroup w g.core g.e = w.modEntry g.core g.e fun en => { en with members := [i] } := by
  obtain ⟨⟨en, he, hk, hm⟩, -⟩ := A.entry
  obtain ⟨en', he', hk', hm'⟩ := N.entry en he
  obtain ⟨t', R, hb, ht, -⟩ := ran_of_near A N
  exact regroup_alone he' (hm'.trans hm) (by rw [hk', hk]; exact hb) ht (by rw [R.thread.2.2]; exact A.ready)

/-- An instruction that has moved the lone thread's PC, and of it nothing else. -/
theorem passed_near (A : Alone s g i b t x) (N : Near g i t.bc [] SregsOnly Quiet s w) {n : Nat}
    (h : w.thread g.block i = { t with pc := t.pc + n, rep := none }) :
    ∃ s' t', finish w g = .next s' ∧ Ran s s' g i b t x [] SregsOnly t' ∧ Quiet s s' ∧ t' = { t with pc := t.pc + n } ∧
      s' = w.modEntry g.core g.e fun en => { en with members := [i] } := by
  obtain ⟨s', run, R, q, -⟩ := vec_finish A N []
  have last : regroup w g.core g.e = s' := by injection run
  refine ⟨s', _, run, R, q, ?_, last.symm.trans (regroup_near A N)⟩
  rw [h, A.entry.2.2.symm]

/-- A lone thread that is held leaves its entry. -/
theorem regroup_held (A : Alone s g i b t x) (N : Near g i t.bc l B Q s w) (h : Hold) :
    regroup (holdThreads w g.block [i] h) g.core g.e =
      (holdThreads w g.block [i] h).modCore g.core fun c => { c with entries := Kv.erase g.e c.entries } := by
  obtain ⟨⟨en, he, hk, hm⟩, -⟩ := A.entry
  obtain ⟨en', he', hk', hm'⟩ := N.entry en he
  obtain ⟨b', hb', nb⟩ := N.blk b A.block
  obtain ⟨t', ht', -⟩ := nb.thread t A.thread
  refine regroup_gone (t := { t' with stat := .held h, since := w.tick }) he' (hm'.trans hm) (b := b'.mapThreads [i] fun t =>
    { t with stat := .held h, since := w.tick }) ?_ ?_ (fun h => nomatch h)
  · rw [hk', hk, holdThreads, State.find_modBlock_self, hb', Option.map_some]
  · rw [Block.find_mapThreads, ht', Option.map_some]
    simp

/-- Of the held thread's block. -/
theorem find_held (h : Hold) (k : Nat) : Kv.find g.block ((holdThreads w g.block [i] h).modCore k f).blocks =
    (Kv.find g.block w.blocks).map fun b => b.mapThreads [i] fun t => { t with stat := .held h, since := w.tick } := by
  rw [State.modCore_blocks, holdThreads, State.find_modBlock_self]

theorem thread_held (A : Alone s g i b t x) (N : Near g i t.bc l B Q s w) (h : Hold) :
    (regroup (holdThreads w g.block [i] h) g.core g.e).thread g.block i =
      { w.thread g.block i with stat := .held h, since := w.tick } := by
  obtain ⟨b', hb', nb⟩ := N.blk b A.block
  obtain ⟨t', ht', -⟩ := nb.thread t A.thread
  rw [regroup_held A N, thread_of_find hb' ht',
    thread_of_find (t := { t' with stat := .held h, since := w.tick }) ((find_held ..).trans (by rw [hb']; rfl))]
  rw [Block.find_mapThreads, ht', Option.map_some]
  simp

/-! ### NOP, FILLER_WORD and YIELD -/

theorem noteIssue_blocks (s : State) (c e : Nat) : (s.noteIssue c e).blocks = s.blocks := rfl
theorem closeChain_blocks (s : State) (g : Grp) : (closeChain s g).blocks = s.blocks := rfl

/-- The end of a chain leaves every thread as it was, before the PC moves or after. -/
theorem thread_closeChain_advance (s : State) (g : Grp) (n k i : Nat) :
    (closeChain (advance s g n) g).thread k i = (advance (closeChain s g) g n).thread k i := by
  simp only [State.thread, State.block, closeChain_blocks, advance, passInstr, State.modBlock, noteIssue_blocks]

theorem nop_passes (A : Alone s g i b t x) : ∃ s' t', exec .nop s = .next s' ∧ Ran s s' g i b t x [] SregsOnly t' ∧
    Quiet s s' ∧ t' = { t with pc := t.pc + 8 } := by
  have N : Near g i t.bc [] SregsOnly Quiet s (closeChain (advance s g 8) g) :=
    (near_advance pre_sregsOnly quiet_modBlock quiet_modCore pre_quiet A.one s 8).trans pre_sregsOnly pre_quiet
      (near_closeChain pre_sregsOnly quiet_modCore _)
  have run : exec .nop s = finish (closeChain (advance s g 8) g) g := by
    show execNop s = _
    rw [execNop, A.group]
  obtain ⟨s', t', next, R, q, own, -⟩ := passed_near A N ((thread_closeChain_advance ..).trans (thread_advance A 8))
  exact ⟨s', t', run.trans next, R, q, own⟩

theorem filler_passes (A : Alone s g i b t x) : ∃ s' t', exec .filler s = .next s' ∧ Ran s s' g i b t x [] SregsOnly t' ∧
    Quiet s s' ∧ t' = { t with pc := t.pc + 4 } := by
  have run : exec .filler s = finish (passInstr s g 4) g := by
    show execFiller s = _
    rw [execFiller, A.group]
  obtain ⟨s', t', next, R, q, own, -⟩ :=
    passed_near A (near_passInstr pre_sregsOnly quiet_modBlock A.one s 4) (thread_advance A 4)
  exact ⟨s', t', run.trans next, R, q, own⟩

/-- Without sources nothing is captured at issue: the PC moves past the instruction. -/
theorem thread_issued (A : Alone s g i b t x) (ins : Instr) :
    (issued s g i ins []).thread g.block i = { t with pc := t.pc + lenOf ins, rep := none } := by
  rw [issued_eq A]
  rfl

theorem yield_passes (C : CanIssue s g i b t x com [] []) : ∃ s' t', exec (.yield com) s = .next s' ∧
    Ran s s' g i b t x [] SregsOnly t' ∧ Quiet s s' ∧ t' = { t with pc := t.pc + 8 } ∧
    ∃ en, s'.entry g.core g.e = some en ∧ en.pos = none ∧ en.marked = false := by
  have A := C.alone
  let w := (issued s g i (.yield com) []).makePending g.core g.e
  have N : Near g i t.bc [] SregsOnly Quiet s w :=
    (near_issued A pre_sregsOnly pre_quiet quiet_modBlock quiet_modCore _ _).trans pre_sregsOnly pre_quiet
      (near_modEntry pre_sregsOnly (fun s f => quiet_modCore s _ f) fun _ _ => ⟨rfl, rfl⟩)
  have run : exec (.yield com) s = finish w g := by
    show execYield com s = _
    rw [execYield, A.group]
    dsimp only
    rw [prepare_alone (u := Use.plain com [] []) A _ C.active rfl (Nat.zero_le _) C.readable C.writable]
    rfl
  obtain ⟨s', t', next, R, q, own, last⟩ := passed_near A N (n := 8) (thread_issued A (.yield com))
  refine ⟨s', t', run.trans next, R, q, own, ?_⟩
  obtain ⟨⟨en, he, -⟩, -⟩ := A.entry
  have N0 : Near g i t.bc [] SregsOnly Quiet s (issued s g i (.yield com) []) :=
    near_issued A pre_sregsOnly pre_quiet quiet_modBlock quiet_modCore _ _
  obtain ⟨en0, he0, -⟩ := N0.entry en he
  have pending : w.entry g.core g.e = some { en0 with pos := none, marked := false, pendSince := (issued s g i (.yield com) []).tick } := by
    exact (State.entry_modEntry_self ..).trans (by rw [he0, Option.map_some])
  exact ⟨_, by rw [last, State.entry_modEntry_self, pending, Option.map_some], rfl, rfl⟩

/-! ### EXIT -/

/-- The privilege of a lone thread's group. -/
theorem priv_alone (A : Alone s g i b t x) : g.priv s = t.priv := by
  rw [Grp.priv, A.one]
  simp only [thread_of_find A.block A.thread]

theorem exit_runs (C : CanIssue s g i b t x com [] []) : exec (.exit com) s =
    if t.priv = .boot then .next { (issued s g i (.exit com) []).bootRepair g.core with focus := .none }
    else finish ((issued s g i (.exit com) []).endThreads g.block [i]) g := by
  show execExit com s = _
  rw [execExit, C.alone.group]
  dsimp only
  rw [prepare_alone (u := Use.plain com [] []) C.alone _ C.active rfl (Nat.zero_le _) C.readable C.writable,
    priv_alone C.alone]
  rfl

theorem find_filter_keys {α : Type} (p : Nat → Bool) (k : Nat) (l : List (Nat × α)) :
    Kv.find k (l.filter fun y => p y.1) = if p k then Kv.find k l else none := by
  induction l with
  | nil => simp
  | cons a l ih =>
    obtain ⟨m, v⟩ := a
    by_cases e : k = m
    · subst e
      cases hp : p k <;> simp [hp, Kv.find, ih]
    · cases hm : p m <;> simp [hm, Kv.find, e, ih]

/-- Thread `i` of block `k` is not listed. -/
def NoThread (k i : Nat) (s : State) : Prop := Kv.find i (s.block k).threads = none

variable {k : Nat}

theorem noThread_makeReady (h : NoThread k i s) (j m : Nat) : NoThread k i (s.makeReady j m) := by
  unfold NoThread at *
  by_cases e : k = j
  · subst e
    rw [State.makeReady, State.modThread]
    cases hb : Kv.find k s.blocks with
    | none =>
      rw [State.block, Kv.get_eq_find, State.find_modBlock_self, hb]
      rfl
    | some b =>
      rw [State.block_of_find hb] at h
      rw [State.block_of_find (by rw [State.find_modBlock_self, hb]; rfl)]
      by_cases e : i = m
      · subst e
        rw [Kv.find_modify_self, h]
        rfl
      · rw [Kv.find_modify_ne e, h]
  · rw [State.block, Kv.get_eq_find, State.makeReady, State.modThread, State.find_modBlock_ne _ e, ← Kv.get_eq_find]
    exact h

theorem noThread_wakeSquads (h : NoThread k i s) (j : Nat) : NoThread k i (s.wakeSquads j) := by
  unfold State.wakeSquads
  refine List.foldlRecOn _ _ h fun w hw a _ => ?_
  split
  · split
    · exact noThread_makeReady hw ..
    · exact hw
  · exact hw

theorem countEnd_blocks (s : State) (p n : Nat) : (s.countEnd p n).blocks = s.blocks := by
  unfold State.countEnd
  split
  · rfl
  · dsimp only
    split <;> rfl

theorem noThread_endBlock (s : State) (k i : Nat) : NoThread k i (s.endBlock k) := by
  have gone : ∀ w : State, Kv.find k w.blocks = none → NoThread k i w := fun w h => by
    rw [NoThread, State.block, Kv.get_eq_find, h]
    rfl
  unfold State.endBlock
  dsimp only
  split
  · exact gone _ (by rw [countEnd_blocks]; exact Kv.find_erase_self ..)
  · exact gone _ (Kv.find_erase_self ..)

theorem noThread_endCheck (h : NoThread k i s) : NoThread k i (s.endCheck k) := by
  unfold State.endCheck
  split
  · exact h
  · split
    · exact noThread_endBlock ..
    · exact h

/-- A thread that ends is no longer listed. -/
theorem noThread_endThreads (s : State) (k i : Nat) : NoThread k i (s.endThreads k [i]) := by
  unfold State.endThreads
  refine noThread_endCheck (noThread_wakeSquads ?_ k)
  unfold NoThread
  cases hb : Kv.find k s.blocks with
  | none =>
    rw [State.block, Kv.get_eq_find, State.find_modBlock_self, hb]
    rfl
  | some b =>
    rw [State.block_of_find (by rw [State.find_modBlock_self, hb]; rfl)]
    exact (find_filter_keys (fun j => !([i] : List Nat).contains j) i b.threads).trans (by simp)

theorem noThread_modBlock_since (h : NoThread k i s) (j : Nat) (ms : List Nat) (f : Thread → Thread) :
    NoThread k i (s.modBlock j fun b => b.mapThreads ms f) := by
  unfold NoThread at *
  by_cases e : k = j
  · subst e
    rw [State.block, Kv.get_eq_find, State.find_modBlock_self]
    rw [State.block, Kv.get_eq_find] at h
    cases hb : Kv.find k s.blocks with
    | none => rfl
    | some b =>
      rw [hb] at h
      exact (Block.find_mapThreads b ms f i).trans (by rw [show Kv.find i b.threads = none from h]; rfl)
  · rw [State.block, Kv.get_eq_find, State.find_modBlock_ne _ e, ← Kv.get_eq_find]
    exact h

theorem noThread_splitOff (h : NoThread k i s) (c j age : Nat) (ms : List (List Nat)) :
    NoThread k i (splitOff s c j age ms) := by
  induction ms generalizing s with
  | nil => exact h
  | cons m ms ih =>
    unfold splitOff
    split
    · exact noThread_modBlock_since h ..
    · exact ih h

theorem noThread_regroup (h : NoThread k i s) (c e : Nat) : NoThread k i (regroup s c e) := by
  unfold regroup
  split
  · exact h
  · dsimp only
    split
    · exact h
    · exact noThread_splitOff (s := s.modEntry ..) h ..

/-! ### HALT -/

/-- Of what lies outside blocks and cores, memory is as it was. -/
def SameMem (s s' : State) : Prop := s'.mem = s.mem

theorem pre_sameMem : Pre SameMem := ⟨fun _ => rfl, fun _ _ _ h k => k.trans h⟩

theorem near_putPart (p : Nat) (y : Partition) (s : State) : Near g i t.bc l SregsOnly SameMem s (s.putPart p y) :=
  ⟨rfl, fun b h => ⟨b, h, .refl pre_sregsOnly b⟩, fun _ _ => rfl, fun _ _ => rfl, rfl, fun _ _ => rfl,
    fun en h => ⟨en, h, rfl, rfl⟩⟩

/-- The effect of HALT. -/
def haltEffect (g : Grp) (_ : Nat) (_ : List DWord) (s : State) : Once :=
  match (g.part s).bind s.part with
  | none => .hold s .halt
  | some y =>
    if y.eventPend || decide (0 < y.pendCount) then
      .done (s.putPart ((g.part s).getD 0) { (if 0 < y.pendCount then y.consume else y) with eventPend := false }) []
    else .hold s .halt

theorem exec_halt (com : Com) (s : State) :
    exec (.halt com) s = onceThread (.halt com) (Use.stew com [] []) haltEffect s := rfl

/-- HALT, by what its partition says. -/
theorem halt_runs (C : CanIssue s g i b t x com [] []) (priv : t.priv ≠ .user) {p : Nat} {y : Partition}
    (hp : b.part = some p) (hy : s.part p = some y) : exec (.halt com) s =
      let w := issued s g i (.halt com) []
      if y.eventPend || decide (0 < y.pendCount) then
        finish ((w.putPart p { (if 0 < y.pendCount then y.consume else y) with eventPend := false }).taken g.core g.e) g
      else finish (holdThreads w g.block [i] .halt) g := by
  have A := C.alone
  have level : 1 ≤ t.priv.level := by
    cases e : t.priv with
    | user => exact absurd e priv
    | steward => exact Nat.le_refl 1
    | boot => exact Nat.le_succ 1
  have course := once_alone (u := Use.stew com [] []) A (.halt com) C.active rfl level C.readable C.writable
    haltEffect
  obtain ⟨b', hb, -, same, -⟩ := issued_block A (.halt com) []
  have part : g.part (issued s g i (.halt com) []) = some p := by rw [Grp.part, hb, same]; exact hp
  have found : (issued s g i (.halt com) []).part p = some y := by
    have q := (issued_rest (s := s) (g := g) (i := i) (.halt com) []).1
    rw [q]; exact hy
  refine (exec_halt com s).trans (course.trans ?_)
  simp only [haltEffect, Use.stew, part, Option.bind_some, found, Option.getD_some]
  by_cases h : (y.eventPend || decide (0 < y.pendCount)) = true
  · simp only [if_pos h]
    rfl
  · simp only [if_neg h]

theorem halt_continues (C : CanIssue s g i b t x com [] []) (priv : t.priv ≠ .user) {p : Nat} {y : Partition}
    (hp : b.part = some p) (hy : s.part p = some y) (pending : y.eventPend = true ∨ 0 < y.pendCount) :
    ∃ s' t', exec (.halt com) s = .next s' ∧ Ran s s' g i b t x [] SregsOnly t' ∧ t' = { t with pc := t.pc + 8 } ∧
      s'.mem = s.mem ∧ ∃ z, s'.part p = some z ∧ z.eventPend = false ∧ z.pendCount = 0 := by
  have A := C.alone
  let z : Partition := { (if 0 < y.pendCount then y.consume else y) with eventPend := false }
  let w := ((issued s g i (.halt com) []).putPart p z).taken g.core g.e
  have N : Near g i t.bc [] SregsOnly SameMem s w :=
    ((near_issued A pre_sregsOnly pre_sameMem (fun _ _ _ => rfl) (fun _ _ _ => rfl) _ _).trans pre_sregsOnly pre_sameMem
      (near_putPart p z _)).trans pre_sregsOnly pre_sameMem (near_taken pre_sregsOnly (fun _ _ => rfl) _)
  have run : exec (.halt com) s = finish w g := by
    rw [halt_runs C priv hp hy]
    dsimp only
    rw [if_pos (by simpa using pending)]
  obtain ⟨N', blocks⟩ := near_regroup pre_sregsOnly (fun _ _ _ => rfl) A N
  have N2 := N.trans pre_sregsOnly pre_sameMem N'
  obtain ⟨t', R, -⟩ := ran_of_near A N2
  have own : (regroup w g.core g.e).thread g.block i = { t with pc := t.pc + 8, rep := none } := by
    rw [State.thread, State.block, blocks]
    exact thread_issued A (.halt com)
  refine ⟨_, t', run, R, ?_, N2.quiet, z, ?_, rfl, ?_⟩
  · rw [← R.thread.2.1, own, A.entry.2.2.symm]
  · rw [regroup_near A N]
    exact State.part_putPart_self ..
  · show (if 0 < y.pendCount then y.consume else y).pendCount = 0
    split
    · rfl
    · omega

theorem halt_holds (C : CanIssue s g i b t x com [] []) (priv : t.priv ≠ .user) {p : Nat} {y : Partition}
    (hp : b.part = some p) (hy : s.part p = some y) (event : y.eventPend = false) (hail : y.pendCount = 0) :
    ∃ s', exec (.halt com) s = .next s' ∧ s'.mem = s.mem ∧ s'.part p = some y ∧
      s'.thread g.block i = { t with pc := t.pc + 8, stat := .held .halt, since := s.tick } := by
  have A := C.alone
  have N : Near g i t.bc [] SregsOnly Quiet s (issued s g i (.halt com) []) :=
    near_issued A pre_sregsOnly pre_quiet quiet_modBlock quiet_modCore _ _
  have run : exec (.halt com) s = finish (holdThreads (issued s g i (.halt com) []) g.block [i] .halt) g := by
    rw [halt_runs C priv hp hy]
    dsimp only
    rw [if_neg (by simp [event, hail])]
  have quiet := N.quiet
  refine ⟨_, run, ?_, ?_, ?_⟩
  · rw [regroup_held A N]
    show (issued s g i (.halt com) []).mem = s.mem
    rw [quiet]
  · rw [regroup_held A N]
    show (issued s g i (.halt com) []).part p = some y
    rw [quiet]
    exact hy
  · rw [thread_held A N, thread_issued A, quiet, A.entry.2.2.symm]
    rfl

end Sys2Proof.Claims
end

section
/-! The squad instructions of a whole squad (R189 to R191): what the shared course leaves as it was. -/

namespace Sys2Proof.Claims

open Machine

variable {g : Grp} {s w u : State} {q n m : Nat} {com : Com} {mask : Word} {srcs dsts : List Src} {ins : Instr}

/-! ### Lists in order of a key -/

theorem insertBy_perm {α : Type} (key : α → Nat) (a : α) (l : List α) : List.Perm (insertBy key a l) (a :: l) := by
  induction l with
  | nil => exact .refl _
  | cons b l ih =>
    unfold insertBy
    split
    · exact .refl _
    · exact (ih.cons b).trans (.swap a b l)

theorem sortBy_perm {α : Type} (key : α → Nat) (l : List α) : List.Perm (sortBy key l) l := by
  induction l with
  | nil => exact .refl _
  | cons a l ih => exact (insertBy_perm key a _).trans (ih.cons a)

theorem insertBy_sorted {α : Type} (key : α → Nat) (a : α) {l : List α} (h : l.Pairwise fun b c => key b ≤ key c) :
    (insertBy key a l).Pairwise fun b c => key b ≤ key c := by
  induction l with
  | nil => exact List.pairwise_singleton _ _
  | cons b l ih =>
    obtain ⟨first, rest⟩ := List.pairwise_cons.1 h
    unfold insertBy
    split
    next le =>
      refine List.pairwise_cons.2 ⟨fun c hc => ?_, h⟩
      obtain rfl | hc := List.mem_cons.1 hc
      · exact le
      · exact Nat.le_trans le (first c hc)
    next gt =>
      refine List.pairwise_cons.2 ⟨fun c hc => ?_, ih rest⟩
      obtain rfl | hc := List.mem_cons.1 ((insertBy_perm key a l).mem_iff.1 hc)
      · omega
      · exact first c hc

theorem sortBy_sorted {α : Type} (key : α → Nat) (l : List α) : (sortBy key l).Pairwise fun b c => key b ≤ key c := by
  induction l with
  | nil => exact .nil
  | cons a l ih => exact insertBy_sorted key a ih

/-- A list in strict order of a key is what any rearrangement of it is sorted into. -/
theorem sortBy_eq {α : Type} {key : α → Nat} {l k : List α} (p : List.Perm l k) (h : k.Pairwise fun b c => key b < key c) :
    sortBy key l = k := by
  have all : (sortBy key l).Perm k := (sortBy_perm key l).trans p
  have le : k.Pairwise fun b c => key b ≤ key c := h.imp Nat.le_of_lt
  refine all.eq_of_pairwise (le := fun b c => key b ≤ key c) (fun b c hb hc h1 h2 => ?_) (sortBy_sorted key l) le
  have keys : (k.map key).Nodup := List.pairwise_map.2 (h.imp Nat.ne_of_lt)
  exact List.inj_on_of_nodup_map keys (all.mem_iff.1 hb) hc (Nat.le_antisymm h1 h2)

theorem mem_sortBy {α : Type} {key : α → Nat} {l : List α} {a : α} : a ∈ sortBy key l ↔ a ∈ l :=
  (sortBy_perm key l).mem_iff

/-! ### How far the course of a squad reaches -/

/-- A thread of which a squad instruction has changed no more than it may, and whose PC has gone on by `n`. -/
def Stepped (n : Nat) (t t' : Thread) : Prop :=
  t' = { t with regs := t'.regs, preds := t'.preds, tsLatch := t'.tsLatch, rep := t'.rep, since := t'.since, pc := t.pc + n }

theorem Stepped.refl (t : Thread) : Stepped 0 t t := rfl

theorem Stepped.trans {a b c : Thread} (h : Stepped m a b) (k : Stepped n b c) : Stepped (m + n) a c := by
  unfold Stepped at *
  rw [k, h]
  simp only [Nat.add_assoc]

/-- A state likewise: of the group's block only the members have gone on. -/
structure SquadStep (g : Grp) (n : Nat) (s w : State) : Prop where
  mem : w.mem = s.mem
  members : ∀ i ∈ g.members, ∀ t, Kv.find i (s.block g.block).threads = some t →
    ∃ t', Kv.find i (w.block g.block).threads = some t' ∧ Stepped n t t'
  others : ∀ i, i ∉ g.members → Kv.find i (w.block g.block).threads = Kv.find i (s.block g.block).threads

/-- The same, while the group's entry is its own. -/
structure SquadNear (g : Grp) (n : Nat) (s w : State) : Prop extends SquadStep g n s w where
  entry : ∀ en, s.entry g.core g.e = some en →
    ∃ en', w.entry g.core g.e = some en' ∧ en'.block = en.block ∧ en'.members = en.members

theorem SquadStep.of_blocks (hm : w.mem = s.mem) (hb : w.blocks = s.blocks) : SquadStep g 0 s w := by
  have same : w.block g.block = s.block g.block := by rw [State.block, State.block, hb]
  exact ⟨hm, fun _ _ t h => ⟨t, by rw [same]; exact h, .refl t⟩, fun _ _ => by rw [same]⟩

theorem SquadStep.trans (h : SquadStep g m s w) (k : SquadStep g n w u) : SquadStep g (m + n) s u where
  mem := k.mem.trans h.mem
  members := fun i hi t ht =>
    have ⟨t1, h1, p⟩ := h.members i hi t ht
    have ⟨t2, h2, r⟩ := k.members i hi t1 h1
    ⟨t2, h2, p.trans r⟩
  others := fun i hi => (k.others i hi).trans (h.others i hi)

/-- A change that leaves memory and the blocks comes first. -/
theorem SquadStep.after (k : SquadStep g n w u) (hm : w.mem = s.mem) (hb : w.blocks = s.blocks) : SquadStep g n s u := by
  have := (SquadStep.of_blocks (g := g) hm hb).trans k
  rwa [Nat.zero_add] at this

theorem SquadNear.refl (s : State) : SquadNear g 0 s s :=
  ⟨.of_blocks rfl rfl, fun en h => ⟨en, h, rfl, rfl⟩⟩

theorem SquadNear.trans (h : SquadNear g m s w) (k : SquadNear g n w u) : SquadNear g (m + n) s u where
  toSquadStep := h.toSquadStep.trans k.toSquadStep
  entry := fun en he =>
    have ⟨e1, h1, b1, m1⟩ := h.entry en he
    have ⟨e2, h2, b2, m2⟩ := k.entry e1 h1
    ⟨e2, h2, b2.trans b1, m2.trans m1⟩

/-- The threads of a block after a change of the block. -/
theorem find_threads_modBlock (w : State) (k i : Nat) {f : Block → Block} {p : Option Thread → Option Thread}
    (h : ∀ b, Kv.find i (f b).threads = p (Kv.find i b.threads)) (hp : p none = none) :
    Kv.find i ((w.modBlock k f).block k).threads = p (Kv.find i (w.block k).threads) := by
  rw [State.block, State.block, Kv.get_eq_find, Kv.get_eq_find, State.find_modBlock_self]
  cases Kv.find k w.blocks with
  | none => exact hp.symm
  | some b => exact h b

theorem squadNear_mapThreads {l : List Nat} {f : Thread → Thread} (h : ∀ i ∈ l, i ∈ g.members) (hf : ∀ t, Stepped 0 t (f t)) :
    SquadNear g 0 w (w.modBlock g.block fun b => b.mapThreads l f) where
  mem := rfl
  members := fun i _ t ht => by
    rw [find_threads_modBlock w g.block i (p := Option.map fun t => if l.contains i then f t else t)
      (fun b => Block.find_mapThreads b l f i) rfl, ht, Option.map_some]
    refine ⟨_, rfl, ?_⟩
    split
    · exact hf t
    · exact .refl t
  others := fun i hi => by
    rw [find_threads_modBlock w g.block i (p := Option.map fun t => if l.contains i then f t else t)
      (fun b => Block.find_mapThreads b l f i) rfl]
    cases Kv.find i (w.block g.block).threads with
    | none => rfl
    | some t =>
      have : ¬ l.contains i = true := fun c => hi (h i (List.contains_iff_mem.1 c))
      rw [Option.map_some, if_neg this]
  entry := fun en he => ⟨en, he, rfl, rfl⟩

theorem squadNear_modThread {i : Nat} {f : Thread → Thread} (h : i ∈ g.members) (hf : ∀ t, Stepped 0 t (f t)) :
    SquadNear g 0 w (w.modThread g.block i f) where
  mem := rfl
  members := fun j _ t ht => by
    rw [State.modThread, find_threads_modBlock w g.block j (p := fun o => if j = i then o.map f else o)
      (fun b => Kv.find_modify j i f b.threads) (ite_self _), ht]
    split
    · exact ⟨_, rfl, hf t⟩
    · exact ⟨_, rfl, .refl t⟩
  others := fun j hj => by
    have ne : j ≠ i := fun e => hj (e ▸ h)
    rw [State.modThread, find_threads_modBlock w g.block j (p := id) (fun b => Kv.find_modify_ne ne f b.threads) rfl]
    rfl
  entry := fun en he => ⟨en, he, rfl, rfl⟩

theorem squadNear_modBc (j : Nat) (f : BlockCore → BlockCore) : SquadNear g 0 w (w.modBc g.block j f) where
  mem := rfl
  members := fun i _ t ht =>
    ⟨t, (find_threads_modBlock w g.block i (f := fun b => { b with cores := Kv.modify j f b.cores }) (p := id)
      (fun _ => rfl) rfl).trans ht, .refl t⟩
  others := fun i _ => find_threads_modBlock w g.block i (f := fun b => { b with cores := Kv.modify j f b.cores }) (p := id)
    (fun _ => rfl) rfl
  entry := fun en he => ⟨en, he, rfl, rfl⟩

theorem squadNear_modEntry {f : Entry → Entry} (hf : ∀ en, (f en).block = en.block ∧ (f en).members = en.members) :
    SquadNear g 0 w (w.modEntry g.core g.e f) where
  toSquadStep := .of_blocks rfl rfl
  entry := fun en he => ⟨f en, by rw [State.entry_modEntry_self, he]; rfl, (hf en).1, (hf en).2⟩

theorem squadNear_passInstr (own : g.ov = none) (n : Nat) : SquadNear g n w (passInstr w g n) where
  mem := rfl
  members := fun i hi t ht => by
    refine ⟨{ t with pc := t.pc + n, rep := none }, ?_, rfl⟩
    rw [passInstr, find_threads_modBlock w g.block i (fun b => Block.find_mapThreads b g.members _ i) rfl, ht, Option.map_some,
      if_pos (List.contains_iff_mem.2 hi), own]
    rfl
  others := fun i hi => by
    rw [passInstr, find_threads_modBlock w g.block i (fun b => Block.find_mapThreads b g.members _ i) rfl]
    cases Kv.find i (w.block g.block).threads with
    | none => rfl
    | some t => rw [Option.map_some, if_neg fun c => hi (List.contains_iff_mem.1 c)]
  entry := fun en he => ⟨en, he, rfl, rfl⟩

/-- The PC of every member moves past the instruction. -/
theorem squadNear_advance (own : g.ov = none) (n : Nat) : SquadNear g n w (advance (closeChain w g) g n) := by
  have closed : SquadNear g 0 w (closeChain w g) := squadNear_modEntry fun _ => ⟨rfl, rfl⟩
  have noted : SquadNear g 0 (closeChain w g) ((closeChain w g).noteIssue g.core g.e) := by
    unfold State.noteIssue
    exact squadNear_modEntry fun _ => ⟨rfl, rfl⟩
  have := (closed.trans noted).trans (squadNear_passInstr own n)
  rw [Nat.zero_add] at this
  exact this

theorem squadNear_captureTime {i : Nat} (h : i ∈ g.members) (l : List Src) : SquadNear g 0 w (captureTime w g i l) := by
  unfold captureTime
  split
  · exact squadNear_modThread h fun _ => rfl
  · exact .refl w

theorem stepped_setPred (t : Thread) (n : Nat) (v : Bool) : Stepped 0 t (t.setPred n v) := by
  unfold Thread.setPred
  split <;> rfl

theorem squadNear_writeDst {i : Nat} (h : i ∈ g.members) (first : Bool) (d : Src) (v : DWord) :
    SquadNear g 0 w (writeDst w g.block i first d v) := by
  unfold writeDst
  split
  · exact squadNear_modThread h fun t => by dsimp only; split <;> rfl
  · split
    · exact squadNear_modBc ..
    · exact .refl w
  · exact squadNear_modThread h fun t => stepped_setPred ..
  · exact .refl w

theorem squadNear_writeAll {i : Nat} (h : i ∈ g.members) (first : Bool) (ws : List (Src × DWord)) :
    SquadNear g 0 w (writeAll g.block i first ws w) := by
  induction ws generalizing w with
  | nil => exact .refl w
  | cons a ws ih => exact (squadNear_writeDst h first a.1 a.2).trans ih

theorem squadNear_writeOwn (first : Bool) {l : List (Nat × List (Src × DWord))} (h : ∀ y ∈ l, y.1 ∈ g.members) :
    SquadNear g 0 w (writeOwn g.block first l w) := by
  induction l generalizing first w with
  | nil => exact .refl w
  | cons a l ih =>
    exact (squadNear_writeAll (h a (List.mem_cons_self ..)) first a.2).trans
      (ih false fun y hy => h y (List.mem_cons_of_mem _ hy))

/-! ### The checks -/

/-- A member that may use its operands passes the checks of R59. -/
theorem check_passes {t : Thread} {i : Nat} (ht : Kv.find i (w.block g.block).threads = some t)
    (rd : ∀ y ∈ srcs, Readable t false y) (wr : ∀ y ∈ dsts, Writable t y) :
    checkThread w g (Use.plain com srcs dsts) i = none := by
  have own : w.thread g.block i = t := Kv.get_of_find ht
  have read : srcs.any (srcBad t.nreg false) = false := by
    rw [List.any_eq_false]; intro y hy; rw [rd y hy]; simp
  have write : dsts.any (dstBad t.nreg) = false := by
    rw [List.any_eq_false]; intro y hy; rw [wr y hy]; simp
  simp [checkThread, own, Use.plain, read, write]

theorem Stepped.usable {t t' : Thread} (h : Stepped n t t') : t'.nreg = t.nreg := by rw [h]; rfl

/-- All members pass the checks. -/
theorem checkAll_passes {l : List Nat} (sub : ∀ i ∈ l, i ∈ g.members)
    (ok : ∀ i ∈ l, ∃ t, Kv.find i (w.block g.block).threads = some t ∧ (∀ y ∈ srcs, Readable t false y) ∧
      ∀ y ∈ dsts, Writable t y) :
    (checkAll g ins (Use.plain com srcs dsts) l w).2.map (·.1) = l ∧
      SquadNear g 0 w (checkAll g ins (Use.plain com srcs dsts) l w).1 := by
  induction l generalizing w with
  | nil => exact ⟨rfl, .refl w⟩
  | cons i l ih =>
    obtain ⟨t, ht, rd, wr⟩ := ok i (List.mem_cons_self ..)
    have near : SquadNear g 0 w (captureTime w g i srcs) := squadNear_captureTime (sub i (List.mem_cons_self ..)) srcs
    obtain ⟨keys, rest⟩ := ih (w := captureTime w g i srcs) (fun j hj => sub j (List.mem_cons_of_mem _ hj)) fun j hj => by
      obtain ⟨t, ht, rd, wr⟩ := ok j (List.mem_cons_of_mem _ hj)
      obtain ⟨t', ht', st⟩ := near.members j (sub j (List.mem_cons_of_mem _ hj)) t ht
      refine ⟨t', ht', fun y hy => ?_, fun y hy => ?_⟩
      · rw [Readable, st.usable]; exact rd y hy
      · rw [Writable, st.usable]; exact wr y hy
    simp only [checkAll, check_passes ht rd wr]
    exact ⟨by rw [List.map_cons]; exact congrArg _ keys, near.trans rest⟩

theorem squadMask_passes {mask : Nat} {l : List (Nat × List DWord)} (h : ∀ y ∈ l, mask.testBit (y.1 % 32) = true) :
    squadMask g ins mask l w = (w, l) := by
  induction l with
  | nil => rfl
  | cons a l ih =>
    obtain ⟨i, v⟩ := a
    rw [squadMask, if_pos (h _ (List.mem_cons_self ..)), ih fun y hy => h y (List.mem_cons_of_mem _ hy)]

/-- A squad function gives results to its participants alone. -/
def GivesOwn (f : SquadFn) : Prop := ∀ l, ∀ r ∈ f l, ∃ y ∈ l, r.1 = y.1

theorem squadResults_own {f : SquadFn} (hf : GivesOwn f) (l : List (Nat × List DWord)) :
    ∀ r ∈ squadResults f l, r.1 ∈ l.map (·.1) := by
  intro r hr
  obtain ⟨part, hpart, hr⟩ := List.mem_flatten.1 hr
  obtain ⟨k, -, rfl⟩ := List.mem_map.1 hpart
  obtain ⟨r', hr', rfl⟩ := List.mem_map.1 hr
  obtain ⟨y, hy, e⟩ := hf _ r' hr'
  obtain ⟨z, hz, rfl⟩ := List.mem_map.1 hy
  obtain ⟨hz, hk⟩ := List.mem_filter.1 (mem_sortBy.1 hz)
  have hk : z.1 / 32 = k := by simpa using hk
  refine List.mem_map.2 ⟨z, hz, ?_⟩
  rw [e]
  show z.1 = 32 * k + z.1 % 32
  omega

/-! ### The end of the course -/

theorem splitOff_squad {l : List (List Nat)} (c age : Nat) (h : ∀ ms ∈ l, ∀ i ∈ ms, i ∈ g.members) :
    SquadStep g 0 w (splitOff w c g.block age l) := by
  induction l generalizing w with
  | nil => exact .of_blocks rfl rfl
  | cons ms l ih =>
    unfold splitOff
    split
    · have all : ∀ i ∈ (ms :: l).flatten, i ∈ g.members := fun i hi => by
        obtain ⟨k, hk, hi⟩ := List.mem_flatten.1 hi
        exact h k hk i hi
      exact (squadNear_mapThreads (f := fun x => { x with since := w.tick }) all fun _ => rfl).toSquadStep
    · exact (ih fun k hk => h k (List.mem_cons_of_mem _ hk)).after rfl rfl

/-- What the regrouping after the instruction leaves. -/
theorem regroup_squad (h : ∀ en, w.entry g.core g.e = some en → en.block = g.block ∧ en.members = g.members) :
    SquadStep g 0 w (regroup w g.core g.e) := by
  unfold regroup
  cases he : w.entry g.core g.e with
  | none => exact .of_blocks rfl rfl
  | some en =>
    obtain ⟨hb, hm⟩ := h en he
    dsimp only
    split
    · exact .of_blocks rfl rfl
    · rw [hb]
      refine (splitOff_squad g.core en.lastIssue fun ms hms i hi => ?_).after (w := w.modEntry ..) rfl rfl
      obtain ⟨k, -, rfl⟩ := List.mem_map.1 hms
      have hi := (List.mem_filter.1 (List.mem_filter.1 hi).1).1
      rwa [hm] at hi

end Sys2Proof.Claims
end

section
/-! A squad instruction that issues for a whole squad (R190, R191), and the obligation O13. -/

namespace Sys2Proof.Claims

open Machine

variable {g : Grp} {s w : State} {q : Nat} {com : Com} {mask : Word} {srcs dsts : List Src} {ins : Instr} {b : Block}

/-! ### The participants -/

theorem mem_participants {m i : Nat} :
    i ∈ b.participants q m ↔ i / 32 = q ∧ m.testBit (i % 32) = true ∧ (Kv.find i b.threads).isSome = true := by
  simp only [Block.participants, List.mem_filter, List.mem_map, List.mem_range]
  constructor
  · rintro ⟨⟨k, ⟨lt, bit⟩, rfl⟩, listed⟩
    have place : (32 * q + k) % 32 = k := by omega
    exact ⟨by omega, by rw [place]; exact bit, listed⟩
  · rintro ⟨rfl, bit, listed⟩
    exact ⟨⟨i % 32, ⟨Nat.mod_lt _ (by decide), bit⟩, by omega⟩, listed⟩

theorem participants_nodup (b : Block) (q m : Nat) : (b.participants q m).Nodup := by
  refine ((List.nodup_range.filter _).map fun i j h => ?_).filter _
  simpa using h

/-! ### The squad that the group is -/

theorem SquadIssue.inSquad (S : SquadIssue s g q com mask srcs dsts) {i : Nat} (h : i ∈ g.members) :
    i / 32 = q ∧ mask.toNat.testBit (i % 32) = true := by
  obtain ⟨squad, named, -⟩ := mem_participants.1 ((S.members i).1 h)
  exact ⟨squad, named⟩

/-- The members in order of home lane are the participants (R191). -/
theorem SquadIssue.sorted (S : SquadIssue s g q com mask srcs dsts) :
    sortBy (fun i => ((s.block g.block).thread i).lane) ((s.block g.block).participants q mask.toNat) = g.members := by
  have distinctMembers : g.members.Nodup := S.lanes.imp fun {i j} h (e : i = j) => by rw [e] at h; exact Nat.lt_irrefl _ h
  refine sortBy_eq ?_ S.lanes
  exact (List.perm_ext_iff_of_nodup (participants_nodup ..) distinctMembers).2 fun i => (S.members i).symm

/-- The group's entry. -/
theorem SquadIssue.entry (S : SquadIssue s g q com mask srcs dsts) :
    ∃ en, s.entry g.core g.e = some en ∧ en.block = g.block ∧ en.members = g.members ∧ g.members ≠ [] := by
  have group := S.group
  unfold State.grp at group
  split at group
  · next c e _ =>
    unfold State.grpOf at group
    split at group
    · cases group
    · next en he =>
      split at group
      · cases group
      · next m ms hm =>
        cases group
        exact ⟨en, he, rfl, rfl, by rw [hm]; exact List.cons_ne_nil _ _⟩
  · cases group

theorem find_filter_of_find {α : Type} {p : Nat × α → Bool} {k : Nat} {v : α} {l : List (Nat × α)} (h : Kv.find k l = some v)
    (hp : p (k, v) = true) : Kv.find k (l.filter p) = some v := by
  induction l with
  | nil => cases h
  | cons a l ih =>
    obtain ⟨j, y⟩ := a
    by_cases e : k = j
    · subst e
      have : y = v := by simpa [Kv.find] using h
      subst this
      simp [hp, Kv.find]
    · have rest : Kv.find k l = some v := by simpa [Kv.find, e] using h
      rw [List.filter_cons]
      split
      · simpa [Kv.find, e] using ih rest
      · exact ih rest

/-- The state in which the whole squad executes: the members that were there already have joined. -/
def joined (s : State) (g : Grp) (q : Nat) (mask : Word) : State :=
  (holdThreads s g.block [] (.squad mask.toNat)).absorb g ((s.block g.block).participants q mask.toNat) g.members

/-- A list of threads of which a change leaves each as it is. -/
theorem find_mapThreads_same {l : List Nat} {f : Thread → Thread}
    (h : ∀ i ∈ l, ∀ t, Kv.find i b.threads = some t → f t = t) (i : Nat) :
    Kv.find i (b.mapThreads l f).threads = Kv.find i b.threads := by
  rw [Block.find_mapThreads]
  cases ht : Kv.find i b.threads with
  | none => rfl
  | some t =>
    rw [Option.map_some]
    split
    next c => rw [h i (List.contains_iff_mem.1 c) t ht]
    · rfl

theorem find_joined (S : SquadIssue s g q com mask srcs dsts) (i : Nat) :
    Kv.find i ((joined s g q mask).block g.block).threads = Kv.find i (s.block g.block).threads := by
  have stays : g.members.filter (fun i => !g.members.contains i) = [] := by
    rw [List.filter_eq_nil_iff]
    intro i hi
    simp [hi]
  have blocks : ((joined s g q mask).block g.block) =
      (((s.block g.block).mapThreads [] fun t => { t with stat := .held (.squad mask.toNat), since := s.tick }).mapThreads []
        fun t => { t with since := s.tick }).mapThreads ((s.block g.block).participants q mask.toNat)
        fun t => { t with stat := .ready } := by
    refine State.block_of_find ?_
    unfold joined State.absorb
    rw [stays, State.modCore_blocks, State.find_modBlock_self, holdThreads, State.find_modBlock_self, S.block]
    rfl
  have none_moves : ∀ {c : Block} {f : Thread → Thread}, ∀ i ∈ ([] : List Nat), ∀ t, Kv.find i c.threads = some t → f t = t :=
    fun _ h => by cases h
  rw [blocks, find_mapThreads_same, find_mapThreads_same none_moves, find_mapThreads_same none_moves]
  · intro i hi t ht
    rw [find_mapThreads_same none_moves, find_mapThreads_same none_moves] at ht
    obtain ⟨t', ht', ready, -⟩ := S.each i ((S.members i).2 hi)
    rw [ht] at ht'
    cases ht'
    rw [← ready]

theorem entry_joined (S : SquadIssue s g q com mask srcs dsts) {en : Entry} (he : s.entry g.core g.e = some en) :
    (joined s g q mask).entry g.core g.e = some { en with members := g.members, chain := 0 } := by
  obtain ⟨-, -, -, -, some_⟩ := S.entry
  unfold joined State.absorb
  rw [State.entry, State.core_modCore_self]
  refine find_filter_of_find ?_ (by simpa using some_)
  have keyed : ∀ l : List (Nat × Entry), (l.map fun x =>
      if x.1 = g.e then (x.1, { x.2 with members := g.members, chain := 0 })
      else if x.2.block = g.block then (x.1, { x.2 with members := x.2.members.filter fun i => !g.members.contains i })
      else x) = l.map fun x => (x.1, if x.1 = g.e then { x.2 with members := g.members, chain := 0 }
        else if x.2.block = g.block then { x.2 with members := x.2.members.filter fun i => !g.members.contains i }
        else x.2) := fun l => List.map_congr_left fun x _ => by split_ifs <;> rfl
  rw [keyed]
  refine (Kv.find_map (fun k (e : Entry) => if k = g.e then { e with members := g.members, chain := 0 }
    else if e.block = g.block then { e with members := e.members.filter fun i => !g.members.contains i } else e) g.e _).trans
    ((congrArg (Option.map _) he).trans ?_)
  rw [Option.map_some, if_pos rfl]

theorem squadNear_joined (S : SquadIssue s g q com mask srcs dsts) : SquadNear g 0 s (joined s g q mask) where
  mem := rfl
  members := fun i _ t ht => ⟨t, (find_joined S i).trans ht, .refl t⟩
  others := fun i _ => find_joined S i
  entry := fun en he => by
    obtain ⟨en', he', hb, hm, -⟩ := S.entry
    rw [he] at he'
    cases he'
    exact ⟨_, entry_joined S he, rfl, hm.symm⟩

theorem thread_joined (S : SquadIssue s g q com mask srcs dsts) (i : Nat) :
    (joined s g q mask).thread g.block i = s.thread g.block i := by
  rw [State.thread, State.thread, Block.thread, Block.thread, Kv.get_eq_find, Kv.get_eq_find, find_joined S]

/-- A squad instruction runs for the whole squad at once. -/
theorem squadExec_whole (S : SquadIssue s g q com mask srcs dsts) (ins : Instr) (f : SquadFn) :
    squadExec ins com mask srcs dsts f s =
      finish (squadRun g ins com mask.toNat (Use.plain com srcs dsts) f (joined s g q mask)) g := by
  obtain ⟨en, -, -, -, ne⟩ := S.entry
  obtain ⟨m, ms, hm⟩ := List.exists_cons_of_ne_nil ne
  obtain ⟨t, ht, -, mode, act, -⟩ := S.each m (by rw [hm]; exact List.mem_cons_self ..)
  have own : s.thread g.block m = t := Kv.get_of_find ht
  have barred : ¬ g.priv s = .boot := by
    rw [Grp.priv, hm]
    simp only [own]
    exact mode
  have passes : ¬ (com.guardNeg && com.guardPred == 7 && g.ov.isNone) = true := by
    intro h
    simp only [Bool.and_eq_true, beq_iff_eq] at h
    obtain ⟨⟨neg, seven⟩, -⟩ := h
    refine act ?_
    rw [seven, neg]
    simp [Thread.pred]
  have named : ∀ i ∈ g.members, mask.toNat.testBit (i % 32) = true := fun i hi => (S.inSquad hi).2
  have none_passes : g.members.filter (fun i => !mask.toNat.testBit (i % 32)) = [] := by
    rw [List.filter_eq_nil_iff]
    intro i hi
    simp [named i hi]
  have whole : ((s.block g.block).participants q mask.toNat).all
      (fun i => g.members.contains i || s.arrived g.block g.pc i) = true := by
    rw [List.all_eq_true]
    intro i hi
    rw [List.contains_iff_mem.2 ((S.members i).2 hi), Bool.true_or]
  have none_waits : g.members.filter (fun i => mask.toNat.testBit (i % 32) &&
      !((s.block g.block).participants (i / 32) mask.toNat).all fun i => g.members.contains i || s.arrived g.block g.pc i)
      = [] := by
    rw [List.filter_eq_nil_iff]
    intro i hi
    rw [(S.inSquad hi).1, whole, Bool.not_true, Bool.and_false]
    exact Bool.false_ne_true
  have one : distinct (g.members.map (· / 32)) = [q] := by
    refine distinct_const (by rw [hm]; exact List.cons_ne_nil _ _) fun k hk => ?_
    obtain ⟨i, hi, rfl⟩ := List.mem_map.1 hk
    exact (S.inSquad hi).1
  have fits : ∀ (lane : Nat → Nat) (l : List Nat), fitSquads lane [] [l] = l := fun lane l => by
    simp [fitSquads]
  unfold squadExec
  rw [S.group]
  dsimp only
  rw [barBoot, if_neg barred, if_neg passes]
  simp only [none_passes, none_waits, one, List.filter_cons, whole, if_true, List.filter_nil, List.map_cons, List.map_nil, fits,
    List.append_nil, S.sorted]
  rw [if_neg (by rw [hm]; exact Bool.false_ne_true)]
  rfl

/-- What the execution of a whole squad leaves: every member has gone past the instruction, and no other thread of the
block has changed. -/
theorem squadExec_steps (S : SquadIssue s g q com mask srcs dsts) (ins : Instr) {f : SquadFn} (hf : GivesOwn f) :
    ∃ s', squadExec ins com mask srcs dsts f s = .next s' ∧ SquadStep g 12 s s' := by
  rw [squadExec_whole S]
  refine ⟨_, rfl, ?_⟩
  have start := squadNear_joined S
  have moved := start.trans (squadNear_advance (g := g) S.own 12)
  have active : g.active com (joined s g q mask) = g.members := by
    refine List.filter_eq_self.2 fun i hi => ?_
    obtain ⟨t, ht, -, -, act, -⟩ := S.each i hi
    rw [thread_joined S, State.thread, Block.thread, Kv.get_of_find ht, guarded]
    simpa [S.own, Active] using act
  obtain ⟨keys, checked⟩ := checkAll_passes (ins := ins) (com := com) (srcs := srcs) (dsts := dsts)
    (w := advance (closeChain (joined s g q mask) g) g 12) (l := g.members) (fun _ h => h) fun i hi => by
      obtain ⟨t, ht, -, -, -, rd, wr⟩ := S.each i hi
      obtain ⟨t', ht', st⟩ := moved.members i hi t ht
      exact ⟨t', ht', fun y hy => by rw [Readable, st.usable]; exact rd y hy,
        fun y hy => by rw [Writable, st.usable]; exact wr y hy⟩
  have run : SquadNear g 12 s (squadRun g ins com mask.toNat (Use.plain com srcs dsts) f (joined s g q mask)) := by
    unfold squadRun
    dsimp only
    rw [active, squadMask_passes fun y hy =>
      (S.inSquad (show y.1 ∈ g.members by rw [← keys]; exact List.mem_map.2 ⟨y, hy, rfl⟩)).2]
    refine (moved.trans checked).trans (squadNear_writeOwn true fun y hy => ?_)
    rw [← keys]
    exact squadResults_own hf _ y (mem_sortBy.1 hy)
  refine run.toSquadStep.trans (regroup_squad fun en' he' => ?_)
  obtain ⟨en, he, hb, hm, -⟩ := S.entry
  obtain ⟨en'', he'', hb', hm'⟩ := run.entry en he
  rw [he'] at he''
  cases he''
  exact ⟨hb'.trans hb, hm'.trans hm⟩

theorem givesOwn_map {h : List (Nat × List DWord) → Nat × List DWord → List (Src × DWord)} :
    GivesOwn fun l => l.map fun y => (y.1, h l y) := fun l r hr => by
  obtain ⟨y, hy, rfl⟩ := List.mem_map.1 hr
  exact ⟨y, hy, rfl⟩

/-- Every squad instruction runs by the shared course, of 12 bytes, and gives results to its participants alone. -/
theorem squadForm_course (h : squadForm ins = some (com, mask, srcs, dsts)) :
    lenOf ins = 12 ∧ ∃ f, GivesOwn f ∧ ∀ s, exec ins s = squadExec ins com mask srcs dsts f s := by
  cases ins with
  | shfl | vote | matchKey | sred | sscan =>
    cases h
    exact ⟨rfl, _, givesOwn_map, fun _ => rfl⟩
  | ssync =>
    cases h
    exact ⟨rfl, fun _ => [], fun _ _ h => absurd h List.not_mem_nil, fun _ => rfl⟩
  | _ => cases h

theorem squad_passes (h : squadForm ins = some (com, mask, srcs, dsts)) (S : SquadIssue s g q com mask srcs dsts) :
    ∃ s', exec ins s = .next s' ∧ s'.mem = s.mem ∧ (∀ i ∈ g.members, (s'.thread g.block i).stat = .ready ∧
      (s'.thread g.block i).pc = (s.thread g.block i).pc + lenOf ins) ∧
      ∀ i, i ∉ g.members → s'.thread g.block i = s.thread g.block i := by
  obtain ⟨len, f, hf, run⟩ := squadForm_course h
  obtain ⟨s', next, step⟩ := squadExec_steps S ins hf
  refine ⟨s', (run s).trans next, step.mem, fun i hi => ?_, fun i hi => ?_⟩
  · obtain ⟨t, ht, ready, -⟩ := S.each i hi
    obtain ⟨t', ht', st⟩ := step.members i hi t ht
    have before : s.thread g.block i = t := Kv.get_of_find ht
    have after : s'.thread g.block i = t' := Kv.get_of_find ht'
    rw [before, after, len, st]
    exact ⟨ready, rfl⟩
  · rw [State.thread, State.thread, Block.thread, Block.thread, Kv.get_eq_find, Kv.get_eq_find, step.others i hi]

/-! ### The obligation -/

theorem exit_ends {i : Nat} {t : Thread} {x : BlockCore} (C : CanIssue s g i b t x com [] []) (mode : t.priv ≠ .boot) :
    ∃ s', exec (.exit com) s = .next s' ∧ Kv.find i (s'.block g.block).threads = none := by
  rw [exit_runs C, if_neg mode]
  exact ⟨_, rfl, noThread_regroup (noThread_endThreads ..) ..⟩

theorem exit_boot {i : Nat} {t : Thread} {x : BlockCore} (C : CanIssue s g i b t x com [] []) (mode : t.priv = .boot) :
    ∃ s', exec (.exit com) s = .next s' ∧ (s'.core g.core).ready = true ∧ (s'.core g.core).entries = [] ∧
      (s'.core g.core).rf = [] ∧ (s'.core g.core).pad = [] ∧ s'.mem = s.mem := by
  rw [exit_runs C, if_pos mode]
  have core : ∀ w : State, (w.bootRepair g.core).core g.core = { w.core g.core with
      rf := [], pad := [], steer := (applyRepairs (w.core g.core) 32).1, ready := true, entries := [] } := fun w =>
    Kv.get_insert_self ..
  have mem := (issued_rest (s := s) (g := g) (i := i) (.exit com) []).1
  refine ⟨_, rfl, ?_⟩
  change (((issued s g i (.exit com) []).bootRepair g.core).core g.core).ready = true ∧
    (((issued s g i (.exit com) []).bootRepair g.core).core g.core).entries = [] ∧
    (((issued s g i (.exit com) []).bootRepair g.core).core g.core).rf = [] ∧
    (((issued s g i (.exit com) []).bootRepair g.core).core g.core).pad = [] ∧ (issued s g i (.exit com) []).mem = s.mem
  rw [core]
  exact ⟨rfl, rfl, rfl, rfl, by rw [mem]⟩

theorem halt_user {i : Nat} {t : Thread} {x : BlockCore} (C : CanIssue s g i b t x com [] []) (user : t.priv = .user) :
    Traps s g i b t (.halt com) [] (Exc.of .privilege) := by
  exact traps_of (srcs := []) C.alone (by decide) ((exec_halt com s).trans
    (once_refused C.alone C.active (check_level C.alone (by rw [user]; exact Nat.zero_lt_one) _) haltEffect))

/-- Settles O13: the lone thread's instructions by their own courses, the squad's by the course that all its instructions
share. -/
theorem threadControl : Obligations.ThreadControl :=
  ⟨fun _ _ _ _ _ _ A => nop_passes A, fun _ _ _ _ _ _ A => filler_passes A, fun _ _ _ _ _ _ _ C => yield_passes C,
    fun _ _ _ _ _ _ _ C mode => exit_ends C mode, fun _ _ _ _ _ _ _ C mode => exit_boot C mode,
    fun _ _ _ _ _ _ _ _ _ C priv hp hy =>
      ⟨fun pending => halt_continues C priv hp hy pending, fun event hail => halt_holds C priv hp hy event hail⟩,
    fun _ _ _ _ _ _ _ C user => halt_user C user, fun _ _ _ _ _ _ _ _ h S => squad_passes h S⟩

end Sys2Proof.Claims
end

section
/-! The control and status registers (R25, R122): what CSRR reads and what CSRW changes. -/

namespace Sys2Proof.Claims

open Machine

variable {g : Grp} {i : Nat} {s w : State} {b : Block} {t : Thread} {x : BlockCore} {com : Com} {reg : BitVec 12}
  {ins : Instr} {r : Csr} {v : DWord}

/-! ### The two effects -/

/-- The effect of CSRR. -/
def csrrEffect (reg : BitVec 12) (dst : Opnd) (g : Grp) (i : Nat) (_ : List DWord) (s : State) : Effect :=
  match Csr.ofNum reg.toNat with
  | none => .error (.exc (Exc.of .illegalOperand))
  | some r =>
    if r.ofPart && (g.part s).isNone then .error (.exc (Exc.of .illegalOperand))
    else .ok (s, [((dst, r.wide), csrOf s g i r)])

theorem exec_csrr (com : Com) (reg : BitVec 12) (dst : Opnd) (s : State) : exec (.csrr com reg dst) s =
    eachThread (.csrr com reg dst) ⟨com, none, csrLevel reg, [], [(dst, csrWide reg)]⟩ (csrrEffect reg dst) s := rfl

/-- The effect of the three forms of CSRW, of which `h` gives the new value. -/
def csrwEffect (reg : BitVec 12) (h : DWord → DWord → DWord) (g : Grp) (i : Nat) (l : List DWord) (s : State) : Effect :=
  match Csr.ofNum reg.toNat with
  | none => .error (.exc (Exc.of .illegalOperand))
  | some r =>
    if (r.ofPart && (g.part s).isNone) || r.readOnly || !csrOk r (h (csrOf s g i r) (l.getD 0 0)).toNat then
      .error (.exc (Exc.of .illegalOperand))
    else .ok (csrWrite s g i r (h (csrOf s g i r) (l.getD 0 0)), [])

theorem exec_csrw {a : Opnd} {h : DWord → DWord → DWord} (form : csrWriteForm ins = some (com, reg, a, h)) (s : State) :
    exec ins s = eachThread ins ⟨com, none, csrLevel reg, [(a, csrWide reg)], []⟩ (csrwEffect reg h) s := by
  cases ins with
  | csrw | csrwSet | csrwClr => cases form; rfl
  | _ => cases form

theorem csrLevel_of (h : Csr.ofNum reg.toNat = some r) : csrLevel reg = r.level := by rw [csrLevel, h]; rfl
theorem csrWide_of (h : Csr.ofNum reg.toNat = some r) : csrWide reg = r.wide := by rw [csrWide, h]; rfl

/-! ### What a register reads -/

/-- A register is read from the core, the partition and four fields of the thread. -/
theorem csrOf_congr (hb : (w.core g.core).bootvec = (s.core g.core).bootvec)
    (hd : (w.core g.core).diagbase = (s.core g.core).diagbase) (hc : (w.core g.core).diagctl = (s.core g.core).diagctl)
    (hp : (g.part w).bind w.part = (g.part s).bind s.part)
    (hf : (w.thread g.block i).fpcsr = (s.thread g.block i).fpcsr)
    (ht : thstatVal (w.thread g.block i) = thstatVal (s.thread g.block i)) (q : Csr) : csrOf w g i q = csrOf s g i q := by
  unfold csrOf csrRead
  rw [hb, hd, hc, hp, hf, ht]

/-- A 32-bit register reads zeros above. -/
theorem csrOf_narrow (s : State) (g : Grp) (i : Nat) (h : r.wide = false) (ro : r.readOnly = false) :
    (csrOf s g i r).toNat < 2 ^ 32 := by
  have fits : ∀ u : Word, (u.setWidth 64).toNat < 2 ^ 32 := fun u => by
    rw [BitVec.toNat_setWidth]
    exact lt_of_le_of_lt (Nat.mod_le _ _) u.isLt
  cases r with
  | bootvec | diagbase | pt1root | evq => cases h
  | thstat | partcfg | deftbl | hailpay | hailcnt => cases ro
  | fpcsr | diagctl | slice => exact fits _

/-- The issue of an instruction leaves every register as it was. -/
theorem csrOf_issued (A : Alone s g i b t x) (ins : Instr) (srcs : List Src) (q : Csr) :
    csrOf (issued s g i ins srcs) g i q = csrOf s g i q := by
  have N : Near g i t.bc [] SregsOnly Quiet s (issued s g i ins srcs) :=
    near_issued A pre_sregsOnly pre_quiet quiet_modBlock quiet_modCore ins srcs
  obtain ⟨b', hb, -, same, -⟩ := issued_block A ins srcs
  have part : g.part (issued s g i ins srcs) = g.part s := by
    rw [Grp.part, Grp.part, hb, same, State.block_of_find A.block]
  have parts : (issued s g i ins srcs).part = s.part := by rw [N.quiet]; rfl
  refine csrOf_congr ?_ ?_ ?_ (by rw [part, parts]) ?_ ?_ q
  · rw [N.core]
  · rw [N.core]
  · rw [N.core]
  · rw [issued_eq A, thread_of_find A.block A.thread]
  · rw [issued_eq A, thread_of_find A.block A.thread]
    rfl

/-! ### What CSRW changes -/

theorem csrWrite_mem (w : State) (g : Grp) (i : Nat) (r : Csr) (v : DWord) : (csrWrite w g i r v).mem = w.mem := by
  cases r <;> rfl

theorem csrWrite_entry (w : State) (g : Grp) (i : Nat) (r : Csr) (v : DWord) :
    (csrWrite w g i r v).entry g.core g.e = w.entry g.core g.e := by
  cases r with
  | bootvec | diagbase | diagctl => simp [csrWrite, State.entry]
  | _ => rfl

theorem csrWrite_block (hb : Kv.find g.block w.blocks = some b) (ht : Kv.find i b.threads = some t) (r : Csr) (v : DWord) :
    ∃ b' t', Kv.find g.block (csrWrite w g i r v).blocks = some b' ∧ b' = { b with threads := b'.threads } ∧
      Kv.find i b'.threads = some t' ∧ t' = { t with fpcsr := t'.fpcsr } ∧ (r ≠ .fpcsr → t' = t) ∧
      (r = .fpcsr → t'.fpcsr = v.setWidth 32) := by
  cases r with
  | fpcsr =>
    refine ⟨{ b with threads := Kv.modify i (fun t => { t with fpcsr := v.setWidth 32 }) b.threads },
      { t with fpcsr := v.setWidth 32 }, ?_, rfl, ?_, rfl, fun h => absurd rfl h, fun _ => rfl⟩
    · rw [csrWrite, State.modThread, State.find_modBlock_self, hb, Option.map_some]
    · rw [Kv.find_modify_self, ht, Option.map_some]
  | _ => exact ⟨b, t, hb, rfl, ht, rfl, fun _ => rfl, fun h => nomatch h⟩

/-- CSRW gives the register its new value, and leaves every other register as it was. -/
theorem csrOf_csrWrite (hb : Kv.find g.block w.blocks = some b) (ht : Kv.find i b.threads = some t)
    (there : CsrThere w b r) (ro : r.readOnly = false) (fits : r.wide = false → v.toNat < 2 ^ 32) :
    csrOf (csrWrite w g i r v) g i r = v ∧ ∀ q ≠ r, csrOf (csrWrite w g i r v) g i q = csrOf w g i q := by
  have whole : v.toNat < 2 ^ 32 → (v.setWidth 32).setWidth 64 = v := low32_of_lt
  have before : w.thread g.block i = t := thread_of_find hb ht
  have partOf : g.part w = b.part := by rw [Grp.part, State.block_of_find hb]
  obtain ⟨b', t', hb', sameBlock, ht', same, other, new⟩ := csrWrite_block hb ht r v
  have after : (csrWrite w g i r v).thread g.block i = t' := thread_of_find hb' ht'
  have partOf' : g.part (csrWrite w g i r v) = b.part := by rw [Grp.part, State.block_of_find hb', sameBlock]
  have stat : thstatVal t' = thstatVal t := by rw [same]; rfl
  unfold csrOf
  rw [after, before, partOf, partOf']
  cases r with
  | thstat | partcfg | deftbl | hailpay | hailcnt => cases ro
  | fpcsr =>
    constructor
    · show t'.fpcsr.setWidth 64 = v
      rw [new rfl, whole (fits rfl)]
    · intro q hq
      cases q with
      | fpcsr => exact absurd rfl hq
      | thstat => exact congrArg (BitVec.ofNat 64) stat
      | _ => rfl
  | bootvec =>
    rw [other (fun h => nomatch h)]
    refine ⟨by simp [csrWrite, csrRead], fun q hq => ?_⟩
    cases q with
    | bootvec => exact absurd rfl hq
    | diagbase | diagctl => simp [csrWrite, csrRead]
    | _ => rfl
  | diagbase =>
    rw [other (fun h => nomatch h)]
    refine ⟨by simp [csrWrite, csrRead], fun q hq => ?_⟩
    cases q with
    | diagbase => exact absurd rfl hq
    | bootvec | diagctl => simp [csrWrite, csrRead]
    | _ => rfl
  | diagctl =>
    rw [other (fun h => nomatch h)]
    refine ⟨by simpa [csrWrite, csrRead] using whole (fits rfl), fun q hq => ?_⟩
    cases q with
    | diagctl => exact absurd rfl hq
    | bootvec | diagbase => simp [csrWrite, csrRead]
    | _ => rfl
  | pt1root =>
    obtain ⟨p, hp, hy⟩ := there rfl
    obtain ⟨y, hy⟩ := Option.ne_none_iff_exists'.1 hy
    rw [other (fun h => nomatch h)]
    refine ⟨by simp [csrWrite, csrRead, partOf, hp, hy], fun q hq => ?_⟩
    cases q with
    | pt1root => exact absurd rfl hq
    | evq | slice | partcfg | hailpay | hailcnt => simp [csrWrite, csrRead, partOf, hp, hy, partcfgVal]
    | _ => rfl
  | evq =>
    obtain ⟨p, hp, hy⟩ := there rfl
    obtain ⟨y, hy⟩ := Option.ne_none_iff_exists'.1 hy
    rw [other (fun h => nomatch h)]
    refine ⟨by simp [csrWrite, csrRead, partOf, hp, hy], fun q hq => ?_⟩
    cases q with
    | evq => exact absurd rfl hq
    | pt1root | slice | partcfg | hailpay | hailcnt => simp [csrWrite, csrRead, partOf, hp, hy, partcfgVal]
    | _ => rfl
  | slice =>
    obtain ⟨p, hp, hy⟩ := there rfl
    obtain ⟨y, hy⟩ := Option.ne_none_iff_exists'.1 hy
    rw [other (fun h => nomatch h)]
    refine ⟨by simpa [csrWrite, csrRead, partOf, hp, hy] using whole (fits rfl), fun q hq => ?_⟩
    cases q with
    | slice => exact absurd rfl hq
    | pt1root | evq | partcfg | hailpay | hailcnt => simp [csrWrite, csrRead, partOf, hp, hy, partcfgVal]
    | _ => rfl

end Sys2Proof.Claims
end

section
/-! CSRR, CSRW, CSRW.set and CSRW.clr of a lone thread (R122): the obligation O14. -/

namespace Sys2Proof.Claims

open Machine

variable {g : Grp} {i : Nat} {s w : State} {b : Block} {t : Thread} {x : BlockCore} {com : Com} {reg : BitVec 12}
  {ins : Instr} {r : Csr} {v : DWord} {srcs : List Src} {d : Src} {dst a : Opnd} {h : DWord → DWord → DWord}

/-- An instruction that does nothing but write one result. -/
theorem done_result (A : Alone s g i b t x)
    (run : exec ins s = finish ((writeAll g.block i true [(d, v)] (issued s g i ins srcs)).taken g.core g.e) g) :
    Done s g i b t x ins srcs [d] SregsOnly Quiet fun s' t' => t'.fpcsr = t.fpcsr ∧ Holds s' g.block i d v := by
  have N0 : Near g i t.bc [d] SregsOnly Quiet s (issued s g i ins srcs) :=
    near_issued A pre_sregsOnly pre_quiet quiet_modBlock quiet_modCore ins srcs
  obtain ⟨b0, hb0, nb0⟩ := N0.blk b A.block
  obtain ⟨t0, ht0, nt0⟩ := nb0.thread t A.thread
  obtain ⟨x0, hx0, -⟩ := nb0.core x A.core
  have own0 : t0 = { t with pc := t.pc + lenOf ins, rep := none, tsLatch := latched s t srcs } :=
    (thread_of_find hb0 ht0).symm.trans (issued_eq A ins srcs)
  have place : t0.bc = t.bc := by rw [own0]
  have N1 : Near g i t.bc [d] SregsOnly Quiet (issued s g i ins srcs)
      (writeAll g.block i true [(d, v)] (issued s g i ins srcs)) :=
    place ▸ near_writeAll (ws := [(d, v)]) (l := [d]) (fun y hy => by
      rw [List.mem_singleton.1 hy]; exact List.mem_singleton.2 rfl) hb0 ht0
  have own1 := thread_writeAll (ws := [(d, v)]) hb0 ht0
  dsimp only at own1
  obtain ⟨s', next, N, blocks, t', R, pc, ts, last⟩ := done_alone A pre_sregsOnly pre_quiet quiet_modBlock quiet_modCore
    (fun _ _ => rfl) run N1 (by rw [own1, own0]) (by rw [own1, own0])
  refine ⟨s', t', next, R, N.quiet, pc, ts, ?_, ?_⟩
  · rw [last, own1, own0]
  · exact holds_blocks blocks (holds_writeDst hb0 ht0 (place.symm ▸ hx0) d v)

/-- The group of a lone thread belongs to its block's partition, also after the issue. -/
theorem part_issued (A : Alone s g i b t x) (ins : Instr) (srcs : List Src) : g.part (issued s g i ins srcs) = b.part := by
  obtain ⟨b', hb, -, same, -⟩ := issued_block A ins srcs
  rw [Grp.part, hb, same]

theorem present (A : Alone s g i b t x) (there : CsrThere s b r) (ins : Instr) (srcs : List Src) :
    (r.ofPart && (g.part (issued s g i ins srcs)).isNone) = false := by
  rw [part_issued A]
  cases hr : r.ofPart with
  | false => rfl
  | true =>
    obtain ⟨p, hp, -⟩ := there hr
    rw [hp]
    rfl

/-! ### CSRR -/

theorem csrr_reads (hr : Csr.ofNum reg.toNat = some r) (C : CanIssue s g i b t x com [] [(dst, r.wide)])
    (level : r.level ≤ t.priv.level) (there : CsrThere s b r) :
    Done s g i b t x (.csrr com reg dst) [] [(dst, r.wide)] SregsOnly Quiet fun s' t' =>
      t'.fpcsr = t.fpcsr ∧ Holds s' g.block i (dst, r.wide) (csrOf s g i r) := by
  have A := C.alone
  refine done_result A ?_
  rw [exec_csrr, csrLevel_of hr, csrWide_of hr, each_alone (u := ⟨com, none, r.level, [], [(dst, r.wide)]⟩) A _ C.active rfl
    level C.readable C.writable]
  simp only [csrrEffect, hr, present A there, csrOf_issued A, Bool.false_eq_true, if_false]
  rfl

theorem csrr_privilege (hr : Csr.ofNum reg.toNat = some r) (A : Alone s g i b t x) (act : Active com t)
    (level : t.priv.level < r.level) : Traps s g i b t (.csrr com reg dst) [] (Exc.of .privilege) := by
  refine traps_taken (srcs := []) A (by decide) ?_
  rw [exec_csrr, csrLevel_of hr]
  exact each_refused (u := ⟨com, none, r.level, [], [(dst, csrWide reg)]⟩) A act (check_level A level _) _

theorem csrr_unknown (hr : Csr.ofNum reg.toNat = none) (C : CanIssue s g i b t x com [] [(dst, false)]) :
    Traps s g i b t (.csrr com reg dst) [] (Exc.of .illegalOperand) := by
  have level : csrLevel reg = 0 := by rw [csrLevel, hr]; rfl
  have narrow : csrWide reg = false := by rw [csrWide, hr]; rfl
  refine traps_taken (srcs := []) C.alone (by decide) ?_
  rw [exec_csrr, level, narrow, each_alone (u := ⟨com, none, 0, [], [(dst, false)]⟩) C.alone _ C.active rfl (Nat.zero_le _)
    C.readable C.writable]
  simp only [csrrEffect, hr]
  rfl

/-! ### CSRW -/

/-- What the effect of CSRW answers for a lone thread. -/
theorem csrw_runs (form : csrWriteForm ins = some (com, reg, a, h)) (hr : Csr.ofNum reg.toNat = some r)
    (C : CanIssue s g i b t x com [(a, r.wide)] []) (level : r.level ≤ t.priv.level) (there : CsrThere s b r) :
    exec ins s =
      let new := h (csrOf s g i r) (reads s g 0 i (a, r.wide))
      let w := issued s g i ins [(a, r.wide)]
      if r.readOnly || !csrOk r new.toNat then
        finish ((faultThread w g i (some ins) [reads s g 0 i (a, r.wide)] (Exc.of .illegalOperand)).taken g.core g.e) g
      else finish ((csrWrite w g i r new).taken g.core g.e) g := by
  have A := C.alone
  rw [exec_csrw form, csrLevel_of hr, csrWide_of hr, each_alone (u := ⟨com, none, r.level, [(a, r.wide)], []⟩) A _ C.active rfl
    level C.readable C.writable]
  simp only [csrwEffect, hr, present A there, csrOf_issued A, Bool.false_or, List.map_cons, List.map_nil, List.getD_cons_zero]
  split <;> rfl

theorem csrw_refused (form : csrWriteForm ins = some (com, reg, a, h)) (hr : Csr.ofNum reg.toNat = some r)
    (C : CanIssue s g i b t x com [(a, r.wide)] []) (level : r.level ≤ t.priv.level) (there : CsrThere s b r)
    (bad : r.readOnly = true ∨ csrOk r (h (csrOf s g i r) (reads s g 0 i (a, r.wide))).toNat = false) :
    Traps s g i b t ins [reads s g 0 i (a, r.wide)] (Exc.of .illegalOperand) := by
  refine traps_taken (srcs := [(a, r.wide)]) C.alone (by decide) ((csrw_runs form hr C level there).trans ?_)
  dsimp only
  rw [if_pos (by simpa using bad)]

/-- What the three forms write into a 32-bit register fits it. -/
theorem new_narrow (form : csrWriteForm ins = some (com, reg, a, h)) (narrow : r.wide = false) (ro : r.readOnly = false) :
    (h (csrOf s g i r) (reads s g 0 i (a, r.wide))).toNat < 2 ^ 32 := by
  have old := csrOf_narrow s g i narrow ro
  have read : (reads s g 0 i (a, r.wide)).toNat < 2 ^ 32 := by rw [narrow]; exact reads_narrow ..
  cases ins with
  | csrw => cases form; exact read
  | csrwSet =>
    cases form
    rw [BitVec.toNat_or]
    exact Nat.or_lt_two_pow old read
  | csrwClr =>
    cases form
    rw [BitVec.toNat_and]
    exact lt_of_le_of_lt Nat.and_le_left old
  | _ => cases form

/-- The entries of the core are no part of what a register reads. -/
theorem csrOf_modEntry (w : State) (f : Entry → Entry) (q : Csr) : csrOf (w.modEntry g.core g.e f) g i q = csrOf w g i q := by
  refine csrOf_congr (w := w.modEntry g.core g.e f) (s := w) ?_ ?_ ?_ rfl rfl rfl q <;> simp [State.modEntry]

/-- After the write of a register the lone thread goes on in its entry. -/
theorem csrw_finish (A : Alone s g i b t x) (ins : Instr) (srcs : List Src) (there : CsrThere s b r) (ro : r.readOnly = false)
    (fits : r.wide = false → v.toNat < 2 ^ 32) :
    ∃ s', finish ((csrWrite (issued s g i ins srcs) g i r v).taken g.core g.e) g = .next s' ∧ csrOf s' g i r = v ∧
      (∀ q ≠ r, csrOf s' g i q = csrOf s g i q) ∧ s'.mem = s.mem ∧ (s'.thread g.block i).regs = t.regs ∧
      (s'.thread g.block i).preds = t.preds ∧ (s'.thread g.block i).pc = t.pc + lenOf ins ∧
      (s'.thread g.block i).stat = .ready := by
  have N : Near g i t.bc [] SregsOnly Quiet s (issued s g i ins srcs) :=
    near_issued A pre_sregsOnly pre_quiet quiet_modBlock quiet_modCore ins srcs
  obtain ⟨⟨en, he, hk, hm⟩, -⟩ := A.entry
  obtain ⟨en0, he0, hk0, hm0⟩ := N.entry en he
  obtain ⟨b0, hb0, nb0⟩ := N.blk b A.block
  obtain ⟨t0, ht0, -⟩ := nb0.thread t A.thread
  have own0 : t0 = { t with pc := t.pc + lenOf ins, rep := none, tsLatch := latched s t srcs } :=
    (thread_of_find hb0 ht0).symm.trans (issued_eq A ins srcs)
  have there0 : CsrThere (issued s g i ins srcs) b0 r := fun hr => by
    obtain ⟨p, hp, hy⟩ := there hr
    refine ⟨p, by rw [nb0.same]; exact hp, ?_⟩
    rw [N.quiet]
    exact hy
  obtain ⟨b1, t1, hb1, -, ht1, own1, -⟩ := csrWrite_block hb0 ht0 r v
  obtain ⟨self, rest⟩ := csrOf_csrWrite hb0 ht0 there0 ro fits
  have ready : t1.stat = .ready := by rw [own1, own0]; exact A.ready
  let u := (csrWrite (issued s g i ins srcs) g i r v).taken g.core g.e
  have entry : u.entry g.core g.e = some en0 := (csrWrite_entry ..).trans he0
  have last : regroup u g.core g.e = u.modEntry g.core g.e fun en => { en with members := [i] } :=
    regroup_alone entry (hm0.trans hm) (by rw [hk0, hk]; exact hb1) ht1 ready
  have same : ∀ q, csrOf (regroup u g.core g.e) g i q = csrOf (csrWrite (issued s g i ins srcs) g i r v) g i q := fun q => by
    rw [last]
    exact csrOf_modEntry u _ q
  have own : (regroup u g.core g.e).thread g.block i = t1 := by
    rw [last]
    exact thread_of_find hb1 ht1
  refine ⟨_, rfl, (same r).trans self, fun q hq => (same q).trans ((rest q hq).trans (csrOf_issued A ins srcs q)), ?_, ?_, ?_,
    ?_, ?_⟩
  · rw [last]
    exact (csrWrite_mem ..).trans (by rw [N.quiet])
  · rw [own, own1, own0]
  · rw [own, own1, own0]
  · rw [own, own1, own0]
  · rw [own]; exact ready

theorem csrw_writes (form : csrWriteForm ins = some (com, reg, a, h)) (hr : Csr.ofNum reg.toNat = some r)
    (C : CanIssue s g i b t x com [(a, r.wide)] []) (level : r.level ≤ t.priv.level) (there : CsrThere s b r)
    (ro : r.readOnly = false) (ok : csrOk r (h (csrOf s g i r) (reads s g 0 i (a, r.wide))).toNat = true) :
    ∃ s', exec ins s = .next s' ∧ csrOf s' g i r = h (csrOf s g i r) (reads s g 0 i (a, r.wide)) ∧
      (∀ q ≠ r, csrOf s' g i q = csrOf s g i q) ∧ s'.mem = s.mem ∧ (s'.thread g.block i).regs = t.regs ∧
      (s'.thread g.block i).preds = t.preds ∧ (s'.thread g.block i).pc = t.pc + lenOf ins ∧
      (s'.thread g.block i).stat = .ready := by
  have run := csrw_runs form hr C level there
  dsimp only at run
  rw [if_neg (by simp [ro, ok])] at run
  rw [run]
  exact csrw_finish C.alone ins _ there ro fun narrow => new_narrow form narrow ro

/-- Settles O14: CSRR writes what it reads of the state, and each register that CSRW may write stands in a field of its
own. -/
theorem controlRegisters : Obligations.ControlRegisters :=
  ⟨⟨fun _ _ _ _ _ _ _ _ _ _ hr C level there => csrr_reads hr C level there,
      fun _ _ _ _ _ _ _ _ _ _ hr A act level => csrr_privilege hr A act level,
      fun _ _ _ _ _ _ _ _ _ hr C => csrr_unknown hr C⟩,
    fun _ _ _ _ _ _ _ _ _ _ _ _ form hr C level there =>
      ⟨fun ro ok => csrw_writes form hr C level there ro ok, fun bad => csrw_refused form hr C level there bad⟩⟩

end Sys2Proof.Claims
end

section
/-! A translation that was found before a stack's memory was lost: an agent that performs a block's matrix work uses it, and
meets an address that no memory has. This refutes the obligation O15, which asks for a next state of every agent in every
state. -/

namespace Sys2Proof.Claims

open Machine

/-- A TST of one byte at address 0, queued on the matrix engine's timeline. -/
def staleStore : EngineOp := EngineOp.start 8 1 (.tst 0 (List.replicate 16 0) 0x1000 [] .rn false 0) none 0x1000 .user

/-- A page at virtual address 0 whose frame lies in package 5, which no port of package 0 reaches. -/
def staleEntry : TlbEntry := ⟨1, 0, 12, 5 * 2 ^ 46, 0, true, true, true, true⟩

/-- A block of partition 1 that is asked to leave, with the store before its save. -/
def staleBlock : Block :=
  { Block.nowhere with
    tag := 7
    part := some 1
    phase := .halting
    cores := [(0, { BlockCore.start 0 [] with ops := [staleStore] })] }

/-- The engine has translated ahead for the store (R253). -/
def staleState : State :=
  { State.reset with
    agenda := []
    blocks := [(7, staleBlock)]
    cores := [(0, { Core.reset with
      released := true
      ahead := [(8 + 16 * 1 + 2 ^ 40 * 7, [staleEntry])] })] }

/-- The frame is at none of the places of R244. -/
theorem stale_faults : execBlockQuiesceSave 1 7 staleState = .fault .noSuchAddress := by
  rfl

/-- Refutes O15: the save of a halting block performs its matrix work, whose translation leads nowhere. -/
theorem not_issueAndCompletionFrames : ¬ Obligations.IssueAndCompletionFrames := by
  rintro ⟨-, -, -, every⟩
  obtain ⟨t, next⟩ := every (.blockQuiesceSave 1 7) rfl staleState
  have fault : exec (.blockQuiesceSave 1 7) staleState = .fault .noSuchAddress := stale_faults
  rw [fault] at next
  cases next

end Sys2Proof.Claims
end

section
/-! The dispatcher (R171, R177 to R180): what a new block holds, and the four steps of a lone grid. -/

namespace Sys2Proof.Machine

variable {p id : Nat} {g : Grid}

/-! ### A new block (R38, R175) -/

/-- A thread of a new block is the starting thread of an index below the thread count. -/
theorem thread_newBlock {n tag now tick : Nat} {place : Placement} {i : Nat} {t : Thread}
    (h : (i, t) ∈ (newBlock p id g n tag now tick place).threads) :
    i < g.lrec.threads ∧ ∃ slot j, t = { Thread.start g.lrec.code g.lrec.nreg8 .user
      ((i + if place.lo32 then 32 else 0) % 64) slot j with since := tick } := by
  simp only [newBlock, List.mem_flatten, List.mem_map] at h
  obtain ⟨_, ⟨j, -, rfl⟩, hl⟩ := h
  obtain ⟨⟨index, slot⟩, hz, e⟩ := List.mem_map.mp hl
  cases e
  have own : index ∈ g.lrec.threadsOn j := (List.of_mem_zip hz).1
  exact ⟨List.mem_range.mp (List.mem_filter.mp own).1, slot, j, rfl⟩

/-- The uniform registers of a new block: ARGP in two words. -/
def argWords (g : Grid) : List (Nat × Word) :=
  Kv.set 0 1 (BitVec.ofNat 32 (g.lrec.argp / 2 ^ 32)) (Kv.set 0 0 (BitVec.ofNat 32 g.lrec.argp) [])

/-- A core of a new block is a starting core but for its regions and its schedule. -/
theorem core_newBlock {n tag now tick : Nat} {place : Placement} {j : Nat} {c : BlockCore}
    (h : (j, c) ∈ (newBlock p id g n tag now tick place).cores) :
    ∃ core regions sched, c = { BlockCore.start core (argWords g) with regions := regions, sched := sched } := by
  simp only [newBlock, List.mem_map] at h
  obtain ⟨x, -, e⟩ := h
  cases e
  exact ⟨_, _, _, rfl⟩

theorem get_argWords (k : Nat) : Kv.get 0 k (argWords g) =
    if k = 0 then BitVec.ofNat 32 g.lrec.argp else if k = 1 then BitVec.ofNat 32 (g.lrec.argp / 2 ^ 32) else 0 := by
  unfold argWords
  rw [Kv.get_set, Kv.get_set, Kv.get_nil]
  by_cases first : k = 0
  · subst first
    rfl
  · rw [if_neg first, if_neg first]

/-! ### What admission leaves (R171) -/

@[simp] theorem refreshCands_clock (s : State) (p : Nat) : (s.refreshCands p).clock = s.clock := rfl

theorem claim_blocks (s : State) (p : Nat) (cores : List Nat) : (s.claim p cores).blocks = s.blocks := by
  unfold State.claim
  induction cores generalizing s with
  | nil => rfl
  | cons c l ih => exact ih _

theorem find_admitNew (s : State) (p id : Nat) (g : Grid) (place : Placement) :
    Kv.find s.nextTag (s.admitNew p id g place).blocks =
      some (newBlock p id g g.nextBlock s.nextTag s.clock s.tick place) := by
  have same : (s.admitNew p id g place).blocks = Kv.insert s.nextTag
      (newBlock p id g g.nextBlock s.nextTag s.clock s.tick place) s.blocks := claim_blocks ..
  rw [same, Kv.find_insert_self]

end Sys2Proof.Machine

namespace Sys2Proof.Claims

open Machine

variable {s : State} {p id : Nat} {x : Partition} {g : Grid}

/-- DEPENDENCE_READ of a launch whose words can all be read (R178). -/
theorem exec_dependenceRead {s1 : State} {met : Bool} (hx : s.part p = some x) (hg : Kv.find id x.grids = some g)
    (open_ : g.depsMet = false) (read : s.depsNow p g.recAddr g.lrec.deps = .ok (s1, met, [])) :
    exec (.dependenceRead p id) s = .next ((s1.modPart p fun y =>
      { y with grids := Kv.insert id { g with depsMet := met, depFailed := [] } y.grids }).refreshCands p) := by
  change execDependenceRead p id s = _
  simp [execDependenceRead, hx, hg, open_, read]

/-- BLOCK_ADMIT of a grid that is not cooperative, at a placement with LO 0 (R171, R177). -/
theorem exec_blockAdmit {place : Placement} (hx : (s.refreshCands p).part p = some x) (hg : Kv.find id x.grids = some g)
    (lone : g.lrec.coop = false) (turn : (s.refreshCands p).mayTake p x id g = true) (left : g.nextBlock < g.lrec.total)
    (budget : (s.refreshCands p).budgetOk p g.node g.lrec.needs = true) (low : place.lo32 = false)
    (fits : (s.refreshCands p).placeOk (((s.refreshCands p).clustersOf p false).filter fun c =>
      !(x.protectedFrom g).contains c) (g.needs 0) place = true) :
    exec (.blockAdmit p id place) s = .next ((s.refreshCands p).admitNew p id g place) := by
  change execBlockAdmit p id place s = _
  simp only [execBlockAdmit, hx, hg, lone, low, turn, left, budget, fits, Bool.false_eq_true, if_false, Bool.false_and,
    Bool.not_false, and_self, if_true]

/-- CANDIDATE_PROTECT after 1 ms (R177). -/
theorem exec_candidateProtect {t : Nat} (hx : (s.refreshCands p).part p = some x) (hg : Kv.find id x.grids = some g)
    (since : g.candSince = some t) (late : t + 1000000 ≤ s.clock) :
    exec (.candidateProtect p id) s = .next ((s.refreshCands p).putPart p
      { x with grids := Kv.insert id { g with protects := (s.refreshCands p).couldHold p g } x.grids }) := by
  change execCandidateProtect p id s = _
  simp only [execCandidateProtect, hx, hg, since, refreshCands_clock, late, if_true]

/-- GRID_COMPLETE before its turn (R179). -/
theorem exec_gridComplete_early (hx : s.part p = some x) (hg : Kv.find id x.grids = some g)
    (early : x.completed.head? ≠ some id) : exec (.gridComplete p id) s = .next s := by
  change execGridComplete p id s = _
  simp [execGridComplete, hx, hg, early]

/-- GRID_COMPLETE in its turn: the completion word is written and the grid goes (R179). -/
theorem exec_gridComplete {s1 : State} {rest : List Nat} (hx : s.part p = some x) (hg : Kv.find id x.grids = some g)
    (first : x.completed = id :: rest) (noReplay : g.replay = none) (alive : g.dead = false)
    (wrote : s.writeDone p g.lrec g.recAddr = .ok s1) :
    exec (.gridComplete p id) s = .next (((((s1.modPart p fun y =>
      { y with grids := Kv.erase id y.grids, replays := x.replays }).refreshCands p).pokeGraphs p).readDeps p).later
        ((rest.take 1).map fun h => .gridComplete p h)) := by
  change execGridComplete p id s = _
  simp [execGridComplete, hx, hg, first, noReplay, alive, wrote]

/-- Settles O33: each step of the dispatcher by the equation of its operation. -/
theorem dispatcherSteps : Obligations.DispatcherSteps := by
  refine ⟨fun p id g n tag now tick place => ⟨fun i t h => ?thread, fun j c h => ?core, rfl, rfl, rfl, rfl, rfl, rfl, rfl⟩,
    ?read, ?place, ?protect, ?complete⟩
  case thread =>
    obtain ⟨below, slot, j, rfl⟩ := thread_newBlock h
    exact ⟨rfl, rfl, rfl, rfl, rfl, rfl, rfl, rfl, rfl, rfl, below⟩
  case core =>
    obtain ⟨core, regions, sched, rfl⟩ := core_newBlock h
    refine ⟨get_argWords 0, get_argWords 1, fun k hk => (get_argWords k).trans ?_, rfl, rfl, rfl, rfl, rfl, rfl, rfl, rfl⟩
    rw [if_neg (by omega), if_neg (by omega)]
  case read => exact fun s p id x g s1 hx hg hd met hr => exec_dependenceRead hx hg hd hr
  case place =>
    exact fun s p id place x g hx hg hc ht hn hb hl hf => ⟨exec_blockAdmit hx hg hc ht hn hb hl hf, find_admitNew ..⟩
  case protect => exact fun s p id x g t hx hg ht hl => exec_candidateProtect hx hg ht hl
  case complete =>
    exact fun s p id x g hx hg => ⟨exec_gridComplete_early hx hg,
      fun s1 rest hf hr hd hw => exec_gridComplete hx hg hf hr hd hw⟩

end Sys2Proof.Claims
end

section
/-! What the reset ladder leaves alone: the setup of every partition and the near-bank units of every stack. Each
operation below abandons work, writes memory or sends records, and leaves both as they were. -/

namespace Sys2Proof.Machine

/-- What the host and the steward have set of a partition (R446, R448). -/
def Partition.setup (x : Partition) : PartParams × List (Nat × DWord) × DWord × DWord × Word :=
  (x.params, x.s2, x.pt1root, x.evq, x.slice)

/-- The setup of each partition and the units of each stack. -/
def groundOf (parts : List (Nat × Partition)) (dies : List (Nat × BaseDie)) :
    (Nat → Option (PartParams × List (Nat × DWord) × DWord × DWord × Word)) × (Nat → List (Nat × NbUnit)) :=
  (fun p => (Kv.find p parts).map Partition.setup, fun k => (Kv.get BaseDie.reset k dies).units)

abbrev State.ground (s : State) := groundOf s.parts s.dies

/-! ### Changes of a partition, of a die, of the rest -/

theorem modPart_ground {s : State} {p : Nat} {f : Partition → Partition} (h : ∀ x, (f x).setup = x.setup) :
    (s.modPart p f).ground = s.ground := by
  refine Prod.ext (funext fun q => ?_) rfl
  change (Kv.find q (Kv.modify p f s.parts)).map Partition.setup = (Kv.find q s.parts).map Partition.setup
  rw [Kv.find_modify]
  split
  · cases Kv.find q s.parts <;> simp [h]
  · rfl

theorem putPart_ground {s : State} {p : Nat} {x y : Partition} (hx : s.part p = some x) (h : y.setup = x.setup) :
    (s.putPart p y).ground = s.ground := by
  refine Prod.ext (funext fun q => ?_) rfl
  change (Kv.find q (Kv.insert p y s.parts)).map Partition.setup = (Kv.find q s.parts).map Partition.setup
  rw [Kv.find_insert]
  split
  · next hq =>
    have old : Kv.find q s.parts = some x := hq ▸ hx
    rw [old, Option.map_some, Option.map_some, h]
  · rfl

theorem modDie_ground {s : State} {k : Nat} {f : BaseDie → BaseDie} (h : (f (s.die k)).units = (s.die k).units) :
    (s.modDie k f).ground = s.ground := by
  refine Prod.ext rfl (funext fun n => ?_)
  change (Kv.get BaseDie.reset n (Kv.insert k _ s.dies)).units = (Kv.get BaseDie.reset n s.dies).units
  by_cases hn : n = k
  · subst hn
    rw [Kv.get_insert_self]
    exact h
  · rw [Kv.get_insert_ne hn]

theorem foldl_ground {α : Type} {f : State → α → State} (h : ∀ s x, (f s x).ground = s.ground) (l : List α) (s : State) :
    (l.foldl f s).ground = s.ground := by
  induction l generalizing s with
  | nil => rfl
  | cons x l ih => rw [List.foldl_cons, ih, h]

theorem modBlock_ground (s : State) (k : Nat) (f : Block → Block) : (s.modBlock k f).ground = s.ground := rfl
theorem modBc_ground (s : State) (k j : Nat) (f : BlockCore → BlockCore) : (s.modBc k j f).ground = s.ground := rfl
theorem modCore_ground (s : State) (k : Nat) (f : Core → Core) : (s.modCore k f).ground = s.ground := rfl
theorem later_ground (s : State) (l : List Instr) : (s.later l).ground = s.ground := rfl
theorem sendReq_ground (s : State) (p : Packet) (r : RemoteReq) : (s.sendReq p r).ground = s.ground := rfl
theorem setCells_ground (s : State) (l : List Host.Cell) : (s.setCells l).ground = s.ground := by rw [setCells_eq]
theorem writeLine_ground (s : State) (spa : Nat) (d : List Byte) : (s.writeLine spa d).ground = s.ground :=
  setCells_ground ..

/-! ### Records -/

theorem sendRecord_ground (s : State) (p ring : Nat) (r : FaultRec) : (s.sendRecord p ring r).1.ground = s.ground := by
  unfold State.sendRecord
  split
  · rfl
  · next hx =>
    dsimp only
    split
    · exact putPart_ground hx rfl
    · exact putPart_ground hx rfl

theorem sendBlockRecord_ground (s : State) (k : Nat) (r : FaultRec) : (s.sendBlockRecord k r).ground = s.ground := by
  unfold State.sendBlockRecord
  dsimp only
  split
  · rfl
  · exact sendRecord_ground ..

theorem rungRecord_ground (s : State) (p rung recAddr : Nat) : (s.rungRecord p rung recAddr).ground = s.ground :=
  sendRecord_ground ..

theorem starterSend_ground (w : Starter) (s : State) (r : FaultRec) : (w.send s r).ground = s.ground :=
  sendRecord_ground ..

theorem faultThread_ground (s : State) (g : Grp) (i : Nat) (ins : Option Instr) (l : List DWord) (e : Exc) :
    (faultThread s g i ins l e).ground = s.ground := by
  unfold faultThread
  dsimp only
  rw [sendBlockRecord_ground]
  split <;> rfl

theorem faultHeld_ground (s : State) (k i : Nat) (log : OpLog) (e : Exc) : (faultHeld s k i log e).ground = s.ground :=
  faultThread_ground ..

/-! ### Writes to memory -/

theorem wakeStack_ground (s : State) (k : Nat) : (s.wakeStack k).ground = s.ground := by
  unfold State.wakeStack
  split
  · exact modDie_ground rfl
  · rfl

theorem snoop_ground (s : State) (line : Nat) (inv : Bool) : (s.snoop line inv).ground = s.ground := by
  unfold State.snoop; grind [wakeStack_ground, writeLine_ground]

theorem raceNote_ground (s : State) (k va cnt : Nat) (rel : Bool) : (s.raceNote k va cnt rel).ground = s.ground := by
  unfold State.raceNote
  split
  · rfl
  · exact modPart_ground fun _ => rfl

theorem sendProbe_ground (s : State) (k : Nat) : (s.sendProbe k).ground = s.ground := by
  unfold State.sendProbe
  split
  · rfl
  · dsimp only
    split
    · exact (sendReq_ground ..).trans (modDie_ground rfl)
    · exact modDie_ground rfl

theorem probeHolders_ground (s : State) (b line : Nat) : (s.probeHolders b line).ground = s.ground := by
  unfold State.probeHolders
  dsimp only
  split
  · rfl
  · rw [sendProbe_ground]
    exact modDie_ground rfl

theorem writeGranule_ground (s : State) (gr : Nat) (cells : List WCell) :
    (s.writeGranule gr cells).ground = s.ground := by
  unfold State.writeGranule
  grind [snoop_ground, sendBlockRecord_ground, State.markPoison, setCells_ground, foldl_ground, raceNote_ground,
    probeHolders_ground]

theorem post_ground (s : State) (a : Actor) (p : Packet) (r : FaultRec) : (s.post a p r).ground = s.ground := by
  unfold State.post; grind [sendBlockRecord_ground, sendReq_ground, modBlock_ground]

theorem writeRemote_ground (s : State) (line : Nat) (cells : List WCell) :
    (s.writeRemote line cells).ground = s.ground := by
  unfold State.writeRemote; grind [post_ground, setCells_ground, State.stashTake]

theorem writeCells_ground (s : State) (cells : List WCell) : (s.writeCells cells).ground = s.ground :=
  foldl_ground (fun s gr => by grind [writeRemote_ground, writeGranule_ground]) ..

theorem releaseHalts_ground (s : State) (p : Nat) : (s.releaseHalts p).ground = s.ground := by
  unfold State.releaseHalts
  dsimp only
  split
  · rfl
  · exact (modPart_ground fun x => by split <;> rfl).trans (modBlock_ground ..)

theorem hail_ground (s : State) (p : Nat) (v : DWord) : (s.hail p v).ground = s.ground := by
  unfold State.hail
  split
  · rfl
  · next x hx =>
    dsimp only
    split
    · exact (releaseHalts_ground ..).trans (putPart_ground hx rfl)
    · exact putPart_ground hx rfl

theorem hailStore_ground (s : State) (w : Option Nat) (p : Nat) (v : DWord) : (s.hailStore w p v).ground = s.ground := by
  unfold State.hailStore; grind [hail_ground]

theorem ctlWrite_ground {s t : State} {a : Actor} {spa va v n : Nat} (h : ctlWrite s a spa va v n = .ok t) :
    t.ground = s.ground := by
  unfold ctlWrite at h; grind [setCells_ground, hailStore_ground]

theorem statusWrite_ground (s : State) (a : Actor) (spa va v n : Nat) :
    (s.statusWrite a spa va v n).ground = s.ground := by
  unfold State.statusWrite; grind [→ ctlWrite_ground, writeCells_ground]

theorem flushPage_ground (s : State) (p : StashPage) : (s.flushPage p).ground = s.ground :=
  foldl_ground (fun s l => by grind [writeLine_ground]) ..

end Sys2Proof.Machine
end

section
/-! The setup of the partitions and the units of the stacks, over the end of threads, blocks, engine operations and
base-die work. -/

namespace Sys2Proof.Machine

/-! ### Threads and blocks -/

theorem makeReady_ground (s : State) (k i : Nat) : (s.makeReady k i).ground = s.ground := rfl

theorem wakeTl_ground (s : State) (k : Nat) : (s.wakeTl k).ground = s.ground :=
  foldl_ground (fun s x => by grind [faultHeld_ground, makeReady_ground]) ..

theorem wakeSquads_ground (s : State) (k : Nat) : (s.wakeSquads k).ground = s.ground :=
  foldl_ground (fun s x => by grind [makeReady_ground]) ..

theorem dropEntries_ground (s : State) (k : Nat) : (s.dropEntries k).ground = s.ground := rfl

theorem dropStash_ground (s : State) (k : Nat) : (s.dropStash k).ground = s.ground :=
  foldl_ground (fun _ _ => (modBc_ground ..).trans (foldl_ground flushPage_ground ..)) ..

theorem countEnd_ground (s : State) (p grid : Nat) : (s.countEnd p grid).ground = s.ground := by
  unfold State.countEnd
  split
  · rfl
  · dsimp only
    split
    · exact modPart_ground fun _ => rfl
    · exact modPart_ground fun _ => rfl

theorem endBlock_ground (s : State) (k : Nat) : (s.endBlock k).ground = s.ground := by
  unfold State.endBlock; grind [dropEntries_ground, dropStash_ground, countEnd_ground]

theorem endCheck_ground (s : State) (k : Nat) : (s.endCheck k).ground = s.ground := by
  unfold State.endCheck; grind [endBlock_ground]

theorem endThreads_ground (s : State) (k : Nat) (l : List Nat) : (s.endThreads k l).ground = s.ground :=
  (endCheck_ground ..).trans ((wakeSquads_ground ..).trans (modBlock_ground ..))

/-! ### Barriers and engine operations -/

theorem completeNum_ground (s : State) (k j tl : Nat) : (s.completeNum k j tl).ground = s.ground :=
  (wakeTl_ground ..).trans (modBc_ground ..)

theorem barPut_ground (s : State) (k j off : Nat) (b : Bar) : (s.barPut k j off b).ground = s.ground := by
  unfold State.barPut; grind [modBc_ground, writeCells_ground]

theorem wakeBar_ground (s : State) (k j off : Nat) (b : Bar) : (s.wakeBar k j off b).ground = s.ground :=
  foldl_ground (fun s x => by grind [faultHeld_ground, makeReady_ground]) ..

theorem poisonOne_ground (s : State) (k j off : Nat) : (s.poisonOne k j off).ground = s.ground :=
  (wakeBar_ground ..).trans (barPut_ground ..)

theorem poisonBar_ground (s : State) (k j off : Nat) : (s.poisonBar k j off).ground = s.ground := by
  unfold State.poisonBar; grind [poisonOne_ground, foldl_ground]

theorem cancelBar_ground (s : State) (k j : Nat) (op : EngineOp) (n : Nat) : (s.cancelBar k j op n).ground = s.ground := by
  unfold State.cancelBar; grind [barPut_ground, poisonBar_ground]

theorem movePointer_ground (s : State) (k j : Nat) (op : EngineOp) (n : Nat) :
    (s.movePointer k j op n).ground = s.ground := by
  unfold State.movePointer; grind [modBc_ground]

theorem cancelOp_ground (s : State) (k j : Nat) (op : EngineOp) (n : Nat) (e : Exc) :
    (s.cancelOp k j op n e).ground = s.ground := by
  unfold State.cancelOp
  grind [cancelBar_ground, movePointer_ground, modBc_ground, sendBlockRecord_ground, completeNum_ground]

theorem markRead_ground (s : State) (gr : Nat) : (s.markRead gr).ground = s.ground := rfl
theorem taken_ground (s : State) (core e : Nat) : (s.taken core e).ground = s.ground := rfl
theorem forget_ground (s : State) (k j : Nat) (op : EngineOp) : (s.forget k j op).ground = s.ground := by
  unfold State.forget; grind [modCore_ground]

theorem cancelHead_ground (s : State) (k j : Nat) (op : EngineOp) (e : Exc) :
    (s.cancelHead k j op e).ground = s.ground := by
  unfold State.cancelHead
  grind [modBc_ground, modCore_ground, completeNum_ground, endCheck_ground, endThreads_ground, markRead_ground,
    taken_ground, forget_ground, cancelOp_ground]

theorem cancelOps_ground (s : State) (k : Nat) (tls : Nat → Bool) : (s.cancelOps k tls).ground = s.ground :=
  foldl_ground (fun _ _ => foldl_ground (fun _ _ => cancelHead_ground ..) ..) ..

theorem killGrid_ground (s : State) (p grid tag : Nat) : (s.killGrid p grid tag).ground = s.ground :=
  modPart_ground fun _ => rfl

theorem contextRung_ground (s : State) (k : Nat) : (s.contextRung k).ground = s.ground := by
  unfold State.contextRung
  grind [killGrid_ground, dropEntries_ground, modBlock_ground, cancelOps_ground, rungRecord_ground, endCheck_ground]

/-! ### Base-die work -/

theorem modProg_ground (s : State) (p n : Nat) (f : CollProg → CollProg) : (s.modProg p n f).ground = s.ground :=
  modPart_ground fun _ => rfl

theorem failProg_ground (s : State) (p n code leg : Nat) : (s.failProg p n code leg).ground = s.ground := by
  unfold State.failProg; grind [modProg_ground, later_ground]

theorem legDone_ground (s : State) (p n k : Nat) : (s.legDone p n k).ground = s.ground := by
  unfold State.legDone; grind [modProg_ground, later_ground]

theorem stopProgs_ground (s : State) (p : Nat) : (s.stopProgs p).ground = s.ground := by
  unfold State.stopProgs; grind [failProg_ground, foldl_ground]

theorem doneBase_ground (s : State) (w : Starter) (tl : Nat) : (s.doneBase w tl).ground = s.ground :=
  (endCheck_ground ..).trans ((wakeTl_ground ..).trans (modBc_ground ..))

theorem tryEnd_ground (s : State) (x : BaseEnd) : (s.tryEnd x).1.ground = s.ground := by
  unfold State.tryEnd; grind [statusWrite_ground]

theorem endOver_ground (s : State) (x : BaseEnd) : (s.endOver x).ground = s.ground := by
  unfold State.endOver; grind [doneBase_ground, legDone_ground, failProg_ground]

theorem beginEnd_ground {s : State} {x : BaseEnd} {record : State → State} (h : ∀ s, (record s).ground = s.ground) :
    (s.beginEnd x record).ground = s.ground := by
  have tried := tryEnd_ground s x
  unfold State.beginEnd
  split
  · next e =>
    rw [e] at tried
    exact (endOver_ground ..).trans ((h _).trans tried)
  · next e =>
    rw [e] at tried
    refine Eq.trans (modPart_ground fun _ => ?_) ((h _).trans tried)
    rfl

theorem endRun_ground (s : State) (run : NbRun) (count code leg : Nat) :
    (s.endRun run count code leg).ground = s.ground :=
  beginEnd_ground fun s => by grind [starterSend_ground]

end Sys2Proof.Machine
end

section
/-! Cores in the harbour die's hands: release, reset, and the boot-mode thread that is held (R30, R36, R107, R341). -/

namespace Sys2Proof.Machine

/-- Bytes written one after another read as they stand, and memory elsewhere as before. -/
theorem byteAt_cellsAt (s : State) (a x : Nat) (d : List Byte) : (s.setCells (cellsAt a d)).byteAt x =
    if a ≤ x ∧ x < a + d.length then d.getD (x - a) 0 else s.byteAt x := by
  induction d generalizing s a with
  | nil => rw [if_neg (by simp)]; rfl
  | cons b d ih =>
    change ((s.setByte a b).setCells (cellsAt (a + 1) d)).byteAt x = _
    rw [ih, byteAt_setByte, List.length_cons]
    by_cases first : x = a
    · subst first
      rw [if_neg (by omega), if_pos rfl, if_pos (by omega), Nat.sub_self, List.getD_cons_zero]
    · rw [if_neg first]
      by_cases inside : a + 1 ≤ x ∧ x < a + 1 + d.length
      · rw [if_pos inside, if_pos (by omega), show x - a = x - (a + 1) + 1 by omega, List.getD_cons_succ]
      · rw [if_neg inside, if_neg (by omega)]

variable {s : State} {c : Nat}

/-! ### Release from reset (R30) -/

theorem setCells_bootAt (s : State) (l : List Host.Cell) : (s.setCells l).bootAt = s.bootAt := by rw [setCells_eq]; rfl
theorem setCells_core (s : State) (l : List Host.Cell) (k : Nat) : (s.setCells l).core k = s.core k := by
  rw [setCells_eq]; rfl

theorem placeBoot_bootAt (s : State) : s.placeBoot.bootAt = s.bootAt := setCells_bootAt ..
theorem placeBoot_core (s : State) (k : Nat) : s.placeBoot.core k = s.core k := setCells_core ..

theorem placeBoot_byteAt (s : State) (a : Nat) : let code := s.harbour.pkg * 2 ^ 46 + s.bootAt
    s.placeBoot.byteAt a =
      if code ≤ a ∧ a < code + marchCode.length then marchCode.getD (a - code) 0 else s.byteAt a := byteAt_cellsAt ..

theorem releaseCore_core_self : (s.releaseCore c).core c =
    { s.core c with bootvec := BitVec.ofNat 64 s.bootAt, released := true } :=
  s.core_modCore_self c fun x => { x with bootvec := BitVec.ofNat 64 s.bootAt, released := true }

theorem releaseCore_core_ne {k : Nat} (h : k ≠ c) : (s.releaseCore c).core k = s.core k :=
  s.core_modCore_ne h fun x => { x with bootvec := BitVec.ofNat 64 s.bootAt, released := true }

theorem releaseCore_byteAt (a : Nat) : (s.releaseCore c).byteAt a = s.byteAt a := rfl

theorem releaseCore_block : (s.releaseCore c).block (bootKey c) = bootBlock c (BitVec.ofNat 64 s.bootAt) :=
  Kv.get_insert_self ..

theorem coreRelease_refused (h : (s.core c).released = true ∨ s.absent.noCores.contains c = true ∨ 384 ≤ c) :
    exec (.coreReleaseFromReset c) s = .next s := by
  refine if_pos ?_
  rcases h with h | h | h
  · rw [h]; rfl
  · rw [h, Bool.or_true]; rfl
  · rw [decide_eq_true h, Bool.or_true]

theorem coreRelease_next (held : (s.core c).released = false) (here : s.absent.noCores.contains c = false)
    (core : c < 384) : exec (.coreReleaseFromReset c) s = .next (s.placeBoot.releaseCore c) := by
  refine if_neg ?_
  rw [held, here, decide_eq_false (by omega)]
  exact Bool.false_ne_true

/-! ### Reset (R36) -/

theorem resetCore_core_self : (s.resetCore c).core c = { Core.reset with
    rf := (s.core c).rf
    pad := (s.core c).pad
    repair := (s.core c).repair
    summary := (s.core c).summary
    stuck := (s.core c).stuck } := s.core_putCore_self ..

theorem resetCore_core_ne {k : Nat} (h : k ≠ c) : (s.resetCore c).core k = s.core k := s.core_putCore_ne h _

theorem resetCore_find_self : Kv.find (bootKey c) (s.resetCore c).blocks = none := Kv.find_erase_self ..

theorem resetCore_find_ne {k : Nat} (h : k ≠ bootKey c) : Kv.find k (s.resetCore c).blocks = Kv.find k s.blocks :=
  Kv.find_erase_ne h ..

theorem coreUsed_iff : (s.blocks.any fun b => b.2.part.isSome && b.2.cores.any fun z => z.2.core == c) = true ↔
    ∃ b ∈ s.blocks, b.2.part ≠ none ∧ ∃ z ∈ b.2.cores, z.2.core = c := by
  simp only [List.any_eq_true, Bool.and_eq_true, Option.isSome_iff_ne_none, beq_iff_eq]

theorem coreReset_used (h : ∃ b ∈ s.blocks, b.2.part ≠ none ∧ ∃ z ∈ b.2.cores, z.2.core = c) :
    exec (.coreReset c) s = .next s := if_pos (coreUsed_iff.mpr h)

theorem coreReset_free (h : ¬ ∃ b ∈ s.blocks, b.2.part ≠ none ∧ ∃ z ∈ b.2.cores, z.2.core = c) :
    exec (.coreReset c) s = .next (s.resetCore c) := if_neg fun e => h (coreUsed_iff.mp e)

/-! ### The boot-mode thread that is held (R107, R341) -/

variable {b : Block} {t : Thread}

theorem exec_bootThreadRelease (hb : Kv.find (bootKey c) s.blocks = some b) (ht : Kv.find 0 b.threads = some t)
    (act : BootRelease) : exec (.bootThreadRelease c act) s =
      (let held : Bool := match t.stat with
        | .faulted _ _ | .trapped _ => true
        | _ => false
      match act with
      | .halt => if t.stat = .held .halt then .next (s.makeReady (bootKey c) 0) else .next s
      | .replay => if held then .next (s.release (bootKey c) 0 true) else .next s
      | .skip => if held then .next (s.release (bootKey c) 0 false) else .next s
      | .kill => if held then .next (s.resetCore c) else .next s) := by
  have stat : (Kv.find (bootKey c) s.blocks).map (fun b => (b.thread 0).stat) = some t.stat := by
    rw [hb, Option.map_some, Block.thread, Kv.get_of_find ht]
  change execBootThreadRelease c act s = _
  simp only [execBootThreadRelease, stat]
  cases act <;> rfl

end Sys2Proof.Machine

namespace Sys2Proof.Claims

open Machine

/-- A core leaves reset with its thread at BOOTVEC, and the boot code is in place. -/
theorem coreLeavesReset (c : Nat) (s : State) :
    ((s.core c).released = true ∨ s.absent.noCores.contains c = true ∨ 384 ≤ c →
      exec (.coreReleaseFromReset c) s = .next s) ∧
    ((s.core c).released = false → s.absent.noCores.contains c = false → c < 384 →
      let pc := BitVec.ofNat 64 s.bootAt
      let code := s.harbour.pkg * 2 ^ 46 + s.bootAt
      ∃ s' t, exec (.coreReleaseFromReset c) s = .next s' ∧
        s'.core c = { s.core c with bootvec := pc, released := true } ∧
        (∀ k ≠ c, s'.core k = s.core k) ∧ (s'.block (bootKey c)).part = none ∧
        (∀ a, s'.byteAt a = if code ≤ a ∧ a < code + marchCode.length then marchCode.getD (a - code) 0 else s.byteAt a) ∧
        Kv.find 0 (s'.block (bootKey c)).threads = some t ∧ t.priv = .boot ∧ t.stat = .ready ∧ t.pc = pc.toNat ∧
        ∀ n, t.reg n = 0) := by
  refine ⟨coreRelease_refused, fun held here core => ?_⟩
  refine ⟨s.placeBoot.releaseCore c, Thread.start (BitVec.ofNat 64 s.bootAt).toNat 32 .boot 0 0 0,
    coreRelease_next held here core, ?_, fun k hk => ?_, ?_, fun a => ?_, ?_, rfl, rfl, rfl, fun n => reg_start ..⟩
  · rw [releaseCore_core_self, placeBoot_core, placeBoot_bootAt]
  · rw [releaseCore_core_ne hk, placeBoot_core]
  · rw [releaseCore_block]; rfl
  · rw [releaseCore_byteAt]
    exact placeBoot_byteAt s a
  · rw [releaseCore_block, placeBoot_bootAt]; rfl

/-- A core on which no partition's block stands is put into reset. -/
theorem corePutIntoReset (c : Nat) (s : State) :
    let used : Prop := ∃ b ∈ s.blocks, b.2.part ≠ none ∧ ∃ z ∈ b.2.cores, z.2.core = c
    (used → exec (.coreReset c) s = .next s) ∧
    (¬ used → ∃ s', exec (.coreReset c) s = .next s' ∧ s'.mem = s.mem ∧ Kv.find (bootKey c) s'.blocks = none ∧
      (∀ k ≠ bootKey c, Kv.find k s'.blocks = Kv.find k s.blocks) ∧ (∀ k ≠ c, s'.core k = s.core k) ∧
      s'.core c = { Core.reset with
        rf := (s.core c).rf
        pad := (s.core c).pad
        repair := (s.core c).repair
        summary := (s.core c).summary
        stuck := (s.core c).stuck }) :=
  ⟨coreReset_used, fun free => ⟨s.resetCore c, coreReset_free free, rfl, resetCore_find_self,
    fun _ hk => resetCore_find_ne hk, fun _ hk => resetCore_core_ne hk, resetCore_core_self⟩⟩

/-- The harbour die releases a boot-mode thread at HALT, and resolves a faulted one. -/
theorem bootThreadReleased (c : Nat) (s : State) (b : Block) (t : Thread)
    (hb : Kv.find (bootKey c) s.blocks = some b) (ht : Kv.find 0 b.threads = some t) :
    (t.stat = .held .halt → ∃ s', exec (.bootThreadRelease c .halt) s = .next s' ∧ s'.mem = s.mem ∧
      s'.thread (bootKey c) 0 = { t with stat := .ready }) ∧
    (t.stat ≠ .held .halt → exec (.bootThreadRelease c .halt) s = .next s) ∧
    (∀ e log, t.stat = .faulted e log → log.pc ≠ t.pc →
      (∃ s', exec (.bootThreadRelease c .replay) s = .next s' ∧
        s'.thread (bootKey c) 0 = { t with stat := .ready, rep := some log }) ∧
      (∃ s', exec (.bootThreadRelease c .skip) s = .next s' ∧
        s'.thread (bootKey c) 0 = { t with stat := .ready, rep := none }) ∧
      (∃ s', exec (.bootThreadRelease c .kill) s = .next s' ∧ (s'.core c).released = false ∧
        Kv.find (bootKey c) s'.blocks = none)) := by
  refine ⟨fun halted => ?halt, fun other => (exec_bootThreadRelease hb ht _).trans (if_neg other),
    fun e log faulted past => ⟨?replay, ?skip, ?kill⟩⟩
  case halt =>
    exact ⟨s.makeReady (bootKey c) 0, (exec_bootThreadRelease hb ht _).trans (if_pos halted), rfl, thread_modThread hb ht⟩
  case replay =>
    refine ⟨s.release (bootKey c) 0 true, by rw [exec_bootThreadRelease hb ht, faulted]; rfl,
      (thread_modThread hb ht).trans ?_⟩
    simp [Thread.resume, faulted, past]
  case skip =>
    refine ⟨s.release (bootKey c) 0 false, by rw [exec_bootThreadRelease hb ht, faulted]; rfl,
      (thread_modThread hb ht).trans ?_⟩
    simp [Thread.resume, faulted]
  case kill =>
    refine ⟨s.resetCore c, by rw [exec_bootThreadRelease hb ht, faulted]; rfl, ?_, resetCore_find_self⟩
    rw [resetCore_core_self]
    rfl

end Sys2Proof.Claims
end

section
/-! The queue rung, the context rung and the engine rung (R356, R402, R437). -/

namespace Sys2Proof.Machine

variable {s : State} {p : Nat} {x : Partition}

/-! ### What a record of a rung changes: the rings of its partition, and the agenda -/

theorem sendRecord_part (hx : s.part p = some x) (ring : Nat) (r : FaultRec) :
    ∃ rings, (s.sendRecord p ring r).1.part p = some { x with rings := rings } := by
  unfold State.sendRecord
  rw [hx]
  dsimp only
  split
  · exact ⟨_, State.part_putPart_self ..⟩
  · exact ⟨_, State.part_putPart_self ..⟩

theorem sendRecord_eq (s : State) (p ring : Nat) (r : FaultRec) : (s.sendRecord p ring r).1 =
    { s with parts := (s.sendRecord p ring r).1.parts, agenda := (s.sendRecord p ring r).1.agenda } := by
  unfold State.sendRecord
  split
  · rfl
  · dsimp only
    split <;> rfl

theorem rungRecord_part (hx : s.part p = some x) (rung recAddr : Nat) :
    ∃ rings, (s.rungRecord p rung recAddr).part p = some { x with rings := rings } := sendRecord_part hx ..

theorem rungRecord_blocks (s : State) (p rung recAddr : Nat) : (s.rungRecord p rung recAddr).blocks = s.blocks := by
  unfold State.rungRecord
  rw [sendRecord_eq]

theorem sendRecord_dies (s : State) (p ring : Nat) (r : FaultRec) : (s.sendRecord p ring r).1.dies = s.dies := by
  rw [sendRecord_eq]

/-- What no step of a fold changes, the fold does not change. -/
theorem foldl_same {α β : Type} (read : State → β) {f : State → α → State} (h : ∀ s x, read (f s x) = read s)
    (l : List α) (s : State) : read (l.foldl f s) = read s := by
  induction l generalizing s with
  | nil => rfl
  | cons x l ih => rw [List.foldl_cons, ih, h]

/-! ### The queue rung -/

theorem refreshCands_part (hx : s.part p = some x) : ∃ z, (s.refreshCands p).part p = some z ∧
    Kv.keys z.grids = Kv.keys x.grids := by
  refine ⟨_, (s.part_modPart_self ..).trans (by rw [hx, Option.map_some]), ?_⟩
  simp only [Kv.keys, List.map_map]
  rfl

/-- The launches of the node of which no block is admitted are gone, and no block and no byte changes. -/
theorem queueRung_leaves (hx : s.part p = some x) (n : Nat) : ∃ z, (s.queueRung p n).part p = some z ∧
    Kv.keys z.grids = Kv.keys (x.grids.filter fun g => !(g.2.node == n && g.2.nextBlock == 0)) ∧
    (s.queueRung p n).blocks = s.blocks ∧ (s.queueRung p n).mem = s.mem := by
  unfold State.queueRung
  rw [hx]
  dsimp only
  obtain ⟨rings, recorded⟩ := rungRecord_part (State.part_putPart_self (s := s) p
    { x with grids := x.grids.filter fun g => !(g.2.node == n && g.2.nextBlock == 0) }) 1
    ((((x.grids.filter fun g => g.2.node == n && g.2.nextBlock == 0)).map fun g => g.2.recAddr).headD 0)
  obtain ⟨z, hz, keys⟩ := refreshCands_part recorded
  exact ⟨z, hz, keys, rungRecord_blocks .., by rw [refreshCands_mem, rungRecord_mem, State.putPart_mem]⟩

/-! ### The engine rung on a ferry core -/

theorem failProg_dies (s : State) (p n code leg : Nat) : (s.failProg p n code leg).dies = s.dies := by
  unfold State.failProg
  split
  · rfl
  · split <;> rfl

theorem failFlow_dies (s : State) (job flow : Nat) : (s.failFlow job flow).dies = s.dies := by
  refine foldl_same State.dies (fun s y => foldl_same State.dies (fun s q => ?_) _ s) _ s
  split
  · rfl
  · split
    · rfl
    · exact failProg_dies ..

theorem ferry_modFerry_self (s : State) (stk fc : Nat) (f : FerryCore → FerryCore) :
    (s.modFerry stk fc f).ferry stk fc = f (s.ferry stk fc) := by
  simp only [State.ferry, State.modFerry, State.modDie, State.die_putDie_self, Kv.get_insert_self]

theorem ferry_of_dies {t : State} (h : t.dies = s.dies) (stk fc : Nat) : t.ferry stk fc = s.ferry stk fc := by
  simp only [State.ferry, State.die, h]

/-- The binding of a ferry core with the key of `b` faults. -/
def FerryCore.faultKey (c : FerryCore) (b : Binding) : FerryCore :=
  c.modBinding b.job b.flow fun x => { x with faulted := true }

theorem ferry_faultBinding (s : State) (stk fc : Nat) (b : Binding) (cls detail addr : Nat) :
    (s.faultBinding stk fc b cls detail addr).ferry stk fc = (s.ferry stk fc).faultKey b := by
  refine (ferry_of_dies ((failFlow_dies ..).trans (sendRecord_dies ..)) stk fc).trans ?_
  exact ferry_modFerry_self ..

/-- Some binding with the key of `y`, which has faulted where `must` says so. -/
def FerryCore.Has (c : FerryCore) (y : Binding) (must : Prop) : Prop :=
  ∃ z ∈ c.bindings, z.job = y.job ∧ z.flow = y.flow ∧ (must → z.faulted = true)

theorem FerryCore.Has.faultKey {c : FerryCore} {y : Binding} {must : Prop} (h : c.Has y must) (b : Binding) :
    (c.faultKey b).Has y must := by
  obtain ⟨z, hz, job, flow, faulted⟩ := h
  by_cases key : z.job = b.job ∧ z.flow = b.flow
  · exact ⟨_, List.mem_map.mpr ⟨z, hz, if_pos key⟩, job, flow, fun _ => rfl⟩
  · exact ⟨z, List.mem_map.mpr ⟨z, hz, if_neg key⟩, job, flow, faulted⟩

theorem FerryCore.Has.faultKey_self {c : FerryCore} {y : Binding} {must : Prop} (h : c.Has y must) :
    (c.faultKey y).Has y True := by
  obtain ⟨z, hz, job, flow, -⟩ := h
  exact ⟨_, List.mem_map.mpr ⟨z, hz, if_pos ⟨job, flow⟩⟩, job, flow, fun _ => rfl⟩

theorem FerryCore.Has.foldl {y : Binding} {must : Prop} (l : List Binding) {c : FerryCore} (h : c.Has y must) :
    (l.foldl FerryCore.faultKey c).Has y must := by
  induction l generalizing c with
  | nil => exact h
  | cons b l ih => exact ih (h.faultKey b)

theorem FerryCore.Has.foldl_of_mem {y : Binding} {must : Prop} {l : List Binding} (hy : y ∈ l) {c : FerryCore}
    (h : c.Has y must) : (l.foldl FerryCore.faultKey c).Has y True := by
  induction l generalizing c with
  | nil => cases hy
  | cons b l ih =>
    rcases List.mem_cons.mp hy with rfl | later
    · exact h.faultKey_self.foldl l
    · exact ih later (h.faultKey b)

theorem foldl_faultKey_rest (l : List Binding) (c : FerryCore) : let d := l.foldl FerryCore.faultKey c
    d.run = c.run ∧ d.queue = c.queue ∧ d.kernels = c.kernels := by
  induction l generalizing c with
  | nil => exact ⟨rfl, rfl, rfl⟩
  | cons b l ih => exact ih (c.faultKey b)

theorem ferry_foldl_faultBinding (s : State) (stk fc cls detail addr : Nat) (l : List Binding) :
    (l.foldl (fun s b => s.faultBinding stk fc b cls detail addr) s).ferry stk fc =
      l.foldl FerryCore.faultKey (s.ferry stk fc) := by
  induction l generalizing s with
  | nil => rfl
  | cons b l ih => rw [List.foldl_cons, List.foldl_cons, ih, ferry_faultBinding]

/-- The bindings of a ferry core that had work: a packet queued, or the run. -/
def FerryCore.busy (c : FerryCore) : List Binding :=
  c.bindings.filter fun b => !b.faulted &&
    ((c.queue.any fun q => q.job == b.job && q.flow == b.flow) || (c.run.any fun r => r.job == b.job && r.flow == b.flow))

theorem FerryCore.mem_busy {c : FerryCore} {y : Binding} (hy : y ∈ c.bindings) (fine : y.faulted = false)
    (work : (∃ q ∈ c.queue, q.job = y.job ∧ q.flow = y.flow) ∨ ∃ r, c.run = some r ∧ r.job = y.job ∧ r.flow = y.flow) :
    y ∈ c.busy := by
  refine List.mem_filter.mpr ⟨hy, ?_⟩
  rcases work with ⟨q, hq, job, flow⟩ | ⟨r, hr, job, flow⟩
  · have queued : (c.queue.any fun q => q.job == y.job && q.flow == y.flow) = true :=
      List.any_eq_true.mpr ⟨q, hq, by simp [job, flow]⟩
    simp [fine, queued]
  · simp [fine, hr, job, flow]

theorem ferry_resetFerry (s : State) (stk fc : Nat) : (s.resetFerry stk fc).ferry stk fc =
    (s.ferry stk fc).busy.foldl FerryCore.faultKey { s.ferry stk fc with run := none, queue := [] } := by
  refine (ferry_foldl_faultBinding ..).trans ?_
  rw [ferry_modFerry_self]
  have idle : (s.ferryIdle stk fc).ferry stk fc = { s.ferry stk fc with run := none } :=
    ferry_modFerry_self s stk fc fun c => { c with run := none }
  rw [idle]
  rfl

theorem ferry_engineRung (s : State) {stk fc : Nat} (h : fc < 8) :
    (s.engineRung (8 * stk + fc) 6).ferry stk fc = (s.resetFerry stk fc).ferry stk fc := by
  have stack : (8 * stk + fc) / 8 = stk := by omega
  have core : (8 * stk + fc) % 8 = fc := by omega
  unfold State.engineRung
  rw [if_pos rfl, stack, core]
  exact ferry_of_dies (foldl_same State.dies (fun _ _ => sendRecord_dies ..) _ _) ..

/-! ### The engine rung on a near-bank unit -/

theorem unit_putUnit_self (s : State) (n : Nat) (u : NbUnit) : (s.putUnit n u).unit n = u := by
  simp only [State.unit, State.putUnit, State.modDie, State.die_putDie_self, Kv.get_set_self]

theorem unit_of_ground {t : State} (h : t.ground = s.ground) (n : Nat) : t.unit n = s.unit n := by
  have units : (t.die (n / 64)).units = (s.die (n / 64)).units := congrFun (congrArg Prod.snd h) (n / 64)
  rw [State.unit, State.unit, units]

theorem unit_stopRuns (s : State) (n : Nat) : (s.stopRuns n fun _ => true).unit n = ⟨[], none⟩ := by
  unfold State.stopRuns
  dsimp only
  rw [unit_of_ground (foldl_ground (fun _ _ => endRun_ground ..) ..)]
  have none_left : ((s.unit n).queue.filter fun _ => !true) = [] := List.filter_eq_nil_iff.mpr fun _ _ => by decide
  rw [none_left]
  split
  · rw [if_pos rfl, State.endCur, unit_of_ground (endRun_ground ..), unit_putUnit_self, unit_putUnit_self]
  · next idle => rw [unit_putUnit_self, idle]

theorem unit_engineRung (s : State) (n : Nat) : (s.engineRung n 7).unit n = ⟨[], none⟩ := by
  unfold State.engineRung
  rw [if_neg (by decide), if_pos rfl]
  exact (unit_of_ground (foldl_ground (fun _ _ => rungRecord_ground ..) ..) n).trans (unit_stopRuns s n)

end Sys2Proof.Machine

namespace Sys2Proof.Claims

open Machine

/-- The engine rung empties a ferry core, and each binding with work there faults. -/
theorem ferryCoreEmptied (stk fc : Nat) (s : State) (h : fc < 8) :
    ∃ s', exec (.rungEngine (8 * stk + fc) 6) s = .next s' ∧ (s'.ferry stk fc).run = none ∧
      (s'.ferry stk fc).queue = [] ∧ (s'.ferry stk fc).kernels = (s.ferry stk fc).kernels ∧
      ∀ y ∈ (s.ferry stk fc).bindings, y.faulted = false →
        (∃ q ∈ (s.ferry stk fc).queue, q.job = y.job ∧ q.flow = y.flow) ∨
          (∃ r, (s.ferry stk fc).run = some r ∧ r.job = y.job ∧ r.flow = y.flow) →
        ∃ z ∈ (s'.ferry stk fc).bindings, z.job = y.job ∧ z.flow = y.flow ∧ z.faulted = true := by
  refine ⟨s.engineRung (8 * stk + fc) 6, rfl, ?_⟩
  rw [ferry_engineRung s h, ferry_resetFerry]
  obtain ⟨run, queue, kernels⟩ := foldl_faultKey_rest (s.ferry stk fc).busy
    { s.ferry stk fc with run := none, queue := [] }
  refine ⟨run, queue, kernels, fun y hy fine work => ?_⟩
  have here : FerryCore.Has { s.ferry stk fc with run := none, queue := [] } y False :=
    ⟨y, hy, rfl, rfl, False.elim⟩
  obtain ⟨z, hz, job, flow, faulted⟩ := here.foldl_of_mem (FerryCore.mem_busy hy fine work)
  exact ⟨z, hz, job, flow, faulted trivial⟩

/-- The engine rung stops every run of a near-bank unit. -/
theorem unitStopped (n : Nat) (s : State) :
    ∃ s', exec (.rungEngine n 7) s = .next s' ∧ (s'.unit n).queue = [] ∧ (s'.unit n).cur = none :=
  ⟨s.engineRung n 7, rfl, by rw [unit_engineRung], by rw [unit_engineRung]⟩

end Sys2Proof.Claims
end

section
/-! The partition rung, the device rung, their escalation and the watchdog (R355 to R357, R402, R437). -/

namespace Sys2Proof.Machine

variable {s : State} {p : Nat} {x : Partition}

/-! ### The partition rung: the setup of the partition stays -/

theorem stopRuns_setup (s : State) (n : Nat) (which : NbRun → Bool) : (s.stopRuns n which).ground.1 = s.ground.1 := by
  unfold State.stopRuns
  dsimp only
  rw [foldl_ground fun _ _ => endRun_ground ..]
  split
  · split
    · rw [State.endCur, endRun_ground]
      rfl
    · rfl
  · rfl

theorem stopWork_setup (s : State) (p : Nat) : (s.stopWork p).ground.1 = s.ground.1 :=
  (foldl_same (fun s => s.ground.1) (fun _ _ => stopRuns_setup ..) _ _).trans (congrArg Prod.fst (stopProgs_ground ..))

theorem clearFerry_parts (s : State) (p : Nat) : (s.clearFerry p).parts = s.parts := by
  unfold State.clearFerry
  dsimp only
  split
  · split <;> rfl
  · rfl

theorem setup_of_ground {t : State} (h : t.ground.1 = s.ground.1) (hx : s.part p = some x) :
    ∃ y, t.part p = some y ∧ y.setup = x.setup := by
  have same : (t.part p).map Partition.setup = some x.setup :=
    (congrFun h p).trans (congrArg (Option.map Partition.setup) hx)
  exact Option.map_eq_some_iff.mp same

/-! ### The steward starts -/

theorem wakeStack_parts (s : State) (k : Nat) : (s.wakeStack k).parts = s.parts := by
  unfold State.wakeStack
  split <;> rfl

theorem ungate_parts (s : State) : s.ungate.parts = s.parts :=
  foldl_same State.parts (fun s k => by split <;> simp [wakeStack_parts]) _ s

theorem claim_parts (s : State) (p : Nat) (cores : List Nat) : (s.claim p cores).parts = s.parts :=
  foldl_same State.parts (f := fun s c => s.modCore c fun x => { x with part := some p }) (fun _ _ => rfl) cores s

theorem endCheck_steward {k : Nat} {b : Block} (hb : Kv.find k s.blocks = some b) (ht : b.tag = 0) : s.endCheck k = s := by
  unfold State.endCheck
  rw [hb]
  exact if_neg fun h => h.1 ht

theorem releaseHalts_none {b : Block} (hb : Kv.find (stewardKey p) s.blocks = some b)
    (h : ∀ t ∈ b.threads, t.2.stat ≠ .held .halt) : s.releaseHalts p = s := by
  have none_held : s.halted p = [] := by
    rw [State.halted, State.block_of_find hb, List.map_eq_nil_iff]
    exact List.filter_eq_nil_iff.mpr fun t ht => by simpa using h t ht
  unfold State.releaseHalts
  rw [none_held]
  rfl

/-- The steward's block as it stands on cores, at most: its partition and its thread are those of a start. -/
def Block.Steward (b : Block) (p : Nat) : Prop :=
  b.tag = 0 ∧ b.part = some p ∧ Kv.keys b.threads = [0] ∧ ∀ t ∈ b.threads, t.2.stat = .ready

theorem stewardBlock_steward (p : Nat) (q : PartParams) : (stewardBlock p q).Steward p :=
  ⟨rfl, rfl, rfl, fun t ht => by rw [List.mem_singleton.mp ht]; rfl⟩

/-- A steward's block that is restored keeps its partition and its thread, and no partition changes. -/
theorem restoreBlock_steward (h : (s.block (stewardKey p)).Steward p) (place : Placement) :
    ((s.restoreBlock (stewardKey p) place).block (stewardKey p)).Steward p ∧
      (s.restoreBlock (stewardKey p) place).parts = s.parts := by
  obtain ⟨tag, part, keys, ready⟩ := h
  unfold State.restoreBlock
  simp only [part, tag, if_true]
  generalize hu : State.claim _ p place.cores = u
  have placed : ∃ b, b.Steward p ∧ Kv.find (stewardKey p) u.blocks = some b ∧ u.parts = s.parts := by
    subst hu
    refine ⟨_, ?_, (congrArg (Kv.find _) ((claim_blocks ..).trans (foldl_same State.blocks ?_ _ _))).trans
      (Kv.find_insert_self ..), (claim_parts ..).trans (foldl_same State.parts ?_ _ _)⟩
    · refine ⟨rfl, rfl, ?_, fun t ht => ?_⟩
      · rw [← keys, Kv.keys, Kv.keys, List.map_map]
        rfl
      · obtain ⟨t', ht', rfl⟩ := List.mem_map.mp ht
        exact ready t' ht'
    · exact fun _ _ => rfl
    · exact fun _ _ => rfl
  obtain ⟨b, steward, hb, parts⟩ := placed
  have still : u.releaseHalts p = u := releaseHalts_none hb fun t ht => by rw [steward.2.2.2 t ht]; exact nofun
  have rested : ((u.endCheck (stewardKey p)).block (stewardKey p)).Steward p ∧
      (u.endCheck (stewardKey p)).parts = s.parts := by
    rw [endCheck_steward hb steward.1, State.block_of_find hb]
    exact ⟨steward, parts⟩
  simp only [still, ite_self]
  split <;> exact rested

theorem startSteward_leaves (s : State) (p : Nat) (q : PartParams) :
    ((s.startSteward p q).block (stewardKey p)).Steward p ∧ (s.startSteward p q).parts = s.parts := by
  have start : ((s.putBlock (stewardKey p) (stewardBlock p q)).block (stewardKey p)).Steward p := by
    have put : (s.putBlock (stewardKey p) (stewardBlock p q)).block (stewardKey p) = stewardBlock p q :=
      Kv.get_insert_self ..
    rw [put]
    exact stewardBlock_steward p q
  unfold State.startSteward
  dsimp only
  split
  · exact restoreBlock_steward start _
  · exact ⟨start, rfl⟩

/-- The partition rung: the setup stays, no launch and no replay is left, and the steward starts anew. -/
theorem partitionRung_leaves (hx : s.part p = some x) : ∃ z, (s.partitionRung p).part p = some z ∧
    z.setup = x.setup ∧ z.grids = [] ∧ z.replays = [] ∧ z.nodes = [] ∧ z.moor = .awake ∧ z.eventPend = false ∧
    ((s.partitionRung p).block (stewardKey p)).Steward p := by
  unfold State.partitionRung
  rw [hx]
  dsimp only
  generalize hu : List.foldl (fun (s : State) k => (s.modBlock k Block.settle11).contextRung k) _ _ = u
  have setup : u.ground.1 = s.ground.1 := by
    subst hu
    refine (congrArg Prod.fst (foldl_ground (fun _ _ => (contextRung_ground ..).trans (modBlock_ground ..)) ..)).trans ?_
    refine Eq.trans ?_ (stopWork_setup s p)
    exact congrArg (fun parts => (groundOf parts []).1) (clearFerry_parts ..)
  obtain ⟨y, hy, same⟩ := setup_of_ground setup hx
  have restarted : (u.modPart p Partition.restarted).part p = some y.restarted := by
    rw [State.part_modPart_self, hy, Option.map_some]
  obtain ⟨rings, recorded⟩ := rungRecord_part restarted 4 0
  obtain ⟨steward, parts⟩ := startSteward_leaves
    (((u.modPart p Partition.restarted).rungRecord p 4 0).dropEntries (stewardKey p)).ungate p x.params
  refine ⟨{ y.restarted with rings := rings }, ?_, same, rfl, rfl, rfl, rfl, rfl, steward⟩
  rw [State.part, parts, ungate_parts]
  exact recorded

/-! ### The device rung -/

theorem deviceReset_core (s : State) (c : Nat) : s.deviceReset.core c = { Core.reset with stuck := (s.core c).stuck } := by
  have listed : Kv.find c s.deviceReset.cores =
      (Kv.find c s.cores).map fun x => { Core.reset with stuck := x.stuck } :=
    Kv.find_map (fun _ (x : Core) => ({ Core.reset with stuck := x.stuck } : Core)) c s.cores
  rw [State.core, State.core, Kv.get_eq_find, Kv.get_eq_find, listed]
  cases Kv.find c s.cores <;> rfl

/-! ### Escalation -/

theorem exec_rungTimeout {k : Nat} {r : PendingRung} (hr : s.harbour.rungs[k]? = some r) :
    let s1 : State := { s with harbour := { s.harbour with rungs := s.harbour.rungs.eraseIdx k } }
    exec (.rungTimeout k) s =
      if s.rungDone r.rung then .next (s1.rungReply r.seq)
      else if s.clock < r.since + r.rung.timeout then .next s
      else .next (((s.escalation r.rung).foldl (fun z n => z.startRung n none) s1).rungReply r.seq) := by
  change execRungTimeout k s = _
  simp only [execRungTimeout, hr]

/-! ### The watchdog -/

theorem overdue_iff (s : State) (cls : Nat) (mine : Block → Bool) : s.overdue cls mine = true ↔
    ∃ b ∈ s.blocks, b.2.phase = .halting ∧ mine b.2 = true ∧ b.2.reqTime + classNs 4 cls ≤ s.clock := by
  simp only [State.overdue, List.any_eq_true, Bool.and_eq_true, beq_iff_eq, decide_eq_true_eq, and_assoc]

end Sys2Proof.Machine
end

section
/-! The obligation O50, from what each rung and each release does. -/

namespace Sys2Proof.Claims

open Machine

/-- The queue rung. -/
theorem queueRungRemoves (p n : Nat) (s : State) (x : Partition) (hx : s.part p = some x) :
    let gone (g : Nat × Grid) : Bool := g.2.node == n && g.2.nextBlock == 0
    ∃ s' z, exec (.rungQueue p n) s = .next s' ∧ s'.part p = some z ∧
      Kv.keys z.grids = Kv.keys (x.grids.filter fun g => !gone g) ∧ s'.blocks = s.blocks ∧ s'.mem = s.mem := by
  obtain ⟨z, hz, keys, blocks, mem⟩ := queueRung_leaves hx n
  exact ⟨s.queueRung p n, z, rfl, hz, keys, blocks, mem⟩

/-- The partition rung. -/
theorem partitionRungRestarts (p : Nat) (s : State) (x : Partition) (hx : s.part p = some x) :
    ∃ s' z, exec (.rungPartition p) s = .next s' ∧ s'.part p = some z ∧ z.params = x.params ∧
      z.s2 = x.s2 ∧ z.pt1root = x.pt1root ∧ z.evq = x.evq ∧ z.slice = x.slice ∧ z.grids = [] ∧ z.replays = [] ∧
      z.nodes = [] ∧ z.moor = .awake ∧ z.eventPend = false ∧ (s'.block (stewardKey p)).part = some p ∧
      Kv.keys (s'.block (stewardKey p)).threads = [0] := by
  obtain ⟨z, hz, setup, grids, replays, nodes, moor, event, -, part, keys, -⟩ := partitionRung_leaves hx
  simp only [Partition.setup, Prod.mk.injEq] at setup
  obtain ⟨params, s2, pt1root, evq, slice⟩ := setup
  exact ⟨s.partitionRung p, z, rfl, hz, params, s2, pt1root, evq, slice, grids, replays, nodes, moor, event, part, keys⟩

/-- The device rung. -/
theorem deviceRungResets (s : State) :
    ∃ s', exec .rungDevice s = .next s' ∧ s'.mem = [] ∧ s'.blocks = [] ∧ s'.parts = [] ∧ s'.dies = [] ∧
      s'.interleave = [] ∧ (∀ c, (s'.core c).released = false ∧ (s'.core c).stuck = (s.core c).stuck) ∧
      s'.harbour.failCount = s.harbour.failCount ∧ s'.harbour.fwImage = s.harbour.fwImage ∧
      s'.harbour.cap = s.harbour.cap ∧ s'.harbour.starting = true ∧
      s'.agenda = if s.harbour.minimal then [] else [.deviceStart s.absent] := by
  refine ⟨s.deviceReset, rfl, rfl, rfl, rfl, rfl, rfl, fun c => ?_, rfl, rfl, rfl, rfl, rfl⟩
  rw [deviceReset_core]
  exact ⟨rfl, rfl⟩

/-- A rung that is watched: it has completed, waits, or escalates. -/
theorem rungWatched (k : Nat) (s : State) (r : PendingRung) (hr : s.harbour.rungs[k]? = some r) :
    let s1 : State := { s with harbour := { s.harbour with rungs := s.harbour.rungs.eraseIdx k } }
    (s.rungDone r.rung = true → exec (.rungTimeout k) s = .next (s1.rungReply r.seq)) ∧
    (s.rungDone r.rung = false → s.clock < r.since + r.rung.timeout → exec (.rungTimeout k) s = .next s) ∧
    (s.rungDone r.rung = false → r.since + r.rung.timeout ≤ s.clock → exec (.rungTimeout k) s =
      .next (((s.escalation r.rung).foldl (fun z n => z.startRung n none) s1).rungReply r.seq)) := by
  dsimp only
  rw [exec_rungTimeout hr]
  refine ⟨fun done => by rw [if_pos done], fun going early => ?_, fun going late => ?_⟩
  · rw [if_neg (by simp [going]), if_pos early]
  · rw [if_neg (by simp [going]), if_neg (by omega)]

/-! ### The watchdog (R355) -/

/-- A halting block on a core, asked to halt four times a class's bound ago. -/
theorem overdueOn_iff (s : State) (c cls : Nat) : (s.overdue cls fun b => b.cores.any fun z => z.2.core == c) = true ↔
    ∃ b ∈ s.blocks, b.2.phase = .halting ∧ (∃ z ∈ b.2.cores, z.2.core = c) ∧
      b.2.reqTime + classNs 4 cls ≤ s.clock := by
  simp only [overdue_iff, List.any_eq_true, beq_iff_eq]

theorem overdueOf_iff (s : State) (p cls : Nat) : (s.overdue cls fun b => b.part == some p) = true ↔
    ∃ b ∈ s.blocks, b.2.phase = .halting ∧ b.2.part = some p ∧ b.2.reqTime + classNs 4 cls ≤ s.clock := by
  simp only [overdue_iff, beq_iff_eq]

/-- A test that is the conjunction of two conditions decides between two results. -/
theorem fires {α : Type} {a b : Bool} {late works : Prop} (ha : a = true ↔ late) (hb : b = true ↔ works) (x y : α) :
    (works → late → (if a && b then x else y) = x) ∧ (¬ works ∨ ¬ late → (if a && b then x else y) = y) := by
  constructor
  · intro hw hl
    rw [ha.mpr hl, hb.mpr hw]
    rfl
  · rintro (hw | hl)
    · rw [Bool.eq_false_iff.mpr (mt hb.mp hw), Bool.and_false]
      rfl
    · rw [Bool.eq_false_iff.mpr (mt ha.mp hl)]
      rfl

/-- A unit of a core does what the watchdog looks at: an open chain of a halting block, matrix work, a thread's access. -/
def UnitWorks (s : State) (c cls : Nat) : Prop :=
  (cls = 1 ∧ ∃ e ∈ (s.core c).entries, (s.block e.2.block).phase = .halting ∧ e.2.chain ≠ 0) ∨
    (cls = 2 ∧ s.unitOps c 2 ≠ []) ∨ (cls = 4 ∧ ∃ e ∈ (s.core c).entries, e.2.pend ≠ [] ∨ s.asks c e.1 = true)

theorem UnitWorks.cls {s : State} {c cls : Nat} (h : UnitWorks s c cls) : cls = 1 ∨ cls = 2 ∨ cls = 4 := by
  rcases h with ⟨one, -⟩ | ⟨two, -⟩ | ⟨four, -⟩
  · exact .inl one
  · exact .inr (.inl two)
  · exact .inr (.inr four)

/-- The watchdog on a core: it resets the unit where a halting block is late and the unit works. -/
theorem exec_watchdogExpire_core (s : State) (c : Nat) {cls : Nat} (h : cls = 1 ∨ cls = 2 ∨ cls = 4) :
    ∃ w : Bool, (w = true ↔ UnitWorks s c cls) ∧ exec (.watchdogExpire c cls) s = .next
      (if (s.overdue cls fun b => b.cores.any fun z => z.2.core == c) && w then s.startRung (.engine c cls) none else s) := by
  rcases h with rfl | rfl | rfl
  · refine ⟨(s.core c).entries.any fun e => (s.block e.2.block).phase == .halting && e.2.chainOpen, ?_, rfl⟩
    simp [UnitWorks, Entry.chainOpen, Nat.pos_iff_ne_zero]
  · refine ⟨!(s.unitOps c 2).isEmpty, ?_, rfl⟩
    simp [UnitWorks]
  · refine ⟨(s.core c).entries.any fun e => !e.2.pend.isEmpty || s.asks c e.1, ?_, rfl⟩
    simp [UnitWorks]

/-- Four times the bound of a class of a core's unit (R353). -/
theorem classNs_core {cls : Nat} (h : cls = 1 ∨ cls = 2 ∨ cls = 4) :
    classNs 4 cls = cyclesNs (4 * if cls = 1 then 64 else if cls = 2 then 4288 else 2048) := by
  rcases h with rfl | rfl | rfl <;> rfl

theorem watchdogOnCore (c cls : Nat) (s : State) :
    let bound := if cls = 1 then 64 else if cls = 2 then 4288 else 2048
    let late (b : Nat × Block) : Prop := b.2.phase = .halting ∧ (∃ z ∈ b.2.cores, z.2.core = c) ∧
      b.2.reqTime + cyclesNs (4 * bound) ≤ s.clock
    (UnitWorks s c cls → (∃ b ∈ s.blocks, late b) →
      exec (.watchdogExpire c cls) s = .next (s.startRung (.engine c cls) none)) ∧
    (¬ UnitWorks s c cls ∨ (∀ b ∈ s.blocks, ¬ late b) → cls = 1 ∨ cls = 2 ∨ cls = 4 →
      exec (.watchdogExpire c cls) s = .next s) := by
  intro bound late
  have tested : (cls = 1 ∨ cls = 2 ∨ cls = 4) → ∃ r : State, exec (.watchdogExpire c cls) s = .next r ∧
      (UnitWorks s c cls → (∃ b ∈ s.blocks, late b) → r = s.startRung (.engine c cls) none) ∧
      (¬ UnitWorks s c cls ∨ ¬ (∃ b ∈ s.blocks, late b) → r = s) := by
    intro h
    obtain ⟨w, works, ran⟩ := exec_watchdogExpire_core s c h
    have overdue := overdueOn_iff s c cls
    rw [classNs_core h] at overdue
    exact ⟨_, ran, fires overdue works _ _⟩
  constructor
  · intro works isLate
    obtain ⟨r, ran, fire, -⟩ := tested works.cls
    rw [ran, fire works isLate]
  · intro calm h
    obtain ⟨r, ran, -, rest⟩ := tested h
    rw [ran, rest (calm.imp_right fun never => fun ⟨b, hb, isLate⟩ => never b hb isLate)]

/-- The watchdog on a ferry core, and on a near-bank unit. -/
theorem watchdogOnDie (n : Nat) (s : State) :
    let late (p ns : Nat) : Prop := ∃ b ∈ s.blocks, b.2.phase = .halting ∧ b.2.part = some p ∧ b.2.reqTime + ns ≤ s.clock
    (∀ r b, (s.ferry (n / 8) (n % 8)).run = some r → (s.ferry (n / 8) (n % 8)).binding r.job r.flow = some b →
      (late b.owner.part 1280 → exec (.watchdogExpire n 5) s = .next (s.startRung (.engine n 6) none)) ∧
      (¬ late b.owner.part 1280 → exec (.watchdogExpire n 5) s = .next s)) ∧
    ((s.ferry (n / 8) (n % 8)).run = none → exec (.watchdogExpire n 5) s = .next s) ∧
    (∀ u, (s.unit n).cur = some u → u.susp = none →
      (late u.run.starter.part (classNs 4 6) → exec (.watchdogExpire n 6) s = .next (s.startRung (.engine n 7) none)) ∧
      (¬ late u.run.starter.part (classNs 4 6) → exec (.watchdogExpire n 6) s = .next s)) := by
  refine ⟨fun r b hr hb => ?_, fun hr => ?_, fun u hu hs => ?_⟩
  · have ran : exec (.watchdogExpire n 5) s = .next (if s.overdue 5 fun x => x.part == some b.owner.part then
        s.startRung (.engine n 6) none else s) := by
      change execWatchdogExpire n 5 s = _
      simp only [execWatchdogExpire, hr, Option.bind_some, hb]
    rw [ran]
    exact ⟨fun h => by rw [if_pos ((overdueOf_iff ..).mpr h)], fun h => by rw [if_neg (mt (overdueOf_iff ..).mp h)]⟩
  · change execWatchdogExpire n 5 s = _
    simp only [execWatchdogExpire, hr, Option.bind_none]
  · have ran : exec (.watchdogExpire n 6) s = .next (if s.overdue 6 fun x => x.part == some u.run.starter.part then
        s.startRung (.engine n 7) none else s) := by
      change execWatchdogExpire n 6 s = _
      simp only [execWatchdogExpire, hu, hs, Option.isNone_none, Bool.true_and]
    rw [ran]
    exact ⟨fun h => by rw [if_pos ((overdueOf_iff ..).mpr h)], fun h => by rw [if_neg (mt (overdueOf_iff ..).mp h)]⟩

/-- Settles O50: each clause by the lemma of its operation. -/
theorem coresInResetAndResetLadder : Obligations.CoresInResetAndResetLadder :=
  ⟨⟨coreLeavesReset, corePutIntoReset, bootThreadReleased⟩, queueRungRemoves, fun _ _ _ h => if_pos h, ferryCoreEmptied,
    unitStopped, partitionRungRestarts, deviceRungResets, rungWatched, watchdogOnCore, watchdogOnDie⟩

end Sys2Proof.Claims
end

section
/-! Bits packed and read back (R8, R39, R40): what `bitsOf` reads of packed fields, and numbers as bytes. -/

namespace Sys2Proof

theorem bitsOf_zero_right (x hi : Nat) : bitsOf x hi 0 = x % 2 ^ (hi + 1) := by simp [bitsOf]

/-- The width of packed fields together. -/
def fieldsWidth (l : List (Nat × Nat)) : Nat := (l.map Prod.fst).sum

theorem packBits_lt (l : List (Nat × Nat)) : packBits l < 2 ^ fieldsWidth l := by
  induction l with
  | nil => decide
  | cons f t ih =>
    obtain ⟨w, v⟩ := f
    calc v % 2 ^ w + 2 ^ w * packBits t < 2 ^ w + 2 ^ w * packBits t :=
          Nat.add_lt_add_right (Nat.mod_lt _ (Nat.two_pow_pos w)) _
      _ = 2 ^ w * (packBits t + 1) := by rw [Nat.mul_add_one, Nat.add_comm]
      _ ≤ 2 ^ w * 2 ^ fieldsWidth t := Nat.mul_le_mul_left _ ih
      _ = 2 ^ fieldsWidth ((w, v) :: t) := by rw [← Nat.pow_add]; rfl

@[simp] theorem fieldsWidth_nil : fieldsWidth [] = 0 := rfl
@[simp] theorem fieldsWidth_cons (f : Nat × Nat) (l : List (Nat × Nat)) : fieldsWidth (f :: l) = f.1 + fieldsWidth l := rfl

theorem packBits_lt_of_le {l : List (Nat × Nat)} {n : Nat} (h : fieldsWidth l ≤ n) : packBits l < 2 ^ n :=
  (packBits_lt l).trans_le (Nat.pow_le_pow_right (Nat.succ_pos 1) h)

/-- Bits 127:64 of a word of 96 bits, and of one of 128. -/
@[simp] theorem packBits_lt_32 {l : List (Nat × Nat)} (h : fieldsWidth l ≤ 32) : packBits l < 4294967296 :=
  packBits_lt_of_le h
@[simp] theorem packBits_lt_64 {l : List (Nat × Nat)} (h : fieldsWidth l ≤ 64) : packBits l < 18446744073709551616 :=
  packBits_lt_of_le h

theorem packBits_append (l m : List (Nat × Nat)) :
    packBits (l ++ m) = packBits l + 2 ^ fieldsWidth l * packBits m := by
  induction l with
  | nil => simp [packBits, fieldsWidth]
  | cons f t ih =>
    have width : fieldsWidth (f :: t) = f.1 + fieldsWidth t := rfl
    rw [List.cons_append, packBits, packBits, ih, width, Nat.pow_add, Nat.mul_add, Nat.add_assoc, Nat.mul_assoc]

/-! Bits of packed fields, a field at a time from the least significant. -/

theorem packBits_cons_div (w v : Nat) (t : List (Nat × Nat)) : packBits ((w, v) :: t) / 2 ^ w = packBits t := by
  rw [packBits, Nat.add_mul_div_left _ _ (Nat.two_pow_pos w), Nat.div_eq_of_lt (Nat.mod_lt _ (Nat.two_pow_pos w)),
    Nat.zero_add]

@[simp] theorem bitsOf_packBits_above {w v hi lo : Nat} {t : List (Nat × Nat)} (above : w ≤ lo) (ordered : lo ≤ hi) :
    bitsOf (packBits ((w, v) :: t)) hi lo = bitsOf (packBits t) (hi - w) (lo - w) := by
  have cut : lo = w + (lo - w) := by omega
  have width : hi - w + 1 - (lo - w) = hi + 1 - lo := by omega
  rw [bitsOf, bitsOf, width, Nat.shiftRight_eq_div_pow, Nat.shiftRight_eq_div_pow, ← packBits_cons_div w v t,
    Nat.div_div_eq_div_mul, ← Nat.pow_add, ← cut]

@[simp] theorem bitsOf_packBits_first {w v : Nat} {t : List (Nat × Nat)} {hi : Nat} (whole : hi + 1 = w) :
    bitsOf (packBits ((w, v) :: t)) hi 0 = v % 2 ^ w := by
  rw [bitsOf_zero_right, whole, packBits, Nat.add_mul_mod_self_left, Nat.mod_mod]

@[simp] theorem bitsOf_packBits_span {w v : Nat} {t : List (Nat × Nat)} {hi : Nat} (more : w ≤ hi) :
    bitsOf (packBits ((w, v) :: t)) hi 0 = v % 2 ^ w + 2 ^ w * bitsOf (packBits t) (hi - w) 0 := by
  have cut : hi + 1 = w + (hi - w + 1) := by omega
  rw [bitsOf_zero_right, bitsOf_zero_right, cut, Nat.pow_add, Nat.mod_mul, packBits_cons_div, packBits,
    Nat.add_mul_mod_self_left, Nat.mod_mod]

theorem packBits_single (w v : Nat) : packBits [(w, v)] = v % 2 ^ w := by simp [packBits]

theorem bitsOf_eq_zero {x hi lo : Nat} (h : x < 2 ^ lo) : bitsOf x hi lo = 0 := by
  rw [bitsOf, Nat.shiftRight_eq_div_pow, Nat.div_eq_of_lt h, Nat.zero_mod]

@[simp] theorem packBits_nil : packBits [] = 0 := rfl

@[simp] theorem bitsOf_zero (hi lo : Nat) : bitsOf 0 hi lo = 0 := bitsOf_eq_zero (Nat.two_pow_pos lo)

/-- Bits inside the first field, above its lowest. -/
@[simp] theorem bitsOf_packBits_within {w v hi lo : Nat} {t : List (Nat × Nat)} (within : hi < w)
    (_ : 0 < lo) (ordered : lo ≤ hi) : bitsOf (packBits ((w, v) :: t)) hi lo = bitsOf v hi lo := by
  have mul : 2 ^ lo * 2 ^ (hi + 1 - lo) = 2 ^ (hi + 1) := by rw [← Nat.pow_add]; congr 1; omega
  have low : packBits ((w, v) :: t) % 2 ^ (hi + 1) = v % 2 ^ (hi + 1) := by
    have cut : w = hi + 1 + (w - (hi + 1)) := by omega
    have first : packBits ((w, v) :: t) % 2 ^ w = v % 2 ^ w := by
      rw [packBits, Nat.add_mul_mod_self_left, Nat.mod_mod]
    rw [cut, Nat.pow_add, ← cut] at first
    rw [← Nat.mod_mul_right_mod (packBits _), first, Nat.mod_mul_right_mod]
  rw [bitsOf, bitsOf, Nat.shiftRight_eq_div_pow, Nat.shiftRight_eq_div_pow, ← Nat.mod_mul_right_div_self,
    ← Nat.mod_mul_right_div_self, mul, low]

/-! ### Numbers as bytes -/

@[simp] theorem length_bytesOfNat (n x : Nat) : (bytesOfNat n x).length = n := by
  induction n generalizing x with
  | zero => rfl
  | succ n ih => simp [bytesOfNat, ih]

theorem natOfBytes_bytesOfNat (n x : Nat) : natOfBytes (bytesOfNat n x) = x % 256 ^ n := by
  induction n generalizing x with
  | zero => simp [bytesOfNat, natOfBytes, Nat.mod_one]
  | succ n ih => rw [bytesOfNat, natOfBytes, ih, Nat.pow_succ', Nat.mod_mul, BitVec.toNat_ofNat]

/-! ### Numbers of bit vectors -/

@[simp] theorem toNat_lt_of_le {n m : Nat} (x : BitVec n) (h : 2 ^ n ≤ m) : x.toNat < m := x.isLt.trans_le h

@[simp] theorem toNat_mod_of_le {n m : Nat} (x : BitVec n) (h : 2 ^ n ≤ m) : x.toNat % m = x.toNat :=
  Nat.mod_eq_of_lt (x.isLt.trans_le h)

/-- The low bits of a number are the field that was packed there. -/
theorem ofNat_toNat_add {n m : Nat} (x : BitVec n) (hm : m = 2 ^ n) (k : Nat) : BitVec.ofNat n (x.toNat + m * k) = x := by
  subst hm
  exact BitVec.eq_of_toNat_eq (by simp)

end Sys2Proof
end

section
/-! The code tables of instruction fields, both ways (R46, R52, R71 to R74): the code of a name fits its field, and
names it. -/

namespace Sys2Proof

@[simp] theorem boolNat_le_one (b : Bool) : boolNat b ≤ 1 := by cases b <;> decide
@[simp] theorem boolNat_beq_one (b : Bool) : (boolNat b == 1) = b := by cases b <;> rfl
@[simp] theorem boolNat_beq_zero (b : Bool) : (boolNat b == 0) = !b := by cases b <;> rfl

@[simp] theorem boolNat_true : boolNat true = 1 := rfl
@[simp] theorem boolNat_false : boolNat false = 0 := rfl
@[simp] theorem boolNat_lt (b : Bool) {m : Nat} (h : 2 ≤ m) : boolNat b < m :=
  Nat.lt_of_lt_of_le (Nat.lt_succ_of_le (boolNat_le_one b)) h

/-- A flag above a field of `2 ^ n` values. -/
theorem flagged_lt {x m : Nat} (h : x < m) (b : Bool) : x + m * boolNat b < 2 * m := by
  cases b <;> simp <;> omega

theorem flagged_mod {x m : Nat} (h : x < m) (b : Bool) : (x + m * boolNat b) % m = x := by
  rw [Nat.add_mul_mod_self_left, Nat.mod_eq_of_lt h]

theorem flagged_le {x m : Nat} (h : x < m) (b : Bool) : m ≤ x + m * boolNat b ↔ b = true := by
  cases b <;> simp [h]

/-! ### Operands -/

@[simp] theorem Opnd.code_lt (o : Opnd) : o.code < 512 := by
  cases o <;> simp only [Opnd.code] <;> omega

theorem Opnd.ofCode_code {o : Opnd} (h : o.canon = true) : Opnd.ofCode o.code = o := by
  cases o with
  | v n => simp [Opnd.ofCode, Opnd.code, n.isLt]
  | s n => have := n.isLt; simp [Opnd.ofCode, Opnd.code]; omega
  | latch n | p n | special n =>
    have := n.isLt
    simp only [Opnd.ofCode, Opnd.code]
    grind
  | invalid c =>
    simp only [Opnd.canon, Bool.or_eq_true, Bool.and_eq_true, decide_eq_true_eq] at h
    simp only [Opnd.ofCode, Opnd.code, BitVec.ofNat_toNat, BitVec.setWidth_eq]
    grind

theorem Opnd.canon_of_isV {o : Opnd} (h : o.isV = true) : o.canon = true := by
  cases o with
  | v => rfl
  | _ => cases h

/-! ### Codes of enumerations -/

@[simp] theorem Ty.code_lt (t : Ty) : t.code < 32 := by cases t <;> decide
@[simp] theorem Ty.ofCode_code (t : Ty) : Ty.ofCode t.code = some t := by cases t <;> rfl
@[simp] theorem Rnd.code_lt (r : Rnd) : r.code < 8 := by cases r <;> decide
@[simp] theorem Rnd.ofCode_code (r : Rnd) : Rnd.ofCode r.code = some r := by cases r <;> rfl
@[simp] theorem Reading.code_lt (r : Reading) : r.code < 4 := by cases r <;> decide
@[simp] theorem Reading.ofCode_code (r : Reading) : Reading.ofCode r.code = some r := by cases r <;> rfl
@[simp] theorem Cond.code_lt (c : Cond) : c.code < 8 := by cases c <;> decide
@[simp] theorem Cond.ofCode_code (c : Cond) : Cond.ofCode c.code = some c := by cases c <;> rfl
@[simp] theorem FCond.code_lt (c : FCond) : c.code < 8 := by cases c <;> decide
@[simp] theorem FCond.ofCode_code (c : FCond) : FCond.ofCode c.code = some c := by cases c <;> rfl
@[simp] theorem Space.code_lt (s : Space) : s.code < 4 := by cases s <;> decide
@[simp] theorem Space.ofCode_code (s : Space) : Space.ofCode s.code = s := by cases s <;> rfl
@[simp] theorem Scope.code_lt (s : Scope) : s.code < 8 := by cases s <;> decide
@[simp] theorem Scope.ofCode_code (s : Scope) : Scope.ofCode s.code = some s := by cases s <;> rfl
@[simp] theorem OrdKind.code_lt (k : OrdKind) : k.code < 4 := by cases k <;> decide
@[simp] theorem OrdKind.ofCode_code (k : OrdKind) : OrdKind.ofCode k.code = k := by cases k <;> rfl
@[simp] theorem SquadOp.code_lt (o : SquadOp) : o.code < 64 := by cases o <;> decide
@[simp] theorem SquadOp.ofCode_code (o : SquadOp) : SquadOp.ofCode o.code = some o := by cases o <;> rfl
@[simp] theorem ShflMode.code_lt (m : ShflMode) : m.code < 8 := by cases m <;> decide
@[simp] theorem ShflMode.ofCode_code (m : ShflMode) : ShflMode.ofCode m.code = some m := by cases m <;> rfl
@[simp] theorem VoteForm.code_lt (f : VoteForm) : f.code < 8 := by cases f <;> decide
@[simp] theorem VoteForm.ofCode_code (f : VoteForm) : VoteForm.ofCode f.code = some f := by cases f <;> rfl
@[simp] theorem SelKey.code_lt (k : SelKey) : k.code < 4 := by cases k <;> decide
@[simp] theorem SelKey.ofCode_code (k : SelKey) : SelKey.ofCode k.code = some k := by cases k <;> rfl
@[simp] theorem AccFmt.code_lt (a : AccFmt) : a.code < 4 := by cases a <;> decide
@[simp] theorem AccFmt.ofCode_code (a : AccFmt) : AccFmt.ofCode a.code = a := by cases a <;> rfl
@[simp] theorem TrowForm.code_lt (f : TrowForm) : f.code < 64 := by cases f <;> decide
@[simp] theorem TrowForm.ofCode_code (f : TrowForm) : TrowForm.ofCode f.code = some f := by cases f <;> rfl
@[simp] theorem CopySpace.code_lt (x : CopySpace) : x.code < 4 := by cases x <;> decide
@[simp] theorem CopySpace.ofCode_code (x : CopySpace) : CopySpace.ofCode x.code = x := by cases x <;> rfl
@[simp] theorem PrefTarget.code_lt (t : PrefTarget) : t.code < 4 := by cases t <;> decide
@[simp] theorem PrefTarget.ofCode_code (t : PrefTarget) : PrefTarget.ofCode t.code = t := by cases t <;> rfl
@[simp] theorem AtomOp.code_lt (o : AtomOp) : o.code < 8 := by cases o <;> decide
@[simp] theorem PairOp.code_lt (o : PairOp) : o.code < 64 := by cases o <;> decide
@[simp] theorem PairOp.ofCode_code (o : PairOp) : PairOp.ofCode o.code = some o := by cases o <;> rfl

theorem AtomOp.ofAtom_code {o : AtomOp} (h : o ≠ .amax) : AtomOp.ofAtom o.code = o := by
  cases o with
  | amax => exact absurd rfl h
  | _ => rfl

theorem AtomOp.ofRed_code {o : AtomOp} (exch : o ≠ .exch) (cas : o ≠ .cas) : AtomOp.ofRed o.code = some o := by
  cases o with
  | exch => exact absurd rfl exch
  | cas => exact absurd rfl cas
  | _ => rfl

@[simp] theorem MemOrd.ord_lt (o : MemOrd) : o.ord < 16 := by
  cases o with
  | ordered k s => have := k.code_lt; simp only [MemOrd.ord]; omega
  | _ => decide

@[simp] theorem MemOrd.scope_lt (o : MemOrd) : o.scope < 8 := by
  cases o with
  | ordered k s => exact s.code_lt
  | _ => decide

@[simp] theorem MemOrd.ofCode_ord_scope (o : MemOrd) : MemOrd.ofCode o.ord o.scope = some o := by
  cases o with
  | ordered k s => cases k <;> simp [MemOrd.ofCode, MemOrd.ord, MemOrd.scope, OrdKind.code]
  | _ => rfl

/-- A gather or scatter has no scope. -/
theorem MemOrd.ofCode_of_gather {o : MemOrd} (h : ordGather o = true) : MemOrd.ofCode o.ord 0 = some o := by
  cases o with
  | ordered k s => cases h
  | _ => rfl

end Sys2Proof
end

section
/-! The fields of a word (R39, R40, R45): fields that fit are what a word packed of them reads as, and such a word is decoded
by its fields, from its bits or from its bytes. -/

namespace Sys2Proof

/-- Every field fits its bits, and the word is of a major opcode that `decodeRaw` decides. -/
structure Raw.Fits (r : Raw) : Prop where
  len : r.len < 3
  chain : r.chain < 2
  res3 : r.res3 = 0
  maj : 0 < r.maj ∧ r.maj < 255
  gp : r.gp < 8
  gn : r.gn < 2
  wbs : r.wbs < 2
  dst : r.dst < 512
  opa : r.opa < 512
  opb : r.opb < 512
  sub : r.sub < 64
  mod : r.mod < 64
  lt : r.lt < 4
  simm : r.simm < 64
  hi : r.hi < 2 ^ (8 * lenBytes r.len - 64)

/-- A word is at least the 64 bits below `hi`. -/
theorem lenBytes_of_lt {len : Nat} (h : len < 3) : 8 ≤ lenBytes len ∧ lenBytes len ≤ 16 := by
  unfold lenBytes; grind

/-- The fields of bits 63:0. -/
def Raw.low (r : Raw) : List (Nat × Nat) :=
  [(2, r.len), (1, r.chain), (1, r.res3), (8, r.maj), (3, r.gp), (1, r.gn), (1, r.wbs), (9, r.dst), (9, r.opa),
    (9, r.opb), (6, r.sub), (6, r.mod), (2, r.lt), (6, r.simm)]

theorem Raw.bits_eq (r : Raw) : r.bits = packBits (r.low ++ [(64, r.hi)]) := rfl

theorem Raw.low_width (r : Raw) : fieldsWidth r.low = 64 := rfl

theorem Raw.Fits.hi_lt {r : Raw} (h : r.Fits) : r.hi < 2 ^ 64 := by
  have := (lenBytes_of_lt h.len).2
  exact h.hi.trans_le (Nat.pow_le_pow_right (Nat.succ_pos 1) (by omega))

theorem Raw.bits_lt {r : Raw} (h : r.Fits) : r.bits < 2 ^ (8 * lenBytes r.len) := by
  have room : 8 * lenBytes r.len = 64 + (8 * lenBytes r.len - 64) := by
    have := (lenBytes_of_lt h.len).1
    omega
  have below := packBits_lt r.low
  rw [Raw.low_width] at below
  have cut : r.bits = packBits r.low + 2 ^ 64 * r.hi := by
    rw [Raw.bits_eq, packBits_append, Raw.low_width, packBits_single, Nat.mod_eq_of_lt h.hi_lt]
  calc r.bits = packBits r.low + 2 ^ 64 * r.hi := cut
    _ < 2 ^ 64 + 2 ^ 64 * r.hi := Nat.add_lt_add_right below _
    _ = 2 ^ 64 * (r.hi + 1) := by rw [Nat.mul_add_one, Nat.add_comm]
    _ ≤ 2 ^ 64 * 2 ^ (8 * lenBytes r.len - 64) := Nat.mul_le_mul_left _ h.hi
    _ = 2 ^ (8 * lenBytes r.len) := by rw [← Nat.pow_add, ← room]

theorem Raw.ofBits_bits {r : Raw} (h : r.Fits) : Raw.ofBits r.bits = r := by
  have fit := h.hi_lt
  obtain ⟨len, chain, res3, ⟨-, maj⟩, gp, gn, wbs, dst, opa, opb, sub, mod, lt, simm, -⟩ := h
  have len4 : r.len < 4 := Nat.lt_succ_of_lt len
  have maj256 : r.maj < 256 := Nat.lt_succ_of_lt maj
  cases r
  subst res3
  simp_all [Raw.ofBits, Raw.bits, Nat.mod_eq_of_lt]

/-- Bits 1:0 of a word give its length (R39). -/
theorem Raw.bits_mod_four {r : Raw} (h : r.Fits) : r.bits % 4 = r.len := by
  have first : (Raw.ofBits r.bits).len = r.len := by rw [Raw.ofBits_bits h]
  rwa [Raw.ofBits, bitsOf_zero_right] at first

theorem decodeWord_bits {r : Raw} (h : r.Fits) : decodeWord r.bits = decodeRaw r := by
  have len : bitsOf r.bits 1 0 = r.len := by rw [bitsOf_zero_right]; exact Raw.bits_mod_four h
  have := h.len
  have := h.maj
  rw [decodeWord]
  simp only [len, Nat.mod_eq_of_lt (Raw.bits_lt h), Raw.ofBits_bits h, h.res3]
  rw [if_neg (by omega), if_neg (by omega), if_neg (by omega)]
  rfl

/-- The bytes of a word decode as the word does, and leave the bytes after them (R39). -/
theorem decode_bytes {w : Nat} {i : Instr} (fits : w < 2 ^ (8 * lenBytes (w % 4))) (h : decodeWord w = .ok i)
    (rest : List Byte) : decode (bytesOfNat (lenBytes (w % 4)) w ++ rest) = .ok (i, rest) := by
  have all : natOfBytes (bytesOfNat (lenBytes (w % 4)) w) = w := by
    rw [natOfBytes_bytesOfNat, show 256 = 2 ^ 8 from rfl, ← Nat.pow_mul, Nat.mod_eq_of_lt fits]
  obtain ⟨m, hm⟩ : ∃ m, lenBytes (w % 4) = m + 1 := Nat.exists_eq_succ_of_ne_zero (by unfold lenBytes; grind)
  have first : lenBytes ((BitVec.ofNat 8 w).toNat % 4) = lenBytes (w % 4) := by
    rw [BitVec.toNat_ofNat, Nat.mod_mod_of_dvd _ (by decide)]
  have len := length_bytesOfNat (lenBytes (w % 4)) w
  generalize bs : bytesOfNat (lenBytes (w % 4)) w = b at all len
  obtain ⟨t, ht⟩ : ∃ t, b = BitVec.ofNat 8 w :: t := ⟨bytesOfNat m (w / 256), by rw [← bs, hm]; rfl⟩
  subst ht
  rw [List.cons_append, decode.eq_2]
  rw [first, if_neg (by simp at len ⊢; omega), ← List.cons_append, ← len, List.take_left, List.drop_left, all, h]

end Sys2Proof
end

section
/-! How the decoder goes on where a check is met, and what it reads of the layouts that instructions share (R45 to R48,
R54, R71, R101, R215): each shape of the encoder is read back by the shape of the decoder. -/

namespace Sys2Proof

/-! ### Checks that are met -/

theorem need_of {α : Type} {b : Bool} {e : DecodeErr} {k d : Dec α} (hb : b = true) (hk : k = d) : need b e k = d := by
  rw [hb]; exact hk

theorem pick_of {α β : Type} {o : Option α} {x : α} {e : DecodeErr} {k : α → Dec β} {d : Dec β} (ho : o = some x)
    (hk : k x = d) : pick o e k = d := by
  rw [ho]; exact hk

theorem fin_of {i j : Instr} (h : j = i) (w : i.wf = true) : fin j = .ok i := by
  rw [h, fin, w]; rfl

theorem and_two {a b : Bool} (h : (a && b) = true) : a = true ∧ b = true := Bool.and_eq_true_iff.mp h

theorem and_three {a b c : Bool} (h : (a && b && c) = true) : a = true ∧ b = true ∧ c = true := by
  simpa [and_assoc] using h

theorem and_four {a b c d : Bool} (h : (a && b && c && d) = true) : a = true ∧ b = true ∧ c = true ∧ d = true := by
  simpa [and_assoc] using h

theorem and_five {a b c d e : Bool} (h : (a && b && c && d && e) = true) :
    a = true ∧ b = true ∧ c = true ∧ d = true ∧ e = true := by
  simpa [and_assoc] using h

/-- The encoder's fields for the instruction fit, and decode to it. -/
def RoundTrips (i : Instr) : Prop :=
  ∀ r, encodeRaw i = some r → i.wf = true → r.Fits ∧ decodeRaw r = .ok i

theorem RoundTrips.of {i : Instr} {r : Raw} (e : encodeRaw i = some r) (fits : i.wf = true → r.Fits)
    (back : i.wf = true → decodeRaw r = .ok i) : RoundTrips i := by
  intro x hx w
  obtain rfl : r = x := Option.some.inj (e.symm.trans hx)
  exact ⟨fits w, back w⟩

/-! ### The common fields and the result -/

@[simp] theorem Raw.fits_iff (r : Raw) : r.Fits ↔ r.len < 3 ∧ r.chain < 2 ∧ r.res3 = 0 ∧ (0 < r.maj ∧ r.maj < 255) ∧
    r.gp < 8 ∧ r.gn < 2 ∧ r.wbs < 2 ∧ r.dst < 512 ∧ r.opa < 512 ∧ r.opb < 512 ∧ r.sub < 64 ∧ r.mod < 64 ∧ r.lt < 4 ∧
    r.simm < 64 ∧ r.hi < 2 ^ (8 * lenBytes r.len - 64) :=
  ⟨fun ⟨a, b, c, d, e, f, g, h, i, j, k, l, m, n, o⟩ => ⟨a, b, c, d, e, f, g, h, i, j, k, l, m, n, o⟩,
    fun ⟨a, b, c, d, e, f, g, h, i, j, k, l, m, n, o⟩ => ⟨a, b, c, d, e, f, g, h, i, j, k, l, m, n, o⟩⟩

@[simp] theorem Com.raw_eq (c : Com) (len maj : Nat) : c.raw len maj =
    ⟨len, boolNat c.chain, 0, maj, c.guardPred.toNat, boolNat c.guardNeg, 0, 0, 0, 0, 0, 0, 0, 0, 0⟩ := rfl

@[simp] theorem lenBytes_zero : lenBytes 0 = 8 := rfl
@[simp] theorem lenBytes_one : lenBytes 1 = 12 := rfl
@[simp] theorem lenBytes_two : lenBytes 2 = 16 := rfl

@[simp] theorem Raw.com_mk (c : Com) (len res3 maj wbs dst opa opb sub mod lt simm hi : Nat) :
    Raw.com ⟨len, boolNat c.chain, res3, maj, c.guardPred.toNat, boolNat c.guardNeg, wbs, dst, opa, opb, sub, mod, lt,
      simm, hi⟩ = c := by
  simp [Raw.com]

theorem Out.canon_of_wf {o : Out} (h : o.wf = true) : o.dst.canon = true := (and_two h).1

theorem Raw.out_mk {o : Out} (h : o.wf = true) (len chain res3 maj gp gn opa opb sub mod simm hi : Nat) :
    Raw.out ⟨len, chain, res3, maj, gp, gn, boolNat o.wbs, o.dst.code, opa, opb, sub, mod, o.lt.toNat, simm, hi⟩ = o := by
  simp [Raw.out, Opnd.ofCode_code (Out.canon_of_wf h)]

/-- SUB of a typed instruction: the type code below the variant bit (R71). -/
theorem Ty.ofCode_typed (t : Ty) (v : Bool) : Ty.ofCode ((t.code + 32 * boolNat v) % 32) = some t := by
  rw [flagged_mod t.code_lt, Ty.ofCode_code]

@[simp] theorem Ty.not_variant (t : Ty) : ¬ 32 ≤ t.code := Nat.not_le.mpr t.code_lt

@[simp] theorem Ty.ofCode_mod (t : Ty) : Ty.ofCode (t.code % 32) = some t := by
  rw [Nat.mod_eq_of_lt t.code_lt, Ty.ofCode_code]

theorem Ty.typed_lt (t : Ty) (v : Bool) : t.code + 32 * boolNat v < 64 := flagged_lt t.code_lt v

/-- The rounding field, above the bits of a reading (R46, R123). -/
@[simp] theorem Rnd.ofCode_above (k : Rnd) (r : Reading) : Rnd.ofCode ((8 * k.code + r.code) / 8) = some k := by
  cases k <;> cases r <;> rfl

theorem Rnd.code_above_lt (k : Rnd) (r : Reading) : 8 * k.code + r.code < 64 := by
  have := k.code_lt
  have := r.code_lt
  omega

/-! ### Layouts of vector instructions -/

/-- The fields of a one-source instruction (F64), with its modifiers. -/
def Vec1.fields (x : Vec1) (n mod simm : Nat) : Raw :=
  { (x.com.raw 0 n).withOut x.out with
    opa := x.a.code, sub := x.ty.code + 32 * boolNat x.variant, mod := mod, simm := simm }

theorem Vec1.raw_eq (x : Vec1) (n : Nat) : x.raw n = x.fields n 0 0 := rfl

theorem Vec1.fits (x : Vec1) {n mod simm : Nat} (hn : 0 < n ∧ n < 255) (hm : mod < 64) (hs : simm < 64) :
    (x.fields n mod simm).Fits := by
  simp [Vec1.fields, Raw.withOut, hn, hm, hs, Ty.typed_lt]

theorem Vec1.decodes {x : Vec1} {tys : List Ty} {v : Bool} (hx : x.wf tys v = true) (n mod simm : Nat)
    (k : Vec1 → Dec Instr) : (x.fields n mod simm).vec1 k = k x := by
  obtain ⟨com, out, ty, variant, a⟩ := x
  obtain ⟨ho, -, -, ha⟩ := and_four hx
  refine need_of rfl (need_of rfl (pick_of (Ty.ofCode_typed ty variant) ?_))
  simp [Vec1.fields, Raw.withOut, Raw.out_mk ho, Raw.variant, flagged_le ty.code_lt, Opnd.ofCode_code ha]

/-- The length of a two-source instruction (F64, or F96-I), its operand B and its immediate. -/
def Vec2.len (x : Vec2) : Nat :=
  match x.b with
  | .op _ => 0
  | .imm _ => 1
def Vec2.opb (x : Vec2) : Nat :=
  match x.b with
  | .op o => o.code
  | .imm _ => 0
def Vec2.hi (x : Vec2) : Nat :=
  match x.b with
  | .op _ => 0
  | .imm w => w.toNat

/-- The fields of a two-source instruction, with its modifiers. -/
def Vec2.fields (x : Vec2) (n mod simm : Nat) : Raw :=
  { (x.com.raw x.len n).withOut x.out with
    opa := x.a.code, opb := x.opb, sub := x.ty.code + 32 * boolNat x.variant, mod := mod, simm := simm, hi := x.hi }

theorem Vec2.raw_eq (x : Vec2) (n : Nat) : x.raw n = x.fields n 0 0 := by
  obtain ⟨com, out, ty, variant, a, b⟩ := x
  cases b <;> rfl

theorem Vec2.fits (x : Vec2) {n mod simm : Nat} (hn : 0 < n ∧ n < 255) (hm : mod < 64) (hs : simm < 64) :
    (x.fields n mod simm).Fits := by
  obtain ⟨com, out, ty, variant, a, b⟩ := x
  cases b <;>
    simp [Vec2.fields, Vec2.len, Vec2.opb, Vec2.hi, Raw.withOut, hn, hm, hs, Ty.typed_lt]

/-- SIMM is read in F64 only, so an opcode that has the F96-I layout leaves it 0. -/
theorem Vec2.decodes {x : Vec2} {tys : List Ty} {v imm : Bool} (hx : x.wf tys v imm = true) (n mod : Nat) {simm : Nat}
    (hs : imm = true → simm = 0) (k : Vec2 → Dec Instr) : (x.fields n mod simm).vec2 imm k = k x := by
  obtain ⟨com, out, ty, variant, a, b⟩ := x
  obtain ⟨hx, hi⟩ := and_two hx
  obtain ⟨ho, -, -, ha, hb⟩ := and_five hx
  refine pick_of (Ty.ofCode_typed ty variant) ?_
  cases b with
  | op o =>
    simp [Vec2.fields, Vec2.len, Vec2.opb, Raw.withOut, Raw.out_mk ho, Raw.variant, flagged_le ty.code_lt,
      Opnd.ofCode_code ha, Opnd.ofCode_code hb]
  | imm w =>
    obtain ⟨wide, -⟩ := and_two hi
    refine need_of wide (need_of (by rw [hs wide]; rfl) ?_)
    simp [Vec2.fields, Vec2.len, Vec2.hi, Raw.withOut, Raw.out_mk ho, Raw.variant, Raw.imm32,
      flagged_le ty.code_lt, Opnd.ofCode_code ha]

/-- The third source in OPC. -/
@[simp] theorem Opnd.bitsOf_code (o : Opnd) : bitsOf o.code 8 0 = o.code :=
  (bitsOf_zero_right _ _).trans (Nat.mod_eq_of_lt o.code_lt)

@[simp] theorem Opnd.bitsOf_code_above (o : Opnd) : bitsOf o.code 31 9 = 0 := bitsOf_eq_zero o.code_lt

/-- The length of a three-source instruction (F96-C, or F128-C), and its bits 127:64. -/
def Vec3.len (x : Vec3) : Nat :=
  match x.imm with
  | none => 1
  | some _ => 2
def Vec3.hi (x : Vec3) : Nat :=
  match x.imm with
  | none => x.c.code
  | some w => packBits [(9, x.c.code), (23, 0), (32, w.toNat)]

/-- The fields of a three-source instruction, with its modifier. -/
def Vec3.fields (x : Vec3) (n mod : Nat) : Raw :=
  { (x.com.raw x.len n).withOut x.out with
    opa := x.a.code, opb := x.b.code, sub := x.ty.code + 32 * boolNat x.variant, mod := mod, hi := x.hi }

theorem Vec3.raw_eq (x : Vec3) (n : Nat) : x.raw n = x.fields n 0 := by
  obtain ⟨com, out, ty, variant, a, b, c, imm⟩ := x
  cases imm <;> rfl

theorem Vec3.fits (x : Vec3) {n mod : Nat} (hn : 0 < n ∧ n < 255) (hm : mod < 64) : (x.fields n mod).Fits := by
  obtain ⟨com, out, ty, variant, a, b, c, imm⟩ := x
  have low : c.code < 4294967296 := c.code_lt.trans (by decide)
  cases imm <;>
    simp [Vec3.fields, Vec3.len, Vec3.hi, Raw.withOut, hn, hm, Ty.typed_lt, low]

theorem Vec3.decodes {x : Vec3} {tys : List Ty} {v wide : Bool} (hx : x.wf tys v = true)
    (hi : wide = false → x.imm.isNone = true) (n mod : Nat) (k : Vec3 → Dec Instr) :
    (x.fields n mod).vec3 wide k = k x := by
  obtain ⟨com, out, ty, variant, a, b, c, imm⟩ := x
  obtain ⟨hx, hc⟩ := and_two hx
  obtain ⟨ho, -, -, ha, hb⟩ := and_five hx
  have code := Nat.mod_eq_of_lt c.code_lt
  cases imm with
  | none =>
    refine need_of rfl (need_of rfl (need_of (by simp [Vec3.fields, Vec3.hi]) (pick_of (Ty.ofCode_typed ty variant) ?_)))
    simp [Vec3.fields, Vec3.len, Vec3.hi, Raw.withOut, Raw.out_mk ho, Raw.variant, Raw.opc,
      flagged_le ty.code_lt, Opnd.ofCode_code ha, Opnd.ofCode_code hb, Opnd.ofCode_code hc]
  | some w =>
    obtain rfl : wide = true := by
      cases wide with
      | true => rfl
      | false => cases hi rfl
    refine need_of rfl (need_of rfl (need_of (by simp [Vec3.fields, Vec3.hi]) (pick_of (Ty.ofCode_typed ty variant) ?_)))
    simp [Vec3.fields, Vec3.len, Vec3.hi, Raw.withOut, Raw.out_mk ho, Raw.variant, Raw.opc, Raw.top32,
      flagged_le ty.code_lt, Opnd.ofCode_code ha, Opnd.ofCode_code hb, Opnd.ofCode_code hc, code]

end Sys2Proof
end

section
/-! Layouts outside the vector classes: the memory operand (R47, R48), the fields of F128-T (R47, R215), and the checks that
the instructions of a layout share (R54). -/

namespace Sys2Proof

/-! ### Memory operands -/

/-- The length of a memory instruction (F96-M, or F128-M), and its bits 127:64. -/
def MemOp.len (m : MemOp) : Nat := if m.wide then 2 else 1
def MemOp.hi (m : MemOp) (ord opc : Nat) : Nat :=
  packBits ([(2, m.scale.toNat), (2, m.space.code), (4, ord)] ++
    if m.wide then [(9, opc), (15, 0), (32, m.off.toNat)] else [(24, m.off.toNat % 2 ^ 24)])

theorem MemOp.raw_eq (m : MemOp) (c : Com) (n ord opc : Nat) :
    m.raw c n ord opc = { c.raw m.len n with opa := m.base.code, opb := m.index.code, hi := m.hi ord opc } := by
  obtain ⟨space, base, index, scale, wide, off⟩ := m
  cases wide <;> rfl

section
variable {r : Raw} {m : MemOp} {ord opc : Nat}

@[simp] theorem MemOp.len_lt (m : MemOp) : m.len < 3 := by unfold MemOp.len; grind

@[simp] theorem MemOp.hi_lt (m : MemOp) (ord opc : Nat) : m.hi ord opc < 2 ^ (8 * lenBytes m.len - 64) := by
  obtain ⟨space, base, index, scale, wide, off⟩ := m
  cases wide
  · exact packBits_lt_32 (by simp)
  · exact packBits_lt_64 (by simp)

theorem Raw.ord_of (hi : r.hi = m.hi ord opc) (h : ord < 16) : r.ord = ord := by
  rw [Raw.ord, hi, MemOp.hi]
  simp [Nat.mod_eq_of_lt h]

theorem Raw.memRes_of (hl : r.len = m.len) (hi : r.hi = m.hi ord opc) : r.memRes = true := by
  obtain ⟨space, base, index, scale, wide, off⟩ := m
  rw [Raw.memRes, hl, hi, MemOp.len, MemOp.hi]
  cases wide <;> simp

theorem Raw.opcM_narrow (hl : r.len = m.len) (h : m.wide = false) : r.opcM = 0 := by
  rw [Raw.opcM, hl, MemOp.len, h]; rfl

theorem Raw.opcM_of (hl : r.len = m.len) (hi : r.hi = m.hi ord opc) (h : m.wide = true) (ho : opc < 512) :
    r.opcM = opc := by
  rw [Raw.opcM, hl, hi, MemOp.len, MemOp.hi, h]
  simp [Nat.mod_eq_of_lt ho]

/-- OPC is 0 in both layouts of an instruction that has no third operand. -/
theorem Raw.opcM_zero (hl : r.len = m.len) (hi : r.hi = m.hi ord 0) : r.opcM = 0 := by
  cases h : m.wide with
  | false => exact Raw.opcM_narrow hl h
  | true => exact Raw.opcM_of hl hi h (by decide)

theorem Raw.mem_of (w : m.wf = true) (hl : r.len = m.len) (ha : r.opa = m.base.code) (hb : r.opb = m.index.code)
    (hi : r.hi = m.hi ord opc) : r.mem = m := by
  obtain ⟨space, base, index, scale, wide, off⟩ := m
  obtain ⟨hbase, hindex, hoff⟩ := and_three w
  rw [Raw.mem, Raw.top32, hl, hi, ha, hb, Opnd.ofCode_code hbase, Opnd.ofCode_code hindex, MemOp.len, MemOp.hi]
  cases wide with
  | true => simp [Nat.mod_eq_of_lt space.code_lt]
  | false =>
    have hoff : off = (off.setWidth 24).signExtend 32 := of_decide_eq_true hoff
    have low : BitVec.ofNat 24 (off.toNat % 16777216) = off.setWidth 24 := BitVec.eq_of_toNat_eq (by simp)
    simp [Nat.mod_eq_of_lt space.code_lt, low, ← hoff]

/-- The checks that every memory instruction makes. -/
theorem memory_of {narrow wide : Bool} {k d : Dec Instr} (hl : r.len = m.len) (hi : r.hi = m.hi ord opc)
    (form : (if m.wide then wide else narrow) = true) (hs : (r.simm == 0 && r.noVec) = true) (hk : k = d) :
    r.memory narrow wide k = d := by
  refine need_of ?_ (need_of ?_ hk)
  · rw [hl, MemOp.len]
    cases h : m.wide <;> simpa [h] using form
  · rw [hs, Raw.memRes_of hl hi]; rfl

theorem memPlain_of {narrow wide : Bool} {k d : Dec Instr} (hl : r.len = m.len) (hi : r.hi = m.hi 0 opc)
    (form : (if m.wide then wide else narrow) = true) (hs : (r.simm == 0 && r.noVec) = true) (hm : r.mod = 0)
    (hk : k = d) : r.memPlain narrow wide k = d :=
  memory_of hl hi form hs (need_of (by rw [Raw.ord_of hi (by decide), hm]; rfl) hk)

end

/-! ### F128-T -/

@[simp] theorem hiT_lt (td ta tb tc tln xctl imm : Nat) : hiT td ta tb tc tln xctl imm < 18446744073709551616 :=
  packBits_lt_64 (by simp)

theorem tile_toNat (t : BitVec 4) : tile t.toNat = t := by simp [tile]

theorem tile_add (t : BitVec 4) {k : Nat} (h : k % 16 = 0) : tile (k + t.toNat) = t :=
  BitVec.eq_of_toNat_eq (by simp [tile]; omega)

/-! ### Checks that a layout shares -/

section
variable {r : Raw} {k d : Dec Instr}

theorem f64_of (hl : r.len = 0) (hv : (r.noVec && r.simm == 0) = true) (hk : k = d) : r.f64 k = d :=
  need_of (by rw [hl]; rfl) (need_of hv hk)

theorem f96i_of (hl : r.len = 1) (hv : (r.noVec && r.simm == 0) = true) (hk : k = d) : r.f96i k = d :=
  need_of (by rw [hl]; rfl) (need_of hv hk)

theorem f96c_of {o : Opnd} (hl : r.len = 1) (hv : (r.noVec && r.simm == 0) = true) (hi : r.hi = o.code) (hk : k = d) :
    r.f96c k = d :=
  need_of (by rw [hl]; rfl) (need_of (by rw [hv, hi, Opnd.bitsOf_code_above]; rfl) hk)

theorem f128t_of (hl : r.len = 2) (hv : (r.noVec && r.simm == 0) = true) (hk : k = d) : r.f128t k = d :=
  need_of (by rw [hl]; rfl) (need_of hv hk)

theorem matrix_of {td ta tb tc xctl imm : Nat} (hl : r.len = 2) (hv : (r.noVec && r.simm == 0) = true) (hm : r.mod = 0)
    (hi : r.hi = hiT td ta tb tc 0 xctl imm) (hk : k = d) : r.matrix k = d :=
  f128t_of hl hv (need_of (by simp [hm, hi, Raw.tln, hiT]) hk)

theorem copyForm_of {ch : BitVec 3} {xctl imm : Nat} (hl : r.len = 2) (hv : (r.noVec && r.simm == 0) = true)
    (hm : r.mod < 2) (hi : r.hi = hiT 0 0 0 0 ch.toNat xctl imm) (hk : k = d) : r.copyForm k = d :=
  f128t_of hl hv (need_of (by simp [hm, hi, hiT]) (need_of (by simp [Raw.tln, hi, hiT]) hk))

theorem timeline_of {t imm : Nat} (hl : r.len = 2) (hv : (r.noVec && r.simm == 0) = true) (hm : r.mod = 0)
    (hb : r.opb = 0) (hi : r.hi = hiT 0 0 0 0 t 0 imm) (hk : k = d) : r.timeline k = d :=
  f128t_of hl hv (need_of (by simp [hm, hb, Raw.xctl, hi, hiT]) hk)

end

/-! ### Shifts and the carry chain -/

theorem shiftRaw_fits (x : Vec1) (c : ShiftCount) {n : Nat} (hn : 0 < n ∧ n < 255) : (shiftRaw x c n).Fits := by
  cases c <;>
    simp [shiftRaw, Vec1.raw, Raw.withOut, hn, Ty.typed_lt]

theorem shift_decodes {x : Vec1} {c : ShiftCount} {tys : List Ty} {v : Bool} (hx : x.wf tys v = true)
    (hc : c.wf = true) (n : Nat) (k : Vec1 → ShiftCount → Dec Instr) : (shiftRaw x c n).shift k = k x c := by
  obtain ⟨com, out, ty, variant, a⟩ := x
  obtain ⟨ho, -, -, ha⟩ := and_four hx
  cases c with
  | op o =>
    refine need_of rfl (need_of rfl (pick_of (Ty.ofCode_typed ty variant) ?_))
    simp [need, shiftRaw, Vec1.raw, Raw.withOut, Raw.out_mk ho, Raw.variant, flagged_le ty.code_lt,
      Opnd.ofCode_code ha, Opnd.ofCode_code hc]
  | simm s =>
    refine need_of rfl (need_of rfl (pick_of (Ty.ofCode_typed ty variant) ?_))
    simp [need, shiftRaw, Vec1.raw, Raw.withOut, Raw.out_mk ho, Raw.variant, flagged_le ty.code_lt,
      Opnd.ofCode_code ha]

/-- SIMM of ADDC and SUBB (R109). -/
theorem carry_lt (p : BitVec 3) (f : Bool) : p.toNat + 8 * boolNat f < 16 := flagged_lt p.isLt f

theorem carry_decodes {x : Vec2} {tys : List Ty} (hx : x.wf tys false false = true) (n : Nat) (p : BitVec 3) (f : Bool)
    (k : Vec2 → BitVec 3 → Bool → Dec Instr) : (x.fields n 0 (p.toNat + 8 * boolNat f)).carry k = k x p f := by
  refine need_of (by simp [Vec2.fields, carry_lt]) ((Vec2.decodes hx n 0 (by simp) _).trans ?_)
  simp [Vec2.fields, flagged_le p.isLt, Nat.mod_eq_of_lt p.isLt]

end Sys2Proof
end

section
/-! Vector instructions: encoded, then decoded (R69, R71 to R74, R100, R101, R108 to R133). -/

namespace Sys2Proof

/-! ### The shapes -/

theorem Vec1.raw_mod (x : Vec1) (n m : Nat) : { x.raw n with mod := m } = x.fields n m 0 := rfl

theorem Vec2.raw_mod (x : Vec2) (n m : Nat) : { x.raw n with mod := m } = x.fields n m 0 := by rw [x.raw_eq]; rfl

theorem Vec2.raw_simm (x : Vec2) (n s : Nat) : { x.raw n with simm := s } = x.fields n 0 s := by rw [x.raw_eq]; rfl

theorem Vec2.raw_mod_simm (x : Vec2) (n m s : Nat) : { x.raw n with mod := m, simm := s } = x.fields n m s := by
  rw [x.raw_eq]; rfl

theorem Vec3.raw_mod (x : Vec3) (n m : Nat) : { x.raw n with mod := m } = x.fields n m := by rw [x.raw_eq]; rfl

theorem Vec1.decodes_fin {x : Vec1} {mk : Vec1 → Instr} {tys : List Ty} {v : Bool} (hx : x.wf tys v = true)
    (w : (mk x).wf = true) {n m s : Nat} : ((x.fields n m s).vec1 fun y => fin (mk y)) = .ok (mk x) :=
  (Vec1.decodes hx n m s _).trans (fin_of rfl w)

theorem Vec2.decodes_fin {x : Vec2} {mk : Vec2 → Instr} {tys : List Ty} {v imm : Bool} (hx : x.wf tys v imm = true)
    (w : (mk x).wf = true) {n m s : Nat} (hs : imm = true → s = 0) :
    ((x.fields n m s).vec2 imm fun y => fin (mk y)) = .ok (mk x) :=
  (Vec2.decodes hx n m hs _).trans (fin_of rfl w)

theorem Vec3.decodes_fin {x : Vec3} {mk : Vec3 → Instr} {tys : List Ty} {v wide : Bool} (hx : x.wf tys v = true)
    (hi : wide = false → x.imm.isNone = true) (w : (mk x).wf = true) {n m : Nat} :
    ((x.fields n m).vec3 wide fun y => fin (mk y)) = .ok (mk x) :=
  (Vec3.decodes hx hi n m _).trans (fin_of rfl w)

section
variable {n : Nat} {tys : List Ty} {v imm wide : Bool}

theorem Vec1.roundTrips {x : Vec1} {mk : Vec1 → Instr} (e : encodeRaw (mk x) = some (x.raw n))
    (hx : (mk x).wf = true → x.wf tys v = true)
    (arm : decodeRaw (x.fields n 0 0) = (x.fields n 0 0).vec1 fun y => fin (mk y)) (hn : 0 < n ∧ n < 255 := by decide) :
    RoundTrips (mk x) :=
  .of (e.trans (congrArg some (x.raw_eq n))) (fun _ => x.fits hn (by decide) (by decide))
    fun w => arm.trans (Vec1.decodes_fin (hx w) w)

theorem Vec2.roundTrips {x : Vec2} {mk : Vec2 → Instr} (e : encodeRaw (mk x) = some (x.raw n))
    (hx : (mk x).wf = true → x.wf tys v imm = true)
    (arm : decodeRaw (x.fields n 0 0) = (x.fields n 0 0).vec2 imm fun y => fin (mk y))
    (hn : 0 < n ∧ n < 255 := by decide) : RoundTrips (mk x) :=
  .of (e.trans (congrArg some (x.raw_eq n))) (fun _ => x.fits hn (by decide) (by decide))
    fun w => arm.trans (Vec2.decodes_fin (hx w) w fun _ => rfl)

theorem Vec3.roundTrips {x : Vec3} {mk : Vec3 → Instr} (e : encodeRaw (mk x) = some (x.raw n))
    (hx : (mk x).wf = true → x.wf tys v = true) (hi : (mk x).wf = true → wide = false → x.imm.isNone = true)
    (arm : decodeRaw (x.fields n 0) = (x.fields n 0).vec3 wide fun y => fin (mk y))
    (hn : 0 < n ∧ n < 255 := by decide) : RoundTrips (mk x) :=
  .of (e.trans (congrArg some (x.raw_eq n))) (fun _ => x.fits hn (by decide))
    fun w => arm.trans (Vec3.decodes_fin (hx w) (hi w) w)

/-- The rounding field alone in MOD (R46). -/
theorem Rnd.mod_lt (k : Rnd) : 8 * k.code < 64 := by
  have := k.code_lt
  omega

theorem rounding_of {r : Raw} {k : Rnd} {f : Rnd → Dec Instr} {d : Dec Instr} (hs : r.simm = 0)
    (hm : r.mod = 8 * k.code) (hk : f k = d) : r.rounding f = d :=
  need_of (by simp [hs, hm]) (pick_of (by simp [Raw.rnd, hm]) hk)

theorem Vec2.roundTrips_rounding {x : Vec2} {mk : Vec2 → Rnd → Instr} {k : Rnd}
    (e : encodeRaw (mk x k) = some { x.raw n with mod := 8 * k.code })
    (hx : (mk x k).wf = true → x.wf tys v imm = true)
    (arm : decodeRaw (x.fields n (8 * k.code) 0) = (x.fields n (8 * k.code) 0).rounding fun m =>
      (x.fields n (8 * k.code) 0).vec2 imm fun y => fin (mk y m)) (hn : 0 < n ∧ n < 255 := by decide) :
    RoundTrips (mk x k) :=
  .of (e.trans (congrArg some (x.raw_mod n _))) (fun _ => x.fits hn k.mod_lt (by decide))
    fun w => arm.trans (rounding_of rfl rfl (Vec2.decodes_fin (mk := (mk · k)) (hx w) w fun _ => rfl))

theorem shift_roundTrips {x : Vec1} {c : ShiftCount} {mk : Vec1 → ShiftCount → Instr}
    (e : encodeRaw (mk x c) = some (shiftRaw x c n)) (hx : (mk x c).wf = true → x.wf tys v = true ∧ c.wf = true)
    (arm : decodeRaw { shiftRaw x c n with maj := n } = (shiftRaw x c n).shift fun y k => fin (mk y k))
    (hn : 0 < n ∧ n < 255 := by decide) : RoundTrips (mk x c) := by
  have maj : shiftRaw x c n = { shiftRaw x c n with maj := n } := by cases c <;> rfl
  refine .of e (fun _ => shiftRaw_fits x c hn) fun w => ?_
  rw [maj, arm, shift_decodes (hx w).1 (hx w).2]
  exact fin_of rfl w

theorem carry_roundTrips {x : Vec2} {p : BitVec 3} {f : Bool} {mk : Vec2 → BitVec 3 → Bool → Instr}
    (e : encodeRaw (mk x p f) = some { x.raw n with simm := p.toNat + 8 * boolNat f })
    (hx : (mk x p f).wf = true → x.wf tys false false = true)
    (arm : decodeRaw (x.fields n 0 (p.toNat + 8 * boolNat f)) =
      (x.fields n 0 (p.toNat + 8 * boolNat f)).carry fun y q g => fin (mk y q g))
    (hn : 0 < n ∧ n < 255 := by decide) : RoundTrips (mk x p f) :=
  .of (e.trans (congrArg some (x.raw_simm n _)))
    (fun _ => x.fits hn (by decide) ((carry_lt p f).trans (by decide)))
    fun w => arm.trans ((carry_decodes (hx w) n p f _).trans (fin_of rfl w))

end

/-! ### Modifiers in MOD and SIMM -/

/-- The reading in MOD bits 51:50, below a rounding field (R46, R123). -/
theorem reading_of {r : Raw} {k : Nat} {x : Reading} (hm : r.mod = 8 * k + x.code) : r.reading = some x := by
  have := x.code_lt
  rw [Raw.reading, hm, if_pos (by omega), show (8 * k + x.code) % 4 = x.code by omega, Reading.ofCode_code]

theorem Reading.code_lt_eight (r : Reading) : r.code < 8 := r.code_lt.trans (by decide)

theorem roundTrips_cmp (x : Vec2) (c : Cond) : RoundTrips (.cmp x c) :=
  .of (congrArg some (x.raw_mod _ _)) (fun _ => x.fits (by decide) (c.code_lt.trans (by decide)) (by decide))
    fun w => need_of (by simp [Vec2.fields]) (pick_of c.ofCode_code (Vec2.decodes_fin (mk := (.cmp · c)) w w fun _ => rfl))

theorem roundTrips_fcmp (x : Vec2) (c : FCond) : RoundTrips (.fcmp x c) :=
  .of (congrArg some (x.raw_mod _ _)) (fun _ => x.fits (by decide) (c.code_lt.trans (by decide)) (by decide))
    fun w => need_of (by simp [Vec2.fields]) (pick_of c.ofCode_code (Vec2.decodes_fin (mk := (.fcmp · c)) w w fun _ => rfl))

theorem roundTrips_ffma (x : Vec3) (k : Rnd) : RoundTrips (.ffma x k) :=
  .of (congrArg some (x.raw_mod _ _)) (fun _ => x.fits (by decide) k.mod_lt)
    fun w => rounding_of rfl rfl
      (Vec3.decodes_fin (mk := (.ffma · k)) (and_four w).1 (fun h => by cases h) w)

theorem roundTrips_frnd (x : Vec1) (k : Rnd) : RoundTrips (.frnd x k) :=
  .of (congrArg some (x.raw_mod _ _)) (fun _ => x.fits (by decide) k.mod_lt (by decide))
    fun w => rounding_of rfl rfl (Vec1.decodes_fin (mk := (.frnd · k)) (and_two w).1 w)

theorem roundTrips_fclass (x : Vec1) (r : Reading) (e : BitVec 6) : RoundTrips (.fclass x r e) :=
  .of (r := x.fields 0x47 r.code e.toNat) rfl (fun _ => x.fits (by decide) (r.code_lt.trans (by decide)) e.isLt)
    fun w => need_of (decide_eq_true r.code_lt_eight) (pick_of (reading_of (k := 0) (x := r) (by simp [Vec1.fields]))
      ((Vec1.decodes (and_two w).1 _ _ _ _).trans (fin_of (by simp [Vec1.fields]) w)))

theorem roundTrips_unpack (x : Vec1) (r : Reading) (e : BitVec 6) : RoundTrips (.unpack x r e) :=
  .of (r := x.fields 0x4C r.code e.toNat) rfl (fun _ => x.fits (by decide) (r.code_lt.trans (by decide)) e.isLt)
    fun w => need_of (decide_eq_true r.code_lt_eight) (pick_of (reading_of (k := 0) (x := r) (by simp [Vec1.fields]))
      ((Vec1.decodes (and_three w).1 _ _ _ _).trans (fin_of (by simp [Vec1.fields]) w)))

theorem roundTrips_cvt (x : Vec2) (src : Ty) (k : Rnd) (r : Reading) : RoundTrips (.cvt x src k r) :=
  .of (congrArg some (x.raw_mod_simm _ _ _))
    (fun _ => x.fits (by decide) (k.code_above_lt r) (src.code_lt.trans (by decide)))
    fun w => need_of (decide_eq_true src.code_lt) (pick_of (k.ofCode_above r) (pick_of (reading_of rfl)
      (pick_of src.ofCode_code (Vec2.decodes_fin (mk := (.cvt · src k r)) (and_five w).1 w fun h => by cases h))))

theorem roundTrips_pack (x : Vec3) (k : Rnd) (r : Reading) : RoundTrips (.pack x k r) :=
  .of (congrArg some (x.raw_mod _ _)) (fun _ => x.fits (by decide) (k.code_above_lt r))
    fun w => by
      obtain ⟨hx, imm, -⟩ := and_five w
      exact need_of rfl (pick_of (k.ofCode_above r) (pick_of (reading_of rfl)
        (Vec3.decodes_fin (mk := (.pack · k r)) hx (fun _ => imm) w)))

theorem roundTrips_bscale (x : Vec3) (r : Reading) : RoundTrips (.bscale x r) :=
  .of (congrArg some (x.raw_mod _ _)) (fun _ => x.fits (by decide) (r.code_lt.trans (by decide)))
    fun w => need_of (decide_eq_true r.code_lt_eight) (pick_of (reading_of (k := 0) (x := r) (by simp [Vec3.fields]))
      (Vec3.decodes_fin (mk := (.bscale · r)) (and_two w).1 (fun _ => (and_two w).2) w))

end Sys2Proof
end

section
/-! Control, address, move and register instructions, tables, and squad instructions: encoded, then decoded (R69, R103 to
R107, R114 to R122, R148, R193 to R207). -/

namespace Sys2Proof

theorem ite_of {α : Type} {p : Prop} [Decidable p] {k e d : α} (h : p) (hk : k = d) : (if p then k else e) = d :=
  (if_pos h).trans hk

theorem ite_not_of {α : Type} {p : Prop} [Decidable p] {k e d : α} (h : ¬ p) (he : e = d) : (if p then k else e) = d :=
  (if_neg h).trans he

/-! ### Control (R103 to R107) -/

theorem roundTrips_bra (c : Com) (o : Word) : RoundTrips (.bra c o) :=
  .of rfl (fun _ => by simp) fun w => f96i_of rfl rfl (need_of rfl (fin_of (by simp [Raw.imm32]) w))

theorem roundTrips_jmp (c : Com) (t : DWord) : RoundTrips (.jmp c t) :=
  .of rfl (fun _ => by simp) fun w => need_of rfl (need_of rfl (fin_of (by simp) w))

theorem roundTrips_brx (c : Com) (a : Opnd) : RoundTrips (.brx c a) :=
  .of rfl (fun _ => by simp) fun w => f64_of rfl rfl (need_of rfl (fin_of (by simp [Opnd.ofCode_code w]) w))

theorem roundTrips_call (c : Com) (l : Opnd) (o : Word) : RoundTrips (.call c l o) :=
  .of rfl (fun _ => by simp) fun w =>
    f96i_of rfl rfl (need_of rfl (fin_of (by simp [Opnd.ofCode_code w, Raw.imm32]) w))

theorem roundTrips_callr (c : Com) (l a : Opnd) : RoundTrips (.callr c l a) :=
  .of rfl (fun _ => by simp) fun w => by
    obtain ⟨hl, ha⟩ := and_two w
    exact f64_of rfl rfl (need_of rfl (fin_of (by simp [Opnd.ofCode_code, hl, ha]) w))

theorem roundTrips_ret (c : Com) (a : Opnd) : RoundTrips (.ret c a) :=
  .of rfl (fun _ => by simp) fun w => f64_of rfl rfl (need_of rfl (fin_of (by simp [Opnd.ofCode_code w]) w))

theorem roundTrips_exit (c : Com) : RoundTrips (.exit c) :=
  .of rfl (fun _ => by simp) fun w => f64_of rfl rfl (need_of rfl (fin_of (by simp) w))

theorem roundTrips_yield (c : Com) : RoundTrips (.yield c) :=
  .of rfl (fun _ => by simp) fun w => f64_of rfl rfl (need_of rfl (fin_of (by simp) w))

theorem roundTrips_halt (c : Com) : RoundTrips (.halt c) :=
  .of rfl (fun _ => by simp) fun w => f64_of rfl rfl (need_of rfl (fin_of (by simp) w))

/-! ### Addresses, predicates and moves (R114 to R121) -/

theorem roundTrips_swin (c : Com) (o : Out) (cluster : Bool) (a : Opnd) : RoundTrips (.swin c o cluster a) :=
  .of rfl (fun _ => by simp [Raw.withOut]) fun w => by
    obtain ⟨ho, ha⟩ := and_two w
    exact need_of rfl (need_of (by simp [Raw.withOut])
      (fin_of (by simp [Raw.withOut, Raw.out_mk ho, Opnd.ofCode_code ha]) w))

theorem roundTrips_plut (c : Com) (o : Out) (t : BitVec 8) (a b k : Opnd) : RoundTrips (.plut c o t a b k) := by
  have ht := t.isLt
  refine .of rfl (fun _ => ?_) fun w => ?_
  · simp [Raw.withOut, Nat.mod_lt, k.code_lt.trans]
    omega
  · obtain ⟨ho, ha, hb, hk⟩ := and_four w
    refine need_of rfl (need_of ?_ (fin_of ?_ w))
    · simp [Raw.withOut]
      omega
    · simp [Raw.withOut, Raw.out_mk ho, Raw.opc, Opnd.ofCode_code, ha, hb, hk, Nat.div_add_mod']

theorem roundTrips_pmovGet (c : Com) (o : Out) : RoundTrips (.pmovGet c o) :=
  .of rfl (fun _ => by simp [Raw.withOut]) fun w =>
    need_of rfl (need_of rfl (need_of rfl (fin_of (by simp [Raw.withOut, Raw.out_mk w]) w)))

theorem roundTrips_pmovSet (c : Com) (lt : BitVec 2) (a : Opnd) : RoundTrips (.pmovSet c lt a) :=
  .of rfl (fun _ => by simp) fun w =>
    need_of rfl (need_of rfl (need_of rfl (fin_of (by simp [Opnd.ofCode_code w]) w)))

theorem roundTrips_movi (c : Com) (o : Out) (ty : Ty) (i : DWord) (wide : Bool) : RoundTrips (.movi c o ty i wide) := by
  have hty := ty.code_lt
  refine .of rfl (fun w => ?_) fun w => ?_
  · obtain ⟨-, fits⟩ := and_two w
    cases wide with
    | true => simp [Raw.withOut, hty.trans]
    | false =>
      have hi : i.toNat < 4294967296 := of_decide_eq_true (and_two fits).2
      simp [Raw.withOut, hty.trans, hi]
  · obtain ⟨ho, -⟩ := and_two w
    refine need_of ?_ (need_of ?_ (pick_of (x := ty) ?_ (fin_of ?_ w)))
    · cases wide <;> rfl
    · simp [Raw.withOut, Raw.variant]
    · simp [Raw.ty]
    · cases wide <;> simp [Raw.withOut, Raw.out_mk ho]

theorem roundTrips_movsReadWp (c : Com) (n : BitVec 3) (d : Opnd) : RoundTrips (.movsReadWp c n d) :=
  .of rfl (fun _ => by simp) fun w => by
    obtain ⟨-, hd⟩ := and_two w
    exact f64_of rfl rfl (need_of rfl (ite_of n.isLt (need_of rfl (fin_of (by simp [Opnd.ofCode_code hd]) w))))

theorem roundTrips_movsReadTc (c : Com) (n : BitVec 4) (d : Opnd) : RoundTrips (.movsReadTc c n d) := by
  have hn := n.isLt
  refine .of rfl (fun _ => ?_) fun w => ?_
  · simp
    omega
  · obtain ⟨-, hd⟩ := and_two w
    refine f64_of rfl rfl (need_of rfl (ite_not_of ?_ (ite_not_of ?_ (ite_of ?_ (need_of rfl (fin_of ?_ w))))))
    · simp
      omega
    · simp
    · simp
      omega
    · simp [Opnd.ofCode_code hd, tile_add]

theorem roundTrips_movsWriteTc (c : Com) (n : BitVec 4) (a : Opnd) : RoundTrips (.movsWriteTc c n a) := by
  have hn := n.isLt
  refine .of rfl (fun _ => ?_) fun w => ?_
  · simp
    omega
  · obtain ⟨-, ha⟩ := and_two w
    refine f64_of rfl rfl (need_of rfl (ite_not_of ?_ (ite_not_of ?_ (ite_not_of ?_ (ite_of ?_ (need_of rfl
      (fin_of ?_ w)))))))
    · simp
      omega
    · simp
      omega
    · simp
    · simp
      omega
    · simp [Opnd.ofCode_code ha, tile_add]

/-! ### Control and status registers (R122) -/

theorem roundTrips_csrr (c : Com) (n : BitVec 12) (d : Opnd) : RoundTrips (.csrr c n d) :=
  .of rfl (fun _ => by simp) fun w => by
    obtain ⟨-, hd⟩ := and_two w
    exact f96i_of rfl rfl (need_of (by simp) (fin_of (by simp [Opnd.ofCode_code hd]) w))

theorem roundTrips_csrw (c : Com) (n : BitVec 12) (a : Opnd) : RoundTrips (.csrw c n a) :=
  .of rfl (fun _ => by simp) fun w => by
    obtain ⟨-, ha⟩ := and_two w
    exact f96i_of rfl rfl (need_of (by simp) (fin_of (by simp [Opnd.ofCode_code ha]) w))

theorem roundTrips_csrwSet (c : Com) (n : BitVec 12) (a : Opnd) : RoundTrips (.csrwSet c n a) :=
  .of rfl (fun _ => by simp) fun w => by
    obtain ⟨-, ha⟩ := and_two w
    exact f96i_of rfl rfl (need_of (by simp) (fin_of (by simp [Opnd.ofCode_code ha]) w))

theorem roundTrips_csrwClr (c : Com) (n : BitVec 12) (a : Opnd) : RoundTrips (.csrwClr c n a) :=
  .of rfl (fun _ => by simp) fun w => by
    obtain ⟨-, ha⟩ := and_two w
    exact f96i_of rfl rfl (need_of (by simp) (fin_of (by simp [Opnd.ofCode_code ha]) w))

/-! ### Tables (R148 to R154) -/

/-- A slot with a flag above it. -/
theorem slot_lt (t : BitVec 4) (b : Bool) : t.toNat + 16 * boolNat b < 32 := flagged_lt t.isLt b

@[simp] theorem slot_lt_64 (t : BitVec 4) (b : Bool) : t.toNat + 16 * boolNat b < 64 :=
  (slot_lt t b).trans (by decide)

@[simp] theorem slot_flag (t : BitVec 4) (b : Bool) : 16 ≤ t.toNat + 16 * boolNat b ↔ b = true := flagged_le t.isLt b

@[simp] theorem tile_slot (t : BitVec 4) (b : Bool) : tile (t.toNat + 16 * boolNat b) = t := ofNat_toNat_add t rfl _

theorem roundTrips_tblCommit (c : Com) (t : BitVec 4) (d : Opnd) : RoundTrips (.tblCommit c t d) :=
  .of rfl (fun _ => by simp) fun w => by
    obtain ⟨-, hd⟩ := and_two w
    exact f64_of rfl rfl (need_of (by simp) (fin_of (by simp [Opnd.ofCode_code hd, tile_toNat]) w))

theorem roundTrips_tblEval (c : Com) (ty : Ty) (k : Rnd) (t : BitVec 4) (d a : Opnd) :
    RoundTrips (.tblEval c ty k t d a) :=
  .of rfl (fun _ => by simp [ty.code_lt.trans, k.mod_lt]) fun w => by
    obtain ⟨operands, -⟩ := and_two w
    obtain ⟨-, hd, ha, -⟩ := and_five operands
    exact need_of rfl (need_of (by simp [Raw.variant, Raw.noVec]) (pick_of ty.ofCode_mod (pick_of (x := k)
      (by simp [Raw.rnd]) (fin_of (by simp [Opnd.ofCode_code, hd, ha, tile_toNat]) w))))

theorem roundTrips_tblQuery (c : Com) (v : Bool) (t : BitVec 4) (d : Opnd) : RoundTrips (.tblQuery c v t d) :=
  .of rfl (fun _ => by simp) fun w => by
    obtain ⟨-, hd⟩ := and_two w
    exact f64_of rfl rfl (need_of (by simp [slot_lt]) (fin_of (by simp [Opnd.ofCode_code hd]) w))

theorem roundTrips_tblDrop (c : Com) (v : Bool) (t : BitVec 4) : RoundTrips (.tblDrop c v t) :=
  .of rfl (fun _ => by simp) fun w => f64_of rfl rfl (need_of (by simp [slot_lt]) (fin_of (by simp) w))

/-! ### Squad instructions (R193 to R201) -/

theorem roundTrips_shfl (c : Com) (f : ShflMode) (k : BitVec 5) (wide : Bool) (d a : Opnd) (m : Word) :
    RoundTrips (.shfl c f k wide d a m) :=
  .of rfl (fun _ => by simp [flagged_lt k.isLt, f.code_lt.trans]) fun w => by
    obtain ⟨-, hd, ha, -⟩ := and_four w
    exact f96i_of rfl rfl (need_of (by simp) (pick_of f.ofCode_code (fin_of (by
      simp [Opnd.ofCode_code, hd, ha, Raw.imm32, Raw.variant, flagged_le k.isLt, ofNat_toNat_add]) w)))

theorem roundTrips_vote (c : Com) (f : VoteForm) (d a : Opnd) (m : Word) : RoundTrips (.vote c f d a m) :=
  .of rfl (fun _ => by simp [f.code_lt.trans]) fun w => by
    obtain ⟨-, hd, ha⟩ := and_three w
    exact f96i_of rfl rfl (need_of (by simp) (pick_of f.ofCode_code
      (fin_of (by simp [Opnd.ofCode_code, hd, ha, Raw.imm32]) w)))

theorem roundTrips_matchKey (c : Com) (wide : Bool) (d a : Opnd) (m : Word) : RoundTrips (.matchKey c wide d a m) :=
  .of rfl (fun _ => by cases wide <;> simp) fun w => by
    obtain ⟨-, hd, ha⟩ := and_three w
    refine f96i_of rfl rfl (need_of ?_ (fin_of ?_ w))
    · simp
    · cases wide <;> simp [Opnd.ofCode_code, hd, ha, Raw.imm32, Raw.variant]

theorem roundTrips_sred (c : Com) (o : SquadOp) (d a : Opnd) (m : Word) : RoundTrips (.sred c o d a m) :=
  .of rfl (fun _ => by simp) fun w => by
    obtain ⟨-, hd, ha⟩ := and_three w
    exact f96i_of rfl rfl (need_of rfl (pick_of o.ofCode_code
      (fin_of (by simp [Opnd.ofCode_code, hd, ha, Raw.imm32]) w)))

theorem roundTrips_sscan (c : Com) (o : SquadOp) (e : Bool) (d a : Opnd) (m : Word) : RoundTrips (.sscan c o e d a m) :=
  .of rfl (fun _ => by cases e <;> simp) fun w => by
    obtain ⟨-, hd, ha⟩ := and_three w
    exact f96i_of rfl rfl (need_of (by simp) (pick_of o.ofCode_code
      (fin_of (by simp [Opnd.ofCode_code, hd, ha, Raw.imm32]) w)))

theorem roundTrips_ssync (c : Com) (m : Word) : RoundTrips (.ssync c m) :=
  .of rfl (fun _ => by simp) fun w => f96i_of rfl rfl (need_of rfl (fin_of (by simp [Raw.imm32]) w))

/-- Three flags side by side. -/
theorem flags_read (x y z : Bool) : boolNat x + 2 * boolNat y + 4 * boolNat z < 8 ∧
    (boolNat x + 2 * boolNat y + 4 * boolNat z).testBit 0 = x ∧
    (boolNat x + 2 * boolNat y + 4 * boolNat z).testBit 1 = y ∧
    (boolNat x + 2 * boolNat y + 4 * boolNat z).testBit 2 = z := by
  cases x <;> cases y <;> cases z <;> decide

theorem two_flags_read (x y : Bool) : boolNat x + 2 * boolNat y < 4 ∧ (boolNat x + 2 * boolNat y).testBit 0 = x ∧
    (boolNat x + 2 * boolNat y).testBit 1 = y := by
  cases x <;> cases y <;> decide

theorem roundTrips_ddot (c : Com) (o : Out) (x ua ub s : Bool) (a b k : Opnd) :
    RoundTrips (.ddot c o x ua ub s a b k) := by
  obtain ⟨fit, bit0, bit1, bit2⟩ := flags_read x ua ub
  refine .of rfl (fun _ => by simp [Raw.withOut, fit.trans, k.code_lt.trans]) fun w => ?_
  obtain ⟨ho, ha, hb, hk⟩ := and_four w
  refine need_of rfl (need_of (by simp [Raw.withOut, fit]) (fin_of ?_ w))
  simp only [bit0, bit1, bit2]
  simp [Raw.withOut, Raw.out_mk ho, Raw.opc, Opnd.ofCode_code, ha, hb, hk]

theorem roundTrips_dl2 (c : Com) (o : Out) (k : Rnd) (r : Reading) (a b e : Opnd) :
    RoundTrips (.dl2 c o k r a b e) := by
  refine .of rfl (fun _ => ?_) fun w => ?_
  · simp [Raw.withOut, k.code_above_lt r, e.code_lt.trans]
  · obtain ⟨ho, ha, hb, he, -⟩ := and_five w
    refine need_of rfl (need_of ?_ (pick_of (k.ofCode_above r) (pick_of (reading_of rfl) (fin_of ?_ w))))
    · simp [Raw.withOut]
    · simp [Raw.withOut, Raw.out_mk ho, Raw.opc, Opnd.ofCode_code, ha, hb, he]

/-! ### The selection unit (R202 to R207) -/

/-- SUB of SEL.INIT (R203). -/
theorem SelKey.sub_read (n : BitVec 2) (k : SelKey) (mx : Bool) :
    n.toNat + 4 * k.code + 16 * boolNat mx < 32 ∧ (n.toNat + 4 * k.code + 16 * boolNat mx).testBit 4 = mx ∧
    (n.toNat + 4 * k.code + 16 * boolNat mx) / 4 % 4 = k.code ∧
    BitVec.ofNat 2 (n.toNat + 4 * k.code + 16 * boolNat mx) = n := by
  cases k <;> cases mx <;> revert n <;> decide

theorem roundTrips_selInit (c : Com) (k : SelKey) (mx : Bool) (n : BitVec 2) (d a : Opnd) :
    RoundTrips (.selInit c k mx n d a) := by
  obtain ⟨fit, top, key, low⟩ := SelKey.sub_read n k mx
  refine .of rfl (fun _ => by simp [fit.trans]) fun w => ?_
  obtain ⟨-, hd, ha⟩ := and_three w
  exact f64_of rfl rfl (need_of (by simp [fit]) (pick_of (x := k) (by simp [key])
    (fin_of (by simp [Opnd.ofCode_code, hd, ha, low, top]) w)))

theorem roundTrips_selPush (c : Com) (n : BitVec 2) (a b : Opnd) : RoundTrips (.selPush c n a b) :=
  .of rfl (fun _ => by simp) fun w => by
    obtain ⟨-, ha, hb⟩ := and_three w
    exact f64_of rfl rfl (need_of (by simp) (fin_of (by simp [Opnd.ofCode_code, ha, hb]) w))

/-- SUB of SEL.DRAIN above the context's number (R203). -/
def DrainForm.bits : DrainForm → Nat
  | .plain => 0
  | .cnt => 4
  | .fin => 16

theorem DrainForm.bits_read (f : DrainForm) (n : BitVec 2) :
    (n.toNat + f.bits).testBit 2 = (f == .cnt) ∧ (n.toNat + f.bits).testBit 4 = (f == .fin) ∧
    (n.toNat + f.bits).testBit 3 = false ∧ n.toNat + f.bits < 32 ∧ BitVec.ofNat 2 (n.toNat + f.bits) = n := by
  cases f <;> revert n <;> decide

theorem roundTrips_selDrain (c : Com) (f : DrainForm) (n : BitVec 2) (d a : Opnd) : RoundTrips (.selDrain c f n d a) := by
  obtain ⟨count, free, res, fit, low⟩ := f.bits_read n
  refine .of (r := { c.raw 0 0x65 with dst := d.code, opa := a.code, sub := n.toNat + f.bits }) (by cases f <;> rfl)
    (fun _ => by simp [fit.trans]) fun w => ?_
  obtain ⟨-, hd, ha, -⟩ := and_four w
  refine f64_of rfl rfl (need_of (by simp [fit, res]) ?_)
  simp only [Com.raw_eq, count, free]
  cases f <;> exact fin_of (by simp [Opnd.ofCode_code, hd, ha, low]) w

end Sys2Proof
end

section
/-! Memory instructions and barriers: encoded, then decoded (R47, R48, R114, R150, R256 to R272, R321). -/

namespace Sys2Proof

/-- The fields of a memory instruction. -/
def MemOp.fields (m : MemOp) (c : Com) (n ord opc dst sub mod : Nat) : Raw :=
  { c.raw m.len n with
    dst := dst, opa := m.base.code, opb := m.index.code, sub := sub, mod := mod, hi := m.hi ord opc }

section
variable {m : MemOp} {c : Com} {n ord opc dst sub mod : Nat}

theorem MemOp.fits (hn : 0 < n ∧ n < 255) (hd : dst < 512) (hs : sub < 64) (hm : mod < 64) :
    (m.fields c n ord opc dst sub mod).Fits := by
  simp [MemOp.fields, hn, hd, hs, hm]

@[simp] theorem MemOp.com_fields : (m.fields c n ord opc dst sub mod).com = c := by simp [MemOp.fields]

theorem MemOp.mem_fields (w : m.wf = true) : (m.fields c n ord opc dst sub mod).mem = m :=
  Raw.mem_of w rfl rfl rfl rfl

@[simp] theorem MemOp.dst_fields : (m.fields c n ord opc dst sub mod).dst = dst := rfl
@[simp] theorem MemOp.sub_fields : (m.fields c n ord opc dst sub mod).sub = sub := rfl
@[simp] theorem MemOp.mod_fields : (m.fields c n ord opc dst sub mod).mod = mod := rfl

/-- A memory instruction of F96-M. -/
theorem narrow_of {wide : Bool} (h : (!m.wide) = true) : (if m.wide then wide else true) = true := by
  rw [Bool.not_eq_true'] at h
  rw [h]; rfl

/-- A memory instruction of F128-M. -/
theorem wide_of {narrow : Bool} (h : m.wide = true) : (if m.wide then true else narrow) = true := by rw [h]; rfl

/-- A memory instruction of both. -/
theorem either_of : (if m.wide then true else true) = true := ite_self true

end

theorem roundTrips_lea (c : Com) (o : Out) (m : MemOp) : RoundTrips (.lea c o m) := by
  refine .of (r := (m.fields c 0x30 0 0 0 0 0).withOut o) (congrArg some (by rw [m.raw_eq]; rfl))
    (fun _ => by simp [MemOp.fields, Raw.withOut]) fun w => ?_
  obtain ⟨ho, hm⟩ := and_two w
  refine need_of ?_ (need_of ?_ (fin_of ?_ w))
  · simp [MemOp.fields, Raw.withOut, MemOp.len]
  · rw [Raw.memRes_of (m := m) rfl rfl, Raw.ord_of (m := m) rfl (by decide), Raw.opcM_zero (m := m) rfl rfl]; rfl
  · rw [Raw.mem_of hm rfl rfl rfl rfl]
    simp [MemOp.fields, Raw.withOut, Raw.out_mk ho]

theorem roundTrips_leah (c : Com) (o : Out) (m : MemOp) : RoundTrips (.leah c o m) := by
  refine .of (r := (m.fields c 0x31 0 0 0 0 0).withOut o) (congrArg some (by rw [m.raw_eq]; rfl))
    (fun _ => by simp [MemOp.fields, Raw.withOut]) fun w => ?_
  obtain ⟨ho, hm, -⟩ := and_three w
  refine need_of ?_ (need_of ?_ (fin_of ?_ w))
  · simp [MemOp.fields, Raw.withOut, MemOp.len]
  · rw [Raw.memRes_of (m := m) rfl rfl, Raw.ord_of (m := m) rfl (by decide), Raw.opcM_zero (m := m) rfl rfl]; rfl
  · rw [Raw.mem_of hm rfl rfl rfl rfl]
    simp [MemOp.fields, Raw.withOut, Raw.out_mk ho]

theorem roundTrips_tblLoad (c : Com) (wide : Bool) (t : BitVec 4) (d : Opnd) (m : MemOp) :
    RoundTrips (.tblLoad c wide t d m) :=
  .of (r := m.fields c 0x50 0 0 d.code (t.toNat + 16 * boolNat wide) 0) (congrArg some (by rw [m.raw_eq]; rfl))
    (fun _ => MemOp.fits (by decide) d.code_lt (slot_lt_64 t wide) (by decide)) fun w => by
    obtain ⟨-, hd, hm, narrow⟩ := and_four w
    exact memPlain_of (m := m) rfl rfl (narrow_of narrow) rfl rfl (need_of (by simp [slot_lt])
      (fin_of (by simp [MemOp.mem_fields hm, Opnd.ofCode_code hd]) w))

/-! ### Loads and stores (R134, R135, R256, R260) -/

section
variable {m : MemOp} {c : Com} {n : Nat}

/-- SUB, ORD and MOD of LD and ST. -/
theorem ldst_of {ty : Ty} {q : Bool} {o : MemOrd} {d : Opnd} {k : Ty → Bool → MemOrd → Dec Instr} {x : Dec Instr}
    {r : Raw} (hr : r = m.fields c n o.ord 0 d.code (ty.code + 32 * boolNat q) o.scope) (hk : k ty q o = x) :
    r.ldst k = x := by
  subst hr
  refine memory_of (m := m) rfl rfl either_of rfl (need_of ?_ (pick_of (Ty.ofCode_typed ty q) (pick_of (x := o) ?_ ?_)))
  · rw [Raw.opcM_zero (m := m) rfl rfl]
    simp
  · rw [Raw.ord_of (m := m) rfl o.ord_lt]
    exact o.ofCode_ord_scope
  · rw [← hk]
    simp [Raw.variant, flagged_le ty.code_lt]

/-- SUB, ORD and MOD of LDG and SCT. -/
theorem gather_of {ty : Ty} {cnt : BitVec 2} {o : MemOrd} {d : Opnd} {k : Ty → BitVec 2 → MemOrd → Dec Instr}
    {x : Dec Instr} {r : Raw} (hr : r = m.fields c n o.ord 0 d.code ty.code cnt.toNat) (narrow : (!m.wide) = true)
    (ho : ordGather o = true) (hk : k ty cnt o = x) : r.gather k = x := by
  subst hr
  refine memory_of (m := m) rfl rfl (narrow_of narrow) rfl (need_of ?_ (pick_of ty.ofCode_mod (pick_of (x := o) ?_ ?_)))
  · simp [Raw.variant]
  · rw [Raw.ord_of (m := m) rfl o.ord_lt]
    exact MemOrd.ofCode_of_gather ho
  · simpa using hk

end

theorem roundTrips_ld (c : Com) (ty : Ty) (q : Bool) (o : MemOrd) (d : Opnd) (m : MemOp) :
    RoundTrips (.ld c ty q o d m) :=
  .of (r := m.fields c 0x78 o.ord 0 d.code (ty.code + 32 * boolNat q) o.scope) (congrArg some (by rw [m.raw_eq]; rfl))
    (fun _ => MemOp.fits (by decide) d.code_lt (Ty.typed_lt ty q) (o.scope_lt.trans (by decide))) fun w => by
    obtain ⟨operands, hm⟩ := and_two w
    obtain ⟨-, -, -, -, hd⟩ := and_five operands
    unfold decodeRaw
    refine ldst_of rfl ?_
    exact fin_of (by simp [MemOp.mem_fields hm, Opnd.ofCode_code hd]) w

theorem roundTrips_st (c : Com) (ty : Ty) (q : Bool) (o : MemOrd) (d : Opnd) (m : MemOp) :
    RoundTrips (.st c ty q o d m) :=
  .of (r := m.fields c 0x79 o.ord 0 d.code (ty.code + 32 * boolNat q) o.scope) (congrArg some (by rw [m.raw_eq]; rfl))
    (fun _ => MemOp.fits (by decide) d.code_lt (Ty.typed_lt ty q) (o.scope_lt.trans (by decide))) fun w => by
    obtain ⟨operands, hm, -⟩ := and_three w
    obtain ⟨-, -, -, -, hd⟩ := and_five operands
    unfold decodeRaw
    refine ldst_of rfl ?_
    exact fin_of (by simp [MemOp.mem_fields hm, Opnd.ofCode_code hd]) w

theorem roundTrips_ldg (c : Com) (ty : Ty) (k : BitVec 2) (o : MemOrd) (d : Opnd) (m : MemOp) :
    RoundTrips (.ldg c ty k o d m) :=
  .of (r := m.fields c 0x7A o.ord 0 d.code ty.code k.toNat) (congrArg some (by rw [m.raw_eq]; rfl))
    (fun _ => MemOp.fits (by decide) d.code_lt (ty.code_lt.trans (by decide)) (by simp)) fun w => by
    obtain ⟨operands, hm, narrow, -⟩ := and_four (and_two w).1
    obtain ⟨-, -, ho, hd⟩ := and_four operands
    unfold decodeRaw
    refine gather_of rfl narrow ho ?_
    exact fin_of (by simp [MemOp.mem_fields hm, Opnd.ofCode_code hd]) w

theorem roundTrips_sct (c : Com) (ty : Ty) (k : BitVec 2) (o : MemOrd) (d : Opnd) (m : MemOp) :
    RoundTrips (.sct c ty k o d m) :=
  .of (r := m.fields c 0x7B o.ord 0 d.code ty.code k.toNat) (congrArg some (by rw [m.raw_eq]; rfl))
    (fun _ => MemOp.fits (by decide) d.code_lt (ty.code_lt.trans (by decide)) (by simp)) fun w => by
    obtain ⟨operands, hm, narrow, -⟩ := and_four (and_two w).1
    obtain ⟨-, -, ho, hd⟩ := and_four operands
    unfold decodeRaw
    refine gather_of rfl narrow ho ?_
    exact fin_of (by simp [MemOp.mem_fields hm, Opnd.ofCode_code hd]) w

/-! ### Atomics (R264 to R266) -/

/-- MOD of ATOM and RED: the operation above the scope. -/
theorem AtomOp.mod_read (op : AtomOp) (o : MemOrd) : 8 * op.code + o.scope < 64 ∧ (8 * op.code + o.scope) % 8 = o.scope ∧
    (8 * op.code + o.scope) / 8 = op.code := by
  have := op.code_lt
  have := o.scope_lt
  omega

theorem roundTrips_atom (c : Com) (op : AtomOp) (ty : Ty) (o : MemOrd) (d k : Opnd) (m : MemOp) :
    RoundTrips (.atom c op ty o d k m) := by
  obtain ⟨fit, scope, code⟩ := op.mod_read o
  refine .of (r := m.fields c 0x7C o.ord k.code d.code ty.code (8 * op.code + o.scope))
    (congrArg some (by rw [m.raw_eq]; rfl))
    (fun _ => MemOp.fits (by decide) d.code_lt (ty.code_lt.trans (by decide)) fit) fun w => ?_
  obtain ⟨operands, hk, hm, -, narrow⟩ := and_five w
  obtain ⟨-, hop, -, -, hd⟩ := and_five operands
  have opcM : Opnd.ofCode (m.fields c 0x7C o.ord k.code d.code ty.code (8 * op.code + o.scope)).opcM = k := by
    cases h : m.wide with
    | true => rw [Raw.opcM_of (m := m) rfl rfl h k.code_lt, Opnd.ofCode_code hk]
    | false =>
      rw [h, Bool.false_or] at narrow
      obtain ⟨-, third⟩ := and_two narrow
      rw [Raw.opcM_narrow (m := m) rfl h, of_decide_eq_true third]; rfl
  refine memory_of (m := m) rfl rfl either_of rfl (need_of ?_ (pick_of ty.ofCode_mod (pick_of (x := o) ?_ (fin_of ?_ w))))
  · simp [Raw.variant]
  · rw [Raw.ord_of (m := m) rfl o.ord_lt, MemOp.mod_fields, scope]
    exact o.ofCode_ord_scope
  · rw [opcM, MemOp.mem_fields hm, MemOp.mod_fields, code, AtomOp.ofAtom_code (of_decide_eq_true hop)]
    simp [Opnd.ofCode_code hd]

theorem roundTrips_red (c : Com) (op : AtomOp) (ty : Ty) (o : MemOrd) (d : Opnd) (m : MemOp) :
    RoundTrips (.red c op ty o d m) := by
  obtain ⟨fit, scope, code⟩ := op.mod_read o
  refine .of (r := m.fields c 0x7D o.ord 0 d.code ty.code (8 * op.code + o.scope))
    (congrArg some (by rw [m.raw_eq]; rfl))
    (fun _ => MemOp.fits (by decide) d.code_lt (ty.code_lt.trans (by decide)) fit) fun w => ?_
  obtain ⟨operands, hd, hm, narrow, -⟩ := and_five w
  obtain ⟨-, exch, cas, -, -⟩ := and_five operands
  refine memory_of (m := m) rfl rfl (narrow_of narrow) rfl (need_of ?_ (pick_of ty.ofCode_mod (pick_of (x := o) ?_
    (pick_of (x := op) ?_ (fin_of ?_ w)))))
  · simp [Raw.variant]
  · rw [Raw.ord_of (m := m) rfl o.ord_lt, MemOp.mod_fields, scope]
    exact o.ofCode_ord_scope
  · rw [MemOp.mod_fields, code]
    exact AtomOp.ofRed_code (of_decide_eq_true exch) (of_decide_eq_true cas)
  · simp [MemOp.mem_fields hm, Opnd.ofCode_code hd]

theorem roundTrips_amaxsw (c : Com) (o : MemOrd) (d : Opnd) (m : MemOp) : RoundTrips (.amaxsw c o d m) := by
  refine .of (r := m.fields c 0x7E o.ord 0 d.code 0x0B o.scope) (congrArg some (by rw [m.raw_eq]; rfl))
    (fun _ => MemOp.fits (by decide) d.code_lt (by decide) (o.scope_lt.trans (by decide))) fun w => ?_
  obtain ⟨operands, narrow, -⟩ := and_three w
  obtain ⟨-, -, hd, hm⟩ := and_four operands
  refine memory_of (m := m) rfl rfl (narrow_of narrow) rfl (need_of ?_ (pick_of (x := o) ?_ (fin_of ?_ w)))
  · simp
  · rw [Raw.ord_of (m := m) rfl o.ord_lt]
    exact o.ofCode_ord_scope
  · simp [MemOp.mem_fields hm, Opnd.ofCode_code hd]

/-! ### Fences, hints and the stash (R267 to R272) -/

theorem roundTrips_fence (c : Com) (k : OrdKind) (s : Scope) : RoundTrips (.fence c k s) :=
  .of rfl (fun _ => by simp [k.code_lt.trans, s.code_lt.trans]) fun w =>
    f64_of rfl rfl (need_of (by simp) (pick_of s.ofCode_code (fin_of (by simp) w)))

theorem roundTrips_cctlIi (c : Com) (m : MemOp) : RoundTrips (.cctlIi c m) :=
  .of (r := m.fields c 0x80 0 0 0 0 0) (congrArg some (by rw [m.raw_eq]; rfl))
    (fun _ => MemOp.fits (by decide) (by decide) (by decide) (by decide)) fun w => by
    obtain ⟨-, hm, narrow, -⟩ := and_four w
    exact memPlain_of (m := m) rfl rfl (narrow_of narrow) rfl rfl (need_of rfl (fin_of (by simp [MemOp.mem_fields hm]) w))

theorem roundTrips_cctlEv (c : Com) (m : MemOp) : RoundTrips (.cctlEv c m) :=
  .of (r := m.fields c 0x80 0 0 0 1 0) (congrArg some (by rw [m.raw_eq]; rfl))
    (fun _ => MemOp.fits (by decide) (by decide) (by decide) (by decide)) fun w => by
    obtain ⟨-, hm, narrow, -⟩ := and_four w
    exact memPlain_of (m := m) rfl rfl (narrow_of narrow) rfl rfl (need_of rfl (fin_of (by simp [MemOp.mem_fields hm]) w))

theorem roundTrips_pref (c : Com) (t : PrefTarget) (m : MemOp) : RoundTrips (.pref c t m) :=
  .of (r := m.fields c 0x81 0 0 0 t.code 0) (congrArg some (by rw [m.raw_eq]; rfl))
    (fun _ => MemOp.fits (by decide) (by decide) (t.code_lt.trans (by decide)) (by decide)) fun w => by
    obtain ⟨-, hm, narrow, -⟩ := and_four w
    exact memPlain_of (m := m) rfl rfl (narrow_of narrow) rfl rfl (need_of (by simp)
      (fin_of (by simp [MemOp.mem_fields hm]) w))

theorem roundTrips_stashMap (c : Com) (o k : Opnd) (m : MemOp) : RoundTrips (.stashMap c o k m) :=
  .of (r := m.fields c 0x82 0 k.code o.code 0 0) (congrArg some (by rw [m.raw_eq]; rfl))
    (fun _ => MemOp.fits (by decide) o.code_lt (by decide) (by decide)) fun w => by
    obtain ⟨operands, wide, -⟩ := and_three w
    obtain ⟨-, ho, hk, hm⟩ := and_four operands
    exact memPlain_of (m := m) rfl rfl (wide_of wide) rfl rfl (fin_of (by
      rw [Raw.opcM_of (m := m) rfl rfl wide k.code_lt]
      simp [MemOp.mem_fields hm, Opnd.ofCode_code, ho, hk]) w)

theorem roundTrips_stashMapUn (c : Com) (o k : Opnd) : RoundTrips (.stashMapUn c o k) :=
  .of rfl (fun _ => by simp) fun w => by
    obtain ⟨-, ho, hk⟩ := and_three w
    have code := Nat.mod_eq_of_lt k.code_lt
    refine need_of ?_ (need_of ?_ (need_of ?_ (fin_of ?_ w)))
    · simp [Raw.noVec, Raw.memRes]
    · simp [Raw.ord]
    · simp [Raw.top32]
    · simp [Raw.opcM, Opnd.ofCode_code, ho, hk, code]

theorem roundTrips_stashSync (c : Com) (v : Bool) : RoundTrips (.stashSync c v) :=
  .of rfl (fun _ => by simp) fun w => f64_of rfl rfl (need_of (by simp) (fin_of (by simp) w))

theorem roundTrips_racew (c : Com) (k : BitVec 3) (off : Bool) (l : Opnd) (m : MemOp) :
    RoundTrips (.racew c k off l m) :=
  .of (r := m.fields c 0x84 0 0 l.code (k.toNat + 8 * boolNat off) 0) (congrArg some (by rw [m.raw_eq]; rfl))
    (fun _ => MemOp.fits (by decide) l.code_lt ((carry_lt k off).trans (by decide)) (by decide)) fun w => by
    obtain ⟨operands, narrow, -⟩ := and_three (and_two w).1
    obtain ⟨-, hl, hm⟩ := and_three operands
    exact memPlain_of (m := m) rfl rfl (narrow_of narrow) rfl rfl (need_of (by simp [carry_lt])
      (fin_of (by simp [MemOp.mem_fields hm, Opnd.ofCode_code hl, flagged_le k.isLt, ofNat_toNat_add]) w))

/-! ### Barriers (R321 to R325) -/

theorem roundTrips_barInit (c : Com) (leaf root : Bool) (s : Opnd) (m : MemOp) : RoundTrips (.barInit c leaf root s m) := by
  obtain ⟨fit, bit0, bit1⟩ := two_flags_read leaf root
  refine .of (r := m.fields c 0x8C 0 0 s.code (boolNat leaf + 2 * boolNat root) 0) (congrArg some (by rw [m.raw_eq]; rfl))
    (fun _ => MemOp.fits (by decide) s.code_lt (fit.trans (by decide)) (by decide)) fun w => ?_
  obtain ⟨operands, hm, narrow, -⟩ := and_four w
  obtain ⟨-, -, hs⟩ := and_three operands
  exact memPlain_of (m := m) rfl rfl (narrow_of narrow) rfl rfl (need_of (by simp [fit])
    (fin_of (by simp [MemOp.mem_fields hm, Opnd.ofCode_code hs, bit0, bit1]) w))

theorem roundTrips_barArrive (c : Com) (u : Bool) (d : Opnd) (m : MemOp) : RoundTrips (.barArrive c u d m) :=
  .of (r := m.fields c 0x8D 0 0 d.code (boolNat u) 0) (congrArg some (by rw [m.raw_eq]; rfl))
    (fun _ => MemOp.fits (by decide) d.code_lt (by simp) (by decide)) fun w => by
    obtain ⟨-, hd, hm, narrow, -⟩ := and_five w
    exact memPlain_of (m := m) rfl rfl (narrow_of narrow) rfl rfl (need_of (by simp)
      (fin_of (by simp [MemOp.mem_fields hm, Opnd.ofCode_code hd]) w))

theorem roundTrips_barExpect (c : Com) (u : Bool) (d k : Opnd) (m : MemOp) : RoundTrips (.barExpect c u d k m) :=
  .of (r := m.fields c 0x8E 0 k.code d.code (boolNat u) 0) (congrArg some (by rw [m.raw_eq]; rfl))
    (fun _ => MemOp.fits (by decide) d.code_lt (by simp) (by decide)) fun w => by
    obtain ⟨operands, wide, -⟩ := and_three w
    obtain ⟨-, hd, hk, hm⟩ := and_four operands
    exact memPlain_of (m := m) rfl rfl (wide_of wide) rfl rfl (need_of (by simp) (fin_of (by
      rw [Raw.opcM_of (m := m) rfl rfl wide k.code_lt]
      simp [MemOp.mem_fields hm, Opnd.ofCode_code, hd, hk]) w))

theorem roundTrips_barWait (c : Com) (s : Opnd) (m : MemOp) : RoundTrips (.barWait c s m) :=
  .of (r := m.fields c 0x8F 0 0 s.code 0 0) (congrArg some (by rw [m.raw_eq]; rfl))
    (fun _ => MemOp.fits (by decide) s.code_lt (by decide) (by decide)) fun w => by
    obtain ⟨-, hs, hm, narrow, -⟩ := and_five w
    exact memPlain_of (m := m) rfl rfl (narrow_of narrow) rfl rfl (need_of rfl
      (fin_of (by simp [MemOp.mem_fields hm, Opnd.ofCode_code hs]) w))

theorem roundTrips_barTest (c : Com) (d : Opnd) (m : MemOp) : RoundTrips (.barTest c d m) :=
  .of (r := m.fields c 0x90 0 0 d.code 0 0) (congrArg some (by rw [m.raw_eq]; rfl))
    (fun _ => MemOp.fits (by decide) d.code_lt (by decide) (by decide)) fun w => by
    obtain ⟨-, hd, hm, narrow, -⟩ := and_five w
    exact memPlain_of (m := m) rfl rfl (narrow_of narrow) rfl rfl (need_of rfl
      (fin_of (by simp [MemOp.mem_fields hm, Opnd.ofCode_code (Opnd.canon_of_isV hd)]) w))

end Sys2Proof
end

section
/-! Tile, copy, timeline and system instructions: encoded, then decoded (R215 to R229, R306 to R315, R326 to R330, R348 to
R361, R433 to R436). -/

namespace Sys2Proof

/-! ### Tiles (R215 to R229) -/

theorem roundTrips_tcfg (c : Com) (t : BitVec 4) (s : SrcB) : RoundTrips (.tcfg c t s) := by
  cases s with
  | op a =>
    refine .of rfl (fun _ => by simp) fun w => ?_
    obtain ⟨-, ha⟩ := and_two w
    have ha : a.canon = true := ha
    refine matrix_of rfl rfl rfl rfl (need_of ?_ (ite_of rfl (need_of ?_ (fin_of ?_ w))))
    · simp [hiT]
    · simp [Raw.top32, hiT]
    · simp [Raw.td, hiT, tile_toNat, Opnd.ofCode_code ha]
  | imm v =>
    refine .of rfl (fun _ => by simp) fun w => ?_
    refine matrix_of rfl rfl rfl rfl (need_of ?_ (ite_not_of (by simp) (need_of rfl (fin_of ?_ w))))
    · simp [hiT]
    · simp [Raw.td, Raw.top32, hiT, tile_toNat]

theorem roundTrips_tzero (c : Com) (al : Bool) (t : BitVec 4) (d : Opnd) : RoundTrips (.tzero c al t d) :=
  .of rfl (fun _ => by simp) fun w => by
    obtain ⟨-, hd⟩ := and_two w
    exact matrix_of rfl rfl rfl rfl (need_of (by simp [hiT])
      (fin_of (by simp [Raw.td, hiT, tile_toNat, Opnd.ofCode_code hd]) w))

theorem roundTrips_tld (c : Com) (t : BitVec 4) (d r o : Opnd) : RoundTrips (.tld c t d r o) :=
  .of rfl (fun _ => by simp) fun w => by
    obtain ⟨-, hd, hr, ho⟩ := and_four w
    exact matrix_of rfl rfl rfl rfl (need_of (by simp [hiT])
      (fin_of (by simp [Raw.td, hiT, tile_toNat, Opnd.ofCode_code, hd, hr, ho]) w))

/-- XCTL of TST: the rounding field below .sat (R225). -/
theorem Rnd.xctl_read (k : Rnd) (s : Bool) : k.code + 8 * boolNat s < 16 ∧ (k.code + 8 * boolNat s) % 8 = k.code ∧
    (8 ≤ k.code + 8 * boolNat s ↔ s = true) :=
  ⟨flagged_lt k.code_lt s, flagged_mod k.code_lt s, flagged_le k.code_lt s⟩

theorem roundTrips_tst (c : Com) (t : BitVec 4) (k : Rnd) (s : Bool) (d r o : Opnd) : RoundTrips (.tst c t k s d r o) := by
  obtain ⟨fit, rnd, sat⟩ := k.xctl_read s
  have cut := Nat.mod_eq_of_lt (fit.trans (by decide : 16 < 4096))
  refine .of rfl (fun _ => by simp) fun w => ?_
  obtain ⟨-, hd, hr, ho, -⟩ := and_five w
  refine matrix_of rfl rfl rfl rfl (need_of ?_ (pick_of (x := k) ?_ (fin_of ?_ w)))
  · simp [Raw.td, Raw.xctl, Raw.top32, hiT, cut, fit]
  · simp [Raw.xctl, hiT, cut, rnd]
  · simp [Raw.ta, Raw.xctl, hiT, cut, sat, tile_toNat, Opnd.ofCode_code, hd, hr, ho]

/-- XCTL of MMA and MMAT (R215, R216): the accumulator source in bits 0 and 2, .scale in bit 1, ACC above them. -/
theorem AccSrc.xctl_read (cs : AccSrc) (scaled : Bool) (acc : AccFmt) :
    cs.xctl + 2 * boolNat scaled + 8 * acc.code < 32 ∧
    (cs.xctl + 2 * boolNat scaled + 8 * acc.code).testBit 0 = cs.xctl.testBit 0 ∧
    (cs.xctl + 2 * boolNat scaled + 8 * acc.code).testBit 1 = scaled ∧
    (cs.xctl + 2 * boolNat scaled + 8 * acc.code).testBit 2 = cs.xctl.testBit 2 ∧
    (cs.xctl + 2 * boolNat scaled + 8 * acc.code) / 8 % 4 = acc.code := by
  cases cs <;> simp only [AccSrc.xctl] <;> cases scaled <;> cases acc <;> decide

theorem AccSrc.tc_lt (cs : AccSrc) : cs.tc < 16 := by
  cases cs with
  | tile t => exact t.isLt
  | _ => decide

theorem accSrc_of {r : Raw} {cs : AccSrc} {k : AccSrc → Dec Instr} {d : Dec Instr}
    (bit0 : r.xctl.testBit 0 = cs.xctl.testBit 0) (bit2 : r.xctl.testBit 2 = cs.xctl.testBit 2) (tc : r.tc = cs.tc)
    (hk : k cs = d) : r.accSrc k = d := by
  rw [Raw.accSrc, bit0, bit2]
  cases cs with
  | tile t =>
    have field : r.tc = t.toNat := tc
    simp only [AccSrc.xctl, Nat.zero_testBit, field, tile_toNat]
    exact hk
  | inPlace => exact need_of (by rw [tc]; rfl) hk
  | zero => exact need_of (by rw [tc]; rfl) hk

theorem roundTrips_mma (c : Com) (td ta tb : BitVec 4) (cs : AccSrc) (acc : AccFmt) (s : Option Opnd) (k : BitVec 10)
    (d : Opnd) : RoundTrips (.mma c td ta tb cs acc s k d) := by
  obtain ⟨fit, bit0, bit1, bit2, fmt⟩ := cs.xctl_read s.isSome acc
  generalize hx : cs.xctl + 2 * boolNat s.isSome + 8 * acc.code = x at fit bit0 bit1 bit2 fmt
  have cut := Nat.mod_eq_of_lt (fit.trans (by decide : 32 < 4096))
  refine .of (r := { c.raw 2 0x6C with
    dst := d.code, opa := s.elim 0 Opnd.code, hi := hiT td.toNat ta.toNat tb.toNat cs.tc 0 x k.toNat })
    (by rw [← hx]; cases s <;> rfl) (fun _ => by cases s <;> simp) fun w => ?_
  obtain ⟨-, hd, hs⟩ := and_three w
  refine matrix_of rfl rfl rfl rfl (need_of ?_ (need_of ?_ (accSrc_of (cs := cs) ?_ ?_ ?_ (fin_of ?_ w))))
  · simp [Raw.xctl, Raw.top32, hiT, cut, fit]
  · cases s <;> simp [Raw.xctl, hiT, cut, bit1]
  · simp [Raw.xctl, hiT, cut, ← bit0]
  · simp [Raw.xctl, hiT, cut, bit2]
  · simp [Raw.tc, hiT, Nat.mod_eq_of_lt cs.tc_lt]
  · cases s with
    | none => simp [Raw.xctl, Raw.td, Raw.ta, Raw.tb, Raw.top32, hiT, cut, bit1, fmt, tile_toNat, Opnd.ofCode_code hd]
    | some o =>
      obtain ⟨ho, -⟩ := and_three hs
      simp [Raw.xctl, Raw.td, Raw.ta, Raw.tb, Raw.top32, hiT, cut, bit1, fmt, tile_toNat, Opnd.ofCode_code, hd, ho]

theorem roundTrips_mmat (c : Com) (td ta tb : BitVec 4) (cs : AccSrc) (k : BitVec 10) (d : Opnd) :
    RoundTrips (.mmat c td ta tb cs k d) := by
  have cut : cs.xctl % 4096 = cs.xctl := by cases cs <;> rfl
  refine .of rfl (fun _ => by simp) fun w => ?_
  obtain ⟨-, hd⟩ := and_two w
  refine matrix_of rfl rfl rfl rfl (need_of ?_ (accSrc_of (cs := cs) ?_ ?_ ?_ (fin_of ?_ w)))
  · simp [Raw.xctl, Raw.top32, hiT, cut]
    cases cs <;> simp only [AccSrc.xctl] <;> decide
  · simp [Raw.xctl, hiT, cut]
  · simp [Raw.xctl, hiT, cut]
  · simp [Raw.tc, hiT, Nat.mod_eq_of_lt cs.tc_lt]
  · simp [Raw.td, Raw.ta, Raw.tb, Raw.top32, hiT, tile_toNat, Opnd.ofCode_code hd]

theorem roundTrips_mmap (c : Com) (td ta : BitVec 4) (d r : Opnd) : RoundTrips (.mmap c td ta d r) :=
  .of rfl (fun _ => by simp) fun w => by
    obtain ⟨-, hd, hr⟩ := and_three w
    exact matrix_of rfl rfl rfl rfl (need_of (by simp [hiT])
      (fin_of (by simp [Raw.td, Raw.ta, hiT, tile_toNat, Opnd.ofCode_code, hd, hr]) w))

theorem roundTrips_trow (c : Com) (f : TrowForm) (t : BitVec 4) (d o : Opnd) (i : Word) :
    RoundTrips (.trow c f t d o i) := by
  refine .of rfl (fun _ => by cases f <;> simp [TrowForm.code]) fun w => ?_
  obtain ⟨-, hd, ho⟩ := and_three w
  refine matrix_of rfl rfl rfl rfl (need_of (by simp [hiT]) (pick_of f.ofCode_code ?_))
  cases f
  case rd | rdD | rdSc => exact ite_not_of (by simp [TrowForm.code]) (need_of (by simp [TrowForm.code])
    (fin_of (by simp [Raw.td, Raw.top32, hiT, tile_toNat, TrowForm.code, Opnd.ofCode_code, hd, ho]) w))
  case wr | wrD | wrSc => exact ite_of (by simp [TrowForm.code]) (need_of (by simp [TrowForm.code])
    (fin_of (by simp [Raw.td, Raw.top32, hiT, tile_toNat, TrowForm.code, Opnd.ofCode_code, hd, ho]) w))

theorem roundTrips_tchk (c : Com) (k : Bool) (d : Opnd) : RoundTrips (.tchk c k d) :=
  .of rfl (fun _ => by simp) fun w => by
    obtain ⟨-, hd⟩ := and_two w
    exact matrix_of (td := 0) (ta := 0) (tb := 0) (tc := 0) (xctl := 0) (imm := 0) rfl rfl rfl rfl (need_of (by simp)
      (fin_of (by simp [Opnd.ofCode_code hd]) w))

/-! ### Copies and stages (R306 to R309, R314) -/

theorem CopySpace.sub_read (x y : CopySpace) : x.code + 4 * y.code < 16 ∧ (x.code + 4 * y.code) % 4 = x.code ∧
    (x.code + 4 * y.code) / 4 = y.code := by
  have := x.code_lt
  have := y.code_lt
  omega

theorem roundTrips_copy (c : Com) (dsp ssp : CopySpace) (rel : Bool) (ch : BitVec 3) (bx : BitVec 12) (n : Word)
    (t a b : Opnd) : RoundTrips (.copy c dsp ssp rel ch bx n t a b) := by
  obtain ⟨fit, low, high⟩ := dsp.sub_read ssp
  refine .of rfl (fun _ => by simp [fit.trans]) fun w => ?_
  obtain ⟨operands, -⟩ := and_five w
  obtain ⟨-, ht, ha, hb⟩ := and_four operands
  refine copyForm_of rfl rfl (by simp) rfl (need_of (by simp [fit]) (fin_of ?_ w))
  simp [Raw.tln, Raw.xctl, Raw.top32, hiT, low, high, Opnd.ofCode_code, ht, ha, hb]

theorem roundTrips_copyt (c : Com) (st cl rel : Bool) (ch : BitVec 3) (bx : BitVec 12) (n : Word) (t a b : Opnd) :
    RoundTrips (.copyt c st cl rel ch bx n t a b) := by
  obtain ⟨fit, bit0, bit1⟩ := two_flags_read st cl
  refine .of rfl (fun _ => by simp [fit.trans]) fun w => ?_
  obtain ⟨-, ht, ha, hb⟩ := and_four w
  refine copyForm_of rfl rfl (by simp) rfl (need_of (by simp [fit]) (fin_of ?_ w))
  simp only [bit0, bit1]
  simp [Raw.tln, Raw.xctl, Raw.top32, hiT, Opnd.ofCode_code, ht, ha, hb]

theorem roundTrips_copyg (c : Com) (dsp ssp : CopySpace) (rel : Bool) (ch : BitVec 3) (bx : BitVec 12)
    (rb nr : BitVec 16) (t a b : Opnd) : RoundTrips (.copyg c dsp ssp rel ch bx rb nr t a b) := by
  obtain ⟨fit, low, high⟩ := dsp.sub_read ssp
  have hrb := rb.isLt
  have hnr := nr.isLt
  have word : (rb.toNat + 65536 * nr.toNat) % 4294967296 = rb.toNat + 65536 * nr.toNat := by omega
  have upper : (rb.toNat + 65536 * nr.toNat) / 65536 = nr.toNat := by omega
  refine .of rfl (fun _ => by simp [fit.trans]) fun w => ?_
  obtain ⟨operands, -⟩ := and_five (and_three w).1
  obtain ⟨-, ht, ha, hb⟩ := and_four (and_two operands).1
  refine copyForm_of rfl rfl (by simp) rfl (need_of (by simp [fit]) (fin_of ?_ w))
  simp [Raw.tln, Raw.xctl, Raw.top32, hiT, low, high, word, upper, ofNat_toNat_add, Opnd.ofCode_code, ht, ha, hb]

theorem roundTrips_stage (c : Com) (a : Opnd) (i : Word) : RoundTrips (.stage c a i) :=
  .of rfl (fun _ => by simp) fun w => by
    obtain ⟨-, ha⟩ := and_two w
    exact f128t_of rfl rfl (need_of (by simp [hiT]) (fin_of (by simp [Raw.top32, hiT, Opnd.ofCode_code ha]) w))

/-! ### Timelines (R326 to R330) -/

theorem roundTrips_tlwait (c : Com) (t : BitVec 4) (a : Opnd) (i : Word) : RoundTrips (.tlwait c t a i) :=
  .of rfl (fun _ => by simp) fun w => by
    obtain ⟨-, ha⟩ := and_two w
    exact timeline_of rfl rfl rfl rfl rfl (need_of rfl
      (fin_of (by simp [Raw.tln, Raw.top32, hiT, tile_toNat, Opnd.ofCode_code ha]) w))

theorem roundTrips_tlread (c : Com) (f : TlForm) (t : BitVec 4) (d : Opnd) : RoundTrips (.tlread c f t d) :=
  .of rfl (fun _ => by cases f <;> simp) fun w => by
    obtain ⟨-, hd, -⟩ := and_three w
    refine timeline_of rfl rfl rfl rfl rfl (need_of (by simp [Raw.top32, hiT]) ?_)
    cases f <;> exact fin_of (by simp [Raw.tln, hiT, tile_toNat, Opnd.ofCode_code hd]) w

theorem roundTrips_tlsig (c : Com) (n : Bool) (t : BitVec 4) (a : Opnd) (i : Word) : RoundTrips (.tlsig c n t a i) :=
  .of rfl (fun _ => by simp) fun w => by
    obtain ⟨-, ha, -⟩ := and_four w
    exact timeline_of rfl rfl rfl rfl rfl (need_of (by simp)
      (fin_of (by simp [Raw.tln, Raw.top32, hiT, tile_toNat, Opnd.ofCode_code ha]) w))

theorem roundTrips_waitm (c : Com) (m : BitVec 12) : RoundTrips (.waitm c m) :=
  .of rfl (fun _ => by simp) fun w => f96i_of rfl rfl (need_of (by simp) (fin_of (by simp) w))

/-! ### Instructions of three operands and a result (R185 to R188, R348, R361, R433 to R436) -/

section
variable {c : Com} {d a b e : Opnd} {n sub : Nat}

/-- F64 with a result and two operands. -/
theorem roundTrips_f64 {mk : Com → Opnd → Opnd → Opnd → Instr}
    (enc : encodeRaw (mk c d a b) = some { c.raw 0 n with dst := d.code, opa := a.code, opb := b.code, sub := sub })
    (wf : (mk c d a b).wf = (c.noChain && d.canon && a.canon && b.canon))
    (arm : ∀ r : Raw, r = { c.raw 0 n with dst := d.code, opa := a.code, opb := b.code, sub := sub } →
      decodeRaw r = fin (mk r.com (.ofCode r.dst) (.ofCode r.opa) (.ofCode r.opb)))
    (hn : 0 < n ∧ n < 255 := by decide) (hs : sub < 64 := by decide) : RoundTrips (mk c d a b) :=
  .of enc (fun _ => by simp [hn, hs]) fun w => by
    obtain ⟨-, hd, ha, hb⟩ := and_four (wf ▸ w)
    rw [arm _ rfl]
    exact fin_of (by simp [Opnd.ofCode_code, hd, ha, hb]) w

/-- F96-C with a result and three operands. -/
theorem roundTrips_f96c {mk : Com → Opnd → Opnd → Opnd → Opnd → Instr}
    (enc : encodeRaw (mk c d a b e) =
      some { c.raw 1 n with dst := d.code, opa := a.code, opb := b.code, sub := sub, hi := e.code })
    (wf : (mk c d a b e).wf = (c.noChain && d.canon && a.canon && b.canon && e.canon))
    (arm : ∀ r : Raw, r = { c.raw 1 n with dst := d.code, opa := a.code, opb := b.code, sub := sub, hi := e.code } →
      decodeRaw r = r.f96c (fin (mk r.com (.ofCode r.dst) (.ofCode r.opa) (.ofCode r.opb) (.ofCode r.opc))))
    (hn : 0 < n ∧ n < 255 := by decide) (hs : sub < 64 := by decide) : RoundTrips (mk c d a b e) :=
  .of enc (fun _ => by simp [hn, hs, e.code_lt.trans]) fun w => by
    obtain ⟨-, hd, ha, hb, he⟩ := and_five (wf ▸ w)
    rw [arm _ rfl]
    exact f96c_of (o := e) rfl rfl rfl (fin_of (by simp [Raw.opc, Opnd.ofCode_code, hd, ha, hb, he]) w)

end

theorem roundTrips_graphPatch (c : Com) (a b d : Opnd) : RoundTrips (.graphPatch c a b d) :=
  .of rfl (fun _ => by simp [d.code_lt.trans]) fun w => by
    obtain ⟨-, ha, hb, hd⟩ := and_four w
    exact f96c_of (o := d) rfl rfl rfl (need_of rfl (fin_of (by simp [Raw.opc, Opnd.ofCode_code, ha, hb, hd]) w))

theorem roundTrips_nbLoad (c : Com) (al : Bool) (d a b e : Opnd) : RoundTrips (.nbLoad c al d a b e) :=
  .of rfl (fun _ => by simp [e.code_lt.trans]) fun w => by
    obtain ⟨-, hd, ha, hb, he⟩ := and_five w
    exact f96c_of (o := e) rfl rfl rfl (need_of (by simp)
      (fin_of (by simp [Raw.opc, Opnd.ofCode_code, hd, ha, hb, he]) w))

theorem roundTrips_collStart (c : Com) (d a : Opnd) : RoundTrips (.collStart c d a) :=
  .of rfl (fun _ => by simp) fun w => by
    obtain ⟨-, hd, ha⟩ := and_three w
    exact f64_of rfl rfl (need_of rfl (fin_of (by simp [Opnd.ofCode_code, hd, ha]) w))

/-! ### System instructions (R349, R350, R359 to R361, R460) -/

theorem roundTrips_trap (c : Com) (n : BitVec 6) (d a : Opnd) : RoundTrips (.trap c n d a) :=
  .of rfl (fun _ => by simp) fun w => by
    obtain ⟨-, hd, ha⟩ := and_three w
    exact need_of rfl (need_of rfl (fin_of (by simp [Opnd.ofCode_code, hd, ha]) w))

theorem roundTrips_moor (c : Com) (d : Opnd) : RoundTrips (.moor c d) :=
  .of rfl (fun _ => by simp) fun w => by
    obtain ⟨-, hd⟩ := and_two w
    exact f64_of rfl rfl (need_of rfl (fin_of (by simp [Opnd.ofCode_code hd]) w))

theorem roundTrips_tlbiVa (c : Com) (a b : Opnd) : RoundTrips (.tlbiVa c a b) :=
  .of rfl (fun _ => by simp) fun w => by
    obtain ⟨-, ha, hb⟩ := and_three w
    exact f96c_of (o := .res0) rfl rfl rfl (need_of rfl (fin_of (by simp [Opnd.ofCode_code, ha, hb]) w))

theorem roundTrips_tlbiAll (c : Com) : RoundTrips (.tlbiAll c) :=
  .of rfl (fun _ => by simp) fun w =>
    f96c_of (o := .res0) rfl rfl rfl (need_of rfl (need_of rfl (fin_of (by simp) w)))

theorem roundTrips_harvest (c : Com) (d a : Opnd) : RoundTrips (.harvest c d a) :=
  .of rfl (fun _ => by simp) fun w => by
    obtain ⟨-, hd, ha⟩ := and_three w
    exact f64_of rfl rfl (need_of rfl (fin_of (by simp [Opnd.ofCode_code, hd, ha]) w))

theorem roundTrips_scrub (c : Com) (r : Bool) (d a b : Opnd) : RoundTrips (.scrub c r d a b) :=
  .of rfl (fun _ => by simp) fun w => by
    obtain ⟨-, hd, ha, hb⟩ := and_four w
    exact f96c_of (o := .res0) rfl rfl rfl (need_of (by simp) (fin_of (by simp [Opnd.ofCode_code, hd, ha, hb]) w))

theorem roundTrips_evpost (c : Com) (f : Bool) (n : BitVec 16) (d a : Opnd) : RoundTrips (.evpost c f n d a) :=
  .of rfl (fun _ => by simp) fun w => by
    obtain ⟨-, hd, ha⟩ := and_three w
    exact f96i_of rfl rfl (need_of (by simp) (fin_of (by simp [Opnd.ofCode_code, hd, ha]) w))

end Sys2Proof
end

section
/-! Every instruction of a single opcode is encoded, then decoded (R39, R45, R69). -/

namespace Sys2Proof

theorem roundTrips (i : Instr) : RoundTrips i := by
  cases i with
  -- control, addresses, moves and registers
  | bra c o => exact roundTrips_bra c o
  | jmp c t => exact roundTrips_jmp c t
  | brx c a => exact roundTrips_brx c a
  | call c l o => exact roundTrips_call c l o
  | callr c l a => exact roundTrips_callr c l a
  | ret c a => exact roundTrips_ret c a
  | exit c => exact roundTrips_exit c
  | yield c => exact roundTrips_yield c
  | halt c => exact roundTrips_halt c
  | lea c o m => exact roundTrips_lea c o m
  | leah c o m => exact roundTrips_leah c o m
  | swin c o k a => exact roundTrips_swin c o k a
  | plut c o t a b k => exact roundTrips_plut c o t a b k
  | pmovGet c o => exact roundTrips_pmovGet c o
  | pmovSet c lt a => exact roundTrips_pmovSet c lt a
  | movi c o ty i wide => exact roundTrips_movi c o ty i wide
  | movsReadWp c n d => exact roundTrips_movsReadWp c n d
  | movsReadTc c n d => exact roundTrips_movsReadTc c n d
  | movsWriteTc c n a => exact roundTrips_movsWriteTc c n a
  | csrr c n d => exact roundTrips_csrr c n d
  | csrw c n a => exact roundTrips_csrw c n a
  | csrwSet c n a => exact roundTrips_csrwSet c n a
  | csrwClr c n a => exact roundTrips_csrwClr c n a
  -- one source
  | abs x | neg x | not x | clz x | ctz x | popc x | brev x | mov x => exact Vec1.roundTrips rfl id rfl
  -- two sources
  | add x | sub x | mul x | mulh x | div x | rem x | min x | max x | and x | or x | xor x | andn x | bfx x | fmin x
  | fmax x | dham x => exact Vec2.roundTrips rfl id rfl
  | addc x p f | subb x p f => exact carry_roundTrips rfl id rfl
  | shl x k | shr x k | sra x k | rot x k => exact shift_roundTrips rfl and_two rfl
  | fadd x k | fsub x k | fmul x k | fscale x k => exact Vec2.roundTrips_rounding rfl (fun w => (and_two w).1) rfl
  | cmp x k => exact roundTrips_cmp x k
  | fcmp x k => exact roundTrips_fcmp x k
  -- three sources
  | mad x => exact Vec3.roundTrips rfl id (fun _ h => by cases h) rfl
  | bsel x => exact Vec3.roundTrips rfl (fun w => (and_two w).1) (fun _ h => by cases h) rfl
  | funnel x | bfi x | sel x => exact Vec3.roundTrips rfl (fun w => (and_two w).1) (fun w _ => (and_two w).2) rfl
  | ffma x k => exact roundTrips_ffma x k
  -- formats and conversions
  | frnd x k => exact roundTrips_frnd x k
  | fclass x r e => exact roundTrips_fclass x r e
  | cvt x s k r => exact roundTrips_cvt x s k r
  | pack x k r => exact roundTrips_pack x k r
  | unpack x r e => exact roundTrips_unpack x r e
  | bscale x r => exact roundTrips_bscale x r
  -- tables, cross-lane forms and selectors
  | tblLoad c w t d m => exact roundTrips_tblLoad c w t d m
  | tblCommit c t d => exact roundTrips_tblCommit c t d
  | tblEval c ty k t d a => exact roundTrips_tblEval c ty k t d a
  | tblQuery c v t d => exact roundTrips_tblQuery c v t d
  | tblDrop c v t => exact roundTrips_tblDrop c v t
  | shfl c f k w d a m => exact roundTrips_shfl c f k w d a m
  | vote c f d a m => exact roundTrips_vote c f d a m
  | matchKey c w d a m => exact roundTrips_matchKey c w d a m
  | sred c o d a m => exact roundTrips_sred c o d a m
  | sscan c o e d a m => exact roundTrips_sscan c o e d a m
  | ssync c m => exact roundTrips_ssync c m
  | ddot c o x ua ub s a b k => exact roundTrips_ddot c o x ua ub s a b k
  | dl2 c o k r a b e => exact roundTrips_dl2 c o k r a b e
  | selInit c k mx n d a => exact roundTrips_selInit c k mx n d a
  | selPush c n a b => exact roundTrips_selPush c n a b
  | selDrain c f n d a => exact roundTrips_selDrain c f n d a
  -- tiles
  | tcfg c t s => exact roundTrips_tcfg c t s
  | tzero c al t d => exact roundTrips_tzero c al t d
  | tld c t d r o => exact roundTrips_tld c t d r o
  | tst c t k s d r o => exact roundTrips_tst c t k s d r o
  | mma c td ta tb cs acc s k d => exact roundTrips_mma c td ta tb cs acc s k d
  | mmat c td ta tb cs k d => exact roundTrips_mmat c td ta tb cs k d
  | mmap c td ta d r => exact roundTrips_mmap c td ta d r
  | trow c f t d o i => exact roundTrips_trow c f t d o i
  | tchk c k d => exact roundTrips_tchk c k d
  -- memory
  | ld c ty q o d m => exact roundTrips_ld c ty q o d m
  | st c ty q o d m => exact roundTrips_st c ty q o d m
  | ldg c ty k o d m => exact roundTrips_ldg c ty k o d m
  | sct c ty k o d m => exact roundTrips_sct c ty k o d m
  | atom c op ty o d k m => exact roundTrips_atom c op ty o d k m
  | red c op ty o d m => exact roundTrips_red c op ty o d m
  | amaxsw c o d m => exact roundTrips_amaxsw c o d m
  | fence c k s => exact roundTrips_fence c k s
  | cctlIi c m => exact roundTrips_cctlIi c m
  | cctlEv c m => exact roundTrips_cctlEv c m
  | pref c t m => exact roundTrips_pref c t m
  | stashMap c o n m => exact roundTrips_stashMap c o n m
  | stashMapUn c o n => exact roundTrips_stashMapUn c o n
  | stashSync c v => exact roundTrips_stashSync c v
  | racew c w off l m => exact roundTrips_racew c w off l m
  -- copies, barriers and timelines
  | copy c d sp r ch bx n t a b => exact roundTrips_copy c d sp r ch bx n t a b
  | copyt c st cl r ch bx n t a b => exact roundTrips_copyt c st cl r ch bx n t a b
  | copyg c d sp r ch bx rb nr t a b => exact roundTrips_copyg c d sp r ch bx rb nr t a b
  | stage c a i => exact roundTrips_stage c a i
  | barInit c l r s m => exact roundTrips_barInit c l r s m
  | barArrive c u d m => exact roundTrips_barArrive c u d m
  | barExpect c u d n m => exact roundTrips_barExpect c u d n m
  | barWait c s m => exact roundTrips_barWait c s m
  | barTest c d m => exact roundTrips_barTest c d m
  | tlwait c t a i => exact roundTrips_tlwait c t a i
  | tlread c f t d => exact roundTrips_tlread c f t d
  | tlsig c n t a i => exact roundTrips_tlsig c n t a i
  | waitm c m => exact roundTrips_waitm c m
  -- launches, base-die work and system instructions
  | launch c d a b => exact roundTrips_f64 (mk := .launch) (sub := 0) rfl rfl fun _ e => e ▸ rfl
  | graphRun c d a b => exact roundTrips_f64 (mk := .graphRun) (sub := 0) rfl rfl fun _ e => e ▸ rfl
  | ferryUnbind c d a b => exact roundTrips_f64 (mk := .ferryUnbind) (sub := 0) rfl rfl fun _ e => e ▸ rfl
  | ferryUnbindKern c d a b => exact roundTrips_f64 (mk := .ferryUnbindKern) (sub := 1) rfl rfl fun _ e => e ▸ rfl
  | tretRep c d a b => exact roundTrips_f64 (mk := .tretRep) (sub := 0) rfl rfl fun _ e => e ▸ rfl
  | tretSkip c d a b => exact roundTrips_f64 (mk := .tretSkip) (sub := 1) rfl rfl fun _ e => e ▸ rfl
  | tretKill c d a b => exact roundTrips_f64 (mk := .tretKill) (sub := 2) rfl rfl fun _ e => e ▸ rfl
  | tretCan c d a b => exact roundTrips_f64 (mk := .tretCan) (sub := 3) rfl rfl fun _ e => e ▸ rfl
  | tretKillb c d a b => exact roundTrips_f64 (mk := .tretKillb) (sub := 4) rfl rfl fun _ e => e ▸ rfl
  | tretPre c d a b => exact roundTrips_f64 (mk := .tretPre) (sub := 5) rfl rfl fun _ e => e ▸ rfl
  | nbRun c d a b e => exact roundTrips_f96c (mk := .nbRun) (sub := 0) rfl rfl fun _ e => e ▸ rfl
  | ferryLoad c d a b e => exact roundTrips_f96c (mk := .ferryLoad) (sub := 0) rfl rfl fun _ e => e ▸ rfl
  | ferryBind c d a b e => exact roundTrips_f96c (mk := .ferryBind) (sub := 0) rfl rfl fun _ e => e ▸ rfl
  | graphPatch c a b d => exact roundTrips_graphPatch c a b d
  | collStart c d a => exact roundTrips_collStart c d a
  | nbLoad c al d a b e => exact roundTrips_nbLoad c al d a b e
  | trap c n d a => exact roundTrips_trap c n d a
  | moor c d => exact roundTrips_moor c d
  | tlbiVa c a b => exact roundTrips_tlbiVa c a b
  | tlbiAll c => exact roundTrips_tlbiAll c
  | harvest c d a => exact roundTrips_harvest c d a
  | scrub c r d a b => exact roundTrips_scrub c r d a b
  | evpost c f n d a => exact roundTrips_evpost c f n d a
  -- the rest are of other encodings, or have none
  | _ => exact fun _ h _ => nomatch h

end Sys2Proof
end

section
/-! The pair format (R49, R50, R74): the halves of a P96 word are read back from its two spans of fields. -/

namespace Sys2Proof

theorem PairHalf.rounding_lt (h : PairHalf) : (if h.op.rounds then 2 * h.rnd.code else 0) < 16 := by
  have := h.rnd.code_lt
  split <;> omega

/-- The fields of a half are read back: a rounding where its operation takes one (R74), and rn where it takes none. -/
theorem decodeHalf_fields {h : PairHalf} (ok : h.ok = true) (canon : h.canon = true) :
    decodeHalf h.op.code h.out.dst.code h.a.code h.b.code (boolNat h.out.wbs) h.out.lt.toNat
      (if h.op.rounds then 2 * h.rnd.code else 0) = some h := by
  obtain ⟨op, rnd, ⟨wbs, dst, lt⟩, a, b⟩ := h
  obtain ⟨-, -, hr⟩ := and_three ok
  obtain ⟨hd, ha, hb⟩ := and_three canon
  simp only [decodeHalf, PairOp.ofCode_code]
  cases rounds : op.rounds with
  | true => simp [Opnd.ofCode_code, hd, ha, hb]
  | false =>
    simp only [rounds] at hr
    obtain rfl : rnd = .rn := by simpa using hr
    simp [Opnd.ofCode_code, hd, ha, hb]

/-- The fields of a P96 word. -/
def pairFields (c : Com) (ha hb : PairHalf) : List (Nat × Nat) :=
  [(2, 1), (1, boolNat c.chain), (1, 0), (8, 0xFF), (3, c.guardPred.toNat), (1, boolNat c.guardNeg)] ++ ha.fields ++
    hb.fields

theorem pair_lt (c : Com) (ha hb : PairHalf) : packBits (pairFields c ha hb) < 2 ^ 96 :=
  packBits_lt_of_le (by simp [pairFields, PairHalf.fields])

theorem decodePair_fields {c : Com} {ha hb : PairHalf} (w : (Instr.pairP96 c ha hb).wf = true) :
    decodePair (packBits (pairFields c ha hb)) = .ok (.pairP96 c ha hb) := by
  obtain ⟨ops, canonA, canonB, -⟩ := and_four w
  obtain ⟨okA, okB, -, -⟩ := and_four ops
  have rA := Nat.mod_eq_of_lt ha.rounding_lt
  have rB := Nat.mod_eq_of_lt hb.rounding_lt
  refine pick_of (x := ha) ?_ (pick_of (x := hb) ?_ (fin_of ?_ w))
  · rw [← decodeHalf_fields okA canonA]
    simp [pairFields, PairHalf.fields, Nat.mod_eq_of_lt, rA]
  · rw [← decodeHalf_fields okB canonB]
    simp [pairFields, PairHalf.fields, Nat.mod_eq_of_lt, rB]
  · simp [pairFields, Raw.com, Raw.ofBits, Nat.mod_eq_of_lt]

theorem decodeWord_pair {c : Com} {ha hb : PairHalf} (w : (Instr.pairP96 c ha hb).wf = true) :
    decodeWord (packBits (pairFields c ha hb)) = .ok (.pairP96 c ha hb) := by
  have len : bitsOf (packBits (pairFields c ha hb)) 1 0 = 1 := by simp [pairFields]
  have maj : (Raw.ofBits (packBits (pairFields c ha hb))).maj = 0xFF := by simp [pairFields, Raw.ofBits]
  have res3 : (Raw.ofBits (packBits (pairFields c ha hb))).res3 = 0 := by simp [pairFields, Raw.ofBits]
  have cut := Nat.mod_eq_of_lt (pair_lt c ha hb)
  rw [decodeWord]
  simp only [len, lenBytes_one, cut, maj, res3]
  exact decodePair_fields w

/-! ### Every Mermos word -/

/-- A word reads back as its instruction, and lies within the length that its own bits 1:0 give (R39). -/
def WordOf (i : Instr) (w : Nat) : Prop := decodeWord w = .ok i ∧ w < 2 ^ (8 * lenBytes (w % 4))

theorem wordOf_pair {c : Com} {ha hb : PairHalf} (wf : (Instr.pairP96 c ha hb).wf = true) :
    WordOf (.pairP96 c ha hb) (packBits (pairFields c ha hb)) := by
  have len : packBits (pairFields c ha hb) % 4 = 1 := by
    rw [← show 2 ^ (1 + 1) = 4 from rfl, ← bitsOf_zero_right]
    simp [pairFields]
  exact ⟨decodeWord_pair wf, by rw [len]; exact pair_lt c ha hb⟩

theorem wordOf_bits {i : Instr} {r : Raw} (e : encodeRaw i = some r) (wf : i.wf = true) : WordOf i r.bits := by
  obtain ⟨fits, back⟩ := roundTrips i r e wf
  exact ⟨(decodeWord_bits fits).trans back, by rw [Raw.bits_mod_four fits]; exact Raw.bits_lt fits⟩

/-- The encoder's cases: the filler, NOP, a pair, or the fields of one opcode. -/
theorem encodeBits_cases {i : Instr} {w : Nat} (e : encodeBits i = some w) :
    i = .filler ∧ 3 = w ∨ i = .nop ∧ 0x7000 = w ∨
      (∃ c ha hb, i = .pairP96 c ha hb ∧ packBits (pairFields c ha hb) = w) ∨
      ∃ r, encodeRaw i = some r ∧ r.bits = w := by
  unfold encodeBits at e
  split at e
  · exact .inl ⟨rfl, Option.some.inj e⟩
  · exact .inr (.inl ⟨rfl, Option.some.inj e⟩)
  · exact .inr (.inr (.inl ⟨_, _, _, rfl, Option.some.inj e⟩))
  · exact .inr (.inr (.inr (Option.map_eq_some_iff.mp e)))

theorem wordOf_encodeBits {i : Instr} {w : Nat} (wf : i.wf = true) (e : encodeBits i = some w) : WordOf i w := by
  obtain ⟨rfl, rfl⟩ | ⟨rfl, rfl⟩ | ⟨c, ha, hb, rfl, rfl⟩ | ⟨r, hr, rfl⟩ := encodeBits_cases e
  · exact ⟨rfl, by decide⟩
  · exact ⟨rfl, by decide⟩
  · exact wordOf_pair wf
  · exact wordOf_bits hr wf

end Sys2Proof
end

section
/-! What the decoder accepts (R44, R50, R71, R72): every check it makes either refuses the word or goes on, and it ends in
an instruction that was found well formed and has an encoding. -/

namespace Sys2Proof

/-- What is decoded is well formed and has an encoding. -/
def Sound (d : Dec Instr) : Prop := ∀ i, d = .ok i → i.wf = true ∧ (encodeBits i).isSome = true

theorem sound_error (e : DecodeErr) : Sound (.error e) := fun _ h => nomatch h

theorem sound_ok {i : Instr} : Sound (.ok i) ↔ i.wf = true ∧ (encodeBits i).isSome = true := by simp [Sound]

theorem sound_need {b : Bool} {e : DecodeErr} {k : Dec Instr} : Sound (need b e k) ↔ (b = true → Sound k) := by
  cases b with
  | true => simp [need]
  | false => simp [need, sound_error]

theorem sound_pick {α : Type} {o : Option α} {e : DecodeErr} {k : α → Dec Instr} :
    Sound (pick o e k) ↔ ∀ x, o = some x → Sound (k x) := by
  cases o with
  | some x => simp [pick]
  | none => simp [pick, sound_error]

theorem sound_fin {i : Instr} : Sound (fin i) ↔ (i.wf = true → (encodeBits i).isSome = true) := by
  rw [fin, sound_need, sound_ok]
  exact ⟨fun h w => (h w).2, fun h w => ⟨w, h w⟩⟩

/-- After the checks of its layout, an arm ends in its instruction, which `rfl` finds to have an encoding; what is left
then are the arms that first choose among forms. -/
theorem decodeRaw_sound (r : Raw) : Sound (decodeRaw r) := by
  unfold decodeRaw
  split
  all_goals simp only [Raw.plain, Raw.rounding, Raw.vec1, Raw.vec2, Raw.vec3, Raw.shift, Raw.carry, Raw.f64, Raw.f96i,
    Raw.f96c, Raw.f128t, Raw.matrix, Raw.timeline, Raw.copyForm, Raw.memory, Raw.memPlain, Raw.bar, Raw.ldst, Raw.gather,
    Raw.accSrc, sound_need, sound_pick, sound_error, sound_fin]
  all_goals intros
  all_goals try rfl
  all_goals repeat' split
  all_goals simp only [sound_need, sound_error, sound_fin]
  all_goals intros; rfl

theorem decodePair_sound (w : Nat) : Sound (decodePair w) := by
  simp only [decodePair, sound_pick, sound_fin]
  intros
  rfl

theorem decodeWord_sound (w : Nat) : Sound (decodeWord w) := by
  unfold decodeWord
  dsimp only
  split
  · exact sound_need.mpr fun _ => sound_ok.mpr ⟨rfl, rfl⟩
  · split
    · exact sound_need.mpr fun _ => sound_ok.mpr ⟨rfl, rfl⟩
    · split
      · exact sound_need.mpr fun _ => sound_need.mpr fun _ => decodePair_sound _
      · exact sound_need.mpr fun _ => decodeRaw_sound _

end Sys2Proof

namespace Sys2Proof.Claims

/-- Settles O55: the encoder's fields fit their bits, so they are what the word of an instruction reads as, and each arm
of the decoder makes its instruction of them again; and every arm checks its instruction before it accepts it. -/
theorem mermosEncodingsRoundTrip : Obligations.MermosEncodingsRoundTrip := by
  refine ⟨fun i w wf e => ?_, decodeWord_sound⟩
  obtain ⟨back, fits⟩ := wordOf_encodeBits wf e
  refine ⟨back, fits, fun bs rest hbs => ?_⟩
  obtain rfl : bytesOfNat (lenBytes (w % 4)) w = bs := by simpa [encode, e] using hbs
  exact ⟨length_bytesOfNat _ _, decode_bytes fits back rest⟩

end Sys2Proof.Claims
end

section
/-! Words written out from the encodings (R40, R41, R45, R49, R70, R405, R407, R421, R422). -/

namespace Sys2Proof.Claims

/-- Settles O54: the words, and the instructions they stand for, are closed terms that the decoders and encoders compute. -/
theorem wordsOfTheSpecDecode : Obligations.WordsOfTheSpecDecode :=
  ⟨rfl, rfl, rfl, rfl, rfl, rfl, rfl, rfl, rfl, rfl, rfl, rfl, rfl⟩

end Sys2Proof.Claims
end

section
/-! What a step runs (R39, R42, R43, R56, R393, R419, R474): the act of a focused entry goes by what is fetched and decoded
at its PC, and a boot-mode fetch reads memory as it is. -/

namespace Sys2Proof.Claims
open Machine

variable {s s1 : State} {c e : Nat} {en : Entry} {g : Grp} {bs rest : List Byte} {i : Instr}

/-! ### The issue of an entry -/

theorem readInstr_of_decode (h : decode bs = .ok (i, rest)) : readInstr bs = .instr i := by
  rw [readInstr, h]

/-- An entry whose group has work, no instruction in progress and nothing pending: what issues is what is read at its PC,
once an open chain that it does not continue has ended. -/
theorem issue_read (he : s.entry c e = some en) (hg : s.grpOf c e = some g) (work : s.hasWork c e en = true)
    (fresh : g.ov = none) (idle : en.pend = []) (read : s.fetch g g.pc = .ok (bs, s1))
    (dec : decode bs = .ok (i, rest)) :
    s.issue c e = if i = .filler then .run .filler s1
      else if en.chainOpen && !chains i then .over (.next (s1.boundary c e)) else .run i (s1.startBlock en.block) := by
  have shadow : shadowOk en i (s1.ahead g 9 (g.pc + lenOf i)) = true := by rw [shadowOk, idle]
  unfold State.issue
  by_cases fill : i = .filler
  · subst fill
    simp [he, hg, work, fresh, read, readInstr_of_decode dec]
  · simp [he, hg, work, fresh, read, readInstr_of_decode dec, fill, shadow, idle]

/-! ### Fetching in boot mode -/

theorem bytesOf_leRead (f : Nat → Byte) (a n : Nat) : bytesOf (leRead f a n) n = (List.range n).map fun k => f (a + k) := by
  induction n generalizing a with
  | zero => rfl
  | succ n ih =>
    have low : BitVec.ofNat 8 ((f a).toNat + 256 * leRead f (a + 1) n) = f a := BitVec.eq_of_toNat_eq (by simp)
    have high : ((f a).toNat + 256 * leRead f (a + 1) n) / 256 = leRead f (a + 1) n := by
      have := (f a).isLt
      omega
    rw [leRead, bytesOf, low, high, ih, List.range_succ_eq_map, List.map_cons, List.map_map]
    congr 1
    exact List.map_congr_left fun k _ => congrArg f (by simp; omega)

/-- Probes wake stacks, and nothing else, where no page is stashed. -/
theorem snoops_unstashed (h : s.stashPages = []) (l : List Nat) :
    ∃ d, l.foldl (fun s l => s.snoop l false) s = { s with dies := d } := by
  induction l generalizing s with
  | nil => exact ⟨s.dies, rfl⟩
  | cons x l ih =>
    have one := snoop_unstashed (s := s) (line := x) false (by rw [h]; rfl)
    obtain ⟨d, hd⟩ := ih (s := { s with dies := (s.snoop x false).dies }) h
    exact ⟨d, by rw [List.foldl_cons, one, hd]⟩

/-- A read of DRAM of any size that nothing stands in the way of (R261). -/
theorem physRead_dram {spa : Nat} (a : Actor) (n va : Nat) (dram : s.target spa = .dram) (clean : s.poisonedIn spa n = none)
    (unstashed : s.stashPages = []) (calm : ∀ l ∈ linesOf spa n, s.probing l = false) :
    ∃ d, physRead s a spa n va = .ok (leRead s.byteAt spa n, { s with dies := d }) := by
  obtain ⟨d, woken⟩ := snoops_unstashed unstashed (linesOf spa n)
  have still : (linesOf spa n).any s.probing = false := List.any_eq_false.mpr fun l hl => by simp [calm l hl]
  have clean' : ({ s with dies := d } : State).poisonedIn spa n = none := clean
  refine ⟨d, ?_⟩
  rw [physRead, dram]
  simp only [still, woken, clean']
  rfl

theorem fetchPlace_boot {va : Nat} (boot : g.part s = none) (there : s.target (s.harbour.pkg * 2 ^ 46 + va) ≠ .nothing) :
    s.fetchPlace g va = .ok (s.harbour.pkg * 2 ^ 46 + va, s) := by
  rw [State.fetchPlace, boot]
  exact if_neg there

/-- The instruction cache answers for the block that it holds. R43 allows either; that it always answers is the model's
choice, log 19. -/
theorem fetchBlock_cached {spa va : Nat} {b : (Option Nat × Nat) × List Byte} (place : s.fetchPlace g va = .ok (spa, s1))
    (held : (s1.core g.core).icache.find? (fun b => b.1 == (g.part s, va)) = some b) : s.fetchBlock g va = .ok (b.2, s1) := by
  rw [State.fetchBlock, place]
  simp only [held]

theorem fetchBlock_read {spa va v : Nat} {t : State} (place : s.fetchPlace g va = .ok (spa, s1))
    (absent : (s1.core g.core).icache.find? (fun b => b.1 == (g.part s, va)) = none)
    (read : physRead s1 (g.actor s1 0) spa 32 va = .ok (v, t)) :
    s.fetchBlock g va =
      .ok (bytesOf v 32, t.modCore g.core fun c => { c with icache := ((g.part s, va), bytesOf v 32) :: c.icache }) := by
  rw [State.fetchBlock, place]
  simp only [absent, read]

theorem bootBlockIsMemory {va spa : Nat} (boot : g.part s = none) (hspa : spa = s.harbour.pkg * 2 ^ 46 + va)
    (dram : s.target spa = .dram) (clean : s.poisonedIn spa 32 = none) (unstashed : s.stashPages = [])
    (calm : ∀ l ∈ linesOf spa 32, s.probing l = false)
    (absent : ((s.core g.core).icache.find? fun b => b.1 == (none, va)) = none) :
    ∃ s1, s.fetchBlock g va = .ok ((List.range 32).map fun k => s.byteAt (spa + k), s1) ∧
      (s1.core g.core).icache = ((none, va), (List.range 32).map fun k => s.byteAt (spa + k)) :: (s.core g.core).icache := by
  subst hspa
  obtain ⟨d, read⟩ := physRead_dram (g.actor s 0) 32 va dram clean unstashed calm
  have place := fetchPlace_boot boot (by rw [dram]; decide)
  rw [← boot] at absent
  refine ⟨_, by rw [fetchBlock_read place absent read, bytesOf_leRead], ?_⟩
  rw [State.core_modCore_self, boot]
  rfl

/-! ### What acts -/

/-- An event that has been set off comes first: the model's choice, log 2. -/
theorem act_event {l : List Instr} (h : s.agenda = i :: l) :
    act s = Res.thenDo (exec i { s with agenda := l }) State.unblock := by
  rw [act, h]

section
variable (quiet : s.agenda = [])
include quiet

theorem act_over {r : Res} (focus : s.focus = .entry c e) (h : s.issue c e = .over r) : act s = r := by
  rw [act, quiet]
  simp only [focus, h]

theorem act_filler (focus : s.focus = .entry c e) (h : s.issue c e = .run .filler s1) : act s = exec .filler s1 := by
  rw [act, quiet]
  simp only [focus, h]

theorem act_run (focus : s.focus = .entry c e) (h : s.issue c e = .run i s1) (real : i ≠ .filler) :
    act s = Res.thenDo (exec i s1) fun t => t.refocus c e := by
  rw [act, quiet]
  simp only [focus, h]

theorem act_ferry {stk fc : Nat} (focus : s.focus = .ferry stk fc) (h : s.ferryNow stk fc = some i) :
    act s = exec i s := by
  rw [act, quiet]
  simp only [focus, h]

theorem act_nb {stk unit : Nat} (focus : s.focus = .nb stk unit) (h : s.nbNow stk unit = some i) :
    act s = Res.thenDo (exec i s) fun t => t.nbRefocus stk unit := by
  rw [act, quiet]
  simp only [focus, h]

end

theorem step_of_act {r : Res} (h : act s = r) : step s = Res.thenDo r s.tickFrom := by rw [step, h]

theorem ferryNow_of_word {stk fc w : Nat} {k : FerryRun} {x b} (run : s.fctx stk fc = some (x, k, b))
    (word : x.kernel.words[k.idx]? = some w) (dec : decodeFerry w = .ok i) : s.ferryNow stk fc = some i := by
  rw [State.ferryNow, run]
  simp [word, dec, Except.toOption]

theorem nbNow_of_word {stk unit w : Nat} {u : NbCur} (run : (s.unit (64 * stk + unit)).cur = some u)
    (word : u.prog[u.i]? = some w) (dec : decodeNb w = .ok i) : s.nbNow stk unit = some i := by
  rw [State.nbNow, run]
  simp [word, dec, Except.toOption]

/-- Settles O57: what issues is what is read at the PC, and the act of each focus is its instruction. -/
theorem stepsRunDecodedInstructions : Obligations.StepsRunDecodedInstructions := by
  refine ⟨fun s i rest h => step_of_act (act_event h), ?_, ?_, ?_, ?_, ?_, ?_⟩
  · intro s c e en g bs s1 i rest agenda focus he hg work fresh idle read dec
    have issue := issue_read he hg work fresh idle read dec
    refine ⟨fun fill => ?_, fun real goes => ?_, fun real opened stops => ?_⟩
    · subst fill
      exact step_of_act (act_filler agenda focus issue)
    · rw [if_neg real, if_neg (by rcases goes with h | h <;> simp [Entry.chainOpen, h])] at issue
      exact step_of_act (act_run agenda focus issue real)
    · rw [if_neg real, if_pos (by simp [Entry.chainOpen, Nat.pos_of_ne_zero opened, stops])] at issue
      exact step_of_act (act_over agenda focus issue)
  · exact fun s g va spa boot hspa dram clean unstashed calm absent =>
      bootBlockIsMemory boot hspa dram clean unstashed calm absent
  · intro s g va b boot there held
    exact fetchBlock_cached (fetchPlace_boot boot there) (by rw [boot]; exact held)
  · intro s s1 g p va x b part tr held
    refine fetchBlock_cached (spa := x.spa) ?_ (by rw [part]; exact held)
    rw [State.fetchPlace, part]
    simp only [tr]
    rfl
  · intro s stk fc c r b w i agenda focus run word dec
    exact step_of_act (act_ferry agenda focus (ferryNow_of_word run word dec))
  · intro s stk unit u w i agenda focus run word dec
    exact step_of_act (act_nb agenda focus (nbNow_of_word run word dec))

end Sys2Proof.Claims
end

section
/-! A finite code of any format goes through its exact value unchanged (R75 to R77, R79, R84): its value lies on the grid
that rounding chooses for it and is no larger than the largest finite one. -/

namespace Sys2Proof.Claims

open Machine

variable {f : Fmt} {r : Reading} {x : Nat}

/-! ### The fields of a finite code -/

/-- The exponent field stands above the fraction field, below the sign. -/
theorem magnitudes_eq (f : Fmt) : 2 ^ (f.width - 1) = (f.topExp + 1) * 2 ^ f.m := by
  cases f <;> rfl

theorem two_le_magnitudes (f : Fmt) : 2 ≤ 2 ^ (f.width - 1) := by
  cases f <;> decide

theorem fMag_lt_magnitudes (f : Fmt) (x : Nat) : fMag f x < 2 ^ (f.width - 1) := Nat.mod_lt _ (Nat.two_pow_pos _)

theorem signBit_add_fMag (h : x < 2 ^ f.width) : f.signBit (fNeg f x) + fMag f x = x := by
  have width : 2 ^ f.width = 2 ^ (f.width - 1) * 2 := by cases f <;> rfl
  have sign : x / 2 ^ (f.width - 1) < 2 := Nat.div_lt_of_lt_mul (width ▸ h)
  rw [Fmt.signBit, fNeg, toNat_testBit, Nat.mod_eq_of_lt sign, fMag, Nat.mul_comm, Nat.div_add_mod]

theorem fMan_lt : fMan f x < 2 ^ (f.m + 1) := by
  have frac : fMag f x % 2 ^ f.m < 2 ^ f.m := Nat.mod_lt _ (Nat.two_pow_pos _)
  rw [Nat.pow_succ, fMan]
  split <;> omega

theorem le_fMan_of_fExp (h : fExp f x ≠ 0) : 2 ^ f.m ≤ fMan f x := by
  rw [fExp] at h
  rw [fMan, if_neg (by omega)]
  exact Nat.le_add_right _ _

/-- The fields of a code again, the leading bit of the significand counted as one of the exponent. -/
theorem fExp_mul_add_fMan : fExp f x * 2 ^ f.m + fMan f x = fMag f x := by
  have split := Nat.div_add_mod' (fMag f x) (2 ^ f.m)
  rw [fExp, fMan]
  split
  case isTrue zero =>
    rw [zero] at split ⊢
    exact split
  case isFalse normal =>
    rw [← Nat.add_assoc, ← Nat.succ_mul, Nat.succ_eq_add_one, Nat.sub_add_cancel (Nat.pos_of_ne_zero normal)]
    exact split

theorem fMan_ne_zero (h : fMag f x ≠ 0) : fMan f x ≠ 0 := by
  have code := fExp_mul_add_fMan (f := f) (x := x)
  by_cases e : fExp f x = 0
  · rw [e] at code
    omega
  · have := le_fMan_of_fExp e
    have := Nat.two_pow_pos f.m
    omega

/-! ### Which codes are finite, and their values -/

/-- The codes up to the largest finite one are those that are neither infinity nor NaN (R76, R79). -/
theorem le_maxCode_iff : fMag f x ≤ f.maxCode r ↔
    ¬(f.readingOf r = .ieee ∧ fMag f x / 2 ^ f.m = f.topExp) ∧
      ¬(f.readingOf r = .nanOnly ∧ fMag f x = 2 ^ (f.width - 1) - 1) := by
  have lt := fMag_lt_magnitudes f x
  have two := two_le_magnitudes f
  rw [Fmt.maxCode]
  cases f.readingOf r with
  | finiteOnly =>
    exact iff_of_true (Nat.le_sub_one_of_lt lt) ⟨fun h => (nomatch h.1), fun h => (nomatch h.1)⟩
  | nanOnly =>
    simp only [reduceCtorEq, false_and, true_and, not_false_eq_true]
    omega
  | ieee =>
    have some : 0 < f.topExp * 2 ^ f.m := Nat.mul_pos (by cases f <;> decide) (Nat.two_pow_pos _)
    have top : fMag f x / 2 ^ f.m < f.topExp + 1 := Nat.div_lt_of_lt_mul (by rwa [Nat.mul_comm, ← magnitudes_eq])
    have below := Nat.div_lt_iff_lt_mul (x := fMag f x) (y := f.topExp) (Nat.two_pow_pos f.m)
    simp only [reduceCtorEq, false_and, true_and, not_false_eq_true, and_true]
    omega

/-- The exponent of the unit that a finite code counts in. -/
def fUnitExp (f : Fmt) (x : Nat) : Int := fExp f x + (f.emin - f.m)

/-- The value of a code by its fields: the codes that a reading takes for infinities and NaNs, a zero, or a number of the
units that the exponent field stands for. -/
theorem ofBits_eq (f : Fmt) (r : Reading) (x : Nat) : FVal.ofBits f r x =
    if f.readingOf r = .ieee ∧ fMag f x / 2 ^ f.m = f.topExp then
      if fMag f x % 2 ^ f.m = 0 then .inf (fNeg f x)
      else .nan (fNeg f x) ((fMag f x % 2 ^ f.m).testBit (f.m - 1)) (fPay f x)
    else if f.readingOf r = .nanOnly ∧ fMag f x = 2 ^ (f.width - 1) - 1 then .nan (fNeg f x) true 0
    else if fMag f x = 0 then .zero (fNeg f x)
    else .fin (fNeg f x) (fMan f x) (fUnitExp f x) := by
  rw [FVal.ofBits]
  refine if_congr Iff.rfl rfl (if_congr Iff.rfl rfl (if_congr Iff.rfl rfl ?_))
  change (if fMag f x / 2 ^ f.m = 0 then FVal.fin (fNeg f x) (fMag f x % 2 ^ f.m) (f.emin - (f.m : Int)) else
    .fin (fNeg f x) (2 ^ f.m + fMag f x % 2 ^ f.m) ((fMag f x / 2 ^ f.m : Nat) - (f.bias : Int) - (f.m : Int))) = _
  rw [fUnitExp, fMan, fExp, Fmt.emin]
  split
  case isTrue subnormal => simp [subnormal]
  case isFalse normal =>
    rw [Int.natCast_sub (Nat.pos_of_ne_zero normal)]
    congr 1
    ring

theorem ofBits_of_le_maxCode (h : fMag f x ≤ f.maxCode r) : FVal.ofBits f r x =
    if fMag f x = 0 then .zero (fNeg f x) else .fin (fNeg f x) (fMan f x) (fUnitExp f x) := by
  obtain ⟨notTop, notLast⟩ := le_maxCode_iff.1 h
  rw [ofBits_eq, if_neg notTop, if_neg notLast]

theorem fMag_le_maxCode (nan : (FVal.ofBits f r x).isNan = false) (inf : ∀ neg, FVal.ofBits f r x ≠ .inf neg) :
    fMag f x ≤ f.maxCode r := by
  rw [ofBits_eq] at nan inf
  by_cases top : f.readingOf r = .ieee ∧ fMag f x / 2 ^ f.m = f.topExp
  · rw [if_pos top] at nan inf
    by_cases frac : fMag f x % 2 ^ f.m = 0
    · exact absurd (if_pos frac) (inf _)
    · rw [if_neg frac] at nan
      cases nan
  · refine le_maxCode_iff.2 ⟨top, fun last => ?_⟩
    rw [if_neg top, if_pos last] at nan
    cases nan

/-! ### Rounding on the grid of the format -/

theorem fMag_maxCode (f : Fmt) (r : Reading) : fMag f (f.maxCode r) = f.maxCode r := by
  cases f <;> cases r <;> rfl

theorem maxCode_ne_zero (f : Fmt) (r : Reading) : f.maxCode r ≠ 0 := by
  cases f <;> cases r <;> decide

/-- The value of a code is above the largest finite one just if the code is: their difference is taken in the smaller
of the two units. -/
theorem beyond_code : f.beyond r (fMan f x) (fUnitExp f x) = true ↔ f.maxCode r < fMag f x := by
  have largest := ofBits_of_le_maxCode (fMag_maxCode f r).le
  rw [fMag_maxCode, if_neg (maxCode_ne_zero f r)] at largest
  have order := fUnits_lt_iff (f := f) (x := f.maxCode r) (y := x)
  rw [fMag_maxCode] at order
  rw [← order, fUnits, fUnits, fUnitExp]
  rw [fUnitExp] at largest
  generalize fMan f (f.maxCode r) = man at largest ⊢
  generalize fExp f (f.maxCode r) = e at largest ⊢
  generalize fExp f x = k
  simp only [Fmt.beyond, largest]
  split
  case isTrue le =>
    have diff : ((k : Int) + (f.emin - f.m) - (e + (f.emin - f.m))).toNat = k - e := by omega
    have pow := Nat.pow_sub_mul_pow 2 (show e ≤ k by omega)
    rw [diff, decide_eq_true_eq, ← pow, ← Nat.mul_assoc, Nat.mul_lt_mul_right (Nat.two_pow_pos e)]
  case isFalse gt =>
    have diff : ((e : Int) + (f.emin - f.m) - (k + (f.emin - f.m))).toNat = e - k := by omega
    have pow := Nat.pow_sub_mul_pow 2 (show k ≤ e by omega)
    rw [diff, decide_eq_true_eq, ← pow, ← Nat.mul_assoc, Nat.mul_lt_mul_right (Nat.two_pow_pos k)]

/-- The unit that rounding chooses for the value of a code is the unit the code itself counts in. -/
theorem unit_of_code (h : fMag f x ≠ 0) :
    max ((Nat.log2 (fMan f x) : Int) + fUnitExp f x) f.emin - (f.m : Int) = fUnitExp f x := by
  rw [fUnitExp]
  have man := fMan_ne_zero h
  have upper : Nat.log2 (fMan f x) < f.m + 1 := (Nat.log2_lt man).2 fMan_lt
  by_cases e : fExp f x = 0
  · omega
  · have lower : f.m ≤ Nat.log2 (fMan f x) := (Nat.le_log2 man).2 (le_fMan_of_fExp e)
    omega

/-- A whole number of units is not rounded, whatever the mode. -/
theorem roundMag_self (mode : Rnd) (neg : Bool) (n : Nat) (q : Int) (rb : Nat) :
    roundMag mode neg n q q rb = (n, false) := by
  simp [roundMag]

/-- The value of a finite code rounds to the code's magnitude, under any sign. -/
theorem roundFin_code (sat : Bool) (mode : Rnd) (rb : Nat) (neg : Bool) (pos : fMag f x ≠ 0)
    (h : fMag f x ≤ f.maxCode r) : roundFin f r sat mode rb neg (fMan f x) (fUnitExp f x) =
      (f.signBit neg + fMag f x, Flags.none) := by
  have field : (fUnitExp f x + f.m - f.emin).toNat = fExp f x := by
    rw [fUnitExp]
    omega
  have below : f.beyond r (fMan f x) (fUnitExp f x) = false :=
    Bool.eq_false_iff.2 fun above => Nat.not_lt.2 h (beyond_code.1 above)
  simp only [roundFin, unit_of_code pos, roundMag_self, below, field, fExp_mul_add_fMan,
    Bool.false_eq_true, if_false, Bool.and_false]

/-- Settles O8: a finite code is no larger than the largest finite one, so its value is a zero with the code's sign or a
number of the units that rounding counts in, which stands as it is. -/
theorem representableValuesRoundExactly : Obligations.RepresentableValuesRoundExactly := by
  intro f r sat mode rb c width nan inf
  have finite := fMag_le_maxCode nan inf
  have whole := signBit_add_fMag width
  rw [ofBits_of_le_maxCode finite]
  by_cases zero : fMag f c = 0
  · rw [if_pos zero]
    rw [zero] at whole
    exact Prod.ext whole rfl
  · rw [if_neg zero]
    exact (roundFin_code sat mode rb (fNeg f c) zero finite).trans (by rw [whole])

end Sys2Proof.Claims
end

section
/-! Instructions of the vector pipes on integers and bits of 32 and 64: how they read their operands as words of their
type, and that a word of the type is written as it is (R100, R108). The ground of the obligations O2 to O5 and O7. -/

namespace Sys2Proof.Claims

open Machine

variable {s : State} {g : Grp} {i : Nat} {b : Block} {t : Thread} {x : BlockCore} {ins : Instr} {ty : Ty}

/-! ### The types -/

/-- The types of the integer and bit instructions: one register or a pair, and no floating-point immediate. -/
def WordTy (ty : Ty) : Prop := ty ∈ tysInt ++ tysBits

theorem WordTy.of_int (h : ty ∈ tysInt) : WordTy ty := List.mem_append_left _ h
theorem WordTy.of_bits (h : ty ∈ tysBits) : WordTy ty := List.mem_append_right _ h

theorem WordTy.of_subset {tys : List Ty} (h : ty ∈ tys) (sub : tys ⊆ tysInt ++ tysBits) : WordTy ty := sub h

theorem WordTy.width (h : WordTy ty) : (tyWide ty = false ∧ tyBits ty = 32) ∨ (tyWide ty = true ∧ tyBits ty = 64) := by
  have every : ∀ ty ∈ tysInt ++ tysBits,
      (tyWide ty = false ∧ tyBits ty = 32) ∨ (tyWide ty = true ∧ tyBits ty = 64) := by decide
  exact every ty h

theorem WordTy.bits_le (h : WordTy ty) : tyBits ty ≤ 64 := by
  rcases h.width with ⟨-, n⟩ | ⟨-, n⟩
  · omega
  · omega

/-- What a well-formed instruction of one and of three sources says of its type. -/
theorem vec1_wf_ty {y : Vec1} {tys : List Ty} {variant : Bool} (h : y.wf tys variant = true) : y.ty ∈ tys := by
  simp only [Vec1.wf, Bool.and_eq_true] at h
  obtain ⟨⟨⟨-, ty⟩, -⟩, -⟩ := h
  exact List.contains_iff_mem.1 ty

theorem vec3_wf_ty {y : Vec3} {tys : List Ty} {variant : Bool} (h : y.wf tys variant = true) : y.ty ∈ tys := by
  simp only [Vec3.wf, Bool.and_eq_true] at h
  obtain ⟨⟨⟨⟨⟨-, ty⟩, -⟩, -⟩, -⟩, -⟩ := h
  exact List.contains_iff_mem.1 ty

/-! ### The families of O2 to O4, O12 and O26 -/

/-- The control transfers (R103). -/
inductive IsTransfer : Instr → Prop
  | bra (com off) : IsTransfer (.bra com off)
  | jmp (com target) : IsTransfer (.jmp com target)
  | brx (com a) : IsTransfer (.brx com a)
  | call (com link off) : IsTransfer (.call com link off)
  | callr (com link a) : IsTransfer (.callr com link a)
  | ret (com a) : IsTransfer (.ret com a)

/-- The instructions of `memForm`. -/
inductive IsMem : Instr → Prop
  | ld (com ty quad ord dst m) : IsMem (.ld com ty quad ord dst m)
  | st (com ty quad ord src m) : IsMem (.st com ty quad ord src m)
  | ldg (com ty cnt ord dst m) : IsMem (.ldg com ty cnt ord dst m)
  | sct (com ty cnt ord src m) : IsMem (.sct com ty cnt ord src m)
  | atom (com op ty ord dst c m) : IsMem (.atom com op ty ord dst c m)
  | red (com op ty ord src m) : IsMem (.red com op ty ord src m)
  | amaxsw (com ord dst m) : IsMem (.amaxsw com ord dst m)

/-- What an instruction is that a family takes in. -/
structure Families (ins : Instr) : Prop where
  intBinary : ∀ p ∈ intBinary ins,
    ins ∈ [.add p.1, .sub p.1, .mul p.1, .mulh p.1, .div p.1, .rem p.1, .min p.1, .max p.1]
  intUnary : ∀ p ∈ intUnary ins, ins ∈ [.abs p.1, .neg p.1]
  bitBinary : ∀ p ∈ bitBinary ins, ins ∈ [.and p.1, .or p.1, .xor p.1, .andn p.1]
  bitUnary : ∀ p ∈ bitUnary ins, ins ∈ [.not p.1, .mov p.1]
  bitCount : ∀ p ∈ bitCount ins, ins ∈ [.clz p.1, .ctz p.1, .popc p.1]
  shift : ∀ n, ∀ p ∈ shiftFn n ins, ins ∈ [.shl p.1 p.2.1, .shr p.1 p.2.1, .sra p.1 p.2.1, .rot p.1 p.2.1]
  transfer : ∀ s g i t, ∀ r ∈ transferOf s g i t ins, IsTransfer ins
  mem : ∀ p ∈ memForm ins, IsMem ins

/-- One case split over the instructions serves every family. -/
theorem families (ins : Instr) : Families ins := by
  have no : ∀ {α : Type} {P : α → Prop}, ∀ p ∈ (none : Option α), P p := fun _ h => nomatch h
  cases ins with
  | add | sub | mul | mulh | div | rem | min | max =>
    exact ⟨fun _ h => by cases h; simp, no, no, no, no, fun _ => no, fun _ _ _ _ => no, no⟩
  | abs | neg => exact ⟨no, fun _ h => by cases h; simp, no, no, no, fun _ => no, fun _ _ _ _ => no, no⟩
  | and | or | xor | andn => exact ⟨no, no, fun _ h => by cases h; simp, no, no, fun _ => no, fun _ _ _ _ => no, no⟩
  | not | mov => exact ⟨no, no, no, fun _ h => by cases h; simp, no, fun _ => no, fun _ _ _ _ => no, no⟩
  | clz | ctz | popc => exact ⟨no, no, no, no, fun _ h => by cases h; simp, fun _ => no, fun _ _ _ _ => no, no⟩
  | shl | shr | sra | rot => exact ⟨no, no, no, no, no, fun _ _ h => by cases h; simp, fun _ _ _ _ => no, no⟩
  | bra | jmp | brx | call | callr | ret =>
    exact ⟨no, no, no, no, no, fun _ => no, fun _ _ _ _ _ _ => by constructor, no⟩
  | ld | st | ldg | sct | atom | red | amaxsw =>
    exact ⟨no, no, no, no, no, fun _ => no, fun _ _ _ _ => no, fun _ _ => by constructor⟩
  | _ => exact ⟨no, no, no, no, no, fun _ => no, fun _ _ _ _ => no, no⟩

/-! ### Operands and results as words of the type -/

/-- The word that a type reads of an operand. -/
abbrev word (ty : Ty) (v : DWord) : BitVec (tyBits ty) := v.setWidth (tyBits ty)

theorem tyCut_eq (ty : Ty) (v : DWord) : tyCut ty v = (word ty v).toNat := (BitVec.toNat_setWidth ..).symm

/-- The immediate of an integer or bit type (R100). -/
theorem immVal_eq (h : WordTy ty) (w : Word) : immVal ty w = (word ty (immInt ty w)).toNat := by
  have narrow : ∀ n, n = 32 → w.toNat = ((w.setWidth 64).setWidth n).toNat := by
    rintro _ rfl
    simp only [BitVec.toNat_setWidth]
    omega
  have wide : ∀ n, n = 64 → (w.signExtend 64).toNat = ((w.signExtend 64).setWidth n).toNat := by
    rintro _ rfl
    rw [BitVec.setWidth_eq]
  simp only [WordTy, tysInt, tysBits, List.cons_append, List.nil_append, List.mem_cons, List.not_mem_nil, or_false] at h
  rcases h with rfl | rfl | rfl | rfl | rfl | rfl
  · exact narrow _ rfl
  · exact wide _ rfl
  · exact narrow _ rfl
  · exact wide _ rfl
  · exact narrow _ rfl
  · exact wide _ rfl

/-- Operand B as the instruction finds it among its source values. -/
theorem valB_eq (h : WordTy ty) (pipe : Nat) (v : DWord) (o : SrcB) :
    valB o ty (v :: (srcsB o (tyWide ty)).map (reads s g pipe i)) 1 = (word ty (valueB s g pipe i ty o)).toNat := by
  cases o with
  | op o => exact tyCut_eq ty _
  | imm w => exact immVal_eq h w

/-- What a result of the type's width writes: the low bits of the number. -/
theorem written_word (h : WordTy ty) (n : Nat) :
    (if tyWide ty then BitVec.ofNat 64 n else low32 (BitVec.ofNat 64 n)) = (BitVec.ofNat (tyBits ty) n).setWidth 64 := by
  apply BitVec.eq_of_toNat_eq
  rcases h.width with ⟨w, e⟩ | ⟨w, e⟩
  · simp only [w, e, Bool.false_eq_true, if_false, low32_ofNat, BitVec.toNat_ofNat, BitVec.toNat_setWidth]
  · simp only [w, e, if_true, BitVec.toNat_ofNat, BitVec.toNat_setWidth, Nat.mod_mod]

/-- A source of the type's own width, as the model cuts it to the type. -/
theorem tyCut_reads (h : WordTy ty) (pipe : Nat) (o : Opnd) :
    tyCut ty (reads s g pipe i (o, tyWide ty)) = (reads s g pipe i (o, tyWide ty)).toNat := by
  rcases h.width with ⟨w, e⟩ | ⟨w, e⟩
  · rw [tyCut, w, e]
    exact Nat.mod_eq_of_lt (reads_narrow ..)
  · rw [tyCut, e]
    exact Nat.mod_eq_of_lt (BitVec.isLt _)

/-! ### Instructions of one, two and three sources without flags -/

theorem flags_of_none {r : DWord × Flags} (h : r.2 = .none) : BitVec.ofNat 32 r.2.bits = 0 := by
  rw [h]
  rfl

theorem vec1_wrote {y : Vec1} {pipe : Nat} {wide : Bool} {F : Nat → Calc}
    (run : ∀ s, exec ins s = vec1 ins y pipe wide (fun _ => F) s) (plain : ∀ a, (F a).2 = .none)
    (C : CanForm s g i b t x (form1 y pipe wide)) :
    FormWrote s g i b t x ins (form1 y pipe wide)
      ((form1 y pipe wide).cut (BitVec.ofNat 64 (F (word y.ty (reads s g pipe i (y.a, tyWide y.ty))).toNat).1)) 0 := by
  have computes : Computes ins (form1 y pipe wide) fun _ l => toResult (F (tyCut y.ty (l.getD 0 0))) :=
    ⟨fun _ _ _ _ => rfl, run⟩
  exact computes.wrote_value C (by rw [← tyCut_eq]; rfl) (flags_of_none (plain _))

theorem vec2_wrote {y : Vec2} {pipe : Nat} {wide : Bool} {F : Nat → Nat → Calc} (h : WordTy y.ty)
    (run : ∀ s, exec ins s = vec2 ins y pipe wide (fun _ => F) s) (plain : ∀ a b, (F a b).2 = .none)
    (C : CanForm s g i b t x (form2 y pipe (tyWide y.ty) wide)) :
    FormWrote s g i b t x ins (form2 y pipe (tyWide y.ty) wide)
      ((form2 y pipe (tyWide y.ty) wide).cut (BitVec.ofNat 64 (F (word y.ty (reads s g pipe i (y.a, tyWide y.ty))).toNat
        (word y.ty (valueB s g pipe i y.ty y.b)).toNat).1)) 0 := by
  have computes : Computes ins (form2 y pipe (tyWide y.ty) wide)
      fun _ l => toResult (F (tyCut y.ty (l.getD 0 0)) (valB y.b y.ty l 1)) := ⟨fun _ _ _ _ => rfl, run⟩
  exact computes.wrote_value C (by rw [← tyCut_eq, ← valB_eq h pipe (reads s g pipe i (y.a, tyWide y.ty))]; rfl)
    (flags_of_none (plain _ _))

theorem vec3_wrote {y : Vec3} {pipe : Nat} {wc : Bool} {F : Nat → Nat → Nat → Nat}
    (run : ∀ s, exec ins s = vec3 ins y pipe wc (fun _ a b c => bits (F a b c)) s)
    (C : CanForm s g i b t x (form3 y pipe wc)) :
    FormWrote s g i b t x ins (form3 y pipe wc)
      ((form3 y pipe wc).cut (BitVec.ofNat 64 (F (word y.ty (reads s g pipe i (y.a, tyWide y.ty))).toNat
        (word y.ty (reads s g pipe i (y.b, tyWide y.ty))).toNat (reads s g pipe i (y.c, wc)).toNat))) 0 := by
  have computes : Computes ins (form3 y pipe wc)
      fun _ l => toResult (bits (F (tyCut y.ty (l.getD 0 0)) (tyCut y.ty (l.getD 1 0)) (l.getD 2 0).toNat)) :=
    ⟨fun _ _ _ _ => rfl, run⟩
  exact computes.wrote_value C (by rw [← tyCut_eq, ← tyCut_eq]; rfl) (flags_of_none rfl)

/-- The instruction writes the word that its function makes of the words of its sources. -/
theorem vec1_word {y : Vec1} {pipe : Nat} {F : Nat → Calc} {G : BitVec (tyBits y.ty) → BitVec (tyBits y.ty)}
    (h : WordTy y.ty) (run : ∀ s, exec ins s = vec1 ins y pipe (tyWide y.ty) (fun _ => F) s) (plain : ∀ a, (F a).2 = .none)
    (eq : ∀ a, BitVec.ofNat _ (F a.toNat).1 = G a) (C : CanForm s g i b t x (form1 y pipe (tyWide y.ty))) :
    FormWrote s g i b t x ins (form1 y pipe (tyWide y.ty))
      ((G (word y.ty (reads s g pipe i (y.a, tyWide y.ty)))).setWidth 64) 0 := by
  rw [← eq, ← written_word h]
  exact vec1_wrote run plain C

theorem vec2_word {y : Vec2} {pipe : Nat} {F : Nat → Nat → Calc}
    {G : BitVec (tyBits y.ty) → BitVec (tyBits y.ty) → BitVec (tyBits y.ty)} (h : WordTy y.ty)
    (run : ∀ s, exec ins s = vec2 ins y pipe (tyWide y.ty) (fun _ => F) s) (plain : ∀ a b, (F a b).2 = .none)
    (eq : ∀ a b, BitVec.ofNat _ (F a.toNat b.toNat).1 = G a b)
    (C : CanForm s g i b t x (form2 y pipe (tyWide y.ty) (tyWide y.ty))) :
    FormWrote s g i b t x ins (form2 y pipe (tyWide y.ty) (tyWide y.ty))
      ((G (word y.ty (reads s g pipe i (y.a, tyWide y.ty))) (word y.ty (valueB s g pipe i y.ty y.b))).setWidth 64) 0 := by
  rw [← eq, ← written_word h]
  exact vec2_wrote h run plain C

end Sys2Proof.Claims
end

section
/-! The integer instructions: the results of the obligation O2. -/

namespace Sys2Proof.Claims

open Machine

variable {s : State} {g : Grp} {i : Nat} {b : Block} {t : Thread} {x : BlockCore} {ins : Instr} {f : VecForm} {ty : Ty}
  {n : Nat}

/-! ### Numbers modulo 2 ^ n as words -/

theorem ofNat_wrapTo (n : Nat) (z : Int) : BitVec.ofNat n (wrapTo n z) = BitVec.ofInt n z := by
  apply BitVec.eq_of_toNat_eq
  rw [BitVec.toNat_ofInt, wrapTo, BitVec.toNat_ofNat, Nat.mod_eq_of_lt]
  have pos : ((2 ^ n : Nat) : Int) ≠ 0 := by positivity
  have := Int.emod_lt_of_pos z (show (0 : Int) < ((2 ^ n : Nat) : Int) by positivity)
  have := Int.emod_nonneg z pos
  omega

theorem signedOf_toNat (a : BitVec n) : signedOf n a.toNat = a.toInt := by
  rw [signedOf, BitVec.toInt_eq_toNat_cond, Nat.mod_eq_of_lt a.isLt]

/-- A word as the integer that its type reads. -/
def wordInt (ty : Ty) (a : BitVec (tyBits ty)) : Int := if tySigned ty then a.toInt else (a.toNat : Int)

theorem tyInt_toNat (ty : Ty) (a : BitVec (tyBits ty)) : tyInt ty a.toNat = wordInt ty a := by
  rw [tyInt, intOf, wordInt, signedOf_toNat, Nat.mod_eq_of_lt a.isLt]

theorem ofInt_wordInt (ty : Ty) (a : BitVec (tyBits ty)) : BitVec.ofInt (tyBits ty) (wordInt ty a) = a := by
  unfold wordInt
  split
  · exact BitVec.ofInt_toInt
  · rw [BitVec.ofInt_natCast, BitVec.ofNat_toNat, BitVec.setWidth_eq]

theorem wordInt_eq_zero {a : BitVec (tyBits ty)} : wordInt ty a = 0 ↔ a.toNat = 0 := by
  constructor
  · intro h
    have := ofInt_wordInt ty a
    rw [h] at this
    rw [← this]
    simp
  · intro h
    have : a = 0 := BitVec.eq_of_toNat_eq (by simpa using h)
    rw [this, wordInt]
    simp

theorem wrapOrSat_eq (ty : Ty) (sat : Bool) (r : Int) :
    wrapOrSat ty sat r = bits (wrapTo (tyBits ty) (saturated ty sat r)) := by
  unfold wrapOrSat saturated clampInt intRange tyLo tyHi
  cases tySigned ty <;> simp

theorem ofNat_wrapOrSat (ty : Ty) (sat : Bool) (r : Int) :
    BitVec.ofNat (tyBits ty) (wrapOrSat ty sat r).1 = BitVec.ofInt _ (saturated ty sat r) := by
  rw [wrapOrSat_eq]
  exact ofNat_wrapTo ..

/-! ### The functions of the instructions on words -/

theorem ofNat_mul_mod (a b : BitVec (tyBits ty)) :
    BitVec.ofNat (tyBits ty) (a.toNat * b.toNat % 2 ^ tyBits ty) = BitVec.ofInt _ (wordInt ty a * wordInt ty b) := by
  rw [BitVec.ofInt_mul, ofInt_wordInt, ofInt_wordInt]
  apply BitVec.eq_of_toNat_eq
  rw [BitVec.toNat_ofNat, Nat.mod_mod, BitVec.toNat_mul]

theorem divVal_plain (ty : Ty) (a b : Nat) : (divVal ty a b).2 = .none := by
  unfold divVal
  split <;> rfl

theorem remVal_plain (ty : Ty) (a b : Nat) : (remVal ty a b).2 = .none := by
  unfold remVal
  split <;> rfl

/-- Division by 0 gives all ones (R111). -/
theorem divVal_eq (a b : BitVec (tyBits ty)) : BitVec.ofNat (tyBits ty) (divVal ty a.toNat b.toNat).1 =
    BitVec.ofInt _ (if wordInt ty b = 0 then -1 else (wordInt ty a).tdiv (wordInt ty b)) := by
  unfold divVal
  simp only [tyInt_toNat, wordInt_eq_zero]
  split
  · rw [BitVec.ofInt_neg, BitVec.ofInt_ofNat, BitVec.neg_one_eq_allOnes]
    apply BitVec.eq_of_toNat_eq
    rw [BitVec.toNat_allOnes, bits, BitVec.toNat_ofNat, Nat.mod_eq_of_lt (Nat.sub_lt (Nat.two_pow_pos _) Nat.one_pos)]
  · exact ofNat_wrapTo ..

/-- The remainder of a division by 0 is the dividend (R111). -/
theorem remVal_eq (a b : BitVec (tyBits ty)) : BitVec.ofNat (tyBits ty) (remVal ty a.toNat b.toNat).1 =
    BitVec.ofInt _ (if wordInt ty b = 0 then wordInt ty a else (wordInt ty a).tmod (wordInt ty b)) := by
  unfold remVal
  simp only [tyInt_toNat, wordInt_eq_zero]
  split
  · rw [ofInt_wordInt]
    exact (BitVec.ofNat_toNat ..).trans (BitVec.setWidth_eq _)
  · exact ofNat_wrapTo ..

/-- Of two words one is the smaller, and one the larger. -/
theorem minVal_eq (a b : BitVec (tyBits ty)) : BitVec.ofNat (tyBits ty) (minVal ty a.toNat b.toNat).1 =
    BitVec.ofInt _ (min (wordInt ty a) (wordInt ty b)) := by
  simp only [minVal, bits, tyInt_toNat, min_def]
  split <;> rw [ofInt_wordInt, BitVec.ofNat_toNat, BitVec.setWidth_eq]

theorem maxVal_eq (a b : BitVec (tyBits ty)) : BitVec.ofNat (tyBits ty) (maxVal ty a.toNat b.toNat).1 =
    BitVec.ofInt _ (max (wordInt ty a) (wordInt ty b)) := by
  simp only [maxVal, bits, tyInt_toNat, max_def]
  split <;> rw [ofInt_wordInt, BitVec.ofNat_toNat, BitVec.setWidth_eq]

/-! ### ADD to MAX, ABS and NEG -/

/-- The sources of an instruction of two as integers, and what it writes of the exact result. -/
theorem vec2_int {y : Vec2} {pipe : Nat} {F : Nat → Nat → Calc} (h : Int → Int → Int) (ty : y.ty ∈ tysInt)
    (run : ∀ s, exec ins s = vec2 ins y pipe (tyWide y.ty) (fun _ => F) s) (plain : ∀ a b, (F a b).2 = .none)
    (eq : ∀ a b : BitVec (tyBits y.ty),
      BitVec.ofNat (tyBits y.ty) (F a.toNat b.toNat).1 = BitVec.ofInt (tyBits y.ty) (h (wordInt y.ty a) (wordInt y.ty b)))
    (C : CanForm s g i b t x (form2 y pipe (tyWide y.ty) (tyWide y.ty))) :
    FormWrote s g i b t x ins (form2 y pipe (tyWide y.ty) (tyWide y.ty))
      ((BitVec.ofInt (tyBits y.ty) (h (asInt y.ty (reads s g pipe i (y.a, tyWide y.ty)))
        (asInt y.ty (valueB s g pipe i y.ty y.b)))).setWidth 64) 0 :=
  vec2_word (G := fun a b => .ofInt _ (h (wordInt y.ty a) (wordInt y.ty b))) (.of_int ty) run plain eq C

theorem vec1_int {y : Vec1} {pipe : Nat} {F : Nat → Calc} (h : Int → Int) (ty : y.ty ∈ tysSigned)
    (run : ∀ s, exec ins s = vec1 ins y pipe (tyWide y.ty) (fun _ => F) s) (plain : ∀ a, (F a).2 = .none)
    (eq : ∀ a : BitVec (tyBits y.ty),
      BitVec.ofNat (tyBits y.ty) (F a.toNat).1 = BitVec.ofInt (tyBits y.ty) (h (wordInt y.ty a)))
    (C : CanForm s g i b t x (form1 y pipe (tyWide y.ty))) :
    FormWrote s g i b t x ins (form1 y pipe (tyWide y.ty))
      ((BitVec.ofInt (tyBits y.ty) (h (asInt y.ty (reads s g pipe i (y.a, tyWide y.ty))))).setWidth 64) 0 :=
  vec1_word (G := fun a => .ofInt _ (h (wordInt y.ty a))) (.of_subset ty (by decide)) run plain eq C

theorem intBinary_result {y : Vec2} {h : Int → Int → Int} (hw : ins.wf = true) (form : intBinary ins = some (y, h))
    (hf : vecForm ins = some f) (C : CanForm s g i b t x f) :
    FormWrote s g i b t x ins f
      ((BitVec.ofInt (tyBits y.ty) (h (asInt y.ty (reads s g f.pipe i (y.a, tyWide y.ty)))
        (asInt y.ty (valueB s g f.pipe i y.ty y.b)))).setWidth 64) 0 := by
  have listed := (families ins).intBinary _ form
  simp only [List.mem_cons, List.not_mem_nil, or_false] at listed
  rcases listed with rfl | rfl | rfl | rfl | rfl | rfl | rfl | rfl
  · cases form; cases hf
    exact vec2_int (F := addVal y.ty y.variant) (fun p q => saturated y.ty y.variant (p + q))
      (wf_tys hw) (fun _ => rfl) (fun _ _ => rfl)
      (fun a b => by rw [addVal, ofNat_wrapOrSat, tyInt_toNat, tyInt_toNat]) C
  · cases form; cases hf
    exact vec2_int (F := subVal y.ty y.variant) (fun p q => saturated y.ty y.variant (p - q))
      (wf_tys hw) (fun _ => rfl) (fun _ _ => rfl)
      (fun a b => by rw [subVal, ofNat_wrapOrSat, tyInt_toNat, tyInt_toNat]) C
  · cases form; cases hf
    exact vec2_int (F := mulVal y.ty) (fun p q => p * q)
      (wf_tys hw) (fun _ => rfl) (fun _ _ => rfl) ofNat_mul_mod C
  · cases form; cases hf
    exact vec2_int (F := mulhVal y.ty) (fun p q => p * q / 2 ^ tyBits y.ty)
      (wf_tys hw) (fun _ => rfl) (fun _ _ => rfl) (fun a b => by simp [mulhVal, tyInt_toNat, bits, ofNat_wrapTo]) C
  · cases form; cases hf
    exact vec2_int (F := divVal y.ty) (fun p q => if q = 0 then -1 else p.tdiv q)
      (wf_tys hw) (fun _ => rfl) (divVal_plain _) divVal_eq C
  · cases form; cases hf
    exact vec2_int (F := remVal y.ty) (fun p q => if q = 0 then p else p.tmod q)
      (wf_tys hw) (fun _ => rfl) (remVal_plain _) remVal_eq C
  · cases form; cases hf
    exact vec2_int (F := minVal y.ty) (fun p q => min p q)
      (wf_tys hw) (fun _ => rfl) (fun _ _ => rfl) minVal_eq C
  · cases form; cases hf
    exact vec2_int (F := maxVal y.ty) (fun p q => max p q)
      (wf_tys hw) (fun _ => rfl) (fun _ _ => rfl) maxVal_eq C

theorem intUnary_result {y : Vec1} {h : Int → Int} (hw : ins.wf = true) (form : intUnary ins = some (y, h))
    (hf : vecForm ins = some f) (C : CanForm s g i b t x f) :
    FormWrote s g i b t x ins f
      ((BitVec.ofInt (tyBits y.ty) (h (asInt y.ty (reads s g f.pipe i (y.a, tyWide y.ty))))).setWidth 64) 0 := by
  have listed := (families ins).intUnary _ form
  simp only [List.mem_cons, List.not_mem_nil, or_false] at listed
  rcases listed with rfl | rfl
  · cases form; cases hf
    exact vec1_int (F := fun a => wrapOrSat y.ty y.variant |tyInt y.ty a|) (fun p => saturated y.ty y.variant |p|)
      (vec1_wf_ty hw) (fun _ => rfl) (fun _ => rfl) (fun a => by rw [ofNat_wrapOrSat, tyInt_toNat]) C
  · cases form; cases hf
    exact vec1_int (F := fun a => wrapOrSat y.ty y.variant (-(tyInt y.ty a))) (fun p => saturated y.ty y.variant (-p))
      (vec1_wf_ty hw) (fun _ => rfl) (fun _ => rfl) (fun a => by rw [ofNat_wrapOrSat, tyInt_toNat]) C

/-! ### CMP, SEL, MAD and FUNNEL -/

theorem condHolds_iff (c : Cond) (p q : Int) : condHolds c p q = true ↔ cmpHolds c p q := by
  cases c <;> simp [condHolds, cmpHolds]

theorem cmp_result {y : Vec2} {c : Cond} (hw : (Instr.cmp y c).wf = true) (hf : vecForm (.cmp y c) = some f)
    (C : CanForm s g i b t x f) :
    let p := asInt y.ty (reads s g 0 i (y.a, tyWide y.ty))
    let q := asInt y.ty (valueB s g 0 i y.ty y.b)
    (cmpHolds c p q → FormWrote s g i b t x (.cmp y c) f 1 0) ∧
      (¬ cmpHolds c p q → FormWrote s g i b t x (.cmp y c) f 0 0) := by
  intro p q
  cases hf
  have course := vec2_wrote (ins := .cmp y c) (F := fun a b => bits (boolNat (condHolds c (tyInt y.ty a) (tyInt y.ty b))))
    (.of_int (wf_tys hw)) (fun _ => rfl) (fun _ _ => rfl) C
  rw [tyInt_toNat, tyInt_toNat] at course
  change FormWrote s g i b t x _ _ (low32 (BitVec.ofNat 64 (boolNat (condHolds c p q)))) 0 at course
  rw [← condHolds_iff]
  refine ⟨fun holds => ?_, fun fails => ?_⟩
  · rw [holds] at course
    exact course
  · rw [Bool.not_eq_true] at fails
    rw [fails] at course
    exact course

theorem sel_result {y : Vec3} (hw : (Instr.sel y).wf = true) (hf : vecForm (.sel y) = some f) (C : CanForm s g i b t x f) :
    FormWrote s g i b t x (.sel y) f
      (if reads s g 0 i (y.c, false) ≠ 0 then reads s g 0 i (y.a, tyWide y.ty)
        else reads s g 0 i (y.b, tyWide y.ty)) 0 := by
  cases hf
  have ty : WordTy y.ty := .of_bits (vec3_wf_ty (Bool.and_eq_true_iff.1 hw).1)
  have course := vec3_wrote (ins := .sel y) (F := fun a b c => if c = 0 then b else a) (fun _ => rfl) C
  have whole : ∀ o : Opnd, (if tyWide y.ty then BitVec.ofNat 64 (word y.ty (reads s g 0 i (o, tyWide y.ty))).toNat
      else low32 (BitVec.ofNat 64 (word y.ty (reads s g 0 i (o, tyWide y.ty))).toNat)) = reads s g 0 i (o, tyWide y.ty) :=
    fun o => by
      rw [← tyCut_eq, tyCut_reads ty, BitVec.ofNat_toNat, BitVec.setWidth_eq]
      split
      · rfl
      · next narrow =>
        rw [Bool.not_eq_true] at narrow
        rw [narrow]
        exact low32_of_lt (reads_narrow ..)
  have zero : (reads s g 0 i (y.c, false)).toNat = 0 ↔ reads s g 0 i (y.c, false) = 0 :=
    ⟨fun h => BitVec.eq_of_toNat_eq h, fun h => by rw [h]; rfl⟩
  by_cases h : reads s g 0 i (y.c, false) = 0
  · rw [if_pos (zero.2 h)] at course
    rw [if_neg (not_not.2 h), ← whole y.b]
    exact course
  · rw [if_neg (mt zero.1 h)] at course
    rw [if_pos h, ← whole y.a]
    exact course

theorem mad_result {y : Vec3} (hw : (Instr.mad y).wf = true) (hf : vecForm (.mad y) = some f) (C : CanForm s g i b t x f) :
    FormWrote s g i b t x (.mad y) f
      (low32 (reads s g 0 i (y.a, false) * reads s g 0 i (y.b, false) + reads s g 0 i (y.c, false) +
        (y.imm.getD 0).setWidth 64)) 0 := by
  cases hf
  have every : ∀ ty ∈ tysMad, tyWide ty = false := by decide
  have narrow := every _ (vec3_wf_ty hw)
  have ty : WordTy y.ty := .of_subset (vec3_wf_ty hw) (by decide)
  have course := vec3_wrote (ins := .mad y) (F := fun a b c => (a * b + c + (y.imm.getD 0).toNat) % 2 ^ 32) (fun _ => rfl) C
  rw [← tyCut_eq, ← tyCut_eq, tyCut_reads ty, tyCut_reads ty] at course
  have cut : ∀ v, (form3 y 0 false).cut v = low32 v := fun v => by
    show (if tyWide y.ty then v else low32 v) = _
    rw [narrow]
    rfl
  rw [cut, narrow] at course
  convert course using 1
  apply BitVec.eq_of_toNat_eq
  rw [toNat_low32, low32_ofNat, Nat.mod_mod, BitVec.toNat_ofNat, BitVec.toNat_add, BitVec.toNat_add, BitVec.toNat_mul,
    BitVec.toNat_setWidth]
  omega

/-- FUNNEL's results as parts of the word that its operands make (R108). -/
theorem funnelVal_eq (left : Bool) {a b : DWord} (k : Nat) (ha : a.toNat < 2 ^ 32) (hb : b.toNat < 2 ^ 32) :
    let w := pairOf (a.setWidth 32) (b.setWidth 32)
    BitVec.ofNat 64 (funnelVal left a.toNat b.toNat k) =
      if left then (w <<< (k % 32)) >>> 32 else low32 (w >>> (k % 32)) := by
  intro w
  have hw : w.toNat = b.toNat * 2 ^ 32 + a.toNat := by
    rw [toNat_pairOf, BitVec.toNat_setWidth, BitVec.toNat_setWidth, Nat.mod_eq_of_lt ha, Nat.mod_eq_of_lt hb]
  unfold funnelVal
  dsimp only
  rw [← hw]
  apply BitVec.eq_of_toNat_eq
  cases left with
  | true =>
    simp only [if_true, BitVec.toNat_ushiftRight, BitVec.toNat_shiftLeft, BitVec.toNat_ofNat, Nat.shiftLeft_eq,
      Nat.shiftRight_eq_div_pow]
    omega
  | false =>
    simp only [Bool.false_eq_true, if_false, toNat_low32, BitVec.toNat_ushiftRight, BitVec.toNat_ofNat,
      Nat.shiftRight_eq_div_pow]
    omega

theorem funnel_result {y : Vec3} (hw : (Instr.funnel y).wf = true) (hf : vecForm (.funnel y) = some f)
    (C : CanForm s g i b t x f) :
    let w := pairOf ((reads s g 1 i (y.a, false)).setWidth 32) ((reads s g 1 i (y.b, false)).setWidth 32)
    let k := (reads s g 1 i (y.c, false)).toNat % 32
    FormWrote s g i b t x (.funnel y) f (if y.variant then (w <<< k) >>> 32 else low32 (w >>> k)) 0 := by
  intro w k
  cases hf
  have type : y.ty = .b32 := List.mem_singleton.1 (vec3_wf_ty (Bool.and_eq_true_iff.1 hw).1)
  have ty : WordTy y.ty := by rw [type]; exact .of_bits (by decide)
  have course := vec3_wrote (ins := .funnel y) (F := funnelVal y.variant) (fun _ => rfl) C
  rw [← tyCut_eq, ← tyCut_eq, tyCut_reads ty, tyCut_reads ty] at course
  have cut : ∀ v, (form3 y 1 false).cut v = low32 v := fun v => by
    show (if tyWide y.ty then v else low32 v) = _
    rw [type]
    rfl
  have narrow : tyWide y.ty = false := by rw [type]; rfl
  rw [cut, narrow, funnelVal_eq _ _ (reads_narrow ..) (reads_narrow ..)] at course
  convert course using 1
  refine (low32_of_lt ?_).symm
  split
  · rw [BitVec.toNat_ushiftRight, Nat.shiftRight_eq_div_pow]
    have := (w <<< k).isLt
    omega
  · rw [toNat_low32]
    exact Nat.mod_lt _ (by decide)

/-- Settles O2: each function of the model is that of the exact integers, kept to the words of the type. -/
theorem integerResults : Obligations.IntegerResults :=
  ⟨⟨fun _ _ _ _ hw form hf _ _ _ _ _ _ C => intBinary_result hw form hf C,
      fun _ _ _ _ hw form hf _ _ _ _ _ _ C => intUnary_result hw form hf C⟩,
    fun _ _ _ hw hf _ _ _ _ _ _ C => cmp_result hw hf C, fun _ _ hw hf _ _ _ _ _ _ C => sel_result hw hf C,
    fun _ _ hw hf _ _ _ _ _ _ C => mad_result hw hf C, fun _ _ hw hf _ _ _ _ _ _ C => funnel_result hw hf C⟩

end Sys2Proof.Claims
end

section
/-! The bit instructions, the counts, MOVI and DDOT: the results of the obligation O3. -/

namespace Sys2Proof.Claims

open Machine

variable {s : State} {g : Grp} {i : Nat} {b : Block} {t : Thread} {x : BlockCore} {ins : Instr} {f : VecForm} {ty : Ty}
  {n : Nat}

/-! ### Bit by bit -/

/-- What a bitwise instruction writes: a function of whole registers that keeps to the words of the type. -/
theorem vec2_bits {y : Vec2} {F : Nat → Nat → Calc} (h : DWord → DWord → DWord) (ty : y.ty ∈ tysBits)
    (run : ∀ s, exec ins s = vec2 ins y 0 (tyWide y.ty) (fun _ => F) s) (plain : ∀ a b, (F a b).2 = .none)
    (eq : ∀ a b, BitVec.ofNat (tyBits y.ty) (F (word y.ty a).toNat (word y.ty b).toNat).1 = (h a b).setWidth (tyBits y.ty))
    (C : CanForm s g i b t x (form2 y 0 (tyWide y.ty) (tyWide y.ty))) :
    FormWrote s g i b t x ins (form2 y 0 (tyWide y.ty) (tyWide y.ty))
      (cutTy y.ty (h (reads s g 0 i (y.a, tyWide y.ty)) (valueB s g 0 i y.ty y.b))) 0 := by
  rw [cutTy, ← eq, ← written_word (.of_bits ty)]
  exact vec2_wrote (.of_bits ty) run plain C

theorem vec1_bits {y : Vec1} {F : Nat → Calc} (h : DWord → DWord) (ty : y.ty ∈ tysBits)
    (run : ∀ s, exec ins s = vec1 ins y 0 (tyWide y.ty) (fun _ => F) s) (plain : ∀ a, (F a).2 = .none)
    (eq : ∀ a, BitVec.ofNat (tyBits y.ty) (F (word y.ty a).toNat).1 = (h a).setWidth (tyBits y.ty))
    (C : CanForm s g i b t x (form1 y 0 (tyWide y.ty))) :
    FormWrote s g i b t x ins (form1 y 0 (tyWide y.ty)) (cutTy y.ty (h (reads s g 0 i (y.a, tyWide y.ty)))) 0 := by
  rw [cutTy, ← eq, ← written_word (.of_bits ty)]
  exact vec1_wrote run plain C

/-- A number that is a word's is that word. -/
theorem ofNat_eq_word {m : Nat} {a : BitVec n} (h : m = a.toNat) : BitVec.ofNat n m = a := by
  rw [h, BitVec.ofNat_toNat, BitVec.setWidth_eq]

theorem bitBinary_result {y : Vec2} {h : DWord → DWord → DWord} (hw : ins.wf = true) (form : bitBinary ins = some (y, h))
    (hf : vecForm ins = some f) (C : CanForm s g i b t x f) :
    FormWrote s g i b t x ins f
      (cutTy y.ty (h (reads s g f.pipe i (y.a, tyWide y.ty)) (valueB s g f.pipe i y.ty y.b))) 0 := by
  have listed := (families ins).bitBinary _ form
  simp only [List.mem_cons, List.not_mem_nil, or_false] at listed
  rcases listed with rfl | rfl | rfl | rfl
  · cases form; cases hf
    exact vec2_bits (F := fun p q => bits (p &&& q)) (fun p q => p &&& q) (wf_tys hw) (fun _ => rfl) (fun _ _ => rfl)
      (fun p q => ofNat_eq_word (by rw [BitVec.setWidth_and, BitVec.toNat_and]; rfl)) C
  · cases form; cases hf
    exact vec2_bits (F := fun p q => bits (p ||| q)) (fun p q => p ||| q) (wf_tys hw) (fun _ => rfl) (fun _ _ => rfl)
      (fun p q => ofNat_eq_word (by rw [BitVec.setWidth_or, BitVec.toNat_or]; rfl)) C
  · cases form; cases hf
    exact vec2_bits (F := fun p q => bits (p ^^^ q)) (fun p q => p ^^^ q) (wf_tys hw) (fun _ => rfl) (fun _ _ => rfl)
      (fun p q => ofNat_eq_word (by rw [BitVec.setWidth_xor, BitVec.toNat_xor]; rfl)) C
  · cases form; cases hf
    have ty : WordTy y.ty := .of_bits (wf_tys hw)
    exact vec2_bits (F := fun p q => bits (p &&& (2 ^ tyBits y.ty - 1 - q))) (fun p q => p &&& ~~~q) (wf_tys hw)
      (fun _ => rfl) (fun _ _ => rfl)
      (fun p q => ofNat_eq_word (by
        rw [BitVec.setWidth_and, BitVec.setWidth_not ty.bits_le, BitVec.toNat_and, BitVec.toNat_not]
        rfl)) C

theorem bitUnary_result {y : Vec1} {h : DWord → DWord} (hw : ins.wf = true) (form : bitUnary ins = some (y, h))
    (hf : vecForm ins = some f) (C : CanForm s g i b t x f) :
    FormWrote s g i b t x ins f (cutTy y.ty (h (reads s g f.pipe i (y.a, tyWide y.ty)))) 0 := by
  have listed := (families ins).bitUnary _ form
  simp only [List.mem_cons, List.not_mem_nil, or_false] at listed
  rcases listed with rfl | rfl
  · cases form; cases hf
    have ty : WordTy y.ty := .of_bits (vec1_wf_ty hw)
    exact vec1_bits (F := fun p => bits (2 ^ tyBits y.ty - 1 - p)) (fun p => ~~~p) (vec1_wf_ty hw)
      (fun _ => rfl) (fun _ => rfl)
      (fun p => ofNat_eq_word (by rw [BitVec.setWidth_not ty.bits_le, BitVec.toNat_not]; rfl)) C
  · cases form; cases hf
    exact vec1_bits (F := bits) (fun p => p) (vec1_wf_ty hw) (fun _ => rfl) (fun _ => rfl) (fun _ => ofNat_eq_word rfl) C

/-! ### MOVI -/

theorem movi_result {com : Com} {out : Out} {imm : DWord} {wide : Bool} (hw : (Instr.movi com out ty imm wide).wf = true)
    (hf : vecForm (.movi com out ty imm wide) = some f) (C : CanForm s g i b t x f) :
    FormWrote s g i b t x (.movi com out ty imm wide) f
      (if ty = .b64 ∧ wide = false then (imm.setWidth 32).signExtend 64 else imm) 0 := by
  cases hf
  refine Computes.wrote_value
    (fn := fun _ _ => (if !wide && tyWide ty then (imm.setWidth 32).signExtend 64 else imm, .none))
    ⟨fun _ _ _ _ => rfl, fun _ => rfl⟩ C ?_ rfl
  obtain ⟨-, form⟩ := Bool.and_eq_true_iff.1 hw
  cases wide with
  | true =>
    obtain rfl : ty = .b64 := of_decide_eq_true form
    rfl
  | false =>
    obtain ⟨type, narrow⟩ := Bool.and_eq_true_iff.1 form
    have types : ty ∈ [Ty.b32, Ty.b64] := List.contains_iff_mem.1 type
    rcases List.mem_pair.1 types with rfl | rfl
    · exact low32_of_lt (of_decide_eq_true narrow)
    · rfl

/-! ### Counts -/

theorem countBits_succ (n : Nat) (f : Nat → Bool) : countBits (n + 1) f = boolNat (f n) + countBits n f := by
  unfold countBits
  rw [List.range_succ, List.filter_append, List.length_append, Nat.add_comm]
  cases h : f n <;> simp [h, boolNat]

theorem countBits_congr {f h : Nat → Bool} (same : ∀ k < n, f k = h k) : countBits n f = countBits n h :=
  congrArg List.length (List.filter_congr fun k hk => same k (List.mem_range.1 hk))

/-- A count of positions that are those below a bound is the bound. -/
theorem countBits_below {m : Nat} (h : m ≤ n) : countBits n (fun k => decide (k < m)) = m := by
  have all : ∀ n, countBits n (fun k => decide (k < m)) = min n m := by
    intro n
    induction n with
    | zero => simp [countBits]
    | succ n ih =>
      rw [countBits_succ, ih, boolNat]
      by_cases less : n < m <;> simp [less] <;> omega
  rw [all, min_eq_right h]

theorem popc_eq (a n : Nat) : popc a n = countBits n fun k => a.testBit k := by
  induction n with
  | zero => rfl
  | succ n ih => rw [popc, ih, countBits_succ]

theorem clzVal_eq {a : Nat} (n : Nat) (h : a < 2 ^ n) : clzVal n a = countBits n fun k => decide (a < 2 ^ (n - 1 - k)) := by
  unfold clzVal
  by_cases zero : a = 0
  · rw [if_pos zero]
    refine (countBits_below (le_refl n)).symm.trans (countBits_congr fun k hk => ?_)
    rw [zero, decide_eq_true hk, decide_eq_true (Nat.two_pow_pos _)]
  · rw [if_neg zero, ← countBits_below (Nat.le_trans (Nat.sub_le ..) (Nat.sub_le n 1))]
    refine countBits_congr fun k hk => decide_eq_decide.2 ?_
    have := Nat.log2_lt (k := n - 1 - k) zero
    have := (Nat.log2_lt (k := n) zero).2 h
    omega

/-- The search for a one bit upward from `k`: it ends on the first. -/
theorem ctzGo_spec (a f k : Nat) : k ≤ ctzGo a f k ∧ ctzGo a f k ≤ k + f ∧
    (∀ j, k ≤ j → j < ctzGo a f k → a.testBit j = false) ∧
      (ctzGo a f k < k + f → a.testBit (ctzGo a f k) = true) := by
  induction f generalizing k with
  | zero => exact ⟨le_refl _, le_refl _, fun j _ _ => by rw [ctzGo] at *; omega, fun h => absurd h (lt_irrefl _)⟩
  | succ f ih =>
    rw [ctzGo]
    split
    · next one => exact ⟨le_refl _, Nat.le_add_right .., fun j _ _ => by omega, fun _ => one⟩
    · next zero =>
      obtain ⟨low, high, before, at'⟩ := ih (k + 1)
      refine ⟨by omega, by omega, fun j hk hj => ?_, fun h => at' (by omega)⟩
      rcases Nat.eq_or_lt_of_le hk with rfl | hk
      · exact Bool.not_eq_true _ ▸ zero
      · exact before j hk hj

/-- A number is a multiple of a power of two when its bits below are zero. -/
theorem mod_two_pow_eq_zero_iff (a k : Nat) : a % 2 ^ k = 0 ↔ ∀ j < k, a.testBit j = false := by
  constructor
  · intro h j hj
    have := Nat.testBit_mod_two_pow a k j
    rwa [h, Nat.zero_testBit, decide_eq_true hj, Bool.true_and, eq_comm] at this
  · intro h
    refine Nat.eq_of_testBit_eq fun j => ?_
    rw [Nat.testBit_mod_two_pow, Nat.zero_testBit]
    by_cases hj : j < k
    · rw [h j hj, Bool.and_false]
    · rw [decide_eq_false hj, Bool.false_and]

theorem ctzVal_eq (n a : Nat) : ctzVal n a = countBits n fun k => decide (a % 2 ^ (k + 1) = 0) := by
  obtain ⟨-, high, before, at'⟩ := ctzGo_spec a n 0
  rw [Nat.zero_add] at high at'
  unfold ctzVal
  rw [← countBits_below high]
  refine countBits_congr fun k hk => decide_eq_decide.2 ?_
  rw [mod_two_pow_eq_zero_iff]
  constructor
  · exact fun h j hj => before j (Nat.zero_le j) (by omega)
  · intro h
    by_contra past
    have := h _ (show ctzGo a n 0 < k + 1 by omega)
    rw [at' (by omega)] at this
    exact Bool.noConfusion this

theorem countBits_le (n : Nat) (f : Nat → Bool) : countBits n f ≤ n :=
  Nat.le_trans (List.length_filter_le ..) (Nat.le_of_eq List.length_range)

/-- A count of the bits of a word fits a register. -/
theorem low32_count (h : WordTy ty) (f : Nat → Bool) :
    low32 (BitVec.ofNat 64 (countBits (tyBits ty) f)) = BitVec.ofNat 64 (countBits (tyBits ty) f) := by
  have := countBits_le (tyBits ty) f
  have := h.bits_le
  rw [low32_ofNat, Nat.mod_eq_of_lt (by omega)]

theorem toNat_word_reads (h : WordTy ty) (pipe : Nat) (o : Opnd) :
    (word ty (reads s g pipe i (o, tyWide ty))).toNat = (reads s g pipe i (o, tyWide ty)).toNat := by
  rw [← tyCut_eq, tyCut_reads h]

/-- What a counting instruction writes. -/
theorem vec1_count {y : Vec1} {F : Nat → Nat} {h : DWord → Nat → Bool} (ty : y.ty ∈ tysBits)
    (run : ∀ s, exec ins s = vec1 ins y 1 false (fun _ a => bits (F a)) s)
    (eq : ∀ a : DWord, a.toNat < 2 ^ tyBits y.ty → F a.toNat = countBits (tyBits y.ty) (h a))
    (C : CanForm s g i b t x (form1 y 1 false)) :
    FormWrote s g i b t x ins (form1 y 1 false)
      (BitVec.ofNat 64 (countBits (tyBits y.ty) (h (reads s g 1 i (y.a, tyWide y.ty))))) 0 := by
  have same := toNat_word_reads (s := s) (g := g) (i := i) (.of_bits ty) 1 y.a
  rw [← low32_count (.of_bits ty), ← eq _ (by rw [← same]; exact BitVec.isLt _), ← same]
  exact vec1_wrote run (fun _ => rfl) C

theorem bitCount_result {y : Vec1} {h : Nat → DWord → Nat} (hw : ins.wf = true) (form : bitCount ins = some (y, h))
    (hf : vecForm ins = some f) (C : CanForm s g i b t x f) :
    FormWrote s g i b t x ins f (BitVec.ofNat 64 (h (tyBits y.ty) (reads s g 1 i (y.a, tyWide y.ty)))) 0 := by
  have listed := (families ins).bitCount _ form
  simp only [List.mem_cons, List.not_mem_nil, or_false] at listed
  rcases listed with rfl | rfl | rfl
  · cases form; cases hf
    exact vec1_count (F := clzVal (tyBits y.ty)) (h := fun a k => decide (a.toNat < 2 ^ (tyBits y.ty - 1 - k)))
      (vec1_wf_ty hw) (fun _ => rfl) (fun _ less => clzVal_eq _ less) C
  · cases form; cases hf
    exact vec1_count (F := ctzVal (tyBits y.ty)) (h := fun a k => decide (a.toNat % 2 ^ (k + 1) = 0))
      (vec1_wf_ty hw) (fun _ => rfl) (fun _ _ => ctzVal_eq ..) C
  · cases form; cases hf
    exact vec1_count (F := fun a => popc a (tyBits y.ty)) (h := fun a k => a.getLsbD k) (vec1_wf_ty hw)
      (fun _ => rfl) (fun _ _ => popc_eq ..) C

theorem dham_result {y : Vec2} (hw : (Instr.dham y).wf = true) (hf : vecForm (.dham y) = some f)
    (C : CanForm s g i b t x f) :
    FormWrote s g i b t x (.dham y) f (BitVec.ofNat 64 (countBits (tyBits y.ty) fun k =>
      (reads s g 1 i (y.a, tyWide y.ty)).getLsbD k != (valueB s g 1 i y.ty y.b).getLsbD k)) 0 := by
  cases hf
  have ty : WordTy y.ty := .of_bits (wf_tys hw)
  rw [← low32_count ty]
  convert vec2_wrote ty (ins := .dham y) (F := fun p q => bits (popc (p ^^^ q) (tyBits y.ty))) (fun _ => rfl)
    (fun _ _ => rfl) C using 1
  refine congrArg (fun m => low32 (BitVec.ofNat 64 m)) ?_
  rw [popc_eq]
  refine countBits_congr fun k hk => ?_
  rw [Nat.testBit_xor, BitVec.testBit_toNat, BitVec.testBit_toNat, BitVec.getLsbD_setWidth, BitVec.getLsbD_setWidth,
    decide_eq_true hk, Bool.true_and, Bool.true_and]

/-! ### BREV -/

/-- Reversing the low `k` bits, and moving them to the top of `n`. -/
theorem brevVal_eq (n a : Nat) {k : Nat} (h : k ≤ n) :
    brevVal n a k = (BitVec.ofNat k a).reverse.toNat * 2 ^ (n - k) := by
  induction k with
  | zero =>
    rw [brevVal, Subsingleton.elim (BitVec.ofNat 0 a).reverse 0, BitVec.ofNat_eq_ofNat, BitVec.toNat_ofNat, Nat.zero_mod,
      Nat.zero_mul]
  | succ k ih =>
    have low : (BitVec.ofNat (k + 1) a).setWidth k = BitVec.ofNat k a := by
      apply BitVec.eq_of_toNat_eq
      rw [BitVec.toNat_setWidth, BitVec.toNat_ofNat, BitVec.toNat_ofNat,
        Nat.mod_mod_of_dvd _ (pow_dvd_pow 2 (Nat.le_succ k))]
    have top : (BitVec.ofNat (k + 1) a).msb = a.testBit k := by
      rw [BitVec.msb_eq_getLsbD_last, BitVec.getLsbD_ofNat]
      simp
    have double : 2 ^ (n - k) = 2 * 2 ^ (n - (k + 1)) := by
      rw [← pow_succ']
      congr 1
      omega
    rw [brevVal, ih (by omega), BitVec.reverse.eq_2, BitVec.toNat_concat, BitVec.truncate_eq_setWidth, low, top, double,
      Nat.sub_sub, Nat.add_comm 1 k]
    cases a.testBit k <;> simp [boolNat] <;> ring

theorem brev_result {y : Vec1} (hw : (Instr.brev y).wf = true) (hf : vecForm (.brev y) = some f)
    (C : CanForm s g i b t x f) : ∃ v, FormWrote s g i b t x (.brev y) f v 0 ∧ ∀ k < 64, v.getLsbD k =
      (decide (k < tyBits y.ty) && (reads s g 1 i (y.a, tyWide y.ty)).getLsbD (tyBits y.ty - 1 - k)) := by
  cases hf
  have ty : WordTy y.ty := .of_bits (vec1_wf_ty hw)
  refine ⟨_, vec1_word (G := BitVec.reverse) (F := fun a => bits (brevVal (tyBits y.ty) a (tyBits y.ty))) ty
    (fun _ => rfl) (fun _ => rfl) (fun a => ofNat_eq_word ?_) C, fun k hk => ?_⟩
  · rw [bits, brevVal_eq _ _ (le_refl _), Nat.sub_self, pow_zero, Nat.mul_one, ofNat_eq_word rfl]
  · rw [BitVec.getLsbD_setWidth, decide_eq_true hk, Bool.true_and, BitVec.getLsbD_reverse, BitVec.getMsbD,
      BitVec.getLsbD_setWidth]
    by_cases less : k < tyBits y.ty
    · rw [decide_eq_true (show tyBits y.ty - 1 - k < tyBits y.ty by omega), Bool.true_and]
    · rw [decide_eq_false less, Bool.false_and, Bool.false_and]

/-! ### DDOT -/

theorem signedOf_eq (n : Nat) (v : DWord) : signedOf n v.toNat = (v.setWidth n).toInt := by
  rw [← signedOf_toNat, BitVec.toNat_setWidth, signedOf, signedOf, Nat.mod_mod]

/-- An element of a packed operand, as its type reads it. -/
theorem intOf_elemOf (uns : Bool) (w k : Nat) (v : DWord) : intOf w (!uns) (elemOf w v.toNat k) =
    if uns then (((v >>> (w * k)).setWidth w).toNat : Int) else ((v >>> (w * k)).setWidth w).toInt := by
  have elem : elemOf w v.toNat k = ((v >>> (w * k)).setWidth w).toNat := by
    rw [BitVec.toNat_setWidth, BitVec.toNat_ushiftRight, Nat.shiftRight_eq_div_pow]
    rfl
  rw [elem, intOf, signedOf_toNat, Nat.mod_eq_of_lt (BitVec.isLt _)]
  cases uns <;> rfl

theorem ddot_result {com : Com} {out : Out} {x8 aUns bUns sat : Bool} {a b' c : Opnd}
    (hf : vecForm (.ddot com out x8 aUns bUns sat a b' c) = some f) (C : CanForm s g i b t x f) :
    let w := if x8 then 4 else 8
    let elem (uns : Bool) (o : Opnd) (k : Nat) : Int :=
      let e := ((reads s g 1 i (o, false)) >>> (w * k)).setWidth w
      if uns then (e.toNat : Int) else e.toInt
    let r := ((List.range (if x8 then 8 else 4)).map fun k => elem aUns a k * elem bUns b' k).sum +
      ((reads s g 1 i (c, false)).setWidth 32).toInt
    FormWrote s g i b t x (.ddot com out x8 aUns bUns sat a b' c) f
      ((BitVec.ofInt 32 (if sat then max (-(2 ^ 31)) (min (2 ^ 31 - 1) r) else r)).setWidth 64) 0 := by
  intro w elem r
  cases hf
  refine Computes.wrote_value (fn := fun _ l => toResult (bits (ddotVal x8 aUns bUns sat (l.getD 0 0).toNat
    (l.getD 1 0).toNat (l.getD 2 0).toNat))) ⟨fun _ _ _ _ => rfl, fun _ => rfl⟩ C ?_ rfl
  refine (written_word (ty := .b32) (.of_bits (by decide)) _).trans (congrArg (BitVec.setWidth 64) ?_)
  show BitVec.ofNat 32 (wrapTo 32 _) = _
  rw [ofNat_wrapTo]
  have sum : signedOf 32 (reads s g 1 i (c, false)).toNat + ((List.range (if x8 then 8 else 4)).map fun k =>
      intOf w (!aUns) (elemOf w (reads s g 1 i (a, false)).toNat k) *
        intOf w (!bUns) (elemOf w (reads s g 1 i (b', false)).toNat k)).sum = r := by
    simp only [signedOf_eq, intOf_elemOf]
    exact Int.add_comm ..
  exact congrArg (fun z => BitVec.ofInt 32 (if sat then clampInt (-(2 ^ 31)) (2 ^ 31 - 1) z else z)) sum

/-- Settles O3: the functions of the model on the words of the type are the bitwise ones, and its counts those of the
positions. -/
theorem bitwiseAndCountResults : Obligations.BitwiseAndCountResults :=
  ⟨⟨fun _ _ _ _ hw form hf _ _ _ _ _ _ C => bitBinary_result hw form hf C,
      fun _ _ _ _ hw form hf _ _ _ _ _ _ C => bitUnary_result hw form hf C,
      fun _ _ _ _ _ _ hw hf _ _ _ _ _ _ C => movi_result hw hf C⟩,
    fun _ _ _ _ hw form hf _ _ _ _ _ _ C => bitCount_result hw form hf C,
    fun _ _ hw hf _ _ _ _ _ _ C => brev_result hw hf C, fun _ _ hw hf _ _ _ _ _ _ C => dham_result hw hf C,
    fun _ _ _ _ _ _ _ _ _ _ hf _ _ _ _ _ _ C => ddot_result hf C⟩

end Sys2Proof.Claims
end

section
/-! The shifts: the results of the obligation O4, for every count, and where the count stands in the word. -/

namespace Sys2Proof.Claims

open Machine

variable {s : State} {g : Grp} {i : Nat} {b : Block} {t : Thread} {x : BlockCore} {ins : Instr} {f : VecForm} {n : Nat}

/-! ### The functions of R110 -/

theorem shlVal_eq (a : BitVec n) (k : Nat) : BitVec.ofNat n (shlVal n a.toNat k) = a <<< k := by
  apply BitVec.eq_of_toNat_eq
  rw [BitVec.toNat_ofNat, BitVec.toNat_shiftLeft, Nat.shiftLeft_eq, shlVal]
  split
  · exact Nat.mod_mod ..
  · rw [Nat.zero_mod, Nat.mod_eq_zero_of_dvd (Dvd.dvd.mul_left (pow_dvd_pow 2 (by omega)) _)]

theorem shrVal_eq (a : BitVec n) (k : Nat) : BitVec.ofNat n (shrVal n a.toNat k) = a >>> k := by
  refine ofNat_eq_word ?_
  rw [BitVec.toNat_ushiftRight, Nat.shiftRight_eq_div_pow, shrVal]
  split
  · rfl
  · exact (Nat.div_eq_of_lt (Nat.lt_of_lt_of_le a.isLt (Nat.pow_le_pow_right Nat.two_pos (by omega)))).symm

/-- A word shifted right by its width or more leaves its sign alone. -/
theorem toInt_div_of_width_le (a : BitVec n) {k : Nat} (h : n ≤ k) :
    a.toInt / ((2 ^ k : Nat) : Int) = if a.toInt < 0 then -1 else 0 := by
  have bound : (2 ^ n : Nat) ≤ 2 ^ k := Nat.pow_le_pow_right Nat.two_pos h
  have := a.isLt
  have value := BitVec.toInt_eq_toNat_cond a
  have low : -((2 ^ k : Nat) : Int) ≤ a.toInt ∧ a.toInt < ((2 ^ k : Nat) : Int) := by
    rw [value]
    split <;> omega
  split
  · next neg =>
    have := Int.le_ediv_of_mul_le (a := -1) (Int.natCast_pos.2 (Nat.two_pow_pos k)) (by omega : _ ≤ a.toInt)
    have := Int.ediv_lt_of_lt_mul (b := 0) (Int.natCast_pos.2 (Nat.two_pow_pos k)) (by omega : a.toInt < _)
    omega
  · exact Int.ediv_eq_zero_of_lt (by omega) low.2

theorem sraVal_eq (a : BitVec n) (k : Nat) : BitVec.ofNat n (sraVal n a.toNat k) = a.sshiftRight k := by
  rw [BitVec.sshiftRight_eq, Int.shiftRight_eq_div_pow, sraVal, signedOf_toNat]
  split
  · exact ofNat_wrapTo ..
  · rw [toInt_div_of_width_le a (by omega)]
    split
    · rw [BitVec.ofInt_neg, BitVec.ofInt_ofNat, BitVec.neg_one_eq_allOnes]
      exact ofNat_eq_word BitVec.toNat_allOnes.symm
    · rfl

theorem rotVal_eq (pos : 0 < n) (a : BitVec n) (k : Nat) :
    BitVec.ofNat n (rotVal n a.toNat k) = a.rotateLeft (k % n) := by
  refine ofNat_eq_word ?_
  rw [BitVec.toNat_rotateLeft, Nat.mod_mod, Nat.shiftLeft_eq, Nat.shiftRight_eq_div_pow, rotVal]
  have less := Nat.mod_lt k pos
  generalize k % n = r at less
  have whole : 2 ^ n = 2 ^ r * 2 ^ (n - r) := by
    rw [← pow_add]
    congr 1
    omega
  have high : a.toNat * 2 ^ r % 2 ^ n = 2 ^ r * (a.toNat % 2 ^ (n - r)) := by
    rw [whole, Nat.mul_comm, Nat.mul_mod_mul_left]
  have low : a.toNat / 2 ^ (n - r) < 2 ^ r := Nat.div_lt_of_lt_mul (by rw [Nat.mul_comm, ← whole]; exact a.isLt)
  have fits : 2 ^ r * (a.toNat % 2 ^ (n - r)) + a.toNat / 2 ^ (n - r) < 2 ^ n := by
    have := Nat.mod_lt a.toNat (Nat.two_pow_pos (n - r))
    have : 2 ^ r * (a.toNat % 2 ^ (n - r) + 1) ≤ 2 ^ n := by
      rw [whole]
      exact Nat.mul_le_mul_left _ (by omega)
    rw [Nat.mul_succ] at this
    omega
  rw [Nat.add_mod, high, Nat.mod_eq_of_lt (Nat.lt_of_le_of_lt (Nat.le_add_left ..) fits), Nat.mod_eq_of_lt fits,
    Nat.two_pow_add_eq_or_of_lt low]

/-! ### The shifts -/

/-- Two sources of which the second is a 32-bit operand whatever the type. -/
theorem vec2w_wrote {y : Vec2} {o : Opnd} {F : Nat → Nat → Nat} (second : y.b = .op o)
    (run : ∀ s, exec ins s = vec2w ins y 0 (tyWide y.ty) (fun _ a c => bits (F a c)) s)
    (C : CanForm s g i b t x (form2 y 0 false (tyWide y.ty))) :
    FormWrote s g i b t x ins (form2 y 0 false (tyWide y.ty))
      ((form2 y 0 false (tyWide y.ty)).cut (BitVec.ofNat 64
        (F (word y.ty (reads s g 0 i (y.a, tyWide y.ty))).toNat (reads s g 0 i (o, false)).toNat))) 0 := by
  have computes : Computes ins (form2 y 0 false (tyWide y.ty))
      fun _ l => toResult (bits (F (tyCut y.ty (l.getD 0 0)) (valB y.b .b32 l 1))) := ⟨fun _ _ _ _ => rfl, run⟩
  refine computes.wrote_value C ?_ (flags_of_none rfl)
  have count : tyCut .b32 (reads s g 0 i (o, false)) = (reads s g 0 i (o, false)).toNat :=
    tyCut_reads (ty := .b32) (.of_bits (by decide)) 0 o
  rw [← tyCut_eq, ← count, form2, second]
  rfl

/-- What a shift writes. -/
theorem shift_wrote {y : Vec1} {c : ShiftCount} {F : Nat → Nat → Nat → Nat}
    (h : BitVec (tyBits y.ty) → Nat → BitVec (tyBits y.ty)) (ty : y.ty ∈ tysBits)
    (run : ∀ s, exec ins s = shiftOp ins y c F s)
    (eq : ∀ (a : BitVec (tyBits y.ty)) k, BitVec.ofNat (tyBits y.ty) (F (tyBits y.ty) a.toNat k) = h a k)
    (C : CanForm s g i b t x (shiftForm y c)) :
    FormWrote s g i b t x ins (shiftForm y c)
      ((h ((reads s g 0 i (y.a, tyWide y.ty)).setWidth (tyBits y.ty)) (shiftCount s g i c)).setWidth 64) 0 := by
  rw [← eq, ← written_word (.of_bits ty)]
  cases c with
  | simm k => exact vec1_wrote (F := fun a => bits (F (tyBits y.ty) a k.toNat)) run (fun _ => rfl) C
  | op o =>
    exact vec2w_wrote (y := ⟨y.com, y.out, y.ty, y.variant, y.a, .op o⟩) (F := F (tyBits y.ty)) rfl run C

theorem shift_result {y : Vec1} {c : ShiftCount} {h : BitVec (tyBits y.ty) → Nat → BitVec (tyBits y.ty)}
    (hw : ins.wf = true) (form : shiftFn (tyBits y.ty) ins = some (y, c, h)) (hf : vecForm ins = some f)
    (C : CanForm s g i b t x f) :
    FormWrote s g i b t x ins f
      ((h ((reads s g 0 i (y.a, tyWide y.ty)).setWidth (tyBits y.ty)) (shiftCount s g i c)).setWidth 64) 0 := by
  have type : ∀ {z : Vec1} {c : ShiftCount}, (z.wf tysBits false && c.wf) = true → z.ty ∈ tysBits :=
    fun hw => vec1_wf_ty (Bool.and_eq_true_iff.1 hw).1
  have listed := (families ins).shift _ _ form
  simp only [List.mem_cons, List.not_mem_nil, or_false] at listed
  rcases listed with rfl | rfl | rfl | rfl
  · cases form; cases hf
    exact shift_wrote (F := shlVal) (fun p k => p <<< k) (type hw) (fun _ => rfl) shlVal_eq C
  · cases form; cases hf
    exact shift_wrote (F := shrVal) (fun p k => p >>> k) (type hw) (fun _ => rfl) shrVal_eq C
  · cases form; cases hf
    exact shift_wrote (F := sraVal) (fun p k => p.sshiftRight k) (type hw) (fun _ => rfl) sraVal_eq C
  · cases form; cases hf
    have pos : 0 < tyBits y.ty := by cases y.ty <;> decide
    exact shift_wrote (F := rotVal) (fun p k => p.rotateLeft (k % tyBits y.ty)) (type hw) (fun _ => rfl) (rotVal_eq pos) C

/-- The count's place in the word of a shift (R110). -/
theorem shiftRaw_count (y : Vec1) (c : ShiftCount) (maj : Nat) :
    (∀ n, c = .simm n → (shiftRaw y c maj).mod = 1 ∧ (shiftRaw y c maj).simm = n.toNat ∧ (shiftRaw y c maj).opb = 0) ∧
      ∀ o, c = .op o → (shiftRaw y c maj).mod = 0 ∧ (shiftRaw y c maj).opb = o.code := by
  refine ⟨?_, ?_⟩
  · rintro n rfl
    exact ⟨rfl, rfl, rfl⟩
  · rintro o rfl
    exact ⟨rfl, rfl⟩

theorem shiftFn_raw {y : Vec1} {c : ShiftCount} {h : BitVec n → Nat → BitVec n} {r : Raw}
    (form : shiftFn n ins = some (y, c, h)) (he : encodeRaw ins = some r) : ∃ maj, r = shiftRaw y c maj := by
  have listed := (families ins).shift _ _ form
  simp only [List.mem_cons, List.not_mem_nil, or_false] at listed
  rcases listed with rfl | rfl | rfl | rfl
  all_goals
    cases he
    exact ⟨_, rfl⟩

/-- Settles O4: the functions of the model are the shifts of words, and a count of the width or more leaves zeros, the sign,
or the rest of its division by the width. -/
theorem shiftResults : Obligations.ShiftResults :=
  ⟨fun _ _ _ _ _ hw form hf _ _ _ _ _ _ C => shift_result hw form hf C, fun _ _ _ _ _ form he => by
    obtain ⟨maj, rfl⟩ := shiftFn_raw form he
    exact shiftRaw_count ..⟩

end Sys2Proof.Claims
end

section
/-! The bit fields: the results of the obligation O5, bit by bit. -/

namespace Sys2Proof.Claims

open Machine

variable {s : State} {g : Grp} {i : Nat} {b : Block} {t : Thread} {x : BlockCore} {ins : Instr} {f : VecForm} {ty : Ty}
  {n : Nat}

/-! ### BFX -/

/-- A word shifted right, as its type extends it. -/
def shiftedWord (ty : Ty) (a : BitVec (tyBits ty)) (pos : Nat) : BitVec (tyBits ty) :=
  if tySigned ty then a.sshiftRight pos else a >>> pos

/-- Bit `j` of a source extended without bound and read from a position on. -/
def extendedBit (ty : Ty) (v : DWord) (pos j : Nat) : Bool :=
  if pos + j < tyBits ty then v.getLsbD (pos + j) else tySigned ty && v.getLsbD (tyBits ty - 1)

theorem wordInt_shiftedWord (a : BitVec (tyBits ty)) (pos : Nat) :
    wordInt ty (shiftedWord ty a pos) = wordInt ty a / ((2 ^ pos : Nat) : Int) := by
  unfold wordInt shiftedWord
  split
  · rw [BitVec.toInt_sshiftRight, Int.shiftRight_eq_div_pow]
  · rw [BitVec.toNat_ushiftRight, Nat.shiftRight_eq_div_pow, Int.natCast_div]

theorem getLsbD_word {v : DWord} {j : Nat} (h : j < tyBits ty) : (word ty v).getLsbD j = v.getLsbD j := by
  rw [BitVec.getLsbD_setWidth, decide_eq_true h, Bool.true_and]

theorem getLsbD_shiftedWord {v : DWord} {pos j : Nat} (h : j < tyBits ty) :
    (shiftedWord ty (word ty v) pos).getLsbD j = extendedBit ty v pos j := by
  unfold shiftedWord extendedBit
  by_cases signed : tySigned ty = true
  · rw [if_pos signed, signed, BitVec.getLsbD_sshiftRight, decide_eq_false (Nat.not_le.2 h), Bool.not_false,
      Bool.true_and, Bool.true_and, BitVec.msb_eq_getLsbD_last, getLsbD_word (Nat.sub_lt (by omega) Nat.one_pos)]
    split
    · next inside => exact getLsbD_word inside
    · rfl
  · rw [if_neg signed, BitVec.getLsbD_ushiftRight, Bool.eq_false_of_not_eq_true signed, Bool.false_and]
    split
    · next inside => exact getLsbD_word inside
    · next outside => exact BitVec.getLsbD_of_ge _ _ (Nat.not_lt.1 outside)

/-- The low bits of the integer that a type reads are those of the word. -/
theorem wrapTo_wordInt {len : Nat} (h : len ≤ tyBits ty) (a : BitVec (tyBits ty)) :
    wrapTo len (wordInt ty a) = (a.setWidth len).toNat := by
  have whole : (wordInt ty a % ((2 ^ tyBits ty : Nat) : Int)) = a.toNat := by
    have same := congrArg BitVec.toNat (ofInt_wordInt ty a)
    rw [BitVec.toNat_ofInt] at same
    have := Int.emod_nonneg (wordInt ty a) (Int.natCast_ne_zero.2 (Nat.two_pow_pos (tyBits ty)).ne')
    omega
  have dvd : ((2 ^ len : Nat) : Int) ∣ ((2 ^ tyBits ty : Nat) : Int) := Int.natCast_dvd_natCast.2 (pow_dvd_pow 2 h)
  rw [wrapTo, ← Int.emod_emod_of_dvd _ dvd, whole, ← Int.natCast_mod, Int.toNat_natCast, BitVec.toNat_setWidth]

/-- The field of BFX as a word: the shifted source, or its low bits extended again. -/
theorem bfxVal_eq (a : BitVec (tyBits ty)) (d : Nat) : BitVec.ofNat (tyBits ty) (bfxVal ty a.toNat d) =
    if d / 256 % 256 = 0 then 0
    else if tyBits ty ≤ d / 256 % 256 then shiftedWord ty a (d % 256)
    else if tySigned ty then ((shiftedWord ty a (d % 256)).setWidth (d / 256 % 256)).signExtend (tyBits ty)
    else ((shiftedWord ty a (d % 256)).setWidth (d / 256 % 256)).setWidth (tyBits ty) := by
  simp only [bfxVal, tyInt_toNat, ← wordInt_shiftedWord]
  generalize d / 256 % 256 = len
  split
  · rfl
  · rw [ofNat_wrapTo]
    split
    · exact ofInt_wordInt ..
    · next short =>
      rw [wrapTo_wordInt (Nat.le_of_not_le short), intOf, signedOf_toNat, Nat.mod_eq_of_lt (BitVec.isLt _)]
      split
      · rfl
      · rw [BitVec.ofInt_natCast, BitVec.ofNat_toNat]

theorem getLsbD_bfxVal {v : DWord} {d k : Nat} (h : k < tyBits ty) :
    (BitVec.ofNat (tyBits ty) (bfxVal ty (word ty v).toNat d)).getLsbD k = fieldBit ty v (d % 256) (d / 256 % 256) k := by
  rw [bfxVal_eq]
  change _ = if d / 256 % 256 = 0 then false else if k < d / 256 % 256 then extendedBit ty v (d % 256) k
    else tySigned ty && extendedBit ty v (d % 256) (d / 256 % 256 - 1)
  generalize d / 256 % 256 = len
  generalize d % 256 = pos
  by_cases none : len = 0
  · rw [if_pos none, if_pos none]
    exact BitVec.getLsbD_zero
  rw [if_neg none, if_neg none]
  by_cases long : tyBits ty ≤ len
  · rw [if_pos long, if_pos (Nat.lt_of_lt_of_le h long), getLsbD_shiftedWord h]
  rw [if_neg long]
  have field : ∀ {j}, j < len → ((shiftedWord ty (word ty v) pos).setWidth len).getLsbD j = extendedBit ty v pos j :=
    fun hj => by
      rw [BitVec.getLsbD_setWidth, decide_eq_true hj, Bool.true_and, getLsbD_shiftedWord (by omega)]
  cases signed : tySigned ty with
  | true =>
    rw [if_pos rfl, BitVec.getLsbD_signExtend, decide_eq_true h, Bool.true_and, Bool.true_and,
      BitVec.msb_eq_getLsbD_last, field (show len - 1 < len by omega)]
    split
    · next inside => exact field inside
    · rfl
  | false =>
    rw [if_neg Bool.false_ne_true, BitVec.getLsbD_setWidth, decide_eq_true h, Bool.true_and, Bool.false_and]
    split
    · next inside => exact field inside
    · next outside => exact BitVec.getLsbD_of_ge _ _ (Nat.not_lt.1 outside)

/-- The bits of a word written to a register of its type. -/
theorem getLsbD_written (m k : Nat) (hk : k < 64) :
    ((BitVec.ofNat n m).setWidth 64).getLsbD k = (decide (k < n) && (BitVec.ofNat n m).getLsbD k) := by
  rw [BitVec.getLsbD_setWidth, decide_eq_true hk, Bool.true_and]
  by_cases h : k < n
  · rw [decide_eq_true h, Bool.true_and]
  · rw [decide_eq_false h, Bool.false_and, BitVec.getLsbD_of_ge _ _ (Nat.not_lt.1 h)]

theorem bfx_result {y : Vec2} (hw : (Instr.bfx y).wf = true) (hf : vecForm (.bfx y) = some f) (C : CanForm s g i b t x f) :
    let d : DWord := match y.b with | .op o => reads s g 0 i (o, false) | .imm w => w.setWidth 64
    ∃ v, FormWrote s g i b t x (.bfx y) f v 0 ∧ ∀ k < 64, v.getLsbD k = (decide (k < tyBits y.ty) &&
      fieldBit y.ty (reads s g 0 i (y.a, tyWide y.ty)) (d.toNat % 256) (d.toNat / 256 % 256) k) := by
  cases hf
  obtain ⟨o, second⟩ : ∃ o, y.b = .op o := by
    obtain ⟨-, form⟩ := Bool.and_eq_true_iff.1 hw
    cases second : y.b with
    | op o => exact ⟨o, rfl⟩
    | imm w =>
      rw [second] at form
      exact Bool.noConfusion form
  have course := vec2w_wrote (ins := .bfx y) (F := bfxVal y.ty) second (fun _ => rfl) C
  rw [second]
  refine ⟨_, course, fun k hk => ?_⟩
  refine (congrArg (BitVec.getLsbD · k) (written_word (.of_int (wf_tys hw)) _)).trans ?_
  refine (getLsbD_written _ k hk).trans ?_
  by_cases h : k < tyBits y.ty
  · rw [decide_eq_true h, Bool.true_and, Bool.true_and, getLsbD_bfxVal h]
  · rw [decide_eq_false h, Bool.false_and, Bool.false_and]

/-! ### BFI -/

/-- The mask of the field that BFI replaces. -/
theorem testBit_fieldMask (n pos len k : Nat) : ((2 ^ len - 1) * 2 ^ pos % 2 ^ n).testBit k =
    (decide (k < n) && decide (pos ≤ k ∧ k < pos + len)) := by
  rw [Nat.testBit_mod_two_pow, Nat.testBit_mul_two_pow, Nat.testBit_two_pow_sub_one]
  congr 1
  rw [← Bool.decide_and]
  exact decide_eq_decide.2 (by omega)

theorem testBit_bfiVal (a c d : Nat) {k : Nat} (h : k < n) : (bfiVal n a c d).testBit k =
    if d % 256 ≤ k ∧ k < d % 256 + d / 256 % 256 then c.testBit (k - d % 256) else a.testBit k := by
  unfold bfiVal
  dsimp only
  generalize d / 256 % 256 = len
  generalize d % 256 = pos
  have mask := testBit_fieldMask n pos len k
  have fits : (2 ^ len - 1) * 2 ^ pos % 2 ^ n < 2 ^ n := Nat.mod_lt _ (Nat.two_pow_pos n)
  rw [decide_eq_true h, Bool.true_and] at mask
  rw [Nat.testBit_or, Nat.testBit_and, Nat.testBit_and, Nat.sub_sub, Nat.add_comm 1, Nat.testBit_two_pow_sub_succ fits,
    mask, decide_eq_true h, Nat.testBit_mul_two_pow, Nat.testBit_mod_two_pow]
  by_cases inside : pos ≤ k ∧ k < pos + len
  · rw [if_pos inside, decide_eq_true inside, decide_eq_true inside.1, decide_eq_true (show k - pos < len by omega)]
    simp
  · rw [if_neg inside, decide_eq_false inside]
    simp

theorem bfi_result {y : Vec3} (hw : (Instr.bfi y).wf = true) (hf : vecForm (.bfi y) = some f) (C : CanForm s g i b t x f) :
    let d := reads s g 0 i (y.c, false)
    ∃ v, FormWrote s g i b t x (.bfi y) f v 0 ∧ ∀ k < 64, v.getLsbD k = (decide (k < tyBits y.ty) &&
      insertBit (reads s g 0 i (y.a, tyWide y.ty)) (reads s g 0 i (y.b, tyWide y.ty)) (d.toNat % 256)
        (d.toNat / 256 % 256) k) := by
  intro d
  cases hf
  have ty : WordTy y.ty := .of_bits (vec3_wf_ty (Bool.and_eq_true_iff.1 hw).1)
  have course := vec3_wrote (ins := .bfi y) (F := bfiVal (tyBits y.ty)) (fun _ => rfl) C
  refine ⟨_, course, fun k hk => ?_⟩
  refine (congrArg (BitVec.getLsbD · k) (written_word ty _)).trans ?_
  refine (getLsbD_written _ k hk).trans ?_
  by_cases h : k < tyBits y.ty
  · rw [decide_eq_true h, Bool.true_and, Bool.true_and, BitVec.getLsbD_ofNat, decide_eq_true h, Bool.true_and,
      testBit_bfiVal _ _ _ h, BitVec.testBit_toNat, BitVec.testBit_toNat, getLsbD_word h, getLsbD_word (by omega)]
    rfl
  · rw [decide_eq_false h, Bool.false_and, Bool.false_and]

/-- Settles O5: bit by bit, from the shifted and extended word of BFX and the masks of BFI. -/
theorem bitFieldResults : Obligations.BitFieldResults :=
  ⟨fun _ _ hw hf _ _ _ _ _ _ C => bfx_result hw hf C, fun _ _ hw hf _ _ _ _ _ _ C => bfi_result hw hf C⟩

end Sys2Proof.Claims
end

section
/-! ADDC and SUBB: the obligation O7. One operation writes its destination, and a predicate beside it. -/

namespace Sys2Proof.Claims

open Machine

variable {g : Grp} {i : Nat} {s w : State} {b : Block} {t u : Thread} {x : BlockCore} {c : Com} {p : VecOp} {l : List Src}
  {ins : Instr} {r : DWord × Flags × List (Nat × Bool)} {pk : BitVec 3}

/-! ### An operation with one predicate beside its destination -/

/-- A destination and a predicate that it is not do not overlap. -/
theorem apart_pred {y : Src} (h : y.1 ≠ .p pk) : Apart y (.p pk, false) where
  v := by
    rintro n - ⟨z, hz, m, hm, -⟩
    rw [List.mem_singleton.1 hz] at hm
    cases hm
  s := by
    rintro n - ⟨z, hz, m, hm, -⟩
    rw [List.mem_singleton.1 hz] at hm
    cases hm
  p := by
    rintro n ⟨y', hy, q, hq, rfl⟩ ⟨z, hz, m, hm, same⟩
    rw [List.mem_singleton.1 hy] at hq
    rw [List.mem_singleton.1 hz] at hm
    cases hm
    exact h (hq.trans (congrArg Opnd.p (BitVec.eq_of_toNat_eq same)))

section
variable (hb : Kv.find g.block w.blocks = some b) (ht : Kv.find i b.threads = some u)
include hb ht

theorem holds_writeVec (hx : Kv.find u.bc b.cores = some x) (hw : p.out.wbs = false) :
    Holds (writeVec w g i true p r.1) g.block i (p.out.dst, p.wide) (opValue p r) := by
  rw [writeVec_eq (thread_of_find hb ht)]
  simp only [hw, Bool.false_eq_true, if_false]
  exact holds_writeDst (s := setLatch g p u.lane _ w) hb ht hx _ _

/-- The predicate is written after the destination: it leaves any other destination as it is. -/
theorem holds_opDone_pred {v : Bool} (hx : Kv.find u.bc b.cores = some x) (one : r.2.2 = [(pk.toNat, v)])
    (hw : p.out.wbs = false) (other : p.out.dst ≠ .p pk) :
    Holds (opDone g i p r w) g.block i (p.out.dst, p.wide) (opValue p r) := by
  have only : ∀ y ∈ r.2.2, y.1 < 8 ∧ namesP [(.p pk, false)] y.1 := by
    intro y hy
    rw [one] at hy
    rw [List.mem_singleton.1 hy]
    exact ⟨pk.isLt, _, List.mem_singleton.2 rfl, pk, rfl, rfl⟩
  obtain ⟨b1, u1, hb1, hu1, own, -⟩ := thread_writeVec (op := p) hb ht r.1
  have bc : u1.bc = u.bc := by rw [own]
  have N := near_opDone (op := p) (r := r) (l := (.p pk, false) :: opDsts p) hb ht
    (fun h => List.mem_cons_of_mem _ (mem_opDsts h))
    (fun y hy => ⟨(only y hy).1, _, List.mem_cons_self, pk, rfl, by rw [one] at hy; rw [List.mem_singleton.1 hy]⟩)
  obtain ⟨b2, hb2, nb⟩ := N.blk b hb
  obtain ⟨x2, hx2, -⟩ := nb.core x hx
  have cores : b2.cores = b1.cores := by
    rw [← State.block_of_find hb2, opDone, block_modThread hb1]
  rw [cores, ← bc] at hx2
  exact holds_near hb1 hu1 hx2 (apart_pred other)
    (near_modThread pre_sregsOnly (fun s f => quiet_modBlock s g.block f) (tnear_mark only)) (holds_writeVec hb ht hx hw)

/-- The predicate holds the truth value, p7 what it always holds. -/
theorem pred_opDone {v : Bool} (one : r.2.2 = [(pk.toNat, v)]) :
    ((opDone g i p r w).thread g.block i).pred pk.toNat = (decide (pk.toNat = 7) || v) := by
  obtain ⟨b1, u1, hb1, hu1, -⟩ := thread_writeVec (op := p) hb ht r.1
  rw [opDone, thread_modThread hb1 hu1, opMark, one]
  exact (pred_setPred _ pk.isLt pk.isLt v).trans (if_pos rfl)

end

/-- An operation of a lone thread that writes a predicate beside its destination and its latch. -/
theorem vec_dst_pred (A : Alone s g i b t x) (act : Active c t) (R : OpsReady s g c t [p]) (ins : Instr)
    {q : Thread → Bool} (one : ∀ u, (p.fn u (p.srcs.map (reads s g p.pipe i))).2.2 = [(pk.toNat, q u)]) :
    let u := vecThreadNow s t ins p.srcs
    let r := p.fn u (p.srcs.map (reads s g p.pipe i))
    ∃ s' t', execVec ins c [p] s = .next s' ∧ Ran s s' g i b t x ((.p pk, false) :: opDsts p) SregsOnly t' ∧
      Quiet s s' ∧ t'.pc = t.pc + lenOf ins ∧ t'.fpcsr = t.fpcsr ||| BitVec.ofNat 32 r.2.1.bits ∧
      t'.pred pk.toNat = (decide (pk.toNat = 7) || q u) ∧
      (p.out.wbs = false → p.out.dst ≠ .p pk → Holds s' g.block i (p.out.dst, p.wide) (opValue p r)) ∧
      latchVal s' g p.pipe p.out.lt.toNat t.lane = opValue p r := by
  intro u r
  have course := execVec_ready A act R ins
  dsimp only at course
  rw [List.map_cons, List.map_nil, List.flatten_cons, List.flatten_nil, List.append_nil, vecThread_cons, List.map_cons,
    List.map_nil, List.flatten_cons, List.flatten_nil, List.append_nil, List.take_of_length_le (by simp)] at course
  have N0 : Near g i t.bc ((.p pk, false) :: opDsts p) SregsOnly Quiet s (vecIssued s g i ins c p.srcs) :=
    near_vecIssued A _
  obtain ⟨b0, hb0, nb0⟩ := N0.blk b A.block
  obtain ⟨t0, ht0, -⟩ := nb0.thread t A.thread
  obtain ⟨x0, hx0, -⟩ := nb0.core x A.core
  obtain ⟨⟨en, he, -⟩, -⟩ := A.entry
  obtain ⟨en0, he0, -⟩ := N0.entry en he
  have own0 : t0 = u := (thread_of_find hb0 ht0).symm.trans (thread_vecIssued A p.srcs)
  rw [own0] at ht0
  have N1 := near_opDone (op := p) (r := r) (l := (.p pk, false) :: opDsts p) hb0 ht0
    (fun h => List.mem_cons_of_mem _ (mem_opDsts h)) (fun y hy => by
      rw [one u] at hy
      rw [List.mem_singleton.1 hy]
      exact ⟨pk.isLt, _, List.mem_cons_self, pk, rfl, rfl⟩)
  obtain ⟨b1, t1, hb1, ht1, own1, -⟩ := thread_opDone (op := p) (r := r) hb0 ht0
  have latch := latchVal_opDone (op := p) (r := r) hb0 ht0 (by rw [he0]; simp) p.pipe p.out.lt.toNat
  rw [if_pos rfl] at latch
  have truth := pred_opDone (p := p) (r := r) hb0 ht0 (one u)
  obtain ⟨s', ends, ran, quiet, blocks, latches⟩ := vec_finish A (N0.trans pre_sregsOnly pre_quiet N1) [p]
  rw [thread_of_find hb1 ht1] at ran truth
  exact ⟨s', t1, course.trans ends, ran, quiet, by rw [own1]; rfl, by rw [own1]; rfl, truth,
    fun hw other => holds_blocks blocks (holds_opDone_pred hb0 ht0 hx0 (one u) hw other), (latches ..).trans latch⟩

/-! ### The carry -/

/-- The carry in, and what the instruction makes of its operands as numbers (R109). -/
def carryIn (t : Thread) (pk : BitVec 3) (first : Bool) : Int := if first = false ∧ t.pred pk.toNat = true then 1 else 0

theorem carryIn_eq (t : Thread) (pk : BitVec 3) (first : Bool) :
    (if first then 0 else (boolNat (t.pred pk.toNat) : Int)) = carryIn t pk first := by
  unfold carryIn boolNat
  cases first <;> cases t.pred pk.toNat <;> rfl

theorem carryOp_fn {y : Vec2} (h : WordTy y.ty) (pk : BitVec 3) (first sub : Bool) (u : Thread) :
    let n := tyBits y.ty
    let a : Int := ((reads s g 0 i (y.a, tyWide y.ty)).setWidth n).toNat
    let c : Int := ((valueB s g 0 i y.ty y.b).setWidth n).toNat
    let r := if sub then a - c - carryIn u pk first else a + c + carryIn u pk first
    (carryOp y pk first sub).fn u ((carryOp y pk first sub).srcs.map (reads s g 0 i)) =
      (BitVec.ofNat 64 (wrapTo n r), .none,
        [(pk.toNat, if sub then decide (r < 0) else decide (((2 ^ n : Nat) : Int) ≤ r))]) := by
  intro n a c r
  have second := valB_eq (s := s) (g := g) (i := i) h 0 (reads s g 0 i (y.a, tyWide y.ty)) y.b
  have first' := tyCut_eq y.ty (reads s g 0 i (y.a, tyWide y.ty))
  unfold carryOp
  simp only [List.map_cons, List.getD_cons_zero, second, first', carryIn_eq]
  rfl

/-- What the operation of ADDC and SUBB writes. -/
theorem carry_result {y : Vec2} {sub first : Bool} (ty : WordTy y.ty)
    (run : exec ins s = execVec ins y.com [carryOp y pk first sub] s)
    (C : CanIssueVec s g i b t x y.com y.out 0 ((y.a, tyWide y.ty) :: srcsB y.b (tyWide y.ty)) (tyWide y.ty)) :
    let n := tyBits y.ty
    let a : Int := ((reads s g 0 i (y.a, tyWide y.ty)).setWidth n).toNat
    let b' : Int := ((valueB s g 0 i y.ty y.b).setWidth n).toNat
    let r := if sub then a - b' - carryIn t pk first else a + b' + carryIn t pk first
    let carry : Prop := if sub then r < 0 else 2 ^ n ≤ r
    let v : DWord := (BitVec.ofInt n r).setWidth 64
    ∃ s' t', exec ins s = .next s' ∧
      Ran s s' g i b t x ((.p pk, false) :: if y.out.wbs then [] else [(y.out.dst, tyWide y.ty)]) SregsOnly t' ∧
      Quiet s s' ∧ t'.pc = t.pc + lenOf ins ∧ t'.fpcsr = t.fpcsr ∧ (t'.pred pk.toNat = true ↔ pk = 7 ∨ carry) ∧
      (y.out.wbs = false → y.out.dst ≠ .p pk → Holds s' g.block i (y.out.dst, tyWide y.ty) v) ∧
      Latches s' g 0 y.out t.lane v := by
  intro n a b' r carry v
  have R : OpsReady s g y.com t [carryOp y pk first sub] :=
    ⟨fun op hop => by rw [List.mem_singleton.1 hop]; exact C.readable, fun op hop => by
      rw [List.mem_singleton.1 hop]; exact C.writable⟩
  have fn := carryOp_fn (s := s) (g := g) (i := i) ty pk first sub
  dsimp only at fn
  obtain ⟨s', t', ran', ran, quiet, pc, flags, pred, holds, latch⟩ := vec_dst_pred C.alone C.active R ins
    fun u => congrArg (·.2.2) (fn u)
  have value : opValue (carryOp y pk first sub) ((carryOp y pk first sub).fn (vecThreadNow s t ins
      (carryOp y pk first sub).srcs) ((carryOp y pk first sub).srcs.map (reads s g 0 i))) = v := by
    rw [fn]
    exact (written_word ty _).trans (congrArg (BitVec.setWidth 64) (ofNat_wrapTo ..))
  refine ⟨s', t', run.trans ran', ran, quiet, pc, flags.trans ?_, ?_, fun hw other => value ▸ holds hw other,
    latches_of_eq (latch.trans value)⟩
  · rw [show (carryOp y pk first sub).pipe = 0 from rfl, fn]
    exact BitVec.or_zero
  · have seven : pk.toNat = 7 ↔ pk = 7 := ⟨fun h => BitVec.eq_of_toNat_eq h, fun h => by rw [h]; rfl⟩
    rw [pred, Bool.or_eq_true, decide_eq_true_iff, seven]
    refine or_congr Iff.rfl ?_
    show (if sub then decide (r < 0) else decide (((2 ^ n : Nat) : Int) ≤ r)) = true ↔ if sub then r < 0 else 2 ^ n ≤ r
    cases sub <;> simp

/-- The predicate's number and `.first` stand in SIMM (R109). -/
theorem carry_simm {sub first : Bool} {y : Vec2} {r : Raw}
    (h : encodeRaw (if sub then .subb y pk first else .addc y pk first) = some r) :
    r.simm = pk.toNat + (if first then 8 else 0) := by
  have bit : 8 * boolNat first = if first then 8 else 0 := by cases first <;> rfl
  cases sub <;> cases h <;> rw [← bit]

/-- Settles O7: the predicate is written last, so that it stands where both writes name it. -/
theorem carryResults : Obligations.CarryResults := by
  refine ⟨?_, fun sub first y pk r h => carry_simm h⟩
  intro sub first y pk ins hw s g i b t x C
  have wf : y.wf tysUnsigned false false = true := by cases sub <;> exact hw
  have ty : WordTy y.ty := .of_subset (wf_tys wf) (by decide)
  have run : exec ins s = execVec ins y.com [carryOp y pk first sub] s := by cases sub <;> rfl
  obtain ⟨s', t', ends, ran, quiet, pc, flags, pred, holds, latch⟩ := carry_result ty run C
  exact ⟨s', t', ends, ran, quiet, pc, flags, .inl pred, holds, latch⟩

end Sys2Proof.Claims
end

section
/-! The control transfers: the obligation O12. -/

namespace Sys2Proof.Claims

open Machine

variable {s : State} {g : Grp} {i : Nat} {b : Block} {t : Thread} {x : BlockCore} {ins : Instr} {u : Use} {r : Transfer}
  {com : Com} {srcs dsts : List Src}

/-! ### Operands that a thread may not use -/

/-- The checks refuse an operand that may not be read or written (R52, R53). -/
theorem check_operands (A : Alone s g i b t x) (lv : u.level ≤ t.priv.level) (hp : u.pipe = none)
    (bad : (∃ y ∈ u.srcs, ¬ Readable t false y) ∨ ∃ y ∈ u.dsts, ¬ Writable t y) (n : Nat) :
    checkThread (advance (closeChain s g) g n) g u i = some .illegalOperand := by
  have refused : (u.srcs.any (srcBad t.nreg u.pipe.isSome) || u.dsts.any (dstBad t.nreg)) = true := by
    rw [hp, Bool.or_eq_true, List.any_eq_true, List.any_eq_true]
    exact bad.imp (fun ⟨y, hy, h⟩ => ⟨y, hy, Bool.eq_true_of_not_eq_false h⟩)
      fun ⟨y, hy, h⟩ => ⟨y, hy, Bool.eq_true_of_not_eq_false h⟩
  rw [checkThread, thread_advance A]
  exact (if_neg (Nat.not_lt.2 lv)).trans (if_pos refused)

/-- An instruction that acts for each thread raises ILLEGAL_OPERAND where an operand may not be used. -/
theorem each_illegal (A : Alone s g i b t x) (act : Active com t) {f : Grp → Nat → List DWord → State → Effect}
    (run : exec ins s = eachThread ins (Use.plain com srcs dsts) f s)
    (bad : (∃ y ∈ srcs, ¬ Readable t false y) ∨ ∃ y ∈ dsts, ¬ Writable t y) :
    Traps s g i b t ins [] (Exc.of .illegalOperand) :=
  traps_taken A (by decide)
    (run.trans (each_refused (u := Use.plain com srcs dsts) A act
      (check_operands (u := Use.plain com srcs dsts) A (Nat.zero_le _) rfl bad _) f))

/-! ### The transfers as the model performs them -/

/-- The links as destinations, with the values that they take. -/
def Transfer.linked (r : Transfer) : List (Src × DWord) := r.link.map fun y => (linkOp y.1, y.2)

/-- A transfer acts for each thread: it goes to its target, and the link takes the address after it (R103). -/
theorem transfer_run (A : Alone s g i b t x) (h : transferOf s g i t ins = some r) :
    (∃ f : Grp → Nat → List DWord → State → Effect,
      exec ins s = eachThread ins (Use.plain r.com r.srcs (r.linked.map Prod.fst)) f s ∧
        ∀ w, f g i (r.srcs.map (reads s g 0 i)) w = transfer g i r.target r.linked w) ∧
      (r.link = [] ∨ ∃ y, r.link = [y]) := by
  obtain ⟨-, pc, -⟩ := A.entry
  have next : ∀ n, BitVec.ofNat 64 (g.pc + n) = BitVec.ofNat 64 t.pc + BitVec.ofNat 64 n := fun n => by
    rw [pc, BitVec.ofNat_add]
  have rel : ∀ off : Word, relTarget g off = BitVec.ofNat 64 t.pc + off.signExtend 64 := fun off => by
    rw [relTarget, pc]
  cases (families ins).transfer s g i t r h with
  | bra | brx =>
    cases h
    exact ⟨⟨_, rfl, fun w => by rw [rel]; rfl⟩, .inl rfl⟩
  | jmp | ret =>
    cases h
    exact ⟨⟨_, rfl, fun _ => rfl⟩, .inl rfl⟩
  | call =>
    cases h
    exact ⟨⟨_, rfl, fun w => by rw [rel, next]; rfl⟩, .inr ⟨_, rfl⟩⟩
  | callr =>
    cases h
    exact ⟨⟨_, rfl, fun w => by rw [next]; rfl⟩, .inr ⟨_, rfl⟩⟩

theorem linkOp_of_not_pred {o : Opnd} (h : ∀ q, o ≠ .p q) : linkOp o = (o, true) := by
  cases o with
  | p q => exact absurd rfl (h q)
  | _ => rfl

/-- A link that may not be written is refused, and so is a predicate. -/
theorem linkOp_refused {o : Opnd} (h : ¬ Writable t (o, true) ∨ ∃ q, o = .p q) : ¬ Writable t (linkOp o) := by
  cases o with
  | p q => exact Bool.noConfusion
  | _ =>
    rcases h with h | ⟨q, h⟩
    · exact h
    · cases h

theorem Transfer.linked_eq (h : ∀ y ∈ r.link, ∀ q, y.1 ≠ .p q) : r.linked = r.link.map fun y => ((y.1, true), y.2) :=
  List.map_congr_left fun y hy => by rw [linkOp_of_not_pred (h y hy)]

theorem transfer_refused (h : transferOf s g i t ins = some r) (A : Alone s g i b t x) (act : Active r.com t)
    (bad : (∃ y ∈ r.srcs, ¬ Readable t false y) ∨ (∃ y ∈ r.link, ¬ Writable t (y.1, true) ∨ ∃ q, y.1 = .p q)) :
    Traps s g i b t ins [] (Exc.of .illegalOperand) := by
  obtain ⟨⟨f, run, -⟩, -⟩ := transfer_run A h
  refine each_illegal A act run (bad.imp id fun ⟨y, hy, refused⟩ => ⟨linkOp y.1, ?_, linkOp_refused refused⟩)
  rw [Transfer.linked, List.map_map]
  exact List.mem_map.2 ⟨y, hy, rfl⟩

/-- The course of a transfer whose operands may be used, before its target is looked at. -/
theorem transfer_course (h : transferOf s g i t ins = some r) (C : CanIssue s g i b t x r.com r.srcs r.dsts)
    (link : ∀ y ∈ r.link, ∀ q, y.1 ≠ .p q) :
    exec ins s = conclude s g (eachResult (issued s g i ins r.srcs) g i ins (r.srcs.map (reads s g 0 i))
      (transfer g i r.target r.linked (issued s g i ins r.srcs))) := by
  obtain ⟨⟨f, run, eq⟩, -⟩ := transfer_run C.alone h
  have dsts : r.linked.map Prod.fst = r.dsts := by
    rw [Transfer.linked_eq link, List.map_map]
    rfl
  rw [dsts] at run
  rw [run, each_can C, ← eq]

theorem transfer_goes (h : transferOf s g i t ins = some r) (C : CanIssue s g i b t x r.com r.srcs r.dsts)
    (link : ∀ y ∈ r.link, ∀ q, y.1 ≠ .p q) (target : r.target.toNat % 4 = 0) :
    ∃ s' t', exec ins s = .next s' ∧ Ran s s' g i b t x r.dsts SregsOnly t' ∧ Quiet s s' ∧ t'.pc = r.target.toNat ∧
      t'.fpcsr = t.fpcsr ∧ ∀ y ∈ r.link, Holds s' g.block i (y.1, true) y.2 := by
  have A := C.alone
  obtain ⟨-, short⟩ := transfer_run A h
  have course := transfer_course h C link
  have linked := Transfer.linked_eq link
  have written : ∀ y ∈ r.linked, y.1 ∈ r.dsts := fun y hy => by
    rw [linked] at hy
    obtain ⟨z, hz, rfl⟩ := List.mem_map.1 hy
    exact List.mem_map.2 ⟨z, hz, rfl⟩
  rw [transfer, if_pos target] at course
  generalize hw : (issued s g i ins r.srcs).modThread g.block i (fun t => { t with pc := r.target.toNat }) = w at course
  have N0 : Near g i t.bc r.dsts SregsOnly Quiet s (issued s g i ins r.srcs) :=
    near_issued A pre_sregsOnly pre_quiet quiet_modBlock quiet_modCore ins r.srcs
  have N : Near g i t.bc r.dsts SregsOnly Quiet s w := hw ▸ N0.trans pre_sregsOnly pre_quiet
    (near_modThread pre_sregsOnly (fun s f => quiet_modBlock s g.block f)
      fun _ => ⟨rfl, id, fun _ _ => rfl, fun _ _ _ => rfl⟩)
  obtain ⟨b1, hb1, nb⟩ := N.blk b A.block
  obtain ⟨t1, ht1, -⟩ := nb.thread t A.thread
  obtain ⟨x1, hx1, -⟩ := nb.core x A.core
  have own : t1 = { t with pc := r.target.toNat, rep := none, tsLatch := latched s t r.srcs } := by
    obtain ⟨b0, hb0, nb0⟩ := N0.blk b A.block
    obtain ⟨t0, ht0, -⟩ := nb0.thread t A.thread
    rw [← thread_of_find hb1 ht1, ← hw, thread_modThread hb0 ht0, ← thread_of_find hb0 ht0, issued_eq A]
  have bc : t1.bc = t.bc := by rw [own]
  have N2 := N.trans pre_sregsOnly pre_quiet (bc ▸ near_writeAll written hb1 ht1)
  have N3 := N2.trans pre_sregsOnly pre_quiet (near_taken pre_sregsOnly (fun _ _ => rfl) _)
  obtain ⟨s', ends, ran, quiet, blocks, -⟩ := vec_finish A N3 []
  have thread := thread_writeAll (g := g) (i := i) (ws := r.linked) hb1 ht1
  have apart : (r.linked.map Prod.fst).Pairwise Apart := by
    rcases short with none | ⟨y, one⟩
    · rw [Transfer.linked, none]
      exact .nil
    · rw [Transfer.linked, one]
      exact List.pairwise_singleton ..
  obtain ⟨holds, -⟩ := holdsAll_writeAll apart hb1 ht1 (bc ▸ hx1)
  refine ⟨s', _, course.trans ends, ran, quiet, ?_, ?_, fun y hy => holds_blocks blocks ?_⟩
  · refine (congrArg Thread.pc thread).trans ?_
    rw [own]
  · refine (congrArg Thread.fpcsr thread).trans ?_
    rw [own]
  · exact holds ((y.1, true), y.2) (by rw [linked]; exact List.mem_map.2 ⟨y, hy, rfl⟩)

theorem transfer_misaligned (h : transferOf s g i t ins = some r) (C : CanIssue s g i b t x r.com r.srcs r.dsts)
    (link : ∀ y ∈ r.link, ∀ q, y.1 ≠ .p q) (target : r.target.toNat % 4 ≠ 0) :
    Traps s g i b t ins (r.srcs.map (reads s g 0 i)) (Exc.of .align) := by
  have course := transfer_course h C link
  rw [transfer, if_neg target] at course
  exact traps_taken C.alone (by decide) course

/-- Settles O12: a transfer acts for the thread alone, with its target looked at before its link is written. -/
theorem controlTransfers : Obligations.ControlTransfers :=
  ⟨fun _ _ _ _ _ _ _ _ h A act bad => transfer_refused h A act bad, fun _ _ _ _ _ _ _ _ h C link =>
    ⟨transfer_goes h C link, transfer_misaligned h C link⟩⟩

end Sys2Proof.Claims
end

section
/-! Write pointers and tile control values: the obligation O16. -/

namespace Sys2Proof.Claims

open Machine

variable {s : State} {g : Grp} {i : Nat} {b : Block} {t : Thread} {x : BlockCore} {ins : Instr} {com : Com}
  {srcs dsts : List Src} {tile : BitVec 4} {dst : Opnd}

/-! ### The course of the instructions -/

/-- An instruction whose threads each contribute to one effect, for a lone thread. -/
theorem gather_can {α : Type} (C : CanIssue s g i b t x com srcs dsts) (ins : Instr) (init : α)
    (f : Grp → Nat → List DWord → α → State → Except Stop (α × State)) (last : Grp → α → State → State) :
    gatherThreads ins (Use.plain com srcs dsts) init f last s =
      conclude s g ((runGather g ins (f g) [(i, values s g i srcs)] init (issued s g i ins srcs)).map
        fun r => last g r.1 r.2) := by
  rw [gatherThreads, C.alone.group]
  dsimp only
  rw [prepare_alone (u := Use.plain com srcs dsts) C.alone ins C.active rfl (Nat.zero_le _) C.readable C.writable]
  rfl

/-- An instruction in engine order runs at once where no earlier operation of the block is outstanding. -/
theorem inOrder_idle (A : Alone s g i b t x) (idle : x.headOp 8 = none) (run : State → Res) : inOrder run s = run s := by
  have busy : matrixBusy s g = false := by
    have hb : s.block g.block = b := State.block_of_find A.block
    have ht : b.thread i = t := by rw [Block.thread, Kv.get_of_find A.thread]
    have hx : b.bc t.bc = x := by rw [Block.bc, Kv.get_of_find A.core]
    simp only [matrixBusy, A.one, hb, ht, hx, idle, Option.isSome_none]
  simp only [inOrder, A.group, busy, Bool.and_false, Bool.false_eq_true, if_false]

theorem withRoom_room (A : Alone s g i b t x) (room : Room s g) (run : State → Res) : withRoom run s = run s := by
  have free : decide (8 ≤ (s.core g.core).mqueue.length) = false := decide_eq_false (Nat.not_le.2 room)
  simp only [withRoom, A.group, free, Bool.and_false, Bool.false_eq_true, if_false]

/-! ### What the instructions find in the state -/

/-- The block and the core of the block as an instruction's effect finds them. -/
theorem issued_ntile (A : Alone s g i b t x) (ins : Instr) (srcs : List Src) :
    ((issued s g i ins srcs).block g.block).ntile = b.ntile := by
  obtain ⟨b', rfl, -, same, -⟩ := issued_block A ins srcs
  rw [same]

theorem issued_core (A : Alone s g i b t x) (ins : Instr) (srcs : List Src) :
    ((issued s g i ins srcs).block g.block).bc (((issued s g i ins srcs).block g.block).thread i).bc = x := by
  obtain ⟨b', rfl, -, -, core, -⟩ := issued_block A ins srcs
  have own : ((issued s g i ins srcs).block g.block).thread i = _ := issued_eq A ins srcs
  rw [own]
  exact core

theorem setTc_issued (A : Alone s g i b t x) (ins : Instr) (srcs : List Src) (n : Nat) (v : Word) :
    setTc (issued s g i ins srcs) g.block i n v =
      inCore (issued s g i ins srcs) g t fun c => c.setTile n ((c.tile n).control v) := by
  rw [setTc, issued_eq A]

theorem tcRefused_issued (A : Alone s g i b t x) (ins : Instr) (srcs : List Src) (n : Nat) (v : Word) :
    tcRefused ((issued s g i ins srcs).block g.block) n v = true ↔ b.ntile ≤ n ∨ tcOk v.toNat = false := by
  rw [tcRefused, tileBad, issued_ntile A, Bool.or_eq_true, decide_eq_true_iff, Bool.not_eq_true']

/-! ### MOVS -/

theorem movsReadWp_completes {ch : BitVec 3} (M : MayIssue s g i b t x com [] [(dst, false)]) :
    Completes s g i (.movsReadWp com ch dst) (issued s g i (.movsReadWp com ch dst) [])
      [((dst, false), (Kv.get 0 ch.toNat x.wps).setWidth 64)] := by
  have run := each_may M (.movsReadWp com ch dst) fun g i _ s =>
    let b := s.block g.block
    .ok (s, [((dst, false), ((b.bc (b.thread i).bc).wp ch.toNat).setWidth 64)])
  dsimp only at run
  rw [issued_core M.can.alone] at run
  exact run

theorem movsReadTc_course (M : MayIssue s g i b t x com [] [(dst, false)]) :
    exec (.movsReadTc com tile dst) s = conclude s g (eachResult (issued s g i (.movsReadTc com tile dst) []) g i
      (.movsReadTc com tile dst) [] (if b.ntile ≤ tile.toNat then .error (.exc (Exc.of .illegalOperand))
        else .ok (issued s g i (.movsReadTc com tile dst) [], [((dst, false), (x.tile tile.toNat).tc.setWidth 64)]))) := by
  have run := each_may M (.movsReadTc com tile dst) fun g i _ s =>
    let b := s.block g.block
    if tileBad b tile.toNat then .error (.exc (Exc.of .illegalOperand))
    else .ok (s, [((dst, false), (((b.bc (b.thread i).bc).tile tile.toNat).tc).setWidth 64)])
  dsimp only at run
  rw [issued_core M.can.alone, tileBad, issued_ntile M.can.alone] at run
  simp only [decide_eq_true_iff] at run
  exact run

/-! ### TCFG and MOVS to a tile's control register -/

/-- The value that TCFG writes, of its operand's value. -/
def tcfgWord (src : SrcB) (v : DWord) : Word :=
  match src with
  | .op _ => v.setWidth 32
  | .imm w => w

/-- A control value is written: the value and the tile are looked at, and the register takes the value. -/
theorem tcfg_course {src : SrcB} (M : MayIssue s g i b t x com (srcsB src false) []) (idle : x.headOp 8 = none)
    (room : Room s g) :
    let w := tcfgWord src ((values s g i (srcsB src false)).getD 0 0)
    let ins : Instr := .tcfg com tile src
    exec ins s = onceAnswer s g i ins (srcsB src false)
      (if tcRefused ((issued s g i ins (srcsB src false)).block g.block) tile.toNat w then .stop (Exc.of .illegalOperand)
        else .done (setTc (issued s g i ins (srcsB src false)) g.block i tile.toNat w) []) := by
  intro w ins
  have run : exec ins s = onceThreadNoBoot ins (Use.plain com (srcsB src false) []) (fun g i l s =>
      if tcRefused (s.block g.block) tile.toNat (tcfgWord src (l.getD 0 0)) then .stop (Exc.of .illegalOperand)
      else .done (setTc s g.block i tile.toNat (tcfgWord src (l.getD 0 0))) []) s :=
    (withRoom_room M.can.alone room _).trans (inOrder_idle M.can.alone idle _)
  rw [run, once_may M]

theorem movsWriteTc_course {a : Opnd} (M : MayIssue s g i b t x com [(a, false)] []) (idle : x.headOp 8 = none) :
    let w : Word := (reads s g 0 i (a, false)).setWidth 32
    let ins : Instr := .movsWriteTc com tile a
    exec ins s = finish ((if tcRefused ((issued s g i ins [(a, false)]).block g.block) tile.toNat w then
        faultThread (issued s g i ins [(a, false)]) g i (some ins) (values s g i [(a, false)]) (Exc.of .illegalOperand)
      else setTc (issued s g i ins [(a, false)]) g.block i tile.toNat w).taken g.core g.e) g := by
  intro w ins
  show execMovsWriteTc com tile a s = _
  unfold execMovsWriteTc
  dsimp only
  rw [inOrder_idle M.can.alone idle, M.can.alone.group]
  dsimp only
  rw [barBoot_alone M.can.alone M.mode, gather_can M.can, runGather]
  simp only [List.map_cons, List.map_nil, List.getD_cons_zero]
  by_cases refused : tcRefused ((issued s g i ins [(a, false)]).block g.block) tile.toNat w = true
  · simp only [ins, w] at refused
    rw [if_pos refused, if_pos refused]
    rfl
  · simp only [ins, w] at refused
    rw [if_neg refused, if_neg refused]
    rfl

/-- Both forms, from the course: a value is written, or refused. -/
theorem tcWrite_result (A : Alone s g i b t x) {w : Word}
    (bad : tcRefused ((issued s g i ins srcs).block g.block) tile.toNat w = true →
      Traps s g i b t ins (values s g i srcs) (Exc.of .illegalOperand))
    (good : ¬ tcRefused ((issued s g i ins srcs).block g.block) tile.toNat w = true →
      Completes s g i ins (setTc (issued s g i ins srcs) g.block i tile.toNat w) []) :
    (tile.toNat < b.ntile → tcOk w.toNat = true → Completes s g i ins
      (inCore (issued s g i ins srcs) g t fun c => c.setTile tile.toNat ((c.tile tile.toNat).control w)) []) ∧
      (b.ntile ≤ tile.toNat ∨ tcOk w.toNat = false →
        Traps s g i b t ins (values s g i srcs) (Exc.of .illegalOperand)) := by
  rw [tcRefused_issued A] at bad good
  rw [setTc_issued A] at good
  refine ⟨fun inside ok => good ?_, bad⟩
  rintro (outside | refused)
  · omega
  · rw [ok] at refused
    exact Bool.noConfusion refused

theorem tcfg_result {src : SrcB} (M : MayIssue s g i b t x com (srcsB src false) []) (idle : x.headOp 8 = none)
    (room : Room s g) :
    let w := tcfgWord src ((values s g i (srcsB src false)).getD 0 0)
    (tile.toNat < b.ntile → tcOk w.toNat = true → Completes s g i (.tcfg com tile src)
      (inCore (issued s g i (.tcfg com tile src) (srcsB src false)) g t
        fun c => c.setTile tile.toNat ((c.tile tile.toNat).control w)) []) ∧
      (b.ntile ≤ tile.toNat ∨ tcOk w.toNat = false →
        Traps s g i b t (.tcfg com tile src) (values s g i (srcsB src false)) (Exc.of .illegalOperand)) := by
  intro w
  have course := tcfg_course (tile := tile) M idle room
  dsimp only at course
  refine tcWrite_result M.can.alone (fun bad => ?_) fun good => ?_
  · rw [if_pos bad] at course
    exact traps_of M.can.alone (by decide) course
  · rw [if_neg good] at course
    exact course

theorem movsWriteTc_result {a : Opnd} (M : MayIssue s g i b t x com [(a, false)] []) (idle : x.headOp 8 = none) :
    let w : Word := (reads s g 0 i (a, false)).setWidth 32
    (tile.toNat < b.ntile → tcOk w.toNat = true → Completes s g i (.movsWriteTc com tile a)
      (inCore (issued s g i (.movsWriteTc com tile a) [(a, false)]) g t
        fun c => c.setTile tile.toNat ((c.tile tile.toNat).control w)) []) ∧
      (b.ntile ≤ tile.toNat ∨ tcOk w.toNat = false →
        Traps s g i b t (.movsWriteTc com tile a) (values s g i [(a, false)]) (Exc.of .illegalOperand)) := by
  intro w
  have course := movsWriteTc_course (tile := tile) M idle
  dsimp only at course
  refine tcWrite_result M.can.alone (fun bad => ?_) fun good => ?_
  · rw [if_pos bad] at course
    exact traps_taken M.can.alone (by decide) course
  · rw [if_neg good] at course
    exact course

/-- Settles O16: each instruction from its course for a lone thread. -/
theorem tileControlAndWritePointers : Obligations.TileControlAndWritePointers := by
  refine ⟨fun _ _ _ _ _ _ _ _ _ M => movsReadWp_completes M, fun com tile dst s g i b t x M => ⟨fun inside => ?_,
    fun outside => ?_⟩, ?_⟩
  · have course := movsReadTc_course (tile := tile) M
    rw [if_neg (Nat.not_le.2 inside)] at course
    exact course
  · have course := movsReadTc_course (tile := tile) M
    rw [if_pos outside] at course
    exact traps_taken M.can.alone (by decide) course
  · intro com tile form src s g i b t x srcs ins M idle room w
    cases form with
    | true =>
      cases src with
      | op o => exact tcfg_result (src := .op o) M idle (room rfl)
      | imm v => exact tcfg_result (src := .imm v) M idle (room rfl)
    | false =>
      cases src with
      | op o => exact movsWriteTc_result (a := o) M idle
      | imm _ => exact movsWriteTc_result (a := .zero) M idle

end Sys2Proof.Claims
end

section
/-! The checks of an access and the course of a memory instruction: the obligation O26. -/

namespace Sys2Proof.Claims

open Machine

variable {s : State} {g : Grp} {i : Nat} {b : Block} {t : Thread} {x : BlockCore} {ins : Instr} {com : Com}
  {srcs dsts : List Src} {f : Form} {a : Access} {ea n off k bc : Nat} {cluster : Bool}

/-! ### The checks in scratch -/

/-- The share of scratch that an offset is checked against: the block's on its core, or that of all its cores (R170). -/
def scratchLimit (b : Block) (cluster : Bool) : Nat := if cluster then b.cores.length * b.scratch else b.scratch

theorem scratchPlace_range (h : scratchLimit (s.block k) cluster ≤ off) :
    scratchPlace s k bc cluster off n ea = .error (rangeExc ea) := if_pos h

theorem scratchPlace_align (h : off < scratchLimit (s.block k) cluster) (odd : off % n ≠ 0) :
    scratchPlace s k bc cluster off n ea = .error (alignExc ea) :=
  (if_neg (Nat.not_le.2 h)).trans (if_pos (bne_iff_ne.2 odd))

theorem scratchPlace_ok (h : off < scratchLimit (s.block k) cluster) (whole : off % n = 0) :
    scratchPlace s k bc cluster off n ea =
      .ok (if cluster then .scratch (off / (s.block k).scratch) (off % (s.block k).scratch) else .scratch bc off) := by
  refine (if_neg (Nat.not_le.2 h)).trans ((if_neg (by rw [whole]; decide)).trans ?_)
  cases cluster <;> rfl

/-! ### The checks outside boot mode -/

/-- The scratch window is the 2 ^ 33 addresses from its base on (R116). -/
theorem window_iff :
    (ea / 2 ^ 33 * 2 ^ 33 == scratchWindow) = true ↔ 0x000FE00000000000 ≤ ea ∧ ea < 0x000FE00200000000 := by
  rw [beq_iff_eq, scratchWindow]
  omega

section
variable (h : (s.thread g.block i).priv ≠ .boot)
include h

theorem resolve_local : resolve g i f .scratch a ea n s =
    (scratchPlace s g.block (s.thread g.block i).bc false ea n ea).map fun p => (p, s) :=
  if_neg (by rw [beq_iff_eq]; exact h)

theorem resolve_cluster : resolve g i f .cluster a ea n s =
    (scratchPlace s g.block (s.thread g.block i).bc true ea n ea).map fun p => (p, s) :=
  if_neg (by rw [beq_iff_eq]; exact h)

/-- A global address beyond 52 bits. -/
theorem resolve_beyond (far : 2 ^ 52 ≤ ea) : resolve g i f .global a ea n s = .error (rangeExc ea) :=
  (if_neg (by rw [beq_iff_eq]; exact h)).trans (if_pos far)

theorem resolve_window (window : 0x000FE00000000000 ≤ ea ∧ ea < 0x000FE00200000000) :
    resolve g i f .global a ea n s = if !f.window then .error (rangeExc ea)
      else (scratchPlace s g.block (s.thread g.block i).bc (bitOf ea 32) (ea % 2 ^ 32) n ea).map fun p => (p, s) :=
  (if_neg (by rw [beq_iff_eq]; exact h)).trans ((if_neg (by omega)).trans (if_pos (window_iff.2 window)))

/-- A global address outside the window is checked for its alignment, then translated. -/
theorem resolve_odd (near : ea < 2 ^ 52) (outside : ¬ (0x000FE00000000000 ≤ ea ∧ ea < 0x000FE00200000000))
    (odd : ea % n ≠ 0) : resolve g i f .global a ea n s = .error (alignExc ea) :=
  (if_neg (by rw [beq_iff_eq]; exact h)).trans ((if_neg (Nat.not_le.2 near)).trans
    ((if_neg (by rw [window_iff]; exact outside)).trans (if_pos (bne_iff_ne.2 odd))))

theorem resolve_translated (near : ea < 2 ^ 52) (outside : ¬ (0x000FE00000000000 ≤ ea ∧ ea < 0x000FE00200000000))
    (whole : ea % n = 0) {y : Xlat} {s1 : State}
    (found : s.translate g.core ((g.part s).getD 0) (s.thread g.block i).priv a ea = .ok (y, s1)) :
    resolve g i f .global a ea n s = .ok (.phys y.spa y.mt, s1) := by
  refine (if_neg (by rw [beq_iff_eq]; exact h)).trans ((if_neg (Nat.not_le.2 near)).trans
    ((if_neg (by rw [window_iff]; exact outside)).trans ((if_neg (by rw [whole]; decide)).trans ?_)))
  rw [found]

end

/-- Below its middle the window stands for the scratch of the thread's own core. -/
theorem window_local (h : 0x000FE00000000000 ≤ ea ∧ ea < 0x000FE00100000000) : bitOf ea 32 = false := by
  rw [bitOf, Nat.testBit_eq_decide_div_mod_eq, decide_eq_false_iff_not]
  omega

/-- The first part of O26: what an access meets, in the order of its checks. -/
theorem resolve_checks (h : (s.thread g.block i).priv ≠ .boot) :
    let t := s.thread g.block i
    let b := s.block g.block
    let range : Except Stop (Place × State) := .error (.exc ⟨.addrRange, 0, 0, ea, 0⟩)
    let align : Except Stop (Place × State) := .error (.exc ⟨.align, 0, 0, ea, 0⟩)
    let inWindow : Prop := 0x000FE00000000000 ≤ ea ∧ ea < 0x000FE00200000000
    (b.scratch ≤ ea → resolve g i f .scratch a ea n s = range) ∧
    (ea < b.scratch → ea % n ≠ 0 → resolve g i f .scratch a ea n s = align) ∧
    (ea < b.scratch → ea % n = 0 → resolve g i f .scratch a ea n s = .ok (.scratch t.bc ea, s)) ∧
    (ea < b.cores.length * b.scratch → ea % n = 0 →
      resolve g i f .cluster a ea n s = .ok (.scratch (ea / b.scratch) (ea % b.scratch), s)) ∧
    (2 ^ 52 ≤ ea → resolve g i f .global a ea n s = range) ∧
    (inWindow → f.window = false → resolve g i f .global a ea n s = range) ∧
    (inWindow → ea < 0x000FE00100000000 → f.window = true → ea % 2 ^ 32 < b.scratch → ea % 2 ^ 32 % n = 0 →
      resolve g i f .global a ea n s = .ok (.scratch t.bc (ea % 2 ^ 32), s)) ∧
    (ea < 2 ^ 52 → ¬ inWindow → ea % n ≠ 0 → resolve g i f .global a ea n s = align) ∧
    (ea < 2 ^ 52 → ¬ inWindow → ea % n = 0 → ∀ y s1,
      s.translate g.core ((g.part s).getD 0) t.priv a ea = .ok (y, s1) →
      resolve g i f .global a ea n s = .ok (.phys y.spa y.mt, s1)) := by
  refine ⟨fun out => ?_, fun inside odd => ?_, fun inside whole => ?_, fun inside whole => ?_, resolve_beyond h,
    fun window refused => ?_, fun window low accepted inside whole => ?_, resolve_odd h,
    fun near outside whole y s1 found => resolve_translated h near outside whole found⟩
  · rw [resolve_local h, scratchPlace_range (cluster := false) out]
    rfl
  · rw [resolve_local h, scratchPlace_align (cluster := false) inside odd]
    rfl
  · rw [resolve_local h, scratchPlace_ok (cluster := false) inside whole]
    rfl
  · rw [resolve_cluster h, scratchPlace_ok (cluster := true) inside whole]
    rfl
  · rw [resolve_window h window, refused]
    rfl
  · rw [resolve_window h window, accepted, window_local ⟨window.1, low⟩,
      scratchPlace_ok (cluster := false) inside whole]
    rfl

/-! ### No check of an access meets poison -/

/-- A computation stops with no exception for poisoned data. -/
def Unpoisoned {α : Type} (r : Except Stop α) : Prop := ∀ e, r = .error (.exc e) → e.cls ≠ .poison

theorem unpoisoned_ok {α : Type} (v : α) : Unpoisoned (.ok v : Except Stop α) := fun _ h => by cases h

theorem unpoisoned_exc {α : Type} {e : Exc} (h : e.cls ≠ .poison) : Unpoisoned (.error (.exc e) : Except Stop α) :=
  fun _ same => by cases same; exact h

theorem unpoisoned_range {α : Type} (ea : Nat) : Unpoisoned (.error (rangeExc ea) : Except Stop α) :=
  unpoisoned_exc (show Cls.addrRange ≠ .poison by decide)

theorem unpoisoned_align {α : Type} (ea : Nat) : Unpoisoned (.error (alignExc ea) : Except Stop α) :=
  unpoisoned_exc (show Cls.align ≠ .poison by decide)

theorem Unpoisoned.map {α β : Type} {r : Except Stop α} (h : Unpoisoned r) (q : α → β) : Unpoisoned (r.map q) := by
  cases r with
  | ok v => exact unpoisoned_ok _
  | error e => exact fun e' same => h e' (by cases same; rfl)

theorem unpoisoned_scratchPlace : Unpoisoned (scratchPlace s k bc cluster off n ea) := by
  by_cases inside : off < scratchLimit (s.block k) cluster
  · by_cases whole : off % n = 0
    · rw [scratchPlace_ok inside whole]
      exact unpoisoned_ok _
    · rw [scratchPlace_align inside whole]
      exact unpoisoned_align _
  · rw [scratchPlace_range (Nat.not_lt.1 inside)]
    exact unpoisoned_range _

theorem unpoisoned_bootPlace {c : Nat} : Unpoisoned (bootPlace s c f ea n) := by
  unfold bootPlace
  dsimp only
  split
  · exact unpoisoned_range _
  split
  · split
    · exact unpoisoned_range _
    split
    · exact unpoisoned_align _
    · exact unpoisoned_ok _
  split
  · exact unpoisoned_range _
  split
  · exact unpoisoned_align _
  split
  · exact fun _ h => by cases h
  · exact unpoisoned_ok _
  · exact unpoisoned_ok _

/-- A translation is refused with a page fault, or misses. -/
theorem unpoisoned_translate {c part : Nat} {pr : Priv} : Unpoisoned (s.translate c part pr a ea) := by
  unfold State.translate State.translateVia
  dsimp only
  split
  · exact unpoisoned_ok _
  split
  · exact unpoisoned_ok _
  split
  · exact unpoisoned_exc (by decide)
  split
  · next e _ =>
    unfold XErr.stop
    split
    · exact fun _ h => by cases h
    · exact unpoisoned_exc (show Cls.pageFault ≠ .poison by decide)
  · exact unpoisoned_ok _

theorem unpoisoned_resolve {sp : Space} : Unpoisoned (resolve g i f sp a ea n s) := by
  unfold resolve
  dsimp only
  split
  · split
    · exact unpoisoned_range _
    · exact unpoisoned_bootPlace.map _
  split
  · exact unpoisoned_scratchPlace.map _
  · exact unpoisoned_scratchPlace.map _
  split
  · exact unpoisoned_range _
  split
  · split
    · exact unpoisoned_range _
    · exact unpoisoned_scratchPlace.map _
  split
  · exact unpoisoned_align _
  · have refused := unpoisoned_translate (s := s) (c := g.core) (part := (g.part s).getD 0)
      (pr := (s.thread g.block i).priv) (a := a) (ea := ea)
    split
    · next e same => exact fun e' h => refused e' (by cases h; exact same)
    · exact unpoisoned_ok _

/-! ### The course of a memory instruction -/

/-- A memory instruction's operands and what it does once it is checked. -/
theorem memForm_run {noBoot : Bool} (h : memForm ins = some (com, srcs, dsts, noBoot)) (A : Alone s g i b t x)
    (mode : noBoot = true → t.priv ≠ .boot) :
    ∃ work, pendWork ins = some work ∧ exec ins s = memIssue ins (Use.plain com srcs dsts) work s := by
  have barred : ∀ u work, t.priv ≠ .boot → memIssueNoBoot ins u work s = memIssue ins u work s := fun u work user => by
    rw [memIssueNoBoot, A.group]
    exact barBoot_alone A user ..
  cases (families ins).mem _ h with
  | ld | st | red | amaxsw =>
    cases h
    exact ⟨_, rfl, rfl⟩
  | ldg | sct =>
    cases h
    exact ⟨_, rfl, barred _ _ (mode rfl)⟩
  | atom com op ty ord dst c m =>
    cases h
    refine ⟨_, rfl, ?_⟩
    have use : (atomUseWork com op ty ord dst c m).1 =
        Use.plain com (memSrcs m ++ atomSrcs op ty dst c m) [(dst, tyWide ty)] := by
      unfold atomUseWork atomSrcs
      dsimp only
      split
      · rfl
      · split <;> rfl
    rw [← use]
    rfl

/-- A memory instruction is checked and performed as it issues. -/
theorem memIssue_performed (C : CanIssue s g i b t x com srcs dsts) (now : s.lazyMem = false ∨ pendingOther ins = true)
    (work : Work) : memIssue ins (Use.plain com srcs dsts) work s =
      conclude s g (work g [(i, values s g i srcs)] (issued s g i ins srcs)) := by
  have stays : (s.lazyMem && g.ov.isNone && !pendingOther ins) = false := by
    rcases now with h | h <;> rw [h] <;> simp
  simp only [memIssue, C.alone.group, stays, Bool.false_and, Bool.false_eq_true, if_false,
    prepare_alone (u := Use.plain com srcs dsts) C.alone ins C.active rfl (Nat.zero_le _) C.readable C.writable]
  rfl

/-- A memory instruction stays pending with the values of its operands (R339). -/
theorem memIssue_pends (C : CanIssue s g i b t x com srcs dsts) (later : s.lazyMem = true) (only : pendingOther ins = false)
    (work : Work) : memIssue ins (Use.plain com srcs dsts) work s =
      finish ((issued s g i ins srcs).modEntry g.core g.e fun en =>
        { en with
          pend := [⟨t.pc, ins, [(i, values s g i srcs)]⟩]
          shadow := 0 }) g := by
  obtain ⟨-, pc, -⟩ := C.alone.entry
  simp only [memIssue, C.alone.group, later, only, C.alone.own, Option.isNone_none, Bool.and_true, Bool.not_false,
    prepare_alone (u := Use.plain com srcs dsts) C.alone ins C.active rfl (Nat.zero_le _) C.readable C.writable,
    List.isEmpty_cons, if_true, pc]
  rfl

/-- PENDING_CHECK performs the oldest pending instruction with the threads that are still there. -/
theorem pendingCheck_performs {core e : Nat} {en : Entry} {p : PendInstr} {rest : List PendInstr} {work : Work} {s2 : State}
    (he : s.entry core e = some en) (hp : en.pend = p :: rest) (hw : pendWork p.instr = some work)
    (done : work ⟨core, e, en.block, p.pc, en.members, none⟩
        (p.threads.filter fun y =>
          (Kv.find y.1 (s.block en.block).threads).isSome && ((s.block en.block).thread y.1).ready)
        (s.modEntry core e fun en =>
          { en with
            pend := rest
            shadow := 0 }) = .ok s2) :
    exec (.pendingCheck core e) s = .next (regroup (s2.taken core e) core e) := by
  show execPendingCheck core e s = _
  simp only [execPendingCheck, he, hp, hw, done]
  rfl

/-- A load that its check stops takes the exception of the check. -/
theorem ld_stopped {ty : Ty} {quad : Bool} {ord : MemOrd} {dst : Opnd} {m : MemOp} {e : Exc}
    (C : CanIssue s g i b t x com (memSrcs m) (dataOps true ty quad dst)) (now : s.lazyMem = false)
    (stop : resolve g i ⟨true, true⟩ m.space .load (eaNow s g i m) (accessBytes ty quad)
      (issued s g i (.ld com ty quad ord dst m) (memSrcs m)) = .error (.exc e)) :
    Traps s g i b t (.ld com ty quad ord dst m) (values s g i (memSrcs m)) e := by
  have run : exec (.ld com ty quad ord dst m) s = _ := memIssue_performed C (.inl now) _
  have stopped : ldWork (.ld com ty quad ord dst m) ty quad ord dst m g [(i, values s g i (memSrcs m))]
      (issued s g i (.ld com ty quad ord dst m) (memSrcs m)) =
        .ok (faultThread (issued s g i (.ld com ty quad ord dst m) (memSrcs m)) g i (some (.ld com ty quad ord dst m))
          (values s g i (memSrcs m)) e) := by
    have ea : eaOf m (values s g i (memSrcs m)) = eaNow s g i m := rfl
    simp only [ldWork, runThreads, ea, stop]
  rw [stopped] at run
  exact traps_taken C.alone (unpoisoned_resolve e stop) run

/-- Settles O26: the checks of an access, and the two courses of a memory instruction. -/
theorem memoryInstructionsCourse : Obligations.MemoryInstructionsCourse := by
  refine ⟨fun g i f a ea n s user _ => resolve_checks user, ?_, fun s core e en p rest work s2 he hp hw done =>
    pendingCheck_performs he hp hw done, fun com ty quad ord dst m s g i b t x e C now stop => ld_stopped C now stop⟩
  intro ins com srcs dsts noBoot s g i b t x form C mode
  obtain ⟨work, pend, run⟩ := memForm_run form C.alone mode
  refine ⟨work, pend, fun now s1 done => ?_, fun later only => ?_⟩
  · rw [run, memIssue_performed C now, done]
    rfl
  · rw [run, memIssue_pends C later only]
    rfl

end Sys2Proof.Claims
end
